-- ==== Sys2Proof/Word.lean ====
section
/-!
DEFINITION. Sys2Proof/Word.lean: the word types of the LM-3288-A and nothing else. Bits are numbered from 0 at the
least significant end (R23), every multi-byte field is little-endian (R26).
-/
namespace Sys2Proof

/-- One byte. -/
abbrev Byte := BitVec 8
/-- A 16-bit field (status codes, UDP ports, sequence numbers of flits). -/
abbrev W16 := BitVec 16
/-- A 32-bit field (CRC-32C values, SHAPE, SESSION, SEQ). -/
abbrev W32 := BitVec 32
/-- A 64-bit word: the unit packets, command bodies and registers are written in (R539, R393, R740). -/
abbrev W64 := BitVec 64
/-- The encoding of an IEEE 754-2019 binary64 value (R84). -/
abbrev F64 := BitVec 64

end Sys2Proof
end

