-- ==== Sys2Proof/Syntax.lean ====
section
/-!
DEFINITION. Sys2Proof/Syntax.lean: the commands and events of the LM-3288-A, one constructor per row of the table of
operations and events, with the packets, flits and facts they carry.
-/
namespace Sys2Proof

/-- Where a command packet came from: a management port with the sender's IP address and UDP port, or an in-band
port (R394, R396). -/
inductive CmdSrc
  | mgmt (port : Nat) (addr : BitVec 128) (udp : Nat)
  | inband (port : Nat)
  deriving DecidableEq, Repr

/-- A received Ouvrov packet (Table 12-1): its 64-bit words from the header on, the bytes past the last whole word, whether it
came as an IP fragment, and for an in-band packet the common word of the LTL packet that carried it (R553). -/
structure CmdPkt where
  src   : CmdSrc
  common : W64 := 0
  frag  : Bool := false
  words : List W64
  tail  : List Byte := []
  deriving DecidableEq, Repr

/-- A received LTL packet: the port it arrived on, the SRC of its trunk envelope (0 from a member), the envelope's
remaining fields (DST, HOPS), and its words from the common word on (Table 15-8). -/
structure PktRx where
  port  : Nat
  src   : Nat := 0
  dst   : Nat := 0
  hops  : Nat := 32
  words : List W64
  deriving DecidableEq, Repr

/-- A received flit (Table 15-3): header word, sixty-one 4-byte payload units, CRC, and the FEC codewords corrected and
uncorrectable under it. -/
structure FlitRx where
  hdr      : W64
  payload  : List W32
  crc      : W32
  fecCorr  : Nat := 0
  fecUnc   : Nat := 0
  deriving DecidableEq, Repr

/-- A part of an update die's cache that writes through (Table 8-11). -/
inductive CachePart
  | frames
  | metas
  | staging
  deriving DecidableEq, Repr

/-- A packet that a face die holds: waiting to be sent on a port, waiting for the policer on a port, or past the policer; `place`
counts from the oldest. -/
inductive HeldPacket
  | out (port place : Nat)
  | waiting (port place : Nat)
  | past (place : Nat)
  deriving DecidableEq, Repr

/-- The area of an SRAM word (Table 19-4), with what the word held. -/
inductive SramArea
  /-- Seam accumulator SRAM, transfer buffers or sequencer: physical seam, and the contexts with a value in it. -/
  | accum (seam : Nat) (ctxs : List Nat)
  /-- A checking seam: physical seam, and the sample with a value in the word. -/
  | checking (seam ctx slab : Nat)
  /-- A port's replay buffer. -/
  | replay (port : Nat)
  /-- Another area of a face die: ports whose partly received packets the word held, and the whole packets it held. -/
  | faceOther (ports : List Nat) (held : List HeldPacket)
  /-- Update die frame, metadata or staging cache: the stripe whose line the word held. -/
  | updCache (part : CachePart) (stripe : Nat)
  /-- Update die write-combining: the job whose step's write it held. -/
  | updCombining (job : Nat)
  /-- Control die K. -/
  | control
  deriving DecidableEq, Repr

/-- The quantities whose residues every lane carries (R190), in the rule's order. -/
inductive Checked
  /-- The significand produced by ingest conversion. -/
  | ingest
  /-- In each adder: the significands before alignment, the aligned ones, the integer sum before normalization. -/
  | addBefore | addAligned | addSum
  /-- In each adder: the rounding increment, the normalized significand. -/
  | addRound | addNormal
  /-- In each adder: the exponent difference, the result exponent. -/
  | addExpDiff | addExp
  /-- In the output stage: the product and the sum of the fused multiply-add, the clip selection, the rounding increment. -/
  | outProduct | outSum | outClip | outRound
  deriving DecidableEq, Repr

/-- The residues of a checked quantity of one lane (R190): modulo 3 and modulo 7, as predicted from the inputs of its stage and as
computed from the stage's output. -/
structure Residues where
  lane  : Nat
  what  : Checked
  pred3 : Nat
  got3  : Nat
  pred7 : Nat
  got7  : Nat
  deriving DecidableEq, Repr

/-- Residues that an active seam has found at a slab and pass of a context (R190). -/
structure SeamAt where
  ctx   : Nat
  slab  : Nat
  pass  : Nat
  found : Residues
  deriving DecidableEq, Repr

/-- A trigger of the repair engine (Table 19-3), with the unit it names. -/
inductive Trigger
  /-- The slice steered to a port position. -/
  | slice (port : Nat)
  /-- An optical position. -/
  | position (port : Nat)
  /-- An optical engine, with its 8 positions (R560). -/
  | engine (engine : Nat)
  /-- A physical seam. -/
  | seam (seam : Nat)
  /-- Residues found at an active seam while it worked on what another command or event set off: a refill, a partial answer, an
  open, a reference slab emitted late (R190, R191). -/
  | residue (at_ : SeamAt)
  /-- A combine die, 0 to 8. -/
  | combineDie (die : Nat)
  /-- A memory channel, 0 to 255. -/
  | channel (channel : Nat)
  /-- A whole memory stack is lost, 4 × update die + stack (R285). -/
  | stack (stack : Nat)
  /-- An update lane, 128 × die + lane. -/
  | updateLane (lane : Nat)
  /-- A word of a row of an SRAM bank of die `d` of Table 19-12 (31 is K), corrected or uncorrectable. -/
  | sramRow (die bank row : Nat) (uncorrectable : Bool) (area : SramArea)
  deriving DecidableEq, Repr

/-- What the update die meets besides the values while it updates a slab. -/
inductive UpdFault
  | none
  /-- A residue mismatch on an update lane (R206). -/
  | residue (lane : Nat)
  /-- An uncorrectable memory read (R286): of the valid copy (0), metadata (1) or staging (2). -/
  | memUe (area : Nat)
  deriving DecidableEq, Repr

/-- How the comparison of a sampled slab ends (R192, R195): every value agreed; the first one that differed (its kind, pass and
lane); residues of the checking seam that may not agree. -/
inductive SampleEnd
  | agreed
  | differed (value pass lane : Nat)
  | residue (found : Residues)
  deriving DecidableEq, Repr

/-- An error that strikes a 32-byte block of an update die's memory (R263): the stripe, the channel of the die, the bits that
turn over, and whether the inner code detects the error where more than two symbols are wrong. -/
structure Strike where
  stripe  : Nat
  channel : Nat
  pat     : BitVec 256
  caught  : Bool
  deriving DecidableEq, Repr

/-- A slot clock that runs out: its pass and, where the seam then fills slots, residues it has found (R190). -/
structure PassClock where
  pass    : Nat
  residue : Option Residues
  deriving DecidableEq, Repr

/-- A REPLAY_DATA packet and residues that a seam taking its injected copies has found (R190). -/
structure ReplayRx where
  pkt     : PktRx
  residue : Option SeamAt
  deriving DecidableEq, Repr

/-- A record write that a loss of power interrupts (R689, R690, R711): a new copy, being programmed on A, or on B after A; or the newest
copy of a record on a mirror being copied forward. `words` of it, header first, have been programmed. -/
structure TornWrite where
  rid     : Nat
  body    : List W64
  mirrorB : Bool
  forward : Bool
  words   : Nat
  deriving DecidableEq, Repr

/-- How the input falls below 40 V: below 10 V, and a record write that this interrupts. -/
structure InputFall where
  below10 : Bool
  torn    : Option TornWrite
  deriving DecidableEq, Repr

/-- Retries of one transfer on a lane group of a die-to-die link (R62). -/
structure GroupRetries where
  link    : Nat
  retries : Nat
  deriving DecidableEq, Repr

/-- A stretch of the scrubber's walk on an update die (R266): how many stripes, and the errors that have struck before it. -/
structure ScrubWalk where
  die     : Nat
  stripes : Nat
  strikes : List Strike
  deriving DecidableEq, Repr

/-- The commands and events of the module: one constructor per row of the table of operations and events, in its
order. -/
inductive Instr
  /-- MODULE_INFO (R428): Command that returns the module's serial, part, stepping, ROM and patch versions and start-up phase. -/
  | moduleInfo (p : CmdPkt)
  /-- AUTH_SET (R429): Command that writes one principal entry and stores it in retained flash before replying. -/
  | authSet (p : CmdPkt)
  /-- PATCH_LOAD (R430): Segmented command that verifies a signed Ivpin patch and stores it for the next start-up. -/
  | patchLoad (p : CmdPkt)
  /-- PORT_CONFIG (R431): Command that sets a port position's role, retrains its links and retains the role. -/
  | portConfig (p : CmdPkt)
  /-- REG_READ (R432): Command that reads words of the module register map. -/
  | regRead (p : CmdPkt)
  /-- REG_WRITE (R433): Command that writes a writable module register that has no behaviour of its own, such as FABRIC_CFG, FABRIC_MAP, MGMT_ADDR or JOB_PAIRS. -/
  | regWrite (p : CmdPkt)
  /-- TRAP_CTL (R749): Write to TRAP_CTL that releases trap records up to the value written and advances READ_TSEQ. -/
  | trapCtl (p : CmdPkt)
  /-- CAPTURE_CLEAR (R743): Write to word 0x00 of a port's CAPTURE record that clears VALID and rearms the capture. -/
  | captureClear (p : CmdPkt)
  /-- JOB_REG_READ (R748): Command that reads words of a job's register window. -/
  | jobRegRead (p : CmdPkt)
  /-- TELEM_SET (R434): Command that configures or turns off one of the four telemetry sinks. -/
  | telemSet (p : CmdPkt)
  /-- JOB_CREATE (R437): Segmented command that creates a job with its module list, step counter, seed and seal object. -/
  | jobCreate (p : CmdPkt)
  /-- JOB_DESTROY (R439): Command that releases all of a job's contexts, graphs, regions, objects and members. -/
  | jobDestroy (p : CmdPkt)
  /-- JOB_QUOTA (R440): Command that sets a job's quotas and VC weights. -/
  | jobQuota (p : CmdPkt)
  /-- JOB_CONFIG (R441): Command that sets a job's default hold deadline and haul drop time. -/
  | jobConfig (p : CmdPkt)
  /-- JOB_READ (R442): Command that returns a job's commit word, seal state, attempt, step counter and coordinator. -/
  | jobRead (p : CmdPkt)
  /-- MEMBER_ATTACH (R443): Command that gives a member number to a member on one or two home ports. -/
  | memberAttach (p : CmdPkt)
  /-- MEMBER_DETACH (R444): Command that detaches a member, dropping its haul and ending its hoists. -/
  | memberDetach (p : CmdPkt)
  /-- REGION_CREATE (R445): Command that creates a region and reserves its frames, staging, metadata and parity share. -/
  | regionCreate (p : CmdPkt)
  /-- REGION_DESTROY (R446): Command that frees a region's store and returns its parity to zero. -/
  | regionDestroy (p : CmdPkt)
  /-- PARAM_LOAD (R449): Command that loads base copies of owned slabs from a storage member. -/
  | paramLoad (p : CmdPkt)
  /-- HAUL_SET (R450): Command that writes a region's haul format list. -/
  | haulSet (p : CmdPkt)
  /-- HAUL_SUB (R451): Command that sets a member's haul subscription for a region. -/
  | haulSub (p : CmdPkt)
  /-- RANKMAP_LOAD (R452): Segmented command that writes a rank map into a rank map slot. -/
  | rankmapLoad (p : CmdPkt)
  /-- RULE_LOAD (R453): Command that writes a rule slot. -/
  | ruleLoad (p : CmdPkt)
  /-- SCHED_LOAD (R454): Command that writes a schedule entry. -/
  | schedLoad (p : CmdPkt)
  /-- SCHED_READ (R455): Command that returns LR, K1, K2 and K3 of an entry for a given step. -/
  | schedRead (p : CmdPkt)
  /-- OBJ_FREE (R456): Command that frees a rank map slot, rule slot or schedule entry. -/
  | objFree (p : CmdPkt)
  /-- CTX_OPEN (R368): Command that admits a context, starts its drain under the new epoch and begins the step if needed. -/
  | ctxOpen (p : CmdPkt)
  /-- CTX_RELEASE (R387): Command that closes a context, drains it, frees its entries and returns it to IDLE or FREE. -/
  | ctxRelease (p : CmdPkt)
  /-- CTX_READ (R460): Command that returns a context record. -/
  | ctxRead (p : CmdPkt)
  /-- GRAPH_SUBMIT (R461): Segmented command that checks and holds a step graph. -/
  | graphSubmit (p : CmdPkt)
  /-- GRAPH_RELEASE (R487): Command that binds a graph to the current step and attempt and makes its nodes eligible. -/
  | graphRelease (p : CmdPkt)
  /-- GRAPH_CANCEL (R504): Command that skips a graph's unbegun nodes and frees it when running nodes complete. -/
  | graphCancel (p : CmdPkt)
  /-- GRAPH_READ (R463): Paged command that returns a graph's node states. -/
  | graphRead (p : CmdPkt)
  /-- SYNC_ALLOC (R464): Command that allocates the lowest free sync object as a counter or barrier. -/
  | syncAlloc (p : CmdPkt)
  /-- SYNC_FREE (R465): Command that frees a sync object. -/
  | syncFree (p : CmdPkt)
  /-- SYNC_OP (R506): Command that applies a counter or barrier operation to a sync object and returns the prior value. -/
  | syncOp (p : CmdPkt)
  /-- STEP_SEAL (R334): Command that requests the seal of the current step, forwarded to the coordinator. -/
  | stepSeal (p : CmdPkt)
  /-- STEP_ABORT (R349): Command that requests the abort of the current attempt through the coordinator. -/
  | stepAbort (p : CmdPkt)
  /-- STEP_POISON (R353): Command that records a member-detected non-finite loss and marks or aborts the step. -/
  | stepPoison (p : CmdPkt)
  /-- SNAP_CONFIG (R469): Command that sets the snapshot interval and storage members. -/
  | snapConfig (p : CmdPkt)
  /-- SNAP_TAKE (R470): Command that starts a snapshot of the committed copies. -/
  | snapTake (p : CmdPkt)
  /-- SNAP_RESTORE (R637): Command that restores owned slabs from a storage member and sets the commit word. -/
  | snapRestore (p : CmdPkt)
  /-- SNAP_READ (R472): Command that returns snapshot status. -/
  | snapRead (p : CmdPkt)
  /-- PARITY_GROUP_SET (R473): Command that sets the module's parity group and sends a group claim. -/
  | parityGroupSet (p : CmdPkt)
  /-- REBUILD_START (R629): Command that claims an ordinal and rebuilds its shard from parity. -/
  | rebuildStart (p : CmdPkt)
  /-- PARITY_READ (R475): Command that returns parity group and rebuild status. -/
  | parityRead (p : CmdPkt)
  /-- REC_START (R668): Command that starts recording a job to a store buffer or the VC5 mirror. -/
  | recStart (p : CmdPkt)
  /-- REC_STOP (R673): Command that ends a recording, writes END and keeps the held record. -/
  | recStop (p : CmdPkt)
  /-- REPLAY_START (R676): Command that starts replaying a record stream into a quiesced job. -/
  | replayStart (p : CmdPkt)
  /-- REF_MODE (R681): Command that enables or disables reference mode for a job. -/
  | refMode (p : CmdPkt)
  /-- CABLE_PLAN_LOAD (R480): Segmented command that replaces the stored cabling plan. -/
  | cablePlanLoad (p : CmdPkt)
  /-- CABLE_CHECK (R481): Command that classifies every up port against the cabling plan and returns counts. -/
  | cableCheck (p : CmdPkt)
  /-- CABLE_REPORT (R577): Paged command that returns the per-port cabling report. -/
  | cableReport (p : CmdPkt)
  /-- SPARE_READ (R482): Paged command that returns the spare map. -/
  | spareRead (p : CmdPkt)
  /-- SPARE_RETIRE (R483): Command that has the repair engine retire a named unit. -/
  | spareRetire (p : CmdPkt)
  /-- BYPASS_SET (R484): Command that holds bypass pairs joined or returns them to automatic control. -/
  | bypassSet (p : CmdPkt)
  /-- INTERIM_REPLY (R404): A command without a final reply 1 ms after acceptance is answered with ST_PENDING. -/
  | interimReply
  /-- STAGED_LOAD_TIMEOUT (R425): A staged load with no segment for 10 s is discarded. -/
  | stagedLoadTimeout
  /-- PAGE (R722): PMBus command that selects the rail page. -/
  | page (value : Option Nat)
  /-- OPERATION_OFF (R724): PMBus OPERATION 0x00 shuts the module down with cause 6. -/
  | operationOff
  /-- OPERATION_ON (R724): PMBus OPERATION 0x80 starts the module when the input is in range. -/
  | operationOn
  /-- CLEAR_FAULTS (R724): PMBus command that clears STATUS bits and the shutdown latch. -/
  | clearFaults
  /-- VOUT_MODE (R722): PMBus read of the output voltage format. -/
  | voutMode
  /-- STATUS_WORD (R722): PMBus read of the status word. -/
  | statusWord
  /-- STATUS_VOUT (R722): PMBus read of output voltage status. -/
  | statusVout
  /-- STATUS_IOUT (R722): PMBus read of output current status. -/
  | statusIout
  /-- STATUS_INPUT (R722): PMBus read of input status. -/
  | statusInput
  /-- STATUS_TEMPERATURE (R722): PMBus read of temperature status. -/
  | statusTemperature
  /-- STATUS_CML (R722): PMBus read of communication status. -/
  | statusCml
  /-- READ_VIN (R723): PMBus read of input voltage. -/
  | readVin
  /-- READ_IIN (R723): PMBus read of input current. -/
  | readIin
  /-- READ_VOUT (R723): PMBus read of a rail voltage. -/
  | readVout
  /-- READ_IOUT (R723): PMBus read of a rail current. -/
  | readIout
  /-- READ_TEMPERATURE_1 (R723): PMBus read of the power stage temperature. -/
  | readTemperature1
  /-- READ_TEMPERATURE_2 (R723): PMBus read of the coolant inlet temperature. -/
  | readTemperature2
  /-- READ_TEMPERATURE_3 (R723): PMBus read of the coolant outlet temperature. -/
  | readTemperature3
  /-- READ_POUT (R723): PMBus read of a rail's power. -/
  | readPout
  /-- READ_PIN (R723): PMBus read of input power. -/
  | readPin
  /-- PMBUS_REVISION (R722): PMBus read of the PMBus revision. -/
  | pmbusRevision
  /-- MFR_ID (R722): PMBus read of the manufacturer identifier. -/
  | mfrId
  /-- MFR_MODEL (R722): PMBus read of the model name. -/
  | mfrModel
  /-- MFR_SERIAL (R722): PMBus read of the module serial. -/
  | mfrSerial
  /-- MFR_SHUTDOWN_CAUSE (R722): PMBus read of the latched shutdown cause. -/
  | mfrShutdownCause
  /-- PMBUS_UNSUPPORTED (R722): An unsupported PMBus command is not acknowledged and sets CML. -/
  | pmbusUnsupported (code : Byte) (value : Option Byte)
  /-- SMBUS_READ_BYTE (R742): SMBus Read Byte of identity or start status at the command-code offset. -/
  | smbusReadByte (offset : Nat)
  /-- SMBUS_READ_WORD (R742): SMBus Read Word of identity or start status. -/
  | smbusReadWord (offset : Nat)
  /-- SMBUS_BLOCK_READ (R742): SMBus Block Read of up to 32 bytes of identity or start status. -/
  | smbusBlockRead (offset : Nat) (len : Nat)
  /-- JTAG_BYPASS (R735): IEEE 1149.1 BYPASS instruction. -/
  | jtagBypass
  /-- IDCODE (R735): IEEE 1149.1 IDCODE instruction returning 0x1328_855D. -/
  | idcode
  /-- SAMPLE_PRELOAD (R735): IEEE 1149.1 SAMPLE/PRELOAD instruction. -/
  | samplePreload (bits : List Bool)
  /-- EXTEST (R735): IEEE 1149.1 EXTEST instruction. -/
  | extest
  /-- HIGHZ (R735): IEEE 1149.1 HIGHZ instruction. -/
  | highz
  /-- SCAN_EN_ASSERT (R735): Asserting SCAN_EN activates the test port and shuts the module down with cause 7. -/
  | scanEnAssert
  /-- SCAN_EN_RELEASE (R715): Releasing SCAN_EN restarts the module at POWER. -/
  | scanEnRelease
  /-- INPUT_RISE (R705): The 48 V input rising through 40 V begins start-up at POWER. -/
  | inputRise
  /-- INPUT_LOW (R715): Input below 40 V for more than 100 µs shuts the module down with cause 1. -/
  | inputLow (fall : InputFall)
  /-- INPUT_DIP (R714): An input dip of at most 100 µs has no effect. -/
  | inputDip
  /-- INPUT_HIGH (R715): Input above 59.5 V for more than 1 ms shuts the module down with cause 2. -/
  | inputHigh
  /-- INPUT_HIGH_CLEAR (R715): Input falling below 59.5 V after an overvoltage shutdown restarts the module. -/
  | inputHighClear
  /-- OVERCURRENT (R715): Input current above 150 A for 1 ms shuts the module down with cause 3. -/
  | overcurrent
  /-- RAIL_FAULT (R715): A rail outside ±5 % for 100 µs shuts the module down with cause 8. -/
  | railFault
  /-- SHUTDOWN_RESTART (R715): One second after a shutdown of cause 3, 5 or 8 the power stage restarts unless four restarts occurred in 10 minutes. -/
  | shutdownRestart
  /-- HEARTBEAT (R716): The clock-root helper writes the heartbeat every 1 ms. -/
  | heartbeat
  /-- HEARTBEAT_MISSING (R716): The heartbeat missing for 10 ms shuts the module down with cause 5. -/
  | heartbeatMissing
  /-- OVER_TEMPERATURE (R731): A die at 110 °C or an engine at 85 °C shuts the module down with cause 4. -/
  | overTemperature
  /-- TEMP_RECOVERED (R715): The hottest die sensor falling to 90 °C restarts the module after a thermal shutdown. -/
  | tempRecovered
  /-- THERMAL_WARN (R731): A sensor or coolant inlet crossing its warning level raises THERMAL_WARN once per excursion. -/
  | thermalWarn (sensor : Nat) (above : Bool)
  /-- INPUT_WARN (R739): Input near a limit of its range for more than 1 s raises INPUT_WARN. -/
  | inputWarn (near : Bool)
  /-- MODULE_RESET (R692): A reset with the input in range restarts start-up at ROM and joins the bypass pairs. -/
  | moduleReset
  /-- REF_CLOCK_LOSS (R728): Loss of the reference clock moves every PLL to holdover and raises CLOCK_REF. -/
  | refClockLoss
  /-- REF_CLOCK_RETURN (R728): The reference present again for 100 ms makes the clock root slew back to it. -/
  | refClockReturn
  /-- PLL_LOCK_LOSS (R727): A domain PLL out of lock for more than 1 µs stops its domain with the effect of Table 22-8. -/
  | pllLockLoss (domain : Nat)
  /-- PHASE_ROM (R694): ROM phase: processor self-checks, K SRAM test and choice of the active processor. -/
  | phaseRom (passed : Bool × Bool) (rows : List (Nat × Nat))
  /-- PHASE_RESTORE (R695): RESTORE phase: retained records are resolved from both flash mirrors. -/
  | phaseRestore (badA : List Nat) (badB : List Nat) (badFactory : List (Nat × Nat))
  /-- PHASE_PATCH (R698): PATCH phase: the stored patch is verified and activated or rejected. -/
  | phasePatch
  /-- PHASE_DIES (R699): DIES phase: clocks locked, spare map applied, units tested and failing units retired. -/
  | phaseDies (fails : List Trigger) (links : List Nat)
  /-- PHASE_MEMORY (R699): MEMORY phase: channels trained and tested and every stripe zero-filled. -/
  | phaseMemory (fails : List Trigger)
  /-- PHASE_LINKS (R701): LINKS phase: management MACs up and every port with a role trains. -/
  | phaseLinks
  /-- PHASE_SERVE (R702): SERVE phase: pool 60 closes, start-up opcodes are served and cabling classification begins. -/
  | phaseServe
  /-- PHASE_BYPASS (R703): BYPASS phase: bypass pairs are released one at a time. -/
  | phaseBypass
  /-- PHASE_READY (R704): READY phase: every opcode is served and the group claim is sent. -/
  | phaseReady
  /-- PHASE_LIMIT (R700): A start-up phase exceeding its limit ends start-up in FAILED. -/
  | phaseLimit
  /-- LIFE_WRITE (R710): Each power-on hour the LIFE record is written to retained flash. -/
  | lifeWrite (fail : Nat × Nat) (later : List (Nat × Nat))
  /-- WATCHDOG_EXPIRY (R58): The active processor's watchdog expiring makes the standby take over within 50 ms. -/
  | watchdogExpiry
  /-- PROCESSOR_FAULT (R58): The active processor reporting an internal fault makes the standby take over. -/
  | processorFault
  /-- DOWN_RETRY (R519): A port with a role in DOWN enters TRAIN, at once or each 1 s while training fails. -/
  | downRetry (port : Nat)
  /-- TRAIN_LOCK (R519): FEC lock with low error ratio and 16 good flits moves a port from TRAIN to INIT. -/
  | trainLock (port : Nat) (stored : Bool) (settings : List W64)
  /-- TRAIN_TIMEOUT (R518): TRAIN lasting 200 ms takes the port to DOWN. -/
  | trainTimeout (port : Nat) (fecLock : Bool)
  /-- INIT_COMPLETE (R521): CREDIT_INIT and BEACON exchanged moves the port from INIT to UP. -/
  | initComplete (port : Nat)
  /-- INIT_TIMEOUT (R519): INIT lasting 1 ms takes the port to DOWN. -/
  | initTimeout (port : Nat)
  /-- LOSS_OF_LOCK (R519): Loss of signal or FEC alignment moves an UP port to RETRAIN. -/
  | lossOfLock (port : Nat) (lanes : Nat)
  /-- RETRAIN_LOCK (R522): A port in RETRAIN regaining lock returns to UP with its state intact. -/
  | retrainLock (port : Nat)
  /-- RETRAIN_TIMEOUT (R519): RETRAIN lasting 100 ms takes the port to DOWN and discards link state. -/
  | retrainTimeout (port : Nat)
  /-- DATA_FLIT (R528): A received data flit is accepted in sequence and its VC packet stream advanced, or discarded. -/
  | dataFlit (port : Nat) (f : FlitRx)
  /-- IDLE_FLIT (R525): A received idle flit updates acknowledgment and credit state. -/
  | idleFlit (port : Nat) (f : FlitRx)
  /-- NAK (R528): A received NAK makes the sender resend every data flit from EXP_SEQ. -/
  | nak (port : Nat) (f : FlitRx)
  /-- CREDIT_INIT (R521): A received CREDIT_INIT sets the partner's advertised credits. -/
  | creditInit (port : Nat) (f : FlitRx)
  /-- CREDIT_SNAP (R532): A received CREDIT_SNAP updates the freed-flit counts of every VC. -/
  | creditSnap (port : Nat) (f : FlitRx)
  /-- BEACON (R575): A received beacon identifies the partner and classifies the port against the cabling plan. -/
  | beacon (port : Nat) (f : FlitRx) (monitor : Bool)
  /-- DOWN_NOTICE (R519): A received DOWN_NOTICE takes the link to DOWN. -/
  | downNotice (port : Nat) (f : FlitRx)
  /-- NAK_REPEAT (R528): A receiver repeats its NAK every 1 µs while no progress is made. -/
  | nakRepeat (port : Nat)
  /-- REPLAY_TIMER (R528): No ACK progress for 20 µs on the oldest flit resends from it; eight resends enter RETRAIN. -/
  | replayTimer (port : Nat)
  /-- CREDIT_SNAP_TIMER (R526): Every 10 µs while UP a port sends CREDIT_SNAP. -/
  | creditSnapTimer (port : Nat)
  /-- BEACON_TIMER (R526): Every 100 ms while UP a port sends BEACON. -/
  | beaconTimer (port : Nat)
  /-- BEACON_MISSING (R575): No beacon for 2 s classifies a planned port MISSING. -/
  | beaconMissing (port : Nat)
  /-- FLIT_ARBITRATION (R537): A transmitter chooses its next control, data or idle flit by deficit round robin. -/
  | flitArbitration (port : Nat)
  /-- CONTRIB (R373): A contribution packet is checked at the face die and passed to its seam, completing and filling a slot when whole. -/
  | contrib (k : PktRx) (residue : Option Residues)
  /-- PARTIAL (R146): A received trunk partial is checked and added at the owner in canonical order. -/
  | partialRx (k : PktRx) (residue : Option Residues)
  /-- PARTIAL_ANS (R551): A received partial answer acknowledges, refuses or discards the held partial. -/
  | partialAns (k : PktRx)
  /-- PARTIAL_RETRY (R144): A refused partial is sent again every 10 µs. -/
  | partialRetry
  /-- PARTIAL_TIMEOUT (R551): A partial unanswered for 100 µs is sent again. -/
  | partialTimeout
  /-- REFILL (R180): A spilled entry is brought back from the overflow area ahead of need. -/
  | refill (ctx : Nat) (pos : Nat)
  /-- SLOT_CLOCK_EXPIRY (R187): An expired slot clock fills held backups or fails the context with LATE. -/
  | slotClockExpiry (ctx : Nat) (slab : Nat) (clock : PassClock)
  /-- PARTIAL_CLOCK_EXPIRY (R187): An expired partial clock fails the context with LATE_PARTIAL. -/
  | partialClockExpiry (ctx : Nat) (slab : Nat) (pass : Nat)
  /-- KEPT_COPY_EXPIRY (R154): A filling copy kept past the hold deadline is released and counted in FILL_UNVERIFIED if unverified. -/
  | keptCopyExpiry (ctx : Nat) (slab : Nat) (pass : Nat) (rank : Nat)
  /-- CTX_FAIL (R188): A received context-fail notice fails the context with LATE_REMOTE. -/
  | ctxFail (k : PktRx)
  /-- POISON (R381): A received poison notice poisons the context with POISON_REMOTE. -/
  | poison (k : PktRx)
  /-- MSG_ACK (R552): A received message acknowledgment frees the held module-to-module message. -/
  | msgAck (k : PktRx)
  /-- MSG_RESEND (R552): A norm, fail, poison or seal message unacknowledged for 100 µs is sent again. -/
  | msgResend
  /-- SAMPLE_COMPLETE (R195): A checking seam's recomputation is compared with the active seam's results. -/
  | sampleComplete (ctx : Nat) (slab : Nat) (how : SampleEnd)
  /-- BUILTIN_TEST_DONE (R195): The 200 µs built-in test after a SAMPLE_DIFF decides which seam is retired. -/
  | builtinTestDone (active : Nat) (checking : Nat) (activeOk : Bool) (checkingOk : Bool)
  /-- DRAIN_COMPLETE (R59): Every seam holding drain markers from every face die lets the new epoch be written and the context open or release. -/
  | drainComplete (ctx : Nat)
  /-- UPDATE_ACCEPT (R235): The home update die accepts a finished slab and evaluates, rounds and writes its new copy and parity delta. -/
  | updateAccept (ctx : Nat) (slab : Nat) (fault : UpdFault)
  /-- COPY_WRITE_COMPLETE (R294): A written new copy's tag completes and its parameters are sent for provisional haul. -/
  | copyWriteComplete (job : Nat) (region : Nat) (slab : Nat)
  /-- FORM_NORM_PARTIAL (R214): With a seal request held and all contexts complete, the module forms and sends its norm partial. -/
  | formNormPartial (job : Nat)
  /-- NORM_PARTIAL (R215): A received norm partial is taken, and the global norm is evaluated once all ordinals are held. -/
  | normPartial (k : PktRx)
  /-- SEALED_UPDATE_BEGIN (R68): The sealed-mode update of a step begins once it is complete, clean and the norm is known. -/
  | sealedUpdateBegin (job : Nat)
  /-- HAUL_DATA (R296): A haul slab received over a trunk is replicated to members and haul-tree children and acknowledged. -/
  | haulData (k : PktRx)
  /-- HAUL_ACK (R546): A received haul acknowledgment frees the held haul slab. -/
  | haulAck (k : PktRx)
  /-- HAUL_RESEND (R546): A haul slab unacknowledged for 100 µs is sent again. -/
  | haulResend
  /-- HAUL_DROP (R306): A port's oldest undelivered haul slab waiting HAUL_DROP_US drops all its undelivered haul. -/
  | haulDrop (port : Nat)
  /-- HAUL_END (R307): When a context's haul is delivered or dropped for a member, a haul end notice is sent. -/
  | haulEnd (ctx : Nat) (member : Nat)
  /-- HOIST_REQ (R311): A hoist request is checked, accepted and dispatched locally or to remote owners. -/
  | hoistReq (k : PktRx)
  /-- HOIST_SLAB_READ (R313): The home update die accepts a slab read, chooses its copy and returns data or a slab status. -/
  | hoistSlabRead (job : Nat) (entry : Nat) (memUe : Bool)
  /-- HOIST_END (R317): When every slab of a hoist request is sent or given a status, the hoist end reply is sent. -/
  | hoistEnd (job : Nat) (member : Nat) (tag : Nat)
  /-- REMOTE_READ (R549): A received remote read makes the owner serve its slabs to the requesting module. -/
  | remoteRead (k : PktRx)
  /-- REMOTE_DATA (R549): A received remote slab is replicated at the merge point to requesting ports. -/
  | remoteData (k : PktRx)
  /-- REMOTE_STATUS (R549): A received remote slab status is passed to the requesting members. -/
  | remoteStatus (k : PktRx)
  /-- REMOTE_READ_RESEND (R549): A merge point missing slabs after 100 µs sends the remote read again. -/
  | remoteReadResend
  /-- VOTE_YES (R335): A module whose seal conditions all hold casts its YES vote and enters PREPARED. -/
  | voteYes (job : Nat)
  /-- SEAL_REQ (R334): A received seal request is merged and forwarded to every module by the coordinator. -/
  | sealReq (k : PktRx)
  /-- SEAL_VOTE (R340): A received vote is tallied and the coordinator decides SEAL or ABORT. -/
  | sealVote (k : PktRx)
  /-- ABORT_REQ (R340): A received abort request makes the coordinator decide ABORT unless SEAL is decided. -/
  | abortReq (k : PktRx)
  /-- SEAL_COMMIT (R341): A received SEAL_COMMIT writes the commit word, sends step notices and SEAL_ACK and releases held reads. -/
  | sealCommit (k : PktRx)
  /-- SEAL_ACK (R341): SEAL_ACK from every module makes the coordinator write its commit word and send SEAL_DONE. -/
  | sealAck (k : PktRx)
  /-- SEAL_DONE (R341): A received SEAL_DONE makes the module send PARITY_APPLY to its holders. -/
  | sealDone (k : PktRx)
  /-- SEAL_ABORT (R350): A received SEAL_ABORT starts the module's abort of the attempt. -/
  | sealAbort (k : PktRx)
  /-- ABORT_SCAN_COMPLETE (R275): Once begun writes finish and the tag scan empties the attempt's copies, the abort sends PARITY_DROP. -/
  | abortScanComplete (job : Nat)
  /-- ABORT_ACK (R349): ABORT_ACK from every live module completes the abort at the coordinator. -/
  | abortAck (k : PktRx)
  /-- SEAL_QUERY (R345): A received SEAL_QUERY is answered with the module's seal state. -/
  | sealQuery (k : PktRx)
  /-- SEAL_STATE (R345): SEAL_STATE replies let a new coordinator decide SEAL or ABORT. -/
  | sealState (k : PktRx)
  /-- PARITY_DELTA (R622): A holder accumulates a step delta piece, or applies a base delta, and acknowledges it. -/
  | parityDelta (k : PktRx)
  /-- PARITY_ACK (R620): A received parity acknowledgment marks the delta piece acknowledged. -/
  | parityAck (k : PktRx)
  /-- PARITY_APPLY (R347): A holder folds the attempt's accumulated deltas into parity and acknowledges. -/
  | parityApply (k : PktRx)
  /-- PARITY_DROP (R347): A holder discards the attempt's accumulated deltas and acknowledges. -/
  | parityDrop (k : PktRx)
  /-- APPLY_ACK (R343): A received apply acknowledgment completes the seal and lets step s + 1 updates begin. -/
  | applyAck (k : PktRx)
  /-- DROP_ACK (R350): Drop acknowledgments from every holder let the abort finish and send ABORT_ACK. -/
  | dropAck (k : PktRx)
  /-- VC4_RESEND (R623): A VC4 packet waiting 100 µs without answer is sent again. -/
  | vc4Resend
  /-- REBUILD_REQ (R629): A position returns its data or parity chunks for a row being rebuilt. -/
  | rebuildReq (k : PktRx)
  /-- REBUILD_DATA (R630): Received rebuild chunks or pushes are XORed into the rebuilt shard or held parity. -/
  | rebuildData (k : PktRx)
  /-- SLAB_XFER (R449): A received slab half from a storage member is written as a base write when complete. -/
  | slabXfer (k : PktRx)
  /-- XFER_ACK (R633): A received transfer acknowledgment advances a snapshot or marks a slab missing. -/
  | xferAck (k : PktRx)
  /-- XFER_TIMEOUT (R635): A storage member not answering in 10 s ends a snapshot or counts slabs missing. -/
  | xferTimeout
  /-- LIVE (R624): A received LIVE message refreshes the watch on the next higher ordinal. -/
  | live (k : PktRx)
  /-- LIVE_TIMER (R624): Every 5 ms a module sends LIVE to the next lower live ordinal. -/
  | liveTimer
  /-- LIVE_WATCH_TIMEOUT (R624): No LIVE for 50 ms declares the watched ordinal withdrawn. -/
  | liveWatchTimeout (job : Nat)
  /-- WITHDRAWN (R625): A received withdrawal declaration marks the ordinal withdrawn or stops service if it names this module. -/
  | withdrawn (k : PktRx)
  /-- CLAIM (R628): A received claim for an ordinal or position is accepted or refused. -/
  | claim (k : PktRx)
  /-- CLAIM_ANSWER (R628): A received claim answer lets a rebuild proceed or end. -/
  | claimAnswer (k : PktRx)
  /-- REC_READ (R675): A member's record read is answered with one REC_DATA. -/
  | recRead (k : PktRx)
  /-- REPLAY_DATA (R678): Received record stream bytes are replayed, injecting copies into matching contexts. -/
  | replayData (k : ReplayRx)
  /-- REPLAY_REQ_RESEND (R677): A replay request unanswered for 1 ms is sent again. -/
  | replayReqResend
  /-- REPLAY_PORT_TIMEOUT (R680): A replay source port not UP for 1 s ends replay. -/
  | replayPortTimeout
  /-- TRANSIT_PACKET (R540): A trunk packet for another address is forwarded with HOPS decremented or spoiled. -/
  | transitPacket (k : PktRx)
  /-- ROUTE_HOLD_EXPIRY (R583): A packet with no live route held 100 µs is routed again or spoiled. -/
  | routeHoldExpiry
  /-- RING_STATE (R586): A received RING_STATE updates the ring map and is forwarded. -/
  | ringState (k : PktRx)
  /-- RING_STATE_TIMER (R586): Every 100 ms a module sends RING_STATE on each axis and direction. -/
  | ringStateTimer
  /-- RING_MAP_LAPSE (R586): A ring map entry not refreshed for 350 ms lapses. -/
  | ringMapLapse
  /-- BYPASS_RELEASE (R581): Ivpin releases a bypass pair whose conditions all hold. -/
  | bypassRelease (pair : Nat)
  /-- BYPASS_RELEASE_TIMEOUT (R581): A release not succeeding within 2 s rejoins the pair and raises BYPASS_REVERT. -/
  | bypassReleaseTimeout
  /-- NODE_START (R495): The scheduler starts a READY graph node and applies its action. -/
  | nodeStart
  /-- ALLOC (R596): A pool allocation request is granted or fails at once. -/
  | alloc (pool : Nat) (requester : Nat) (job : Option Nat)
  /-- ADDREF (R598): A buffer reference count is incremented or refused at 255. -/
  | addref (handle : Nat) (requester : Nat)
  /-- RELEASE (R594): A buffer reference count is decremented and freed at zero. -/
  | releaseBuf (handle : Nat) (requester : Nat)
  /-- REPAIR_TRIGGER (R649): A repair trigger count or test result makes the repair engine fence a unit, bring in a spare and record the spare map. -/
  | repairTrigger (t : Trigger)
  /-- WEAR (R648): Laser bias at 1.2 times manufacture raises a WEAR trap. -/
  | wear (port : Nat) (level : Nat)
  /-- LANE_GROUP_FAIL (R62): Eight successive retry failures retire a die-to-die lane group. -/
  | laneGroupFail (group : GroupRetries)
  /-- CHANNEL_REBUILD_DONE (R284): Completion of a spare channel's rebuild restores full planning bandwidth. -/
  | channelRebuildDone (channel : Nat)
  /-- SCRUB (R266): The scrubber reads and decodes stripes, writing back corrected blocks, covering every stripe each 4 hours. -/
  | scrub (walk : ScrubWalk)
  /-- TRAP_AGE (R749): A trap record held 600 s is released and READ_TSEQ advanced. -/
  | trapAge
  /-- TELEMETRY_PERIOD (R752): At each PERIOD_US boundary a snapshot of each periodic stream is sent or skipped. -/
  | telemetryPeriod (sink : Nat)
  /-- ARP_REQUEST (R734): A received ARP request for a module address is answered. -/
  | arpRequest (mport : Nat) (sha : W64) (spa : W32) (tpa : W32)
  /-- ADDR_DUP (R707): An ARP packet claiming an in-use IPv4 address raises ADDR_DUP and defends the address once. -/
  | addrDup (mport : Nat) (sha : W64) (spa : W32)
  /-- NEIGHBOR_DISCOVERY (R734): A received IPv6 neighbour discovery message is answered. -/
  | neighborDiscovery (mport : Nat) (src : Option (BitVec 128)) (target : BitVec 128)
  /-- ECHO_REQUEST (R734): A received ICMP or ICMPv6 echo request is answered. -/
  | echoRequest (mport : Nat) (src : BitVec 128) (dst : BitVec 128) (ident : W32) (data : List Byte)
  /-- MGMT_FRAME_DROP (R734): A management frame of another kind is dropped and counted. -/
  | mgmtFrameDrop (mport : Nat)
  /-- TAKEOVER_COMPLETE (R58): The standby Ivpin processor completes its takeover, within 50 ms, and commands are answered again. -/
  | takeoverComplete
  /-- SLEW_COMPLETE (R728): The clock root finishes slewing from the holdover oscillator back to the reference and SLEWING clears. -/
  | slewComplete
  /-- MGMT_LINK_CHANGE (R734): A 100GBASE-KR4 management port link comes up after auto-negotiation and training, or goes down. -/
  | mgmtLinkChange (mport : Nat) (up : Bool)
  /-- ADDRESS_PROBE_DONE (R707): IPv4 address probing or IPv6 duplicate address detection ends without conflict and the static address comes into use. -/
  | addressProbeDone (mport : Nat) (v6 : Bool)
  /-- REC_MIRROR_TIMEOUT (R671): A recording mirror port that has not been UP for 10 ms makes held records be dropped and releases the VC1 credit hold. -/
  | recMirrorTimeout (job : Nat)
  /-- FLASH_WAIT_TIMEOUT (R726): Retained-flash writes held by the loss of clock domain 39 raise FLASH_WRITE after 1 s. -/
  | flashWaitTimeout
  deriving DecidableEq, Repr

end Sys2Proof
end

