-- ==== Sys2Proof/Decode.lean ====
section
/-!
DEFINITION. Sys2Proof/Decode.lean: the command a word spells by the bits of the table of operations and events. No row
of that table gives bits: packets, flits and events are not spelled by one word (log 4).
-/
namespace Sys2Proof

/-- The command that the word `w` of `nbits` bits spells: none, since no row has bits. -/
def decodeTableWord (_nbits _w : Nat) : Option Instr := none

end Sys2Proof
end

