-- ==== Sys2Proof/Config.lean ====
section
/-!
DEFINITION. Sys2Proof/Config.lean: what the spec leaves open and the machine goes on with. Every constant is opaque: no
proof can see its value (log 2).
-/
namespace Sys2Proof

/-- The `n`-th free value: a word the spec does not fix (analog readings, boundary-scan samples, lanes of a partial
flagged non-finite, contents the spec calls undefined). -/
opaque Config.freeWord (n : Nat) : W64

/-- Does a patch image (its words) carry a valid ECDSA P-384 signature under the public key of the mask ROM (R697)? The
key is not in the spec. -/
opaque Config.patchSigned (image : List W64) : Bool

/-- How the MEM_UE trap codes the area of the store, by row of Table 8-4: the spec gives the areas no numbers (R286). -/
opaque Config.areaCode (row : Nat) : W64

/-- The area code of a SRAM_UE trap for a row of Table 19-4, counted from 1; Table 23-10 gives none (R652; log 2). -/
opaque Config.sramCode (row : Nat) : W64

/-- FEC message bits between two alignment marker groups of 1.6TBASE-R: IEEE 802.3dj has the number, the spec does not (R516). -/
opaque Config.markerBits : Nat

end Sys2Proof
end

