-- ==== Sys2Proof/Machine/Sparse.lean ====
section
/-!
DEFINITION. Sys2Proof/Machine/Sparse.lean: sparse tables. The module's object tables are large and mostly empty
(16,384 contexts, 288 ports, 65,536 slabs a bucket), so each is held as a list of (number, entry) pairs whose numbers
rise strictly; an object that is not listed does not exist (or holds its stated default).
-/
namespace Sys2Proof.Machine

/-- A sparse table: pairs (key, entry), keys strictly rising (`SMap.wf`). -/
abbrev SMap (α : Type) := List (Nat × α)

namespace SMap
variable {α : Type}

/-- The keys rise strictly: the one canonical form of a table. -/
def wf : SMap α → Bool
  | [] => true
  | [_] => true
  | (a, _) :: (b, y) :: r => decide (a < b) && wf ((b, y) :: r)

/-- The entry of key `k`, if listed. -/
def get? : SMap α → Nat → Option α
  | [], _ => none
  | (a, x) :: r, k => if a = k then some x else get? r k

/-- The entry of key `k`, or `d` when it is not listed. -/
def getD (m : SMap α) (k : Nat) (d : α) : α := (get? m k).getD d

/-- Is key `k` listed? -/
def has (m : SMap α) (k : Nat) : Bool := (get? m k).isSome

/-- Write the entry of key `k`, at its place in the rising order. -/
def set : SMap α → Nat → α → SMap α
  | [], k, v => [(k, v)]
  | (a, x) :: r, k, v =>
    if k < a then (k, v) :: (a, x) :: r
    else if k = a then (k, v) :: r
    else (a, x) :: set r k v

/-- Remove the entry of key `k`. -/
def del : SMap α → Nat → SMap α
  | [], _ => []
  | (a, x) :: r, k => if a = k then r else (a, x) :: del r k

/-- Apply `f` to the entry of key `k` when it is listed. -/
def upd (m : SMap α) (k : Nat) (f : α → α) : SMap α :=
  match get? m k with
  | some x => set m k (f x)
  | none => m

/-- Keep the entries that satisfy `p`. -/
def keep (p : Nat → α → Bool) : SMap α → SMap α
  | [] => []
  | (a, x) :: r => if p a x then (a, x) :: keep p r else keep p r

/-- Apply `f` to every entry. -/
def mapV (f : Nat → α → α) : SMap α → SMap α
  | [] => []
  | (a, x) :: r => (a, f a x) :: mapV f r

/-- The keys. -/
def keys (m : SMap α) : List Nat := m.map Prod.fst

/-- The lowest number from `lo` on, below `lo + n`, that is not listed. -/
def firstFree (m : SMap α) (lo : Nat) : Nat → Option Nat
  | 0 => none
  | n + 1 => if has m lo then firstFree m (lo + 1) n else some lo

end SMap
end Sys2Proof.Machine
end

