-- ==== Sys2Proof/Machine/StateParity.lean ====
section
/-!
DEFINITION. Sys2Proof/Machine/StateParity.lean: the parity group, the parity the module holds and the deltas it
accumulates, claims, pushes and rebuilds (chapter 18). Plain data only. Chunk contents are sparse tables of words by
offset / 8; a word not listed is 0.
-/
namespace Sys2Proof.Machine

/-- A parity group setting (R473). -/
structure ParGroup where
  id      : Nat
  pos     : Nat
  serials : List W64
  deriving DecidableEq, Repr

/-- A row of held parity or of an accumulator: job key (serial of ordinal 0, job), region, row, words. -/
structure ParRow where
  key    : W64
  job    : Nat
  region : Nat
  row    : Nat
  words  : SMap W64 := []
  deriving DecidableEq, Repr

/-- An accumulated row of a step's pieces (R622). -/
structure AccRow where
  step    : Nat
  attempt : Nat
  at_     : ParRow
  deriving DecidableEq, Repr

/-- A job key with a step and attempt. -/
structure ParStep where
  key     : W64
  job     : Nat
  step    : Nat
  attempt : Nat
  deriving DecidableEq, Repr

/-- A piece of a delta as received. -/
structure ParPiece where
  key     : W64
  job     : Nat
  step    : Nat
  attempt : Nat
  base    : Bool
  pos     : Nat
  region  : Nat
  row     : Nat
  off     : Nat
  data    : List W64
  deriving DecidableEq, Repr

/-- A push tag (R630): source position, row, commit point at the read, and the offsets of the packets taken. -/
structure PushTag where
  pos    : Nat
  key    : W64
  job    : Nat
  region : Nat
  row    : Nat
  step   : Nat
  offs   : List Nat := []
  deriving DecidableEq, Repr

/-- A claim sent and not answered (R628): scope 1 job, 2 group; the job; the ordinal or position asked and its fabric
address, if it has one. -/
structure ClaimOut where
  scope  : Nat
  job    : Nat
  target : Nat
  addr   : Option Nat
  words  : List W64
  sentAt : Nat
  deriving DecidableEq, Repr

/-- What a position has returned for a row of a rebuild (R629): the words, their commit point, the offsets of the packets that have
come, and that of the last. -/
structure RowPart where
  words : SMap W64 := []
  step  : Nat := 0
  offs  : List Nat := []
  last  : Option Nat := none
  deriving DecidableEq, Repr

/-- A chunk row that a rebuild or a repair is collecting, and when it was asked for. -/
structure RowReq where
  region : Nat
  row    : Nat
  parts  : SMap RowPart := []
  /-- The row cannot be rebuilt: unprotected, or its parity position is lost. -/
  bad    : Bool := false
  sentAt : Nat := 0
  deriving DecidableEq, Repr

/-- A rebuild of a job's shard (R629) or a repair of one slab (R631). -/
structure Rebuild where
  /-- The slab under repair; none for a whole shard. -/
  slab    : Option (Nat × Nat) := none
  step    : Nat
  /-- Job claims still unanswered; commit word, ATTEMPT and seal states of the answers. -/
  waiting : List Nat := []
  answers : List (Nat × W64 × Nat × Nat) := []
  refused : Bool := false
  rows    : List RowReq := []
  started : Bool := false
  deriving DecidableEq, Repr

/-- Parity state of the module. -/
structure ParitySt where
  group     : Option ParGroup := none
  /-- Positions declared lost (R624). -/
  lost      : List Nat := []
  /-- This module was declared lost from its group. -/
  out       : Bool := false
  rows      : List ParRow := []
  accs      : List AccRow := []
  /-- Rows that are unprotected, and job keys whose PARITY_SPACE trap was raised (R619). -/
  unprot    : List ParRow := []
  spaceTrap : List (W64 × Nat) := []
  /-- Chunks taken from free space. -/
  borrowed  : Nat := 0
  /-- Identities of pieces held or applied, and when (R623). -/
  seen      : List (ParPiece × Nat) := []
  applied   : List ParStep := []
  dropped   : List ParStep := []
  /-- Base-write operations counted per region, by 16,384 × job + region (BASE_OP). -/
  baseOps   : SMap Nat := []
  /-- The module took its position over and awaits pushes; positions whose END has arrived (R630). -/
  pushing   : Bool := false
  /-- A parity recomputation runs (Table 8-13); a field of the model's own, for pool 61 (R600). -/
  recomp    : Bool := false
  ended     : List Nat := []
  tags      : List PushTag := []
  heldPc    : List ParPiece := []
  claims    : List ClaimOut := []
  /-- The group claims are those of READY (R704). -/
  ready     : Bool := false
  /-- Group claims accepted: position, serial, and when the last copy of the packet arrived (R638). -/
  pushed    : List (Nat × W64 × Nat) := []
  /-- Time of the last LIVE from the watched position and of the last LIVE sent. -/
  liveRx    : Nat := 0
  liveTx    : Nat := 0
  deriving DecidableEq, Repr

end Sys2Proof.Machine
end

