-- ==== Sys2Proof/Machine/StateStep.lean ====
section
/-!
DEFINITION. Sys2Proof/Machine/StateStep.lean: the records the module keeps for jobs, contexts, reductions, the
parameter store, updates, haul, hoist and the seal exchange (chapters 3 to 11). Plain data only; State.lean assembles
them. Numbers that the spec only counts or compares are Nat, words that software sees whole are bit vectors.
-/
namespace Sys2Proof.Machine

/-! ## Contributions and slabs in reduction (chapters 4, 5, 11) -/

/-- The two sources of a rank slot (Table 4-3). -/
inductive Source | primary | backup
  deriving DecidableEq, Repr

/-- One copy of a slab as it arrived: raw element encodings by lane and raw MX scale bytes by block. Lanes and
blocks not yet received are not listed. -/
structure Copy where
  elems  : SMap W64 := []
  scales : SMap Byte := []
  deriving DecidableEq, Repr

/-- A copy being received from one source (R148, R544): the 32-lane blocks that have arrived, whether its END packet
has arrived, and whether a packet of it was spoiled. -/
structure RxCopy where
  copy   : Copy := {}
  blocks : List Nat := []
  ended  : Bool := false
  /-- The status with which the copy was refused when the seam met it, 0 when it is being received (R142, R183); its
  END packet is answered with it. -/
  refused : Nat := 0
  deriving DecidableEq, Repr

/-- The place of one rank in one pass of one slab (R148 to R160, R382 to R385). -/
structure Slot where
  /-- The source whose copy filled the slot. -/
  filled   : Option Source := none
  /-- The filling copy's lanes in FP64 (R135); kept until the pass is finished at this seam. -/
  lanes    : List F64 := []
  /-- Sources that have delivered a complete copy (R385). -/
  gotPri   : Bool := false
  gotBak   : Bool := false
  /-- Copies being received. -/
  rxPri    : Option RxCopy := none
  rxBak    : Option RxCopy := none
  /-- A complete backup copy held under R150. -/
  heldBak  : Option Copy := none
  /-- The filling copy kept for comparison (R154) and the time it filled the slot. -/
  kept     : Option Copy := none
  keptAt   : Nat := 0
  deriving DecidableEq, Repr

/-- The identity of a non-finite event (R103, R104): cause, pass, rank, slab, element. -/
structure NfId where
  cause : Nat
  pass  : Nat
  rank  : Nat
  slab  : Nat
  elem  : Nat
  deriving DecidableEq, Repr

/-- A group sum held at the owner: another module's partial (R146) or the owner's own. -/
structure GroupSum where
  lanes : List F64
  nf    : Bool := false
  /-- When it came to be held (R180). -/
  at_   : Nat := 0
  deriving DecidableEq, Repr

/-- A partial of this module that its owner has not acknowledged (R142, R144, R145, R551). -/
structure HeldPartial where
  lanes   : List F64
  nf      : Option NfId
  /-- When it was computed (R180), and the time of the last send. -/
  since   : Nat
  sentAt  : Nat
  /-- The owner has refused it: the 10 µs interval of R144 governs until it is accepted. -/
  refused : Bool := false
  deriving DecidableEq, Repr

/-- The state of one pass of one slab at its seam (R142, R186). -/
structure PassRed where
  /-- Group sums by ordinal: the module's own and, on the owner, the partials taken. -/
  groups     : SMap GroupSum := []
  /-- This module's partial while its owner has not acknowledged it (non-owner). -/
  out        : Option HeldPartial := none
  /-- Start of the slot clock and of the partial clock, microseconds. -/
  slotClock  : Option Nat := none
  partClock  : Option Nat := none
  /-- The owner has acknowledged this module's partial (R142). -/
  acked      : Bool := false
  deriving DecidableEq, Repr

/-- The recomputation of a sampled slab (R193 to R195). The fill notices of R195 are the sources in its slots. -/
inductive SampleState | notSampled | pending (seam : Nat) | agreed | differed | skipped
  deriving DecidableEq, Repr

/-- A value in an accumulator entry that a seam may spill (Table 5-2, R180): a held node over `len` leaves from leaf `lo` of
the own group's tree (`whole` = false) or of the module tree, a kept filling copy, a pass fold, an unacknowledged
partial. -/
inductive Entry
  | node (slab pass : Nat) (whole : Bool) (lo len : Nat)
  | kept (slab pass rank : Nat)
  | fold (slab : Nat)
  | part (slab pass : Nat)
  deriving DecidableEq, Repr

/-- The reduction state of one slab of a context's bucket at its seam. -/
structure SlabRed where
  /-- Lowest pass not finished at this seam (R142). -/
  low      : Nat := 0
  passes   : SMap PassRed := []
  /-- Rank slots, keyed 4,096 × pass + rank. -/
  slots    : SMap Slot := []
  /-- The pass fold A formed so far (owner, R134). -/
  fold     : Option (List F64) := none
  /-- When the fold came to be held (R180). -/
  foldAt   : Nat := 0
  /-- The first non-finite event of the slab (R103). -/
  nf       : Option NfId := none
  /-- The slab has been handed on, or on a non-owner all its partials are acknowledged. -/
  done     : Bool := false
  /-- The finished slab waits at its seam for the update die (R64). -/
  waiting  : Option (List F64) := none
  sample   : SampleState := .notSampled
  /-- CRC-32C of A after the last pass (Table 20-6). -/
  acrc     : W32 := 0
  deriving DecidableEq, Repr

/-- Context states, Table 11-2. -/
inductive CtxState | free | idle | draining | opened | done
  deriving DecidableEq, Repr

/-- What a drain in progress is for (R368, R387, R388). -/
inductive DrainFor | none | open_ | releaseKeep | releaseFree
  deriving DecidableEq, Repr

/-- The output descriptor, Table 3-10. -/
structure Desc where
  scale  : F64 := 0
  bias   : F64 := 0
  clipLo : F64 := 0
  clipHi : F64 := 0
  ctl    : W64 := 0
  deriving DecidableEq, Repr

/-- The parameters a context opens with (Table 13-12): they take effect at R368 step 3. -/
structure CtxParams where
  epoch     : Nat := 0
  region    : Nat := 0
  mapSlot   : Nat := 0
  fmt       : Nat := 0
  nslab     : Nat := 0
  npass     : Nat := 0
  sealed    : Bool := false
  first     : Nat := 0
  holdUs    : Nat := 0
  accumWin  : Nat := 0
  desc      : Desc := {}
  deriving DecidableEq, Repr

/-- One context record, Table 11-1, with the reduction state under it. An unlisted context is FREE with
LAST_KNOWN = 0 (R389). -/
structure Ctx where
  holder     : Option Nat := none
  state      : CtxState := .free
  epoch      : Nat := 0
  lastKnown  : Bool := false
  prevEpoch  : Nat := 0
  prevStatus : W16 := 0
  step       : Nat := 0
  attempt    : Nat := 0
  p          : CtxParams := {}
  shape      : W32 := 0
  status     : W16 := 0
  /-- A drain in progress and the parameters waiting for it (R59, R368, R387). -/
  drain      : DrainFor := .none
  next       : CtxParams := {}
  /-- The step aborted while the context was draining (Table 11-9). -/
  abortAtOpen : Bool := false
  /-- The reservation (R174): window on each position and slab count; window 0 = none. -/
  resWin     : Nat := 0
  resSlabs   : Nat := 0
  /-- Seam positions lost when the context was admitted: its slabs avoid those (R197). -/
  resLost    : List Nat := []
  slabs      : SMap SlabRed := []
  /-- Order in which the context opened (R282). -/
  order      : Nat := 0
  /-- First non-finite event in arrival order that holds back slabs, and the canonical-first identity (R103, R106). No
  register, reply or trap field of the spec gives the identity to Dexas: it is kept with no read path (DESIGN CHOICE,
  log 76). -/
  nfFirst    : Option NfId := none
  nfCanon    : Option NfId := none
  /-- The context has met a non-finite event of any kind: later non-finite inputs count (R102 item 4). -/
  nfMet      : Bool := false
  /-- Traps already raised under this epoch (R156, R189, R379). -/
  dupTrap    : Bool := false
  lateTrap   : Bool := false
  poisTrap   : Bool := false
  /-- Slabs with a residue mismatch whose sample has not been compared yet, and the seam that met it (Table 5-3). -/
  resid      : SMap Nat := []
  /-- Cause under which the context ended on this module: its completion record (R200). -/
  endCause   : Nat := 0
  /-- Entries of the context in the overflow area, by seam position (R180). -/
  spilled    : SMap (List Entry) := []
  /-- Haul accounting per member: delivered, missed (R306, R307); members whose end notice was sent. -/
  haulDone   : SMap (Nat × Nat) := []
  haulEnded  : List Nat := []
  /-- Slabs whose new copy is written and hauled out of the update die (R294). -/
  hauled     : List Nat := []
  /-- Slabs the update die has accepted (R235). -/
  updated    : List Nat := []
  /-- Replay injects the context's copies: its slots are not compared (R678). -/
  injected   : Bool := false
  /-- The command body that opened the context (Table 20-6). -/
  body       : List W64 := []
  deriving DecidableEq, Repr

/-- One rank slot entry of a rank map, Table 4-3. -/
structure RankEntry where
  pri    : Nat
  bak    : Nat := 0
  prefer : Bool := false
  bakEn  : Bool := false
  deriving DecidableEq, Repr

/-- A loaded rank map slot (R129 to R133). -/
structure RankMap where
  job       : Nat
  dupPoison : Bool
  nmemb     : List Nat
  ranks     : List RankEntry
  crc       : W32
  deriving DecidableEq, Repr

/-- A loaded rule slot: its owner and the seventeen words of Table 6-1. -/
structure RuleSlot where
  job   : Nat
  words : List W64
  deriving DecidableEq, Repr

/-- A loaded schedule entry: its owner and the eleven words of Table 7-1. -/
structure SchedEntry where
  job   : Nat
  words : List W64
  deriving DecidableEq, Repr

/-- The four values the schedule engine gives an entry for a step (R245). -/
structure SchedVals where
  lr : F64
  k1 : F64
  k2 : F64
  k3 : F64
  deriving DecidableEq, Repr

/-! ## The parameter store (chapter 8) -/

/-- One generation copy's arrays, in order parameter, s1, s2, s3, each the list of stored element encodings by lane.
A lane past the end of a list holds +0 (R260, R270). -/
structure CopyData where
  arrays : List (List W64) := []
  deriving DecidableEq, Repr

/-- An owned slab: its metadata record (Table 8-6), both generation copies and its staging. -/
structure Slab where
  tag0     : W64
  tag1     : W64
  norm     : F64 := 0
  damaged  : Bool := false
  stgFin   : Bool := false
  stgCtx   : Nat := 0
  stgEpoch : Nat := 0
  stgPass  : Nat := 0
  c0       : CopyData := {}
  c1       : CopyData := {}
  /-- FP64 staging; `none` until first written (R270: content undefined until then). -/
  staging  : Option (List F64) := none
  deriving DecidableEq, Repr

/-- A region of a job (Table 8-1) with its haul format list (R290) and the slabs of it this module owns that differ
from the state of R270. -/
structure Region where
  length   : Nat
  rule     : Nat
  fmts     : List Byte
  stateEn  : Nat
  deal     : Nat
  haul     : List Byte
  /-- The list before the last change and the first step under the new one (R292). -/
  haulWas  : Option (Nat × List Byte) := none
  /-- Tag word of copy 0 at creation (R270). -/
  tag      : W64
  slabs    : SMap Slab := []
  deriving DecidableEq, Repr

/-! ## Updates, haul and hoist (chapters 6, 9) -/

/-- A new copy the update die has written or is writing: its tag is not yet complete (R55, R235 step 6), or it is
complete and its parity delta is on its way (R235 step 7). -/
structure PendingWrite where
  job     : Nat
  ctx     : Nat
  region  : Nat
  slab    : Nat
  step    : Nat
  attempt : Nat
  /-- The copy (0 or 1) being written and its data, until the tag completes. -/
  copy    : Nat
  data    : CopyData
  deriving DecidableEq, Repr

/-- A message or slab kept until another module acknowledges it (R299, R344, R546, R552, R623). -/
structure Held where
  /-- What acknowledges it: PTYPE of the packet. -/
  ptype  : Nat
  job    : Nat
  dst    : Nat
  /-- The fields an acknowledgment echoes. -/
  key    : List Nat
  vc     : Nat
  words  : List W64
  sentAt : Nat
  /-- Time of the first send. -/
  since  : Nat
  deriving DecidableEq, Repr

/-- One slab read merged at its point (R321, R322): who asked. Local requesters are named by (member, tag), remote
ones by (fabric address, READ_ID). -/
structure ReadEntry where
  region  : Nat
  slab    : Nat
  newest  : Bool
  ofmt    : Byte
  /-- The commit sequence the read was issued under (R321). -/
  cseq    : Nat
  locals  : List (Nat × Nat) := []
  remotes : List (Nat × Nat) := []
  /-- Table the entry stands in: 0 to 3 the update die's, 4 and 5 F16's and F17's; 6 = served alone. -/
  table   : Nat
  /-- READ_ID and time of the last send of the REMOTE_READ, for a slab owned elsewhere (R549). -/
  remote  : Option (Nat × Nat) := none
  /-- Held by R338 (PREPARED). -/
  held    : Bool := false
  deriving DecidableEq, Repr

/-- An outstanding hoist request of a member (R311 to R320). -/
structure Hoist where
  member    : Nat
  tag       : Nat
  port      : Nat
  region    : Nat
  /-- Slabs neither sent nor given a status yet. -/
  todo      : List Nat
  sent      : Nat := 0
  damaged   : Nat := 0
  offline   : Nat := 0
  deriving DecidableEq, Repr

/-! ## The seal exchange (chapter 10) -/

/-- Seal states, Table 10-2. -/
inductive SealSt | opened | marked | prepared | aborting
  deriving DecidableEq, Repr

/-- The coordinator's decision (R340). -/
inductive Decision | none | seal | abort
  deriving DecidableEq, Repr

/-- The ABORT_ACK tally of an attempt whose abort the coordinator decided: it outlives the attempt (R349). -/
structure AbortTally where
  step    : Nat
  attempt : Nat
  acks    : List Nat := []
  deriving DecidableEq, Repr

/-- The job's seal object (R332, R509): seal state and vote tally. -/
structure SealObj where
  state     : SealSt := .opened
  /-- A seal request is held for STEP_CUR and the current attempt (R334). -/
  requested : Bool := false
  requestAt : Nat := 0
  /-- YES votes held (coordinator), by ordinal. -/
  yes       : List Nat := []
  decision  : Decision := .none
  /-- The coordinator's abort tallies that are not complete. -/
  aborts    : List AbortTally := []
  /-- SEAL_ACKs held (coordinator). -/
  acks      : List Nat := []
  /-- REASON of the first cause and its ordinal (R336, R361, R509). -/
  reason    : Nat := 0
  first     : Option Nat := none
  /-- Abort progress: holders whose DROP_ACK is awaited; the abort scan is done (R350). -/
  scanDone  : Bool := false
  dropWait  : List Nat := []
  /-- Parity holders whose APPLY_ACK is awaited (R343); the module has not yet sent PARITY_APPLY. -/
  applyWait : List Nat := []
  /-- Holders to which deltas of the attempt were sent. -/
  holders   : List Nat := []
  /-- Step and attempt of the last sealed step, and whether its SEAL_DONE was acted on (R344). -/
  lastStep  : Option (Nat × Nat) := none
  doneActed : Bool := false
  /-- Step and attempt of the last abort that ended here (R345). -/
  lastAbort : Option (Nat × Nat) := none
  /-- Identities of seal messages received for the step and attempt: (step, attempt, ordinal, kind). -/
  seen      : List (Nat × Nat × Nat × Nat) := []
  /-- Step and attempt whose SEAL the coordinator is carrying out, until SEAL_DONE is sent (R341, R345). -/
  sealOf    : Option (Nat × Nat) := none
  /-- Query of a new coordinator: the step and attempt it names, the ordinals whose SEAL_STATE is awaited, whether one has written
  the step (R345). -/
  queryOf   : Nat × Nat := (0, 0)
  queryWait : List Nat := []
  queryHit  : Bool := false
  queryWritten : List Nat := []
  deriving DecidableEq, Repr

/-! ## Jobs (chapters 10, 13, 17) -/

/-- A member attached to a job on this module (Table 13-9, R291, R557). -/
structure Member where
  portA : Nat
  portB : Option Nat
  /-- Haul subscriptions that are not index 0: region ↦ `none` = OFF, `some i` = index i. -/
  subs  : SMap (Option Nat) := []
  /-- Subscriptions before their last change, with the first step under the new one (R292). -/
  was   : SMap (Nat × Option Nat) := []
  /-- The downstream home, and has it changed since the member was told (R557)? -/
  home  : Nat
  untold : Bool := false
  deriving DecidableEq, Repr

/-- Quotas and weights of a job (Table 13-7). -/
structure Quotas where
  accum   : Nat
  ovf     : Nat
  node    : Nat
  ctx     : Nat
  sync    : Nat
  memMib  : Nat
  region  : Nat
  weights : List Nat
  deriving DecidableEq, Repr

end Sys2Proof.Machine
end

