-- ==== Sys2Proof/Machine/StateJob.lean ====
section
/-!
DEFINITION. Sys2Proof/Machine/StateJob.lean: the job record (chapters 13 and 17) with its seal, norm, graph, snapshot,
rebuild, recording and replay state (chapters 6, 10, 14, 18, 20). Plain data only.
-/
namespace Sys2Proof.Machine

/-- The global norm of the step in progress (R214 to R217). -/
structure NormSt where
  /-- The module has formed and sent its own H_q. -/
  formed : Bool := false
  /-- Norm partials held, by ordinal; `none` is NONE. -/
  parts  : SMap (Option F64) := []
  /-- N, once every ordinal's partial is held. -/
  known  : Option F64 := none
  /-- An overflow recorded NF_ACC_OVF (R216). -/
  bad    : Bool := false
  /-- Time the last context of the step completed (NORM_WAIT_US). -/
  waitAt : Option Nat := none
  deriving DecidableEq, Repr

/-- States of a graph node (Table 14-7 codes are given by `nodeCode`). -/
inductive NodeSt | unreleased | waiting | ready | blocked | running | done | failed | skipped
  deriving DecidableEq, Repr

/-- A node of a held graph: the words of its record, its predecessors, and its state. -/
structure Node where
  words  : List W64
  preds  : List Nat
  st     : NodeSt := .unreleased
  cause  : Nat := 0
  /-- Order in which the node became READY or blocked. -/
  order  : Nat := 0
  /-- Time it became READY, or blocked. -/
  since  : Nat := 0
  deriving DecidableEq, Repr

/-- A held graph. -/
structure Graph where
  nodes     : SMap Node
  released  : Bool := false
  step      : Nat := 0
  attempt   : Nat := 0
  cancelled : Bool := false
  trapped   : Bool := false
  /-- The bound step has sealed on the module (R499). -/
  sealed    : Bool := false
  deriving DecidableEq, Repr

/-- The snapshots of a job (R633 to R636, R472): the one in progress, whose packets stand in the job's held messages until
acknowledged, and the step of the last complete one. -/
structure Snap where
  active  : Bool := false
  step    : Nat := 0
  /-- Owned slabs in it. -/
  total   : Nat := 0
  last    : Option Nat := none
  deriving DecidableEq, Repr

/-- A slab that a PARAM_LOAD or SNAP_RESTORE waits for (R449, R637): packets received, keyed 2 × array + half, with
the tag they name. -/
structure Fetch where
  region : Nat
  slab   : Nat
  parts  : SMap (List W64) := []
  fresh  : Bool := false
  step   : Nat := 0
  deriving DecidableEq, Repr

/-- A load (KIND 2) or restore (KIND 1) in progress. -/
structure Load where
  kind    : Nat
  member  : Nat
  /-- The region of a load. -/
  region  : Nat := 0
  /-- OBJECT and SNAP_STEP of its packets. -/
  object  : W64
  step    : Nat := 0
  states  : Bool := true
  pending : List Fetch := []
  written : Nat := 0
  missing : Nat := 0
  startAt : Nat := 0
  deriving DecidableEq, Repr

/-- A recording (R668 to R674). -/
structure Rec where
  active  : Bool := true
  target  : Nat
  port    : Nat := 0
  /-- Buffer size in bytes; the record stream held, as words (target 0). -/
  size    : Nat := 0
  words   : List W64 := []
  /-- Bytes of the buffer that have left the write-combining cache for the memory. -/
  mem     : Nat := 0
  rseq    : Nat := 0
  /-- Stream bytes written. -/
  off     : Nat := 0
  /-- Records dropped since the last one written, and in all; whether REC_GAP was raised. -/
  dropped : Nat := 0
  drops   : Nat := 0
  gapTrap : Bool := false
  /-- Records held for the mirror and the time they have waited (R671). -/
  heldQ   : List (List W64) := []
  heldAt  : Option Nat := none
  /-- Step and attempt of the last STEP_BEGIN record: it stands before every other record of its attempt (R670). -/
  begun   : Option (Nat × Nat) := none
  deriving DecidableEq, Repr

/-- A slab written or emitted by a replayed context whose RESULT record has not been read yet (R679). -/
structure MadeSlab where
  ctx   : Nat
  epoch : Nat
  /-- Epoch of the context in the record. -/
  rec_  : Nat
  slab  : Nat
  acrc  : W32
  img   : W32
  deriving DecidableEq, Repr

/-- A replay (R676 to R680). -/
structure Replay where
  active   : Bool := true
  source   : Nat
  port     : Nat
  first    : Nat
  /-- Extent of the held record it reads. -/
  side     : Bool := false
  /-- Stream words received and not read as records yet; STREAM_OFF of the first of them. -/
  buf      : List W64 := []
  off      : Nat := 0
  /-- SOURCE 1: requests outstanding (offset, bytes, time of the last send), the next offset to ask for, and pieces that
  came before their turn, by offset. -/
  asked    : List (Nat × Nat × Nat) := []
  reqOff   : Nat := 0
  ahead    : SMap (List W64) := []
  /-- Time since which the source's port is not UP. -/
  downAt   : Option Nat := none
  /-- STEP of the last STEP_BEGIN read; the step and attempt that the kept records belong to. -/
  stepAt   : Nat := 0
  cur      : Option (Nat × Nat) := none
  /-- REPLAY_DIVERGE was raised for the STEP_BEGIN record that stands next. -/
  warned   : Bool := false
  /-- Records of the step and attempt that have not had their effect yet. -/
  kept     : List (List W64) := []
  /-- Kept copies that a seam has refused, by RSEQ: each refusal is counted once (R183). -/
  refused  : List Nat := []
  /-- Contexts whose open has found its CTX record: current epoch, and the record's epoch (none when it differed). -/
  found    : SMap (Nat × Option Nat) := []
  /-- Opens of the record whose injection has ended or is refused: (context, epoch). -/
  gone     : List (Nat × Nat) := []
  made     : List MadeSlab := []
  injected : Nat := 0
  diverged : Nat := 0
  /-- Step of the last REPLAY_DIFF trap. -/
  diffStep : Option Nat := none
  deriving DecidableEq, Repr

/-- A sync object (R505 to R509): a counter, a barrier or a job's seal object. -/
inductive SyncKind | counter | barrier | seal_
  deriving DecidableEq, Repr

/-- A sync object of a job. -/
structure SyncObj where
  job   : Nat
  kind  : SyncKind
  value : W64 := 0
  deriving DecidableEq, Repr

/-- A job on this module. -/
structure Job where
  q         : Nat
  serials   : List W64
  ordinal   : Nat
  fanout    : Nat
  haulFmt   : Nat
  inband    : Bool
  seed      : W64
  /-- STEP_CUR; 2^48 after step 2^48 - 1 has sealed (R243). -/
  stepCur   : Nat
  attempt   : Nat := 0
  commit    : W64
  sealSt    : SealObj := {}
  /-- A step is in flight (R755). -/
  inFlight  : Bool := false
  /-- Buckets opened for the step and attempt (R234, R357): region, first slab, slabs. -/
  buckets   : List (Nat × Nat × Nat) := []
  /-- The step is unable to seal on this module (R336): set with the state MARKED and cleared by the next attempt. -/
  values    : SMap SchedVals := []
  hold      : Nat := 10000
  haulDrop  : Nat := 5000
  quotas    : Quotas
  members   : SMap Member := []
  regions   : SMap Region := []
  graphs    : SMap Graph := []
  norm      : NormSt := {}
  nfTrap    : Bool := false
  /-- Updates of the step stopped by a norm overflow or an abort (R216, R73). -/
  updStop   : Bool := false
  /-- Update dies that a non-finite value of the step stopped (R205). -/
  dieStop   : List Nat := []
  /-- Sealed-mode updates of the step have begun (R68). -/
  sealedRun : Bool := false
  writes    : List PendingWrite := []
  held      : List Held := []
  msgId     : Nat := 0
  /-- Ordinals that FABRIC_MAP did not hold at creation (R567); addresses of the others. -/
  addrs     : List (Option Nat)
  withdrawn : List Nat := []
  /-- Serials declared withdrawn that have not claimed an ordinal again (R625, R628). -/
  gone      : List W64 := []
  /-- The member's view of service: this module was declared withdrawn (R626). -/
  stopped   : Bool := false
  commitSeq : Nat := 0
  hoists    : List Hoist := []
  reads     : List ReadEntry := []
  readId    : Nat := 0
  ovfHeld   : Nat := 0
  /-- Bytes of the store charge (R607). -/
  charge    : Nat := 0
  snapInt   : Nat := 20
  snapEn    : Nat := 0
  snapMem   : List Nat := []
  /-- A snapshot setting that the next seal puts in force: interval, STORE_EN, members (R469). -/
  snapNext  : Option (Nat × Nat × List Nat) := none
  snap      : Snap := {}
  loads     : List Load := []
  recd      : Option Rec := none
  /-- Ended recordings whose mirror has not taken every record yet, the oldest first (R671). -/
  recEnded  : List Rec := []
  /-- The held record of the job's last store recording: bytes reserved and stream words (R673). -/
  heldRec   : Option (Nat × List W64) := none
  /-- Which of the job's two record extents the next recording takes; the held record stands in the other. -/
  recSide   : Bool := false
  replay    : Option Replay := none
  /-- Reference mode: OUT_PORT when enabled. -/
  refMode   : Option Nat := none
  /-- Watch on the next higher live ordinal and LIVE timer (R624). -/
  liveRx    : Nat := 0
  liveTx    : Nat := 0
  /-- Parity deltas of the attempt not acknowledged: (region, slab, piece). -/
  deltaWait : List (Nat × Nat × Nat) := []
  /-- Base-delta pieces not acknowledged: (region, slab, piece) (R621). -/
  baseWait  : List (Nat × Nat × Nat) := []
  /-- Holders to which PARITY_APPLY of the last sealed step is still to be acknowledged are in the seal object; a rebuild
  or repair in progress (R629, R631). -/
  rebuild   : Option Rebuild := none
  /-- Seal messages of an attempt this module has not reached yet: taken when it does. -/
  early     : List PktRx := []
  /-- Slabs whose repair is due or running; no YES vote is cast (R631). -/
  repairs   : List (Nat × Nat) := []
  /-- Haul identities already taken from trunks (R300). -/
  haulSeen  : List (List Nat) := []
  deriving DecidableEq, Repr

end Sys2Proof.Machine
end

