-- ==== Sys2Proof/Machine/StateLink.lean ====
section
/-!
DEFINITION. Sys2Proof/Machine/StateLink.lean: the records of ports and links (chapter 15), the fabric and the bypass
pairs (chapter 16), buffer pools (chapter 17) and the management side (chapters 12 and 23). Plain data only.
-/
namespace Sys2Proof.Machine

/-! ## Ports (chapter 15) -/

/-- Link states, Table 15-2. -/
inductive LinkSt | down | train | init | up | retrain
  deriving DecidableEq, Repr

/-- What the module does when the link layer has acknowledged the last flit of a packet it sent, or when the port goes
DOWN before that (R559, Table 15-19). -/
inductive Track
  /-- Nothing: answers, Ouvrov replies, context notices, trunk packets, link management. -/
  | none
  /-- A haul slab to a member (R305 to R307): the use of the context it belongs to (`ctxKey`, 0 for none), and when it was
  queued first. -/
  | haul (job member use queuedAt : Nat)
  /-- HAUL_END or STEP_NOTICE to a member (R559). -/
  | notice (job member : Nat)
  /-- A slab (kind 0) or a slab status (1 damaged, 2 offline) of a hoist request (R320). -/
  | hoist (job member tag kind : Nat)
  /-- A HOIST_END with its three counts (R320). -/
  | hoistEnd (job member tag delivered damaged offline : Nat)
  /-- A packet of a record mirror: the first of its record or not (R671). -/
  | mirror (job : Nat) (first : Bool)
  deriving DecidableEq, Repr

/-- A packet queued for a port. `queue` is the job, or 64 for the module queue of the VC (R537). -/
structure TxPacket where
  queue : Nat
  vc    : Nat
  words : List W64
  track : Track := .none
  deriving DecidableEq, Repr

/-- The packet whose bytes the transmitter is putting on a VC: it switches queues only at a packet boundary (R537). -/
structure TxCur where
  pkt  : TxPacket
  /-- 4-byte units still to send. -/
  rest : List W32
  deriving DecidableEq, Repr

/-- A data flit kept for replay (R528). -/
structure Flit where
  seq     : Nat
  vc      : Nat
  nextPkt : Nat
  payload : List W32
  /-- Packets whose last byte this flit carries. -/
  done    : List TxPacket := []
  deriving DecidableEq, Repr

/-- Sender state of one VC (R532). -/
structure TxVc where
  adv   : Nat := 0
  freed : Nat := 0
  sent  : Nat := 0
  cur   : Option TxCur := none
  /-- Since when data waits without a credit, counted in CREDIT_STALL_US to `stallAt`. -/
  stallAt : Option Nat := none
  deriving DecidableEq, Repr

/-- Receiver state of one VC (R527, R532, R533). -/
structure RxVc where
  adv     : Nat := 0
  got     : Nat := 0
  freed   : Nat := 0
  /-- 4-byte units of the packet being received. -/
  part    : List W32 := []
  /-- Flits with bytes in the packet being received, by their number modulo 65,536: they are not freed yet. -/
  flits   : List Nat := []
  /-- Waiting for a flit whose NEXT_PKT is not 63 (R533). -/
  resync  : Bool := false
  deriving DecidableEq, Repr

/-- A whole packet in the receive buffer of a VC, waiting for the policer (R538, R611), and the flits its bytes are in. -/
structure Parked where
  vc    : Nat
  flits : List Nat
  pkt   : PktRx
  deriving DecidableEq, Repr

/-- A control flit waiting to be sent, Table 15-5. -/
inductive CtlFlit
  | nak (exp : Nat)
  | creditInit
  | creditSnap
  | beacon
  | downNotice
  deriving DecidableEq, Repr

/-- What a beacon says (Table 15-5). -/
structure Beacon where
  serial : W64
  engine : Nat
  pos    : Nat
  role   : Nat
  deriving DecidableEq, Repr

/-- A CAPTURE record (R743). -/
structure Capture where
  vc     : Nat
  reason : Nat
  timeUs : Nat
  words  : List W64
  deriving DecidableEq, Repr

/-- One port position 0 to 287. -/
structure Port where
  /-- 0 off, 1 member, 2 trunk (R431). -/
  role     : Nat := 0
  st       : LinkSt := .down
  /-- LAST_DOWN of Table 23-3. -/
  lastDown : Nat := 0
  /-- Time of entry to the state. -/
  since    : Nat := 0
  /-- Last time the port was UP and left it. -/
  upAt     : Nat := 0
  /-- Has training failed since the port was last UP: DOWN retries wait 1 s (R519)? -/
  failed   : Bool := false
  /-- The next failure of TRAIN or INIT raises TRAIN_FAIL: it is the first after UP (R563). -/
  failTrap : Bool := false
  txSeq    : Nat := 0
  rxSeq    : Nat := 0
  /-- Time of the last NAK sent while it is outstanding (R528). -/
  nakAt    : Option Nat := none
  credSent : Bool := false
  credRcvd : Bool := false
  beacSent : Bool := false
  beacRcvd : Bool := false
  /-- A member partner advertised less than Table 15-7 (R521). -/
  credLow  : Bool := false
  ctl      : List CtlFlit := []
  replay   : List Flit := []
  /-- SEQs to be sent again, in order (R528). -/
  redo     : List Nat := []
  resends  : Nat := 0
  ackAt    : Nat := 0
  snapAt   : Nat := 0
  beacAt   : Nat := 0
  tx       : List TxVc := []
  rx       : List RxVc := []
  /-- Packets waiting for the policer, in the order they arrived. -/
  parked   : List Parked := []
  /-- The policer's deficits, keyed 64 × VC + job, and the key it served last on each VC. -/
  polDef   : SMap Nat := []
  polLast  : SMap Nat := []
  /-- The scrambler's last 58 bits, the oldest lowest, and whole flits sent since the last alignment marker group (R516). -/
  scr      : BitVec 58 := 0
  amFlits  : Nat := 0
  queue    : List TxPacket := []
  /-- Bytes that a queue of the deficit round robin may still send in its turn; below 0, bytes that it owes (R537). -/
  deficits : SMap Int := []
  /-- The queue served last by the deficit round robin: 65 × VC + queue. -/
  rrLast   : Nat := 0
  /-- Weights that a JOB_QUOTA has replaced and that stay in force until the next round, keyed as the deficits (R610). -/
  lateW    : SMap Nat := []
  latePol  : SMap Nat := []
  crVc     : Nat := 0
  laneLock : Nat := 0
  eqStored : Bool := false
  /-- Time of the last write of new equalization settings of a set, 0 line and 1 loopback (R520, R688). -/
  eqWrite  : SMap Nat := []
  protoAt  : Option Nat := none
  capture  : Option Capture := none
  beacon   : Option Beacon := none
  /-- Time the last beacon arrived (R575). -/
  beacRxAt : Nat := 0
  /-- The beacon that last classified the port (R574). -/
  clsBeac  : Option Beacon := none
  cls      : Nat := 0
  thruK    : Nat := 0
  /-- The last cabling check found both homes of a member on this port's face die (R77). -/
  warn     : Bool := false
  /-- Since start-up: has the port been in service, has it left a good class after that, and the classes that raised CABLE (R578). -/
  wasServ  : Bool := false
  wasLeft  : Bool := false
  trapCls  : List Nat := []
  /-- Laser bias level in the units of LASER_BIAS (R648). -/
  bias     : Nat := 0
  /-- Failures of TRAIN or INIT in succession, and codewords that FEC could not correct in the last hour, as (time, codewords)
  (Table 19-3). -/
  trainErr : Nat := 0
  fecLost  : List (Nat × Nat) := []
  /-- The next TRAIN adapts fully: the stored settings belong to a replaced slice (R644). -/
  eqFull   : Bool := false
  deriving DecidableEq, Repr

/-! ## Fabric (chapter 16) -/

/-- A ring map entry (R586). -/
structure RingEntry where
  seq       : Nat
  plusN     : Nat
  minusN    : Nat
  plusNext  : Nat
  minusNext : Nat
  at_       : Nat
  deriving DecidableEq, Repr

/-- Bypass pair states (R744 Table 23-4). -/
inductive PairSt | joined | released | releasing
  deriving DecidableEq, Repr

/-- A bypass pair with its two beacon monitors (R568 to R582). -/
structure Pair where
  st       : PairSt := .joined
  held     : Bool := false
  reverted : Bool := false
  /-- Time the switch last moved, and the start of a release in progress. -/
  changeAt : Nat := 0
  startAt  : Nat := 0
  monA     : Option Beacon := none
  monB     : Option Beacon := none
  monAtA   : Nat := 0
  monAtB   : Nat := 0
  clsA     : Nat := 0
  clsB     : Nat := 0
  /-- Last time the monitor classified its side. -/
  clsAtA   : Nat := 0
  clsAtB   : Nat := 0
  deriving DecidableEq, Repr

/-- One cabling plan entry (R480). -/
structure PlanEntry where
  kind   : Nat
  axis   : Nat
  dir    : Nat
  engine : Nat
  pos    : Nat
  serial : W64
  deriving DecidableEq, Repr

/-- A packet with no live route (R583). -/
structure RouteHold where
  vc    : Nat
  job   : Nat
  dst   : Nat
  words : List W64
  since : Nat
  deriving DecidableEq, Repr

/-- Fabric state. FABRIC_MAP words and JOB_PAIRS words not listed are 0. -/
structure Fabric where
  cfg       : W64 := 0
  cfgRun    : W64 := 0
  map       : SMap W64 := []
  mapRun    : SMap W64 := []
  jobPairs  : SMap W64 := []
  ringSeq   : Nat := 0
  /-- Ring map entries, keyed 8 × axis + coordinate. -/
  ring      : SMap RingEntry := []
  /-- Time of the last RING_STATE of the 100 ms timer. -/
  ringAt    : Nat := 0
  pairs     : List Pair := []
  lastRelease : Option Nat := none
  plan      : SMap PlanEntry := []
  /-- Plan in force for classification: it changes at the next check after a load (R574). -/
  planRun   : SMap PlanEntry := []
  holds     : List RouteHold := []
  /-- The module's own serial stands at its ADDR (R566). -/
  cfgOk     : Bool := true
  deriving DecidableEq, Repr

/-! ## Buffer pools (chapter 17) -/

/-- An allocated buffer: its reference count (1 to 255), the requester and the job it is held for. -/
structure Buf where
  refs : Nat
  req  : Nat
  job  : Option Nat
  deriving DecidableEq, Repr

/-- The buffer pool manager. A buffer not listed is free; keys are handles (R594). -/
structure Pools where
  bufs   : SMap Buf := []
  /-- Free stacks of pools 60 to 63, top first. -/
  frees : SMap (List Nat) := []
  /-- Lowest FREE since power-up, where it is below COUNT. -/
  low    : SMap Nat := []
  /-- Open privileged pools (R600). -/
  opened : List Nat := []
  /-- The manager's last answer to an ALLOC, ADDREF or RELEASE: the handle, or none when it refused. -/
  answer : Option Nat := none
  deriving DecidableEq, Repr

/-! ## Sessions, principals, telemetry and traps (chapters 12 and 23) -/


/-- An Ouvrov packet's fields as the module checks and echoes them (Table 12-1), and its body. -/
structure Reply where
  status : W16
  detail : W16
  body   : List W64
  deriving DecidableEq, Repr

/-- A staged load of a segmented command (R424). -/
structure Staged where
  opcode  : Nat
  job     : Nat
  target  : Nat
  total   : Nat
  chunks  : List (List W64)
  next    : Nat
  lastAt  : Nat
  buffers : List Nat
  deriving DecidableEq, Repr

/-- A history slot of a session: the command's PKT_CRC, and its final reply once it has one with the buffer that holds
it. -/
structure Hist where
  crc    : W32
  reply  : Option Reply := none
  opcode : Nat
  tag    : W32
  handle : Option Nat := none
  deriving DecidableEq, Repr

/-- A session (R398 to R401). Management sessions are named by (principal index, SESSION), in-band ones by (job, member,
SESSION). -/
structure Session where
  inband  : Bool
  job     : Nat
  who     : Nat
  session : W32
  high    : W32
  hist    : SMap Hist := []
  staged  : Option Staged := none
  lastUse : Nat
  /-- Its principal was disabled: it goes with its last executing command (R411). -/
  dying   : Bool := false
  deriving DecidableEq, Repr

/-- A command accepted and without a final reply (R404). -/
structure Waiting where
  inband  : Bool
  job     : Nat
  who     : Nat
  session : W32
  seq     : W32
  tag     : W32
  opcode  : Nat
  /-- JOB field of the header. -/
  hjob    : Nat
  since   : Nat
  interim : Bool := false
  /-- It was executing when a takeover began: no reply is sent until its sender sends it again (R58). -/
  muted   : Bool := false
  src     : CmdSrc
  /-- What the command works on (context, job, region …), to find it when its work ends. -/
  object  : Nat
  /-- The buffer of pool 0 or 1 that holds the packet. -/
  buffer  : Option Nat := none
  deriving DecidableEq, Repr

/-- A principal entry (Table 12-3). -/
structure Principal where
  addr    : BitVec 128 := 0
  role    : Nat := 0
  udp     : Nat := 0
  mask    : W64 := 0
  deriving DecidableEq, Repr

/-- A telemetry sink (R434, R752). -/
structure Sink where
  addr   : BitVec 128
  udp    : Nat
  mport  : Nat
  period : Nat
  mask   : Nat
  seq    : Nat := 0
  lastAt : Nat
  /-- Datagrams of snapshots that have not been sent yet: stream and words (R752). -/
  unsent : List (Nat × List W64) := []
  deriving DecidableEq, Repr

/-- A recorded trap: the eight words of Table 23-8, the time it was recorded and its buffer. -/
structure TrapRec where
  words  : List W64
  at_    : Nat
  handle : Nat
  deriving DecidableEq, Repr

/-- What leaves the module other than on a tensor link. -/
inductive Out
  /-- An Ouvrov reply on a management port. -/
  | reply (port : Nat) (addr : BitVec 128) (udp : Nat) (words : List W64)
  /-- A telemetry datagram. -/
  | telemetry (mport : Nat) (addr : BitVec 128) (udp : Nat) (words : List W64)
  /-- PMBus and SMBus answers: the bytes returned. -/
  | pmbus (bytes : List Byte)
  /-- A command not acknowledged on the PMBus. -/
  | pmbusNack
  /-- A flit put on a port's fiber: header, payload units, CRC; its bits as they go into the FEC message, scrambled, in 4-byte
  units; and the zero bits that follow it before the next alignment marker group (R516). -/
  | flit (port : Nat) (hdr : W64) (payload : List W32) (crc : W32) (line : List W32) (pad : Nat)
  /-- Bits shifted out of the test access port, least significant first, and how many. -/
  | tap (bits : Nat) (len : Nat)
  /-- The signals of the blade connector under test, in the order of the boundary-scan register: driven, or floating (R735). -/
  | pins (drive : Option (List Bool))
  /-- An ARP reply or announcement: port, sender MAC, sender address, target MAC, target address. -/
  | arp (mport : Nat) (sha : W64) (spa : W32) (tha : W64) (tpa : W32)
  /-- A neighbour advertisement: port, target address, MAC, destination. -/
  | neighbor (mport : Nat) (target : BitVec 128) (mac : W64) (dst : BitVec 128)
  /-- A neighbour solicitation of duplicate address detection: port, target address; its source is the unspecified address. -/
  | solicit (mport : Nat) (target : BitVec 128)
  /-- An echo reply: port, destination, identifier and sequence, data. -/
  | echo (mport : Nat) (dst : BitVec 128) (ident : W32) (data : List Byte)
  deriving DecidableEq, Repr

/-- The management side. -/
structure Mgmt where
  sessions   : List Session := []
  waiting    : List Waiting := []
  principals : SMap Principal := []
  sinks      : SMap Sink := []
  traps      : SMap TrapRec := []
  nextTseq   : Nat := 0
  readTseq   : Nat := 0
  linkUp     : List Nat := []
  /-- MGMT_ADDR words as stored and as in force, keyed by word 0 to 11 (Table 21-6). -/
  addr       : SMap W64 := []
  addrRun    : SMap W64 := []
  /-- Addresses in use: 3 × port for the static IPv4 address, + 1 link-local, + 2 static IPv6 (R707). -/
  inUse      : List Nat := []
  /-- Addresses found duplicate or in conflict: not used, or defended once and trapped. -/
  dup        : List Nat := []
  defended   : List Nat := []
  out        : List Out := []
  deriving DecidableEq, Repr

end Sys2Proof.Machine
end

