-- ==== Sys2Proof/Machine/StateModule.lean ====
section
/-!
DEFINITION. Sys2Proof/Machine/StateModule.lean: the records of the spare map and the repair engine (chapter 19),
retained flash and start-up (chapter 21), the power stage, the clocks and the test port (chapter 22). Plain data only.
Tables of the spare map hold what differs from the map as shipped (log 8).
-/
namespace Sys2Proof.Machine

/-! ## The factory region (R687) -/

/-- What manufacture fixes (R687, R688, Table 23-2): the factory region of retained flash and the mask ROM. -/
structure Factory where
  serial : W64
  mac0   : BitVec 48
  mac1   : BitVec 48
  romVer : W32
  /-- LASER_REF: manufacture bias by position, where not the common value. -/
  laser  : SMap W64
  deriving DecidableEq, Repr

/-- What manufacture fixes, as the model takes it (log 1). -/
def shipped : Factory :=
  { serial := 0x1000#64, mac0 := 0x010028550002#48, mac1 := 0x020028550002#48, romVer := 0x00010000#32, laser := [] }

/-! ## Spare map (chapter 19) -/

/-- A physical seam record, Table 19-10: 0 active, 1 checking, 2 retired. -/
structure SeamRec where
  st   : Nat
  pos  : Option Nat
  ship : Bool := false
  deriving DecidableEq, Repr

/-- A channel record, Table 19-11. -/
structure ChanRec where
  st    : Nat
  wnum  : Option Nat
  ship  : Bool := false
  /-- An erasure that waits for a spare of the die (Table 19-15). -/
  waits : Bool := false
  deriving DecidableEq, Repr

/-- A die-to-die link record, Table 19-12, and its run of retry failures (R62). -/
structure LinkRec where
  st     : Nat := 0
  groups : Nat := 0
  ship   : Bool := false
  deriving DecidableEq, Repr

/-- SRAM rows of a die, Table 19-13. -/
structure SramRec where
  used : Nat := 0
  lost : Nat := 0
  deriving DecidableEq, Repr

/-- The spare map held in K and the repair engine's counts. -/
structure Spare where
  seq       : Nat := 0
  /-- SPARE_CDIE: the die holding the checking seams, or 0xF. -/
  cdie      : Nat := 8
  hours     : Nat := 0
  /-- POS_STATE by optical position, where not good. -/
  posState  : SMap Nat := []
  /-- Slice steered to a position, where not its own; 0x1F = none. -/
  slice     : SMap Nat := []
  /-- Retired slices, as 16 × face die + slice. -/
  sliceOut  : List Nat := []
  /-- Positions failed, and slices retired, at manufacture (POS_SHIP, SLICE_SHIP). -/
  posShip   : List Nat := []
  sliceShip : List Nat := []
  seams     : SMap SeamRec := []
  chans     : SMap ChanRec := []
  /-- Retired update lanes, as 128 × update die + lane. -/
  lanes     : List Nat := []
  links     : SMap LinkRec := []
  srams     : SMap SramRec := []
  /-- Spare rows used, by 2^20 × die + bank. -/
  rows      : SMap Nat := []
  /-- Corrected words of SRAM rows, by 2^10 × (2^20 × die + bank) + row: the times of the last 24 h (Table 19-3). -/
  ces       : SMap (List Nat) := []
  /-- Blocks that the inner code corrected on a channel in the last 24 h, as (time, blocks), and stripes in which it reported an
  erasure of the channel in the last second, as (time, stripe) (Table 19-3). -/
  chanCes   : SMap (List (Nat × Nat)) := []
  chanErs   : SMap (List (Nat × Nat)) := []
  /-- Cache lines disabled for want of a spare row, by 4 × update die + part: frames, metadata, staging, write-combining. -/
  cut       : SMap Nat := []
  /-- Active seams retired: (combine die, time). -/
  seamAt    : List (Nat × Nat) := []
  /-- Positions whose seam is being retired: until when they take nothing (R196). -/
  retiring  : SMap Nat := []
  /-- Built-in tests in progress after a SAMPLE_DIFF: (active seam, checking seam, start) (R195). -/
  tests     : List (Nat × Nat × Nat) := []
  /-- Face dies and combine dies lost or retired, by d of Table 19-12. -/
  dead      : List Nat := []
  deriving DecidableEq, Repr

/-! ## Memory of an update die (chapter 8) -/

/-- A 32-byte block that is not as it was written (R263): the bits that differ, byte 0 lowest, and whether the inner code reports
a block with three or more wrong symbols. -/
structure BlockErr where
  pat    : BitVec 256
  caught : Bool
  deriving DecidableEq, Repr

/-- What a prefetcher is bound to (Table 8-12). -/
inductive WalkFor
  /-- An open context and its epoch: update frames, or staging. -/
  | update (ctx epoch : Nat)
  | staging (ctx epoch : Nat)
  /-- A hoist request of a member. -/
  | hoist (job member tag : Nat)
  /-- A stream of a job, 0 snapshot, 1 rebuild or repair, 2 parity; or of the die, under job 64: 3 scrub, 4 overflow refill. -/
  | service (job stream : Nat)
  deriving DecidableEq, Repr

/-- A bound prefetcher: the slabs it has read ahead, each with the copy it took. -/
structure Walk where
  for_  : WalkFor
  ahead : List (Nat × Nat) := []
  deriving DecidableEq, Repr

/-- The memory and cache of an update die. -/
structure MemDie where
  /-- Damaged blocks, by 62 × stripe + working channel. -/
  errs   : SMap BlockErr := []
  /-- Stripes written since the channel rebuild in progress began, which it skips (R284), and runs of stripes, from a first one up
  to another, that the scrubber has written back since. -/
  built  : List Nat := []
  runs   : List (Nat × Nat) := []
  /-- Stripes that a write could not read the rest of: what they hold is lost (R265, R286). -/
  lost   : List Nat := []
  /-- Next stripe of the scrubber, and stripes it has to read again after a write (R266, Table 8-14). -/
  scrub  : Nat := 0
  again  : List Nat := []
  /-- Extents: the pieces (first stripe, stripes) of every area placed in the die, by `extKey` (R268, R269). -/
  exts   : SMap (List (Nat × Nat)) := []
  /-- Stripes in the four parts of the cache, the oldest first (Table 8-11). -/
  frames : List Nat := []
  comb   : List Nat := []
  metas  : List Nat := []
  stage  : List Nat := []
  /-- Bound prefetchers, 0 to 31 (R281, R282). -/
  walks  : SMap Walk := []
  deriving DecidableEq, Repr

/-! ## Retained flash (chapter 21) -/

/-- A record copy as a log holds it: the position of its header, counted on over the rotation, the four header words (Table 21-1) and
the nonzero words of the body. -/
structure RecCopy where
  at_  : Nat := 0
  head : List W64
  body : SMap W64
  deriving DecidableEq, Repr

/-- A record write waiting for the flash interface (R726). -/
structure FlashWrite where
  rid  : Nat
  len  : Nat
  body : SMap W64
  deriving DecidableEq, Repr

/-- A flash device, mirror A or B (R687): the copies in its record log, the oldest first; the write position and the end of the erased
space, counted on over the rotation; whether three writes failed in succession (R689); and the factory records that fail their CRC in
its factory region. -/
structure FlashDev where
  copies : List RecCopy := []
  pos    : Nat := 0
  free   : Nat := 62914560
  bad    : Bool := false
  facBad : List Nat := []
  deriving DecidableEq, Repr

/-- Retained flash: the two devices, SOURCE of RETAINED_DIR by RID. -/
structure Flash where
  a       : FlashDev := {}
  b       : FlashDev := {}
  source  : SMap Nat := []
  /-- How the devices fare: attempts of the coming record writes that fail their read-back, on A and on B, the next write first. -/
  fails   : List (Nat × Nat) := []
  /-- Writes held by the loss of domain 39, since when, and the FLASH_WRITE trap raised (R726). -/
  waits   : List FlashWrite := []
  waitAt  : Option Nat := none
  waitTrap : Bool := false
  /-- Time of the last hourly LIFE write. -/
  lifeAt  : Nat := 0
  deriving DecidableEq, Repr

/-! ## Start-up (chapter 21) -/

/-- Phases of Table 21-3. -/
inductive Phase | power | rom | restore | patch | dies | memory | links | serve | bypass | ready | failed
  deriving DecidableEq, Repr

/-- Start-up state and the Ivpin processors. -/
structure Start where
  phase     : Phase := .rom
  failPhase : Nat := 0
  failCause : Nat := 0
  /-- Active processor, 0 or 1, or 0xFF. -/
  cpu       : Nat := 0xFF
  /-- Processors lost or failed. -/
  cpuLost   : List Nat := []
  /-- Takeover in progress since (R58). -/
  takeover  : Option Nat := none
  phaseMs   : Nat := 0
  restarts  : Nat := 0
  /-- Origin of TIME_US and of the offsets (R692). -/
  origin    : Nat := 0
  /-- Time of entry to the phase. -/
  phaseAt   : Nat := 0
  /-- PATCH_VER of the running patch; 0 = ROM only. -/
  patchVer  : Nat := 0
  /-- The group CLAIM was refused: no deltas are sent (R704). -/
  claimBad  : Bool := false
  deriving DecidableEq, Repr

/-! ## Power, clocks, test port (chapter 22) -/

/-- Where the 48 V input stands. -/
inductive InputSt | below10 | low | ok | high
  deriving DecidableEq, Repr

/-- The power stage and the test access port. -/
structure Power where
  page     : Nat := 0
  /-- Held off by OPERATION. -/
  opOff    : Bool := false
  /-- STATUS bits: output voltage, output current, input, temperature, communication, and the word's own bits. -/
  stVout   : Byte := 0
  stIout   : Byte := 0
  stInput  : Byte := 0
  stTemp   : Byte := 0
  stCml    : Byte := 0
  /-- The latched shutdown cause that K reads at SERVE (R718); 0 = none. -/
  latch    : Nat := 0
  /-- MFR_SHUTDOWN_CAUSE, until CLEAR_FAULTS (log 10). -/
  mfrCause : Nat := 0
  /-- PMBus and SMBus answer from this time on. -/
  answerAt : Nat := 0
  /-- The shutdown in force, by cause, and its time. -/
  down     : Option Nat := none
  downAt   : Nat := 0
  /-- The restart condition of the shutdown in force has been met (Table 22-2). -/
  due      : Bool := false
  /-- Times of restarts under causes 3, 5 and 8 (R715). -/
  restarts : List Nat := []
  /-- No restart takes place until OPERATION or the input is cycled (R715). -/
  locked   : Bool := false
  input    : InputSt := .ok
  hbArmed  : Bool := false
  hbAt     : Nat := 0
  scanEn   : Bool := false
  /-- Test access port instruction: 0 BYPASS, 1 IDCODE, 2 SAMPLE/PRELOAD, 3 EXTEST, 4 HIGHZ. -/
  tap      : Nat := 1
  /-- The boundary-scan register: one bit for each signal of the blade connector except power (R735). -/
  bsr      : List Bool := List.replicate 48 false
  /-- PMBus readings of the present 10 ms, by 8 × command code + page: which 10 ms, and the word (R723). -/
  readings : SMap (Nat × Nat) := []
  /-- Excursions in progress: units (d for dies, 64 + engine, 200 for the coolant inlet) and the input. -/
  hot      : List Nat := []
  inputExc : Bool := false
  deriving DecidableEq, Repr

/-- The clock root (R725 to R729). -/
structure Clocks where
  /-- The reference is detected, and since when (Table 22-6). -/
  refOk    : Bool := true
  refAt    : Nat := 0
  holdover : Bool := false
  slewing  : Bool := false
  /-- Domains stopped since start-up. -/
  lost     : List Nat := []
  /-- All domains locked (from DIES on). -/
  locked   : Bool := false
  holdAt   : Nat := 0
  deriving DecidableEq, Repr

end Sys2Proof.Machine
end

