-- ==== Sys2Proof/Machine/State.lean ====
section
/-!
DEFINITION. Sys2Proof/Machine/State.lean: the state of the module, the reasons a step can stop, and the state after
reset.
-/
namespace Sys2Proof.Machine

/-- Everything in the module that commands and events change. -/
structure Dev where
  /-- Time in microseconds since the model's start. -/
  nowUs    : Nat := 0
  /-- Fixed at manufacture. -/
  fac      : Factory := shipped
  start    : Start := {}
  spare    : Spare := {}
  /-- Memory of the update dies, 0 to 3. -/
  mems     : SMap MemDie := []
  flash    : Flash := {}
  power    : Power := {}
  clocks   : Clocks := {}
  jobs     : SMap Job := []
  ctxs     : SMap Ctx := []
  /-- Uses of contexts that were released or opened again after they completed, while their update, haul or haul end notice
  is outstanding (R68, R307); by `ctxKey`. -/
  left     : SMap Ctx := []
  maps     : SMap RankMap := []
  rules    : SMap RuleSlot := []
  scheds   : SMap SchedEntry := []
  syncs    : SMap SyncObj := []
  ports    : SMap Port := []
  fabric   : Fabric := {}
  pools    : Pools := {}
  mgmt     : Mgmt := {}
  parity   : ParitySt := {}
  /-- Counters by word index from 0x8000_0000 (R745); an unlisted counter is 0. -/
  counters : SMap W64 := []
  /-- Packets the link layer has delivered and no step has taken yet. -/
  arrived  : List PktRx := []
  /-- Jobs that the policer of a face die holds, keyed 18 × job + die, and the time counted to in POLICE_HOLD_US (R611). -/
  policed  : SMap Nat := []
  /-- Order numbers given to READY and blocked graph nodes and to contexts that open; the job served last by the graph
  scheduler. -/
  order    : Nat := 0
  lastJob  : Nat := 63
  /-- The model's own field, not the spec's: how many free values have been drawn (log 2). -/
  freeCtr  : Nat := 0
  deriving DecidableEq, Repr

/-- The state of the block: the device, and the commands that wait, first in, first out. -/
structure State where
  dev     : Dev
  pending : List Instr
  deriving DecidableEq, Repr

/-- Why a step stops with a fault. -/
inductive Fault
  /-- Raised by any meaning whose operands name a unit the spec does not give the module (a port above 287, a pair
  above 15, ...) or a packet of another kind than the command's: no such command exists. Safe: the hardware never sees
  it. -/
  | noSuchUnit
  deriving DecidableEq, Repr

/-- Why a step is refused. -/
inductive Refusal
  /-- Raised by `exec` for a command that has no meaning in the model yet; safe. -/
  | notModelled (mnemonic : String)
  deriving DecidableEq, Repr

/-- Sixteen pairs, all JOINED (R570, R692). -/
def resetPairs : List Pair := List.replicate 16 {}

/-- The module right after reset (R692): start-up begins at ROM, pairs joined, nothing held (R691), every pool free
with pools 60 and 63 open (R600), retained logs as shipped. -/
def State.reset : State :=
  { dev := { fabric := { pairs := resetPairs }, pools := { opened := [60, 63] } }
    pending := [] }

end Sys2Proof.Machine
end

