-- ==== Sys2Proof/Machine/Words.lean ====
section
/-!
DEFINITION. Sys2Proof/Machine/Words.lean: bit fields of 64-bit words (R23), lists of words as records, and CRC-32C.
-/
namespace Sys2Proof.Machine

/-- Bits [hi:lo] of a number. -/
def fieldN (n hi lo : Nat) : Nat := (n / 2 ^ lo) % 2 ^ (hi + 1 - lo)

/-- Bits [hi:lo] of a word, as a number. -/
def field (w : W64) (hi lo : Nat) : Nat := fieldN w.toNat hi lo

/-- Bit `i` of a word. -/
def flag (w : W64) (i : Nat) : Bool := w.getLsbD i

/-- Word `i` of a record; a word past its end reads 0. -/
def wordAt (l : List W64) (i : Nat) : W64 := l.getD i 0

/-- A word from fields (value, low bit); the fields do not overlap. -/
def mkWord (fs : List (Nat × Nat)) : W64 :=
  BitVec.ofNat 64 (fs.foldl (fun a f => a + f.1 * 2 ^ f.2) 0)

/-- 1 for true. -/
def bit (b : Bool) : Nat := if b then 1 else 0

/-- Replace entry `i` of a list. -/
def listSet {α : Type} : List α → Nat → α → List α
  | [], _, _ => []
  | _ :: r, 0, v => v :: r
  | a :: r, i + 1, v => a :: listSet r i v

/-- Numbers `a, a + 1, …`, `n` of them. -/
def rangeFrom (a : Nat) : Nat → List Nat
  | 0 => []
  | n + 1 => a :: rangeFrom (a + 1) n

/-- Position of the first element equal to `x`. -/
def indexOf (x : Nat) : List Nat → Nat → Option Nat
  | [], _ => none
  | a :: r, i => if a = x then some i else indexOf x r (i + 1)

/-- Add an element to a list of distinct numbers. -/
def insNat (x : Nat) (l : List Nat) : List Nat := if l.contains x then l else l ++ [x]

/-- Remove an element. -/
def delNat (x : Nat) (l : List Nat) : List Nat := l.filter (· != x)

/-- Little-endian bytes of a word list. -/
def wordsBytes : List W64 → List Byte
  | [] => []
  | w :: r =>
    BitVec.ofNat 8 w.toNat :: BitVec.ofNat 8 (w.toNat / 2 ^ 8) :: BitVec.ofNat 8 (w.toNat / 2 ^ 16) ::
    BitVec.ofNat 8 (w.toNat / 2 ^ 24) :: BitVec.ofNat 8 (w.toNat / 2 ^ 32) :: BitVec.ofNat 8 (w.toNat / 2 ^ 40) ::
    BitVec.ofNat 8 (w.toNat / 2 ^ 48) :: BitVec.ofNat 8 (w.toNat / 2 ^ 56) :: wordsBytes r

/-- The number that bytes spell, little-endian. -/
def bytesNat : List Byte → Nat
  | [] => 0
  | b :: r => b.toNat + 256 * bytesNat r

/-- Bytes as 64-bit words, the last padded with zeros; `fuel` words. -/
def bytesWordsAux : Nat → List Byte → List W64
  | 0, _ => []
  | fuel + 1, bs =>
    match bs with
    | [] => []
    | _ => BitVec.ofNat 64 (bytesNat (bs.take 8)) :: bytesWordsAux fuel (bs.drop 8)

/-- Bytes as 64-bit words, the last padded with zeros. -/
def bytesWords (bs : List Byte) : List W64 := bytesWordsAux (bs.length / 8 + 1) bs

/-- One bit step of CRC-32C (Castagnoli, reflected). -/
def crcBit (c : Nat) : Nat := if c % 2 = 1 then (c / 2) ^^^ 0x82F63B78 else c / 2

/-- One byte step of CRC-32C. -/
def crcByte (c : Nat) (b : Byte) : Nat :=
  crcBit (crcBit (crcBit (crcBit (crcBit (crcBit (crcBit (crcBit (c ^^^ b.toNat))))))))

/-- CRC-32C of a byte string. -/
def crc32c (bs : List Byte) : W32 := BitVec.ofNat 32 (bs.foldl crcByte 0xFFFFFFFF ^^^ 0xFFFFFFFF)

/-- CRC-32C of a word list, in little-endian order. -/
def crcWords (ws : List W64) : W32 := crc32c (wordsBytes ws)

end Sys2Proof.Machine
end

