-- ==== Sys2Proof/Machine/Counters.lean ====
section
/-!
DEFINITION. Sys2Proof/Machine/Counters.lean: the counter space (R745 to R747, Tables 23-5 and 23-6). A counter is named
by its scope and its number c in the scope's order (R746); the word index of an instance counts 8-byte words from
0x8000_0000.
-/
namespace Sys2Proof.Machine

/-- Instances of a counter scope (Table 23-5). -/
def ctrInstances (scope : Nat) : Nat :=
  match scope with
  | 0 => 1
  | 1 => 64
  | 2 => 16384
  | 3 => 262144
  | 4 => 288
  | 5 => 2304
  | 6 => 128
  | 7 => 144
  | 8 => 32
  | 9 => 256
  | 10 => 64
  | 11 => 4096
  | 12 => 4096
  | 13 => 1024
  | 14 => 1152
  | 15 => 2
  | 16 => 40
  | 17 => 3
  | 18 => 2
  | 19 => 64
  | 20 => 16
  | 21 => 3
  | 22 => 4
  | 23 => 301
  | _ => 0

/-- Counters of a scope (R746). -/
def ctrCount (scope : Nat) : Nat :=
  match scope with
  | 0 => 26
  | 1 => 56
  | 2 => 20
  | 3 => 6
  | 4 => 18
  | 5 => 1
  | 6 => 2
  | 7 => 2
  | 8 => 9
  | 9 => 1
  | 10 => 2
  | 11 => 1
  | 12 => 1
  | 13 => 1
  | 14 => 1
  | 15 => 1
  | 16 => 1
  | 17 => 3
  | 18 => 3
  | 19 => 1
  | 20 => 2
  | 21 => 1
  | 22 => 1
  | 23 => 2
  | _ => 0

/-- Words between instances of a scope: the smallest power of two not below its number of counters, at least 8
(R745). -/
def ctrStride (scope : Nat) : Nat :=
  let n := ctrCount scope
  if n ≤ 8 then 8 else if n ≤ 16 then 16 else if n ≤ 32 then 32 else 64

/-- Word index of counter `c` of instance `i` of a scope (R745). -/
def ctrKey (scope i c : Nat) : Nat := 2 ^ 22 * scope + ctrStride scope * i + c

/-- A counter: its scope and its number in it. -/
abbrev Ctr := Nat × Nat

/-- SAMPLE_SKIP, scope 0. -/
def ctrSampleSkip : Ctr := (0, 0)
/-- SEAL_DUP, scope 0. -/
def ctrSealDup : Ctr := (0, 1)
/-- PARITY_LATE, scope 0. -/
def ctrParityLate : Ctr := (0, 2)
/-- CMD_REJECT, scope 0. -/
def ctrCmdReject : Ctr := (0, 3)
/-- ROUTE_DROP, scope 0. -/
def ctrRouteDrop : Ctr := (0, 4)
/-- END_RESEND, scope 0. -/
def ctrEndResend : Ctr := (0, 5)
/-- REROUTE, scope 0. -/
def ctrReroute : Ctr := (0, 6)
/-- TRAP_LOST, scope 0. -/
def ctrTrapLost : Ctr := (0, 7)
/-- PARITY_BORROW, scope 0. -/
def ctrParityBorrow : Ctr := (0, 8)
/-- PARITY_DUP, scope 0. -/
def ctrParityDup : Ctr := (0, 9)
/-- PUSH_DISCARD, scope 0. -/
def ctrPushDiscard : Ctr := (0, 10)
/-- REBUILD_BYTES, scope 0. -/
def ctrRebuildBytes : Ctr := (0, 11)
/-- REPAIRS, scope 0. -/
def ctrRepairs : Ctr := (0, 12)
/-- TRAP_SUPPRESSED, scope 0. -/
def ctrTrapSuppressed : Ctr := (0, 13)
/-- POWER_ON_HOURS, scope 0. -/
def ctrPowerOnHours : Ctr := (0, 14)
/-- START_COUNT, scope 0. -/
def ctrStartCount : Ctr := (0, 15)
/-- START_FAILS, scope 0. -/
def ctrStartFails : Ctr := (0, 16)
/-- TAKEOVERS, scope 0. -/
def ctrTakeovers : Ctr := (0, 17)
/-- MIRROR_REPAIR, scope 0. -/
def ctrMirrorRepair : Ctr := (0, 18)
/-- REF_LOSS, scope 0. -/
def ctrRefLoss : Ctr := (0, 19)
/-- HOLDOVER_MS, scope 0. -/
def ctrHoldoverMs : Ctr := (0, 20)
/-- THERM_WARN, scope 0. -/
def ctrThermWarn : Ctr := (0, 21)
/-- INPUT_WARN, scope 0. -/
def ctrInputWarn : Ctr := (0, 22)
/-- SEG_ABANDON, scope 0. -/
def ctrSegAbandon : Ctr := (0, 23)
/-- TRAP_ACK_BAD, scope 0. -/
def ctrTrapAckBad : Ctr := (0, 24)
/-- TRAP_AGED, scope 0. -/
def ctrTrapAged : Ctr := (0, 25)
/-- NO_ACCUM_SEAM, scope 1. -/
def ctrNoAccumSeam : Ctr := (1, 0)
/-- NO_ACCUM_QUOTA, scope 1. -/
def ctrNoAccumQuota : Ctr := (1, 1)
/-- BLOCKED_US, scope 1. -/
def ctrBlockedUs : Ctr := (1, 2)
/-- OVF_PEAK, scope 1. -/
def ctrOvfPeak : Ctr := (1, 3)
/-- UPD_SLABS, scope 1. -/
def ctrUpdSlabs : Ctr := (1, 4)
/-- UPD_FRESH, scope 1. -/
def ctrUpdFresh : Ctr := (1, 5)
/-- UPD_NF, scope 1. -/
def ctrUpdNf : Ctr := (1, 6)
/-- MODE_FORCED, scope 1. -/
def ctrModeForced : Ctr := (1, 7)
/-- NORM_WAIT_US, scope 1. -/
def ctrNormWaitUs : Ctr := (1, 8)
/-- RULE_REJECT, scope 1. -/
def ctrRuleReject : Ctr := (1, 9)
/-- SCHED_EARLY, scope 1. -/
def ctrSchedEarly : Ctr := (1, 10)
/-- SCHED_REJECT, scope 1. -/
def ctrSchedReject : Ctr := (1, 11)
/-- SCHED_STEPS, scope 1. -/
def ctrSchedSteps : Ctr := (1, 12)
/-- NO_MEM_DIE, scope 1. -/
def ctrNoMemDie : Ctr := (1, 13)
/-- NO_MEM_PARITY, scope 1. -/
def ctrNoMemParity : Ctr := (1, 14)
/-- NO_MEM_QUOTA, scope 1. -/
def ctrNoMemQuota : Ctr := (1, 15)
/-- ABORT_CLEAR, scope 1. -/
def ctrAbortClear : Ctr := (1, 16)
/-- DAMAGED_SLABS, scope 1. -/
def ctrDamagedSlabs : Ctr := (1, 17)
/-- HAUL_DUP, scope 1. -/
def ctrHaulDup : Ctr := (1, 18)
/-- HAUL_RESEND, scope 1. -/
def ctrHaulResend : Ctr := (1, 19)
/-- HOIST_MERGED, scope 1. -/
def ctrHoistMerged : Ctr := (1, 20)
/-- HOIST_NOMERGE, scope 1. -/
def ctrHoistNomerge : Ctr := (1, 21)
/-- HOIST_DAMAGED, scope 1. -/
def ctrHoistDamaged : Ctr := (1, 22)
/-- HOIST_OFFLINE, scope 1. -/
def ctrHoistOffline : Ctr := (1, 23)
/-- SEALS, scope 1. -/
def ctrSeals : Ctr := (1, 24)
/-- ABORTS, scope 1. -/
def ctrAborts : Ctr := (1, 25)
/-- SEAL_WAIT_US, scope 1. -/
def ctrSealWaitUs : Ctr := (1, 26)
/-- READ_HELD, scope 1. -/
def ctrReadHeld : Ctr := (1, 27)
/-- LATE_MARK, scope 1. -/
def ctrLateMark : Ctr := (1, 28)
/-- POISON_LATE, scope 1. -/
def ctrPoisonLate : Ctr := (1, 29)
/-- POISON_STALE, scope 1. -/
def ctrPoisonStale : Ctr := (1, 30)
/-- CLOSED_SPOIL, scope 1. -/
def ctrClosedSpoil : Ctr := (1, 31)
/-- STALE_SPOIL, scope 1. -/
def ctrStaleSpoil : Ctr := (1, 32)
/-- RANK_SPOIL, scope 1. -/
def ctrRankSpoil : Ctr := (1, 33)
/-- CTX_OPENS, scope 1. -/
def ctrCtxOpens : Ctr := (1, 34)
/-- EPOCH_REJECT, scope 1. -/
def ctrEpochReject : Ctr := (1, 35)
/-- CMD_REJECT, scope 1. -/
def ctrCmdRejectJob : Ctr := (1, 36)
/-- GRAPHS_RELEASED, scope 1. -/
def ctrGraphsReleased : Ctr := (1, 37)
/-- NODES_DONE, scope 1. -/
def ctrNodesDone : Ctr := (1, 38)
/-- NODE_FAIL, scope 1. -/
def ctrNodeFail : Ctr := (1, 39)
/-- NODE_SKIP, scope 1. -/
def ctrNodeSkip : Ctr := (1, 40)
/-- SYNC_OPS, scope 1. -/
def ctrSyncOps : Ctr := (1, 41)
/-- SYNC_WAIT_US, scope 1. -/
def ctrSyncWaitUs : Ctr := (1, 42)
/-- PAIR_SPILL, scope 1. -/
def ctrPairSpill : Ctr := (1, 43)
/-- UNPROT_ROWS, scope 1. -/
def ctrUnprotRows : Ctr := (1, 44)
/-- UNPROT_PIECES, scope 1. -/
def ctrUnprotPieces : Ctr := (1, 45)
/-- WITHDRAWN_SPOIL, scope 1. -/
def ctrWithdrawnSpoil : Ctr := (1, 46)
/-- SNAP_SKIP, scope 1. -/
def ctrSnapSkip : Ctr := (1, 47)
/-- SNAP_BYTES, scope 1. -/
def ctrSnapBytes : Ctr := (1, 48)
/-- REC_BYTES, scope 1. -/
def ctrRecBytes : Ctr := (1, 49)
/-- REC_DROP, scope 1. -/
def ctrRecDrop : Ctr := (1, 50)
/-- REC_HOLD_US, scope 1. -/
def ctrRecHoldUs : Ctr := (1, 51)
/-- REPLAY_SPOIL, scope 1. -/
def ctrReplaySpoil : Ctr := (1, 52)
/-- REPLAY_SKIP, scope 1. -/
def ctrReplaySkip : Ctr := (1, 53)
/-- REPLAY_DIFF, scope 1. -/
def ctrReplayDiff : Ctr := (1, 54)
/-- REF_SLABS, scope 1. -/
def ctrRefSlabs : Ctr := (1, 55)
/-- BAK_FILL, scope 2. -/
def ctrBakFill : Ctr := (2, 0)
/-- DUP_EQUAL, scope 2. -/
def ctrDupEqual : Ctr := (2, 1)
/-- DUP_MISMATCH, scope 2. -/
def ctrDupMismatch : Ctr := (2, 2)
/-- DUP_UNCHECKED, scope 2. -/
def ctrDupUnchecked : Ctr := (2, 3)
/-- PASS_AHEAD, scope 2. -/
def ctrPassAhead : Ctr := (2, 4)
/-- PARTIAL_DUP, scope 2. -/
def ctrPartialDup : Ctr := (2, 5)
/-- MAP_MISMATCH, scope 2. -/
def ctrMapMismatch : Ctr := (2, 6)
/-- SPILL_OUT, scope 2. -/
def ctrSpillOut : Ctr := (2, 7)
/-- SPILL_IN, scope 2. -/
def ctrSpillIn : Ctr := (2, 8)
/-- ACCUM_FULL, scope 2. -/
def ctrAccumFull : Ctr := (2, 9)
/-- LATE_SPOIL, scope 2. -/
def ctrLateSpoil : Ctr := (2, 10)
/-- ABORT_SPOIL, scope 2. -/
def ctrAbortSpoil : Ctr := (2, 11)
/-- COPIES_FILLED, scope 2. -/
def ctrCopiesFilled : Ctr := (2, 12)
/-- PARTIALS_IN, scope 2. -/
def ctrPartialsIn : Ctr := (2, 13)
/-- NONFINITE_IN, scope 2. -/
def ctrNonfiniteIn : Ctr := (2, 14)
/-- SHAPE_SPOIL, scope 2. -/
def ctrShapeSpoil : Ctr := (2, 15)
/-- PKT_REPEAT, scope 2. -/
def ctrPktRepeat : Ctr := (2, 16)
/-- SLOT_REPEAT, scope 2. -/
def ctrSlotRepeat : Ctr := (2, 17)
/-- PARTIAL_STALE, scope 2. -/
def ctrPartialStale : Ctr := (2, 18)
/-- FILL_UNVERIFIED, scope 2. -/
def ctrFillUnverified : Ctr := (2, 19)
/-- HAUL_SLABS, scope 3. -/
def ctrHaulSlabs : Ctr := (3, 0)
/-- HAUL_DROP, scope 3. -/
def ctrHaulDrop : Ctr := (3, 1)
/-- HOIST_REQ, scope 3. -/
def ctrHoistReq : Ctr := (3, 2)
/-- HOIST_REFUSED, scope 3. -/
def ctrHoistRefused : Ctr := (3, 3)
/-- HOIST_SLABS, scope 3. -/
def ctrHoistSlabs : Ctr := (3, 4)
/-- HOIST_LINK_LOST, scope 3. -/
def ctrHoistLinkLost : Ctr := (3, 5)
/-- FLITS_TX, scope 4. -/
def ctrFlitsTx : Ctr := (4, 0)
/-- FLITS_RX, scope 4. -/
def ctrFlitsRx : Ctr := (4, 1)
/-- CRC_ERR, scope 4. -/
def ctrCrcErr : Ctr := (4, 2)
/-- NAK_TX, scope 4. -/
def ctrNakTx : Ctr := (4, 3)
/-- REPLAYS, scope 4. -/
def ctrReplays : Ctr := (4, 4)
/-- FEC_CORR, scope 4. -/
def ctrFecCorr : Ctr := (4, 5)
/-- FEC_UNCORR, scope 4. -/
def ctrFecUncorr : Ctr := (4, 6)
/-- RETRAINS, scope 4. -/
def ctrRetrains : Ctr := (4, 7)
/-- LINK_DOWN, scope 4. -/
def ctrLinkDown : Ctr := (4, 8)
/-- TRAIN_FAIL_NO_FLIT, scope 4. -/
def ctrTrainFailNoFlit : Ctr := (4, 9)
/-- TRAIN_FAIL_CREDIT_LOW, scope 4. -/
def ctrTrainFailCreditLow : Ctr := (4, 10)
/-- TRAIN_FAIL_TIMEOUT, scope 4. -/
def ctrTrainFailTimeout : Ctr := (4, 11)
/-- CREDIT_VIOL, scope 4. -/
def ctrCreditViol : Ctr := (4, 12)
/-- MALFORMED, scope 4. -/
def ctrMalformed : Ctr := (4, 13)
/-- FRAMING_ERR, scope 4. -/
def ctrFramingErr : Ctr := (4, 14)
/-- CABLE_SPOIL, scope 4. -/
def ctrCableSpoil : Ctr := (4, 15)
/-- LASER_BIAS, scope 4. -/
def ctrLaserBias : Ctr := (4, 16)
/-- CONV_SAT, scope 4. -/
def ctrConvSat : Ctr := (4, 17)
/-- CREDIT_STALL_US, scope 5. -/
def ctrCreditStallUs : Ctr := (5, 0)
/-- SAMPLED, scope 6. -/
def ctrSampled : Ctr := (6, 0)
/-- CONV_SAT, scope 6. -/
def ctrConvSatSeamPos : Ctr := (6, 1)
/-- RESIDUE_ERR, scope 7. -/
def ctrResidueErr : Ctr := (7, 0)
/-- SAMPLE_ERR, scope 7. -/
def ctrSampleErr : Ctr := (7, 1)
/-- OUTER_CORR, scope 8. -/
def ctrOuterCorr : Ctr := (8, 0)
/-- STRIPE_RMW, scope 8. -/
def ctrStripeRmw : Ctr := (8, 1)
/-- PF_HIT, scope 8. -/
def ctrPfHit : Ctr := (8, 2)
/-- PF_MISS, scope 8. -/
def ctrPfMiss : Ctr := (8, 3)
/-- MEM_UE, scope 8. -/
def ctrMemUe : Ctr := (8, 4)
/-- SRAM_CE, scope 8. -/
def ctrSramCe : Ctr := (8, 5)
/-- SRAM_UE, scope 8. -/
def ctrSramUe : Ctr := (8, 6)
/-- ROWS_REPLACED, scope 8. -/
def ctrRowsReplaced : Ctr := (8, 7)
/-- SLICE_SWAPS, scope 8. -/
def ctrSliceSwaps : Ctr := (8, 8)
/-- INNER_CE, scope 9. -/
def ctrInnerCe : Ctr := (9, 0)
/-- POOL_EMPTY, scope 10. -/
def ctrPoolEmpty : Ctr := (10, 0)
/-- REF_SAT, scope 10. -/
def ctrRefSat : Ctr := (10, 1)
/-- PRIV_DENY, scope 11. -/
def ctrPrivDeny : Ctr := (11, 0)
/-- JOB_CAP_HIT, scope 12. -/
def ctrJobCapHit : Ctr := (12, 0)
/-- QUOTA_HIT, scope 13. -/
def ctrQuotaHit : Ctr := (13, 0)
/-- POLICE_HOLD_US, scope 14. -/
def ctrPoliceHoldUs : Ctr := (14, 0)
/-- FLASH_WRITES, scope 15. -/
def ctrFlashWrites : Ctr := (15, 0)
/-- LOCK_LOSS, scope 16. -/
def ctrLockLoss : Ctr := (16, 0)
/-- CMD_DROP, scope 17. -/
def ctrCmdDrop : Ctr := (17, 0)
/-- CMD_NO_PRINCIPAL, scope 17. -/
def ctrCmdNoPrincipal : Ctr := (17, 1)
/-- MGMT_FRAME_DROP, scope 17. -/
def ctrMgmtFrameDrop : Ctr := (17, 2)
/-- CMD_RX, scope 18. -/
def ctrCmdRx : Ctr := (18, 0)
/-- CMD_RETX, scope 18. -/
def ctrCmdRetx : Ctr := (18, 1)
/-- SESSION_EVICT, scope 18. -/
def ctrSessionEvict : Ctr := (18, 2)
/-- AUTH_FAIL, scope 19. -/
def ctrAuthFail : Ctr := (19, 0)
/-- BYPASS_RELEASES, scope 20. -/
def ctrBypassReleases : Ctr := (20, 0)
/-- BYPASS_REVERTS, scope 20. -/
def ctrBypassReverts : Ctr := (20, 1)
/-- RING_STATE_RX, scope 21. -/
def ctrRingStateRx : Ctr := (21, 0)
/-- TELEM_SKIP, scope 22. -/
def ctrTelemSkip : Ctr := (22, 0)
/-- LINK_RETRY, scope 23. -/
def ctrLinkRetry : Ctr := (23, 0)
/-- LINK_GROUP_RET, scope 23. -/
def ctrLinkGroupRet : Ctr := (23, 1)

/-- Read a counter word by its index. -/
def ctrWord (d : Dev) (key : Nat) : W64 := SMap.getD d.counters key 0

/-- Write a counter word; a zero is not listed. -/
def setCtrWord (d : Dev) (key : Nat) (v : W64) : Dev :=
  { d with counters := if v = 0 then SMap.del d.counters key else SMap.set d.counters key v }

/-- Read counter `c` of instance `i`. -/
def getCtr (d : Dev) (c : Ctr) (i : Nat) : W64 := ctrWord d (ctrKey c.1 i c.2)

/-- Add `n` to counter `c` of instance `i`, modulo 2^64 (R747). -/
def bumpBy (d : Dev) (c : Ctr) (i n : Nat) : Dev :=
  setCtrWord d (ctrKey c.1 i c.2) (getCtr d c i + BitVec.ofNat 64 n)

/-- Add one to counter `c` of instance `i`. -/
def bump (d : Dev) (c : Ctr) (i : Nat) : Dev := bumpBy d c i 1

/-- Set a level (OVF_PEAK, LASER_BIAS) or a retained counter. -/
def setCtr (d : Dev) (c : Ctr) (i : Nat) (v : W64) : Dev := setCtrWord d (ctrKey c.1 i c.2) v

/-- Clear every counter of instance `i` of a scope. -/
def clearCtrs (d : Dev) (scope i : Nat) : Dev :=
  let lo := ctrKey scope i 0
  { d with counters := SMap.keep (fun k _ => !(decide (lo ≤ k) && decide (k < lo + ctrStride scope))) d.counters }

end Sys2Proof.Machine
end

