-- ==== Sys2Proof/Machine/Ops.lean ====
section
/-!
DEFINITION. Sys2Proof/Machine/Ops.lean: the named operations every meaning shares: reading and writing the module's
tables, buffer pools (chapter 17), trap records (R749, R750), retained-flash writes (R689) and free values.
-/
namespace Sys2Proof.Machine

/-! ## Outcomes -/

/-- The state with another device. -/
def State.withDev (s : State) (d : Dev) : State := { s with dev := d }

/-- A meaning that always goes on: apply `f` to the device. -/
def onDev (s : State) (f : Dev → Dev) : Host.Outcome State Fault Refusal := .next (s.withDev (f s.dev))

/-- A meaning whose operands must name existing units. -/
def onUnit (ok : Bool) (s : State) (f : Dev → Dev) : Host.Outcome State Fault Refusal :=
  if ok then onDev s f else .fault .noSuchUnit

/-! ## Tables -/

/-- A port position; one not listed has role off and is DOWN (R431, R519). -/
def getPort (d : Dev) (p : Nat) : Port := SMap.getD d.ports p {}
/-- Write a port. -/
def setPort (d : Dev) (p : Nat) (x : Port) : Dev := { d with ports := SMap.set d.ports p x }
/-- Change a port. -/
def updPort (d : Dev) (p : Nat) (f : Port → Port) : Dev := setPort d p (f (getPort d p))
/-- A job, if it exists. -/
def getJob (d : Dev) (j : Nat) : Option Job := SMap.get? d.jobs j
/-- Write a job. -/
def setJob (d : Dev) (j : Nat) (x : Job) : Dev := { d with jobs := SMap.set d.jobs j x }
/-- Change a job that exists. -/
def updJob (d : Dev) (j : Nat) (f : Job → Job) : Dev := { d with jobs := SMap.upd d.jobs j f }
/-- A context; one not listed is FREE with LAST_KNOWN = 0 (R389). -/
def getCtx (d : Dev) (c : Nat) : Ctx := SMap.getD (if c < 16384 then d.ctxs else d.left) c {}
/-- Write a context. -/
def setCtx (d : Dev) (c : Nat) (x : Ctx) : Dev :=
  if c < 16384 then { d with ctxs := SMap.set d.ctxs c x } else { d with left := SMap.set d.left c x }
/-- Name of one use of a context: its number and epoch. -/
def ctxKey (c epoch : Nat) : Nat := 16384 * (epoch + 1) + c
/-- Context number of a context or of a use of one. -/
def ctxNum (h : Nat) : Nat := h % 16384
/-- The record of a use: the one left behind, or the context while it still has that epoch. -/
def ctxOfKey (d : Dev) (key : Nat) : Option Nat :=
  if SMap.has d.left key then some key
  else if 16384 ≤ key && (getCtx d (key % 16384)).epoch + 1 == key / 16384 then some (key % 16384) else none
/-- Change a context. -/
def updCtx (d : Dev) (c : Nat) (f : Ctx → Ctx) : Dev := setCtx d c (f (getCtx d c))
/-- Change the management side. -/
def updMgmt (d : Dev) (f : Mgmt → Mgmt) : Dev := { d with mgmt := f d.mgmt }
/-- Something leaves the module. -/
def output (d : Dev) (o : Out) : Dev := { d with mgmt := { d.mgmt with out := d.mgmt.out ++ [o] } }

/-- Apply `f` for each number of a list, in order. -/
def forEach {α : Type} : List α → Dev → (Dev → α → Dev) → Dev
  | [], d, _ => d
  | a :: r, d, f => forEach r (f d a) f

/-- Draw a free value. -/
def drawFree (d : Dev) : W64 × Dev := (Config.freeWord d.freeCtr, { d with freeCtr := d.freeCtr + 1 })

/-- Microseconds since the start-up origin (R692): TIME_US. -/
def timeUs (d : Dev) : Nat := d.nowUs - d.start.origin

/-- A request is refused at a quota of Table 17-5 (rows 0 to 7) or a limit of Table 17-6 (rows 8 to 11). -/
def quotaHit (d : Dev) (j row : Nat) : Dev := bump d ctrQuotaHit (16 * j + row)

/-! ## Buffer pools (chapter 17) -/

/-- Buffers of a pool (Table 17-1). -/
def poolCount (p : Nat) : Nat :=
  match p with
  | 0 | 1 | 3 => 1024
  | 2 => 131072
  | 4 => 2048
  | 5 => 256
  | 6 => 4096
  | 60 | 61 | 62 => 256
  | 63 => 1024
  | _ => 0

/-- Buffer size of a pool as a power of two (Table 17-1). -/
def poolLog2 (p : Nat) : Nat :=
  match p with
  | 0 | 1 | 3 | 4 | 5 => 11
  | 2 => 7
  | 6 | 63 => 8
  | 60 | 61 | 62 => 12
  | _ => 0

/-- JOB_CAP of a pool (Table 17-1). -/
def poolJobCap (p : Nat) : Option Nat :=
  match p with
  | 3 => some 128
  | 4 => some 1024
  | 6 => some 256
  | _ => none

/-- Is the pool privileged (R600)? -/
def poolPriv (p : Nat) : Bool := decide (60 ≤ p) && decide (p ≤ 63)

/-- The quota of a requester in a privileged pool (Table 17-3); 0 = none. -/
def poolQuota (p req : Nat) : Nat :=
  match p with
  | 60 => if req = 9 then 128 else if req ≤ 1 then 32 else if req = 11 then 28
          else if 16 ≤ req && req ≤ 33 then 2 else 0
  | 61 => if req = 10 then 64 else if 34 ≤ req && req ≤ 37 then 24 else if req = 3 then 32 else if req ≤ 1 then 32 else 0
  | 62 => if req ≤ 1 then 32 else if 38 ≤ req && req ≤ 46 then 16 else if 34 ≤ req && req ≤ 37 then 12 else 0
  | 63 => if req = 6 then 768 else if req ≤ 1 then 64 else if req = 10 then 128 else 0
  | _ => 0

/-- The handle of a buffer (R594). -/
def poolHandle (p i : Nat) : Nat := 2 ^ 18 * p + i

/-- Allocated buffers of a pool that satisfy `q`. -/
def poolHeld (d : Dev) (p : Nat) (q : Buf → Bool) : Nat :=
  (d.pools.bufs.filter fun e => decide (e.1 / 2 ^ 18 = p) && q e.2).length

/-- Free buffers of a pool. -/
def poolFree (d : Dev) (p : Nat) : Nat := poolCount p - poolHeld d p fun _ => true

/-- The free stack of a privileged pool; at start-up buffer 0 is on top (log 6). -/
def poolStack (d : Dev) (p : Nat) : List Nat := SMap.getD d.pools.frees p (List.range (poolCount p))

/-- Is the pool open (R600, Table 17-4)? -/
def poolOpen (d : Dev) (p : Nat) : Bool :=
  if poolPriv p then d.pools.opened.contains p else decide (0 < poolCount p)

/-- Record an allocation and the low-water mark. -/
def poolTake (d : Dev) (p i req : Nat) (job : Option Nat) : Dev :=
  let d1 := { d with pools := { d.pools with bufs := SMap.set d.pools.bufs (poolHandle p i) { refs := 1, req := req, job := job } } }
  let f := poolFree d1 p
  if f < SMap.getD d1.pools.low p (poolCount p) then
    { d1 with pools := { d1.pools with low := SMap.set d1.pools.low p f } }
  else d1

/-- ALLOC without its traps (R595, R596, R601): the handle, or none when it fails at once. -/
def poolAlloc (d : Dev) (p req : Nat) (job : Option Nat) : Dev × Option Nat :=
  if poolPriv p then
    if poolOpen d p && decide (poolHeld d p (fun b => b.req == req) < poolQuota p req) then
      match poolStack d p with
      | i :: r =>
        let d1 := { d with pools := { d.pools with frees := SMap.set d.pools.frees p r } }
        (poolTake d1 p i req none, some (poolHandle p i))
      | [] => (bump d ctrPoolEmpty p, none)
    else (bump (bump d ctrPoolEmpty p) ctrPrivDeny (64 * p + req), none)
  else
    match job, poolJobCap p with
    | some j, some cap =>
      if cap ≤ poolHeld d p (fun b => b.job == some j) then
        (quotaHit (bump (bump d ctrPoolEmpty p) ctrJobCapHit (64 * j + p)) j 11, none)
      else
        match SMap.firstFree d.pools.bufs (poolHandle p 0) (poolCount p) with
        | some h => (poolTake d p (h % 2 ^ 18) req job, some h)
        | none => (bump d ctrPoolEmpty p, none)
    | _, _ =>
      match SMap.firstFree d.pools.bufs (poolHandle p 0) (poolCount p) with
      | some h => (poolTake d p (h % 2 ^ 18) req job, some h)
      | none => (bump d ctrPoolEmpty p, none)

/-- Free a buffer: a privileged pool's buffer is pushed onto its stack (R595). -/
def poolFreeBuf (d : Dev) (h : Nat) : Dev :=
  let p := h / 2 ^ 18
  let d1 := { d with pools := { d.pools with bufs := SMap.del d.pools.bufs h } }
  if poolPriv p then
    { d1 with pools := { d1.pools with frees := SMap.set d1.pools.frees p (h % 2 ^ 18 :: poolStack d p) } }
  else d1

/-- RELEASE of an allocated buffer: at count 0 it is free (R594). -/
def poolRelease (d : Dev) (h : Nat) : Dev :=
  match SMap.get? d.pools.bufs h with
  | none => d
  | some b =>
    if b.refs ≤ 1 then poolFreeBuf d h
    else { d with pools := { d.pools with bufs := SMap.set d.pools.bufs h { b with refs := b.refs - 1 } } }

/-- RELEASE of an optional buffer. -/
def poolReleaseOpt (d : Dev) (h : Option Nat) : Dev :=
  match h with
  | some x => poolRelease d x
  | none => d

/-- Allocate `n` buffers for one request, all or none (R593): the caller keeps the old state when it fails. -/
def poolAllocN (req p : Nat) (job : Option Nat) : Nat → Dev → List Nat → Dev × Option (List Nat)
  | 0, d, acc => (d, some acc)
  | n + 1, d, acc =>
    match poolAlloc d p req job with
    | (d1, some h) => poolAllocN req p job n d1 (acc ++ [h])
    | (d1, none) => (d1, none)

/-! ## Traps (R749, R750) -/

/-- What a trap names. -/
structure TrapInfo where
  cause   : Nat
  /-- Job, step, attempt. -/
  job     : Option (Nat × Nat × Nat) := none
  /-- Context, epoch, slab, element, pass, rank. -/
  ctx     : Option (Nat × Nat × Nat × Nat × Nat × Nat) := none
  /-- CTXV = 1 when a context is named (R104, R353 name one of all ones with CTXV = 0). -/
  ctxv    : Bool := true
  kind    : Nat := 0
  unit    : Nat := 0
  details : List W64 := []

/-- STEP_CUR as it is seen: 48 bits, which do not wrap after step 2^48 − 1 has sealed (R243; log 73). -/
def stepShown (jb : Job) : Nat := min jb.stepCur (2 ^ 48 - 1)

/-- The eight words of a trap record (Table 23-8). -/
def trapWords (t : TrapInfo) (tseq time : Nat) : List W64 :=
  let (j, s, a) := t.job.getD (0, 0, 0)
  let (c, e, sl, el, pa, ra) := t.ctx.getD (0, 0, 0, 0, 0, 0)
  [ mkWord [(tseq, 32), (t.cause, 24), (j, 18), (bit t.job.isSome, 17), (bit (t.ctx.isSome && t.ctxv), 16)]
  , BitVec.ofNat 64 time
  , mkWord [(a, 56), (s % 2 ^ 48, 0)]
  , mkWord [(e, 48), (c, 32), (sl, 16), (el, 0)]
  , mkWord [(pa, 56), (ra, 40), (t.kind, 32), (t.unit, 0)]
  , wordAt t.details 0, wordAt t.details 1, wordAt t.details 2 ]

/-- The IPv4-mapped address ::ffff:a.b.c.d of an IPv4 address, bytes in wire order from bit 0 (Table 12-3). -/
def mapV4 (a : W32) : BitVec 128 := BitVec.ofNat 128 (0xFFFF * 2 ^ 80 + 2 ^ 96 * a.toNat)
/-- Is an address IPv4-mapped? -/
def isMapped (a : BitVec 128) : Bool := decide (a.toNat % 2 ^ 96 = 0xFFFF * 2 ^ 80)

/-- The telemetry header of Table 23-10. -/
def telemHeader (f : Factory) (stream sink seq time off total : Nat) : List W64 :=
  [ mkWord [(1, 56), (stream, 48), (sink, 32), (seq, 0)], BitVec.ofNat 64 time, mkWord [(off, 32), (total, 0)], f.serial ]

/-- Send one telemetry datagram, or skip it (R752): it needs the management port up and a pool-5 buffer, which it holds
only while it is sent. -/
def telemSend (d : Dev) (sink : Nat) (k : Sink) (words : List W64) : Dev :=
  if !d.mgmt.linkUp.contains k.mport then bump d ctrTelemSkip sink
  else
    match poolAlloc d 5 (7 + k.mport) none with
    | (d1, some h) => poolRelease (output d1 (.telemetry k.mport k.addr k.udp words)) h
    | (d1, none) => bump d1 ctrTelemSkip sink

/-- Send a trap record on the TRAPS stream of every sink that asks for it (Table 23-9). -/
def telemTrap (d : Dev) (tseq : Nat) (words : List W64) : Dev :=
  forEach d.mgmt.sinks d fun d' e =>
    if e.2.mask % 2 = 1 then telemSend d' e.1 e.2 (telemHeader d.fac 0 e.1 tseq (timeUs d) 0 64 ++ words) else d'

/-- Put a trap record in TRAP_WIN under a new TSEQ. -/
def recordTrap (d : Dev) (t : TrapInfo) (h : Nat) : Dev :=
  let q := d.mgmt.nextTseq
  let r : TrapRec := { words := trapWords t q (timeUs d), at_ := d.nowUs, handle := h }
  updMgmt d fun m => { m with traps := SMap.set m.traps (q % 8192) r, nextTseq := (q + 1) % 2 ^ 32 }

/-- The trap unit records a trap (R749): a buffer of pool 6, else of pool 63, else the trap is lost (R601). -/
def raiseTrap (d : Dev) (t : TrapInfo) : Dev :=
  let send (d' : Dev) (h : Nat) : Dev :=
    let d2 := recordTrap d' t h
    telemTrap d2 d.mgmt.nextTseq (trapWords t d.mgmt.nextTseq (timeUs d))
  match poolAlloc d 6 6 (t.job.map (·.1)) with
  | (d1, some h) => send d1 h
  | (d1, none) =>
    match poolAlloc d1 63 6 none with
    | (d2, some h) => send d2 h
    | (d2, none) => bump d2 ctrTrapLost 0

/-- ALLOC as the requesters see it: a privileged failure raises PRIV_EMPTY (R601), which names pool and requester; but a failure
of the trap unit in pool 63 loses a trap. -/
def allocOp (d : Dev) (p req : Nat) (job : Option Nat) : Dev × Option Nat :=
  match poolAlloc d p req job with
  | (d1, some h) => (d1, some h)
  | (d1, none) =>
    if p == 63 && req == 6 then (bump d1 ctrTrapLost 0, none)
    else if poolPriv p then (raiseTrap d1 { cause := 0xA1, kind := 9, unit := p, details := [BitVec.ofNat 64 req] }, none)
    else (d1, none)

/-- Return every buffer still held of a privileged pool whose phase ends, with one POOL_FAULT trap (R602), and close
it. -/
def closePool (d : Dev) (p : Nat) : Dev :=
  let hs := (d.pools.bufs.filter fun e => decide (e.1 / 2 ^ 18 = p)).map (·.1)
  let d1 := forEach hs d poolFreeBuf
  let d2 := { d1 with pools := { d1.pools with opened := delNat p d1.pools.opened } }
  if hs.isEmpty then d2 else raiseTrap d2 { cause := 0xA0, kind := 9, unit := p }

/-- Open a privileged pool (R600). -/
def openPool (d : Dev) (p : Nat) : Dev :=
  { d with pools := { d.pools with opened := insNat p d.pools.opened } }

/-! ## Retained flash (R687 to R690) -/

/-- The nonzero words of a record body. -/
def sparseWords : Nat → List W64 → SMap W64
  | _, [] => []
  | i, w :: r => if w = 0 then sparseWords (i + 1) r else (i, w) :: sparseWords (i + 1) r

/-- The words of a sparse body. -/
def denseWords (m : SMap W64) (n : Nat) : List W64 := (List.range n).map fun i => SMap.getD m i 0

/-- Bytes of a log sector, and of a record log (R687). -/
def sectorBytes : Nat := 65536
/-- Bytes of a record log: 60 MiB. -/
def logBytes : Nat := 960 * sectorBytes
/-- Fields of a copy's header (Table 21-1). -/
def RecCopy.rid (c : RecCopy) : Nat := field (wordAt c.head 0) 7 0
def RecCopy.seq (c : RecCopy) : Nat := field (wordAt c.head 1) 63 32
def RecCopy.len (c : RecCopy) : Nat := field (wordAt c.head 1) 31 0

/-- Bytes of a copy: header and body. -/
def RecCopy.size (c : RecCopy) : Nat := 32 + c.len

/-- The first three header words of a copy. -/
def copyHead (rid seq len : Nat) : List W64 := [mkWord [(0x52454331, 32), (rid, 0)], mkWord [(seq, 32), (len, 0)], 0]

/-- The CRC of a copy: over header and body, computed with CRC = 0. -/
def copyCrc (hd : List W64) (body : SMap W64) (len : Nat) : W32 := crcWords (hd ++ [0] ++ denseWords body (len / 8))

/-- A whole copy of a record. -/
def mkCopy (rid seq len : Nat) (body : SMap W64) : RecCopy :=
  let hd := copyHead rid seq len
  { head := hd ++ [mkWord [((copyCrc hd body len).toNat, 0)]], body := body }

/-- Is a copy valid: its MAGIC, RSVD fields, LEN and CRC (R695)? -/
def RecCopy.valid (c : RecCopy) : Bool :=
  let h (i : Nat) : W64 := wordAt c.head i
  field (h 0) 63 32 == 0x52454331 && field (h 0) 31 8 == 0 && h 2 == 0 && field (h 3) 63 32 == 0 && c.len % 8 == 0 &&
  decide (c.len ≤ 262144) && field (h 3) 31 0 == (copyCrc (c.head.take 3) c.body c.len).toNat

/-- The later of two copies by SEQ; of two equal ones the later in the log. -/
def laterCopy (o : Option RecCopy) (c : RecCopy) : Option RecCopy :=
  match o with
  | some x => if x.seq ≤ c.seq then some c else some x
  | none => some c

/-- The newest valid copy of a record in a log. -/
def FlashDev.newest (v : FlashDev) (rid : Nat) : Option RecCopy :=
  (v.copies.filter fun c => c.rid == rid && c.valid).foldl laterCopy none

/-- The highest SEQ of a record in a log, in a valid copy or not; 0 = none. -/
def FlashDev.highest (v : FlashDev) (rid : Nat) : Nat := (v.copies.filter fun c => c.rid == rid).foldl (fun n c => max n c.seq) 0

/-- A copy is written at the write position. -/
def FlashDev.place (v : FlashDev) (c : RecCopy) : FlashDev :=
  { v with copies := v.copies ++ [{ c with at_ := v.pos }], pos := v.pos + c.size }

/-- The next sector in rotation is erased, after the newest valid copies with bytes in it have been copied forward (R690): the device,
and how many were moved. -/
def FlashDev.eraseSector (v : FlashDev) : FlashDev × Nat :=
  let s := v.free - logBytes
  let inside (c : RecCopy) : Bool := decide (c.at_ < s + sectorBytes) && decide (s < c.at_ + c.size)
  let keep := v.copies.filter fun c => inside c && v.newest c.rid == some c
  let v1 := keep.foldl FlashDev.place v
  ({ v1 with copies := v1.copies.filter (fun c => !inside c), free := v1.free + sectorBytes }, keep.length)

/-- Erase until 32 sectors are free for the next writes (DESIGN CHOICE, log 27); `fuel` sectors. -/
def FlashDev.eraseAhead : Nat → FlashDev → FlashDev × Nat
  | 0, v => (v, 0)
  | fuel + 1, v =>
    if v.free - v.pos < 32 * sectorBytes then
      let (v1, n) := v.eraseSector
      let (v2, m) := eraseAhead fuel v1
      (v2, n + m)
    else (v, 0)

/-- `k` writes of `n` bytes fail their read-back: each next attempt begins in the next sector (R689). -/
def FlashDev.skip (n : Nat) : Nat → FlashDev → FlashDev
  | 0, v => v
  | k + 1, v => FlashDev.skip n k { v with pos := ((v.pos + n - 1) / sectorBytes + 1) * sectorBytes }

/-- Read a mirror: 0 A, 1 B. -/
def Flash.dev (f : Flash) (m : Nat) : FlashDev := if m = 0 then f.a else f.b
/-- Write a mirror. -/
def Flash.setDev (f : Flash) (m : Nat) (v : FlashDev) : Flash := if m = 0 then { f with a := v } else { f with b := v }

/-- Append a record copy to the log of mirror `m`: it and the copies moved forward count in FLASH_WRITES (R690). -/
def appendCopy (d : Dev) (m : Nat) (c : RecCopy) : Dev :=
  let (v, n) := ((d.flash.dev m).place c).eraseAhead 64
  bumpBy { d with flash := d.flash.setDev m v } ctrFlashWrites m (n + 1)

/-- A write of a copy on mirror `m`, of which `fails` attempts fail (R689): after three the module raises FLASH_WRITE and goes on with
the other device alone. -/
def writeMirror (m fails : Nat) (d : Dev) (c : RecCopy) : Dev :=
  let v := d.flash.dev m
  if v.bad then d
  else
    let v1 := v.skip c.size (min fails 3)
    if 3 ≤ fails then raiseTrap { d with flash := d.flash.setDev m { v1 with bad := true } } { cause := 0xE3 }
    else appendCopy { d with flash := d.flash.setDev m v1 } m c

/-- Write a record copy to the mirrors that work, A before B, under a SEQ one above the highest found (R689). -/
def flashCommit (d : Dev) (w : FlashWrite) : Dev :=
  let q := max (d.flash.a.highest w.rid) (d.flash.b.highest w.rid) + 1
  let c := mkCopy w.rid q w.len w.body
  let (x, y) := d.flash.fails.headD (0, 0)
  let d1 := { d with flash := { d.flash with fails := d.flash.fails.drop 1 } }
  writeMirror 1 y (writeMirror 0 x d1 c) c

/-- Write a retained record: at once, or held while domain 39 is lost (R726). -/
def flashWrite (d : Dev) (rid len : Nat) (body : SMap W64) : Dev :=
  let w : FlashWrite := { rid := rid, len := len, body := body }
  if d.clocks.lost.contains 39 then
    let at_ := match d.flash.waitAt with | some t => some t | none => some d.nowUs
    { d with flash := { d.flash with waits := d.flash.waits ++ [w], waitAt := at_ } }
  else flashCommit d w

/-- The newest valid copy of a record: of the mirror with the higher SEQ. -/
def flashRead (d : Dev) (rid : Nat) : Option RecCopy :=
  match d.flash.a.newest rid, d.flash.b.newest rid with
  | some a, some b => some (if b.seq ≤ a.seq then a else b)
  | some a, none => some a
  | none, b => b

/-- The words of a copy as far as they were programmed when power failed: what follows reads all ones. A copy whose header was cut is
none (DESIGN CHOICE, log 27). -/
def RecCopy.cut (c : RecCopy) (n : Nat) : Option RecCopy :=
  if n < 4 then none
  else some { c with body := (SMap.keep (fun i _ => decide (i < n - 4)) c.body) ++
    ((List.range (c.len / 8)).drop (n - 4)).map fun i => (i, BitVec.ofNat 64 (2 ^ 64 - 1)) }

/-- Power fails while the module writes a record (R689, R690, R711): on A, or on B after A; or while it copies a record forward, whose
sector then stays unerased. -/
def tearWrite (d : Dev) (t : TornWrite) : Dev :=
  let m := if t.mirrorB then 1 else 0
  let put (d : Dev) (m : Nat) (c : Option RecCopy) : Dev :=
    match c with
    | some c => if (d.flash.dev m).bad then d else { d with flash := d.flash.setDev m ((d.flash.dev m).place c) }
    | none => d
  if d.clocks.lost.contains 39 then d
  else if t.forward then put d m (((d.flash.dev m).newest t.rid).bind (·.cut t.words))
  else
    let c := mkCopy t.rid (max (d.flash.a.highest t.rid) (d.flash.b.highest t.rid) + 1) (8 * t.body.length) (sparseWords 0 t.body)
    if t.mirrorB then put (put d 0 (some c)) 1 (c.cut t.words) else put d 0 (c.cut t.words)

end Sys2Proof.Machine
end

