-- ==== Sys2Proof/Machine/Link.lean ====
section
/-!
DEFINITION. Sys2Proof/Machine/Link.lean: the link layer of one port (chapter 15): states, flits, replay, credits, packet
streams and arbitration. What deliveries and losses mean for the traffic is in LinkTraffic.lean.
-/
namespace Sys2Proof.Machine

/-! ## Credits and streams -/

/-- Credits the module advertises on a VC (Table 15-6). -/
def advCredits (role vc : Nat) : Nat :=
  match role, vc with
  | 1, 0 => 64
  | 1, 1 => 1024
  | 1, 3 => 64
  | 1, 4 => 320
  | 1, 5 => 32
  | 1, 7 => 32
  | 2, 2 => 768
  | 2, 3 => 640
  | 2, 4 => 128
  | 2, 6 => 1472
  | 2, 7 => 64
  | _, _ => 0

/-- Is the member on a port a storage member: does a job name it as one in its snapshot setting, or load from it (log 9)? -/
def storagePort (d : Dev) (p : Nat) : Bool :=
  d.jobs.any fun e =>
    let jb := e.2
    let stores (en : Nat) (ms : List Nat) : List Nat := ((List.range 4).filter fun i => (en / 2 ^ i) % 2 == 1).map fun i => ms.getD i 0
    let ms := stores jb.snapEn jb.snapMem ++ jb.loads.map (·.member) ++
      (match jb.snapNext with | some (_, en, l) => stores en l | none => [])
    jb.members.any fun m => ms.contains m.1 && (m.2.portA == p || m.2.portB == some p)

/-- Does the member on a port receive a job's record mirror? -/
def mirrorPort (d : Dev) (p : Nat) : Bool :=
  d.jobs.any fun e => (e.2.recd.toList ++ e.2.recEnded).any fun r => r.target == 1 && r.port == p

/-- Minimum credits the member on a port advertises (Table 15-7). -/
def minCredits (d : Dev) (p vc : Nat) : Nat :=
  match vc with
  | 0 | 1 => 16
  | 2 | 3 => 256
  | 4 => if storagePort d p then 64 else 0
  | 5 => if mirrorPort d p then 64 else 0
  | 7 => 8
  | _ => 0

/-- Sender state of a VC. -/
def txVc (p : Port) (v : Nat) : TxVc := p.tx.getD v {}
/-- Receiver state of a VC. -/
def rxVc (p : Port) (v : Nat) : RxVc := p.rx.getD v {}
/-- Write the sender state of a VC. -/
def setTxVc (p : Port) (v : Nat) (x : TxVc) : Port := { p with tx := listSet p.tx v x }
/-- Write the receiver state of a VC. -/
def setRxVc (p : Port) (v : Nat) (x : RxVc) : Port := { p with rx := listSet p.rx v x }

/-- Does the sender have a credit on the VC (R532)? -/
def hasCredit (p : Port) (v : Nat) : Bool :=
  let t := txVc p v
  decide (0 < (t.adv + t.freed + (65536 - t.sent % 65536)) % 65536)

/-- The link state is cleared: nothing sent or received (R522 at DOWN). The queue is what the caller left in it, and whole packets
that wait for the policer keep waiting: the link layer has acknowledged them (R559). They hold no flits of the new link. -/
def clearLink (p : Port) : Port :=
  { p with txSeq := 0, rxSeq := 0, nakAt := none, credSent := false, credRcvd := false,
           beacSent := false, beacRcvd := false, credLow := false, ctl := [], replay := [], redo := [], resends := 0,
           tx := [], rx := [], deficits := [], polDef := [], polLast := [], laneLock := 0
           parked := p.parked.map fun k => { k with flits := [] } }

/-- Packets that have begun to leave on the port and that the link layer has not acknowledged. -/
def started (p : Port) : List TxPacket := p.replay.flatMap (·.done) ++ p.tx.filterMap fun t => t.cur.map (·.pkt)

/-- Packets on the port that the link layer has not acknowledged, in the order they were queued (R559). -/
def unacked (p : Port) : List TxPacket := started p ++ p.queue

/-- A packet that a port has begun is no longer waited for: the link layer carries it to its end. -/
def untrack (sel : TxPacket → Bool) (k : TxPacket) : TxPacket := if sel k then { k with track := .none } else k

/-- Drop the undelivered packets that `sel` picks: those queued go, those on the link are forgotten. -/
def dropUnacked (sel : TxPacket → Bool) (p : Port) : Port :=
  { p with queue := p.queue.filter fun k => !sel k
           replay := p.replay.map fun f => { f with done := f.done.map (untrack sel) }
           tx := p.tx.map fun t => { t with cur := t.cur.map fun c => { c with pkt := untrack sel c.pkt } } }

/-- Enter INIT (R521): sequence and credit state start afresh; CREDIT_INIT and BEACON wait to be sent. -/
def enterInit (p : Port) (now : Nat) : Port :=
  { clearLink p with
    st := .init, since := now, ackAt := now, laneLock := 0xFF
    ctl := [.creditInit, .beacon]
    tx := List.replicate 8 {}
    rx := (List.range 8).map fun v => { adv := advCredits p.role v } }

/-- LINK_STATUS state code (Table 23-3). -/
def linkStCode (s : LinkSt) : Nat :=
  match s with
  | .down => 0
  | .train => 1
  | .init => 2
  | .up => 3
  | .retrain => 4

/-! ## Acknowledgment, credit and NAK (R528, R532) -/

/-- Flits that ACK_SEQ covers leave the replay buffer, with the packets they completed. -/
def ackFlits (ack : Nat) : List Flit → List Flit × List TxPacket
  | [] => ([], [])
  | f :: r =>
    if (ack + 65536 - f.seq) % 65536 < 32768 then
      let (r', d) := ackFlits ack r
      (r', f.done ++ d)
    else (f :: r, [])

/-- Take a received ACK_SEQ: the port and the packets it shows delivered. Progress restarts the replay timer. -/
def takeAck (p : Port) (ack now : Nat) : Port × List TxPacket :=
  let (r, d) := ackFlits ack p.replay
  if r.length < p.replay.length then
    ({ p with replay := r, ackAt := now, resends := 0,
              redo := p.redo.filter fun q => r.any fun f => f.seq == q }, d)
  else (p, d)

/-- Take a received CR_CNT of a VC (R532). -/
def takeCredit (p : Port) (v cnt : Nat) : Port := setTxVc p v { txVc p v with freed := cnt }

/-- Resend every data flit from SEQ `q` on, in order (R528 items 3 and 4). -/
def resendFrom (p : Port) (q : Nat) : Port :=
  { p with redo := (p.replay.filter fun f => decide ((f.seq + 65536 - q) % 65536 < 32768)).map (·.seq) }

/-! ## Packet streams (R527, R533) -/

/-- A word from two 4-byte units, the lower first. -/
def unitWord (lo hi : W32) : W64 := BitVec.ofNat 64 (lo.toNat + 2 ^ 32 * hi.toNat)

/-- Words from 4-byte units. -/
def unitWords : List W32 → List W64
  | lo :: hi :: r => unitWord lo hi :: unitWords r
  | _ => []

/-- 4-byte units of words. -/
def wordUnits : List W64 → List W32
  | [] => []
  | w :: r => BitVec.ofNat 32 w.toNat :: BitVec.ofNat 32 (w.toNat / 2 ^ 32) :: wordUnits r

/-- Is every packet of the VC preceded by a trunk envelope on a port of this role (R540)? -/
def hasEnvelope (role vc : Nat) : Bool := role == 2 && (vc == 2 || vc == 3 || vc == 4 || vc == 6)

/-- What a stream parse yields: whole packets as units, the units left over, and whether a PLEN was unusable. -/
structure Parsed where
  packets : List (List W32) := []
  rest    : List W32 := []
  framing : Bool := false
  deriving DecidableEq, Repr

/-- Cut a stream into packets (R527); `env` units of envelope precede each, `fuel` bounds the packets. At PLEN = 0 the rest of the
flit is skipped. -/
def cutPackets (env : Nat) : Nat → List W32 → Parsed
  | 0, u => { rest := u }
  | fuel + 1, u =>
    match u with
    | [] => {}
    | _ :: _ =>
      if u.length ≤ env then { rest := u }
      else
        let plen := (u.getD env 0).toNat % 65536
        if plen = 0 then {}
        else if plen < 8 || 8224 < plen || plen % 8 != 0 then { rest := u, framing := true }
        else
          let n := env + plen / 4
          if u.length < n then { rest := u }
          else
            let r := cutPackets env fuel (u.drop n)
            { r with packets := u.take n :: r.packets }

/-- Too little of a flit's tail to hold a PLEN behind an envelope, and all zero: padding, or an envelope that the next flit goes
on with. The next flit's NEXT_PKT tells (DEDUCED, log 46). -/
def zeroTail (env : Nat) (part : List W32) : Bool := decide (part.length ≤ env) && part.all (· == 0)

/-- What a VC holds of a packet being received, as the next flit finds it: after padding a packet starts at offset 0. -/
def partAt (env nextPkt : Nat) (x : RxVc) : List W32 := if zeroTail env x.part && nextPkt == 0 then [] else x.part

/-- Take the payload of an accepted flit into its VC's stream: the receiver state, what was completed, and the flits that the
first completed packet has bytes in. `ok` is whether a credit covered the flit (R533). -/
def takePayload (env : Nat) (x : RxVc) (ok : Bool) (nextPkt : Nat) (payload : List W32) : RxVc × Parsed × List Nat :=
  let x1 := { x with got := (x.got + 1) % 65536 }
  if !ok then ({ x1 with part := [], flits := [], resync := true }, {}, [])
  else if x.resync && nextPkt == 63 then (x1, {}, [])
  else
    let part := if x.resync then [] else partAt env nextPkt x
    let first := (if part.isEmpty then [] else x.flits) ++ [x.got]
    let r := cutPackets env 64 (if x.resync then payload.drop nextPkt else part ++ payload)
    let rest := if r.framing then [] else r.rest
    let flits := if rest.isEmpty || zeroTail env rest then [] else if r.packets.isEmpty then first else [x.got]
    ({ x1 with part := rest, flits := flits, resync := r.framing }, r, first)

/-- Flits of a VC freed since INIT: those with no byte left in the receive buffer (R532). -/
def freedOf (ps : List Parked) (v : Nat) (x : RxVc) : Nat :=
  let held := (x.flits ++ (ps.filter fun k => k.vc == v).flatMap (·.flits)).eraseDups
  (x.got + 65536 - held.length) % 65536

/-- The credits a port returns follow what its receive buffers hold. -/
def settleFreed (p : Port) : Port :=
  { p with rx := (List.range p.rx.length).map fun v => let x := rxVc p v; { x with freed := freedOf p.parked v x } }

/-! ## Waiting without a credit (R562) -/

/-- Does data of a VC wait without a credit? -/
def stalled (p : Port) (v : Nat) : Bool :=
  (p.st == .up || p.st == .retrain) && !hasCredit p v && ((txVc p v).cur.isSome || p.queue.any fun k => k.vc == v)

/-- Data that begins to wait without a credit starts the VC's clock (CREDIT_STALL_US). -/
def startStall (p : Port) (v now : Nat) : Port :=
  if stalled p v && (txVc p v).stallAt.isNone then setTxVc p v { txVc p v with stallAt := some now } else p

/-! ## Scrambling (R516) -/

/-- Scramble 32 bits, least significant first, by 1 + x^39 + x^58: each bit with the bits sent 39 and 58 before it. `h` holds the
last 58 bits sent, the oldest lowest. -/
def scrambleUnit (h : BitVec 58) (u : W32) : W32 × BitVec 58 :=
  let o := u.toNat ^^^ (h.toNat % 2 ^ 32) ^^^ (h.toNat / 2 ^ 19 % 2 ^ 32)
  (BitVec.ofNat 32 o, BitVec.ofNat 58 (h.toNat / 2 ^ 32 + 2 ^ 26 * o))

/-- Scramble a flit's units. -/
def scramble (h : BitVec 58) : List W32 → List W32 × BitVec 58
  | [] => ([], h)
  | u :: r =>
    let (o, h1) := scrambleUnit h u
    let (os, h2) := scramble h1 r
    (o :: os, h2)

/-- What a receiver makes of 32 scrambled bits: it holds the last 58 bits received. -/
def descrambleUnit (h : BitVec 58) (o : W32) : W32 × BitVec 58 :=
  (BitVec.ofNat 32 (o.toNat ^^^ (h.toNat % 2 ^ 32) ^^^ (h.toNat / 2 ^ 19 % 2 ^ 32)), BitVec.ofNat 58 (h.toNat / 2 ^ 32 + 2 ^ 26 * o.toNat))

/-- Zero message bits between the `n`th flit after an alignment marker group and the next group; none while another whole flit
fits. -/
def markerPad (n : Nat) : Option Nat :=
  if Config.markerBits < 2048 * (n + 1) then some (Config.markerBits - 2048 * n) else none

/-! ## Transmission (R537) -/

/-- Next VC with nonzero advertised credit after `v` (R532); `fuel` VCs are tried. -/
def nextCrVc (p : Port) (v : Nat) : Nat → Nat
  | 0 => v
  | fuel + 1 =>
    let w := (v + 1) % 8
    if (rxVc p w).adv != 0 then w else nextCrVc p w fuel

/-- A flit header (Table 15-4); the port's CR_VC has been rotated. -/
def flitHeader (p : Port) (ftype vc nextPkt seq : Nat) : W64 :=
  mkWord [(ftype, 62), (vc, 59), (nextPkt, 53), (p.crVc, 48), ((rxVc p p.crVc).freed, 32),
    ((p.rxSeq + 65535) % 65536, 16), (seq, 0)]

/-- The CRC of a flit (Table 15-3). -/
def flitCrc (hdr : W64) (payload : List W32) : W32 :=
  crc32c (leBytes8 hdr ++ payload.flatMap leBytes4)
where
  /-- Bytes of a word. -/
  leBytes8 (w : W64) : List Byte := wordsBytes [w]
  /-- Bytes of a 4-byte unit. -/
  leBytes4 (u : W32) : List Byte :=
    [BitVec.ofNat 8 u.toNat, BitVec.ofNat 8 (u.toNat / 256), BitVec.ofNat 8 (u.toNat / 65536), BitVec.ofNat 8 (u.toNat / 2 ^ 24)]

/-- Payload units of a control flit (Table 15-5). -/
def ctlPayload (serial : W64) (port : Nat) (p : Port) (c : CtlFlit) : List W32 :=
  let pack (f : Nat → Nat) : List W64 :=
    [mkWord [(f 0, 0), (f 1, 16), (f 2, 32), (f 3, 48)], mkWord [(f 4, 0), (f 5, 16), (f 6, 32), (f 7, 48)]]
  let ws : List W64 :=
    match c with
    | .nak e => [mkWord [(0x01, 56), (e, 0)]]
    | .creditInit => mkWord [(0x02, 56)] :: pack fun v => (rxVc p v).adv
    | .creditSnap => mkWord [(0x03, 56)] :: pack fun v => (rxVc p v).freed
    | .beacon => [mkWord [(0x04, 56)], serial, mkWord [(port / 8, 8), (port % 8, 5), (p.role, 0)]]
    | .downNotice => [mkWord [(0x05, 56)]]
  let us := wordUnits ws
  us ++ List.replicate (61 - us.length) 0

/-- Key of a queue on a port: 65 × VC + job, or + 64 for the module queue. -/
def queueKey (k : TxPacket) : Nat := 65 * k.vc + k.queue

/-- The queue whose packet is open on a VC: the transmitter leaves it only at the packet's end (R537). -/
def openKey (p : Port) (v : Nat) : Option Nat := (txVc p v).cur.map fun c => queueKey c.pkt

/-- Keys of the queues that have a packet, begun or not. -/
def busyKeys (p : Port) : List Nat := p.queue.map queueKey ++ p.tx.filterMap fun t => t.cur.map fun c => queueKey c.pkt

/-- Keys of the queues that may have a turn: those with a packet whose VC has a credit; out of service, those of VC7 alone (R537,
R576). -/
def readyKeys (serv : Bool) (p : Port) : List Nat := (busyKeys p).filter fun k => hasCredit p (k / 65) && (serv || decide (455 ≤ k))

/-- Smallest key above `k`, else the smallest key. -/
def nextKey (k : Nat) (ks : List Nat) : Option Nat :=
  let pick (l : List Nat) : Option Nat := l.foldl (fun o x => match o with | some y => some (min x y) | none => some x) none
  match pick (ks.filter fun x => decide (k < x)) with
  | some x => some x
  | none => pick ks

/-- The next queues in the round receive their quanta, by the weight in force for the round (R610), until one has bytes to spend.
A queue that comes not above the one before it begins a round, in which replaced weights no longer hold. -/
def nextTurn (weight : Nat → Nat) (ks : List Nat) : Nat → Port → Option Port
  | 0, _ => none
  | fuel + 1, p =>
    match nextKey p.rrLast ks with
    | none => none
    | some k =>
      let late := if k ≤ p.rrLast then [] else p.lateW
      let df := SMap.getD p.deficits k 0 + 244 * Int.ofNat (SMap.getD late k (weight k))
      let p1 := { p with rrLast := k, lateW := late, deficits := SMap.set p.deficits k df }
      if 0 < df then some p1 else nextTurn weight ks fuel p1

/-- The deficit round robin at a choice (R537): the queue whose turn it is (`rrLast`) goes on while it has bytes to spend or its
packet is open; then the next queue has its turn. What a packet takes beyond its queue's bytes the queue owes in later rounds, and
a queue without a packet keeps no bytes (DESIGN CHOICE, log 100). -/
def takeTurn (serv : Bool) (weight : Nat → Nat) (p : Port) : Option Port :=
  let ks := readyKeys serv p
  let bs := busyKeys p
  let p1 := { p with deficits := SMap.keep (fun k _ => bs.contains k) p.deficits }
  if ks.contains p.rrLast && (decide (0 < SMap.getD p1.deficits p.rrLast 0) || openKey p (p.rrLast / 65) == some p.rrLast) then some p1
  else nextTurn weight ks (40 * ks.length + 1) p1

/-- First packet of a queue, and the others. -/
def popPacket (key : Nat) : List TxPacket → Option (TxPacket × List TxPacket)
  | [] => none
  | k :: r =>
    if queueKey k = key then some (k, r)
    else
      match popPacket key r with
      | some (x, r') => some (x, k :: r')
      | none => none

/-- A queue has sent `n` 4-byte units. -/
def chargeQueue (p : Port) (key n : Nat) : Port :=
  { p with deficits := SMap.set p.deficits key (SMap.getD p.deficits key 0 - 4 * Int.ofNat n) }

/-- A data flit being filled: the port, the units so far, the offset of the first packet start, the packets completed. -/
structure Fill where
  port  : Port
  units : List W32 := []
  next  : Nat := 63
  dn    : List TxPacket := []

/-- Fill a data flit of VC `v`: its open packet goes on, whoever's turn it is; at a packet boundary the round robin says which queue
goes on, and a turn of another VC ends the flit (R527, R537). `turn` is that choice, `fuel` the steps. -/
def fillFlit (turn : Port → Option Port) (v : Nat) : Nat → Fill → Fill
  | 0, s => s
  | fuel + 1, s =>
    let room := 61 - s.units.length
    let t := txVc s.port v
    if room = 0 then s
    else
      match t.cur with
      | some c =>
        let n := min c.rest.length room
        let left := c.rest.drop n
        let p1 := setTxVc s.port v { t with cur := if left.isEmpty then none else some { c with rest := left } }
        fillFlit turn v fuel { s with port := chargeQueue p1 (queueKey c.pkt) n, units := s.units ++ c.rest.take n
                                      dn := if left.isEmpty then s.dn ++ [c.pkt] else s.dn }
      | none =>
        match turn s.port with
        | none => s
        | some p1 =>
          if p1.rrLast / 65 != v then s
          else
            match popPacket p1.rrLast p1.queue with
            | none => s
            | some (k, q) =>
              fillFlit turn v fuel { s with port := setTxVc { p1 with queue := q } v { t with cur := some { pkt := k, rest := wordUnits k.words } }
                                            next := if s.next = 63 then s.units.length else s.next }

/-- Send the next data flit, if a queue may go. -/
def sendData (serv : Bool) (weight : Nat → Nat) (p : Port) (now : Nat) : Option (Port × Flit) :=
  match takeTurn serv weight p with
  | none => none
  | some p0 =>
    let v := p0.rrLast / 65
    let s := fillFlit (takeTurn serv weight) v 64 { port := p0 }
    let x := s.port
    let f : Flit := { seq := x.txSeq, vc := v, nextPkt := s.next, payload := s.units ++ List.replicate (61 - s.units.length) 0, done := s.dn }
    let x1 := setTxVc x v { txVc x v with sent := ((txVc x v).sent + 1) % 65536 }
    some (startStall { x1 with txSeq := (x.txSeq + 1) % 65536, replay := x.replay ++ [f]
                               ackAt := if x.replay.isEmpty then now else x.ackAt } v now, f)

end Sys2Proof.Machine
end

