-- ==== Sys2Proof/Machine/Fabric.lean ====
section
/-!
DEFINITION. Sys2Proof/Machine/Fabric.lean: fabric addresses, cabling classes, service, ring maps and routing (chapter 16),
and the sends every other file uses: to members, on trunks, to an ordinal.
-/
namespace Sys2Proof.Machine

/-! ## Addresses (R564 to R566) -/

/-- Ring size of an axis from FABRIC_CFG (Table 16-1). -/
def axisDim (cfg : W64) (axis : Nat) : Nat := field cfg (18 + 4 * axis) (16 + 4 * axis) + 1
/-- Coordinate of an address on an axis (R564). -/
def coord (addr axis : Nat) : Nat := (addr / 8 ^ axis) % 8
/-- The module's own fabric address, from the FABRIC_CFG in force. -/
def ownAddr (d : Dev) : Nat := field d.fabric.cfgRun 8 0
/-- Fabric address of a serial in the FABRIC_MAP in force. -/
def addrOf (d : Dev) (serial : W64) : Option Nat :=
  if serial = 0 then none else (d.fabric.mapRun.find? fun e => e.2 == serial).map (·.1)
/-- Coordinate reached from `c` by `k` steps toward + or − on a ring of `n`. -/
def stepCoord (n c k : Nat) (plus : Bool) : Nat := if plus then (c + k) % n else (c + n - k % n) % n
/-- Steps from coordinate `a` to `b` in a direction on a ring of `n`. -/
def ringSteps (n a b : Nat) (plus : Bool) : Nat := if plus then (b + n - a) % n else (a + n - b) % n
/-- Are two addresses equal on every axis but one? -/
def sameLine (axis a b : Nat) : Bool := [0, 1, 2].all fun x => x == axis || coord a x == coord b x

/-! ## Plan and classes (R569, R573 to R576) -/

/-- The plan entry of a port in force; a port without one has KIND 0. -/
def planOf (d : Dev) (p : Nat) : PlanEntry :=
  SMap.getD d.fabric.planRun p { kind := 0, axis := 0, dir := 0, engine := 0, pos := 0, serial := 0 }

/-- PAIR_PLAN: the plan entries of pair `q` break R569. The next module toward + is the one FABRIC_MAP places there, and
the A fiber must run to a B side on it. -/
def pairPlanBad (d : Dev) (q : Nat) : Bool :=
  let a := planOf d (256 + q)
  let b := planOf d (272 + q)
  let n := axisDim d.fabric.cfgRun a.axis
  let me := ownAddr d
  let nextOk :=
    match addrOf d a.serial with
    | some x => sameLine a.axis me x && coord x a.axis == stepCoord n (coord me a.axis) 1 true
    | none => false
  !(a.kind == 1 && b.kind == 1 && a.axis == b.axis && decide (a.axis ≤ 2) && a.dir == 0 && b.dir == 1 &&
    (a.engine == 34 || a.engine == 35) && nextOk)

/-- PAIR_PLAN of a port's pair, false for a port of no pair. A pair that the plan does not enter breaks R569 too. -/
def portPairBad (d : Dev) (p : Nat) : Bool := decide (256 ≤ p) && pairPlanBad d ((p - 256) % 16)

/-- Does a beacon name the planned partner of an entry (R575)? For a member only serial and position are compared. -/
def seesPartner (e : PlanEntry) (b : Beacon) : Bool :=
  b.serial == e.serial && b.pos == e.pos && (e.kind == 2 || b.engine == e.engine)

/-- Is the beacon's role the one the entry's kind asks for (R575)? -/
def roleFits (e : PlanEntry) (b : Beacon) : Bool :=
  (e.kind == 1 && b.role != 3) || (e.kind == 2 && b.role == 3) || e.kind == 0

/-- Side of a bypass-pair engine: 0 A (E32, E33), 1 B (E34, E35), 2 neither. -/
def engineSide (e : Nat) : Nat := if e = 32 || e = 33 then 0 else if e = 34 || e = 35 then 1 else 2

/-- Side of a port. -/
def portSide (p : Nat) : Nat := if 256 ≤ p && p < 272 then 0 else if 272 ≤ p && p < 288 then 1 else 2

/-- Steps from this module to the seen module along the entry's axis and direction, and against it. -/
def seenSteps (d : Dev) (e : PlanEntry) (b : Beacon) : Option (Nat × Nat) :=
  match addrOf d b.serial with
  | none => none
  | some x =>
    let me := ownAddr d
    let n := axisDim d.fabric.cfgRun e.axis
    if sameLine e.axis me x && x != me then
      some (ringSteps n (coord me e.axis) (coord x e.axis) (e.dir == 0),
            ringSteps n (coord me e.axis) (coord x e.axis) (e.dir != 0))
    else none

/-- The last beacon seen on a port's connector: by the pair's monitor while it is JOINED, by the port otherwise
(R574). -/
def seenOn (d : Dev) (p : Nat) : Option Beacon :=
  if 256 ≤ p && p < 288 then
    let q := d.fabric.pairs.getD ((p - 256) % 16) {}
    match q.st with
    | .joined => if p < 272 then q.monA else q.monB
    | _ => (getPort d p).beacon
  else (getPort d p).beacon

/-- Class of a port and THRU_K: the first of Table 16-3 whose condition holds (R575), where "seen" is the last beacon, however
old. `missing`: no beacon for 2 s. A trunk port is UNEXPECTED when its entry is no trunk's (R573) and when the module's own serial
does not stand at its ADDR (R566). -/
def classify (d : Dev) (p : Nat) (missing : Bool) : Nat × Nat :=
  let e := planOf d p
  let trunk := (getPort d p).role == 2
  if trunk && (!d.fabric.cfgOk || e.kind != 1 || decide (3 ≤ e.axis)) then (6, 0)
  else
    match seenOn d p with
    | none => if e.kind = 0 then (0, 0) else if missing then (5, 0) else (6, 0)
    | some b =>
      let swapped := (List.range 288).any fun q =>
        q != p && (planOf d q).kind == e.kind && seesPartner (planOf d q) b &&
        (match seenOn d q with | some b' => seesPartner e b' | none => false)
      let st := seenSteps d e b
      let sameSide := portSide p != 2 && engineSide b.engine == portSide p
      let rev := trunk && (sameSide || (match st with | some (f, r) => decide (r < f) | none => false))
      let through := trunk && engineSide b.engine != 2 && (portSide p == 2 || engineSide b.engine != portSide p) &&
        (match st with | some (f, _) => decide (2 ≤ f) && decide (f ≤ 7) | none => false)
      if e.kind = 0 || !roleFits e b then (6, 0)
      else if seesPartner e b then (1, 0)
      else if swapped then (2, 0)
      else if rev then (3, 0)
      else if through then (4, (st.getD (0, 0)).1)
      else if missing then (5, 0)
      else (6, 0)

/-- Is the port one of a JOINED pair: its transmitter reaches only the pair's other port (R570)? -/
def portJoined (d : Dev) (p : Nat) : Bool :=
  decide (256 ≤ p) && decide (p < 288) && (d.fabric.pairs.getD ((p - 256) % 16) {}).st == .joined

/-- In service (R576): UP, and OK, or THROUGH on a trunk; a pair whose plan breaks R569 carries no traffic, and a JOINED
pair's ports reach no neighbour (log 45). -/
def inService (d : Dev) (p : Nat) : Bool :=
  let x := getPort d p
  x.st == .up && !portJoined d p && (x.cls == 1 || (x.cls == 4 && x.role == 2)) && !portPairBad d p && (x.role != 2 || d.fabric.cfgOk)

/-- Trunk ports, ascending, in service on an axis and direction (R583, R584). -/
def trunksOn (d : Dev) (axis : Nat) (plus : Bool) : List Nat :=
  (SMap.keys d.ports).filter fun p =>
    (getPort d p).role == 2 && inService d p &&
    (let e := planOf d p; e.kind == 1 && e.axis == axis && (e.dir == 0) == plus)

/-! ## Ring maps (R586) -/

/-- Coordinate the module's own links reach in a direction: the nearest partner; none without a link. -/
def ownReach (d : Dev) (axis : Nat) (plus : Bool) : Option Nat :=
  let n := axisDim d.fabric.cfgRun axis
  let c := coord (ownAddr d) axis
  let ks := (trunksOn d axis plus).map fun p => let x := getPort d p; if x.cls = 4 then x.thruK else 1
  match ks.foldl (fun o k => match o with | some y => some (min y k) | none => some k) (none : Option Nat) with
  | some k => some (stepCoord n c k plus)
  | none => none

/-- Follow the chain of NEXT entries toward a coordinate; `fuel` steps. -/
def chainLive (d : Dev) (axis : Nat) (plus : Bool) (target : Nat) : Nat → Nat → Bool
  | 0, _ => false
  | fuel + 1, c =>
    if c = target then true
    else
      match SMap.get? d.fabric.ring (8 * axis + c) with
      | none => false
      | some r =>
        let nx := if plus then r.plusNext else r.minusNext
        if nx = 0xF then false else chainLive d axis plus target fuel nx

/-- Does a live path lead to a coordinate in a direction (R586)? -/
def livePath (d : Dev) (axis : Nat) (plus : Bool) (target : Nat) : Bool :=
  match ownReach d axis plus with
  | none => false
  | some c => chainLive d axis plus target 8 c

/-! ## Routing (R583, R584) -/

/-- The direction a packet takes on an axis toward a coordinate, and whether it goes against the shorter one. -/
def axisChoice (d : Dev) (axis target : Nat) : Option (Bool × Bool) :=
  let n := axisDim d.fabric.cfgRun axis
  let c := coord (ownAddr d) axis
  let plus := decide (ringSteps n c target true ≤ ringSteps n c target false)
  if livePath d axis plus target then some (plus, false)
  else if livePath d axis (!plus) target then some (!plus, true)
  else none

/-- Axis and direction for a destination among `axes`, and whether the choice goes against the shorter direction or out of axis
order; `skipped`: an axis with a differing coordinate was passed over. -/
def routeChoice (d : Dev) (dst : Nat) (skipped : Bool) : List Nat → Option (Nat × Bool × Bool)
  | [] => none
  | a :: r =>
    let t := coord dst a
    if t = coord (ownAddr d) a then routeChoice d dst skipped r
    else
      match axisChoice d a t with
      | some (plus, against) => some (a, plus, against || skipped)
      | none => routeChoice d dst true r

/-- The value h of R584 from a packet's words without envelope. -/
def routeHash (words : List W64) : Nat :=
  let w0 := wordAt words 0
  let w2 := wordAt words 2
  let job := field w0 45 40
  if field w0 63 56 = 0x60 then job + field w2 63 48 else job + field w2 63 32

/-- Put a packet on a port's queue. -/
def enqueue (d : Dev) (p : Nat) (k : TxPacket) : Dev :=
  updPort d p fun x => startStall { x with queue := x.queue ++ [k] } k.vc d.nowUs

/-- Account the time a VC's data has waited without a credit (CREDIT_STALL_US). -/
def stallVc (d : Dev) (p v : Nat) : Dev :=
  let x := getPort d p
  let t := txVc x v
  let d1 := match t.stallAt with
    | some a => if a < d.nowUs then bumpBy d ctrCreditStallUs (8 * p + v) (d.nowUs - a) else d
    | none => d
  updPort d1 p fun x => setTxVc x v { txVc x v with stallAt := if stalled x v then some d.nowUs else none }

/-- Account every VC of a port. -/
def stallTick (d : Dev) (p : Nat) : Dev := forEach (List.range 8) d fun d' v => stallVc d' p v

/-- The port a packet of a job takes on an axis and direction (R584), and whether it spills outside the job's pairs. -/
def pickTrunk (d : Dev) (job axis : Nat) (plus : Bool) (h : Nat) : Option (Nat × Bool) :=
  let all := trunksOn d axis plus
  let w := SMap.getD d.fabric.jobPairs job 0
  let mine := all.filter fun p => decide (p < 256) || w = 0 || flag w ((p - 256) % 16)
  let ls := if mine.isEmpty then all else mine
  if ls.isEmpty then none else some (ls.getD (h % ls.length) 0, mine.isEmpty)

/-- Route a packet, envelope first in `words`, toward `dst`; none when no live route exists (R583). -/
def routeNow (d : Dev) (vc job dst : Nat) (words : List W64) : Option Dev :=
  match routeChoice d dst false [0, 1, 2] with
  | none => none
  | some (axis, plus, re) =>
    match pickTrunk d job axis plus (routeHash (words.drop 1)) with
    | none => none
    | some (p, spill) =>
      let d1 := if re then bump d ctrReroute 0 else d
      let d2 := if spill then bump d1 ctrPairSpill job else d1
      some (enqueue d2 p { queue := job, vc := vc, words := words })

/-- Route a packet, or hold it for up to 100 µs (R583). -/
def routeOrHold (d : Dev) (vc job dst : Nat) (words : List W64) : Dev :=
  match routeNow d vc job dst words with
  | some d1 => d1
  | none =>
    let h : RouteHold := { vc := vc, job := job, dst := dst, words := words, since := d.nowUs }
    { d with fabric := { d.fabric with holds := d.fabric.holds ++ [h] } }

/-- The trunk envelope of a packet the module sends (Table 15-9). -/
def envelope (d : Dev) (dst : Nat) : W64 := mkWord [(dst, 48), (ownAddr d, 32), (32, 24)]

/-- Send a packet to a fabric address. -/
def sendAddr (d : Dev) (vc job dst : Nat) (words : List W64) : Dev :=
  routeOrHold d vc job dst (envelope d dst :: words)

/-- Send a packet to the module of an ordinal of a job; an ordinal whose serial FABRIC_MAP does not hold is unreachable
(R567). -/
def sendOrd (d : Dev) (j q vc : Nat) (words : List W64) : Dev :=
  match getJob d j with
  | none => d
  | some jb =>
    match jb.addrs.getD q none with
    | some a => sendAddr d vc j a words
    | none => bump d ctrRouteDrop 0

/-! ## Members (R557, R558) -/

/-- The common word of a packet (Table 15-8). -/
def commonWord (ptype job plen : Nat) : W64 := mkWord [(ptype, 56), (job, 40), (plen, 0)]

/-- A packet's words with its common word, from the words after it. -/
def mkPacket (ptype job : Nat) (ws : List W64) : List W64 := commonWord ptype job (8 * (ws.length + 1)) :: ws

/-- The downstream home of a member (R557). -/
def homeOf (d : Dev) (m : Member) : Nat :=
  match m.portB with
  | none => m.portA
  | some b => if (getPort d m.portA).st == .up then m.portA else b

/-- Put a packet on a port toward a member or partner. Traffic queued during RETRAIN stays and is delivered if the link
returns (R558); an UP port takes VC0 to VC6 only in service (R576); otherwise nothing is queued. -/
def sendPort (d : Dev) (p : Nat) (k : TxPacket) : Dev :=
  if (getPort d p).st == .retrain || ((getPort d p).st == .up && (k.vc == 7 || inService d p)) then enqueue d p k else d

/-- Send a packet to a member's downstream home. -/
def sendMember (d : Dev) (j m vc : Nat) (words : List W64) (track : Track) : Dev :=
  match getJob d j with
  | none => d
  | some jb =>
    match SMap.get? jb.members m with
    | none => d
    | some mb => sendPort d (homeOf d mb) { queue := j, vc := vc, words := words, track := track }

/-- The member of a job attached to a port, if any (R373). -/
def memberOn (jb : Job) (p : Nat) : Option Nat :=
  (jb.members.find? fun e => e.2.portA == p || e.2.portB == some p).map (·.1)

/-- The downstream home of the member on a port: one pair of homes serves it in every job (R443, R557). -/
def homeOnPort (d : Dev) (p : Nat) : Nat :=
  match d.jobs.findSome? fun e => e.2.members.find? fun m => m.2.portA == p || m.2.portB == some p with
  | some m => homeOf d m.2
  | none => p

/-! ## RING_STATE (R586) -/

/-- Word 0x08 of a RING_STATE message (Table 16-5). -/
def ringWord (axis seq ttl plusN minusN plusNext minusNext src : Nat) : W64 :=
  mkWord [(0x02, 56), (axis, 48), (seq, 40), (ttl, 36), (plusN, 24), (minusN, 19), (plusNext, 15), (minusNext, 11), (src, 0)]

/-- Send the module's own RING_STATE on one link in each direction of an axis. -/
def sendRing (d : Dev) (axis : Nat) : Dev :=
  let n := axisDim d.fabric.cfgRun axis
  let ps := trunksOn d axis true
  let ms := trunksOn d axis false
  let w := ringWord axis d.fabric.ringSeq (n - 2) ps.length ms.length ((ownReach d axis true).getD 0xF)
    ((ownReach d axis false).getD 0xF) (ownAddr d)
  let k : TxPacket := { queue := 64, vc := 7, words := [commonWord 0x70 0 16, w] }
  let d1 := match ps.head? with | some p => enqueue d p k | none => d
  let d2 := match ms.head? with | some p => enqueue d1 p k | none => d1
  { d2 with fabric := { d2.fabric with ringSeq := (d2.fabric.ringSeq + 1) % 256 } }

/-- In-service links of an axis, by direction. -/
def axisLinks (d : Dev) : List (List Nat) :=
  [0, 1, 2].flatMap fun a => [trunksOn d a true, trunksOn d a false]

/-- Send RING_STATE on each axis whose set of in-service links differs from that of `old` (R586). -/
def ringOnChange (old d : Dev) : Dev :=
  forEach [0, 1, 2] d fun d' a =>
    if trunksOn old a true == trunksOn d a true && trunksOn old a false == trunksOn d a false then d' else sendRing d' a

end Sys2Proof.Machine
end

