-- ==== Sys2Proof/Machine/Flags.lean ====
section
/-!
DEFINITION. Sys2Proof/Machine/Flags.lean: status codes (Table 12-6), cause codes the chapters share, and the flag bits of
tag words (Table 8-7) and of the commit word (Table 10-1).
-/
namespace Sys2Proof.Machine

/-! ## Status codes (Table 12-6) -/

/-- ST_OK. -/
def stOk : Nat := 0x0000
/-- ST_PENDING. -/
def stPending : Nat := 0x0001
/-- ST_ILLEGAL. -/
def stIllegal : Nat := 0x0010
/-- ST_LIMIT. -/
def stLimit : Nat := 0x0011
/-- ST_IN_USE. -/
def stInUse : Nat := 0x0012
/-- ST_AUTH. -/
def stAuth : Nat := 0x0013
/-- ST_BAD_VERSION. -/
def stBadVersion : Nat := 0x0020
/-- ST_BAD_OPCODE. -/
def stBadOpcode : Nat := 0x0021
/-- ST_BAD_LENGTH. -/
def stBadLength : Nat := 0x0022
/-- ST_SEQ_OLD. -/
def stSeqOld : Nat := 0x0023
/-- ST_SEQ_RANGE. -/
def stSeqRange : Nat := 0x0024
/-- ST_SEQ_REUSE. -/
def stSeqReuse : Nat := 0x0025
/-- ST_NO_SESSION. -/
def stNoSession : Nat := 0x0026
/-- ST_NOT_READY. -/
def stNotReady : Nat := 0x0027
/-- ST_BAD_SIG. -/
def stBadSig : Nat := 0x0028
/-- ST_NO_ACCUM. -/
def stNoAccum : Nat := 0x0030
/-- ST_ACCUM_FULL. -/
def stAccumFull : Nat := 0x0031
/-- ST_NO_MEM. -/
def stNoMem : Nat := 0x0032
/-- ST_PASS_AHEAD. -/
def stPassAhead : Nat := 0x0033
/-- ST_LATE. -/
def stLate : Nat := 0x0040
/-- ST_MISMATCH. -/
def stMismatch : Nat := 0x0041
/-- ST_ABORTED. -/
def stAborted : Nat := 0x0042
/-- ST_UNIT_FAIL. -/
def stUnitFail : Nat := 0x0043
/-- ST_CTX_CLOSED. -/
def stCtxClosed : Nat := 0x0044
/-- ST_STALE_EPOCH. -/
def stStaleEpoch : Nat := 0x0045
/-- ST_BAD_RANK. -/
def stBadRank : Nat := 0x0046
/-- ST_SEAL_PENDING. -/
def stSealPending : Nat := 0x0047
/-- ST_STEP_DECIDED. -/
def stStepDecided : Nat := 0x0048
/-- ST_STALE_STEP. -/
def stStaleStep : Nat := 0x0049
/-- ST_DAMAGED. -/
def stDamaged : Nat := 0x0050
/-- ST_SHARD_OFFLINE. -/
def stShardOffline : Nat := 0x0051
/-- ST_LINK_LOST. -/
def stLinkLost : Nat := 0x0052

/-! ## Tag words (Table 8-7) -/

/-- WRITTEN. -/
def tagWritten (t : W64) : Bool := flag t 50
/-- BASE. -/
def tagBase (t : W64) : Bool := flag t 49
/-- FRESH. -/
def tagFresh (t : W64) : Bool := flag t 48
/-- STEP_TAG. -/
def tagStep (t : W64) : Nat := field t 47 0
/-- A tag word. -/
def mkTag (written base fresh : Bool) (step : Nat) : W64 :=
  mkWord [(bit written, 50), (bit base, 49), (bit fresh, 48), (step % 2 ^ 48, 0)]
/-- The tag word with WRITTEN = 0 and the rest as it is. -/
def tagEmpty (t : W64) : W64 := t &&& ~~~(1#64 <<< 50)

/-! ## The commit word (Table 10-1) -/

/-- HAS_COMMIT. -/
def hasCommit (w : W64) : Bool := flag w 63
/-- COMMIT. -/
def commitStep (w : W64) : Nat := field w 47 0
/-- SEALED_ATTEMPT. -/
def commitAttempt (w : W64) : Nat := field w 55 48
/-- A commit word. -/
def mkCommit (step attempt : Nat) : W64 := mkWord [(1, 63), (attempt % 256, 48), (step % 2 ^ 48, 0)]

end Sys2Proof.Machine
end

