-- ==== Sys2Proof/Machine/Fp64.lean ====
section
/-!
DEFINITION. Sys2Proof/Machine/Fp64.lean: IEEE 754-2019 binary64 arithmetic with roundTiesToEven (R97, R113, R203,
R245, R246), computed exactly on integers and rounded once at the end.
-/
namespace Sys2Proof.Machine

/-- +infinity. -/
def fpInf : F64 := 0x7FF0000000000000#64
/-- A quiet NaN (R247). -/
def fpNaN : F64 := 0x7FF8000000000000#64
/-- 1.0. -/
def fpOne : F64 := 0x3FF0000000000000#64
/-- 0.5. -/
def fpHalf : F64 := 0x3FE0000000000000#64

/-- The sign bit. -/
def fpSign (a : F64) : Bool := a.getLsbD 63
/-- The 63 bits below the sign, as a number: it rises with the magnitude. -/
def fpMag (a : F64) : Nat := a.toNat % 2 ^ 63
/-- Is the value finite (R86)? -/
def fpFinite (a : F64) : Bool := decide (fpMag a < 0x7FF0000000000000)
/-- Is the value a NaN? -/
def fpIsNaN (a : F64) : Bool := decide (0x7FF0000000000000 < fpMag a)
/-- Is the value +0 or -0? -/
def fpIsZero (a : F64) : Bool := fpMag a == 0
/-- The value with the other sign. -/
def fpNeg (a : F64) : F64 := a ^^^ 0x8000000000000000#64
/-- The magnitude (`fabs`). -/
def fpAbs (a : F64) : F64 := BitVec.ofNat 64 (fpMag a)
/-- A zero of sign `s`. -/
def fpZero (s : Bool) : F64 := if s then 0x8000000000000000#64 else 0#64
/-- Put a sign on a magnitude pattern. -/
def fpWithSign (s : Bool) (mag : Nat) : F64 :=
  BitVec.ofNat 64 (if s then 2 ^ 63 + mag else mag)

/-- Integer significand of a finite value: its magnitude is `fpSig a * 2 ^ fpExp a` (R85). -/
def fpSig (a : F64) : Nat :=
  let m := fpMag a
  if m < 2 ^ 52 then m else 2 ^ 52 + m % 2 ^ 52
/-- Exponent of the unit of `fpSig a` (R85). -/
def fpExp (a : F64) : Int :=
  let f : Nat := fpMag a / 2 ^ 52
  if f = 0 then -1074 else (f : Int) - 1075

/-- `n * 2 ^ k` for `k ≥ 0`, else `n` shifted right (truncated). -/
def shl (n : Nat) (k : Int) : Nat :=
  if 0 ≤ k then n <<< k.toNat else n >>> (-k).toNat

/-- Round the magnitude `n * 2 ^ e`, plus something positive below one unit of `n` when `sticky`, to the nearest
binary64 magnitude pattern, ties to even. With `sticky`, `n` has at least 55 bits. An overflow gives the pattern of
infinity. -/
def fpRoundMag (n : Nat) (e : Int) (sticky : Bool) : Nat :=
  if n = 0 then 0
  else
    let top : Int := (Nat.log2 n : Int) + e
    let u : Int := max top (-1022) - 52
    let sh : Int := u - e
    let q : Nat :=
      if sh ≤ 0 then shl n (-sh)
      else
        let k := sh.toNat
        let q0 := n >>> k
        let r := n % 2 ^ k
        let half := 2 ^ (k - 1)
        if half < r || (r == half && (sticky || q0 % 2 == 1)) then q0 + 1 else q0
    let bits := (u + 1074).toNat * 2 ^ 52 + q
    if bits < 0x7FF0000000000000 then bits else 0x7FF0000000000000

/-- Round `± n * 2 ^ e`. -/
def fpRound (s : Bool) (n : Nat) (e : Int) (sticky : Bool) : F64 :=
  fpWithSign s (fpRoundMag n e sticky)

/-- The nearest binary64 value of a natural number (exact below 2^53, R245). -/
def fpOfNat (n : Nat) : F64 := fpRound false n 0 false

/-- The signed integer significand of a finite value, in units of `2 ^ e`, for `e` not above its exponent. -/
def fpIntAt (a : F64) (e : Int) : Int :=
  let v : Nat := shl (fpSig a) (fpExp a - e)
  if fpSign a then -(v : Int) else (v : Int)

/-- Round a signed integer times `2 ^ e`; an exact zero has sign `zs`. -/
def fpRoundInt (v : Int) (e : Int) (zs : Bool) : F64 :=
  if v = 0 then fpZero zs else fpRound (decide (v < 0)) v.natAbs e false

/-- Addition (R97): an exact zero sum is +0 unless both addends are -0. -/
def fpAdd (a b : F64) : F64 :=
  if fpIsNaN a || fpIsNaN b then fpNaN
  else if !fpFinite a then
    if !fpFinite b && fpSign a != fpSign b then fpNaN else a
  else if !fpFinite b then b
  else
    let e := min (fpExp a) (fpExp b)
    fpRoundInt (fpIntAt a e + fpIntAt b e) e (fpSign a && fpSign b)

/-- Subtraction. -/
def fpSub (a b : F64) : F64 := fpAdd a (fpNeg b)

/-- Multiplication. -/
def fpMul (a b : F64) : F64 :=
  let s := fpSign a != fpSign b
  if fpIsNaN a || fpIsNaN b then fpNaN
  else if !fpFinite a || !fpFinite b then
    if fpIsZero a || fpIsZero b then fpNaN else fpWithSign s 0x7FF0000000000000
  else fpRound s (fpSig a * fpSig b) (fpExp a + fpExp b) false

/-- Fused multiply-add `a * b + c`, rounded once (R113). -/
def fpFma (a b c : F64) : F64 :=
  let s := fpSign a != fpSign b
  if fpIsNaN a || fpIsNaN b || fpIsNaN c then fpNaN
  else if !fpFinite a || !fpFinite b then
    if fpIsZero a || fpIsZero b then fpNaN
    else if !fpFinite c && fpSign c != s then fpNaN
    else fpWithSign s 0x7FF0000000000000
  else if !fpFinite c then c
  else
    let ep := fpExp a + fpExp b
    let e := min ep (fpExp c)
    let p : Nat := shl (fpSig a * fpSig b) (ep - e)
    let pv : Int := if s then -(p : Int) else (p : Int)
    fpRoundInt (pv + fpIntAt c e) e (s && fpSign c)

/-- Division. -/
def fpDiv (a b : F64) : F64 :=
  let s := fpSign a != fpSign b
  if fpIsNaN a || fpIsNaN b then fpNaN
  else if !fpFinite a then
    if !fpFinite b then fpNaN else fpWithSign s 0x7FF0000000000000
  else if !fpFinite b then fpZero s
  else if fpIsZero b then
    if fpIsZero a then fpNaN else fpWithSign s 0x7FF0000000000000
  else
    let n := fpSig a * 2 ^ 120
    let d := fpSig b
    fpRound s (n / d) (fpExp a - 120 - fpExp b) (n % d != 0)

/-- Integer square root, one result bit a turn from bit `k - 1` down. -/
def isqrtAux (n : Nat) : Nat → Nat → Nat
  | 0, acc => acc
  | k + 1, acc =>
    let c := acc + 2 ^ k
    isqrtAux n k (if c * c ≤ n then c else acc)

/-- The integer square root of a number below `2 ^ 256`. -/
def isqrt (n : Nat) : Nat := isqrtAux n 128 0

/-- Square root. -/
def fpSqrt (a : F64) : F64 :=
  if fpIsNaN a then fpNaN
  else if fpIsZero a then a
  else if fpSign a then fpNaN
  else if !fpFinite a then a
  else
    let e0 := fpExp a - 130
    let odd : Bool := e0 % 2 != 0
    let e := if odd then e0 - 1 else e0
    let n := fpSig a * 2 ^ (if odd then 131 else 130)
    let q := isqrt n
    fpRound false q (e / 2) (q * q != n)

/-- `a < b` (false when either is a NaN; the zeros are equal). -/
def fpLt (a b : F64) : Bool :=
  if fpIsNaN a || fpIsNaN b then false
  else if fpIsZero a && fpIsZero b then false
  else
    match fpSign a, fpSign b with
    | false, false => decide (fpMag a < fpMag b)
    | true, true => decide (fpMag b < fpMag a)
    | true, false => true
    | false, true => false

/-- `a = b` as numbers. -/
def fpEq (a b : F64) : Bool :=
  !fpIsNaN a && !fpIsNaN b && (a == b || (fpIsZero a && fpIsZero b))

/-- `a ≤ b`. -/
def fpLe (a b : F64) : Bool := fpLt a b || fpEq a b

/-! ## Correctly rounded powers and cosines (R246) -/

/-- A positive number known up to an interval: between `lo * 2 ^ e` and `hi * 2 ^ e`. -/
structure Ival where
  lo : Nat
  hi : Nat
  e  : Int

/-- Cut an interval to about `p` bits, outward. -/
def ivTrim (p : Nat) (x : Ival) : Ival :=
  let k := Nat.log2 x.hi + 1 - p
  if k = 0 then x
  else
    { lo := x.lo >>> k
      hi := if x.hi % 2 ^ k = 0 then x.hi >>> k else x.hi >>> k + 1
      e := x.e + k }

/-- Product of two intervals. -/
def ivMul (p : Nat) (x y : Ival) : Ival :=
  ivTrim p { lo := x.lo * y.lo, hi := x.hi * y.hi, e := x.e + y.e }

/-- `x ^ n` by squaring, on `p`-bit intervals; `fuel` bits of `n` are used. -/
def ivPow (p : Nat) : Nat → Ival → Nat → Ival → Ival
  | 0, _, _, acc => acc
  | fuel + 1, x, n, acc =>
    if n = 0 then acc
    else ivPow p fuel (ivMul p x x) (n / 2) (if n % 2 = 1 then ivMul p acc x else acc)

/-- The power at `p` bits, if its interval rounds to one value. -/
def pownAt (p : Nat) (x : F64) (n : Nat) : Option Nat :=
  let v := ivPow p 64 { lo := fpSig x, hi := fpSig x, e := fpExp x } n { lo := 1, hi := 1, e := 0 }
  let a := fpRoundMag v.lo v.e false
  let b := fpRoundMag v.hi v.e false
  if a = b then some a else none

/-- pown of IEEE 754-2019, correctly rounded (R246), for a finite `x` and `n` below 2^64. The interval evaluation is
repeated at higher precision until one rounding remains; the last resort is the exact power. -/
def fpPown (x : F64) (n : Nat) : F64 :=
  let s := fpSign x && n % 2 == 1
  if n = 0 then fpOne
  else if fpIsZero x then fpZero s
  else
    match pownAt 320 x n with
    | some m => fpWithSign s m
    | none =>
      match pownAt 4096 x n with
      | some m => fpWithSign s m
      | none => fpRound s (fpSig x ^ n) (fpExp x * n) false

/-- `floor (pi * 2 ^ 320)`. -/
def piFix : Nat := 0x3243F6A8885A308D313198A2E03707344A4093822299F31D0082EFA98EC4E6C89452821E638D01377

/-- Terms of the Taylor series of cos (from `k = 1`) or sin (from `k = 2`): `t` is the last term, `x2` the squared
argument, all in units of `2 ^ -320`; terms alternate in sign. -/
def trigSum (x2 : Nat) : Nat → Nat → Nat → Int → Bool → Int
  | 0, _, _, acc, _ => acc
  | fuel + 1, k, t, acc, neg =>
    let t' := (t * x2) >>> 320
    let t'' := t' / (k * (k + 1))
    trigSum x2 fuel (k + 2) t'' (if neg then acc - t'' else acc + t'') (!neg)

/-- cos(pi f) for `0 ≤ f ≤ 1/4`, `f` in units of `2 ^ -320`. -/
def cosFix (f : Nat) : Int :=
  let x := (f * piFix) >>> 320
  trigSum ((x * x) >>> 320) 48 1 (2 ^ 320) (2 ^ 320) true

/-- sin(pi f) for `0 ≤ f ≤ 1/4`, `f` in units of `2 ^ -320`. -/
def sinFix (f : Nat) : Int :=
  let x := (f * piFix) >>> 320
  trigSum ((x * x) >>> 320) 48 2 x (x : Int) true

/-- cosPi of IEEE 754-2019 for `0 ≤ f ≤ 1` (R246), rounded from 320 fraction bits: the three exact results are given
as such, every other value of cos(pi f) is irrational (DEDUCED, log 5). -/
def fpCospi (f : F64) : F64 :=
  let x := shl (fpSig f) (fpExp f + 320)
  let one := 2 ^ 320
  if x = 0 then fpOne
  else if x = one / 2 then 0#64
  else if one ≤ x then fpNeg fpOne
  else
    let y := if x ≤ one / 2 then x else one - x
    let c : Int := if y ≤ one / 4 then cosFix y else sinFix (one / 2 - y)
    fpRound (decide (one / 2 < x)) c.natAbs (-320) true

end Sys2Proof.Machine
end

