-- ==== Sys2Proof/Machine/Formats.lean ====
section
/-!
DEFINITION. Sys2Proof/Machine/Formats.lean: the element formats (Tables 3-1 to 3-3), the conversion at ingest (R91 to
R95), the dither generator (R662) and the fused output stage (R108 to R118).
-/
namespace Sys2Proof.Machine

/-! ## Format codes (Table 3-1) -/

/-- May the code name a contribution or a reference emission? -/
def fmtContrib (f : Nat) : Bool := decide (f ≤ 0xA)
/-- May the code name a haul or hoist format? -/
def fmtHaul (f : Nat) : Bool := decide (f ≤ 0x8)
/-- May the code name a storage format? -/
def fmtStore (f : Nat) : Bool := decide (f ≤ 0x3)
/-- Is the code an MX format? -/
def fmtMx (f : Nat) : Bool := decide (0x6 ≤ f) && decide (f ≤ 0x8)

/-- Element width in bytes (Table 3-3); 0 for a reserved code. -/
def fmtBytes (f : Nat) : Nat :=
  match f with
  | 0 => 8
  | 1 | 9 | 10 => 4
  | 2 | 3 => 2
  | 4 | 5 | 6 | 7 | 8 => 1
  | _ => 0

/-- Bytes of the element area of `n` lanes (Table 3-3, R90): the MX scale bytes of the blocks they fill come first. -/
def fmtArea (f n : Nat) : Nat := fmtBytes f * n + (if fmtMx f then (n + 31) / 32 else 0)

/-- OFMT (Table 3-11): rounding mode. -/
def ofmtRnd (o : Byte) : Bool := o.getLsbD 7
/-- OFMT: reserved bits are zero. -/
def ofmtRsvdOk (o : Byte) : Bool := (o.toNat / 16) % 8 == 0
/-- OFMT: format code. -/
def ofmtFmt (o : Byte) : Nat := o.toNat % 16
/-- Is the byte a haul format selection (R81, R120)? -/
def ofmtHaulOk (o : Byte) : Bool := ofmtRsvdOk o && fmtHaul (ofmtFmt o)
/-- Is the byte a storage format selection (R81, R120)? -/
def ofmtStoreOk (o : Byte) : Bool := ofmtRsvdOk o && fmtStore (ofmtFmt o)

/-! ## Layouts (Tables 3-2 and 3-8) -/

/-- Layout of a floating-point element format. -/
structure FloatFmt where
  /-- Fraction bits. -/
  p    : Nat
  /-- Exponent bits. -/
  ebits : Nat
  bias : Nat
  /-- Code of the largest finite magnitude. -/
  maxCode : Nat

/-- The floating-point layout of a code: of the elements, for an MX format. -/
def floatFmt (f : Nat) : FloatFmt :=
  match f with
  | 0 => { p := 52, ebits := 11, bias := 1023, maxCode := 0x7FEFFFFFFFFFFFFF }
  | 1 => { p := 23, ebits := 8, bias := 127, maxCode := 0x7F7FFFFF }
  | 2 => { p := 7, ebits := 8, bias := 127, maxCode := 0x7F7F }
  | 3 => { p := 10, ebits := 5, bias := 15, maxCode := 0x7BFF }
  | 4 | 6 => { p := 3, ebits := 4, bias := 7, maxCode := 0x7E }
  | _ => { p := 2, ebits := 5, bias := 15, maxCode := 0x7B }

/-- Exponent of the smallest normal binade, EMIN of Table 3-8. -/
def fmtEmin (l : FloatFmt) : Int := 1 - (l.bias : Int)

/-! ## Conversion at ingest (R91 to R95) -/

/-- Convert a floating-point encoding, its value times `2 ^ sc` (R85, R87); the error is the cause of Table 3-5. -/
def ingestFloat (l : FloatFmt) (raw : Nat) (sc : Int) : Except Nat F64 :=
  let mag := raw % 2 ^ (l.p + l.ebits)
  let s := decide ((raw / 2 ^ (l.p + l.ebits)) % 2 = 1)
  if l.maxCode < mag then
    .error (if mag = l.maxCode + 1 && l.maxCode != 0x7E then 0x11 else 0x10)
  else
    let e := mag / 2 ^ l.p
    let fr := mag % 2 ^ l.p
    let n := if e = 0 then fr else 2 ^ l.p + fr
    let x : Int := (if e = 0 then 1 else (e : Int)) - l.bias - l.p
    .ok (fpRound s n (x + sc) false)

/-- Convert a two's-complement integer of `w` bits, its value times `2 ^ sc`. -/
def ingestInt (w raw : Nat) (sc : Int) : F64 :=
  let v := raw % 2 ^ w
  if 2 ^ (w - 1) ≤ v then fpRound true (2 ^ w - v) sc false else fpRound false v sc false

/-- One contribution element in FP64 (R91), or the cause of its non-finite event (Table 3-5). `scale` is the E8M0
code of the element's block, read for MX formats only. -/
def ingestElem (f : Nat) (raw : W64) (scale : Byte) : Except Nat F64 :=
  let r := raw.toNat
  match f with
  | 6 | 7 =>
    if scale = 0xFF#8 then .error 0x12
    else ingestFloat (floatFmt f) (r % 256) ((scale.toNat : Int) - 127)
  | 8 =>
    if scale = 0xFF#8 then .error 0x12 else .ok (ingestInt 8 r ((scale.toNat : Int) - 127 - 6))
  | 9 => .ok (ingestInt 32 r 0)
  | 10 => .ok (fpOfNat (r % 2 ^ 32))
  | _ => ingestFloat (floatFmt f) r 0

/-- The exact FP64 value of a stored element (R91); stored elements are finite (R116). -/
def storedElem (f : Nat) (raw : W64) : F64 :=
  match ingestElem f raw 0#8 with
  | .ok v => v
  | .error _ => fpNaN

/-! ## The dither generator (R662) -/

/-- The key of one dither word. -/
structure DitherKey where
  seed   : W64
  step   : Nat
  stream : Nat
  slab   : Nat
  elem   : Nat

/-- mix64 of R662. -/
def mix64 (x0 : W64) : W64 :=
  let x1 := x0 ^^^ (x0 >>> 32)
  let x2 := x1 * 0xE3C92A715D08F6B5#64
  let x3 := x2 ^^^ (x2 >>> 29)
  let x4 := x3 * 0x8F1D6C3BA4570E29#64
  x4 ^^^ (x4 >>> 32)

/-- dither32 of R662. -/
def dither32 (k : DitherKey) : Nat :=
  let h1 := mix64 (k.seed ^^^ 0x6A3F0C5591D427B3#64)
  let h2 := mix64 (h1 ^^^ (BitVec.ofNat 64 k.step <<< 16) ^^^ BitVec.ofNat 64 k.stream)
  let h3 := mix64 (h2 ^^^ (BitVec.ofNat 64 k.slab <<< 10) ^^^ BitVec.ofNat 64 k.elem)
  h3.toNat / 2 ^ 32

/-- Region key of R117: kind 0 for parameters, 1 to 3 for s1 to s3, 4 for outbound conversion. -/
def regionKey (kind region : Nat) : Nat := 0x8000 + 4096 * kind + region % 4096

/-! ## The fused output stage (R113 to R116) -/

/-- One produced element: its encoding and whether R116 bounded it. -/
structure OutElem where
  code : W64
  sat  : Bool

/-- The count of target ulps nearest `n * 2 ^ (e - u)`, up or down by the mode (R114): nearest even, or dithered with
the word `d`. -/
def roundUlps (n : Nat) (e u : Int) (rnd : Bool) (d : Nat) : Nat :=
  let sh : Int := u - e
  if sh ≤ 0 then shl n (-sh)
  else
    let k := sh.toNat
    let q := n >>> k
    let r := n % 2 ^ k
    let up : Bool :=
      if rnd then decide (2 ^ 32 ≤ (r * 2 ^ 32) / 2 ^ k + d)
      else decide (2 ^ k < 2 * r) || (decide (2 * r = 2 ^ k) && q % 2 == 1)
    if up then q + 1 else q

/-- round_to and encode for a floating-point target, of `± n * 2 ^ e` (R114, R116). -/
def roundFloat (l : FloatFmt) (s : Bool) (n : Nat) (e : Int) (rnd : Bool) (d : Nat) : OutElem :=
  if n = 0 then { code := 0, sat := false }
  else
    let top : Int := max ((Nat.log2 n : Int) + e) (fmtEmin l)
    let u : Int := top - l.p
    let q := roundUlps n e u rnd d
    let c := (top - fmtEmin l).toNat * 2 ^ l.p + q
    let sat := decide (l.maxCode < c)
    let c' := if sat then l.maxCode else c
    if c' = 0 then { code := 0, sat := false }
    else { code := BitVec.ofNat 64 (if s then 2 ^ (l.p + l.ebits) + c' else c'), sat := sat }

/-- round_to and encode for an integer target of ulp `2 ^ u` (R114, R116, R118): `w` bits, bounds `maxPos` and
`maxNeg` in ulps. -/
def roundInt (w : Nat) (u : Int) (maxPos maxNeg : Nat) (s : Bool) (n : Nat) (e : Int) (rnd : Bool) (d : Nat) : OutElem :=
  if n = 0 then { code := 0, sat := false }
  else
    let q := roundUlps n e u rnd d
    let mx := if s then maxNeg else maxPos
    let sat := decide (mx < q)
    let q' := if sat then mx else q
    { code := BitVec.ofNat 64 (if s then (2 ^ w - q') % 2 ^ w else q'), sat := sat }

/-- One element of a target that is no MX format, from a finite `y` (R114, R116); a zero is +0. The dither key is read
when `rnd` is set. -/
def outScalar (f : Nat) (rnd : Bool) (k : DitherKey) (y : F64) : OutElem :=
  let s := fpSign y
  let n := fpSig y
  let e := fpExp y
  let d := if rnd then dither32 k else 0
  match f with
  | 0 => { code := if fpIsZero y then 0 else y, sat := false }
  | 9 => roundInt 32 0 (2 ^ 31 - 1) (2 ^ 31) s n e rnd d
  | 10 =>
    if s && n != 0 then { code := 0, sat := true }
    else roundInt 32 0 (2 ^ 32 - 1) 0 s n e rnd d
  | _ => roundFloat (floatFmt f) s n e rnd d

/-- The exponent X of an MX block over its real lanes (R118), as the E8M0 code. -/
def mxScale (f : Nat) (ys : List F64) : Nat :=
  let amax := ys.foldl (fun m y => if m < fpMag y then fpMag y else m) 0
  if amax = 0 then 127
  else
    let a : F64 := BitVec.ofNat 64 amax
    let em : Int := match f with | 6 => 8 | 7 => 15 | _ => 0
    let x : Int := (Nat.log2 (fpSig a) : Int) + fpExp a - em
    (max (-127) (min 127 x) + 127).toNat

/-- One element of an MX block of scale code `sc` (R118). -/
def outMx (f : Nat) (rnd : Bool) (k : DitherKey) (sc : Nat) (y : F64) : OutElem :=
  let s := fpSign y
  let n := fpSig y
  let e := fpExp y - ((sc : Int) - 127)
  let d := if rnd then dither32 k else 0
  match f with
  | 8 => roundInt 8 (-6) 127 127 s n e rnd d
  | _ => roundFloat (floatFmt f) s n e rnd d

/-- Elements of one MX block and after. -/
def outMxLanes (f : Nat) (rnd : Bool) (key : Nat → DitherKey) (sc : Nat) : Nat → List F64 → List OutElem
  | _, [] => []
  | i, y :: r => outMx f rnd (key i) sc y :: outMxLanes f rnd key sc (i + 1) r

/-- Elements of a slab in a target that is no MX format. -/
def outLanes (f : Nat) (rnd : Bool) (key : Nat → DitherKey) : Nat → List F64 → List OutElem
  | _, [] => []
  | i, y :: r => outScalar f rnd (key i) y :: outLanes f rnd key (i + 1) r

/-- A converted slab: MX scale bytes by block (none otherwise), element encodings by lane, and how many elements R116
bounded. -/
structure OutSlab where
  scales : List Byte := []
  elems  : List W64 := []
  sats   : Nat := 0
  deriving DecidableEq, Repr

/-- Number of bounded elements. -/
def satCount (l : List OutElem) : Nat := (l.filter (·.sat)).length

/-- Blocks of 32 lanes from lane `i` on; `fuel` blocks. -/
def outMxBlocks (f : Nat) (rnd : Bool) (key : Nat → DitherKey) : Nat → Nat → List F64 → OutSlab
  | 0, _, _ => {}
  | fuel + 1, i, ys =>
    match ys with
    | [] => {}
    | _ =>
      let b := ys.take 32
      let sc := mxScale f b
      let es := outMxLanes f rnd key sc i b
      let rest := outMxBlocks f rnd key fuel (i + 32) (ys.drop 32)
      { scales := BitVec.ofNat 8 sc :: rest.scales
        elems := es.map (·.code) ++ rest.elems
        sats := satCount es + rest.sats }

/-- Convert the real lanes `ys` of a slab to the format selection `o` (R113 with the identity descriptor, R114 to
R118): the outbound site, the store-write site and reference emission share it. -/
def convertSlab (o : Byte) (key : Nat → DitherKey) (ys : List F64) : OutSlab :=
  let f := ofmtFmt o
  if fmtMx f then outMxBlocks f (ofmtRnd o) key 32 0 ys
  else
    let es := outLanes f (ofmtRnd o) key 0 ys
    { elems := es.map (·.code), sats := satCount es }

/-- Little-endian bytes of a word. -/
def leBytes : Nat → Nat → List Byte
  | 0, _ => []
  | k + 1, v => BitVec.ofNat 8 (v % 256) :: leBytes k (v / 256)

/-- The bytes of elements of `w` bytes each. -/
def elemBytes (w : Nat) (l : List W64) : List Byte := l.flatMap fun e => leBytes w e.toNat

/-- The element area of a converted slab (R90): scale bytes, then elements. -/
def slabBytes (o : Byte) (s : OutSlab) : List Byte := s.scales ++ elemBytes (fmtBytes (ofmtFmt o)) s.elems

end Sys2Proof.Machine
end

