-- ==== Sys2Proof/Machine/Operands.lean ====
section
/-!
DEFINITION. Sys2Proof/Machine/Operands.lean: the operands of arriving packets: their fields, the checks of R542, and what
a malformed packet does (R542, R743).
-/
namespace Sys2Proof.Machine

/-! ## Fields of the common word and of slab packets -/

/-- PTYPE of a packet. -/
def pktType (w : List W64) : Nat := field (wordAt w 0) 63 56
/-- JOB of a packet. -/
def pktJob (w : List W64) : Nat := field (wordAt w 0) 45 40
/-- PLEN of a packet. -/
def pktLen (w : List W64) : Nat := field (wordAt w 0) 15 0

/-- Is any of the given bit fields (high, low) of a word nonzero? -/
def rsvdSet (w : W64) (fs : List (Nat × Nat)) : Bool := fs.any fun f => field w f.1 f.2 != 0

/-- The common word's RSVD bits are zero and PLEN names the packet's words. -/
def commonOk (w : List W64) : Bool := !rsvdSet (wordAt w 0) [(55, 46), (39, 16)]

/-- Payload words of a slab of `n` lanes in a format (R541): padded to whole words. -/
def payloadWords (f n : Nat) : Nat := (fmtArea f n + 7) / 8

/-! ## Malformed packets (R542, R743) -/

/-- VC of a packet type (Table 15-10, chapters 18 and 20). -/
def typeVc (t : Nat) : Nat :=
  if t < 0x10 then 0 else if t < 0x20 then 1 else if t < 0x30 then 2 else if t < 0x40 then 3
  else if t < 0x50 then 4 else if t < 0x60 then 5 else if t < 0x70 then 6 else 7

/-- The first MALFORMED, FRAMING_ERR or CREDIT_VIOL on a port in a second raises PROTOCOL (R563). -/
def protocolTrap (d : Dev) (port : Nat) : Dev :=
  let p := getPort d port
  match p.protoAt with
  | some t => if t + 1000000 ≤ d.nowUs then go d else d
  | none => go d
where
  /-- Raise the trap and start the second. -/
  go (d : Dev) : Dev :=
    raiseTrap (updPort d port fun p => { p with protoAt := some d.nowUs }) { cause := 0x82, kind := 1, unit := port }

/-- A malformed packet is spoiled, counted and captured, and is not answered. -/
def malformed (d : Dev) (port vc reason : Nat) (words : List W64) : Dev :=
  let d1 := bump d ctrMalformed port
  let d2 := updPort d1 port fun p =>
    match p.capture with
    | some _ => p
    | none => { p with capture := some { vc := vc, reason := reason, timeUs := timeUs d, words := words.take 6 } }
  protocolTrap d2 port

/-! ## The buffers of a face die (R43, R534, R611) -/

/-- Do packets of a VC on a port of this role stand in the haul and hoist reply buffers? All others stand in ingest staging
(R534). -/
def inReplyBufs (role vc : Nat) : Bool := role == 2 && (vc == 2 || vc == 3 || vc == 4)

/-- Bytes of a packet. -/
def pktBytes (k : PktRx) : Nat := 8 * k.words.length

/-- The slab that a haul or hoist reply carries: VC and the words that name it, without format and tag. A face die holds a slab once,
whatever ports it goes to (Table 1-4). -/
def slabName (k : TxPacket) : List Nat :=
  let w2 := wordAt k.words 2
  [k.vc, k.queue, pktType k.words, (wordAt k.words 1).toNat, field w2 63 24, field w2 15 12]

/-- One packet of each slab. -/
def oncePerSlab (ks : List TxPacket) : List TxPacket :=
  ks.foldl (fun l k => if l.any fun h => slabName h == slabName k then l else l ++ [k]) []

/-- Haul and hoist replies that wait on the ports of a face die, without trunk envelopes. -/
def replyPackets (d : Dev) (die : Nat) : List TxPacket :=
  (rangeFrom (16 * die) 16).flatMap fun p =>
    let x := getPort d p
    (x.queue.filter fun k => k.vc == 2 || k.vc == 3).map fun k => if hasEnvelope x.role k.vc then { k with words := k.words.drop 1 } else k

/-- Bytes past the policer on a face die, in one of its two buffers, of the jobs `sel`: packets no step has taken yet, and in the
reply buffers also the haul and hoist replies that wait on the die's ports. -/
def stagedBytes (d : Dev) (die : Nat) (reply : Bool) (sel : Nat → Bool) : Nat :=
  let rx := (d.arrived.filter fun k => k.port / 16 == die && sel (pktJob k.words) &&
    inReplyBufs (getPort d k.port).role (typeVc (pktType k.words)) == reply).foldl (fun a k => a + pktBytes k) 0
  let tx := if reply then
      (oncePerSlab ((replyPackets d die).filter fun k => sel k.queue)).foldl (fun a k => a + 8 * k.words.length) 0
    else 0
  rx + tx

/-- Has a buffer of a face die room for `n` more bytes of a job: 3 MiB a job (R611), 6 MiB in all (Table 1-5)? -/
def bufferRoom (d : Dev) (die j : Nat) (reply : Bool) (n : Nat) : Bool :=
  decide (stagedBytes d die reply (fun i => i == j) + n ≤ 3 * 2 ^ 20) && decide (stagedBytes d die reply (fun _ => true) + n ≤ 6 * 2 ^ 20)

/-! ## Taking an arrived packet -/

/-- Ordinal of the job whose module has this fabric address. -/
def ordOfAddr (jb : Job) (a : Nat) : Option Nat :=
  go 0 jb.addrs
where
  /-- Search from ordinal `q`. -/
  go (q : Nat) : List (Option Nat) → Option Nat
    | [] => none
    | x :: r => if x = some a then some q else go (q + 1) r

/-- Is the packet one of the parity group, which names no job: LIVENESS of scope 2, or the END of a position's pushes (R624, R630)? -/
def groupPacket (w : List W64) : Bool :=
  (pktType w == 0x48 && field (wordAt w 2) 63 62 == 2) || (pktType w == 0x44 && flag (wordAt w 2) 3 && flag (wordAt w 4) 14)

/-- Is the packet a VC4 or VC6 packet of a job, other than CLAIM, that a withdrawn module sent over a trunk (R625)? The serial stays
withdrawn when another one has claimed its ordinal. -/
def fromWithdrawn (d : Dev) (k : PktRx) : Bool :=
  let t := pktType k.words
  (typeVc t == 4 || typeVc t == 6) && t != 0x4A && (getPort d k.port).role == 2 && !groupPacket k.words &&
  (match getJob d (pktJob k.words) with
   | none => false
   | some jb => jb.gone.any fun s => addrOf d s == some k.src)

/-- Remove a packet from those the link layer has delivered, if it stands there. -/
def takeArrived (d : Dev) (k : PktRx) : Dev := { d with arrived := d.arrived.erase k }

/-- Is the packet of a trunk one for another module (R540)? -/
def passesOn (d : Dev) (k : PktRx) : Bool :=
  hasEnvelope (getPort d k.port).role (typeVc (pktType k.words)) && k.dst != ownAddr d

/-- A packet for another address goes on with HOPS decremented, or is spoiled when HOPS would reach 0 (R540, R587). -/
def passOn (d : Dev) (k : PktRx) : Dev :=
  if k.hops ≤ 1 then bump d ctrRouteDrop 0
  else
    routeOrHold d (typeVc (pktType k.words)) (pktJob k.words) k.dst
      (mkWord [(k.dst, 48), (k.src, 32), (k.hops - 1, 24)] :: k.words)

/-- Does the face die spoil the packet: its port is UP but not in service, and the packet was not delivered while it was (R576)? -/
def spoilsAt (d : Dev) (k : PktRx) : Bool :=
  typeVc (pktType k.words) != 7 && (getPort d k.port).st == .up && !inService d k.port && !d.arrived.contains k

/-- What the arrival of a packet of type `t` needs: the port exists and the packet is of the type. -/
def arrivalOk (k : PktRx) (t : Nat) : Bool := decide (k.port < 288) && pktType k.words == t

/-- A meaning of an arrival row: a packet on a port out of service is spoiled (R576), one for another module goes on (R540);
`bad` gives a reason of R743 when the packet is malformed; a withdrawn module's packet is spoiled (R625); `f` acts on any other. -/
def onArrival (k : PktRx) (t : Nat) (bad : Dev → Option Nat) (f : Dev → Dev) (s : State) :
    Host.Outcome State Fault Refusal :=
  onUnit (arrivalOk k t) s fun d0 =>
    let d := takeArrived d0 k
    if spoilsAt d0 k then bump d ctrCableSpoil k.port
    else if commonOk k.words && passesOn d k then passOn d k
    else
    match (if commonOk k.words then bad d else some 2) with
    | some r => malformed d k.port (typeVc t) r k.words
    | none => if fromWithdrawn d k then bump d ctrWithdrawnSpoil (pktJob k.words) else f d

/-- A meaning of an arrival row that takes one kind of its packet type. -/
def onArrivalKind (k : PktRx) (t : Nat) (kindOk : Bool) (bad : Dev → Option Nat) (f : Dev → Dev) (s : State) :
    Host.Outcome State Fault Refusal :=
  if kindOk then onArrival k t bad f s else .fault .noSuchUnit

/-- The first reason whose test holds. -/
def firstBad : List (Bool × Nat) → Option Nat
  | [] => none
  | (b, r) :: l => if b then some r else firstBad l

/-- PLEN names exactly the packet's words, and these are `n`. -/
def lenBad (w : List W64) (n : Nat) : Bool := pktLen w != 8 * n || w.length != n

/-- A trunk packet must come on a trunk port, a member packet on a member port (Table 15-10). -/
def roleBad (d : Dev) (port role : Nat) : Bool := (getPort d port).role != role

end Sys2Proof.Machine
end

