-- ==== Sys2Proof/Machine/Store.lean ====
section
/-!
DEFINITION. Sys2Proof/Machine/Store.lean: the parameter store (chapter 8): regions and slabs, ownership and dealing, the
valid copy, staging, base writes and protected bytes.
-/
namespace Sys2Proof.Machine

/-! ## Regions (R254 to R260) -/

/-- Slabs of a region. -/
def nSlabs (r : Region) : Nat := (r.length + 1023) / 1024
/-- Real lanes of slab `k`. -/
def realLanes (r : Region) (k : Nat) : Nat := min 1024 (r.length - 1024 * k)
/-- Ordinal that owns slab `k` (R258). -/
def slabOwner (q : Nat) (r : Region) (k : Nat) : Nat := (k + r.deal) % q
/-- Local index of slab `k` on its owner. -/
def localIdx (q : Nat) (r : Region) (k : Nat) : Nat := (k + r.deal) / q
/-- Home update die of slab `k` of region number `rn` (R259). -/
def homeDie (q : Nat) (r : Region) (rn k : Nat) : Nat := (localIdx q r k + rn) % 4
/-- Does the module own slab `k`? -/
def ownsSlab (jb : Job) (r : Region) (k : Nat) : Bool := slabOwner jb.q r k == jb.ordinal
/-- Format bytes of the region's arrays, parameter first, then each enabled state (R256). -/
def arrayFmts (r : Region) : List Byte :=
  r.fmts.getD 0 0 :: ((List.range 3).filter fun i => (r.stateEn / 2 ^ i) % 2 == 1).map fun i => r.fmts.getD (i + 1) 0
/-- State numbers (1 to 3) of the region's arrays after the parameter array. -/
def stateNums (r : Region) : List Nat := ((List.range 3).filter fun i => (r.stateEn / 2 ^ i) % 2 == 1).map (· + 1)
/-- Array width W (R268). -/
def regionW (r : Region) : Nat := (arrayFmts r).foldl (fun a f => a + fmtBytes (ofmtFmt f)) 0
/-- Words of a slab's protected image (R617). -/
def imageLen (r : Region) : Nat := 128 * regionW r + 1
/-- Lowest local index of a region's owned slabs (R258). -/
def firstLocal (ord deal : Nat) : Nat := if deal ≤ ord then 0 else 1
/-- The slab of a local index, from `firstLocal` on. -/
def slabOfLocal (jb : Job) (r : Region) (l : Nat) : Nat := jb.q * l + jb.ordinal - r.deal
/-- A region of a job. -/
def getRegion (jb : Job) (rn : Nat) : Option Region := SMap.get? jb.regions rn

/-- Die number of update die `u` (Table 19-12). -/
def updDie (u : Nat) : Nat := 27 + u

/-! ## Slabs -/

/-- A slab as region creation leaves it (R270). -/
def freshSlab (r : Region) : Slab := { tag0 := r.tag, tag1 := mkTag false false true 0 }
/-- An owned slab. -/
def getSlab (r : Region) (k : Nat) : Slab := SMap.getD r.slabs k (freshSlab r)
/-- Write an owned slab. -/
def setSlab (d : Dev) (j rn k : Nat) (x : Slab) : Dev :=
  updJob d j fun jb => { jb with regions := SMap.upd jb.regions rn fun r => { r with slabs := SMap.set r.slabs k x } }
/-- Change an owned slab. -/
def updSlab (d : Dev) (j rn k : Nat) (f : Slab → Slab) : Dev :=
  updJob d j fun jb => { jb with regions := SMap.upd jb.regions rn fun r => { r with slabs := SMap.set r.slabs k (f (getSlab r k)) } }
/-- Tag word of a copy. -/
def slabTag (s : Slab) (c : Nat) : W64 := if c = 0 then s.tag0 else s.tag1
/-- Data of a copy. -/
def slabCopy (s : Slab) (c : Nat) : CopyData := if c = 0 then s.c0 else s.c1

/-- Is a copy visible (R272)? -/
def copyVisible (commit : W64) (t : W64) : Bool :=
  tagWritten t && (tagBase t || (hasCommit commit && decide (tagStep t ≤ commitStep commit)))

/-- The valid copy (R272). -/
def validCopy (commit : W64) (s : Slab) : Option Nat :=
  let v0 := copyVisible commit s.tag0
  let v1 := copyVisible commit s.tag1
  if v0 && v1 then
    if tagBase s.tag0 != tagBase s.tag1 then some (if tagBase s.tag0 then 1 else 0)
    else some (if tagStep s.tag1 < tagStep s.tag0 then 0 else 1)
  else if v0 then some 0
  else if v1 then some 1
  else none

/-- Element `i` of array `a` of a copy. -/
def copyElem (c : CopyData) (a i : Nat) : W64 := (c.arrays.getD a []).getD i 0
/-- Array `a` of a copy, its first `n` lanes. -/
def copyArray (c : CopyData) (a n : Nat) : List W64 := (List.range n).map (copyElem c a)

/-- The bytes of a copy's arrays in order, all 1,024 lanes (R268). -/
def copyBytes (r : Region) (c : CopyData) : List Byte :=
  go 0 (arrayFmts r)
where
  /-- Arrays from number `a` on. -/
  go (a : Nat) : List Byte → List Byte
    | [] => []
    | f :: l => elemBytes (fmtBytes (ofmtFmt f)) (copyArray c a 1024) ++ go (a + 1) l

/-- Protected bytes of a copy under a tag word: arrays, then the tag (R267, R346). -/
def imageWords (r : Region) (c : CopyData) (t : W64) : List W64 := bytesWords (copyBytes r c) ++ [t]

/-- Elements of `w` bytes from bytes; `n` of them. -/
def bytesElems (w : Nat) : Nat → List Byte → List W64
  | 0, _ => []
  | n + 1, bs => BitVec.ofNat 64 (bytesNat (bs.take w)) :: bytesElems w n (bs.drop w)

/-- A copy's arrays from the bytes of all its arrays. -/
def arraysOf (fmts : List Byte) (bs : List Byte) : List (List W64) :=
  match fmts with
  | [] => []
  | f :: l =>
    let w := fmtBytes (ofmtFmt f)
    bytesElems w 1024 bs :: arraysOf l (bs.drop (1024 * w))

/-- Write data and tag into copy `c` of a slab. -/
def putCopy (s : Slab) (c : Nat) (data : CopyData) (tag : W64) : Slab :=
  if c = 0 then { s with c0 := data, tag0 := tag } else { s with c1 := data, tag1 := tag }

/-- A base write (R274): data into the copy that is not valid, both tags together. -/
def baseWrite (commit : W64) (s : Slab) (data : CopyData) (fresh : Bool) (step : Nat) : Slab :=
  let c := match validCopy commit s with | some v => 1 - v | none => 0
  let s1 := putCopy s c data (mkTag true true fresh step)
  let s2 := if c = 0 then { s1 with tag1 := tagEmpty s1.tag1 } else { s1 with tag0 := tagEmpty s1.tag0 }
  { s2 with damaged := false }

/-- STEP_TAG a parameter load or creation gives (R270, R274): the commit point, or 0. -/
def baseTagStep (jb : Job) : Nat := if hasCommit jb.commit then commitStep jb.commit else 0

/-- A write of a few KB into an area whose places the spec leaves to the module: at most two of its stripes are written in part, and
whether the cache holds the rest of each is a free value (R265, log 95). -/
def looseWrite (d : Dev) (u n : Nat) : Dev :=
  if n = 0 then d
  else
    let (w, d1) := drawFree d
    bumpBy d1 ctrStripeRmw (updDie u) (w.toNat % (2 * n + 1))

/-- Does a context of the job's step in flight cover any slab of the region (R274, R292)? -/
def regionInFlight (jb : Job) (rn : Nat) : Bool := jb.inFlight && jb.buckets.any fun b => b.1 == rn

/-- Owned slabs of a region, ascending. -/
def ownedSlabs (jb : Job) (r : Region) : List Nat := (List.range (nSlabs r)).filter (ownsSlab jb r)

/-- Number of slabs of a region that an ordinal owns. -/
def ownedCount (q n deal ord : Nat) : Nat :=
  let first := (ord + q - deal % q) % q
  if n ≤ first then 0 else (n - first - 1) / q + 1

/-- DAMAGED_SLABS follows the slabs' DAMAGED flags. -/
def setDamaged (d : Dev) (j rn k : Nat) (v : Bool) : Dev :=
  match getJob d j with
  | none => d
  | some jb =>
    match getRegion jb rn with
    | none => d
    | some r =>
      if (getSlab r k).damaged == v then d
      else
        let d1 := updSlab d j rn k fun s => { s with damaged := v }
        let n := (getCtr d1 ctrDamagedSlabs j).toNat
        setCtr d1 ctrDamagedSlabs j (BitVec.ofNat 64 (if v then n + 1 else n - 1))

/-- Is the word of a region in a step's read-modify-write order (R256)? States read for an update: none when fresh. -/
def copyLane (r : Region) (c : CopyData) (a i : Nat) : F64 :=
  storedElem (ofmtFmt ((arrayFmts r).getD a 0)) (copyElem c a i)

end Sys2Proof.Machine
end

