-- ==== Sys2Proof/Machine/Record.lean ====
section
/-!
DEFINITION. Sys2Proof/Machine/Record.lean: the writing of the record stream (R668 to R674).
-/
namespace Sys2Proof.Machine

/-- Change a job's recording. -/
def updRec (d : Dev) (j : Nat) (f : Rec → Rec) : Dev := updJob d j fun jb => { jb with recd := jb.recd.map f }

/-- A record: its header and body (R669). -/
def recordWords (jb : Job) (j rtype rseq : Nat) (body : List W64) : List W64 :=
  [ mkWord [(rtype, 56), (j, 40), (8 * (body.length + 2), 0)], mkWord [(rseq % 2 ^ 32, 32), (jb.ordinal, 0)] ] ++ body

/-- Send stream words as REC_DATA packets of at most 8,192 bytes (Table 20-8); `fuel` packets. -/
def sendRecData (d : Dev) (j port off : Nat) (first : Bool) : Nat → List W64 → Dev
  | 0, _ => d
  | fuel + 1, ws =>
    match ws with
    | [] => d
    | _ =>
      let c := ws.take 1024
      let pk := mkPacket 0x50 j ([BitVec.ofNat 64 off, mkWord [(j, 32), (8 * c.length, 0)]] ++ c)
      let d1 := enqueue d port { queue := j, vc := 5, words := pk, track := .mirror j first }
      sendRecData d1 j port (off + 8 * c.length) false fuel (ws.drop 1024)

/-- Put one whole record into the stream. -/
def putRecord (d : Dev) (j : Nat) (r : Rec) (ws : List W64) : Dev :=
  let n := 8 * ws.length
  let d1 := bumpBy d ctrRecBytes j n
  if r.target = 0 then
    updRec d1 j fun r => { r with words := r.words ++ ws, off := r.off + n, rseq := r.rseq + 1 }
  else
    let d2 := sendRecData d1 j r.port r.off true 16 ws
    updRec d2 j fun r => { r with off := r.off + n, rseq := r.rseq + 1 }

/-- Can the target take a record of `n` bytes now (R671)? A mirror takes none while VC5 packets wait on its port for a credit
(R674). -/
def recRoom (d : Dev) (r : Rec) (n : Nat) : Bool :=
  if r.target = 0 then decide (8 * r.words.length + n ≤ r.size)
  else
    let x := getPort d r.port
    x.st == .up && (hasCredit x 5 || !x.queue.any fun k => k.vc == 5)

/-- Has the mirror port not been UP for 10 ms? -/
def recMirrorDown (d : Dev) (r : Rec) : Bool :=
  r.target != 0 && (getPort d r.port).st != .up && decide ((getPort d r.port).upAt + 10000 ≤ d.nowUs)

/-- Write a record of a recording. A full buffer, or a mirror down for 10 ms, drops it; a mirror down for less holds it, as
do records held before it (R671). A GAP record goes before the first record after a run of drops. -/
def recPut (d : Dev) (j : Nat) (jb : Job) (r : Rec) (rtype : Nat) (body : List W64) : Dev :=
  let n := 8 * (body.length + 2)
  let gap := if r.dropped = 0 then 0 else 24
  if r.heldQ.isEmpty && recRoom d r (n + gap) then
    let d1 := if r.dropped = 0 then d
      else
        let d1 := putRecord d j r (recordWords jb j 0x08 r.rseq [mkWord [(r.dropped % 2 ^ 32, 32)]])
        let d2 := if r.gapTrap then d1 else raiseTrap d1 { cause := 0xD2, job := some (j, stepShown jb, jb.attempt) }
        updRec d2 j fun r => { r with dropped := 0, gapTrap := true }
    let r1 := ((getJob d1 j).bind (·.recd)).getD r
    putRecord d1 j r1 (recordWords jb j rtype r1.rseq body)
  else if r.target = 0 || (recMirrorDown d r && r.heldQ.isEmpty) then
    updRec (bump d ctrRecDrop j) j fun r => { r with dropped := r.dropped + 1, drops := r.drops + 1 }
  else
    updRec d j fun r => { r with heldQ := r.heldQ ++ [BitVec.ofNat 64 rtype :: body], heldAt := some (r.heldAt.getD d.nowUs) }

/-- STEP and ATTEMPT in one word. -/
def stepWord (step attempt : Nat) : W64 := mkWord [(attempt % 256, 48), (step % 2 ^ 48, 0)]

/-- Write the STEP_BEGIN record of the attempt in progress, unless it stands in the stream already (R670). -/
def recBegin (d : Dev) (j : Nat) : Dev :=
  match getJob d j with
  | none => d
  | some jb =>
    match jb.recd with
    | none => d
    | some r =>
      if r.active && r.begun != some (jb.stepCur, jb.attempt) then
        updRec (recPut d j jb r 1 [stepWord jb.stepCur jb.attempt, jb.commit, d.fac.serial, jb.seed]) j
          fun r => { r with begun := some (jb.stepCur, jb.attempt) }
      else d

/-- Write a record of the attempt in progress for a job that is being recorded: STEP_BEGIN stands before it (R670). -/
def recWrite (d : Dev) (j rtype : Nat) (body : List W64) : Dev :=
  let d1 := recBegin d j
  match getJob d1 j with
  | none => d1
  | some jb =>
    match jb.recd with
    | none => d1
    | some r => if r.active then recPut d1 j jb r rtype body else d1

/-- Write the END record of a recording (R477). -/
def recEnd (d : Dev) (j : Nat) : Dev :=
  match getJob d j with
  | none => d
  | some jb =>
    match jb.recd with
    | none => d
    | some r => if r.active then recPut d j jb r 9 [] else d

/-- The time that records have been held is counted up to now (REC_HOLD_US); VC1 credits are withheld for an active recording
only. -/
def countHold (d : Dev) (j : Nat) : Dev :=
  match (getJob d j).bind (·.recd) with
  | some r =>
    match r.heldAt with
    | some t => if r.active then updRec (bumpBy d ctrRecHoldUs j (d.nowUs - t)) j fun r => { r with heldAt := some d.nowUs } else d
    | none => d
  | none => d

/-- No record is held for the mirror any more. A recording that has ended is gone. -/
def recUnhold (d : Dev) (j : Nat) (r : Rec) : Dev :=
  updJob (countHold d j) j fun jb => { jb with recd := if r.active then some { r with heldQ := [], heldAt := none } else none }

/-- Act on the job's oldest ended recording that still holds records, as on one in progress. -/
def onEnded (d : Dev) (j : Nat) (f : Dev → Nat → Dev) : Dev :=
  match getJob d j with
  | none => d
  | some jb =>
    match jb.recEnded with
    | [] => d
    | e :: rest =>
      let d1 := f (updJob d j fun jb => { jb with recd := some e }) j
      updJob d1 j fun x => { x with recd := jb.recd, recEnded := (match x.recd with | some r => [r] | none => []) ++ rest }

/-- Write the records held for a mirror that can take them again. -/
def recFlush (d : Dev) (j : Nat) : Dev :=
  match (getJob d j).bind (·.recd) with
  | none => d
  | some r =>
    if r.heldQ.isEmpty || !recRoom d r 0 then d
    else
      let d1 := updRec d j fun r => { r with heldQ := [] }
      let d2 := forEach r.heldQ d1 fun d' ws =>
        match getJob d' j with
        | some jb =>
          match jb.recd with
          | some r' => recPut d' j jb r' (wordAt ws 0).toNat (ws.drop 1)
          | none => d'
        | none => d'
      match (getJob d2 j).bind (·.recd) with
      | some r' => if r'.heldQ.isEmpty then recUnhold d2 j r' else d2
      | none => d2

/-- What ended recordings still hold for their mirrors goes out before what the one in progress holds. -/
def recFlushAll (d : Dev) (j : Nat) : Dev :=
  recFlush (match getJob d j with | some jb => forEach jb.recEnded d fun d' _ => onEnded d' j recFlush | none => d) j

end Sys2Proof.Machine
end

