-- ==== Sys2Proof/Machine/GraphOps.lean ====
section
/-!
DEFINITION. Sys2Proof/Machine/GraphOps.lean: the states of graph nodes (R493 to R504), their propagation, and sync objects'
operations and conditions (R505 to R507). What a node's start does is in Graphs.lean.
-/
namespace Sys2Proof.Machine

/-! ## Node records (Tables 14-1 and 14-2) -/

/-- TYPE. -/
def nodeType (n : Node) : Nat := field (wordAt n.words 0) 63 60
/-- ALWAYS. -/
def nodeAlways (n : Node) : Bool := flag (wordAt n.words 0) 59
/-- CTX of a node. -/
def nodeCtx (n : Node) : Nat := field (wordAt n.words 1) 13 0
/-- EPOCH of a node. -/
def nodeEpoch (n : Node) : Nat := field (wordAt n.words 1) 63 48
/-- SYNC of a node. -/
def nodeSync (n : Node) : Nat := field (wordAt n.words 1) 12 0
/-- OP or COND of a node. -/
def nodeOp (n : Node) : Nat := field (wordAt n.words 1) 63 56

/-- State code of Table 14-4. -/
def nodeCode (s : NodeSt) : Nat :=
  match s with
  | .unreleased => 0
  | .waiting => 1
  | .ready => 2
  | .blocked => 3
  | .running => 4
  | .done => 5
  | .failed => 6
  | .skipped => 7

/-- Has the node ended? -/
def nodeEnded (n : Node) : Bool := n.st == .done || n.st == .failed || n.st == .skipped
/-- Has the node begun (Table 14-4)? -/
def nodeBegun (n : Node) : Bool := n.st == .running || nodeEnded n
/-- Is the graph finished (R487)? -/
def graphFinished (g : Graph) : Bool := g.nodes.all fun e => nodeEnded e.2

/-! ## Sync objects (R505 to R507) -/

/-- TARGET of a barrier. -/
def barTarget (v : W64) : Nat := field v 31 16
/-- Is an operation defined for a kind (Table 14-8)? -/
def syncOpOk (k : SyncKind) (op : Nat) : Bool :=
  match k with
  | .counter => decide (op ≤ 5)
  | .barrier => op == 0 || op == 0x10 || op == 0x11
  | .seal_ => false

/-- Does the operand keep R506? -/
def syncOperandOk (op : Nat) (x : W64) : Bool :=
  match op with
  | 0x10 => field x 63 16 == 0 && field x 15 0 != 0
  | 0x11 => field x 63 16 == 0
  | _ => true

/-- The value after an operation (Table 14-8). -/
def syncApply (op : Nat) (v x : W64) : W64 :=
  match op with
  | 0x01 => v + x
  | 0x02 => x
  | 0x03 => if v.toNat < x.toNat then x else v
  | 0x04 => v ||| x
  | 0x05 => v &&& ~~~x
  | 0x10 =>
    let t := field v 15 0 + field x 15 0
    let g := (field v 63 32 + t / barTarget v) % 2 ^ 32
    mkWord [(g, 32), (barTarget v, 16), (t % barTarget v, 0)]
  | 0x11 =>
    let n := field x 15 0
    mkWord [(field v 63 32, 32), (if n = 0 then barTarget v else n, 16)]
  | _ => v

/-- Is a wait condition defined for a kind (Table 14-9)? -/
def syncCondOk (k : SyncKind) (c : Nat) : Bool :=
  match k with
  | .counter => decide (c ≤ 3)
  | .barrier => c == 0x10
  | .seal_ => false

/-- Does a wait condition hold (Table 14-9)? -/
def syncCond (c : Nat) (v x : W64) : Bool :=
  match c with
  | 0x00 => decide (x.toNat ≤ v.toNat)
  | 0x01 => v == x
  | 0x02 => v != x
  | 0x03 => (v &&& x) == x
  | _ => decide ((field v 63 32 + 2 ^ 32 - field x 31 0) % 2 ^ 32 < 2 ^ 31)

/-! ## Node ends and propagation -/

/-- A node of a job's graph. -/
def getNode (d : Dev) (j g i : Nat) : Option Node :=
  (getJob d j).bind fun jb => (SMap.get? jb.graphs g).bind fun gr => SMap.get? gr.nodes i
/-- Change a node. -/
def updNode (d : Dev) (j g i : Nat) (f : Node → Node) : Dev :=
  updJob d j fun jb => { jb with graphs := SMap.upd jb.graphs g fun gr => { gr with nodes := SMap.upd gr.nodes i f } }

/-- A marking event that a graph raised (R501): job, graph and REASON. -/
abbrev Mark := Nat × Nat

/-- The device and the marks collected so far. -/
structure Marked where
  dev   : Dev
  marks : List Mark := []

/-- Is the graph bound to the job's step and attempt in force? -/
def boundNow (jb : Job) (g : Graph) : Bool := g.released && g.step == jb.stepCur && g.attempt == jb.attempt

/-- Microseconds that the chosen nodes of a job have been in the state they are in. -/
def nodesUs (now : Nat) (jb : Job) (sel : Node → Bool) : Nat :=
  jb.graphs.foldl (fun a g => (g.2.nodes.filter fun n => sel n.2).foldl (fun a n => a + (now - n.2.since)) a) 0

/-- Time in READY_BLOCKED that is not in BLOCKED_US yet: each wait is added to the counter as it ends. -/
def blockedUs (now : Nat) (jb : Job) : Nat := nodesUs now jb fun n => n.st == .blocked
/-- Time that WAIT_SYNC nodes are READY and that is not in SYNC_WAIT_US yet. -/
def syncUs (now : Nat) (jb : Job) : Nat := nodesUs now jb fun n => n.st == .ready && nodeType n == 6

/-- The waits of every graph end here: they are counted. -/
def countWaits (d : Dev) : Dev :=
  forEach d.jobs d fun d' e =>
    bumpBy (bumpBy d' ctrBlockedUs e.1 (blockedUs d.nowUs e.2)) ctrSyncWaitUs e.1 (syncUs d.nowUs e.2)

/-- End a node: state, cause, counters (Table 14-15), and the mark of R501 for an OPEN node. -/
def endNode (m : Marked) (j g i : Nat) (st : NodeSt) (cause : Nat) : Marked :=
  match getJob m.dev j with
  | none => m
  | some jb =>
    match SMap.get? jb.graphs g with
    | none => m
    | some gr =>
      match SMap.get? gr.nodes i with
      | none => m
      | some n =>
        let w := m.dev.nowUs - n.since
        let d0 := if n.st == .blocked then bumpBy m.dev ctrBlockedUs j w
          else if n.st == .ready && nodeType n == 6 then bumpBy m.dev ctrSyncWaitUs j w else m.dev
        let d1 := updNode d0 j g i fun n => { n with st := st, cause := if st == .done then 0 else cause }
        let d2 :=
          match st with
          | .done => bump d1 ctrNodesDone j
          | .failed => if cause = 1 then bump d1 ctrNodeFail j else d1
          | .skipped => bump d1 ctrNodeSkip j
          | _ => d1
        let mark := nodeType n == 1 && st != .done && cause != 4 && boundNow jb gr
        { dev := d2, marks := if mark then m.marks ++ [(j, if cause = 1 then 0x70 else 0x71)] else m.marks }

/-- A node becomes READY (R494): it takes the next place in the order. -/
def readyNode (d : Dev) (j g i : Nat) : Dev :=
  let d1 := updNode d j g i fun n => { n with st := .ready, order := d.order, since := d.nowUs }
  { d1 with order := d.order + 1 }

/-- What a READY wait finds (R498, R507). -/
def testWait (d : Dev) (n : Node) : Option (NodeSt × Nat) :=
  if nodeType n = 2 then
    let c := getCtx d (nodeCtx n)
    if c.epoch != nodeEpoch n then some (.failed, 7)
    else if c.state == .done then some (if c.status = 0 then (.done, 0) else (.failed, 2))
    else none
  else if nodeType n = 6 then
    match SMap.get? d.syncs (nodeSync n) with
    | some o => if syncCond (nodeOp n) o.value (wordAt n.words 2) then some (.done, 0) else none
    | none => none
  else none

/-- Bring one node up to date with its predecessors and, when it waits, with what it waits for. -/
def settleNode (j g : Nat) (m : Marked) (i : Nat) : Marked :=
  match (getJob m.dev j).bind fun jb => SMap.get? jb.graphs g with
  | none => m
  | some gr =>
    match SMap.get? gr.nodes i with
    | none => m
    | some n =>
      let ps := n.preds.filterMap fun p => SMap.get? gr.nodes p
      let m1 : Marked :=
        if n.st == .waiting && ps.all nodeEnded then
          if nodeAlways n || ps.all (·.st == .done) then { m with dev := readyNode m.dev j g i }
          else endNode m j g i .skipped 3
        else m
      match getNode m1.dev j g i with
      | some n1 =>
        if n1.st == .ready then
          match testWait m1.dev n1 with
          | some (st, cause) => endNode m1 j g i st cause
          | none => m1
        else m1
      | none => m1

/-- Bring a graph up to date, node by node in index order; a canceled graph with no RUNNING node is freed (R504). -/
def settleGraph (j : Nat) (m : Marked) (g : Nat) : Marked :=
  match (getJob m.dev j).bind fun jb => SMap.get? jb.graphs g with
  | none => m
  | some gr =>
    let m1 := if gr.released then (SMap.keys gr.nodes).foldl (settleNode j g) m else m
    match (getJob m1.dev j).bind fun jb => SMap.get? jb.graphs g with
    | none => m1
    | some gr1 =>
      if gr1.cancelled && !(gr1.nodes.any fun e => e.2.st == .running) then
        { m1 with dev := updJob m1.dev j fun jb => { jb with graphs := SMap.del jb.graphs g } }
      else m1

/-- Bring every held graph up to date. -/
def settleAll (m : Marked) : Marked :=
  (SMap.keys m.dev.jobs).foldl
    (fun m j => match getJob m.dev j with | some jb => (SMap.keys jb.graphs).foldl (settleGraph j) m | none => m) m

/-- End each node of a job's graph that satisfies `p`. -/
def endNodesIf (j g : Nat) (p : Node → Bool) (st : NodeSt) (cause : Nat) (m : Marked) : Marked :=
  match (getJob m.dev j).bind fun jb => SMap.get? jb.graphs g with
  | none => m
  | some gr => ((gr.nodes.filter fun e => p e.2).map (·.1)).foldl (fun m i => endNode m j g i st cause) m

/-- The commit word of the bound step is written (R502, R499): its graphs know that it has sealed, running SEAL nodes are DONE,
OPEN nodes that have not begun are SKIPPED. -/
def graphsSealed (j step attempt : Nat) (d : Dev) : Marked :=
  match getJob d j with
  | none => { dev := d }
  | some jb =>
    let gs := (jb.graphs.filter fun e => e.2.released && e.2.step == step && e.2.attempt == attempt).map (·.1)
    settleAll (gs.foldl (fun m g =>
      endNodesIf j g (fun n => nodeType n == 1 && !nodeBegun n) .skipped 4
        (endNodesIf j g (fun n => nodeType n == 4 && n.st == .running) .done 0
          { m with dev := updJob m.dev j fun jb => { jb with graphs := SMap.upd jb.graphs g fun gr => { gr with sealed := true } } }))
      { dev := d })

/-- Step 1 of R350 for the graphs of the bound step (R503). Marks of the job itself mean nothing: its step is ending. -/
def graphsAborted (j step attempt : Nat) (d : Dev) : Marked :=
  match getJob d j with
  | none => { dev := d }
  | some jb =>
    let gs := (jb.graphs.filter fun e => e.2.released && e.2.step == step && e.2.attempt == attempt).map (·.1)
    settleAll (gs.foldl (fun m g =>
      endNodesIf j g (fun n => nodeType n == 4 && n.st == .running) .failed 5
        (endNodesIf j g (fun n => (nodeType n == 1 || nodeType n == 4) && !nodeBegun n || nodeType n == 2 && !nodeEnded n)
          .skipped 5 m)) { dev := d })

end Sys2Proof.Machine
end

