-- ==== Sys2Proof/Machine/Reply.lean ====
section
/-!
DEFINITION. Sys2Proof/Machine/Reply.lean: replies to commands (R392, R394, R396, R399, R404): the packet, the reply cache and
its buffers (R592), and the end of a command that waited.
-/
namespace Sys2Proof.Machine

/-! ## Opcodes (Table 13-1) -/

/-- Scopes (Table 12-4). -/
inductive Scope | module_ | job | readModule | readJob
  deriving DecidableEq, Repr

/-- Body length of an opcode: fixed, or segmented with the limit on TOTAL_LEN (R425). -/
inductive BodyLen | fixed (n : Nat) | seg (limit : Nat)
  deriving DecidableEq, Repr

/-- An opcode's scope, body length, and whether it is served before READY (R702). -/
structure OpRow where
  scope : Scope
  body  : BodyLen
  early : Bool := false
  deriving DecidableEq, Repr

/-- The opcode table. -/
def opRow (op : Nat) : Option OpRow :=
  match op with
  | 0x0001 => some { scope := .readModule, body := .fixed 0, early := true }
  | 0x0002 => some { scope := .module_, body := .fixed 40, early := true }
  | 0x0003 => some { scope := .module_, body := .seg 262144, early := true }
  | 0x0004 => some { scope := .module_, body := .fixed 8, early := true }
  | 0x0005 => some { scope := .readModule, body := .fixed 8, early := true }
  | 0x0006 => some { scope := .module_, body := .fixed 16, early := true }
  | 0x0007 => some { scope := .readJob, body := .fixed 8 }
  | 0x0008 => some { scope := .module_, body := .fixed 32, early := true }
  | 0x0010 => some { scope := .module_, body := .seg 4128 }
  | 0x0011 => some { scope := .module_, body := .fixed 8 }
  | 0x0012 => some { scope := .module_, body := .fixed 32 }
  | 0x0013 => some { scope := .job, body := .fixed 8 }
  | 0x0014 => some { scope := .readJob, body := .fixed 0 }
  | 0x0015 => some { scope := .job, body := .fixed 8 }
  | 0x0016 => some { scope := .job, body := .fixed 8 }
  | 0x0020 => some { scope := .job, body := .fixed 24 }
  | 0x0021 => some { scope := .job, body := .fixed 8 }
  | 0x0022 => some { scope := .job, body := .fixed 32 }
  | 0x0023 => some { scope := .job, body := .fixed 8 }
  | 0x0024 => some { scope := .job, body := .fixed 8 }
  | 0x0025 => some { scope := .job, body := .seg 33808 }
  | 0x0026 => some { scope := .job, body := .fixed 144 }
  | 0x0027 => some { scope := .job, body := .fixed 96 }
  | 0x0028 => some { scope := .readJob, body := .fixed 16 }
  | 0x0029 => some { scope := .job, body := .fixed 8 }
  | 0x0030 => some { scope := .job, body := .fixed 64 }
  | 0x0031 => some { scope := .job, body := .fixed 8 }
  | 0x0032 => some { scope := .readJob, body := .fixed 8 }
  | 0x0038 => some { scope := .job, body := .seg 1048584 }
  | 0x0039 => some { scope := .job, body := .fixed 8 }
  | 0x003A => some { scope := .job, body := .fixed 8 }
  | 0x003B => some { scope := .readJob, body := .fixed 8 }
  | 0x0040 => some { scope := .job, body := .fixed 16 }
  | 0x0041 => some { scope := .job, body := .fixed 8 }
  | 0x0042 => some { scope := .job, body := .fixed 16 }
  | 0x0048 => some { scope := .job, body := .fixed 8 }
  | 0x0049 => some { scope := .job, body := .fixed 8 }
  | 0x004A => some { scope := .job, body := .fixed 16 }
  | 0x0050 => some { scope := .job, body := .fixed 16 }
  | 0x0051 => some { scope := .job, body := .fixed 0 }
  | 0x0052 => some { scope := .job, body := .fixed 16 }
  | 0x0053 => some { scope := .readJob, body := .fixed 0 }
  | 0x0058 => some { scope := .module_, body := .fixed 72, early := true }
  | 0x0059 => some { scope := .job, body := .fixed 16 }
  | 0x005A => some { scope := .readModule, body := .fixed 0, early := true }
  | 0x0060 => some { scope := .job, body := .fixed 16 }
  | 0x0061 => some { scope := .job, body := .fixed 0 }
  | 0x0062 => some { scope := .job, body := .fixed 16 }
  | 0x0063 => some { scope := .job, body := .fixed 8 }
  | 0x0068 => some { scope := .module_, body := .seg 4616, early := true }
  | 0x0069 => some { scope := .module_, body := .fixed 0, early := true }
  | 0x006A => some { scope := .readModule, body := .fixed 8, early := true }
  | 0x0070 => some { scope := .readModule, body := .fixed 8, early := true }
  | 0x0071 => some { scope := .module_, body := .fixed 8, early := true }
  | 0x0078 => some { scope := .module_, body := .fixed 8, early := true }
  | _ => none

/-- Is the scope one of a job? -/
def scopeOfJob (s : Scope) : Bool := s == .job || s == .readJob

/-! ## Replies -/

/-- The requester that receives and caches for a source: a management MAC, or the face die of the port (Table 17-2). -/
def srcReq (s : CmdSrc) : Nat :=
  match s with
  | .mgmt port _ _ => 7 + port
  | .inband port => 16 + port / 16

/-- The words of a reply (Table 12-1), with PKT_CRC. -/
def replyWords (kind opcode hjob : Nat) (session seq tag : W32) (r : Reply) : List W64 :=
  let w0 := mkWord [(1, 56), (kind, 52), (opcode, 32), (hjob, 24), (8 * r.body.length, 0)]
  let w1 := mkWord [(session.toNat, 32), (seq.toNat, 0)]
  let w2 := mkWord [(tag.toNat % 65536, 48), (r.status.toNat, 32), (r.detail.toNat, 16)]
  let crc := crcWords ([w0, w1, w2, 0] ++ r.body)
  [w0, w1, w2, BitVec.ofNat 64 crc.toNat] ++ r.body

/-- Does a management port listen on an address of the sender's kind: its link is up, its clock runs (Table 22-8), and it has an
address in use, IPv4 for an IPv4-mapped sender address, link-local or static IPv6 for another (R394, R707)? -/
def listensOn (d : Dev) (port : Nat) (addr : BitVec 128) : Bool :=
  let k := 3 * port
  d.mgmt.linkUp.contains port && !d.clocks.lost.contains 38 &&
  (if isMapped addr then d.mgmt.inUse.contains k else d.mgmt.inUse.contains (k + 1) || d.mgmt.inUse.contains (k + 2))

/-- Send Ouvrov words to where a command came from: a datagram, or a VC0 packet (R394, R396). -/
def sendOuvrov (d : Dev) (src : CmdSrc) (hjob : Nat) (words : List W64) : Dev :=
  match src with
  | .mgmt port addr udp => if listensOn d port addr then output d (.reply port addr udp words) else d
  | .inband port => sendPort d port { queue := hjob, vc := 0, words := mkPacket 0x01 hjob words }

/-- Is the session the one of a waiting command? -/
def sessionOf (w : Waiting) (s : Session) : Bool :=
  s.inband == w.inband && s.job == w.job && s.who == w.who && s.session == w.session

/-- Change the session of a waiting command. -/
def updSession (d : Dev) (w : Waiting) (f : Session → Session) : Dev :=
  updMgmt d fun m => { m with sessions := m.sessions.map fun s => if sessionOf w s then f s else s }

/-- Count a final reply that is not ST_OK (Table 12-8): a command of module scope for the module, whatever its JOB field;
one of an undefined OPCODE, which has no scope, for its JOB below 64, else for the module (DESIGN CHOICE, log 30). -/
def countReject (d : Dev) (w : Waiting) (r : Reply) : Dev :=
  if r.status = 0 then d
  else
    let ofJob := match opRow w.opcode with | some r => scopeOfJob r.scope | none => true
    let d1 := if ofJob && decide (w.hjob < 64) then bump d ctrCmdRejectJob w.hjob else bump d ctrCmdReject 0
    if r.status = BitVec.ofNat 16 stAuth && !w.inband then bump d1 ctrAuthFail w.who else d1

/-- A buffer for the cached reply: pool 2 for a body of at most 64 bytes, else pool 3; without one the command is answered
ST_LIMIT (Table 17-1). -/
def cacheReply (d : Dev) (w : Waiting) (r : Reply) : Dev × Reply × Option Nat :=
  let req := srcReq w.src
  if r.body.length ≤ 8 then
    let (d1, h) := allocOp d 2 req none
    (d1, r, h)
  else
    match allocOp d 3 req (if w.hjob < 64 then some w.hjob else none) with
    | (d1, some h) => (d1, r, some h)
    | (d1, none) =>
      let (d2, h) := allocOp d1 2 req none
      (d2, { status := BitVec.ofNat 16 stLimit, detail := 0, body := [] }, h)

/-- Does the history of the command's session still hold its SEQ? -/
def inHistory (d : Dev) (w : Waiting) : Bool := d.mgmt.sessions.any fun s => sessionOf w s && SMap.has s.hist w.seq.toNat

/-- Keep the reply in the session's cache; outside the history window nothing is kept. -/
def keepReply (d : Dev) (w : Waiting) (r : Reply) (h : Option Nat) : Dev :=
  if inHistory d w then
    updSession d w fun s => { s with hist := SMap.upd s.hist w.seq.toNat fun e => { e with reply := some r, handle := h } }
  else poolReleaseOpt d h

/-- Free the buffers of a session: its cached replies and its staged load. -/
def freeSession (d : Dev) (s : Session) : Dev :=
  let d1 := forEach s.hist d fun d' h => poolReleaseOpt d' h.2.handle
  match s.staged with
  | some g => forEach g.buffers d1 poolRelease
  | none => d1

/-- Remove sessions with what they hold (R425). -/
def removeSessions (d : Dev) (p : Session → Bool) : Dev :=
  forEach (d.mgmt.sessions.filter p) (updMgmt d fun m => { m with sessions := m.sessions.filter fun s => !p s }) freeSession

/-- The session of a disabled principal goes when its last executing command has its reply (R411). -/
def endDying (d : Dev) (w : Waiting) : Dev :=
  removeSessions d fun s => s.dying && sessionOf w s && !d.mgmt.waiting.any fun v => sessionOf v s

/-- The final reply of a command: cached, counted, sent; its packet buffer is free. -/
def finalReply (d : Dev) (w : Waiting) (r0 : Reply) : Dev :=
  let (d1, r, h) := cacheReply d w r0
  let d2 := keepReply d1 w r h
  let d3 := updMgmt d2 fun m => { m with waiting := m.waiting.filter fun v => !(v.inband == w.inband && v.job == w.job &&
    v.who == w.who && v.session == w.session && v.seq == w.seq) }
  let d4 := endDying (poolReleaseOpt (countReject d3 w r) w.buffer) w
  if w.muted || d4.start.takeover.isSome then d4
  else sendOuvrov d4 w.src w.hjob (replyWords 2 w.opcode w.hjob w.session w.seq w.tag r)

/-- Reply without a body. -/
def plainReply (status detail : Nat) : Reply := { status := BitVec.ofNat 16 status, detail := BitVec.ofNat 16 detail, body := [] }

/-- Is a waiting command of the opcode and job? -/
def cmdOf (j op : Nat) (w : Waiting) : Bool := w.opcode == op && w.hjob == j

/-- A reply with a body. -/
def okReply (body : List W64) : Reply := { status := 0, detail := 0, body := body }

/-- Every waiting command that satisfies `p` ends with the reply. -/
def finishCmds (d : Dev) (p : Waiting → Bool) (r : Reply) : Dev :=
  forEach (d.mgmt.waiting.filter p) d fun d' w => finalReply d' w r

/-- The interim reply of a command in execution (R404). -/
def interimReply (d : Dev) (w : Waiting) : Dev :=
  if w.muted then d else sendOuvrov d w.src w.hjob (replyWords 3 w.opcode w.hjob w.session w.seq w.tag (plainReply stPending 0))

end Sys2Proof.Machine
end

