-- ==== Sys2Proof/Machine/SealOps.lean ====
section
/-!
DEFINITION. Sys2Proof/Machine/SealOps.lean: messages between the modules of a job (R344, R552), the end of a context (R188,
R350, R379), haul end notices (R307), and the marking of a step and the abort it leads to (R330, R336, R340, R349,
R350 steps 1 and 2). The rest of the seal exchange is in Seal.lean.
-/
namespace Sys2Proof.Machine

/-! ## Ordinals and messages -/

/-- Ordinals that serve the job. -/
def liveOrds (jb : Job) : List Nat := (List.range jb.q).filter fun q => !jb.withdrawn.contains q
/-- The coordinator (R333). -/
def coordinator (jb : Job) : Nat := (liveOrds jb).headD 0
/-- The next number above `a` in a list of numbers in rising order, wrapping. -/
def nextUp (a : Nat) (l : List Nat) : Option Nat :=
  match l.find? (a < ·) with
  | some q => some q
  | none => l.find? (· != a)
/-- A change of the live ordinals: where the watched ordinal is another one, its 50 ms begin now (R624). -/
def rewatch (now : Nat) (old jb : Job) : Job :=
  if nextUp jb.ordinal (liveOrds old) = nextUp jb.ordinal (liveOrds jb) then jb else { jb with liveRx := now }
/-- The other modules of the job that serve it. -/
def otherOrds (jb : Job) : List Nat := (liveOrds jb).filter (· != jb.ordinal)

/-- Send a message that is kept until it is acknowledged (R344, R552, R623); `key` finds it again. -/
def sendHeld (d : Dev) (j ptype vc dst : Nat) (key : List Nat) (words : List W64) : Dev :=
  let h : Held := { ptype := ptype, job := j, dst := dst, key := key, vc := vc, words := words, sentAt := d.nowUs, since := d.nowUs }
  sendOrd (updJob d j fun jb => { jb with held := jb.held ++ [h] }) j dst vc words

/-- Take the next MSG_ID of the job (R552). -/
def nextMsg (d : Dev) (j : Nat) : Nat × Dev :=
  match getJob d j with
  | none => (0, d)
  | some jb => (jb.msgId, updJob d j fun jb => { jb with msgId := (jb.msgId + 1) % 2 ^ 32 })

/-- Fields of a seal message beside its identity (Table 10-3). -/
structure SealFields where
  reason  : Nat := 0
  vote    : Nat := 0
  written : Nat := 0
  state   : Nat := 0
  first   : Nat := 0

/-- The words of a SEAL_MSG (Table 15-17). -/
def sealWords (j kind step attempt msg ord : Nat) (f : SealFields) : List W64 :=
  mkPacket 0x65 j
    [ mkWord [(kind, 60), (attempt % 256, 48), (step % 2 ^ 48, 0)]
    , mkWord [(msg, 32), (ord, 16), (f.reason, 8), (f.vote, 7), (f.written, 6), (f.state, 0)]
    , mkWord [(f.first, 0)] ]

/-- Send a seal message of a step and attempt to an ordinal. -/
def sendSealOf (d : Dev) (j kind dst step attempt : Nat) (f : SealFields) : Dev :=
  match getJob d j with
  | none => d
  | some jb =>
    let (m, d1) := nextMsg d j
    sendHeld d1 j 0x65 6 dst [m] (sealWords j kind step attempt m jb.ordinal f)

/-- Send a seal message of the current step and attempt. -/
def sendSeal (d : Dev) (j kind dst : Nat) (f : SealFields) : Dev :=
  match getJob d j with
  | none => d
  | some jb => sendSealOf d j kind dst jb.stepCur jb.attempt f

/-- Send CTX_FAIL or POISON to every other module of the job (R188, R381). -/
def sendNotice (d : Dev) (j ptype c epoch cause : Nat) : Dev :=
  match getJob d j with
  | none => d
  | some jb =>
    forEach (otherOrds jb) d fun d' q =>
      let (m, d1) := nextMsg d' j
      sendHeld d1 j ptype 6 q [m]
        (mkPacket ptype j [mkWord [(epoch, 48), (c, 32), (jb.ordinal, 16), (cause, 0)], mkWord [(m, 32)]])

/-! ## Haul end notices (R291, R307) -/

/-- The haul format index a member takes for a region, none when it is OFF. -/
def haulSub (m : Member) (rn : Nat) : Option Nat := SMap.getD m.subs rn (some 0)

/-- The index in force for the haul of a step: a change between steps governs from the next step on (R292). -/
def haulSubAt (m : Member) (rn step : Nat) : Option Nat :=
  match SMap.get? m.was rn with
  | some (s, o) => if step < s then o else haulSub m rn
  | none => haulSub m rn

/-- The region's haul format list in force for the haul of a step (R292). -/
def haulListAt (r : Region) (step : Nat) : List Byte :=
  match r.haulWas with
  | some (s, l) => if step < s then l else r.haul
  | none => r.haul

/-- Send the haul end notice of a context to a member, once. Delivered slabs are those the link layer has acknowledged;
every other slab written so far is missed. -/
def sendHaulEnd (d : Dev) (c m outcome : Nat) : Dev :=
  let x := getCtx d c
  match x.holder with
  | none => d
  | some j =>
    if x.haulEnded.contains m then d
    else
      let del := (SMap.getD x.haulDone m (0, 0)).1
      let ws := mkPacket 0x22 j
        [ mkWord [(x.epoch, 48), (ctxNum c, 32), (x.attempt, 24), (outcome, 0)], mkWord [(x.step % 2 ^ 48, 0)]
        , mkWord [(del, 32), (x.hauled.length - del, 0)] ]
      let d1 := updCtx d c fun x => { x with haulEnded := x.haulEnded ++ [m] }
      sendMember d1 j m 2 ws (.notice j m)

/-- Has a member's haul of a completed context not ended yet? -/
def haulAwaits (x : Ctx) (m : Nat) (mb : Member) : Bool := (haulSubAt mb x.p.region x.step).isSome && !x.haulEnded.contains m

/-- Haul end notices of a context to every member subscribed to its region. -/
def haulEndAll (d : Dev) (c outcome : Nat) : Dev :=
  let x := getCtx d c
  match x.holder.bind (getJob d) with
  | none => d
  | some jb =>
    forEach jb.members d fun d' e => if (haulSubAt e.2 x.p.region x.step).isSome then sendHaulEnd d' c e.1 outcome else d'

/-- Is the packet provisional haul of the context (R73)? -/
def haulOf (key : Nat) (k : TxPacket) : Bool :=
  match k.track with
  | .haul _ _ key' _ => key' == key
  | _ => false

/-- Drop the context's haul that has not started onto a link. -/
def dropHaul (d : Dev) (c : Nat) : Dev :=
  let key := ctxKey (ctxNum c) (getCtx d c).epoch
  { d with ports := SMap.mapV (fun _ p => { p with queue := p.queue.filter fun k => !haulOf key k }) d.ports }

/-- Drop the held messages of a job that satisfy `p`. -/
def dropHeld (d : Dev) (j : Nat) (p : Held → Bool) : Dev :=
  updJob d j fun jb => { jb with held := jb.held.filter fun h => !p h }

/-- The attempt's haul of the slabs `hit` (region, slab) that waits for trunks: queued and not started onto a link, held for a
route, or held for a resend (R73, R307, Table 9-8). -/
def dropTrunkHaul (d : Dev) (j step attempt : Nat) (hit : Nat → Nat → Bool) : Dev :=
  let mine (w : List W64) : Bool :=
    pktType w == 0x20 && pktJob w == j && field (wordAt w 1) 47 0 == step && field (wordAt w 2) 31 24 == attempt &&
    hit (field (wordAt w 1) 61 48) (field (wordAt w 2) 63 32)
  let own (w : List W64) : Bool := field (wordAt w 0) 47 32 == ownAddr d && mine (w.drop 1)
  let d1 := dropHeld d j fun h => h.ptype == 0x20 && h.key.getD 1 0 == step && h.key.getD 3 0 == attempt &&
    hit (h.key.getD 0 0) (h.key.getD 2 0)
  let d2 := { d1 with ports := SMap.mapV (fun _ p =>
    if p.role = 2 then { p with queue := p.queue.filter fun k => !own k.words } else p) d1.ports }
  { d2 with fabric := { d2.fabric with holds := d2.fabric.holds.filter fun h => !own h.words } }

/-! ## The end of a context -/

/-- Kept filling copies of a context (R154). -/
def keptCount (x : Ctx) : Nat :=
  x.slabs.foldl (fun a e => a + (e.2.slots.filter fun s => s.2.kept.isSome).length) 0

/-- Entries of a context in the overflow area. -/
def spilledCount (x : Ctx) : Nat := x.spilled.foldl (fun a e => a + e.2.length) 0

/-- Samples of a context that wait for a checking seam. -/
def pendingSamples (x : Ctx) : Nat := (x.slabs.filter fun e => match e.2.sample with | .pending _ => true | _ => false).length

/-- Free everything the seams hold for a context (R188 item 4, R387 step 2): kept copies end their period unverified
(R666). A sample that still waits for its comparison is abandoned and counted in SAMPLE_SKIP (DESIGN CHOICE, log 84: the spec
says so for a retired checking seam only), but one of a slab with a residue mismatch, which Table 5-3 settles. -/
def freeEntries (d : Dev) (c : Nat) : Dev :=
  let x := getCtx d c
  let d1 := bumpBy d ctrFillUnverified c (keptCount x)
  let d2 := bumpBy d1 ctrSampleSkip 0 (pendingSamples { x with slabs := x.slabs.filter fun e => !SMap.has x.resid e.1 })
  let d3 := match x.holder with
    | some j => updJob d2 j fun jb => { jb with ovfHeld := jb.ovfHeld - spilledCount x }
    | none => d2
  updCtx d3 c fun x => { x with slabs := [], spilled := [] }

/-- Are slabs of a failed context still on their way: being written here, or hauled by other modules of its step? They are never
hauled further (R307). -/
def failAwaits (jb : Job) (x : Ctx) : Bool := x.status != 0 && jb.inFlight && x.step == jb.stepCur && x.attempt == jb.attempt

/-- A completed context is released or opened again: what its update and its haul still need of it stays (R68, R307), and for a
failed one that its slabs are not hauled. -/
def leaveCtx (d : Dev) (c : Nat) : Dev :=
  let x := getCtx d c
  match x.holder.bind (getJob d) with
  | none => d
  | some jb =>
    if x.state == .done && (failAwaits jb x || x.status == 0 &&
        ((jb.inFlight && x.step == jb.stepCur && x.attempt == jb.attempt) || jb.members.any fun e => haulAwaits x e.1 e.2)) then
      { d with left := SMap.set d.left (ctxKey c x.epoch)
                 { x with slabs := SMap.mapV (fun _ s => { done := true, acrc := s.acrc }) x.slabs, spilled := [], drain := .none } }
    else d

/-- The uses left behind whose step is over and whose haul has ended go. -/
def tidyLeft (d : Dev) : Dev :=
  { d with left := SMap.keep (fun _ x =>
      match x.holder.bind (getJob d) with
      | none => false
      | some jb =>
        (jb.inFlight && x.step == jb.stepCur && x.attempt == jb.attempt) || x.status == 0 && jb.members.any fun e => haulAwaits x e.1 e.2) d.left }

/-- An open context ends with a failing status (R188, R350, R379): it is DONE, hands on nothing more, its entries are
free and its haul that has not started is dropped (R307). -/
def endCtx (d : Dev) (c status : Nat) : Dev :=
  let x := getCtx d c
  let d1 := freeEntries d c
  let d2 := dropHaul (updCtx d1 c fun x => { x with state := .done, status := BitVec.ofNat 16 status }) c
  match x.holder with
  | some j => dropTrunkHaul d2 j x.step x.attempt fun rn k => rn == x.p.region && decide (x.p.first ≤ k) && decide (k < x.p.first + x.p.nslab)
  | none => d2

/-! ## Marks and aborts -/

/-- A slab without its kept copies and without a sample that waits. -/
def SlabRed.dropHeld (s : SlabRed) : SlabRed :=
  { s with slots := SMap.mapV (fun _ t => { t with kept := none }) s.slots
           sample := match s.sample with | .pending _ => .skipped | q => q }

/-- A complete context's kept copies, overflow entries and pending samples go; what its slabs have come to stays. -/
def dropHeldValues (d : Dev) (c : Nat) : Dev :=
  let x := getCtx d c
  updCtx (freeEntries d c) c fun y => { y with slabs := SMap.mapV (fun _ s => s.dropHeld) x.slabs }

/-- R350 step 1 for one context of the step: an open one ends with ST_ABORTED, a draining one when it has opened; a complete
one loses what its seams still hold (Table 5-3). -/
def abortCtx (d : Dev) (j step attempt c : Nat) : Dev :=
  let x := getCtx d c
  if x.holder != some j then d
  else if x.state == .opened && x.step == step && x.attempt == attempt then endCtx d c stAborted
  else if x.state == .done && x.step == step && x.attempt == attempt then dropHeldValues d c
  else if x.state == .draining && x.drain == .open_ then updCtx d c fun x => { x with abortAtOpen := true }
  else d

/-- A canceled graph whose RUNNING nodes have ended is freed: its GRAPH_CANCEL is answered (R462). -/
def cancelSettle (d : Dev) : Dev :=
  finishCmds d (fun w => w.opcode == 0x3A && !(match getJob d w.hjob with | some jb => SMap.has jb.graphs w.object | none => false))
    (plainReply stOk 0)

/-- R350 steps 1 and 2: the module enters ABORTING. The scan of step 3 is the event ABORT_SCAN_COMPLETE. The marks are those
that nodes of other jobs' graphs raise when they learn of it (R501). -/
def abortMarks (d : Dev) (j : Nat) : Marked :=
  match getJob d j with
  | none => { dev := d }
  | some jb =>
    if jb.sealSt.state == .aborting then { dev := d }
    else
      let d1 := updJob d j fun jb =>
        { jb with updStop := true, sealSt := { jb.sealSt with state := .aborting, scanDone := false, dropWait := [] } }
      let m2 := graphsAborted j jb.stepCur jb.attempt d1
      let cs := SMap.keys m2.dev.ctxs
      let d3 := forEach cs m2.dev fun d' c => abortCtx d' j jb.stepCur jb.attempt c
      let d4 := forEach (SMap.keys d3.left ++ cs) d3 fun d' c =>
        let x := getCtx d' c
        if x.holder == some j && x.step == jb.stepCur && x.attempt == jb.attempt then dropHaul d' c else d'
      settleAll { m2 with dev := dropTrunkHaul d4 j jb.stepCur jb.attempt fun _ _ => true }

/-- The coordinator decides ABORT (R340, R350), once. A new coordinator decides on the SEAL_STATE replies (R345), so that no cause
of abort decides before they are in. -/
def decideMarks (d : Dev) (j reason first : Nat) : Marked :=
  match getJob d j with
  | none => { dev := d }
  | some jb =>
    if jb.sealSt.decision != .none || !jb.sealSt.queryWait.isEmpty then { dev := d }
    else
      let d1 := updJob d j fun jb =>
        { jb with sealSt := { jb.sealSt with decision := .abort, reason := reason, first := some first
                                             aborts := jb.sealSt.aborts ++ [{ step := jb.stepCur, attempt := jb.attempt }] } }
      let d2 := forEach (otherOrds jb) d1 fun d' q => sendSeal d' j 7 q { reason := reason, first := first }
      abortMarks d2 j

/-- The step is unable to seal on this module (R330, R336, R337). A module that stopped serving the job casts no vote
(R626). -/
def markStep (d : Dev) (j reason : Nat) : Marked :=
  match getJob d j with
  | none => { dev := d }
  | some jb =>
    if jb.stopped then { dev := d } else
    match jb.sealSt.state with
    | .opened =>
      let d1 := updJob d j fun jb => { jb with sealSt := { jb.sealSt with state := .marked, reason := reason } }
      if coordinator jb = jb.ordinal then decideMarks d1 j reason jb.ordinal
      else { dev := sendSeal d1 j 2 (coordinator jb) { reason := reason } }
    | .prepared => { dev := bump d ctrLateMark j }
    | _ => { dev := d }

/-- Marking a job's step may abort it, which may mark another job's step, and so on: `fuel` jobs deep. -/
def markDeep : Nat → Dev → Nat → Nat → Dev
  | 0, d, _, _ => d
  | fuel + 1, d, j, reason =>
    let m := markStep d j reason
    m.marks.foldl (fun d e => markDeep fuel d e.1 e.2) m.dev

/-- Mark a job's step; a module has 64 jobs, and each is marked once. -/
def markJob (d : Dev) (j reason : Nat) : Dev := cancelSettle (markDeep 65 d j reason)

/-- Act on the marks that graphs raised. -/
def applyMarks (m : Marked) : Dev := forEach m.marks m.dev fun d e => markJob d e.1 e.2

/-- The module enters ABORTING, with what that marks. -/
def beginAbort (d : Dev) (j : Nat) : Dev := cancelSettle (applyMarks (abortMarks d j))

/-- The coordinator decides ABORT, with what that marks. -/
def decideAbort (d : Dev) (j reason first : Nat) : Dev := cancelSettle (applyMarks (decideMarks d j reason first))

/-- Ask the coordinator to abort (R349, R353): by ABORT_REQ, or by its own decision. -/
def requestAbort (d : Dev) (j reason : Nat) : Dev :=
  match getJob d j with
  | none => d
  | some jb =>
    if coordinator jb = jb.ordinal then decideAbort d j reason jb.ordinal
    else sendSeal d j 3 (coordinator jb) { reason := reason }

/-- Bring the graphs up to date after a change of a context or a sync object. -/
def settle (d : Dev) : Dev := cancelSettle (applyMarks (settleAll { dev := d }))

/-- Job, step and attempt of a trap. -/
def jobInfo (d : Dev) (j : Nat) : Option (Nat × Nat × Nat) :=
  (getJob d j).map fun jb => (j, stepShown jb, jb.attempt)

/-- A context ends failed or poisoned on this module: status, mark, haul end notices (R188, R379). `notice` is the packet
type sent to the other modules, none for an end that came from one. -/
def failCtx (d : Dev) (c status cause : Nat) (notice : Option Nat) : Dev :=
  let x := getCtx d c
  match x.holder with
  | none => d
  | some j =>
    let d1 := updCtx (endCtx d c status) c fun x => { x with endCause := cause }
    let d2 := match notice with
      | some t => sendNotice d1 j t c x.epoch cause
      | none => d1
    settle (markJob (haulEndAll d2 c 1) j cause)

/-- A context that a unit fault ends (R196 step 2, Table 8-13). -/
def unitFailCtx (d : Dev) (c cause : Nat) : Dev := failCtx d c stUnitFail cause (some 0x63)

end Sys2Proof.Machine
end

