-- ==== Sys2Proof/Machine/HaulOps.lean ====
section
/-!
DEFINITION. Sys2Proof/Machine/HaulOps.lean: the outbound conversion of a stored copy (R112), slab data packets (R545), and
provisional haul: the haul tree, sends to members and over trunks, and what each member has received (R290 to R307).
-/
namespace Sys2Proof.Machine

/-! ## Slab packets (R90, R112, R303, R545) -/

/-- The dither key of the outbound site (Table 3-9). -/
def outKey (jb : Job) (rn k step lane : Nat) : DitherKey :=
  { seed := jb.seed, step := step, stream := regionKey 4 rn, slab := k, elem := lane }

/-- The parameter array of a copy converted to a format: payload words and how many elements saturated. -/
def outPayload (jb : Job) (r : Region) (rn k step : Nat) (ofmt : Byte) (c : CopyData) : List W64 × Nat :=
  let ys := (List.range (realLanes r k)).map (copyLane r c 0)
  let s := convertSlab ofmt (outKey jb rn k step) ys
  (bytesWords (slabBytes ofmt s), s.sats)

/-- What a slab packet says beside its payload (Table 15-13). -/
structure SlabHead where
  region  : Nat
  step    : Nat
  slab    : Nat
  attempt : Nat
  ofmt    : Byte
  prov    : Bool
  base    : Bool
  hfi     : Nat
  tag     : Nat
  lanes   : Nat

/-- Words 0x08 to 0x18 of a slab packet. -/
def slabHead (h : SlabHead) : List W64 :=
  [ mkWord [(h.region, 48), (h.step % 2 ^ 48, 0)]
  , mkWord [(h.slab, 32), (h.attempt % 256, 24), (h.ofmt.toNat, 16), (bit h.prov, 15), (bit h.base, 14), (1, 13), (h.hfi, 10)]
  , mkWord [(h.tag, 48), (h.lanes, 16), (h.lanes, 0)] ]

/-- Count saturated elements that leave on a port (R116). -/
def countSat (d : Dev) (port sats : Nat) : Dev := if sats = 0 then d else bumpBy d ctrConvSat port sats

/-- The trunk port a packet to an address would take now; with no live route, where the packet waits for one, the lowest trunk
position, so that CONV_SAT loses no count (DESIGN CHOICE, log 89). -/
def trunkFor (d : Dev) (j dst : Nat) (words : List W64) : Nat :=
  match routeChoice d dst false [0, 1, 2] with
  | none => 256
  | some (axis, plus, _) => ((pickTrunk d j axis plus (routeHash words)).map (·.1)).getD 256

/-- Index of a member's counters (Table 23-5). -/
def memberIdx (j m : Nat) : Nat := 4096 * j + m

/-! ## The haul tree (R297) -/

/-- Skip withdrawn ancestors; `fuel` steps: a job's Q, which no chain of ancestors exceeds. -/
def liveAncestor (jb : Job) (o : Nat) : Nat → Nat → Nat
  | 0, pr => pr
  | fuel + 1, pr =>
    if pr != 0 && jb.withdrawn.contains ((pr + o) % jb.q) then liveAncestor jb o fuel ((pr - 1) / jb.fanout) else pr

/-- The haul parent of ordinal `q` for slabs of owner `o`; none for the owner. -/
def haulParent (jb : Job) (o q : Nat) : Option Nat :=
  let r := (q + jb.q - o) % jb.q
  if r = 0 then none else some ((liveAncestor jb o jb.q ((r - 1) / jb.fanout) + o) % jb.q)

/-- The modules this module sends a slab of owner `o` on to. -/
def haulChildren (jb : Job) (o : Nat) : List Nat :=
  (otherOrds jb).filter fun q => haulParent jb o q == some jb.ordinal

/-! ## What members have received (R306, R307) -/

/-- The context of the job's step and attempt that covers a slab. -/
def ctxOfSlab (d : Dev) (j rn k step attempt : Nat) : Option Nat :=
  ((d.left ++ d.ctxs).find? fun e =>
    e.2.holder == some j && e.2.p.region == rn && decide (e.2.p.first ≤ k) && decide (k < e.2.p.first + e.2.p.nslab) &&
    e.2.step == step && e.2.attempt == attempt && (e.2.state == .opened || e.2.state == .done)).map (·.1)

/-- A haul slab of a context is delivered to a member, or missed. -/
def accountHaul (d : Dev) (c m : Nat) (delivered : Bool) : Dev :=
  updCtx d c fun x =>
    let (a, b) := SMap.getD x.haulDone m (0, 0)
    { x with haulDone := SMap.set x.haulDone m (if delivered then (a + 1, b) else (a, b + 1)) }

/-- A haul slab is dropped for a member (R306). -/
def dropFor (d : Dev) (j m : Nat) (c : Option Nat) : Dev :=
  let d1 := bump d ctrHaulDrop (memberIdx j m)
  match c with
  | some c => accountHaul d1 c m false
  | none => d1

/-- Name of the use of a context; 0 for none. -/
def useKey (d : Dev) (c : Option Nat) : Nat := match c with | some c => ctxKey (ctxNum c) (getCtx d c).epoch | none => 0

/-- Send a haul slab to a member's downstream home: the face die keeps it until it is delivered or dropped, and while the
link is not up it waits there (R306). -/
def haulToMember (d : Dev) (j m : Nat) (c : Option Nat) (words : List W64) (sats : Nat) : Dev :=
  match (getJob d j).bind fun jb => SMap.get? jb.members m with
  | none => d
  | some mb =>
    let p := homeOf d mb
    countSat (enqueue d p { queue := j, vc := 2, words := words, track := .haul j m (useKey d c) d.nowUs }) p sats

/-- Send a haul slab to a child, kept until it is acknowledged (R299, R546). -/
def haulToChild (d : Dev) (j q : Nat) (h : SlabHead) (words : List W64) (sats : Nat) : Dev :=
  let d1 := sendHeld d j 0x20 2 q [h.region, h.step, h.slab, h.attempt, h.hfi] words
  match (getJob d j).bind fun jb => jb.addrs.getD q none with
  | some a => countSat d1 (trunkFor d j a words) sats
  | none => countSat d1 256 sats

/-- Has the context that covers a slab ended with a failing status here? Its slabs are never hauled (R307). -/
def ctxFailed (d : Dev) (c : Option Nat) : Bool :=
  match c with
  | some c => (getCtx d c).state == .done && (getCtx d c).status != 0
  | none => false

/-- A slab leaves for haul in every format its destinations need (R294 to R296): `h` gives the packet of a haul index,
`toTrunk` the indices that go to children, `use` whether members take the index as the packet has it. -/
def haulOut (d : Dev) (j rn k owner step attempt : Nat) (h : Nat → Option (SlabHead × List W64 × Nat)) (use : Nat → Bool)
    (toTrunk : List Nat) : Dev :=
  match getJob d j with
  | none => d
  | some jb =>
    let c := ctxOfSlab d j rn k step attempt
    if ctxFailed d c then d else
    let d1 := match c with
      | some c => updCtx d c fun x => { x with hauled := insNat (k - x.p.first) x.hauled }
      | none => d
    let d2 := forEach jb.members d1 fun d' e =>
      match ((haulSubAt e.2 rn step).filter use).bind h with
      | some (hd, pl, s) => haulToMember d' j e.1 c (mkPacket 0x20 j (slabHead hd ++ pl)) s
      | none => d'
    forEach (haulChildren jb owner) d2 fun d' q =>
      forEach toTrunk d' fun d'' i =>
        match h i with
        | some (hd, pl, s) => haulToChild d'' j q hd (mkPacket 0x20 j (slabHead hd ++ pl)) s
        | none => d''

/-- The owner sends the new copy of a step to haul (R294, R295). -/
def haulStart (d : Dev) (j rn k step attempt : Nat) (c : CopyData) : Dev :=
  match getJob d j with
  | none => d
  | some jb =>
    match getRegion jb rn with
    | none => d
    | some r =>
      let h (i : Nat) : Option (SlabHead × List W64 × Nat) :=
        match (haulListAt r step)[i]? with
        | none => none
        | some o =>
          let (pl, s) := outPayload jb r rn k step o c
          some ({ region := rn, step := step, slab := k, attempt := attempt, ofmt := o, prov := true, base := false, hfi := i
                  tag := 0, lanes := realLanes r k }, pl, s)
      haulOut d j rn k jb.ordinal step attempt h (fun _ => true) (List.range (haulListAt r step).length)

/-! ## The end of a context's haul (R307) -/

/-- Is the haul of every slab of a context delivered or dropped for a member? -/
def haulAccounted (x : Ctx) (m : Nat) : Bool :=
  let (a, b) := SMap.getD x.haulDone m (0, 0)
  x.state == .done && x.status == 0 && decide (a + b = x.p.nslab)

/-- Send HAUL_END with OUTCOME 0 when it is due. -/
def haulEndDue (d : Dev) (c m : Nat) : Dev :=
  let x := getCtx d c
  match x.holder.bind fun j => (getJob d j).bind fun jb => SMap.get? jb.members m with
  | none => d
  | some mb => if haulAccounted x m && (haulSubAt mb x.p.region x.step).isSome then sendHaulEnd d c m 0 else d

/-- The uses of a context that were left behind. -/
def leftOf (d : Dev) (c : Nat) : List Nat := (SMap.keys d.left).filter fun h => ctxNum h == c

/-- HAUL_END falls due for a member of a context's job. -/
def execHaulEnd (ctx member : Nat) (s : State) : Host.Outcome State Fault Refusal :=
  onUnit (decide (ctx < 16384) && decide (member < 4096)) s fun d =>
    tidyLeft (haulEndDue (forEach (leftOf d ctx) d fun d' h => haulEndDue d' h member) ctx member)

/-! ## HAUL_DROP (R306) -/

/-- The HAUL_DROP_US of a haul packet's job has passed since it was queued. -/
def haulOverdue (d : Dev) (k : TxPacket) : Bool :=
  match k.track with
  | .haul j _ _ at_ => match getJob d j with | some jb => decide (at_ + jb.haulDrop ≤ d.nowUs) | none => true
  | _ => false

/-- Is a packet haul to a member? -/
def isHaul (k : TxPacket) : Bool := match k.track with | .haul .. => true | _ => false

/-- Count a dropped haul packet. -/
def dropHaulPkt (d : Dev) (k : TxPacket) : Dev :=
  match k.track with
  | .haul j m key _ => dropFor d j m (ctxOfKey d key)
  | _ => d

/-- A member port's oldest undelivered haul slab has waited HAUL_DROP_US: every undelivered haul slab of the port is dropped. On a port
that members of several jobs share, a slab overdue by its own job's limit drops the hauls of every job (DESIGN CHOICE, log 110). -/
def execHaulDrop (port : Nat) (s : State) : Host.Outcome State Fault Refusal :=
  onUnit (decide (port < 288)) s fun d =>
    let p := getPort d port
    if (unacked p).any (haulOverdue d) then
      forEach ((unacked p).filter isHaul) (stallTick (updPort d port (dropUnacked isHaul)) port) dropHaulPkt
    else d

/-! ## HAUL_DATA, HAUL_ACK, HAUL_RESEND (R296 to R300, R546) -/

/-- What makes a slab data packet malformed, beside its direction and the fields one kind fixes. -/
def slabPktBad (w : List W64) : List (Bool × Nat) :=
  let f := field (wordAt w 2) 23 16
  let n := field (wordAt w 3) 10 0
  [ (rsvdSet (wordAt w 1) [(63, 62)] || rsvdSet (wordAt w 2) [(12, 12), (9, 0)] ||
      rsvdSet (wordAt w 3) [(47, 42), (31, 27), (15, 11)], 2)
  , (!ofmtHaulOk (BitVec.ofNat 8 f), 4)
  , (lenBad w (4 + payloadWords (f % 16) n), 3)
  , (n == 0 || decide (1024 < n) || field (wordAt w 3) 26 16 != n || field (wordAt w 3) 41 32 != 0 || !flag (wordAt w 2) 13, 5) ]

/-- HAUL_DATA: it is haul, so provisional, of a step copy, without a tag. -/
def haulBad (k : PktRx) (d : Dev) : Option Nat :=
  let w := k.words
  firstBad ((roleBad d k.port 2, 1) :: slabPktBad w ++
    [(!flag (wordAt w 2) 15 || flag (wordAt w 2) 14 || field (wordAt w 3) 63 48 != 0, 5)])

/-- Has the module left the attempt a haul slab names, or is it aborting it (R73, R358)? -/
def haulDead (jb : Job) (step attempt : Nat) : Bool :=
  step == jb.stepCur && (if attempt = jb.attempt then jb.sealSt.state == .aborting
    else decide ((jb.attempt + 256 - attempt) % 256 < 128))

/-- A haul slab arrives over a trunk: acknowledged, spoiled when it is a duplicate, else replicated as it is. -/
def haulIn (d : Dev) (k : PktRx) : Dev :=
  let w := k.words
  let j := pktJob w
  let w1 := wordAt w 1
  let w2 := wordAt w 2
  match getJob d j with
  | none => d
  | some jb =>
    let hd : SlabHead :=
      { region := field w1 61 48, step := field w1 47 0, slab := field w2 63 32, attempt := field w2 31 24
        ofmt := BitVec.ofNat 8 (field w2 23 16), prov := true, base := false, hfi := field w2 11 10, tag := 0
        lanes := field (wordAt w 3) 10 0 }
    let ack := mkPacket 0x21 j [w1, mkWord [(hd.slab, 32), (hd.attempt, 24), (hd.hfi, 10)]]
    let d1 := sendAddr d 2 j k.src ack
    let id := [hd.region, hd.slab, hd.step, hd.attempt, hd.hfi]
    if jb.haulSeen.contains id then bump d1 ctrHaulDup j
    else
      let d2 := updJob d1 j fun jb => { jb with haulSeen := jb.haulSeen ++ [id] }
      match getRegion jb hd.region with
      | none => d2
      | some r =>
        if haulDead jb hd.step hd.attempt || jb.stopped || nSlabs r ≤ hd.slab then d2
        else
          haulOut d2 j hd.region hd.slab (slabOwner jb.q r hd.slab) hd.step hd.attempt
            (fun i => if i = hd.hfi then some (hd, w.drop 4, 0) else none) (fun i => (haulListAt r hd.step)[i]? == some hd.ofmt) [hd.hfi]

/-- HAUL_DATA arrives. -/
def execHaulData (k : PktRx) (s : State) : Host.Outcome State Fault Refusal := onArrival k 0x20 (haulBad k) (fun d => haulIn d k) s

/-- What makes HAUL_ACK malformed. -/
def haulAckBad (k : PktRx) (d : Dev) : Option Nat :=
  let w := k.words
  firstBad
    [ (roleBad d k.port 2, 1)
    , (rsvdSet (wordAt w 1) [(63, 62)] || rsvdSet (wordAt w 2) [(23, 12), (9, 0)], 2)
    , (lenBad w 3, 3) ]

/-- A haul slab is acknowledged. -/
def haulAckIn (d : Dev) (k : PktRx) : Dev :=
  let w1 := wordAt k.words 1
  let w2 := wordAt k.words 2
  let j := pktJob k.words
  match (getJob d j).bind fun jb => ordOfAddr jb k.src with
  | none => d
  | some q =>
    dropHeld d j fun h => h.ptype == 0x20 && h.dst == q &&
      h.key == [field w1 61 48, field w1 47 0, field w2 63 32, field w2 31 24, field w2 11 10]

/-- HAUL_ACK arrives. -/
def execHaulAck (k : PktRx) (s : State) : Host.Outcome State Fault Refusal :=
  onArrival k 0x21 (haulAckBad k) (fun d => haulAckIn d k) s

/-- Send again every held message of every job that satisfies `p` and has waited 100 µs; `f` counts one. -/
def resendHeld (d : Dev) (p : Held → Bool) (f : Dev → Held → Dev) : Dev :=
  let due (h : Held) : Bool := p h && decide (h.sentAt + 100 ≤ d.nowUs)
  forEach d.jobs d fun d' e =>
    let d1 := updJob d' e.1 fun jb => { jb with held := jb.held.map fun h => if due h then { h with sentAt := d.nowUs } else h }
    forEach (e.2.held.filter due) d1 f

/-- Send a held message of ordinals again and count it (END_RESEND). -/
def resendOrd (d : Dev) (h : Held) : Dev := bump (sendOrd d h.job h.dst h.vc h.words) ctrEndResend 0

/-- Haul slabs unacknowledged for 100 µs are sent again. -/
def execHaulResend (s : State) : Host.Outcome State Fault Refusal :=
  onDev s fun d => resendHeld d (fun h => h.ptype == 0x20) fun d' h => bump (resendOrd d' h) ctrHaulResend h.job

end Sys2Proof.Machine
end

