-- ==== Sys2Proof/Machine/HoistOps.lean ====
section
/-!
DEFINITION. Sys2Proof/Machine/HoistOps.lean: hoist requests and reads as the module keeps them: merging, answers to members
and to other modules, and the end of a request (R310 to R323, R548, R549). The rows that use it are in Hoist.lean.
-/
namespace Sys2Proof.Machine

/-! ## Requests and reads -/

/-- A member's outstanding request. -/
def getHoist (jb : Job) (m tag : Nat) : Option Hoist := jb.hoists.find? fun h => h.member == m && h.tag == tag
/-- Change a request. -/
def updHoist (d : Dev) (j m tag : Nat) (f : Hoist → Hoist) : Dev :=
  updJob d j fun jb => { jb with hoists := jb.hoists.map fun h => if h.member == m && h.tag == tag then f h else h }
/-- A request ends: its tag is free, and no read answers it any more. -/
def dropHoist (d : Dev) (j m tag : Nat) : Dev :=
  updJob d j fun jb =>
    { jb with hoists := jb.hoists.filter fun h => !(h.member == m && h.tag == tag)
              reads := (jb.reads.map fun e => { e with locals := e.locals.filter (· != (m, tag)) }).filter fun e =>
                !(e.locals.isEmpty && e.remotes.isEmpty) }

/-- HOIST_END (Table 15-15). -/
def hoistEndWords (j tag status detail del dam off : Nat) : List W64 :=
  mkPacket 0x33 j [mkWord [(tag, 32), (detail, 16), (status, 0)], mkWord [(del, 32), (dam, 0)], mkWord [(off, 0)]]

/-- HOIST_STATUS and REMOTE_STATUS (Table 15-15). -/
def hoistStatusWords (ptype j rn tag k status : Nat) : List W64 :=
  mkPacket ptype j [mkWord [(rn, 48), (tag, 32), (k, 0)], mkWord [(status, 0)]]

/-- What a slab read found. -/
inductive ReadResult
  /-- A slab status (Table 9-5). -/
  | status (st : Nat)
  /-- A slab: its packet head, payload and saturations. -/
  | data (h : SlabHead) (payload : List W64) (sats : Nat)

/-- Take slab `k` out of those a request waits for, once. -/
def doneSlab (k : Nat) (h : Hoist) : Hoist := { h with todo := h.todo.erase k }

/-- Answer one slab of a request of a member (R314, R315): on the home the request took. -/
def answerLocal (d : Dev) (j rn k : Nat) (r : ReadResult) (who : Nat × Nat) : Dev :=
  match (getJob d j).bind fun jb => getHoist jb who.1 who.2 with
  | none => d
  | some h =>
    match r with
    | .status st =>
      let dam := st == stDamaged
      let d1 := bump d (if dam then ctrHoistDamaged else ctrHoistOffline) j
      let d2 := sendPort d1 h.port { queue := j, vc := 3, words := hoistStatusWords 0x32 j rn who.2 k st,
                                      track := .hoist j who.1 who.2 (if dam then 1 else 2) }
      updHoist d2 j who.1 who.2 fun h =>
        if dam then { doneSlab k h with damaged := h.damaged + 1 } else { doneSlab k h with offline := h.offline + 1 }
    | .data hd pl sats =>
      let ws := mkPacket 0x31 j (slabHead { hd with tag := who.2 } ++ pl)
      let d1 := countSat (sendPort d h.port { queue := j, vc := 3, words := ws, track := .hoist j who.1 who.2 0 }) h.port sats
      updHoist d1 j who.1 who.2 fun h => { doneSlab k h with sent := h.sent + 1 }

/-- Answer one slab of another module's read (R549). -/
def answerRemote (d : Dev) (j rn k : Nat) (r : ReadResult) (who : Nat × Nat) : Dev :=
  match r with
  | .status st => sendAddr d 3 j who.1 (hoistStatusWords 0x36 j rn who.2 k st)
  | .data hd pl sats =>
    let ws := mkPacket 0x35 j (slabHead { hd with tag := who.2 } ++ pl)
    sendAddr (countSat d (trunkFor d j who.1 ws) sats) 3 j who.1 ws

/-- A read completes: every requester receives the result, and the entry is gone (R323). -/
def completeRead (d : Dev) (j i : Nat) (r : ReadResult) : Dev :=
  match (getJob d j).bind fun jb => jb.reads[i]? with
  | none => d
  | some e =>
    let d1 := updJob d j fun jb => { jb with reads := jb.reads.eraseIdx i }
    let d2 := forEach e.locals d1 fun d' w => answerLocal d' j e.region e.slab r w
    forEach e.remotes d2 fun d' w => answerRemote d' j e.region e.slab r w

/-- Position of the first read entry that satisfies `p`. -/
def findRead (p : ReadEntry → Bool) : Nat → List ReadEntry → Option Nat
  | _, [] => none
  | i, e :: l => if p e then some i else findRead p (i + 1) l

/-! ## Merging (R321, R322) -/

/-- Entries of a merge table, all jobs together. -/
def tableUse (d : Dev) (t : Nat) : Nat :=
  d.jobs.foldl (fun a e => a + (e.2.reads.filter fun r => r.table == t).length) 0

/-- What is read, and who asks: a member's (number, tag), or another module's (address, READ_ID). -/
structure ReadAsk where
  region : Nat
  slab   : Nat
  newest : Bool
  ofmt   : Byte
  loc    : Option (Nat × Nat) := none
  rem    : Option (Nat × Nat) := none

/-- May a read join an entry (R321)? -/
def joins (jb : Job) (t : Nat) (a : ReadAsk) (e : ReadEntry) : Bool :=
  e.table == t && e.region == a.region && e.slab == a.slab && e.newest == a.newest && e.ofmt == a.ofmt && e.cseq == jb.commitSeq

/-- The next READ_ID of a job. -/
def nextReadId (d : Dev) (j : Nat) : Nat × Dev :=
  match getJob d j with
  | none => (0, d)
  | some jb => (jb.readId, updJob d j fun jb => { jb with readId := (jb.readId + 1) % 65536 })

/-- Send the REMOTE_READ of an entry (R549). -/
def sendRemoteRead (d : Dev) (j : Nat) (e : ReadEntry) : Dev :=
  match getJob d j with
  | none => d
  | some jb =>
    match getRegion jb e.region, e.remote with
    | some r, some (id, _) =>
      sendOrd d j (slabOwner jb.q r e.slab) 3 (mkPacket 0x34 j
        [ mkWord [(e.region, 48), (id, 32), (e.slab, 0)], mkWord [(j, 32), (e.ofmt.toNat, 24), (bit e.newest, 16)]
        , mkWord [(jb.ordinal, 0)] ])
    | _, _ => d

/-- Put a read into merge table `t`: it joins one that stands there, or becomes a new entry; with a full table it is served
alone. `away`: the slab is owned elsewhere. -/
def addRead (d : Dev) (j t : Nat) (away : Bool) (a : ReadAsk) : Dev :=
  match getJob d j with
  | none => d
  | some jb =>
    match findRead (joins jb t a) 0 jb.reads with
    | some i =>
      let again := match a.rem, jb.reads[i]? with
        | some w, some e => e.remotes.contains w
        | _, _ => false
      if again then d
      else
        let held := match jb.reads[i]? with | some e => e.held | none => false
        let d1 := bump (if held then bump d ctrReadHeld j else d) ctrHoistMerged j
        updJob d1 j fun jb => { jb with reads := jb.reads.modify i fun e =>
          { e with locals := e.locals ++ a.loc.toList, remotes := e.remotes ++ a.rem.toList } }
    | none =>
      let full := decide (8192 ≤ tableUse d t)
      let d1 := if full then bump d ctrHoistNomerge j else d
      let (id, d2) := if away then nextReadId d1 j else (0, d1)
      let e : ReadEntry :=
        { region := a.region, slab := a.slab, newest := a.newest, ofmt := a.ofmt, cseq := jb.commitSeq
          locals := a.loc.toList, remotes := a.rem.toList, table := if full then 6 else t
          remote := if away then some (id, d.nowUs) else none }
      let d3 := updJob d2 j fun jb => { jb with reads := jb.reads ++ [e] }
      if away then sendRemoteRead d3 j e else d3

/-- Does the module serve its shard of the job (R316, R626, R637)? -/
def servesShard (jb : Job) : Bool :=
  !jb.stopped && !(match jb.rebuild with | some b => b.slab.isNone | none => false) && !(jb.loads.any fun l => l.kind == 1)

/-- Dispatch one slab of a member's request: to the home die, to the owner, or to a status at once (R316, R322). -/
def askSlab (d : Dev) (j rn k : Nat) (newest : Bool) (ofmt : Byte) (who : Nat × Nat) : Dev :=
  match getJob d j with
  | none => d
  | some jb =>
    match getRegion jb rn with
    | none => d
    | some r =>
      let o := slabOwner jb.q r k
      let a : ReadAsk := { region := rn, slab := k, newest := newest, ofmt := ofmt, loc := some who }
      if o = jb.ordinal then
        if servesShard jb then addRead d j (homeDie jb.q r rn k) false a
        else answerLocal d j rn k (.status stShardOffline) who
      else if jb.withdrawn.contains o then answerLocal d j rn k (.status stShardOffline) who
      else addRead d j (4 + o % 2) true a

/-- An owner serves no more: what was asked of it returns ST_SHARD_OFFLINE (Table 9-8). `p` picks the entries. -/
def offlineReads (d : Dev) (j : Nat) (p : ReadEntry → Bool) : Nat → Dev
  | 0 => d
  | fuel + 1 =>
    match (getJob d j).bind fun jb => findRead p 0 jb.reads with
    | some i => offlineReads (completeRead d j i (.status stShardOffline)) j p fuel
    | none => d

/-- Reads of slabs that a withdrawn ordinal owns. -/
def offlineOwner (d : Dev) (j q : Nat) : Dev :=
  match getJob d j with
  | none => d
  | some jb =>
    offlineReads d j (fun e => match getRegion jb e.region with | some r => slabOwner jb.q r e.slab == q | none => false)
      jb.reads.length

/-- The commit sequence changes (R321) and the reads held under R338 are let go. -/
def releaseReads (d : Dev) (j : Nat) : Dev :=
  updJob d j fun jb =>
    { jb with commitSeq := jb.commitSeq + 1, reads := jb.reads.map fun e => { e with held := false } }

end Sys2Proof.Machine
end

