-- ==== Sys2Proof/Machine/Rs.lean ====
section
/-!
DEFINITION. Sys2Proof/Machine/Rs.lean: the outer code of the update dies' memory (R262): a Reed-Solomon code of 62 symbols, 2 of
them check symbols, over GF(2^8). A stripe is 32 codewords side by side: byte b of its 62 blocks is codeword b.
-/
namespace Sys2Proof.Machine

/-! ## GF(2^8) modulo x^8 + x^4 + x^3 + x^2 + 1 -/

/-- Product with α. -/
def gfDouble (a : Byte) : Byte := if a.getLsbD 7 then (a <<< 1) ^^^ 0x1D#8 else a <<< 1

/-- Product with the low `n` bits of `b`. -/
def gfMulBits : Nat → Byte → Byte → Byte
  | 0, _, _ => 0
  | n + 1, a, b => (if b.getLsbD 0 then a else 0) ^^^ gfMulBits n (gfDouble a) (b >>> 1)

/-- Product. -/
def gfMul (a b : Byte) : Byte := gfMulBits 8 a b

/-- Power. -/
def gfPow (a : Byte) : Nat → Byte
  | 0 => 1
  | n + 1 => gfMul a (gfPow a n)

/-- Inverse: the power 254. -/
def gfInv (a : Byte) : Byte :=
  let p2 := gfMul a a
  let p4 := gfMul p2 p2
  let p8 := gfMul p4 p4
  let p16 := gfMul p8 p8
  let p32 := gfMul p16 p16
  let p64 := gfMul p32 p32
  gfMul p2 (gfMul p4 (gfMul p8 (gfMul p16 (gfMul p32 (gfMul p64 (gfMul p64 p64))))))

/-- α to the power `j`. -/
def alpha : Nat → Byte
  | 0 => 1
  | n + 1 => gfDouble (alpha n)

/-! ## One codeword -/

/-- The syndromes of symbols listed with their positions: the values at α^0 and α^1 of the polynomial whose coefficient of x^j
is the symbol at position j. -/
def syndromes (l : List (Nat × Byte)) : Byte × Byte :=
  l.foldl (fun a e => (a.1 ^^^ e.2, a.2 ^^^ gfMul (alpha e.1) e.2)) (0, 0)

/-- The symbols at positions `i` and `j` that have the syndromes `s`. -/
def solveTwo (i j : Nat) (s : Byte × Byte) : Byte × Byte :=
  let y := gfMul (s.2 ^^^ gfMul (alpha i) s.1) (gfInv (alpha i ^^^ alpha j))
  (s.1 ^^^ y, y)

/-- The check symbols at positions `i` and `j` of a codeword whose other symbols are `l`. -/
def checkSymbols (i j : Nat) (l : List (Nat × Byte)) : Byte × Byte := solveTwo i j (syndromes l)

/-- What decoding adds to a codeword with erasures at `er` and syndromes `s`, by position; none when it does not decode. -/
def decodeWord (er : List Nat) (s : Byte × Byte) : Option (List (Nat × Byte)) :=
  match er with
  | [] =>
    if s.1 = 0 && s.2 = 0 then some []
    else if s.1 = 0 then none
    else ((List.range 62).find? fun j => gfMul (alpha j) s.1 == s.2).map fun j => [(j, s.1)]
  | [i] => if gfMul (alpha i) s.1 = s.2 then some [(i, s.1)] else none
  | [i, j] => some [(i, (solveTwo i j s).1), (j, (solveTwo i j s).2)]
  | _ => none

/-! ## A stripe -/

/-- Byte `b` of a block. -/
def blockByte (x : BitVec 256) (b : Nat) : Byte := x.extractLsb' (8 * b) 8

/-- A block with `v` added to its byte `b`. -/
def addByte (x : BitVec 256) (b : Nat) (v : Byte) : BitVec 256 := x ^^^ (v.setWidth 256 <<< (8 * b))

/-- Add a byte to the block at position `p` of a list of blocks by position. -/
def addAt (b : Nat) (l : List (Nat × BitVec 256)) (e : Nat × Byte) : List (Nat × BitVec 256) :=
  if l.any fun x => x.1 == e.1 then l.map fun x => if x.1 = e.1 then (x.1, addByte x.2 b e.2) else x
  else l ++ [(e.1, addByte 0 b e.2)]

/-- Codewords `b` on of a stripe whose blocks differ from a valid stripe by `pats`: what still differs after each is decoded;
none when one does not decode. `n` codewords. -/
def decodeWords (er : List Nat) (pats : List (Nat × BitVec 256)) : Nat → Nat → List (Nat × BitVec 256) → Option (List (Nat × BitVec 256))
  | 0, _, out => some out
  | n + 1, b, out =>
    match decodeWord er (syndromes (pats.map fun e => (e.1, blockByte e.2 b))) with
    | some fix => decodeWords er pats n (b + 1) (fix.foldl (addAt b) out)
    | none => none

/-- Decode a stripe with blocks erased at `er` and the others wrong by `pats`. The code is linear, so what is wrong after decoding
depends on what was wrong before alone: the blocks that are still wrong, by position. -/
def decodeStripe (er : List Nat) (pats : List (Nat × BitVec 256)) : Option (List (Nat × BitVec 256)) :=
  (decodeWords er pats 32 0 pats).map fun l => l.filter fun e => e.2 != 0

end Sys2Proof.Machine
end

