-- ==== Sys2Proof/Machine/Spare.lean ====
section
/-!
DEFINITION. Sys2Proof/Machine/Spare.lean: the spare map (R656, Tables 19-7 to 19-13) and the questions other chapters ask
it: which seam a position is bound to, which positions live, which checking seams are free.
-/
namespace Sys2Proof.Machine

/-- Record of a physical seam; as shipped, seams of C0 to C7 hold positions 0 to 127 and C8 holds the checking seams
(log 8). -/
def seamRec (d : Dev) (s : Nat) : SeamRec :=
  SMap.getD d.spare.seams s (if s < 128 then { st := 0, pos := some s } else { st := 1, pos := none })

/-- Record of a memory channel: 64 a die, 62 working and 2 spare as shipped. -/
def chanRec (d : Dev) (c : Nat) : ChanRec :=
  SMap.getD d.spare.chans c (if c % 64 < 62 then { st := 0, wnum := some (c % 64) } else { st := 1, wnum := none })

/-- Record of a die-to-die link. -/
def linkRec (d : Dev) (l : Nat) : LinkRec := SMap.getD d.spare.links l {}

/-- The physical seam a position is bound to (R170); none when the position is lost. -/
def boundSeam (d : Dev) (pos : Nat) : Option Nat :=
  match d.spare.seams.find? fun e => e.2.st == 0 && e.2.pos == some pos with
  | some e => some e.1
  | none => if SMap.has d.spare.seams pos then none else if pos < 128 then some pos else none

/-- Live seam positions, ascending (R197). -/
def livePositions (d : Dev) : List Nat := (List.range 128).filter fun p => (boundSeam d p).isSome

/-- Checking seams not in active use, ascending (R194, R196). -/
def checkingSeams (d : Dev) : List Nat := (List.range 144).filter fun s => (seamRec d s).st == 1

/-- Role of a port in a PORT_ROLES body. -/
def roleIn (m : SMap W64) (p : Nat) : Nat := let w := SMap.getD m (p / 8) 0; field w (8 * (p % 8) + 1) (8 * (p % 8))

/-- Role of a port: before LINKS gives the ports their roles, the one in the retained record (R699, R701). -/
def roleOf (d : Dev) (p : Nat) : Nat :=
  match d.start.phase with
  | .power | .rom | .restore | .patch | .dies | .memory => roleIn (((flashRead d 0x12).map (·.body)).getD []) p
  | _ => (getPort d p).role

/-- Slice steered to a position (R644). -/
def sliceOf (d : Dev) (p : Nat) : Nat := SMap.getD d.spare.slice p (p % 16)

/-- SLICE_STATE of slice `i mod 16` of the face die of index `i` (Table 19-9). -/
def sliceState (d : Dev) (i : Nat) : Nat :=
  if d.spare.sliceOut.contains i then 2
  else if (List.range 16).any fun k =>
      let p := i / 16 * 16 + k
      roleOf d p != 0 && sliceOf d p == i % 16 then 0
  else 1

/-- POS_STATE of an optical position (Table 19-9). -/
def posState (d : Dev) (p : Nat) : Nat := SMap.getD d.spare.posState p 0

/-- Spare rows of die `d` of Table 19-12 (Table 19-2). -/
def spareRows (die : Nat) : Nat :=
  if die < 18 then 24576 else if die < 27 then 131072 else if die < 31 then 65536 else 32768

/-- Bits of a word of the update lane bitmap. -/
def laneBits (lanes : List Nat) (w : Nat) : W64 :=
  lanes.foldl (fun a l => if l / 64 = w then a ||| (1#64 <<< (l % 64)) else a) 0

/-- Word `i` of the spare map (Table 19-7). -/
def spareWord (d : Dev) (i : Nat) : W64 :=
  if i = 0 then mkWord [(d.spare.seq % 2 ^ 32, 32), (d.spare.cdie, 28)]
  else if i = 1 then d.fac.serial
  else if i = 2 then
    let live := (livePositions d).length
    mkWord [(live, 56), ((checkingSeams d).length, 48), (128 - live, 40)]
  else if i = 3 then mkWord [(d.spare.hours % 2 ^ 32, 32)]
  else if i < 292 then
    let p := i - 4
    mkWord [(posState d p, 14), (bit (d.spare.posShip.contains p), 13), (sliceOf d p, 8), (sliceState d p, 6),
      (bit (d.spare.sliceShip.contains p), 5)]
  else if i < 436 then
    let r := seamRec d (i - 292)
    mkWord [(r.st, 14), (bit r.ship, 13), (r.pos.getD 0xFF, 0)]
  else if i < 692 then
    let r := chanRec d (i - 436)
    mkWord [(r.st, 13), (bit r.ship, 12), (r.wnum.getD 0x3F, 0)]
  else if i < 700 then laneBits d.spare.lanes (i - 692)
  else if i < 1001 then
    let r := linkRec d (i - 700)
    mkWord [(r.st, 14), (bit r.ship, 13), (r.groups, 0)]
  else if i < 1033 then
    let r := SMap.getD d.spare.srams (i - 1001) {}
    mkWord [(spareRows (i - 1001), 40), (r.used, 16), (r.lost, 0)]
  else 0

/-- Words of the spare map. -/
def spareWords (d : Dev) : List W64 := (List.range 1033).map (spareWord d)

/-- Write the spare map to both mirrors (R649 step 4). -/
def saveSpare (d : Dev) : Dev := flashWrite d 0x10 8264 (sparseWords 0 (spareWords d))

/-- Record a change of the spare map (R649 steps 3 and 4): MAP_SEQ, CHANGE_HOURS, and the record in both mirrors. -/
def commitSpare (d : Dev) : Dev :=
  bump (saveSpare { d with spare := { d.spare with seq := d.spare.seq + 1, hours := (getCtr d ctrPowerOnHours 0).toNat } }) ctrRepairs 0

/-- Complete a change (R649 steps 3 to 5): UNIT_RETIRED when a spare took the unit's place, SPARE_LOW when none did. -/
def commitRepair (d : Dev) (spared : Bool) (kind unit : Nat) : Dev :=
  raiseTrap (commitSpare d) { cause := if spared then 0xC0 else 0xC1, kind := kind, unit := unit }

/-! ## Privileged pools (R600, R602) -/

/-- Does the phase of pool 61 last: a rebuild, a repair or a restore of a job, a parity recomputation, a seal takeover, a seam
retirement, or a channel rebuild (Table 17-3)? -/
def repairPhase (d : Dev) : Bool :=
  d.parity.recomp ||
  d.spare.retiring.any (fun e => decide (d.nowUs < e.2)) ||
  d.jobs.any (fun e => e.2.rebuild.isSome || (e.2.loads.any fun l => l.kind == 1) || !e.2.sealSt.queryWait.isEmpty) ||
  d.spare.chans.any fun e => e.2.st == 2

/-- Does the phase of pool 62 last: a built-in test, or reference mode of a job? -/
def testPhase (d : Dev) : Bool := !d.spare.tests.isEmpty || d.jobs.any fun e => e.2.refMode.isSome

/-- Open or close one privileged pool as its phase says. -/
def poolPhase (d : Dev) (p : Nat) (on : Bool) : Dev :=
  if poolOpen d p == on then d else if on then openPool d p else closePool d p

/-- Bring pools 61 and 62 up to date. -/
def poolsSettle (d : Dev) : Dev := poolPhase (poolPhase d 61 (repairPhase d)) 62 (testPhase d)

end Sys2Proof.Machine
end

