-- ==== Sys2Proof/Machine/Memory.lean ====
section
/-!
DEFINITION. Sys2Proof/Machine/Memory.lean: the memory of the update dies (chapter 8): where the areas of the store lie (R261, R267
to R269, R279), what a read meets and what a write does (R262 to R265, R284, R285), errors that strike blocks, the cache and the
prefetchers (R280 to R283).
-/
namespace Sys2Proof.Machine

/-- Memory of an update die (0 to 3). -/
def getMem (d : Dev) (u : Nat) : MemDie := SMap.getD d.mems u {}
/-- Change it. -/
def updMem (d : Dev) (u : Nat) (f : MemDie → MemDie) : Dev := { d with mems := SMap.set d.mems u (f (getMem d u)) }

/-! ## Stripes and channels (R261) -/

/-- Stripes of a die's data space: 360 GB of 1,920 bytes each. -/
def dieStripes : Nat := 187500000
/-- Working channel of the first check block of stripe `n`; the second lies on the next one. -/
def checkChan (n : Nat) : Nat := 2 * n % 62
/-- Working channel of data block `i` of stripe `n`. -/
def blockChan (n i : Nat) : Nat := if i < checkChan n then i else i + 2
/-- Data block of stripe `n` on working channel `p`; none for a check block. -/
def chanBlock (n p : Nat) : Option Nat :=
  if p < checkChan n then some p else if p < checkChan n + 2 then none else some (p - 2)

/-- Channels of a die in a state of Table 19-11. -/
def chansAt (d : Dev) (u st : Nat) : List Nat :=
  d.spare.chans.filterMap fun e => if e.1 / 64 = u && e.2.st == st then some e.1 else none
/-- Working numbers of those channels. -/
def chanNums (d : Dev) (u st : Nat) : List Nat := (chansAt d u st).filterMap fun c => (chanRec d c).wnum
/-- Working channels that are out for good: a failed channel without a spare (R285). -/
def failedChans (d : Dev) (u : Nat) : List Nat := chanNums d u 3
/-- Does the channel rebuild in progress skip a stripe (R284)? -/
def isBuilt (m : MemDie) (n : Nat) : Bool := m.built.contains n || m.runs.any fun r => r.1 ≤ n && decide (n < r.2)
/-- Working channels whose block in a stripe is not rebuilt yet (R284). -/
def unbuiltChans (d : Dev) (u n : Nat) : List Nat := if isBuilt (getMem d u) n then [] else chanNums d u 2
/-- The physical channel with a working number. -/
def chanAt (d : Dev) (u p : Nat) : Option Nat :=
  (rangeFrom (64 * u) 64).find? fun c => (chanRec d c).wnum == some p && (chanRec d c).st != 1 && (chanRec d c).st != 4

/-! ## The inner code (R263) -/

/-- 4-bit symbols of a block that are wrong: `n` symbols. -/
def wrongSymbols : Nat → BitVec 256 → Nat
  | 0, _ => 0
  | n + 1, x => (if x.extractLsb' 0 4 = 0#4 then 0 else 1) + wrongSymbols n (x >>> 4)

/-- What the inner code makes of a damaged block: it corrects one symbol, reports two, and may or may not see more. -/
inductive BlockKind | clean | soft | erased | silent
  deriving DecidableEq, Repr

/-- The kind of a block. -/
def blockKind (e : BlockErr) : BlockKind :=
  match wrongSymbols 64 e.pat with
  | 0 => if e.caught then .erased else .clean
  | 1 => .soft
  | 2 => .erased
  | _ => if e.caught then .erased else .silent

/-- Damaged blocks of a stripe, by working channel. -/
def stripeErrs (m : MemDie) (n : Nat) : List (Nat × BlockErr) :=
  m.errs.filterMap fun e => if e.1 / 62 = n then some (e.1 % 62, e.2) else none
/-- Stripes with a damaged block, ascending. -/
def badStripes (m : MemDie) : List Nat := (m.errs.map fun e => e.1 / 62).eraseDups
/-- Those of a kind. -/
def kindAt (es : List (Nat × BlockErr)) (k : BlockKind) : List (Nat × BlockErr) := es.filter fun e => blockKind e.2 == k

/-- Working channels whose blocks in a stripe the outer code takes as erasures (R264, R284, R285). -/
def erasures (d : Dev) (u n : Nat) : List Nat :=
  (failedChans d u ++ unbuiltChans d u n ++ (kindAt (stripeErrs (getMem d u) n) .erased).map (·.1)).eraseDups

/-- The stripe decoded by the outer code: what stays wrong; none when it does not decode. -/
def decodedStripe (d : Dev) (u n : Nat) : Option (List (Nat × BitVec 256)) :=
  decodeStripe (erasures d u n) ((kindAt (stripeErrs (getMem d u) n) .silent).map fun e => (e.1, e.2.pat))

/-! ## Extents (R267 to R269, R279) -/

/-- Bytes rounded up to whole stripes. -/
def stripes (n : Nat) : Nat := (n + 1919) / 1920 * 1920

/-- Numbers from `a` on, `n` of them, that are congruent to `u` modulo 4. -/
def countMod4 (a n u : Nat) : Nat := (n + 3 - (u + 4 - a % 4) % 4) / 4

/-- Owned slabs of a region. -/
def ownedNum (q ord : Nat) (r : Region) : Nat := ownedCount q (nSlabs r) r.deal ord

/-- Owned slabs whose home is update die `u` (R259). -/
def homedNum (q ord rn : Nat) (r : Region) (u : Nat) : Nat := countMod4 (firstLocal ord r.deal + rn) (ownedNum q ord r) u

/-- Protected bytes of a region on the module. -/
def protBytes (q ord : Nat) (r : Region) : Nat := ownedNum q ord r * (8 * imageLen r)

/-- The three extents of a region on an update die, in bytes (R268, R269): frames; staging; metadata records, with the die's
quarter of the parity share behind them. Three roundings, so at most 5,760 bytes (R279). -/
def dieExtents (q ord rn : Nat) (r : Region) (u : Nat) : List Nat :=
  let n := homedNum q ord rn r u
  [2048 * regionW r * n, 8192 * n, 32 * n + (protBytes q ord r + 27) / 28]

/-- Bytes that a region takes on an update die. -/
def dieNeed (q ord rn : Nat) (r : Region) (u : Nat) : Nat := (dieExtents q ord rn r u).foldl (fun a n => a + stripes n) 0

/-- Bytes that a region is charged for. -/
def regionBytes (q ord rn : Nat) (r : Region) : Nat := (List.range 4).foldl (fun a u => a + dieNeed q ord rn r u) 0

/-- Sum of a number over every region of the module: `f q ord region-number region`. -/
def sumRegions (d : Dev) (f : Nat → Nat → Nat → Region → Nat) : Nat :=
  d.jobs.foldl (fun a e => e.2.regions.foldl (fun a g => a + f e.2.q e.2.ordinal g.1 g.2) a) 0

/-- Chunks of 1 MiB in the parity delta areas of the module, 16 GiB on each update die (Table 8-4). -/
def deltaChunks : Nat := 65536

/-- Chunks that parity and accumulated deltas take from free space (R619, R622). -/
def borrowedChunks (d : Dev) : Nat := d.parity.borrowed + (d.parity.accs.length - deltaChunks)

/-- Free bytes of an update die: what stands in no extent of a region; record buffers and borrowed parity chunks are spread
evenly. -/
def dieFree (d : Dev) (u : Nat) : Nat :=
  let other := d.jobs.foldl (fun a e => a + e.2.charge) 0 - sumRegions d regionBytes + 2 ^ 20 * borrowedChunks d
  360000000000 - (64 + 40 + 1) * 2 ^ 28 - sumRegions d (fun q o n r => dieNeed q o n r u) - (other + 3) / 4

/-- Key of an extent: of a region 0 frames, 1 staging, 2 metadata and parity; or of what takes free space. -/
def extKey (j rn kind : Nat) : Nat := 4 * (16384 * j + rn) + kind
/-- Key of one of a job's two record buffers, and of borrowed parity chunks. -/
def recExt (j : Nat) (side : Bool) : Nat := 2 ^ 40 + 2 * j + (if side then 1 else 0)
/-- Key of the space that borrowed parity chunks take. -/
def borrowExt : Nat := 2 ^ 41

/-- The extents that stand on a die, with their stripes. -/
def wantedExts (d : Dev) (u : Nat) : SMap Nat :=
  let regs := d.jobs.flatMap fun e => e.2.regions.flatMap fun g =>
    (dieExtents e.2.q e.2.ordinal g.1 g.2 u).mapIdx fun i n => (extKey e.1 g.1 i, stripes n / 1920)
  let recs := d.jobs.flatMap fun e =>
    [ (recExt e.1 e.2.recSide, stripes (((match e.2.recd with | some r => r.size | none => 0) + 3) / 4) / 1920)
    , (recExt e.1 (!e.2.recSide), stripes (((match e.2.heldRec with | some r => r.1 | none => 0) + 3) / 4) / 1920) ]
  ((regs ++ recs ++ [(borrowExt, stripes (2 ^ 18 * borrowedChunks d) / 1920)]).filter fun e => e.2 != 0).foldl
    (fun m e => SMap.set m e.1 e.2) []

/-- First stripe behind the fixed areas of a die: 16 GiB parity deltas, 10 GiB overflow and 256 MiB directory, in that order
from offset 0 (DESIGN CHOICE, log 95). -/
def firstStripe : Nat := 14680064

/-- Free pieces from stripe `lo` on, between used pieces in rising order. -/
def gaps : Nat → SMap Nat → List (Nat × Nat)
  | lo, [] => if lo < dieStripes then [(lo, dieStripes - lo)] else []
  | lo, (s, n) :: l => if lo < s then (lo, s - lo) :: gaps (s + n) l else gaps (s + n) l

/-- The first `n` stripes of a list of pieces. -/
def takePieces : Nat → List (Nat × Nat) → List (Nat × Nat)
  | _, [] => []
  | n, (s, c) :: l => if n = 0 then [] else if n ≤ c then [(s, n)] else (s, c) :: takePieces (n - c) l

/-- Put an extent into the lowest free pieces (DESIGN CHOICE, log 95). -/
def placeExt (m : MemDie) (e : Nat × Nat) : MemDie :=
  if SMap.has m.exts e.1 then m
  else
    let used : SMap Nat := m.exts.foldl (fun a x => x.2.foldl (fun b p => SMap.set b p.1 p.2) a) []
    { m with exts := SMap.set m.exts e.1 (takePieces e.2 (gaps firstStripe used)) }

/-- Stripes of an extent. -/
def extSize (l : List (Nat × Nat)) : Nat := l.foldl (fun a p => a + p.2) 0

/-- Bring the extents of a die into line with what stands on it. -/
def syncDie (d : Dev) (u : Nat) : Dev :=
  let want := wantedExts d u
  updMem d u fun m => want.foldl placeExt { m with exts := SMap.keep (fun k l => SMap.get? want k == some (extSize l)) m.exts }

/-- Bring the extents of all dies into line. -/
def syncExts (d : Dev) : Dev := forEach (List.range 4) d syncDie

/-- Stripe `i` of an extent. -/
def extStripe : List (Nat × Nat) → Nat → Option Nat
  | [], _ => none
  | (s, c) :: l, i => if i < c then some (s + i) else extStripe l (i - c)

/-- Where stripe `n` stands in an extent. -/
def stripeIdx : List (Nat × Nat) → Nat → Nat → Option Nat
  | [], _, _ => none
  | (s, c) :: l, n, i => if s ≤ n && decide (n < s + c) then some (i + (n - s)) else stripeIdx l n (i + c)

/-! ## Spans of a slab (R268) -/

/-- Bytes `off` to `off + len` of an extent of an update die. -/
structure Span where
  die : Nat
  key : Nat
  off : Nat
  len : Nat

/-- Lowest local index of a region's slabs that has update die `u` as its home. -/
def firstHome (ord deal rn u : Nat) : Nat := firstLocal ord deal + (u + 4 - (firstLocal ord deal + rn) % 4) % 4

/-- Place of a slab among those of its home die, in ascending local index. -/
def homeIdx (jb : Job) (r : Region) (rn k : Nat) : Nat :=
  (localIdx jb.q r k - firstHome jb.ordinal r.deal rn (homeDie jb.q r rn k)) / 4

/-- A span of a slab's home die. -/
def slabSpan (j : Nat) (jb : Job) (r : Region) (rn k kind off len : Nat) : Span :=
  { die := homeDie jb.q r rn k, key := extKey j rn kind, off := off, len := len }

/-- The first `n` bytes of a copy: a frame holds copy 0, then copy 1. -/
def copySpan (j : Nat) (jb : Job) (r : Region) (rn k c n : Nat) : Span :=
  slabSpan j jb r rn k 0 (2048 * regionW r * homeIdx jb r rn k + 1024 * regionW r * c) n
/-- A slab's staging. -/
def stageSpan (j : Nat) (jb : Job) (r : Region) (rn k : Nat) : Span := slabSpan j jb r rn k 1 (8192 * homeIdx jb r rn k) 8192
/-- A slab's metadata record. -/
def metaSpan (j : Nat) (jb : Job) (r : Region) (rn k : Nat) : Span := slabSpan j jb r rn k 2 (32 * homeIdx jb r rn k) 32

/-- Bytes of the parameter array of a copy. -/
def paramBytes (r : Region) : Nat := 1024 * fmtBytes (ofmtFmt (r.fmts.getD 0 0))

/-- The stripes of a span: number, first block, blocks, and the offset in the extent of its first block. -/
def spanStripes (m : MemDie) (s : Span) : List (Nat × Nat × Nat × Nat) :=
  let ps := SMap.getD m.exts s.key []
  let i0 := s.off / 1920
  (rangeFrom i0 ((s.off + s.len + 1919) / 1920 - i0)).filterMap fun i =>
    let lo := max s.off (1920 * i)
    let hi := min (s.off + s.len) (1920 * i + 1920)
    (extStripe ps i).map fun n => (n, (lo - 1920 * i) / 32, (hi - lo + 31) / 32, lo)

/-- The stripes of bytes `off` to `off + len` of a die's data space, as `spanStripes` lists them. -/
def rawStripes (off len : Nat) : List (Nat × Nat × Nat × Nat) :=
  (rangeFrom (off / 1920) ((off + len + 1919) / 1920 - off / 1920)).map fun n =>
    let lo := max off (1920 * n)
    (n, (lo - 1920 * n) / 32, (min (off + len) (1920 * n + 1920) - lo + 31) / 32, lo)

/-! ## Reads (R263, R264) -/

/-- What reading a span gives: the device, the first stripe that did not decode, and blocks that decoding left wrong, by offset
in the extent. -/
structure MemRead where
  dev   : Dev
  bad   : Option Nat := none
  fixes : List (Nat × BitVec 256) := []

/-- Note `n` events of a channel at `x` in one of its lists, which keeps those of the last `keep` microseconds. -/
def noteEvent (m : SMap (List (Nat × Nat))) (now keep c x : Nat) : SMap (List (Nat × Nat)) :=
  SMap.set m c ((now, x) :: (SMap.getD m c []).filter fun e => decide (now < e.1 + keep))

/-- Count the blocks that the inner code corrects on the working channels read, and note them and the erasures it reports for the
repair engine (Table 19-3). -/
def countInner (d : Dev) (u s : Nat) (l : List Nat) (es : List (Nat × BlockErr)) : Dev :=
  let of_ (k : BlockKind) : List Nat := ((kindAt es k).filter fun e => l.contains e.1).filterMap fun e => chanAt d u e.1
  let d1 := forEach (of_ .soft) d fun d' c =>
    bump { d' with spare := { d'.spare with chanCes := noteEvent d'.spare.chanCes d.nowUs 86400000000 c 1 } } ctrInnerCe c
  forEach (of_ .erased) d1 fun d' c =>
    { d' with spare := { d'.spare with chanErs := noteEvent d'.spare.chanErs d.nowUs 1000000 c s } }

/-- Read blocks of stripe `s` by their working channels: the blocks needed, or all of them when one of those is an erasure or the
stripe has a block on a failed channel. -/
def readBlocks (d : Dev) (u s : Nat) (need : List Nat) : Dev × Option (List (Nat × BitVec 256)) :=
  let es := stripeErrs (getMem d u) s
  let er := erasures d u s
  if (failedChans d u).isEmpty && !(need.any er.contains) then (countInner d u s need es, some [])
  else
    let d1 := countInner d u s (List.range 62) es
    match decodedStripe d u s with
    | some l => (bump d1 ctrOuterCorr (updDie u), some (l.filter fun e => er.contains e.1))
    | none => (d1, none)

/-- Read blocks `b` to `b + n` of stripe `s`. -/
def readStripe (d : Dev) (u s b n : Nat) : Dev × Option (List (Nat × BitVec 256)) := readBlocks d u s ((rangeFrom b n).map (blockChan s))

/-- Read a stripe of a span. -/
def readPart (u : Nat) (a : MemRead) (p : Nat × Nat × Nat × Nat) : MemRead :=
  match readStripe a.dev u p.1 p.2.1 p.2.2.1 with
  | (d, some l) =>
    { a with dev := d
             fixes := a.fixes ++ l.filterMap fun e =>
               (chanBlock p.1 e.1).bind fun i => if p.2.1 ≤ i && decide (i < p.2.1 + p.2.2.1) then some (p.2.2.2 + 32 * (i - p.2.1), e.2) else none }
  | (d, none) => { a with dev := d, bad := if a.bad.isSome then a.bad else some p.1 }

/-- Read a span from memory. -/
def readSpan (d : Dev) (s : Span) : MemRead := (spanStripes (getMem d s.die) s).foldl (readPart s.die) { dev := d }

/-- The first stripe of a span that does not decode, or the first of all. -/
def spanStripe (d : Dev) (s : Span) : Nat :=
  let l := spanStripes (getMem d s.die) s
  match l.find? fun p => (readStripe d s.die p.1 p.2.1 p.2.2.1).2.isNone with
  | some p => p.1
  | none => (l.head?.map (·.1)).getD 0

/-! ## Writes (R265, R284) and the cache (R280) -/

/-- A line enters a part of the cache that holds `cap` lines; the oldest leaves (DESIGN CHOICE, log 96). -/
def addLine (cap : Nat) (l : List Nat) (n : Nat) : List Nat :=
  let l1 := l.filter (· != n) ++ [n]
  if cap < l1.length then l1.drop (l1.length - cap) else l1

/-- Lines of 1,920 bytes in 96, 16 and 8 MiB. -/
def frameCap : Nat := 52428
/-- Lines of the write-combining part. -/
def combCap : Nat := 8738
/-- Lines of the metadata part, and of the staging part. -/
def metaCap : Nat := 4369

/-- Lines of a part that its disabled rows leave: 0 frames, 1 metadata, 2 staging, 3 write-combining (Table 19-4). -/
def partCap (d : Dev) (u part : Nat) : Nat :=
  (match part with | 0 => frameCap | 3 => combCap | _ => metaCap) - SMap.getD d.spare.cut (4 * u + part) 0

/-- Does the cache hold the line of a stripe? -/
def cached (m : MemDie) (n : Nat) : Bool := m.frames.contains n || m.comb.contains n || m.metas.contains n || m.stage.contains n

/-- The damage that a write of the blocks `need` leaves in a stripe: the written and the check blocks are new, and the check
blocks fit what the other blocks read as. A write during a channel rebuild writes every block. -/
def afterWrite (m : MemDie) (n : Nat) (need : List Nat) (all : Bool) : SMap BlockErr :=
  SMap.keep (fun k e => k / 62 != n || !(all || need.contains (k % 62) || (chanBlock n (k % 62)).isNone || blockKind e == .silent)) m.errs

/-- The damage that a write leaves which could not read the rest of the stripe: the written blocks are new, and the check blocks fit
nothing. -/
def afterBlind (m : MemDie) (n : Nat) (need : List Nat) : SMap BlockErr :=
  [checkChan n, checkChan n + 1].foldl (fun e p => SMap.set e (62 * n + p) { pat := 0, caught := true })
    (SMap.keep (fun k _ => k / 62 != n || !need.contains (k % 62)) m.errs)

/-- Write blocks `b` to `b + n` of stripe `s`: the rest of the stripe comes from the cache, or is read first (R265). -/
def writeStripe (d : Dev) (u s b n : Nat) : Dev :=
  let m := getMem d u
  let need := (rangeFrom b n).map (blockChan s)
  let rest := (List.range 60).filter fun i => decide (i < b) || decide (b + n ≤ i)
  let (d1, got) := if rest.isEmpty || cached m s then (d, some []) else readBlocks (bump d ctrStripeRmw (updDie u)) u s (rest.map (blockChan s))
  let all := got.isSome && !(chanNums d u 2).isEmpty && (decodedStripe d u s).isSome
  updMem d1 u fun m =>
    { m with errs := if got.isSome then afterWrite m s need (all || rest.isEmpty) else afterBlind m s need
             lost := if got.isSome then m.lost else m.lost ++ [s]
             built := if all && !isBuilt m s then s :: m.built else m.built
             comb := if rest.isEmpty then m.comb.filter (· != s) else addLine (partCap d u 3) m.comb s }

/-- Write parts of stripes. -/
def writeParts (d : Dev) (u : Nat) (l : List (Nat × Nat × Nat × Nat)) : Dev := forEach l d fun d' p => writeStripe d' u p.1 p.2.1 p.2.2.1
/-- Write a span. -/
def writeSpan (d : Dev) (s : Span) : Dev := writeParts d s.die (spanStripes (getMem d s.die) s)

/-- Write a slab's metadata record: its line stays in the cache. -/
def writeMeta (d : Dev) (j : Nat) (jb : Job) (r : Region) (rn k : Nat) : Dev :=
  let s := metaSpan j jb r rn k
  forEach (spanStripes (getMem d s.die) s) (writeSpan d s) fun d' p =>
    updMem d' s.die fun m => { m with metas := addLine (partCap d s.die 1) m.metas p.1, comb := m.comb.filter (· != p.1) }

/-- Write a copy of a slab, then its metadata record (R273, R274). -/
def writeCopy (d : Dev) (j : Nat) (jb : Job) (r : Region) (rn k c : Nat) : Dev :=
  writeMeta (writeSpan d (copySpan j jb r rn k c (1024 * regionW r))) j jb r rn k

/-- The stripes of a region's extents are written whole when it is created. -/
def clearRegion (d : Dev) (j : Nat) (jb : Job) (r : Region) (rn : Nat) : Dev :=
  forEach (List.range 4) d fun d' u =>
    forEach (dieExtents jb.q jb.ordinal rn r u).zipIdx d' fun d'' e =>
      let ss := (badStripes (getMem d'' u)).filter fun n => (stripeIdx (SMap.getD (getMem d'' u).exts (extKey j rn e.2) []) n 0).isSome
      forEach ss d'' fun d3 n => updMem d3 u fun m => { m with errs := afterWrite m n [] true }

/-! ## Uncorrectable errors (R286) -/

/-- Cause of an uncorrectable error on a die of Table 19-12: MEM_UE, or REBUILD_FAIL while a channel of the update die is being
rebuilt (R286, Table 8-16). -/
def ueCause (d : Dev) (die : Nat) : Nat :=
  if d.spare.chans.any fun e => e.2.st == 2 && 27 + e.1 / 64 == die then 0x41 else 0x40

/-- Does a context of the step in flight cover a slab: its staging and its NORM may be of the step? -/
def inBuckets (d : Dev) (j : Nat) (jb : Job) (rn k : Nat) : Bool :=
  jb.inFlight && (d.left ++ d.ctxs).any fun e =>
    e.2.holder == some j && e.2.step == jb.stepCur && e.2.attempt == jb.attempt && e.2.p.region == rn &&
    e.2.p.first ≤ k && decide (k < e.2.p.first + e.2.p.nslab)

/-- The MEM_UE or REBUILD_FAIL trap: it names the die, the stripe and the area, a row of Table 8-4. -/
def memUeTrap (d : Dev) (u : Nat) (job : Option (Nat × Nat × Nat)) (stripe area : Nat) : Dev :=
  raiseTrap (bump d ctrMemUe (updDie u))
    { cause := ueCause d (updDie u), job := job, kind := 5, unit := updDie u, details := [BitVec.ofNat 64 stripe, Config.areaCode area] }

/-- A slab's staging or its sum of squares is lost: the step cannot seal (Table 8-13). -/
def stageLost (d : Dev) (j : Nat) (jb : Job) (r : Region) (rn k : Nat) : Dev :=
  let s := stageSpan j jb r rn k
  let d1 := memUeTrap d s.die (jobInfo d j) (spanStripe d s) 1
  if jb.inFlight then markJob d1 j (ueCause d (updDie s.die)) else d1

/-- Has the step in flight touched a slab on the module? -/
def touched (jb : Job) (rn k : Nat) : Bool :=
  jb.writes.any (fun w => w.region == rn && w.slab == k) ||
  (match getRegion jb rn with
   | none => false
   | some r =>
     let s := getSlab r k
     [s.tag0, s.tag1].any fun t => tagWritten t && !tagBase t && tagStep t == jb.stepCur)

/-- A slab's valid copy or its tag word is lost: DAMAGED, the step that touches it cannot seal, and a repair is due (Table 8-13,
R631). -/
def damageNow (d : Dev) (j rn k cause : Nat) : Dev :=
  match getJob d j with
  | none => d
  | some jb =>
    let d0 := match getRegion jb rn with | some r => writeMeta d j jb r rn k | none => d
    let d1 := setDamaged d0 j rn k true
    let d2 := if jb.inFlight && touched jb rn k then markJob d1 j cause else d1
    updJob d2 j fun jb => { jb with repairs := if jb.repairs.contains (rn, k) then jb.repairs else jb.repairs ++ [(rn, k)] }

/-- An uncorrectable read of a slab: area 0 and 1 its copies, 2 metadata, 3 staging. An error on metadata is one on the tag
word of the valid copy, and on the NORM and the staging marks of a slab that the step in flight covers. After the vote the new copy of a touched slab counts as the copy that becomes valid (R337). -/
def memUeNow (d : Dev) (j rn k area : Nat) : Dev :=
  match getJob d j with
  | none => d
  | some jb =>
    match getRegion jb rn with
    | none => d
    | some r =>
      if area = 3 then stageLost d j jb r rn k
      else
        let sp := if area = 2 then metaSpan j jb r rn k else copySpan j jb r rn k area (1024 * regionW r)
        let cause := ueCause d (updDie sp.die)
        let d0 := memUeTrap d sp.die (jobInfo d j) (spanStripe d sp) (if area = 2 then 2 else 0)
        let d1 := if area = 2 && inBuckets d j jb rn k then markJob d0 j cause else d0
        if area = 2 || validCopy jb.commit (getSlab r k) == some area || (jb.sealSt.state == .prepared && touched jb rn k) then
          damageNow d1 j rn k cause
        else if jb.inFlight && touched jb rn k then markJob d1 j cause
        else d1

/-! ## Prefetchers (R281 to R283) -/

/-- Update die (0 to 3) that holds the spilled entries of a position: the spec splits the area equally over the four and says
no more (DESIGN CHOICE, log 54). -/
def ovfDie (pos : Nat) : Nat := pos % 4

/-- Numbers of the prefetchers of a class (Table 8-12). -/
def classRange : WalkFor → List Nat
  | .update .. => List.range 16
  | .hoist .. => rangeFrom 16 8
  | .staging .. => rangeFrom 24 4
  | .service .. => rangeFrom 28 4

/-- Slabs of a context's bucket with a home on die `u`, in bucket order. -/
def homeSlabs (d : Dev) (j : Nat) (c u : Nat) : List (Nat × Nat) :=
  match getJob d j with
  | none => []
  | some jb =>
    let x := getCtx d c
    match getRegion jb x.p.region with
    | none => []
    | some r =>
      (List.range x.p.nslab).filterMap fun b =>
        let k := x.p.first + b
        if ownsSlab jb r k && homeDie jb.q r x.p.region k == u then some (b, k) else none

/-- Home slabs on die `u` of a hoist request that it still waits for, in its order. -/
def hoistSlabs (jb : Job) (r : Region) (h : Hoist) (u : Nat) : List Nat :=
  h.todo.filter fun k => ownsSlab jb r k && homeDie jb.q r h.region k == u

/-- The slabs a walk is to have read ahead, with their job, region and whether it takes states too: from the lowest unfinished slab
on, 64 further ones. -/
def walkWants (d : Dev) (u : Nat) (w : WalkFor) : Option (Nat × Nat × List Nat) :=
  match w with
  | .update c ep =>
    let x := getCtx d c
    match x.holder with
    | some j =>
      if x.state == .opened && x.epoch == ep then
        some (j, x.p.region, (((homeSlabs d j c u).filter fun e => !x.updated.contains e.1).take 65).map (·.2))
      else none
    | none => none
  | .staging c ep => if (getCtx d c).epoch = ep && ((getCtx d c).state == .opened || (getCtx d c).state == .done) then some (0, 0, []) else none
  | .hoist j m tag =>
    (getJob d j).bind fun jb => (jb.hoists.find? fun h => h.member == m && h.tag == tag).bind fun h =>
      (getRegion jb h.region).map fun r => (j, h.region, (hoistSlabs jb r h u).take 65)
  | .service 64 3 => some (0, 0, [])
  | .service 64 _ => if d.ctxs.any fun e => e.2.spilled.any fun s => ovfDie s.1 == u && !s.2.isEmpty then some (0, 0, []) else none
  | .service j s =>
    (getJob d j).bind fun jb =>
      if (s == 0 && jb.snap.active) || (s == 1 && jb.rebuild.isSome) || (s == 2 && !(jb.deltaWait.isEmpty && jb.baseWait.isEmpty)) then some (j, 0, [])
      else none

/-- Bytes that a read of a slab takes from copy `c`: the parameter array, and the states unless the copy is fresh or the read
is a hoist's. -/
def readLen (r : Region) (t : W64) (hoist : Bool) : Nat := if hoist || tagFresh t then paramBytes r else 1024 * regionW r

/-- Lines of the cache that hold a span. -/
def spanLines (d : Dev) (s : Span) : List Nat := (spanStripes (getMem d s.die) s).map (·.1)

/-- Read the metadata record of a slab: from the cache, or from memory into it. -/
def readMeta (d : Dev) (j : Nat) (jb : Job) (r : Region) (rn k : Nat) : MemRead :=
  let s := metaSpan j jb r rn k
  if (spanLines d s).all (getMem d s.die).metas.contains then { dev := d }
  else
    let a := readSpan d s
    if a.bad.isSome then a
    else { a with dev := updMem a.dev s.die fun m => { m with metas := (spanLines d s).foldl (addLine (partCap d s.die 1)) m.metas } }

/-- A prefetcher reads a slab ahead: its metadata, then its valid copy into the frame cache. What does not decode is left for the
read on demand. -/
def readAhead (d : Dev) (u i j rn k : Nat) (hoist : Bool) : Dev :=
  match getJob d j with
  | none => d
  | some jb =>
    match getRegion jb rn with
    | none => d
    | some r =>
      let sl := getSlab r k
      let a := readMeta d j jb r rn k
      match a.bad, validCopy jb.commit sl with
      | none, some c =>
        let s := copySpan j jb r rn k c (readLen r (slabTag sl c) hoist)
        let b := readSpan a.dev s
        if b.bad.isSome || !b.fixes.isEmpty then b.dev
        else updMem b.dev u fun m =>
          { m with frames := (spanLines d s).foldl (addLine (partCap d s.die 0)) m.frames
                   walks := SMap.upd m.walks i fun w => { w with ahead := w.ahead ++ [(k, c)] } }
      | _, _ => a.dev

/-- A bound prefetcher reads on; one whose context or request has ended is released. -/
def walkOn (d : Dev) (u i : Nat) : Dev :=
  match SMap.get? (getMem d u).walks i with
  | none => d
  | some w =>
    match walkWants d u w.for_ with
    | none => updMem d u fun m => { m with walks := SMap.del m.walks i }
    | some (j, rn, ks) =>
      let d1 := updMem d u fun m => { m with walks := SMap.set m.walks i { w with ahead := w.ahead.filter fun a => ks.contains a.1 } }
      let hoist := match w.for_ with | .hoist .. => true | _ => false
      forEach (ks.filter fun k => !(w.ahead.any fun a => a.1 == k)) d1 fun d' k => readAhead d' u i j rn k hoist

/-- Put a context behind those that opened before it. -/
def insertByOrder (x : Nat × Nat) : List (Nat × Nat) → List (Nat × Nat)
  | [] => [x]
  | y :: l => if x.1 < y.1 then x :: y :: l else y :: insertByOrder x l

/-- Open contexts with home slabs on a die, the earliest opened first (R282). -/
def openOn (d : Dev) (u : Nat) : List WalkFor :=
  let l := d.ctxs.foldl (fun a e =>
    match e.2.holder with
    | some j => if e.2.state == .opened && !(homeSlabs d j e.1 u).isEmpty then insertByOrder (e.2.order, e.1) a else a
    | none => a) []
  l.map fun e => .update e.2 (getCtx d e.2).epoch

/-- What asks for a prefetcher of a die: contexts, hoist requests, and the streams of Table 8-12. -/
def walkAsks (d : Dev) (u : Nat) : List WalkFor :=
  openOn d u ++
  (d.jobs.flatMap fun e => (e.2.hoists.filter fun h =>
    match getRegion e.2 h.region with | some r => !(hoistSlabs e.2 r h u).isEmpty | none => false).map fun h => .hoist e.1 h.member h.tag) ++
  (d.jobs.flatMap fun e => (List.range 3).map fun s => .service e.1 s) ++ [.service 64 4]

/-- Bind a free prefetcher of its class to what asks for one. -/
def bindWalk (d : Dev) (u : Nat) (w : WalkFor) : Dev :=
  let ws := (getMem d u).walks
  if ws.any (fun e => e.2.for_ == w) || (walkWants d u w).isNone then d
  else
    match (classRange w).find? fun i => !SMap.has ws i with
    | some i => updMem d u fun m => { m with walks := SMap.set m.walks i { for_ := w } }
    | none => d

/-- The prefetchers of a die: those that are done are released, what waits is bound, and each reads on. When they do so takes no
part of what is read: the model lets them run as a context opens and before every read of the die (log 96). -/
def walkDie (d : Dev) (u : Nat) : Dev :=
  let on (d : Dev) : Dev := forEach (SMap.keys (getMem d u).walks) d fun d' i => walkOn d' u i
  let d1 := on d
  on (forEach (walkAsks d1 u) d1 fun d' w => bindWalk d' u w)

/-- A slab's copy is read for an update or a hoist (R283): from the frame cache when a prefetcher of one of `ws` took that very
copy and its lines are still there, otherwise from memory on demand. Lines are counted. -/
def fetchCopy (d : Dev) (ws : List WalkFor) (s : Span) (k c : Nat) : MemRead :=
  let m := getMem d s.die
  let lines := spanLines d s
  if (m.walks.any fun e => ws.contains e.2.for_ && e.2.ahead.contains (k, c)) && lines.all m.frames.contains then
    { dev := bumpBy d ctrPfHit (updDie s.die) lines.length }
  else readSpan (bumpBy d ctrPfMiss (updDie s.die) lines.length) s

/-- Staging is read (R65, R68): lines that a staging prefetcher read ahead come from the cache. The prefetcher bound to the context
then reads the staging of the next slabs ahead, `next`. -/
def fetchStage (d : Dev) (w : WalkFor) (s : Span) (next : List Span) : MemRead :=
  let d0 := bindWalk d s.die w
  let m := getMem d0 s.die
  let lines := spanLines d0 s
  let a := if lines.all m.stage.contains then ({ dev := bumpBy d0 ctrPfHit (updDie s.die) lines.length } : MemRead)
    else readSpan (bumpBy d0 ctrPfMiss (updDie s.die) lines.length) s
  if !(m.walks.any fun e => e.2.for_ == w) then a
  else
    { a with dev := forEach next a.dev fun d' t =>
        if (spanLines d' t).all (getMem d' t.die).stage.contains then d'
        else
          let b := readSpan d' t
          if b.bad.isSome || !b.fixes.isEmpty then b.dev
          else updMem b.dev t.die fun m => { m with stage := (spanLines d' t).foldl (addLine (partCap d t.die 2)) m.stage } }

/-- A service stream reads a span: its prefetcher has read the lines just ahead of it, else they are read on demand (R283). -/
def fetchService (d : Dev) (w : WalkFor) (s : Span) : MemRead :=
  let ws := (getMem d s.die).walks
  let d1 := match (classRange w).find? fun i => !(ws.any fun e => e.2.for_ == w) && !SMap.has ws i with
    | some i => updMem d s.die fun m => { m with walks := SMap.set m.walks i { for_ := w } }
    | none => d
  let n := (spanLines d s).length
  readSpan (bumpBy d1 (if (getMem d1 s.die).walks.any fun e => e.2.for_ == w then ctrPfHit else ctrPfMiss) (updDie s.die) n) s

/-- Read slabs for a stream of a job: false when one is DAMAGED or does not decode, which damages it. -/
def readSlabs (d : Dev) (j stream : Nat) : List (Nat × Nat) → Dev × Bool
  | [] => (d, true)
  | (rn, k) :: l =>
    let (d1, ok) := readSlabs d j stream l
    match (getJob d1 j).bind fun jb => (getRegion jb rn).map fun r => (jb, r) with
    | none => (d1, ok)
    | some (jb, r) =>
      let s := getSlab r k
      let a := readMeta d1 j jb r rn k
      match a.bad, validCopy jb.commit s with
      | some _, _ => (memUeNow a.dev j rn k 2, false)
      | none, none => if s.damaged then (a.dev, false) else (memUeNow a.dev j rn k 2, false)
      | none, some c =>
        if s.damaged then (a.dev, false)
        else
          let b := fetchService a.dev (.service j stream) (copySpan j jb r rn k c (readLen r (slabTag s c) false))
          if b.bad.isSome then (memUeNow b.dev j rn k c, false) else (b.dev, ok)

/-- A write of a slab's staging and its metadata (R276): what the cache held of the lines is written with them. -/
def writeStage (d : Dev) (j : Nat) (jb : Job) (r : Region) (rn k : Nat) : Dev :=
  writeMeta (writeSpan d (stageSpan j jb r rn k)) j jb r rn k

/-! ## Record buffers (R673) -/

/-- The four words of a block. -/
def blockWords (x : BitVec 256) : List W64 := (List.range 4).map fun i => x.extractLsb' (64 * i) 64

/-- Bytes `off` to `off + len` of a record buffer: its stripes lie on the four update dies in turn (DESIGN CHOICE, log 95). -/
def recSpans (j : Nat) (side : Bool) (off len : Nat) : List Span :=
  (rangeFrom (off / 1920) (if len = 0 then 0 else (off + len + 1919) / 1920 - off / 1920)).map fun i =>
    let lo := max off (1920 * i)
    { die := i % 4, key := recExt j side, off := 1920 * (i / 4) + lo % 1920, len := min (off + len) (1920 * i + 1920) - lo }

/-- Stream offset of a byte of a record's extent on die `u`. -/
def recOff (u eo : Nat) : Nat := 1920 * (4 * (eo / 1920) + u) + eo % 1920

/-- XOR a block at a stream offset into words that begin at offset `base`. -/
def xorStream (base : Nat) (ws : List W64) (f : Nat × BitVec 256) : List W64 :=
  (blockWords f.2).zipIdx.foldl (fun l e =>
    if base ≤ f.1 + 8 * e.2 then l.modify ((f.1 + 8 * e.2 - base) / 8) (· ^^^ e.1) else l) ws

/-! ## What decoding leaves wrong -/

/-- Change element `i` of a list of lanes; lanes not listed hold 0. -/
def xorLane : List W64 → Nat → W64 → List W64
  | [], 0, v => [v]
  | [], i + 1, v => 0 :: xorLane [] i v
  | a :: l, 0, v => (a ^^^ v) :: l
  | a :: l, i + 1, v => a :: xorLane l i v

/-- XOR the 32 bytes of a block into elements of `w` bytes from lane `i` on; `n` elements. -/
def xorLanes (w : Nat) : Nat → Nat → BitVec 256 → List W64 → List W64
  | 0, _, _, l => l
  | n + 1, i, x, l =>
    let v : W64 := BitVec.ofNat 64 (x.toNat % 2 ^ (8 * w))
    xorLanes w n (i + 1) (x >>> (8 * w)) (if v = 0 then l else xorLane l i v)

/-- XOR a block into the arrays of a copy at a byte offset. -/
def xorArrays : List Byte → List (List W64) → Nat → BitVec 256 → List (List W64)
  | [], as, _, _ => as
  | f :: fs, as, off, x =>
    let w := fmtBytes (ofmtFmt f)
    let a := as.headD []
    if off < 1024 * w then xorLanes w (32 / w) (off / w) x a :: as.tail
    else a :: xorArrays fs as.tail (off - 1024 * w) x

/-- A copy with blocks changed, at their offsets in the copy. -/
def xorCopy (r : Region) (c : CopyData) (l : List (Nat × BitVec 256)) : CopyData :=
  { c with arrays := l.foldl (fun as e => xorArrays (arrayFmts r) as e.1 e.2) c.arrays }

/-- A copy as a read finds it, with the blocks that decoding left wrong. -/
def copyAsRead (r : Region) (c : CopyData) (s : Span) (l : List (Nat × BitVec 256)) : CopyData :=
  if l.isEmpty then c else xorCopy r c (l.map fun e => (e.1 - s.off, e.2))

/-- Staging values as a read finds them. -/
def stageAsRead (v : List F64) (s : Span) (l : List (Nat × BitVec 256)) : List F64 :=
  l.foldl (fun a e => (xorLanes 8 4 ((e.1 - s.off) / 8) e.2 a).take v.length) v

end Sys2Proof.Machine
end

