-- ==== Sys2Proof/Machine/ParityOps.lean ====
section
/-!
DEFINITION. Sys2Proof/Machine/ParityOps.lean: protected images and their rows (R617, R618), deltas sent (R346, R620, R621), and what
held rows are made of (R619). What a holder does with pieces is in HeldParity.lean.
-/
namespace Sys2Proof.Machine

/-- Change the parity state. -/
def updPar (d : Dev) (f : ParitySt → ParitySt) : Dev := { d with parity := f d.parity }

/-! ## Layout (R617, R618) -/

/-- KEY_SERIAL of a job. -/
def jobKey (jb : Job) : W64 := wordAt jb.serials 0
/-- Word offset of a slab's image in the region's part of the protected space. -/
def imageOff (q : Nat) (r : Region) (k : Nat) : Nat := localIdx q r k * imageLen r
/-- row_of (R618). -/
def rowOf (c p : Nat) : Nat := 8 * (c / 7) + (if c % 7 < p then c % 7 else c % 7 + 1)
/-- holder (R618). -/
def rowHolder (n : Nat) : Nat := n % 8
/-- The chunk that position `p` has in row `n`; none when it is the row's holder. -/
def chunkOf (n p : Nat) : Option Nat :=
  if n % 8 = p then none else some (7 * (n / 8) + (if n % 8 < p then n % 8 else n % 8 - 1))

/-- The protected image of a copy: arrays, then the tag with WRITTEN and BASE 0 (R617). -/
def protImage (r : Region) (c : CopyData) (tag : W64) : List W64 :=
  imageWords r c (mkTag false false (tagFresh tag) (tagStep tag))

/-- The protected image of a slab's valid copy; zeros when none is valid. -/
def slabImage (jb : Job) (r : Region) (k : Nat) : List W64 :=
  let s := getSlab r k
  match validCopy jb.commit s with
  | some c => protImage r (slabCopy s c) (slabTag s c)
  | none => List.replicate (imageLen r) 0

/-- XOR of two word lists of one length. -/
def xorWords (a b : List W64) : List W64 := List.zipWith (fun x y => x ^^^ y) a b

/-! ## Sending (R620, R621) -/

/-- Send a VC4 packet to a position of the group. -/
def sendPos (d : Dev) (j pos : Nat) (words : List W64) : Dev :=
  match d.parity.group with
  | none => d
  | some g =>
    match addrOf d (wordAt g.serials pos) with
    | some a => sendAddr d 4 j a words
    | none => bump d ctrRouteDrop 0

/-- Send a VC4 packet to a position and keep it until it is acknowledged (R623). -/
def sendPosHeld (d : Dev) (j pos ptype : Nat) (key : List Nat) (words : List W64) : Dev :=
  let h : Held := { ptype := ptype, job := j, dst := pos, key := key, vc := 4, words := words, sentAt := d.nowUs, since := d.nowUs }
  sendPos (updJob d j fun jb => { jb with held := jb.held ++ [h] }) j pos words

/-- Words 0x10 to 0x20 of a PARITY_DELTA. -/
def deltaHead (attempt : Nat) (base : Bool) (pos step region row off slab ord len : Nat) : List W64 :=
  [ mkWord [(attempt % 256, 56), (bit base, 55), (pos, 48), (step % 2 ^ 48, 0)]
  , mkWord [(region, 50), (row, 23), (off, 6)]
  , mkWord [(slab, 32), (ord, 23), (len, 0)] ]

/-- Pieces of a delta from word `w` of the region's space on: each within a chunk, at most 1,023 words; `fuel` pieces. -/
def cutPieces : Nat → Nat → List W64 → List (Nat × List W64)
  | 0, _, _ => []
  | fuel + 1, w, ws =>
    match ws with
    | [] => []
    | _ =>
      let n := min 1023 (131072 - w % 131072)
      (w, ws.take n) :: cutPieces fuel (w + n) (ws.drop n)

/-- What a delta belongs to. -/
structure DeltaFor where
  step    : Nat
  attempt : Nat
  base    : Bool

/-- Send one piece, or count it unprotected when its holder is lost (R620). -/
def sendPiece (d : Dev) (j rn k : Nat) (g : ParGroup) (jb : Job) (f : DeltaFor) (pc : Nat × List W64) : Dev :=
  let row := rowOf (pc.1 / 131072) g.pos
  let off := pc.1 % 131072
  let h := rowHolder row
  if d.parity.lost.contains h then bump d ctrUnprotPieces j
  else
    let ws := mkPacket 0x40 j ([jobKey jb] ++ deltaHead f.attempt f.base g.pos f.step rn row off k jb.ordinal (8 * pc.2.length) ++ pc.2)
    let d1 := sendPosHeld d j h 0x40 [bit f.base, f.step, f.attempt, rn, k, pc.1] ws
    if f.base then updJob d1 j fun jb => { jb with baseWait := jb.baseWait ++ [(rn, k, pc.1)] }
    else updJob d1 j fun jb =>
      { jb with deltaWait := jb.deltaWait ++ [(rn, k, pc.1)], sealSt := { jb.sealSt with holders := insNat h jb.sealSt.holders } }

/-- Send the delta of a slab, from its first word `at_` within the image on. A module without a group sends none (R615); so
does one whose group claim was refused (R704). -/
def sendDelta (d : Dev) (j rn k at_ : Nat) (f : DeltaFor) (delta : List W64) : Dev :=
  match getJob d j, d.parity.group with
  | some jb, some g =>
    if d.start.claimBad then d
    else
      match getRegion jb rn with
      | none => d
      | some r => forEach (cutPieces 130 (imageOff jb.q r k + at_) delta) d fun d' pc => sendPiece d' j rn k g jb f pc
  | _, _ => d

/-- The next BASE_OP of a region (R638). -/
def nextBaseOp (d : Dev) (j rn : Nat) : Nat × Dev :=
  let n := SMap.getD d.parity.baseOps (16384 * j + rn) 0
  (n, updPar d fun p => { p with baseOps := SMap.set p.baseOps (16384 * j + rn) ((n + 1) % 256) })

/-- PARITY_CTL to a holder (Table 18-2), kept until acknowledged. -/
def sendCtl (d : Dev) (j pos kind step attempt : Nat) : Dev :=
  match getJob d j, d.parity.group with
  | some jb, some g =>
    sendPosHeld d j pos 0x42 [kind, step, attempt]
      (mkPacket 0x42 j [jobKey jb, mkWord [(attempt % 256, 56), (g.pos, 48), (step % 2 ^ 48, 0)], mkWord [(kind, 0)]])
  | _, _ => d

/-- PARITY_APPLY of a sealed step to every holder its deltas went to (R341). -/
def sendApply (d : Dev) (j step attempt : Nat) : Dev :=
  match getJob d j with
  | none => d
  | some jb =>
    let hs := jb.sealSt.applyWait.filter fun h => !d.parity.lost.contains h
    forEach hs (updJob d j fun jb => { jb with sealSt := { jb.sealSt with applyWait := hs } })
      fun d' h => sendCtl d' j h 1 step attempt

/-! ## Held parity (R619, R622) -/

/-- Is a row of a table the one named? -/
def sameRow (key : W64) (job region row : Nat) (r : ParRow) : Bool :=
  r.key == key && r.job == job && r.region == region && r.row == row

/-- XOR words into a sparse chunk from word `o` on; words that become 0 are not listed. -/
def xorInto : SMap W64 → Nat → List W64 → SMap W64
  | m, _, [] => m
  | m, o, w :: r =>
    let v := SMap.getD m o 0 ^^^ w
    xorInto (if v = 0 then SMap.del m o else SMap.set m o v) (o + 1) r

/-- XOR one sparse chunk into another. -/
def xorChunk (a b : SMap W64) : SMap W64 := b.foldl (fun m e => xorInto m e.1 [e.2]) a

/-- Bytes of the module's parity area: one-seventh of its protected bytes (Table 8-4). -/
def parityArea (d : Dev) : Nat :=
  (d.jobs.foldl (fun a e => e.2.regions.foldl
    (fun a g => a + ownedCount e.2.q (nSlabs g.2) g.2.deal e.2.ordinal * (8 * imageLen g.2)) a) 0) / 7

/-- Free store space, bytes (Table 8-4). -/
def freeSpace (d : Dev) : Nat :=
  1327257108480 - d.jobs.foldl (fun a e => a + e.2.charge) 0 - 2 ^ 20 * borrowedChunks d

/-! ## Base writes with their deltas (R274, R621) -/

/-- Write a slab as a base write and send its base delta; `silent` for a rebuild, whose parity covers it already. -/
def baseWriteSlab (d : Dev) (j rn k : Nat) (data : CopyData) (fresh : Bool) (step : Nat) (silent : Bool) : Dev :=
  match getJob d j with
  | none => d
  | some jb =>
    match getRegion jb rn with
    | none => d
    | some r =>
      let old := slabImage jb r k
      let s := getSlab r k
      let s1 := baseWrite jb.commit s data fresh step
      let d1 := setDamaged d j rn k false
      let c := match validCopy jb.commit s with | some v => 1 - v | none => 0
      let d2 := writeCopy (setSlab d1 j rn k s1) j jb r rn k c
      if silent then d2
      else
        let (op, d3) := nextBaseOp d2 j rn
        let new_ := protImage r data (mkTag false false fresh step)
        sendDelta d3 j rn k 0 { step := step, attempt := op, base := true } (xorWords old new_)

end Sys2Proof.Machine
end

