-- ==== Sys2Proof/Machine/Loads.lean ====
section
/-!
DEFINITION. Sys2Proof/Machine/Loads.lean: transfers with storage members: snapshots (R633 to R636), parameter loads (R449) and
restores (R637), and the end of commands that wait for base deltas (R621); and their rows SLAB_XFER, XFER_ACK and
XFER_TIMEOUT.
-/
namespace Sys2Proof.Machine

/-! ## Snapshots -/

/-- Enabled storage members, in ascending STOREn order. -/
def storeMembers (jb : Job) : List Nat :=
  ((List.range 4).filter fun i => (jb.snapEn / 2 ^ i) % 2 == 1).map fun i => jb.snapMem.getD i 0

/-- ARRAY numbers of a region's arrays in order. -/
def arrayNums (r : Region) : List Nat := 0 :: stateNums r

/-- Halves of an array that hold a real lane of slab `k`. -/
def halves (r : Region) (k : Nat) : List Nat := if 512 < realLanes r k then [0, 1] else [0]

/-- The words of one SLAB_XFER (Table 18-2) from a copy: `i` is the array's place in the copy, `a` its number. -/
def xferWords (j : Nat) (object : W64) (r : Region) (rn k step i a half : Nat) (c : CopyData) (tag : W64) : List W64 :=
  let f := r.fmts.getD a 0
  let lanes := (rangeFrom (512 * half) 512).map fun l => if l < realLanes r k then copyElem c i l else 0
  mkPacket 0x45 j
    ([ object, mkWord [(a, 62), (rn, 48), (step % 2 ^ 48, 0)]
     , mkWord [(k, 32), (0, 30), (half, 29), (f.toNat, 21)], mkWord [(bit (tagFresh tag), 48), (tagStep tag, 0)] ] ++
     bytesWords (elemBytes (fmtBytes (ofmtFmt f)) lanes))

/-- Send one packet of a snapshot to a storage member, kept until it is acknowledged. -/
def sendXfer (d : Dev) (j m : Nat) (key : List Nat) (words : List W64) : Dev :=
  let h : Held := { ptype := 0x45, job := j, dst := m, key := key, vc := 4, words := words, sentAt := d.nowUs, since := d.nowUs }
  let d1 := bumpBy (updJob d j fun jb => { jb with held := jb.held ++ [h] }) ctrSnapBytes j (8 * (words.length - 5))
  sendMember d1 j m 4 words .none

/-- Send every packet of one slab. -/
def snapSlab (d : Dev) (j m rn k step : Nat) : Dev :=
  match getJob d j with
  | none => d
  | some jb =>
    match getRegion jb rn with
    | none => d
    | some r =>
      let s := getSlab r k
      match validCopy jb.commit s with
      | none => d
      | some c =>
        let as := arrayNums r
        forEach (List.range as.length) d fun d1 i =>
          forEach (halves r k) d1 fun d2 h =>
            let a := as.getD i 0
            sendXfer d2 j m [0, a, h, rn, k, step] (xferWords j (jobKey jb) r rn k step i a h (slabCopy s c) (slabTag s c))

/-- A running snapshot whose packets are all acknowledged is complete (R633). -/
def snapSettle (d : Dev) (j : Nat) : Dev :=
  match getJob d j with
  | none => d
  | some jb =>
    if jb.snap.active && !(jb.held.any fun h => h.ptype == 0x45) then
      let d1 := updJob d j fun jb => { jb with snap := { jb.snap with active := false, last := some jb.snap.step } }
      finishCmds d1 (cmdOf j 0x51) (okReply [mkWord [(jb.snap.step % 2 ^ 48, 0)]])
    else d

/-- A seal puts a new snapshot setting in force (R469). -/
def snapSetting (d : Dev) (j : Nat) : Dev :=
  updJob d j fun jb =>
    match jb.snapNext with
    | some (n, en, ms) => { jb with snapInt := n, snapEn := en, snapMem := ms, snapNext := none }
    | none => jb

/-- The codes other than ST_OK that a final reply may carry: those Table 12-6 marks R (R416). -/
def failCodes : List Nat :=
  [ stIllegal, stLimit, stInUse, stAuth, stBadVersion, stBadOpcode, stBadLength, stSeqOld, stSeqRange, stSeqReuse, stNoSession
  , stNotReady, stBadSig, stNoAccum, stNoMem, stLate, stMismatch, stAborted, stUnitFail, stStaleEpoch, stSealPending, stStepDecided
  , stStaleStep ]

/-- A snapshot ends incomplete (R635). The status of a SNAP_TAKE that waited for it is not stated: a free one of `failCodes`
(log 2). -/
def failSnap (d : Dev) (j : Nat) : Dev :=
  match getJob d j with
  | none => d
  | some jb =>
    if !jb.snap.active then d
    else
      let d1 := dropHeld (updJob d j fun jb => { jb with snap := { jb.snap with active := false } }) j fun h => h.ptype == 0x45
      let d2 := raiseTrap d1 { cause := 0xB3, job := some (j, stepShown jb, jb.attempt) }
      if d2.mgmt.waiting.any (cmdOf j 0x51) then
        let (w, d3) := drawFree d2
        finishCmds d3 (cmdOf j 0x51) (plainReply (failCodes.getD (w.toNat % failCodes.length) stIllegal) 0)
      else d2

/-- Start a snapshot of the step at the commit point: its image is read whole (R634). A slab that is DAMAGED or does
not decode cannot be sent: the snapshot ends incomplete (DESIGN CHOICE, log 95). -/
def startSnap (d : Dev) (j step : Nat) : Dev :=
  match getJob d j with
  | none => d
  | some jb =>
    let ms := storeMembers jb
    let all := jb.regions.flatMap fun e => (ownedSlabs jb e.2).map fun k => (e.1, k, localIdx jb.q e.2 k)
    let d1 := updJob d j fun jb => { jb with snap := { jb.snap with active := true, step := step, total := all.length } }
    let (d2, ok) := readSlabs d1 j 0 (all.map fun s => (s.1, s.2.1))
    if !ok then failSnap d2 j
    else snapSettle (forEach all d2 fun d' s => snapSlab d' j (ms.getD (s.2.2 % ms.length) 0) s.1 s.2.1 step) j

/-- A snapshot falls due at a commit (R633, R635). -/
def snapDue (d : Dev) (j step : Nat) : Dev :=
  match getJob d j with
  | none => d
  | some jb =>
    if step % jb.snapInt != 0 || (storeMembers jb).isEmpty then d
    else if jb.snap.active then bump d ctrSnapSkip j
    else startSnap d j step

/-- Slabs the snapshot in progress has written: those with no packet outstanding. -/
def snapWritten (jb : Job) : Nat :=
  if !jb.snap.active then 0
  else
    let open_ := (jb.held.filter fun h => h.ptype == 0x45).foldl (fun (a : List (List Nat)) h =>
      let id := [h.key.getD 3 0, h.key.getD 4 0]
      if a.contains id then a else id :: a) []
    jb.snap.total - open_.length

/-! ## Loads and restores -/

/-- Runs of at most 65,536 slabs. -/
def cutRuns : Nat → List Nat → List (Nat × Nat)
  | 0, _ => []
  | fuel + 1, l =>
    match l with
    | [] => []
    | k :: _ => (k, min 65536 l.length) :: cutRuns fuel (l.drop 65536)

/-- Request a run of slabs from a storage member (XFER_REQ), kept until the member answers. -/
def sendXferReq (d : Dev) (j q : Nat) (l : Load) (rn : Nat) (run : Nat × Nat) : Dev :=
  let ws := mkPacket 0x46 j
    [ l.object, mkWord [(rn, 48), (l.step % 2 ^ 48, 0)]
    , mkWord [(run.1, 32), (l.kind, 30), (q - 1, 16), (run.2 - 1, 0)] ]
  let h : Held := { ptype := 0x46, job := j, dst := l.member, key := [l.kind, rn, run.1, run.2], vc := 4, words := ws
                    sentAt := d.nowUs, since := d.nowUs }
  sendMember (updJob d j fun jb => { jb with held := jb.held ++ [h] }) j l.member 4 ws .none

/-- Begin a load of the given slabs by region. -/
def startLoad (d : Dev) (j : Nat) (l : Load) (slabs : List (Nat × List Nat)) : Dev :=
  match getJob d j with
  | none => d
  | some jb =>
    let want := slabs.flatMap fun e => e.2.map fun k => ({ region := e.1, slab := k } : Fetch)
    let d1 := updJob d j fun jb => { jb with loads := jb.loads ++ [{ l with pending := want, startAt := d.nowUs }] }
    forEach slabs d1 fun d' e => forEach (cutRuns (e.2.length + 1) e.2) d' fun d'' run => sendXferReq d'' j jb.q l e.1 run

/-- Do base deltas of a region wait for acknowledgment (R621)? -/
def baseBusy (jb : Job) (rn : Nat) : Bool := jb.baseWait.any fun w => w.1 == rn

/-- Is a load at its end: every slab written or missing, every base delta acknowledged? -/
def loadEnded (jb : Job) (l : Load) : Bool :=
  l.pending.isEmpty && (if l.kind = 2 then !baseBusy jb l.region else jb.baseWait.isEmpty)

/-- The commit word a restore or rebuild writes, with STEP_CUR and ATTEMPT (R329, R629, R637): the module serves its shard
again, and every haul setting is the one of the next step (R292). A step in flight that a graph release began without a context
ends with it (DESIGN CHOICE, log 101). -/
def setCommit (d : Dev) (j : Nat) (commit : W64) (step attempt : Nat) : Dev :=
  releaseReads (updJob d j fun jb =>
    { jb with commit := commit, stepCur := step + 1, attempt := attempt, stopped := false, sealSt := {}, inFlight := false, buckets := []
              members := SMap.mapV (fun _ m => { m with was := [] }) jb.members
              regions := SMap.mapV (fun _ r => { r with haulWas := none }) jb.regions
              updStop := false, dieStop := [], norm := {}, nfTrap := false, values := [], sealedRun := false }) j

/-- End a load: its reply, and for a restore the commit word. -/
def endLoad (d : Dev) (j : Nat) (l : Load) : Dev :=
  let d1 := updJob d j fun jb => { jb with loads := jb.loads.filter fun x => !(x.kind == l.kind && x.region == l.region) }
  let body := okReply [mkWord [(l.written, 32), (l.missing, 0)]]
  if l.kind = 2 then finishCmds d1 (fun w => cmdOf j 0x22 w && w.object == l.region) body
  else finishCmds (setCommit d1 j (mkCommit l.step 0) l.step 0) (cmdOf j 0x52) body

/-- Commands that waited for base deltas or slabs end when these are done: region creation and destruction, loads, restores. -/
def baseSettle (d : Dev) (j : Nat) : Dev :=
  match getJob d j with
  | none => d
  | some jb =>
    let d1 := finishCmds d (fun w => (cmdOf j 0x20 w || cmdOf j 0x21 w) && !baseBusy jb w.object) (plainReply stOk 0)
    forEach (jb.loads.filter (loadEnded jb)) d1 fun d' l => endLoad d' j l

/-- Change the load a packet belongs to. -/
def updLoad (d : Dev) (j kind rn : Nat) (f : Load → Load) : Dev :=
  updJob d j fun jb => { jb with loads := jb.loads.map fun l => if l.kind == kind && (kind == 1 || l.region == rn) then f l else l }

/-- Take a slab out of a load. -/
def doneFetch (rn k : Nat) (l : Load) : Load :=
  { l with pending := l.pending.filter fun f => !(f.region == rn && f.slab == k) }

/-- A slab of a load is missing. -/
def missSlab (d : Dev) (j kind rn k : Nat) : Dev :=
  baseSettle (updLoad d j kind rn fun l => { doneFetch rn k l with missing := l.missing + 1 }) j

/-- ARRAY numbers a load writes. -/
def loadArrays (l : Load) (r : Region) : List Nat := if l.states then arrayNums r else [0]

/-- Have all packets of a slab arrived? -/
def fetchWhole (l : Load) (r : Region) (f : Fetch) : Bool :=
  (loadArrays l r).all fun a => (halves r f.slab).all fun h => SMap.has f.parts (2 * a + h)

/-- Real lanes of an array from the packets of a slab. -/
def fetchArray (r : Region) (f : Fetch) (a : Nat) : List W64 :=
  let w := fmtBytes (ofmtFmt (r.fmts.getD a 0))
  let half (h : Nat) : List W64 := bytesElems w 512 (wordsBytes (SMap.getD f.parts (2 * a + h) []))
  (half 0 ++ (if 512 < realLanes r f.slab then half 1 else [])).take (realLanes r f.slab)

/-- The data a load writes: its arrays; the others keep what the written copy held. -/
def fetchData (jb : Job) (l : Load) (r : Region) (f : Fetch) : CopyData :=
  let s := getSlab r f.slab
  let c := match validCopy jb.commit s with | some v => 1 - v | none => 0
  let old := slabCopy s c
  let as := arrayNums r
  { arrays := (List.range as.length).map fun i =>
      if (loadArrays l r).contains (as.getD i 0) then fetchArray r f (as.getD i 0) else old.arrays.getD i [] }

/-- Does every element that a slab's packets bring hold a finite value (R116)? -/
def fetchFinite (l : Load) (r : Region) (f : Fetch) : Bool :=
  (loadArrays l r).all fun a => (fetchArray r f a).all fun v =>
    match ingestElem (ofmtFmt (r.fmts.getD a 0)) v 0 with | .ok _ => true | .error _ => false

/-- A packet of a slab arrives for a load. A stored element is never infinity or NaN (R116), and the spec names no check of a load for
one: a slab that brings one is counted missing, as one of another format is (DESIGN CHOICE, log 78). -/
def takePart (d : Dev) (j : Nat) (l : Load) (r : Region) (f : Fetch) (key fresh step : Nat) (data : List W64) : Dev :=
  let f1 := { f with parts := SMap.set f.parts key data, fresh := fresh == 1, step := step }
  if fetchWhole l r f1 && !fetchFinite l r f1 then missSlab d j l.kind f.region f.slab
  else if fetchWhole l r f1 then
    match getJob d j with
    | none => d
    | some jb =>
      let fr := if l.kind = 1 then f1.fresh else !l.states
      let st := if l.kind = 1 then f1.step else baseTagStep jb
      let d1 := baseWriteSlab d j f.region f.slab (fetchData jb l r f1) fr st false
      baseSettle (updLoad d1 j l.kind f.region fun l => { doneFetch f.region f.slab l with written := l.written + 1 }) j
  else
    updLoad d j l.kind f.region fun l =>
      { l with pending := l.pending.map fun g => if g.region == f.region && g.slab == f.slab then f1 else g }

/-- The storage member has answered for a slab: its request is not sent again. -/
def answered (d : Dev) (j kind rn k q : Nat) : Dev :=
  dropHeld d j fun h => h.ptype == 0x46 && h.key.getD 0 0 == kind && h.key.getD 1 0 == rn && decide (h.key.getD 2 0 ≤ k) &&
    decide (k ≤ h.key.getD 2 0 + q * (h.key.getD 3 0 - 1))

/-- The load a member's packet belongs to. -/
def loadFor (jb : Job) (m kind rn : Nat) (object : W64) (step : Nat) : Option Load :=
  jb.loads.find? fun l => l.kind == kind && l.member == m && l.object == object && l.step == step && (kind == 1 || l.region == rn)

/-! ## SLAB_XFER (R449, R637) -/

/-- What makes SLAB_XFER malformed. -/
def slabXferBad (k : PktRx) (d : Dev) : Option Nat :=
  let w := k.words
  let f : Byte := BitVec.ofNat 8 (field (wordAt w 3) 28 21)
  firstBad
    [ (roleBad d k.port 1, 1)
    , (rsvdSet (wordAt w 3) [(20, 0)] || rsvdSet (wordAt w 4) [(63, 49)], 2)
    , (!ofmtStoreOk f, 4)
    , (lenBad w (5 + 64 * fmtBytes (ofmtFmt f)), 3)
    , (field (wordAt w 3) 31 30 == 0 || field (wordAt w 3) 31 30 == 3, 5) ]

/-- A slab half arrives from a storage member. -/
def slabXferIn (d : Dev) (k : PktRx) : Dev :=
  let w := k.words
  let j := pktJob w
  let kind := field (wordAt w 3) 31 30
  let rn := field (wordAt w 2) 61 48
  let sl := field (wordAt w 3) 63 32
  let a := field (wordAt w 2) 63 62
  match getJob d j with
  | none => d
  | some jb =>
    match (memberOn jb k.port).bind fun m => loadFor jb m kind rn (wordAt w 1) (field (wordAt w 2) 47 0), getRegion jb rn with
    | some l, some r =>
      match l.pending.find? fun f => f.region == rn && f.slab == sl with
      | none => d
      | some f =>
        let d1 := answered d j kind rn sl jb.q
        if !(loadArrays l r).contains a || field (wordAt w 3) 28 21 != (r.fmts.getD a 0).toNat then missSlab d1 j kind rn sl
        else
          takePart d1 j l r f (2 * a + field (wordAt w 3) 29 29) (field (wordAt w 4) 48 48) (field (wordAt w 4) 47 0) (w.drop 5)
    | _, _ => d

/-! ## XFER_ACK (R633, R635, R449) -/

/-- What makes XFER_ACK malformed. -/
def xferAckBad (k : PktRx) (d : Dev) : Option Nat :=
  let w := k.words
  firstBad
    [ (roleBad d k.port 1, 1)
    , (rsvdSet (wordAt w 3) [(26, 16)], 2)
    , (lenBad w 4, 3)
    , (field (wordAt w 3) 31 30 == 3, 5) ]

/-- A storage member's answer: a snapshot packet is stored or refused, or a slab of a load is not held. -/
def xferAckIn (d : Dev) (k : PktRx) : Dev :=
  let w := k.words
  let j := pktJob w
  let w3 := wordAt w 3
  let kind := field w3 31 30
  let rn := field (wordAt w 2) 61 48
  let sl := field w3 63 32
  let step := field (wordAt w 2) 47 0
  let st := field w3 15 0
  match getJob d j with
  | none => d
  | some jb =>
    match memberOn jb k.port with
    | none => d
    | some m =>
      if kind = 0 then
        let mine (h : Held) : Bool :=
          h.ptype == 0x45 && h.dst == m && h.key == [0, field w3 29 28, field w3 27 27, rn, sl, step]
        if !(jb.held.any mine) then d
        else if st = stOk then snapSettle (dropHeld d j mine) j
        else failSnap d j
      else
        match loadFor jb m kind rn (wordAt w 1) step with
        | none => d
        | some l =>
          if st != stIllegal || !(l.pending.any fun f => f.region == rn && f.slab == sl) then d
          else missSlab (answered d j kind rn sl jb.q) j kind rn sl

/-- XFER_ACK arrives. -/
def execXferAck (k : PktRx) (s : State) : Host.Outcome State Fault Refusal :=
  onArrival k 0x47 (xferAckBad k) (fun d => xferAckIn d k) s

/-! ## XFER_TIMEOUT (R449, R635, R637) -/

/-- The transfers of a job that have waited 10 s. -/
def xferLapse (d : Dev) (j : Nat) : Dev :=
  match getJob d j with
  | none => d
  | some jb =>
    let d1 := if jb.held.any fun h => h.ptype == 0x45 && decide (h.since + 10000000 ≤ d.nowUs) then failSnap d j else d
    forEach (jb.loads.filter fun l => decide (l.startAt + 10000000 ≤ d.nowUs)) d1 fun d' l =>
      let d2 := updLoad d' j l.kind l.region fun l => { l with pending := [], missing := l.missing + l.pending.length }
      let d3 := dropHeld d2 j fun h => h.ptype == 0x46 && h.key.getD 0 0 == l.kind && (l.kind == 1 || h.key.getD 1 0 == l.region)
      baseSettle d3 j

/-- XFER_TIMEOUT: a storage member has not answered for 10 s. -/
def execXferTimeout (s : State) : Host.Outcome State Fault Refusal :=
  onDev s fun d => poolsSettle (forEach (SMap.keys d.jobs) d xferLapse)

end Sys2Proof.Machine
end

