-- ==== Sys2Proof/Machine/RebuildOps.lean ====
section
/-!
DEFINITION. Sys2Proof/Machine/RebuildOps.lean: damaged slabs (R286, Table 8-13), and the collection of chunk rows from the
positions of the group for the rebuild of a shard (R629) and the repair of a slab (R631).
-/
namespace Sys2Proof.Machine

/-! ## Chunks of the module's own protected space -/

/-- Words of a region's protected space on the module. -/
def spaceWords (jb : Job) (r : Region) : Nat :=
  (firstLocal jb.ordinal r.deal + ownedCount jb.q (nSlabs r) r.deal jb.ordinal) * imageLen r

/-- The protected image at a local index: zeros where no slab of the module stands. -/
def localImage (jb : Job) (r : Region) (l : Nat) : List W64 :=
  if l < firstLocal jb.ordinal r.deal then List.replicate (imageLen r) 0 else slabImage jb r (slabOfLocal jb r l)

/-- The protected bytes of chunk `c` of a region, from valid copies. -/
def chunkWords (jb : Job) (r : Region) (c : Nat) : List W64 :=
  let n := spaceWords jb r
  let lo := 131072 * c
  let hi := min n (lo + 131072)
  if hi ≤ lo then []
  else
    let il := imageLen r
    let l0 := lo / il
    let l1 := (hi - 1) / il
    (((rangeFrom l0 (l1 + 1 - l0)).flatMap fun l => localImage jb r l).drop (lo - l0 * il)).take (hi - lo)

/-- What the packets of a row say of it beside their bytes (Table 18-2). -/
structure RowHead where
  key    : W64
  region : Nat
  row    : Nat
  push   : Bool
  pos    : Nat
  step   : Nat
  parity : Bool

/-- A REBUILD_DATA packet. -/
def rowPacket (j : Nat) (h : RowHead) (off : Nat) (end_ : Bool) (ws : List W64) : List W64 :=
  mkPacket 0x44 j
    ([ h.key, mkWord [(h.region, 50), (h.row, 23), (off, 6), (bit h.push, 3), (h.pos, 0)], mkWord [(h.step % 2 ^ 48, 0)]
     , mkWord [(bit h.parity, 15), (bit end_, 14), (8 * ws.length, 0)] ] ++ ws)

/-- Send the words of a row as REBUILD_DATA packets of at most 8,184 bytes to an address, the last one shorter (log 40); `fuel`
packets. -/
def sendRow (d : Dev) (j dst : Nat) (h : RowHead) : Nat → Nat → List W64 → Dev
  | 0, _, _ => d
  | fuel + 1, off, ws =>
    let n := min 1023 ws.length
    let d1 := sendAddr d 4 j dst (rowPacket j h off false (ws.take n))
    if n < 1023 then d1 else sendRow d1 j dst h fuel (off + n) (ws.drop n)

/-! ## Rows that are asked for -/

/-- The module's position in its group; without a group none of the eight. -/
def ownPos (d : Dev) : Nat := match d.parity.group with | some g => g.pos | none => 8

/-- Has a position returned its part of a row: the last packet and, in steps of 1,023 words, every packet before it? -/
def RowPart.whole (x : RowPart) : Bool :=
  match x.last with
  | some n => (List.range (n / 1023 + 1)).all fun i => x.offs.contains (1023 * i)
  | none => false

/-- Is a row of a rebuild whole: bad, or returned by every other position? -/
def rowReady (pos : Nat) (r : RowReq) : Bool :=
  r.bad || ((List.range 8).filter (· != pos)).all fun p => match SMap.get? r.parts p with | some x => x.whole | none => false

/-- Do the returns of a row carry one commit point? -/
def rowAgrees (r : RowReq) : Bool :=
  match r.parts with
  | [] => true
  | (_, x) :: l => l.all fun e => e.2.step == x.step

/-- Send REBUILD_REQ for a row to the seven other positions. -/
def askRow (d : Dev) (j rn row step : Nat) : Dev :=
  match getJob d j, d.parity.group with
  | some jb, some g =>
    forEach ((List.range 8).filter (· != g.pos)) d fun d' p =>
      sendPos d' j p (mkPacket 0x43 j
        [jobKey jb, mkWord [(rn, 50), (row, 23), (g.pos, 16), (0, 0)], mkWord [(step % 2 ^ 48, 0)]])
  | _, _ => d

/-- Change the rebuild of a job. -/
def updRebuild (d : Dev) (j : Nat) (f : Rebuild → Rebuild) : Dev := updJob d j fun jb => { jb with rebuild := jb.rebuild.map f }

/-- The rows that hold words `lo` up to `hi` of a region's space. -/
def rowsFor (pos lo hi : Nat) : List Nat :=
  if hi ≤ lo then [] else (rangeFrom (lo / 131072) ((hi - 1) / 131072 + 1 - lo / 131072)).map fun c => rowOf c pos

/-- Ask for the rows of a rebuild or repair. With another position lost, or without a group, no row
can be computed (R629). -/
def askRows (d : Dev) (j : Nat) (rows : List (Nat × Nat)) : Dev :=
  match getJob d j with
  | none => d
  | some jb =>
    match jb.rebuild with
    | some b =>
      let bad := d.parity.group.isNone || d.parity.lost.any (· != ownPos d)
      let d1 := updRebuild d j fun b =>
        { b with started := true, rows := rows.map fun x => { region := x.1, row := x.2, bad := bad, sentAt := d.nowUs } }
      if bad then d1 else forEach rows d1 fun d' x => askRow d' j x.1 x.2 b.step
    | none => d

/-- Word `w` of a region's space, from the collected rows: the XOR of what the seven positions returned. -/
def rowWord (b : Rebuild) (pos rn w : Nat) : W64 :=
  match b.rows.find? fun r => r.region == rn && r.row == rowOf (w / 131072) pos with
  | none => 0
  | some r => r.parts.foldl (fun a e => a ^^^ SMap.getD e.2.words (w % 131072) 0) 0

/-- Are the rows that hold a slab's image all good? -/
def slabGood (b : Rebuild) (pos rn lo n : Nat) : Bool :=
  (rowsFor pos lo (lo + n)).all fun row =>
    match b.rows.find? fun r => r.region == rn && r.row == row with
    | some r => !r.bad
    | none => false

/-- The image of a slab as rebuilt. -/
def rebuiltImage (b : Rebuild) (pos : Nat) (jb : Job) (r : Region) (rn k : Nat) : List W64 :=
  (rangeFrom (imageOff jb.q r k) (imageLen r)).map (rowWord b pos rn)

/-- Write a slab from its rebuilt image as a base write; the tag word in it gives FRESH and STEP_TAG. -/
def writeImage (d : Dev) (j rn k : Nat) (r : Region) (img : List W64) (silent : Bool) : Dev :=
  let tag := wordAt img (imageLen r - 1)
  let data : CopyData := { arrays := arraysOf (arrayFmts r) (wordsBytes (img.take (imageLen r - 1))) }
  baseWriteSlab d j rn k data (tagFresh tag) (tagStep tag) silent

/-! ## Repair of one slab (R631) -/

/-- Start the next repair that is due, when nothing is being rebuilt; once the module has voted it waits until the step is over, so
that no row is read while a seal may change it. Without a group there is no parity: the slab stays DAMAGED. -/
def startRepair (d : Dev) (j : Nat) : Dev :=
  match getJob d j with
  | none => d
  | some jb =>
    if jb.sealSt.state == .prepared then d else
    match jb.rebuild, jb.repairs with
    | none, (rn, k) :: rest =>
      match d.parity.group, getRegion jb rn with
      | some g, some r =>
        let lo := imageOff jb.q r k
        let d1 := updJob d j fun jb => { jb with rebuild := some { slab := some (rn, k), step := baseTagStep jb } }
        askRows d1 j ((rowsFor g.pos lo (lo + imageLen r)).map fun row => (rn, row))
      | _, _ => updJob d j fun jb => { jb with repairs := rest }
    | _, _ => d

/-- The repair's rows are collected: the slab is written with its base delta, or stays DAMAGED. The parity covers the image as
rebuilt, so the delta is zero. -/
def endRepair (d : Dev) (j rn k : Nat) : Dev :=
  match getJob d j with
  | none => d
  | some jb =>
    match jb.rebuild, d.parity.group, getRegion jb rn with
    | some b, some g, some r =>
      let d1 := updJob d j fun jb => { jb with rebuild := none, repairs := jb.repairs.filter fun x => x != (rn, k) }
      if slabGood b g.pos rn (imageOff jb.q r k) (imageLen r) then
        let img := rebuiltImage b g.pos jb r rn k
        let d2 := writeImage d1 j rn k r img true
        let (op, d3) := nextBaseOp d2 j rn
        sendDelta d3 j rn k 0 { step := tagStep (wordAt img (imageLen r - 1)), attempt := op, base := true } (xorWords img img)
      else d1
    | _, _, _ => updJob d j fun jb => { jb with rebuild := none, repairs := jb.repairs.filter fun x => x != (rn, k) }

/-! ## Rebuild of a shard (R628, R629) -/

/-- A REBUILD_START ends and the module serves nothing of the job (R629). -/
def refuseRebuild (d : Dev) (j status : Nat) : Dev :=
  let d1 := updJob d j fun jb => { jb with rebuild := none, stopped := true }
  startRepair
    (finishCmds { d1 with parity := { d1.parity with claims := d1.parity.claims.filter fun c => !(c.scope == 1 && c.job == j) } }
      (cmdOf j 0x59) (plainReply status 0)) j

/-- Every row is collected: every owned slab is written, the commit word set, and the shard served (R629). -/
def endRebuild (d : Dev) (j : Nat) : Dev :=
  match getJob d j with
  | none => d
  | some jb =>
    match jb.rebuild with
    | some b =>
      let slabs := jb.regions.flatMap fun e => (ownedSlabs jb e.2).map fun k => (e.1, k)
      let good (x : Nat × Nat) : Bool :=
        match getRegion jb x.1 with
        | some r => slabGood b (ownPos d) x.1 (imageOff jb.q r x.2) (imageLen r)
        | none => false
      let d1 := forEach slabs d fun d' x =>
        match getRegion jb x.1 with
        | none => d'
        | some r =>
          if good x then writeImage d' j x.1 x.2 r (rebuiltImage b (ownPos d) jb r x.1 x.2) true
          else setDamaged d' j x.1 x.2 true
      let n := (slabs.filter good).length
      let (w, a) := match b.answers.head? with
        | some (_, w, a, _) => (w, a)
        | none => (mkCommit b.step 0, 0)
      let d2 := setCommit (updJob d1 j fun jb => { jb with rebuild := none }) j w b.step a
      startRepair (finishCmds d2 (cmdOf j 0x59) (okReply [mkWord [(n, 32), (slabs.length - n, 0)]])) j
    | none => d

/-- Act when a rebuild's or repair's rows are all in: rows whose returns disagree are asked for again (R629). -/
def rebuildSettle (d : Dev) (j : Nat) : Dev :=
  match getJob d j with
  | none => d
  | some jb =>
    match jb.rebuild with
    | some b =>
      if !b.started then d
      else
        let again := b.rows.filter fun r => rowReady (ownPos d) r && !r.bad && !rowAgrees r
        let redo (r : RowReq) : RowReq :=
          if rowReady (ownPos d) r && !r.bad && !rowAgrees r then { r with parts := [], sentAt := d.nowUs } else r
        let d1 := updRebuild d j fun b => { b with rows := b.rows.map redo }
        let d2 := forEach again d1 fun d' r => askRow d' j r.region r.row b.step
        if !again.isEmpty || !(b.rows.all (rowReady (ownPos d))) then d2
        else
          match b.slab with
          | some (rn, k) => startRepair (endRepair d2 j rn k) j
          | none => endRebuild d2 j
    | none => d

/-- The job claims are all answered: refuse, or ask for every row of the shard (R629). -/
def claimsSettle (d : Dev) (j : Nat) : Dev :=
  match getJob d j with
  | none => d
  | some jb =>
    match jb.rebuild with
    | some b =>
      if b.started || b.slab.isSome || !b.waiting.isEmpty then d
      else if b.refused then refuseRebuild d j stInUse
      else if b.answers.any fun a => a.2.2.2 != 0 then refuseRebuild d j stSealPending
      else if b.answers.any fun a => !(hasCommit a.2.1 && commitStep a.2.1 == b.step) then refuseRebuild d j stStaleStep
      else
        rebuildSettle (askRows d j (jb.regions.flatMap fun e => (rowsFor (ownPos d) 0 (spaceWords jb e.2)).map fun row => (e.1, row))) j
    | none => d

/-! ## Uncorrectable errors (R286, Table 8-13) -/

/-- A slab's valid copy or its tag word is lost, and the repair begins (R631). -/
def damageSlab (d : Dev) (j rn k cause : Nat) : Dev := startRepair (damageNow d j rn k cause) j

/-- An uncorrectable read of a slab, with the repair of what it damaged. -/
def memUeSlab (d : Dev) (j rn k area : Nat) : Dev := startRepair (memUeNow d j rn k area) j

/-- Slabs of a region of which the protected bytes of chunk `c` hold a part. -/
def chunkSlabs (jb : Job) (r : Region) (c : Nat) : List Nat :=
  let n := spaceWords jb r
  let lo := 131072 * c
  let hi := min n (lo + 131072)
  if hi ≤ lo then []
  else
    ((rangeFrom (lo / imageLen r) ((hi - 1) / imageLen r + 1 - lo / imageLen r)).filter fun l => decide (firstLocal jb.ordinal r.deal ≤ l)).map
      (slabOfLocal jb r)

/-- Read the slabs of a chunk for a rebuild or a push: false when one of them is DAMAGED or does not decode, which damages it. -/
def readChunk (d : Dev) (j : Nat) (jb : Job) (rn c : Nat) : Dev × Bool :=
  match getRegion jb rn with
  | none => (d, true)
  | some r =>
    let (d1, ok) := readSlabs d j 1 ((chunkSlabs jb r c).map fun k => (rn, k))
    (startRepair d1 j, ok)

end Sys2Proof.Machine
end

