-- ==== Sys2Proof/Machine/Hoist.lean ====
section
/-!
DEFINITION. Sys2Proof/Machine/Hoist.lean: the rows of hoist (R310 to R323, R548, R549): requests, slab reads, remote reads and
their answers.
-/
namespace Sys2Proof.Machine

/-! ## HOIST_REQ (R311, R548) -/

/-- Fields of a hoist request (Table 9-3). -/
structure HoistF where
  region : Nat
  tag    : Nat
  first  : Nat
  job    : Nat
  ofmt   : Nat
  defFmt : Bool
  sel    : Nat
  n      : Nat

/-- Read them from the two body words. -/
def hoistF (a b : W64) : HoistF :=
  { region := field a 61 48, tag := field a 47 32, first := field a 31 0, job := field b 37 32, ofmt := field b 31 24
    defFmt := flag b 23, sel := field b 17 16, n := field b 15 0 + 1 }

/-- Is a RSVD bit of the body set? -/
def hoistRsvd (a b : W64) : Bool := rsvdSet a [(63, 62)] || rsvdSet b [(63, 38), (22, 18)]

/-- What makes HOIST_REQ malformed: RSVD bits of its body are check 2 of Table 9-4. -/
def hoistReqBad (k : PktRx) (d : Dev) : Option Nat :=
  let w := k.words
  firstBad [(roleBad d k.port 1, 1), (lenBad w 3, 3), (pktJob w != field (wordAt w 2) 37 32, 5)]

/-- The first check of Table 9-4 that fails: its order and status. -/
def hoistCheck (d : Dev) (f : HoistF) (rsvd : Bool) (who : Option (Job × Nat)) : Option (Nat × Nat) :=
  match who with
  | none => some (1, stAuth)
  | some (jb, m) =>
    let mine := jb.hoists.filter fun h => h.member == m
    let all := d.jobs.foldl (fun a e => a + e.2.hoists.length) 0
    if rsvd || 2 ≤ f.sel || (f.defFmt && f.ofmt != 0) then some (2, stIllegal)
    else if !f.defFmt && !ofmtHaulOk (BitVec.ofNat 8 f.ofmt) then some (3, stIllegal)
    else if (match getRegion jb f.region with | some r => decide (nSlabs r < f.first + f.n) | none => true) then some (4, stIllegal)
    else if mine.any fun h => h.tag == f.tag then some (5, stInUse)
    else if 16 ≤ mine.length || 4096 ≤ all then some (6, stLimit)
    else none

/-- The format a request names, or the member's default (R310). -/
def hoistFmt (jb : Job) (m : Nat) (f : HoistF) : Byte :=
  if !f.defFmt then BitVec.ofNat 8 f.ofmt
  else
    match SMap.get? jb.members m, getRegion jb f.region with
    | some mb, some r => r.haul.getD ((haulSub mb f.region).getD 0) 0
    | _, _ => 0

/-- A hoist request. A refusal of a request whose job has no member on the port is counted in no HOIST_REFUSED, which is kept per
member (DESIGN CHOICE, log 111). -/
def hoistReqIn (d : Dev) (k : PktRx) : Dev :=
  let a := wordAt k.words 1
  let b := wordAt k.words 2
  let f := hoistF a b
  let who := (getJob d f.job).bind fun jb => (memberOn jb k.port).map fun m => (jb, m)
  let home := match who.bind fun w => SMap.get? w.1.members w.2 with | some mb => homeOf d mb | none => k.port
  match hoistCheck d f (hoistRsvd a b) who, who with
  | some (order, st), _ =>
    let d1 := sendPort d home { queue := f.job, vc := 3, words := hoistEndWords f.job f.tag st order 0 0 0 }
    match who with | some w => bump d1 ctrHoistRefused (memberIdx f.job w.2) | none => d1
  | none, some (jb, m) =>
    let h : Hoist := { member := m, tag := f.tag, port := home, region := f.region, todo := rangeFrom f.first f.n }
    let o := hoistFmt jb m f
    let d1 := bump (updJob d f.job fun jb => { jb with hoists := jb.hoists ++ [h] }) ctrHoistReq (memberIdx f.job m)
    forEach (rangeFrom f.first f.n) d1 fun d' s => askSlab d' f.job f.region s (f.sel == 1) o (m, f.tag)
  | none, none => d

/-- HOIST_REQ arrives. -/
def execHoistReq (k : PktRx) (s : State) : Host.Outcome State Fault Refusal :=
  onArrival k 0x30 (hoistReqBad k) (fun d => hoistReqIn d k) s

/-! ## HOIST_SLAB_READ (R55, R313, R314, R338) -/

/-- The copy of the step in progress, when it has been written (R313). -/
def stepCopy (jb : Job) (s : Slab) : Option Nat :=
  let hit (t : W64) : Bool := tagWritten t && !tagBase t && tagStep t == jb.stepCur
  if hit s.tag0 then some 0 else if hit s.tag1 then some 1 else none

/-- ATTEMPT of a hoisted slab (R314). -/
def hoistAttempt (jb : Job) (t : W64) : Nat :=
  if tagBase t then 0
  else if tagStep t = jb.stepCur then jb.attempt
  else if hasCommit jb.commit && tagStep t == commitStep jb.commit then commitAttempt jb.commit
  else 0

/-- Is a copy provisional: does its STEP_TAG exceed the commit point (R314)? Without a commit point the rule compares with nothing: every
copy but a base copy is provisional (DESIGN CHOICE, log 109). -/
def tagProv (jb : Job) (t : W64) : Bool :=
  if hasCommit jb.commit then decide (commitStep jb.commit < tagStep t) else !tagBase t

/-- What the read of one slab finds. -/
def readSlab (jb : Job) (r : Region) (rn k : Nat) (newest : Bool) (o : Byte) : ReadResult :=
  let s := getSlab r k
  let prov := if newest then stepCopy jb s else none
  match prov, validCopy jb.commit s with
  | none, none => .status stDamaged
  | some c, _ => out s c
  | none, some c => if s.damaged then .status stDamaged else out s c
where
  /-- The packet of copy `c`. -/
  out (s : Slab) (c : Nat) : ReadResult :=
    let t := slabTag s c
    let (pl, sats) := outPayload jb r rn k (tagStep t) o (slabCopy s c)
    .data { region := rn, step := tagStep t, slab := k, attempt := hoistAttempt jb t, ofmt := o, prov := tagProv jb t
            base := tagBase t, hfi := 0, tag := 0, lanes := realLanes r k } pl sats

/-- Must the read wait: for a write of the copy it wants (R55), or for the seal (R338)? -/
def readHeld (jb : Job) (e : ReadEntry) : Bool :=
  !e.newest && jb.sealSt.state == .prepared && touched jb e.region e.slab

/-- Is the copy the read wants being written, or does the abort scan still run (Table 9-8)? -/
def readWaits (jb : Job) (e : ReadEntry) : Bool :=
  e.newest && ((jb.sealSt.state == .aborting && !jb.sealSt.scanDone) || jb.writes.any fun w => w.region == e.region && w.slab == e.slab)

/-- Has every die that a read's replies leave on room for the slab (R611)? -/
def replyRoom (d : Dev) (j : Nat) (jb : Job) (e : ReadEntry) (r : Region) : Bool :=
  let n := 8 * (4 + payloadWords (e.ofmt.toNat % 16) (realLanes r e.slab))
  e.locals.all fun w => match getHoist jb w.1 w.2 with
    | some h => bufferRoom d (h.port / 16) j true n
    | none => true

/-- The copy a read wants (R313). -/
def wantedCopy (jb : Job) (s : Slab) (newest : Bool) : Option Nat :=
  match (if newest then stepCopy jb s else none) with
  | some c => some c
  | none => validCopy jb.commit s

/-- What the die finds as it reads a slab for a hoist: the device, the area that was lost, if one was, and the region with the slab
as read. -/
structure SlabFetch where
  dev  : Dev
  lost : Option Nat := none
  r    : Region

/-- The die reads a slab for a hoist: its metadata record, then the parameter array of the copy (R264, R283). A slab with no valid
copy is an uncorrectable error (R286). -/
def hoistFetch (d : Dev) (j : Nat) (jb : Job) (r : Region) (e : ReadEntry) : SlabFetch :=
  let s := getSlab r e.slab
  let a := readMeta (walkDie d (homeDie jb.q r e.region e.slab)) j jb r e.region e.slab
  match a.bad, wantedCopy jb s e.newest with
  | some _, _ => { dev := a.dev, lost := some 2, r := r }
  | none, none => { dev := a.dev, lost := if s.damaged then none else some 2, r := r }
  | none, some c =>
    if s.damaged && (if e.newest then stepCopy jb s else none).isNone then { dev := a.dev, r := r }
    else
      let sp := copySpan j jb r e.region e.slab c (paramBytes r)
      let b := fetchCopy a.dev (e.locals.map fun w => .hoist j w.1 w.2) sp e.slab c
      let x := copyAsRead r (slabCopy s c) sp b.fixes
      { dev := b.dev, lost := if b.bad.isSome then some c else none
        r := if b.fixes.isEmpty then r else { r with slabs := SMap.set r.slabs e.slab (if c = 0 then { s with c0 := x } else { s with c1 := x }) } }

/-- The home update die accepts the read of entry `i`, which waits while a buffer its replies need has no room; `ue` is an uncorrectable error met while it reads. -/
def slabRead (d : Dev) (j i : Nat) (ue : Bool) : Dev :=
  match getJob d j with
  | none => d
  | some jb =>
    match jb.reads[i]? with
    | none => d
    | some e =>
      if e.remote.isSome || e.held || readWaits jb e then d
      else if !servesShard jb then completeRead d j i (.status stShardOffline)
      else if readHeld jb e then
        bumpBy (updJob d j fun jb => { jb with reads := jb.reads.modify i fun e => { e with held := true } }) ctrReadHeld j
          (e.locals.length + e.remotes.length)
      else
        match getRegion jb e.region with
        | none => completeRead d j i (.status stShardOffline)
        | some r =>
          if !replyRoom d j jb e r then d
          else
          let f := hoistFetch d j jb r e
          match f.lost, (if ue then wantedCopy jb (getSlab r e.slab) e.newest else none) with
          | some a, _ => completeRead (memUeSlab f.dev j e.region e.slab a) j i (.status stDamaged)
          | none, some c => completeRead (memUeSlab f.dev j e.region e.slab c) j i (.status stDamaged)
          | none, none => completeRead f.dev j i (readSlab jb f.r e.region e.slab e.newest e.ofmt)

/-- HOIST_SLAB_READ. -/
def execHoistSlabRead (job entry : Nat) (memUe : Bool) (s : State) : Host.Outcome State Fault Refusal :=
  onUnit (decide (job < 64)) s fun d => poolsSettle (slabRead d job entry memUe)

/-! ## HOIST_END (R317) -/

/-- Every slab of a request has been sent or given a status: its end reply goes out and its tag is free. -/
def hoistDone (d : Dev) (j m tag : Nat) : Dev :=
  match (getJob d j).bind fun jb => getHoist jb m tag with
  | none => d
  | some h =>
    if !h.todo.isEmpty then d
    else
      let d1 := sendPort d h.port
        { queue := j, vc := 3, words := hoistEndWords j tag stOk 0 h.sent h.damaged h.offline
          track := .hoistEnd j m tag h.sent h.damaged h.offline }
      dropHoist d1 j m tag

/-- HOIST_END. -/
def execHoistEnd (job member tag : Nat) (s : State) : Host.Outcome State Fault Refusal :=
  onUnit (decide (job < 64) && decide (member < 4096)) s fun d => hoistDone d job member tag

/-! ## Remote reads (R322, R549) -/

/-- What makes REMOTE_READ malformed. -/
def remoteReadBad (k : PktRx) (d : Dev) : Option Nat :=
  let w := k.words
  let f := hoistF (wordAt w 1) (wordAt w 2)
  firstBad
    [ (roleBad d k.port 2, 1)
    , (hoistRsvd (wordAt w 1) (wordAt w 2) || rsvdSet (wordAt w 3) [(63, 9)], 2)
    , (lenBad w 4, 3)
    , (!ofmtHaulOk (BitVec.ofNat 8 f.ofmt), 4)
    , (f.job != pktJob w || f.defFmt || decide (2 ≤ f.sel), 5) ]

/-- Another module reads slabs that this module owns; slabs it does not serve are answered ST_SHARD_OFFLINE. -/
def remoteReadIn (d : Dev) (k : PktRx) : Dev :=
  let f := hoistF (wordAt k.words 1) (wordAt k.words 2)
  let off (d : Dev) (s : Nat) : Dev := answerRemote d f.job f.region s (.status stShardOffline) (k.src, f.tag)
  forEach (rangeFrom f.first f.n) d fun d' s =>
    match getJob d' f.job with
    | none => off d' s
    | some jb =>
      match getRegion jb f.region with
      | none => off d' s
      | some r =>
        if !ownsSlab jb r s || nSlabs r ≤ s then d'
        else if !servesShard jb then off d' s
        else
          addRead d' f.job (homeDie jb.q r f.region s) false
            { region := f.region, slab := s, newest := f.sel == 1, ofmt := BitVec.ofNat 8 f.ofmt, rem := some (k.src, f.tag) }

/-- REMOTE_READ arrives. -/
def execRemoteRead (k : PktRx) (s : State) : Host.Outcome State Fault Refusal :=
  onArrival k 0x34 (remoteReadBad k) (fun d => remoteReadIn d k) s

/-- The entry that waits for a remote slab under a READ_ID. -/
def remoteEntry (d : Dev) (j id rn k : Nat) : Option Nat :=
  (getJob d j).bind fun jb => findRead (fun e =>
    e.region == rn && e.slab == k && (match e.remote with | some (i, _) => i == id | none => false)) 0 jb.reads

/-- What makes REMOTE_DATA malformed. -/
def remoteDataBad (k : PktRx) (d : Dev) : Option Nat :=
  let w := k.words
  firstBad ((roleBad d k.port 2, 1) :: slabPktBad w ++ [(field (wordAt w 2) 11 10 != 0, 5)])

/-- A remote slab arrives at its merge point. -/
def remoteDataIn (d : Dev) (k : PktRx) : Dev :=
  let w := k.words
  let w1 := wordAt w 1
  let w2 := wordAt w 2
  let j := pktJob w
  let hd : SlabHead :=
    { region := field w1 61 48, step := field w1 47 0, slab := field w2 63 32, attempt := field w2 31 24
      ofmt := BitVec.ofNat 8 (field w2 23 16), prov := flag w2 15, base := flag w2 14, hfi := 0, tag := 0
      lanes := field (wordAt w 3) 10 0 }
  match remoteEntry d j (field (wordAt w 3) 63 48) hd.region hd.slab with
  | some i => completeRead d j i (.data hd (w.drop 4) 0)
  | none => d

/-- REMOTE_DATA arrives. -/
def execRemoteData (k : PktRx) (s : State) : Host.Outcome State Fault Refusal :=
  onArrival k 0x35 (remoteDataBad k) (fun d => remoteDataIn d k) s

/-- What makes REMOTE_STATUS malformed. -/
def remoteStatusBad (k : PktRx) (d : Dev) : Option Nat :=
  let w := k.words
  let st := field (wordAt w 2) 15 0
  firstBad
    [ (roleBad d k.port 2, 1)
    , (rsvdSet (wordAt w 1) [(63, 62)] || rsvdSet (wordAt w 2) [(63, 16)], 2)
    , (lenBad w 3, 3)
    , (!(st == stDamaged || st == stShardOffline), 5) ]

/-- A remote slab status arrives at its merge point. -/
def remoteStatusIn (d : Dev) (k : PktRx) : Dev :=
  let w1 := wordAt k.words 1
  let j := pktJob k.words
  match remoteEntry d j (field w1 47 32) (field w1 61 48) (field w1 31 0) with
  | some i => completeRead d j i (.status (field (wordAt k.words 2) 15 0))
  | none => d

/-- REMOTE_STATUS arrives. -/
def execRemoteStatus (k : PktRx) (s : State) : Host.Outcome State Fault Refusal :=
  onArrival k 0x36 (remoteStatusBad k) (fun d => remoteStatusIn d k) s

/-- Remote reads that have waited 100 µs are sent again under their READ_ID. -/
def execRemoteReadResend (s : State) : Host.Outcome State Fault Refusal :=
  onDev s fun d =>
    let due (e : ReadEntry) : Bool := match e.remote with | some (_, t) => decide (t + 100 ≤ d.nowUs) | none => false
    forEach d.jobs d fun d' e =>
      let renew (r : ReadEntry) : ReadEntry := if due r then { r with remote := r.remote.map fun x => (x.1, d.nowUs) } else r
      let d1 := updJob d' e.1 fun jb => { jb with reads := jb.reads.map renew }
      forEach (e.2.reads.filter due) d1 fun d'' r => bump (sendRemoteRead d'' e.1 r) ctrEndResend 0

end Sys2Proof.Machine
end

