-- ==== Sys2Proof/Machine/Schedule.lean ====
section
/-!
DEFINITION. Sys2Proof/Machine/Schedule.lean: the schedule engine's formulas and checks (chapter 7) and the update
unit's recurrence, step values, norm factor and rule slot checks (chapter 6).
-/
namespace Sys2Proof.Machine

/-! ## Schedule entries (Table 7-1) -/

/-- START_STEP. -/
def seStart (e : List W64) : Nat := field (wordAt e 0) 63 16
/-- DECAY. -/
def seDecay (e : List W64) : Nat := field (wordAt e 0) 7 6
/-- RESTART_EN. -/
def seRestart (e : List W64) : Bool := flag (wordAt e 0) 5
/-- K3_FOLLOW. -/
def seK3Follow (e : List W64) : Bool := flag (wordAt e 0) 4
/-- BC2_EN. -/
def seBc2 (e : List W64) : Bool := flag (wordAt e 0) 2
/-- BC1_EN. -/
def seBc1 (e : List W64) : Bool := flag (wordAt e 0) 1
/-- WARM_STEPS. -/
def seWarm (e : List W64) : Nat := field (wordAt e 1) 63 32
/-- PERIOD. -/
def sePeriod (e : List W64) : Nat := field (wordAt e 1) 31 0
/-- STEP_EVERY. -/
def seEvery (e : List W64) : Nat := field (wordAt e 2) 63 32
/-- T_MULT. -/
def seTMult (e : List W64) : Nat := field (wordAt e 2) 7 0
/-- LR_PEAK. -/
def sePeak (e : List W64) : F64 := wordAt e 3
/-- LR_MIN. -/
def seMin (e : List W64) : F64 := wordAt e 4
/-- LR_WARM0. -/
def seWarm0 (e : List W64) : F64 := wordAt e 5
/-- GAMMA. -/
def seGamma (e : List W64) : F64 := wordAt e 6
/-- BETA1. -/
def seBeta1 (e : List W64) : F64 := wordAt e 7
/-- BETA2. -/
def seBeta2 (e : List W64) : F64 := wordAt e 8
/-- K3_BASE. -/
def seK3Base (e : List W64) : F64 := wordAt e 9
/-- PEAK_MULT. -/
def sePeakMult (e : List W64) : F64 := wordAt e 10

/-- Is any of the words not finite? -/
def anyNonFinite (l : List W64) : Bool := l.any fun w => !fpFinite w

/-- `0 ≤ b < 1`, -0 excluded (Table 7-2, checks 0x0A and 0x0B). -/
def betaOk (b : F64) : Bool := !fpSign b && fpLt b fpOne

/-- The first failing check of Table 7-2, as its code; 0 when the entry passes (R241). -/
def schedCheck (e : List W64) : Nat :=
  if field (wordAt e 0) 15 8 != 0 || flag (wordAt e 0) 3 || flag (wordAt e 0) 0 || field (wordAt e 2) 31 8 != 0 then 0x01
  else if anyNonFinite (e.drop 3) then 0x02
  else if fpSign (sePeak e) || fpSign (seMin e) || fpSign (seWarm0 e) then 0x03
  else if fpLt (sePeak e) (seMin e) then 0x04
  else if (seDecay e == 1 || seDecay e == 2) && sePeriod e == 0 then 0x05
  else if seDecay e == 3 && (seEvery e == 0 || !fpLt 0 (seGamma e) || fpLt fpOne (seGamma e)) then 0x06
  else if seRestart e && (seDecay e == 0 || sePeriod e == 0) then 0x07
  else if seTMult e == 0 || 16 < seTMult e then 0x08
  else if !fpLt 0 (sePeakMult e) || fpLt fpOne (sePeakMult e) then 0x09
  else if seBc1 e && !betaOk (seBeta1 e) then 0x0A
  else if seBc2 e && !betaOk (seBeta2 e) then 0x0B
  else if seK3Follow e && fpIsZero (sePeak e) then 0x0C
  else 0

/-- The cycle loop of R245: (c, j, T) after taking whole cycles off `j`. -/
def cycleLoop (mult : Nat) : Nat → Nat → Nat → Nat → Nat × Nat × Nat
  | 0, c, j, t => (c, j, t)
  | fuel + 1, c, j, t =>
    if t ≤ j then cycleLoop mult fuel (c + 1) (j - t) (min (t * mult) (2 ^ 48)) else (c, j, t)

/-- The learning rate of the decay phase at decay-relative index `j0` (R245). -/
def schedDecay (e : List W64) (j0 : Nat) : F64 :=
  let (c, j, t) :=
    if seRestart e then
      if seTMult e = 1 then (j0 / sePeriod e, j0 % sePeriod e, sePeriod e)
      else cycleLoop (seTMult e) 64 0 j0 (sePeriod e)
    else (0, j0, sePeriod e)
  let p := fpMul (sePeak e) (fpPown (sePeakMult e) c)
  let d0 := fpSub p (seMin e)
  let d := if fpLt 0 d0 then d0 else 0
  match seDecay e with
  | 0 => p
  | 1 =>
    let f := fpDiv (fpOfNat (min j t)) (fpOfNat t)
    fpFma d (fpSub fpOne f) (seMin e)
  | 2 =>
    let f := fpDiv (fpOfNat (min j t)) (fpOfNat t)
    let h := fpMul fpHalf (fpAdd fpOne (fpCospi f))
    fpFma d h (seMin e)
  | _ =>
    let lr := fpMul p (fpPown (seGamma e) (j / seEvery e))
    if fpLt lr (seMin e) then seMin e else lr

/-- A bias correction at count `t` (R245). -/
def biasCorrection (en : Bool) (beta : F64) (t : Nat) : F64 :=
  if en then fpDiv fpOne (fpSub fpOne (fpPown beta t)) else fpOne

/-- schedule() of R245. K3_BASE * (LR / LR_PEAK) may overflow when LR_WARM0 is far above LR_PEAK or K3_BASE is huge, though R248 calls K3
finite: the formula of R245 is followed (DESIGN CHOICE, log 108). -/
def schedule (e : List W64) (s : Nat) : SchedVals :=
  if s < seStart e then { lr := fpNaN, k1 := fpNaN, k2 := fpNaN, k3 := fpNaN }
  else
    let k := s - seStart e
    let lr :=
      if k < seWarm e then
        fpFma (fpSub (sePeak e) (seWarm0 e)) (fpDiv (fpOfNat (k + 1)) (fpOfNat (seWarm e))) (seWarm0 e)
      else schedDecay e (k - seWarm e)
    { lr := lr
      k1 := biasCorrection (seBc1 e) (seBeta1 e) (k + 1)
      k2 := biasCorrection (seBc2 e) (seBeta2 e) (k + 1)
      k3 := if seK3Follow e then fpMul (seK3Base e) (fpDiv lr (sePeak e)) else seK3Base e }

/-! ## Rule slots (Table 6-1) -/

/-- SCHED_ENTRY. -/
def rsEntry (r : List W64) : Nat := field (wordAt r 0) 59 48
/-- INIT_MODE. -/
def rsInit (r : List W64) : Nat := field (wordAt r 0) 15 14
/-- STATE_EN: bit `k` enables state s(k+1). -/
def rsStateEn (r : List W64) : Nat := field (wordAt r 0) 12 10
/-- GN_EN. -/
def rsGnEn (r : List W64) : Bool := flag (wordAt r 0) 4

/-- Has any of the words a bit set? -/
def anyBits (l : List W64) : Bool := l.any (· != 0)

/-- The first failing check of Table 6-2, as its code; 0 when the slot passes. `entryOk`: SCHED_ENTRY names a schedule
entry of the job. -/
def ruleCheck (r : List W64) (entryOk : Bool) : Nat :=
  let w := wordAt r 0
  let x := wordAt r
  if field w 63 60 != 0 || field w 47 16 != 0 || flag w 13 || field w 3 0 != 0 then 0x01
  else if 2 ≤ rsInit r then 0x02
  else if anyNonFinite (r.drop 1) then 0x03
  else if !fpLt 0 (x 12) || fpLt (x 12) 0x3810000000000000#64 then 0x04
  else if fpSign (x 11) then 0x05
  else if !flag w 10 && (anyBits [x 1, x 2, x 7] || flag w 7) then 0x06
  else if !flag w 11 && (anyBits [x 3, x 4, x 10] || flag w 8 || flag w 5) then 0x07
  else if !flag w 12 && anyBits [x 5, x 6, x 9] then 0x08
  else if flag w 4 && !fpLt 0 (x 15) then 0x09
  else if flag w 4 && fpSign (x 16) then 0x0A
  else if !entryOk then 0x0B
  else 0

/-- The step values of R208. -/
structure StepVals where
  lr   : F64
  c1e  : F64
  d1e  : F64
  lame : F64
  deriving DecidableEq, Repr

/-- Form the step values from a rule slot and the schedule's values (R208). -/
def stepVals (r : List W64) (v : SchedVals) : StepVals :=
  let w := wordAt r 0
  { lr := v.lr
    c1e := if flag w 7 then fpMul (wordAt r 7) v.k1 else wordAt r 7
    d1e := if flag w 8 then fpMul (wordAt r 10) v.k2 else wordAt r 10
    lame := if flag w 9 then fpMul (wordAt r 13) v.k3 else wordAt r 13 }

/-- Are all step values finite (R209)? -/
def stepValsFinite (v : StepVals) : Bool := fpFinite v.lr && fpFinite v.c1e && fpFinite v.d1e && fpFinite v.lame

/-- The factor NCF of a rule slot under the global norm `n` (R215). -/
def ncf (r : List W64) (n : F64) : F64 :=
  if fpLe n (wordAt r 15) then fpOne else fpDiv (wordAt r 15) (fpAdd n (wordAt r 16))

/-- The new values of one lane. -/
structure LaneOut where
  w  : F64
  n1 : F64
  n2 : F64
  n3 : F64
  deriving DecidableEq, Repr

/-- update_lane of R203; `none` when a value R205 checks is not finite. -/
def updateLane (r : List W64) (v : StepVals) (nf : F64) (fresh : Bool) (g w s1 s2 s3 : F64) : Option LaneOut :=
  let w0 := wordAt r 0
  let x := wordAt r
  let gp := fpFma (x 14) w (fpMul g nf)
  let fg := if flag w0 5 then fpAbs gp else fpMul gp gp
  let seed := fresh && rsInit r == 1
  let t1 := if fresh then 0 else s1
  let t2 := if fresh then 0 else s2
  let t3 := if fresh then 0 else s3
  let n1 := if seed then gp else fpFma (x 1) t1 (fpMul (x 2) gp)
  let n2 := if seed then fg else fpFma (x 3) t2 (fpMul (x 4) fg)
  let n3 := if seed then gp else fpFma (x 5) t3 (fpMul (x 6) gp)
  let num := fpFma v.c1e n1 (fpFma (x 9) n3 (fpMul (x 8) gp))
  let t0 := fpMul v.d1e n2
  let t := if fpLt (x 11) t0 then t0 else x 11
  let rt := fpSqrt t
  let den := fpAdd rt (x 12)
  let sgn := flag w0 6
  let u := if sgn then (if fpLt 0 num then fpOne else if fpLt num 0 then fpNeg fpOne else 0) else fpDiv num den
  let q := fpFma v.lame w u
  let wn := fpFma (fpNeg v.lr) q w
  let ok := fpFinite gp && fpFinite fg && fpFinite n1 && fpFinite n2 && fpFinite n3 && fpFinite num &&
    (sgn || (fpFinite t0 && fpFinite t && fpFinite rt && fpFinite den)) && fpFinite u && fpFinite q && fpFinite wn
  if ok then some { w := wn, n1 := n1, n2 := n2, n3 := n3 } else none

end Sys2Proof.Machine
end

