-- ==== Sys2Proof/Machine/Tree.lean ====
section
/-!
DEFINITION. Sys2Proof/Machine/Tree.lean: the canonical tree over slab-wide values (R134 to R137), the seam positions (R171,
R197) and the accumulator entries a context holds (R169, R180 to R183).
-/
namespace Sys2Proof.Machine

/-! ## The canonical tree -/

/-- A node of the tree: `none` while a value under it is missing, `some none` for NONE (R136). -/
abbrev TreeVal := Option (Option (List F64))

/-- add of R134 on slab-wide values. -/
def addOpt (a b : Option (List F64)) : Option (List F64) :=
  match a, b with
  | none, b => b
  | a, none => a
  | some x, some y => some (List.zipWith fpAdd x y)

/-- A parent node from its children. -/
def joinVal (a b : TreeVal) : TreeVal :=
  match a, b with
  | some x, some y => some (addOpt x y)
  | _, _ => none

/-- Largest power of two below `n`, for n ≥ 2 (R134). -/
def splitAt2 (n : Nat) : Nat := 2 ^ Nat.log2 (n - 1)

/-- tree() of R134 over the leaves; `fuel` bounds the depth. -/
def treeVal : Nat → List TreeVal → TreeVal
  | 0, _ => none
  | fuel + 1, vs =>
    match vs with
    | [] => some none
    | [v] => v
    | _ =>
      let l := splitAt2 vs.length
      joinVal (treeVal fuel (vs.take l)) (treeVal fuel (vs.drop l))

/-- Depth that bounds any tree of 4,096 ranks or 512 modules. -/
def treeFuel : Nat := 14

/-- Lanes at which two finite values round to an infinity (R98), from lane `i` on. -/
def ovfLanes : Nat → List F64 → List F64 → List Nat
  | i, x :: xs, y :: ys =>
    if fpFinite x && fpFinite y && !fpFinite (fpAdd x y) then i :: ovfLanes (i + 1) xs ys else ovfLanes (i + 1) xs ys
  | _, _, _ => []

/-- Overflows of an addition of two nodes. -/
def joinOvf (a b : TreeVal) : List Nat :=
  match a, b with
  | some (some x), some (some y) => ovfLanes 0 x y
  | _, _ => []

/-- Overflows of the nodes that leaf `j` completes: (lane, lowest leaf of the node). Leaves are numbered from `lo`. -/
def pathOvf : Nat → List TreeVal → Nat → Nat → List (Nat × Nat)
  | 0, _, _, _ => []
  | fuel + 1, vs, j, lo =>
    if vs.length ≤ 1 then []
    else
      let l := splitAt2 vs.length
      let a := vs.take l
      let b := vs.drop l
      let sub := if j < l then pathOvf fuel a j lo else pathOvf fuel b (j - l) (lo + l)
      sub ++ (joinOvf (treeVal fuel a) (treeVal fuel b)).map fun e => (e, lo)

/-- The held nodes of a tree: its maximal known subtrees that hold a value, as (lowest leaf, leaves) (R137, R169). Leaves are
numbered from `lo`. -/
def treeNodes : Nat → List TreeVal → Nat → List (Nat × Nat)
  | 0, _, _ => []
  | fuel + 1, vs, lo =>
    match treeVal (fuel + 1) vs with
    | some none => []
    | some (some _) => [(lo, vs.length)]
    | none =>
      if vs.length ≤ 1 then []
      else
        let l := splitAt2 vs.length
        treeNodes fuel (vs.take l) lo ++ treeNodes fuel (vs.drop l) (lo + l)

/-! ## Rank maps (R128) -/

/-- First rank of group `q`. -/
def groupBase (m : RankMap) (q : Nat) : Nat := (m.nmemb.take q).foldl (· + ·) 0
/-- Ranks of group `q`. -/
def groupSize (m : RankMap) (q : Nat) : Nat := m.nmemb.getD q 0
/-- A rank's entry. -/
def rankEntry (m : RankMap) (r : Nat) : RankEntry := m.ranks.getD r { pri := 0 }

/-- What a context's work needs together: its job, region, map. -/
structure Env where
  j  : Nat
  jb : Job
  r  : Region
  m  : RankMap

/-- The environment of a context that a job holds. -/
def ctxEnv (d : Dev) (c : Nat) : Option Env :=
  let x := getCtx d c
  match x.holder with
  | none => none
  | some j =>
    match getJob d j with
    | none => none
    | some jb =>
      match getRegion jb x.p.region, SMap.get? d.maps x.p.mapSlot with
      | some r, some m => some { j := j, jb := jb, r := r, m := m }
      | some r, none => if c < 16384 then none else some { j := j, jb := jb, r := r, m := { job := j, dupPoison := false, nmemb := [], ranks := [], crc := 0 } }
      | none, _ => none

/-- Region-relative slab of bucket-relative slab `b`. -/
def slabOf (x : Ctx) (b : Nat) : Nat := x.p.first + b
/-- Does the module own bucket-relative slab `b`? -/
def ownsB (e : Env) (x : Ctx) (b : Nat) : Bool := ownsSlab e.jb e.r (slabOf x b)
/-- Ranks of the module's own group. -/
def ownSize (e : Env) : Nat := groupSize e.m e.jb.ordinal
/-- First rank of the module's own group. -/
def ownBase (e : Env) : Nat := groupBase e.m e.jb.ordinal

/-! ## Slabs in reduction -/

/-- Reduction state of slab `b`. -/
def getRed (x : Ctx) (b : Nat) : SlabRed := SMap.getD x.slabs b {}
/-- Change it. -/
def updRed (d : Dev) (c b : Nat) (f : SlabRed → SlabRed) : Dev :=
  updCtx d c fun x => { x with slabs := SMap.set x.slabs b (f (getRed x b)) }
/-- Key of a slot. -/
def slotKey (p r : Nat) : Nat := 4096 * p + r
/-- A slot. -/
def getSlot (s : SlabRed) (p r : Nat) : Slot := SMap.getD s.slots (slotKey p r) {}
/-- Change a slot. -/
def updSlot (d : Dev) (c b p r : Nat) (f : Slot → Slot) : Dev :=
  updRed d c b fun s => { s with slots := SMap.set s.slots (slotKey p r) (f (getSlot s p r)) }
/-- A pass of a slab. -/
def getPass (s : SlabRed) (p : Nat) : PassRed := SMap.getD s.passes p {}
/-- Change a pass. -/
def updPass (d : Dev) (c b p : Nat) (f : PassRed → PassRed) : Dev :=
  updRed d c b fun s => { s with passes := SMap.set s.passes p (f (getPass s p)) }

/-- Leaves of the own group's tree in a pass. -/
def groupLeaves (e : Env) (s : SlabRed) (p : Nat) : List TreeVal :=
  (List.range (ownSize e)).map fun i =>
    let sl := getSlot s p (ownBase e + i)
    if sl.filled.isSome then some (some sl.lanes) else none

/-- Leaves of the module tree in a pass, on the owner. -/
def moduleLeaves (e : Env) (s : SlabRed) (p : Nat) : List TreeVal :=
  (List.range e.jb.q).map fun q =>
    if groupSize e.m q = 0 then some none
    else
      match SMap.get? (getPass s p).groups q with
      | some g => some (some g.lanes)
      | none => none

/-! ## Seam positions (R171, R197) -/

/-- Seam position of bucket-relative slab `b` of context `c` over the live positions `l`. -/
def seamAt (l : List Nat) (c b : Nat) : Nat :=
  if l.length = 128 then (c + b + b / 128) % 128
  else if l.isEmpty then 0 else l.getD ((c + b + b / 128) % l.length) 0

/-- Positions that are lost now. -/
def lostPositions (d : Dev) : List Nat := (List.range 128).filter fun p => (boundSeam d p).isNone

/-- The positions that a context admitted while `lost` were lost uses. -/
def liveBut (lost : List Nat) : List Nat := (List.range 128).filter fun p => !lost.contains p

/-- Seam position of slab `b` of context `c`: over the positions that lived when the context was admitted (R197). -/
def seamPos (d : Dev) (c b : Nat) : Nat := seamAt (liveBut (getCtx d c).resLost) (ctxNum c) b

/-- Physical seam at which slab `b` of context `c` is reduced: the unit its traps name (R170, R750). -/
def seamUnit (d : Dev) (c b : Nat) : Nat := (boundSeam d (seamPos d c b)).getD 0

/-! ## Accumulator entries (R169, Table 5-2) -/

/-- Entries of a slot that never spill: copies being received, and a complete backup copy that is held (R150, R180). -/
def slotFixed (s : Slot) : Nat :=
  (match s.rxPri with | some r => bit (r.refused == 0) | none => 0) +
  (match s.rxBak with | some r => bit (r.refused == 0) | none => 0) + bit s.heldBak.isSome

/-- Entries of a slab that never spill: those of its slots and the finished slab (R180). -/
def fixedEntries (s : SlabRed) : Nat := s.slots.foldl (fun a e => a + slotFixed e.2) 0 + bit s.waiting.isSome

/-- The nodes of one pass that are held: the own group's, and the unacknowledged partial or the module tree's. -/
def passEntries (e : Env) (owner : Bool) (s : SlabRed) (b p : Nat) : List Entry :=
  let ps := getPass s p
  let own := groupLeaves e s p
  let grp := if (treeVal treeFuel own).isSome then [] else (treeNodes treeFuel own 0).map fun n => Entry.node b p false n.1 n.2
  if owner then grp ++ (treeNodes treeFuel (moduleLeaves e s p) 0).map fun n => Entry.node b p true n.1 n.2
  else if ps.out.isSome then grp ++ [Entry.part b p] else grp

/-- The values of a slab that may spill (R180). -/
def slabSpillable (e : Env) (owner : Bool) (b : Nat) (s : SlabRed) : List Entry :=
  (s.slots.filterMap fun x => if x.2.kept.isSome then some (Entry.kept b (x.1 / 4096) (x.1 % 4096)) else none) ++
  passEntries e owner s b s.low ++ passEntries e owner s b (s.low + 1) ++ (if s.fold.isSome then [Entry.fold b] else [])

/-- Entries a slab holds. -/
def slabEntries (e : Env) (owner : Bool) (b : Nat) (s : SlabRed) : Nat := fixedEntries s + (slabSpillable e owner b s).length

/-- Slabs of a context at a seam position, in slab order. -/
def posSlabs (d : Dev) (c pos : Nat) : SMap SlabRed :=
  let l := liveBut (getCtx d c).resLost
  (getCtx d c).slabs.filter fun s => seamAt l (ctxNum c) s.1 == pos

/-- The values of a context at a seam position that may spill, in slab order. -/
def posSpillable (d : Dev) (e : Env) (c pos : Nat) : List Entry :=
  (posSlabs d c pos).flatMap fun s => slabSpillable e (ownsB e (getCtx d c) s.1) s.1 s.2

/-- Entries of a context at a position that never spill. -/
def posFixed (d : Dev) (c pos : Nat) : Nat := (posSlabs d c pos).foldl (fun a s => a + fixedEntries s.2) 0

/-- Entries a context holds at a seam position. -/
def posEntries (d : Dev) (e : Env) (c pos : Nat) : Nat := posFixed d c pos + (posSpillable d e c pos).length

/-! ## The overflow area (R180 to R183) -/

/-- Entries in one update die's quarter of the overflow area (R181). -/
def ovfOnDie (d : Dev) (u : Nat) : Nat :=
  d.ctxs.foldl (fun a e => e.2.spilled.foldl (fun b s => if ovfDie s.1 = u then b + s.2.length else b) a) 0

/-- Entries the job may still spill from a position (R181, R182). -/
def ovfRoom (d : Dev) (jb : Job) (pos : Nat) : Nat := min (jb.quotas.ovf - jb.ovfHeld) (1310720 - ovfOnDie d (ovfDie pos))

/-- Spilled entries of a context at a position. -/
def spilledAt (x : Ctx) (pos : Nat) : List Entry := SMap.getD x.spilled pos []

/-- Record the spilled entries of a context at a position. -/
def setSpilled (d : Dev) (j c pos : Nat) (l : List Entry) : Dev :=
  let old := (spilledAt (getCtx d c) pos).length
  let d0 := looseWrite d (ovfDie pos) (l.filter fun a => !(spilledAt (getCtx d c) pos).contains a).length
  let d1 := updCtx d0 c fun x => { x with spilled := if l.isEmpty then SMap.del x.spilled pos else SMap.set x.spilled pos l }
  let d2 := updJob d1 j fun jb => { jb with ovfHeld := jb.ovfHeld + l.length - old }
  let peak := match getJob d2 j with | some jb => jb.ovfHeld | none => 0
  if (getCtr d2 ctrOvfPeak j).toNat < peak then setCtr d2 ctrOvfPeak j (BitVec.ofNat 64 peak) else d2

/-- When an entry was last written (R180): a node when the last value under it came. -/
def entryTime (e : Env) (x : Ctx) : Entry → Nat
  | .node b p false lo n => (List.range n).foldl (fun a i => max a (getSlot (getRed x b) p (ownBase e + lo + i)).keptAt) 0
  | .node b p true lo n =>
    (List.range n).foldl (fun a i => match SMap.get? (getPass (getRed x b) p).groups (lo + i) with | some g => max a g.at_ | none => a) 0
  | .kept b p r => (getSlot (getRed x b) p r).keptAt
  | .fold b => (getRed x b).foldAt
  | .part b p => match (getPass (getRed x b) p).out with | some h => h.since | none => 0

/-- Held nodes and kept copies spill first; pass folds and unacknowledged partials after them (R180). -/
def entryClass : Entry → Nat
  | .node .. => 0
  | .kept .. => 0
  | .fold _ => 1
  | .part .. => 1

/-- Put an entry behind those that spill no later. -/
def insertEntry (key : Entry → Nat × Nat) (a : Entry) : List Entry → List Entry
  | [] => [a]
  | b :: l =>
    if (key a).1 < (key b).1 || ((key a).1 == (key b).1 && decide ((key a).2 < (key b).2)) then a :: b :: l
    else b :: insertEntry key a l

/-- Entries in the order in which they spill: class, then the least recently written; among equals slab order (log 54). -/
def spillOrder (e : Env) (x : Ctx) (l : List Entry) : List Entry :=
  l.foldl (fun acc a => insertEntry (fun y => (entryClass y, entryTime e x y)) a acc) []

/-- Entries that stand before those of a context at a position in the die's quarter of the overflow area: contexts and positions in
order (DESIGN CHOICE, log 95). -/
def ovfBefore (d : Dev) (c pos : Nat) : Nat :=
  d.ctxs.foldl (fun a e => e.2.spilled.foldl (fun b s =>
    if ovfDie s.1 = ovfDie pos && (decide (e.1 < c) || (e.1 == c && decide (s.1 < pos))) then b + s.2.length else b) a) 0

/-- Read spilled entries of a context back from memory: none when they decode, else the stripe that does not (R264). -/
def readSpilled (d : Dev) (c pos : Nat) (l : List Entry) : MemRead :=
  let old := spilledAt (getCtx d c) pos
  let base := ovfBefore d c pos
  l.foldl (fun a x =>
    match old.findIdx? (· == x) with
    | some i => (rawStripes (2 ^ 34 + 8192 * (base + i)) 8192).foldl (readPart (ovfDie pos)) a
    | none => a) { dev := d }

/-- A spilled entry does not decode: the context fails (R286, Table 8-13). -/
def ovfFail (d : Dev) (c pos : Nat) (bad : Option Nat) : Dev :=
  match bad with
  | none => d
  | some n =>
    let d1 := memUeTrap d (ovfDie pos) ((getCtx d c).holder.bind (jobInfo d)) n 5
    if (getCtx d1 c).state == .opened then unitFailCtx d1 c (ueCause d (updDie (ovfDie pos))) else d1

/-- Bring the overflow of a context at a position into line with what it holds (R180): an entry that a join or a comparison
took has come back, and an excess over the window moves out as far as quota and area let it. -/
def spill (d : Dev) (c pos : Nat) : Dev :=
  match ctxEnv d c with
  | none => d
  | some e =>
    let es := posSpillable d e c pos
    let old := spilledAt (getCtx d c) pos
    let still := old.filter es.contains
    let back := old.length - still.length
    let m := readSpilled d c pos (old.filter fun a => !still.contains a)
    let d1 := if back = 0 then d else bumpBy (setSpilled m.dev e.j c pos still) ctrSpillIn c back
    let here := es.filter fun a => !still.contains a
    match getJob d1 e.j with
    | none => d1
    | some jb =>
      let n := min (posFixed d c pos + here.length - (getCtx d c).p.accumWin) (ovfRoom d1 jb pos)
      let out := (spillOrder e (getCtx d c) here).take n
      ovfFail (if out.isEmpty then d1 else bumpBy (setSpilled d1 e.j c pos (still ++ out)) ctrSpillOut c out.length) c pos m.bad

/-- Spilled entries that are freed where they lie, not brought back. -/
def dropSpilled (d : Dev) (j c pos : Nat) (p : Entry → Bool) : Dev :=
  let old := spilledAt (getCtx d c) pos
  let l := old.filter fun a => !p a
  if l.length = old.length then d else setSpilled d j c pos l

/-- Would the seam hold more than the window with `more` further entries, all that may spill spilled (R183)? -/
def overFull (d : Dev) (e : Env) (c pos more : Nat) : Bool :=
  let here := ((posSpillable d e c pos).filter fun a => !(spilledAt (getCtx d c) pos).contains a).length
  decide ((getCtx d c).p.accumWin < posFixed d c pos + more + here - min here (ovfRoom d e.jb pos))

/-- Would a copy that needs an entry of its own be refused (R183)? A window full of entries that never spill refuses it too,
room in the overflow area or not: R180 gives the seam nothing to spill (DESIGN CHOICE, log 82). -/
def accumFull (d : Dev) (e : Env) (c pos : Nat) : Bool := overFull d e c pos 1

/-- Count a refusal under R183; at the job's OVF_QUOTA it is one of a quota too. -/
def countFull (d : Dev) (e : Env) (c : Nat) : Dev :=
  let d1 := bump d ctrAccumFull c
  if e.jb.quotas.ovf ≤ e.jb.ovfHeld then quotaHit d1 e.j 2 else d1

/-- Refill a position of a context, in slab order, as far as its window has room (R180). -/
def refill (d : Dev) (c pos : Nat) : Dev :=
  match ctxEnv d c with
  | none => d
  | some e =>
    let es := posSpillable d e c pos
    let old := spilledAt (getCtx d c) pos
    let here := (es.filter fun a => !old.contains a).length
    let back := (es.filter old.contains).take ((getCtx d c).p.accumWin - (posFixed d c pos + here))
    let m := readSpilled d c pos back
    if back.isEmpty then d
    else ovfFail (bumpBy (setSpilled m.dev e.j c pos (old.filter fun a => !back.contains a)) ctrSpillIn c back.length) c pos m.bad

/-! ## Retiring a seam (R196, R197) -/

/-- Does a context hold a value at a position? -/
def holdsAt (d : Dev) (c pos : Nat) : Bool :=
  match ctxEnv d c with
  | none => false
  | some e => 0 < posEntries d e c pos

/-- Does the position stand between steps 1 and 5 of R196? It takes no contribution, partial or refill. -/
def posRetiring (d : Dev) (pos : Nat) : Bool :=
  match SMap.get? d.spare.retiring pos with
  | some t => decide (d.nowUs < t)
  | none => false

/-- A position's seam is being retired: steps 1 to 5 of R196 take a free time of at most 2 ms from here on (log 88). -/
def startRetiring (d : Dev) (pos : Nat) : Dev :=
  let (w, d1) := drawFree d
  { d1 with spare := { d1.spare with retiring := SMap.set d1.spare.retiring pos (d1.nowUs + w.toNat % 2001) } }

/-- Abandon the samples of a checking seam (R194, R196 step 3). -/
def dropSamples (d : Dev) (seam : Nat) : Dev :=
  forEach (SMap.keys d.ctxs) d fun d' c =>
    let x := getCtx d' c
    let n := (x.slabs.filter fun e => e.2.sample == .pending seam).length
    if n = 0 then d'
    else bumpBy (updCtx d' c fun x => { x with slabs := SMap.mapV (fun _ s =>
      if s.sample == .pending seam then { s with sample := .skipped } else s) x.slabs }) ctrSampleSkip 0 n

/-- One sample of a checking seam is abandoned (Table 19-4). -/
def dropSample (d : Dev) (seam c k : Nat) : Dev :=
  if (SMap.getD (getCtx d c).slabs k {}).sample == .pending seam then
    bump (updCtx d c fun x => { x with slabs := SMap.upd x.slabs k fun s => { s with sample := .skipped } }) ctrSampleSkip 0
  else d

/-- What a completed context still holds at a position whose seam goes: its kept copies end unverified and its samples are
abandoned; its completion stands (DEDUCED, log 88). -/
def dropKeptAt (d : Dev) (c pos : Nat) : Dev :=
  let l := posSlabs d c pos
  let kept := l.foldl (fun a s => a + (s.2.slots.filter fun t => t.2.kept.isSome).length) 0
  let smp := (l.filter fun s => match s.2.sample with | .pending _ => true | _ => false).length
  let d1 := bumpBy (bumpBy d ctrFillUnverified c kept) ctrSampleSkip 0 smp
  let d2 := match (getCtx d c).holder with
    | some j => dropSpilled d1 j c pos fun _ => true
    | none => d1
  updCtx d2 c fun x => { x with slabs := SMap.mapV (fun b s => if SMap.has l b then s.dropHeld else s) x.slabs }

/-- Contexts that fail when position `pos` goes (R196 step 2); all open ones when no checking seam is free (R197). -/
def failOnSeam (d : Dev) (seam pos : Nat) (all : Bool) : Dev :=
  forEach (SMap.keys d.ctxs) d fun d' c =>
    let x := getCtx d' c
    if x.state == .opened && (all || holdsAt d' c pos) then
      let d1 := raiseTrap d' { cause := 0x34, job := x.holder.bind fun j => jobInfo d' j
                               ctx := some (c, x.epoch, 0, 0, 0, 0), kind := 2, unit := seam }
      unitFailCtx d1 c 0x34
    else if x.state == .done then dropKeptAt d' c pos
    else d'

/-- Write a seam record. -/
def putSeam (d : Dev) (s : Nat) (r : SeamRec) : Dev :=
  { d with spare := { d.spare with seams := SMap.set d.spare.seams s r } }

/-- Take a seam out of use: an active seam's position goes to the lowest checking seam (R196) or is lost (R197); a checking
seam's samples are abandoned. The second result says whether a spare took its place. -/
def seamOut (d : Dev) (s : Nat) : Dev × Bool :=
  let r := seamRec d s
  if r.st = 2 then (d, true)
  else if r.st = 1 then (putSeam (dropSamples d s) s { r with st := 2, pos := none }, false)
  else
    let note (d : Dev) : Dev := { d with spare := { d.spare with seamAt := d.spare.seamAt ++ [(s / 16, d.nowUs)] } }
    match r.pos, (checkingSeams d).head? with
    | none, _ => (putSeam d s { r with st := 2, pos := none }, false)
    | some pos, some n =>
      let d1 := startRetiring (failOnSeam d s pos false) pos
      (note (putSeam (putSeam (dropSamples d1 n) s { r with st := 2, pos := none }) n { seamRec d1 n with st := 0, pos := some pos }), true)
    | some pos, none => (note (putSeam (failOnSeam d s pos true) s { r with st := 2, pos := none }), false)

/-- Seams of a combine die, ascending. -/
def dieSeams (c : Nat) : List Nat := rangeFrom (16 * c) 16

/-- Take several seams out of use; was each replaced? -/
def seamsOut : List Nat → Dev × Bool → Dev × Bool
  | [], r => r
  | s :: l, (d, ok) =>
    let (d1, k) := seamOut d s
    seamsOut l (d1, ok && k)

/-- Active seams of a combine die in the order of their positions (R650). -/
def activeSeams (d : Dev) (c : Nat) : List Nat :=
  (List.range 128).filterMap fun p =>
    match boundSeam d p with
    | some s => if s / 16 = c then some s else none
    | none => none

/-- Retire a combine die (R650): free checking seams on it go first, so that nothing is bound to them. -/
def retireDie (d : Dev) (c : Nat) : Dev :=
  if d.spare.dead.contains (18 + c) then d
  else
    let free := (dieSeams c).filter fun s => (seamRec d s).st == 1
    let (d1, _) := seamsOut free (d, true)
    let (d2, ok) := seamsOut (activeSeams d1 c) (d1, true)
    let d3 := { d2 with spare := { d2.spare with dead := insNat (18 + c) d2.spare.dead
                                                 cdie := if d2.spare.cdie = c then 0xF else d2.spare.cdie } }
    commitRepair d3 (ok && d.spare.cdie != c) 5 (18 + c)

/-- Active seams of a combine die retired within the last 24 hours (Table 19-3). -/
def seamsLastDay (d : Dev) (c : Nat) : Nat :=
  (d.spare.seamAt.filter fun e => e.1 == c && decide (d.nowUs < e.2 + 86400000000)).length

/-- Retire one seam (R196, R649); the fourth active seam of a die within 24 hours retires the die (Table 19-3). -/
def retireSeam (d : Dev) (s : Nat) : Dev :=
  if (seamRec d s).st = 2 then d
  else
    let (d1, ok) := seamOut d s
    let d2 := commitRepair d1 ok 2 s
    if (seamRec d s).st = 0 && decide (4 ≤ seamsLastDay d2 (s / 16)) then retireDie d2 (s / 16) else d2

end Sys2Proof.Machine
end

