-- ==== Sys2Proof/Machine/Reduce.lean ====
section
/-!
DEFINITION. Sys2Proof/Machine/Reduce.lean: non-finite events (R100 to R107), the filling of slots and the joining of nodes
(R134 to R160), passes and staging (R140 to R142, R276), the finished slab (R109 to R116), partials sent and the completion
of contexts (R365).
-/
namespace Sys2Proof.Machine

/-! ## Non-finite events -/

/-- Is one identity before another in canonical order (R106): pass, rank, slab, element? -/
def nfBefore (a b : NfId) : Bool :=
  if a.pass != b.pass then decide (a.pass < b.pass)
  else if a.rank != b.rank then decide (a.rank < b.rank)
  else if a.slab != b.slab then decide (a.slab < b.slab)
  else decide (a.elem < b.elem)

/-- K's trap unit receives a non-finite event (R104, R105): one trap per job, step and attempt. -/
def nfTrap (d : Dev) (j : Nat) (t : TrapInfo) : Dev :=
  match getJob d j with
  | none => d
  | some jb =>
    if jb.nfTrap then bump d ctrTrapSuppressed 0
    else raiseTrap (updJob d j fun jb => { jb with nfTrap := true }) t

/-- A non-finite event on a context (R102): identities, counter, trap, mark. `hold` is item 1: no slab that finishes later
is handed on. The trap names the unit that raised it: kind and index (R750). -/
def nfEvent (d : Dev) (c : Nat) (id : NfId) (hold : Bool) (kind unit : Nat) : Dev :=
  let x := getCtx d c
  match x.holder with
  | none => d
  | some j =>
    let further := x.nfMet && decide (id.cause ≤ 0x12)
    let d1 := if further then bump d ctrNonfiniteIn (ctxNum c) else d
    let canon := match x.nfCanon with
      | some o => if nfBefore id o then some id else some o
      | none => some id
    let d2 := updCtx d1 c fun x =>
      { x with nfFirst := if hold then some (x.nfFirst.getD id) else x.nfFirst, nfCanon := canon, nfMet := true }
    let d3 := if hold then updRed d2 c id.slab fun s => { s with nf := some (s.nf.getD id) } else d2
    let d4 := nfTrap d3 j
      { cause := id.cause, job := jobInfo d3 j, ctx := some (ctxNum c, x.epoch, id.slab, id.elem, id.pass, id.rank)
        kind := kind, unit := unit }
    markJob d4 j id.cause

/-- A non-finite event at the seam of its slab. -/
def seamEvent (d : Dev) (c : Nat) (id : NfId) (hold : Bool) : Dev := nfEvent d c id hold 2 (seamUnit d c id.slab)

/-! ## Converting a copy (R91 to R95) -/

/-- Lanes of a copy in FP64, with the non-finite inputs met: (cause, lane). A non-finite lane holds a NaN that no later
addition reports again. -/
def copyLanes (f n : Nat) (cp : Copy) : List F64 × List (Nat × Nat) :=
  go 0 n
where
  /-- Lanes from `i` on; `k` lanes. -/
  go (i : Nat) : Nat → List F64 × List (Nat × Nat)
    | 0 => ([], [])
    | k + 1 =>
      let (r, ev) := go (i + 1) k
      let sc := SMap.getD cp.scales (i / 32) 0
      match ingestElem f (SMap.getD cp.elems i 0) sc with
      | .ok v => (v :: r, ev)
      | .error cause =>
        if cause = 0x12 && i % 32 != 0 then (fpNaN :: r, ev) else (fpNaN :: r, (cause, i) :: ev)

/-- Lowest real lane at which two copies differ (R153): element bytes, and the scale byte of the lane's block. -/
def diffLane (a b : Copy) : Nat → Nat → Option Nat
  | _, 0 => none
  | i, k + 1 =>
    if SMap.getD a.elems i 0 != SMap.getD b.elems i 0 || SMap.getD a.scales (i / 32) 0 != SMap.getD b.scales (i / 32) 0
    then some i else diffLane a b (i + 1) k

/-- The slab area of a COPY record: 1,024 lanes, pad lanes +0 (R668). -/
def copyArea (f n : Nat) (cp : Copy) : List W64 :=
  let sc := if fmtMx f then (List.range 32).map fun b => SMap.getD cp.scales b 0 else []
  let es := (List.range 1024).map fun i => if i < n then SMap.getD cp.elems i 0 else 0
  bytesWords (sc ++ elemBytes (fmtBytes f) es)

/-! ## Records of copies -/

/-- CONTRIB word 0x08 of a slot. -/
def identWord (x : Ctx) (c r p : Nat) : W64 := mkWord [(x.epoch, 48), (c, 32), (r, 16), (p, 0)]

/-- Is the attempt that a context was opened in the one in flight? Its records then stand between its STEP_BEGIN and its STEP_END
(R670). -/
def attemptOn (d : Dev) (j : Nat) (x : Ctx) : Bool :=
  match getJob d j with
  | some jb => jb.inFlight && jb.stepCur == x.step && jb.attempt == x.attempt
  | none => false

/-- A COPY or DUP record (Table 20-6). A duplicate that comes after the attempt's STEP_END is not recorded (R670). -/
def recCopy (d : Dev) (c b p r member lane outcome : Nat) (bak : Bool) (data : List W64) : Dev :=
  let x := getCtx d c
  match x.holder with
  | none => d
  | some j =>
    if attemptOn d j x then
      recWrite d j (if outcome = 0 then 3 else 4)
        ([ identWord x c r p
         , mkWord [(b, 48), (member, 32), (lane, 16), (outcome, 14), (bit bak, 13), (x.p.fmt, 0)]
         , stepWord x.step x.attempt ] ++ data)
    else d

/-! ## Sampling (R193, R194) -/

/-- Entries that the samples of a checking seam take of its 2,048 (R194): it holds the same values as the owning seams, and one
entry at least for a slab it waits for. -/
def sampleLoad (d : Dev) (s : Nat) : Nat :=
  d.ctxs.foldl (fun a x =>
    match ctxEnv d x.1 with
    | none => a
    | some e => x.2.slabs.foldl (fun b t =>
        if t.2.sample == .pending s then b + max 1 (slabEntries e (ownsB e x.2 t.1) t.1 t.2) else b) a) 0

/-- First checking seam from index `i` on, cyclically, whose 2,048 entries have room: one free entry is room, and a sample admitted
is not refused when it grows later (DESIGN CHOICE, log 57). -/
def sampleSeam (d : Dev) (l : List Nat) (i : Nat) : Nat → Option Nat
  | 0 => none
  | k + 1 =>
    let s := l.getD (i % l.length) 0
    if sampleLoad d s < 2048 then some s else sampleSeam d l (i + 1) k

/-- At a slab's first fill a sampled slab goes to a checking seam, or is not checked. -/
def sampleStart (d : Dev) (c b : Nat) : Dev :=
  let x := getCtx d c
  let s := getRed x b
  if s.sample == .notSampled && (x.step + c + b) % 64 == 0 then
    let l := checkingSeams d
    match (if l.isEmpty then none else sampleSeam d l (b / 64 % l.length) l.length) with
    | some k => updRed d c b fun s => { s with sample := .pending k }
    | none => bump (updRed d c b fun s => { s with sample := .skipped }) ctrSampleSkip 0
  else d

/-! ## Completion (R365) -/

/-- Is every slab of the bucket done on this module? -/
def ctxComplete (d : Dev) (c : Nat) : Bool :=
  let x := getCtx d c
  match ctxEnv d c with
  | none => false
  | some e =>
    (List.range x.p.nslab).all fun b => (getRed x b).done || (!ownsB e x b && ownSize e == 0)

/-- An open context that is complete is DONE with ST_OK. -/
def checkComplete (d : Dev) (c : Nat) : Dev :=
  if (getCtx d c).state == .opened && ctxComplete d c then
    let d1 := updCtx d c fun x => { x with state := .done, status := 0 }
    settle (match (getCtx d c).holder with
      | some j => updJob d1 j fun jb => { jb with norm := { jb.norm with waitAt := some d.nowUs } }
      | none => d1)
  else d

/-- A slab is handed on, or its partials are all acknowledged. -/
def slabDone (d : Dev) (c b : Nat) : Dev :=
  checkComplete (updRed d c b fun s => { s with done := true, waiting := none, fold := none }) c

/-! ## Partials sent (R70, R103, R144, R145, R550) -/

/-- Free words, `n` of them. -/
def drawMany (d : Dev) (n : Nat) : List W64 × Dev :=
  ((List.range n).map fun i => Config.freeWord (d.freeCtr + i), { d with freeCtr := d.freeCtr + n })

/-- The packet of a partial. -/
def partialWords (e : Env) (x : Ctx) (c b p : Nat) (h : HeldPartial) : List W64 :=
  let id := h.nf.getD { cause := 0, pass := 0, rank := 0, slab := 0, elem := 0 }
  mkPacket 0x60 e.j
    ([ mkWord [(x.epoch, 48), (c, 32), (e.jb.ordinal, 16), (p, 0)]
     , mkWord [(b, 48), (bit h.nf.isSome, 47), (e.m.crc.toNat, 0)]
     , mkWord [(id.cause, 56), (id.pass, 48), (id.rank, 32), (id.elem, 0)] ] ++
     (h.lanes ++ List.replicate (1024 - h.lanes.length) 0))

/-- Send a held partial to the slab's owner. -/
def sendPartialPkt (d : Dev) (c b p : Nat) : Dev :=
  let x := getCtx d c
  match ctxEnv d c with
  | none => d
  | some e =>
    match (getPass (getRed x b) p).out with
    | none => d
    | some h =>
      let d1 := sendOrd d e.j (slabOwner e.jb.q e.r (slabOf x b)) 6 (partialWords e x c b p h)
      updPass d1 c b p fun ps => { ps with out := some { h with sentAt := d.nowUs } }

/-- A group sum computed on a module that does not own the slab is sent to the owner. The lanes of a flagged partial are
undefined (R550): free values. -/
def startPartial (d : Dev) (c b p : Nat) (lanes : List F64) : Dev :=
  let x := getCtx d c
  let nf := match x.nfFirst with
    | some f => some ((getRed x b).nf.getD f)
    | none => none
  let (ls, d1) := if nf.isSome then drawMany d 1024 else (lanes, d)
  let d2 := updPass d1 c b p fun ps => { ps with out := some { lanes := ls, nf := nf, since := d.nowUs, sentAt := d.nowUs } }
  sendPartialPkt d2 c b p

/-- The owner has acknowledged the partial of pass `p` (R142): the window moves past every acknowledged pass. -/
def ackPasses (c b : Nat) : Nat → Dev → Dev
  | 0, d => d
  | fuel + 1, d =>
    let x := getCtx d c
    let s := getRed x b
    if (getPass s s.low).acked then
      let d1 := updRed d c b fun s =>
        { s with low := s.low + 1, passes := SMap.del s.passes s.low
                 slots := SMap.mapV (fun k sl => if k / 4096 = s.low then { sl with lanes := [] } else sl) s.slots }
      if s.low + 1 = x.p.npass then slabDone d1 c b else ackPasses c b fuel d1
    else d

/-! ## Staging (R65, R276) -/

/-- Write FP64 values to a slab's staging with its metadata. -/
def stagingWrite (d : Dev) (e : Env) (x : Ctx) (c b p : Nat) (fin : Bool) (v : List F64) : Dev :=
  let d1 := updSlab d e.j x.p.region (slabOf x b) fun s =>
    { s with staging := some v, stgFin := fin, stgCtx := c, stgEpoch := x.epoch, stgPass := p }
  writeStage d1 e.j e.jb e.r x.p.region (slabOf x b)

/-- Do the staging fields hold what the context expects? -/
def stagingOk (s : Slab) (fin : Bool) (c epoch p : Nat) : Bool :=
  s.stgFin == fin && s.stgCtx == ctxNum c && s.stgEpoch == epoch && (fin || s.stgPass == p)

/-- STAGE_STALE (R276). -/
def stageStale (d : Dev) (e : Env) (x : Ctx) (c b p kind unit : Nat) : Dev :=
  markJob (raiseTrap d { cause := 0x42, job := jobInfo d e.j, ctx := some (ctxNum c, x.epoch, b, 0, p, 0), kind := kind, unit := unit }) e.j 0x42

/-- Values of a staging area; its content is undefined until it is first written (R270): free values. -/
def stagingRead (d : Dev) (s : Slab) (n : Nat) : List F64 × Dev :=
  match s.staging with
  | some v => (v, d)
  | none => drawMany d n

/-- A slab's staging as the memory gives it: values, whether it was lost (R286), and the device. Prefetchers read the next slabs of
the bucket ahead (Table 8-12). -/
def stageFetch (d : Dev) (e : Env) (x : Ctx) (c b : Nat) : List F64 × Bool × Dev :=
  let k := slabOf x b
  let span (k : Nat) : Span := stageSpan e.j e.jb e.r x.p.region k
  let ahead := (((homeSlabs d e.j c (span k).die).filter fun s => decide (b < s.1)).take 64).map fun s => span s.2
  let a := fetchStage d (.staging c x.epoch) (span k) ahead
  let (v, d1) := stagingRead a.dev (getSlab e.r k) (realLanes e.r k)
  (stageAsRead v (span k) a.fixes, a.bad.isSome, if a.bad.isSome then stageLost d1 e.j e.jb e.r x.p.region k else d1)

/-- At the start of a later pass the owner reads the accumulation back (R65, R276). -/
def startPass (d : Dev) (c b : Nat) : Dev :=
  let x := getCtx d c
  let s := getRed x b
  match ctxEnv d c with
  | none => d
  | some e =>
    if ownsB e x b && s.low != 0 && decide (s.low < x.p.npass) && s.fold.isNone then
      let sl := getSlab e.r (slabOf x b)
      let (v, _, d1) := stageFetch d e x c b
      let d2 := updRed d1 c b fun s => { s with fold := some v, foldAt := d.nowUs }
      if stagingOk sl false c x.epoch (s.low - 1) then d2 else stageStale d2 e x c b s.low 2 (seamUnit d c b)
    else d

/-! ## The finished slab -/

/-- The seam output stage up to the rounding step (R113). -/
def outValue (ds : Desc) (a : F64) : F64 :=
  let y := fpFma ds.scale a ds.bias
  let y1 := if flag ds.ctl 8 && fpLt y ds.clipLo then ds.clipLo else y
  let y2 := if flag ds.ctl 8 && fpLt ds.clipHi y1 then ds.clipHi else y1
  if fpIsZero y2 then 0 else y2

/-- First lane whose fused multiply-add is not finite. -/
def outOvf (ds : Desc) : Nat → List F64 → Option Nat
  | _, [] => none
  | i, a :: r => if fpFinite (fpFma ds.scale a ds.bias) then outOvf ds (i + 1) r else some i

/-- slab_sumsq of R212. -/
def sumSq (ys : List F64) : F64 :=
  match treeVal treeFuel (ys.map fun y => some (some [fpMul y y])) with
  | some (some (v :: _)) => v
  | _ => 0

/-- CRC-32C of the 8,192 bytes of A (Table 20-6). -/
def accCrc (a : List F64) : W32 := crcWords (a ++ List.replicate (1024 - a.length) 0)

/-- Change a job's replay. -/
def updReplay (d : Dev) (j : Nat) (f : Replay → Replay) : Dev := updJob d j fun jb => { jb with replay := jb.replay.map f }

/-- RTYPE of a record. -/
def recType (r : List W64) : Nat := field (wordAt r 0) 63 56

/-- Is the record the RESULT of a slab that a replayed context made? -/
def resultOf (m : MadeSlab) (r : List W64) : Bool :=
  recType r == 6 && field (wordAt r 2) 45 32 == m.ctx && field (wordAt r 2) 63 48 == m.rec_ && field (wordAt r 3) 63 48 == m.slab

/-- Compare a slab with its RESULT record (R679). -/
def resultDiff (d : Dev) (j : Nat) (m : MadeSlab) (r : List W64) : Dev :=
  let aBad := field (wordAt r 2) 31 0 != m.acrc.toNat
  let iBad := field (wordAt r 3) 31 0 != m.img.toNat
  if aBad || iBad then
    let d1 := bump d ctrReplayDiff j
    let step := (getJob d1 j).map (·.stepCur)
    if ((getJob d1 j).bind (·.replay)).bind (·.diffStep) == step then d1
    else
      raiseTrap (updReplay d1 j fun r => { r with diffStep := step })
        { cause := 0xD1, job := (getJob d1 j).map fun jb => (j, stepShown jb, jb.attempt), ctx := some (m.ctx, m.epoch, m.slab, 0, 0, 0)
          details := [BitVec.ofNat 64 (if aBad then 0 else 1)] }
  else d

/-- A slab of a replayed context is written or emitted: it is compared with its RESULT record, now or when that is read
(R679). -/
def replayCompare (d : Dev) (j c b : Nat) (x : Ctx) (acrc img : W32) : Dev :=
  match (getJob d j).bind (·.replay) with
  | none => d
  | some rp =>
    match SMap.get? rp.found c with
    | some (ep, some re) =>
      if !rp.active || ep != x.epoch then d
      else
        let m : MadeSlab := { ctx := c, epoch := ep, rec_ := re, slab := b, acrc := acrc, img := img }
        match rp.kept.find? (resultOf m) with
        | some r => updReplay (resultDiff d j m r) j fun rp => { rp with kept := rp.kept.erase r }
        | none => updReplay d j fun rp => { rp with made := rp.made ++ [m] }
    | _ => d

/-- The RESULT record of an owned slab (Table 20-6). -/
def recResult (d : Dev) (j c b : Nat) (x : Ctx) (acrc img : W32) : Dev :=
  let ws := [ mkWord [(x.epoch, 48), (c, 32), (acrc.toNat, 0)], mkWord [(b, 48), (img.toNat, 0)], stepWord x.step x.attempt ]
  replayCompare (recWrite d j 6 ws) j c b x acrc img

/-- Emit a finished reference slab that waits, when OUT_PORT can take it (R681, R682). -/
def emitRef (d : Dev) (c b : Nat) : Dev :=
  let x := getCtx d c
  match ctxEnv d c with
  | none => d
  | some e =>
    match e.jb.refMode, (getRed x b).waiting with
    | some port, some ys =>
      if (getPort d port).st == .up && inService d port then
        let o : Byte := BitVec.ofNat 8 (x.p.desc.ctl.toNat % 256)
        let out := convertSlab o (fun i => { seed := e.jb.seed, step := x.step, stream := c, slab := b, elem := i }) ys
        let acrc := (getRed x b).acrc
        let pk := mkPacket 0x54 e.j
          ([ mkWord [(x.epoch, 48), (c, 32), (acrc.toNat, 0)], mkWord [(b, 48), (o.toNat, 16), (ys.length, 0)]
           , stepWord x.step x.attempt ] ++ bytesWords (slabBytes o out))
        let d1 := bumpBy d ctrConvSatSeamPos (seamPos d c b) out.sats
        let d2 := bump (sendPort d1 port { queue := e.j, vc := 5, words := pk }) ctrRefSlabs e.j
        slabDone (recResult d2 e.j c b x acrc 0) c b
      else d
    | _, _ => d

/-- The owner has formed A for the last pass (R71, R109 to R111, R67). -/
def finishSlab (d : Dev) (c b : Nat) (a : List F64) : Dev :=
  let x := getCtx d c
  match ctxEnv d c with
  | none => d
  | some e =>
    let d0 := updRed d c b fun s => { s with fold := none, acrc := accCrc a }
    if x.nfFirst.isSome then d0
    else
      match outOvf x.p.desc 0 a with
      | some i => seamEvent d0 c { cause := 0x14, pass := x.p.npass - 1, rank := 0, slab := b, elem := i } true
      | none =>
        let ys := a.map (outValue x.p.desc)
        if e.jb.refMode.isSome then emitRef (updRed d0 c b fun s => { s with waiting := some ys }) c b
        else if x.p.sealed then
          let d1 := stagingWrite d0 e x c b (x.p.npass - 1) true ys
          let n := sumSq ys
          let clips := match SMap.get? d1.rules e.r.rule with | some s => rsGnEn s.words | none => false
          let d2 := writeMeta (if clips then updSlab d1 e.j x.p.region (slabOf x b) fun s => { s with norm := n } else d1) e.j e.jb e.r
            x.p.region (slabOf x b)
          let d3 := if !clips || fpFinite n then d2
            else
              let d3 := updJob d2 e.j fun jb => { jb with norm := { jb.norm with bad := true }, updStop := true }
              seamEvent d3 c { cause := 0x13, pass := x.p.npass - 1, rank := 0, slab := b, elem := 0 } false
          slabDone d3 c b
        else updRed d0 c b fun s => { s with waiting := some ys }

/-! ## Nodes -/

/-- Non-finite events of overflowing additions. -/
def ovfEvents (d : Dev) (c b p : Nat) (l : List (Nat × Nat)) : Dev :=
  forEach l d fun d' e => seamEvent d' c { cause := 0x13, pass := p, rank := e.2, slab := b, elem := e.1 } true

/-- Form the module sum and the pass fold of the lowest pass as soon as its group sums are all held, and go on with the
next pass (R134, R140, R142); `fuel` passes. -/
def ownerAdvance (c b : Nat) : Nat → Dev → Dev
  | 0, d => d
  | fuel + 1, d =>
    let x := getCtx d c
    let s := getRed x b
    match ctxEnv d c with
    | none => d
    | some e =>
      if x.state != .opened || x.p.npass ≤ s.low then d
      else
        match treeVal treeFuel (moduleLeaves e s s.low) with
        | some (some sum) =>
          let d1 := startPass d c b
          let fold := (getRed (getCtx d1 c) b).fold
          let a := match fold with | some f => List.zipWith fpAdd f sum | none => sum
          let ev := match fold with | some f => ovfLanes 0 f sum | none => []
          let d2 := ovfEvents d1 c b s.low (ev.map fun i => (i, 0))
          let d3 := updRed d2 c b fun t =>
            { t with low := s.low + 1, passes := SMap.del t.passes s.low, fold := none
                     slots := SMap.mapV (fun k sl => if k / 4096 = s.low then { sl with lanes := [] } else sl) t.slots }
          if s.low + 1 = x.p.npass then finishSlab d3 c b a
          else
            let d4 := stagingWrite d3 e x c b s.low false a
            let d5 := if (SMap.has s.passes (s.low + 1)) then startPass d4 c b else d4
            ownerAdvance c b fuel d5
        | _ => d

/-- A group sum of a pass is held on the owner: nodes above it, the partial clock, the fold. -/
def holdGroup (d : Dev) (e : Env) (c b p q : Nat) (g : GroupSum) : Dev :=
  let d1 := updPass (sampleStart d c b) c b p fun ps =>
    { ps with groups := SMap.set ps.groups q { g with at_ := d.nowUs }, partClock := some (ps.partClock.getD d.nowUs) }
  let s := getRed (getCtx d1 c) b
  let ev := pathOvf treeFuel (moduleLeaves e s p) q 0
  let d2 := ovfEvents d1 c b p (ev.map fun x => (x.1, groupBase e.m x.2))
  ownerAdvance c b 257 d2

/-- A slot has been filled: the nodes it completes (R137), the own group's sum, and where it goes. -/
def joinSlot (d : Dev) (c b p r : Nat) : Dev :=
  let x := getCtx d c
  match ctxEnv d c with
  | none => d
  | some e =>
    let vs := groupLeaves e (getRed x b) p
    let ev := pathOvf treeFuel vs (r - ownBase e) 0
    let d1 := ovfEvents d c b p (ev.map fun y => (y.1, ownBase e + y.2))
    match treeVal treeFuel vs with
    | some (some g) =>
      if ownsB e x b then holdGroup d1 e c b p e.jb.ordinal { lanes := g } else startPartial d1 c b p g
    | _ => d1

/-! ## Filling a slot (R148 to R152) -/

/-- Has a copy of another source found the slot filled? The filling itself: lanes, counters, clock, sample, record, events,
nodes. `member` is the source. -/
def fillSlot (d : Dev) (c b p r : Nat) (src : Source) (member : Nat) (cp : Copy) : Dev :=
  let x := getCtx d c
  match ctxEnv d c with
  | none => d
  | some e =>
    let n := realLanes e.r (slabOf x b)
    let (ls, ev) := copyLanes x.p.fmt n cp
    let bakEn := (rankEntry e.m r).bakEn
    let d1 := updSlot d c b p r fun s =>
      { s with filled := some src, lanes := ls, kept := if bakEn then some cp else none, keptAt := d.nowUs
               gotPri := s.gotPri || src == .primary, gotBak := s.gotBak || src == .backup
               rxPri := if src == .primary then none else s.rxPri, rxBak := if src == .backup then none else s.rxBak
               heldBak := none }
    let d2 := bump d1 ctrCopiesFilled c
    let d3 := if src == .backup then bump d2 ctrBakFill c else d2
    let d4 := updPass d3 c b p fun ps => { ps with slotClock := some (ps.slotClock.getD d.nowUs) }
    let d5 := startPass (sampleStart d4 c b) c b
    let d6 := recCopy d5 c b p r member 0 0 (src == .backup) (copyArea x.p.fmt n cp)
    let d7 := forEach ev d6 fun d' y => seamEvent d' c { cause := y.1, pass := p, rank := r, slab := b, elem := y.2 } true
    joinSlot d7 c b p r

/-- A duplicate is complete (R153 to R158): compared with the filling copy while that is kept, and spoiled. The spec gives no
code for 'which source filled the slot': DETAIL0 is 0 for the primary and 1 for the backup (DESIGN CHOICE, log 79). A late duplicate
that differs under DUP_POISON = 0, which marks no step (R157), is not counted in LATE_MARK (DESIGN CHOICE, log 112). -/
def takeDuplicate (d : Dev) (c b p r : Nat) (src : Source) (member : Nat) (cp : Copy) : Dev :=
  let x := getCtx d c
  match ctxEnv d c with
  | none => d
  | some e =>
    let sl := getSlot (getRed x b) p r
    let n := realLanes e.r (slabOf x b)
    let d0 := updSlot d c b p r fun s =>
      { s with gotPri := s.gotPri || src == .primary, gotBak := s.gotBak || src == .backup, kept := if x.injected then s.kept else none
               rxPri := if src == .primary then none else s.rxPri, rxBak := if src == .backup then none else s.rxBak }
    if x.injected then d0
    else
      match sl.kept with
      | none => recCopy (bump d0 ctrDupUnchecked c) c b p r member 0 3 (src == .backup) []
      | some k =>
        match diffLane k cp 0 n with
        | none => recCopy (bump d0 ctrDupEqual c) c b p r member 0 1 (src == .backup) []
        | some lane =>
          let d1 := bump (bump d0 ctrDupMismatch c) ctrFillUnverified c
          let d2 := recCopy d1 c b p r member lane 2 (src == .backup) []
          let d3 :=
            if x.dupTrap then bump d2 ctrTrapSuppressed 0
            else raiseTrap (updCtx d2 c fun x => { x with dupTrap := true })
              { cause := 0x20, job := some (e.j, x.step % 2 ^ 48, x.attempt), ctx := some (c, x.epoch, b, lane, p, r)
                kind := 2, unit := seamUnit d2 c b
                details := [BitVec.ofNat 64 (if sl.filled == some .primary then 0 else 1)] }
          if e.m.dupPoison then markJob d3 e.j 0x20 else d3

/-- A copy is complete and its slot's pass is in the window (R149, R150, R153): it fills the slot, is held, or is a
duplicate. -/
def completeCopy (d : Dev) (c b p r : Nat) (src : Source) (member : Nat) (cp : Copy) : Dev :=
  let x := getCtx d c
  match ctxEnv d c with
  | none => d
  | some e =>
    let s := getRed x b
    let sl := getSlot s p r
    let en := rankEntry e.m r
    if sl.filled.isSome || decide (p < s.low) then takeDuplicate d c b p r src member cp
    else if src == .backup && en.prefer then
      updSlot d c b p r fun s => { s with heldBak := some cp, gotBak := true, rxBak := none }
    else
      let held := sl.heldBak
      let d1 := fillSlot d c b p r src member cp
      match held with
      | some h => if src == .primary then takeDuplicate d1 c b p r .backup en.bak h else d1
      | none => d1

end Sys2Proof.Machine
end

