-- ==== Sys2Proof/Machine/LinkTraffic.lean ====
section
/-!
DEFINITION. Sys2Proof/Machine/LinkTraffic.lean: what link events mean for the traffic on a port: deliveries, losses at DOWN
(R305, R306, R320, R559), homes (R557), cabling classes (R574 to R578), and what follows when links enter or leave service.
-/
namespace Sys2Proof.Machine

/-! ## Deliveries (R307, R559) -/

/-- The link layer has acknowledged a packet. -/
def delivered (d : Dev) (k : TxPacket) : Dev :=
  match k.track with
  | .haul j m key _ =>
    let d1 := bump d ctrHaulSlabs (memberIdx j m)
    match ctxOfKey d key with
    | some c => accountHaul d1 c m true
    | none => d1
  | .hoist j m _ kind => if kind = 0 then bump d ctrHoistSlabs (memberIdx j m) else d
  | _ => d

/-- Take a received ACK_SEQ on a port. -/
def takePortAck (d : Dev) (p ack : Nat) : Dev :=
  let (x, dn) := takeAck (getPort d p) ack d.nowUs
  forEach dn (setPort d p x) delivered

/-! ## Losses -/

/-- The other home of a dual-homed member whose home `p` is lost. -/
def otherHome (d : Dev) (j m p : Nat) : Option Nat :=
  (getJob d j).bind fun jb => (SMap.get? jb.members m).bind fun mb =>
    mb.portB.map fun b => if mb.portA = p then b else mb.portA

/-- One packet that the link layer had not acknowledged when port `p` went DOWN (Table 15-19). Haul that had started onto the link
to a single-homed member is not sent twice (R300): it counts as dropped at once (DEDUCED, log 58). -/
def lostPacket (p : Nat) (started : Bool) (d : Dev) (k : TxPacket) : Dev :=
  match k.track with
  | .haul j m key _ =>
    match otherHome d j m p with
    | some o => enqueue d o k
    | none => if started then dropFor d j m (ctxOfKey d key) else enqueue d p k
  | .notice j m =>
    match otherHome d j m p with
    | some o => sendPort d o k
    | none => d
  | .mirror j _ => if (getJob d j).isSome then enqueue d p k else d
  | _ => d

/-- Slabs of each kind that were sent on a hoist request and not acknowledged: keyed by member and tag. -/
structure HoistLost where
  job    : Nat
  member : Nat
  tag    : Nat
  data   : Nat := 0
  dam    : Nat := 0
  off    : Nat := 0

/-- Count one lost slab or status. -/
def addLost (l : List HoistLost) (j m tag kind : Nat) : List HoistLost :=
  let one (h : HoistLost) : HoistLost :=
    match kind with
    | 0 => { h with data := h.data + 1 }
    | 1 => { h with dam := h.dam + 1 }
    | _ => { h with off := h.off + 1 }
  let mine (h : HoistLost) : Bool := h.job == j && h.member == m && h.tag == tag
  if l.any mine then l.map fun h => if mine h then one h else h
  else l ++ [one { job := j, member := m, tag := tag }]

/-- What is counted lost of a request. -/
def lostOf (l : List HoistLost) (j m tag : Nat) : HoistLost :=
  (l.find? fun h => h.job == j && h.member == m && h.tag == tag).getD { job := j, member := m, tag := tag }

/-- End a request whose replies were on the lost home `p` (R320): a dual-homed member learns it on its other home. -/
def endLostHoist (d : Dev) (p j m tag del dam off : Nat) : Dev :=
  let d1 := bump d ctrHoistLinkLost (memberIdx j m)
  match otherHome d1 j m p with
  | some o => sendPort d1 o { queue := j, vc := 3, words := hoistEndWords j tag stLinkLost 0 del dam off }
  | none => d1

/-- Walk the lost packets in the order they were sent: each request that had ended with its end reply still on the link ends
again; what remains counted belongs to requests still open. -/
def lostHoists (p : Nat) : List TxPacket → List HoistLost → Dev → Dev × List HoistLost
  | [], l, d => (d, l)
  | k :: r, l, d =>
    match k.track with
    | .hoist j m tag kind => lostHoists p r (addLost l j m tag kind) d
    | .hoistEnd j m tag del dam off =>
      let x := lostOf l j m tag
      let l' := l.filter fun h => !(h.job == j && h.member == m && h.tag == tag)
      lostHoists p r l' (endLostHoist d p j m tag (del - x.data) (dam - x.dam) (off - x.off))
    | _ => lostHoists p r l d

/-- Open requests of a job whose replies leave on `p` end (R320). -/
def endHoists (d : Dev) (p : Nat) (l : List HoistLost) (sel : Nat → Hoist → Bool) : Dev :=
  forEach d.jobs d fun d' e =>
    forEach (e.2.hoists.filter fun h => h.port == p && sel e.1 h) d' fun d'' h =>
      let x := lostOf l e.1 h.member h.tag
      dropHoist (endLostHoist d'' p e.1 h.member h.tag (h.sent - x.data) (h.damaged - x.dam) (h.offline - x.off))
        e.1 h.member h.tag

/-- Every open request of a job whose replies leave on `p` ends (R320). -/
def endHoistsOn (d : Dev) (p : Nat) (l : List HoistLost) : Dev := endHoists d p l fun _ _ => true

/-- The open requests of which `l` counts a reply lost end (R320). -/
def endLostHoists (d : Dev) (p : Nat) (l : List HoistLost) : Dev :=
  endHoists d p l fun j h => l.any fun x => x.job == j && x.member == h.member && x.tag == h.tag

/-! ## The policer (R41, R538, R610, R611) -/

/-- Does a recording hold a packet: VC1 packets of a job whose records wait for their mirror keep their credits (R671)? -/
def recHolds (d : Dev) (k : Parked) : Bool :=
  k.vc == 1 && match (getJob d (pktJob k.pkt.words)).bind (·.recd) with
    | some r => r.active && !r.heldQ.isEmpty
    | none => false

/-- May the policer take a packet: LINK_MGMT belongs to no job, the buffer it goes to has room for it, and no recording holds it. -/
def policerTakes (d : Dev) (p : Nat) (k : Parked) : Bool :=
  k.vc == 7 || !recHolds d k && bufferRoom d (p / 16) (pktJob k.pkt.words) (inReplyBufs (getPort d p).role k.vc) (pktBytes k.pkt)

/-- Job key of a parked packet. -/
def parkedJob (k : Parked) : Nat := pktJob k.pkt.words

/-- First waiting packet of each job on a VC. -/
def parkedHeads (x : Port) (v : Nat) : List Parked :=
  x.parked.foldl (fun l k => if k.vc = v && !(l.any fun h => parkedJob h == parkedJob k) then l ++ [k] else l) []

/-- A packet leaves the receive buffer toward the combine and update dies. -/
def passPacket (d : Dev) (p : Nat) (k : Parked) : Dev :=
  let d1 := updPort d p fun x =>
    let key := 64 * k.vc + parkedJob k
    let left := x.parked.erase k
    let df := SMap.getD x.polDef key 0 - pktBytes k.pkt
    settleFreed { x with
      parked := left
      polDef := if left.any fun h => h.vc == k.vc && parkedJob h == parkedJob k then SMap.set x.polDef key df else SMap.del x.polDef key }
  { d1 with arrived := d1.arrived ++ [k.pkt] }

/-- VC weight of a job in the policer (R610). -/
def jobWeight (d : Dev) (j v : Nat) : Nat := match getJob d j with | some jb => jb.quotas.weights.getD v 64 | none => 64

/-- Deficit round robin over the jobs of a VC on a port: the job served last goes on while its deficit covers its next packet,
then the next job receives its quantum, by the weight in force for the round (R610). Jobs that are held stand aside. `fuel`
turns. -/
def policeVc : Nat → Dev → Nat → Nat → Dev
  | 0, d, _, _ => d
  | fuel + 1, d, p, v =>
    let x := getPort d p
    let heads := (parkedHeads x v).filter (policerTakes d p)
    let last := SMap.getD x.polLast v 0
    match heads.find? fun k => parkedJob k == last && decide (pktBytes k.pkt ≤ SMap.getD x.polDef (64 * v + last) 0) with
    | some k => policeVc fuel (passPacket d p k) p v
    | none =>
      match nextKey last (heads.map parkedJob) with
      | none => d
      | some j =>
        let round := decide (j ≤ last)
        let w := if round then jobWeight d j v else SMap.getD x.latePol (64 * v + j) (jobWeight d j v)
        policeVc fuel (updPort d p fun x =>
          { x with polLast := SMap.set x.polLast v j, latePol := if round then SMap.keep (fun k _ => k / 64 != v) x.latePol else x.latePol
                   polDef := SMap.set x.polDef (64 * v + j) (SMap.getD x.polDef (64 * v + j) 0 + 244 * w) }) p v

/-- Jobs with a packet that the policer left waiting on a face die, as keys of POLICE_HOLD_US. -/
def heldJobs (d : Dev) (die : Nat) : List Nat :=
  ((rangeFrom (16 * die) 16).flatMap fun p =>
    ((getPort d p).parked.filter fun k => !recHolds d k).map fun k => 18 * parkedJob k + die).eraseDups

/-- Count the time that jobs of a face die have been held, and hold those that still have packets waiting. -/
def holdTick (d : Dev) (die : Nat) : Dev :=
  let old := SMap.keep (fun k _ => k % 18 == die) d.policed
  let d1 := forEach old d fun d' e => if e.2 < d.nowUs then bumpBy d' ctrPoliceHoldUs e.1 (d.nowUs - e.2) else d'
  let rest := SMap.keep (fun k _ => k % 18 != die) d1.policed
  { d1 with policed := (heldJobs d1 die).foldl (fun m k => SMap.set m k d.nowUs) rest }

/-- The policer of a face die takes every packet it may. -/
def policeDie (d : Dev) (die : Nat) : Dev :=
  let ps := (rangeFrom (16 * die) 16).filter fun p => !(getPort d p).parked.isEmpty
  let d1 := forEach ps d fun d' p =>
    forEach ((getPort d' p).parked.map (·.vc)).eraseDups d' fun d'' v => policeVc (40 * 64 * ((getPort d'' p).parked.length + 1)) d'' p v
  if ps.isEmpty && !(d.policed.any fun e => e.1 % 18 == die) then d else holdTick d1 die

/-! ## Link states -/

/-- A port leaves UP: replay sources on it wait from now on (R680). -/
def leftUp (d : Dev) (p : Nat) : Dev :=
  let d1 := updPort d p fun x => { x with upAt := d.nowUs }
  let mark (jb : Job) : Job :=
    match jb.replay with
    | some r => if r.active && r.port == p then { jb with replay := some { r with downAt := some d.nowUs } } else jb
    | none => jb
  { d1 with jobs := SMap.mapV (fun _ jb => mark jb) d1.jobs }

/-- A port goes to DOWN (R522, R559). Whole packets in its receive buffers have been acknowledged: they go on as the policer takes
them. `cause` is its LAST_DOWN code, none where Table 23-3 has none. -/
def portDown (d : Dev) (p : Nat) (cause : Option Nat) : Dev :=
  let x := getPort d p
  if x.st == .down then d
  else
    let was := x.st == .up || x.st == .retrain
    let dt := if was then stallTick d p else d
    let d0 := if x.st == .up then leftUp dt p else dt
    let d1 := if was then raiseTrap (bump d0 ctrLinkDown p) { cause := 0x80, kind := 1, unit := p } else d0
    let lost := unacked x
    let d2 := updPort d1 p fun x => { clearLink x with st := .down, since := d.nowUs, lastDown := cause.getD x.lastDown, queue := [] }
    let d3 := forEach x.queue (forEach (started x) d2 (lostPacket p true)) (lostPacket p false)
    let (d4, l) := lostHoists p lost [] d3
    policeDie (endHoistsOn d4 p l) (p / 16)

/-- TRAIN or INIT fails (R518, R519, R521): cause 1 NO_FLIT, 2 CREDIT_LOW, 3 TIMEOUT. -/
def trainFail (d : Dev) (p cause : Nat) : Dev :=
  let c := if cause = 1 then ctrTrainFailNoFlit else if cause = 2 then ctrTrainFailCreditLow else ctrTrainFailTimeout
  let d1 := bump d c p
  let d2 := if (getPort d p).failTrap then
      raiseTrap d1 { cause := 0x81, kind := 1, unit := p, details := [BitVec.ofNat 64 cause] }
    else d1
  updPort (portDown d2 p (some cause)) p fun x => { x with failed := true, failTrap := false, trainErr := x.trainErr + 1 }

/-- A port enters TRAIN. -/
def enterTrain (d : Dev) (p : Nat) : Dev := updPort d p fun x => { x with st := .train, since := d.nowUs, laneLock := 0 }

/-- A port enters RETRAIN (R519, R522): everything it holds is kept. -/
def enterRetrain (d : Dev) (p lanes : Nat) : Dev :=
  if (getPort d p).st == .up then
    let d1 := bump (leftUp (stallTick d p) p) ctrRetrains p
    updPort d1 p fun x => { x with st := .retrain, since := d.nowUs, resends := 0, laneLock := lanes % 256 }
  else updPort d p fun x => { x with laneLock := lanes % 256 }

/-- Do ports train in the present phase (R701)? -/
def linksOn (d : Dev) : Bool :=
  match d.start.phase with
  | .links | .serve | .bypass | .ready => true
  | .failed => decide (6 ≤ d.start.failPhase)
  | _ => false

/-- Is the face die or the optical position of a port lost, or has it no slice (R560, R644, Table 19-9)? The face die of port
`p` is F(p / 16). -/
def portLost (d : Dev) (p : Nat) : Bool := d.spare.dead.contains (p / 16) || posState d p == 2 || sliceOf d p == 0x1F

/-- Put a flit on the fiber: its bytes in ascending order, scrambled, go into the FEC message bits; where no whole flit fits
before the next alignment marker group, zeros fill the rest (R516, R523). -/
def emitFlit (d : Dev) (p : Nat) (hdr : W64) (us : List W32) : Dev :=
  let x := getPort d p
  let crc := flitCrc hdr us
  let (line, scr) := scramble x.scr (wordUnits [hdr] ++ us ++ [crc])
  let n := x.amFlits + 1
  let (am, pad) := match markerPad n with | some z => (0, z) | none => (n, 0)
  output (updPort d p fun x => { x with scr := scr, amFlits := am }) (.flit p hdr us crc line pad)

/-- Send DOWN_NOTICE at once: the transmitter has nothing after it (R561). -/
def sendDownNotice (d : Dev) (p : Nat) : Dev :=
  let x := getPort d p
  emitFlit d p (flitHeader x 1 0 63 0) (ctlPayload d.fac.serial p x .downNotice)

/-! ## Homes (R557) -/

/-- HOME_STATE, LINK_MGMT KIND 0x01 (R554). -/
def homeState (down other : Nat) : List W64 := mkPacket 0x70 0 [mkWord [(1, 56), (other, 9), (down, 0)]]

/-- A dual-homed member's downstream home follows its links; each change is to be told. -/
def followHome (d : Dev) (mb : Member) : Member :=
  if mb.portB.isNone || homeOf d mb == mb.home then mb else { mb with home := homeOf d mb, untold := true }

/-- The downstream home and the other one, of a member that is to be told of its home on a link that is UP. -/
def homeTelling (d : Dev) (mb : Member) : Option (Nat × Nat) :=
  match mb.portB with
  | some b => if mb.untold && (getPort d mb.home).st == .up then some (mb.home, if mb.home = mb.portA then b else mb.portA) else none
  | none => none

/-- Change every member of every job. -/
def mapMembers (f : Member → Member) (d : Dev) : Dev :=
  { d with jobs := SMap.mapV (fun _ jb => { jb with members := SMap.mapV (fun _ m => f m) jb.members }) d.jobs }

/-- Send HOME_STATE on each new downstream home: one packet for the member of a pair of ports, whatever jobs it serves; while the
new home is not UP, when it is (log 63). -/
def tellHomes (d : Dev) : Dev :=
  let d1 := mapMembers (followHome d) d
  let hs := (d1.jobs.flatMap fun e => e.2.members.filterMap fun m => homeTelling d1 m.2).eraseDups
  let d2 := mapMembers (fun m => if (homeTelling d1 m).isSome then { m with untold := false } else m) d1
  forEach hs d2 fun d' h => enqueue d' h.1 { queue := 64, vc := 7, words := homeState h.1 h.2 }

/-! ## Cabling classes (R574 to R578) -/

/-- Has no beacon reached the port's connector for 2 s (R575)? -/
def beaconGone (d : Dev) (p : Nat) : Bool :=
  let at_ :=
    if portJoined d p then
      let q := d.fabric.pairs.getD ((p - 256) % 16) {}
      if p < 272 then q.monAtA else q.monAtB
    else (getPort d p).beacRxAt
  decide (max at_ d.start.origin + 2000000 ≤ d.nowUs)

/-- The beacon words that a CABLE trap names (R750). -/
def beaconWords (b : Option Beacon) : List W64 :=
  match b with
  | some b => [b.serial, mkWord [(b.engine, 8), (b.pos, 5), (b.role, 0)]]
  | none => [0, 0]

/-- Good classes: OK and THROUGH. -/
def classGood (c : Nat) : Bool := c == 1 || c == 4

/-- Give a port the class `c`. CABLE is raised by the first bad class after a start-up, and as a port that was in service leaves its
good class: the first time, and again for a class that has raised none (R578; log 63). -/
def setClass (d : Dev) (p : Nat) (c : Nat × Nat) : Dev :=
  let x := getPort d p
  let left := classGood x.cls && x.wasServ && !classGood c.1
  let first := x.trapCls.isEmpty && !x.wasLeft && !classGood c.1 && c.1 != 0
  let trap := first || (left && (!x.wasLeft || !x.trapCls.contains c.1))
  let seen := seenOn d p
  let d1 := updPort d p fun x =>
    { x with cls := c.1, thruK := c.2, clsBeac := seen, wasLeft := x.wasLeft || left
             trapCls := if trap then x.trapCls ++ [c.1] else x.trapCls }
  let d2 := updPort d1 p fun x => { x with wasServ := x.wasServ || inService d1 p }
  if trap then raiseTrap d2 { cause := 0x90, kind := 1, unit := p, details := BitVec.ofNat 64 c.1 :: beaconWords seen } else d2

/-- Classify one port. -/
def classifyPort (d : Dev) (p : Nat) : Dev := setClass d p (classify d p (beaconGone d p))

/-- Are ports classified in the present phase: from SERVE on (Table 21-3)? -/
def classifying (d : Dev) : Bool :=
  match d.start.phase with
  | .serve | .bypass | .ready => true
  | .failed => decide (7 ≤ d.start.failPhase)
  | _ => false

/-- Are both homes of a member on the face die of port `p`, one of them `p` (R77)? -/
def placementWarn (d : Dev) (p : Nat) : Bool :=
  d.jobs.any fun e => e.2.members.any fun m =>
    match m.2.portB with
    | some b => (m.2.portA == p || b == p) && m.2.portA / 16 == b / 16
    | none => false

/-- The check of a port records its placement warning (R77). -/
def recordWarn (d : Dev) (p : Nat) : Dev := if SMap.has d.ports p then updPort d p fun x => { x with warn := placementWarn d p } else d

/-- The plan that a check goes by: the loaded one, but for the ports of a pair whose release is in progress (Table 21-9). -/
def planNow (d : Dev) : SMap PlanEntry :=
  let on (p : Nat) : Bool := decide (256 ≤ p) && (d.fabric.pairs.getD ((p - 256) % 16) {}).st == .releasing
  (SMap.keep (fun p _ => on p) d.fabric.planRun).foldl (fun m e => SMap.set m e.1 e.2) (SMap.keep (fun p _ => !on p) d.fabric.plan)

/-- Every port is classified together, against the loaded plan (R574). -/
def checkAll (d : Dev) : Dev :=
  let d0 := { d with fabric := { d.fabric with planRun := planNow d } }
  let cs := (List.range 288).map fun p => (p, classify d0 p (beaconGone d0 p))
  let d1 := forEach cs d0 fun d' e =>
    if e.2.1 = 0 && !SMap.has d'.ports e.1 then d' else recordWarn (setClass d' e.1 e.2) e.1
  { d1 with fabric := { d1.fabric with pairs := (List.range 16).map fun q =>
      let x := d1.fabric.pairs.getD q {}
      { x with clsA := (getPort d1 (256 + q)).cls, clsB := (getPort d1 (272 + q)).cls, clsAtA := d.nowUs, clsAtB := d.nowUs } } }

/-- The cabling check (R481, R574): pairs that were turned back may be released again (R581). -/
def cableCheck (d : Dev) : Dev :=
  let d1 := checkAll d
  { d1 with fabric := { d1.fabric with pairs := d1.fabric.pairs.map fun x => { x with reverted := false } } }

/-- Classify one port, and again each port whose SWAPPED condition this changes (R574). -/
def checkOne (d : Dev) (p : Nat) : Dev :=
  let d1 := if classifying d then recordWarn (classifyPort d p) p else d
  forEach (SMap.keys d1.ports) d1 fun d' q =>
    if q = p || !classifying d' then d'
    else
      let was := (getPort d' q).cls
      let c := classify d' q (beaconGone d' q)
      if was != c.1 && (was == 2 || c.1 == 2) then setClass d' q c else d'

/-- A classification of a port. The first after a plan was loaded takes the plan into force, for every port (R574, Table 21-9). -/
def checkPort (d : Dev) (p : Nat) : Dev :=
  if classifying d && planNow d != d.fabric.planRun then checkAll d else checkOne d p

/-! ## Bypass pairs (R579 to R582) -/

/-- Change a pair. -/
def updPair (d : Dev) (q : Nat) (f : Pair → Pair) : Dev :=
  { d with fabric := { d.fabric with pairs := listSet d.fabric.pairs q (f (d.fabric.pairs.getD q {})) } }

/-- A port whose light path the switch changed: its link goes to DOWN and it enters TRAIN (R581). `seen` is what its new
path showed last, and when. -/
def switchPort (d : Dev) (p : Nat) (seen : Option Beacon × Nat) : Dev :=
  let d1 := updPort (portDown d p none) p fun x => { x with beacon := seen.1, beacRxAt := seen.2, failed := false }
  if (getPort d p).role = 0 || portLost d p then d1 else enterTrain d1 p

/-- Move a pair's switch to JOINED. -/
def joinPair (d : Dev) (q : Nat) (f : Pair → Pair) : Dev :=
  let x := d.fabric.pairs.getD q {}
  if x.st == .joined then updPair d q f
  else
    let d1 := updPair d q fun x => f { x with st := .joined, changeAt := d.nowUs }
    switchPort (switchPort d1 (256 + q) (none, d.nowUs)) (272 + q) (none, d.nowUs)

/-- Move a pair's switch to RELEASED (R581 step 1). -/
def unjoinPair (d : Dev) (q : Nat) : Dev :=
  let x := d.fabric.pairs.getD q {}
  let d0 := { d with fabric := { d.fabric with lastRelease := some d.nowUs } }
  let d1 := updPair d0 q fun x => { x with st := .releasing, startAt := d.nowUs, changeAt := d.nowUs }
  switchPort (switchPort d1 (256 + q) (x.monA, x.monAtA)) (272 + q) (x.monB, x.monAtB)

/-- A releasing pair whose two sides stand as R581 step 3 asks is released. -/
def pairDone (d : Dev) (q : Nat) : Dev :=
  let x := d.fabric.pairs.getD q {}
  if x.st != .releasing || x.startAt + 2000000 < d.nowUs then d
  else
    let a := inService d (256 + q)
    let b := inService d (272 + q)
    let miss (p : Nat) : Bool := (getPort d p).cls == 5
    if (a && b) || (a && miss (272 + q)) || (b && miss (256 + q)) then
      updPair d q fun x => { x with st := .released }
    else d

/-! ## What follows a change of links -/

/-- Waiting reference slabs of the jobs whose OUT_PORT is `p` go out (R682). -/
def emitWaiting (d : Dev) (p : Nat) : Dev :=
  forEach d.ctxs d fun d' e =>
    match e.2.holder.bind (getJob d') with
    | some jb =>
      if jb.refMode == some p then
        forEach e.2.slabs d' fun d'' b => if b.2.waiting.isSome then emitRef d'' e.1 b.1 else d''
      else d'
    | none => d'

/-- Records held for a mirror on `p` go out (R671), and a replay source on `p` is UP again (R680). -/
def wakeRecords (d : Dev) (p : Nat) : Dev :=
  let wake (jb : Job) : Job :=
    match jb.replay with
    | some r => if r.port == p then { jb with replay := some { r with downAt := none } } else jb
    | none => jb
  let d1 := { d with jobs := SMap.mapV (fun _ jb => wake jb) d.jobs }
  forEach d1.jobs d1 fun d' e =>
    if (e.2.recd.toList ++ e.2.recEnded).any fun r => r.target != 0 && r.port == p then recFlushAll d' e.1 else d'

/-- After an event that may have changed link states, classes or switches: homes, releases, ring maps (R586), and the work
that waited for a port. -/
def settleLinks (old d : Dev) : Dev :=
  let d1 := tellHomes d
  let d2 := forEach (List.range 16) d1 pairDone
  let d3 := ringOnChange old d2
  let fresh := (SMap.keys d3.ports).filter fun p => (getPort d3 p).st == .up &&
    ((getPort old p).st != .up || (inService d3 p && !inService old p))
  forEach fresh d3 fun d' p => emitWaiting (wakeRecords d' p) p

/-- A meaning that may change links. -/
def onLinks (ok : Bool) (s : State) (f : Dev → Dev) : Host.Outcome State Fault Refusal :=
  onUnit ok s fun d => settleLinks d (f d)

/-- A port enters UP (R519, R522, R574). -/
def enterUp (d : Dev) (p : Nat) : Dev :=
  let d1 := updPort (if (getPort d p).st == .retrain then stallTick d p else d) p fun x =>
    { x with st := .up, since := d.nowUs, failed := false, failTrap := true, laneLock := 0xFF, trainErr := 0 }
  checkPort (stallTick d1 p) p

end Sys2Proof.Machine
end

