-- ==== Sys2Proof/Machine/Areas.lean ====
section
/-!
DEFINITION. Sys2Proof/Machine/Areas.lean: which area of the store a block of memory belongs to (R267, R268), errors that strike
blocks (R263), and whose it is.
-/
namespace Sys2Proof.Machine

/-! ## The map of a die (Table 8-4) -/

/-- What a 32-byte block holds. -/
inductive Area
  /-- Bytes of a copy or of staging from `off` on; a metadata record. -/
  | copy (job region slab copy off : Nat)
  | staging (job region slab off : Nat)
  | metadata (job region slab : Nat)
  /-- Bytes of a chunk of held parity, or of an accumulated delta row, in the order of their tables (DESIGN CHOICE, log 95). -/
  | parity (chunk off : Nat)
  | delta (chunk off : Nat)
  /-- A spilled accumulator entry, in the order of the contexts and positions (DESIGN CHOICE, log 95). -/
  | overflow (entry : Nat)
  /-- One of the two mirrors of the directory. -/
  | directory (mirror off : Nat)
  /-- Bytes of a record buffer, by the offset in its stream. -/
  | record (job : Nat) (side : Bool) (off : Nat)
  | free
  deriving DecidableEq, Repr

/-- The areas alone, without the place in them. -/
def Area.whole : Area → Area
  | .copy j r k c _ => .copy j r k c 0
  | .staging j r k _ => .staging j r k 0
  | .parity c _ => .parity c 0
  | .delta c _ => .delta c 0
  | .directory m _ => .directory m 0
  | .record j s _ => .record j s 0
  | a => a

/-- Parity bytes on each die in the regions' extents with a key below `key`. -/
def parityBelow (d : Dev) (key : Nat) : Nat :=
  d.jobs.foldl (fun a e => e.2.regions.foldl (fun b g =>
    if extKey e.1 g.1 2 < key then b + (protBytes e.2.q e.2.ordinal g.2 + 27) / 28 else b) a) 0

/-- The area of byte `eo` of a region's extent. -/
def regionArea (d : Dev) (u key eo : Nat) : Area :=
  let j := key / 65536
  let rn := key / 4 % 16384
  match (getJob d j).bind fun jb => (getRegion jb rn).map fun r => (jb, r) with
  | none => .free
  | some (jb, r) =>
    let n := homedNum jb.q jb.ordinal rn r u
    let w := regionW r
    let slab (i : Nat) : Nat := slabOfLocal jb r (firstHome jb.ordinal r.deal rn u + 4 * i)
    match key % 4 with
    | 0 => if eo / (2048 * w) < n then .copy j rn (slab (eo / (2048 * w))) (eo % (2048 * w) / (1024 * w)) (eo % (1024 * w)) else .free
    | 1 => if eo / 8192 < n then .staging j rn (slab (eo / 8192)) (eo % 8192) else .free
    | _ =>
      if eo < 32 * n then .metadata j rn (slab (eo / 32))
      else
        let o := parityBelow d key + (eo - 32 * n)
        .parity (4 * (o / 2 ^ 20) + u) (o % 2 ^ 20)

/-- The area of data block `i` of stripe `n` of an update die. -/
def blockArea (d : Dev) (u n i : Nat) : Area :=
  let o := 1920 * n + 32 * i
  if o < 2 ^ 34 then .delta (4 * (o / 2 ^ 20) + u) (o % 2 ^ 20)
  else if o < 26 * 2 ^ 30 then .overflow ((o - 2 ^ 34) / 8192)
  else if o < 105 * 2 ^ 28 then .directory ((o - 26 * 2 ^ 30) / 2 ^ 27) ((o - 26 * 2 ^ 30) % 2 ^ 27)
  else
    match (getMem d u).exts.findSome? fun e => (stripeIdx e.2 n 0).map fun i => (e.1, i) with
    | some (key, s) =>
      if key < recExt 0 false then regionArea d u key (1920 * s + 32 * i)
      else if key < borrowExt then .record ((key - recExt 0 false) / 2) (key % 2 == 1) (recOff u (1920 * s + 32 * i))
      else
        let o := parityBelow d key + (1920 * s + 32 * i)
        .parity (4 * (o / 2 ^ 20) + u) (o % 2 ^ 20)
    | none => .free

/-- XOR a block into a slab's metadata record (Table 8-6); its reserved bits are not held. -/
def xorMeta (s : Slab) (x : BitVec 256) : Slab :=
  let w (i : Nat) : W64 := wordAt (blockWords x) i
  { s with tag0 := s.tag0 ^^^ w 0, tag1 := s.tag1 ^^^ w 1, norm := s.norm ^^^ w 2
           stgFin := s.stgFin != flag (w 3) 62, stgCtx := s.stgCtx ^^^ field (w 3) 61 48, stgEpoch := s.stgEpoch ^^^ field (w 3) 47 32
           stgPass := s.stgPass ^^^ field (w 3) 31 24 }

/-- XOR a block into what an area holds. Spilled entries and the directory are not held byte by byte: a block of theirs that the
codes let through wrong has no effect in the model (log 95). -/
def xorArea (d : Dev) (a : Area) (x : BitVec 256) : Dev :=
  match a with
  | .copy j rn k c off =>
    match (getJob d j).bind fun jb => getRegion jb rn with
    | some r => updSlab d j rn k fun s =>
        if c = 0 then { s with c0 := xorCopy r s.c0 [(off, x)] } else { s with c1 := xorCopy r s.c1 [(off, x)] }
    | none => d
  | .staging j rn k off =>
    updSlab d j rn k fun s => { s with staging := s.staging.map fun v => (xorLanes 8 4 (off / 8) x v).take v.length }
  | .metadata j rn k =>
    let d1 := updSlab d j rn k fun s => xorMeta s x
    match (getJob d j).bind fun jb => getRegion jb rn with
    | some r => if flag (wordAt (blockWords x) 3) 63 then setDamaged d1 j rn k (!(getSlab r k).damaged) else d1
    | none => d1
  | .parity c off => updPar d fun p =>
      { p with rows := p.rows.modify c fun r => { r with words := xorInto r.words (off / 8) (blockWords x) } }
  | .delta c off => updPar d fun p =>
      { p with accs := p.accs.modify c fun a => { a with at_ := { a.at_ with words := xorInto a.at_.words (off / 8) (blockWords x) } } }
  | .record j side off => updJob d j fun jb =>
      if side == jb.recSide then { jb with recd := jb.recd.map fun r => { r with words := xorStream 0 r.words (off, x) } }
      else { jb with heldRec := jb.heldRec.map fun h => (h.1, xorStream 0 h.2 (off, x)) }
  | _ => d

/-! ## Errors that strike (R263) -/

/-- What a plain read of a block returns wrong: the bits of an error that the inner code lets through. -/
def seenWrong (e : Option BlockErr) : BitVec 256 :=
  match e with
  | some b => if blockKind b == .silent then b.pat else 0
  | none => 0

/-- Change what a plain read of the block on working channel `p` returns. -/
def xorBlock (d : Dev) (u n p : Nat) (x : BitVec 256) : Dev :=
  if x = 0 then d
  else
    match chanBlock n p with
    | some i => xorArea d (blockArea d u n i) x
    | none => d

/-- Set the damage of a block. A line that the cache holds of the stripe leaves it (DESIGN CHOICE, log 96). -/
def putErr (d : Dev) (u n p : Nat) (e : Option BlockErr) : Dev :=
  let old := SMap.get? (getMem d u).errs (62 * n + p)
  let d1 := updMem d u fun m =>
    { m with errs := match e with | some b => SMap.set m.errs (62 * n + p) b | none => SMap.del m.errs (62 * n + p)
             frames := m.frames.filter (· != n), comb := m.comb.filter (· != n), metas := m.metas.filter (· != n), stage := m.stage.filter (· != n) }
  xorBlock d1 u n p (seenWrong old ^^^ seenWrong e)

/-- An error strikes a block of a working channel. -/
def strike (d : Dev) (u : Nat) (s : Strike) : Dev :=
  let r := chanRec d (64 * u + s.channel)
  match r.wnum with
  | none => d
  | some p =>
    if r.st = 3 || (r.st = 2 && !(getMem d u).built.contains s.stripe) then d
    else
      let old := SMap.getD (getMem d u).errs (62 * s.stripe + p) { pat := 0, caught := false }
      let e : BlockErr := { pat := old.pat ^^^ s.pat, caught := old.caught || s.caught }
      putErr d u s.stripe p (if blockKind e == .clean then none else some e)

/-- The blocks of working channel `p` are gone with their channel. -/
def dropChan (d : Dev) (u p : Nat) : Dev :=
  forEach ((getMem d u).errs.filter fun e => e.1 % 62 == p) d fun d' e => putErr d' u (e.1 / 62) p none

/-! ## Owners -/

/-- The job of a held row, when it is one of this module. -/
def rowJob (d : Dev) (r : ParRow) : Option Nat :=
  (getJob d r.job).bind fun jb => if jobKey jb == r.key then some r.job else none

/-- The context whose spilled entry is number `i` on a die. -/
def ovfCtx (d : Dev) (u i : Nat) : Option Nat :=
  (d.ctxs.flatMap fun e => e.2.spilled.flatMap fun s => if ovfDie s.1 = u then s.2.map fun _ => e.1 else [])[i]?

/-- Rewrite a stripe from what is known elsewhere. -/
def rewriteStripe (d : Dev) (u n : Nat) : Dev := forEach (stripeErrs (getMem d u) n) d fun d' e => putErr d' u n e.1 none

end Sys2Proof.Machine
end

