-- ==== Sys2Proof/Machine/HeldParity.lean ====
section
/-!
DEFINITION. Sys2Proof/Machine/HeldParity.lean: the parity that a holder keeps in its memory: rows read and written (R264, R265, R286),
pieces taken, applied and dropped (R347, R348, R619, R622, R623, R630).
-/
namespace Sys2Proof.Machine

/-! ## Rows in memory (R268, R286) -/

/-- The regions' shares of parity on update die `u`, in the order they fill: extent key, bytes before the share in the extent, bytes
of the share. -/
def shareExts (d : Dev) (u : Nat) : List (Nat × Nat × Nat) :=
  d.jobs.flatMap fun e => e.2.regions.map fun g =>
    (extKey e.1 g.1 2, 32 * homedNum e.2.q e.2.ordinal g.1 g.2 u, (protBytes e.2.q e.2.ordinal g.2 + 27) / 28)

/-- The spans of bytes `o` to `o + len` of the parity of a die; past the shares they stand in borrowed space. -/
def shareSpans (u : Nat) : List (Nat × Nat × Nat) → Nat → Nat → List Span
  | [], o, len => [{ die := u, key := borrowExt, off := o, len := len }]
  | (key, b, n) :: l, o, len =>
    if n ≤ o then shareSpans u l (o - n) len
    else if len ≤ n - o then [{ die := u, key := key, off := b + o, len := len }]
    else { die := u, key := key, off := b + o, len := n - o } :: shareSpans u l 0 (len - (n - o))

/-- Bytes `off` to `off + len` of held chunk `c`. -/
def chunkSpans (d : Dev) (c off len : Nat) : List Span := shareSpans (c % 4) (shareExts d (c % 4)) (2 ^ 20 * (c / 4) + off) len

/-- Read them: what decoding leaves wrong stands by its offset in the chunk. -/
def heldRead (d : Dev) (c off len : Nat) : MemRead :=
  ((chunkSpans d c off len).foldl (fun (a : MemRead × Nat) s =>
    let b := readSpan a.1.dev s
    ({ dev := b.dev, bad := if a.1.bad.isSome then a.1.bad else b.bad
       fixes := a.1.fixes ++ b.fixes.map fun e => (a.2 + e.1 - s.off, e.2) }, a.2 + s.len)) ({ dev := d }, off)).1

/-- Held parity in a stripe is lost: the stripe is recomputed from its data modules (Table 8-13). The recomputation, with pool 61
open (R600), lasts until the next microsecond passes (DESIGN CHOICE, log 54): the spec gives it no duration. -/
def parityLost (d : Dev) (u n c : Nat) : Dev :=
  let d1 := rewriteStripe (memUeTrap d u ((d.parity.rows[c]?.bind (rowJob d)).bind (jobInfo d)) n 3) u n
  openPool (updPar d1 fun p => { p with recomp := true }) 61

/-- An accumulated delta in a stripe is lost: its step cannot seal (Table 8-13; DESIGN CHOICE, log 95: a step of this module). -/
def deltaLost (d : Dev) (u n c : Nat) : Dev :=
  match d.parity.accs[c]?.bind fun a => (rowJob d a.at_).map fun j => (a, j) with
  | some (a, j) =>
    let d1 := memUeTrap d u (jobInfo d j) n 4
    match getJob d j with
    | some jb => if jb.stepCur == a.step && jb.attempt == a.attempt then markJob d1 j (ueCause d (updDie u)) else d1
    | none => d1
  | none => memUeTrap d u none n 4

/-- Put what decoding left wrong of held chunk `c` into its words. -/
def fixHeld (d : Dev) (c : Nat) (l : List (Nat × BitVec 256)) : Dev :=
  if l.isEmpty then d
  else updPar d fun p => { p with rows := p.rows.modify c fun r =>
    { r with words := l.foldl (fun m e => xorInto m (e.1 / 8) (blockWords e.2)) r.words } }

/-- Bytes of held chunk `c` are read, XORed into and written (R265). -/
def touchHeld (d : Dev) (c off len : Nat) : Dev :=
  let a := heldRead d c off len
  let d1 := match a.bad with | some n => parityLost a.dev (c % 4) n c | none => fixHeld a.dev c a.fixes
  forEach (chunkSpans d1 c off len) d1 writeSpan

/-- Read bytes of accumulated row `c`, which stands in the delta area of its die, if it stands there; the step whose delta does not
decode cannot seal. -/
def readAcc (d : Dev) (c off len : Nat) : Dev :=
  if deltaChunks ≤ c then d
  else
    let a := (rawStripes (2 ^ 20 * (c / 4) + off) len).foldl (readPart (c % 4)) { dev := d }
    match a.bad with
    | some n => deltaLost a.dev (c % 4) n c
    | none => a.dev

/-- Write them. -/
def writeAcc (d : Dev) (c off len : Nat) : Dev :=
  if deltaChunks ≤ c then d else writeParts d (c % 4) (rawStripes (2 ^ 20 * (c / 4) + off) len)

/-! ## Held parity (R619, R622) -/

/-- Make sure a row of parity can be held: it is, or a chunk is allocated from the parity area or from free space; none when
no space is free. -/
def rowSpace (d : Dev) (key : W64) (job region row : Nat) : Option Dev :=
  if d.parity.rows.any (sameRow key job region row) then some d
  else
    let new_ : ParRow := { key := key, job := job, region := region, row := row }
    let add (d : Dev) : Dev := updPar d fun p => { p with rows := p.rows ++ [new_] }
    if 2 ^ 20 * (d.parity.rows.length - d.parity.borrowed + 1) ≤ parityArea d then some (add d)
    else if 2 ^ 20 ≤ freeSpace d then
      some (bump (updPar (add d) fun p => { p with borrowed := p.borrowed + 1 }) ctrParityBorrow 0)
    else none

/-- A row becomes unprotected (R619). -/
def unprotect (d : Dev) (key : W64) (job region row : Nat) : Dev :=
  if d.parity.unprot.any (sameRow key job region row) then d
  else
    let d1 := bump (updPar d fun p => { p with unprot := p.unprot ++ [{ key := key, job := job, region := region, row := row }] })
      ctrUnprotRows job
    if d1.parity.spaceTrap.contains (key, job) then d1
    else raiseTrap (updPar d1 fun p => { p with spaceTrap := p.spaceTrap ++ [(key, job)] })
      { cause := 0xB2, details := [key, BitVec.ofNat 64 job] }

/-- A chunk whose words are all 0 is freed (R619), but one that an accumulated row is to be folded into. -/
def freeRows (d : Dev) : Dev :=
  let due (r : ParRow) : Bool := d.parity.accs.any fun a => sameRow r.key r.job r.region r.row a.at_
  let (keep_, gone) := d.parity.rows.partition fun r => !r.words.isEmpty || due r
  updPar d fun p => { p with rows := keep_, borrowed := p.borrowed - min p.borrowed gone.length }

/-- Where a row stands among the held chunks. -/
def heldIdx (d : Dev) (key : W64) (job region row : Nat) : Option Nat := d.parity.rows.findIdx? (sameRow key job region row)

/-- XOR words into a held row from word `off` on. -/
def foldRow (d : Dev) (key : W64) (job region row off : Nat) (ws : List W64) : Dev :=
  match heldIdx d key job region row with
  | none => d
  | some c =>
    updPar (touchHeld d c (8 * off) (8 * ws.length)) fun p =>
      { p with rows := p.rows.modify c fun r => { r with words := xorInto r.words off ws } }

/-- Fold an accumulated row, whole, into its held row. -/
def foldChunk (d : Dev) (a : AccRow) : Dev :=
  match heldIdx d a.at_.key a.at_.job a.at_.region a.at_.row with
  | none => d
  | some c =>
    let d1 := match d.parity.accs.findIdx? (· == a) with | some i => readAcc d i 0 (2 ^ 20) | none => d
    updPar (touchHeld d1 c 0 (2 ^ 20)) fun p =>
      { p with rows := p.rows.modify c fun r => { r with words := xorChunk r.words a.at_.words } }

/-- Is it the accumulator row of a step piece's attempt? -/
def accOf (p : ParPiece) (a : AccRow) : Bool := a.step == p.step && a.attempt == p.attempt && sameRow p.key p.job p.region p.row a.at_

/-- Make sure an accumulator row can be held: in the delta area, then in free space; none when no space is free (R622). -/
def accSpace (d : Dev) (p : ParPiece) : Option Dev :=
  if d.parity.accs.any (accOf p) || decide (d.parity.accs.length < deltaChunks) then some d
  else if 2 ^ 20 ≤ freeSpace d then some (bump d ctrParityBorrow 0)
  else none

/-- Put a step piece into its attempt's accumulator row. -/
def accumulate (d : Dev) (p : ParPiece) : Dev :=
  let o := 8 * p.off
  let n := 8 * p.data.length
  match d.parity.accs.findIdx? (accOf p) with
  | some i =>
    updPar (writeAcc (readAcc d i o n) i o n) fun q =>
      { q with accs := q.accs.modify i fun a => { a with at_ := { a.at_ with words := xorInto a.at_.words p.off p.data } } }
  | none =>
    let r : ParRow := { key := p.key, job := p.job, region := p.region, row := p.row, words := xorInto [] p.off p.data }
    updPar (writeAcc d d.parity.accs.length o n) fun q => { q with accs := q.accs ++ [{ step := p.step, attempt := p.attempt, at_ := r }] }

/-- The tag of a source's push of a row. -/
def pushTag (d : Dev) (p : ParPiece) : Option Nat :=
  (d.parity.tags.find? fun t => t.pos == p.pos && t.key == p.key && t.job == p.job && t.region == p.region && t.row == p.row).map (·.step)

/-- Is the identity of two pieces equal (R623)? -/
def samePiece (a b : ParPiece) : Bool :=
  a.key == b.key && a.job == b.job && a.step == b.step && a.attempt == b.attempt && a.base == b.base && a.pos == b.pos &&
  a.region == b.region && a.row == b.row && a.off == b.off

/-- A piece is taken into parity (base) or into its accumulator: the device and whether its row is unprotected. -/
def placePiece (d : Dev) (p : ParPiece) : Dev × Bool :=
  if d.parity.unprot.any (sameRow p.key p.job p.region p.row) then (d, true)
  else
    match rowSpace d p.key p.job p.region p.row with
    | none => (unprotect d p.key p.job p.region p.row, true)
    | some d1 =>
      match if p.base then some d1 else accSpace d1 p with
      | none => (unprotect d p.key p.job p.region p.row, true)
      | some d2 =>
        (if p.base then foldRow d2 p.key p.job p.region p.row p.off p.data else accumulate d2 p, false)

/-- R630 for a step piece on a module that awaits pushes: held, discarded, or placed. -/
def pushRule (d : Dev) (p : ParPiece) : Dev × Bool :=
  match pushTag d p with
  | some t => if t < p.step then placePiece d p else (bump d ctrPushDiscard 0, false)
  | none =>
    if d.parity.pushing && !d.parity.ended.contains p.pos then (updPar d fun q => { q with heldPc := q.heldPc ++ [p] }, false)
    else placePiece d p

/-- Take a piece (R347, R348, R621 to R623): the device, the STATUS and UNPROT of its acknowledgment. -/
def takePiece (d : Dev) (p : ParPiece) : Dev × Nat × Bool :=
  let un := d.parity.unprot.any (sameRow p.key p.job p.region p.row)
  if !p.base && d.parity.dropped.contains { key := p.key, job := p.job, step := p.step, attempt := p.attempt } then
    (bump d ctrParityLate 0, stStaleStep, un)
  else if d.parity.seen.any fun e => samePiece e.1 p && decide (d.nowUs ≤ e.2 + 10000) then (bump d ctrParityDup 0, stOk, un)
  else
    let d1 := updPar d fun q =>
      { q with seen := q.seen.filter (fun e => decide (d.nowUs ≤ e.2 + 10000)) ++ [({ p with data := [] }, d.nowUs)] }
    let (d2, u) := if p.base then placePiece d1 p else pushRule d1 p
    (if p.base then freeRows d2 else d2, stOk, u || un)

/-- The first PARITY_APPLY of an attempt folds every accumulated row (R622). A piece that still waits for a push goes straight into
parity when that lets it (R347, R630): from here on it is held as a base piece is. -/
def applyStep (d : Dev) (t : ParStep) : Dev :=
  if d.parity.applied.contains t then d
  else
    let mine (a : AccRow) : Bool := a.step == t.step && a.attempt == t.attempt && a.at_.key == t.key && a.at_.job == t.job
    let d1 := forEach (d.parity.accs.filter mine) d fun d' a => foldChunk d' a
    let waits (h : ParPiece) : Bool := h.key == t.key && h.job == t.job && h.step == t.step && h.attempt == t.attempt
    freeRows (updPar d1 fun p => { p with accs := p.accs.filter fun a => !mine a
                                          heldPc := p.heldPc.map fun h => if waits h then { h with base := true } else h
                                          applied := p.applied.filter (fun o => !(o.key == t.key && o.job == t.job)) ++ [t] })

/-- The first PARITY_DROP of an attempt discards every accumulated row and is remembered (R348, R622). -/
def dropStep (d : Dev) (t : ParStep) : Dev :=
  if d.parity.dropped.contains t then d
  else
    let mine (a : AccRow) : Bool := a.step == t.step && a.attempt == t.attempt && a.at_.key == t.key && a.at_.job == t.job
    freeRows (updPar d fun p =>
      { p with accs := p.accs.filter fun a => !mine a
               heldPc := p.heldPc.filter fun h => !(h.key == t.key && h.job == t.job && h.step == t.step && h.attempt == t.attempt)
               dropped := p.dropped.filter (fun o => !(o.key == t.key && o.job == t.job)) ++ [t] })


end Sys2Proof.Machine
end

