-- ==== Sys2Proof/Machine/ReplayOps.lean ====
section
/-!
DEFINITION. Sys2Proof/Machine/ReplayOps.lean: STEP_POISON's effect (R353) and replay (R676 to R680): the reading of the
record stream, the matching of contexts, and the injection of copies.
-/
namespace Sys2Proof.Machine

/-! ## Record buffers in the store (R673) -/

/-- What reading record words from memory gives: the device, the die and stripe that did not decode, the words. -/
structure RecRead where
  dev : Dev
  bad : Option (Nat × Nat) := none
  ws  : List W64

/-- Read one span of the words that stand from stream offset `off` on. -/
def readRecPart (off : Nat) (a : RecRead) (s : Span) : RecRead :=
  let m := readSpan a.dev s
  { dev := m.dev, bad := if a.bad.isSome then a.bad else m.bad.map fun n => (s.die, n)
    ws := (m.fixes.map fun f => (recOff s.die (f.1 / 32 * 32), f.2)).foldl (xorStream off) a.ws }

/-- Read the words of a record buffer that stand from stream offset `off` on, `len` bytes of them in memory. -/
def readRec (d : Dev) (j : Nat) (side : Bool) (off len : Nat) (ws : List W64) : RecRead :=
  (recSpans j side off len).foldl (readRecPart off) { dev := d, ws := ws }

/-- What a job's recording holds in the write-combining cache goes to memory. -/
def storeRec (d : Dev) (j : Nat) : Dev :=
  match (getJob d j).bind fun jb => jb.recd.map fun r => (jb, r) with
  | some (jb, r) =>
    if r.target = 0 && decide (r.mem < r.off) then
      updRec (forEach (recSpans j jb.recSide r.mem (r.off - r.mem)) d writeSpan) j fun r => { r with mem := r.off }
    else d
  | none => d

/-- Extents follow what stands on the dies, and the records of every job are in memory: before an error strikes, and when a
recording ends. -/
def settleMem (d : Dev) : Dev := forEach (SMap.keys d.jobs) (syncExts d) storeRec

/-! ## STEP_POISON (R353) -/

/-- The effect of a STEP_POISON that passed its checks, and its POISON record. -/
def poisonStep (d : Dev) (j rank pass : Nat) (body : List W64) : Dev :=
  match getJob d j with
  | none => d
  | some jb =>
    let d1 := nfTrap (recWrite d j 5 (body.take 2)) j
      { cause := 0x17, job := jobInfo d j, ctx := some (16383, 65535, 65535, 1023, pass, rank), ctxv := false }
    match jb.sealSt.state with
    | .opened => markJob d1 j 0x17
    | .prepared => requestAbort d1 j 0x17
    | _ => d1

/-- Checks 3 and 4 of STEP_POISON (R468): the failing check, status and counter. -/
def poisonLate (jb : Job) (body : List W64) : Option (Nat × Nat × Ctr) :=
  let w := wordAt body 0
  if field w 47 0 != jb.stepCur || field w 55 48 != jb.attempt then some (3, stStaleStep, ctrPoisonStale)
  else if jb.sealSt.decision == .seal then some (4, stStepDecided, ctrPoisonLate)
  else none

/-! ## Records -/

/-- REPLAY_DIVERGE (R677, R678). -/
def replayDiverge (d : Dev) (j : Nat) (c : Option (Nat × Nat × Nat × Nat × Nat × Nat)) : Dev :=
  raiseTrap d { cause := 0xD0, job := jobInfo d j, ctx := c }

/-- Count discarded CTX records (REPLAY_SKIP). -/
def countSkips (d : Dev) (j : Nat) (rs : List (List W64)) : Dev :=
  bumpBy d ctrReplaySkip j (rs.filter fun r => recType r == 2).length

/-- Does a record of the step wait for its effect: an open, a copy, a POISON or a RESULT? -/
def recPends (r : List W64) : Bool := recType r == 2 || recType r == 3 || recType r == 5 || recType r == 6

/-- What replay does with a STEP_BEGIN record that stands next: wait, discard what follows, or take it. -/
inductive BeginDo | wait | behind | take
  deriving DecidableEq

/-- The choice (R677, R678) for a record of step `s` and attempt `a`. -/
def beginDo (jb : Job) (first s a : Nat) : BeginDo :=
  if s < first then .behind
  else if s < jb.stepCur then .behind
  else if jb.stepCur < s || !jb.inFlight then .wait
  else if a < jb.attempt then .behind
  else if jb.attempt < a then .wait
  else .take

/-- Is the step and attempt that the kept records belong to in progress? -/
def replayAt (jb : Job) (rp : Replay) : Bool := jb.inFlight && rp.cur == some (jb.stepCur, jb.attempt)

/-- What is left of an attempt that is over is discarded (R678). -/
def dropPassed (d : Dev) (j : Nat) : Dev :=
  match getJob d j with
  | none => d
  | some jb =>
    match jb.replay with
    | none => d
    | some rp =>
      if rp.cur.isNone || replayAt jb rp then d
      else updReplay (countSkips d j rp.kept) j fun rp => { rp with cur := none, kept := [], refused := [], gone := [], made := [] }

/-- A STEP_BEGIN record stands next: it waits for its step and attempt to begin. One of a later attempt that is read while the attempt of
an earlier record runs is no divergence: its own attempt has not begun (R677). -/
def readBegin (d : Dev) (j : Nat) (jb : Job) (rp : Replay) (r : List W64) : Dev × Bool :=
  let s := field (wordAt r 2) 47 0
  let a := field (wordAt r 2) 55 48
  let here := decide (rp.first ≤ s) && jb.stepCur == s && jb.inFlight && !(jb.attempt < a && replayAt jb rp)
  let bad := here && (a != jb.attempt || wordAt r 3 != jb.commit) && !rp.warned
  let d1 := if bad then updReplay (replayDiverge d j none) j fun rp => { rp with warned := true } else d
  match beginDo jb rp.first s a with
  | .wait => (d1, false)
  | .behind => (updReplay d1 j fun rp => { rp with stepAt := s, warned := false }, true)
  | .take => (updReplay d1 j fun rp => { rp with stepAt := s, warned := false, cur := some (s, a) }, true)

/-- STEP and ATTEMPT that a record of a context, a copy, a result or a POISON carries itself (Table 20-6). -/
def recAttempt (r : List W64) : Nat × Nat :=
  let w := match recType r with
    | 2 => wordAt r 11
    | 5 => wordAt r 2
    | _ => wordAt r 4
  (field w 47 0, field w 55 48)

/-- A record that waits for its effect is read: it is kept when its own step and attempt are in progress, discarded when they are over or
lie below FIRST_STEP, and stays where it is until they begin (R677, R678). -/
def readPending (d : Dev) (j : Nat) (jb : Job) (rp : Replay) (r : List W64) : Dev × Bool :=
  match beginDo jb rp.first (recAttempt r).1 (recAttempt r).2 with
  | .wait => (d, false)
  | .behind => (countSkips d j [r], true)
  | .take => (updReplay d j fun rp => { rp with cur := some (recAttempt r), kept := rp.kept ++ [r] }, true)

/-- A GAP record, or a record that a memory error has taken (R680). -/
def readGap (d : Dev) (j : Nat) : Dev := raiseTrap d { cause := 0xD3, job := jobInfo d j }

/-- The record that stands next is read: the device and whether it was taken. END stands until the records before it have
had their effect, or the step is over (R680). -/
def readRecord (d : Dev) (j : Nat) (jb : Job) (rp : Replay) (r : List W64) : Dev × Bool :=
  match recType r with
  | 0x01 => readBegin d j jb rp r
  | 0x08 => (readGap d j, true)
  | 0x09 =>
    if rp.kept.any recPends then (d, false)
    else (updReplay (countSkips d j rp.kept) j fun rp => { rp with active := false, kept := [], asked := [] }, true)
  | _ => if recPends r then readPending d j jb rp r else (d, true)

/-- The record that stands next, `n` words long: one of the held record is read from memory, and an uncorrectable one is as a GAP
(R680). -/
def takeRecord (d : Dev) (j : Nat) (jb : Job) (rp : Replay) (n : Nat) : Dev × Bool :=
  let r := rp.buf.take n
  if rp.source != 0 then readRecord d j jb rp r
  else
    let a := readRec d j rp.side rp.off (8 * n) r
    match a.bad with
    | some (u, s) => (readGap (memUeTrap a.dev u (jobInfo d j) s 7) j, true)
    | none =>
      let (d1, took) := readRecord d j jb rp a.ws
      (if took then (readRec d1 j rp.side rp.off (8 * n) r).dev else d1, took)

/-- Read the records that have arrived whole, as far as they can be taken; `fuel` records. -/
def readRecords (j : Nat) : Nat → Dev → Dev
  | 0, d => d
  | fuel + 1, d =>
    match getJob d j with
    | none => d
    | some jb =>
      match jb.replay with
      | none => d
      | some rp =>
        let n := max 2 (field (wordAt rp.buf 0) 31 0 / 8)
        if !rp.active || rp.buf.length < n then d
        else
          let (d1, took) := takeRecord d j jb rp n
          if took then
            readRecords j fuel (updReplay d1 j fun rp => { rp with buf := rp.buf.drop n, off := rp.off + 8 * n })
          else d1

/-! ## Contexts and copies -/

/-- The CTX_OPEN body without EPOCH. -/
def bodyNoEpoch (b : List W64) : List W64 := BitVec.ofNat 64 (field (wordAt b 0) 47 0) :: b.drop 1

/-- A copy from the slab area of a COPY record (Table 20-5). -/
def areaCopy (f n : Nat) (data : List W64) : Copy :=
  let bytes := wordsBytes data
  let ns := if fmtMx f then 32 else 0
  { elems := (bytesElems (fmtBytes f) 1024 (bytes.drop ns)).take n |>.mapIdx fun i e => (i, e)
    scales := if fmtMx f then (bytes.take ((n + 31) / 32)).mapIdx fun i b => (i, b) else [] }

/-- A context of the job that stands open in the step and whose open has not been searched for. -/
def openUnfound (rp : Replay) (j : Nat) (jb : Job) (c : Nat) (x : Ctx) : Bool :=
  x.holder == some j && (x.state == .opened || x.state == .done) && x.drain == .none && x.step == jb.stepCur &&
  x.attempt == jb.attempt && (match SMap.get? rp.found c with | some (ep, _) => ep != x.epoch | none => true)

/-- An open has found its CTX record (R678): injection for an older open of the context ends. -/
def foundCtx (d : Dev) (j c : Nat) (rp : Replay) (r : List W64) : Dev :=
  let x := getCtx d c
  let ep := field (wordAt r 2) 63 48
  let crc := match SMap.get? d.maps x.p.mapSlot with | some m => m.crc | none => 0
  let same := bodyNoEpoch ((r.drop 2).take 8) == bodyNoEpoch (x.body.take 8) && field (wordAt r 10) 31 0 == crc.toNat
  let old := match SMap.get? rp.found c with | some (_, some re) => [(c, re)] | _ => []
  let kept := rp.kept.erase r
  if same then
    updCtx (updReplay d j fun rp =>
      { rp with found := SMap.set rp.found c (x.epoch, some ep), gone := rp.gone ++ old, kept := kept }) c
      fun x => { x with injected := true }
  else
    replayDiverge (updReplay d j fun rp =>
      { rp with found := SMap.set rp.found c (x.epoch, none), gone := rp.gone ++ old ++ [(c, ep)], kept := kept
                diverged := rp.diverged + 1 }) j (some (c, x.epoch, 0, 0, 0, 0))

/-- Can the seam take an injected copy now (R142, R183, R196)? A copy that a member would send again stays in the record. -/
def injectFits (d : Dev) (e : Env) (c b p r : Nat) (src : Source) (mb : Nat) (cp : Copy) : Bool :=
  let s := getRed (getCtx d c) b
  let pos := seamPos d c b
  !posRetiring d pos && decide (p < s.low + 2) &&
  (!accumFull d e c pos || decide (posEntries (completeCopy d c b p r src mb cp) e c pos ≤ posEntries d e c pos))

/-- A seam refuses an injected copy: the refusal is counted as that of a copy that has arrived (R142, R183), once. -/
def countRefused (d : Dev) (j : Nat) (e : Env) (c b p : Nat) (rec_ : List W64) : Option Dev :=
  let n := field (wordAt rec_ 1) 63 32
  let known := match e.jb.replay with | some rp => rp.refused.contains n | none => true
  if known then none
  else
    let d1 :=
      if posRetiring d (seamPos d c b) then d
      else if (getRed (getCtx d c) b).low + 2 ≤ p then bump d ctrPassAhead c
      else countFull d e c
    some (updReplay d1 j fun rp => { rp with refused := rp.refused ++ [n] })

/-- Inject a COPY record (R678), as a copy that passes the checks of Table 11-6; none while its seam refuses it. The second result says
whether the record has had its effect. -/
def injectCopy (d : Dev) (j c : Nat) (rec_ : List W64) : Option (Dev × Bool) :=
  let x := getCtx d c
  let id := wordAt rec_ 2
  let w := wordAt rec_ 3
  let r := field id 27 16
  let p := field id 7 0
  let b := field w 63 48
  let mb := field w 43 32
  let cnt (d : Dev) : Dev := updReplay d j fun rp => { rp with injected := rp.injected + 1 }
  match ctxEnv d c with
  | none => some (d, true)
  | some e =>
    let en := rankEntry e.m r
    let src : Option Source :=
      if r < ownBase e || ownBase e + ownSize e ≤ r then none
      else if en.pri = mb then some .primary
      else if en.bakEn && en.bak == mb then some .backup else none
    match src with
    | none => some (bump d ctrRankSpoil j, true)
    | some sr =>
      if x.p.npass ≤ p || x.p.nslab ≤ b then some (bump d ctrShapeSpoil c, true)
      else if x.state == .done && x.status != 0 then
        some (bump d (if x.status == BitVec.ofNat 16 stAborted then ctrAbortSpoil else ctrLateSpoil) c, true)
      else
        let sl := getSlot (getRed x b) p r
        let got := if sr == .primary then sl.gotPri else sl.gotBak
        let cp := areaCopy x.p.fmt (realLanes e.r (slabOf x b)) (rec_.drop 5)
        if got then some (cnt (bump d ctrSlotRepeat c), true)
        else if injectFits d e c b p r sr mb cp then
          some (spill (cnt (completeCopy d c b p r sr mb cp)) c (seamPos d c b), true)
        else (countRefused d j e c b p rec_).map fun d1 => (d1, false)

/-- The effect of a kept record, if it can have one now; `before` are the records kept before it. -/
def actRecord (d : Dev) (j : Nat) (jb : Job) (rp : Replay) (before : List (List W64)) (r : List W64) : Option Dev :=
  let drop (d : Dev) : Dev := updReplay d j fun rp => { rp with kept := rp.kept.erase r }
  let c := field (wordAt r 2) 45 32
  let ep := field (wordAt r 2) 63 48
  match recType r with
  | 2 =>
    if openUnfound rp j jb c (getCtx d c) && !(before.any fun q => recType q == 2 && field (wordAt q 2) 45 32 == c) then
      some (foundCtx d j c rp r)
    else none
  | 3 =>
    if rp.gone.contains (c, ep) then some (drop d)
    else if SMap.get? rp.found c == some ((getCtx d c).epoch, some ep) &&
        !(before.any fun q => recType q == 3 && field (wordAt q 2) 45 32 == c && field (wordAt q 2) 63 48 == ep) then
      (injectCopy d j c r).map fun x => if x.2 then drop x.1 else x.1
    else none
  | 5 =>
    if before.any fun q => recType q == 2 || recType q == 3 || recType q == 5 then none
    else
      let body := (r.drop 2).take 2
      some (drop (match poisonLate jb body with
        | some (_, _, ctr) => bump d ctr j
        | none => poisonStep d j (field (wordAt body 1) 43 32) (field (wordAt body 1) 15 8) body))
  | 6 =>
    if rp.gone.contains (c, ep) then some (drop d)
    else
      match rp.made.find? fun m => resultOf m r with
      | some m => some (drop (updReplay (resultDiff d j m r) j fun rp => { rp with made := rp.made.erase m }))
      | none => none
  | _ => none

/-- The first kept record that can have its effect has it. -/
def actFirst (d : Dev) (j : Nat) (jb : Job) (rp : Replay) : List (List W64) → List (List W64) → Option Dev
  | _, [] => none
  | before, r :: rest =>
    match actRecord d j jb rp before r with
    | some d' => some d'
    | none => actFirst d j jb rp (before ++ [r]) rest

/-- Kept records have their effects, as far as they can; `fuel` records. -/
def actRecords (j : Nat) : Nat → Dev → Dev
  | 0, d => d
  | fuel + 1, d =>
    match getJob d j with
    | none => d
    | some jb =>
      match jb.replay with
      | none => d
      | some rp =>
        if rp.active && replayAt jb rp then
          match actFirst d j jb rp [] rp.kept with
          | some d' => actRecords j fuel d'
          | none => d
        else d

/-! ## Requests (R677) -/

/-- Send a REPLAY_REQ. -/
def sendReplayReq (d : Dev) (j port off n : Nat) : Dev :=
  sendPort d port { queue := j, vc := 5, words := mkPacket 0x52 j [BitVec.ofNat 64 off, mkWord [(j, 32), (n, 0)]] }

/-- Ask for a piece of the stream. -/
def askReplay (d : Dev) (j port off n : Nat) : Dev :=
  updReplay (sendReplayReq d j port off n) j fun rp => { rp with asked := rp.asked ++ [(off, n, d.nowUs)] }

/-- Ask on, up to sixteen requests and their bytes ahead of the reading. -/
def askOn (j : Nat) : Nat → Dev → Dev
  | 0, d => d
  | fuel + 1, d =>
    match (getJob d j).bind (·.replay) with
    | none => d
    | some rp =>
      if rp.active && rp.source != 0 && decide (rp.asked.length < 16) && decide (rp.reqOff < rp.off + 131072) then
        askOn j fuel (updReplay (askReplay d j rp.port rp.reqOff 8192) j fun rp => { rp with reqOff := rp.reqOff + 8192 })
      else d

/-- Replay goes on as far as it can. -/
def replayPump (d : Dev) (j : Nat) : Dev :=
  match (getJob d j).bind (·.replay) with
  | none => d
  | some rp =>
    if !rp.active then d
    else
      let n := rp.buf.length / 2 + 1
      let d1 := readRecords j n (dropPassed d j)
      let k := match (getJob d1 j).bind (·.replay) with | some rp => 2 * rp.kept.length | none => 0
      let d2 := readRecords j n (actRecords j k d1)
      askOn j 16 d2

/-- Every replay goes on. -/
def replayAll (d : Dev) : Dev := forEach (SMap.keys d.jobs) d replayPump

end Sys2Proof.Machine
end

