-- ==== Sys2Proof/Machine/StepBegin.lean ====
section
/-!
DEFINITION. Sys2Proof/Machine/StepBegin.lean: the beginning of a step (R243, R244, R247), and the release of step graphs, which
waits for the seal state OPEN (R487, R494).
-/
namespace Sys2Proof.Machine

/-- Schedule entries of a job. -/
def jobScheds (d : Dev) (j : Nat) : List (Nat × SchedEntry) := d.scheds.filter fun e => e.2.job == j

/-- The step in progress begins, unless it has: the values of every entry are fixed and the record begins (R244, R247, R668). -/
def beginStep (d : Dev) (j : Nat) : Dev :=
  match getJob d j with
  | none => d
  | some jb =>
    if jb.inFlight then d
    else
      let es := jobScheds d j
      let vals : SMap SchedVals := es.map fun e => (e.1, schedule e.2.words jb.stepCur)
      let early := (es.filter fun e => decide (jb.stepCur < seStart e.2.words)).length
      let d1 := updJob d j fun jb => { jb with inFlight := true, values := vals }
      recBegin (bump (bumpBy d1 ctrSchedEarly j early) ctrSchedSteps j) j

/-- Does the seal state hold graph releases back (R487)? -/
def releaseWaits (jb : Job) : Bool := jb.sealSt.state == .prepared || jb.sealSt.state == .aborting

/-- A node of a released graph: READY without predecessors, else WAITING (R494). -/
def releaseNode (j g : Nat) (d : Dev) (i : Nat) : Dev :=
  match getNode d j g i with
  | none => d
  | some n => if n.preds.isEmpty then readyNode d j g i else updNode d j g i fun n => { n with st := .waiting }

/-- Bind a graph to STEP_CUR and ATTEMPT and let its nodes run (R487). -/
def releaseGraph (d : Dev) (j g : Nat) : Dev :=
  match getJob d j with
  | none => d
  | some jb =>
    match SMap.get? jb.graphs g with
    | none => d
    | some gr =>
      let d1 := beginStep d j
      let d2 := updJob d1 j fun jb =>
        { jb with graphs := SMap.upd jb.graphs g fun gr => { gr with released := true, step := jb.stepCur, attempt := jb.attempt } }
      let d3 := bump d2 ctrGraphsReleased j
      settle ((SMap.keys gr.nodes).foldl (releaseNode j g) d3)

/-- GRAPH_RELEASE takes effect: the reply says how. No step begins after step 2^48 - 1 (R243). DETAIL is 0: there is no check
table (R392, R462). -/
def tryRelease (d : Dev) (j g : Nat) : Dev × Reply :=
  match getJob d j with
  | none => (d, plainReply stIllegal 0)
  | some jb =>
    match SMap.get? jb.graphs g with
    | none => (d, plainReply stIllegal 0)
    | some gr =>
      if gr.released then (d, plainReply stInUse 0)
      else if 2 ^ 48 ≤ jb.stepCur then (d, plainReply stLimit 0)
      else (releaseGraph d j g, plainReply stOk 0)

/-- The seal state is OPEN again: the releases that waited bind now. -/
def bindReleases (d : Dev) (j : Nat) : Dev :=
  forEach (d.mgmt.waiting.filter (cmdOf j 0x39)) d fun d' w =>
    match getJob d' j with
    | none => d'
    | some jb =>
      if releaseWaits jb then d'
      else
        let (d1, r) := tryRelease d' j w.object
        finalReply d1 w r

end Sys2Proof.Machine
end

