-- ==== Sys2Proof/Machine/SealSteps.lean ====
section
/-!
DEFINITION. Sys2Proof/Machine/SealSteps.lean: the stages of a seal and of an abort on one module (R334 to R350): requests, the
vote and its conditions, the decision, the commit word, parity application, the abort's end, takeover by a new
coordinator; and what the loss of an ordinal or of a position does (R620, R625, R626).
-/
namespace Sys2Proof.Machine

/-- Change a job's seal object. -/
def updSeal (d : Dev) (j : Nat) (f : SealObj → SealObj) : Dev := updJob d j fun jb => { jb with sealSt := f jb.sealSt }

/-! ## Requests (R334) -/

/-- A seal of the current step and attempt is requested on this module: `asked` is whether the coordinator knows it. -/
def requestSeal (d : Dev) (j : Nat) (asked : Bool) : Dev :=
  match getJob d j with
  | none => d
  | some jb =>
    if jb.sealSt.requested then d
    else
      let d1 := updSeal d j fun s => { s with requested := true, requestAt := d.nowUs }
      if coordinator jb = jb.ordinal then forEach (otherOrds jb) d1 fun d' q => sendSeal d' j 1 q {}
      else if asked then d1
      else sendSeal d1 j 1 (coordinator jb) {}

/-! ## The vote (R72, R335) -/

/-- The contexts of the job's step and attempt that are complete. -/
def stepCtxs (d : Dev) (j : Nat) (jb : Job) : List (Nat × Ctx) :=
  (d.left ++ d.ctxs).filter fun e => e.2.holder == some j && e.2.step == jb.stepCur && e.2.attempt == jb.attempt && e.2.state == .done

/-- Is every context opened for the step complete (R365), so none that failed or was poisoned, and none on its way to OPEN? -/
def ctxsComplete (d : Dev) (j : Nat) (jb : Job) : Bool :=
  !(d.ctxs.any fun e => e.2.holder == some j &&
    ((e.2.state == .opened && e.2.step == jb.stepCur && e.2.attempt == jb.attempt) ||
     (e.2.state == .draining && e.2.drain == .open_))) &&
  (stepCtxs d j jb).all fun e => e.2.status == 0

/-- Bucket-relative slabs of a context that the module owns. -/
def ownedOf (jb : Job) (x : Ctx) : List Nat :=
  match getRegion jb x.p.region with
  | none => []
  | some r => (List.range x.p.nslab).filter fun b => ownsSlab jb r (slabOf x b)

/-- Does a sampled recomputation of a context wait, or has one differed? -/
def sampleOpen (x : Ctx) : Bool :=
  x.slabs.any fun e => match e.2.sample with | .pending _ => true | .differed => true | _ => false

/-- Is a filling copy kept under a rank map with DUP_POISON = 1 (R335 item 4)? -/
def keptPoison (d : Dev) (x : Ctx) : Bool :=
  (match SMap.get? d.maps x.p.mapSlot with | some m => m.dupPoison | none => false) && decide (0 < keptCount x)

/-- Do all conditions of R335 hold on the module? -/
def voteReady (d : Dev) (j : Nat) (jb : Job) : Bool :=
  jb.sealSt.state == .opened && jb.sealSt.requested && !jb.stopped && ctxsComplete d j jb &&
  jb.writes.isEmpty && jb.deltaWait.isEmpty && jb.repairs.isEmpty &&
  (stepCtxs d j jb).all fun e =>
    !sampleOpen e.2 && !keptPoison d e.2 &&
    (!e.2.p.sealed || jb.refMode.isSome || (ownedOf jb e.2).all fun b => e.2.hauled.contains b)

/-! ## The commit word (R308, R329, R341) -/

/-- Step notices to every attached member (R308, Table 15-14). -/
def stepNotices (d : Dev) (j outcome step attempt : Nat) : Dev :=
  match getJob d j with
  | none => d
  | some jb =>
    forEach jb.members d fun d' e =>
      sendMember d' j e.1 2 (mkPacket 0x23 j [mkWord [(outcome, 56), (attempt, 48), (step % 2 ^ 48, 0)], jb.commit]) (.notice j e.1)

/-- What of a job belongs to one attempt goes when the attempt ends. -/
def clearAttempt (jb : Job) : Job :=
  { jb with inFlight := false, buckets := [], updStop := false, dieStop := [], sealedRun := false, norm := {}, nfTrap := false, writes := [], deltaWait := [] }

/-- The step and attempt a waiting STEP_ABORT names, as its body word 0 has them. -/
def abortName (step attempt : Nat) : Nat := step % 2 ^ 48 + 2 ^ 48 * attempt

/-- What of the seal object outlives an attempt: the last seal and what the coordinator still has to do for it, tallies of aborts, and
a query in progress (R341, R344, R345, R349). -/
def keptSeal (o : SealObj) : SealObj :=
  { lastStep := o.lastStep, doneActed := o.doneActed, applyWait := o.applyWait, aborts := o.aborts, acks := o.acks, sealOf := o.sealOf
    queryOf := o.queryOf, queryWait := o.queryWait, queryHit := o.queryHit, queryWritten := o.queryWritten, lastAbort := o.lastAbort }

/-- The module writes its commit word: STEP_CUR advances, notices go out, held reads are let go, a snapshot may start, and
STEP_SEAL is answered; STEP_ABORT learns that the seal was decided (R329, R341, R342, R349, R502, R633). -/
def writeCommit (d : Dev) (j : Nat) : Dev :=
  match getJob d j with
  | none => d
  | some jb =>
    let s := jb.stepCur
    let a := jb.attempt
    let d0 := recWrite d j 7 [mkWord [(a, 48), (s % 2 ^ 48, 0)], mkCommit s a]
    let d1 := updJob d0 j fun jb =>
      { clearAttempt jb with
        commit := mkCommit s a, stepCur := s + 1, attempt := 0
        sealSt := { keptSeal jb.sealSt with
                    lastStep := some (s, a), doneActed := false, applyWait := jb.sealSt.holders, lastAbort := none
                    seen := jb.sealSt.seen.filter fun i => i.1 == s } }
    let d2 := bump (tidyLeft d1) ctrSeals j
    let d3 := bumpBy d2 ctrSealWaitUs j (if jb.sealSt.requested then d.nowUs - jb.sealSt.requestAt else 0)
    let d4 := stepNotices d3 j 0 s a
    let d6 := releaseReads d4 j
    let d7 := cancelSettle (applyMarks (graphsSealed j s a d6))
    let d8 := finishCmds d7 (fun w => cmdOf j 0x48 w && w.object == s) (okReply [mkWord [(s % 2 ^ 48, 0)]])
    let d9 := finishCmds d8 (fun w => cmdOf j 0x49 w && w.object == abortName s a) (plainReply stStepDecided 3)
    startRepair (bindReleases (snapDue (snapSetting d9 j) j s) j) j

/-- The seal is done on this module as far as the exchange goes: PARITY_APPLY goes out, once (R341, R344). -/
def sealDone (d : Dev) (j step attempt : Nat) : Dev :=
  match getJob d j with
  | none => d
  | some jb =>
    if jb.sealSt.doneActed then d
    else sendApply (updSeal d j fun s => { s with doneActed := true }) j step attempt

/-- The coordinator holds SEAL_ACK from every other live module: it writes, if it has not, and sends SEAL_DONE (R341 step 3,
R345). A module that was declared withdrawn leaves its commit word unchanged (R626). -/
def trySealEnd (d : Dev) (j : Nat) : Dev :=
  match getJob d j with
  | none => d
  | some jb =>
    match jb.sealSt.sealOf with
    | none => d
    | some (s, a) =>
      if jb.stopped || !((otherOrds jb).all fun q => jb.sealSt.acks.contains q) then d
      else
        let d1 := if jb.stepCur = s && jb.attempt = a then writeCommit d j else d
        let d2 := updSeal d1 j fun o => { o with sealOf := none, acks := [] }
        let d3 := forEach (otherOrds jb) d2 fun d' q => sendSealOf d' j 6 q s a {}
        sealDone d3 j s a

/-- The coordinator decides SEAL for a step and attempt (R341 step 1, R345): SEAL_COMMIT to the modules of `qs`. For a step that
this module has written already the decision says nothing of the step in progress. -/
def decideSeal (d : Dev) (j s a : Nat) (qs : List Nat) : Dev :=
  let d1 := updJob d j fun jb =>
    let o := jb.sealSt
    { jb with sealSt := { o with decision := if jb.stepCur = s && jb.attempt = a then .seal else o.decision, sealOf := some (s, a) } }
  trySealEnd (forEach qs d1 fun d' q => sendSealOf d' j 4 q s a {}) j

/-- A YES vote reaches the coordinator (R340). -/
def takeYes (d : Dev) (j q : Nat) : Dev :=
  let d1 := updSeal d j fun s => { s with yes := insNat q s.yes }
  match getJob d1 j with
  | none => d1
  | some jb =>
    if jb.sealSt.decision == .none && (List.range jb.q).all fun o => jb.sealSt.yes.contains o then
      decideSeal d1 j jb.stepCur jb.attempt (otherOrds jb)
    else d1

/-- The module votes YES when its conditions hold. -/
def castYes (d : Dev) (j : Nat) : Dev :=
  match getJob d j with
  | none => d
  | some jb =>
    if !voteReady d j jb then d
    else
      let d1 := updSeal d j fun s => { s with state := .prepared }
      if coordinator jb = jb.ordinal then takeYes d1 j jb.ordinal
      else sendSeal d1 j 2 (coordinator jb) { vote := 1 }

/-! ## The end of an abort (R349, R350) -/

/-- Does the coordinator await an ABORT_ACK of an attempt from an ordinal? -/
def awaitsAck (s : SealObj) (step attempt q : Nat) : Bool :=
  s.aborts.any fun t => t.step == step && t.attempt == attempt && !t.acks.contains q

/-- An abort tally that every live module has acknowledged is complete: STEP_ABORT of that attempt on it is answered (R349). -/
def tryAbortEnd (d : Dev) (j : Nat) : Dev :=
  match getJob d j with
  | none => d
  | some jb =>
    let whole (t : AbortTally) : Bool := (liveOrds jb).all fun q => t.acks.contains q
    let d1 := updSeal d j fun s => { s with aborts := s.aborts.filter fun t => !whole t }
    forEach (jb.sealSt.aborts.filter whole) d1 fun d' t =>
      finishCmds d' (fun w => cmdOf j 0x49 w && w.object == abortName t.step t.attempt) (plainReply stOk 0)

/-- Take an ABORT_ACK of an attempt the coordinator aborted. -/
def takeAbortAck (d : Dev) (j q step attempt : Nat) : Dev :=
  tryAbortEnd (updSeal d j fun s =>
    { s with aborts := s.aborts.map fun t => if t.step == step && t.attempt == attempt then { t with acks := insNat q t.acks } else t }) j

/-- Is a context of the job on its way to OPEN (Table 11-9)? -/
def drainingOpen (d : Dev) (j : Nat) : Bool := d.ctxs.any fun e => e.2.holder == some j && e.2.state == .draining && e.2.drain == .open_

/-- Steps 5 to 7 of R350, once the contexts on their way to OPEN have ended, the scan is done and every drop acknowledged. -/
def finishAbort (d : Dev) (j : Nat) : Dev :=
  match getJob d j with
  | none => d
  | some jb =>
    if !(jb.sealSt.state == .aborting && jb.sealSt.scanDone && jb.sealSt.dropWait.isEmpty) || drainingOpen d j then d
    else
      let s := jb.stepCur
      let a := jb.attempt
      let d0 := recWrite d j 7 [mkWord [(2, 56), (a, 48), (s % 2 ^ 48, 0)], jb.commit]
      let d1 := forEach (stepCtxs d0 j jb) d0 fun d' e => haulEndAll d' e.1 2
      let d2 := updJob d1 j fun jb =>
        { clearAttempt jb with
          attempt := (a + 1) % 256
          sealSt := { keptSeal jb.sealSt with lastAbort := some (s, a), seen := jb.sealSt.seen.filter fun i => i.1 != s } }
      let d3 := bump (tidyLeft d2) ctrAborts j
      let d4 := stepNotices d3 j 2 s a
      let d6 := finishCmds d4 (fun w => cmdOf j 0x48 w && w.object == s) (plainReply stAborted 0)
      let d7 := startRepair (bindReleases d6 j) j
      if coordinator jb = jb.ordinal then takeAbortAck d7 j jb.ordinal s a
      else
        finishCmds (sendSealOf d7 j 8 (coordinator jb) s a {}) (fun w => cmdOf j 0x49 w && w.object == abortName s a) (plainReply stOk 0)

/-- Empty the attempt's copies (R275): the slab, and how many copies were cleared. -/
def scanSlab (step : Nat) (s : Slab) : Slab × Nat :=
  let hit (t : W64) : Bool := tagWritten t && !tagBase t && tagStep t == step % 2 ^ 48
  ({ s with tag0 := if hit s.tag0 then tagEmpty s.tag0 else s.tag0, tag1 := if hit s.tag1 then tagEmpty s.tag1 else s.tag1 },
    bit (hit s.tag0) + bit (hit s.tag1))

/-- The scan of every slab the module holds for the job. -/
def abortScan (d : Dev) (j : Nat) : Dev :=
  match getJob d j with
  | none => d
  | some jb =>
    let n := jb.regions.foldl (fun a e => e.2.slabs.foldl (fun a s => a + (scanSlab jb.stepCur s.2).2) a) 0
    let d1 := updJob d j fun jb =>
      { jb with regions := SMap.mapV (fun _ r => { r with slabs := SMap.mapV (fun _ s => (scanSlab jb.stepCur s).1) r.slabs }) jb.regions }
    let hit := jb.regions.flatMap fun e => (e.2.slabs.filter fun s => (scanSlab jb.stepCur s.2).2 != 0).map fun s => (e.2, e.1, s.1)
    bumpBy (forEach hit d1 fun d' s => writeMeta d' j jb s.1 s.2.1 s.2.2) ctrAbortClear j n

/-- Steps 3 and 4 of R350: the writes begun are complete, the scan runs, PARITY_DROP goes to every holder. -/
def scanDone (d : Dev) (j : Nat) : Dev :=
  match getJob d j with
  | none => d
  | some jb =>
    if !(jb.sealSt.state == .aborting && !jb.sealSt.scanDone && jb.writes.isEmpty) then d
    else
      let d1 := releaseReads (abortScan d j) j
      let hs := jb.sealSt.holders.filter fun h => !d.parity.lost.contains h
      let d2 := dropHeld d1 j fun h => h.ptype == 0x40 && h.key.getD 0 1 == 0
      let d3 := updSeal d2 j fun s => { s with scanDone := true, dropWait := hs }
      finishAbort (forEach hs d3 fun d' h => sendCtl d' j h 2 jb.stepCur jb.attempt) j

/-! ## Takeover (R345) -/

/-- ABORT is decided for an attempt whose abort has ended here already, as the old coordinator had decided: SEAL_ABORT for those that
have not had it, and their acknowledgments are awaited (R345, R349). -/
def abortLeft (d : Dev) (j step attempt : Nat) : Dev :=
  match getJob d j with
  | none => d
  | some jb =>
    let d1 := updSeal d j fun s => { s with aborts := s.aborts ++ [{ step := step, attempt := attempt, acks := [jb.ordinal] }] }
    tryAbortEnd (forEach (otherOrds jb) d1 fun d' q => sendSealOf d' j 7 q step attempt { reason := 0x51, first := jb.ordinal }) j

/-- The replies are in: SEAL when a live module has written the step, else ABORT. When it is the step this module sealed last, the
step in progress is aborted beside it: an ordinal has withdrawn before its decision (R340). -/
def queryEnd (d : Dev) (j : Nat) : Dev :=
  match getJob d j with
  | none => d
  | some jb =>
    let (step, attempt) := jb.sealSt.queryOf
    let own := jb.sealSt.lastStep == some (step, attempt)
    if own || jb.sealSt.queryHit then
      let qs := (otherOrds jb).filter fun q => !jb.sealSt.queryWritten.contains q
      let d1 := updSeal d j fun s => { s with acks := s.queryWritten, queryHit := false, queryWritten := [] }
      let d2 := decideSeal d1 j step attempt qs
      if own then decideAbort d2 j 0x51 jb.ordinal else d2
    else if step = jb.stepCur && attempt = jb.attempt then decideAbort d j 0x51 jb.ordinal
    else abortLeft d j step attempt

/-- SEAL_DONE of the last sealed step, when this module has acted on it, to the other live modules. -/
def resendDone (d : Dev) (j : Nat) : Dev :=
  match getJob d j with
  | none => d
  | some jb =>
    match jb.sealSt.doneActed, jb.sealSt.lastStep with
    | true, some (s, a) => forEach (otherOrds jb) d fun d' q => sendSealOf d' j 6 q s a {}
    | _, _ => d

/-- The module becomes coordinator: trap, and SEAL_QUERY to every live module. The step in question is the last sealed one
while its SEAL_DONE is missing, else the current one (log 41); then the last one's SEAL_DONE goes out again, and SEAL_ABORT of an
attempt of this step whose abort has ended here, for a survivor that the old coordinator did not reach (R345, R341 step 4). -/
def takeover (d : Dev) (j first : Nat) : Dev :=
  match getJob d j with
  | none => d
  | some jb =>
    let d1 := raiseTrap d { cause := 0x52, job := jobInfo d j, kind := 8, unit := first }
    let (s, a) := match jb.sealSt.lastStep with
      | some x => if jb.sealSt.doneActed then (jb.stepCur, jb.attempt) else x
      | none => (jb.stepCur, jb.attempt)
    let os := otherOrds jb
    let d2 := updSeal d1 j fun o => { o with queryOf := (s, a), queryWait := os, queryHit := false, queryWritten := [] }
    let d2 := match jb.sealSt.lastAbort with
      | some (ls, la) => if ls = jb.stepCur then abortLeft d2 j ls la else d2
      | none => d2
    let d3 := forEach os (resendDone d2 j) fun d' q => sendSealOf d' j 9 q s a {}
    if os.isEmpty then queryEnd d3 j else d3

/-- An ordinal answers, or is lost while it should. -/
def queryAnswer (d : Dev) (j q : Nat) (written : Bool) : Dev :=
  match getJob d j with
  | none => d
  | some jb =>
    if !jb.sealSt.queryWait.contains q then d
    else
      let d1 := updSeal d j fun s =>
        { s with queryWait := delNat q s.queryWait, queryHit := s.queryHit || written
                 queryWritten := if written then insNat q s.queryWritten else s.queryWritten }
      if (delNat q jb.sealSt.queryWait).isEmpty then queryEnd d1 j else d1

/-! ## Loss of an ordinal (R625, R626) -/

/-- The recording and the held record of a job do not survive a withdrawal, nor does a replay of the held record (R673, R684). -/
def loseRecords (jb : Job) : Job :=
  let size := (match jb.recd with | some r => r.size | none => 0) + (match jb.heldRec with | some (n, _) => n | none => 0)
  { jb with recd := none, recEnded := [], heldRec := none, charge := jb.charge - size
            replay := jb.replay.map fun rp => if rp.source = 0 then { rp with active := false, kept := [], made := [] } else rp }

/-- The module stops serving the job: its open contexts fail, its hoists' reads go offline, it votes no more, its records are lost
(R626, R673). -/
def stopJob (d : Dev) (j : Nat) : Dev :=
  match getJob d j with
  | none => d
  | some jb =>
    if jb.stopped then d
    else
      let d1 := updJob d j fun jb => { loseRecords jb with stopped := true }
      let d2 := forEach (SMap.keys d1.ctxs) d1 fun d' c =>
        let x := getCtx d' c
        if x.holder == some j && x.state == .opened then
          settle (haulEndAll (endCtx d' c stUnitFail) c 1)
        else d'
      offlineReads d2 j (fun e => e.remote.isNone) jb.reads.length

/-- The module treats an ordinal as withdrawn (R297, R316, R333, R340, R345). -/
def markWithdrawn (d : Dev) (j q : Nat) : Dev :=
  match getJob d j with
  | none => d
  | some jb =>
    if jb.withdrawn.contains q || jb.q ≤ q then d
    else if q = jb.ordinal then stopJob d j
    else
      let was := coordinator jb
      let d1 := updJob d j fun jb =>
        rewatch d.nowUs jb
          { jb with withdrawn := insNat q jb.withdrawn, gone := jb.gone ++ [wordAt jb.serials q]
                    held := jb.held.filter fun h => !(h.dst == q && (h.ptype == 0x20 || decide (0x60 ≤ h.ptype))) }
      let d2 := offlineOwner d1 j q
      match getJob d2 j with
      | none => d2
      | some jb2 =>
        if jb2.stopped then d2
        else if coordinator jb2 = jb2.ordinal then
          if was != jb2.ordinal then takeover d2 j jb2.ordinal
          else
            let d3 := queryAnswer d2 j q false
            let d4 := tryAbortEnd (trySealEnd d3 j) j
            match getJob d4 j with
            | some jb4 => if jb4.sealSt.decision == .none && jb4.sealSt.queryWait.isEmpty then decideAbort d4 j 0x51 q else d4
            | none => d4
        else d2

/-! ## Loss of a position (R620, R624) -/

/-- PARITY_APPLY of the last sealed step is acknowledged by a holder, or the holder is lost. -/
def applyAcked (d : Dev) (j h : Nat) : Dev := updSeal d j fun s => { s with applyWait := delNat h s.applyWait }

/-- PARITY_DROP is acknowledged by a holder, or the holder is lost. -/
def dropAcked (d : Dev) (j h : Nat) : Dev := finishAbort (updSeal d j fun s => { s with dropWait := delNat h s.dropWait }) j

/-- A position of the group is lost: pieces to it count as acknowledged and unprotected. -/
def loseHolder (d : Dev) (j h : Nat) : Dev :=
  match getJob d j with
  | none => d
  | some jb =>
    let gone := jb.held.filter fun x => x.ptype == 0x40 && x.dst == h
    let ids (b : Nat) : List (Nat × Nat × Nat) :=
      (gone.filter fun x => x.key.getD 0 0 == b).map fun x => (x.key.getD 3 0, x.key.getD 4 0, x.key.getD 5 0)
    let d1 := dropHeld d j fun x => (x.ptype == 0x40 || x.ptype == 0x42) && x.dst == h
    let d2 := updJob (bumpBy d1 ctrUnprotPieces j gone.length) j fun jb =>
      { jb with deltaWait := jb.deltaWait.filter (fun w => !(ids 0).contains w)
                baseWait := jb.baseWait.filter fun w => !(ids 1).contains w }
    baseSettle (dropAcked (applyAcked d2 j h) j h) j

/-- Positions of the group that are not lost, this module's included. -/
def livePos (d : Dev) : List Nat := (List.range 8).filter fun p => p == ownPos d || !d.parity.lost.contains p

/-- A change of the live positions: where the watched position is another one, its 50 ms begin now (R624). -/
def rewatchPos (old d : Dev) : Dev :=
  let watched (d : Dev) : Option Nat := nextUp (ownPos d) (livePos d)
  if watched old = watched d then d else updPar d fun p => { p with liveRx := d.nowUs }

/-- A position is treated as lost: rows that need it cannot be rebuilt (R629). -/
def markLost (d : Dev) (pos : Nat) : Dev :=
  if d.parity.lost.contains pos || ownPos d = pos then (if ownPos d = pos then updPar d fun p => { p with out := true } else d)
  else
    let d1 := rewatchPos d (updPar d fun p => { p with lost := insNat pos p.lost })
    let spoil (r : RowReq) : RowReq := if rowReady (ownPos d) r then r else { r with bad := true }
    forEach (SMap.keys d1.jobs) d1 fun d' j =>
      let d2 := loseHolder d' j pos
      rebuildSettle (updRebuild d2 j fun b => if b.started then { b with rows := b.rows.map spoil } else b) j

end Sys2Proof.Machine
end

