-- ==== Sys2Proof/Machine/Lost.lean ====
section
/-!
DEFINITION. Sys2Proof/Machine/Lost.lean: the withdrawal of this module and what it tells the others (R285, R624), and what an
uncorrectable stripe does to the areas in it (R286, Table 8-13).
-/
namespace Sys2Proof.Machine

/-! ## Withdrawal (R75, R285, R624) -/

/-- A LIVENESS packet. -/
def livenessWords (j : Nat) (id : W64) (scope kind named sender : Nat) : List W64 :=
  mkPacket 0x48 j [id, mkWord [(scope, 62), (kind, 56), (named, 16), (sender, 0)]]

/-- ID of the group. -/
def groupId (g : ParGroup) : W64 := BitVec.ofNat 64 g.id

/-- Send a group LIVENESS to a position. -/
def sendGroupLive (d : Dev) (pos kind named : Nat) : Dev :=
  match d.parity.group with
  | none => d
  | some g => sendPos d 0 pos (livenessWords 0 (groupId g) 2 kind named g.pos)

/-- Tell every live module of a job that an ordinal is withdrawn. -/
def tellWithdrawn (d : Dev) (j q : Nat) : Dev :=
  match getJob d j with
  | none => d
  | some jb =>
    forEach (otherOrds jb) d fun d' o => if o = q then d' else sendOrd d' j o 4 (livenessWords j (jobKey jb) 1 2 q jb.ordinal)

/-- Tell every live position that a position is lost. -/
def tellLost (d : Dev) (pos : Nat) : Dev :=
  forEach ((livePos d).filter fun p => p != ownPos d && p != pos) d fun d' p => sendGroupLive d' p 2 pos

/-- The module withdraws from every job and from its group (R75, R285, R624). -/
def withdrawSelf (d : Dev) : Dev :=
  let d1 := forEach (SMap.keys d.jobs) d fun d' j =>
    match getJob d' j with
    | none => d'
    | some jb =>
      if jb.stopped then d'
      else
        let d2 := raiseTrap d' { cause := 0xB0, job := jobInfo d' j, kind := 8, unit := jb.ordinal }
        stopJob (tellWithdrawn d2 j jb.ordinal) j
  match d1.parity.group with
  | none => d1
  | some g =>
    if d1.parity.out then d1
    else
      let d2 := raiseTrap d1 { cause := 0xB1, kind := 8, unit := g.pos }
      updPar (tellLost d2 g.pos) fun p => { p with out := true }

/-! ## Uncorrectable stripes (R286, Table 8-13) -/

/-- Data blocks of a stripe that are lost when it does not decode: the erased ones, or all when the wrong ones cannot be told. -/
def lostBlocks (d : Dev) (u n : Nat) : List Nat :=
  let er := erasures d u n
  if 2 < er.length then er.filterMap (chanBlock n) else List.range 60

/-- The effect of Table 8-13 on an area of stripe `n`. Parity is recomputed from its data modules (log 54). -/
def areaLost (d : Dev) (u n : Nat) (a : Area) : Dev :=
  match a with
  | .copy j rn k c _ => memUeSlab d j rn k c
  | .staging j rn k _ => memUeSlab d j rn k 3
  | .metadata j rn k => memUeSlab d j rn k 2
  | .parity c _ => parityLost d u n c
  | .delta c _ => deltaLost d u n c
  | .overflow i =>
    match ovfCtx d u i with
    | some c =>
      let d1 := memUeTrap d u ((getCtx d c).holder.bind (jobInfo d)) n 5
      if (getCtx d1 c).state == .opened then unitFailCtx d1 c (ueCause d (updDie u)) else d1
    | none => memUeTrap d u none n 5
  | .directory m _ =>
    let d1 := memUeTrap d u none n 6
    let others := ((lostBlocks d u n).filterMap fun i =>
      match blockArea d u n i with
      | .directory m' off => if m' = m then some ((26 * 2 ^ 30 + (1 - m) * 2 ^ 27 + off) / 1920) else none
      | _ => none).eraseDups
    if others.any fun o => (decodedStripe d u o).isNone then withdrawSelf d1 else rewriteStripe d1 u n
  | .record j _ _ => memUeTrap d u (jobInfo d j) n 7
  | .free => memUeTrap d u none n 7

/-- A stripe does not decode: every area with a lost block in it meets its effect. -/
def stripeLost (d : Dev) (u n : Nat) : Dev :=
  forEach (((lostBlocks d u n).map fun i => (blockArea d u n i).whole).eraseDups) d fun d' a => areaLost d' u n a

/-- Stripes of which a write could not read the rest meet their effect (R265, R286). -/
def settleLost (d : Dev) : Dev :=
  forEach (List.range 4) d fun d' u =>
    let l := (getMem d' u).lost
    if l.isEmpty then d' else forEach l (updMem d' u fun m => { m with lost := [] }) fun d'' n => stripeLost d'' u n

end Sys2Proof.Machine
end

