-- ==== Sys2Proof/Machine/Contrib.lean ====
section
/-!
DEFINITION. Sys2Proof/Machine/Contrib.lean: contributions and partials: their checks, refusals and answers (R142 to R147,
R373 to R386, R543, R544, R550, R551), and the clocks, samples and refills of the combine dies (R186, R187, R154, R194, R195).
-/
namespace Sys2Proof.Machine

/-! ## Contributions: fields (Table 15-11) -/

/-- Fields of a CONTRIB packet. -/
structure ContribF where
  epoch : Nat
  ctx   : Nat
  rank  : Nat
  pass  : Nat
  slab  : Nat
  lane0 : Nat
  nln   : Nat
  fin   : Bool
  fmt   : Nat
  shape : Nat

/-- Read them. -/
def contribF (w : List W64) : ContribF :=
  let a := wordAt w 1
  let b := wordAt w 2
  { epoch := field a 63 48, ctx := field a 45 32, rank := field a 27 16, pass := field a 7 0, slab := field b 63 48
    lane0 := field b 41 32, nln := field b 26 16, fin := flag b 15, fmt := field b 3 0, shape := field (wordAt w 3) 63 32 }

/-- What makes a CONTRIB malformed (R542, R543). -/
def contribBad (k : PktRx) (d : Dev) : Option Nat :=
  let w := k.words
  let f := contribF w
  firstBad
    [ (roleBad d k.port 1, 1)
    , (rsvdSet (wordAt w 1) [(47, 46), (31, 28), (15, 8)] || rsvdSet (wordAt w 2) [(47, 42), (31, 27), (14, 4)] ||
       rsvdSet (wordAt w 3) [(31, 0)], 2)
    , (!fmtContrib f.fmt, 4)
    , (f.lane0 % 32 != 0 || f.nln % 32 != 0 || f.nln < 32 || 1024 < f.lane0 + f.nln, 5)
    , (lenBad w (4 + payloadWords f.fmt f.nln), 3) ]

/-- CONTRIB_ANS to the member whose packet arrived on `port`, on its downstream home (R375, R544, R557). -/
def contribAns (d : Dev) (port j : Nat) (w1 : W64) (slab status : Nat) : Dev :=
  sendPort d (homeOnPort d port) { queue := j, vc := 1, words := mkPacket 0x11 j [w1, mkWord [(slab, 48), (status, 0)]] }

/-- Spoil a copy: count it and answer it when the packet ends it (R375). -/
def spoilCopy (d : Dev) (k : PktRx) (ctr : Option (Ctr × Nat)) (status : Nat) : Dev :=
  let f := contribF k.words
  if f.fin then
    let d1 := match ctr with | some (c, i) => bump d c i | none => d
    contribAns d1 k.port (pktJob k.words) (wordAt k.words 1) f.slab status
  else d

/-- Is a release or a drain in progress that has closed the face-die copies (R368, R387)? -/
def ctxClosed (x : Ctx) : Bool := !(x.state == .opened || x.state == .done) || x.drain != .none

/-- The answer of R374 to a packet that fails check 1 or 2. -/
def staleAnswer (x : Ctx) (j epoch other : Nat) : Nat :=
  if x.holder == some j && x.prevEpoch == epoch && x.prevStatus != 0 then x.prevStatus.toNat else other

/-- Poison a context (R379): trap once per epoch, status, notices. -/
def poisonCtx (d : Dev) (c cause : Nat) (t : TrapInfo) : Dev :=
  let d1 := if (getCtx d c).poisTrap then bump d ctrTrapSuppressed 0
    else raiseTrap (updCtx d c fun x => { x with poisTrap := true }) t
  failCtx d1 c stMismatch cause (some 0x64)

/-- A packet that fails check 4 or 5 of Table 11-6. -/
def mismatch (d : Dev) (k : PktRx) (member cause : Nat) : Dev :=
  let f := contribF k.words
  let x := getCtx d f.ctx
  let d1 := spoilCopy d k (some (ctrShapeSpoil, f.ctx)) stMismatch
  if x.state == .opened then
    poisonCtx d1 f.ctx cause
      { cause := cause, job := x.holder.bind (jobInfo d), ctx := some (f.ctx, x.epoch, f.slab, f.lane0, f.pass, f.rank)
        kind := 1, unit := k.port
        details := BitVec.ofNat 64 member ::
          (if cause = 0x60 then [BitVec.ofNat 64 x.shape.toNat, BitVec.ofNat 64 f.shape] else []) }
  else if x.status == BitVec.ofNat 16 stMismatch then bump d1 ctrTrapSuppressed 0
  else d1

/-! ## Receiving a copy -/

/-- 32-lane blocks that a packet carries. -/
def blocksOf (f : ContribF) : List Nat := rangeFrom (f.lane0 / 32) (f.nln / 32)

/-- Put the packet's elements and scales of the blocks `bs` into a copy. -/
def addBlocks (f : ContribF) (payload : List W64) (bs : List Nat) (cp : Copy) : Copy :=
  let w := fmtBytes f.fmt
  let ns := if fmtMx f.fmt then f.nln / 32 else 0
  let bytes := wordsBytes payload
  let es := bytesElems w f.nln (bytes.drop ns)
  let cp1 := (List.range f.nln).foldl
    (fun cp i => if bs.contains ((f.lane0 + i) / 32) then { cp with elems := SMap.set cp.elems (f.lane0 + i) (es.getD i 0) } else cp) cp
  (List.range ns).foldl
    (fun cp i => if bs.contains (f.lane0 / 32 + i) then
      { cp with scales := SMap.set cp.scales (f.lane0 / 32 + i) (bytes.getD i 0) } else cp) cp1

/-- Is a received copy complete (R544)? -/
def rxComplete (n : Nat) (r : RxCopy) : Bool :=
  r.ended && (List.range ((n + 31) / 32)).all fun b => r.blocks.contains b

/-- The copy being received from a source. -/
def getRx (s : Slot) (src : Source) : Option RxCopy := if src == .primary then s.rxPri else s.rxBak
/-- Write it. -/
def setRx (s : Slot) (src : Source) (r : Option RxCopy) : Slot :=
  if src == .primary then { s with rxPri := r } else { s with rxBak := r }

/-- A refused copy (R142, R183): its END packet is answered with the status. -/
def refuseCopy (d : Dev) (k : PktRx) (src : Source) (status : Nat) : Dev :=
  let f := contribF k.words
  if f.fin then
    contribAns (updSlot d f.ctx f.slab f.pass f.rank fun s => setRx s src none) k.port (pktJob k.words) (wordAt k.words 1) f.slab status
  else updSlot d f.ctx f.slab f.pass f.rank fun s => setRx s src (some { refused := status })

/-- Take a packet into a copy; when that completes it, the copy is used and answered. A packet that repeats part of the copy is
spoiled whole (R384). -/
def receive (d : Dev) (e : Env) (k : PktRx) (src : Source) (member : Nat) (r : RxCopy) : Dev :=
  let f := contribF k.words
  let x := getCtx d f.ctx
  let n := realLanes e.r (slabOf x f.slab)
  let r1 : RxCopy :=
    { r with copy := addBlocks f (k.words.drop 4) (blocksOf f) r.copy, blocks := r.blocks ++ blocksOf f, ended := r.ended || f.fin }
  let pos := seamPos d f.ctx f.slab
  if (blocksOf f).any r.blocks.contains then bump d ctrPktRepeat f.ctx
  else if rxComplete n r1 then
    let d1 := completeCopy d f.ctx f.slab f.pass f.rank src member r1.copy
    let d2 := contribAns d1 k.port e.j (wordAt k.words 1) f.slab stOk
    spill d2 f.ctx pos
  else spill (updSlot d f.ctx f.slab f.pass f.rank fun s => setRx s src (some r1)) f.ctx pos

/-- Would a first packet that completes its copy take no further entry (R183)? -/
def joinsAtOnce (d : Dev) (e : Env) (k : PktRx) (src : Source) (member : Nat) : Bool :=
  let f := contribF k.words
  let x := getCtx d f.ctx
  let n := realLanes e.r (slabOf x f.slab)
  let r : RxCopy := { blocks := blocksOf f, ended := f.fin }
  let pos := seamPos d f.ctx f.slab
  rxComplete n r &&
    decide (posEntries (completeCopy d f.ctx f.slab f.pass f.rank src member (addBlocks f (k.words.drop 4) (blocksOf f) {})) e f.ctx pos
      ≤ posEntries d e f.ctx pos)

/-- Stage 5 on: the packet has passed the checks of Table 11-6 and its context stands open or complete. -/
def seamContrib (d : Dev) (e : Env) (k : PktRx) (src : Source) (member : Nat) : Dev :=
  let f := contribF k.words
  let s := getRed (getCtx d f.ctx) f.slab
  let sl := getSlot s f.pass f.rank
  let got := if src == .primary then sl.gotPri else sl.gotBak
  if got then spoilCopy d k (some (ctrSlotRepeat, f.ctx)) stOk
  else if posRetiring d (seamPos d f.ctx f.slab) then refuseCopy d k src stAccumFull
  else
    match getRx sl src with
    | some r => if r.refused != 0 then refuseCopy d k src r.refused else receive d e k src member r
    | none =>
      if s.low + 2 ≤ f.pass then refuseCopy (bump d ctrPassAhead f.ctx) k src stPassAhead
      else if accumFull d e f.ctx (seamPos d f.ctx f.slab) && !joinsAtOnce d e k src member then
        refuseCopy (countFull d e f.ctx) k src stAccumFull
      else receive d e k src member {}

/-- Do residues of a checked quantity disagree (R190)? An error that is a multiple of 21 escapes both. -/
def residuesDiffer (r : Residues) : Bool := r.pred3 % 3 != r.got3 % 3 || r.pred7 % 7 != r.got7 % 7

/-- The stage of a checked quantity in a trap: its place in the list of R190 (DESIGN CHOICE, log 99). -/
def stageCode (q : Checked) : Nat :=
  match q with
  | .ingest => 0 | .addBefore => 1 | .addAligned => 2 | .addSum => 3 | .addRound => 4 | .addNormal => 5
  | .addExpDiff => 6 | .addExp => 7 | .outProduct => 8 | .outSum => 9 | .outClip => 10 | .outRound => 11

/-- A residue mismatch of an active seam (R191, R196): trap, mark, and the seam is retired. A sample of the slab that differs
later adds to TRAP_SUPPRESSED (Table 5-3). -/
def residueErr (d : Dev) (c b p lane stage : Nat) : Dev :=
  let x := getCtx d c
  let pos := seamPos d c b
  match boundSeam d pos with
  | none => d
  | some seam =>
    let pend := match (getRed x b).sample with | .pending _ => true | _ => false
    let d1 := bump (if pend then updCtx d c fun x => { x with resid := SMap.set x.resid b seam } else d) ctrResidueErr seam
    let d2 := raiseTrap d1 { cause := 0x32, job := x.holder.bind (jobInfo d1), ctx := some (c, x.epoch, b, 0, p, 0)
                             kind := 2, unit := seam, details := [BitVec.ofNat 64 pos, BitVec.ofNat 64 lane, BitVec.ofNat 64 stage] }
    let d3 := match x.holder with | some j => markJob d2 j 0x32 | none => d2
    retireSeam d3 seam

/-- Residues found at the seam of a slab and pass (R190): a mismatch when they disagree. -/
def seamFault (d : Dev) (residue : Option Residues) (c b p : Nat) : Dev :=
  match residue with
  | some r => if residuesDiffer r then residueErr d c b p r.lane (stageCode r.what) else d
  | none => d

/-- A CONTRIB that passes the arrival checks: its context's environment, the source and the member. -/
structure Checkin where
  env    : Env
  src    : Source
  member : Nat

/-- The face die's checks on a CONTRIB, in order: replay's refusal (R676), then Table 11-6. The device is the one the packet is
spoiled on. -/
def checkContrib (d : Dev) (k : PktRx) : Except Dev Checkin :=
  let f := contribF k.words
  let j := pktJob k.words
  let x := getCtx d f.ctx
  match getJob d j with
  | none => .error (spoilCopy d k (some (ctrClosedSpoil, j)) stCtxClosed)
  | some jb =>
    if (match jb.replay with | some r => r.active | none => false) then .error (spoilCopy d k (some (ctrReplaySpoil, j)) stCtxClosed)
    else if x.holder != some j then .error (spoilCopy d k (some (ctrClosedSpoil, j)) stCtxClosed)
    else if ctxClosed x then .error (spoilCopy d k (some (ctrClosedSpoil, j)) (staleAnswer x j f.epoch stCtxClosed))
    else if f.epoch != x.epoch then .error (spoilCopy d k (some (ctrStaleSpoil, j)) (staleAnswer x j f.epoch stStaleEpoch))
    else
      match ctxEnv d f.ctx with
      | none => .error (spoilCopy d k (some (ctrClosedSpoil, j)) stCtxClosed)
      | some e =>
        let en := rankEntry e.m f.rank
        let src : Option (Source × Nat) :=
          match memberOn jb k.port with
          | none => none
          | some mb => if en.pri = mb then some (.primary, mb) else if en.bakEn && en.bak == mb then some (.backup, mb) else none
        let inGroup := decide (ownBase e ≤ f.rank) && decide (f.rank < ownBase e + ownSize e)
        match (if inGroup then src else none) with
        | none => .error (spoilCopy d k (some (ctrRankSpoil, j)) stBadRank)
        | some (sr, mb) =>
          if f.shape != x.shape.toNat || f.fmt != x.p.fmt then .error (mismatch d k mb 0x60)
          else if x.p.npass ≤ f.pass then .error (mismatch d k mb 0x61)
          else if x.p.nslab ≤ f.slab then .error (mismatch d k mb 0x62)
          else .ok { env := e, src := sr, member := mb }

/-- CONTRIB: the arrival checks, which the seam makes again (R60), then the seam. -/
def contrib (d : Dev) (k : PktRx) : Dev :=
  match checkContrib d k with
  | .error d' => d'
  | .ok a =>
    let f := contribF k.words
    let x := getCtx d f.ctx
    if x.state == .done && x.status != 0 then
      let ctr := if x.status == BitVec.ofNat 16 stAborted then ctrAbortSpoil else ctrLateSpoil
      spoilCopy d k (some (ctr, f.ctx)) x.status.toNat
    else seamContrib d a.env k a.src a.member

/-- A contribution packet arrives on a member port (R373). `residue`: residues that its seam has found (R190). -/
def execContrib (k : PktRx) (residue : Option Residues) (s : State) : Host.Outcome State Fault Refusal :=
  onArrival k 0x10 (contribBad k) (fun d =>
    let d1 := settleLost (contrib d k)
    seamFault d1 residue (contribF k.words).ctx (contribF k.words).slab (contribF k.words).pass) s

/-! ## Partials (R142 to R147, R376, R550, R551) -/

/-- Fields of a PARTIAL. -/
structure PartialF where
  epoch : Nat
  ctx   : Nat
  ord   : Nat
  pass  : Nat
  slab  : Nat
  nf    : Bool
  crc   : Nat
  id    : NfId

/-- Read them. -/
def partialF (w : List W64) : PartialF :=
  let a := wordAt w 1
  let b := wordAt w 2
  let c := wordAt w 3
  { epoch := field a 63 48, ctx := field a 45 32, ord := field a 24 16, pass := field a 7 0, slab := field b 63 48
    nf := flag b 47, crc := field b 31 0
    id := { cause := field c 63 56, pass := field c 55 48, rank := field c 43 32, slab := field b 63 48, elem := field c 9 0 } }

/-- PARTIAL_ANS to the sender (R551). -/
def partialAns (d : Dev) (k : PktRx) (status : Nat) : Dev :=
  let f := partialF k.words
  sendAddr d 6 (pktJob k.words) k.src
    (mkPacket 0x61 (pktJob k.words) [wordAt k.words 1, mkWord [(f.slab, 48), (status, 0)]])

/-- What makes a PARTIAL malformed (R147, R542). The checks of R147 that need the context's map are made where the context is
held under the packet's epoch. -/
def partialBad (k : PktRx) (d : Dev) : Option Nat :=
  let w := k.words
  let f := partialF w
  let x := getCtx d f.ctx
  let fromMap : Bool :=
    match getJob d (pktJob w) with
    | none => false
    | some jb =>
      decide (jb.q ≤ f.ord) || f.ord == jb.ordinal ||
      (x.holder == some (pktJob w) && x.epoch == f.epoch && !ctxClosed x &&
        (match ctxEnv d f.ctx with
         | some e => groupSize e.m f.ord == 0 || !ownsB e x f.slab
         | none => false))
  firstBad
    [ (roleBad d k.port 2, 1)
    , (rsvdSet (wordAt w 1) [(47, 46), (31, 25), (15, 8)] || rsvdSet (wordAt w 2) [(46, 32)] ||
       rsvdSet (wordAt w 3) [(47, 44), (31, 10)], 2)
    , (lenBad w 1028, 3)
    , ((!flag (wordAt w 2) 47 && field (wordAt w 3) 63 56 != 0) || fromMap, 5) ]

/-- MAP_MISMATCH (R133): the context is poisoned as for a shape mismatch. -/
def mapMismatch (d : Dev) (k : PktRx) : Dev :=
  let f := partialF k.words
  let x := getCtx d f.ctx
  let d1 := partialAns (bump d ctrMapMismatch f.ctx) k stMismatch
  poisonCtx d1 f.ctx 0x21
    { cause := 0x21, job := x.holder.bind (jobInfo d), ctx := some (f.ctx, x.epoch, f.slab, 0, f.pass, 0), kind := 8, unit := f.ord }

/-- A partial whose identity is already filled (R146). All 1,024 lanes are compared, the pad lanes with +0 (R550). When one of the
copies is flagged non-finite its lanes are undefined and nothing is compared (DESIGN CHOICE, log 81). -/
def dupPartial (d : Dev) (e : Env) (k : PktRx) : Dev :=
  let f := partialF k.words
  let x := getCtx d f.ctx
  let s := getRed x f.slab
  let d1 := bump d ctrPartialDup f.ctx
  let held : Option GroupSum := if f.pass < s.low then none else SMap.get? (getPass s f.pass).groups f.ord
  -- joined with another group's, the value is no longer held as a node of its own
  let unjoined := (treeNodes treeFuel (moduleLeaves e s f.pass) 0).any fun n =>
    (rangeFrom n.1 n.2).contains f.ord && (rangeFrom n.1 n.2).all fun q => q == f.ord || groupSize e.m q == 0
  let d2 :=
    match held with
    | some g =>
      if unjoined && !f.nf && !g.nf && (k.words.drop 4).take 1024 != g.lanes ++ List.replicate (1024 - g.lanes.length) 0 then
        markJob (raiseTrap d1
          { cause := 0x22, job := some (e.j, x.step % 2 ^ 48, x.attempt), ctx := some (f.ctx, x.epoch, f.slab, 0, f.pass, 0)
            kind := 2, unit := seamUnit d1 f.ctx f.slab }) e.j 0x22
      else d1
    | none => d1
  partialAns d2 k stOk

/-- A partial at an open context (R142, R183, R146, R102). A flagged group gives the owner's tree canonical NaN lanes, so that no
addition above it overflows: R550 says only that the owner adds none of its lanes (DESIGN CHOICE, log 77). -/
def takePartial (d : Dev) (e : Env) (k : PktRx) : Dev :=
  let f := partialF k.words
  let x := getCtx d f.ctx
  let s := getRed x f.slab
  let n := realLanes e.r (slabOf x f.slab)
  let pos := seamPos d f.ctx f.slab
  let filled := decide (f.pass < s.low) || SMap.has (getPass s f.pass).groups f.ord
  if s.low + 2 ≤ f.pass then partialAns (bump d ctrPassAhead f.ctx) k stPassAhead
  else if filled then dupPartial d e k
  else if posRetiring d pos then partialAns d k stAccumFull
  else
    let g : GroupSum := { lanes := if f.nf then List.replicate n fpNaN else (k.words.drop 4).take n, nf := f.nf }
    let go (d : Dev) : Dev :=
      let d1 := bump d ctrPartialsIn f.ctx
      let d2 := if f.nf then seamEvent d1 f.ctx { f.id with cause := 0x16 } true else d1
      holdGroup (startPass d2 f.ctx f.slab) e f.ctx f.slab f.pass f.ord g
    let d1 := go d
    if overFull d1 e f.ctx pos 0 && decide (posEntries d e f.ctx pos < posEntries d1 e f.ctx pos) then
      partialAns (countFull d e f.ctx) k stAccumFull
    else spill (partialAns d1 k stOk) f.ctx pos

/-- PARTIAL: stale and closed contexts, range, map, then the owner's tree. For a PASS or SLAB out of range the spec speaks of
contributions only: the partial is answered, counted and poisons as one does (DESIGN CHOICE, log 80). -/
def partialIn (d : Dev) (k : PktRx) : Dev :=
  let f := partialF k.words
  let j := pktJob k.words
  let x := getCtx d f.ctx
  if x.holder != some j then partialAns (bump d ctrClosedSpoil j) k stCtxClosed
  else if ctxClosed x then partialAns (bump d ctrClosedSpoil j) k (staleAnswer x j f.epoch stCtxClosed)
  else if f.epoch != x.epoch then partialAns (bump d ctrStaleSpoil j) k (staleAnswer x j f.epoch stStaleEpoch)
  else
    match ctxEnv d f.ctx with
    | none => partialAns d k stCtxClosed
    | some e =>
      if x.state == .done && x.status != 0 then
        let ctr := if x.status == BitVec.ofNat 16 stAborted then ctrAbortSpoil else ctrLateSpoil
        partialAns (bump d ctr f.ctx) k x.status.toNat
      else if x.p.npass ≤ f.pass || x.p.nslab ≤ f.slab then
        let cause := if x.p.npass ≤ f.pass then 0x61 else 0x62
        let d1 := partialAns (bump d ctrShapeSpoil f.ctx) k stMismatch
        if x.state == .opened then
          poisonCtx d1 f.ctx cause { cause := cause, job := jobInfo d1 j, ctx := some (f.ctx, x.epoch, f.slab, 0, f.pass, 0), kind := 8, unit := f.ord }
        else d1
      else if f.crc != e.m.crc.toNat then
        if x.state == .opened then mapMismatch d k else partialAns (bump d ctrMapMismatch f.ctx) k stMismatch
      else takePartial d e k

/-- A trunk partial arrives (R550). `residue` as for a contribution. -/
def execPartialRx (k : PktRx) (residue : Option Residues) (s : State) : Host.Outcome State Fault Refusal :=
  onArrival k 0x60 (partialBad k) (fun d =>
    let d1 := settleLost (replayAll (partialIn d k))
    seamFault d1 residue (partialF k.words).ctx (partialF k.words).slab (partialF k.words).pass) s

/-- What makes a PARTIAL_ANS malformed. -/
def partialAnsBad (k : PktRx) (d : Dev) : Option Nat :=
  let w := k.words
  firstBad
    [ (roleBad d k.port 2, 1)
    , (rsvdSet (wordAt w 1) [(47, 46), (31, 25), (15, 8)] || rsvdSet (wordAt w 2) [(47, 16)], 2)
    , (lenBad w 3, 3) ]

/-- The owner's answer to a partial (R142, R144, R376). -/
def partialAnsIn (d : Dev) (k : PktRx) : Dev :=
  let f := partialF k.words
  let status := field (wordAt k.words 2) 15 0
  let x := getCtx d f.ctx
  let s := getRed x f.slab
  if x.holder != some (pktJob k.words) || x.epoch != f.epoch || (getPass s f.pass).out.isNone then d
  else if status = stOk then
    let d1 := updPass d f.ctx f.slab f.pass fun ps => { ps with out := none, acked := true }
    let pos := seamPos d f.ctx f.slab
    spill (ackPasses f.ctx f.slab 3 (dropSpilled d1 (pktJob k.words) f.ctx pos (· == .part f.slab f.pass))) f.ctx pos
  else if status = stPassAhead || status = stAccumFull then
    updPass d f.ctx f.slab f.pass fun ps => { ps with out := ps.out.map fun h => { h with refused := true } }
  else bump (updPass d f.ctx f.slab f.pass fun ps => { ps with out := none }) ctrPartialStale f.ctx

/-- PARTIAL_ANS arrives. -/
def execPartialAns (k : PktRx) (s : State) : Host.Outcome State Fault Refusal :=
  onArrival k 0x61 (partialAnsBad k) (fun d => settleLost (replayAll (partialAnsIn d k))) s

/-- Resend every partial that satisfies `due` (R144, R551). -/
def resendPartials (d : Dev) (due : HeldPartial → Bool) : Dev :=
  forEach (SMap.keys d.ctxs) d fun d' c =>
    forEach (getCtx d' c).slabs d' fun d2 sl =>
      forEach sl.2.passes d2 fun d3 ps =>
        match ps.2.out with
        | some h =>
          if due h then bump (sendPartialPkt d3 c sl.1 ps.1) ctrEndResend 0 else d3
        | none => d3

/-- Refused partials are sent again every 10 µs until they are accepted (R144). -/
def execPartialRetry (s : State) : Host.Outcome State Fault Refusal :=
  onDev s fun d => resendPartials d fun h => h.refused && decide (h.sentAt + 10 ≤ d.nowUs)

/-- Partials without any answer for 100 µs are sent again (R551). -/
def execPartialTimeout (s : State) : Host.Outcome State Fault Refusal :=
  onDev s fun d => resendPartials d fun h => !h.refused && decide (h.sentAt + 100 ≤ d.nowUs)

/-! ## Clocks (R154, R186, R187) -/

/-- Which clocks of a pass cover something that is still missing (R186)? -/
def runningClocks (e : Env) (owner : Bool) (s : SlabRed) (p : Nat) (ps : PassRed) : PassRed :=
  let slotsLeft := (rangeFrom (ownBase e) (ownSize e)).any fun r => (getSlot s p r).filled.isNone
  let groupsLeft := owner && (List.range e.jb.q).any fun q => groupSize e.m q != 0 && !SMap.has ps.groups q
  { slotClock := if slotsLeft then ps.slotClock else none, partClock := if groupsLeft then ps.partClock else none }

/-- What stays of a slab whose context has failed late: the clocks that still run. Their expiries add to TRAP_SUPPRESSED
(R189). -/
def clocksOnly (e : Env) (x : Ctx) : SMap SlabRed :=
  (SMap.mapV (fun b s =>
    ({ passes := (SMap.mapV (runningClocks e (ownsB e x b) s) s.passes).filter fun q => q.2.slotClock.isSome || q.2.partClock.isSome } : SlabRed))
    x.slabs).filter fun s => !s.2.passes.isEmpty

/-- LATE and LATE_PARTIAL: one trap per context and epoch (R189), then the context fails (R188). -/
def lateCtx (d : Dev) (e : Env) (c cause : Nat) (t : TrapInfo) : Dev :=
  let left := clocksOnly e (getCtx d c)
  let d1 := raiseTrap (updCtx d c fun x => { x with lateTrap := true }) t
  updCtx (failCtx d1 c stLate cause (some 0x63)) c fun x => if x.state == .done then { x with slabs := left } else x

/-- A clock expires in a context that has failed late under the same epoch: it is counted only (R189). -/
def lateAgain (d : Dev) (c b p : Nat) (f : PassRed → PassRed) : Dev := bump (updPass d c b p f) ctrTrapSuppressed 0

/-- Fill every unfilled slot of the pass that holds a complete backup copy (R187). -/
def fillHeld (d : Dev) (e : Env) (c b p : Nat) : Dev :=
  forEach (rangeFrom (ownBase e) (ownSize e)) d fun d' r =>
    let sl := getSlot (getRed (getCtx d' c) b) p r
    match sl.filled, sl.heldBak with
    | none, some h => fillSlot d' c b p r .backup (rankEntry e.m r).bak h
    | _, _ => d'

/-- The slot clock of a slab and pass expires (R187). -/
def slotExpiry (d : Dev) (c b p : Nat) : Dev :=
  let x := getCtx d c
  match ctxEnv d c with
  | none => d
  | some e =>
    let s := getRed x b
    match (getPass s p).slotClock with
    | none => d
    | some t =>
      if d.nowUs < t + x.p.holdUs then d
      else if x.state == .done && x.lateTrap then lateAgain d c b p fun ps => { ps with slotClock := none }
      else if x.state != .opened || p < s.low then d
      else
        let open_ := (rangeFrom (ownBase e) (ownSize e)).filter fun r =>
          let sl := getSlot s p r
          sl.filled.isNone && sl.heldBak.isNone
        let d1 := fillHeld (updPass d c b p fun ps => { ps with slotClock := none }) e c b p
        match open_.head? with
        | some r =>
          lateCtx (updPass d1 c b p fun ps => { ps with slotClock := none }) e c 0x30
            { cause := 0x30, job := jobInfo d1 e.j, ctx := some (c, x.epoch, b, 0, p, r), kind := 2, unit := seamUnit d1 c b }
        | none => spill d1 c (seamPos d1 c b)

/-- SLOT_CLOCK_EXPIRY; `residue` as for a contribution. -/
def execSlotClockExpiry (ctx slab : Nat) (clock : PassClock) (s : State) : Host.Outcome State Fault Refusal :=
  onUnit (decide (ctx < 16384)) s fun d => seamFault (settleLost (replayAll (slotExpiry d ctx slab clock.pass))) clock.residue ctx slab clock.pass

/-- The partial clock of a slab and pass expires on the owner (R186, R187). -/
def partialExpiry (d : Dev) (c b p : Nat) : Dev :=
  let x := getCtx d c
  match ctxEnv d c with
  | none => d
  | some e =>
    let s := getRed x b
    match (getPass s p).partClock with
    | none => d
    | some t =>
      if d.nowUs < t + 2 * x.p.holdUs then d
      else if x.state == .done && x.lateTrap then lateAgain d c b p fun ps => { ps with partClock := none }
      else if x.state != .opened || p < s.low then d
      else
        match (List.range e.jb.q).find? fun q => groupSize e.m q != 0 && !SMap.has (getPass s p).groups q with
        | some q =>
          lateCtx (updPass d c b p fun ps => { ps with partClock := none }) e c 0x31
            { cause := 0x31, job := jobInfo d e.j, ctx := some (c, x.epoch, b, 0, p, 0), kind := 8, unit := q }
        | none => d

/-- PARTIAL_CLOCK_EXPIRY. -/
def execPartialClockExpiry (ctx slab pass : Nat) (s : State) : Host.Outcome State Fault Refusal :=
  onUnit (decide (ctx < 16384)) s fun d => partialExpiry d ctx slab pass

/-- A slot has been filled for longer than the hold deadline: its kept copy is released unverified (R154, R666). -/
def execKeptCopyExpiry (ctx slab pass rank : Nat) (s : State) : Host.Outcome State Fault Refusal :=
  onUnit (decide (ctx < 16384)) s fun d =>
    let x := getCtx d ctx
    let sl := getSlot (getRed x slab) pass rank
    if sl.kept.isSome && decide (sl.keptAt + x.p.holdUs < d.nowUs) then
      let pos := seamPos d ctx slab
      let d1 := match x.holder with | some j => dropSpilled d j ctx pos (· == .kept slab pass rank) | none => d
      spill (bump (updSlot d1 ctx slab pass rank fun s => { s with kept := none }) ctrFillUnverified ctx) ctx pos
    else d

/-- Spilled entries of a context come back to a position as its window has room (R180). -/
def execRefill (ctx pos : Nat) (s : State) : Host.Outcome State Fault Refusal :=
  onUnit (decide (ctx < 16384) && decide (pos < 128)) s fun d =>
    if posRetiring d pos then d else settleLost (replayAll (refill d ctx pos))

/-! ## Samples (R195) -/

/-- Has the seam formed the value that the checking seam would compare: value 0 = G of the own group and 1 = S of a pass, 2 = A of
a pass, 3 = the output stage's result (R195)? -/
def sampleFormed (e : Env) (x : Ctx) (b value p : Nat) : Bool :=
  let s := getRed x b
  let own := (treeVal treeFuel (groupLeaves e s p)).isSome
  if ownsB e x b then
    decide (p < x.p.npass) && decide (value < 4) &&
    (if value = 0 then decide (p < s.low) || (own && ownSize e != 0) else if value = 3 then decide (x.p.npass ≤ s.low) else decide (p < s.low))
  else decide (value = 0) && decide (p < x.p.npass) && (decide (p < s.low) || (own && ownSize e != 0))

/-- Have all the values been compared that a sample needs to agree (R195)? -/
def sampleWhole (e : Env) (x : Ctx) (b : Nat) : Bool :=
  if ownsB e x b then decide (x.p.npass ≤ (getRed x b).low) else sampleFormed e x b 0 (x.p.npass - 1)

/-- A sample differs (R195): trap, mark, and both seams go to a built-in test. The trap names the active seam as its unit and, in
the detail words, the checking seam and the value (0 = G, 1 = S, 2 = A, 3 = output); SAMPLE_ERR counts the active seam (DESIGN
CHOICE, log 83). -/
def sampleDiffer (d : Dev) (c b chk value p lane : Nat) : Dev :=
  let x := getCtx d c
  let pos := seamPos d c b
  let act := seamUnit d c b
  let d1 := bump (bump (updRed d c b fun s => { s with sample := .differed }) ctrSampled pos) ctrSampleErr act
  let d2 := raiseTrap d1
    { cause := 0x33, job := x.holder.map fun j => (j, x.step % 2 ^ 48, x.attempt), ctx := some (c, x.epoch, b, lane, p, 0), kind := 2
      unit := act, details := [BitVec.ofNat 64 chk, BitVec.ofNat 64 value] }
  let d3 := { d2 with spare := { d2.spare with tests := d2.spare.tests ++ [(act, chk, d2.nowUs)] } }
  match x.holder with
  | some j => markJob d3 j 0x33
  | none => d3

/-- Residues found in a checking seam (R192): when they disagree, a trap without a context; the sample is abandoned and the seam
retired. A checking seam has no position: the position's word of the trap holds 0xFF (DESIGN CHOICE, log 83). -/
def checkResidue (d : Dev) (chk : Nat) (r : Residues) : Dev :=
  if residuesDiffer r then
    let d1 := raiseTrap (bump d ctrResidueErr chk)
      { cause := 0x32, kind := 2, unit := chk, details := [0xFF, BitVec.ofNat 64 r.lane, BitVec.ofNat 64 (stageCode r.what)] }
    retireSeam d1 chk
  else d

/-- The comparison of a slab that met a residue mismatch, at seam `act`, has its trap already: a difference is counted in
TRAP_SUPPRESSED (Table 5-3) and, like every comparison, in SAMPLED and SAMPLE_ERR (R199). -/
def sampleAfter (d : Dev) (c b act : Nat) (how : SampleEnd) : Dev :=
  let pend := match (getRed (getCtx d c) b).sample with | .pending _ => true | _ => false
  let d0 := updCtx d c fun x => { x with resid := SMap.del x.resid b }
  let put (d : Dev) (r : SampleState) : Dev := if pend then updRed d c b fun s => { s with sample := r } else d
  match how with
  | .differed .. => bump (bump (bump (put d0 .differed) ctrTrapSuppressed 0) ctrSampled (seamPos d c b)) ctrSampleErr act
  | .agreed => bump (put d0 .agreed) ctrSampled (seamPos d c b)
  | .residue r => match (getRed (getCtx d c) b).sample with | .pending chk => checkResidue d0 chk r | _ => d0

/-- The comparison of a sampled slab ends. A sample agrees when every value has been formed and none differed. -/
def sampleDone (d : Dev) (c b : Nat) (how : SampleEnd) : Dev :=
  let x := getCtx d c
  match SMap.get? x.resid b with
  | some act => sampleAfter d c b act how
  | none =>
    match ctxEnv d c, (getRed x b).sample, how with
    | some e, .pending _, .agreed =>
      if sampleWhole e x b then bump (updRed d c b fun s => { s with sample := .agreed }) ctrSampled (seamPos d c b) else d
    | some e, .pending chk, .differed value p lane => if sampleFormed e x b value p then sampleDiffer d c b chk value p lane else d
    | some _, .pending chk, .residue r => checkResidue d chk r
    | _, _, _ => d

/-- SAMPLE_COMPLETE. -/
def execSampleComplete (ctx slab : Nat) (how : SampleEnd) (s : State) : Host.Outcome State Fault Refusal :=
  onUnit (decide (ctx < 16384)) s fun d => poolsSettle (sampleDone d ctx slab how)

/-! ## CTX_FAIL and POISON notices (R188, R376, R381) -/

/-- What makes a notice malformed. -/
def noticeBad (k : PktRx) (d : Dev) : Option Nat :=
  let w := k.words
  firstBad
    [ (roleBad d k.port 2, 1)
    , (rsvdSet (wordAt w 1) [(47, 46), (31, 25), (15, 8)] || rsvdSet (wordAt w 2) [(31, 0)], 2)
    , (lenBad w 3, 3)
    , ((match getJob d (pktJob w) with | some jb => decide (jb.q ≤ field (wordAt w 1) 24 16) | none => false), 5) ]

/-- MSG_ACK to the sender of a message (R552). -/
def msgAck (d : Dev) (k : PktRx) : Dev :=
  match getJob d (pktJob k.words) with
  | none => d
  | some jb =>
    sendAddr d 6 (pktJob k.words) k.src
      (mkPacket 0x66 (pktJob k.words) [mkWord [(field (wordAt k.words 2) 63 32, 32), (jb.ordinal, 16), (pktType k.words, 0)]])

/-- A notice of another module: the open context under the same epoch ends (R188 item 3, R381). A POISON for a context that is
poisoned already is counted only (Table 11-9), as a later event of R379 item 3. -/
def noticeIn (d : Dev) (k : PktRx) (status cause : Nat) : Dev :=
  let j := pktJob k.words
  let c := field (wordAt k.words 1) 45 32
  let x := getCtx d c
  let d1 := msgAck d k
  if x.holder != some j || x.epoch != field (wordAt k.words 1) 63 48 || ctxClosed x then bump d1 ctrStaleSpoil j
  else if x.state == .opened then failCtx d1 c status cause none
  else if cause = 0x63 && x.status == BitVec.ofNat 16 stMismatch then bump d1 ctrTrapSuppressed 0
  else d1

/-- CTX_FAIL arrives. -/
def execCtxFail (k : PktRx) (s : State) : Host.Outcome State Fault Refusal :=
  onArrival k 0x63 (noticeBad k) (fun d => noticeIn d k stLate 0x35) s

/-- POISON arrives. -/
def execPoison (k : PktRx) (s : State) : Host.Outcome State Fault Refusal :=
  onArrival k 0x64 (noticeBad k) (fun d => noticeIn d k stMismatch 0x63) s

end Sys2Proof.Machine
end

