-- ==== Sys2Proof/Machine/Seal.lean ====
section
/-!
DEFINITION. Sys2Proof/Machine/Seal.lean: the rows of the seal exchange (chapter 10, R344, R552): votes, seal messages and their
acknowledgments, the abort scan; and the norm exchange (R214 to R217, R756) and the start of sealed-mode updates (R68).
-/
namespace Sys2Proof.Machine

/-! ## Fields and age of a message -/

/-- Fields of a SEAL_MSG (Table 15-17). -/
structure SealF where
  kind    : Nat
  step    : Nat
  attempt : Nat
  ord     : Nat
  reason  : Nat
  vote    : Bool
  written : Bool
  state   : Nat
  first   : Nat

/-- Read them. -/
def sealF (w : List W64) : SealF :=
  let a := wordAt w 1
  let b := wordAt w 2
  { kind := field a 63 60, step := field a 47 0, attempt := field a 55 48, ord := field b 24 16, reason := field b 15 8
    vote := flag b 7, written := flag b 6, state := field b 1 0, first := field (wordAt w 3) 8 0 }

/-- Where a message's step and attempt stand against the module's: in progress, the last sealed, not reached yet, left. -/
inductive MsgAge | now | last | early | left
  deriving DecidableEq, Repr

/-- The age of a step and attempt (R344). -/
def msgAge (jb : Job) (step attempt : Nat) : MsgAge :=
  if step = jb.stepCur && attempt = jb.attempt then .now
  else if jb.sealSt.lastStep == some (step, attempt) then .last
  else if jb.stepCur < step || (step == jb.stepCur && decide ((attempt + 256 - jb.attempt) % 256 < 128)) then .early
  else .left

/-- What makes a SEAL_MSG malformed: a field its KIND does not use is not 0 (Table 10-3). -/
def sealUnused (f : SealF) : Bool :=
  (f.reason != 0 && !(f.kind == 2 || f.kind == 3 || f.kind == 7)) || (f.vote && f.kind != 2) || (f.written && f.kind != 10) ||
  (f.state != 0 && f.kind != 10) || (f.first != 0 && f.kind != 7)

/-- What makes SEAL_MSG malformed. -/
def sealBad (k : PktRx) (d : Dev) : Option Nat :=
  let w := k.words
  let f := sealF w
  firstBad
    [ (roleBad d k.port 2, 1)
    , (rsvdSet (wordAt w 1) [(59, 56)] || rsvdSet (wordAt w 2) [(31, 25), (5, 2)] || rsvdSet (wordAt w 3) [(63, 9)], 2)
    , (lenBad w 4, 3)
    , (f.kind == 0 || decide (10 < f.kind) || sealUnused f ||
        (match getJob d (pktJob w) with | some jb => decide (jb.q ≤ f.ord) | none => false), 5) ]

/-! ## Norm partials (R214 to R217) -/

/-- Change the norm state of a job. -/
def updNorm (d : Dev) (j : Nat) (f : NormSt → NormSt) : Dev := updJob d j fun jb => { jb with norm := f jb.norm }

/-- tree() over single values, none for NONE. -/
def treeOf (vs : List (Option F64)) : Option F64 :=
  match treeVal 64 (vs.map fun v => some (v.map fun x => [x])) with
  | some (some (v :: _)) => some v
  | _ => none

/-- Is a context's step run in sealed mode with updates (R67, R681)? -/
def sealedCtx (jb : Job) (x : Ctx) : Bool := x.p.sealed && jb.refMode.isNone

/-- Owned slabs of the norm set (R211), ascending in region and slab. -/
def normSet (d : Dev) (j : Nat) (jb : Job) : List (Nat × Nat) :=
  jb.regions.flatMap fun g =>
    match SMap.get? d.rules g.2.rule with
    | none => []
    | some s =>
      if !rsGnEn s.words then []
      else
        (ownedSlabs jb g.2).filterMap fun k =>
          if (stepCtxs d j jb).any fun e => sealedCtx jb e.2 && e.2.status == 0 && e.2.p.region == g.1 &&
            decide (e.2.p.first ≤ k) && decide (k < e.2.p.first + e.2.p.nslab) then some (g.1, k) else none

/-- NF_ACC_OVF on a norm partial or the global sum: no context, item 2 to 4 of R102, and no update (R216). -/
def normOverflow (d : Dev) (j : Nat) : Dev :=
  let d1 := updJob d j fun jb => { jb with updStop := true, norm := { jb.norm with bad := true } }
  markJob (nfTrap d1 j { cause := 0x13, job := jobInfo d1 j }) j 0x13

/-- With the partial of every ordinal held, N is evaluated (R215). -/
def normEval (d : Dev) (j : Nat) : Dev :=
  match getJob d j with
  | none => d
  | some jb =>
    let n := jb.norm
    if n.known.isSome || !((List.range jb.q).all fun q => SMap.has n.parts q) then d
    else
      let v := match treeOf ((List.range jb.q).map fun q => SMap.getD n.parts q none) with
        | some t => fpSqrt t
        | none => 0
      let d1 := updNorm d j fun n => { n with known := some v }
      let d2 := bumpBy d1 ctrNormWaitUs j (match n.waitAt with | some t => d.nowUs - t | none => 0)
      if fpFinite v then d2 else normOverflow d2 j

/-- Form H_q and send it (R214, R215, R756). -/
def formNorm (d : Dev) (j : Nat) : Dev :=
  match getJob d j with
  | none => d
  | some jb =>
    let wanted := (stepCtxs d j jb).any (fun e => sealedCtx jb e.2) || !jb.norm.parts.isEmpty
    if jb.norm.formed || !jb.sealSt.requested || jb.stopped || jb.sealSt.state == .aborting || !ctxsComplete d j jb || !wanted then d
    else
      let h := treeOf ((normSet d j jb).map fun x =>
        match getRegion jb x.1 with | some r => some (getSlab r x.2).norm | none => none)
      let d1 := updNorm d j fun n => { n with formed := true, parts := SMap.set n.parts jb.ordinal h }
      let d2 := forEach (otherOrds jb) d1 fun d' q =>
        let (m, d3) := nextMsg d' j
        sendHeld d3 j 0x62 6 q [m] (mkPacket 0x62 j
          [stepWord jb.stepCur jb.attempt, mkWord [(m, 32), (jb.ordinal, 16), (bit h.isNone, 0)], h.getD 0])
      let d3 := match h with | some v => if fpFinite v then d2 else normOverflow d2 j | none => d2
      normEval d3 j

/-- FORM_NORM_PARTIAL. -/
def execFormNormPartial (job : Nat) (s : State) : Host.Outcome State Fault Refusal :=
  onUnit (decide (job < 64)) s fun d => formNorm d job

/-- What makes NORM_PARTIAL malformed. -/
def normBad (k : PktRx) (d : Dev) : Option Nat :=
  let w := k.words
  let w2 := wordAt w 2
  firstBad
    [ (roleBad d k.port 2, 1)
    , (rsvdSet (wordAt w 1) [(63, 56)] || rsvdSet w2 [(31, 25), (15, 1)], 2)
    , (lenBad w 4, 3)
    , ((flag w2 0 && wordAt w 3 != 0) ||
        (match getJob d (pktJob w) with | some jb => decide (jb.q ≤ field w2 24 16) | none => false), 5) ]

/-- Take a norm partial of the step in progress, once for each ordinal. -/
def takeNorm (d : Dev) (j : Nat) (w : List W64) : Dev :=
  let w2 := wordAt w 2
  let q := field w2 24 16
  match getJob d j with
  | none => d
  | some jb =>
    if SMap.has jb.norm.parts q then d
    else normEval (updNorm d j fun n => { n with parts := SMap.set n.parts q (if flag w2 0 then none else some (wordAt w 3)) }) j

/-! ## Seal messages -/

/-- A message is spoiled as a duplicate or for an attempt the module has left (R344). -/
def sealDup (d : Dev) : Dev := bump d ctrSealDup 0

/-- Is the module the job's coordinator? -/
def isCoord (jb : Job) : Bool := coordinator jb == jb.ordinal

/-- SEAL_STATE: a reply to the query in progress (R345). -/
def queryIn (d : Dev) (j : Nat) (jb : Job) (f : SealF) : Dev :=
  if jb.sealSt.queryOf == (f.step, f.attempt) then queryAnswer d j f.ord f.written else d

/-- Act on a seal message of the step and attempt in progress. -/
def sealNow (d : Dev) (j : Nat) (jb : Job) (f : SealF) : Dev :=
  match f.kind with
  | 1 => requestSeal d j true
  | 2 =>
    if !isCoord jb then d
    else if f.vote then takeYes d j f.ord
    else decideAbort d j f.reason f.ord
  | 3 => if isCoord jb then decideAbort d j f.reason f.ord else d
  | 4 => if jb.sealSt.state == .aborting || jb.stopped then d else sendSealOf (writeCommit d j) j 5 f.ord f.step f.attempt {}
  | 5 => trySealEnd (updSeal d j fun s => { s with acks := insNat f.ord s.acks }) j
  | 7 => beginAbort (updSeal d j fun s => { s with reason := f.reason, first := some f.first }) j
  | 8 => takeAbortAck d j f.ord f.step f.attempt
  | 9 => sendSealOf d j 10 f.ord f.step f.attempt
    { state := (match jb.sealSt.state with | .opened => 0 | .marked => 1 | .prepared => 2 | .aborting => 3) }
  | 10 => queryIn d j jb f
  | _ => d

/-- Act on a seal message of the last sealed step and attempt (R344). -/
def sealLast (d : Dev) (j : Nat) (jb : Job) (f : SealF) : Dev :=
  match f.kind with
  | 4 => sendSealOf d j 5 f.ord f.step f.attempt {}
  | 5 => trySealEnd (updSeal d j fun s => { s with acks := insNat f.ord s.acks }) j
  | 6 => sealDone d j f.step f.attempt
  | 9 => sendSealOf d j 10 f.ord f.step f.attempt
    { written := 1, state := (match jb.sealSt.state with | .opened => 0 | .marked => 1 | .prepared => 2 | .aborting => 3) }
  | 10 => queryIn d j jb f
  | _ => d

/-- Act on a seal message of an attempt the module has left: spoiled; a SEAL_ABORT is acknowledged again, an ABORT_ACK of the
attempt being aborted is still tallied, and a reply to the query in progress is taken (R344, R345, R349). -/
def sealLeft (d : Dev) (j : Nat) (jb : Job) (f : SealF) : Dev :=
  if f.kind = 8 && awaitsAck jb.sealSt f.step f.attempt f.ord then
    takeAbortAck d j f.ord f.step f.attempt
  else if f.kind = 10 && jb.sealSt.queryOf == (f.step, f.attempt) && jb.sealSt.queryWait.contains f.ord then
    queryIn d j jb f
  else
    let d1 := sealDup d
    if f.kind = 7 then sendSealOf d1 j 8 f.ord f.step f.attempt {} else d1

/-- Take a seal message whose age is not early: duplicates are spoiled; a repeated SEAL_COMMIT of the last sealed step is still
answered (R344). -/
def takeSeal (d : Dev) (j : Nat) (w : List W64) : Dev :=
  let f := sealF w
  match getJob d j with
  | none => d
  | some jb =>
    let id := (f.step, f.attempt, f.ord, f.kind)
    let age := msgAge jb f.step f.attempt
    if age == .left then sealLeft d j jb f
    else if jb.sealSt.seen.contains id then
      let d1 := sealDup d
      if age == .last && f.kind == 4 then sealLast d1 j jb f else d1
    else
      let d1 := updSeal d j fun s => { s with seen := s.seen ++ [id] }
      if age == .now then sealNow d1 j jb f else sealLast d1 j jb f

/-- Take a message of either kind that is kept for its step and attempt. -/
def takeMsg (d : Dev) (j : Nat) (k : PktRx) : Dev :=
  if pktType k.words = 0x62 then
    match getJob d j with
    | none => d
    | some jb =>
      if msgAge jb (field (wordAt k.words 1) 47 0) (field (wordAt k.words 1) 55 48) == .now then takeNorm d j k.words else d
  else takeSeal d j k.words

/-- Is a message one of a step and attempt the module has not reached? -/
def isEarly (jb : Job) (k : PktRx) : Bool :=
  msgAge jb (field (wordAt k.words 1) 47 0) (field (wordAt k.words 1) 55 48) == .early

/-- Take the messages that were early and are so no longer; `fuel` rounds. -/
def flushEarly (j : Nat) : Nat → Dev → Dev
  | 0, d => d
  | fuel + 1, d =>
    match getJob d j with
    | none => d
    | some jb =>
      match jb.early.find? fun k => !isEarly jb k with
      | none => d
      | some k => flushEarly j fuel (takeMsg (updJob d j fun jb => { jb with early := jb.early.erase k }) j k)

/-- A job's step or attempt may have changed: take what waited for that. What a write of memory lost has its effect first. -/
def flushJob (d : Dev) (j : Nat) : Dev :=
  let d1 := settleLost d
  match getJob d1 j with
  | none => d1
  | some jb => flushEarly j jb.early.length d1

/-- The same for every job. -/
def flushAll (d : Dev) : Dev := replayAll (forEach (SMap.keys d.jobs) (settleLost d) flushJob)

/-- A seal message or norm partial arrives: acknowledged, then taken or kept (R344, R552). -/
def msgIn (d : Dev) (k : PktRx) : Dev :=
  let j := pktJob k.words
  let d1 := msgAck d k
  match getJob d1 j with
  | none => d1
  | some jb =>
    if isEarly jb k then
      let dup := jb.early.any fun e => pktType e.words == pktType k.words && wordAt e.words 1 == wordAt k.words 1 &&
        field (wordAt e.words 2) 24 16 == field (wordAt k.words 2) 24 16
      if dup then (if pktType k.words = 0x65 then sealDup d1 else d1)
      else updJob d1 j fun jb => { jb with early := jb.early ++ [k] }
    else flushJob (takeMsg d1 j k) j

/-- A row of one kind of SEAL_MSG. -/
def sealRow (kind : Nat) (k : PktRx) (s : State) : Host.Outcome State Fault Refusal :=
  onArrivalKind k 0x65 ((sealF k.words).kind == kind) (sealBad k) (fun d => poolsSettle (msgIn d k)) s

/-- NORM_PARTIAL arrives. -/
def execNormPartial (k : PktRx) (s : State) : Host.Outcome State Fault Refusal := onArrival k 0x62 (normBad k) (fun d => msgIn d k) s
/-- SEAL_REQ arrives. -/
def execSealReq (k : PktRx) (s : State) : Host.Outcome State Fault Refusal := sealRow 1 k s
/-- SEAL_VOTE arrives. -/
def execSealVote (k : PktRx) (s : State) : Host.Outcome State Fault Refusal := sealRow 2 k s
/-- ABORT_REQ arrives. -/
def execAbortReq (k : PktRx) (s : State) : Host.Outcome State Fault Refusal := sealRow 3 k s
/-- SEAL_COMMIT arrives. -/
def execSealCommit (k : PktRx) (s : State) : Host.Outcome State Fault Refusal := sealRow 4 k s
/-- SEAL_ACK arrives. -/
def execSealAck (k : PktRx) (s : State) : Host.Outcome State Fault Refusal := sealRow 5 k s
/-- SEAL_DONE arrives. -/
def execSealDone (k : PktRx) (s : State) : Host.Outcome State Fault Refusal := sealRow 6 k s
/-- SEAL_ABORT arrives. -/
def execSealAbort (k : PktRx) (s : State) : Host.Outcome State Fault Refusal := sealRow 7 k s
/-- ABORT_ACK arrives. -/
def execAbortAck (k : PktRx) (s : State) : Host.Outcome State Fault Refusal := sealRow 8 k s
/-- SEAL_QUERY arrives. -/
def execSealQuery (k : PktRx) (s : State) : Host.Outcome State Fault Refusal := sealRow 9 k s
/-- SEAL_STATE arrives. -/
def execSealState (k : PktRx) (s : State) : Host.Outcome State Fault Refusal := sealRow 10 k s

/-! ## Acknowledgments and resends (R552) -/

/-- What makes MSG_ACK malformed. -/
def msgAckBad (k : PktRx) (d : Dev) : Option Nat :=
  let w := k.words
  let t := field (wordAt w 1) 7 0
  firstBad
    [ (roleBad d k.port 2, 1)
    , (rsvdSet (wordAt w 1) [(31, 25), (15, 8)], 2)
    , (lenBad w 2, 3)
    , (decide (t < 0x62) || decide (0x65 < t), 5) ]

/-- A message is acknowledged: it is held no longer. -/
def execMsgAck (k : PktRx) (s : State) : Host.Outcome State Fault Refusal :=
  onArrival k 0x66 (msgAckBad k) (fun d =>
    let w1 := wordAt k.words 1
    dropHeld d (pktJob k.words) fun h => h.ptype == field w1 7 0 && h.dst == field w1 24 16 && h.key == [field w1 63 32]) s

/-- Messages unacknowledged for 100 µs are sent again. -/
def execMsgResend (s : State) : Host.Outcome State Fault Refusal :=
  onDev s fun d => resendHeld d (fun h => decide (0x62 ≤ h.ptype) && decide (h.ptype ≤ 0x65)) resendOrd

/-! ## The vote, the scan, the start of sealed updates -/

/-- VOTE_YES: the conditions of R335 hold and the module votes. -/
def execVoteYes (job : Nat) (s : State) : Host.Outcome State Fault Refusal :=
  onUnit (decide (job < 64)) s fun d => flushJob (castYes d job) job

/-- ABORT_SCAN_COMPLETE: begun writes are complete and the scan has run. -/
def execAbortScanComplete (job : Nat) (s : State) : Host.Outcome State Fault Refusal :=
  onUnit (decide (job < 64)) s fun d => flushJob (scanDone d job) job

/-- The sealed-mode updates of the step begin (R68): every bucket is complete on every module, and nothing stops them. -/
def beginSealed (d : Dev) (j : Nat) : Dev :=
  match getJob d j with
  | none => d
  | some jb =>
    if jb.norm.known.isSome && !jb.norm.bad && !jb.updStop && jb.sealSt.state == .opened && !jb.stopped && ctxsComplete d j jb &&
        (stepCtxs d j jb).any (fun e => sealedCtx jb e.2) then
      updJob d j fun jb => { jb with sealedRun := true }
    else d

/-- SEALED_UPDATE_BEGIN. -/
def execSealedUpdateBegin (job : Nat) (s : State) : Host.Outcome State Fault Refusal :=
  onUnit (decide (job < 64)) s fun d => beginSealed d job

end Sys2Proof.Machine
end

