-- ==== Sys2Proof/Machine/Parity.lean ====
section
/-!
DEFINITION. Sys2Proof/Machine/Parity.lean: the rows of chapter 18: parity deltas and their acknowledgments, PARITY_CTL, rebuild
rows and pushes, liveness, withdrawal and claims.
-/
namespace Sys2Proof.Machine

/-- Position of the group whose module has a fabric address. -/
def posOfAddr (d : Dev) (a : Nat) : Option Nat :=
  match d.parity.group with
  | none => none
  | some g => (List.range 8).find? fun p => addrOf d (wordAt g.serials p) == some a

/-! ## PARITY_DELTA (R347, R348, R619 to R623) -/

/-- The piece a PARITY_DELTA carries. -/
def pieceOf (w : List W64) : ParPiece :=
  let w2 := wordAt w 2
  let w3 := wordAt w 3
  { key := wordAt w 1, job := pktJob w, step := field w2 47 0, attempt := field w2 63 56, base := flag w2 55
    pos := field w2 50 48, region := field w3 63 50, row := field w3 49 23, off := field w3 22 6, data := w.drop 5 }

/-- What makes PARITY_DELTA malformed. -/
def parityDeltaBad (k : PktRx) (d : Dev) : Option Nat :=
  let w := k.words
  let n := field (wordAt w 4) 13 0
  firstBad
    [ (roleBad d k.port 2, 1)
    , (rsvdSet (wordAt w 2) [(54, 51)] || rsvdSet (wordAt w 3) [(5, 0)] || rsvdSet (wordAt w 4) [(22, 14)], 2)
    , (n % 8 != 0 || lenBad w (5 + n / 8), 3)
    , (n == 0 || decide (8184 < n) || decide (131072 < field (wordAt w 3) 22 6 + n / 8), 5) ]

/-- The holder takes a piece and acknowledges it. -/
def parityDeltaIn (d : Dev) (k : PktRx) : Dev :=
  if d.parity.group.isNone then d
  else
    let (d1, st, un) := takePiece d (pieceOf k.words)
    sendAddr d1 4 (pktJob k.words) k.src
      (mkPacket 0x41 (pktJob k.words) ((k.words.drop 1).take 4 ++ [mkWord [(bit un, 16), (st, 0)]]))

/-- PARITY_DELTA arrives. -/
def execParityDelta (k : PktRx) (s : State) : Host.Outcome State Fault Refusal :=
  onArrival k 0x40 (parityDeltaBad k) (fun d => settleLost (parityDeltaIn d k)) s

/-! ## SLAB_XFER (R449, R637) -/

/-- SLAB_XFER arrives. -/
def execSlabXfer (k : PktRx) (s : State) : Host.Outcome State Fault Refusal :=
  onArrival k 0x45 (slabXferBad k) (fun d => poolsSettle (settleLost (slabXferIn d k))) s

/-! ## PARITY_ACK (R72, R620, R621) -/

/-- What makes PARITY_ACK malformed. -/
def parityAckBad (k : PktRx) (d : Dev) : Option Nat :=
  let w := k.words
  firstBad
    [ (roleBad d k.port 2, 1)
    , (rsvdSet (wordAt w 2) [(54, 51)] || rsvdSet (wordAt w 3) [(5, 0)] || rsvdSet (wordAt w 4) [(22, 14)] ||
        rsvdSet (wordAt w 5) [(63, 17)], 2)
    , (lenBad w 6, 3) ]

/-- A delta piece is acknowledged. -/
def parityAckIn (d : Dev) (k : PktRx) : Dev :=
  let j := pktJob k.words
  let p := pieceOf k.words
  match getJob d j, chunkOf p.row p.pos with
  | some jb, some c =>
    let sl := field (wordAt k.words 4) 63 32
    let w := 131072 * c + p.off
    let mine (h : Held) : Bool := h.ptype == 0x40 && h.key == [bit p.base, p.step, p.attempt, p.region, sl, w]
    if p.key != jobKey jb || !(jb.held.any mine) then d
    else
      let d1 := dropHeld d j mine
      let d2 := updJob d1 j fun jb =>
        if p.base then { jb with baseWait := jb.baseWait.filter (· != (p.region, sl, w)) }
        else { jb with deltaWait := jb.deltaWait.filter (· != (p.region, sl, w)) }
      baseSettle d2 j
  | _, _ => d

/-- PARITY_ACK arrives. -/
def execParityAck (k : PktRx) (s : State) : Host.Outcome State Fault Refusal :=
  onArrival k 0x41 (parityAckBad k) (fun d => poolsSettle (parityAckIn d k)) s

/-! ## PARITY_CTL (R341, R347, R348, R350, R622) -/

/-- KIND of a PARITY_CTL. -/
def ctlKind (w : List W64) : Nat := field (wordAt w 3) 2 0

/-- What makes PARITY_CTL malformed. -/
def parityCtlBad (k : PktRx) (d : Dev) : Option Nat :=
  let w := k.words
  firstBad
    [ (roleBad d k.port 2, 1)
    , (rsvdSet (wordAt w 2) [(55, 51)] || rsvdSet (wordAt w 3) [(63, 3)], 2)
    , (lenBad w 4, 3) ]

/-- The attempt a PARITY_CTL names. -/
def ctlStep (w : List W64) : ParStep :=
  { key := wordAt w 1, job := pktJob w, step := field (wordAt w 2) 47 0, attempt := field (wordAt w 2) 63 56 }

/-- Answer a PARITY_CTL with another KIND. -/
def ctlAnswer (d : Dev) (k : PktRx) (kind : Nat) : Dev :=
  sendAddr d 4 (pktJob k.words) k.src (mkPacket 0x42 (pktJob k.words) ((k.words.drop 1).take 2 ++ [mkWord [(kind, 0)]]))

/-- PARITY_APPLY arrives: folded once, acknowledged always. -/
def execParityApply (k : PktRx) (s : State) : Host.Outcome State Fault Refusal :=
  onArrivalKind k 0x42 (ctlKind k.words == 1) (parityCtlBad k) (fun d => ctlAnswer (settleLost (applyStep d (ctlStep k.words))) k 3) s

/-- PARITY_DROP arrives. -/
def execParityDrop (k : PktRx) (s : State) : Host.Outcome State Fault Refusal :=
  onArrivalKind k 0x42 (ctlKind k.words == 2) (parityCtlBad k) (fun d => ctlAnswer (dropStep d (ctlStep k.words)) k 4) s

/-- A holder's acknowledgment of PARITY_APPLY or PARITY_DROP (`kind` 1, 2) ends the wait of a step the job names. -/
def ctlAcked (d : Dev) (k : PktRx) (kind : Nat) (f : Dev → Nat → Nat → Dev) : Dev :=
  let j := pktJob k.words
  let t := ctlStep k.words
  match getJob d j, posOfAddr d k.src with
  | some jb, some h =>
    let mine (x : Held) : Bool := x.ptype == 0x42 && x.dst == h && x.key == [kind, t.step, t.attempt]
    if t.key == jobKey jb && jb.held.any mine then f (dropHeld d j mine) j h else d
  | _, _ => d

/-- APPLY_ACK arrives: with the last one the seal is complete on the module (R341, R343). -/
def execApplyAck (k : PktRx) (s : State) : Host.Outcome State Fault Refusal :=
  onArrivalKind k 0x42 (ctlKind k.words == 3) (parityCtlBad k) (fun d => ctlAcked d k 1 applyAcked) s

/-- DROP_ACK arrives: with the last one the abort goes on (R350). -/
def execDropAck (k : PktRx) (s : State) : Host.Outcome State Fault Refusal :=
  onArrivalKind k 0x42 (ctlKind k.words == 4) (parityCtlBad k)
    (fun d => flushJob (ctlAcked d k 2 dropAcked) (pktJob k.words)) s

/-! ## REBUILD_REQ (R629) -/

/-- The commit point a module tags a row with: of the job it serves, else of the last step whose deltas it applied, else the step
asked for (log 42). -/
def rowStep (d : Dev) (key : W64) (j asked : Nat) : Nat :=
  match getJob d j with
  | some jb => if jobKey jb == key then baseTagStep jb else asked
  | none => match d.parity.applied.find? fun t => t.key == key && t.job == j with | some t => t.step | none => asked

/-- The words of a held parity row. -/
def parityRow (d : Dev) (key : W64) (j rn row : Nat) : List W64 :=
  match d.parity.rows.find? (sameRow key j rn row) with
  | some r => denseWords r.words 131072
  | none => List.replicate 131072 0

/-- Return one row to a rebuilding module: the parity when this module holds it, else its data chunk. An unprotected row is told by
an empty parity packet (log 40). A chunk with a slab that is DAMAGED or does not decode is not returned until it is repaired and
asked for again (DESIGN CHOICE, log 95). -/
def answerRow (d : Dev) (k : PktRx) (rn row asked : Nat) : Dev :=
  let j := pktJob k.words
  let key := wordAt k.words 1
  let me := ownPos d
  let h : RowHead := { key := key, region := rn, row := row, push := false, pos := me, step := rowStep d key j asked
                       parity := rowHolder row == me }
  if rowHolder row = me then
    if d.parity.pushing || d.parity.unprot.any (sameRow key j rn row) then sendRow d j k.src h 1 0 []
    else
      let d1 := match heldIdx d key j rn row with
        | some c =>
          let a := heldRead d c 0 (2 ^ 20)
          match a.bad with | some n => parityLost a.dev (c % 4) n c | none => fixHeld a.dev c a.fixes
        | none => d
      sendRow d1 j k.src h 130 0 (parityRow d1 key j rn row)
  else
    match (getJob d j).bind fun jb => (if jobKey jb == key then getRegion jb rn else none).bind fun r => (chunkOf row me).map fun c => (jb, r, c) with
    | some (jb, r, c) =>
      let (d1, ok) := readChunk d j jb rn c
      if ok then sendRow d1 j k.src h 130 0 (chunkWords jb r c) else d1
    | none => sendRow d j k.src h 130 0 []

/-- What makes REBUILD_REQ malformed. -/
def rebuildReqBad (k : PktRx) (d : Dev) : Option Nat :=
  let w := k.words
  firstBad
    [ (roleBad d k.port 2, 1)
    , (rsvdSet (wordAt w 2) [(22, 19)] || rsvdSet (wordAt w 3) [(63, 48)], 2)
    , (lenBad w 4, 3) ]

/-- Rows are asked for. -/
def rebuildReqIn (d : Dev) (k : PktRx) : Dev :=
  let w2 := wordAt k.words 2
  if d.parity.group.isNone then d
  else
    forEach (rangeFrom (field w2 49 23) (field w2 15 0 + 1)) d fun d' row =>
      answerRow d' k (field w2 63 50) row (field (wordAt k.words 3) 47 0)

/-- REBUILD_REQ arrives. -/
def execRebuildReq (k : PktRx) (s : State) : Host.Outcome State Fault Refusal :=
  onArrival k 0x43 (rebuildReqBad k) (fun d => settleLost (rebuildReqIn d k)) s

/-! ## REBUILD_DATA (R629 to R631) -/

/-- What makes REBUILD_DATA malformed. -/
def rebuildDataBad (k : PktRx) (d : Dev) : Option Nat :=
  let w := k.words
  let n := field (wordAt w 4) 13 0
  firstBad
    [ (roleBad d k.port 2, 1)
    , (rsvdSet (wordAt w 2) [(5, 4)] || rsvdSet (wordAt w 3) [(63, 48)] || rsvdSet (wordAt w 4) [(63, 16)], 2)
    , (n % 8 != 0 || lenBad w (5 + n / 8), 3)
    , (decide (8184 < n) || decide (131072 < field (wordAt w 2) 22 6 + n / 8) || (flag (wordAt w 4) 14 && n != 0), 5) ]

/-- Step pieces held for a source's push of a row are decided by the push's tag (R630). -/
def letHeld (d : Dev) (p : ParPiece → Bool) : Dev :=
  let hs := d.parity.heldPc.filter p
  let d1 := updPar d fun q => { q with heldPc := q.heldPc.filter fun h => !p h }
  forEach hs d1 fun d' h => (pushRule d' h).1

/-- A push arrives at the new holder: XORed into parity, once by its fields (R638); END of a position ends its pushes (R630). -/
def pushIn (d : Dev) (k : PktRx) : Dev :=
  let w := k.words
  let w2 := wordAt w 2
  let pos := field w2 2 0
  let j := pktJob w
  let key := wordAt w 1
  let rn := field w2 63 50
  let row := field w2 49 23
  let step := field (wordAt w 3) 47 0
  if flag (wordAt w 4) 14 then
    let d1 := updPar d fun p =>
      let e := insNat pos p.ended
      { p with ended := e, pushing := p.pushing && decide (e.length < 7) }
    letHeld d1 fun h => h.pos == pos
  else if field (wordAt w 4) 13 0 = 0 then d
  else
    let off := field w2 22 6
    let mine (t : PushTag) : Bool := t.pos == pos && t.key == key && t.job == j && t.region == rn && t.row == row
    let t := (d.parity.tags.find? mine).getD { pos := pos, key := key, job := j, region := rn, row := row, step := step }
    if t.offs.contains off then d else
    let d1 := updPar d fun p => { p with tags := p.tags.filter (fun t => !mine t) ++ [{ t with offs := t.offs ++ [off] }] }
    let d2 := match rowSpace d1 key j rn row with
      | some d2 => freeRows (foldRow d2 key j rn row off (w.drop 5))
      | none => unprotect d1 key j rn row
    letHeld d2 fun h => h.pos == pos && h.key == key && h.job == j && h.region == rn && h.row == row

/-- Put words into a returned part from an offset on. -/
def putWords : SMap W64 → Nat → List W64 → SMap W64
  | m, _, [] => m
  | m, o, w :: r => putWords (if w = 0 then SMap.del m o else SMap.set m o w) (o + 1) r

/-- Bytes of a row arrive for a rebuild or a repair. Bytes read at another commit point than those held of the position take
their place. -/
def rowIn (d : Dev) (k : PktRx) : Dev :=
  let w := k.words
  let w2 := wordAt w 2
  let j := pktJob w
  let pos := field w2 2 0
  let rn := field w2 63 50
  let row := field w2 49 23
  let n := field (wordAt w 4) 13 0
  match getJob d j with
  | none => d
  | some jb =>
    if jobKey jb != wordAt w 1 || jb.rebuild.isNone then d
    else
      let take (r : RowReq) : RowReq :=
        if r.region != rn || r.row != row then r
        else if flag (wordAt w 4) 15 && n = 0 then { r with bad := true }
        else
          let step := field (wordAt w 3) 47 0
          let off := field w2 22 6
          let held := SMap.getD r.parts pos { step := step }
          let old : RowPart := if held.step = step then held else { step := step }
          let e : RowPart := { old with words := putWords old.words off (w.drop 5), offs := insNat off old.offs
                                        last := if n < 8184 then some off else old.last }
          { r with parts := SMap.set r.parts pos e }
      rebuildSettle (updRebuild d j fun b => { b with rows := b.rows.map take }) j

/-- REBUILD_DATA arrives. -/
def execRebuildData (k : PktRx) (s : State) : Host.Outcome State Fault Refusal :=
  onArrival k 0x44 (rebuildDataBad k) (fun d0 =>
    let d := bumpBy d0 ctrRebuildBytes 0 (field (wordAt k.words 4) 13 0)
    poolsSettle (settleLost (if flag (wordAt k.words 2) 3 then pushIn d k else rowIn d k))) s

/-! ## Liveness (R624 to R626) -/

/-- The next number below `a`, wrapping. -/
def nextDown (a : Nat) (l : List Nat) : Option Nat :=
  match l.reverse.find? (· < a) with
  | some q => some q
  | none => l.reverse.find? (· != a)

/-- LIVE of a job is due every 5 ms. -/
def jobLive (d : Dev) (j : Nat) : Dev :=
  match getJob d j with
  | none => d
  | some jb =>
    if jb.q < 2 || jb.stopped || d.nowUs < jb.liveTx + 5000 then d
    else
      match nextDown jb.ordinal (liveOrds jb) with
      | none => d
      | some q =>
        sendOrd (updJob d j fun jb => { jb with liveTx := d.nowUs }) j q 4 (livenessWords j (jobKey jb) 1 1 0 jb.ordinal)

/-- LIVE_TIMER: LIVE of every job and of the group that is due. -/
def execLiveTimer (s : State) : Host.Outcome State Fault Refusal :=
  onDev s fun d =>
    let d1 := forEach (SMap.keys d.jobs) d jobLive
    match d.parity.group with
    | none => d1
    | some g =>
      if d.parity.out || d.nowUs < d.parity.liveTx + 5000 then d1
      else
        match nextDown g.pos (livePos d) with
        | none => d1
        | some p => sendGroupLive (updPar d1 fun q => { q with liveTx := d.nowUs }) p 1 0

/-- The module declares an ordinal withdrawn (R624). -/
def declareWithdrawn (d : Dev) (j q : Nat) : Dev :=
  match getJob d j with
  | none => d
  | some jb =>
    if jb.withdrawn.contains q then d
    else
      let d1 := raiseTrap d { cause := 0xB0, job := jobInfo d j, kind := 8, unit := q }
      markWithdrawn (tellWithdrawn d1 j q) j q

/-- The module declares a position lost (R624). -/
def declareLost (d : Dev) (pos : Nat) : Dev :=
  if d.parity.lost.contains pos then d
  else
    let d1 := raiseTrap d { cause := 0xB1, kind := 8, unit := pos }
    markLost (tellLost d1 pos) pos

/-- LIVE_WATCH_TIMEOUT of a job, or of the group (64). -/
def execLiveWatchTimeout (job : Nat) (s : State) : Host.Outcome State Fault Refusal :=
  onUnit (decide (job ≤ 64)) s fun d =>
    if job = 64 then
      match d.parity.group with
      | none => d
      | some g =>
        if d.parity.out || d.nowUs < d.parity.liveRx + 50000 then d
        else match nextUp g.pos (livePos d) with | some p => poolsSettle (flushAll (declareLost d p)) | none => d
    else
      match getJob d job with
      | none => d
      | some jb =>
        if jb.q < 2 || jb.stopped || d.nowUs < jb.liveRx + 50000 then d
        else match nextUp jb.ordinal (liveOrds jb) with | some q => poolsSettle (flushJob (declareWithdrawn d job q) job) | none => d

/-- What makes LIVENESS malformed. -/
def livenessBad (k : PktRx) (d : Dev) : Option Nat :=
  let w := k.words
  let w2 := wordAt w 2
  let sc := field w2 63 62
  firstBad
    [ (roleBad d k.port 2, 1)
    , (rsvdSet w2 [(61, 58), (55, 25), (15, 9)] || (sc == 2 && field (wordAt w 1) 63 32 != 0), 2)
    , (lenBad w 3, 3)
    , (!(sc == 1 || sc == 2) || (sc == 2 && (decide (7 < field w2 24 16) || decide (7 < field w2 8 0))), 5) ]

/-- KIND of a LIVENESS. -/
def liveKind (w : List W64) : Nat := field (wordAt w 2) 57 56

/-- LIVE refreshes the watch when it comes from the watched module. -/
def liveIn (d : Dev) (k : PktRx) : Dev :=
  let w2 := wordAt k.words 2
  let q := field w2 8 0
  if field w2 63 62 = 1 then
    match getJob d (pktJob k.words) with
    | none => d
    | some jb =>
      if jobKey jb == wordAt k.words 1 && nextUp jb.ordinal (liveOrds jb) == some q then
        updJob d (pktJob k.words) fun jb => { jb with liveRx := d.nowUs }
      else d
  else
    match d.parity.group with
    | none => d
    | some g =>
      if groupId g == wordAt k.words 1 && nextUp g.pos (livePos d) == some q then updPar d fun p => { p with liveRx := d.nowUs }
      else d

/-- LIVE arrives. -/
def execLive (k : PktRx) (s : State) : Host.Outcome State Fault Refusal :=
  onArrivalKind k 0x48 (liveKind k.words == 1) (livenessBad k) (fun d => liveIn d k) s

/-- A declaration arrives: final for the ordinal or position it names. A duplicate notice is counted only, in WITHDRAWN_SPOIL (DESIGN
CHOICE, log 62: Table 18-5 names no counter). -/
def withdrawnIn (d : Dev) (k : PktRx) : Dev :=
  let w2 := wordAt k.words 2
  let q := field w2 24 16
  if field w2 63 62 = 1 then
    match getJob d (pktJob k.words) with
    | none => d
    | some jb =>
      if jobKey jb != wordAt k.words 1 then d
      else if jb.withdrawn.contains q then bump d ctrWithdrawnSpoil (pktJob k.words)
      else markWithdrawn d (pktJob k.words) q
  else
    match d.parity.group with
    | none => d
    | some g => if groupId g == wordAt k.words 1 then markLost d q else d

/-- WITHDRAWN arrives. -/
def execWithdrawn (k : PktRx) (s : State) : Host.Outcome State Fault Refusal :=
  onArrivalKind k 0x48 (liveKind k.words == 2) (livenessBad k) (fun d => poolsSettle (flushAll (withdrawnIn d k))) s

/-! ## Claims (R628, R630) -/

/-- A CLAIM packet. -/
def claimWords (j : Nat) (id : W64) (scope : Nat) (ans : Bool) (st attempt status target : Nat) (serial commit : W64) : List W64 :=
  mkPacket 0x4A j
    [ id, mkWord [(scope, 62), (bit ans, 61), (st, 56), (attempt, 48), (status, 32), (target, 0)], serial, commit ]

/-- Code of a seal state (Table 10-2). -/
def sealCode (s : SealSt) : Nat :=
  match s with
  | .opened => 0
  | .marked => 1
  | .prepared => 2
  | .aborting => 3

/-- Send a claim to an address and keep it until it is answered. -/
def sendClaim (d : Dev) (scope j target : Nat) (addr : Option Nat) (words : List W64) : Dev :=
  let c : ClaimOut := { scope := scope, job := j, target := target, addr := addr, words := words, sentAt := d.nowUs }
  let d1 := updPar d fun p => { p with claims := p.claims ++ [c] }
  match addr with
  | some a => sendAddr d1 4 j a words
  | none => bump d1 ctrRouteDrop 0

/-- The group CLAIM of PARITY_GROUP_SET and of READY (R628, R704): the module awaits the pushes of R630 into parity that
starts empty. -/
def claimGroup (d : Dev) (ready : Bool) : Dev :=
  match d.parity.group with
  | none => d
  | some g =>
    let d1 := updPar d fun p =>
      { p with claims := p.claims.filter fun c => c.scope != 2
               ready := ready, pushing := true, ended := [], tags := [], heldPc := [], rows := [], accs := [], borrowed := 0
               unprot := [], spaceTrap := [], out := false, liveRx := d.nowUs }
    forEach ((List.range 8).filter (· != g.pos)) d1 fun d' p =>
      sendClaim d' 2 0 p (addrOf d' (wordAt g.serials p)) (claimWords 0 (groupId g) 2 false 0 0 0 g.pos d.fac.serial 0)

/-- The job CLAIM of REBUILD_START to every other ordinal. -/
def claimJob (d : Dev) (j : Nat) : Dev :=
  match getJob d j with
  | none => d
  | some jb =>
    forEach ((List.range jb.q).filter (· != jb.ordinal)) d fun d' q =>
      sendClaim d' 1 j q (jb.addrs.getD q none) (claimWords j (jobKey jb) 1 false 0 0 0 jb.ordinal d.fac.serial 0)

/-- What makes CLAIM malformed. -/
def claimBad (k : PktRx) (d : Dev) : Option Nat :=
  let w := k.words
  let w2 := wordAt w 2
  let sc := field w2 63 62
  let ans := flag w2 61
  firstBad
    [ (roleBad d k.port 2, 1)
    , (rsvdSet w2 [(60, 58), (31, 9)] || (sc == 2 && field (wordAt w 1) 63 32 != 0), 2)
    , (lenBad w 5, 3)
    , (!(sc == 1 || sc == 2) || (sc == 2 && decide (7 < field w2 8 0)) || (!ans && (field w2 57 32 != 0)) ||
        (!(ans && sc == 1) && (wordAt w 4 != 0 || field w2 57 48 != 0)), 5) ]

/-- A claim is refused: ST_IN_USE and CLAIM_REFUSED. -/
def refuseClaim (d : Dev) (k : PktRx) : Dev :=
  let w2 := wordAt k.words 2
  let sc := field w2 63 62
  let d1 := raiseTrap d { cause := 0xB4, job := if sc = 1 then jobInfo d (pktJob k.words) else none, kind := 8, unit := field w2 8 0
                          details := [wordAt k.words 3] }
  sendAddr d1 4 (pktJob k.words) k.src
    (claimWords (pktJob k.words) (wordAt k.words 1) sc true 0 0 stInUse (field w2 8 0) (wordAt k.words 3) 0)

/-- The key of a job changes with the serial of its ordinal 0: what the module holds under the old key goes with it (log 43). -/
def rekey (d : Dev) (j : Nat) (old new_ : W64) : Dev :=
  let row (r : ParRow) : ParRow := if r.key == old && r.job == j then { r with key := new_ } else r
  let stp (t : ParStep) : ParStep := if t.key == old && t.job == j then { t with key := new_ } else t
  let pc (p : ParPiece) : ParPiece := if p.key == old && p.job == j then { p with key := new_ } else p
  let tg (t : PushTag) : PushTag := if t.key == old && t.job == j then { t with key := new_ } else t
  updPar d fun p =>
    { p with rows := p.rows.map row, unprot := p.unprot.map row, accs := p.accs.map fun a => { a with at_ := row a.at_ }
             applied := p.applied.map stp, dropped := p.dropped.map stp, heldPc := p.heldPc.map pc, tags := p.tags.map tg
             seen := p.seen.map fun e => (pc e.1, e.2) }

/-- A job claim (R628). -/
def claimJobIn (d : Dev) (k : PktRx) : Dev :=
  let w := k.words
  let j := pktJob w
  let q := field (wordAt w 2) 8 0
  let serial := wordAt w 3
  match getJob d j with
  | none => refuseClaim d k
  | some jb =>
    let keyOk := jobKey jb == wordAt w 1 || (q == 0 && wordAt w 1 == serial)
    let free := jb.withdrawn.contains q || wordAt jb.serials q == serial
    match addrOf d serial with
    | none => refuseClaim d k
    | some a =>
      if !(keyOk && free && decide (q < jb.q)) then refuseClaim d k
      else
        let d1 := updJob d j fun jb =>
          rewatch d.nowUs jb
            { jb with serials := listSet jb.serials q serial, addrs := listSet jb.addrs q (some a), withdrawn := delNat q jb.withdrawn
                      gone := jb.gone.filter (· != serial) }
        let d2 := if q = 0 then rekey d1 j (jobKey jb) serial else d1
        sendAddr d2 4 j k.src (claimWords j (wordAt w 1) 1 true (sealCode jb.sealSt.state) jb.attempt stOk q serial jb.commit)

/-- Push every data chunk of the rows a new holder holds, then END (R630). -/
def pushTo (d : Dev) (dst pos : Nat) : Dev :=
  let me := ownPos d
  let d1 := forEach d.jobs d fun d' e =>
    forEach e.2.regions d' fun d'' g =>
      let n := spaceWords e.2 g.2
      let rows := (List.range ((n + 131071) / 131072)).filter fun c => rowHolder (rowOf c me) == pos
      forEach rows d'' fun d2 c =>
        let d3 := (readChunk d2 e.1 e.2 g.1 c).1
        let h : RowHead := { key := jobKey e.2, region := g.1, row := rowOf c me, push := true, pos := me, step := baseTagStep e.2
                             parity := false }
        sendRow d3 e.1 dst h 130 0 (chunkWords e.2 g.2 c)
  sendAddr d1 4 0 dst (rowPacket 0 { key := 0, region := 0, row := 0, push := true, pos := me, step := 0, parity := false } 0 true [])

/-- A group claim (R628): the packet carries no serial but the claimant's, so GROUP_ID is what is compared. An accepted claim
is followed by the pushes of R630; a repeat of the packet within 10 ms is answered again and pushes nothing (log 44). -/
def claimGroupIn (d : Dev) (k : PktRx) : Dev :=
  let w := k.words
  let p := field (wordAt w 2) 8 0
  let serial := wordAt w 3
  match d.parity.group with
  | none => refuseClaim d k
  | some g =>
    let lost := d.parity.lost.contains p
    if !(groupId g == wordAt w 1 && p != g.pos && (lost || wordAt g.serials p == serial)) then refuseClaim d k
    else
      let repeat_ := d.parity.pushed.any fun e => e.1 == p && e.2.1 == serial && decide (d.nowUs ≤ e.2.2 + 10000)
      let d1 := rewatchPos d (updPar d fun q =>
        { q with group := some { g with serials := listSet g.serials p serial }, lost := delNat p q.lost
                 pushed := q.pushed.filter (fun e => e.1 != p) ++ [(p, serial, d.nowUs)] })
      let d2 := sendAddr d1 4 0 k.src (claimWords 0 (wordAt w 1) 2 true 0 0 stOk p serial 0)
      if repeat_ then d2 else pushTo d2 k.src p

/-- CLAIM arrives. -/
def execClaim (k : PktRx) (s : State) : Host.Outcome State Fault Refusal :=
  onArrivalKind k 0x4A (!flag (wordAt k.words 2) 61) (claimBad k)
    (fun d => if field (wordAt k.words 2) 63 62 = 1 then claimJobIn d k else claimGroupIn d k) s

/-- A claim is answered. A refusal of a group claim of READY keeps the module from sending deltas (R704); a job claim's answers
are collected for the rebuild (R629). -/
def claimAnswerIn (d : Dev) (k : PktRx) : Dev :=
  let w := k.words
  let w2 := wordAt w 2
  let sc := field w2 63 62
  let j := pktJob w
  let inUse := field w2 47 32 != stOk
  let mine (c : ClaimOut) : Bool := c.scope == sc && (sc == 2 || c.job == j) && c.addr == some k.src
  match d.parity.claims.find? mine with
  | none => d
  | some c =>
    let d1 := updPar d fun p => { p with claims := p.claims.filter fun x => !mine x }
    if sc = 2 then
      if inUse && d.parity.ready then
        raiseTrap { d1 with start := { d1.start with claimBad := true } }
          { cause := 0xB4, kind := 8, unit := c.target, details := [wordAt w 3] }
      else d1
    else
      let ans := (c.target, wordAt w 4, field w2 55 48, field w2 57 56)
      claimsSettle (updRebuild d1 j fun b =>
        { b with waiting := delNat c.target b.waiting, refused := b.refused || inUse
                 answers := if inUse then b.answers else b.answers ++ [ans] }) j

/-- CLAIM_ANSWER arrives. -/
def execClaimAnswer (k : PktRx) (s : State) : Host.Outcome State Fault Refusal :=
  onArrivalKind k 0x4A (flag (wordAt k.words 2) 61) (claimBad k) (fun d => poolsSettle (claimAnswerIn d k)) s

/-! ## VC4_RESEND (R623, R638) -/

/-- Send a claim again. -/
def resendClaims (d : Dev) : Dev :=
  let due (c : ClaimOut) : Bool := decide (c.sentAt + 100 ≤ d.nowUs)
  let d1 := updPar d fun p => { p with claims := p.claims.map fun c => if due c then { c with sentAt := d.nowUs } else c }
  forEach (d.parity.claims.filter due) d1 fun d' c =>
    match c.addr with
    | some a => bump (sendAddr d' 4 c.job a c.words) ctrEndResend 0
    | none => bump d' ctrRouteDrop 0

/-- Ask again for the rows of a job's rebuild that are not whole. -/
def resendRows (d : Dev) (j : Nat) : Dev :=
  match (getJob d j).bind (·.rebuild) with
  | none => d
  | some b =>
    let due (r : RowReq) : Bool := !rowReady (ownPos d) r && decide (r.sentAt + 100 ≤ d.nowUs)
    let d1 := updRebuild d j fun b => { b with rows := b.rows.map fun r => if due r then { r with sentAt := d.nowUs } else r }
    forEach (b.rows.filter due) d1 fun d' r => bump (askRow d' j r.region r.row b.step) ctrEndResend 0

/-- VC4_RESEND: everything of VC4 that has waited 100 µs without an answer is sent again. -/
def execVc4Resend (s : State) : Host.Outcome State Fault Refusal :=
  onDev s fun d =>
    let d1 := resendHeld d (fun h => h.ptype == 0x40 || h.ptype == 0x42) fun d' h =>
      bump (sendPos d' h.job h.dst h.words) ctrEndResend 0
    let d2 := resendHeld d1 (fun h => h.ptype == 0x45 || h.ptype == 0x46) fun d' h => sendMember d' h.job h.dst 4 h.words .none
    forEach (SMap.keys d2.jobs) (resendClaims d2) resendRows

end Sys2Proof.Machine
end

