-- ==== Sys2Proof/Machine/Repair.lean ====
section
/-!
DEFINITION. Sys2Proof/Machine/Repair.lean: the repair engine (chapter 19) and the memory events of chapter 8: what each trigger
of Table 19-3 does, link and SRAM failures, wear, channel rebuilds, the scrubber, and the built-in test of R195.
-/
namespace Sys2Proof.Machine

/-- Change the spare map held in K. -/
def updSpare (d : Dev) (f : Spare → Spare) : Dev := { d with spare := f d.spare }

/-! ## Ports (R560, R644) -/

/-- A face die is lost: every link on it goes to DOWN (R560, Table 1-13). -/
def loseFace (d : Dev) (f : Nat) : Dev :=
  if d.spare.dead.contains f then d
  else
    let d1 := forEach (rangeFrom (16 * f) 16) d fun d' p => portDown d' p (some 7)
    updSpare d1 fun x => { x with dead := insNat f x.dead }

/-- Lowest free slice of the face die of a port. -/
def freeSlice (d : Dev) (p : Nat) : Option Nat := (List.range 16).find? fun k => sliceState d (p / 16 * 16 + k) == 1

/-- Position of the die, other than `p`, that a slice is steered to. -/
def steeredTo (d : Dev) (p k : Nat) : Option Nat :=
  (rangeFrom (p / 16 * 16) 16).find? fun q => q != p && sliceOf d q == k

/-- Steer slice `k` to a position; the unused position it served keeps none. -/
def steer (d : Dev) (p k : Nat) : Dev :=
  let d1 := match steeredTo d p k with
    | some q => updSpare d fun x => { x with slice := SMap.set x.slice q 0x1F }
    | none => d
  updSpare d1 fun x => { x with slice := SMap.set x.slice p k }

/-- The slice steered to a position is replaced by the lowest free slice of the die, or the port is lost (R644, Table
19-6). -/
def retireSlice (d : Dev) (p : Nat) : Dev :=
  let k := sliceOf d p
  if k = 0x1F then d
  else
    let d1 := updSpare d fun x => { x with sliceOut := insNat (p / 16 * 16 + k) x.sliceOut }
    let d2 := portDown d1 p none
    match freeSlice d2 p with
    | some n =>
      let d3 := updPort (steer d2 p n) p fun x => { x with failed := false, eqFull := true, trainErr := 0, fecLost := [] }
      let d4 := if (getPort d3 p).role = 0 || portLost d3 p then d3 else enterTrain d3 p
      commitRepair (bump d4 ctrSliceSwaps (p / 16)) true 1 p
    | none => commitRepair (updSpare d2 fun x => { x with slice := SMap.set x.slice p 0x1F }) false 1 p

/-- An optical position fails: it has no spare in place (R644). -/
def failPosition (d : Dev) (p : Nat) : Dev :=
  if posState d p = 2 then d
  else
    let d1 := updSpare (portDown d p none) fun x => { x with posState := SMap.set x.posState p 2 }
    commitRepair d1 false 1 p

/-- An optical engine fails: the links of its 8 positions go to DOWN at once, and the positions are out (R560, Table 1-13). -/
def failEngine (d : Dev) (e : Nat) : Dev :=
  let ps := rangeFrom (8 * e) 8
  forEach ps (forEach ps d fun d' p => portDown d' p (some 7)) failPosition

/-- A laser bias level in units of 1/1,024 of its manufacture value (R648): at 1.2 times a WEAR trap, once per position, which the
spare map holds from then on (log 54); at 1.4 times the position fails. Without LASER_REF the triggers are disabled (Table 21-2). -/
def wearLevel (d : Dev) (p level : Nat) : Dev :=
  let d1 := updPort (setCtr d ctrLaserBias p (BitVec.ofNat 64 level)) p fun x => { x with bias := level }
  let lost := SMap.getD d.flash.source 3 3 == 4
  let worn := decide (6 * 1024 ≤ 5 * level) && !lost
  let d2 :=
    if worn && posState d1 p = 0 then
      raiseTrap (saveSpare (updSpare d1 fun x => { x with posState := SMap.set x.posState p 1 })) { cause := 0xC4, kind := 1, unit := p }
    else d1
  if !lost && decide (7 * 1024 ≤ 5 * level) then failPosition d2 p else d2

/-! ## Memory channels (R284, R285) -/

/-- Channels of the update die of channel `c` in a state. -/
def chansIn (d : Dev) (c st : Nat) : List Nat := (rangeFrom (c / 64 * 64) 64).filter fun k => (chanRec d k).st == st

/-- Write a channel record. -/
def putChan (d : Dev) (c : Nat) (r : ChanRec) : Dev := updSpare d fun x => { x with chans := SMap.set x.chans c r }

/-- Channels of the die that wait for a spare as erasures, in order. -/
def waitingChans (d : Dev) (c : Nat) : List Nat := (chansIn d c 3).filter fun k => (chanRec d k).waits

/-- Waiting channels that no spare of the die is left for stay erasures: SPARE_LOW; a second one leaves no margin (R285). -/
def chanSettle (d : Dev) (c : Nat) : Dev :=
  let d1 := forEach ((waitingChans d c).drop (chansIn d c 1).length) d fun d' k =>
    commitRepair (putChan d' k { chanRec d' k with waits := false }) false 3 k
  if 2 ≤ ((chansIn d1 c 3).filter fun k => !(chanRec d1 k).waits).length then withdrawSelf d1 else d1

/-- A failed channel: a spare takes its number and is rebuilt. Without a spare, or while another channel of the die is being rebuilt,
it is an erasure (R285, Table 19-15). -/
def retireChannel (d : Dev) (c : Nat) : Dev :=
  let r := chanRec d c
  if r.st = 4 then d
  else if r.st = 1 then chanSettle (commitRepair (putChan d c { r with st := 4, wnum := none }) false 3 c) c
  else
    match (chansIn d c 2).filter (· != c), chansIn d c 1 with
    | [], n :: _ =>
      let d1 := updMem (dropChan d (c / 64) (r.wnum.getD 62)) (c / 64) fun m => { m with built := [], runs := [] }
      commitRepair (putChan (putChan d1 c { r with st := 4, wnum := none, waits := false }) n { chanRec d1 n with st := 2, wnum := r.wnum }) true 3 c
    | _, _ =>
      if r.st = 3 then d
      else chanSettle (putChan (dropChan d (c / 64) (r.wnum.getD 62)) c { r with st := 3, waits := true }) c

/-- A whole stack is lost: its 16 channels go, and the module withdraws (R285). -/
def loseStack (d : Dev) (k : Nat) : Dev :=
  let cs := (rangeFrom (16 * k) 16).filter fun c => (chanRec d c).st != 4
  withdrawSelf (forEach cs d fun d' c =>
    let r := chanRec d' c
    if r.st = 1 then commitRepair (putChan d' c { r with st := 4, wnum := none }) false 3 c
    else commitRepair (putChan (dropChan d' (c / 64) (r.wnum.getD 62)) c { r with st := 3, waits := false }) false 3 c)

/-! ## Update lanes (R646) -/

/-- Retired lanes of update die `u`. -/
def lanesOut (d : Dev) (u : Nat) : Nat := (d.spare.lanes.filter fun l => l / 128 == u).length

/-- Retire an update lane; beyond 16 on a die SPARE_LOW, and with the last one the module withdraws. -/
def retireLane (d : Dev) (l : Nat) : Dev :=
  if d.spare.lanes.contains l then d
  else
    let d1 := updSpare d fun x => { x with lanes := insNat l x.lanes }
    let n := lanesOut d1 (l / 128)
    let d2 := commitRepair d1 (decide (n ≤ 16)) 4 l
    if 128 ≤ n then withdrawSelf d2 else d2

/-! ## Die-to-die links (R62, R651) -/

/-- A link is lost. -/
def loseLink (d : Dev) (l : Nat) : Dev :=
  if l < 162 then retireDie d (l % 9)
  else if l < 198 then retireDie d ((l - 162) / 4)
  else if l < 270 then withdrawSelf d
  else if l < 288 then loseFace d (l - 270)
  else if l < 297 then retireDie d (l - 288)
  else withdrawSelf d

/-- The combine die a lost link retires (R651). -/
def linkDie (l : Nat) : Option Nat :=
  if l < 162 then some (l % 9)
  else if l < 198 then some ((l - 162) / 4)
  else if 288 ≤ l && l < 297 then some (l - 288)
  else none

/-- A lane group is out: the spare group comes in; then none does (SPARE_LOW) and the link degrades; then it is lost. Where the loss retires a die, that
change records the link too. -/
def groupOut (d : Dev) (l : Nat) : Dev :=
  let r := linkRec d l
  if r.st = 3 then d
  else
    let put (d : Dev) (st : Nat) : Dev :=
      updSpare d fun x => { x with links := SMap.set x.links l { r with st := st, groups := r.groups + 1 } }
    let d1 := bump d ctrLinkGroupRet l
    match r.groups with
    | 0 => raiseTrap (commitSpare (put d1 1)) { cause := 0xC0, details := [BitVec.ofNat 64 l] }
    | 1 =>
      let low := raiseTrap (commitSpare (put d1 2)) { cause := 0xC1, details := [BitVec.ofNat 64 l] }
      raiseTrap low { cause := 0xC3, details := [BitVec.ofNat 64 l] }
    | _ =>
      let d2 := put d1 3
      let dieOut := match linkDie l with | some c => !d2.spare.dead.contains (18 + c) | none => false
      if dieOut then loseLink d2 l else loseLink (raiseTrap (commitSpare d2) { cause := 0xC1, details := [BitVec.ofNat 64 l] }) l

/-- A transfer on a lane group has been retried `n` times in succession: counted, and at eight the group is out (R62). -/
def laneGroup (d : Dev) (l n : Nat) : Dev :=
  if (linkRec d l).st = 3 then d
  else
    let d1 := bumpBy d ctrLinkRetry l n
    if n < 8 then d1 else groupOut d1 l

/-- LANE_GROUP_FAIL: retries of one transfer, up to the eighth that retires the lane group. -/
def execLaneGroupFail (group : GroupRetries) (s : State) : Host.Outcome State Fault Refusal :=
  onLinks (decide (group.link < 301) && decide (1 ≤ group.retries) && decide (group.retries ≤ 8)) s fun d =>
    flushAll (laneGroup d group.link group.retries)

/-! ## SRAM rows (R645, R652, Table 19-4) -/

/-- Packets partly received on a port whose bytes are lost: their streams start again at the next packet (R522, R533). -/
def dropParts (d : Dev) (p : Nat) : Dev :=
  updPort d p fun x => settleFreed { x with rx := x.rx.map fun r =>
    if r.part.isEmpty then r else { r with part := [], flits := [], resync := true } }

/-- Entries of a list at other places than `ks`. -/
def unplaced {α : Type} (l : List α) (ks : List Nat) : List α := (l.zipIdx.filter fun e => !ks.contains e.2).map (·.1)

/-- Places of the packets held on port `p`, waiting to be sent or for the policer. -/
def heldOn (held : List HeldPacket) (p : Nat) (out : Bool) : List Nat :=
  held.filterMap fun
    | .out q k => if out && q == p then some k else none
    | .waiting q k => if !out && q == p then some k else none
    | .past _ => none

/-- Whole packets that a port holds are discarded as on a link that goes down: each packet to be sent as one that was on the link,
each received one with its credits returned (R559). -/
def dropHeldOn (d : Dev) (held : List HeldPacket) (p : Nat) : Dev :=
  let out := heldOn held p true
  let lost := (getPort d p).queue.zipIdx.filterMap fun e => if out.contains e.2 then some e.1 else none
  let d1 := updPort d p fun x =>
    settleFreed { x with queue := unplaced x.queue out, parked := unplaced x.parked (heldOn held p false) }
  let (d2, l) := lostHoists p lost [] (forEach lost d1 (lostPacket p true))
  endLostHoists d2 p l

/-- Packets past the policer of face die `die` are discarded. -/
def dropPast (d : Dev) (die : Nat) (held : List HeldPacket) : Dev :=
  let ks := held.filterMap fun | .past k => some k | _ => none
  { d with arrived := (d.arrived.zipIdx.filter fun e => !(ks.contains e.2 && e.1.port / 16 == die)).map (·.1) }

/-- Write the lines of a part of the cache. -/
def updPart (part : CachePart) (f : List Nat → List Nat) (m : MemDie) : MemDie :=
  match part with
  | .frames => { m with frames := f m.frames }
  | .metas => { m with metas := f m.metas }
  | .staging => { m with stage := f m.stage }

/-- Number of a part in `Spare.cut`. -/
def partNo : CachePart → Nat
  | .frames => 0
  | .metas => 1
  | .staging => 2

/-- A line of a part of an update die's cache is disabled: a row lies in one line (DEDUCED, log 66). -/
def cutLine (d : Dev) (u part : Nat) : Dev :=
  updSpare d fun x => { x with cut := SMap.set x.cut (4 * u + part) (SMap.getD x.cut (4 * u + part) 0 + 1) }

/-- The data of an uncorrectable word are lost. -/
def sramLost (d : Dev) (die : Nat) (a : SramArea) : Dev :=
  match a with
  | .accum _ cs => forEach cs d fun d' c => if (getCtx d' c).state == .opened then unitFailCtx d' c 0xC2 else d'
  | .checking s c k => dropSample d s c k
  | .replay p => portDown d p none
  | .faceOther ps held =>
    dropPast (forEach (rangeFrom (16 * die) 16) (forEach ps d dropParts) fun d' p => dropHeldOn d' held p) die held
  | .updCache part n => updMem d (die - 27) (updPart part fun l => l.filter (· != n))
  | .updCombining j => match getJob d j with | some jb => if jb.inFlight then markJob d j 0xC2 else d | none => d
  | .control => withdrawSelf d

/-- A row that finds no spare row. -/
def rowLost (d : Dev) (die : Nat) (a : SramArea) : Dev :=
  match a with
  | .accum s _ => retireSeam d s
  | .checking s _ _ => retireSeam d s
  | .replay p => retireSlice d p
  | .faceOther _ _ => loseFace d die
  | .updCache part n => updMem (cutLine d (die - 27) (partNo part)) (die - 27) (updPart part fun l => l.filter (· != n))
  | .updCombining _ => cutLine d (die - 27) 3
  | .control => withdrawSelf d

/-- Does the area name units of die `die`? -/
def areaOk (die : Nat) (a : SramArea) : Bool :=
  match a with
  | .accum s cs => decide (18 + s / 16 = die) && decide (s < 144) && cs.all fun c => decide (c < 16384)
  | .checking s c _ => decide (18 + s / 16 = die) && decide (s < 144) && decide (c < 16384)
  | .replay p => decide (p / 16 = die) && decide (p < 288)
  | .faceOther ps _ => decide (die < 18) && ps.all fun p => decide (p / 16 = die)
  | .updCache _ _ => decide (27 ≤ die) && decide (die < 31)
  | .updCombining j => decide (27 ≤ die) && decide (die < 31) && decide (j < 64)
  | .control => decide (die = 31)

/-- Banks of a die (Table 19-2). -/
def sramBanks (die : Nat) : Nat := spareRows die / 16

/-- Replace a row: a spare row of the bank takes its place, or none is left (R645). -/
def replaceRow (d : Dev) (die bank : Nat) (a : SramArea) : Dev :=
  let key := 2 ^ 20 * die + bank
  let used := SMap.getD d.spare.rows key 0
  let r := SMap.getD d.spare.srams die {}
  if used < 16 then
    let d1 := updSpare d fun x =>
      { x with rows := SMap.set x.rows key (used + 1), srams := SMap.set x.srams die { r with used := r.used + 1 } }
    commitRepair (bump d1 ctrRowsReplaced die) true 5 die
  else
    let d1 := updSpare d fun x => { x with srams := SMap.set x.srams die { r with lost := r.lost + 1 } }
    rowLost (commitRepair d1 false 5 die) die a

/-- Key of an SRAM row in `Spare.ces`. -/
def rowKey (die bank row : Nat) : Nat := 2 ^ 10 * (2 ^ 20 * die + bank) + row

/-- A corrected word of an SRAM row: the third within 24 h has the row replaced, and the spare row starts from none (Table 19-3,
R645). -/
def sramCorrected (d : Dev) (die bank row : Nat) (a : SramArea) : Dev :=
  let key := rowKey die bank row
  let l := d.nowUs :: (SMap.getD d.spare.ces key []).filter fun t => decide (d.nowUs < t + 24 * 3600 * 1000000)
  let put (d : Dev) (l : List Nat) : Dev :=
    updSpare d fun x => { x with ces := if l.isEmpty then SMap.del x.ces key else SMap.set x.ces key l }
  let d1 := bump d ctrSramCe die
  if l.length < 3 then put d1 l else replaceRow (put d1 []) die bank a

/-- Row of Table 19-4 of an area, from 1. -/
def sramArea (a : SramArea) : Nat :=
  match a with
  | .accum .. => 1
  | .checking .. => 2
  | .replay _ => 3
  | .faceOther .. => 4
  | .updCache .. => 5
  | .updCombining _ => 6
  | .control => 7

/-- A word of an SRAM row is corrected, or it cannot be and the row is replaced (R645, R652). -/
def sramRow (d : Dev) (die bank row : Nat) (uncorr : Bool) (a : SramArea) : Dev :=
  if uncorr then
    let d1 := updSpare d fun x => { x with ces := SMap.del x.ces (rowKey die bank row) }
    let d2 := raiseTrap (bump d1 ctrSramUe die)
      { cause := 0xC2, kind := 5, unit := die, details := [BitVec.ofNat 64 bank, BitVec.ofNat 64 row, Config.sramCode (sramArea a)] }
    replaceRow (sramLost d2 die a) die bank a
  else sramCorrected d die bank row a

/-! ## Triggers (Table 19-3) -/

/-- Does the trigger name a unit of the module? -/
def triggerOk (t : Trigger) : Bool :=
  match t with
  | .slice p => decide (p < 288)
  | .position p => decide (p < 288)
  | .engine e => decide (e < 36)
  | .seam s => decide (s < 144)
  | .combineDie c => decide (c < 9)
  | .residue r => decide (r.ctx < 16384)
  | .channel c => decide (c < 256)
  | .stack k => decide (k < 16)
  | .updateLane l => decide (l < 512)
  | .sramRow die bank row _ a => decide (die < 32) && decide (bank < sramBanks die) && decide (row < 1024) && areaOk die a

/-- Has the condition of Table 19-3 come that the module itself counts: for a slice, failures of TRAIN or INIT or codewords lost (the
trigger says that its loopback test failed); for a channel, corrected blocks or erasures, or a start-up that trains it; for residues, a
slab and pass that an open context works on? The other triggers are test results and losses. -/
def triggerDue (d : Dev) (t : Trigger) : Bool :=
  match t with
  | .slice p =>
    let x := getPort d p
    decide (3 ≤ x.trainErr) ||
    decide (1000 < (x.fecLost.filter fun e => decide (d.nowUs < e.1 + 3600000000)).foldl (fun a e => a + e.2) 0)
  | .channel c =>
    let near (l : List (Nat × Nat)) (keep : Nat) : List (Nat × Nat) := l.filter fun e => decide (d.nowUs < e.1 + keep)
    decide (10000 < ((near (SMap.getD d.spare.chanCes c []) 86400000000).foldl (fun a e => a + e.2) 0)) ||
    decide (3 ≤ (((near (SMap.getD d.spare.chanErs c []) 1000000).map (·.2)).eraseDups).length) ||
    d.start.phase == .memory
  | .residue r =>
    let x := getCtx d r.ctx
    x.state == .opened && decide (r.slab < x.p.nslab) && decide (r.pass < x.p.npass)
  | _ => true

/-- What the repair engine does on a trigger. -/
def repair (d : Dev) (t : Trigger) : Dev :=
  match t with
  | .slice p => retireSlice d p
  | .position p => failPosition d p
  | .engine e => failEngine d e
  | .seam s => retireSeam d s
  | .combineDie c => retireDie d c
  | .residue r => seamFault d (some r.found) r.ctx r.slab r.pass
  | .channel c => retireChannel d c
  | .stack k => loseStack d k
  | .updateLane l => retireLane d l
  | .sramRow die bank row u a => sramRow d die bank row u a

/-- REPAIR_TRIGGER: a count or a test result makes the repair engine act; before its count has come a trigger does nothing. -/
def execRepairTrigger (t : Trigger) (s : State) : Host.Outcome State Fault Refusal :=
  onLinks (triggerOk t) s fun d => if triggerDue d t then poolsSettle (flushAll (repair d t)) else d

/-- WEAR. -/
def execWear (port level : Nat) (s : State) : Host.Outcome State Fault Refusal :=
  onLinks (decide (port < 288)) s fun d => wearLevel d port level

/-- The rebuild of working channel `p` reads a damaged stripe: the block is computed from the others, or stays an erasure and what
the stripe lost meets its effect (R284, R286). The rebuild is no read of R264: OUTER_CORR does not count it (log 96). -/
def rebuildStripe (d : Dev) (u p n : Nat) : Dev :=
  if isBuilt (getMem d u) n then d
  else
    match decodedStripe d u n with
    | some l => forEach (l.filter fun e => e.1 == p) d fun d' e => xorBlock d' u n p e.2
    | none => putErr (stripeLost d u n) u n p (some { pat := 0, caught := true })

/-- CHANNEL_REBUILD_DONE: the spare is a working channel; a channel that waited as an erasure is taken next. A SPARE_RETIRE of
the channel whose working number it took is answered: its object is 64 times the die plus that number. -/
def channelDone (d : Dev) (c : Nat) : Dev :=
  let r := chanRec d c
  if r.st != 2 then d
  else
    let u := c / 64
    let p := r.wnum.getD 62
    let d0 := updMem (forEach (badStripes (getMem d u)) d fun d' n => rebuildStripe d' u p n) u fun m => { m with built := [], runs := [] }
    let d1 := putChan d0 c { r with st := 0 }
    let d2 := match waitingChans d1 c, chansIn d1 c 1 with
      | e :: _, _ :: _ => retireChannel d1 e
      | _, _ => d1
    finishCmds (chanSettle d2 c) (fun w => w.opcode == 0x71 && w.object == c / 64 * 64 + r.wnum.getD 63) (plainReply 0 0)

/-- CHANNEL_REBUILD_DONE. -/
def execChannelRebuildDone (channel : Nat) (s : State) : Host.Outcome State Fault Refusal :=
  onUnit (decide (channel < 256)) s fun d => poolsSettle (channelDone d channel)

/-! ## The scrubber (R266, R286) -/

/-- Has the memory of the update dies been written at start-up (Table 21-3)? -/
def memoryUp (d : Dev) : Bool :=
  match d.start.phase with
  | .links | .serve | .bypass | .ready => true
  | _ => false

/-- Stripes of a die that a write of the step in progress has still to reach. -/
def writeStripes (d : Dev) (u : Nat) : List Nat :=
  d.jobs.flatMap fun e => e.2.writes.flatMap fun w =>
    match getRegion e.2 w.region with
    | some r =>
      let s := copySpan e.1 e.2 r w.region w.slab w.copy (1024 * regionW r)
      if s.die = u then spanLines d s ++ spanLines d (metaSpan e.1 e.2 r w.region w.slab) else []
    | none => []

/-- The scrubber reads a damaged stripe whole, decodes it, and writes back what it corrects; a stripe that does not decode has the
effects of Table 8-13. A stripe that a write has still to reach is read again after it (Table 8-14). -/
def scrubStripe (d : Dev) (u n : Nat) : Dev :=
  if (writeStripes d u).contains n then updMem d u fun m => { m with again := m.again ++ [n] }
  else
    let es := stripeErrs (getMem d u) n
    let d1 := countInner d u n (List.range 62) es
    match decodedStripe d u n with
    | some l =>
      let outer := !(erasures d u n).isEmpty || !(kindAt es .silent).isEmpty
      let d2 := if outer then bump d1 ctrOuterCorr (updDie u) else d1
      let d3 := forEach es d2 fun d' e => putErr d' u n e.1 none
      let d4 := forEach l d3 fun d' e => xorBlock d' u n e.1 e.2
      if (unbuiltChans d u n).isEmpty then d4 else updMem d4 u fun m => { m with built := n :: m.built }
    | none =>
      let d2 := forEach (kindAt es .soft) d1 fun d' e => putErr d' u n e.1 none
      stripeLost d2 u n

/-- Stripes of a list from `a` on, `n` of the die's in turn. -/
def inWalk (l : List Nat) (a n : Nat) : List Nat :=
  l.filter (fun s => a ≤ s && decide (s < a + n)) ++ l.filter fun s => decide (s + dieStripes < a + n) && decide (s < a)

/-- Runs of stripes without the stripes from `a` up to `b`. -/
def cutRun (l : List (Nat × Nat)) (a b : Nat) : List (Nat × Nat) :=
  l.flatMap fun r => [(r.1, min r.2 a), (max r.1 b, r.2)].filter fun p => decide (p.1 < p.2)

/-- Stripes of a walk over `n` stripes from `a` on that a channel rebuild has not reached, but for those in `bad`, as runs. -/
def unbuiltRuns (m : MemDie) (a n : Nat) (bad : List Nat) : List (Nat × Nat) :=
  let whole := [(a, min (a + n) dieStripes), (0, a + n - dieStripes)].filter fun p => decide (p.1 < p.2)
  (m.built ++ bad).foldl (fun l s => cutRun l s (s + 1)) (m.runs.foldl (fun l r => cutRun l r.1 r.2) whole)

/-- The scrubber of a die goes on by `n` stripes of its walk; errors strike before. With a failed channel every stripe decodes with a
correction (R264, R285); during a rebuild a stripe with a block not yet rebuilt does, and the block is written back (R266, R284). A
service prefetcher reads for it (Table 8-12). -/
def scrubDie (d : Dev) (u n : Nat) (strikes : List Strike) : Dev :=
  if !memoryUp d then d
  else
    let d1 := bindWalk (forEach strikes (settleMem d) fun d' s => strike d' u s) u (.service 64 3)
    let m := getMem d1 u
    let walk := inWalk (badStripes m) m.scrub n
    let runs := if (chanNums d1 u 2).isEmpty then [] else unbuiltRuns m m.scrub n walk
    let decoded := if (failedChans d1 u).isEmpty then runs.foldl (fun a r => a + (r.2 - r.1)) 0 else n - walk.length
    let d2 := bumpBy d1 ctrOuterCorr (updDie u) decoded
    let d3 := updMem d2 u fun m => { m with scrub := (m.scrub + n) % dieStripes, again := [], runs := m.runs ++ runs }
    forEach (m.again ++ walk.filter fun s => !m.again.contains s) d3 fun d' s => scrubStripe d' u s

/-- SCRUB. -/
def execScrub (walk : ScrubWalk) (s : State) : Host.Outcome State Fault Refusal :=
  onUnit (decide (walk.die < 4) && decide (walk.stripes ≤ dieStripes) &&
      walk.strikes.all fun k => decide (k.stripe < dieStripes) && decide (k.channel < 64)) s
    fun d => poolsSettle (flushAll (scrubDie d walk.die walk.stripes walk.strikes))

/-! ## The built-in test after a SAMPLE_DIFF (R195) -/

/-- The test of a pair of seams ends: the checking seam is retired if it alone fails, otherwise the active one. -/
def testDone (d : Dev) (act chk : Nat) (actOk chkOk : Bool) : Dev :=
  if d.spare.tests.any fun t => t.1 == act && t.2.1 == chk && decide (t.2.2 + 200 ≤ d.nowUs) then
    let d1 := updSpare d fun x => { x with tests := x.tests.filter fun t => !(t.1 == act && t.2.1 == chk) }
    retireSeam d1 (if actOk && !chkOk then chk else act)
  else d

/-- BUILTIN_TEST_DONE. -/
def execBuiltinTestDone (active checking : Nat) (activeOk checkingOk : Bool) (s : State) : Host.Outcome State Fault Refusal :=
  onUnit (decide (active < 144) && decide (checking < 144)) s fun d =>
    poolsSettle (flushAll (testDone d active checking activeOk checkingOk))

end Sys2Proof.Machine
end

