-- ==== Sys2Proof/Machine/Update.lean ====
section
/-!
DEFINITION. Sys2Proof/Machine/Update.lean: the update die (chapter 6): it accepts a finished slab, evaluates the recurrence,
rounds and checks the new values, sends the parity delta, and its write completes (R201 to R209, R231 to R235, R294).
-/
namespace Sys2Proof.Machine

/-! ## The slab handed on -/

/-- A context of a job's step in progress. -/
def inStep (jb : Job) (x : Ctx) : Bool := x.step == jb.stepCur && x.attempt == jb.attempt && jb.inFlight

/-- Does a finished slab wait for the update die: at its seam in stream mode (R64), in staging once sealed-mode updates have
begun (R68)? -/
def updWaits (jb : Job) (x : Ctx) (b : Nat) : Bool :=
  if jb.refMode.isSome || !inStep jb x then false
  else if x.p.sealed then
    jb.sealedRun && x.state == .done && x.status == 0 && decide (b < x.p.nslab) && !x.updated.contains b
  else (getRed x b).waiting.isSome

/-- The slab has been accepted: a stream slab leaves its seam. -/
def acceptSlab (d : Dev) (c b : Nat) : Dev :=
  let d1 := updCtx d c fun x => { x with updated := insNat b x.updated }
  if (getCtx d c).p.sealed then d1 else slabDone d1 c b

/-- What the update die reads for a slab: the device, the area that was lost, if one was (0 and 1 copies, 2 metadata, 3
staging), the valid copy, and the finished slab G. -/
structure UpdRead where
  dev  : Dev
  lost : Option Nat := none
  copy : CopyData := {}
  g    : List F64 := []

/-- The finished slab G: from the seam, or read from staging with its check (R276). -/
def updInput (d : Dev) (e : Env) (c b : Nat) (copy : CopyData) : UpdRead :=
  let x := getCtx d c
  if x.p.sealed then
    let k := slabOf x b
    let sp (k : Nat) : Span := stageSpan e.j e.jb e.r x.p.region k
    let ahead := (((homeSlabs d e.j c (sp k).die).filter fun s => decide (b < s.1) && !x.updated.contains s.1).take 64).map fun s => sp s.2
    let a := fetchStage d (.staging c x.epoch) (sp k) ahead
    if a.bad.isSome then { dev := a.dev, lost := some 3 }
    else
      let (g, d1) := stagingRead a.dev (getSlab e.r k) (realLanes e.r k)
      { dev := if stagingOk (getSlab e.r k) true c x.epoch 0 then d1
          else stageStale d1 e x c b (x.p.npass - 1) 5 (updDie (homeDie e.jb.q e.r x.p.region k))
        copy := copy, g := stageAsRead g (sp k) a.fixes }
  else { dev := d, copy := copy, g := (getRed x b).waiting.getD [] }

/-- The reads of R235 step 1: the metadata record, the valid copy `v` (its parameters alone when it is fresh), and G. -/
def updRead (d : Dev) (e : Env) (c b v : Nat) : UpdRead :=
  let x := getCtx d c
  let k := slabOf x b
  let s := getSlab e.r k
  let a := readMeta (walkDie d (homeDie e.jb.q e.r x.p.region k)) e.j e.jb e.r x.p.region k
  if a.bad.isSome then { dev := a.dev, lost := some 2 }
  else
    let sp := copySpan e.j e.jb e.r x.p.region k v (readLen e.r (slabTag s v) false)
    let f := fetchCopy a.dev [.update c x.epoch] sp k v
    if f.bad.isSome then { dev := f.dev, lost := some v }
    else updInput f.dev e c b (copyAsRead e.r (slabCopy s v) sp f.fixes)

/-! ## The new values -/

/-- The schedule's values for a rule slot in the step in progress (R244). An entry first loaded after the step began has no
fixed values: it is evaluated where it is used, and SCHED_EARLY does not count it (DESIGN CHOICE, log 87). -/
def slotVals (d : Dev) (jb : Job) (rule : List W64) : SchedVals :=
  match SMap.get? jb.values (rsEntry rule) with
  | some v => v
  | none =>
    match SMap.get? d.scheds (rsEntry rule) with
    | some e => schedule e.words jb.stepCur
    | none => { lr := fpNaN, k1 := fpNaN, k2 := fpNaN, k3 := fpNaN }

/-- NCF of a slot (R202, R215). -/
def slotNcf (jb : Job) (rule : List W64) : F64 :=
  match rsGnEn rule, jb.norm.known with
  | true, some n => ncf rule n
  | _, _ => fpOne

/-- Array number of state `k` (1 to 3), if the region stores it. -/
def stateArray (r : Region) (k : Nat) : Option Nat := (indexOf k (stateNums r) 0).map (· + 1)

/-- Lane `i` of state `k`: +0 when it is not stored (R202). -/
def stateLane (r : Region) (c : CopyData) (k i : Nat) : F64 :=
  match stateArray r k with
  | some a => copyLane r c a i
  | none => 0

/-- update_lane for every real lane. -/
def updLanes (rule : List W64) (v : StepVals) (nf : F64) (fresh : Bool) (r : Region) (c : CopyData) : Nat → List F64 → List (Option LaneOut)
  | _, [] => []
  | i, g :: l =>
    updateLane rule v nf fresh g (copyLane r c 0 i) (stateLane r c 1 i) (stateLane r c 2 i) (stateLane r c 3 i) ::
      updLanes rule v nf fresh r c (i + 1) l

/-- New value of array kind `k`: 0 the parameter, 1 to 3 the states. -/
def laneVal (k : Nat) (o : LaneOut) : F64 := match k with | 0 => o.w | 1 => o.n1 | 2 => o.n2 | _ => o.n3

/-- The store-write site for one array (R117, R204). -/
def storeArray (jb : Job) (rn k step : Nat) (fmt : Byte) (kind : Nat) (vs : List LaneOut) : List OutElem :=
  outLanes (ofmtFmt fmt) (ofmtRnd fmt)
    (fun i => { seed := jb.seed, step := step, stream := regionKey kind rn, slab := k % 2 ^ 32, elem := i }) 0 (vs.map (laneVal kind))

/-- Index of the first element that satisfies `p`. -/
def firstIdx {α : Type} (p : α → Bool) (l : List α) : Option Nat := l.findIdx? p

/-- The lower of two lanes. -/
def lowerLane (a b : Option Nat) : Option Nat :=
  match a, b with
  | some x, some y => some (min x y)
  | some x, none => some x
  | none, b => b

/-- The arrays of the new copy, or the lowest lane that failed R205. -/
def newArrays (jb : Job) (r : Region) (rn k step : Nat) (ls : List (Option LaneOut)) : Except Nat (List (List W64)) :=
  match firstIdx (·.isNone) ls with
  | some i => .error (match firstSat (ls.take i) with | some l => min l i | none => i)
  | none =>
    match firstSat ls with
    | some i => .error i
    | none => .ok ((outs ls).map fun a => a.map (·.code))
where
  /-- The stored elements of every array. -/
  outs (ls : List (Option LaneOut)) : List (List OutElem) :=
    List.zipWith (fun f kind => storeArray jb rn k step f kind (ls.filterMap id)) (arrayFmts r) (0 :: stateNums r)
  /-- The lowest lane whose value R116 bounded. -/
  firstSat (ls : List (Option LaneOut)) : Option Nat :=
    (outs ls).foldl (fun m a => lowerLane m (firstIdx (·.sat) a)) none

/-! ## Non-finite events of the update unit (R205, R209) -/

/-- A slab is not written: its die updates no further slab of the step. -/
def updStopped (d : Dev) (j die : Nat) : Dev :=
  updJob (bump d ctrUpdNf j) j fun jb => { jb with dieStop := insNat die jb.dieStop }

/-- A step value is not finite: the event names no context, but the update die (R104, R209). -/
def stepValueEvent (d : Dev) (j die : Nat) : Dev :=
  let d1 := nfTrap (updStopped d j die) j
    { cause := 0x15, job := jobInfo d j, ctx := some (16383, 65535, 65535, 1023, 255, 4095), ctxv := false, kind := 5, unit := updDie die }
  markJob d1 j 0x15

/-- A lane's value is not finite or out of its format's range. -/
def laneEvent (d : Dev) (j die c b lane : Nat) : Dev :=
  nfEvent (updStopped d j die) c { cause := 0x15, pass := (getCtx d c).p.npass - 1, rank := 0, slab := b, elem := lane } false
    5 (updDie die)

/-! ## Residues and memory errors -/

/-- A residue mismatch on a lane (0 to 127) of the slab's update die (R206): the trap names the lane, the step cannot seal and
the lane is retired. The stage is a free value (log 2). -/
def laneResidue (d : Dev) (j die c b lane : Nat) : Dev :=
  let x := getCtx d c
  let (st, d1) := drawFree d
  let d2 := raiseTrap d1
    { cause := 0x32, job := jobInfo d1 j, ctx := some (ctxNum c, x.epoch, b, 0, x.p.npass - 1, 0), kind := 4, unit := 128 * die + lane
      details := [st] }
  retireLane (markJob d2 j 0x32) (128 * die + lane)

/-- Live update lanes of an update die, ascending. -/
def liveLanes (d : Dev) (die : Nat) : List Nat := (List.range 128).filter fun l => !d.spare.lanes.contains (128 * die + l)

/-- Was slab lane `i` dealt to update lane `lane` of the die (R646)? -/
def dealtTo (live : List Nat) (lane i : Nat) : Bool := !live.isEmpty && live.getD (i % live.length) 128 == lane

/-- What a mismatching update lane gives its slab lanes: free values (log 2), which R205 checks like any other. -/
def spoilLanes (hit : Nat → Bool) : Nat → List (Option LaneOut) → Dev → List (Option LaneOut) × Dev
  | _, [], d => ([], d)
  | i, o :: l, d =>
    if hit i then
      let (ws, d1) := drawMany d 4
      let v (k : Nat) : F64 := wordAt ws k
      let (r, d2) := spoilLanes hit (i + 1) l d1
      ((if ws.all fpFinite then some { w := v 0, n1 := v 1, n2 := v 2, n3 := v 3 } else none) :: r, d2)
    else
      let (r, d1) := spoilLanes hit (i + 1) l d
      (o :: r, d1)

/-! ## Accepting a slab (R235) -/

/-- Steps 6 and 7 begin: the copy is being written, and the parity delta goes out. -/
def beginWrite (d : Dev) (j rn k c : Nat) (jb : Job) (r : Region) (x : Ctx) (valid : Nat) (data : CopyData) : Dev :=
  let w : PendingWrite :=
    { job := j, ctx := ctxKey (ctxNum c) x.epoch, region := rn, slab := k, step := jb.stepCur, attempt := jb.attempt, copy := 1 - valid, data := data }
  let d1 := updJob d j fun jb => { jb with writes := jb.writes ++ [w] }
  let delta := xorWords (slabImage jb r k) (protImage r data (mkTag true false false x.step))
  sendDelta d1 j rn k 0 { step := jb.stepCur, attempt := jb.attempt, base := false } delta

/-- The update of a slab whose valid copy is `v`. A read that does not decode leaves the slab unwritten (R286, Table 8-14). -/
def updateSlab (d : Dev) (e : Env) (c b v : Nat) (rule : List W64) (residue : Option Nat) : Dev :=
  let x := getCtx d c
  let k := slabOf x b
  let rn := x.p.region
  let die := homeDie e.jb.q e.r rn k
  let s := getSlab e.r k
  let a := updRead d e c b v
  let d2 := acceptSlab a.dev c b
  let vals := stepVals rule (slotVals d e.jb rule)
  match a.lost with
  | some area => markJob (memUeSlab d2 e.j rn k area) e.j 0x40
  | none =>
  if !stepValsFinite vals then stepValueEvent d2 e.j die
  else
    let outs := updLanes rule vals (slotNcf e.jb rule) (tagFresh (slabTag s v)) e.r a.copy 0 a.g
    let (outs1, d3) := match residue with
      | some lane => spoilLanes (dealtTo (liveLanes d2 die) lane) 0 outs (laneResidue d2 e.j die c b lane)
      | none => (outs, d2)
    match newArrays e.jb e.r rn k x.step outs1 with
    | .error lane => laneEvent d3 e.j die c b lane
    | .ok as => beginWrite d3 e.j rn k c e.jb e.r x v { arrays := as }

/-- The lane of a residue fault, when the die has it and uses it. -/
def faultLane (d : Dev) (die : Nat) (f : UpdFault) : Option Nat :=
  match f with
  | .residue l => if l < 128 && !d.spare.lanes.contains (128 * die + l) then some l else none
  | _ => none

/-- The use of a context whose slab waits for its update: an earlier use first. -/
def updUse (d : Dev) (c b : Nat) : Nat :=
  let waits (h : Nat) : Bool := match ctxEnv d h with | some e => updWaits e.jb (getCtx d h) b && ownsB e (getCtx d h) b | none => false
  ((leftOf d c).find? waits).getD c

/-- The home update die accepts a finished slab (R235). A die that a non-finite value stopped discards it (R205), unless its slot's
step values are not finite: every slab of such a slot raises the event (R209). A die without a live lane updates nothing (R646). UPD_NF counts the slabs that raise the event
and not those so discarded (DESIGN CHOICE, log 85). While a parity holder has not applied the last
step's deltas the slab waits (R343). -/
def updateAccept (d : Dev) (c b : Nat) (f : UpdFault) : Dev :=
  let x := getCtx d c
  match ctxEnv d c with
  | none => d
  | some e =>
    let k := slabOf x b
    let rn := x.p.region
    let die := homeDie e.jb.q e.r rn k
    if !updWaits e.jb x b || !ownsB e x b || (liveLanes d die).isEmpty || e.jb.stopped || e.jb.updStop || !e.jb.sealSt.applyWait.isEmpty || e.jb.sealSt.state == .aborting then d
    else
      match SMap.get? d.rules e.r.rule with
      | none => d
      | some rs =>
        let s := getSlab e.r k
        if e.jb.dieStop.contains die then
          let d1 := acceptSlab d c b
          if stepValsFinite (stepVals rs.words (slotVals d e.jb rs.words)) then d1 else stepValueEvent d1 e.j die
        else if s.damaged then markJob (acceptSlab d c b) e.j 0x40
        else
          match validCopy e.jb.commit s, f with
          | none, _ => markJob (memUeSlab (acceptSlab d c b) e.j rn k 2) e.j 0x40
          | some v, .memUe a =>
            if a = 2 && !x.p.sealed then updateSlab d e c b v rs.words none
            else markJob (memUeSlab (acceptSlab d c b) e.j rn k (if a = 0 then v else if a = 1 then 2 else 3)) e.j 0x40
          | some v, _ => updateSlab d e c b v rs.words (faultLane d die f)

/-- UPDATE_ACCEPT. -/
def execUpdateAccept (ctx slab : Nat) (fault : UpdFault) (s : State) : Host.Outcome State Fault Refusal :=
  onUnit (decide (ctx < 16384) && decide (slab < 65536)) s fun d =>
    poolsSettle (flushAll (updateAccept d (updUse d ctx slab) slab fault))

/-! ## The write completes (R55, R235 steps 6 and 8) -/

/-- The tag of a new copy is written, and its parameters leave for haul unless the attempt is being aborted (R73)
or its die hands on nothing more (R205). -/
def copyWritten (d : Dev) (w : PendingWrite) : Dev :=
  match getJob d w.job with
  | none => d
  | some jb =>
    match getRegion jb w.region with
    | none => d
    | some r =>
      let s := getSlab r w.slab
      let fresh := match validCopy jb.commit s with | some v => tagFresh (slabTag s v) | none => false
      let tag := mkTag true false false w.step
      let d1 := updSlab d w.job w.region w.slab fun s => putCopy s w.copy w.data tag
      let d2 := updJob d1 w.job fun jb => { jb with writes := jb.writes.filter (· != w) }
      let d3 := writeCopy (bump d2 ctrUpdSlabs w.job) w.job jb r w.region w.slab w.copy
      let d4 := if fresh then bump d3 ctrUpdFresh w.job else d3
      let d5 := match ctxOfKey d4 w.ctx with
        | none => d4
        | some c =>
          let x := getCtx d4 c
          let b := w.slab - x.p.first
          recResult d4 w.job (ctxNum c) b x (getRed x b).acrc (crcWords (protImage r w.data tag))
      if jb.sealSt.state == .aborting || jb.stopped || jb.dieStop.contains (homeDie jb.q r w.region w.slab) || jb.stepCur != w.step || jb.attempt != w.attempt then d5
      else haulStart d5 w.job w.region w.slab w.step w.attempt w.data

/-- COPY_WRITE_COMPLETE. -/
def execCopyWriteComplete (job region slab : Nat) (s : State) : Host.Outcome State Fault Refusal :=
  onUnit (decide (job < 64)) s fun d =>
    match (getJob d job).bind fun jb => jb.writes.find? fun w => w.region == region && w.slab == slab with
    | some w => poolsSettle (settleLost (copyWritten d w))
    | none => d

end Sys2Proof.Machine
end

