-- ==== Sys2Proof/Machine/Contexts.lean ====
section
/-!
DEFINITION. Sys2Proof/Machine/Contexts.lean: the life of a context (chapter 11): the CTX_OPEN body, its checks and admission
(R173 to R179, R367), acceptance, the drain and what ends it (R59, R368, R387), the context-open notice (R369) and the
admission of blocked graph nodes (R178).
-/
namespace Sys2Proof.Machine

/-! ## The body (Table 13-12) -/

/-- CTX of a CTX_OPEN body. -/
def openCtxNo (b : List W64) : Nat := field (wordAt b 0) 45 32
/-- EPOCH of a CTX_OPEN body. -/
def openEpoch (b : List W64) : Nat := field (wordAt b 0) 63 48
/-- MODE of a CTX_OPEN body. -/
def openMode (b : List W64) : Bool := flag (wordAt b 1) 32

/-- The descriptor of a body. -/
def openDesc (b : List W64) : Desc :=
  { scale := wordAt b 3, bias := wordAt b 4, clipLo := wordAt b 5, clipHi := wordAt b 6, ctl := wordAt b 7 }

/-- The parameters of a body; zero selects the defaults of HOLD_US and ACCUM_WIN (R173, R185). -/
def openParams (holdDef : Nat) (b : List W64) : CtxParams :=
  let h := field (wordAt b 2) 51 32
  let w := field (wordAt b 2) 15 0
  { epoch := openEpoch b
    region := field (wordAt b 0) 29 16
    mapSlot := field (wordAt b 0) 15 8
    fmt := field (wordAt b 0) 3 0
    nslab := field (wordAt b 1) 63 48 + 1
    npass := field (wordAt b 1) 47 40 + 1
    sealed := openMode b
    first := field (wordAt b 1) 31 0
    holdUs := if h = 0 then holdDef else h
    accumWin := if w = 0 then 64 else w
    desc := openDesc b }

/-- Are the body's RSVD bits and OP zero? -/
def openFieldsOk (b : List W64) : Bool :=
  !(rsvdSet (wordAt b 0) [(47, 46), (31, 30), (7, 4)] || rsvdSet (wordAt b 1) [(39, 33)] || rsvdSet (wordAt b 2) [(63, 52), (31, 16)])

/-- Does a descriptor pass R121? A reference context may name any format of the emission column (R681). -/
def descOk (ref : Bool) (x : Desc) : Bool :=
  let o : Byte := BitVec.ofNat 8 (x.ctl.toNat % 256)
  fpFinite x.scale && !fpIsZero x.scale && fpFinite x.bias &&
  (!flag x.ctl 8 || (fpFinite x.clipLo && fpFinite x.clipHi && fpLe x.clipLo x.clipHi)) &&
  field x.ctl 63 9 == 0 && ofmtRsvdOk o && (if ref then fmtContrib (ofmtFmt o) else ofmtFmt o == 0)

/-- SHAPE (R378). -/
def shapeOf (j : Nat) (r : Region) (p : CtxParams) : W32 :=
  let nlast := if p.first + p.nslab = nSlabs r then r.length - 1024 * (nSlabs r - 1) else 1024
  let dcrc := crcWords [p.desc.scale, p.desc.bias, p.desc.clipLo, p.desc.clipHi, p.desc.ctl]
  crcWords
    [ mkWord [(p.region, 48), (p.nslab - 1, 32), (p.first, 0)]
    , mkWord [(dcrc.toNat, 32), (0, 24), (p.fmt, 16), (p.npass - 1, 8)]
    , mkWord [(nlast, 0)], mkWord [(j, 0)] ]

/-! ## Admission (R171 to R177) -/

/-- Seam positions a context of `n` slabs uses when `lost` are lost. -/
def usedPos (lost : List Nat) (c n : Nat) : List Nat :=
  let l := liveBut lost
  ((List.range (min n 128)).map (seamAt l c)).eraseDups

/-- Entries of a reservation (R174); a bucket uses min(S, 128 − n) positions when n are lost (Table 19-6). -/
def reservation (lost : List Nat) (win n : Nat) : Nat := win * min n (128 - lost.length)

/-- Entries reserved on a position by contexts other than `c`. -/
def reservedAt (d : Dev) (c pos : Nat) : Nat :=
  d.ctxs.foldl (fun a e => if e.1 != c && e.2.resWin != 0 && (usedPos e.2.resLost e.1 e.2.resSlabs).contains pos then a + e.2.resWin else a) 0

/-- Entries a job has reserved for contexts other than `c`. -/
def jobReserved (d : Dev) (j c : Nat) : Nat :=
  d.ctxs.foldl (fun a e => if e.1 != c && e.2.holder == some j then a + reservation e.2.resLost e.2.resWin e.2.resSlabs else a) 0

/-- A seam position lacks entries. -/
def seamShort (d : Dev) (c win n : Nat) : Bool := (usedPos (lostPositions d) c n).any fun p => decide (1984 < reservedAt d c p + win)

/-- The job's quota would be exceeded. -/
def quotaShort (d : Dev) (j c win n accum : Nat) : Bool := decide (accum < jobReserved d j c + reservation (lostPositions d) win n)

/-- Can a reservation never be met (R179)? -/
def neverMet (lost : List Nat) (win n accum : Nat) : Bool := decide (1984 < win) || decide (accum < reservation lost win n)

/-! ## The checks of CTX_OPEN (Table 11-5) -/

/-- Contexts a job holds. -/
def heldCtxs (d : Dev) (j : Nat) : Nat := (d.ctxs.filter fun e => e.2.holder == some j).length

/-- Does a bucket overlap one opened for the step (R234)? -/
def bucketClash (jb : Job) (p : CtxParams) : Bool :=
  jb.buckets.any fun b => b.1 == p.region && decide (p.first < b.2.1 + b.2.2) && decide (b.2.1 < p.first + p.nslab)

/-- Is a load, restore or rebuild of a region in progress (R457)? -/
def regionLoading (jb : Job) (rn : Nat) : Bool :=
  (jb.loads.any fun l => l.kind == 1 || l.region == rn) || (match jb.rebuild with | some b => b.slab.isNone | none => false)

/-- The epoch fails R370. -/
def epochStale (x : Ctx) (e : Nat) : Bool :=
  let k := (e + 65536 - x.epoch) % 65536
  x.lastKnown && !(decide (1 ≤ k) && decide (k ≤ 32767))

/-- The first failing check: (DETAIL, status). -/
def openCheck (d : Dev) (j : Nat) (jb : Job) (c : Nat) (p : CtxParams) (fieldsOk : Bool) : Option (Nat × Nat) :=
  let x := getCtx d c
  let map := SMap.get? d.maps p.mapSlot
  if (x.holder.isSome && x.holder != some j) || !(match map with | some m => m.job == j | none => false) then some (1, stAuth)
  else
    match getRegion jb p.region with
    | none => some (2, stIllegal)
    | some r =>
      if !fieldsOk || !descOk jb.refMode.isSome p.desc || p.accumWin < 16 || 1024 < p.accumWin || p.holdUs < 100 ||
          1000000 < p.holdUs || nSlabs r < p.first + p.nslab || !fmtContrib p.fmt then some (2, stIllegal)
      else if (x.state == .free && decide (jb.quotas.ctx ≤ heldCtxs d j)) || neverMet (lostPositions d) p.accumWin p.nslab jb.quotas.accum ||
          decide (2 ^ 48 ≤ jb.stepCur) then some (3, stLimit)
      else if x.state == .draining || x.state == .opened || x.drain != .none || bucketClash jb p || regionLoading jb p.region then
        some (4, stInUse)
      else if jb.sealSt.state == .prepared || jb.sealSt.state == .aborting || jb.norm.formed then some (5, stSealPending)
      else if epochStale x p.epoch then some (6, stStaleEpoch)
      else if seamShort d c p.accumWin p.nslab || quotaShort d j c p.accumWin p.nslab jb.quotas.accum then some (7, stNoAccum)
      else none

/-- Counters of a refused open (R177, R391, Table 17-10). -/
def countOpenRefusal (d : Dev) (j : Nat) (jb : Job) (c : Nat) (p : CtxParams) (detail : Nat) : Dev :=
  if detail = 3 then
    if (getCtx d c).state == .free && decide (jb.quotas.ctx ≤ heldCtxs d j) then quotaHit d j 0
    else if jb.quotas.accum < reservation (lostPositions d) p.accumWin p.nslab then quotaHit d j 1
    else d
  else if detail = 6 then bump d ctrEpochReject j
  else if detail = 7 then
    let d1 := if seamShort d c p.accumWin p.nslab then bump d ctrNoAccumSeam j else d
    if quotaShort d j c p.accumWin p.nslab jb.quotas.accum then quotaHit (bump d1 ctrNoAccumQuota j) j 1 else d1
  else d

/-! ## Acceptance (R218, R368 steps 1 and 2) -/

/-- Does the region's rule slot clip by global norm? -/
def regionGn (d : Dev) (jb : Job) (rn : Nat) : Bool :=
  match (getRegion jb rn).bind fun r => SMap.get? d.rules r.rule with
  | some s => rsGnEn s.words
  | none => false

/-- The face-die copies close: EPOCH and STATUS move to PREV_EPOCH and PREV_STATUS. -/
def closeCopies (x : Ctx) (f : DrainFor) : Ctx :=
  { x with prevEpoch := x.epoch, prevStatus := if x.state == .done then x.status else 0, drain := f }

/-- An accepted open: the context is held and drains. Its mode is settled when it opens. -/
def acceptOpen (d : Dev) (j c : Nat) (p : CtxParams) (body : List W64) : Dev :=
  match getJob d j with
  | none => d
  | some _ =>
    let d1 := updCtx (leaveCtx d c) c fun x =>
      { closeCopies x .open_ with holder := some j, state := .draining, lastKnown := true, next := p, resWin := p.accumWin
                                  resSlabs := p.nslab, resLost := lostPositions d, body := body, abortAtOpen := false }
    let d2 := updJob d1 j fun jb => { jb with buckets := jb.buckets ++ [(p.region, p.first, p.nslab)] }
    bump d2 ctrCtxOpens j

/-! ## RUNNING nodes that wait for a context -/

/-- End the RUNNING nodes of a type that name a context, DONE. -/
def ctxNodesDone (d : Dev) (j c type : Nat) : Dev :=
  match getJob d j with
  | none => d
  | some jb =>
    let m := (SMap.keys jb.graphs).foldl
      (fun m g => endNodesIf j g (fun n => n.st == .running && nodeType n == type && nodeCtx n == c) .done 0 m) ({ dev := d } : Marked)
    applyMarks m

/-! ## Opening (R368 steps 3 and 4, R369) -/

/-- Members that are sources of a rank. -/
def rankSources (e : RankEntry) : List Nat := if e.bakEn then [e.pri, e.bak] else [e.pri]

/-- Context-open notices to the sources of the module's group. -/
def openNotices (d : Dev) (c : Nat) : Dev :=
  match ctxEnv d c with
  | none => d
  | some e =>
    let x := getCtx d c
    forEach (rangeFrom (ownBase e) (ownSize e)) d fun d' r =>
      forEach (rankSources (rankEntry e.m r)) d' fun d'' m =>
        sendMember d'' e.j m 0 (mkPacket 0x02 e.j
          [ mkWord [(x.epoch, 48), (c, 32), (r, 16), (x.p.npass - 1, 0)], stepWord x.step x.attempt, mkWord [(x.shape.toNat, 32)] ]) .none

/-- Reply body of CTX_OPEN (R458). -/
def openReply (c : Nat) (x : Ctx) : List W64 :=
  [mkWord [(x.epoch, 48), (c, 32), (bit x.p.sealed, 0)], mkWord [(x.shape.toNat, 0)]]

/-- The CTX record (Table 20-6). -/
def recCtx (d : Dev) (j c : Nat) : Dev :=
  let x := getCtx d c
  let crc := match SMap.get? d.maps x.p.mapSlot with | some m => m.crc | none => 0
  recWrite d j 2 (x.body ++ [mkWord [(x.shape.toNat, 32), (crc.toNat, 0)], stepWord x.step x.attempt])

/-- The mode in force (R218): a reference context runs no update, a region that clips by global norm runs sealed. MODE_FORCED
counts where the open named, or the node's record held, stream mode (DESIGN CHOICE, log 86). -/
def forcedMode (d : Dev) (jb : Job) (p : CtxParams) : CtxParams × Bool :=
  let ref := jb.refMode.isSome
  let gn := !ref && regionGn d jb p.region
  ({ p with sealed := !ref && (gn || p.sealed) }, gn && !p.sealed)

/-- The drain before an open is complete: the new epoch is written and the context opens. -/
def openNow (d : Dev) (j c : Nat) : Dev :=
  let d1 := beginStep (freeEntries d c) j
  match getJob d1 j with
  | none => d1
  | some jb =>
    let x := getCtx d1 c
    let shape := match getRegion jb x.next.region with | some r => shapeOf j r x.next | none => 0
    let (p, forced) := forcedMode d1 jb x.next
    let y : Ctx :=
      { holder := some j, state := .opened, epoch := p.epoch, lastKnown := true, prevEpoch := x.prevEpoch
        prevStatus := x.prevStatus, step := jb.stepCur, attempt := jb.attempt, p := p, shape := shape, resWin := x.resWin
        resSlabs := x.resSlabs, resLost := lostPositions d1, order := d1.order, body := x.body }
    let d2 := clearCtrs (setCtx (if forced then bump d1 ctrModeForced j else d1) c y) 2 c
    let d3 := openNotices (recCtx (forEach (List.range 4) { d2 with order := d2.order + 1 } walkDie) j c) c
    let d4 := finishCmds d3 (fun w => cmdOf j 0x30 w && w.object == c) (okReply (openReply c y))
    let d5 := ctxNodesDone d4 j c 1
    if x.abortAtOpen then finishAbort (settle (endCtx d5 c stAborted)) j
    else settle (checkComplete d5 c)

/-! ## Graph nodes that open contexts (R178, R490, R496, R497, R500) -/

/-- The parameters an OPEN node opens its context with: the record's own, under the node's epoch. A HOLD_US of 0 in the record's
body selects the job's HOLD_DEF of now (R441). -/
def nodeParams (jb : Job) (x : Ctx) (n : Node) : CtxParams :=
  { x.p with epoch := nodeEpoch n, holdUs := if field (wordAt x.body 2) 51 32 = 0 then jb.hold else x.p.holdUs }

/-- The body an OPEN node stands for: the record's, with the node's epoch. -/
def nodeBody (x : Ctx) (n : Node) : List W64 :=
  mkWord [(nodeEpoch n, 48), (field (wordAt x.body 0) 47 0, 0)] :: x.body.drop 1

/-- The checks of an OPEN node at its start: a FREE context has no fields to open with. -/
def nodeOpenCheck (d : Dev) (j : Nat) (jb : Job) (n : Node) : Option (Nat × Nat) :=
  let x := getCtx d (nodeCtx n)
  if x.state == .free then some (0, stIllegal) else openCheck d j jb (nodeCtx n) (nodeParams jb x n) true

/-- An OPEN node is refused: FAILED, and the first of its graph raises NODE_FAIL (R500). -/
def nodeRefused (d : Dev) (j g i : Nat) (n : Node) (status : Nat) : Dev :=
  let d1 := applyMarks (endNode { dev := d } j g i .failed 1)
  let trapped := match (getJob d j).bind fun jb => SMap.get? jb.graphs g with | some gr => gr.trapped | none => false
  if trapped then bump d1 ctrTrapSuppressed 0
  else
    let d2 := updJob d1 j fun jb => { jb with graphs := SMap.upd jb.graphs g fun gr => { gr with trapped := true } }
    raiseTrap d2
      { cause := 0x70, job := jobInfo d j, ctx := some (nodeCtx n, nodeEpoch n, 0, 0, 0, 0)
        details := [BitVec.ofNat 64 g, BitVec.ofNat 64 i, BitVec.ofNat 64 status] }

/-- An OPEN node is admitted: its context drains and it is RUNNING. Its wait is added to BLOCKED_US, which showed it while it lasted
(DEDUCED, log 114). -/
def nodeAdmit (d : Dev) (j g i : Nat) (jb : Job) (n : Node) : Dev :=
  let x := getCtx d (nodeCtx n)
  let w := if n.st == .blocked then d.nowUs - n.since else 0
  let d1 := acceptOpen (bumpBy d ctrBlockedUs j w) j (nodeCtx n) (nodeParams jb x n) (nodeBody x n)
  updNode d1 j g i fun n => { n with st := .running }

/-- Blocked nodes of every job: (order, job, graph, node). -/
def blockedNodes (d : Dev) : List (Nat × Nat × Nat × Nat) :=
  d.jobs.flatMap fun e => e.2.graphs.flatMap fun g => (g.2.nodes.filter fun n => n.2.st == .blocked).map fun n => (n.2.order, e.1, g.1, n.1)

/-- The entry of a list with the lowest first number. -/
def lowestFirst (l : List (Nat × Nat × Nat × Nat)) : Option (Nat × Nat × Nat × Nat) :=
  l.foldl (fun m a => match m with | some b => if a.1 < b.1 then some a else some b | none => some a) none

/-- Test the blocked nodes in the order in which they became blocked; `skip` are the jobs whose older node is still blocked;
`fuel` tests. An admission that releases an old reservation begins again. -/
def admitBlocked : Nat → List Nat → List (Nat × Nat × Nat × Nat) → Dev → Dev
  | 0, _, _, d => d
  | fuel + 1, skip, l, d =>
    match lowestFirst (l.filter fun b => !skip.contains b.2.1) with
    | none => d
    | some b =>
      let j := b.2.1
      let rest := l.filter (· != b)
      match getJob d j, getNode d j b.2.2.1 b.2.2.2 with
      | some jb, some n =>
        if n.st != .blocked then admitBlocked fuel skip rest d
        else
          match nodeOpenCheck d j jb n with
          | none =>
            let d1 := nodeAdmit d j b.2.2.1 b.2.2.2 jb n
            if (getCtx d (nodeCtx n)).state == .done then admitBlocked fuel [] (blockedNodes d1) d1
            else admitBlocked fuel skip rest d1
          | some (5, _) => admitBlocked fuel (j :: skip) rest d
          | some (7, _) => admitBlocked fuel (j :: skip) rest d
          | some (k, st) =>
            admitBlocked fuel skip rest (settle (nodeRefused (countOpenRefusal d j jb (nodeCtx n) (nodeParams jb (getCtx d (nodeCtx n)) n) k) j b.2.2.1 b.2.2.2 n st))
      | _, _ => admitBlocked fuel skip rest d

/-- Entries were released on the module: the blocked nodes are tested (R178). -/
def admitAll (d : Dev) : Dev := let l := blockedNodes d; admitBlocked ((l.length + 1) * (l.length + 1)) [] l d

/-! ## Clearing every context table (R389, R504) -/

/-- A step that a cleared context or a freed graph takes part in cannot seal: is the job in one? -/
def clearMarks (d : Dev) (j : Nat) (jb : Job) : Bool :=
  (d.ctxs.any fun e => e.2.holder == some j && e.2.state == .draining && e.2.drain == .open_) ||
  (jb.graphs.any fun g => boundNow jb g.2 && g.2.nodes.any fun n => nodeType n.2 == 1 && !nodeEnded n.2)

/-- Every context of the module becomes FREE with LAST_KNOWN = 0, and every held graph is freed. An OPEN context fails as a unit
fault fails it, so that its step cannot seal; a complete one leaves what its update and its haul still need, as a released one does;
a command that waited for a context ends ST_UNIT_FAIL (DESIGN CHOICE, log 90). -/
def clearCtxs (d : Dev) : Dev :=
  let opened := SMap.keys (SMap.keep (fun _ x => x.state == .opened) d.ctxs)
  let marked := SMap.keys (SMap.keep (clearMarks d) d.jobs)
  let d1 := forEach opened d fun d' c => unitFailCtx d' c 0x34
  let d2 := forEach marked d1 fun d' j => markJob d' j 0x34
  let d2 := forEach (SMap.keys d2.ctxs) (countWaits d2) fun d' c => if (getCtx d' c).state == .done then freeEntries (leaveCtx d' c) c else d'
  let d3 := { d2 with ctxs := [], jobs := SMap.mapV (fun _ jb => { jb with graphs := [], ovfHeld := 0 }) d2.jobs }
  cancelSettle (finishCmds d3 (fun w => w.opcode == 0x30 || w.opcode == 0x31) (plainReply stUnitFail 0))

/-! ## Release (R387) -/

/-- The first failing check of CTX_RELEASE from check 2 on: (DETAIL, status). -/
def releaseCheck (d : Dev) (j c : Nat) (free : Bool) : Option (Nat × Nat) :=
  let x := getCtx d c
  if x.holder.isSome && x.holder != some j then some (2, stAuth)
  else if x.state == .free || (x.state == .idle && !free) then some (3, stIllegal)
  else if x.state == .draining || x.state == .opened || x.drain != .none then some (4, stInUse)
  else none

/-- A release is accepted: the copies close and the drain begins. -/
def acceptRelease (d : Dev) (c : Nat) (free : Bool) : Dev := updCtx d c fun x => closeCopies x (if free then .releaseFree else .releaseKeep)

/-- A context without a holder keeps its epoch and whether it is known (R387, R460). -/
def freedCtx (x : Ctx) : Ctx := { epoch := x.epoch, lastKnown := x.lastKnown }

/-- The drain before a release is complete. -/
def releaseNow (d : Dev) (j c : Nat) (free : Bool) : Dev :=
  let d1 := updCtx (freeEntries (leaveCtx d c) c) c fun x =>
    if free then freedCtx x else { x with state := .idle, status := 0, drain := .none, resWin := 0, resSlabs := 0 }
  let d2 := finishCmds d1 (fun w => cmdOf j 0x31 w && w.object == c) (plainReply stOk 0)
  admitAll (settle (ctxNodesDone d2 j c 3))

/-- DRAIN_COMPLETE: every seam has received a drain marker of the context from every face die (R59). -/
def drainComplete (d : Dev) (c : Nat) : Dev :=
  let x := getCtx d c
  match x.holder with
  | none => d
  | some j =>
    match x.drain with
    | .none => d
    | .open_ => openNow d j c
    | .releaseKeep => releaseNow d j c false
    | .releaseFree => releaseNow d j c true

/-- DRAIN_COMPLETE. -/
def execDrainComplete (ctx : Nat) (s : State) : Host.Outcome State Fault Refusal :=
  onUnit (decide (ctx < 16384)) s fun d => poolsSettle (flushAll (drainComplete d ctx))

end Sys2Proof.Machine
end

