-- ==== Sys2Proof/Machine/Graphs.lean ====
section
/-!
DEFINITION. Sys2Proof/Machine/Graphs.lean: the step-graph scheduler (R495 to R501): which READY node starts next and what its
start does; and the application of a sync operation (R506).
-/
namespace Sys2Proof.Machine

/-! ## Sync operations (R506, R507) -/

/-- Apply an operation to an object: counted for its job, and every wait tests its condition. -/
def applySync (d : Dev) (n op : Nat) (x : W64) : Dev :=
  match SMap.get? d.syncs n with
  | none => d
  | some o =>
    let d1 := { d with syncs := SMap.set d.syncs n { o with value := syncApply op o.value x } }
    settle (bump d1 ctrSyncOps o.job)

/-- Checks 1 and 2 of R465 for SYNC_OP, in their order: a free object defines no operation, a seal object none either. -/
def syncCheck (d : Dev) (j n op : Nat) (x : W64) : Option (Nat × Nat) :=
  match SMap.get? d.syncs n with
  | none => some (1, stIllegal)
  | some o =>
    if !(syncOpOk o.kind op && syncOperandOk op x) then some (1, stIllegal)
    else if o.job != j then some (2, stAuth)
    else none

/-! ## Which node starts (R495) -/

/-- Is a READY node queued to start? Waits only test their condition (R498, R507); an OPEN node that R331 holds back waits for
its end (R497). -/
def startable (d : Dev) (j : Nat) (jb : Job) (n : Node) : Bool :=
  n.st == .ready &&
  (match nodeType n with
   | 2 | 6 => false
   | 1 => match nodeOpenCheck d j jb n with | some (5, _) => false | _ => true
   | _ => true)

/-- The READY nodes of a job that are queued to start: (order, job, graph, node). -/
def readyNodes (d : Dev) (j : Nat) (jb : Job) : List (Nat × Nat × Nat × Nat) :=
  jb.graphs.flatMap fun g => (g.2.nodes.filter fun n => startable d j jb n.2).map fun n => (n.2.order, j, g.1, n.1)

/-- The node that starts next: jobs in turn from the one after the last served, in a job the node that was READY first. -/
def nextNode (d : Dev) : Option (Nat × Nat × Nat × Nat) :=
  go d ((rangeFrom (d.lastJob + 1) 64).map (· % 64))
where
  /-- Jobs in the order of their turn. -/
  go (d : Dev) : List Nat → Option (Nat × Nat × Nat × Nat)
    | [] => none
    | j :: l =>
      match (getJob d j).bind fun jb => lowestFirst (readyNodes d j jb) with
      | some b => some b
      | none => go d l

/-! ## Starting a node (Table 14-6) -/

/-- A node ends at its start. -/
def nodeEnds (d : Dev) (j g i : Nat) (st : NodeSt) (cause : Nat) : Dev := applyMarks (endNode { dev := d } j g i st cause)

/-- A node is RUNNING. -/
def nodeRuns (d : Dev) (j g i : Nat) : Dev := updNode d j g i fun n => { n with st := .running }

/-- OPEN: admitted, blocked (R178), or refused. -/
def startOpen (d : Dev) (j g i : Nat) (jb : Job) (n : Node) : Dev :=
  let c := nodeCtx n
  let p := nodeParams jb (getCtx d c) n
  match nodeOpenCheck d j jb n with
  | none => if (getCtx d c).state == .done then admitAll (nodeAdmit d j g i jb n) else nodeAdmit d j g i jb n
  | some (k, st) =>
    let d1 := countOpenRefusal d j jb c p k
    if k = 7 then
      let d2 := updNode d1 j g i fun n => { n with st := .blocked, order := d1.order, since := d1.nowUs }
      { d2 with order := d2.order + 1 }
    else nodeRefused d1 j g i n st

/-- RELEASE: checks 2 to 4 of R459. -/
def startRelease (d : Dev) (j g i : Nat) (n : Node) : Dev :=
  let c := nodeCtx n
  let free := flag (wordAt n.words 1) 16
  match releaseCheck d j c free with
  | some _ => nodeEnds d j g i .failed 1
  | none => nodeRuns (acceptRelease d c free) j g i

/-- SEAL: the request of R334 for the bound step and attempt, or DONE when that step has sealed here (R499). A restore may have
moved the job off the bound step: the request is then refused, as STEP_SEAL of another step is (DEDUCED, log 37). -/
def startSeal (d : Dev) (j g i : Nat) (jb : Job) (gr : Graph) : Dev :=
  if gr.sealed then nodeEnds d j g i .done 0
  else if boundNow jb gr then requestSeal (nodeRuns d j g i) j false
  else nodeEnds d j g i .failed 1

/-- SYNC: checks 1 and 2 of R465, then the operation. -/
def startSync (d : Dev) (j g i : Nat) (n : Node) : Dev :=
  let x := wordAt n.words 2
  match syncCheck d j (nodeSync n) (nodeOp n) x with
  | some _ => nodeEnds d j g i .failed 1
  | none => nodeEnds (applySync d (nodeSync n) (nodeOp n) x) j g i .done 0

/-- Start one node. -/
def startNode (d : Dev) (j g i : Nat) : Dev :=
  match getJob d j with
  | none => d
  | some jb =>
    match SMap.get? jb.graphs g with
    | none => d
    | some gr =>
      match SMap.get? gr.nodes i with
      | none => d
      | some n =>
        let d1 := { d with lastJob := j }
        match nodeType n with
        | 1 => startOpen d1 j g i jb n
        | 3 => startRelease d1 j g i n
        | 4 => startSeal d1 j g i jb gr
        | 5 => startSync d1 j g i n
        | 7 => nodeEnds d1 j g i .done 0
        | _ => d1

/-- NODE_START: the scheduler starts the next node, when one is queued. -/
def execNodeStart (s : State) : Host.Outcome State Fault Refusal :=
  onDev s fun d =>
    match nextNode d with
    | none => d
    | some b => poolsSettle (flushAll (settle (startNode d b.2.1 b.2.2.1 b.2.2.2)))

end Sys2Proof.Machine
end

