-- ==== Sys2Proof/Machine/Session.lean ====
section
/-!
DEFINITION. Sys2Proof/Machine/Session.lean: the command interface (chapter 12) up to an opcode's own checks: transport,
principals, sessions and sequence numbers, the opcode table, scopes, lengths and segments.
-/
namespace Sys2Proof.Machine

/-! ## The packet (Table 12-1) -/

/-- BODY_LEN. -/
def cmdBodyLen (p : CmdPkt) : Nat := field (wordAt p.words 0) 15 0
/-- OPCODE. -/
def cmdOpcode (p : CmdPkt) : Nat := field (wordAt p.words 0) 47 32
/-- JOB. -/
def cmdJob (p : CmdPkt) : Nat := field (wordAt p.words 0) 31 24
/-- SESSION. -/
def cmdSession (p : CmdPkt) : W32 := BitVec.ofNat 32 (field (wordAt p.words 1) 63 32)
/-- SEQ. -/
def cmdSeq (p : CmdPkt) : W32 := BitVec.ofNat 32 (field (wordAt p.words 1) 31 0)
/-- TAG. -/
def cmdTag (p : CmdPkt) : W32 := BitVec.ofNat 32 (field (wordAt p.words 2) 63 48)
/-- PKT_CRC. -/
def cmdCrc (p : CmdPkt) : Nat := field (wordAt p.words 3) 31 0

/-- PKT_CRC as it should be. -/
def cmdCrcCalc (p : CmdPkt) : Nat :=
  let w3 : W64 := mkWord [(field (wordAt p.words 3) 63 32, 32)]
  (crc32c (wordsBytes (p.words.take 3 ++ w3 :: p.words.drop 4) ++ p.tail)).toNat

/-- Does the packet carry BODY_LEN bytes after its header? -/
def cmdLenOk (p : CmdPkt) : Bool :=
  decide (4 ≤ p.words.length) && decide (8 * p.words.length + p.tail.length = 32 + cmdBodyLen p)

/-- Check 1 of Table 12-5 (R395). -/
def transportOk (p : CmdPkt) : Bool :=
  !p.frag && cmdLenOk p && cmdCrc p == cmdCrcCalc p && field (wordAt p.words 0) 55 52 == 1

/-- Index of a source in the counters kept per management port and VC0. -/
def srcIdx (s : CmdSrc) : Nat := match s with | .mgmt port _ _ => port | .inband _ => 2
/-- Is the source in-band? -/
def srcInband (s : CmdSrc) : Bool := match s with | .mgmt _ _ _ => false | .inband _ => true

/-! ## Senders (R407, R408, R398) -/

/-- Who sent a command: principal index or member number, its role (Table 12-3; 4 = a member) and job mask. -/
structure Sender where
  who  : Nat
  role : Nat
  mask : W64

/-- Does a principal table hold an enabled operator entry? -/
def hasOperator (d : Dev) : Bool := d.mgmt.principals.any fun e => e.2.role == 3

/-- The principal of a management packet. -/
def principalOf (d : Dev) (port : Nat) (addr : BitVec 128) (udp : Nat) : Option Sender :=
  if port = 0 && !hasOperator d then some { who := 63, role := 3, mask := 0 }
  else
    (d.mgmt.principals.find? fun e => e.2.role != 0 && e.2.addr == addr && (e.2.udp == 0 || e.2.udp == udp)).map
      fun e => { who := e.1, role := e.2.role, mask := e.2.mask }

/-- The sender of a command, if check 2 finds one. -/
def senderOf (d : Dev) (p : CmdPkt) : Option Sender :=
  match p.src with
  | .mgmt port addr udp => principalOf d port addr udp
  | .inband port =>
    if 64 ≤ cmdJob p then none
    else ((getJob d (cmdJob p)).bind fun jb => memberOn jb port).map fun m => { who := m, role := 4, mask := 0 }

/-! ## Checks on the opcode's row -/

/-- Check 9: does the sender's role admit the opcode (Table 12-4)? -/
def roleAdmits (d : Dev) (s : Sender) (op j : Nat) (sc : Scope) : Bool :=
  match s.role, sc with
  | 3, _ => true
  | 2, .module_ => false
  | 2, .readModule => true
  | 2, _ => flag s.mask j
  | 1, .readModule => true
  | 4, .job => op == 0x004A || (match getJob d j with | some jb => jb.inband | none => false)
  | 4, .readJob => true
  | _, _ => false

/-- Check 10: the expected BODY_LEN, none where no length is right (R423). -/
def bodyLenOf (b : BodyLen) (seg : W64) : Option Nat :=
  match b with
  | .fixed n => some n
  | .seg _ =>
    let total := field seg 63 32
    let idx := field seg 31 16
    if idx = 0 || 1408 * idx < total then some (8 + min (total - 1408 * idx) 1408) else none

/-- Check 11: does the module serve the opcode in its phase (R702)? -/
def phaseServes (d : Dev) (early : Bool) : Bool := d.start.phase == .ready || early

/-- Is a processor there to serve: the active one, or, where start-up failed before ROM had chosen one, one that has not failed
(R694, R700; DEDUCED, log 20)? -/
def processorUp (d : Dev) : Bool :=
  d.start.cpu != 0xFF ||
  (d.start.phase == .failed && decide (d.start.failPhase ≤ 1) && !(d.start.cpuLost.contains 0 && d.start.cpuLost.contains 1))

/-- Does the module answer commands at all: from SERVE on, or in FAILED, with a processor, and not during a takeover (R58,
R694, R702)? -/
def answersCmds (d : Dev) : Bool :=
  (match d.start.phase with | .serve | .bypass | .ready | .failed => true | _ => false) &&
  processorUp d && d.start.takeover.isNone && d.power.down.isNone

/-! ## Sessions (R398 to R401) -/

/-- A session's key. -/
structure SessKey where
  inband  : Bool
  job     : Nat
  who     : Nat
  session : W32
  deriving DecidableEq

/-- The session a packet belongs to. -/
def sessKey (p : CmdPkt) (s : Sender) : SessKey :=
  { inband := srcInband p.src, job := if srcInband p.src then cmdJob p else 0, who := s.who, session := cmdSession p }

/-- Is it the key's session? -/
def keyOf (k : SessKey) (s : Session) : Bool :=
  s.inband == k.inband && s.job == k.job && s.who == k.who && s.session == k.session

/-- Is the waiting command one of the session? -/
def waitsIn (s : Session) (w : Waiting) : Bool := sessionOf w s

/-- Sessions of a transport. -/
def sessCount (d : Dev) (inband : Bool) : Nat := (d.mgmt.sessions.filter fun s => s.inband == inband).length

/-- The session of a transport that R400 removes when the table is full: idle longest, for at least 60 s, with no command
in execution. -/
def evictable (d : Dev) (inband : Bool) : Option Session :=
  (d.mgmt.sessions.filter fun s => s.inband == inband && decide (s.lastUse + 60000000 ≤ d.nowUs) && !d.mgmt.waiting.any (waitsIn s)).foldl
    (fun m s => match m with | some t => if s.lastUse < t.lastUse then some s else some t | none => some s) none

/-- Index of a transport: management 0, in-band 1. -/
def transIdx (inband : Bool) : Nat := bit inband

/-- Make room for a new session; none when there is none (R400). -/
def roomForSession (d : Dev) (inband : Bool) : Option Dev :=
  if sessCount d inband < 1024 then some d
  else
    match evictable d inband with
    | some s => some (bump (removeSessions d fun t => t == s) ctrSessionEvict (transIdx inband))
    | none => none

/-- Change the session of a key. -/
def updSess (d : Dev) (k : SessKey) (f : Session → Session) : Dev :=
  updMgmt d fun m => { m with sessions := m.sessions.map fun s => if keyOf k s then f s else s }

/-- The session of a key, if it was used within 600 s. -/
def findSess (d : Dev) (k : SessKey) : Option Session := d.mgmt.sessions.find? fun s => keyOf k s && decide (d.nowUs ≤ s.lastUse + 600000000)

/-- What check 5 makes of a SEQ (Table 12-2). -/
inductive SeqDo | accept | range | old | reuse | cached (h : Hist) | pending
  deriving DecidableEq

/-- Treatment of a SEQ in a session. -/
def seqDo (s : Session) (seq : W32) (crc : Nat) : SeqDo :=
  let up := (seq - s.high).toNat
  let back := (s.high - seq).toNat
  if 1 ≤ up && up ≤ 2 ^ 31 - 1 then (if up ≤ 256 then .accept else .range)
  else if 63 < back then .old
  else
    match SMap.get? s.hist seq.toNat with
    | none => .accept
    | some h =>
      if h.crc.toNat != crc then .reuse
      else if h.reply.isSome then .cached h else .pending

/-- Accept a SEQ: HIGH and the history move, and what falls out of the window is forgotten. -/
def acceptSeq (s : Session) (seq : W32) (h : Hist) (now : Nat) : Session :=
  let up := (seq - s.high).toNat
  let high := if 1 ≤ up && up ≤ 2 ^ 31 - 1 then seq else s.high
  { s with high := high, hist := SMap.set (s.hist.filter fun e => decide ((high - BitVec.ofNat 32 e.1).toNat ≤ 63)) seq.toNat h, lastUse := now }

/-- The reply buffers that leave the cache when a SEQ is accepted. -/
def forgetHist (d : Dev) (s t : Session) : Dev :=
  forEach (s.hist.filter fun e => !SMap.has t.hist e.1) d fun d' e => poolReleaseOpt d' e.2.handle

/-! ## Answers outside the cache -/

/-- A reply that is not cached (checks 3 to 5). -/
def answerNow (d : Dev) (p : CmdPkt) (r : Reply) : Dev :=
  sendOuvrov d p.src (cmdJob p) (replyWords 2 (cmdOpcode p) (cmdJob p) (cmdSession p) (cmdSeq p) (cmdTag p) r)

/-- The latest copy of a command in execution gives its replies their destination (R394, R396). -/
def retarget (d : Dev) (k : SessKey) (p : CmdPkt) : Dev :=
  updMgmt d fun m => { m with waiting := m.waiting.map fun w =>
    if w.inband == k.inband && w.job == k.job && w.who == k.who && w.session == k.session && w.seq == cmdSeq p then { w with src := p.src, muted := false } else w }

/-! ## Segments (R422 to R425) -/

/-- Discard the staged load of a session. -/
def dropStaged (d : Dev) (k : SessKey) : Dev :=
  match d.mgmt.sessions.find? (keyOf k) with
  | none => d
  | some s =>
    match s.staged with
    | none => d
    | some g => forEach g.buffers (updSess d k fun s => { s with staged := none }) poolRelease

/-- Discard it and count it (R424). -/
def abandonStaged (d : Dev) (k : SessKey) : Dev :=
  match (d.mgmt.sessions.find? (keyOf k)).bind (·.staged) with
  | none => d
  | some _ => bump (dropStaged d k) ctrSegAbandon 0

/-- Buffers of a load (R593). -/
def stageBuffers (total : Nat) : Nat := (total + 1407) / 1408

/-- A failed staging allocation is counted (R596). -/
def stageRefused (d : Dev) (job : Option Nat) (n : Nat) : Dev :=
  let d1 := bump d ctrPoolEmpty 4
  match job with
  | some j => if 1024 < poolHeld d 4 (fun b => b.job == some j) + n then quotaHit (bump d1 ctrJobCapHit (64 * j + 4)) j 11 else d1
  | none => d1

/-- What a segment leads to. -/
inductive SegDo
  /-- Refused, with status and DETAIL. -/
  | refuse (status detail : Nat)
  /-- Stored. -/
  | stored
  /-- The last: the payload. -/
  | whole (payload : List W64)

/-- Take a segment (Table 13-3). A load whose last segment the opcode's own checks refuse is dropped and not counted in SEG_ABANDON
(DESIGN CHOICE, log 113). `job` is the job a segmented command of job scope stages for. -/
def takeSegment (d : Dev) (k : SessKey) (op hjob limit req : Nat) (job : Option Nat) (body : List W64) : Dev × SegDo :=
  let w := wordAt body 0
  let total := field w 63 32
  let idx := field w 31 16
  let chunk := body.drop 1
  let refuse (d : Dev) (st detail : Nat) : Dev × SegDo := (abandonStaged d k, .refuse st detail)
  let rsvd := field w 15 0 != 0
  let badLen := total == 0 || total % 8 != 0 || decide (limit < total)
  if idx = 0 then
    let d0 := abandonStaged d k
    if badLen then (d0, .refuse stIllegal 0xE003)
    else
      match poolAllocN req 4 job (stageBuffers total) d0 [] with
      | (_, none) => (stageRefused d0 job (stageBuffers total), .refuse stLimit 0xE004)
      | (d1, some hs) =>
        if rsvd then (d0, .refuse stIllegal 0xE005)
        else if total ≤ 1408 then (forEach hs d1 poolRelease, .whole chunk)
        else
          let g : Staged := { opcode := op, job := hjob, target := 0, total := total, chunks := [chunk], next := 1, lastAt := d.nowUs, buffers := hs }
          (updSess d1 k fun s => { s with staged := some g }, .stored)
  else
    match (d.mgmt.sessions.find? (keyOf k)).bind (·.staged) with
    | none => refuse d stIllegal 0xE001
    | some g =>
      if idx != g.next || g.opcode != op || g.job != hjob then refuse d stIllegal 0xE001
      else if total != g.total then refuse d stIllegal 0xE002
      else if badLen then refuse d stIllegal 0xE003
      else if rsvd then refuse d stIllegal 0xE005
      else if total ≤ 1408 * (idx + 1) then (dropStaged d k, .whole ((g.chunks ++ [chunk]).flatten))
      else (updSess d k fun s => { s with staged := some { g with chunks := g.chunks ++ [chunk], next := idx + 1, lastAt := d.nowUs } }, .stored)

/-! ## The checks of Table 12-5 -/

/-- A command past check 11, for its opcode's own checks: its body, or the payload of a segmented one. -/
structure Cmd where
  op     : Nat
  job    : Nat
  body   : List W64
  sender : Sender
  inband : Bool
  w      : Waiting

/-- An opcode's own checks and effect: the final reply, or none when that is sent later. -/
abbrev CmdFn := Dev → Cmd → Dev × Option Reply

/-- A final reply that a failed check gives. -/
def failReply (status detail : Nat) : Reply := plainReply status detail

/-- Checks 6 to 11: the row of the opcode, or the reply of the first that fails. -/
def headChecks (d : Dev) (p : CmdPkt) (s : Sender) : Except Reply OpRow :=
  let w0 := wordAt p.words 0
  let w2 := wordAt p.words 2
  if field w0 51 48 != 0 || field w0 23 16 != 0 || field w2 47 0 != 0 || field (wordAt p.words 3) 63 32 != 0 then
    .error (failReply stIllegal 0xF001)
  else
    match opRow (cmdOpcode p) with
    | none => .error (failReply stBadOpcode 0)
    | some r =>
      let j := cmdJob p
      if (if scopeOfJob r.scope then 64 ≤ j || (getJob d j).isNone else j != 0xFF) then .error (failReply stIllegal 0xF002)
      else if !roleAdmits d s (cmdOpcode p) j r.scope then .error (failReply stAuth 0)
      else if bodyLenOf r.body (wordAt p.words 4) != some (cmdBodyLen p) then .error (failReply stBadLength 0)
      else if !phaseServes d r.early then .error (failReply stNotReady 0)
      else .ok r

/-- What becomes of a received packet before its opcode's own checks: it is dealt with, or the command goes on to them. -/
inductive Front
  | stop (d : Dev)
  | run (d : Dev) (c : Cmd)

/-- An accepted command: checks 6 to 11 and its segments. A segment that checks 6 to 11 refuse leaves the load staged
(DESIGN CHOICE, log 113). -/
def runAccepted (d : Dev) (p : CmdPkt) (s : Sender) (k : SessKey) (w : Waiting) : Front :=
  match headChecks d p s with
  | .error r => .stop (finalReply d w r)
  | .ok row =>
    let c : Cmd := { op := cmdOpcode p, job := cmdJob p, body := p.words.drop 4, sender := s, inband := k.inband, w := w }
    match row.body with
    | .fixed _ => .run d c
    | .seg limit =>
      let job := if scopeOfJob row.scope then some c.job else none
      match takeSegment d k c.op c.job limit (srcReq p.src) job c.body with
      | (d1, .refuse st detail) => .stop (finalReply d1 w (failReply st detail))
      | (d1, .stored) => .stop (finalReply d1 w (plainReply stOk 0))
      | (d1, .whole payload) => .run d1 { c with body := payload }

/-- A command is accepted under its SEQ: it waits for its final reply, and holds its packet's buffer. -/
def acceptCmd (d : Dev) (p : CmdPkt) (s : Sender) (k : SessKey) (old : Session) (buf : Option Nat) : Front :=
  let h : Hist := { crc := BitVec.ofNat 32 (cmdCrc p), opcode := cmdOpcode p, tag := cmdTag p }
  let new_ := acceptSeq old (cmdSeq p) h d.nowUs
  let d1 := bump (updSess (forgetHist d old new_) k fun _ => new_) ctrCmdRx (transIdx k.inband)
  let w : Waiting :=
    { inband := k.inband, job := k.job, who := k.who, session := k.session, seq := cmdSeq p, tag := cmdTag p
      opcode := cmdOpcode p, hjob := cmdJob p, since := d.nowUs, src := p.src, object := 0, buffer := buf }
  runAccepted (updMgmt d1 fun m => { m with waiting := m.waiting ++ [w] }) p s k w

/-- Check 5: the session and SEQ. -/
def checkSeq (d : Dev) (p : CmdPkt) (s : Sender) (buf : Option Nat) : Front :=
  let k := sessKey p s
  let free (d : Dev) : Dev := poolReleaseOpt d buf
  match findSess d k with
  | none =>
    let d0 := removeSessions d (keyOf k)
    match roomForSession d0 k.inband with
    | none => .stop (answerNow (free d) p (failReply stNoSession 0))
    | some d1 =>
      let n : Session :=
        { inband := k.inband, job := k.job, who := k.who, session := k.session, high := cmdSeq p - 1, lastUse := d.nowUs }
      acceptCmd (updMgmt d1 fun m => { m with sessions := m.sessions ++ [n] }) p s k n buf
  | some se =>
    match seqDo se (cmdSeq p) (cmdCrc p) with
    | .accept => acceptCmd d p s k se buf
    | .range => .stop (answerNow (free d) p (failReply stSeqRange 0))
    | .old => .stop (answerNow (free d) p (failReply stSeqOld 0))
    | .reuse => .stop (answerNow (free d) p (failReply stSeqReuse 0))
    | .cached h =>
      let d1 := updSess (bump (free d) ctrCmdRetx (transIdx k.inband)) k fun s => { s with lastUse := d.nowUs }
      .stop (answerNow d1 p (h.reply.getD (plainReply stOk 0)))
    | .pending =>
      let d1 := updSess (retarget (free d) k p) k fun s => { s with lastUse := d.nowUs }
      .stop (sendOuvrov d1 p.src (cmdJob p)
        (replyWords 3 (cmdOpcode p) (cmdJob p) (cmdSession p) (cmdSeq p) (cmdTag p) (plainReply stPending 0)))

/-- Checks 2 to 5. -/
def checkSender (d : Dev) (p : CmdPkt) : Front :=
  match senderOf d p with
  | none => .stop (bump d ctrCmdNoPrincipal (srcIdx p.src))
  | some s =>
    if field (wordAt p.words 0) 63 56 != 1 then .stop (answerNow d p (failReply stBadVersion 0))
    else if cmdBodyLen p % 8 != 0 || 1416 < cmdBodyLen p then .stop (answerNow d p (failReply stBadLength 0))
    else if cmdSession p = 0 then .stop (answerNow d p (failReply stIllegal 0xF003))
    else
      match allocOp d (if srcInband p.src then 1 else 0) (srcReq p.src) none with
      | (d1, none) => .stop d1
      | (d1, some h) => checkSeq d1 p s (some h)

/-- The LTL packet that carried an in-band Ouvrov packet. -/
def carrier (port : Nat) (p : CmdPkt) : PktRx := { port := port, words := p.common :: p.words }

/-- What makes an in-band OUVROV packet malformed (R542, R553): its PLEN, and a JOB that differs from a header JOB below 0x40. -/
def carrierBad (d : Dev) (port : Nat) (p : CmdPkt) : Option Nat :=
  firstBad
    [ (roleBad d port 1 || field p.common 63 56 != 1, 1)
    , (rsvdSet p.common [(55, 46), (39, 16)], 2)
    , (!cmdLenOk p || field p.common 15 0 != 40 + cmdBodyLen p, 3)
    , (decide (cmdJob p < 64) && field p.common 45 40 != cmdJob p, 5) ]

/-- An in-band packet reaches the command interface: it is taken from those the link layer has delivered; a port out of service
spoils it (R576), and a malformed one ends here. -/
def takeCarrier (d0 : Dev) (port : Nat) (p : CmdPkt) : Dev × Bool :=
  let k := carrier port p
  let d := takeArrived d0 k
  if (getPort d0 port).st == .up && !inService d0 port && !d0.arrived.contains k then (bump d ctrCableSpoil port, false)
  else
    match carrierBad d port p with
    | some r => (malformed d port 0 r k.words, false)
    | none => (d, true)

/-- Checks 1 to 11 on a received Ouvrov packet (R395, R412). -/
def frontEnd (d0 : Dev) (p : CmdPkt) : Front :=
  match p.src with
  | .inband port =>
    let (d, ok) := takeCarrier d0 port p
    if !ok || !answersCmds d then .stop d
    else if transportOk p then checkSender d p else .stop (bump d ctrCmdDrop 2)
  | .mgmt port addr _ =>
    if !answersCmds d0 || !listensOn d0 port addr then .stop d0
    else if transportOk p then checkSender d0 p else .stop (bump d0 ctrCmdDrop port)

/-- Check 12 and the effect: the command runs and is answered, or waits. -/
def runOwn (d : Dev) (c : Cmd) (f : CmdFn) : Dev :=
  let (d1, r) := f d c
  match r with
  | some r => finalReply d1 c.w r
  | none => d1

/-- A received Ouvrov packet: the checks every opcode shares, then the opcode's own checks and effect. -/
def receiveCmd (d : Dev) (p : CmdPkt) (f : CmdFn) : Dev :=
  match frontEnd d p with
  | .stop d1 => d1
  | .run d1 c => runOwn d1 c f

/-- Is the packet one that the row of an opcode receives: of that opcode, or of none that is defined? -/
def cmdRowOk (op : Nat) (p : CmdPkt) : Bool :=
  (match p.src with | .mgmt port _ _ => decide (port < 2) | .inband port => decide (port < 288)) &&
  (cmdOpcode p == op || (opRow (cmdOpcode p)).isNone)

/-- A meaning of a command row. -/
def onCmd (op : Nat) (p : CmdPkt) (s : State) (f : CmdFn) : Host.Outcome State Fault Refusal :=
  onUnit (cmdRowOk op p) s fun d => receiveCmd d p f

/-- The reply of a failed check, and nothing else. -/
def fail (d : Dev) (status detail : Nat) : Dev × Option Reply := (d, some (failReply status detail))

/-- ST_OK without a body. -/
def done (d : Dev) : Dev × Option Reply := (d, some (plainReply stOk 0))

/-- ST_OK with a body. -/
def doneWith (d : Dev) (body : List W64) : Dev × Option Reply := (d, some (okReply body))

/-- The command waits: `object` finds it when its work ends. -/
def waitOn (d : Dev) (c : Cmd) (object : Nat) : Dev :=
  updMgmt d fun m => { m with waiting := m.waiting.map fun w =>
    if w.inband == c.w.inband && w.job == c.w.job && w.who == c.w.who && w.session == c.w.session && w.seq == c.w.seq then
      { w with object := object } else w }

/-- The first check of a list that fails, by position and status; `f` runs when none does. -/
def checks (d : Dev) (l : List (Bool × Nat)) (f : Unit → Dev × Option Reply) : Dev × Option Reply :=
  go 1 l
where
  /-- From position `i` on. -/
  go (i : Nat) : List (Bool × Nat) → Dev × Option Reply
    | [] => f ()
    | (bad, st) :: r => if bad then fail d st i else go (i + 1) r

/-! ## Timers -/

/-- Interim replies (R404): commands without a final reply for 1 ms get one. -/
def interimReplies (d : Dev) : Dev :=
  let due (w : Waiting) : Bool := !w.interim && decide (w.since + 1000 ≤ d.nowUs)
  let d1 := forEach (d.mgmt.waiting.filter due) d interimReply
  updMgmt d1 fun m => { m with waiting := m.waiting.map fun w => if due w then { w with interim := true } else w }

/-- INTERIM_REPLY. -/
def execInterimReply (s : State) : Host.Outcome State Fault Refusal :=
  onDev s fun d => if answersCmds d then interimReplies d else d

/-- A staged load without a segment for 10 s is discarded (R425). -/
def execStagedLoadTimeout (s : State) : Host.Outcome State Fault Refusal :=
  onDev s fun d =>
    forEach (d.mgmt.sessions.filter fun t => match t.staged with | some g => decide (g.lastAt + 10000000 ≤ d.nowUs) | none => false) d
      fun d' t => dropStaged d' { inband := t.inband, job := t.job, who := t.who, session := t.session }

end Sys2Proof.Machine
end

