-- ==== Sys2Proof/Machine/CtxCmds.lean ====
section
/-!
DEFINITION. Sys2Proof/Machine/CtxCmds.lean: the commands of contexts, step graphs and sync objects (R457 to R465, R486 to R491).
-/
namespace Sys2Proof.Machine

/-- A meaning of a command row that lets work of the jobs go on: replay, early seal messages, pool phases. -/
def onStepCmd (op : Nat) (p : CmdPkt) (s : State) (f : CmdFn) : Host.Outcome State Fault Refusal :=
  onUnit (cmdRowOk op p) s fun d => poolsSettle (flushAll (receiveCmd d p f))

/-! ## CTX_OPEN, CTX_RELEASE, CTX_READ (R457 to R460) -/

/-- CTX_OPEN: the reply follows when the context is OPEN. -/
def ctxOpenCmd : CmdFn := fun d c =>
  match getJob d c.job with
  | none => fail d stIllegal 0xF002
  | some jb =>
    let x := openCtxNo c.body
    let p := openParams jb.hold c.body
    match openCheck d c.job jb x p (openFieldsOk c.body) with
    | some (k, st) => fail (countOpenRefusal d c.job jb x p k) st k
    | none =>
      let d1 := acceptOpen (waitOn d c x) c.job x p c.body
      (if (getCtx d x).state == .done then admitAll d1 else d1, none)

/-- CTX_OPEN. -/
def execCtxOpen (p : CmdPkt) (s : State) : Host.Outcome State Fault Refusal := onStepCmd 0x0030 p s ctxOpenCmd

/-- CTX_RELEASE: the reply follows when the context has drained. -/
def ctxReleaseCmd : CmdFn := fun d c =>
  let w := wordAt c.body 0
  let x := field w 13 0
  let free := flag w 16
  if rsvdSet w [(63, 17), (15, 14)] then fail d stIllegal 1
  else
    match releaseCheck d c.job x free with
    | some (k, st) => fail d st k
    | none => (acceptRelease (waitOn d c x) x free, none)

/-- CTX_RELEASE. -/
def execCtxRelease (p : CmdPkt) (s : State) : Host.Outcome State Fault Refusal := onCmd 0x0031 p s ctxReleaseCmd

/-- State codes of Table 11-2. -/
def ctxCode (s : CtxState) : Nat :=
  match s with
  | .free => 0
  | .idle => 1
  | .draining => 2
  | .opened => 3
  | .done => 4

/-- The reply of CTX_READ (Table 13-13). -/
def ctxReadWords (x : Ctx) : List W64 :=
  if x.state == .free then [mkWord [(bit x.lastKnown, 62), (x.epoch, 32)], 0, 0, 0]
  else
    [ mkWord [(bit x.lastKnown, 62), (x.attempt, 48), (x.epoch, 32), (if x.state == .done then x.status.toNat else 0, 16), (ctxCode x.state, 0)]
    , mkWord [(x.step % 2 ^ 48, 0)]
    , mkWord [(x.prevEpoch, 48), (x.prevStatus.toNat, 32), (x.shape.toNat, 0)]
    , mkWord [(bit x.p.sealed, 0)] ]

/-- CTX_READ changes no state. -/
def ctxReadCmd : CmdFn := fun d c =>
  let w := wordAt c.body 0
  let x := getCtx d (field w 13 0)
  if rsvdSet w [(63, 14)] then fail d stIllegal 0
  else if x.holder.isSome && x.holder != some c.job then fail d stAuth 0
  else doneWith d (ctxReadWords x)

/-- CTX_READ. -/
def execCtxRead (p : CmdPkt) (s : State) : Host.Outcome State Fault Refusal := onCmd 0x0032 p s ctxReadCmd

/-! ## GRAPH_SUBMIT (R461, R488 to R491) -/

/-- Node record `i` of a payload. -/
def nodeWords (b : List W64) (i : Nat) : List W64 := (b.drop (1 + 4 * i)).take 4

/-- Predecessor fields of a record, PRED0 first. -/
def predFields (w : W64) : List Nat := [field w 14 0, field w 29 15, field w 44 30]

/-- Used predecessors of a record. -/
def usedPreds (w : W64) : List Nat := (predFields w).take (field w 46 45)

/-- A node as submitted. -/
def newNode (ws : List W64) : Node := { words := ws, preds := usedPreds (wordAt ws 0) }

/-- Nodes of a payload. -/
def bodyNodes (b : List W64) (n : Nat) : SMap Node := (List.range n).map fun i => (i, newNode (nodeWords b i))

/-- Fields of words 0x08 and 0x10 that are RSVD for a node type (Table 14-2). -/
def nodeRsvd (ws : List W64) : Bool :=
  let w1 := wordAt ws 1
  let w2 := wordAt ws 2
  let two := w2 != 0
  wordAt ws 3 != 0 || rsvdSet (wordAt ws 0) [(58, 47)] || ((predFields (wordAt ws 0)).drop (field (wordAt ws 0) 46 45)).any (· != 0) ||
  (match field (wordAt ws 0) 63 60 with
   | 1 | 2 => rsvdSet w1 [(47, 14)] || two
   | 3 => rsvdSet w1 [(63, 17), (15, 14)] || two
   | 4 | 7 => w1 != 0 || two
   | 5 | 6 => rsvdSet w1 [(55, 13)]
   | _ => true)

/-- Successors of node `a` among the nodes of a graph, in index order. -/
def successors (ns : SMap Node) (a : Nat) : List Nat :=
  (ns.foldl (fun acc e => if e.2.preds.any fun p => p == a || acc.contains p then acc ++ [e.1] else acc) ([] : List Nat))

/-- The nodes of a type. -/
def ofType (ns : SMap Node) (t : Nat) : SMap Node := ns.filter fun e => nodeType e.2 == t

/-- Do the buckets of two contexts' records overlap (R234)? -/
def bucketsMeet (a b : CtxParams) : Bool :=
  a.region == b.region && decide (a.first < b.first + b.nslab) && decide (b.first < a.first + a.nslab)

/-- Is a SYNC or WAIT_SYNC node's object, operation or condition undefined? -/
def nodeSyncBad (d : Dev) (n : Node) : Bool :=
  match SMap.get? d.syncs (nodeSync n) with
  | none => true
  | some o => o.kind == .seal_ || (if nodeType n = 5 then !syncOpOk o.kind (nodeOp n) else !syncCondOk o.kind (nodeOp n))

/-- The first failing check of Table 14-3 for node `i`: (DETAIL, status). -/
def nodeCheck (d : Dev) (j : Nat) (ns : SMap Node) (i : Nat) (n : Node) : Option (Nat × Nat) :=
  let t := nodeType n
  let x := getCtx d (nodeCtx n)
  let opens := ofType ns 1
  let usesCtx := t == 1 || t == 2 || t == 3
  let usesSync := t == 5 || t == 6
  let sameCtx := opens.filter fun e => nodeCtx e.2 == nodeCtx n
  if nodeRsvd n.words then some (0x04, stIllegal)
  else if n.preds.any (fun p => decide (i ≤ p)) || !decide n.preds.Nodup then some (0x05, stIllegal)
  else if usesCtx && x.holder.isSome && x.holder != some j then some (0x06, stAuth)
  else if t == 1 && x.state == .free then some (0x07, stIllegal)
  else if usesSync && (match SMap.get? d.syncs (nodeSync n) with | some o => o.job != j | none => false) then some (0x08, stAuth)
  else if usesSync && nodeSyncBad d n then some (0x09, stIllegal)
  else if t == 4 && (ofType ns 4).any (fun e => decide (e.1 < i)) ||
      t == 1 && (ofType ns 4).any (fun e => (successors ns e.1).contains i) then some (0x0A, stIllegal)
  else if t == 1 && opens.any (fun e => decide (e.1 < i) && (nodeCtx e.2 == nodeCtx n || bucketsMeet (getCtx d (nodeCtx e.2)).p x.p)) then
    some (0x0B, stIllegal)
  else if (t == 2 || t == 3) && sameCtx.any (fun e => !(successors ns e.1).contains i) then some (0x0C, stIllegal)
  else if t == 2 && sameCtx.any (fun e => nodeEpoch e.2 != nodeEpoch n) then some (0x0D, stIllegal)
  else if t == 1 && epochStale x (nodeEpoch n) then some (0x0E, stStaleEpoch)
  else none

/-- The first node that fails: (index, DETAIL, status). -/
def graphCheck (d : Dev) (j : Nat) (ns : SMap Node) : Option (Nat × Nat × Nat) :=
  ns.findSome? fun e => (nodeCheck d j ns e.1 e.2).map fun r => (e.1, r)

/-- Nodes of a job's graphs. -/
def jobNodes (jb : Job) : Nat := jb.graphs.foldl (fun a g => a + g.2.nodes.length) 0
/-- Nodes of the module. -/
def allNodes (d : Dev) : Nat := d.jobs.foldl (fun a e => a + jobNodes e.2) 0

/-- GRAPH_SUBMIT. A node that fails a check has its index in the body, also where the status is ST_AUTH: R461 and R491 are the
particular rules beside R410's (DEDUCED, log 37). -/
def graphSubmitCmd : CmdFn := fun d c =>
  match getJob d c.job with
  | none => fail d stIllegal 0xF002
  | some jb =>
    let w := wordAt c.body 0
    let n := field w 47 32
    let g := field w 7 0
    let ns := bodyNodes c.body n
    let never (e : Nat × Node) : Bool :=
      nodeType e.2 == 1 && (let p := (getCtx d (nodeCtx e.2)).p; neverMet (lostPositions d) p.accumWin p.nslab jb.quotas.accum)
    checks d
      [ (rsvdSet w [(63, 48), (31, 8)] || n == 0 || c.body.length != 1 + 4 * n, stIllegal)
      , (SMap.has jb.graphs g, stInUse) ] fun _ =>
      if jb.quotas.node < n + jobNodes jb then fail (quotaHit d c.job 3) stLimit 3
      else if 32768 < n + allNodes d then fail d stLimit 3
      else
        match graphCheck d c.job ns with
        | some (i, k, st) =>
          (d, some { status := BitVec.ofNat 16 st, detail := BitVec.ofNat 16 k, body := [BitVec.ofNat 64 i] })
        | none =>
          if ns.any never then
            let tooMany := ns.any fun e => nodeType e.2 == 1 && (let p := (getCtx d (nodeCtx e.2)).p; decide (jb.quotas.accum < reservation (lostPositions d) p.accumWin p.nslab))
            fail (if tooMany then quotaHit d c.job 1 else d) stLimit 0x0F
          else done (updJob d c.job fun jb => { jb with graphs := SMap.set jb.graphs g { nodes := ns } })

/-- GRAPH_SUBMIT. -/
def execGraphSubmit (p : CmdPkt) (s : State) : Host.Outcome State Fault Refusal := onCmd 0x0038 p s graphSubmitCmd

/-! ## GRAPH_RELEASE, GRAPH_CANCEL, GRAPH_READ (R462, R463, R487, R504) -/

/-- GRAPH_RELEASE: it waits while the seal state is PREPARED or ABORTING. -/
def graphReleaseCmd : CmdFn := fun d c =>
  let w := wordAt c.body 0
  let g := field w 7 0
  match (getJob d c.job).bind fun jb => (SMap.get? jb.graphs g).map fun gr => (jb, gr) with
  | none => fail d stIllegal 0
  | some (jb, gr) =>
    if rsvdSet w [(63, 8)] then fail d stIllegal 0
    else if !gr.released && releaseWaits jb then (waitOn d c g, none)
    else
      let (d1, r) := tryRelease d c.job g
      (d1, some r)

/-- GRAPH_RELEASE. -/
def execGraphRelease (p : CmdPkt) (s : State) : Host.Outcome State Fault Refusal := onStepCmd 0x0039 p s graphReleaseCmd

/-- Every node that has not begun ends SKIPPED; the graph goes when no node runs. -/
def cancelGraph (d : Dev) (j g : Nat) : Dev :=
  let d1 := updJob d j fun jb => { jb with graphs := SMap.upd jb.graphs g fun gr => { gr with cancelled := true } }
  settle (applyMarks (endNodesIf j g (fun n => !nodeBegun n) .skipped 6 { dev := d1 }))

/-- GRAPH_CANCEL: the reply is sent when the graph is freed. -/
def graphCancelCmd : CmdFn := fun d c =>
  let w := wordAt c.body 0
  let g := field w 7 0
  match (getJob d c.job).bind fun jb => SMap.get? jb.graphs g with
  | none => fail d stIllegal 0
  | some _ => if rsvdSet w [(63, 8)] then fail d stIllegal 0 else (cancelGraph (waitOn d c g) c.job g, none)

/-- GRAPH_CANCEL. -/
def execGraphCancel (p : CmdPkt) (s : State) : Host.Outcome State Fault Refusal := onStepCmd 0x003A p s graphCancelCmd

/-- A page of a result (R426). -/
def pagedWords (bs : List Byte) (off : Nat) : List W64 :=
  mkWord [(bs.length, 32), (off, 0)] :: (if off < bs.length then bytesWords ((bs.drop off).take 1408) else [])

/-- The byte of a node (R493). -/
def nodeByte (n : Node) : Byte := BitVec.ofNat 8 (nodeCode n.st + 16 * (if n.st == .failed || n.st == .skipped then n.cause else 0))

/-- GRAPH_READ changes no state. -/
def graphReadCmd : CmdFn := fun d c =>
  let w := wordAt c.body 0
  match (getJob d c.job).bind fun jb => SMap.get? jb.graphs (field w 39 32) with
  | none => fail d stIllegal 0
  | some gr =>
    if rsvdSet w [(63, 40)] || field w 2 0 != 0 then fail d stIllegal 0
    else doneWith d (pagedWords (gr.nodes.map fun e => nodeByte e.2) (field w 31 0))

/-- GRAPH_READ. -/
def execGraphRead (p : CmdPkt) (s : State) : Host.Outcome State Fault Refusal := onCmd 0x003B p s graphReadCmd

/-! ## SYNC_ALLOC, SYNC_FREE, SYNC_OP (R464, R465, R505, R506) -/

/-- Is INIT undefined for a kind (R505)? -/
def syncInitBad (kind : Nat) (x : W64) : Bool :=
  match kind with
  | 1 => false
  | 2 => field x 63 16 != 0 || field x 15 0 == 0
  | _ => true

/-- The object SYNC_ALLOC makes. -/
def newSync (j kind : Nat) (x : W64) : SyncObj :=
  if kind = 1 then { job := j, kind := .counter, value := x }
  else { job := j, kind := .barrier, value := mkWord [(field x 15 0, 16)] }

/-- SYNC_ALLOC. -/
def syncAllocCmd : CmdFn := fun d c =>
  match getJob d c.job with
  | none => fail d stIllegal 0xF002
  | some jb =>
    let w := wordAt c.body 0
    let kind := field w 63 56
    let x := wordAt c.body 1
    if rsvdSet w [(55, 0)] || syncInitBad kind x then fail d stIllegal 1
    else if jb.quotas.sync ≤ (d.syncs.filter fun e => e.2.job == c.job).length then fail (quotaHit d c.job 4) stLimit 2
    else
      match SMap.firstFree d.syncs 0 8192 with
      | none => fail d stLimit 2
      | some n => doneWith { d with syncs := SMap.set d.syncs n (newSync c.job kind x) } [BitVec.ofNat 64 n]

/-- SYNC_ALLOC. -/
def execSyncAlloc (p : CmdPkt) (s : State) : Host.Outcome State Fault Refusal := onCmd 0x0040 p s syncAllocCmd

/-- Does a node of an unfinished graph of the job name the object (R492)? -/
def syncNamed (jb : Job) (n : Nat) : Bool :=
  jb.graphs.any fun g => !graphFinished g.2 && g.2.nodes.any fun e => (nodeType e.2 == 5 || nodeType e.2 == 6) && nodeSync e.2 == n

/-- SYNC_FREE. -/
def syncFreeCmd : CmdFn := fun d c =>
  let w := wordAt c.body 0
  let n := field w 12 0
  match SMap.get? d.syncs n, getJob d c.job with
  | some o, some jb =>
    checks d
      [(rsvdSet w [(63, 13)], stIllegal), (o.job != c.job, stAuth), (o.kind == .seal_ || syncNamed jb n, stInUse)] fun _ =>
      done { d with syncs := SMap.del d.syncs n }
  | _, _ => fail d stIllegal 1

/-- SYNC_FREE. -/
def execSyncFree (p : CmdPkt) (s : State) : Host.Outcome State Fault Refusal := onCmd 0x0041 p s syncFreeCmd

/-- SYNC_OP: the reply carries the value before the operation. -/
def syncOpCmd : CmdFn := fun d c =>
  let w := wordAt c.body 0
  let n := field w 12 0
  let op := field w 63 56
  let x := wordAt c.body 1
  if rsvdSet w [(55, 13)] then fail d stIllegal 1
  else
    match syncCheck d c.job n op x, SMap.get? d.syncs n with
    | none, some o => doneWith (applySync d n op x) [o.value]
    | some (k, st), _ => fail d st k
    | none, none => fail d stIllegal 1

/-- SYNC_OP. -/
def execSyncOp (p : CmdPkt) (s : State) : Host.Outcome State Fault Refusal := onStepCmd 0x0042 p s syncOpCmd

end Sys2Proof.Machine
end

