-- ==== Sys2Proof/Machine/FabricRows.lean ====
section
/-!
DEFINITION. Sys2Proof/Machine/FabricRows.lean: the rows of the torus fabric (chapter 16): transit packets, ring maps, and the
release of bypass pairs.
-/
namespace Sys2Proof.Machine

/-! ## Transit (R540, R583, R587) -/

/-- A trunk packet for another address goes on; one for this module is left to the row of its type. A port that is UP out of
service spoils it (R576). -/
def transit (d0 : Dev) (k : PktRx) : Dev :=
  if !passesOn d0 k then d0
  else if spoilsAt d0 k then bump (takeArrived d0 k) ctrCableSpoil k.port
  else passOn (takeArrived d0 k) k

/-- TRANSIT_PACKET. -/
def execTransitPacket (k : PktRx) (s : State) : Host.Outcome State Fault Refusal :=
  onUnit (decide (k.port < 288)) s fun d => transit d k

/-- A held packet whose 100 µs have passed is routed, or spoiled (R583). -/
def retryHold (d : Dev) (h : RouteHold) : Dev :=
  match routeNow d h.vc h.job h.dst h.words with
  | some d1 => d1
  | none => bump d ctrRouteDrop 0

/-- ROUTE_HOLD_EXPIRY. -/
def execRouteHoldExpiry (s : State) : Host.Outcome State Fault Refusal :=
  onDev s fun d =>
    let due (h : RouteHold) : Bool := decide (h.since + 100 ≤ d.nowUs)
    let d1 := { d with fabric := { d.fabric with holds := d.fabric.holds.filter fun h => !due h } }
    forEach (d.fabric.holds.filter due) d1 retryHold

/-! ## Ring maps (R586) -/

/-- What makes RING_STATE malformed. -/
def ringBad (k : PktRx) (d : Dev) : Option Nat :=
  let w1 := wordAt k.words 1
  firstBad
    [ (roleBad d k.port 2, 1)
    , (rsvdSet w1 [(55, 50), (35, 29), (10, 9)], 2)
    , (lenBad k.words 2, 3)
    , (pktJob k.words != 0 || decide (2 < field w1 49 48) || decide (16 < field w1 28 24) || decide (16 < field w1 23 19), 5) ]

/-- A RING_STATE updates the map of its axis, when its SEQ is forward of the entry's, and goes on in the direction of
travel. -/
def ringIn (d : Dev) (k : PktRx) : Dev :=
  let w1 := wordAt k.words 1
  let axis := field w1 49 48
  let seq := field w1 47 40
  let ttl := field w1 39 36
  let src := field w1 8 0
  let key := 8 * axis + coord src axis
  let fwd :=
    match SMap.get? d.fabric.ring key with
    | some e => let n := (seq + 256 - e.seq) % 256; decide (1 ≤ n) && decide (n ≤ 127)
    | none => true
  if !fwd || !sameLine axis src (ownAddr d) then d
  else
    let e : RingEntry :=
      { seq := seq, plusN := field w1 28 24, minusN := field w1 23 19, plusNext := field w1 18 15, minusNext := field w1 14 11
        at_ := d.nowUs }
    let d1 := bump { d with fabric := { d.fabric with ring := SMap.set d.fabric.ring key e } } ctrRingStateRx axis
    if ttl = 0 || src = ownAddr d then d1
    else
      let plus := (planOf d k.port).dir != 0
      match (trunksOn d1 axis plus).head? with
      | some p =>
        let w := ringWord axis seq (ttl - 1) e.plusN e.minusN e.plusNext e.minusNext src
        enqueue d1 p { queue := 64, vc := 7, words := [commonWord 0x70 0 16, w] }
      | none => d1

/-- RING_STATE arrives. -/
def execRingState (k : PktRx) (s : State) : Host.Outcome State Fault Refusal :=
  onArrivalKind k 0x70 (field (wordAt k.words 1) 63 56 == 2) (ringBad k) (fun d => ringIn d k) s

/-- RING_STATE_TIMER: every 100 ms. -/
def execRingStateTimer (s : State) : Host.Outcome State Fault Refusal :=
  onDev s fun d =>
    if linksOn d && decide (d.fabric.ringAt + 100000 ≤ d.nowUs) then
      let d1 := { d with fabric := { d.fabric with ringAt := d.nowUs } }
      forEach [0, 1, 2] d1 sendRing
    else d

/-- RING_MAP_LAPSE: entries not refreshed for 350 ms. -/
def execRingMapLapse (s : State) : Host.Outcome State Fault Refusal :=
  onDev s fun d =>
    { d with fabric := { d.fabric with ring := SMap.keep (fun _ e => decide (d.nowUs < e.at_ + 350000)) d.fabric.ring } }

/-! ## Bypass pairs (R580, R581) -/

/-- Has the loopback of a JOINED pair shown this module and the other side on port `p` (condition 4)? -/
def loopSeen (d : Dev) (p other : Nat) : Bool :=
  let x := getPort d p
  x.st == .up &&
  (match x.beacon with
   | some b => b.serial == d.fac.serial && b.engine == other / 8 && b.pos == other % 8
   | none => false)

/-- Condition 5 of R580 with the paragraph after it: both monitors have classified their sides OK or THROUGH within 300 ms,
or one so OK with the other MISSING (log 47). -/
def monitorsFit (d : Dev) (x : Pair) : Bool :=
  let fresh (t : Nat) : Bool := decide (d.nowUs ≤ t + 300000)
  let okA := classGood x.clsA && fresh x.clsAtA
  let okB := classGood x.clsB && fresh x.clsAtB
  (okA && okB) || (okA && x.clsA == 1 && x.clsB == 5) || (okB && x.clsB == 1 && x.clsA == 5)

/-- Every condition of R580. -/
def mayRelease (d : Dev) (q : Nat) : Bool :=
  let x := d.fabric.pairs.getD q {}
  (d.start.phase == .bypass || d.start.phase == .ready) &&
  x.st == .joined && !x.held && !x.reverted &&
  !pairPlanBad d q &&
  loopSeen d (256 + q) (272 + q) && loopSeen d (272 + q) (256 + q) &&
  monitorsFit d x &&
  !(d.fabric.pairs.any fun y => y.st == .releasing) &&
  (match d.fabric.lastRelease with | some t => decide (t + 200000 ≤ d.nowUs) | none => true)

/-- BYPASS_RELEASE. -/
def execBypassRelease (pair : Nat) (s : State) : Host.Outcome State Fault Refusal :=
  onLinks (decide (pair < 16)) s fun d => if mayRelease d pair then bump (unjoinPair d pair) ctrBypassReleases pair else d

/-- A release that has not succeeded within 2 s is undone. -/
def revertPair (d0 : Dev) (q : Nat) : Dev :=
  let d := pairDone d0 q
  let x := d.fabric.pairs.getD q {}
  if x.st == .releasing && decide (x.startAt + 2000000 ≤ d.nowUs) then
    let d1 := bump (joinPair d q fun x => { x with reverted := true }) ctrBypassReverts q
    raiseTrap d1 { cause := 0x91, kind := 7, unit := q }
  else d

/-- BYPASS_RELEASE_TIMEOUT. -/
def execBypassReleaseTimeout (s : State) : Host.Outcome State Fault Refusal :=
  onLinks true s fun d => forEach (List.range 16) d revertPair

end Sys2Proof.Machine
end

