-- ==== Sys2Proof/Machine/Registers.lean ====
section
/-!
DEFINITION. Sys2Proof/Machine/Registers.lean: the words of the module register map (Table 23-1), of the counter space and of
the job windows (Table 23-7), with their attribution to jobs (R741).
-/
namespace Sys2Proof.Machine

/-- Phase code (Table 21-3). -/
def phaseCode (p : Phase) : Nat :=
  match p with
  | .power => 0x00
  | .rom => 0x01
  | .restore => 0x02
  | .patch => 0x03
  | .dies => 0x04
  | .memory => 0x05
  | .links => 0x06
  | .serve => 0x07
  | .bypass => 0x08
  | .ready => 0x09
  | .failed => 0x0F

/-- IDENTITY (Table 23-2). -/
def identityWord (d : Dev) (i : Nat) : W64 :=
  match i with
  | 0 => d.fac.serial
  | 1 => mkWord [(0xA1, 8), (0x01, 0)]
  | 2 => mkWord [(d.fac.mac0.toNat, 0)]
  | 3 => mkWord [(d.fac.mac1.toNat, 0)]
  | _ => 0

/-- START_STATUS (Table 21-4). -/
def startWord (d : Dev) (i : Nat) : W64 :=
  let s := d.start
  match i with
  | 0 => mkWord [(phaseCode s.phase, 56), (s.failPhase, 48), (s.failCause, 40), (s.cpu, 32), (s.phaseMs % 2 ^ 32, 0)]
  | 1 => mkWord [(s.restarts % 2 ^ 32, 32)]
  | _ => 0

/-- DOMAIN_LOCK of CLK_STATUS. -/
def domainLock (d : Dev) : Nat :=
  if d.clocks.locked then d.clocks.lost.foldl (fun a n => a - 2 ^ n) (2 ^ 40 - 1) else 0

/-- CLK_STATUS (Table 22-9); the measured offsets are the free words `ppm`. -/
def clkWord (d : Dev) (ppm : W64) (i : Nat) : W64 :=
  match i with
  | 0 => mkWord [(bit d.clocks.refOk, 63), (bit d.clocks.holdover, 62), (bit d.clocks.slewing, 61), (domainLock d, 0)]
  | 1 => mkWord [(field ppm 31 0, 0)]
  | _ => 0

/-- Milliseconds of the holdover in progress (R728, R738). -/
def holdoverMs (d : Dev) : Nat := if d.clocks.holdover then (d.nowUs - d.clocks.holdAt) / 1000 else 0

/-- What a wait in progress adds to a counter of time: BLOCKED_US (R199), SYNC_WAIT_US (R513), CREDIT_STALL_US (R562), POLICE_HOLD_US
(R611), REC_HOLD_US (R685) and HOLDOVER_MS (R728) count while what they count lasts (DEDUCED, log 114). -/
def running (d : Dev) (key : Nat) : Nat :=
  let scope := key / 2 ^ 22
  let i := key % 2 ^ 22 / ctrStride scope
  let is (c : Ctr) : Bool := key == ctrKey c.1 i c.2
  let from_ (t : Option Nat) : Nat := match t with | some t => d.nowUs - t | none => 0
  let ofJob (f : Job → Nat) : Nat := match getJob d i with | some jb => f jb | none => 0
  if is ctrBlockedUs then ofJob (blockedUs d.nowUs)
  else if is ctrSyncWaitUs then ofJob (syncUs d.nowUs)
  else if is ctrRecHoldUs then ofJob fun jb => from_ (jb.recd.bind fun r => if r.active then r.heldAt else none)
  else if is ctrCreditStallUs then from_ (txVc (getPort d (i / 8)) (i % 8)).stallAt
  else if is ctrPoliceHoldUs then from_ (SMap.get? d.policed i)
  else if is ctrHoldoverMs then holdoverMs d
  else 0

/-- A counter word as it reads. -/
def ctrShown (d : Dev) (key : Nat) : W64 := ctrWord d key + BitVec.ofNat 64 (running d key)

/-- Milliseconds, held at the largest 32-bit value. -/
def msHeld (us : Nat) : Nat := min (us / 1000) (2 ^ 32 - 1)

/-- Is the port the downstream home of a dual-homed member (R557)? -/
def isDownHome (d : Dev) (p : Nat) : Bool :=
  d.jobs.any fun e => e.2.members.any fun m => m.2.portB.isSome && (m.2.portA == p || m.2.portB == some p) && homeOf d m.2 == p

/-- LINK_STATUS word of a port (Table 23-3). -/
def linkWord (d : Dev) (p : Nat) : W64 :=
  let x := getPort d p
  let upMs := if x.st == .up then msHeld (d.nowUs - x.since) else 0
  mkWord [(linkStCode x.st, 61), (x.role, 59), (x.cls, 52), (bit (inService d p), 51), (bit x.eqStored, 50),
    (bit (isDownHome d p), 49), (x.laneLock, 40), (x.lastDown, 36), (upMs, 0)]

/-- BYPASS_STATUS word of a pair (Table 23-4). -/
def bypassWord (d : Dev) (q : Nat) : W64 :=
  let x := d.fabric.pairs.getD q {}
  let st := match x.st with | .joined => 0 | .released => 1 | .releasing => 2
  mkWord [(st, 62), (bit x.held, 61), (bit (pairPlanBad d q), 60), (bit x.reverted, 59), (x.clsA, 55), (x.clsB, 51),
    (msHeld (d.nowUs - x.changeAt), 0)]

/-- BYPASS_CTRL (R744). -/
def bypassCtrl (d : Dev) : W64 :=
  mkWord ((List.range 16).flatMap fun q =>
    let x := d.fabric.pairs.getD q {}
    [(bit (x.st == .joined), 16 + q), (bit x.held, q)])

/-- POOL_STATUS word of a pool (Table 17-4). -/
def poolWord (d : Dev) (p : Nat) : W64 :=
  mkWord [(poolLog2 p, 60), (bit (poolPriv p), 59), (bit (poolOpen d p), 58), (poolCount p, 36), (poolFree d p, 18),
    (SMap.getD d.pools.low p (poolCount p), 0)]

/-- Record identifiers of Table 21-2, in order. -/
def retainedRids : List Nat := [0x01, 0x02, 0x03, 0x10, 0x11, 0x12, 0x13, 0x14, 0x15, 0x16, 0x17, 0x18, 0x19]

/-- Body bytes of a factory record (Table 21-2). -/
def factoryLen (rid : Nat) : Nat := match rid with | 1 => 64 | 2 => 8264 | 3 => 2304 | _ => 0

/-- Word of a RETAINED_DIR entry (Table 21-7). A factory record has no copies in the logs (log 7). -/
def retainedWord (d : Dev) (e i : Nat) : W64 :=
  let rid := retainedRids.getD e 0
  let seqOf (o : Option RecCopy) : Nat := (o.map (·.seq)).getD 0
  match i with
  | 0 => mkWord [(seqOf (d.flash.a.newest rid), 32), (seqOf (d.flash.b.newest rid), 0)]
  | _ =>
    let src := SMap.getD d.flash.source rid (if rid ≤ 3 then 3 else 5)
    let len := if rid ≤ 3 then factoryLen rid else ((flashRead d rid).map (·.len)).getD 0
    mkWord [(rid, 56), (src, 53), (len, 0)]

/-- Word of a CAPTURE record (R743). -/
def captureWord (d : Dev) (p i : Nat) : W64 :=
  match (getPort d p).capture with
  | none => 0
  | some c =>
    match i with
    | 0 => mkWord [(1, 63), (c.vc, 56), (c.reason, 48)]
    | 1 => BitVec.ofNat 64 c.timeUs
    | _ => wordAt c.words (i - 2)

/-- Word of a TRAP_WIN slot (R749). -/
def trapWord (d : Dev) (slot i : Nat) : W64 :=
  match SMap.get? d.mgmt.traps slot with
  | none => 0
  | some r => wordAt r.words i

/-- Is a byte address inside `n` bytes from `base`? -/
def inBlock (a base n : Nat) : Bool := decide (base ≤ a) && decide (a < base + n)

/-- The scope of a counter-space address, if mapped (R745). -/
def ctrScopeAt (a : Nat) : Option Nat :=
  let k := (a - 0x80000000) / 8
  let s := k / 2 ^ 22
  if 0x80000000 ≤ a && decide (s < 24) && decide (k % 2 ^ 22 < ctrStride s * ctrInstances s) then some s else none

/-- Is the 8-byte word at an address of the register map or the counter space mapped (R740, R745)? -/
def regMapped (a : Nat) : Bool :=
  inBlock a 0x0 64 || inBlock a 0x100 16 || inBlock a 0x200 16 || inBlock a 0x300 16 || inBlock a 0x1000 4096 ||
  inBlock a 0x2000 512 || inBlock a 0x2200 96 || inBlock a 0x2300 128 || inBlock a 0x2380 8 || inBlock a 0x2400 512 ||
  inBlock a 0x2600 8 || inBlock a 0x2800 208 || inBlock a 0x3000 2304 || inBlock a 0x4000 18432 ||
  inBlock a 0x10000 8264 || inBlock a 0x80000 524288 || (ctrScopeAt a).isSome

/-- The word at a mapped address. `ppm` is the free word behind CLK_STATUS. -/
def regWord (d : Dev) (ppm : W64) (a : Nat) : W64 :=
  if 0x80000000 ≤ a then ctrShown d ((a - 0x80000000) / 8)
  else if a < 0x40 then identityWord d (a / 8)
  else if inBlock a 0x100 16 then startWord d ((a - 0x100) / 8)
  else if inBlock a 0x200 16 then clkWord d ppm ((a - 0x200) / 8)
  else if a = 0x300 then d.fabric.cfg
  else if a = 0x308 then d.fabric.cfgRun
  else if inBlock a 0x1000 4096 then SMap.getD d.fabric.map ((a - 0x1000) / 8) 0
  else if inBlock a 0x2000 512 then SMap.getD d.fabric.jobPairs ((a - 0x2000) / 8) 0
  else if inBlock a 0x2200 96 then SMap.getD d.mgmt.addr ((a - 0x2200) / 8) 0
  else if inBlock a 0x2300 128 then bypassWord d ((a - 0x2300) / 8)
  else if a = 0x2380 then bypassCtrl d
  else if inBlock a 0x2400 512 then poolWord d ((a - 0x2400) / 8)
  else if a = 0x2600 then mkWord [(d.mgmt.nextTseq, 32), (d.mgmt.readTseq, 0)]
  else if inBlock a 0x2800 208 then retainedWord d ((a - 0x2800) / 16) ((a - 0x2800) / 8 % 2)
  else if inBlock a 0x3000 2304 then linkWord d ((a - 0x3000) / 8)
  else if inBlock a 0x4000 18432 then captureWord d ((a - 0x4000) / 64) ((a - 0x4000) / 8 % 8)
  else if inBlock a 0x10000 8264 then spareWord d ((a - 0x10000) / 8)
  else if inBlock a 0x80000 524288 then trapWord d ((a - 0x80000) / 64) ((a - 0x80000) / 8 % 8)
  else 0

/-- Job a counter word is attributed to (R741, Table 23-5): `none` for no job-attributed scope, `some none` for a word of
a FREE context. -/
def ctrJob (d : Dev) (key : Nat) : Option (Option Nat) :=
  let s := key / 2 ^ 22
  let i := key % 2 ^ 22 / ctrStride s
  match s with
  | 1 => some (some i)
  | 2 => some (getCtx d i).holder
  | 3 => some (some (i / 4096))
  | 12 => some (some (i / 64))
  | 13 => some (some (i / 16))
  | 14 => some (some (i / 18))
  | _ => none

/-- The word as a reader with a job mask sees it (R741): `mask = none` for an operator. -/
def regWordFor (d : Dev) (mask : Option W64) (ppm : W64) (a : Nat) : W64 :=
  let seen (j : Nat) : Bool := match mask with | none => true | some m => flag m j
  let w := regWord d ppm a
  if 0x80000000 ≤ a then
    match ctrJob d ((a - 0x80000000) / 8) with
    | none => w
    | some none => 0
    | some (some j) => if seen j then w else 0
  else if inBlock a 0x80000 524288 then
    let w0 := trapWord d ((a - 0x80000) / 64) 0
    if flag w0 17 && !seen (field w0 23 18) then 0 else w
  else w

/-- Blocks of a job window (Table 23-7): (offset, first counter word, words). -/
def windowBlocks (j : Nat) : List (Nat × Nat × Nat) :=
  [ (0x0, ctrKey 1 j 0, ctrStride 1), (0x10000, ctrKey 12 (64 * j) 0, 64 * ctrStride 12)
  , (0x20000, ctrKey 13 (16 * j) 0, 16 * ctrStride 13), (0x30000, ctrKey 14 (18 * j) 0, 18 * ctrStride 14)
  , (0x1000000, ctrKey 2 0 0, 16384 * ctrStride 2), (0x2000000, ctrKey 3 (4096 * j) 0, 4096 * ctrStride 3) ]

/-- The counter word behind a window address, if one of the counter blocks holds it. -/
def windowKey (j a : Nat) : Option Nat :=
  ((windowBlocks j).find? fun b => inBlock a b.1 (8 * b.2.2)).map fun b => b.2.1 + (a - b.1) / 8

/-- The word of a job window (R748), REPLAY_STATUS apart: context words of contexts the job does not hold read 0. -/
def windowWord (d : Dev) (j a : Nat) : Option W64 :=
  match windowKey j a with
  | none => none
  | some k =>
    if k / 2 ^ 22 = 2 && (getCtx d (k % 2 ^ 22 / ctrStride 2)).holder != some j then some 0 else some (ctrShown d k)

end Sys2Proof.Machine
end

