-- ==== Sys2Proof/Machine/Power.lean ====
section
/-!
DEFINITION. Sys2Proof/Machine/Power.lean: the power stage and its PMBus, SMBus identity, the test access port, shutdowns and
restarts, warnings and the reference clock (chapter 22, R742).
-/
namespace Sys2Proof.Machine

/-! ## Reset, shutdown, start -/

/-- Every pair JOINED, holds dropped (R579, R691). -/
def joinAll (d : Dev) : List Pair :=
  d.fabric.pairs.map fun q => { changeAt := if q.st == .joined then q.changeAt else d.nowUs }

/-- What survives a loss of power or a reset (R691): retained flash, what manufacture fixed, the power stage, the reference
input and the time; the free-value count and the output log are the model's own. Pools 60 and 63 are open (R600). -/
def wipeDev (d : Dev) : Dev :=
  { nowUs := d.nowUs, fac := d.fac, power := { d.power with hbArmed := false, hot := [], inputExc := false }
    flash := { d.flash with a := { d.flash.a with bad := false }, b := { d.flash.b with bad := false }
                            waits := [], waitAt := none, waitTrap := false }
    clocks := { refOk := d.clocks.refOk, refAt := d.clocks.refAt }
    fabric := { pairs := joinAll d }
    pools := { opened := [60, 63] }
    mgmt := { out := d.mgmt.out }
    freeCtr := d.freeCtr }

/-- Start-up begins at POWER; its origin is now (R692, R715). -/
def beginStart (d : Dev) (restarts : Nat) : Dev :=
  let w := wipeDev d
  { w with
    start := { phase := .power, origin := d.nowUs, phaseAt := d.nowUs, restarts := restarts }
    power := { w.power with down := none, due := false, locked := false, answerAt := d.nowUs + 5000 } }

/-- May the power stage start now: input in range, not held off, not in scan, not locked off (R715, R724)? -/
def mayStart (d : Dev) : Bool :=
  d.power.input == .ok && !d.power.opOff && !d.power.scanEn && !d.power.locked

/-- The power stage starts again once the restart condition of the shutdown has been met and nothing holds the module off
(Table 22-2, R724). A restart after a loss of input power goes on counting RESTARTS (R705). -/
def tryStart (d : Dev) : Dev :=
  if d.power.due && mayStart d then beginStart d (if d.power.down == some 1 then d.start.restarts else 0) else d

/-- Reset at ROM with the input in range (R692). POWER is past, so an absent reference leaves the PLLs in holdover (R728). -/
def resetModule (d : Dev) : Dev :=
  let w := wipeDev d
  { w with
    start := { phase := .rom, origin := d.nowUs, phaseAt := d.nowUs }
    clocks := { refOk := d.clocks.refOk, refAt := d.clocks.refAt, holdover := !d.clocks.refOk, holdAt := d.nowUs } }

/-- Is the module powered? -/
def powered (d : Dev) : Bool := d.power.down.isNone && (d.power.input == .ok || d.power.input == .high)

/-- Is a start-up in progress (R705)? -/
def startingUp (d : Dev) : Bool := d.start.phase != .ready && d.start.phase != .failed

/-- The power stage shuts the module down (R715): rails off, module in reset, pairs joined, the cause latched (R718). A
shutdown already in force stays as it is; of two in one cycle the lower cause counts (Table 22-14). Events of one microsecond are taken
as one cycle (DESIGN CHOICE, log 98). -/
def shutdown (d : Dev) (cause : Nat) : Dev :=
  match d.power.down with
  | some c =>
    if d.power.downAt = d.nowUs && decide (cause < c) then
      { d with power := { d.power with down := some cause, latch := cause, mfrCause := cause } }
    else d
  | none =>
    let w := wipeDev d
    { w with
      start := { phase := .power, restarts := if cause = 1 && startingUp d then d.start.restarts + 1 else 0
                 origin := d.start.origin }
      power := { w.power with down := some cause, downAt := d.nowUs, due := false, latch := cause, mfrCause := cause } }

/-- Change the power stage. -/
def updPower (d : Dev) (f : Power → Power) : Dev := { d with power := f d.power }

/-! ## PMBus (R722 to R724) -/

/-- Does the PMBus device answer (R722)? -/
def pmbusOn (d : Dev) : Bool :=
  (d.power.input == .ok || d.power.input == .high) && decide (d.power.answerAt ≤ d.nowUs)

/-- A PMBus command: not acknowledged while the device does not answer. -/
def pmbus (s : State) (f : Dev → Dev) : Host.Outcome State Fault Refusal :=
  onDev s fun d => if pmbusOn d then f d else output d .pmbusNack

/-- Set bits of STATUS_CML: 0x80 unsupported command, 0x40 invalid data (log 11). -/
def setCml (d : Dev) (b : Byte) : Dev := updPower d fun p => { p with stCml := p.stCml ||| b }

/-- An unsupported command (R722). -/
def pmbusRefuse (d : Dev) : Dev := output (setCml d 0x80) .pmbusNack

/-- Answer bytes. -/
def pmbusAnswer (d : Dev) (bs : List Byte) : Dev := output d (.pmbus bs)

/-- STATUS_WORD from the status registers, in the PMBus bit places (log 11). -/
def statusWord (p : Power) : Nat :=
  2 ^ 15 * bit (p.stVout != 0) + 2 ^ 14 * bit (p.stIout != 0) + 2 ^ 13 * bit (p.stInput != 0) +
  2 ^ 11 * bit p.down.isSome + 2 ^ 6 * bit p.down.isSome + 2 ^ 5 * bit (p.stVout.getLsbD 7) +
  2 ^ 4 * bit (p.stIout.getLsbD 7) + 2 ^ 3 * bit (p.stInput.getLsbD 4) + 2 ^ 2 * bit (p.stTemp != 0) + 2 * bit (p.stCml != 0)

/-- Setting of a rail in 2^-12 V (Table 22-5, LINEAR16 with exponent −12), and the largest deviation of its reading: ±5 % beyond which
the module shuts down (Table 22-2), of which the reading is within ±1 % (R723). -/
def railSet (page : Nat) : Nat :=
  match page with
  | 1 => 3072
  | 2 => 4506
  | 3 => 3686
  | 4 => 13517
  | _ => 7373

/-- A reading as measured now, from a free word: the rails are off in a shutdown, a rail's voltage is near its setting; else the
quantity is one the model does not have (R723; log 102). -/
def measured (d : Dev) (code : Nat) (w : W64) : Nat :=
  let off := match d.power.down with | some _ => decide (d.power.downAt / 10000 < d.nowUs / 10000) | none => false
  if d.power.page = 0 then w.toNat % 65536
  else if off then 0
  else if code = 0x8B then
    let v := railSet d.power.page
    v - v * 595 / 10000 + w.toNat % (2 * (v * 595 / 10000) + 1)
  else w.toNat % 65536

/-- Measure, and keep the reading for its 10 ms. -/
def freshReading (d : Dev) (code key now : Nat) : Nat × Dev :=
  let (x, d1) := drawFree d
  let w := measured d code x
  (w, updPower d1 fun p => { p with readings := SMap.set p.readings key (now, w) })

/-- A two-byte reading, on page 0 or on pages 1 to 5. Readings refresh every 10 ms: within them one value is read (R723). -/
def pmbusReading (d : Dev) (code : Nat) (page0 : Bool) : Dev :=
  if (d.power.page == 0) != page0 then pmbusRefuse d
  else
    let key := 8 * code + d.power.page
    let now := d.nowUs / 10000
    let (w, d1) :=
      match SMap.get? d.power.readings key with
      | some r => if r.1 = now then (r.2, d) else freshReading d code key now
      | none => freshReading d code key now
    pmbusAnswer d1 [BitVec.ofNat 8 w, BitVec.ofNat 8 (w / 256)]

/-- ASCII bytes. -/
def asciiBytes (s : String) : List Byte := s.toList.map fun c => BitVec.ofNat 8 c.toNat

/-- Sixteen upper-case hexadecimal digits of a word, highest first. -/
def hexBytes (w : W64) : List Byte :=
  (List.range 16).map fun i =>
    let n := field w (63 - 4 * i) (60 - 4 * i)
    BitVec.ofNat 8 (if n < 10 then 48 + n else 55 + n)

/-- PAGE (Table 22-4): read, or write a page from 0 to 5; another value is invalid data. -/
def execPage (value : Option Nat) (s : State) : Host.Outcome State Fault Refusal :=
  pmbus s fun d =>
    match value with
    | none => pmbusAnswer d [BitVec.ofNat 8 d.power.page]
    | some v => if v ≤ 5 then updPower d fun p => { p with page := v } else setCml d 0x40

/-- OPERATION 0x00 (R724): shutdown with cause 6; the module is held off. -/
def execOperationOff (s : State) : Host.Outcome State Fault Refusal :=
  pmbus s fun d => updPower (shutdown d 6) fun p => { p with opOff := true }

/-- OPERATION 0x80 (R724): accepted with the input in its range; it ends a hold by command, and after it a lock that a fourth restart
left. A shutdown of another cause stays in force until its own condition is met. Below 40 V it is refused with CML (Table 22-14). -/
def execOperationOn (s : State) : Host.Outcome State Fault Refusal :=
  onDev s fun d =>
    if d.power.input == .low then output (setCml d 0x40) .pmbusNack
    else if !pmbusOn d then output d .pmbusNack
    else if d.power.input != .ok then setCml d 0x40
    else if d.power.opOff then
      tryStart (updPower d fun p => { p with opOff := false, locked := false, due := p.due || p.locked || p.down == some 6 })
    else d

/-- CLEAR_FAULTS (R724): STATUS bits and the latch; a shutdown in force stays in force. -/
def execClearFaults (s : State) : Host.Outcome State Fault Refusal :=
  pmbus s fun d => updPower d fun p =>
    { p with stVout := 0, stIout := 0, stInput := 0, stTemp := 0, stCml := 0,
             latch := 0, mfrCause := 0 }

/-- VOUT_MODE (Table 22-4): LINEAR16 with exponent -12. -/
def execVoutMode (s : State) : Host.Outcome State Fault Refusal := pmbus s fun d => pmbusAnswer d [0x14]

/-- STATUS_WORD. -/
def execStatusWord (s : State) : Host.Outcome State Fault Refusal :=
  pmbus s fun d =>
    let w := statusWord d.power
    pmbusAnswer d [BitVec.ofNat 8 w, BitVec.ofNat 8 (w / 256)]

/-- STATUS_VOUT. -/
def execStatusVout (s : State) : Host.Outcome State Fault Refusal := pmbus s fun d => pmbusAnswer d [d.power.stVout]
/-- STATUS_IOUT. -/
def execStatusIout (s : State) : Host.Outcome State Fault Refusal := pmbus s fun d => pmbusAnswer d [d.power.stIout]
/-- STATUS_INPUT. -/
def execStatusInput (s : State) : Host.Outcome State Fault Refusal := pmbus s fun d => pmbusAnswer d [d.power.stInput]
/-- STATUS_TEMPERATURE. -/
def execStatusTemperature (s : State) : Host.Outcome State Fault Refusal := pmbus s fun d => pmbusAnswer d [d.power.stTemp]
/-- STATUS_CML. -/
def execStatusCml (s : State) : Host.Outcome State Fault Refusal := pmbus s fun d => pmbusAnswer d [d.power.stCml]
/-- READ_VIN, page 0. -/
def execReadVin (s : State) : Host.Outcome State Fault Refusal := pmbus s fun d => pmbusReading d 0x88 true
/-- READ_IIN, page 0. -/
def execReadIin (s : State) : Host.Outcome State Fault Refusal := pmbus s fun d => pmbusReading d 0x89 true
/-- READ_VOUT, pages 1 to 5. -/
def execReadVout (s : State) : Host.Outcome State Fault Refusal := pmbus s fun d => pmbusReading d 0x8B false
/-- READ_IOUT, pages 1 to 5. -/
def execReadIout (s : State) : Host.Outcome State Fault Refusal := pmbus s fun d => pmbusReading d 0x8C false
/-- READ_TEMPERATURE_1, page 0. -/
def execReadTemperature1 (s : State) : Host.Outcome State Fault Refusal := pmbus s fun d => pmbusReading d 0x8D true
/-- READ_TEMPERATURE_2, page 0. -/
def execReadTemperature2 (s : State) : Host.Outcome State Fault Refusal := pmbus s fun d => pmbusReading d 0x8E true
/-- READ_TEMPERATURE_3, page 0. -/
def execReadTemperature3 (s : State) : Host.Outcome State Fault Refusal := pmbus s fun d => pmbusReading d 0x8F true
/-- READ_POUT, pages 1 to 5. -/
def execReadPout (s : State) : Host.Outcome State Fault Refusal := pmbus s fun d => pmbusReading d 0x96 false
/-- READ_PIN, page 0. -/
def execReadPin (s : State) : Host.Outcome State Fault Refusal := pmbus s fun d => pmbusReading d 0x97 true
/-- PMBUS_REVISION. -/
def execPmbusRevision (s : State) : Host.Outcome State Fault Refusal := pmbus s fun d => pmbusAnswer d [0x33]
/-- MFR_ID. -/
def execMfrId (s : State) : Host.Outcome State Fault Refusal := pmbus s fun d => pmbusAnswer d (asciiBytes "WALUETRIC")
/-- MFR_MODEL. -/
def execMfrModel (s : State) : Host.Outcome State Fault Refusal := pmbus s fun d => pmbusAnswer d (asciiBytes "LM-3288-A")
/-- MFR_SERIAL: the serial in hexadecimal (sixteen digits, log 12). -/
def execMfrSerial (s : State) : Host.Outcome State Fault Refusal := pmbus s fun d => pmbusAnswer d (hexBytes d.fac.serial)
/-- MFR_SHUTDOWN_CAUSE. -/
def execMfrShutdownCause (s : State) : Host.Outcome State Fault Refusal :=
  pmbus s fun d => pmbusAnswer d [BitVec.ofNat 8 d.power.mfrCause]

/-- Any other PMBus command (R722): not acknowledged, CML set, no effect. A read of OPERATION (R724) and a write of another
value to it come here too, as the table gives them no row of their own. -/
def execPmbusUnsupported (code : Byte) (value : Option Byte) (s : State) : Host.Outcome State Fault Refusal :=
  pmbus s fun d =>
    match code.toNat, value with
    | 1, none => pmbusAnswer d [if d.power.opOff then 0x00 else 0x80]
    | 1, some _ => setCml d 0x40
    | _, _ => pmbusRefuse d

/-! ## SMBus identity (R742) -/

/-- The byte at a command-code offset. -/
def smbusByte (d : Dev) (off : Nat) : Byte :=
  if off < 0x40 then BitVec.ofNat 8 ((identityWord d (off / 8)).toNat / 256 ^ (off % 8))
  else if off < 0x50 then BitVec.ofNat 8 ((startWord d ((off - 0x40) / 8)).toNat / 256 ^ (off % 8))
  else 0xFF

/-- Bytes from an offset on. -/
def smbusBytes (d : Dev) (off n : Nat) : List Byte := (rangeFrom off n).map (smbusByte d)

/-- Does SMBus answer: as PMBus does (R742), while its clock runs (Table 22-8)? -/
def smbusOn (d : Dev) : Bool := pmbusOn d && !d.clocks.lost.contains 39

/-- SMBus Read Byte. -/
def execSmbusReadByte (offset : Nat) (s : State) : Host.Outcome State Fault Refusal :=
  onUnit (offset < 256) s fun d => if smbusOn d then pmbusAnswer d (smbusBytes d offset 1) else output d .pmbusNack

/-- SMBus Read Word. -/
def execSmbusReadWord (offset : Nat) (s : State) : Host.Outcome State Fault Refusal :=
  onUnit (offset < 256) s fun d => if smbusOn d then pmbusAnswer d (smbusBytes d offset 2) else output d .pmbusNack

/-- SMBus Block Read of up to 32 bytes. -/
def execSmbusBlockRead (offset len : Nat) (s : State) : Host.Outcome State Fault Refusal :=
  onUnit (offset < 256 && len ≤ 32) s fun d =>
    if smbusOn d then pmbusAnswer d (smbusBytes d offset len) else output d .pmbusNack

/-! ## The test access port (R735) -/

/-- A test-port instruction: nothing happens unless SCAN_EN is asserted. -/
def scan (s : State) (f : Dev → Dev) : Host.Outcome State Fault Refusal :=
  onDev s fun d => if d.power.scanEn then f d else d

/-- BYPASS: the one-bit bypass register, which captures 0, lies between TDI and TDO. -/
def execJtagBypass (s : State) : Host.Outcome State Fault Refusal :=
  scan s fun d => output (updPower d fun p => { p with tap := 0 }) (.tap 0 1)

/-- IDCODE: 0x1328_855D. -/
def execIdcode (s : State) : Host.Outcome State Fault Refusal :=
  scan s fun d => output (updPower d fun p => { p with tap := 1 }) (.tap 0x1328855D 32)

/-- Signals of the blade connector except power, in the order of Table 22-12, which the boundary-scan register covers: the reference
pair, 2 × 4 lanes each way in pairs, PMBus, SMBus, scan and address (R735; the order is a DESIGN CHOICE, log 103). -/
def bladeSignals : Nat := 2 + 32 + 3 + 3 + 6 + 2

/-- The number that bits stand for, the first lowest. -/
def bitsNat : List Bool → Nat
  | [] => 0
  | b :: r => bit b + 2 * bitsNat r

/-- SAMPLE/PRELOAD: the signals are captured, a free value, and as many bits are shifted out as are shifted in: these stay in the
boundary-scan register as its preload. -/
def execSamplePreload (bits : List Bool) (s : State) : Host.Outcome State Fault Refusal :=
  scan s fun d =>
    let (w, d1) := drawFree d
    let line := (List.range bladeSignals).map w.getLsbD ++ bits
    output (updPower d1 fun p => { p with tap := 2, bsr := line.drop bits.length }) (.tap (bitsNat (line.take bits.length)) bits.length)

/-- EXTEST: the boundary-scan register drives the signals. -/
def execExtest (s : State) : Host.Outcome State Fault Refusal :=
  scan s fun d => output (updPower d fun p => { p with tap := 3 }) (.pins (some d.power.bsr))

/-- HIGHZ: the signals float. -/
def execHighz (s : State) : Host.Outcome State Fault Refusal :=
  scan s fun d => output (updPower d fun p => { p with tap := 4 }) (.pins none)

/-- SCAN_EN asserted: shutdown with cause 7; the test port is active. -/
def execScanEnAssert (s : State) : Host.Outcome State Fault Refusal :=
  onDev s fun d => updPower (shutdown d 7) fun p => { p with scanEn := true, tap := 1 }

/-- SCAN_EN released: a shutdown of cause 7 ends, and one whose condition was met under SCAN_EN; start-up begins at POWER
(Table 22-2). -/
def execScanEnRelease (s : State) : Host.Outcome State Fault Refusal :=
  onDev s fun d => tryStart (updPower d fun p => { p with scanEn := false, due := p.due || p.down == some 7 })

/-! ## The 48 V input -/

/-- The input rises through 40 V (R705): start-up begins at POWER, unless the module is held off. -/
def execInputRise (s : State) : Host.Outcome State Fault Refusal :=
  onDev s fun d =>
    if d.power.input == .ok || d.power.input == .high then d
    else tryStart (updPower d fun p => { p with input := .ok, locked := false, due := true })

/-- The power stage as a total loss of input power leaves it (R691, R718): it holds nothing but what the connector shows. -/
def lostPower (p : Power) (now : Nat) : Power :=
  { input := .below10, down := some 1, downAt := now, scanEn := p.scanEn }

/-- The input below 40 V for more than 100 µs: cause 1; below 10 V the power stage keeps nothing (R691, R718). A record write that
this interrupts is torn (R705, R711). -/
def execInputLow (fall : InputFall) (s : State) : Host.Outcome State Fault Refusal :=
  onDev s fun d =>
    let d0 := match fall.torn with | some t => if powered d then tearWrite d t else d | none => d
    updPower (shutdown d0 1) fun p => if fall.below10 then lostPower p d.nowUs else { p with input := .low, stInput := p.stInput ||| 0x10 }

/-- A dip of at most 100 µs has no effect (Table 22-1). -/
def execInputDip (s : State) : Host.Outcome State Fault Refusal := onDev s fun d => d

/-- The input above 59.5 V for more than 1 ms: cause 2. -/
def execInputHigh (s : State) : Host.Outcome State Fault Refusal :=
  onDev s fun d => updPower (shutdown d 2) fun p => { p with input := .high, stInput := p.stInput ||| 0x80 }

/-- The input falls below 59.5 V: a shutdown of cause 2 ends. -/
def execInputHighClear (s : State) : Host.Outcome State Fault Refusal :=
  onDev s fun d =>
    if d.power.input != .high then d
    else tryStart (updPower d fun p => { p with input := .ok, due := p.due || p.down == some 2 })

/-- Input current above 150 A for 1 ms: cause 3. -/
def execOvercurrent (s : State) : Host.Outcome State Fault Refusal :=
  onDev s fun d => updPower (shutdown d 3) fun p => { p with stInput := p.stInput ||| 0x04 }

/-- A rail outside ±5 %: cause 8. Which of the over- and undervoltage bits is set depends on the rail: a free value. -/
def execRailFault (s : State) : Host.Outcome State Fault Refusal :=
  onDev s fun d =>
    let (w, d1) := drawFree d
    updPower (shutdown d1 8) fun p => { p with stVout := p.stVout ||| (if w.getLsbD 0 then 0x80 else 0x10) }

/-- Restarts under causes 3, 5 and 8 within the last ten minutes (R715). -/
def recentRestarts (d : Dev) : List Nat := d.power.restarts.filter fun t => decide (d.nowUs < t + 600000000)

/-- One second after a shutdown of cause 3, 5 or 8 the power stage starts again; a fourth restart within ten minutes does
not take place (R715). -/
def execShutdownRestart (s : State) : Host.Outcome State Fault Refusal :=
  onDev s fun d =>
    let c := d.power.down.getD 0
    if (c == 3 || c == 5 || c == 8) && decide (d.power.downAt + 1000000 ≤ d.nowUs) && mayStart d then
      if 3 ≤ (recentRestarts d).length then updPower d fun p => { p with locked := true }
      else beginStart (updPower d fun p => { p with restarts := recentRestarts d ++ [d.nowUs] }) 0
    else d

/-- The clock-root helper writes the heartbeat (R716). -/
def execHeartbeat (s : State) : Host.Outcome State Fault Refusal :=
  onDev s fun d => if powered d then updPower d fun p => { p with hbAt := d.nowUs } else d

/-- The heartbeat missing for 10 ms: cause 5, once the watch is armed (R716). -/
def execHeartbeatMissing (s : State) : Host.Outcome State Fault Refusal :=
  onDev s fun d => if d.power.hbArmed && decide (d.power.hbAt + 10000 ≤ d.nowUs) then shutdown d 5 else d

/-- A die at 110 °C or an engine at 85 °C: cause 4. The restart of a thermal shutdown waits for a new recovery. -/
def execOverTemperature (s : State) : Host.Outcome State Fault Refusal :=
  onDev s fun d => updPower (shutdown d 4) fun p => { p with stTemp := p.stTemp ||| 0x80, due := p.due && p.down != some 4 }

/-- The hottest die sensor at or below 90 °C: a thermal shutdown ends. -/
def execTempRecovered (s : State) : Host.Outcome State Fault Refusal :=
  onDev s fun d => if d.power.down == some 4 then tryStart (updPower d fun p => { p with due := true }) else d

/-- A sensor or the coolant inlet crosses its warning level (R731), once per excursion. The record names a die; an engine and the
coolant inlet are no unit kind of Table 23-8 (R750). Sensors: d of Table 19-12 for dies
(31 is K), 64 + engine, 200 for the coolant inlet; `above` false ends the excursion. -/
def execThermalWarn (sensor : Nat) (above : Bool) (s : State) : Host.Outcome State Fault Refusal :=
  onUnit (sensor < 32 || (64 ≤ sensor && sensor < 100) || sensor == 200) s fun d =>
    if !powered d then d
    else if !above then updPower d fun p => { p with hot := delNat sensor p.hot }
    else if d.power.hot.contains sensor then d
    else
      let d1 := updPower d fun p => { p with hot := insNat sensor p.hot, stTemp := p.stTemp ||| 0x40 }
      raiseTrap (bump d1 ctrThermWarn 0)
        (if sensor < 32 then { cause := 0xF2, kind := 5, unit := sensor } else { cause := 0xF2 })

/-- The input near a limit of its range for more than 1 s (R739), once per excursion; `near` false ends it. -/
def execInputWarn (near : Bool) (s : State) : Host.Outcome State Fault Refusal :=
  onDev s fun d =>
    if !powered d then d
    else if !near then updPower d fun p => { p with inputExc := false }
    else if d.power.inputExc then d
    else raiseTrap (bump (updPower d fun p => { p with inputExc := true }) ctrInputWarn 0) { cause := 0xF3 }

/-- A reset with the input in range (R692). -/
def execModuleReset (s : State) : Host.Outcome State Fault Refusal :=
  onDev s fun d => if powered d then resetModule d else d

/-! ## The reference clock (R728) -/

/-- Change the clocks. -/
def updClocks (d : Dev) (f : Clocks → Clocks) : Dev := { d with clocks := f d.clocks }

/-- The reference is lost: after POWER every PLL goes to holdover, or stays on it. -/
def execRefClockLoss (s : State) : Host.Outcome State Fault Refusal :=
  onDev s fun d =>
    if !d.clocks.refOk then d
    else
      let d1 := updClocks d fun c => { c with refOk := false }
      if !powered d || d.start.phase == .power then d1
      else
        raiseTrap (bump (updClocks d1 fun c =>
          { c with holdover := true, slewing := false, holdAt := if c.holdover then c.holdAt else d.nowUs }) ctrRefLoss 0)
          { cause := 0xF0 }

/-- The reference is detected again (Table 22-6); once it has been present for 100 ms the clock root slews back (log 13), and the
holdover's milliseconds are counted. -/
def execRefClockReturn (s : State) : Host.Outcome State Fault Refusal :=
  onDev s fun d =>
    if !d.clocks.refOk then updClocks d fun c => { c with refOk := true, refAt := d.nowUs }
    else if d.clocks.holdover && decide (d.clocks.refAt + 100000 ≤ d.nowUs) then
      updClocks (bumpBy d ctrHoldoverMs 0 (holdoverMs d)) fun c => { c with slewing := true, holdover := false }
    else d

/-- The slew ends. -/
def execSlewComplete (s : State) : Host.Outcome State Fault Refusal :=
  onDev s fun d => updClocks d fun c => { c with slewing := false }

end Sys2Proof.Machine
end

