-- ==== Sys2Proof/Machine/Telemetry.lean ====
section
/-!
DEFINITION. Sys2Proof/Machine/Telemetry.lean: the release of trap records (R749), the periodic telemetry streams (R751, R752)
and the management network (R707, R734).
-/
namespace Sys2Proof.Machine

/-! ## Trap records -/

/-- Release the record at READ_TSEQ and advance it by one. -/
def releaseTrap (d : Dev) : Dev :=
  let q := d.mgmt.readTseq
  let d1 := match SMap.get? d.mgmt.traps (q % 8192) with
    | some r => poolRelease d r.handle
    | none => d
  updMgmt d1 fun m => { m with traps := SMap.del m.traps (q % 8192), readTseq := (q + 1) % 2 ^ 32 }

/-- Release `n` records. -/
def releaseTraps : Nat → Dev → Dev
  | 0, d => d
  | n + 1, d => releaseTraps n (releaseTrap d)

/-- A write of TRAP_CTL (R749). -/
def writeTrapCtl (d : Dev) (v : Nat) : Dev :=
  let gap := (v + 2 ^ 32 - d.mgmt.readTseq) % 2 ^ 32
  let have_ := (d.mgmt.nextTseq + 2 ^ 32 - d.mgmt.readTseq) % 2 ^ 32
  if have_ < gap then bump d ctrTrapAckBad 0 else releaseTraps gap d

/-- The record at READ_TSEQ held for 600 s is released (R749). -/
def execTrapAge (s : State) : Host.Outcome State Fault Refusal :=
  onDev s fun d =>
    match SMap.get? d.mgmt.traps (d.mgmt.readTseq % 8192) with
    | some r =>
      if d.mgmt.readTseq != d.mgmt.nextTseq && decide (r.at_ + 600000000 ≤ d.nowUs) then
        bump (releaseTrap d) ctrTrapAged 0
      else d
    | none => d

/-! ## Periodic streams -/

/-- Free words. -/
def drawWords : Nat → Dev → List W64 × Dev
  | 0, d => ([], d)
  | n + 1, d =>
    let (w, d1) := drawFree d
    let (r, d2) := drawWords n d1
    (w :: r, d2)

/-- Counter words of an instance range of a scope. -/
def ctrWords (d : Dev) (scope i n : Nat) : List W64 :=
  (rangeFrom (ctrKey scope i 0) (n * ctrStride scope)).map (ctrShown d)

/-- Content of a periodic stream (Table 23-9); the readings of the power stage are free values. -/
def streamWords (d : Dev) (stream : Nat) : List W64 × Dev :=
  match stream with
  | 1 => ((List.range 288).map (linkWord d), d)
  | 2 => ((List.range 16).map (bypassWord d) ++ [bypassCtrl d], d)
  | 3 =>
    let (r, d1) := drawWords 22 d
    ([startWord d 0, startWord d 1, clkWord d (wordAt r 0) 0, clkWord d (wordAt r 0) 1] ++ r.drop 1, d1)
  | 4 => ((List.range 64).map (poolWord d), d)
  | 5 => (ctrWords d 0 0 1, d)
  | 6 => ((SMap.keys d.jobs).flatMap fun j => BitVec.ofNat 64 j :: ctrWords d 1 j 1, d)
  | _ => (ctrWords d 4 0 288 ++ ctrWords d 5 0 2304, d)

/-- The datagrams of a snapshot, 1,408 content bytes (176 words) each; `fuel` of them. -/
def snapDatagrams (head : Nat → List W64) : Nat → Nat → List W64 → List (List W64)
  | 0, _, _ => []
  | fuel + 1, off, ws => if ws.isEmpty then [] else (head off ++ ws.take 176) :: snapDatagrams head fuel (off + 1408) (ws.drop 176)

/-- A snapshot of a stream is taken for a sink, or skipped while the one before it has not been sent in full (R752). -/
def takeSnapshot (sink stream : Nat) (d : Dev) : Dev :=
  match SMap.get? d.mgmt.sinks sink with
  | none => d
  | some k =>
    if k.mask / 2 ^ stream % 2 = 0 then d
    else if k.unsent.any fun e => e.1 == stream then bump d ctrTelemSkip sink
    else
      let (ws, d1) := streamWords d stream
      let gs := snapDatagrams (fun off => telemHeader d1.fac stream sink k.seq (timeUs d1) off (8 * ws.length)) 512 0 ws
      updMgmt d1 fun m => { m with sinks := SMap.set m.sinks sink { k with unsent := k.unsent ++ gs.map fun g => (stream, g) } }

/-- At a PERIOD_US boundary of a sink, one snapshot of each periodic stream of its mask (R752). -/
def execTelemetryPeriod (sink : Nat) (s : State) : Host.Outcome State Fault Refusal :=
  onUnit (sink < 4) s fun d =>
    match SMap.get? d.mgmt.sinks sink with
    | none => d
    | some k =>
      if k.period = 0 || d.nowUs < k.lastAt + k.period then d
      else
        updMgmt (forEach [1, 2, 3, 4, 5, 6, 7] d fun d' b => takeSnapshot sink b d') fun m =>
          { m with sinks := SMap.upd m.sinks sink fun k => { k with seq := (k.seq + 1) % 2 ^ 32, lastAt := k.lastAt + k.period } }

/-- A sink sends the next datagrams of its snapshots: eight, about a microsecond of a 100 Gb/s port (DESIGN CHOICE, log 105). -/
def sendUnsent (d : Dev) (sink : Nat) : Dev :=
  match SMap.get? d.mgmt.sinks sink with
  | none => d
  | some k =>
    if k.unsent.isEmpty then d
    else
      forEach (k.unsent.take 8) (updMgmt d fun m => { m with sinks := SMap.set m.sinks sink { k with unsent := k.unsent.drop 8 } })
        fun d' e => telemSend d' sink k e.2

/-! ## The management network -/

/-- Word `i` of the MGMT_ADDR entry of a port in force (Table 21-6). -/
def addrWord (d : Dev) (port i : Nat) : W64 := SMap.getD d.mgmt.addrRun (6 * port + i) 0

/-- Static IPv4 address of a port; 0 = none, or a prefix length out of range (R707). -/
def ipv4Of (d : Dev) (port : Nat) : W32 :=
  let p := field (addrWord d port 5) 7 0
  if 1 ≤ p && p ≤ 32 then BitVec.ofNat 32 (addrWord d port 4).toNat else 0

/-- Static IPv6 address of a port, bytes in wire order from bit 0; 0 = none or unusable. -/
def ipv6Of (d : Dev) (port : Nat) : BitVec 128 :=
  let p := field (addrWord d port 5) 15 8
  if 1 ≤ p && p ≤ 128 then BitVec.ofNat 128 ((addrWord d port 0).toNat + 2 ^ 64 * (addrWord d port 1).toNat) else 0

/-- MAC address of a management port. -/
def macOf (d : Dev) (port : Nat) : BitVec 48 := if port = 0 then d.fac.mac0 else d.fac.mac1

/-- IPv6 link-local address of a port: modified EUI-64 of its MAC (R707). -/
def linkLocalOf (d : Dev) (port : Nat) : BitVec 128 :=
  let m := (macOf d port).toNat
  let b (i : Nat) : Nat := m / 256 ^ i % 256
  let ident := (b 0 ^^^ 2) + 2 ^ 8 * b 1 + 2 ^ 16 * b 2 + 2 ^ 24 * 0xFF + 2 ^ 32 * 0xFE + 2 ^ 40 * b 3 + 2 ^ 48 * b 4 + 2 ^ 56 * b 5
  BitVec.ofNat 128 (0x80FE + 2 ^ 64 * ident)

/-- The key of an address of a port, if it is one: 0 IPv4 (IPv4-mapped), 1 link-local, 2 static IPv6. -/
def addrKey (d : Dev) (port : Nat) (a : BitVec 128) : Option Nat :=
  if a = 0 then none
  else if a = linkLocalOf d port then some (3 * port + 1)
  else if a = ipv6Of d port then some (3 * port + 2)
  else if ipv4Of d port != 0 && a == mapV4 (ipv4Of d port) then some (3 * port)
  else none

/-- Is the address in use on the port, whose link is up? -/
def addrInUse (d : Dev) (port : Nat) (a : BitVec 128) : Bool :=
  d.mgmt.linkUp.contains port && (match addrKey d port a with | some k => d.mgmt.inUse.contains k | none => false)

/-- A management port received a request: ports are 0 and 1. -/
def onMport (port : Nat) (s : State) (f : Dev → Dev) : Host.Outcome State Fault Refusal :=
  onUnit (port < 2) s fun d => if d.mgmt.linkUp.contains port then f d else d

/-- An address is found in conflict while it is being checked: it is not used, and ADDR_DUP is raised once (R707). -/
def addrConflict (d : Dev) (k : Nat) : Dev :=
  if d.mgmt.inUse.contains k || d.mgmt.dup.contains k then d
  else raiseTrap (updMgmt d fun m => { m with dup := insNat k m.dup }) { cause := 0xE4 }

/-- An ARP packet of another host claims the port's IPv4 address (R707): in use, ADDR_DUP once and one defence; while probing, it is a
conflict. -/
def arpClaim (d : Dev) (mport : Nat) (sha : W64) (spa : W32) : Dev :=
  let mac := BitVec.setWidth 64 (macOf d mport)
  let k := 3 * mport
  if spa = 0 || spa != ipv4Of d mport || sha == mac || d.mgmt.dup.contains k then d
  else if d.mgmt.inUse.contains k then
    let d1 := raiseTrap (updMgmt d fun m => { m with dup := insNat k m.dup }) { cause := 0xE4 }
    output (updMgmt d1 fun m => { m with defended := insNat k m.defended }) (.arp mport mac spa 0 spa)
  else addrConflict d k

/-- An ARP request for a module address in use is answered (R734). One for the address being probed, from a host that probes for it
too (sender address 0), is a conflict (R707, RFC 5227 section 2.1.1), and so is one whose sender has the address. -/
def execArpRequest (mport : Nat) (sha : W64) (spa tpa : W32) (s : State) : Host.Outcome State Fault Refusal :=
  onMport mport s fun d0 =>
    let d := arpClaim d0 mport sha spa
    let mac := BitVec.setWidth 64 (macOf d mport)
    if tpa = 0 || tpa != ipv4Of d mport then d
    else if d.mgmt.inUse.contains (3 * mport) then output d (.arp mport mac tpa sha spa)
    else if spa = 0 && sha != mac then addrConflict d (3 * mport)
    else d

/-- ADDR_DUP: an ARP packet claims the port's IPv4 address. -/
def execAddrDup (mport : Nat) (sha : W64) (spa : W32) (s : State) : Host.Outcome State Fault Refusal :=
  onMport mport s fun d => arpClaim d mport sha spa

/-- Neighbour discovery (R734): a solicitation for an address in use is answered, to all nodes when its source is unspecified. While
an address is under duplicate detection, a solicitation from the unspecified address, or an advertisement of it (`src` none), is a
conflict (R707). -/
def execNeighborDiscovery (mport : Nat) (src : Option (BitVec 128)) (target : BitVec 128) (s : State) : Host.Outcome State Fault Refusal :=
  onMport mport s fun d =>
    match addrKey d mport target with
    | none => d
    | some k =>
      if k % 3 = 0 then d
      else if d.mgmt.inUse.contains k then
        match src with
        | some a => output d (.neighbor mport target (macOf d mport |>.setWidth 64) (if a = 0 then allNodes else a))
        | none => d
      else if src.isNone || src == some 0 then addrConflict d k
      else d
where
  /-- The all-nodes address ff02::1, bytes in wire order from bit 0. -/
  allNodes : BitVec 128 := BitVec.ofNat 128 (0x02FF + 2 ^ 120)

/-- An ICMP or ICMPv6 echo request to an address in use is answered (R734). -/
def execEchoRequest (mport : Nat) (src dst : BitVec 128) (ident : W32) (data : List Byte) (s : State) :
    Host.Outcome State Fault Refusal :=
  onMport mport s fun d => if addrInUse d mport dst then output d (.echo mport src ident data) else d

/-- A frame of another kind is dropped and counted (R734). -/
def execMgmtFrameDrop (mport : Nat) (s : State) : Host.Outcome State Fault Refusal :=
  onMport mport s fun d => bump d ctrMgmtFrameDrop mport

/-- Are the management MACs up (Table 21-3, Table 22-8)? -/
def macsUp (d : Dev) : Bool :=
  powered d && 6 ≤ phaseCode d.start.phase && !d.clocks.lost.contains 38

/-- Solicit for an IPv6 address that is set and not in conflict. -/
def solicitAddr (d : Dev) (mport k : Nat) (x : BitVec 128) : Dev :=
  if x = 0 || d.mgmt.dup.contains k then d else output d (.solicit mport x)

/-- The checks that begin as a management link comes up (R707): three ARP probes for a static IPv4 address (RFC 5227) and one
solicitation for each IPv6 address (RFC 4862), their spacing left out (PRESUMED, log 104). An address in conflict is not checked
again. -/
def probeAddrs (d : Dev) (mport : Nat) : Dev :=
  let mac := BitVec.setWidth 64 (macOf d mport)
  let a := ipv4Of d mport
  let d1 := if a = 0 || d.mgmt.dup.contains (3 * mport) then d
    else forEach (List.range 3) d fun d' _ => output d' (.arp mport mac 0 0 a)
  solicitAddr (solicitAddr d1 mport (3 * mport + 1) (linkLocalOf d mport)) mport (3 * mport + 2) (ipv6Of d mport)

/-- A management link comes up or goes down (R734); its addresses are checked for conflicts before use (R707). -/
def execMgmtLinkChange (mport : Nat) (up : Bool) (s : State) : Host.Outcome State Fault Refusal :=
  onUnit (mport < 2) s fun d =>
    let used (m : Mgmt) : List Nat := m.inUse.filter fun k => k / 3 != mport
    if up then
      if macsUp d then probeAddrs (updMgmt d fun m => { m with linkUp := insNat mport m.linkUp, inUse := used m }) mport else d
    else updMgmt d fun m => { m with linkUp := delNat mport m.linkUp, inUse := used m }

/-- Probing, or duplicate address detection, ends without conflict: the addresses come into use; an IPv4 address is announced twice
(R707, RFC 5227; PRESUMED, log 104). -/
def execAddressProbeDone (mport : Nat) (v6 : Bool) (s : State) : Host.Outcome State Fault Refusal :=
  onMport mport s fun d =>
    let use (d' : Dev) (k : Nat) (ok : Bool) : Dev :=
      if ok && !d'.mgmt.dup.contains k then updMgmt d' fun m => { m with inUse := insNat k m.inUse } else d'
    if v6 then use (use d (3 * mport + 1) true) (3 * mport + 2) (ipv6Of d mport != 0)
    else
      let a := ipv4Of d mport
      if a != 0 && !d.mgmt.dup.contains (3 * mport) then
        forEach (List.range 2) (use d (3 * mport) true) fun d' _ => output d' (.arp mport (BitVec.setWidth 64 (macOf d mport)) a 0 a)
      else d

end Sys2Proof.Machine
end

