-- ==== Sys2Proof/Machine/ModuleCmds.lean ====
section
/-!
DEFINITION. Sys2Proof/Machine/ModuleCmds.lean: the module commands of chapter 13: identity, principals, patches, port roles,
registers and telemetry sinks.
-/
namespace Sys2Proof.Machine

/-! ## MODULE_INFO (R428) -/

/-- The reply of Table 13-4. -/
def moduleInfoWords (d : Dev) : List W64 :=
  [ d.fac.serial, mkWord [(0xA1, 8), (1, 0)], mkWord [(d.fac.romVer.toNat, 32), (d.start.patchVer % 2 ^ 32, 0)]
  , mkWord [(phaseCode d.start.phase, 0)], 0, 0, 0, 0 ]

/-- MODULE_INFO changes no state. -/
def moduleInfoCmd : CmdFn := fun d _ => doneWith d (moduleInfoWords d)

/-- MODULE_INFO. -/
def execModuleInfo (p : CmdPkt) (s : State) : Host.Outcome State Fault Refusal := onCmd 0x0001 p s moduleInfoCmd

/-! ## AUTH_SET (R429, R411) -/

/-- The principal entry of a body (Table 12-3). -/
def principalBody (b : List W64) : Principal :=
  { addr := BitVec.ofNat 128 ((wordAt b 1).toNat + 2 ^ 64 * (wordAt b 2).toNat), role := field (wordAt b 3) 63 62
    udp := field (wordAt b 3) 47 32, mask := wordAt b 4 }

/-- ST_OK once what the command wrote stands in retained flash: with domain 39 lost its record waits, and the reply with it
(R429, R565, Table 22-8). -/
def doneStored (d : Dev) (c : Cmd) : Dev × Option Reply := if d.flash.waits.isEmpty then done d else (waitOn d c 0, none)

/-- The retained principal table with an entry written (RID 0x15). -/
def principalsBody (d : Dev) (i : Nat) (b : List W64) : SMap W64 :=
  let old := ((flashRead d 0x15).map (·.body)).getD []
  (List.range 4).foldl (fun m k => let w := wordAt b (1 + k); if w = 0 then SMap.del m (4 * i + k) else SMap.set m (4 * i + k) w) old

/-- Sessions of a disabled principal go, those with a command in execution with its reply. -/
def disableSessions (d : Dev) (i : Nat) : Dev :=
  let d1 := updMgmt d fun m => { m with sessions := m.sessions.map fun s => if !s.inband && s.who == i then { s with dying := true } else s }
  removeSessions d1 fun s => s.dying && !d1.mgmt.waiting.any fun w => sessionOf w s

/-- AUTH_SET. The table changes with the reply: while the record waits for the flash interface, the old one holds (R411). -/
def authSetCmd : CmdFn := fun d c =>
  let b := c.body
  let e := principalBody b
  let i := field (wordAt b 0) 5 0
  checks d
    [ (rsvdSet (wordAt b 0) [(63, 6)] || rsvdSet (wordAt b 3) [(61, 48), (31, 0)], stIllegal)
    , (e.role == 0 && (e.addr != 0 || e.udp != 0 || e.mask != 0), stIllegal) ] fun _ =>
    let d1 := flashWrite d 0x15 2048 (principalsBody d i b)
    if !d1.flash.waits.isEmpty then doneStored d1 c
    else
    let d2 := updMgmt d1 fun m => { m with principals := if e.role = 0 then SMap.del m.principals i else SMap.set m.principals i e }
    doneStored (if e.role = 0 then disableSessions d2 i else d2) c

/-- AUTH_SET. -/
def execAuthSet (p : CmdPkt) (s : State) : Host.Outcome State Fault Refusal := onCmd 0x0002 p s authSetCmd

/-! ## PATCH_LOAD (R430, R697) -/

/-- Is the image's header malformed (R697)? `len` is its length in bytes. -/
def patchBad (d : Dev) (img : List W64) : Bool :=
  let code := field (wordAt img 1) 31 0
  field (wordAt img 0) 63 32 != 0x49505431 || wordAt img 2 != 0 || wordAt img 3 != 0 || code == 0 || code % 8 != 0 ||
  8 * img.length != 128 + code || 262144 < 8 * img.length || field (wordAt img 0) 31 0 == 0 || field (wordAt img 1) 63 32 != d.fac.romVer.toNat

/-- Version of the stored patch, 0 when there is none. -/
def storedPatchVer (d : Dev) : Nat := match flashRead d 0x18 with | some r => field (SMap.getD r.body 0 0) 31 0 | none => 0

/-- PATCH_LOAD: a patch that passes takes effect at the next start-up. -/
def patchLoadCmd : CmdFn := fun d c =>
  let img := c.body
  checks d
    [ (patchBad d img, stIllegal)
    , (!Config.patchSigned img, stBadSig)
    , (field (wordAt img 0) 31 0 ≤ storedPatchVer d, stIllegal) ] fun _ =>
    done (flashWrite d 0x18 (8 * img.length) (sparseWords 0 img))

/-- PATCH_LOAD. -/
def execPatchLoad (p : CmdPkt) (s : State) : Host.Outcome State Fault Refusal := onCmd 0x0003 p s patchLoadCmd

/-! ## PORT_CONFIG (R431) -/

/-- The PORT_ROLES record (RID 0x12). -/
def rolesBody (d : Dev) : SMap W64 :=
  sparseWords 0 (bytesWords ((List.range 288).map fun p => BitVec.ofNat 8 (getPort d p).role))

/-- Active ports of a face die (R39). -/
def activePorts (d : Dev) (die : Nat) : Nat := ((rangeFrom (16 * die) 16).filter fun p => (getPort d p).role != 0).length

/-- Does a member of some job use the port? -/
def portAttached (d : Dev) (p : Nat) : Bool := d.jobs.any fun e => (memberOn e.2 p).isSome

/-- A position that has no slice gets the lowest free slice of its die. -/
def needSlice (d : Dev) (p : Nat) : Dev :=
  if sliceOf d p = 0x1F then (match freeSlice d p with | some k => steer d p k | none => d) else d

/-- A port takes another role: its link goes down and trains again, at once. A DOWN port given a role trains at once, also the
role that it has (R431, R519, R561). -/
def setRole (d : Dev) (p role : Nat) : Dev :=
  if (getPort d p).role = role then
    if role != 0 && (getPort d p).st == .down && linksOn d && !portLost d p then
      enterTrain (updPort d p fun x => { x with failed := false }) p
    else d
  else
    let d1 := if (getPort d p).st == .down then d else portDown (sendDownNotice d p) p (some 6)
    let d2 := updPort d1 p fun x => { x with role := role, failed := false }
    if role = 0 then d2
    else
      let d3 := needSlice d2 p
      if linksOn d3 && !portLost d3 p then enterTrain d3 p else d3

/-- PORT_CONFIG. -/
def portConfigCmd : CmdFn := fun d c =>
  let w := wordAt c.body 0
  let p := field w 8 0
  let role := field w 10 9
  checks d
    [ (rsvdSet w [(63, 11)] || 287 < p || role == 3, stIllegal)
    , (256 ≤ p && role == 1, stIllegal)
    , (posState d p == 2, stIllegal)
    , (p < 256 && role != 0 && (getPort d p).role == 0 && 14 ≤ activePorts d (p / 16), stLimit)
    , (portAttached d p && role != 1, stInUse) ] fun _ =>
    let d1 := setRole d p role
    done (flashWrite d1 0x12 288 (rolesBody d1))

/-- PORT_CONFIG. -/
def execPortConfig (p : CmdPkt) (s : State) : Host.Outcome State Fault Refusal :=
  onUnit (cmdRowOk 0x0004 p) s fun d => settleLinks d (receiveCmd d p portConfigCmd)

/-! ## Registers (R432, R433, R741) -/

/-- What a reader sees of words that belong to jobs: none = everything (R741). -/
def readerMask (s : Sender) : Option W64 := if s.role = 3 then none else if s.role = 2 then some s.mask else some 0

/-- Addresses of a read of `n` words. -/
def readAddrs (a n : Nat) : List Nat := (List.range n).map fun i => a + 8 * i

/-- REG_READ. The measured reference offset of CLK_STATUS is a free value. -/
def regReadCmd : CmdFn := fun d c =>
  let w := wordAt c.body 0
  let n := field w 47 32
  let as := readAddrs (field w 31 0) n
  checks d
    [ (rsvdSet w [(63, 48)] || n == 0 || 176 < n, stIllegal)
    , (field w 2 0 != 0 || as.any fun a => !regMapped a, stIllegal) ] fun _ =>
    let (ppm, d1) := if as.contains 0x208 then drawFree d else (0, d)
    doneWith d1 (as.map (regWordFor d (readerMask c.sender) ppm))

/-- REG_READ. -/
def execRegRead (p : CmdPkt) (s : State) : Host.Outcome State Fault Refusal := onCmd 0x0005 p s regReadCmd

/-- REPLAY_STATUS of a job (Table 20-9). -/
def replayWord (jb : Job) (i : Nat) : W64 :=
  match jb.replay with
  | none => 0
  | some r =>
    match i with
    | 0 => mkWord [(bit r.active, 63), (r.source, 61), (r.stepAt % 2 ^ 48, 0)]
    | 1 => BitVec.ofNat 64 r.off
    | _ => mkWord [(r.injected % 2 ^ 32, 32), (r.diverged % 2 ^ 32, 0)]

/-- The word of a job's window at an address, if it is mapped. -/
def jobWindowWord (d : Dev) (j a : Nat) : Option W64 :=
  if inBlock a 0x4000 24 then (getJob d j).map fun jb => replayWord jb ((a - 0x4000) / 8) else windowWord d j a

/-- JOB_REG_READ. -/
def jobRegReadCmd : CmdFn := fun d c =>
  let w := wordAt c.body 0
  let n := field w 47 32
  let as := readAddrs (field w 31 0) n
  checks d
    [ (rsvdSet w [(63, 48)] || n == 0 || 176 < n, stIllegal)
    , (field w 2 0 != 0 || as.any fun a => (jobWindowWord d c.job a).isNone, stIllegal) ] fun _ =>
    doneWith d (as.map fun a => (jobWindowWord d c.job a).getD 0)

/-- JOB_REG_READ. -/
def execJobRegRead (p : CmdPkt) (s : State) : Host.Outcome State Fault Refusal := onCmd 0x0007 p s jobRegReadCmd

/-- Bits that FABRIC_CFG has (Table 16-1): the others are ignored (R30). -/
def cfgBits (v : W64) : W64 := mkWord [(field v 26 24, 24), (field v 22 20, 20), (field v 18 16, 16), (field v 8 0, 0)]

/-- The FABRIC record (RID 0x14). -/
def fabricBody (d : Dev) : SMap W64 :=
  let m := d.fabric.map.map fun e => (e.1 + 1, e.2)
  if d.fabric.cfg = 0 then m else SMap.set m 0 d.fabric.cfg

/-- Write a word of a sparse array: zero is not listed. -/
def putSparse (m : SMap W64) (i : Nat) (v : W64) : SMap W64 := if v = 0 then SMap.del m i else SMap.set m i v

/-- What a write to an address does, if a register is written there (Table 23-1). -/
def regWrite (d : Dev) (a : Nat) (v : W64) : Option Dev :=
  if a % 8 != 0 then none
  else if a = 0x300 then
    let d1 := { d with fabric := { d.fabric with cfg := cfgBits v } }
    some (flashWrite d1 0x14 4104 (fabricBody d1))
  else if inBlock a 0x1000 4096 then
    let d1 := { d with fabric := { d.fabric with map := putSparse d.fabric.map ((a - 0x1000) / 8) v } }
    some (flashWrite d1 0x14 4104 (fabricBody d1))
  else if inBlock a 0x2000 512 then
    some { d with fabric := { d.fabric with jobPairs := putSparse d.fabric.jobPairs ((a - 0x2000) / 8) (BitVec.ofNat 64 (field v 15 0)) } }
  else if inBlock a 0x2200 96 then
    let i := (a - 0x2200) / 8
    let x := if i % 6 = 5 then BitVec.ofNat 64 (field v 15 0) else v
    let d1 := updMgmt d fun m => { m with addr := putSparse m.addr i x }
    some (flashWrite d1 0x16 96 d1.mgmt.addr)
  else if a = 0x2600 then some (writeTrapCtl d (field v 31 0))
  else if inBlock a 0x4000 18432 && a % 64 == 0 then some (updPort d ((a - 0x4000) / 64) fun x => { x with capture := none })
  else none

/-- REG_WRITE. Check 3 names the bypass control register, which check 2 refuses already: it is not writable. -/
def regWriteCmd : CmdFn := fun d c =>
  let w := wordAt c.body 0
  let a := field w 31 0
  checks d
    [ (rsvdSet w [(63, 32)], stIllegal)
    , ((regWrite d a (wordAt c.body 1)).isNone, stIllegal)
    , (a == 0x2380, stIllegal) ] fun _ =>
    doneStored ((regWrite d a (wordAt c.body 1)).getD d) c

/-- REG_WRITE. -/
def execRegWrite (p : CmdPkt) (s : State) : Host.Outcome State Fault Refusal := onCmd 0x0006 p s regWriteCmd

/-- TRAP_CTL: a REG_WRITE that releases trap records (R749). -/
def execTrapCtl (p : CmdPkt) (s : State) : Host.Outcome State Fault Refusal := onCmd 0x0006 p s regWriteCmd

/-- CAPTURE_CLEAR: a REG_WRITE that rearms a capture record (R743). -/
def execCaptureClear (p : CmdPkt) (s : State) : Host.Outcome State Fault Refusal := onCmd 0x0006 p s regWriteCmd

/-! ## TELEM_SET (R434, R751) -/

/-- TELEM_SET. -/
def telemSetCmd : CmdFn := fun d c =>
  let b := c.body
  let w := wordAt b 2
  let per := field w 31 0
  let i := field w 33 32
  checks d
    [ (rsvdSet w [(47, 35)], stIllegal)
    , (per != 0 && (per < 1000 || 10000000 < per), stIllegal)
    , ((wordAt b 3).toNat / 256 != 0, stIllegal) ] fun _ =>
    let k : Sink :=
      { addr := BitVec.ofNat 128 ((wordAt b 0).toNat + 2 ^ 64 * (wordAt b 1).toNat), udp := field w 63 48, mport := field w 34 34
        period := per, mask := (wordAt b 3).toNat, lastAt := d.nowUs }
    done (updMgmt d fun m => { m with sinks := if per = 0 then SMap.del m.sinks i else SMap.set m.sinks i k })

/-- TELEM_SET. -/
def execTelemSet (p : CmdPkt) (s : State) : Host.Outcome State Fault Refusal := onCmd 0x0008 p s telemSetCmd

end Sys2Proof.Machine
end

