-- ==== Sys2Proof/Machine/FabricCmds.lean ====
section
/-!
DEFINITION. Sys2Proof/Machine/FabricCmds.lean: the commands of cabling, spares and bypass (R480 to R484, R577).
-/
namespace Sys2Proof.Machine

/-- A meaning of a command row that may change links and let work of the jobs go on. -/
def onLinkCmd (op : Nat) (p : CmdPkt) (s : State) (f : CmdFn) : Host.Outcome State Fault Refusal :=
  onUnit (cmdRowOk op p) s fun d => poolsSettle (flushAll (settleLinks d (receiveCmd d p f)))

/-! ## CABLE_PLAN_LOAD (R480) -/

/-- Entry `i` of a plan payload: its two words. -/
def planWords (b : List W64) (i : Nat) : W64 × W64 := (wordAt b (1 + 2 * i), wordAt b (2 + 2 * i))

/-- PORT of an entry. -/
def planPort (e : W64 × W64) : Nat := field e.1 8 0

/-- An entry (Table 13-16). -/
def planEntry (e : W64 × W64) : PlanEntry :=
  { kind := field e.1 31 30, axis := field e.1 29 28, dir := field e.1 27 27, engine := field e.1 23 16, pos := field e.1 26 24
    serial := e.2 }

/-- Is a field of an entry out of range (Table 13-16), of whatever KIND? -/
def planBad (e : W64 × W64) : Bool :=
  let x := planEntry e
  x.kind == 3 || decide (35 < x.engine)

/-- The plan of a list of entries: ports that are used. -/
def planMap (es : List (W64 × W64)) : SMap PlanEntry :=
  es.foldl (fun m e => if (planEntry e).kind = 0 then m else SMap.set m (planPort e) (planEntry e)) []

/-- CABLE_PLAN_LOAD: the plan is retained, and takes effect at the next check; a pair that was turned back may be released
again (R581). -/
def cablePlanCmd : CmdFn := fun d c =>
  let b := c.body
  let w := wordAt b 0
  let n := field w 8 0
  let es := (List.range n).map (planWords b)
  checks d
    [ (rsvdSet w [(63, 9)] || es.any (fun e => rsvdSet e.1 [(63, 32), (15, 9)]) || b.length != 1 + 2 * n, stIllegal)
    , (n == 0 || decide (288 < n) || es.any (fun e => decide (287 < planPort e) || planBad e) || !decide (es.map planPort).Nodup, stIllegal) ]
    fun _ =>
      let d1 := flashWrite d 0x13 (8 * b.length) (sparseWords 0 b)
      done { d1 with fabric := { d1.fabric with plan := planMap es, pairs := d1.fabric.pairs.map fun x => { x with reverted := false } } }

/-- CABLE_PLAN_LOAD. -/
def execCablePlanLoad (p : CmdPkt) (s : State) : Host.Outcome State Fault Refusal := onCmd 0x0068 p s cablePlanCmd

/-! ## CABLE_CHECK, CABLE_REPORT (R481, R577) -/

/-- Ports of a class that satisfies `f`. -/
def classCount (d : Dev) (f : Nat → Bool) : Nat := ((List.range 288).filter fun p => f (getPort d p).cls).length

/-- The reply of CABLE_CHECK. -/
def cableCheckWords (d : Dev) : List W64 :=
  [ mkWord [(classCount d classGood, 48), (classCount d (· == 6), 32), (classCount d (· == 5), 16), (classCount d (· == 2), 0)]
  , mkWord [(classCount d (· == 3), 0)] ]

/-- CABLE_CHECK. -/
def cableCheckCmd : CmdFn := fun d _ =>
  let d1 := cableCheck d
  doneWith d1 (cableCheckWords d1)

/-- CABLE_CHECK. -/
def execCableCheck (p : CmdPkt) (s : State) : Host.Outcome State Fault Refusal := onLinkCmd 0x0069 p s cableCheckCmd

/-- The record of a port (Table 16-4). -/
def cableRecord (d : Dev) (p : Nat) : List W64 :=
  let x := getPort d p
  let (eng, pos, role, serial) := match seenOn d p with
    | some b => (if b.role = 3 then 0xFF else b.engine, b.pos, b.role, b.serial)
    | none => (0xFF, 0, 0, 0)
  [ mkWord [(eng, 24), (pos, 21), (role, 19), (if x.cls = 4 then x.thruK else 0, 16), (x.cls, 12), (bit x.warn, 11)
    , (bit (portPairBad d p), 10), (bit (inService d p), 9), (p, 0)], serial ]

/-- CABLE_REPORT changes no state. -/
def cableReportCmd : CmdFn := fun d c =>
  let w := wordAt c.body 0
  if rsvdSet w [(63, 32)] || field w 2 0 != 0 then fail d stIllegal 0
  else doneWith d (pagedWords (wordsBytes ((List.range 288).flatMap (cableRecord d))) (field w 31 0))

/-- CABLE_REPORT. -/
def execCableReport (p : CmdPkt) (s : State) : Host.Outcome State Fault Refusal := onCmd 0x006A p s cableReportCmd

/-! ## SPARE_READ, SPARE_RETIRE (R482, R483) -/

/-- SPARE_READ changes no state. -/
def spareReadCmd : CmdFn := fun d c =>
  let w := wordAt c.body 0
  if rsvdSet w [(63, 32)] || field w 2 0 != 0 then fail d stIllegal 0
  else doneWith d (pagedWords (wordsBytes (spareWords d)) (field w 31 0))

/-- SPARE_READ. -/
def execSpareRead (p : CmdPkt) (s : State) : Host.Outcome State Fault Refusal := onCmd 0x0070 p s spareReadCmd

/-- Units of a kind. -/
def unitCount (u : Nat) : Nat :=
  match u with
  | 1 => 288
  | 2 => 144
  | 3 => 256
  | 4 => 512
  | _ => 0

/-- Is a unit retired already, or being retired, or a spare not in use? A channel held as an erasure waits for its spare. An unused port position is a spare of its die (Table 19-1). -/
def unitGone (d : Dev) (u i : Nat) : Bool :=
  match u with
  | 1 => posState d i == 2 || (getPort d i).role == 0
  | 2 => (seamRec d i).st != 0
  | 3 => (chanRec d i).st == 4 || (chanRec d i).st == 1 || (chanRec d i).st == 3
  | _ => d.spare.lanes.contains i

/-- Can no spare take a unit's place? A good unused position of the die stands by for a position; channels that wait for a
spare come first. -/
def noSpare (d : Dev) (u i : Nat) : Bool :=
  match u with
  | 1 => !((rangeFrom (i / 16 * 16) 16).any fun p => posState d p != 2 && (getPort d p).role == 0)
  | 2 => (checkingSeams d).isEmpty
  | 3 => decide ((chansIn d i 1).length ≤ ((chansIn d i 3).filter (· != i)).length)
  | _ => decide (16 ≤ lanesOut d (i / 128))

/-- Does a member of some job use the port? -/
def portUsed (d : Dev) (p : Nat) : Bool := d.jobs.any fun e => e.2.members.any fun m => m.2.portA == p || m.2.portB == some p

/-- SPARE_RETIRE: a channel's retirement is answered when its spare is rebuilt, a seam's when the steps of R196 are over. -/
def spareRetireCmd : CmdFn := fun d c =>
  let w := wordAt c.body 0
  let u := field w 63 56
  let i := field w 15 0
  checks d
    [ (rsvdSet w [(55, 16)] || u == 0 || decide (4 < u) || decide (unitCount u ≤ i), stIllegal)
    , (unitGone d u i, stIllegal)
    , (noSpare d u i, stLimit)
    , (u == 1 && portUsed d i, stInUse) ] fun _ =>
    match u with
    | 1 => done (failPosition d i)
    | 2 =>
      let d1 := retireSeam d i
      match (seamRec d i).pos with
      | some pos => if posRetiring d1 pos then (waitOn d1 c (256 + pos), none) else done d1
      | none => done d1
    | 3 => (retireChannel (waitOn d c (i / 64 * 64 + (chanRec d i).wnum.getD 63)) i, none)
    | _ => done (retireLane d i)

/-- SPARE_RETIRE. -/
def execSpareRetire (p : CmdPkt) (s : State) : Host.Outcome State Fault Refusal := onLinkCmd 0x0071 p s spareRetireCmd

/-! ## BYPASS_SET (R484) -/

/-- Has a pair's cabling check passed: both sides OK or THROUGH, or one OK and the other MISSING (R580)? -/
def pairChecked (d : Dev) (q : Nat) : Bool :=
  let a := (getPort d (256 + q)).cls
  let b := (getPort d (272 + q)).cls
  (classGood a && classGood b) || (a == 1 && b == 5) || (b == 1 && a == 5)

/-- BYPASS_SET. -/
def bypassSetCmd : CmdFn := fun d c =>
  let w := wordAt c.body 0
  let q := field w 4 0
  let qs := if q = 0x1F then List.range 16 else [q]
  checks d
    [ (rsvdSet w [(63, 9), (7, 5)] || decide (16 ≤ q) && q != 0x1F, stIllegal)
    , (!flag w 8 && qs.any (fun q => !pairChecked d q), stInUse) ] fun _ =>
    if flag w 8 then done (forEach qs d fun d' q => joinPair d' q fun x => { x with held := true })
    else done (forEach qs d fun d' q => updPair d' q fun x => { x with held := false, reverted := false })

/-- BYPASS_SET. -/
def execBypassSet (p : CmdPkt) (s : State) : Host.Outcome State Fault Refusal := onLinkCmd 0x0078 p s bypassSetCmd

end Sys2Proof.Machine
end

