-- ==== Sys2Proof/Machine/JobCmds.lean ====
section
/-!
DEFINITION. Sys2Proof/Machine/JobCmds.lean: the job and member commands (R435 to R444).
-/
namespace Sys2Proof.Machine

/-! ## JOB_CREATE (R435 to R437) -/

/-- Does a list hold a value twice? -/
def hasRepeat {α : Type} [BEq α] : List α → Bool
  | [] => false
  | a :: r => r.contains a || hasRepeat r

/-- Lowest-numbered free sync object (R505). -/
def freeSync (d : Dev) : Option Nat := SMap.firstFree d.syncs 0 8192

/-- Quotas at creation (Table 17-5). -/
def createQuotas : Quotas :=
  { accum := 32768, ovf := 655360, node := 4096, ctx := 1024, sync := 64, memMib := 1373291, region := 1024
    weights := List.replicate 8 64 }

/-- Clear every counter of a job (R437). -/
def clearJobCtrs (d : Dev) (j : Nat) : Dev :=
  let d1 := clearCtrs d 1 j
  let d2 := forEach (rangeFrom (64 * j) 64) d1 fun d' i => clearCtrs d' 12 i
  let d3 := forEach (rangeFrom (16 * j) 16) d2 fun d' i => clearCtrs d' 13 i
  forEach (rangeFrom (18 * j) 18) d3 fun d' i => clearCtrs d' 14 i

/-- The job a payload describes (R437). -/
def newJob (d : Dev) (b : List W64) : Job :=
  let w := wordAt b 0
  let q := field w 57 48
  let serials := (b.drop 4).take q
  let f := field w 7 4
  { q := q, serials := serials, ordinal := field w 40 32, fanout := if f = 0 then 4 else f, haulFmt := field (wordAt b 2) 7 0
    inband := flag w 0, seed := wordAt b 3, stepCur := field (wordAt b 1) 47 0, commit := 0, quotas := createQuotas
    addrs := serials.map (addrOf d), liveRx := d.nowUs, liveTx := d.nowUs }

/-- The job comes to exist: its seal object is reserved, its counters start at 0, and an ordinal that FABRIC_MAP does not
hold raises FABRIC_UNKNOWN once (R437, R567). -/
def createJob (d : Dev) (j : Nat) (jb : Job) (n : Nat) : Dev :=
  let d1 := setJob (clearJobCtrs d j) j jb
  let d2 := { d1 with syncs := SMap.set d1.syncs n { job := j, kind := .seal_ } }
  if jb.addrs.any Option.isNone then
    raiseTrap d2
      { cause := 0x93, job := jobInfo d2 j, kind := 8, unit := ((List.range jb.q).find? fun q => (jb.addrs.getD q none).isNone).getD 0 }
  else d2

/-- JOB_CREATE. -/
def jobCreateCmd : CmdFn := fun d c =>
  let b := c.body
  let w := wordAt b 0
  let q := field w 57 48
  let j := field w 13 8
  let serials := (b.drop 4).take q
  checks d
    [ (rsvdSet w [(63, 58), (47, 41), (31, 14), (3, 1)] || rsvdSet (wordAt b 1) [(63, 48)] || rsvdSet (wordAt b 2) [(63, 8)], stIllegal)
    , (q == 0 || 512 < q || q ≤ field w 40 32 || 8 < field w 7 4, stIllegal)
    , (b.length != 4 + q, stIllegal)
    , (!ofmtHaulOk (BitVec.ofNat 8 (field (wordAt b 2) 7 0)), stIllegal)
    , (serials.contains 0 || hasRepeat serials || serials.getD (field w 40 32) 0 != d.fac.serial, stIllegal)
    , ((getJob d j).isSome, stInUse)
    , ((freeSync d).isNone, stLimit) ] fun _ =>
    done (createJob d j (newJob d b) ((freeSync d).getD 0))

/-- JOB_CREATE. -/
def execJobCreate (p : CmdPkt) (s : State) : Host.Outcome State Fault Refusal := onCmd 0x0010 p s jobCreateCmd

/-! ## JOB_DESTROY (R439) -/

/-- Is a context of the job DRAINING or OPEN? -/
def ctxsActive (d : Dev) (j : Nat) : Bool := d.ctxs.any fun e => e.2.holder == some j && (e.2.state == .draining || e.2.state == .opened)

/-- Is a load, snapshot, restore or rebuild of the job in progress? -/
def transfersActive (jb : Job) : Bool :=
  !jb.loads.isEmpty || jb.snap.active || (match jb.rebuild with | some b => b.slab.isNone | none => false)

/-- Is the job being recorded? -/
def recording (jb : Job) : Bool := match jb.recd with | some r => r.active | none => false
/-- Is the job being replayed? -/
def replaying (jb : Job) : Bool := match jb.replay with | some r => r.active | none => false

/-- Release every context of a job in FREE mode (R388). -/
def freeCtxs (d : Dev) (j : Nat) : Dev :=
  forEach (SMap.keys d.ctxs) d fun d' c =>
    if (getCtx d' c).holder == some j then updCtx (freeEntries d' c) c freedCtx else d'

/-- The parity that the module holds for a job key goes with the job (R439, R619). -/
def freeParity (d : Dev) (key : W64) (j : Nat) : Dev :=
  let row (r : ParRow) : Bool := r.key == key && r.job == j
  let gone := (d.parity.rows.filter row).length
  updPar d fun p =>
    { p with rows := p.rows.filter fun r => !row r, unprot := p.unprot.filter fun r => !row r
             accs := p.accs.filter fun a => !row a.at_, spaceTrap := p.spaceTrap.filter fun t => t != (key, j)
             tags := p.tags.filter fun t => !(t.key == key && t.job == j), heldPc := p.heldPc.filter fun h => !(h.key == key && h.job == j)
             applied := p.applied.filter fun t => !(t.key == key && t.job == j)
             dropped := p.dropped.filter fun t => !(t.key == key && t.job == j)
             borrowed := p.borrowed - min p.borrowed gone }

/-- Packets toward a member that its detaching drops: its haul, and the replies of its hoists. -/
def toMember (j m : Nat) (k : TxPacket) : Bool :=
  match k.track with
  | .haul a b _ _ => a == j && b == m
  | .hoist a b _ _ => a == j && b == m
  | .hoistEnd a b _ _ _ _ => a == j && b == m
  | _ => false

/-- Undelivered haul to a member, on a link or queued, as uses of contexts. -/
def haulUndelivered (d : Dev) (j m : Nat) : List Nat :=
  d.ports.flatMap fun e => ((unacked e.2).filter (toMember j m)).filterMap fun k => match k.track with | .haul _ _ c _ => some c | _ => none

/-- A member is detached: its undelivered haul is dropped and counted, its hoists end without reply, its in-band sessions
for the job go (R439, R444). -/
def detach (d : Dev) (j m : Nat) : Dev :=
  let d1 := forEach (haulUndelivered d j m) d fun d' c => dropFor d' j m (ctxOfKey d' c)
  let ps := (SMap.keys d1.ports).filter fun p => (unacked (getPort d1 p)).any (toMember j m)
  let d2 := forEach ps d1 fun d' p => stallTick (updPort d' p (dropUnacked (toMember j m))) p
  let d3 := updJob d2 j fun jb =>
    { jb with hoists := jb.hoists.filter fun h => h.member != m
              reads := jb.reads.map fun r => { r with locals := r.locals.filter fun l => l.1 != m }
              members := SMap.del jb.members m }
  removeSessions d3 fun s => s.inband && s.job == j && s.who == m

/-- Commands of a destroyed job that still waited: releases and cancels have their effect, any other is one of a job that no
longer exists (Table 12-7). -/
def endJobCmds (d : Dev) (j : Nat) : Dev :=
  let d1 := finishCmds d (fun w => cmdOf j 0x31 w || cmdOf j 0x3A w || cmdOf j 0x21 w) (plainReply stOk 0)
  finishCmds d1 (fun w => w.hjob == j) (plainReply stIllegal 0xF002)

/-- The job holds no buffer any more (R612): the buffers of its trap records and of replies cached for it stay with their users on no
job's behalf (DESIGN CHOICE, log 106). -/
def freeHoldings (d : Dev) (j : Nat) : Dev :=
  { d with pools := { d.pools with
      bufs := SMap.mapV (fun _ b => if b.job == some j then { b with job := none } else b) d.pools.bufs } }

/-- The job is destroyed (R439). -/
def destroyJob (d : Dev) (j : Nat) (jb : Job) : Dev :=
  let d1 := endJobCmds (freeCtxs d j) j
  let d2 := forEach (SMap.keys jb.members) d1 fun d' m => detach d' j m
  let d3 := freeParity d2 (jobKey jb) j
  let d4 := forEach (d3.mgmt.sessions.filter fun s => match s.staged with | some g => g.job == j | none => false) d3 fun d' s =>
    dropStaged d' { inband := s.inband, job := s.job, who := s.who, session := s.session }
  let d5 := removeSessions d4 fun s => s.inband && s.job == j
  let d6 :=
    { d5 with jobs := SMap.del d5.jobs j, maps := SMap.keep (fun _ m => m.job != j) d5.maps
              rules := SMap.keep (fun _ r => r.job != j) d5.rules, scheds := SMap.keep (fun _ e => e.job != j) d5.scheds
              syncs := SMap.keep (fun _ o => o.job != j) d5.syncs
              left := SMap.keep (fun _ x => x.holder != some j) d5.left }
  poolsSettle (admitAll (freeHoldings d6 j))

/-- JOB_DESTROY. -/
def jobDestroyCmd : CmdFn := fun d c =>
  let w := wordAt c.body 0
  let j := field w 5 0
  match getJob d j with
  | none => fail d stIllegal 1
  | some jb =>
    checks d
      [ (rsvdSet w [(63, 6)], stIllegal)
      , (jb.sealSt.state != .opened || ctxsActive d j || transfersActive jb || recording jb || replaying jb, stInUse) ] fun _ =>
      done (destroyJob d j jb)

/-- JOB_DESTROY. -/
def execJobDestroy (p : CmdPkt) (s : State) : Host.Outcome State Fault Refusal := onCmd 0x0011 p s jobDestroyCmd

/-! ## JOB_QUOTA, JOB_CONFIG, JOB_READ (R440 to R442) -/

/-- The quotas of a body (Table 13-7). -/
def quotaBody (b : List W64) : Quotas :=
  { accum := field (wordAt b 0) 31 14, ovf := field (wordAt b 0) 63 32, node := field (wordAt b 1) 47 32, ctx := field (wordAt b 1) 31 16
    sync := field (wordAt b 1) 15 0, memMib := field (wordAt b 2) 39 16, region := field (wordAt b 2) 15 0
    weights := (List.range 8).map fun v => field (wordAt b 3) (8 * v + 7) (8 * v) }

/-- Is a quota out of its range (Table 13-7)? -/
def quotaBad (q : Quotas) : Bool :=
  decide (5242880 < q.ovf) || decide (253952 < q.accum) || decide (32768 < q.node) || decide (16384 < q.ctx) || q.sync == 0 ||
  decide (8192 < q.sync) || decide (1373291 < q.memMib) || decide (16384 < q.region) || q.weights.contains 0

/-- A port with work in its arbiters keeps a job's replaced weights until their next rounds (R610). -/
def keepWeights (old new_ : List Nat) (j : Nat) (x : Port) : Port :=
  if x.queue.isEmpty && x.parked.isEmpty && x.tx.all (·.cur.isNone) then x
  else
    let vs := (List.range 8).filter fun v => old.getD v 64 != new_.getD v 64
    let put (n : Nat) (m : SMap Nat) : SMap Nat :=
      vs.foldl (fun m v => if SMap.has m (n * v + j) then m else SMap.set m (n * v + j) (old.getD v 64)) m
    { x with lateW := put 65 x.lateW, latePol := put 64 x.latePol }

/-- Write a job's quotas: they hold for later requests, its weights from the next round of each arbiter (R440, R610). -/
def setQuotas (d : Dev) (j : Nat) (q : Quotas) : Dev :=
  match getJob d j with
  | none => d
  | some jb =>
    { setJob d j { jb with quotas := q } with ports := SMap.mapV (fun _ x => keepWeights jb.quotas.weights q.weights j x) d.ports }

/-- JOB_QUOTA. -/
def jobQuotaCmd : CmdFn := fun d c =>
  let b := c.body
  let j := field (wordAt b 0) 5 0
  checks d
    [ (rsvdSet (wordAt b 0) [(13, 6)] || rsvdSet (wordAt b 1) [(63, 48)] || rsvdSet (wordAt b 2) [(63, 40)] || (getJob d j).isNone, stIllegal)
    , (quotaBad (quotaBody b), stIllegal) ] fun _ =>
    done (setQuotas d j (quotaBody b))

/-- JOB_QUOTA: blocked nodes are not tested, since it releases no entries (R178). -/
def execJobQuota (p : CmdPkt) (s : State) : Host.Outcome State Fault Refusal := onCmd 0x0012 p s jobQuotaCmd

/-- JOB_CONFIG. -/
def jobConfigCmd : CmdFn := fun d c =>
  let w := wordAt c.body 0
  let h := field w 63 32
  let x := field w 31 0
  checks d [(h != 0 && (h < 100 || 1000000 < h) || x != 0 && (x < 500 || 100000 < x), stIllegal)] fun _ =>
    done (updJob d c.job fun jb =>
      { jb with hold := if h = 0 then jb.hold else h, haulDrop := if x = 0 then jb.haulDrop else x })

/-- JOB_CONFIG. -/
def execJobConfig (p : CmdPkt) (s : State) : Host.Outcome State Fault Refusal := onCmd 0x0013 p s jobConfigCmd

/-- The reply of JOB_READ (Table 13-8). -/
def jobReadWords (jb : Job) : List W64 :=
  [ jb.commit, mkWord [(sealCode jb.sealSt.state, 56), (jb.attempt, 48), (stepShown jb, 0)]
  , mkWord [(jb.q, 48), (jb.ordinal, 32), (coordinator jb, 0)], 0 ]

/-- JOB_READ changes no state. -/
def jobReadCmd : CmdFn := fun d c =>
  match getJob d c.job with
  | none => fail d stIllegal 0xF002
  | some jb => doneWith d (jobReadWords jb)

/-- JOB_READ. -/
def execJobRead (p : CmdPkt) (s : State) : Host.Outcome State Fault Refusal := onCmd 0x0014 p s jobReadCmd

/-! ## MEMBER_ATTACH, MEMBER_DETACH (R443, R444) -/

/-- Does a port serve, in some job, a member with other homes (R443 check 5)? -/
def homesClash (d : Dev) (a : Nat) (b : Option Nat) : Bool :=
  d.jobs.any fun e => e.2.members.any fun m =>
    let uses (p : Nat) : Bool := m.2.portA == p || m.2.portB == some p
    (uses a || (match b with | some p => uses p | none => false)) && !(m.2.portA == a && m.2.portB == b)

/-- A member that attaches during a step gets no haul end notice for the contexts opened before (Table 9-8). -/
def noEarlierEnds (d : Dev) (j m : Nat) : Dev :=
  let skip (x : Ctx) : Ctx :=
    if x.holder == some j && (x.state == .opened || x.state == .done) then { x with haulEnded := insNat m x.haulEnded } else x
  { d with ctxs := SMap.mapV (fun _ x => skip x) d.ctxs, left := SMap.mapV (fun _ x => skip x) d.left }

/-- MEMBER_ATTACH. -/
def memberAttachCmd : CmdFn := fun d c =>
  let w := wordAt c.body 0
  let m := field w 43 32
  let a := field w 8 0
  let pb := field w 24 16
  let b := if pb = 0x1FF then none else some pb
  let active (p : Nat) : Bool := (getPort d p).role == 1
  let attached := match getJob d c.job with | some jb => SMap.has jb.members m | none => false
  checks d
    [ (rsvdSet w [(63, 44), (31, 25), (15, 9)], stIllegal)
    , (287 < a || (287 < pb && pb != 0x1FF) || a == pb, stIllegal)
    , (!active a || (match b with | some p => !active p | none => false), stIllegal)
    , (attached, stInUse)
    , (homesClash d a b, stInUse) ] fun _ =>
    let mb : Member := { portA := a, portB := b, home := a }
    let d1 := clearCtrs (updJob d c.job fun jb => { jb with members := SMap.set jb.members m { mb with home := homeOf d mb } }) 3 (memberIdx c.job m)
    done (noEarlierEnds d1 c.job m)

/-- MEMBER_ATTACH. -/
def execMemberAttach (p : CmdPkt) (s : State) : Host.Outcome State Fault Refusal := onCmd 0x0015 p s memberAttachCmd

/-- Is a member a source of a rank of the module's group in the map of a context that is DRAINING or OPEN (R444)? -/
def memberSources (d : Dev) (j m : Nat) : Bool :=
  d.ctxs.any fun e =>
    let x := e.2
    let slot := if x.state == .draining then x.next.mapSlot else x.p.mapSlot
    x.holder == some j && (x.state == .draining || x.state == .opened) &&
    (match SMap.get? d.maps slot, getJob d j with
     | some mp, some jb =>
       (rangeFrom (groupBase mp jb.ordinal) (groupSize mp jb.ordinal)).any fun r => (rankSources (rankEntry mp r)).contains m
     | _, _ => false)

/-- MEMBER_DETACH. -/
def memberDetachCmd : CmdFn := fun d c =>
  let w := wordAt c.body 0
  let m := field w 43 32
  let attached := match getJob d c.job with | some jb => SMap.has jb.members m | none => false
  checks d
    [ (rsvdSet w [(63, 44), (31, 0)] || !attached, stIllegal)
    , (memberSources d c.job m, stInUse) ] fun _ =>
    done (detach d c.job m)

/-- MEMBER_DETACH. -/
def execMemberDetach (p : CmdPkt) (s : State) : Host.Outcome State Fault Refusal := onCmd 0x0016 p s memberDetachCmd

end Sys2Proof.Machine
end

