-- ==== Sys2Proof/Machine/Records.lean ====
section
/-!
DEFINITION. Sys2Proof/Machine/Records.lean: the packets and timers of recording and replay (R671, R675 to R680).
-/
namespace Sys2Proof.Machine

/-! ## REC_READ (R675) -/

/-- What makes a REC_READ malformed: its member must be attached to the job. -/
def recReadBad (k : PktRx) (d : Dev) : Option Nat :=
  let w := k.words
  let n := field (wordAt w 2) 31 0
  firstBad
    [ (roleBad d k.port 1, 1)
    , (rsvdSet (wordAt w 2) [(63, 38)], 2)
    , (lenBad w 3, 3)
    , (n % 8 != 0 || n < 8 || 8192 < n || field (wordAt w 2) 37 32 != pktJob w, 5)
    , (((getJob d (pktJob w)).bind fun jb => memberOn jb k.port).isNone, 5) ]

/-- The stream words of a job's active buffer, else of its held record. -/
def recBuffer (jb : Job) : List W64 :=
  match jb.recd with
  | some r => if r.target = 0 then r.words else (jb.heldRec.map (·.2)).getD []
  | none => (jb.heldRec.map (·.2)).getD []

/-- At most `n` bytes of stream words from byte `off` on, in whole words. -/
def recSlice (ws : List W64) (off n : Nat) : List W64 :=
  let have_ := (8 * ws.length - off) / 8
  bytesWords (((wordsBytes ((ws.drop (off / 8)).take (n / 8 + 1))).drop (off % 8)).take (8 * min have_ (n / 8)))

/-- The record extent of that buffer, and how much of it stands in memory. -/
def recStored (jb : Job) : Bool × Nat :=
  match jb.recd with
  | some r => if r.target = 0 then (jb.recSide, r.mem) else (!jb.recSide, 8 * (recBuffer jb).length)
  | none => (!jb.recSide, 8 * (recBuffer jb).length)

/-- Read `n` bytes of a job's record from byte `off` on. Where the memory does not decode, MEM_UE is raised and the bytes read are free
values: the spec gives no other answer to a member (log 95). -/
def recFetch (d : Dev) (j : Nat) (jb : Job) (off n : Nat) : List W64 × Dev :=
  let lo := off / 8 * 8
  let ws := ((recBuffer jb).drop (off / 8)).take (n / 8 + 1)
  let a := readRec d j (recStored jb).1 lo (min (lo + 8 * ws.length) (recStored jb).2 - lo) ws
  match a.bad with
  | some (u, s) =>
    let (fs, d1) := drawMany (memUeTrap a.dev u (jobInfo d j) s 7) ws.length
    (recSlice fs (off % 8) n, d1)
  | none => (recSlice a.ws (off % 8) n, a.dev)

/-- A member's read is answered with one REC_DATA. -/
def recReadIn (d : Dev) (k : PktRx) : Dev :=
  let j := pktJob k.words
  match getJob d j with
  | none => d
  | some jb =>
    let off := wordAt k.words 1
    let (ws, d1) := recFetch d j jb off.toNat (field (wordAt k.words 2) 31 0)
    enqueue d1 k.port { queue := j, vc := 5, words := mkPacket 0x50 j ([off, mkWord [(j, 32), (8 * ws.length, 0)]] ++ ws) }

/-- REC_READ arrives. -/
def execRecRead (k : PktRx) (s : State) : Host.Outcome State Fault Refusal :=
  onArrival k 0x51 (recReadBad k) (fun d => recReadIn d k) s

/-! ## REPLAY_DATA (R677) -/

/-- What makes a REPLAY_DATA malformed. -/
def replayDataBad (k : PktRx) (d : Dev) : Option Nat :=
  let w := k.words
  let n := field (wordAt w 2) 31 0
  firstBad
    [ (roleBad d k.port 1, 1)
    , (rsvdSet (wordAt w 2) [(63, 38)], 2)
    , (n % 8 != 0 || 8192 < n || field (wordAt w 2) 37 32 != pktJob w, 5)
    , (lenBad w (3 + n / 8), 3) ]

/-- Pieces that follow the bytes received so far are joined to them; `fuel` pieces. -/
def joinAhead : Nat → Replay → Replay
  | 0, rp => rp
  | fuel + 1, rp =>
    let at_ := rp.off + 8 * rp.buf.length
    match SMap.get? rp.ahead at_ with
    | some ws => joinAhead fuel { rp with buf := rp.buf ++ ws, ahead := SMap.del rp.ahead at_ }
    | none => rp

/-- Bytes of the stream arrive. A shorter answer leaves the rest to be asked for; an empty one is asked for again after 1 ms. -/
def replayDataIn (d : Dev) (k : PktRx) : Dev :=
  let j := pktJob k.words
  let off := (wordAt k.words 1).toNat
  let ws := k.words.drop 3
  match (getJob d j).bind (·.replay) with
  | none => d
  | some rp =>
    match rp.asked.find? fun a => a.1 == off with
    | none => d
    | some a =>
      if !rp.active || rp.port != k.port || ws.isEmpty || a.2.1 < 8 * ws.length then d
      else
        let d1 := updReplay d j fun rp =>
          joinAhead (rp.ahead.length + 1) { rp with asked := rp.asked.erase a, ahead := SMap.set rp.ahead off ws }
        let left := a.2.1 - 8 * ws.length
        let d2 := if left = 0 then d1 else askReplay d1 j rp.port (off + 8 * ws.length) left
        replayPump d2 j

/-- REPLAY_DATA arrives; with it residues that a seam taking an injected copy has found (R190). -/
def execReplayData (k : ReplayRx) (s : State) : Host.Outcome State Fault Refusal :=
  onArrival k.pkt 0x53 (replayDataBad k.pkt) (fun d =>
    let d1 := replayDataIn d k.pkt
    match k.residue with
    | some r => seamFault d1 (some r.found) r.ctx r.slab r.pass
    | none => d1) s

/-! ## Timers -/

/-- The replay requests of a job that have waited 1 ms are sent again. -/
def resendReplay (d : Dev) (j : Nat) : Dev :=
  match (getJob d j).bind (·.replay) with
  | none => d
  | some rp =>
    if !rp.active then d
    else
      forEach (rp.asked.filter fun a => decide (a.2.2 + 1000 ≤ d.nowUs)) d fun d' a =>
        updReplay (sendReplayReq d' j rp.port a.1 a.2.1) j fun rp =>
          { rp with asked := rp.asked.map fun b => if b.1 == a.1 then (b.1, b.2.1, d.nowUs) else b }

/-- REPLAY_REQ_RESEND. -/
def execReplayReqResend (s : State) : Host.Outcome State Fault Refusal :=
  onDev s fun d => forEach (SMap.keys d.jobs) d resendReplay

/-- A replay whose source port has not been UP for 1 s ends (R680). -/
def replayPortEnd (d : Dev) (j : Nat) : Dev :=
  updReplay d j fun rp =>
    if rp.active && rp.source != 0 && (match rp.downAt with | some t => decide (t + 1000000 ≤ d.nowUs) | none => false) then
      { rp with active := false, asked := [], kept := [], made := [] }
    else rp

/-- REPLAY_PORT_TIMEOUT. -/
def execReplayPortTimeout (s : State) : Host.Outcome State Fault Refusal :=
  onDev s fun d => forEach (SMap.keys d.jobs) d replayPortEnd

/-- A mirror port has not been UP for 10 ms: the records held for it are dropped (R671). -/
def recMirrorLapse (d : Dev) (j : Nat) : Dev :=
  match (getJob d j).bind (·.recd) with
  | none => d
  | some r =>
    if recMirrorDown d r && !r.heldQ.isEmpty then
      let n := r.heldQ.length
      recUnhold (bumpBy d ctrRecDrop j n) j { r with dropped := r.dropped + n, drops := r.drops + n }
    else d

/-- REC_MIRROR_TIMEOUT. -/
def execRecMirrorTimeout (job : Nat) (s : State) : Host.Outcome State Fault Refusal :=
  onUnit (decide (job < 64)) s fun d =>
    recMirrorLapse (match getJob d job with | some jb => forEach jb.recEnded d fun d' _ => onEnded d' job recMirrorLapse | none => d) job

end Sys2Proof.Machine
end

