-- ==== Sys2Proof/Machine/Links.lean ====
section
/-!
DEFINITION. Sys2Proof/Machine/Links.lean: the rows of Lomile Tensor Link (chapter 15): training, flits, replay, credits,
beacons and arbitration.
-/
namespace Sys2Proof.Machine

/-- Does a port number exist? -/
def portOk (p : Nat) : Bool := decide (p < 288)

/-! ## Training (R518 to R522) -/

/-- DOWN_RETRY: a port with a role enters TRAIN, at once or 1 s after a failure. -/
def execDownRetry (port : Nat) (s : State) : Host.Outcome State Fault Refusal :=
  onUnit (portOk port) s fun d =>
    let x := getPort d port
    if x.st == .down && x.role != 0 && linksOn d && !portLost d port && (!x.failed || decide (x.since + 1000000 ≤ d.nowUs)) then
      enterTrain d port
    else d

/-- Words of EQ_HISTORY of a port and set, 0 line and 1 loopback: 8 lanes of two words each (Table 21-2). -/
def eqIndex (port set lane : Nat) : Nat := ((port * 8 + lane) * 2 + set) * 2

/-- The set a port trains with (R701). -/
def eqSet (d : Dev) (port : Nat) : Nat := if portJoined d port && (getPort d port).role == 2 then 1 else 0

/-- Settings in EQ_HISTORY. -/
def eqStoredWords (m : SMap W64) (port set : Nat) : List W64 :=
  (List.range 8).flatMap fun l => [SMap.getD m (eqIndex port set l) 0, SMap.getD m (eqIndex port set l + 1) 0]

/-- Write one word of a sparse body. -/
def putWord (m : SMap W64) (i : Nat) (w : W64) : SMap W64 := if w = 0 then SMap.del m i else SMap.set m i w

/-- A body with the settings of a port and set. -/
def eqPut (m : SMap W64) (port set : Nat) (ws : List W64) : SMap W64 :=
  (List.range 8).foldl (fun m l =>
    putWord (putWord m (eqIndex port set l) (wordAt ws (2 * l))) (eqIndex port set l + 1) (wordAt ws (2 * l + 1))) m

/-- Settings of a full adaptation that differ from the stored ones are written, at most once per port and set in an hour (R520, R688). -/
def eqWriteBack (d : Dev) (port : Nat) (ws : List W64) : Dev :=
  let m := ((flashRead d 0x11).map (·.body)).getD []
  let set := eqSet d port
  let recent := match SMap.get? (getPort d port).eqWrite set with | some t => decide (d.nowUs < t + 3600000000) | none => false
  if recent || eqStoredWords m port set == (List.range 16).map (wordAt ws) then d
  else updPort (flashWrite d 0x11 73728 (eqPut m port set ws)) port fun x => { x with eqWrite := SMap.set x.eqWrite set d.nowUs }

/-- TRAIN_LOCK: TRAIN is left for INIT. `stored` says the stored settings gave lock within 5 ms; `settings` are those of a
full adaptation. A port of a pair being released sends DOWN_NOTICE first (R581 step 2). -/
def execTrainLock (port : Nat) (stored : Bool) (settings : List W64) (s : State) : Host.Outcome State Fault Refusal :=
  onUnit (portOk port) s fun d =>
    let x := getPort d port
    if x.st != .train then d
    else
      let kept := stored && (flashRead d 0x11).isSome && !x.eqFull
      let d1 := if kept then d else eqWriteBack d port settings
      let q := d.fabric.pairs.getD ((port - 256) % 16) {}
      let notice := decide (256 ≤ port) && q.st == .releasing && decide (d.nowUs ≤ q.startAt + 2000000)
      updPort d1 port fun x =>
        let y := { enterInit x d.nowUs with eqStored := kept, eqFull := false }
        if notice then { y with ctl := .downNotice :: y.ctl } else y

/-- TRAIN_TIMEOUT: with FEC lock but no LTL flit the cause is NO_FLIT (R518), otherwise TIMEOUT (log 46). -/
def execTrainTimeout (port : Nat) (fecLock : Bool) (s : State) : Host.Outcome State Fault Refusal :=
  onUnit (portOk port) s fun d =>
    let x := getPort d port
    if x.st == .train && decide (x.since + 200000 ≤ d.nowUs) then trainFail d port (if fecLock then 1 else 3) else d

/-- INIT_COMPLETE: both CREDIT_INIT and BEACON have been sent and received (R519, R521). -/
def execInitComplete (port : Nat) (s : State) : Host.Outcome State Fault Refusal :=
  onLinks (portOk port) s fun d =>
    let x := getPort d port
    if x.st == .init && x.credSent && x.credRcvd && x.beacSent && x.beacRcvd && !x.credLow then
      enterUp (updPort d port fun x => { x with snapAt := d.nowUs, beacAt := d.nowUs }) port
    else d

/-- INIT_TIMEOUT. -/
def execInitTimeout (port : Nat) (s : State) : Host.Outcome State Fault Refusal :=
  onLinks (portOk port) s fun d =>
    let x := getPort d port
    if x.st == .init && decide (x.since + 1000 ≤ d.nowUs) then trainFail d port (if x.credLow then 2 else 3) else d

/-- LOSS_OF_LOCK; `lanes` still have signal and alignment. -/
def execLossOfLock (port lanes : Nat) (s : State) : Host.Outcome State Fault Refusal :=
  onLinks (portOk port) s fun d => enterRetrain d port lanes

/-- RETRAIN_LOCK. -/
def execRetrainLock (port : Nat) (s : State) : Host.Outcome State Fault Refusal :=
  onLinks (portOk port) s fun d => if (getPort d port).st == .retrain then enterUp d port else d

/-- RETRAIN_TIMEOUT. -/
def execRetrainTimeout (port : Nat) (s : State) : Host.Outcome State Fault Refusal :=
  onLinks (portOk port) s fun d =>
    let x := getPort d port
    if x.st == .retrain && decide (x.since + 100000 ≤ d.nowUs) then portDown d port (some 5) else d

/-! ## Received flits (R523 to R526) -/

/-- FEC and CRC accounting of a received flit: does its CRC pass? -/
def flitArrives (d : Dev) (p : Nat) (f : FlitRx) : Dev × Bool :=
  let d1 := if f.fecCorr = 0 then d else bumpBy d ctrFecCorr p f.fecCorr
  let d2 := if f.fecUnc = 0 then d1
    else updPort (bumpBy d1 ctrFecUncorr p f.fecUnc) p fun x =>
      { x with fecLost := (d.nowUs, f.fecUnc) :: x.fecLost.filter fun e => decide (d.nowUs < e.1 + 3600000000) }
  if flitCrc f.hdr f.payload = f.crc then (d2, true) else (bump d2 ctrCrcErr p, false)

/-- Acknowledgment and credit fields of an accepted header. -/
def takeHeader (d : Dev) (p : Nat) (h : W64) : Dev :=
  let d1 := takePortAck d p (field h 31 16)
  stallTick (updPort d1 p fun x => takeCredit x (field h 50 48) (field h 47 32)) p

/-- Is a link exchanging flits? -/
def flitsOn (d : Dev) (p : Nat) : Bool := let x := getPort d p; x.st == .init || x.st == .up

/-- A meaning of a received idle or control flit: its header must say so, and its CKIND be `kind`. -/
def onFlit (port ftype kind : Nat) (f : FlitRx) (s : State) (g : Dev → Dev) : Host.Outcome State Fault Refusal :=
  let w := unitWord (f.payload.getD 0 0) (f.payload.getD 1 0)
  let pass := decide (flitCrc f.hdr f.payload = f.crc)
  let mine := field f.hdr 63 62 == ftype && (ftype != 1 || field w 63 56 == kind)
  onLinks (portOk port && (!pass || mine)) s fun d =>
    if (getPort d port).st == .down then d
    else
      let (d1, ok) := flitArrives d port f
      if ok && flitsOn d port then g (takeHeader d1 port f.hdr) else d1

/-- Payload word `i` of a flit, 0x08 being word 0. -/
def flitWord (f : FlitRx) (i : Nat) : W64 := unitWord (f.payload.getD (2 * i) 0) (f.payload.getD (2 * i + 1) 0)

/-- IDLE_FLIT. -/
def execIdleFlit (port : Nat) (f : FlitRx) (s : State) : Host.Outcome State Fault Refusal := onFlit port 2 0 f s fun d => d

/-- Resends begin (R528): a flit already waiting to be sent again is not queued twice, and the eighth resend of one oldest
flit without progress retrains the link. -/
def beginResend (d : Dev) (p seq : Nat) : Dev :=
  let x := getPort d p
  match x.replay with
  | [] => d
  | o :: _ =>
    if x.redo.contains seq || !(x.replay.any fun f => f.seq == seq) then d
    else
      let n := if seq = o.seq then x.resends + 1 else x.resends
      let d1 := updPort (bump d ctrReplays p) p fun x => { resendFrom x seq with resends := n, ackAt := d.nowUs }
      if 8 ≤ n then enterRetrain d1 p (getPort d p).laneLock else d1

/-- NAK. -/
def execNak (port : Nat) (f : FlitRx) (s : State) : Host.Outcome State Fault Refusal :=
  onFlit port 1 1 f s fun d => beginResend d port (field (flitWord f 0) 15 0)

/-- The eight 16-bit counts of a CREDIT_INIT or CREDIT_SNAP. -/
def creditOf (f : FlitRx) (v : Nat) : Nat := field (flitWord f (1 + v / 4)) (16 * (v % 4) + 15) (16 * (v % 4))

/-- CREDIT_INIT: the partner's advertised credits; a member below Table 15-7 holds the port in INIT. -/
def execCreditInit (port : Nat) (f : FlitRx) (s : State) : Host.Outcome State Fault Refusal :=
  onFlit port 1 2 f s fun d =>
    if (getPort d port).st != .init then d
    else updPort d port fun x =>
      let y := (List.range 8).foldl (fun y v => setTxVc y v { txVc y v with adv := creditOf f v }) x
      { y with credRcvd := true, credLow := x.role == 1 && (List.range 8).any fun v => decide (creditOf f v < minCredits d port v) }

/-- CREDIT_SNAP. -/
def execCreditSnap (port : Nat) (f : FlitRx) (s : State) : Host.Outcome State Fault Refusal :=
  onFlit port 1 3 f s fun d =>
    stallTick (updPort d port fun x => (List.range 8).foldl (fun y v => takeCredit y v (creditOf f v)) x) port

/-- What a BEACON flit says. -/
def beaconOf (f : FlitRx) : Beacon :=
  let w := flitWord f 2
  { serial := flitWord f 1, engine := field w 15 8, pos := field w 7 5, role := field w 1 0 }

/-- The class a pair's monitor gives its side: as if the switch were JOINED (R570, R574). -/
def monitorClass (d : Dev) (p : Nat) : Nat × Nat :=
  let d1 := updPair d ((p - 256) % 16) fun x => { x with st := .joined }
  classify d1 p (beaconGone d1 p)

/-- A pair's monitor decodes a beacon at the connector of port `p`. -/
def monitorSees (d : Dev) (p : Nat) (b : Beacon) : Dev :=
  let q := (p - 256) % 16
  let d1 := updPair d q fun x =>
    if p < 272 then { x with monA := some b, monAtA := d.nowUs } else { x with monB := some b, monAtB := d.nowUs }
  let c := monitorClass d1 p
  let d2 := if !classifying d1 then d1 else updPair d1 q fun x =>
    if p < 272 then { x with clsA := c.1, clsAtA := d.nowUs } else { x with clsB := c.1, clsAtB := d.nowUs }
  if portJoined d2 p then checkPort d2 p else d2

/-- A port receives a beacon: it is classified again when it is UP and the beacon differs from the one that classified it. -/
def portSees (d : Dev) (p : Nat) (b : Beacon) : Dev :=
  let d1 := updPort d p fun x => { x with beacon := some b, beacRxAt := d.nowUs, beacRcvd := x.beacRcvd || x.st == .init }
  let x := getPort d1 p
  if x.st == .up && !portJoined d1 p && (x.clsBeac != some b || x.cls == 5) then checkPort d1 p else d1

/-- BEACON; `monitor`: decoded by the beacon monitor of a bypass pair. -/
def execBeacon (port : Nat) (f : FlitRx) (monitor : Bool) (s : State) : Host.Outcome State Fault Refusal :=
  if monitor then
    onLinks (portOk port && decide (256 ≤ port) && field f.hdr 63 62 == 1 && field (flitWord f 0) 63 56 == 4) s fun d =>
      if linksOn d && decide (flitCrc f.hdr f.payload = f.crc) then monitorSees d port (beaconOf f) else d
  else onFlit port 1 4 f s fun d => portSees d port (beaconOf f)

/-- DOWN_NOTICE: the link goes to DOWN, from RETRAIN too (Table 15-21). What its ACK_SEQ covers is delivered (R525, R559). -/
def execDownNotice (port : Nat) (f : FlitRx) (s : State) : Host.Outcome State Fault Refusal :=
  let pass := decide (flitCrc f.hdr f.payload = f.crc)
  onLinks (portOk port && (!pass || (field f.hdr 63 62 == 1 && field (flitWord f 0) 63 56 == 5))) s fun d =>
    if (getPort d port).st == .down then d
    else
      let (d1, ok) := flitArrives d port f
      if ok then portDown (takeHeader d1 port f.hdr) port (some 4) else d1

/-! ## DATA_FLIT (R527, R528, R533, R542, R576) -/

/-- Packet types a module receives on a port of each role (Tables 15-10, 18-1, 20-7). -/
def typeLegal (role t : Nat) : Bool :=
  match role with
  | 1 => [0x01, 0x10, 0x30, 0x45, 0x47, 0x51, 0x53, 0x70].contains t
  | 2 => [0x20, 0x21, 0x34, 0x35, 0x36, 0x40, 0x41, 0x42, 0x43, 0x44, 0x48, 0x4A, 0x60, 0x61, 0x62, 0x63, 0x64, 0x65, 0x66,
      0x70].contains t
  | _ => false

/-- Does the packet name a kind its type has (Tables 10-3, 18-2, R554)? -/
def kindLegal (role : Nat) (w : List W64) : Bool :=
  let k1 := field (wordAt w 1) 63 60
  match pktType w with
  | 0x65 => decide (1 ≤ k1) && decide (k1 ≤ 10)
  | 0x42 => let k := field (wordAt w 3) 2 0; decide (1 ≤ k) && decide (k ≤ 4)
  | 0x48 => let k := field (wordAt w 2) 57 56; k == 1 || k == 2
  | 0x70 => role == 2 && field (wordAt w 1) 63 56 == 2
  | _ => true

/-- The parser's check of a packet for this module, by its type (R542): the check that its row makes again as it takes the packet. -/
def packetBad (k : PktRx) (d : Dev) : Option Nat :=
  match pktType k.words with
  | 0x01 => carrierBad d k.port { src := .inband k.port, common := wordAt k.words 0, words := k.words.drop 1 }
  | 0x10 => contribBad k d
  | 0x20 => haulBad k d
  | 0x21 => haulAckBad k d
  | 0x30 => hoistReqBad k d
  | 0x34 => remoteReadBad k d
  | 0x35 => remoteDataBad k d
  | 0x36 => remoteStatusBad k d
  | 0x40 => parityDeltaBad k d
  | 0x41 => parityAckBad k d
  | 0x42 => parityCtlBad k d
  | 0x43 => rebuildReqBad k d
  | 0x44 => rebuildDataBad k d
  | 0x45 => slabXferBad k d
  | 0x47 => xferAckBad k d
  | 0x48 => livenessBad k d
  | 0x4A => claimBad k d
  | 0x51 => recReadBad k d
  | 0x53 => replayDataBad k d
  | 0x60 => partialBad k d
  | 0x61 => partialAnsBad k d
  | 0x62 => normBad k d
  | 0x63 => noticeBad k d
  | 0x64 => noticeBad k d
  | 0x65 => sealBad k d
  | 0x66 => msgAckBad k d
  | 0x70 => if (getPort d k.port).role = 2 then ringBad k d else none
  | _ => none

/-- A packet has been parsed: a CONTRIB that fails the classifier ends here (Table 1-3, R373), any other waits for the policer. -/
def classified (d : Dev) (k : PktRx) (vc : Nat) (flits : List Nat) : Dev :=
  let parks := updPort d k.port fun x => { x with parked := x.parked ++ [{ vc := vc, flits := flits, pkt := k }] }
  if pktType k.words = 0x10 then
    match checkContrib d k with
    | .error d' => d'
    | .ok _ => parks
  else parks

/-- A whole packet stands in a VC's receive buffer, in the given flits: spoiled out of service, malformed by the parser's checks, else
classified. A packet for another module is checked no further than its envelope and its common word. -/
def packetArrives (p vc : Nat) (d : Dev) (us : List W32) (flits : List Nat) : Dev :=
  let role := (getPort d p).role
  let env := hasEnvelope role vc
  let ws := unitWords us
  let e := wordAt ws 0
  let w := if env then ws.drop 1 else ws
  let k : PktRx :=
    if env then { port := p, src := field e 47 32, dst := field e 63 48, hops := field e 31 24, words := w }
    else { port := p, words := w }
  let transit := env && k.dst != ownAddr d
  if vc != 7 && !inService d p then bump d ctrCableSpoil p
  else if !typeLegal role (pktType w) || typeVc (pktType w) != vc then malformed d p vc 1 w
  else if (env && field e 23 0 != 0) || !commonOk w then malformed d p vc 2 w
  else if transit then updPort d p fun x => { x with parked := x.parked ++ [{ vc := vc, flits := flits, pkt := k }] }
  else if !kindLegal role w then malformed d p vc 5 w
  else
    match packetBad k d with
    | some r => malformed d p vc r w
    | none => classified d k vc flits

/-- The packets of an accepted flit: the first may have begun in earlier flits. -/
def packetsArrive (p vc cur : Nat) (first : List Nat) (d : Dev) : List (List W32) → Dev
  | [] => d
  | us :: r => packetsArrive p vc cur [cur] (packetArrives p vc d us first) r

/-- A data flit is accepted: its payload goes to its VC, and the policer takes what it may. -/
def acceptFlit (d : Dev) (p : Nat) (f : FlitRx) : Dev :=
  let v := field f.hdr 61 59
  let x := getPort d p
  let r := rxVc x v
  let ok := decide (0 < (r.adv + r.freed + (65536 - r.got % 65536)) % 65536)
  let env := if hasEnvelope x.role v then 2 else 0
  let (r', ps, first) := takePayload env r ok (field f.hdr 58 53) f.payload
  let d1 := bump (updPort d p fun x => { setRxVc x v r' with rxSeq := (x.rxSeq + 1) % 65536, nakAt := none }) ctrFlitsRx p
  let d2 := if ok then d1 else protocolTrap (bump d1 ctrCreditViol p) p
  let d3 := updPort (packetsArrive p v r.got first d2 ps.packets) p settleFreed
  let d4 := if ps.framing then malformed (bump d3 ctrFramingErr p) p v 6 (unitWords (ps.rest.drop env)) else d3
  policeDie d4 (p / 16)

/-- Send a NAK for the expected SEQ. -/
def sendNak (d : Dev) (p : Nat) : Dev :=
  bump (updPort d p fun x => { x with ctl := x.ctl ++ [.nak x.rxSeq], nakAt := some d.nowUs }) ctrNakTx p

/-- DATA_FLIT. -/
def execDataFlit (port : Nat) (f : FlitRx) (s : State) : Host.Outcome State Fault Refusal :=
  let pass := decide (flitCrc f.hdr f.payload = f.crc)
  onLinks (portOk port && (!pass || field f.hdr 63 62 == 0)) s fun d =>
    if (getPort d port).st == .down then d
    else
      let (d1, ok) := flitArrives d port f
      if !flitsOn d port then d1
      else if ok && field f.hdr 15 0 == (getPort d port).rxSeq then acceptFlit (takeHeader d1 port f.hdr) port f
      else if (getPort d port).nakAt.isNone then sendNak d1 port
      else d1

/-- NAK_REPEAT: every 1 µs while no progress is made. -/
def execNakRepeat (port : Nat) (s : State) : Host.Outcome State Fault Refusal :=
  onUnit (portOk port) s fun d =>
    match (getPort d port).nakAt with
    | some t => if flitsOn d port && decide (t + 1 ≤ d.nowUs) then sendNak d port else d
    | none => d

/-- REPLAY_TIMER: 20 µs without progress on the oldest unacknowledged flit. -/
def execReplayTimer (port : Nat) (s : State) : Host.Outcome State Fault Refusal :=
  onLinks (portOk port) s fun d =>
    let x := getPort d port
    match x.replay with
    | o :: _ => if x.st == .up && decide (x.ackAt + 20 ≤ d.nowUs) then beginResend d port o.seq else d
    | [] => d

/-! ## Timers and arbitration (R525, R526, R529, R537) -/

/-- CREDIT_SNAP_TIMER. -/
def execCreditSnapTimer (port : Nat) (s : State) : Host.Outcome State Fault Refusal :=
  onUnit (portOk port) s fun d =>
    let x := getPort d port
    if x.st == .up && decide (x.snapAt + 10 ≤ d.nowUs) then
      updPort d port fun x => { x with ctl := x.ctl ++ [.creditSnap], snapAt := d.nowUs }
    else d

/-- BEACON_TIMER. -/
def execBeaconTimer (port : Nat) (s : State) : Host.Outcome State Fault Refusal :=
  onUnit (portOk port) s fun d =>
    let x := getPort d port
    if x.st == .up && decide (x.beacAt + 100000 ≤ d.nowUs) then
      updPort d port fun x => { x with ctl := x.ctl ++ [.beacon], beacAt := d.nowUs }
    else d

/-- BEACON_MISSING: a planned port without a beacon for 2 s. -/
def execBeaconMissing (port : Nat) (s : State) : Host.Outcome State Fault Refusal :=
  onLinks (portOk port) s fun d =>
    if !classifying d || (planOf d port).kind = 0 then d
    else
      let d1 :=
        if 256 ≤ port then
          let c := monitorClass d port
          if c.1 != 5 then d
          else updPair d ((port - 256) % 16) fun x =>
            if port < 272 then { x with clsA := 5, clsAtA := d.nowUs } else { x with clsB := 5, clsAtB := d.nowUs }
        else d
      if beaconGone d1 port then checkPort d1 port else d1

/-- Weight of a queue (R537, R610). -/
def queueWeight (d : Dev) (key : Nat) : Nat :=
  if key % 65 = 64 then 255
  else match getJob d (key % 65) with | some jb => jb.quotas.weights.getD (key / 65) 64 | none => 64

/-- Put a flit on the fiber: CR_VC rotates. -/
def putFlit (d : Dev) (p ftype vc nextPkt seq : Nat) (us : List W32) : Dev :=
  let d1 := updPort d p fun x => { x with crVc := nextCrVc x x.crVc 8 }
  let hdr := flitHeader (getPort d1 p) ftype vc nextPkt seq
  emitFlit d1 p hdr us

/-- An idle flit. -/
def putIdle (d : Dev) (p : Nat) : Dev := putFlit d p 2 0 63 0 (List.replicate 61 0)

/-- A pending control flit. -/
def putCtl (d : Dev) (p : Nat) (c : CtlFlit) : Dev :=
  let d1 := updPort d p fun x =>
    let y := { x with ctl := x.ctl.drop 1 }
    match c with
    | .creditInit => { y with credSent := true }
    | .beacon => { y with beacSent := y.beacSent || x.st == .init }
    | _ => y
  putFlit d1 p 1 0 63 0 (ctlPayload d.fac.serial p (getPort d p) c)

/-- A data flit: one to be sent again first, else the queues by deficit round robin; none when nothing may go. Out of service the
module sends nothing on VC0 to VC6, also not again: what waits to be sent again waits on (R576). -/
def putData (d : Dev) (p : Nat) : Option Dev :=
  let x := getPort d p
  match x.redo with
  | q :: r =>
    let d1 := updPort d p fun x => { x with redo := r }
    match x.replay.find? fun f => f.seq == q with
    | some f => if f.vc != 7 && !inService d p then none else some (bump (putFlit d1 p 0 f.vc f.nextPkt f.seq f.payload) ctrFlitsTx p)
    | none => some (putIdle d1 p)
  | [] =>
    if 8192 ≤ x.replay.length then none
    else
      match sendData (inService d p) (queueWeight d) x d.nowUs with
      | none => none
      | some (y, f) =>
        some (bump (putFlit (setPort d p y) p 0 f.vc f.nextPkt f.seq f.payload) ctrFlitsTx p)

/-- FLIT_ARBITRATION: a control flit, a data flit, or an idle flit. Records held for a credit of the port go on, and the policer of the port's die
looks again at what it holds. -/
def execFlitArbitration (port : Nat) (s : State) : Host.Outcome State Fault Refusal :=
  onUnit (portOk port) s fun d0 =>
    let x := getPort d0 port
    let d1 := if x.st == .up then wakeRecords d0 port else d0
    let d := policeDie (if x.st == .up || x.st == .retrain then stallTick d1 port else d1) (port / 16)
    match x.st, x.ctl with
    | .down, _ => d
    | .init, c :: _ => putCtl d port c
    | .up, c :: _ => putCtl d port c
    | .up, [] => (putData d port).getD (putIdle d port)
    | _, _ => putIdle d port

end Sys2Proof.Machine
end

