-- ==== Sys2Proof/Machine/Pools.lean ====
section
/-!
DEFINITION. Sys2Proof/Machine/Pools.lean: the three requests of the buffer pool manager (R594 to R598).
-/
namespace Sys2Proof.Machine

/-- Does the number name a requester (Table 17-2)? -/
def isRequester (r : Nat) : Bool := r < 12 || (16 ≤ r && r < 47)

/-- Record the manager's answer. -/
def poolAnswer (d : Dev) (h : Option Nat) : Dev := { d with pools := { d.pools with answer := h } }

/-- POOL_FAULT: the trap names the handle and the requester (R598). -/
def poolFault (d : Dev) (h req : Nat) : Dev :=
  raiseTrap (poolAnswer d none)
    { cause := 0xA0, kind := 9, unit := h / 2 ^ 18 % 64, details := [BitVec.ofNat 64 h, BitVec.ofNat 64 req] }

/-- A restore of a job ends with ST_UNIT_FAIL: what it waited for is dropped, and the commit word stands. -/
def failRestore (d : Dev) (j : Nat) : Dev :=
  let d1 := updJob d j fun jb => { jb with loads := jb.loads.filter fun l => l.kind != 1 }
  finishCmds (dropHeld d1 j fun h => h.ptype == 0x46 && h.key.getD 0 0 == 1) (cmdOf j 0x52) (plainReply stUnitFail 0)

/-- The procedure that asked in vain for a buffer of pool 61 ends with ST_UNIT_FAIL where it has a reply (R614). A request that names
a job is of that job's rebuild or restore; one that names none, of the retirements that SPARE_RETIREs wait for (DESIGN CHOICE,
log 107). -/
def procFails (d : Dev) (job : Option Nat) : Dev :=
  match job with
  | none => finishCmds d (fun w => w.opcode == 0x71) (plainReply stUnitFail 0)
  | some j =>
    match getJob d j with
    | none => d
    | some jb =>
      let d1 := if jb.rebuild.isSome then refuseRebuild d j stUnitFail else d
      if jb.loads.any fun l => l.kind == 1 then failRestore d1 j else d1

/-- ALLOC (R595, R596, R601): granted or failed at once. -/
def execAlloc (pool requester : Nat) (job : Option Nat) (s : State) : Host.Outcome State Fault Refusal :=
  onUnit (pool < 64 && isRequester requester && (match job with | some j => decide (j < 64) | none => true)) s fun d =>
    let (d1, h) := allocOp d pool requester job
    let d2 := poolAnswer d1 h
    if pool == 61 && h.isNone then poolsSettle (procFails d2 job) else d2

/-- ADDREF (R594, R598): refused at a count of 255; a handle of no allocated buffer raises POOL_FAULT. -/
def execAddref (handle requester : Nat) (s : State) : Host.Outcome State Fault Refusal :=
  onUnit (handle < 2 ^ 24 && isRequester requester) s fun d =>
    match SMap.get? d.pools.bufs handle with
    | none => poolFault d handle requester
    | some b =>
      if 255 ≤ b.refs then poolAnswer (bump d ctrRefSat (handle / 2 ^ 18)) none
      else
        poolAnswer { d with pools := { d.pools with bufs := SMap.set d.pools.bufs handle { b with refs := b.refs + 1 } } }
          (some handle)

/-- RELEASE (R594, R598). -/
def execReleaseBuf (handle requester : Nat) (s : State) : Host.Outcome State Fault Refusal :=
  onUnit (handle < 2 ^ 24 && isRequester requester) s fun d =>
    match SMap.get? d.pools.bufs handle with
    | none => poolFault d handle requester
    | some _ => poolAnswer (poolRelease d handle) (some handle)

end Sys2Proof.Machine
end

