-- ==== Sys2Proof/Machine/StoreCmds.lean ====
section
/-!
DEFINITION. Sys2Proof/Machine/StoreCmds.lean: the commands of regions, parameters and loadable objects (R445 to R456).
-/
namespace Sys2Proof.Machine

/-! ## Space (R269) -/

/-- The cases of R269 in which a region finds no room: die, protected bytes, quota. -/
def noMem (d : Dev) (jb : Job) (rn : Nat) (r : Region) : Bool × Bool × Bool :=
  ( (List.range 4).any fun u => decide (dieFree d u < dieNeed jb.q jb.ordinal rn r u)
  , decide (448 * 2 ^ 30 < sumRegions d (fun q o _ x => protBytes q o x) + protBytes jb.q jb.ordinal r)
  , decide (jb.quotas.memMib * 2 ^ 20 < jb.charge + regionBytes jb.q jb.ordinal rn r) )

/-- Count them. -/
def countNoMem (d : Dev) (j : Nat) (n : Bool × Bool × Bool) : Dev :=
  let d1 := if n.1 then bump d ctrNoMemDie j else d
  let d2 := if n.2.1 then bump d1 ctrNoMemParity j else d1
  if n.2.2 then quotaHit (bump d2 ctrNoMemQuota j) j 6 else d2

/-! ## REGION_CREATE (R254 to R256, R445) -/

/-- The region a body describes; STATE_EN is that of its rule slot. -/
def bodyRegion (jb : Job) (en : Nat) (b : List W64) : Region :=
  { length := field (wordAt b 0) 42 0
    rule := field (wordAt b 1) 59 48
    fmts := (List.range 4).map fun i => BitVec.ofNat 8 (field (wordAt b 1) (8 * i + 7) (8 * i))
    stateEn := en
    deal := field (wordAt b 2) 8 0
    haul := [BitVec.ofNat 8 jb.haulFmt]
    tag := mkTag true true true (baseTagStep jb) }

/-- Regions of the module. -/
def regionCount (d : Dev) : Nat := d.jobs.foldl (fun a e => a + e.2.regions.length) 0

/-- Reserve a region and send the base delta of every tag word (R270, R621). -/
def createRegion (d : Dev) (j rn : Nat) (jb : Job) (r : Region) : Dev :=
  let d0 := updJob (syncExts d) j fun jb =>
    { jb with regions := SMap.set jb.regions rn r, charge := jb.charge + regionBytes jb.q jb.ordinal rn r
              members := SMap.mapV (fun _ m => { m with subs := SMap.del m.subs rn, was := SMap.del m.was rn }) jb.members }
  let d1 := clearRegion (syncExts d0) j jb r rn
  let step := tagStep r.tag
  forEach (ownedSlabs jb r) d1 fun d' k =>
    let (op, d2) := nextBaseOp d' j rn
    sendDelta d2 j rn k (imageLen r - 1) { step := step, attempt := op, base := true } [mkTag false false true step]

/-- A command on a region answers ST_OK when no base delta of the region is outstanding (R621). -/
def endRegionCmd (d : Dev) (c : Cmd) (rn : Nat) : Dev × Option Reply :=
  match getJob d c.job with
  | some jb => if baseBusy jb rn then (waitOn d c rn, none) else done d
  | none => done d

/-- REGION_CREATE. Another job's rule slot is refused with ST_AUTH (R219, R410). -/
def regionCreateCmd : CmdFn := fun d c =>
  match getJob d c.job with
  | none => fail d stIllegal 0xF002
  | some jb =>
    let b := c.body
    let w := wordAt b 0
    let rn := field w 61 48
    let len := field w 42 0
    let named := SMap.get? d.rules (field (wordAt b 1) 59 48)
    let slot := named.filter fun s => s.job == c.job
    let en := match slot with | some s => rsStateEn s.words | none => 0
    let r := bodyRegion jb en b
    let fmt (i : Nat) : Byte := r.fmts.getD i 0
    let has (i : Nat) : Bool := (en / 2 ^ i) % 2 == 1
    let nm := noMem d jb rn r
    checks d
      [ (rsvdSet w [(63, 62), (47, 43)] || rsvdSet (wordAt b 1) [(63, 60), (47, 32)] || rsvdSet (wordAt b 2) [(63, 9)], stIllegal)
      , (len == 0 || decide (2 ^ 42 < len), stIllegal)
      , (slot.isNone, if named.isSome then stAuth else stIllegal)
      , (!ofmtStoreOk (fmt 0), stIllegal)
      , ((List.range 3).any fun i => has i && !ofmtStoreOk (fmt (i + 1)), stIllegal)
      , ((List.range 3).any fun i => !has i && fmt (i + 1) != 0, stIllegal)
      , (decide (jb.q ≤ r.deal), stIllegal)
      , ((getRegion jb rn).isSome, stInUse) ] fun _ =>
      if jb.quotas.region ≤ jb.regions.length then fail (quotaHit d c.job 5) stLimit 9
      else if 65536 ≤ regionCount d then fail d stLimit 9
      else if nm.1 || nm.2.1 || nm.2.2 then fail (countNoMem d c.job nm) stNoMem 10
      else endRegionCmd (createRegion d c.job rn jb r) c rn

/-- REGION_CREATE. -/
def execRegionCreate (p : CmdPkt) (s : State) : Host.Outcome State Fault Refusal := onCmd 0x0020 p s regionCreateCmd

/-! ## REGION_DESTROY (R446, R621) -/

/-- The region a context names. -/
def ctxRegion (x : Ctx) : Nat := if x.state == .draining then x.next.region else x.p.region

/-- Is a context in DRAINING, OPEN or DONE? -/
def ctxInUse (x : Ctx) : Bool := x.state == .draining || x.state == .opened || x.state == .done

/-- Is a region in use (R446 check 2)? -/
def regionUsed (d : Dev) (j : Nat) (jb : Job) (rn : Nat) : Bool :=
  (d.ctxs.any fun e => e.2.holder == some j && ctxInUse e.2 && ctxRegion e.2 == rn) ||
  regionInFlight jb rn || (jb.hoists.any fun h => h.region == rn) || (jb.reads.any fun r => r.region == rn) ||
  (jb.loads.any fun l => l.kind == 1 || l.region == rn) || jb.snap.active

/-- The region goes: every owned image leaves the parity, then the extents are free. -/
def destroyRegion (d : Dev) (j rn : Nat) (jb : Job) (r : Region) : Dev :=
  let d1 := forEach (ownedSlabs jb r) (readSlabs d j 2 ((ownedSlabs jb r).map fun k => (rn, k))).1 fun d' k =>
    let (op, d2) := nextBaseOp d' j rn
    let s := getSlab r k
    let step := match validCopy jb.commit s with | some c => tagStep (slabTag s c) | none => 0
    setDamaged (sendDelta d2 j rn k 0 { step := step, attempt := op, base := true } (slabImage jb r k)) j rn k false
  updJob d1 j fun jb =>
    { jb with regions := SMap.del jb.regions rn, charge := jb.charge - regionBytes jb.q jb.ordinal rn r }

/-- REGION_DESTROY. -/
def regionDestroyCmd : CmdFn := fun d c =>
  match getJob d c.job with
  | none => fail d stIllegal 0xF002
  | some jb =>
    let w := wordAt c.body 0
    let rn := field w 61 48
    checks d [(rsvdSet w [(63, 62), (47, 0)] || (getRegion jb rn).isNone, stIllegal), (regionUsed d c.job jb rn, stInUse)] fun _ =>
      match getRegion jb rn with
      | some r => endRegionCmd (destroyRegion d c.job rn jb r) c rn
      | none => fail d stIllegal 1

/-- REGION_DESTROY. -/
def execRegionDestroy (p : CmdPkt) (s : State) : Host.Outcome State Fault Refusal := onCmd 0x0021 p s regionDestroyCmd

/-! ## PARAM_LOAD (R447 to R449) -/

/-- May a base write of the region not begin (R274, R448 check 4)? -/
def loadBlocked (d : Dev) (j : Nat) (jb : Job) (rn : Nat) : Bool :=
  (d.ctxs.any fun e => e.2.holder == some j && (e.2.state == .draining || e.2.state == .opened) && ctxRegion e.2 == rn) ||
  jb.sealSt.state != .opened || (jb.loads.any fun l => l.kind == 2 && l.region == rn) || regionInFlight jb rn

/-- PARAM_LOAD: the reply follows when every owned slab is written or missing. -/
def paramLoadCmd : CmdFn := fun d c =>
  match getJob d c.job with
  | none => fail d stIllegal 0xF002
  | some jb =>
    let b := c.body
    let w := wordAt b 0
    let rn := field w 61 48
    let m := field w 43 32
    let first := field w 31 0
    let n := field (wordAt b 1) 63 32
    let count := match getRegion jb rn with | some r => nSlabs r | none => 0
    checks d
      [ (rsvdSet w [(63, 62), (47, 44)] || rsvdSet (wordAt b 1) [(31, 1)] || wordAt b 3 != 0, stIllegal)
      , ((getRegion jb rn).isNone || n == 0 || decide (count < first + n), stIllegal)
      , (!SMap.has jb.members m, stIllegal)
      , (loadBlocked d c.job jb rn, stInUse) ] fun _ =>
      match getRegion jb rn with
      | none => fail d stIllegal 2
      | some r =>
        let l : Load := { kind := 2, member := m, region := rn, object := wordAt b 2, states := flag (wordAt b 1) 0 }
        let d1 := startLoad (waitOn d c rn) c.job l [(rn, (rangeFrom first n).filter (ownsSlab jb r))]
        (baseSettle d1 c.job, none)

/-- PARAM_LOAD. -/
def execParamLoad (p : CmdPkt) (s : State) : Host.Outcome State Fault Refusal := onCmd 0x0022 p s paramLoadCmd

/-! ## HAUL_SET, HAUL_SUB (R290 to R292, R450, R451) -/

/-- A region under a new haul list: the haul of steps before `step` keeps the old one (R292). -/
def keepHaul (step : Nat) (r : Region) (l : List Byte) : Region :=
  { r with haul := l, haulWas := match r.haulWas with | some (s, o) => if s = step then some (s, o) else some (step, r.haul) | none => some (step, r.haul) }

/-- HAUL_SET. -/
def haulSetCmd : CmdFn := fun d c =>
  match getJob d c.job with
  | none => fail d stIllegal 0xF002
  | some jb =>
    let w := wordAt c.body 0
    let rn := field w 29 16
    let n := field w 1 0 + 1
    let hf (i : Nat) : Byte := BitVec.ofNat 8 (field w (39 + 8 * i) (32 + 8 * i))
    let beyond (m : Member) : Bool := match haulSub m rn with | some i => decide (n ≤ i) | none => false
    checks d
      [ (rsvdSet w [(31, 30), (15, 2)] || (List.range 4).any (fun i => decide (n ≤ i) && hf i != 0), stIllegal)
      , ((getRegion jb rn).isNone, stIllegal)
      , ((List.range n).any fun i => !ofmtHaulOk (hf i), stIllegal)
      , (regionInFlight jb rn || jb.members.any (fun e => beyond e.2), stInUse) ] fun _ =>
      done (updJob d c.job fun jb => { jb with regions := SMap.upd jb.regions rn fun r => keepHaul jb.stepCur r ((List.range n).map hf) })

/-- HAUL_SET. -/
def execHaulSet (p : CmdPkt) (s : State) : Host.Outcome State Fault Refusal := onCmd 0x0023 p s haulSetCmd

/-- A subscription as it is kept: index 0 is not listed (R291). -/
def putSub (subs : SMap (Option Nat)) (rn : Nat) (off : Bool) (i : Nat) : SMap (Option Nat) :=
  if off then SMap.set subs rn none else if i = 0 then SMap.del subs rn else SMap.set subs rn (some i)

/-- A member under a new subscription: the haul of steps before `step` keeps the old one (R292). -/
def keepSub (step rn : Nat) (mb : Member) (off : Bool) (i : Nat) : Member :=
  let old := match SMap.get? mb.was rn with | some (s, o) => if s = step then o else haulSub mb rn | none => haulSub mb rn
  { mb with subs := putSub mb.subs rn off i, was := SMap.set mb.was rn (step, old) }

/-- HAUL_SUB. -/
def haulSubCmd : CmdFn := fun d c =>
  match getJob d c.job with
  | none => fail d stIllegal 0xF002
  | some jb =>
    let w := wordAt c.body 0
    let m := field w 43 32
    let rn := field w 29 16
    let i := field w 1 0
    let len := match getRegion jb rn with | some r => r.haul.length | none => 0
    checks d
      [ (rsvdSet w [(63, 44), (31, 30), (15, 3)] || (flag w 2 && i != 0), stIllegal)
      , (c.sender.role == 4 && m != c.sender.who, stAuth)
      , (!SMap.has jb.members m || (getRegion jb rn).isNone, stIllegal)
      , (decide (len ≤ i), stIllegal)
      , (regionInFlight jb rn, stInUse) ] fun _ =>
      done (updJob d c.job fun jb =>
        { jb with members := SMap.upd jb.members m fun mb => keepSub jb.stepCur rn mb (flag w 2) i })

/-- HAUL_SUB. -/
def execHaulSub (p : CmdPkt) (s : State) : Host.Outcome State Fault Refusal := onCmd 0x0024 p s haulSubCmd

/-! ## RANKMAP_LOAD (R129 to R132, R452) -/

/-- Words of the group entries. -/
def groupWords (ng : Nat) : Nat := (ng + 3) / 4
/-- NGROUP of a map. -/
def mapGroups (b : List W64) : Nat := field (wordAt b 0) 25 16
/-- NRANK of a map. -/
def mapRanks (b : List W64) : Nat := field (wordAt b 0) 12 0
/-- Group entry `i` of a map, all 16 bits. -/
def groupField (b : List W64) (i : Nat) : Nat := field (wordAt b (1 + i / 4)) (16 * (i % 4) + 15) (16 * (i % 4))
/-- Word of rank `r`'s entry. -/
def rankWord (b : List W64) (r : Nat) : W64 := wordAt b (1 + groupWords (mapGroups b) + r)

/-- A rank slot entry (Table 4-3). -/
def rankOf (w : W64) : RankEntry := { pri := field w 43 32, bak := field w 27 16, prefer := flag w 1, bakEn := flag w 0 }

/-- The map a payload carries. -/
def bodyMap (j : Nat) (b : List W64) : RankMap :=
  { job := j, dupPoison := flag (wordAt b 0) 32, nmemb := (List.range (mapGroups b)).map fun i => groupField b i % 2 ^ 13
    ranks := (List.range (mapRanks b)).map fun r => rankOf (rankWord b r), crc := crcWords b }

/-- Has the map a RSVD bit or a padding byte set? -/
def mapRsvd (b : List W64) : Bool :=
  let ng := mapGroups b
  rsvdSet (wordAt b 0) [(63, 33), (31, 26), (15, 13)] ||
  ((List.range (4 * groupWords ng)).any fun i => if i < ng then decide (2 ^ 13 ≤ groupField b i) else groupField b i != 0) ||
  ((List.range (mapRanks b)).any fun r => rsvdSet (rankWord b r) [(63, 44), (31, 28), (15, 2)])

/-- Entries of the module's own group. -/
def ownRanks (jb : Job) (m : RankMap) : List RankEntry := (m.ranks.drop (groupBase m jb.ordinal)).take (groupSize m jb.ordinal)

/-- Is a rank map slot in use (R130, R456)? -/
def mapUsed (d : Dev) (slot : Nat) : Bool :=
  d.ctxs.any fun e => ctxInUse e.2 && (if e.2.state == .draining then e.2.next.mapSlot else e.2.p.mapSlot) == slot

/-- RANKMAP_LOAD. -/
def rankmapLoadCmd : CmdFn := fun d c =>
  match getJob d c.job with
  | none => fail d stIllegal 0xF002
  | some jb =>
    let w := wordAt c.body 0
    let slot := field w 7 0
    let b := c.body.drop 1
    let m := bodyMap c.job b
    let held := SMap.get? d.maps slot
    let own := (ownRanks jb m).flatMap rankSources
    checks d
      [ (rsvdSet w [(63, 8)], stIllegal)
      , (match held with | some h => h.job != c.job | none => false, stAuth)
      , (b.length != 1 + groupWords (mapGroups b) + mapRanks b, stIllegal)
      , (mapRsvd b, stIllegal)
      , (mapRanks b == 0 || decide (4096 < mapRanks b), stIllegal)
      , (mapGroups b != jb.q, stIllegal)
      , (m.nmemb.foldl (· + ·) 0 != mapRanks b, stIllegal)
      , (m.ranks.any fun e => !e.bakEn && e.bak != 0, stIllegal)
      , (m.ranks.any fun e => e.prefer && !e.bakEn, stIllegal)
      , (m.ranks.any fun e => e.bakEn && e.pri == e.bak, stIllegal)
      , (own.any fun x => !SMap.has jb.members x, stIllegal)
      , (!decide own.Nodup, stIllegal)
      , (mapUsed d slot, stInUse) ] fun _ =>
      if held.isNone && 32 ≤ (d.maps.filter fun e => e.2.job == c.job).length then fail (quotaHit d c.job 8) stLimit 14
      else done { d with maps := SMap.set d.maps slot m }

/-- RANKMAP_LOAD. -/
def execRankmapLoad (p : CmdPkt) (s : State) : Host.Outcome State Fault Refusal := onCmd 0x0025 p s rankmapLoadCmd

/-! ## RULE_LOAD, SCHED_LOAD, SCHED_READ (R453 to R455) -/

/-- Does a region satisfying `p` belong to the job? -/
def anyRegion (jb : Job) (p : Nat → Region → Bool) : Bool := jb.regions.any fun e => p e.1 e.2

/-- R222 applies to a rule slot: a step in flight runs with it. -/
def ruleInStep (jb : Job) (slot : Nat) : Bool := anyRegion jb fun rn r => r.rule == slot && regionInFlight jb rn

/-- R256 applies to a rule slot: a region's arrays would not fit it. -/
def ruleChanges (jb : Job) (slot : Nat) (words : List W64) : Bool :=
  anyRegion jb fun _ r => r.rule == slot && rsStateEn words != r.stateEn

/-- Does the slot or entry a job's word names belong to the job? -/
def entryOf (d : Dev) (j e : Nat) : Bool := match SMap.get? d.scheds e with | some x => x.job == j | none => false

/-- Is a schedule entry another job's? -/
def entryElse (d : Dev) (j e : Nat) : Bool := match SMap.get? d.scheds e with | some x => x.job != j | none => false

/-- RULE_LOAD. Another job's schedule entry is refused with ST_AUTH (R239, R410). -/
def ruleLoadCmd : CmdFn := fun d c =>
  match getJob d c.job with
  | none => fail d stIllegal 0xF002
  | some jb =>
    let w := wordAt c.body 0
    let slot := field w 11 0
    let r := c.body.drop 1
    let held := SMap.get? d.rules slot
    let code := ruleCheck r (entryOf d c.job (rsEntry r))
    checks d [(rsvdSet w [(63, 12)], stIllegal), (match held with | some h => h.job != c.job | none => false, stAuth)] fun _ =>
      if code != 0 then fail (bump d ctrRuleReject c.job) (if code = 0x0B && entryElse d c.job (rsEntry r) then stAuth else stIllegal) (code + 2)
      else if ruleInStep jb slot then fail (bump d ctrRuleReject c.job) stInUse 0x0E
      else if ruleChanges jb slot r then fail d stInUse 0x0E
      else if held.isNone && 256 ≤ (d.rules.filter fun e => e.2.job == c.job).length then fail (quotaHit d c.job 9) stLimit 0x0F
      else done { d with rules := SMap.set d.rules slot { job := c.job, words := r } }

/-- RULE_LOAD. -/
def execRuleLoad (p : CmdPkt) (s : State) : Host.Outcome State Fault Refusal := onCmd 0x0026 p s ruleLoadCmd

/-- R242 applies to a schedule entry. -/
def schedUsed (d : Dev) (j : Nat) (jb : Job) (e : Nat) : Bool :=
  anyRegion jb fun rn r => regionInFlight jb rn &&
    (match SMap.get? d.rules r.rule with | some s => s.job == j && rsEntry s.words == e | none => false)

/-- SCHED_LOAD. -/
def schedLoadCmd : CmdFn := fun d c =>
  match getJob d c.job with
  | none => fail d stIllegal 0xF002
  | some jb =>
    let w := wordAt c.body 0
    let e := field w 11 0
    let ws := c.body.drop 1
    let held := SMap.get? d.scheds e
    let code := schedCheck ws
    checks d [(rsvdSet w [(63, 12)], stIllegal), (match held with | some h => h.job != c.job | none => false, stAuth)] fun _ =>
      if code != 0 then fail (bump d ctrSchedReject c.job) stIllegal (code + 2)
      else if schedUsed d c.job jb e then fail (bump d ctrSchedReject c.job) stInUse 0x0F
      else if held.isNone && 256 ≤ (d.scheds.filter fun x => x.2.job == c.job).length then fail (quotaHit d c.job 10) stLimit 0x10
      else done { d with scheds := SMap.set d.scheds e { job := c.job, words := ws } }

/-- SCHED_LOAD. -/
def execSchedLoad (p : CmdPkt) (s : State) : Host.Outcome State Fault Refusal := onCmd 0x0027 p s schedLoadCmd

/-- SCHED_READ changes no state (R251). -/
def schedReadCmd : CmdFn := fun d c =>
  let w := wordAt c.body 0
  let x := wordAt c.body 1
  let held := SMap.get? d.scheds (field w 11 0)
  checks d
    [ (rsvdSet w [(63, 12)] || rsvdSet x [(63, 48)], stIllegal)
    , (match held with | some h => h.job != c.job | none => false, stAuth)
    , (held.isNone, stIllegal) ] fun _ =>
    match held with
    | some h =>
      let v := schedule h.words (field x 47 0)
      doneWith d [v.lr, v.k1, v.k2, v.k3]
    | none => fail d stIllegal 3

/-- SCHED_READ. -/
def execSchedRead (p : CmdPkt) (s : State) : Host.Outcome State Fault Refusal := onCmd 0x0028 p s schedReadCmd

/-! ## OBJ_FREE (R456) -/

/-- The job that holds an object. -/
def objJob (d : Dev) (kind i : Nat) : Option Nat :=
  match kind with
  | 1 => (SMap.get? d.maps i).map (·.job)
  | 2 => (SMap.get? d.rules i).map (·.job)
  | _ => (SMap.get? d.scheds i).map (·.job)

/-- Is the object in use? -/
def objUsed (d : Dev) (j : Nat) (kind i : Nat) : Bool :=
  match kind with
  | 1 => mapUsed d i
  | 2 => match getJob d j with | some jb => anyRegion jb fun _ r => r.rule == i | none => false
  | _ => d.rules.any fun e => e.2.job == j && rsEntry e.2.words == i

/-- Return an object. -/
def freeObj (d : Dev) (kind i : Nat) : Dev :=
  match kind with
  | 1 => { d with maps := SMap.del d.maps i }
  | 2 => { d with rules := SMap.del d.rules i }
  | _ => { d with scheds := SMap.del d.scheds i }

/-- OBJ_FREE. -/
def objFreeCmd : CmdFn := fun d c =>
  let w := wordAt c.body 0
  let kind := field w 63 56
  let i := field w 11 0
  let holder := objJob d kind i
  checks d
    [ (rsvdSet w [(55, 12)] || kind == 0 || decide (3 < kind) || (kind == 1 && decide (255 < i)), stIllegal)
    , (match holder with | some h => h != c.job | none => false, stAuth)
    , (holder.isNone, stIllegal)
    , (objUsed d c.job kind i, stInUse) ] fun _ =>
    done (freeObj d kind i)

/-- OBJ_FREE. -/
def execObjFree (p : CmdPkt) (s : State) : Host.Outcome State Fault Refusal := onCmd 0x0029 p s objFreeCmd

end Sys2Proof.Machine
end

