-- ==== Sys2Proof/Machine/StepCmds.lean ====
section
/-!
DEFINITION. Sys2Proof/Machine/StepCmds.lean: the commands of steps, snapshots, parity and rebuild, and of record, replay and
reference mode (R466 to R479).
-/
namespace Sys2Proof.Machine

/-! ## STEP_SEAL, STEP_ABORT, STEP_POISON (R466 to R468) -/

/-- STEP_SEAL: the reply follows the outcome of the seal exchange (R342). -/
def stepSealCmd : CmdFn := fun d c =>
  let w := wordAt c.body 0
  let s := field w 47 0
  match getJob d c.job with
  | none => fail d stIllegal 0xF002
  | some jb =>
    checks d [(rsvdSet w [(63, 48)], stIllegal), (s != jb.stepCur, stIllegal)] fun _ => (requestSeal (waitOn d c s) c.job false, none)

/-- STEP_SEAL. -/
def execStepSeal (p : CmdPkt) (s : State) : Host.Outcome State Fault Refusal := onStepCmd 0x0048 p s stepSealCmd

/-- STEP_ABORT: the reply follows the abort, or the seal that was decided before it (R349). -/
def stepAbortCmd : CmdFn := fun d c =>
  let w := wordAt c.body 0
  match getJob d c.job with
  | none => fail d stIllegal 0xF002
  | some jb =>
    checks d
      [ (rsvdSet w [(63, 56)], stIllegal)
      , (field w 47 0 != jb.stepCur || field w 55 48 != jb.attempt, stStaleStep)
      , (jb.sealSt.decision == .seal, stStepDecided) ] fun _ =>
      (requestAbort (waitOn d c (field w 55 0)) c.job 0x50, none)

/-- STEP_ABORT. -/
def execStepAbort (p : CmdPkt) (s : State) : Host.Outcome State Fault Refusal := onStepCmd 0x0049 p s stepAbortCmd

/-- Does a member source a rank in a rank map of the job on the module? -/
def sourcesRank (d : Dev) (j : Nat) (jb : Job) (m r : Nat) : Bool :=
  d.maps.any fun e => e.2.job == j && decide (groupBase e.2 jb.ordinal ≤ r) &&
    decide (r < groupBase e.2 jb.ordinal + groupSize e.2 jb.ordinal) && (rankSources (rankEntry e.2 r)).contains m

/-- STEP_POISON. -/
def stepPoisonCmd : CmdFn := fun d c =>
  let b := c.body
  let w := wordAt b 0
  let x := wordAt b 1
  let r := field x 43 32
  match getJob d c.job with
  | none => fail d stIllegal 0xF002
  | some jb =>
    checks d
      [ (rsvdSet w [(63, 56)] || rsvdSet x [(63, 44), (31, 16), (7, 2)] || field x 1 0 == 3, stIllegal)
      , (c.sender.role == 4 && !sourcesRank d c.job jb c.sender.who r, stAuth) ] fun _ =>
      match poisonLate jb b with
      | some (k, st, ctr) => fail (bump d ctr c.job) st k
      | none => done (poisonStep d c.job r (field x 15 8) b)

/-- STEP_POISON. -/
def execStepPoison (p : CmdPkt) (s : State) : Host.Outcome State Fault Refusal := onStepCmd 0x004A p s stepPoisonCmd

/-! ## Snapshots (R469 to R472) -/

/-- SNAP_CONFIG: the setting is in force from the job's next seal. -/
def snapConfigCmd : CmdFn := fun d c =>
  let w := wordAt c.body 0
  let x := wordAt c.body 1
  let en := field w 19 16
  let n := field w 9 0
  let mems := (List.range 4).map fun i => field x (16 * i + 11) (16 * i)
  match getJob d c.job with
  | none => fail d stIllegal 0xF002
  | some jb =>
    checks d
      [ (rsvdSet w [(63, 20), (15, 10)] || rsvdSet x [(63, 60), (47, 44), (31, 28), (15, 12)], stIllegal)
      , (n == 0 || decide (1000 < n), stIllegal)
      , (en == 0, stIllegal)
      , ((List.range 4).any fun i => flag w (16 + i) && !SMap.has jb.members (mems.getD i 0), stIllegal) ] fun _ =>
      done (updJob d c.job fun jb => { jb with snapNext := some (n, en, mems) })

/-- SNAP_CONFIG. -/
def execSnapConfig (p : CmdPkt) (s : State) : Host.Outcome State Fault Refusal := onCmd 0x0050 p s snapConfigCmd

/-- SNAP_TAKE: the reply follows when the whole snapshot is acknowledged. -/
def snapTakeCmd : CmdFn := fun d c =>
  match getJob d c.job with
  | none => fail d stIllegal 0xF002
  | some jb =>
    checks d [((storeMembers jb).isEmpty, stIllegal), (jb.snap.active, stInUse), (!hasCommit jb.commit, stIllegal)] fun _ =>
      (startRepair (startSnap (waitOn d c 0) c.job (commitStep jb.commit)) c.job, none)

/-- SNAP_TAKE. -/
def execSnapTake (p : CmdPkt) (s : State) : Host.Outcome State Fault Refusal := onCmd 0x0051 p s snapTakeCmd

/-- Is a rebuild of the whole shard in progress? -/
def rebuilding (jb : Job) : Bool := match jb.rebuild with | some b => b.slab.isNone | none => false

/-- Every owned slab of the job, by region. -/
def shardSlabs (jb : Job) : List (Nat × List Nat) := jb.regions.map fun e => (e.1, ownedSlabs jb e.2)

/-- Does a restore re-admit the module to the job: it stopped serving it (R626), or the job has no commit point yet, as after the
JOB_CREATE of R709 (DESIGN CHOICE, log 90)? -/
def readmits (jb : Job) : Bool := jb.stopped || !hasCommit jb.commit

/-- SNAP_RESTORE: the reply follows when every owned slab is written or missing. -/
def snapRestoreCmd : CmdFn := fun d c =>
  let w := wordAt c.body 0
  let x := wordAt c.body 1
  let step := field w 47 0
  let m := field x 11 0
  match getJob d c.job with
  | none => fail d stIllegal 0xF002
  | some jb =>
    checks d
      [ (rsvdSet w [(63, 48)] || rsvdSet x [(63, 12)] || !SMap.has jb.members m, stIllegal)
      , (ctxsActive d c.job || jb.sealSt.state != .opened || (jb.inFlight && !jb.buckets.isEmpty) || !jb.loads.isEmpty || jb.snap.active ||
          rebuilding jb, stInUse) ] fun _ =>
      let l : Load := { kind := 1, member := m, object := jobKey jb, step := step }
      let d1 := waitOn d c 0
      (baseSettle (startLoad (if readmits jb then clearCtxs d1 else d1) c.job l (shardSlabs jb)) c.job, none)

/-- SNAP_RESTORE. -/
def execSnapRestore (p : CmdPkt) (s : State) : Host.Outcome State Fault Refusal := onStepCmd 0x0052 p s snapRestoreCmd

/-- The reply of SNAP_READ. -/
def snapReadWords (jb : Job) : List W64 :=
  [ mkWord [(bit jb.snap.last.isSome, 63), (jb.snap.last.getD 0 % 2 ^ 48, 0)], mkWord [(bit jb.snap.active, 63), (jb.snapInt, 0)]
  , BitVec.ofNat 64 (snapWritten jb), 0 ]

/-- SNAP_READ changes no state. -/
def snapReadCmd : CmdFn := fun d c =>
  match getJob d c.job with
  | none => fail d stIllegal 0xF002
  | some jb => doneWith d (snapReadWords jb)

/-- SNAP_READ. -/
def execSnapRead (p : CmdPkt) (s : State) : Host.Outcome State Fault Refusal := onCmd 0x0053 p s snapReadCmd

/-! ## Parity and rebuild (R473 to R475, R615, R628, R629) -/

/-- PARITY_GROUP_SET: the setting is retained, and the group CLAIM goes out. -/
def parityGroupCmd : CmdFn := fun d c =>
  let b := c.body
  let w := wordAt b 0
  let pos := field w 2 0
  let serials := (b.drop 1).take 8
  checks d
    [ (rsvdSet w [(31, 3)] || serials.contains 0 || !decide serials.Nodup || wordAt serials pos != d.fac.serial, stIllegal)
    , (d.jobs.any fun e => !e.2.regions.isEmpty, stInUse) ] fun _ =>
    let g : ParGroup := { id := field w 63 32, pos := pos, serials := serials }
    let d1 := flashWrite d 0x17 72 (sparseWords 0 b)
    let d2 := updPar { d1 with start := { d1.start with claimBad := false } } fun p => { p with group := some g, lost := [] }
    done (claimGroup d2 false)

/-- PARITY_GROUP_SET. -/
def execParityGroupSet (p : CmdPkt) (s : State) : Host.Outcome State Fault Refusal := onCmd 0x0058 p s parityGroupCmd

/-- Does the module serve its shard already (R474 check 2)? A job that has no commit point and no step in flight has nothing
to serve yet. -/
def servesNow (jb : Job) : Bool := servesShard jb && (hasCommit jb.commit || jb.inFlight)

/-- Begin a rebuild: the claims go out to every other ordinal. -/
def startRebuild (d : Dev) (j step : Nat) : Dev :=
  match getJob d j with
  | none => d
  | some jb =>
    let b : Rebuild := { step := step, waiting := (List.range jb.q).filter (· != jb.ordinal) }
    let d1 := updJob (clearCtxs d) j fun jb => { jb with rebuild := some b, repairs := [] }
    let d2 := updPar d1 fun p => { p with claims := p.claims.filter fun c => !(c.scope == 1 && c.job == j) }
    claimsSettle (claimJob d2 j) j

/-- REBUILD_START: the reply follows when the shard is served. -/
def rebuildStartCmd : CmdFn := fun d c =>
  let w := wordAt c.body 0
  let x := wordAt c.body 1
  match getJob d c.job with
  | none => fail d stIllegal 0xF002
  | some jb =>
    checks d
      [ (rsvdSet w [(63, 9)] || rsvdSet x [(63, 48)] || field w 8 0 != jb.ordinal, stIllegal)
      , (servesNow jb || rebuilding jb || (jb.loads.any fun l => l.kind == 1), stInUse) ] fun _ =>
      (startRebuild (waitOn d c 0) c.job (field x 47 0), none)

/-- REBUILD_START. -/
def execRebuildStart (p : CmdPkt) (s : State) : Host.Outcome State Fault Refusal := onStepCmd 0x0059 p s rebuildStartCmd

/-- Slabs of a rebuild whose rows have all been returned. -/
def rebuiltSlabs (d : Dev) (jb : Job) : Nat :=
  match jb.rebuild with
  | none => 0
  | some b =>
    if b.slab.isSome then 0
    else
      let whole (rn lo n : Nat) : Bool := (rowsFor (ownPos d) lo (lo + n)).all fun row =>
        match b.rows.find? fun r => r.region == rn && r.row == row with
        | some r => rowReady (ownPos d) r
        | none => false
      jb.regions.foldl (fun a e => a + ((ownedSlabs jb e.2).filter fun k => whole e.1 (imageOff jb.q e.2 k) (imageLen e.2)).length) 0

/-- The reply of PARITY_READ: parity and accumulators are held in chunks of 1 MiB. -/
def parityReadWords (d : Dev) : List W64 :=
  let g := match d.parity.group with | some g => mkWord [(g.id, 32), (g.pos, 0)] | none => 0
  [ g, BitVec.ofNat 64 (2 ^ 20 * d.parity.rows.length), BitVec.ofNat 64 (2 ^ 20 * d.parity.accs.length)
  , BitVec.ofNat 64 (d.jobs.foldl (fun a e => a + rebuiltSlabs d e.2) 0), 0, 0, 0, 0 ]

/-- PARITY_READ changes no state. -/
def parityReadCmd : CmdFn := fun d _ => doneWith d (parityReadWords d)

/-- PARITY_READ. -/
def execParityRead (p : CmdPkt) (s : State) : Host.Outcome State Fault Refusal := onCmd 0x005A p s parityReadCmd

/-! ## Recording (R476, R477, R668, R673) -/

/-- REC_START. -/
def recStartCmd : CmdFn := fun d c =>
  let w := wordAt c.body 0
  let x := wordAt c.body 1
  let t := field w 1 0
  let port := field w 40 32
  let n := 2 ^ 20 * field x 31 0
  match getJob d c.job with
  | none => fail d stIllegal 0xF002
  | some jb =>
    checks d
      [ (rsvdSet w [(63, 41), (31, 2)] || rsvdSet x [(63, 32)] || decide (2 ≤ t), stIllegal)
      , (t == 1 && (getPort d port).role == 0, stIllegal)
      , (recording jb, stInUse) ] fun _ =>
      if t = 0 && decide (jb.quotas.memMib * 2 ^ 20 < jb.charge + n) then fail (quotaHit d c.job 6) stNoMem 4
      else if t = 0 && decide (freeSpace d < n) then fail d stNoMem 4
      else
        let r : Rec := { target := t, port := port, size := if t = 0 then n else 0 }
        done (updJob d c.job fun jb => { jb with recd := some r, charge := jb.charge + r.size })

/-- REC_START. -/
def execRecStart (p : CmdPkt) (s : State) : Host.Outcome State Fault Refusal := onCmd 0x0060 p s recStartCmd

/-- The recording ends: a store buffer becomes the held record, a mirror keeps what it still holds for its port. -/
def endRec (jb : Job) (r : Rec) : Job :=
  if r.target = 0 then
    let old := match jb.heldRec with | some (n, _) => n | none => 0
    { jb with recd := none, heldRec := some (r.size, r.words), recSide := !jb.recSide, charge := jb.charge - old }
  else { jb with recd := none, recEnded := jb.recEnded ++ (if r.heldQ.isEmpty then [] else [{ r with active := false, heldAt := none }]) }

/-- REC_STOP. It has no check table: DETAIL is 0 (R392). -/
def recStopCmd : CmdFn := fun d c =>
  match getJob d c.job with
  | none => fail d stIllegal 0xF002
  | some jb =>
    if !recording jb then fail d stIllegal 0
    else
      let d1 := settleMem (countHold (recEnd d c.job) c.job)
      match (getJob d1 c.job).bind (·.recd) with
      | some r => doneWith (updJob d1 c.job fun jb => endRec jb r) [BitVec.ofNat 64 r.off, BitVec.ofNat 64 r.drops]
      | none => fail d stIllegal 0

/-- REC_STOP. -/
def execRecStop (p : CmdPkt) (s : State) : Host.Outcome State Fault Refusal := onCmd 0x0061 p s recStopCmd

/-! ## Replay and reference mode (R478, R479, R676, R681 to R683) -/

/-- Are the job's members quiesced (R676)? -/
def quiesced (d : Dev) (j : Nat) (jb : Job) : Bool := !ctxsActive d j && jb.sealSt.state == .opened && jb.hoists.isEmpty

/-- The replay a command starts. -/
def newReplay (d : Dev) (jb : Job) (src port first : Nat) : Replay :=
  { source := src, port := port, first := first
    side := !jb.recSide
    buf := if src = 0 then (jb.heldRec.map (·.2)).getD [] else []
    downAt := if src = 1 && (getPort d port).st != .up then some d.nowUs else none }

/-- REPLAY_START. -/
def replayStartCmd : CmdFn := fun d c =>
  let w := wordAt c.body 0
  let x := wordAt c.body 1
  let src := field w 1 0
  let port := field w 40 32
  match getJob d c.job with
  | none => fail d stIllegal 0xF002
  | some jb =>
    checks d
      [ (rsvdSet w [(63, 41), (31, 2)] || rsvdSet x [(63, 48)] || decide (2 ≤ src) || (src == 1 && decide (287 < port)), stIllegal)
      , (!quiesced d c.job jb || recording jb || replaying jb, stInUse) ] fun _ =>
      done (updJob d c.job fun jb => { jb with replay := some (newReplay d jb src port (field x 47 0)) })

/-- REPLAY_START. -/
def execReplayStart (p : CmdPkt) (s : State) : Host.Outcome State Fault Refusal := onStepCmd 0x0062 p s replayStartCmd

/-- REF_MODE. It has no check table: DETAIL is 0 (R392). -/
def refModeCmd : CmdFn := fun d c =>
  let w := wordAt c.body 0
  let port := field w 40 32
  if rsvdSet w [(63, 41), (31, 1)] || 287 < port then fail d stIllegal 0
  else if ctxsActive d c.job then fail d stInUse 0
  else done (updJob d c.job fun jb => { jb with refMode := if flag w 0 then some port else none })

/-- REF_MODE. -/
def execRefMode (p : CmdPkt) (s : State) : Host.Outcome State Fault Refusal := onStepCmd 0x0063 p s refModeCmd

end Sys2Proof.Machine
end

