-- ==== Sys2Proof/Machine/Startup.lean ====
section
/-!
DEFINITION. Sys2Proof/Machine/Startup.lean: the phases of start-up (chapter 21), the lifetime record, the Ivpin processors
(R58, R603) and the loss of a clock domain (Table 22-8). A phase row is the entry to that phase with all its work; where the
module does not stand in the phase before, or that phase has not done its work, no such event happens and the row changes
nothing.
-/
namespace Sys2Proof.Machine

/-- Change the start-up state. -/
def updStart (d : Dev) (f : Start → Start) : Dev := { d with start := f d.start }

/-- Enter a phase (R692, Table 21-4). -/
def enterPhase (d : Dev) (p : Phase) : Dev :=
  updStart d fun s => { s with phase := p, phaseAt := d.nowUs, phaseMs := timeUs d / 1000 }

/-! ## The lifetime record (R710, Table 21-8) -/

/-- The retained counters, with the words of the LIFE record they stand in. -/
def lifeCounters : List (Nat × Ctr × Nat) :=
  [(0, ctrPowerOnHours, 0), (1, ctrStartCount, 0), (2, ctrStartFails, 0), (3, ctrTakeovers, 0), (4, ctrFlashWrites, 0), (5, ctrFlashWrites, 1)]

/-- The body of a LIFE copy written now. -/
def lifeBody (d : Dev) : SMap W64 :=
  (sparseWords 0 (lifeCounters.map fun e => getCtr d e.2.1 e.2.2))

/-- Write the LIFE record. -/
def writeLife (d : Dev) : Dev := flashWrite d 0x19 64 (lifeBody d)

/-- RESTORE loads the retained counters; what was counted since the reset is added. -/
def loadLife (d : Dev) : Dev :=
  match flashRead d 0x19 with
  | none => d
  | some r => forEach lifeCounters d fun d' e => setCtr d' e.2.1 e.2.2 (SMap.getD r.body e.1 0 + getCtr d' e.2.1 e.2.2)

/-- Is start-up past ROM? -/
def pastRom (d : Dev) : Bool :=
  let c := if d.start.phase == .failed then d.start.failPhase else phaseCode d.start.phase
  powered d && decide (2 ≤ c)

/-- LIFE_WRITE: a power-on hour has passed. `fail`: how its record write fares, as attempts that fail on A and on B; `later`: the record
writes after it (R689). -/
def execLifeWrite (fail : Nat × Nat) (later : List (Nat × Nat)) (s : State) : Host.Outcome State Fault Refusal :=
  onUnit ((fail :: later).all fun e => decide (e.1 ≤ 3) && decide (e.2 ≤ 3)) s fun d =>
    if pastRom d && decide (d.flash.lifeAt + 3600000000 ≤ d.nowUs) then
      writeLife (bump { d with flash := { d.flash with lifeAt := d.flash.lifeAt + 3600000000, fails := fail :: later } } ctrPowerOnHours 0)
    else d

/-- FLASH_WAIT_TIMEOUT: writes held by the loss of domain 39 for 1 s raise FLASH_WRITE, once (Table 22-8). -/
def execFlashWaitTimeout (s : State) : Host.Outcome State Fault Refusal :=
  onDev s fun d =>
    match d.flash.waitAt with
    | none => d
    | some t =>
      if d.flash.waitTrap || d.flash.waits.isEmpty || d.nowUs < t + 1000000 then d
      else raiseTrap { d with flash := { d.flash with waitTrap := true } } { cause := 0xE3 }

/-! ## FAILED (R700) -/

/-- Start-up ends in FAILED: pool 60 closes, as the module serves from here on; the LIFE record is written where the flash interface
runs, after the counters are loaded and START_COUNT has advanced, where RESTORE has not done it (R710). -/
def enterFailed (d : Dev) (cause : Nat) : Dev :=
  let from_ := d.start.phase
  let d0 := if phaseCode from_ < 2 then bump (loadLife d) ctrStartCount 0 else d
  let d1 := updStart (enterPhase d0 .failed) fun s => { s with failPhase := phaseCode from_, failCause := cause }
  let d2 := raiseTrap (bump d1 ctrStartFails 0) { cause := 0xE2 }
  let d3 := if poolOpen d2 60 then closePool d2 60 else d2
  if d3.clocks.lost.contains 39 then d3 else writeLife d3

/-- Limit of a phase in milliseconds (Table 21-3). -/
def phaseLimitMs (p : Phase) : Option Nat :=
  match p with
  | .power => some 100
  | .rom => some 50
  | .restore => some 1000
  | .patch => some 100
  | .dies => some 500
  | .memory => some 1000
  | .links => some 300
  | .serve => some 100
  | .bypass => some 40000
  | .ready => none
  | .failed => none

/-- Is the module halted in ROM: neither processor passed (R694)? -/
def haltedInRom (d : Dev) : Bool := d.start.phase == .rom && d.start.cpuLost.contains 0 && d.start.cpuLost.contains 1

/-- PHASE_LIMIT: the present phase has lasted longer than its limit. A module halted in ROM stays there. -/
def execPhaseLimit (s : State) : Host.Outcome State Fault Refusal :=
  onDev s fun d =>
    match phaseLimitMs d.start.phase with
    | none => d
    | some ms => if powered d && !haltedInRom d && decide (d.start.phaseAt + 1000 * ms < d.nowUs) then enterFailed d 1 else d

/-- The module stands in phase `p`, powered, and goes on. -/
def fromPhase (d : Dev) (p : Phase) (f : Dev → Dev) : Dev := if powered d && d.start.phase == p then f d else d

/-! ## ROM (R694) -/

/-- The processors' checks, and the choice of the active one. -/
def chooseCpu (d : Dev) (ok0 ok1 : Bool) : Dev :=
  updStart d fun s =>
    { s with cpu := if ok0 then 0 else if ok1 then 1 else 0xFF
             cpuLost := (if ok0 then [] else [0]) ++ (if ok1 then [] else [1]) }

/-- K's SRAM test maps a failing row to a spare row of its bank, or finds none left, before any record is read: the spare map of K is
this test's own result. -/
def mapKRow (d : Dev) (bank : Nat) : Dev :=
  let key := 2 ^ 20 * 31 + bank
  let used := SMap.getD d.spare.rows key 0
  let r := SMap.getD d.spare.srams 31 {}
  updSpare d fun x =>
    if used < 16 then { x with rows := SMap.set x.rows key (used + 1), srams := SMap.set x.srams 31 { r with used := r.used + 1 } }
    else { x with srams := SMap.set x.srams 31 { r with lost := r.lost + 1 } }

/-- PHASE_ROM: after POWER, which fails without a reference (R728), or after a reset. `passed`: processors 0 and 1 pass
their checks; one that fails stays out: it takes over from none. `rows`: rows of K's SRAM that fail its test, by bank and row. -/
def execPhaseRom (passed : Bool × Bool) (rows : List (Nat × Nat)) (s : State) : Host.Outcome State Fault Refusal :=
  onUnit (rows.all fun r => decide (r.1 < sramBanks 31) && decide (r.2 < 1024)) s fun d =>
    let test (d : Dev) : Dev := forEach rows.eraseDups (chooseCpu d passed.1 passed.2) fun d' r => mapKRow d' r.1
    if !powered d then d
    else if d.start.phase == .power then
      if d.clocks.refOk then test (enterPhase d .rom) else enterFailed d 2
    else if d.start.phase == .rom && d.start.cpu == 0xFF && d.start.cpuLost.isEmpty then test d
    else d

/-! ## RESTORE (R695) -/

/-- A copy that no longer reads as written: its CRC fails. -/
def RecCopy.spoil (c : RecCopy) : RecCopy := { c with head := listSet c.head 3 (wordAt c.head 3 ^^^ 1) }

/-- The newest valid copy of a record on mirror `m` no longer reads as written. -/
def spoilNewest (m : Nat) (d : Dev) (rid : Nat) : Dev :=
  let v := d.flash.dev m
  match v.newest rid with
  | none => d
  | some c => { d with flash := d.flash.setDev m { v with copies := v.copies.map fun x => if x = c then x.spoil else x } }

/-- Resolve one record of the logs (R695): the valid copy with the highest SEQ of both, which the other mirror gets when it has none
or an older one; its SEQ is kept. -/
def resolve (d : Dev) (rid : Nat) : Dev :=
  let src (d : Dev) (n : Nat) : Dev := { d with flash := { d.flash with source := SMap.set d.flash.source rid n } }
  let copyTo (m n : Nat) (c : RecCopy) : Dev := appendCopy (bump (src d n) ctrMirrorRepair 0) m c
  match d.flash.a.newest rid, d.flash.b.newest rid with
  | none, none =>
    raiseTrap (src d (if d.flash.a.highest rid = 0 && d.flash.b.highest rid = 0 then 5 else 4)) { cause := 0xE0, details := [BitVec.ofNat 64 rid] }
  | some x, some y => if x.seq = y.seq then src d 0 else if y.seq < x.seq then copyTo 1 1 x else copyTo 0 2 y
  | some x, none => copyTo 1 1 x
  | none, some y => copyTo 0 2 y

/-- Factory records fail their CRC in the factory region of a device: mirror and RID. -/
def spoilFactory (d : Dev) (e : Nat × Nat) : Dev :=
  { d with flash := d.flash.setDev e.1 { d.flash.dev e.1 with facBad := insNat e.2 (d.flash.dev e.1).facBad } }

/-- Does no device's factory region hold a factory record (R695)? -/
def factoryLost (d : Dev) (rid : Nat) : Bool := d.flash.a.facBad.contains rid && d.flash.b.facBad.contains rid

/-- A factory record is read from a device whose factory region passes; else it is lost. -/
def resolveFactory (d : Dev) (rid : Nat) : Dev :=
  let put (d : Dev) (src : Nat) : Dev := { d with flash := { d.flash with source := SMap.set d.flash.source rid src } }
  if factoryLost d rid then raiseTrap (put d 4) { cause := 0xE0, details := [BitVec.ofNat 64 rid] } else put d 3

/-- The spare map of a record (Table 19-7). A combine die without a seam that is not retired is out, and so is a face
die whose link to K is lost (R651); which spare rows of a bank are used and recent seam retirements are not in the map. -/
def spareOf (m : SMap W64) : Spare :=
  let w (i : Nat) : W64 := SMap.getD m i 0
  let seam (i : Nat) : SeamRec :=
    { st := field (w (292 + i)) 15 14, pos := if field (w (292 + i)) 7 0 = 0xFF then none else some (field (w (292 + i)) 7 0)
      ship := flag (w (292 + i)) 13 }
  let chan (i : Nat) : ChanRec :=
    { st := field (w (436 + i)) 15 13, wnum := if field (w (436 + i)) 5 0 = 0x3F then none else some (field (w (436 + i)) 5 0)
      ship := flag (w (436 + i)) 12 }
  let shipSeam (i : Nat) : SeamRec := if i < 128 then { st := 0, pos := some i } else { st := 1, pos := none }
  let shipChan (i : Nat) : ChanRec := if i % 64 < 62 then { st := 0, wnum := some (i % 64) } else { st := 1, wnum := none }
  { seq := field (w 0) 63 32
    cdie := field (w 0) 31 28
    hours := field (w 3) 63 32
    posState := ((List.range 288).map fun p => (p, field (w (4 + p)) 15 14)).filter fun e => e.2 != 0
    slice := ((List.range 288).map fun p => (p, field (w (4 + p)) 12 8)).filter fun e => e.2 != e.1 % 16
    sliceOut := (List.range 288).filter fun p => field (w (4 + p)) 7 6 == 2
    posShip := (List.range 288).filter fun p => flag (w (4 + p)) 13
    sliceShip := (List.range 288).filter fun p => flag (w (4 + p)) 5
    seams := ((List.range 144).map fun i => (i, seam i)).filter fun e => e.2 != shipSeam e.1
    chans := ((List.range 256).map fun i => (i, chan i)).filter fun e => e.2 != shipChan e.1
    lanes := (List.range 512).filter fun l => flag (w (692 + l / 64)) (l % 64)
    links := ((List.range 301).map fun l => (l, ({ st := field (w (700 + l)) 15 14, groups := field (w (700 + l)) 3 0, ship := flag (w (700 + l)) 13 } : LinkRec))).filter
      fun e => e.2 != {}
    srams := ((List.range 32).map fun x => (x, ({ used := field (w (1001 + x)) 39 16, lost := field (w (1001 + x)) 15 0 } : SramRec))).filter
      fun e => e.2 != {}
    dead := ((List.range 18).filter fun f => field (w (970 + f)) 15 14 == 3) ++ ((List.range 9).filter fun c => (List.range 16).all fun k => (seam (16 * c + k)).st == 2).map (· + 18) }

/-- The body of a record, if the logs hold one. -/
def recBody (d : Dev) (rid : Nat) : SMap W64 := ((flashRead d rid).map (·.body)).getD []

/-- The principal table of its record. -/
def principalsOf (m : SMap W64) : SMap Principal :=
  ((List.range 64).map fun i => (i, principalBody (0 :: (List.range 4).map fun k => SMap.getD m (4 * i + k) 0))).filter
    fun e => e.2.role != 0

/-- The plan of its record. -/
def planOfRecord (m : SMap W64) : SMap PlanEntry :=
  let ws := denseWords m 577
  planMap ((List.range (field (SMap.getD m 0 0) 8 0)).map (planWords ws))

/-- The parity group of its record. -/
def groupOf (m : SMap W64) : ParGroup :=
  { id := field (SMap.getD m 0 0) 63 32, pos := field (SMap.getD m 0 0) 2 0, serials := (List.range 8).map fun i => SMap.getD m (1 + i) 0 }

/-- A spare map with K's SRAM rows as K's own test has mapped them (R694). -/
def keepK (rom m : Spare) : Spare :=
  let bank (k : Nat) : Bool := k / 2 ^ 20 == 31
  { m with rows := SMap.keep (fun k _ => !bank k) m.rows ++ SMap.keep (fun k _ => bank k) rom.rows
           srams := match SMap.get? rom.srams 31 with | some r => SMap.set m.srams 31 r | none => SMap.del m.srams 31 }

/-- The restored records take their places. The others of the parity group declared this module lost while it was down
(R708): it is out of the group until it claims its position. -/
def applyRecords (d : Dev) : Dev :=
  let fab := recBody d 0x14
  let cfg := SMap.getD fab 0 0
  let map := (SMap.del fab 0).map fun e => (e.1 - 1, e.2)
  let plan := planOfRecord (recBody d 0x13)
  let addr := recBody d 0x16
  { d with
    spare := keepK d.spare (match flashRead d 0x10 with | some r => spareOf r.body | none => {})
    fabric := { d.fabric with cfg := cfg, cfgRun := cfg, map := map, mapRun := map, plan := plan, planRun := plan }
    mgmt := { d.mgmt with principals := principalsOf (recBody d 0x15), addr := addr, addrRun := addr }
    parity := { d.parity with group := (flashRead d 0x17).map fun r => groupOf r.body, out := true } }

/-- PHASE_RESTORE: the logs are read and resolved, the counters of LIFE loaded, and START_COUNT advanced; the watch of the
heartbeat is armed (R716).
`badA`, `badB`: records of which the newest valid copy on a mirror no longer reads as written, once for each such copy;
`badFactory`: factory records that fail their CRC, by mirror and RID. -/
def execPhaseRestore (badA badB : List Nat) (badFactory : List (Nat × Nat)) (s : State) : Host.Outcome State Fault Refusal :=
  onDev s fun d => fromPhase d .rom fun d =>
    if d.start.cpu = 0xFF then d
    else
      let d0 := forEach badFactory (forEach badB (forEach badA d (spoilNewest 0)) (spoilNewest 1)) spoilFactory
      let d1 := updPower (enterPhase d0 .restore) fun p => { p with hbArmed := true, hbAt := d.nowUs }
      let d2 := forEach [1, 2, 3] d1 resolveFactory
      let d3 := forEach (retainedRids.drop 3) d2 resolve
      let d4 := bump (loadLife d3) ctrStartCount 0
      let d5 := applyRecords { d4 with flash := { d4.flash with lifeAt := d4.nowUs } }
      if factoryLost d5 1 then enterFailed d5 3
      else if factoryLost d5 2 && (flashRead d5 0x10).isNone then enterFailed d5 4
      else writeLife d5

/-! ## PATCH (R698) -/

/-- PHASE_PATCH: the stored patch is checked again and runs, or PATCH_REJECT. -/
def execPhasePatch (s : State) : Host.Outcome State Fault Refusal :=
  onDev s fun d => fromPhase d .restore fun d =>
    let d1 := enterPhase d .patch
    match flashRead d1 0x18 with
    | none => d1
    | some r =>
      let img := denseWords r.body (r.len / 8)
      if !patchBad d1 img && Config.patchSigned img then updStart d1 fun s => { s with patchVer := field (wordAt img 0) 31 0 }
      else raiseTrap d1 { cause := 0xE1 }

/-! ## DIES and MEMORY (R699) -/

/-- Has the module lost what it cannot serve without: an update die or a whole stack (all its lanes, a clock domain, a link
from a combine die's side or K to it), two channels of a die without a spare, or K (Table 1-13, R285, R651)? -/
def moduleLost (d : Dev) : Bool :=
  (List.range 4).any (fun u =>
    decide (128 ≤ lanesOut d u) || decide (2 ≤ (chansIn d (64 * u) 3).length) || d.clocks.lost.contains (27 + u) ||
    d.clocks.lost.contains (31 + u)) ||
  (d.spare.links.any fun e => e.2.st == 3 && (linkDie e.1).isNone && !(decide (270 ≤ e.1) && decide (e.1 < 288))) ||
  decide (0 < (SMap.getD d.spare.srams 31 {}).lost)

/-- PHASE_DIES: the spare map is in force, every unit it has in service is tested, and those that fail are retired. `fails`:
the units that fail; `links`: die-to-die links of which a lane group does not train, once for each group. -/
def execPhaseDies (fails : List Trigger) (links : List Nat) (s : State) : Host.Outcome State Fault Refusal :=
  onUnit (fails.all triggerOk && links.all fun l => decide (l < 301)) s fun d => fromPhase d .patch fun d =>
    let d1 := updClocks (enterPhase d .dies) fun c => { c with locked := true }
    let d2 := forEach fails (forEach links d1 groupOut) repair
    if moduleLost d2 then enterFailed d2 5 else d2

/-- A spare channel's rebuild is a zero fill and done at once. -/
def zeroFill (d : Dev) : Dev := forEach (SMap.keys d.spare.chans) d fun d' c => channelDone d' c

/-- PHASE_MEMORY: channels are trained and tested, those that fail replaced, and every stripe written with zeros. -/
def execPhaseMemory (fails : List Trigger) (s : State) : Host.Outcome State Fault Refusal :=
  onUnit (fails.all triggerOk) s fun d => fromPhase d .dies fun d =>
    let d1 := forEach fails (zeroFill (enterPhase d .memory)) fun d' t => zeroFill (repair d' t)
    if moduleLost d1 then enterFailed d1 5 else d1

/-! ## LINKS (R701, R566) -/

/-- Does the module's own serial stand at its ADDR (R566)? -/
def ownCfgOk (d : Dev) : Bool := SMap.getD d.fabric.mapRun (ownAddr d) 0 == d.fac.serial

/-- PHASE_LINKS: ports take their roles and train. -/
def execPhaseLinks (s : State) : Host.Outcome State Fault Refusal :=
  onDev s fun d => fromPhase d .memory fun d =>
    let roles := recBody d 0x12
    let d1 := enterPhase d .links
    let d2 := forEach ((List.range 288).filter fun p => roleIn roles p != 0) d1 fun d' p =>
      let d2 := updPort d' p fun x => { x with role := roleIn roles p }
      if portLost d2 p then d2 else enterTrain d2 p
    let ok := ownCfgOk d2
    let d3 := { d2 with fabric := { d2.fabric with cfgOk := ok } }
    if ok then d3 else raiseTrap d3 { cause := 0x92 }

/-- Is the work of LINKS done: every port with a role is UP or has spent 200 ms in TRAIN (R701)? A port that failed TRAIN has spent
them. -/
def linksDone (d : Dev) : Bool :=
  d.ports.all fun e =>
    e.2.role == 0 || e.2.st == .up || portLost d e.1 || e.2.failed || (e.2.st == .train && decide (e.2.since + 200000 ≤ d.nowUs))

/-! ## SERVE, BYPASS, READY (R702 to R704, R718) -/

/-- PHASE_SERVE: pool 60 closes, a latched shutdown is reported, and the ports are classified. -/
def execPhaseServe (s : State) : Host.Outcome State Fault Refusal :=
  onLinks true s fun d => fromPhase d .links fun d =>
    if !linksDone d then d
    else
      let d1 := closePool (enterPhase d .serve) 60
      let d2 :=
        if d1.power.latch = 0 then d1
        else updPower (raiseTrap d1 { cause := 0xF4, details := [BitVec.ofNat 64 d1.power.latch] }) fun p => { p with latch := 0 }
      cableCheck d2

/-- PHASE_BYPASS: SERVE has lasted its 100 ms. -/
def execPhaseBypass (s : State) : Host.Outcome State Fault Refusal :=
  onDev s fun d => fromPhase d .serve fun d => if d.start.phaseAt + 100000 ≤ d.nowUs then enterPhase d .bypass else d

/-- Has a pair's release ended, or does it stay JOINED (R703)? -/
def pairEnded (d : Dev) (q : Nat) : Bool :=
  let x := d.fabric.pairs.getD q {}
  x.st == .released || x.reverted || x.held || pairPlanBad d q ||
  ((getPort d (256 + q)).role != 2 && (getPort d (272 + q)).role != 2)

/-- PHASE_READY: every pair has ended; every opcode is served; the group CLAIM goes out (R704). -/
def execPhaseReady (s : State) : Host.Outcome State Fault Refusal :=
  onDev s fun d => fromPhase d .bypass fun d =>
    if (List.range 16).all (pairEnded d) then claimGroup (enterPhase d .ready) true else d

/-! ## The Ivpin processors (R58, R603) -/

/-- The buffers a processor allocated are returned with count 0 (R603). -/
def dropCpuBufs (d : Dev) (cpu : Nat) : Dev :=
  forEach ((d.pools.bufs.filter fun e => e.2.req == cpu).map (·.1)) d poolFreeBuf

/-- A command that a takeover interrupts before it had any effect, and that is not carried through: its history bit goes, and
sent again it is executed (R405). -/
def forgetCmd (d : Dev) (w : Waiting) : Dev :=
  let d1 := updMgmt d fun m => { m with waiting := m.waiting.filter (· != w) }
  updSession (poolReleaseOpt d1 w.buffer) w fun s => { s with hist := SMap.del s.hist w.seq.toNat }

/-- A takeover begins: every command in execution is either carried through by the helpers, which hold all object state (R57), and
its reply cached, or leaves no trace. The second can befall only a command without an effect so far, a GRAPH_RELEASE that
waits for the seal state: a free value says of each whether it does (R405, R418; log 91). -/
def interruptCmds (d : Dev) : Dev :=
  let d1 := updMgmt d fun m => { m with waiting := m.waiting.map fun w => { w with muted := true } }
  forEach (d1.mgmt.waiting.filter fun w => w.opcode == 0x39) d1 fun d' w =>
    let (x, d2) := drawFree d'
    if flag x 0 then forgetCmd d2 w else d2

/-- A processor is lost. When it was active the standby takes over: commands in execution get no reply until they are sent
again. The takeover is counted and trapped; the spec gives the trap no cause code, which is a free value (log 2). Without a
standby no processor is active. -/
def cpuFails (d : Dev) (cpu : Nat) : Dev :=
  let d1 := dropCpuBufs (updStart d fun s => { s with cpuLost := insNat cpu s.cpuLost }) cpu
  if d.start.cpu != cpu then d1
  else
    let d2 := interruptCmds d1
    if d2.start.cpuLost.contains (1 - cpu) then updStart d2 fun s => { s with cpu := 0xFF, takeover := none }
    else
      let (w, d3) := drawFree (updStart d2 fun s => { s with cpu := 1 - cpu, takeover := some d.nowUs })
      raiseTrap (bump d3 ctrTakeovers 0) { cause := w.toNat % 256 }

/-- The active processor fails, if there is one. -/
def activeFails (d : Dev) : Dev := if powered d && d.start.cpu != 0xFF then cpuFails d d.start.cpu else d

/-- WATCHDOG_EXPIRY of the active processor. -/
def execWatchdogExpiry (s : State) : Host.Outcome State Fault Refusal := onDev s activeFails

/-- PROCESSOR_FAULT: the active processor reports an internal fault. -/
def execProcessorFault (s : State) : Host.Outcome State Fault Refusal := onDev s activeFails

/-- TAKEOVER_COMPLETE: commands are answered again. -/
def execTakeoverComplete (s : State) : Host.Outcome State Fault Refusal :=
  onDev s fun d => updStart d fun s => { s with takeover := none }

/-! ## The loss of a clock domain (R727, Table 22-8) -/

/-- What the loss of a domain does. -/
def domainLost (d : Dev) (n : Nat) : Dev :=
  if n < 18 then loseFace d n
  else if n < 27 then retireDie d (n - 18)
  else if n < 35 then withdrawSelf d
  else if n = 35 then resetModule d
  else if n = 38 then updMgmt d fun m => { m with linkUp := [], inUse := [] }
  else if n = 39 then d
  else cpuFails d (n - 36)

/-- PLL_LOCK_LOSS: the domain stops until the next start-up. -/
def execPllLockLoss (domain : Nat) (s : State) : Host.Outcome State Fault Refusal :=
  onLinks (decide (domain < 40)) s fun d =>
    if !powered d || !d.clocks.locked || d.clocks.lost.contains domain then d
    else
      let d1 := raiseTrap (bump (updClocks d fun c => { c with lost := insNat domain c.lost }) ctrLockLoss domain)
        { cause := 0xF1, kind := 6, unit := domain }
      poolsSettle (flushAll (domainLost d1 domain))

end Sys2Proof.Machine
end

