-- ==== Sys2Proof/Machine/Dispatch.lean ====
section
/-!
DEFINITION. Sys2Proof/Machine/Dispatch.lean: exec, one arm per command, each a direct call of its meaning.
-/
namespace Sys2Proof.Machine

def exec (i : Instr) (s : State) : Host.Outcome State Fault Refusal :=
  match i with
  | .moduleInfo p => Sys2Proof.Machine.execModuleInfo p s
  | .authSet p => Sys2Proof.Machine.execAuthSet p s
  | .patchLoad p => Sys2Proof.Machine.execPatchLoad p s
  | .portConfig p => Sys2Proof.Machine.execPortConfig p s
  | .regRead p => Sys2Proof.Machine.execRegRead p s
  | .regWrite p => Sys2Proof.Machine.execRegWrite p s
  | .trapCtl p => Sys2Proof.Machine.execTrapCtl p s
  | .captureClear p => Sys2Proof.Machine.execCaptureClear p s
  | .jobRegRead p => Sys2Proof.Machine.execJobRegRead p s
  | .telemSet p => Sys2Proof.Machine.execTelemSet p s
  | .jobCreate p => Sys2Proof.Machine.execJobCreate p s
  | .jobDestroy p => Sys2Proof.Machine.execJobDestroy p s
  | .jobQuota p => Sys2Proof.Machine.execJobQuota p s
  | .jobConfig p => Sys2Proof.Machine.execJobConfig p s
  | .jobRead p => Sys2Proof.Machine.execJobRead p s
  | .memberAttach p => Sys2Proof.Machine.execMemberAttach p s
  | .memberDetach p => Sys2Proof.Machine.execMemberDetach p s
  | .regionCreate p => Sys2Proof.Machine.execRegionCreate p s
  | .regionDestroy p => Sys2Proof.Machine.execRegionDestroy p s
  | .paramLoad p => Sys2Proof.Machine.execParamLoad p s
  | .haulSet p => Sys2Proof.Machine.execHaulSet p s
  | .haulSub p => Sys2Proof.Machine.execHaulSub p s
  | .rankmapLoad p => Sys2Proof.Machine.execRankmapLoad p s
  | .ruleLoad p => Sys2Proof.Machine.execRuleLoad p s
  | .schedLoad p => Sys2Proof.Machine.execSchedLoad p s
  | .schedRead p => Sys2Proof.Machine.execSchedRead p s
  | .objFree p => Sys2Proof.Machine.execObjFree p s
  | .ctxOpen p => Sys2Proof.Machine.execCtxOpen p s
  | .ctxRelease p => Sys2Proof.Machine.execCtxRelease p s
  | .ctxRead p => Sys2Proof.Machine.execCtxRead p s
  | .graphSubmit p => Sys2Proof.Machine.execGraphSubmit p s
  | .graphRelease p => Sys2Proof.Machine.execGraphRelease p s
  | .graphCancel p => Sys2Proof.Machine.execGraphCancel p s
  | .graphRead p => Sys2Proof.Machine.execGraphRead p s
  | .syncAlloc p => Sys2Proof.Machine.execSyncAlloc p s
  | .syncFree p => Sys2Proof.Machine.execSyncFree p s
  | .syncOp p => Sys2Proof.Machine.execSyncOp p s
  | .stepSeal p => Sys2Proof.Machine.execStepSeal p s
  | .stepAbort p => Sys2Proof.Machine.execStepAbort p s
  | .stepPoison p => Sys2Proof.Machine.execStepPoison p s
  | .snapConfig p => Sys2Proof.Machine.execSnapConfig p s
  | .snapTake p => Sys2Proof.Machine.execSnapTake p s
  | .snapRestore p => Sys2Proof.Machine.execSnapRestore p s
  | .snapRead p => Sys2Proof.Machine.execSnapRead p s
  | .parityGroupSet p => Sys2Proof.Machine.execParityGroupSet p s
  | .rebuildStart p => Sys2Proof.Machine.execRebuildStart p s
  | .parityRead p => Sys2Proof.Machine.execParityRead p s
  | .recStart p => Sys2Proof.Machine.execRecStart p s
  | .recStop p => Sys2Proof.Machine.execRecStop p s
  | .replayStart p => Sys2Proof.Machine.execReplayStart p s
  | .refMode p => Sys2Proof.Machine.execRefMode p s
  | .cablePlanLoad p => Sys2Proof.Machine.execCablePlanLoad p s
  | .cableCheck p => Sys2Proof.Machine.execCableCheck p s
  | .cableReport p => Sys2Proof.Machine.execCableReport p s
  | .spareRead p => Sys2Proof.Machine.execSpareRead p s
  | .spareRetire p => Sys2Proof.Machine.execSpareRetire p s
  | .bypassSet p => Sys2Proof.Machine.execBypassSet p s
  | .interimReply => Sys2Proof.Machine.execInterimReply s
  | .stagedLoadTimeout => Sys2Proof.Machine.execStagedLoadTimeout s
  | .page value => Sys2Proof.Machine.execPage value s
  | .operationOff => Sys2Proof.Machine.execOperationOff s
  | .operationOn => Sys2Proof.Machine.execOperationOn s
  | .clearFaults => Sys2Proof.Machine.execClearFaults s
  | .voutMode => Sys2Proof.Machine.execVoutMode s
  | .statusWord => Sys2Proof.Machine.execStatusWord s
  | .statusVout => Sys2Proof.Machine.execStatusVout s
  | .statusIout => Sys2Proof.Machine.execStatusIout s
  | .statusInput => Sys2Proof.Machine.execStatusInput s
  | .statusTemperature => Sys2Proof.Machine.execStatusTemperature s
  | .statusCml => Sys2Proof.Machine.execStatusCml s
  | .readVin => Sys2Proof.Machine.execReadVin s
  | .readIin => Sys2Proof.Machine.execReadIin s
  | .readVout => Sys2Proof.Machine.execReadVout s
  | .readIout => Sys2Proof.Machine.execReadIout s
  | .readTemperature1 => Sys2Proof.Machine.execReadTemperature1 s
  | .readTemperature2 => Sys2Proof.Machine.execReadTemperature2 s
  | .readTemperature3 => Sys2Proof.Machine.execReadTemperature3 s
  | .readPout => Sys2Proof.Machine.execReadPout s
  | .readPin => Sys2Proof.Machine.execReadPin s
  | .pmbusRevision => Sys2Proof.Machine.execPmbusRevision s
  | .mfrId => Sys2Proof.Machine.execMfrId s
  | .mfrModel => Sys2Proof.Machine.execMfrModel s
  | .mfrSerial => Sys2Proof.Machine.execMfrSerial s
  | .mfrShutdownCause => Sys2Proof.Machine.execMfrShutdownCause s
  | .pmbusUnsupported code value => Sys2Proof.Machine.execPmbusUnsupported code value s
  | .smbusReadByte offset => Sys2Proof.Machine.execSmbusReadByte offset s
  | .smbusReadWord offset => Sys2Proof.Machine.execSmbusReadWord offset s
  | .smbusBlockRead offset len => Sys2Proof.Machine.execSmbusBlockRead offset len s
  | .jtagBypass => Sys2Proof.Machine.execJtagBypass s
  | .idcode => Sys2Proof.Machine.execIdcode s
  | .samplePreload bits => Sys2Proof.Machine.execSamplePreload bits s
  | .extest => Sys2Proof.Machine.execExtest s
  | .highz => Sys2Proof.Machine.execHighz s
  | .scanEnAssert => Sys2Proof.Machine.execScanEnAssert s
  | .scanEnRelease => Sys2Proof.Machine.execScanEnRelease s
  | .inputRise => Sys2Proof.Machine.execInputRise s
  | .inputLow fall => Sys2Proof.Machine.execInputLow fall s
  | .inputDip => Sys2Proof.Machine.execInputDip s
  | .inputHigh => Sys2Proof.Machine.execInputHigh s
  | .inputHighClear => Sys2Proof.Machine.execInputHighClear s
  | .overcurrent => Sys2Proof.Machine.execOvercurrent s
  | .railFault => Sys2Proof.Machine.execRailFault s
  | .shutdownRestart => Sys2Proof.Machine.execShutdownRestart s
  | .heartbeat => Sys2Proof.Machine.execHeartbeat s
  | .heartbeatMissing => Sys2Proof.Machine.execHeartbeatMissing s
  | .overTemperature => Sys2Proof.Machine.execOverTemperature s
  | .tempRecovered => Sys2Proof.Machine.execTempRecovered s
  | .thermalWarn sensor above => Sys2Proof.Machine.execThermalWarn sensor above s
  | .inputWarn near => Sys2Proof.Machine.execInputWarn near s
  | .moduleReset => Sys2Proof.Machine.execModuleReset s
  | .refClockLoss => Sys2Proof.Machine.execRefClockLoss s
  | .refClockReturn => Sys2Proof.Machine.execRefClockReturn s
  | .pllLockLoss domain => Sys2Proof.Machine.execPllLockLoss domain s
  | .phaseRom passed rows => Sys2Proof.Machine.execPhaseRom passed rows s
  | .phaseRestore badA badB badFactory => Sys2Proof.Machine.execPhaseRestore badA badB badFactory s
  | .phasePatch => Sys2Proof.Machine.execPhasePatch s
  | .phaseDies fails links => Sys2Proof.Machine.execPhaseDies fails links s
  | .phaseMemory fails => Sys2Proof.Machine.execPhaseMemory fails s
  | .phaseLinks => Sys2Proof.Machine.execPhaseLinks s
  | .phaseServe => Sys2Proof.Machine.execPhaseServe s
  | .phaseBypass => Sys2Proof.Machine.execPhaseBypass s
  | .phaseReady => Sys2Proof.Machine.execPhaseReady s
  | .phaseLimit => Sys2Proof.Machine.execPhaseLimit s
  | .lifeWrite fail later => Sys2Proof.Machine.execLifeWrite fail later s
  | .watchdogExpiry => Sys2Proof.Machine.execWatchdogExpiry s
  | .processorFault => Sys2Proof.Machine.execProcessorFault s
  | .downRetry port => Sys2Proof.Machine.execDownRetry port s
  | .trainLock port stored settings => Sys2Proof.Machine.execTrainLock port stored settings s
  | .trainTimeout port fecLock => Sys2Proof.Machine.execTrainTimeout port fecLock s
  | .initComplete port => Sys2Proof.Machine.execInitComplete port s
  | .initTimeout port => Sys2Proof.Machine.execInitTimeout port s
  | .lossOfLock port lanes => Sys2Proof.Machine.execLossOfLock port lanes s
  | .retrainLock port => Sys2Proof.Machine.execRetrainLock port s
  | .retrainTimeout port => Sys2Proof.Machine.execRetrainTimeout port s
  | .dataFlit port f => Sys2Proof.Machine.execDataFlit port f s
  | .idleFlit port f => Sys2Proof.Machine.execIdleFlit port f s
  | .nak port f => Sys2Proof.Machine.execNak port f s
  | .creditInit port f => Sys2Proof.Machine.execCreditInit port f s
  | .creditSnap port f => Sys2Proof.Machine.execCreditSnap port f s
  | .beacon port f monitor => Sys2Proof.Machine.execBeacon port f monitor s
  | .downNotice port f => Sys2Proof.Machine.execDownNotice port f s
  | .nakRepeat port => Sys2Proof.Machine.execNakRepeat port s
  | .replayTimer port => Sys2Proof.Machine.execReplayTimer port s
  | .creditSnapTimer port => Sys2Proof.Machine.execCreditSnapTimer port s
  | .beaconTimer port => Sys2Proof.Machine.execBeaconTimer port s
  | .beaconMissing port => Sys2Proof.Machine.execBeaconMissing port s
  | .flitArbitration port => Sys2Proof.Machine.execFlitArbitration port s
  | .contrib k residue => Sys2Proof.Machine.execContrib k residue s
  | .partialRx k residue => Sys2Proof.Machine.execPartialRx k residue s
  | .partialAns k => Sys2Proof.Machine.execPartialAns k s
  | .partialRetry => Sys2Proof.Machine.execPartialRetry s
  | .partialTimeout => Sys2Proof.Machine.execPartialTimeout s
  | .refill ctx pos => Sys2Proof.Machine.execRefill ctx pos s
  | .slotClockExpiry ctx slab clock => Sys2Proof.Machine.execSlotClockExpiry ctx slab clock s
  | .partialClockExpiry ctx slab pass => Sys2Proof.Machine.execPartialClockExpiry ctx slab pass s
  | .keptCopyExpiry ctx slab pass rank => Sys2Proof.Machine.execKeptCopyExpiry ctx slab pass rank s
  | .ctxFail k => Sys2Proof.Machine.execCtxFail k s
  | .poison k => Sys2Proof.Machine.execPoison k s
  | .msgAck k => Sys2Proof.Machine.execMsgAck k s
  | .msgResend => Sys2Proof.Machine.execMsgResend s
  | .sampleComplete ctx slab how => Sys2Proof.Machine.execSampleComplete ctx slab how s
  | .builtinTestDone active checking activeOk checkingOk => Sys2Proof.Machine.execBuiltinTestDone active checking activeOk checkingOk s
  | .drainComplete ctx => Sys2Proof.Machine.execDrainComplete ctx s
  | .updateAccept ctx slab fault => Sys2Proof.Machine.execUpdateAccept ctx slab fault s
  | .copyWriteComplete job region slab => Sys2Proof.Machine.execCopyWriteComplete job region slab s
  | .formNormPartial job => Sys2Proof.Machine.execFormNormPartial job s
  | .normPartial k => Sys2Proof.Machine.execNormPartial k s
  | .sealedUpdateBegin job => Sys2Proof.Machine.execSealedUpdateBegin job s
  | .haulData k => Sys2Proof.Machine.execHaulData k s
  | .haulAck k => Sys2Proof.Machine.execHaulAck k s
  | .haulResend => Sys2Proof.Machine.execHaulResend s
  | .haulDrop port => Sys2Proof.Machine.execHaulDrop port s
  | .haulEnd ctx member => Sys2Proof.Machine.execHaulEnd ctx member s
  | .hoistReq k => Sys2Proof.Machine.execHoistReq k s
  | .hoistSlabRead job entry memUe => Sys2Proof.Machine.execHoistSlabRead job entry memUe s
  | .hoistEnd job member tag => Sys2Proof.Machine.execHoistEnd job member tag s
  | .remoteRead k => Sys2Proof.Machine.execRemoteRead k s
  | .remoteData k => Sys2Proof.Machine.execRemoteData k s
  | .remoteStatus k => Sys2Proof.Machine.execRemoteStatus k s
  | .remoteReadResend => Sys2Proof.Machine.execRemoteReadResend s
  | .voteYes job => Sys2Proof.Machine.execVoteYes job s
  | .sealReq k => Sys2Proof.Machine.execSealReq k s
  | .sealVote k => Sys2Proof.Machine.execSealVote k s
  | .abortReq k => Sys2Proof.Machine.execAbortReq k s
  | .sealCommit k => Sys2Proof.Machine.execSealCommit k s
  | .sealAck k => Sys2Proof.Machine.execSealAck k s
  | .sealDone k => Sys2Proof.Machine.execSealDone k s
  | .sealAbort k => Sys2Proof.Machine.execSealAbort k s
  | .abortScanComplete job => Sys2Proof.Machine.execAbortScanComplete job s
  | .abortAck k => Sys2Proof.Machine.execAbortAck k s
  | .sealQuery k => Sys2Proof.Machine.execSealQuery k s
  | .sealState k => Sys2Proof.Machine.execSealState k s
  | .parityDelta k => Sys2Proof.Machine.execParityDelta k s
  | .parityAck k => Sys2Proof.Machine.execParityAck k s
  | .parityApply k => Sys2Proof.Machine.execParityApply k s
  | .parityDrop k => Sys2Proof.Machine.execParityDrop k s
  | .applyAck k => Sys2Proof.Machine.execApplyAck k s
  | .dropAck k => Sys2Proof.Machine.execDropAck k s
  | .vc4Resend => Sys2Proof.Machine.execVc4Resend s
  | .rebuildReq k => Sys2Proof.Machine.execRebuildReq k s
  | .rebuildData k => Sys2Proof.Machine.execRebuildData k s
  | .slabXfer k => Sys2Proof.Machine.execSlabXfer k s
  | .xferAck k => Sys2Proof.Machine.execXferAck k s
  | .xferTimeout => Sys2Proof.Machine.execXferTimeout s
  | .live k => Sys2Proof.Machine.execLive k s
  | .liveTimer => Sys2Proof.Machine.execLiveTimer s
  | .liveWatchTimeout job => Sys2Proof.Machine.execLiveWatchTimeout job s
  | .withdrawn k => Sys2Proof.Machine.execWithdrawn k s
  | .claim k => Sys2Proof.Machine.execClaim k s
  | .claimAnswer k => Sys2Proof.Machine.execClaimAnswer k s
  | .recRead k => Sys2Proof.Machine.execRecRead k s
  | .replayData k => Sys2Proof.Machine.execReplayData k s
  | .replayReqResend => Sys2Proof.Machine.execReplayReqResend s
  | .replayPortTimeout => Sys2Proof.Machine.execReplayPortTimeout s
  | .transitPacket k => Sys2Proof.Machine.execTransitPacket k s
  | .routeHoldExpiry => Sys2Proof.Machine.execRouteHoldExpiry s
  | .ringState k => Sys2Proof.Machine.execRingState k s
  | .ringStateTimer => Sys2Proof.Machine.execRingStateTimer s
  | .ringMapLapse => Sys2Proof.Machine.execRingMapLapse s
  | .bypassRelease pair => Sys2Proof.Machine.execBypassRelease pair s
  | .bypassReleaseTimeout => Sys2Proof.Machine.execBypassReleaseTimeout s
  | .nodeStart => Sys2Proof.Machine.execNodeStart s
  | .alloc pool requester job => Sys2Proof.Machine.execAlloc pool requester job s
  | .addref handle requester => Sys2Proof.Machine.execAddref handle requester s
  | .releaseBuf handle requester => Sys2Proof.Machine.execReleaseBuf handle requester s
  | .repairTrigger t => Sys2Proof.Machine.execRepairTrigger t s
  | .wear port level => Sys2Proof.Machine.execWear port level s
  | .laneGroupFail group => Sys2Proof.Machine.execLaneGroupFail group s
  | .channelRebuildDone channel => Sys2Proof.Machine.execChannelRebuildDone channel s
  | .scrub walk => Sys2Proof.Machine.execScrub walk s
  | .trapAge => Sys2Proof.Machine.execTrapAge s
  | .telemetryPeriod sink => Sys2Proof.Machine.execTelemetryPeriod sink s
  | .arpRequest mport sha spa tpa => Sys2Proof.Machine.execArpRequest mport sha spa tpa s
  | .addrDup mport sha spa => Sys2Proof.Machine.execAddrDup mport sha spa s
  | .neighborDiscovery mport src target => Sys2Proof.Machine.execNeighborDiscovery mport src target s
  | .echoRequest mport src dst ident data => Sys2Proof.Machine.execEchoRequest mport src dst ident data s
  | .mgmtFrameDrop mport => Sys2Proof.Machine.execMgmtFrameDrop mport s
  | .takeoverComplete => Sys2Proof.Machine.execTakeoverComplete s
  | .slewComplete => Sys2Proof.Machine.execSlewComplete s
  | .mgmtLinkChange mport up => Sys2Proof.Machine.execMgmtLinkChange mport up s
  | .addressProbeDone mport v6 => Sys2Proof.Machine.execAddressProbeDone mport v6 s
  | .recMirrorTimeout job => Sys2Proof.Machine.execRecMirrorTimeout job s
  | .flashWaitTimeout => Sys2Proof.Machine.execFlashWaitTimeout s

end Sys2Proof.Machine
end

