-- ==== Sys2Proof/Machine/Idle.lean ====
section
/-!
DEFINITION. Sys2Proof/Machine/Idle.lean: what an empty queue does: one microsecond passes (log 3), a seam retirement whose time is over
ends (R196 step 5), and telemetry goes out (R752).
-/
namespace Sys2Proof.Machine

/-- A parity recomputation is over, and pool 61 closes behind it (R600). -/
def recompTick (d : Dev) : Dev :=
  if d.parity.recomp then poolsSettle (updPar d fun p => { p with recomp := false }) else d

/-- Seam retirements whose time is over end: a position that takes copies again is a unit returned from repair, and every context table
is cleared (R389, R390; DEDUCED, log 90); pool 61 closes with the last one (R600), and the SPARE_RETIRE that asked for one is answered
(R483): its object is 256 plus the position. -/
def retireTick (d : Dev) : Dev :=
  let ended := d.spare.retiring.filter fun e => decide (e.2 ≤ d.nowUs)
  if ended.isEmpty then d
  else
    let d1 := { d with spare := { d.spare with retiring := SMap.keep (fun _ t => decide (d.nowUs < t)) d.spare.retiring } }
    poolsSettle (flushAll (forEach ended (clearCtxs d1) fun d' e =>
      finishCmds d' (fun w => w.opcode == 0x71 && w.object == 256 + e.1) (plainReply stOk 0)))

/-- One microsecond passes, and what its passing ends, ends. -/
def idle (s : State) : State :=
  { s with dev := forEach (List.range 4) (retireTick (recompTick { s.dev with nowUs := s.dev.nowUs + 1 })) sendUnsent }

end Sys2Proof.Machine
end

