-- ==== Sys2Proof/Safety.lean ====
section
/-!
DEFINITION. Sys2Proof/Safety.lean: the terms the statements use.
-/
namespace Sys2Proof.Machine

/-- The module's object tables, the update dies' memory among them, are in their one canonical form (numbers strictly rising, so no
object is listed twice), no counter is listed at 0, and there are sixteen bypass pairs. -/
structure Dev.Wf (d : Dev) : Prop where
  jobs     : SMap.wf d.jobs = true
  ctxs     : SMap.wf d.ctxs = true
  left     : SMap.wf d.left = true
  maps     : SMap.wf d.maps = true
  rules    : SMap.wf d.rules = true
  scheds   : SMap.wf d.scheds = true
  syncs    : SMap.wf d.syncs = true
  ports    : SMap.wf d.ports = true
  counters : SMap.wf d.counters = true
  nonzero  : (d.counters.all fun e => e.2 != 0) = true
  pairs    : d.fabric.pairs.length = 16
  mems     : SMap.wf d.mems = true

/-- What every command keeps of a device: its time, what manufacture fixed, and the form of its tables. -/
structure Kin (a b : Dev) : Prop where
  time : b.nowUs = a.nowUs
  fac  : b.fac = a.fac
  wf   : a.Wf → b.Wf

/-- What taking a command from `src` leaves of the received packets: one from the management network takes none of them; an
in-band one takes its own carriers, so what is left stands in the order it had. -/
def Leaves (src : CmdSrc) (before after : List PktRx) : Prop :=
  match src with
  | .mgmt _ _ _ => after = before
  | .inband _ => List.Sublist after before

/-- Port `b` is port `a` but for the packets that wait to be sent, and the clocks of data that waits for a credit (CREDIT_STALL_US). -/
structure Queued (a b : Port) : Prop where
  rest : b = { a with queue := b.queue, tx := b.tx }
  tx   : ∀ v, txVc b v = { txVc a v with stallAt := (txVc b v).stallAt }

/-- What taking and answering a command from `src` may change beside the command's own effect: buffers, counters, sessions,
waiting commands, trap records and what was put out; and, for an in-band source, what waits to be sent on its port, and the
carrier packet, which leaves those the link layer has delivered. -/
structure Aside (src : CmdSrc) (a b : Dev) : Prop where
  rest  : b = { a with pools := b.pools, counters := b.counters, ports := b.ports, arrived := b.arrived,
                       mgmt := { a.mgmt with sessions := b.mgmt.sessions, waiting := b.mgmt.waiting, traps := b.mgmt.traps,
                                             nextTseq := b.mgmt.nextTseq, out := b.mgmt.out } }
  ports : match src with
    | .mgmt _ _ _ => b.ports = a.ports
    | .inband p => ∀ q, Queued (getPort a q) (getPort b q) ∧ (q ≠ p → getPort b q = getPort a q)
  taken : Leaves src a.arrived b.arrived

/-- A received Ouvrov packet of opcode `op` passes the checks that every opcode shares (Table 12-5, checks 1 to 11): the opcode's
own checks go on from device `d` with command `c`. -/
def Ran (op : Nat) (p : CmdPkt) (s : State) (d : Dev) (c : Cmd) : Prop :=
  cmdRowOk op p = true ∧ frontEnd s.dev p = .run d c

/-- The last thing done was to send the final reply `r` of the packet's command, with its SESSION, SEQ and TAG. -/
def Answers (p : CmdPkt) (t : Dev) (r : Reply) : Prop :=
  ∃ e, t = sendOuvrov e p.src (cmdJob p)
    (replyWords 2 (cmdOpcode p) (cmdJob p) (cmdSession p) (cmdSeq p) (cmdTag p) r)

/-- A flit on a port that exists, whose type and kind are its row's; one whose CRC fails may show any. -/
def flitTakes (port type kind : Nat) (f : FlitRx) : Bool :=
  portOk port && (!decide (flitCrc f.hdr f.payload = f.crc) ||
    (field f.hdr 63 62 == type && (type != 1 || field (flitWord f 0) 63 56 == kind)))

/-- The operands of a command name units that the module has (R15, R36, R515), and the packet or flit it carries is one of its row's
opcode (Table 12-2), packet type (Table 15-10) or flit type (Table 15-4). -/
def operandsFit : Instr → Bool
  | .moduleInfo p => cmdRowOk 0x0001 p
  | .authSet p => cmdRowOk 0x0002 p
  | .patchLoad p => cmdRowOk 0x0003 p
  | .portConfig p => cmdRowOk 0x0004 p
  | .regRead p => cmdRowOk 0x0005 p
  | .regWrite p | .trapCtl p | .captureClear p => cmdRowOk 0x0006 p
  | .jobRegRead p => cmdRowOk 0x0007 p
  | .telemSet p => cmdRowOk 0x0008 p
  | .jobCreate p => cmdRowOk 0x0010 p
  | .jobDestroy p => cmdRowOk 0x0011 p
  | .jobQuota p => cmdRowOk 0x0012 p
  | .jobConfig p => cmdRowOk 0x0013 p
  | .jobRead p => cmdRowOk 0x0014 p
  | .memberAttach p => cmdRowOk 0x0015 p
  | .memberDetach p => cmdRowOk 0x0016 p
  | .regionCreate p => cmdRowOk 0x0020 p
  | .regionDestroy p => cmdRowOk 0x0021 p
  | .paramLoad p => cmdRowOk 0x0022 p
  | .haulSet p => cmdRowOk 0x0023 p
  | .haulSub p => cmdRowOk 0x0024 p
  | .rankmapLoad p => cmdRowOk 0x0025 p
  | .ruleLoad p => cmdRowOk 0x0026 p
  | .schedLoad p => cmdRowOk 0x0027 p
  | .schedRead p => cmdRowOk 0x0028 p
  | .objFree p => cmdRowOk 0x0029 p
  | .ctxOpen p => cmdRowOk 0x0030 p
  | .ctxRelease p => cmdRowOk 0x0031 p
  | .ctxRead p => cmdRowOk 0x0032 p
  | .graphSubmit p => cmdRowOk 0x0038 p
  | .graphRelease p => cmdRowOk 0x0039 p
  | .graphCancel p => cmdRowOk 0x003A p
  | .graphRead p => cmdRowOk 0x003B p
  | .syncAlloc p => cmdRowOk 0x0040 p
  | .syncFree p => cmdRowOk 0x0041 p
  | .syncOp p => cmdRowOk 0x0042 p
  | .stepSeal p => cmdRowOk 0x0048 p
  | .stepAbort p => cmdRowOk 0x0049 p
  | .stepPoison p => cmdRowOk 0x004A p
  | .snapConfig p => cmdRowOk 0x0050 p
  | .snapTake p => cmdRowOk 0x0051 p
  | .snapRestore p => cmdRowOk 0x0052 p
  | .snapRead p => cmdRowOk 0x0053 p
  | .parityGroupSet p => cmdRowOk 0x0058 p
  | .rebuildStart p => cmdRowOk 0x0059 p
  | .parityRead p => cmdRowOk 0x005A p
  | .recStart p => cmdRowOk 0x0060 p
  | .recStop p => cmdRowOk 0x0061 p
  | .replayStart p => cmdRowOk 0x0062 p
  | .refMode p => cmdRowOk 0x0063 p
  | .cablePlanLoad p => cmdRowOk 0x0068 p
  | .cableCheck p => cmdRowOk 0x0069 p
  | .cableReport p => cmdRowOk 0x006A p
  | .spareRead p => cmdRowOk 0x0070 p
  | .spareRetire p => cmdRowOk 0x0071 p
  | .bypassSet p => cmdRowOk 0x0078 p
  | .interimReply | .stagedLoadTimeout | .page _ | .operationOff | .operationOn | .clearFaults | .voutMode | .statusWord
  | .statusVout | .statusIout | .statusInput | .statusTemperature | .statusCml | .readVin | .readIin | .readVout | .readIout
  | .readTemperature1 | .readTemperature2 | .readTemperature3 | .readPout | .readPin | .pmbusRevision | .mfrId | .mfrModel
  | .mfrSerial | .mfrShutdownCause | .pmbusUnsupported _ _ | .jtagBypass | .idcode | .samplePreload _ | .extest | .highz
  | .scanEnAssert | .scanEnRelease | .inputRise | .inputLow _ | .inputDip | .inputHigh | .inputHighClear | .overcurrent
  | .railFault | .shutdownRestart | .heartbeat | .heartbeatMissing | .overTemperature | .tempRecovered | .inputWarn _
  | .moduleReset | .refClockLoss | .refClockReturn | .phaseRestore _ _ _ | .phasePatch | .phaseLinks
  | .phaseServe | .phaseBypass | .phaseReady | .phaseLimit | .watchdogExpiry | .processorFault
  | .partialRetry | .partialTimeout | .msgResend | .haulResend | .remoteReadResend | .vc4Resend | .xferTimeout | .liveTimer
  | .replayReqResend | .replayPortTimeout | .routeHoldExpiry | .ringStateTimer | .ringMapLapse | .bypassReleaseTimeout
  | .nodeStart | .trapAge | .takeoverComplete | .slewComplete | .flashWaitTimeout => true
  | .phaseRom _ rows => rows.all fun r => decide (r.1 < sramBanks 31) && decide (r.2 < 1024)
  | .lifeWrite fail later => (fail :: later).all fun e => decide (e.1 ≤ 3) && decide (e.2 ≤ 3)
  | .smbusReadByte offset | .smbusReadWord offset => decide (offset < 256)
  | .smbusBlockRead offset len => decide (offset < 256) && decide (len ≤ 32)
  | .thermalWarn sensor _ => decide (sensor < 32) || (decide (64 ≤ sensor) && decide (sensor < 100)) || sensor == 200
  | .pllLockLoss domain => decide (domain < 40)
  | .phaseDies fails links => fails.all triggerOk && links.all fun l => decide (l < 301)
  | .phaseMemory fails => fails.all triggerOk
  | .downRetry port | .trainLock port _ _ | .trainTimeout port _ | .initComplete port | .initTimeout port
  | .lossOfLock port _ | .retrainLock port | .retrainTimeout port | .nakRepeat port | .replayTimer port
  | .creditSnapTimer port | .beaconTimer port | .beaconMissing port | .flitArbitration port => portOk port
  | .dataFlit port f => flitTakes port 0 0 f
  | .idleFlit port f => flitTakes port 2 0 f
  | .nak port f => flitTakes port 1 1 f
  | .creditInit port f => flitTakes port 1 2 f
  | .creditSnap port f => flitTakes port 1 3 f
  | .beacon port f monitor =>
    if monitor then portOk port && decide (256 ≤ port) && field f.hdr 63 62 == 1 && field (flitWord f 0) 63 56 == 4
    else flitTakes port 1 4 f
  | .downNotice port f => flitTakes port 1 5 f
  | .contrib k _ => arrivalOk k 0x10
  | .partialRx k _ => arrivalOk k 0x60
  | .partialAns k => arrivalOk k 0x61
  | .refill ctx pos => decide (ctx < 16384) && decide (pos < 128)
  | .slotClockExpiry ctx _ _ | .partialClockExpiry ctx _ _ | .keptCopyExpiry ctx _ _ _ | .sampleComplete ctx _ _
  | .drainComplete ctx => decide (ctx < 16384)
  | .ctxFail k => arrivalOk k 0x63
  | .poison k => arrivalOk k 0x64
  | .msgAck k => arrivalOk k 0x66
  | .builtinTestDone active checking _ _ => decide (active < 144) && decide (checking < 144)
  | .updateAccept ctx slab _ => decide (ctx < 16384) && decide (slab < 65536)
  | .copyWriteComplete job _ _ | .formNormPartial job | .sealedUpdateBegin job | .hoistSlabRead job _ _ | .voteYes job
  | .abortScanComplete job | .recMirrorTimeout job => decide (job < 64)
  | .normPartial k => arrivalOk k 0x62
  | .haulData k => arrivalOk k 0x20
  | .haulAck k => arrivalOk k 0x21
  | .haulDrop port | .wear port _ => decide (port < 288)
  | .haulEnd ctx member => decide (ctx < 16384) && decide (member < 4096)
  | .hoistReq k => arrivalOk k 0x30
  | .hoistEnd job member _ => decide (job < 64) && decide (member < 4096)
  | .remoteRead k => arrivalOk k 0x34
  | .remoteData k => arrivalOk k 0x35
  | .remoteStatus k => arrivalOk k 0x36
  | .sealReq k => arrivalOk k 0x65 && (sealF k.words).kind == 1
  | .sealVote k => arrivalOk k 0x65 && (sealF k.words).kind == 2
  | .abortReq k => arrivalOk k 0x65 && (sealF k.words).kind == 3
  | .sealCommit k => arrivalOk k 0x65 && (sealF k.words).kind == 4
  | .sealAck k => arrivalOk k 0x65 && (sealF k.words).kind == 5
  | .sealDone k => arrivalOk k 0x65 && (sealF k.words).kind == 6
  | .sealAbort k => arrivalOk k 0x65 && (sealF k.words).kind == 7
  | .abortAck k => arrivalOk k 0x65 && (sealF k.words).kind == 8
  | .sealQuery k => arrivalOk k 0x65 && (sealF k.words).kind == 9
  | .sealState k => arrivalOk k 0x65 && (sealF k.words).kind == 10
  | .parityDelta k => arrivalOk k 0x40
  | .parityAck k => arrivalOk k 0x41
  | .parityApply k => arrivalOk k 0x42 && (ctlKind k.words == 1)
  | .parityDrop k => arrivalOk k 0x42 && (ctlKind k.words == 2)
  | .applyAck k => arrivalOk k 0x42 && (ctlKind k.words == 3)
  | .dropAck k => arrivalOk k 0x42 && (ctlKind k.words == 4)
  | .rebuildReq k => arrivalOk k 0x43
  | .rebuildData k => arrivalOk k 0x44
  | .slabXfer k => arrivalOk k 0x45
  | .xferAck k => arrivalOk k 0x47
  | .live k => arrivalOk k 0x48 && (liveKind k.words == 1)
  | .liveWatchTimeout job => decide (job ≤ 64)
  | .withdrawn k => arrivalOk k 0x48 && (liveKind k.words == 2)
  | .claim k => arrivalOk k 0x4A && (!flag (wordAt k.words 2) 61)
  | .claimAnswer k => arrivalOk k 0x4A && (flag (wordAt k.words 2) 61)
  | .recRead k => arrivalOk k 0x51
  | .replayData ⟨k, _⟩ => arrivalOk k 0x53
  | .transitPacket k => decide (k.port < 288)
  | .ringState k => arrivalOk k 0x70 && (field (wordAt k.words 1) 63 56 == 2)
  | .bypassRelease pair => decide (pair < 16)
  | .alloc pool requester job => decide (pool < 64) && isRequester requester && (match job with | some j => decide (j < 64) | none => true)
  | .addref handle requester | .releaseBuf handle requester => decide (handle < 2 ^ 24) && isRequester requester
  | .repairTrigger t => triggerOk t
  | .laneGroupFail ⟨link, retries⟩ => decide (link < 301) && decide (1 ≤ retries) && decide (retries ≤ 8)
  | .channelRebuildDone channel => decide (channel < 256)
  | .scrub ⟨die, stripes, strikes⟩ => decide (die < 4) && decide (stripes ≤ dieStripes) &&
    strikes.all fun k => decide (k.stripe < dieStripes) && decide (k.channel < 64)
  | .telemetryPeriod sink => decide (sink < 4)
  | .arpRequest mport _ _ _ | .addrDup mport _ _ | .neighborDiscovery mport _ _ | .echoRequest mport _ _ _ _
  | .mgmtFrameDrop mport | .addressProbeDone mport _ => decide (mport < 2)
  | .mgmtLinkChange mport _ => decide (mport < 2)

/-- Command `i` answers a next state: device `d`, and the queue as it was. -/
def Gives (i : Instr) (s : State) (d : Dev) : Prop := exec i s = .next { s with dev := d }

/-- Command `i`, sent in packet `p`, completes: the device becomes `d` but for what is aside, and reply `r` is sent last. -/
def Replies (i : Instr) (p : CmdPkt) (s : State) (d : Dev) (r : Reply) : Prop :=
  ∃ t, Gives i s t ∧ Aside p.src d t ∧ Answers p t r

/-- Packet `k` of type `ty` has arrived whole: its port is in service (R576), it is for this module (R540), `bad`, the reasons of
R743 its type adds, gives none, and no module withdrawn from its job sent it (R625). `d` is the device with the packet taken from
the link. -/
structure Arrives (ty : Nat) (bad : Dev → Option Nat) (k : PktRx) (s : State) (d : Dev) : Prop where
  row    : arrivalOk k ty = true
  served : spoilsAt s.dev k = false
  ours   : passesOn d k = false
  common : commonOk k.words = true
  whole  : bad d = none
  member : fromWithdrawn d k = false
  taken  : d = takeArrived s.dev k

end Sys2Proof.Machine
end

