-- ==== Sys2Proof/Certificates/Slice0/Obligations.lean ====
section
/-!
DEFINITION. Sys2Proof/Certificates/Slice0/Obligations.lean: the statements for the provers.
-/
open Sys2Proof Sys2Proof.Machine

/-! ## The block as a whole -/

/-- The queue: a step with command `c` at the front is `c` run with the queue's rest. -/
def Obligations.StepRunsTheFrontCommand : Prop :=
  ∀ (c : Instr) (s : State) (r : List Instr), s.pending = c :: r → step s = exec c { s with pending := r }

/-- The model's choice (log 3): on an empty queue a microsecond passes. Nothing else changes but what its passing ends: a parity
recomputation (log 54), a seam retirement whose time is over (R196, log 88), and the datagrams of a snapshot that wait to be sent
(log 105). A retirement that is over clears the context tables (R389, log 90) and is answered. -/
def Obligations.EmptyQueueLetsAMicrosecondPass : Prop :=
  (∀ s : State, s.pending = [] → ∃ t, step s = .next t ∧ t.pending = [] ∧ t.dev.nowUs = s.dev.nowUs + 1 ∧ t.dev.fac = s.dev.fac) ∧
  (∀ s : State, s.pending = [] → s.dev.parity.recomp = false → (∀ e ∈ s.dev.spare.retiring, s.dev.nowUs + 1 < e.2) →
     (∀ n k, SMap.get? s.dev.mgmt.sinks n = some k → k.unsent = []) →
     step s = .next { s with dev := { s.dev with nowUs := s.dev.nowUs + 1 } }) ∧
  (∀ s : State, s.pending = [] → s.dev.parity.recomp = false →
     let d := { s.dev with nowUs := s.dev.nowUs + 1 }
     let ended := d.spare.retiring.filter fun e => decide (e.2 ≤ d.nowUs)
     let rest := { d.spare with retiring := SMap.keep (fun _ t => decide (d.nowUs < t)) d.spare.retiring }
     let answered := forEach ended (clearCtxs { d with spare := rest }) fun d e =>
       finishCmds d (fun w => w.opcode == 0x71 && w.object == 256 + e.1) (plainReply stOk 0)
     ended ≠ [] → step s = .next { s with dev := forEach (List.range 4) (poolsSettle (flushAll answered)) sendUnsent })

/-- R570, R600, R691, R692, R712, R727: the module right after reset, where the spec gives a value: start-up stands in ROM without a processor, every pair is
JOINED, no job, context, slot or session exists, every port has role off and is DOWN, pools 60 and 63 alone of the privileged are open and no
buffer is allocated, no trap record is held, every counter reads 0, no unit is retired and none of the spares is in use, and no shutdown
is in force. Its tables are in their canonical form. (Times, readings and what manufacture fixed are the model's choice, logs 1 and 4;
the spare map as shipped is log 8; a port's role and state, and what a table lists where nothing was written, are log 14.) -/
def Obligations.ResetStandsInRomWithNothingHeld : Prop :=
  let d := State.reset.dev
  State.reset.pending = [] ∧ d.start.phase = .rom ∧ d.start.cpu = 0xFF ∧ d.start.takeover = none ∧
  d.fabric.pairs.length = 16 ∧ (∀ p ∈ d.fabric.pairs, p.st = .joined ∧ p.held = false) ∧
  (∀ j, getJob d j = none) ∧ (∀ c, (getCtx d c).state = .free ∧ (getCtx d c).holder = none) ∧
  (∀ m, SMap.get? d.maps m = none) ∧ (∀ r, SMap.get? d.rules r = none) ∧ (∀ e, SMap.get? d.scheds e = none) ∧
  (∀ y, SMap.get? d.syncs y = none) ∧ (∀ p, (getPort d p).role = 0 ∧ (getPort d p).st = .down ∧ (getPort d p).queue = []) ∧
  (∀ p, 60 ≤ p → p ≤ 63 → (poolOpen d p = true ↔ p = 60 ∨ p = 63)) ∧ d.pools.bufs = [] ∧
  d.mgmt.sessions = [] ∧ d.mgmt.waiting = [] ∧ d.mgmt.traps = [] ∧ d.mgmt.nextTseq = 0 ∧
  (∀ c i, getCtr d c i = 0) ∧
  d.spare.sliceOut = [] ∧ d.spare.posState = [] ∧ d.spare.lanes = [] ∧ d.spare.dead = [] ∧ (∀ x, SMap.getD d.spare.rows x 0 = 0) ∧
  (∀ n, n < 144 → seamRec d n = if n < 128 then { st := 0, pos := some n } else { st := 1, pos := none }) ∧
  (∀ n, n < 256 → (chanRec d n).st = if n % 64 < 62 then 0 else 1) ∧ (∀ l, (SMap.getD d.spare.links l {}).st = 0) ∧
  d.power.down = none ∧ d.clocks.lost = [] ∧ d.arrived = [] ∧ d.Wf

/-- Whatever the command, each of the 243, and in every state: where its operands name units that exist and the packet or flit it carries
is one of its row, it completes, answering a next state; else it faults, and that is its one fault. It is never refused. Its next
state leaves the queue, the time and what manufacture fixed as they are. -/
def Obligations.CommandsKeepQueueTimeAndIdentity : Prop :=
  ∀ (c : Instr) (s : State),
    (∀ t, exec c s = .next t → t.pending = s.pending ∧ t.dev.nowUs = s.dev.nowUs ∧ t.dev.fac = s.dev.fac) ∧
    (operandsFit c = true → ∃ t, exec c s = .next t) ∧ (operandsFit c = false → exec c s = .fault .noSuchUnit) ∧
    (∀ r, exec c s ≠ .refused r) ∧ (∀ f, exec c s = .fault f → f = .noSuchUnit)

/-- The canonical form of the tables `Wf` names is kept by every step from every state that has it: jobs, contexts and their left uses,
rank maps, rule slots, schedule entries, sync objects, ports, counters and the memories of the update dies each list their numbers in
rising order, each once; no counter is listed at 0; there are sixteen bypass pairs. -/
def Obligations.EveryStepKeepsTheTablesWellFormed : Prop :=
  ∀ s t : State, s.dev.Wf → step s = .next t → t.dev.Wf

/-! ## Numbers -/

/-- R134, R136: the canonical tree. No leaf gives NONE, one leaf itself; from two leaves on, up to 8,192, the left part is the largest
power of two below their number, and the value is the sum of the two parts, each reduced the same way. -/
def Obligations.TreeSplitsAtThePowerOfTwoBelow : Prop :=
  treeVal treeFuel [] = some none ∧ (∀ v, treeVal treeFuel [v] = v) ∧
  (∀ vs : List TreeVal, 2 ≤ vs.length → vs.length ≤ 8192 →
    ∃ k, 2 ^ k < vs.length ∧ vs.length ≤ 2 ^ (k + 1) ∧
      treeVal treeFuel vs = joinVal (treeVal treeFuel (vs.take (2 ^ k))) (treeVal treeFuel (vs.drop (2 ^ k)))) ∧
  (∀ a b : List F64, joinVal (some (some a)) (some (some b)) = some (some (List.zipWith fpAdd a b)) ∧
    joinVal (some none) (some (some a)) = some (some a) ∧ joinVal (some (some a)) (some none) = some (some a))

/-- R97: addition does not depend on the order of its operands, a value and its opposite give +0, and a sum of zeros is +0 unless both are
-0. -/
def Obligations.AdditionCommutesAndSignsZeros : Prop :=
  (∀ a b : F64, fpFinite a = true → fpFinite b = true → fpAdd a b = fpAdd b a) ∧
  (∀ a : F64, fpFinite a = true → fpAdd a (fpNeg a) = 0) ∧
  fpAdd (fpZero true) (fpZero true) = fpZero true ∧ fpAdd (fpZero false) (fpZero true) = 0 ∧
  fpAdd (fpZero true) (fpZero false) = 0 ∧ fpAdd (fpZero false) (fpZero false) = 0

/-- R114, R116, R118: no element that the output stage makes of a finite value is an infinity or a NaN in its format, whatever the rounding mode
and the dither word; a value it bounds is the largest magnitude of the format with the sign of the value; and no element is a negative
zero. For an MX format this holds under every scale code the stage emits, for an integer format of any finite value: INT32 is bounded at
the ends of its range, and UINT32 gives 0 of a negative value. -/
def Obligations.ProducedElementsAreFinite : Prop :=
  ∀ (rnd : Bool) (k : DitherKey) (y : F64), fpFinite y = true →
    (∀ f, f ≤ 5 →
      let l := floatFmt f
      let o := outScalar f rnd k y
      (∃ v, ingestElem f o.code 0 = .ok v) ∧
      (o.sat = true → o.code.toNat = if fpSign y then 2 ^ (l.p + l.ebits) + l.maxCode else l.maxCode) ∧
      (o.code.toNat % 2 ^ (l.p + l.ebits) = 0 → o.code = 0)) ∧
    (∀ f sc, (f = 6 ∨ f = 7 ∨ f = 8) → sc < 255 →
      let o := outMx f rnd k sc y
      (∃ v, ingestElem f o.code (BitVec.ofNat 8 sc) = .ok v) ∧
      (o.sat = true → f = 8 → o.code = if fpSign y then 0x81 else 0x7F) ∧
      (o.sat = true → f ≠ 8 → o.code.toNat = (if fpSign y then 0x80 else 0) + (floatFmt f).maxCode) ∧
      (f ≠ 8 → o.code.toNat % 128 = 0 → o.code = 0)) ∧
    (∀ f, f = 9 ∨ f = 10 →
      let o := outScalar f rnd k y
      (∃ v, ingestElem f o.code 0 = .ok v) ∧
      (f = 9 → o.sat = true → o.code.toNat = if fpSign y then 2 ^ 31 else 2 ^ 31 - 1) ∧
      (f = 10 → o.sat = true → o.code.toNat = if fpSign y then 0 else 2 ^ 32 - 1) ∧
      (fpIsZero y = true → o.code = 0 ∧ o.sat = false))

/-! ## The power stage -/

/-- R722, R723, R724, Table 22-4: while the PMBus device answers, each read of a register the spec fixes puts out that register's bytes
and changes nothing else. (The places of the STATUS bits are the model's, log 11; the sixteen digits of the serial, log 12.) R723, Tables
22-4 and 22-5: a reading of the input side on page 0, and one of a rail on pages 1 to 5, puts out the two bytes of the measurement of the
current 10 ms, which is made anew once in them; on another page it is not acknowledged and sets the CML bit. (What is measured is a free
value within the bounds of log 102.) -/
def Obligations.PmbusReadsPutOutTheirValues : Prop :=
  (∀ s : State, (s.dev.power.input = .ok ∨ s.dev.power.input = .high) → s.dev.power.answerAt ≤ s.dev.nowUs →
     let say := fun bs => output s.dev (.pmbus bs)
     let p := s.dev.power
     Gives .voutMode s (say [0x14]) ∧
     Gives .statusWord s (say [BitVec.ofNat 8 (statusWord p), BitVec.ofNat 8 (statusWord p / 256)]) ∧
     Gives .statusVout s (say [p.stVout]) ∧ Gives .statusIout s (say [p.stIout]) ∧
     Gives .statusInput s (say [p.stInput]) ∧ Gives .statusTemperature s (say [p.stTemp]) ∧
     Gives .statusCml s (say [p.stCml]) ∧ Gives .pmbusRevision s (say [0x33]) ∧
     Gives .mfrId s (say (asciiBytes "WALUETRIC")) ∧ Gives .mfrModel s (say (asciiBytes "LM-3288-A")) ∧
     Gives .mfrSerial s (say (hexBytes s.dev.fac.serial)) ∧
     Gives .mfrShutdownCause s (say [BitVec.ofNat 8 p.mfrCause]) ∧
     Gives (.page none) s (say [BitVec.ofNat 8 p.page]) ∧
     Gives (.pmbusUnsupported 0x01 none) s (say [if p.opOff then 0x00 else 0x80])) ∧
  (∀ s : State, (s.dev.power.input = .ok ∨ s.dev.power.input = .high) → s.dev.power.answerAt ≤ s.dev.nowUs →
     let p := s.dev.power
     let now := s.dev.nowUs / 10000
     let say := fun d w => output d (.pmbus [BitVec.ofNat 8 w, BitVec.ofNat 8 (w / 256)])
     let refuse := output { s.dev with power := { p with stCml := p.stCml ||| 0x80 } } .pmbusNack
     ∀ e ∈ [(Instr.readVin, 0x88, true), (.readIin, 0x89, true), (.readTemperature1, 0x8D, true), (.readTemperature2, 0x8E, true),
         (.readTemperature3, 0x8F, true), (.readPin, 0x97, true), (.readVout, 0x8B, false), (.readIout, 0x8C, false), (.readPout, 0x96, false)],
       let key := 8 * e.2.1 + p.page
       let w := measured s.dev e.2.1 (Config.freeWord s.dev.freeCtr)
       ((p.page = 0 ↔ e.2.2 = false) → Gives e.1 s refuse) ∧
       ((p.page = 0 ↔ e.2.2 = true) →
         (∀ v, SMap.get? p.readings key = some (now, v) → Gives e.1 s (say s.dev v)) ∧
         ((∀ v, SMap.get? p.readings key ≠ some (now, v)) → Gives e.1 s
           (say { s.dev with power := { p with readings := SMap.set p.readings key (now, w) }, freeCtr := s.dev.freeCtr + 1 } w)))) ∧
  (∀ (d : Dev) (w : W64), d.power.page ≠ 0 →
     (∀ code, d.power.down ≠ none → d.power.downAt / 10000 < d.nowUs / 10000 → measured d code w = 0) ∧
     (d.power.down = none → railSet d.power.page - railSet d.power.page * 595 / 10000 ≤ measured d 0x8B w ∧
       measured d 0x8B w ≤ railSet d.power.page + railSet d.power.page * 595 / 10000))

/-- R722, R724: writes on the PMBus. PAGE takes 0 to 5 and sets CML on another value; CLEAR_FAULTS clears the STATUS bits and the latch;
OPERATION takes 0x00 and 0x80 and sets CML on another value; a command of no table row is not acknowledged, sets CML and does nothing
else. R722: below 40 V, or before its first 5 ms are over, the PMBus device acknowledges nothing, and nothing else happens, but that
OPERATION on is refused with CML below 40 V (Table 22-14). -/
def Obligations.PmbusWritesAndSilence : Prop :=
  (∀ s : State, (s.dev.power.input = .ok ∨ s.dev.power.input = .high) → s.dev.power.answerAt ≤ s.dev.nowUs →
     let p := s.dev.power
     (∀ v, v ≤ 5 → Gives (.page (some v)) s { s.dev with power := { p with page := v } }) ∧
     (∀ v, 5 < v → Gives (.page (some v)) s { s.dev with power := { p with stCml := p.stCml ||| 0x40 } }) ∧
     Gives .clearFaults s { s.dev with power :=
       { p with stVout := 0, stIout := 0, stInput := 0, stTemp := 0, stCml := 0, latch := 0, mfrCause := 0 } } ∧
     (∀ v, Gives (.pmbusUnsupported 0x01 (some v)) s { s.dev with power := { p with stCml := p.stCml ||| 0x40 } }) ∧
     (∀ code v, code ≠ 0x01 →
       Gives (.pmbusUnsupported code v) s (output { s.dev with power := { p with stCml := p.stCml ||| 0x80 } } .pmbusNack)) ∧
     (p.input ≠ .ok → Gives .operationOn s { s.dev with power := { p with stCml := p.stCml ||| 0x40 } }) ∧
     (p.input = .ok → p.opOff = false → Gives .operationOn s s.dev)) ∧
  (∀ s : State, (s.dev.power.input = .low ∨ s.dev.power.input = .below10 ∨ s.dev.nowUs < s.dev.power.answerAt) →
     (s.dev.power.input = .low →
       Gives .operationOn s (output { s.dev with power := { s.dev.power with stCml := s.dev.power.stCml ||| 0x40 } } .pmbusNack)) ∧
     (s.dev.power.input ≠ .low → Gives .operationOn s (output s.dev .pmbusNack)) ∧
     ∀ i, (i ∈ [Instr.operationOff, .clearFaults, .voutMode, .statusWord, .statusVout, .statusIout, .statusInput,
         .statusTemperature, .statusCml, .readVin, .readIin, .readVout, .readIout, .readTemperature1, .readTemperature2,
         .readTemperature3, .readPout, .readPin, .pmbusRevision, .mfrId, .mfrModel, .mfrSerial, .mfrShutdownCause] ∨
         (∃ v, i = .page v) ∨ (∃ c v, i = .pmbusUnsupported c v)) →
       Gives i s (output s.dev .pmbusNack))

/-- R742: SMBus serves the 64 bytes of IDENTITY at offsets 0x00 to 0x3F and START_STATUS at 0x40 to 0x4F, byte 0 of each word
lowest, and 0xFF at other offsets. A Read Byte gives one byte from its offset, a Read Word two, a Block Read up to 32. Table 22-8: while
domain 39 is lost, and where PMBus does not answer, nothing is acknowledged. -/
def Obligations.SmbusServesIdentityBytes : Prop :=
  (∀ s : State, (s.dev.clocks.lost.contains 39 = true ∨ s.dev.power.input = .low ∨ s.dev.power.input = .below10 ∨
       s.dev.nowUs < s.dev.power.answerAt) → ∀ o n, o < 256 → n ≤ 32 →
     ∀ i ∈ [Instr.smbusReadByte o, .smbusReadWord o, .smbusBlockRead o n], Gives i s (output s.dev .pmbusNack)) ∧
  ∀ s : State, (s.dev.power.input = .ok ∨ s.dev.power.input = .high) → s.dev.power.answerAt ≤ s.dev.nowUs →
    s.dev.clocks.lost.contains 39 = false →
    let byte := fun o : Nat =>
      if o < 0x40 then BitVec.ofNat 8 ((identityWord s.dev (o / 8)).toNat / 256 ^ (o % 8))
      else if o < 0x50 then BitVec.ofNat 8 ((startWord s.dev ((o - 0x40) / 8)).toNat / 256 ^ (o % 8))
      else (0xFF : Byte)
    (∀ o, o < 256 →
      Gives (.smbusReadByte o) s (output s.dev (.pmbus [byte o])) ∧
      Gives (.smbusReadWord o) s (output s.dev (.pmbus [byte o, byte (o + 1)]))) ∧
    (∀ o n, o < 256 → n ≤ 32 →
      Gives (.smbusBlockRead o n) s (output s.dev (.pmbus ((List.range n).map fun i => byte (o + i))))) ∧
    (∀ o n, 256 ≤ o ∨ 32 < n → exec (.smbusBlockRead o n) s = .fault .noSuchUnit)

/-- R735: while SCAN_EN is asserted, each instruction of the test access port is taken: IDCODE shifts out 0x1328_855D; SAMPLE/PRELOAD
captures the signals, a free value, and shifts as many bits out as in, so that 48 bits preloaded are what the boundary-scan register
holds and EXTEST then drives; HIGHZ floats the signals. (Their number and order are log 103.) R735: without SCAN_EN the test access port
does nothing. -/
def Obligations.TestPortNeedsScanEn : Prop :=
  (∀ s : State, s.dev.power.scanEn = true →
     let p := s.dev.power
     let w := Config.freeWord s.dev.freeCtr
     Gives .jtagBypass s (output { s.dev with power := { p with tap := 0 } } (.tap 0 1)) ∧
     Gives .idcode s (output { s.dev with power := { p with tap := 1 } } (.tap 0x1328855D 32)) ∧
     let pins := (List.range 48).map w.getLsbD
     (∀ bits, Gives (.samplePreload bits) s
       (output { s.dev with power := { p with tap := 2, bsr := (pins ++ bits).drop bits.length }, freeCtr := s.dev.freeCtr + 1 }
         (.tap (bitsNat ((pins ++ bits).take bits.length)) bits.length))) ∧
     (∀ bits, bits.length = 48 → (pins ++ bits).drop bits.length = bits ∧ (pins ++ bits).take bits.length = pins) ∧
     Gives .extest s (output { s.dev with power := { p with tap := 3 } } (.pins (some p.bsr))) ∧
     Gives .highz s (output { s.dev with power := { p with tap := 4 } } (.pins none))) ∧
  (∀ s : State, s.dev.power.scanEn = false →
     ∀ i, (i ∈ [Instr.jtagBypass, .idcode, .extest, .highz] ∨ ∃ bits, i = .samplePreload bits) → Gives i s s.dev)

/-- R715, R718, R691, R579, Table 22-2: each row that shuts a running module down completes, with the cause Table 22-2 gives its
condition: INPUT_LOW 1, INPUT_HIGH 2, OVERCURRENT 3, OVER_TEMPERATURE 4, HEARTBEAT_MISSING 5 once the heartbeat has been missing for 10 ms,
OPERATION off 6 while PMBus answers, SCAN_EN_ASSERT 7, RAIL_FAULT 8. The cause is latched and in force from now on; the module has no
job, context, map, rule, schedule, sync object, port, arrived packet, buffer, session, waiting command, trap record, sink, parity
holding, stored stripe or counter; every pair is JOINED; the logs of retained flash, identity and the time stay, but for a record write
that the loss of input interrupts (R705, R711). R718, R691: the input below 10 V loses all the power stage holds. R715: a second condition
during a shutdown leaves the start-up as it is, and the cause in force unless it comes at the same instant and has a lower cause
(R737). -/
def Obligations.ShutdownLatchesTheFirstCause : Prop :=
  (∀ s : State, s.dev.power.down = none →
     let off := fun (c : Nat) (t : Dev) =>
       t.power.down = some c ∧ t.power.downAt = s.dev.nowUs ∧ t.power.latch = c ∧ t.power.mfrCause = c ∧ t.start.phase = .power ∧
       t.jobs = [] ∧ t.ctxs = [] ∧ t.left = [] ∧ t.maps = [] ∧ t.rules = [] ∧ t.scheds = [] ∧ t.syncs = [] ∧ t.ports = [] ∧
       t.counters = [] ∧ t.arrived = [] ∧ t.pools.bufs = [] ∧ t.mgmt.sessions = [] ∧ t.mgmt.waiting = [] ∧ t.mgmt.traps = [] ∧
       t.mgmt.sinks = [] ∧ t.parity = {} ∧ t.mems = [] ∧
       (∀ q ∈ t.fabric.pairs, q.st = .joined) ∧ t.fabric.pairs.length = s.dev.fabric.pairs.length ∧
       t.fac = s.dev.fac ∧ t.nowUs = s.dev.nowUs ∧ t.mgmt.out = s.dev.mgmt.out
     let kept := fun (d t : Dev) => t.flash.a.copies = d.flash.a.copies ∧ t.flash.b.copies = d.flash.b.copies
     (∃ t, Gives (.inputLow { below10 := false, torn := none }) s t ∧ off 1 t ∧ kept s.dev t ∧ t.power.input = .low) ∧
     (∀ w, (s.dev.power.input = .ok ∨ s.dev.power.input = .high) →
       ∃ t, Gives (.inputLow { below10 := false, torn := some w }) s t ∧ off 1 t ∧ kept (tearWrite s.dev w) t ∧ t.power.input = .low) ∧
     (∃ t, Gives .inputHigh s t ∧ off 2 t ∧ kept s.dev t ∧ t.power.input = .high) ∧
     (∃ t, Gives .overcurrent s t ∧ off 3 t ∧ kept s.dev t) ∧
     (∃ t, Gives .overTemperature s t ∧ off 4 t ∧ kept s.dev t) ∧
     (s.dev.power.hbArmed = true → s.dev.power.hbAt + 10000 ≤ s.dev.nowUs → ∃ t, Gives .heartbeatMissing s t ∧ off 5 t ∧ kept s.dev t) ∧
     ((s.dev.power.input = .ok ∨ s.dev.power.input = .high) → s.dev.power.answerAt ≤ s.dev.nowUs →
       ∃ t, Gives .operationOff s t ∧ off 6 t ∧ kept s.dev t ∧ t.power.opOff = true) ∧
     (∃ t, Gives .scanEnAssert s t ∧ off 7 t ∧ kept s.dev t ∧ t.power.scanEn = true) ∧
     (∃ t, Gives .railFault s t ∧ off 8 t ∧ kept s.dev t)) ∧
  (∀ s : State,
     (∀ w, ∃ t, Gives (.inputLow { below10 := true, torn := w }) s t ∧ t.power.input = .below10 ∧ t.power.down = some 1 ∧ t.power.latch = 0 ∧
       t.power.mfrCause = 0 ∧ t.power.page = 0 ∧ t.power.opOff = false ∧ t.power.stVout = 0 ∧ t.power.stIout = 0 ∧ t.power.stInput = 0 ∧
       t.power.stTemp = 0 ∧ t.power.stCml = 0 ∧ t.power.restarts = [] ∧ t.power.locked = false) ∧
     (∀ c, s.dev.power.down = some c →
       (∀ e ∈ [(Instr.inputLow { below10 := false, torn := none }, 1), (.inputHigh, 2), (.overcurrent, 3), (.overTemperature, 4), (.scanEnAssert, 7), (.railFault, 8)],
         ∃ t, Gives e.1 s t ∧ t.start = s.dev.start ∧
           (s.dev.power.downAt ≠ s.dev.nowUs ∨ c ≤ e.2 → t.power.down = some c ∧ t.power.latch = s.dev.power.latch) ∧
           (s.dev.power.downAt = s.dev.nowUs → e.2 < c → t.power.down = some e.2 ∧ t.power.latch = e.2)) ∧
       (s.dev.power.hbArmed = false → Gives .heartbeatMissing s s.dev)))

/-- R715, R705, R724, Table 22-2: each restart condition starts the module again at POWER, its origin now, while nothing else holds it
off; PMBus answers 5 ms later, and the records in retained flash are as they were. The input rising ends a lockout too. R724, R735:
OPERATION on after off, and SCAN_EN released, end a shutdown of cause 6 or 7, and one whose own condition was met while they held the
module off; a fourth restart within ten minutes is locked out, until OPERATION off and on or an input cycle (R715). -/
def Obligations.RestartAndReleaseBeginStartUp : Prop :=
  (∀ s : State, s.dev.power.opOff = false → s.dev.power.scanEn = false →
     let begun := fun (n : Nat) (t : Dev) =>
       t.start.phase = .power ∧ t.start.origin = s.dev.nowUs ∧ t.start.restarts = n ∧ t.power.down = none ∧ t.power.locked = false ∧
       t.power.answerAt = s.dev.nowUs + 5000 ∧ t.power.input = .ok ∧ t.flash.a.copies = s.dev.flash.a.copies ∧
       t.flash.b.copies = s.dev.flash.b.copies ∧ t.jobs = []
     ((s.dev.power.input = .low ∨ s.dev.power.input = .below10) →
       ∃ t, Gives .inputRise s t ∧ begun (if s.dev.power.down = some 1 then s.dev.start.restarts else 0) t) ∧
     (s.dev.power.locked = false →
       (s.dev.power.input = .high → s.dev.power.down = some 2 → ∃ t, Gives .inputHighClear s t ∧ begun 0 t) ∧
       (s.dev.power.input = .ok → s.dev.power.down = some 4 → ∃ t, Gives .tempRecovered s t ∧ begun 0 t) ∧
       (∀ c ∈ [3, 5, 8], s.dev.power.input = .ok → s.dev.power.down = some c → s.dev.power.downAt + 1000000 ≤ s.dev.nowUs →
         (recentRestarts s.dev).length < 3 → ∃ t, Gives .shutdownRestart s t ∧ begun 0 t ∧
           t.power.restarts = recentRestarts s.dev ++ [s.dev.nowUs]))) ∧
  (∀ s : State, s.dev.power.opOff = true ∨ s.dev.power.scanEn = true →
     (s.dev.power.down = some 4 → Gives .tempRecovered s { s.dev with power := { s.dev.power with due := true } }) ∧
     (s.dev.power.input = .high → s.dev.power.down = some 2 →
       Gives .inputHighClear s { s.dev with power := { s.dev.power with input := .ok, due := true } })) ∧
  (∀ s : State, s.dev.power.input = .ok →
     (s.dev.power.opOff = true → s.dev.power.scanEn = false →
       (s.dev.power.due = true ∨ s.dev.power.down = some 6 ∨ s.dev.power.locked = true) → s.dev.power.answerAt ≤ s.dev.nowUs →
       ∃ t, Gives .operationOn s t ∧ t.start.phase = .power ∧ t.start.origin = s.dev.nowUs ∧ t.power.down = none ∧
         t.power.opOff = false ∧ t.power.locked = false) ∧
     (s.dev.power.opOff = false → s.dev.power.locked = false → (s.dev.power.due = true ∨ s.dev.power.down = some 7) →
       ∃ t, Gives .scanEnRelease s t ∧ t.start.phase = .power ∧ t.start.origin = s.dev.nowUs ∧ t.power.down = none ∧
         t.power.scanEn = false) ∧
     (∀ c ∈ [3, 5, 8], s.dev.power.down = some c → s.dev.power.opOff = false → s.dev.power.scanEn = false →
       s.dev.power.locked = false → s.dev.power.downAt + 1000000 ≤ s.dev.nowUs → 3 ≤ (recentRestarts s.dev).length →
       Gives .shutdownRestart s { s.dev with power := { s.dev.power with locked := true } }))

/-- R692, R691: a reset with the input in range begins again at ROM and keeps retained flash; R716: the heartbeat is noted;
Table 22-1: a dip of at most 100 µs does nothing; R728, Table 22-6: a reference that returns is detected, and once it has been present
for 100 ms the clocks slew back out of holdover, whose milliseconds are counted; the slew ends. -/
def Obligations.ResetHeartbeatAndClockRows : Prop :=
  ∀ s : State,
    Gives .inputDip s s.dev ∧
    Gives .slewComplete s { s.dev with clocks := { s.dev.clocks with slewing := false } } ∧
    (let c := s.dev.clocks
     (c.refOk = false → Gives .refClockReturn s { s.dev with clocks := { c with refOk := true, refAt := s.dev.nowUs } }) ∧
     (c.refOk = true →
       (c.holdover = true → c.refAt + 100000 ≤ s.dev.nowUs → ∃ t, Gives .refClockReturn s t ∧
         t = { s.dev with clocks := { c with holdover := false, slewing := true }, counters := t.counters } ∧
         getCtr t ctrHoldoverMs 0 = getCtr s.dev ctrHoldoverMs 0 + BitVec.ofNat 64 ((s.dev.nowUs - c.holdAt) / 1000)) ∧
       ((c.holdover = false ∨ s.dev.nowUs < c.refAt + 100000) → Gives .refClockReturn s s.dev))) ∧
    (s.dev.power.down = none → (s.dev.power.input = .ok ∨ s.dev.power.input = .high) →
      Gives .heartbeat s { s.dev with power := { s.dev.power with hbAt := s.dev.nowUs } } ∧
      (∃ t, Gives .moduleReset s t ∧ t.start.phase = .rom ∧ t.start.origin = s.dev.nowUs ∧ t.start.restarts = 0 ∧
        t.flash.a.copies = s.dev.flash.a.copies ∧ t.flash.b.copies = s.dev.flash.b.copies ∧ t.jobs = [] ∧ t.ctxs = [] ∧ t.ports = [] ∧ t.counters = [] ∧
        (∀ q ∈ t.fabric.pairs, q.st = .joined) ∧ t.power.latch = s.dev.power.latch))

/-! ## Traps, warnings and start-up -/

/-- R749, R601, Table 23-8: a trap takes a buffer of pool 6, else of pool 63; its record stands under the next TSEQ with the eight
words of Table 23-8, and TSEQ advances. Without a buffer TRAP_LOST counts it and no record is made. Nothing but what is aside
changes. -/
def Obligations.TrapIsRecordedOrCountedLost : Prop :=
  ∀ (d : Dev) (t : TrapInfo),
    let q := d.mgmt.nextTseq
    let a := poolAlloc d 6 6 (t.job.map (·.1))
    let b := poolAlloc a.1 63 6 none
    (∀ src, Aside src d (raiseTrap d t)) ∧
    (∀ h, (a.2 = some h ∨ a.2 = none ∧ b.2 = some h) →
      SMap.get? (raiseTrap d t).mgmt.traps (q % 8192) = some { words := trapWords t q (timeUs d), at_ := d.nowUs, handle := h } ∧
      (raiseTrap d t).mgmt.nextTseq = (q + 1) % 2 ^ 32) ∧
    (a.2 = none → b.2 = none → raiseTrap d t = bump b.1 ctrTrapLost 0)

/-- R731, R739: a powered module counts and traps a temperature or input excursion once, when it begins; its end is noted and
another begins anew. A sensor the module does not have is none. -/
def Obligations.ExcursionsTrapOnceEach : Prop :=
  ∀ s : State, s.dev.power.down = none → (s.dev.power.input = .ok ∨ s.dev.power.input = .high) →
    let p := s.dev.power
    (∀ n, (n < 32 ∨ 64 ≤ n ∧ n < 100 ∨ n = 200) →
      (p.hot.contains n = false → Gives (.thermalWarn n true) s
        (raiseTrap (bump { s.dev with power := { p with hot := insNat n p.hot, stTemp := p.stTemp ||| 0x40 } } ctrThermWarn 0)
          (if n < 32 then { cause := 0xF2, kind := 5, unit := n } else { cause := 0xF2 }))) ∧
      (p.hot.contains n = true → Gives (.thermalWarn n true) s s.dev) ∧
      Gives (.thermalWarn n false) s { s.dev with power := { p with hot := delNat n p.hot } }) ∧
    (∀ n b, 32 ≤ n → n < 64 → exec (.thermalWarn n b) s = .fault .noSuchUnit) ∧
    (p.inputExc = false → Gives (.inputWarn true) s
      (raiseTrap (bump { s.dev with power := { p with inputExc := true } } ctrInputWarn 0) { cause := 0xF3 })) ∧
    (p.inputExc = true → Gives (.inputWarn true) s s.dev) ∧
    Gives (.inputWarn false) s { s.dev with power := { p with inputExc := false } }

/-- R728, R727, Table 22-8: a lost reference moves the PLLs of a started module to holdover with one trap; a domain that leaves
lock stops, once, with the effect Table 22-8 gives it: a face die's ports, a combine die, the module's part in its jobs, a reset, an
Ivpin processor, the management network, or the writes to flash. -/
def Obligations.ClockLossesHaveTheirEffects : Prop :=
  ∀ s : State, s.dev.power.down = none → (s.dev.power.input = .ok ∨ s.dev.power.input = .high) →
    let c := s.dev.clocks
    (c.refOk = true → s.dev.start.phase ≠ .power → Gives .refClockLoss s
      (raiseTrap (bump { s.dev with clocks := { c with refOk := false, holdover := true, slewing := false, holdAt := if c.holdover then c.holdAt else s.dev.nowUs } }
        ctrRefLoss 0) { cause := 0xF0 })) ∧
    (c.refOk = false → Gives .refClockLoss s s.dev) ∧
    (∀ n, n < 40 → c.locked = true → c.lost.contains n = false →
      let e := raiseTrap (bump { s.dev with clocks := { c with lost := insNat n c.lost } } ctrLockLoss n)
        { cause := 0xF1, kind := 6, unit := n }
      Gives (.pllLockLoss n) s (settleLinks s.dev (poolsSettle (flushAll
        (if n < 18 then loseFace e n else if n < 27 then retireDie e (n - 18) else if n < 35 then withdrawSelf e
         else if n = 35 then resetModule e else if n < 38 then cpuFails e (n - 36)
         else if n = 38 then { e with mgmt := { e.mgmt with linkUp := [], inUse := [] } } else e))))) ∧
    (∀ n, 40 ≤ n → exec (.pllLockLoss n) s = .fault .noSuchUnit)

/-- R692, R694, R696, R700, R728: the first phases. ROM follows POWER when the reference is there and chooses the processor that passes, 0
before 1; without a reference start-up fails with cause 2. A reset begins at ROM with the same choice. R695, R698, R700, R716, Table 21-3:
RESTORE reads and resolves the records, arms the heartbeat watch and puts the stored settings in force, or fails without its identity
(cause 3); PATCH runs a stored patch that is well formed and signed. -/
def Obligations.FirstPhasesChooseAndRestore : Prop :=
  (∀ (s : State) (ok0 ok1 : Bool) (rows : List (Nat × Nat)), (∀ r ∈ rows, r.1 < 2048 ∧ r.2 < 1024) → s.dev.power.down = none → (s.dev.power.input = .ok ∨ s.dev.power.input = .high) →
     let chosen := if ok0 then 0 else if ok1 then 1 else 0xFF
     (s.dev.start.phase = .power → s.dev.clocks.refOk = true → ∃ t, Gives (.phaseRom (ok0, ok1) rows) s t ∧ t.start.phase = .rom ∧
       t.start.cpu = chosen ∧ t.start.phaseAt = s.dev.nowUs ∧ t.start.origin = s.dev.start.origin ∧ t.jobs = s.dev.jobs) ∧
     (s.dev.start.phase = .power → s.dev.clocks.refOk = false → ∃ t, Gives (.phaseRom (ok0, ok1) rows) s t ∧ t.start.phase = .failed ∧
       t.start.failPhase = 0 ∧ t.start.failCause = 2) ∧
     (s.dev.start.phase = .rom → s.dev.start.cpu = 0xFF → s.dev.start.cpuLost = [] → ∃ t, Gives (.phaseRom (ok0, ok1) rows) s t ∧
       t.start.phase = .rom ∧ t.start.cpu = chosen)) ∧
  (∀ s : State, s.dev.power.down = none → (s.dev.power.input = .ok ∨ s.dev.power.input = .high) →
     (∀ badA badB, s.dev.start.phase = .rom → s.dev.start.cpu ≠ 0xFF →
       (s.dev.flash.a.facBad = [] → ∃ t, Gives (.phaseRestore badA badB []) s t ∧ t.start.phase = .restore ∧ t.start.phaseAt = s.dev.nowUs ∧
         t.power.hbArmed = true ∧ t.power.hbAt = s.dev.nowUs ∧ t.fabric.cfgRun = t.fabric.cfg ∧ t.fabric.mapRun = t.fabric.map ∧
         t.fabric.planRun = t.fabric.plan ∧ t.mgmt.addrRun = t.mgmt.addr ∧ t.parity.out = true ∧ t.jobs = s.dev.jobs) ∧
       (∃ t, Gives (.phaseRestore badA badB [(0, 1), (1, 1)]) s t ∧ t.start.phase = .failed ∧ t.start.failCause = 3)) ∧
     (s.dev.start.phase = .restore →
       (flashRead s.dev 0x18 = none → ∃ t, Gives .phasePatch s t ∧ t.start.phase = .patch ∧ t.start.patchVer = s.dev.start.patchVer) ∧
       (∀ r, flashRead s.dev 0x18 = some r →
         let img := denseWords r.body (r.len / 8)
         (patchBad s.dev img = false → Config.patchSigned img = true →
           ∃ t, Gives .phasePatch s t ∧ t.start.phase = .patch ∧ t.start.patchVer = field (wordAt img 0) 31 0) ∧
         ((patchBad s.dev img = true ∨ Config.patchSigned img = false) →
           ∃ e, e.start.phase = .patch ∧ e.start.patchVer = s.dev.start.patchVer ∧ Gives .phasePatch s (raiseTrap e { cause := 0xE1 })))))

/-- R695: a retained record is resolved to the newest valid copy, which has the highest SEQ in either log; the log without it, or with an
older one, gets it, and its other records stay; SOURCE says which log it was taken from (0 both, 1 log A, 2 log B), and MIRROR_REPAIR
counts a log that got it. Where neither log has a valid copy both stay, SOURCE is 4, or 5 for a record never written (the model's
reading, log 60), and a trap names the record. Other tables stay as they are. (A log with less than 32 erased sectors moves its newest
copies forward as it is written, log 27.) -/
def Obligations.RecordsResolveToTheNewerCopy : Prop :=
  ∀ (d : Dev) (rid : Nat),
    let t := resolve d rid
    let a := d.flash.a
    let b := d.flash.b
    let src := fun n => SMap.get? t.flash.source rid = some n
    let gets := fun (v w : FlashDev) (x : RecCopy) =>
      w = ((v.place x).eraseAhead 64).1 ∧ getCtr t ctrMirrorRepair 0 = getCtr d ctrMirrorRepair 0 + 1 ∧
      (v.pos + x.size + 32 * sectorBytes ≤ v.free →
        w.newest rid = some { x with at_ := v.pos } ∧ ∀ r, r ≠ rid → w.newest r = v.newest r)
    (∀ x y, a.newest rid = some x → b.newest rid = some y → x.seq = y.seq → t.flash.a = a ∧ t.flash.b = b ∧ src 0) ∧
    (∀ x, a.newest rid = some x → (∀ y, b.newest rid = some y → y.seq < x.seq) → t.flash.a = a ∧ gets b t.flash.b x ∧ src 1) ∧
    (∀ y, b.newest rid = some y → (∀ x, a.newest rid = some x → x.seq < y.seq) → t.flash.b = b ∧ gets a t.flash.a y ∧ src 2) ∧
    (a.newest rid = none → b.newest rid = none → t.flash.a = a ∧ t.flash.b = b ∧
      src (if a.highest rid = 0 ∧ b.highest rid = 0 then 5 else 4) ∧
      ∃ e, t = raiseTrap e { cause := 0xE0, details := [BitVec.ofNat 64 rid] }) ∧
    t.jobs = d.jobs ∧ t.power = d.power ∧ t.start = d.start

/-- R699, R701 to R704, Table 21-3: DIES locks the clocks, takes lane groups and units that fail out of service and ends in FAILED
where the module has lost what it cannot serve without; MEMORY tests and zeroes the channels; LINKS trains the ports with a role;
SERVE closes pool 60, reports a latched shutdown and classifies; BYPASS follows after 100 ms, READY when every pair has ended. -/
def Obligations.LaterPhasesDoTheirWork : Prop :=
  ∀ s : State, s.dev.power.down = none → (s.dev.power.input = .ok ∨ s.dev.power.input = .high) →
    let enter := fun (d : Dev) p => { d with start := { d.start with phase := p, phaseAt := d.nowUs, phaseMs := timeUs d / 1000 } }
    (∀ fails links, fails.all triggerOk = true → (∀ l ∈ links, l < 301) → s.dev.start.phase = .patch →
      let a := enter s.dev .dies
      let e := forEach fails (forEach links { a with clocks := { a.clocks with locked := true } } groupOut) repair
      Gives (.phaseDies fails links) s (if moduleLost e then enterFailed e 5 else e)) ∧
    (∀ fails, fails.all triggerOk = true → s.dev.start.phase = .dies →
      let e := forEach fails (zeroFill (enter s.dev .memory)) fun d t => zeroFill (repair d t)
      Gives (.phaseMemory fails) s (if moduleLost e then enterFailed e 5 else e)) ∧
    (s.dev.start.phase = .memory →
      let roles := recBody s.dev 0x12
      let e := forEach ((List.range 288).filter fun p => roleIn roles p != 0) (enter s.dev .links) fun d p =>
        let x := setPort d p { getPort d p with role := roleIn roles p }
        if portLost x p then x else enterTrain x p
      let f := { e with fabric := { e.fabric with cfgOk := ownCfgOk e } }
      Gives .phaseLinks s (if ownCfgOk e then f else raiseTrap f { cause := 0x92 })) ∧
    (s.dev.start.phase = .links → linksDone s.dev = true →
      let e := closePool (enter s.dev .serve) 60
      let r := raiseTrap e { cause := 0xF4, details := [BitVec.ofNat 64 e.power.latch] }
      Gives .phaseServe s (settleLinks s.dev (cableCheck
        (if e.power.latch = 0 then e else { r with power := { r.power with latch := 0 } })))) ∧
    (s.dev.start.phase = .serve → s.dev.start.phaseAt + 100000 ≤ s.dev.nowUs → Gives .phaseBypass s (enter s.dev .bypass)) ∧
    (s.dev.start.phase = .bypass → (∀ q, q < 16 → pairEnded s.dev q = true) →
      Gives .phaseReady s (claimGroup (enter s.dev .ready) true))

/-- R700, R710, R726, R58, R603: a phase past its limit ends start-up with cause 1; a power-on hour is counted and written to the LIFE
record; held writes trap once after 1 s; the loss of the active processor passes its work to the standby, and the takeover's end lets
commands be answered again. R58, R603: when the active processor is lost and the standby works, the standby is active from now on, a
takeover is in progress, and no command in execution is answered until it is sent again. Jobs and ports stay as they are. -/
def Obligations.ProcessorsFailAndTakeOver : Prop :=
  (∀ s : State,
     (s.dev.power.down = none → (s.dev.power.input = .ok ∨ s.dev.power.input = .high) →
       (∀ ms, phaseLimitMs s.dev.start.phase = some ms → haltedInRom s.dev = false → s.dev.start.phaseAt + 1000 * ms < s.dev.nowUs →
         ∃ t, Gives .phaseLimit s t ∧ t.start.phase = .failed ∧ t.start.failPhase = phaseCode s.dev.start.phase ∧ t.start.failCause = 1) ∧
       (∀ fail later, (∀ e ∈ fail :: later, e.1 ≤ 3 ∧ e.2 ≤ 3) → pastRom s.dev = true → s.dev.flash.lifeAt + 3600000000 ≤ s.dev.nowUs →
         let e := { s.dev with flash := { s.dev.flash with lifeAt := s.dev.flash.lifeAt + 3600000000, fails := fail :: later } }
         Gives (.lifeWrite fail later) s (writeLife (bump e ctrPowerOnHours 0))) ∧
       (∀ i ∈ [Instr.watchdogExpiry, .processorFault],
         (s.dev.start.cpu ≠ 0xFF → Gives i s (cpuFails s.dev s.dev.start.cpu)) ∧ (s.dev.start.cpu = 0xFF → Gives i s s.dev))) ∧
     (∀ at_, s.dev.flash.waitAt = some at_ → s.dev.flash.waitTrap = false → s.dev.flash.waits ≠ [] → at_ + 1000000 ≤ s.dev.nowUs →
       Gives .flashWaitTimeout s
         (raiseTrap { s.dev with flash := { s.dev.flash with waitTrap := true } } { cause := 0xE3 })) ∧
     Gives .takeoverComplete s { s.dev with start := { s.dev.start with takeover := none } }) ∧
  (∀ (d : Dev), d.start.cpu < 2 → d.start.cpuLost.contains (1 - d.start.cpu) = false →
     let t := cpuFails d d.start.cpu
     t.start.cpu = 1 - d.start.cpu ∧ t.start.takeover = some d.nowUs ∧ t.start.cpuLost = insNat d.start.cpu d.start.cpuLost ∧
     (∀ w ∈ t.mgmt.waiting, w.muted = true) ∧ t.jobs = d.jobs ∧ t.ports = d.ports)

/-! ## Lomile Tensor Link -/

/-- R518 to R522, Tables 15-1 and 21-3: training. A port in DOWN with a role trains again, 1 s after a failure; FEC lock takes TRAIN to
INIT with fresh sequence and credit state, CREDIT_INIT and BEACON waiting to be sent, DOWN_NOTICE first on a pair released in the last
2 s; an exchange of both in each direction takes INIT
to UP; TRAIN and INIT end by their limits with the cause; a lost lock takes UP to RETRAIN, which keeps what the port holds, back to UP
on lock, and to DOWN after 100 ms. A port that does not exist is none. (Which cause a TRAIN limit has is the model's reading, log 46.) -/
def Obligations.LinkStatesFollowTraining : Prop :=
  ∀ (s : State) (p : Nat), p < 288 →
    let d := s.dev
    let x := getPort d p
    (x.st = .down → x.role ≠ 0 → linksOn d = true → portLost d p = false → (x.failed = false ∨ x.since + 1000000 ≤ d.nowUs) →
      Gives (.downRetry p) s (setPort d p { x with st := .train, since := d.nowUs, laneLock := 0 })) ∧
    (∀ st ws, x.st = .train →
      let kept := st && (flashRead d 0x11).isSome && !x.eqFull
      let q := d.fabric.pairs.getD ((p - 256) % 16) {}
      let e := if kept then d else eqWriteBack d p ws
      let y := { enterInit (getPort e p) d.nowUs with eqStored := kept, eqFull := false }
      Gives (.trainLock p st ws) s (setPort e p (if 256 ≤ p ∧ q.st = .releasing ∧ d.nowUs ≤ q.startAt + 2000000 then
        { y with ctl := [.downNotice, .creditInit, .beacon] } else y))) ∧
    (∀ lock, x.st = .train → x.since + 200000 ≤ d.nowUs →
      Gives (.trainTimeout p lock) s (trainFail d p (if lock then 1 else 3))) ∧
    (x.st = .init → x.credSent = true → x.credRcvd = true → x.beacSent = true → x.beacRcvd = true → x.credLow = false →
      Gives (.initComplete p) s (settleLinks d (enterUp (setPort d p { x with snapAt := d.nowUs, beacAt := d.nowUs }) p))) ∧
    (x.st = .init → x.since + 1000 ≤ d.nowUs →
      Gives (.initTimeout p) s (settleLinks d (trainFail d p (if x.credLow then 2 else 3)))) ∧
    (∀ lanes, x.st = .up →
      let e := bump (leftUp (stallTick d p) p) ctrRetrains p
      Gives (.lossOfLock p lanes) s (settleLinks d
        (setPort e p { getPort e p with st := .retrain, since := d.nowUs, resends := 0, laneLock := lanes % 256 }))) ∧
    (x.st = .retrain → Gives (.retrainLock p) s (settleLinks d (enterUp d p))) ∧
    (x.st = .retrain → x.since + 100000 ≤ d.nowUs → Gives (.retrainTimeout p) s (settleLinks d (portDown d p (some 5)))) ∧
    (∀ q, 288 ≤ q → ∀ i ∈ [Instr.downRetry q, .initComplete q, .initTimeout q, .retrainLock q, .retrainTimeout q],
      exec i s = .fault .noSuchUnit)

/-- R523 to R526, R528, R532, R574, Tables 15-4 and 15-5: a flit that arrives on a port out of DOWN has its FEC counts added, the lost
codewords with their time (Table 19-3); one whose
CRC fails is counted in CRC_ERR and has no other effect, and one that passes on a link in INIT or UP gives its acknowledgment and its
credit count, then its kind's effect: none, a resend, the partner's credits, its freed counts, its beacon, or DOWN. R527, R528, R533,
R542: a data flit whose CRC passes and whose SEQ is the expected one is accepted: its SEQ advances, its VC's stream takes the payload
(without a credit nothing of it, and CREDIT_VIOL counts with a trap), each whole packet waits for the policer of its face die, which takes what
it may, and lost framing counts. Any other data flit asks once for the expected SEQ with a NAK. On a link that exchanges no flits nothing more happens. -/
def Obligations.FlitsAreReceived : Prop :=
  (∀ (s : State) (p : Nat) (f : FlitRx), p < 288 → (getPort s.dev p).st ≠ .down →
     let d := s.dev
     let a := if f.fecCorr = 0 then d else bumpBy d ctrFecCorr p f.fecCorr
     let e := if f.fecUnc = 0 then a else updPort (bumpBy a ctrFecUncorr p f.fecUnc) p fun x =>
       { x with fecLost := (d.nowUs, f.fecUnc) :: x.fecLost.filter fun e => decide (d.nowUs < e.1 + 3600000000) }
     let h := takeHeader e p f.hdr
     (flitCrc f.hdr f.payload ≠ f.crc →
       ∀ i ∈ [Instr.idleFlit p f, .nak p f, .creditInit p f, .creditSnap p f, .beacon p f false, .downNotice p f],
         Gives i s (settleLinks d (bump e ctrCrcErr p))) ∧
     (flitCrc f.hdr f.payload = f.crc →
       (field f.hdr 63 62 = 1 → field (flitWord f 0) 63 56 = 5 → Gives (.downNotice p f) s (settleLinks d (portDown h p (some 4)))) ∧
       (flitsOn d p = true →
         (field f.hdr 63 62 = 2 → Gives (.idleFlit p f) s (settleLinks d h)) ∧
         (field f.hdr 63 62 = 1 →
           (field (flitWord f 0) 63 56 = 1 → Gives (.nak p f) s (settleLinks d (beginResend h p (field (flitWord f 0) 15 0)))) ∧
           (field (flitWord f 0) 63 56 = 2 → (getPort h p).st = .init → Gives (.creditInit p f) s (settleLinks d (updPort h p fun x =>
             { (List.range 8).foldl (fun y v => setTxVc y v { txVc y v with adv := creditOf f v }) x with
               credRcvd := true
               credLow := x.role == 1 && (List.range 8).any fun v => decide (creditOf f v < minCredits h p v) }))) ∧
           (field (flitWord f 0) 63 56 = 3 → Gives (.creditSnap p f) s (settleLinks d
             (stallTick (updPort h p fun x => (List.range 8).foldl (fun y v => setTxVc y v { txVc y v with freed := creditOf f v }) x) p))) ∧
           (field (flitWord f 0) 63 56 = 4 → Gives (.beacon p f false) s (settleLinks d (portSees h p (beaconOf f))))))) ∧
     (256 ≤ p → field f.hdr 63 62 = 1 → field (flitWord f 0) 63 56 = 4 → linksOn d = true → flitCrc f.hdr f.payload = f.crc →
       Gives (.beacon p f true) s (settleLinks d (monitorSees d p (beaconOf f))))) ∧
  (∀ (s : State) (p : Nat) (f : FlitRx), p < 288 → (getPort s.dev p).st ≠ .down →
     (flitCrc f.hdr f.payload = f.crc → field f.hdr 63 62 = 0) →
     let d := s.dev
     let e := (flitArrives d p f).1
     (flitsOn d p = false → Gives (.dataFlit p f) s (settleLinks d e)) ∧
     (flitsOn d p = true → flitCrc f.hdr f.payload = f.crc → field f.hdr 15 0 = (getPort d p).rxSeq →
       let h := takeHeader e p f.hdr
       let x := getPort h p
       let v := field f.hdr 61 59
       let r := rxVc x v
       let ok := decide (0 < (r.adv + r.freed + (65536 - r.got % 65536)) % 65536)
       let env := if hasEnvelope x.role v then 2 else 0
       let t := takePayload env r ok (field f.hdr 58 53) f.payload
       let a := bump (setPort h p { setRxVc x v t.1 with rxSeq := (x.rxSeq + 1) % 65536, nakAt := none }) ctrFlitsRx p
       let b := updPort (packetsArrive p v r.got t.2.2 (if ok then a else protocolTrap (bump a ctrCreditViol p) p) t.2.1.packets) p settleFreed
       Gives (.dataFlit p f) s (settleLinks d (policeDie
         (if t.2.1.framing then malformed (bump b ctrFramingErr p) p v 6 (unitWords (t.2.1.rest.drop env)) else b) (p / 16)))) ∧
     (flitsOn d p = true → (flitCrc f.hdr f.payload ≠ f.crc ∨ field f.hdr 15 0 ≠ (getPort d p).rxSeq) →
       ((getPort d p).nakAt = none → Gives (.dataFlit p f) s (settleLinks d
         (bump (updPort e p fun x => { x with ctl := x.ctl ++ [.nak x.rxSeq], nakAt := some d.nowUs }) ctrNakTx p))) ∧
       (∀ t, (getPort d p).nakAt = some t → Gives (.dataFlit p f) s (settleLinks d e))))

/-- R525, R526, R528, R529, R537, R575: the transmitter and its timers. NAKs repeat each microsecond, 20 µs without progress resend the
oldest flit, CREDIT_SNAP goes each 10 µs and BEACON each 100 ms; a planned port without a beacon for 2 s is classified again; the
transmitter sends a control flit before data, data before an idle flit, and only control and idle flits outside UP, nothing in DOWN. In UP
records held for the port's credits go on; in every state the policer of the port's die looks again at what it holds. -/
def Obligations.LinkTimersAndTransmission : Prop :=
  ∀ (s : State) (p : Nat), p < 288 →
    let d := s.dev
    let x := getPort d p
    (∀ t, x.nakAt = some t → flitsOn d p = true → t + 1 ≤ d.nowUs → Gives (.nakRepeat p) s
      (bump (setPort d p { x with ctl := x.ctl ++ [.nak x.rxSeq], nakAt := some d.nowUs }) ctrNakTx p)) ∧
    (∀ o r, x.replay = o :: r → x.st = .up → x.ackAt + 20 ≤ d.nowUs →
      Gives (.replayTimer p) s (settleLinks d (beginResend d p o.seq))) ∧
    (x.st = .up →
      (x.snapAt + 10 ≤ d.nowUs → Gives (.creditSnapTimer p) s
        (setPort d p { x with ctl := x.ctl ++ [.creditSnap], snapAt := d.nowUs })) ∧
      (x.beacAt + 100000 ≤ d.nowUs → Gives (.beaconTimer p) s
        (setPort d p { x with ctl := x.ctl ++ [.beacon], beacAt := d.nowUs })) ∧
      let a := policeDie (stallTick (wakeRecords d p) p) (p / 16)
      (∀ c r, x.ctl = c :: r → Gives (.flitArbitration p) s (putCtl a p c)) ∧
      (x.ctl = [] → Gives (.flitArbitration p) s ((putData a p).getD (putIdle a p)))) ∧
    (∀ c r, x.st = .init → x.ctl = c :: r → Gives (.flitArbitration p) s (putCtl (policeDie d (p / 16)) p c)) ∧
    (x.st = .init → x.ctl = [] → Gives (.flitArbitration p) s (putIdle (policeDie d (p / 16)) p)) ∧
    (x.st = .train → Gives (.flitArbitration p) s (putIdle (policeDie d (p / 16)) p)) ∧
    (x.st = .retrain → Gives (.flitArbitration p) s (putIdle (policeDie (stallTick d p) (p / 16)) p)) ∧
    (x.st = .down → Gives (.flitArbitration p) s (policeDie d (p / 16))) ∧
    (p < 256 → classifying d = true → (planOf d p).kind ≠ 0 → beaconGone d p = true →
      Gives (.beaconMissing p) s (settleLinks d (checkPort d p)))

/-! ## Commands -/

/-- Chapter 12: a command that passes checks 1 to 11 of Table 12-5 goes on to its opcode's own checks with the device unchanged
but for what is aside (its buffer, its session, its place among the waiting commands, counters), under the opcode and job of its
packet, and, where the opcode's length is fixed, with the words after the header as its body. R394: a command of a management port passes
only where the port listens on the address it names. -/
def Obligations.SharedChecksChangeOnlyWhatIsAside : Prop :=
  ∀ (s : State) p d c, frontEnd s.dev p = .run d c →
    Aside p.src s.dev d ∧ c.op = cmdOpcode p ∧ c.job = cmdJob p ∧ answersCmds s.dev = true ∧ transportOk p = true ∧
    (∀ port addr udp, p.src = .mgmt port addr udp → listensOn s.dev port addr = true) ∧
    (∀ r n, opRow (cmdOpcode p) = some r → r.body = .fixed n → c.body = p.words.drop 4)

/-- R396, R399: a final reply changes only what is aside; with a body of at most eight words, outside a takeover, it is the last
thing sent, under the command's SESSION, SEQ and TAG, and the command no longer waits. -/
def Obligations.FinalReplyIsSentAndEndsTheCommand : Prop :=
  ∀ (d : Dev) (w : Waiting) (r : Reply),
    Aside w.src d (finalReply d w r) ∧
    (w.muted = false → d.start.takeover = none → r.body.length ≤ 8 →
      ∃ e, finalReply d w r = sendOuvrov e w.src w.hjob (replyWords 2 w.opcode w.hjob w.session w.seq w.tag r)) ∧
    (∀ v ∈ (finalReply d w r).mgmt.waiting, v ∈ d.mgmt.waiting ∧
      ¬(v.inband = w.inband ∧ v.job = w.job ∧ v.who = w.who ∧ v.session = w.session ∧ v.seq = w.seq))

/-- R428, R442, R460, R455, R472, R475: MODULE_INFO, JOB_READ, CTX_READ, SCHED_READ, SNAP_READ and PARITY_READ answer the words of their
reply tables and change nothing else. R432, R433, R463, R481, R482, R426: REG_READ and JOB_REG_READ answer the words at their addresses,
GRAPH_READ, CABLE_REPORT and SPARE_READ a page of their result; none changes anything else. -/
def Obligations.ReadCommandsAnswerAndChangeNothing : Prop :=
  (∀ p s d c,
     let w := wordAt c.body 0
     (Ran 0x0001 p s d c → Replies (.moduleInfo p) p s s.dev (okReply
       [s.dev.fac.serial, mkWord [(0xA1, 8), (0x01, 0)], mkWord [(s.dev.fac.romVer.toNat, 32), (s.dev.start.patchVer % 2 ^ 32, 0)],
         mkWord [(phaseCode s.dev.start.phase, 0)], 0, 0, 0, 0])) ∧
     (∀ jb, Ran 0x0014 p s d c → getJob s.dev c.job = some jb → Replies (.jobRead p) p s s.dev (okReply
       [jb.commit, mkWord [(sealCode jb.sealSt.state, 56), (jb.attempt, 48), (stepShown jb, 0)],
         mkWord [(jb.q, 48), (jb.ordinal, 32), (coordinator jb, 0)], 0])) ∧
     (∀ jb, Ran 0x0053 p s d c → getJob s.dev c.job = some jb → Replies (.snapRead p) p s s.dev (okReply
       [mkWord [(bit jb.snap.last.isSome, 63), (jb.snap.last.getD 0 % 2 ^ 48, 0)],
         mkWord [(bit jb.snap.active, 63), (jb.snapInt, 0)], BitVec.ofNat 64 (snapWritten jb), 0])) ∧
     (Ran 0x005A p s d c → Replies (.parityRead p) p s s.dev (okReply (parityReadWords s.dev))) ∧
     (Ran 0x0032 p s d c → rsvdSet w [(63, 14)] = false →
       ((getCtx s.dev (field w 13 0)).holder = none ∨ (getCtx s.dev (field w 13 0)).holder = some c.job) →
       Replies (.ctxRead p) p s s.dev (okReply (ctxReadWords (getCtx s.dev (field w 13 0))))) ∧
     (∀ e, Ran 0x0028 p s d c → rsvdSet w [(63, 12)] = false → rsvdSet (wordAt c.body 1) [(63, 48)] = false →
       SMap.get? s.dev.scheds (field w 11 0) = some e → e.job = c.job →
       let v := schedule e.words (field (wordAt c.body 1) 47 0)
       Replies (.schedRead p) p s s.dev (okReply [v.lr, v.k1, v.k2, v.k3]))) ∧
  (∀ p s d c,
     let w := wordAt c.body 0
     let at_ := (List.range (field w 47 32)).map fun i => field w 31 0 + 8 * i
     (Ran 0x0005 p s d c → rsvdSet w [(63, 48)] = false → 1 ≤ field w 47 32 → field w 47 32 ≤ 176 → field w 2 0 = 0 →
       (∀ a ∈ at_, regMapped a = true) → (∀ a ∈ at_, a ≠ 0x208) →
       Gives (.regRead p) s (finalReply d c.w (okReply (at_.map (regWordFor d (readerMask c.sender) 0))))) ∧
     (Ran 0x0005 p s d c → rsvdSet w [(63, 48)] = false → 1 ≤ field w 47 32 → field w 47 32 ≤ 176 → field w 2 0 = 0 →
       (∀ a ∈ at_, regMapped a = true) → 0x208 ∈ at_ →
       Gives (.regRead p) s (finalReply { d with freeCtr := d.freeCtr + 1 } c.w
         (okReply (at_.map (regWordFor d (readerMask c.sender) (Config.freeWord d.freeCtr)))))) ∧
     (Ran 0x0007 p s d c → rsvdSet w [(63, 48)] = false → 1 ≤ field w 47 32 → field w 47 32 ≤ 176 → field w 2 0 = 0 →
       (∀ a ∈ at_, (jobWindowWord d c.job a).isSome = true) →
       Gives (.jobRegRead p) s (finalReply d c.w (okReply (at_.map fun a => (jobWindowWord d c.job a).getD 0)))) ∧
     (∀ jb gr, Ran 0x003B p s d c → getJob d c.job = some jb → SMap.get? jb.graphs (field w 39 32) = some gr →
       rsvdSet w [(63, 40)] = false → field w 2 0 = 0 →
       Gives (.graphRead p) s (finalReply d c.w (okReply (pagedWords (gr.nodes.map fun e => nodeByte e.2) (field w 31 0))))) ∧
     (Ran 0x006A p s d c → rsvdSet w [(63, 32)] = false → field w 2 0 = 0 →
       Gives (.cableReport p) s (finalReply d c.w
         (okReply (pagedWords (wordsBytes ((List.range 288).flatMap (cableRecord d))) (field w 31 0))))) ∧
     (Ran 0x0070 p s d c → rsvdSet w [(63, 32)] = false → field w 2 0 = 0 →
       Gives (.spareRead p) s (finalReply d c.w (okReply (pagedWords (wordsBytes (spareWords d)) (field w 31 0))))))

/-- R411, R429, R434: AUTH_SET writes a principal's entry and its record, or waits with the table as it is while the record waits for the
flash interface; TELEM_SET writes a sink. PERIOD_US 0 turns a sink off. R430, R697, R431,
R480, R687: PATCH_LOAD, PORT_CONFIG and CABLE_PLAN_LOAD store their records; a port takes its new role at once, a plan at the next check. -/
def Obligations.SettingsAreWritten : Prop :=
  (∀ p s d c,
     let b := c.body
     let i := field (wordAt b 0) 5 0
     let addr := BitVec.ofNat 128 ((wordAt b 1).toNat + 2 ^ 64 * (wordAt b 2).toNat)
     let x := wordAt b 2
     let per := field x 31 0
     let k : Sink := { addr := BitVec.ofNat 128 ((wordAt b 0).toNat + 2 ^ 64 * (wordAt b 1).toNat), udp := field x 63 48,
                       mport := field x 34 34, period := per, mask := (wordAt b 3).toNat, lastAt := s.dev.nowUs }
     (Ran 0x0002 p s d c → rsvdSet (wordAt b 0) [(63, 6)] = false → rsvdSet (wordAt b 3) [(61, 48), (31, 0)] = false →
       field (wordAt b 3) 63 62 ≠ 0 → (flashWrite s.dev 0x15 2048 (principalsBody s.dev i b)).flash.waits = [] →
       let e : Principal := { addr := addr, role := field (wordAt b 3) 63 62, udp := field (wordAt b 3) 47 32, mask := wordAt b 4 }
       ∃ t, Gives (.authSet p) s t ∧ t.mgmt.principals = SMap.set s.dev.mgmt.principals i e ∧
         t.flash = (flashWrite s.dev 0x15 2048 (principalsBody s.dev i b)).flash ∧ t.jobs = s.dev.jobs ∧ t.mgmt.sinks = s.dev.mgmt.sinks ∧
         Answers p t (plainReply stOk 0)) ∧
     (Ran 0x0002 p s d c → rsvdSet (wordAt b 0) [(63, 6)] = false → rsvdSet (wordAt b 3) [(61, 48), (31, 0)] = false →
       field (wordAt b 3) 63 62 = 0 → addr = 0 → field (wordAt b 3) 47 32 = 0 → wordAt b 4 = 0 →
       (flashWrite s.dev 0x15 2048 (principalsBody s.dev i b)).flash.waits = [] →
       ∃ t, Gives (.authSet p) s t ∧ t.mgmt.principals = SMap.del s.dev.mgmt.principals i ∧
         t.flash = (flashWrite s.dev 0x15 2048 (principalsBody s.dev i b)).flash ∧ t.jobs = s.dev.jobs ∧
         Answers p t (plainReply stOk 0)) ∧
     (Ran 0x0002 p s d c → rsvdSet (wordAt b 0) [(63, 6)] = false → rsvdSet (wordAt b 3) [(61, 48), (31, 0)] = false →
       (field (wordAt b 3) 63 62 ≠ 0 ∨ addr = 0 ∧ field (wordAt b 3) 47 32 = 0 ∧ wordAt b 4 = 0) →
       (flashWrite s.dev 0x15 2048 (principalsBody s.dev i b)).flash.waits ≠ [] →
       Gives (.authSet p) s (waitOn (flashWrite d 0x15 2048 (principalsBody d i b)) c 0)) ∧
     (Ran 0x0008 p s d c → rsvdSet x [(47, 35)] = false → 1000 ≤ per → per ≤ 10000000 → (wordAt b 3).toNat < 256 →
       Replies (.telemSet p) p s
         { s.dev with mgmt := { s.dev.mgmt with sinks := SMap.set s.dev.mgmt.sinks (field x 33 32) k } } (plainReply stOk 0)) ∧
     (Ran 0x0008 p s d c → rsvdSet x [(47, 35)] = false → per = 0 → (wordAt b 3).toNat < 256 →
       Replies (.telemSet p) p s
         { s.dev with mgmt := { s.dev.mgmt with sinks := SMap.del s.dev.mgmt.sinks (field x 33 32) } } (plainReply stOk 0))) ∧
  (∀ p s d c,
     let w := wordAt c.body 0
     (Ran 0x0003 p s d c → patchBad d c.body = false →
        (Config.patchSigned c.body = true → storedPatchVer d < field w 31 0 →
          Gives (.patchLoad p) s (finalReply (flashWrite d 0x18 (8 * c.body.length) (sparseWords 0 c.body)) c.w (plainReply stOk 0))) ∧
        (Config.patchSigned c.body = false → Gives (.patchLoad p) s (finalReply d c.w (plainReply stBadSig 2)))) ∧
     (Ran 0x0004 p s d c → rsvdSet w [(63, 11)] = false → field w 8 0 ≤ 287 → field w 10 9 ≠ 3 →
       ¬(256 ≤ field w 8 0 ∧ field w 10 9 = 1) → posState d (field w 8 0) ≠ 2 →
       ¬(field w 8 0 < 256 ∧ field w 10 9 ≠ 0 ∧ (getPort d (field w 8 0)).role = 0 ∧ 14 ≤ activePorts d (field w 8 0 / 16)) →
       (portAttached d (field w 8 0) = true → field w 10 9 = 1) →
       let e := setRole d (field w 8 0) (field w 10 9)
       Gives (.portConfig p) s (settleLinks s.dev (finalReply (flashWrite e 0x12 288 (rolesBody e)) c.w (plainReply stOk 0)))) ∧
     (Ran 0x0068 p s d c →
       let es := (List.range (field w 8 0)).map (planWords c.body)
       rsvdSet w [(63, 9)] = false → (∀ e ∈ es, rsvdSet e.1 [(63, 32), (15, 9)] = false) → c.body.length = 1 + 2 * field w 8 0 →
       1 ≤ field w 8 0 → field w 8 0 ≤ 288 → (∀ e ∈ es, planPort e ≤ 287 ∧ planBad e = false) → (es.map planPort).Nodup →
       let f := flashWrite d 0x13 (8 * c.body.length) (sparseWords 0 c.body)
       Gives (.cablePlanLoad p) s (finalReply
         { f with fabric := { f.fabric with plan := planMap es, pairs := f.fabric.pairs.map fun x => { x with reverted := false } } }
         c.w (plainReply stOk 0))))

/-- R433, R586, R706, R749, R743, Table 23-1: REG_WRITE, and the TRAP_CTL and CAPTURE_CLEAR writes, do what a write of the register
does: FABRIC_CFG, FABRIC_MAP and MGMT_ADDR are stored for the next start-up, before the reply, JOB_PAIRS is in force at once, TRAP_CTL
releases the records up to its value, and a capture record is rearmed. While a record waits for the flash interface the reply waits with it
(log 33). An address between words and the bypass control register are refused. -/
def Obligations.RegisterWritesDoWhatTheRegisterDoes : Prop :=
  ∀ p s d c,
    let w := wordAt c.body 0
    let a := field w 31 0
    let v := wordAt c.body 1
    Ran 0x0006 p s d c → rsvdSet w [(63, 32)] = false →
    let ok := fun i (e : Dev) => Gives i s (if e.flash.waits = [] then finalReply e c.w (plainReply stOk 0) else waitOn e c 0)
    (∀ i ∈ [Instr.regWrite p, .trapCtl p, .captureClear p],
      (a = 0x2600 → ok i (writeTrapCtl d (field v 31 0))) ∧
      (∀ q, q < 288 → a = 0x4000 + 64 * q → ok i (setPort d q { getPort d q with capture := none })) ∧
      (a = 0x300 → ok i (let e := { d with fabric := { d.fabric with cfg := cfgBits v } }
                         flashWrite e 0x14 4104 (fabricBody e))) ∧
      (∀ k, k < 512 → a = 0x1000 + 8 * k → ok i (let e := { d with fabric := { d.fabric with map := putSparse d.fabric.map k v } }
                                                 flashWrite e 0x14 4104 (fabricBody e))) ∧
      (∀ j, j < 64 → a = 0x2000 + 8 * j →
        ok i { d with fabric := { d.fabric with jobPairs := putSparse d.fabric.jobPairs j (BitVec.ofNat 64 (field v 15 0)) } }) ∧
      (∀ k, k < 12 → a = 0x2200 + 8 * k → ok i
        (let x := if k % 6 = 5 then BitVec.ofNat 64 (field v 15 0) else v
         let e := { d with mgmt := { d.mgmt with addr := putSparse d.mgmt.addr k x } }
         flashWrite e 0x16 96 e.mgmt.addr)) ∧
      ((a % 8 ≠ 0 ∨ a = 0x2380) → Gives i s (finalReply d c.w (plainReply stIllegal 2))))

/-- R437, R439, R440, R441: JOB_CREATE makes the job its payload describes, with commit step none, and its seal object; JOB_DESTROY ends
it; JOB_QUOTA and JOB_CONFIG write its settings, 0 leaving a field of JOB_CONFIG as it is; a field out of range is answered ST_ILLEGAL
(check 1), and the default hold is taken by a context opened without one. R438, Table 13-5: the job that JOB_CREATE makes has its ordinal,
serials and seed, seal state OPEN, its current step and attempt 0, no region, member or graph, and the quotas of creation; its seal object
is a sync object of the job. -/
def Obligations.JobsAreMadeAndEnded : Prop :=
  (∀ p s d c,
     let b := c.body
     let w := wordAt b 0
     (∀ n, Ran 0x0010 p s d c →
       let q := field w 57 48
       let serials := (b.drop 4).take q
       rsvdSet w [(63, 58), (47, 41), (31, 14), (3, 1)] = false → rsvdSet (wordAt b 1) [(63, 48)] = false →
       rsvdSet (wordAt b 2) [(63, 8)] = false → 1 ≤ q → q ≤ 512 → field w 40 32 < q → field w 7 4 ≤ 8 → b.length = 4 + q →
       ofmtHaulOk (BitVec.ofNat 8 (field (wordAt b 2) 7 0)) = true → serials.contains 0 = false → hasRepeat serials = false →
       serials.getD (field w 40 32) 0 = d.fac.serial → getJob d (field w 13 8) = none → SMap.firstFree d.syncs 0 8192 = some n →
       Gives (.jobCreate p) s (finalReply (createJob d (field w 13 8) (newJob d b) n) c.w (plainReply stOk 0))) ∧
     (∀ jb, Ran 0x0011 p s d c → getJob d (field w 5 0) = some jb → rsvdSet w [(63, 6)] = false → jb.sealSt.state = .opened →
       ctxsActive d (field w 5 0) = false → transfersActive jb = false → recording jb = false → replaying jb = false →
       Gives (.jobDestroy p) s (finalReply (destroyJob d (field w 5 0) jb) c.w (plainReply stOk 0))) ∧
     (∀ jb, Ran 0x0012 p s d c → rsvdSet w [(13, 6)] = false → rsvdSet (wordAt b 1) [(63, 48)] = false →
       rsvdSet (wordAt b 2) [(63, 40)] = false → getJob s.dev (field w 5 0) = some jb → quotaBad (quotaBody b) = false →
       Replies (.jobQuota p) p s
         { s.dev with jobs := SMap.set s.dev.jobs (field w 5 0) { jb with quotas := quotaBody b }
                      ports := SMap.mapV (fun _ x => keepWeights jb.quotas.weights (quotaBody b).weights (field w 5 0) x) s.dev.ports }
         (plainReply stOk 0)) ∧
     (∀ jb, Ran 0x0013 p s d c → getJob s.dev c.job = some jb →
       (field w 63 32 = 0 ∨ 100 ≤ field w 63 32 ∧ field w 63 32 ≤ 1000000) →
       (field w 31 0 = 0 ∨ 500 ≤ field w 31 0 ∧ field w 31 0 ≤ 100000) →
       let new_ : Job := { jb with hold := if field w 63 32 = 0 then jb.hold else field w 63 32,
                                   haulDrop := if field w 31 0 = 0 then jb.haulDrop else field w 31 0 }
       Replies (.jobConfig p) p s { s.dev with jobs := SMap.set s.dev.jobs c.job new_ } (plainReply stOk 0)) ∧
     (∀ jb, Ran 0x0013 p s d c → getJob s.dev c.job = some jb →
       (field w 63 32 ≠ 0 ∧ (field w 63 32 < 100 ∨ 1000000 < field w 63 32) ∨
         field w 31 0 ≠ 0 ∧ (field w 31 0 < 500 ∨ 100000 < field w 31 0)) →
       Replies (.jobConfig p) p s s.dev (plainReply stIllegal 1)) ∧
     (∀ h body, (openParams h body).holdUs = if field (wordAt body 2) 51 32 = 0 then h else field (wordAt body 2) 51 32)) ∧
  (∀ (d : Dev) (j n : Nat) (b : List W64),
     let w := wordAt b 0
     ∃ jb, getJob (createJob d j (newJob d b) n) j = some jb ∧
       jb.q = field w 57 48 ∧ jb.ordinal = field w 40 32 ∧ jb.serials = (b.drop 4).take (field w 57 48) ∧ jb.seed = wordAt b 3 ∧
       jb.stepCur = field (wordAt b 1) 47 0 ∧ jb.attempt = 0 ∧ jb.sealSt.state = .opened ∧ jb.regions = [] ∧ jb.members = [] ∧
       jb.graphs = [] ∧ jb.quotas = createQuotas ∧
       SMap.get? (createJob d j (newJob d b) n).syncs n = some { job := j, kind := .seal_ } ∧
       (∀ k, k ≠ j → getJob (createJob d j (newJob d b) n) k = getJob d k))

/-- R443, R444: MEMBER_ATTACH adds the member with its ports, MEMBER_DETACH takes it out. -/
def Obligations.MembersAttachAndDetach : Prop :=
  ∀ p s d c jb,
    let w := wordAt c.body 0
    let m := field w 43 32
    let b := if field w 24 16 = 0x1FF then none else some (field w 24 16)
    getJob d c.job = some jb →
    (Ran 0x0015 p s d c → rsvdSet w [(63, 44), (31, 25), (15, 9)] = false → field w 8 0 ≤ 287 →
      (field w 24 16 ≤ 287 ∨ field w 24 16 = 0x1FF) → field w 8 0 ≠ field w 24 16 → (getPort d (field w 8 0)).role = 1 →
      (∀ x, b = some x → (getPort d x).role = 1) → SMap.has jb.members m = false → homesClash d (field w 8 0) b = false →
      let mb : Member := { portA := field w 8 0, portB := b, home := field w 8 0 }
      Gives (.memberAttach p) s (finalReply
        (noEarlierEnds (clearCtrs (setJob d c.job { jb with members := SMap.set jb.members m { mb with home := homeOf d mb } }) 3
          (memberIdx c.job m)) c.job m) c.w (plainReply stOk 0))) ∧
    (Ran 0x0016 p s d c → rsvdSet w [(63, 44), (31, 0)] = false → SMap.has jb.members m = true → memberSources d c.job m = false →
      Gives (.memberDetach p) s (finalReply (detach d c.job m) c.w (plainReply stOk 0)))

/-- R453, R454, R456: RULE_LOAD and SCHED_LOAD hold what they carry under their slot or entry, replacing what the job held there,
and OBJ_FREE returns an object; each changes one table. -/
def Obligations.RulesAndSchedulesAreHeldAndFreed : Prop :=
  ∀ p s d c jb,
    let w := wordAt c.body 0
    let k := field w 11 0
    let r := c.body.drop 1
    getJob s.dev c.job = some jb →
    (Ran 0x0026 p s d c → rsvdSet w [(63, 12)] = false → (∀ h, SMap.get? s.dev.rules k = some h → h.job = c.job) →
      ruleCheck r (entryOf s.dev c.job (rsEntry r)) = 0 → ruleInStep jb k = false → ruleChanges jb k r = false →
      (SMap.get? s.dev.rules k = none → (s.dev.rules.filter fun e => e.2.job == c.job).length < 256) →
      Replies (.ruleLoad p) p s { s.dev with rules := SMap.set s.dev.rules k { job := c.job, words := r } } (plainReply stOk 0)) ∧
    (Ran 0x0027 p s d c → rsvdSet w [(63, 12)] = false → (∀ h, SMap.get? s.dev.scheds k = some h → h.job = c.job) →
      schedCheck r = 0 → schedUsed s.dev c.job jb k = false →
      (SMap.get? s.dev.scheds k = none → (s.dev.scheds.filter fun e => e.2.job == c.job).length < 256) →
      Replies (.schedLoad p) p s { s.dev with scheds := SMap.set s.dev.scheds k { job := c.job, words := r } } (plainReply stOk 0)) ∧
    (∀ kind, kind = field w 63 56 → Ran 0x0029 p s d c → rsvdSet w [(55, 12)] = false → 1 ≤ kind → kind ≤ 3 → (kind = 1 → k ≤ 255) →
      objJob s.dev kind k = some c.job → objUsed s.dev c.job kind k = false →
      Replies (.objFree p) p s
        (if kind = 1 then { s.dev with maps := SMap.del s.dev.maps k }
         else if kind = 2 then { s.dev with rules := SMap.del s.dev.rules k }
         else { s.dev with scheds := SMap.del s.dev.scheds k }) (plainReply stOk 0))

/-- R129 to R132, R452: RANKMAP_LOAD holds the map of its payload under its slot, when the map has one entry for each rank, one
group for each ordinal, each member at most once among the sources of the module's own group, and the slot is not in use. -/
def Obligations.RankMapsAreHeld : Prop :=
  ∀ p s d c jb,
    let slot := field (wordAt c.body 0) 7 0
    let b := c.body.drop 1
    let m := bodyMap c.job b
    let own := (ownRanks jb m).flatMap rankSources
    getJob s.dev c.job = some jb → Ran 0x0025 p s d c → rsvdSet (wordAt c.body 0) [(63, 8)] = false →
    (∀ h, SMap.get? s.dev.maps slot = some h → h.job = c.job) → b.length = 1 + groupWords (mapGroups b) + mapRanks b →
    mapRsvd b = false → 1 ≤ mapRanks b → mapRanks b ≤ 4096 → mapGroups b = jb.q → m.nmemb.foldl (· + ·) 0 = mapRanks b →
    (∀ e ∈ m.ranks, e.bakEn = false → e.bak = 0 ∧ e.prefer = false) → (∀ e ∈ m.ranks, e.bakEn = true → e.pri ≠ e.bak) →
    (∀ x ∈ own, SMap.has jb.members x = true) → own.Nodup → mapUsed s.dev slot = false →
    (SMap.get? s.dev.maps slot = none → (s.dev.maps.filter fun e => e.2.job == c.job).length < 32) →
    Replies (.rankmapLoad p) p s { s.dev with maps := SMap.set s.dev.maps slot m } (plainReply stOk 0)

/-- R445, R446, R450, R451: REGION_CREATE reserves the region its body describes and REGION_DESTROY removes one; a command waits
while a base delta of the region is outstanding. HAUL_SET writes a region's haul formats, HAUL_SUB a member's subscription. -/
def Obligations.RegionCommandsMakeEndAndSetRegions : Prop :=
  ∀ p s d c jb,
    let w := wordAt c.body 0
    getJob d c.job = some jb →
    (∀ slot, Ran 0x0020 p s d c →
      let b := c.body
      let rn := field w 61 48
      let en := rsStateEn slot.words
      let r := bodyRegion jb en b
      let fmt := fun i => r.fmts.getD i (0 : Byte)
      rsvdSet w [(63, 62), (47, 43)] = false → rsvdSet (wordAt b 1) [(63, 60), (47, 32)] = false → rsvdSet (wordAt b 2) [(63, 9)] = false →
      1 ≤ field w 42 0 → field w 42 0 ≤ 2 ^ 42 → SMap.get? d.rules (field (wordAt b 1) 59 48) = some slot → slot.job = c.job →
      ofmtStoreOk (fmt 0) = true → (∀ i, i < 3 → if en / 2 ^ i % 2 = 1 then ofmtStoreOk (fmt (i + 1)) = true else fmt (i + 1) = 0) →
      r.deal < jb.q → getRegion jb rn = none → jb.regions.length < jb.quotas.region → regionCount d < 65536 →
      noMem d jb rn r = (false, false, false) →
      let e := createRegion d c.job rn jb r
      ∀ jb', getJob e c.job = some jb' →
        Gives (.regionCreate p) s (if baseBusy jb' rn then waitOn e c rn else finalReply e c.w (plainReply stOk 0))) ∧
    (∀ r, Ran 0x0021 p s d c → rsvdSet w [(63, 62), (47, 0)] = false → getRegion jb (field w 61 48) = some r →
      regionUsed d c.job jb (field w 61 48) = false →
      let e := destroyRegion d c.job (field w 61 48) jb r
      ∀ jb', getJob e c.job = some jb' →
        Gives (.regionDestroy p) s
          (if baseBusy jb' (field w 61 48) then waitOn e c (field w 61 48) else finalReply e c.w (plainReply stOk 0))) ∧
    (∀ r, Ran 0x0023 p s d c → getRegion jb (field w 29 16) = some r →
      let n := field w 1 0 + 1
      let hf := fun i => BitVec.ofNat 8 (field w (39 + 8 * i) (32 + 8 * i))
      rsvdSet w [(31, 30), (15, 2)] = false → (∀ i, i < 4 → n ≤ i → hf i = 0) → (∀ i, i < n → ofmtHaulOk (hf i) = true) →
      regionInFlight jb (field w 29 16) = false → (∀ e ∈ jb.members, ∀ i, haulSub e.2 (field w 29 16) = some i → i < n) →
      Replies (.haulSet p) p s
        { s.dev with jobs := SMap.set s.dev.jobs c.job
                       { jb with regions := SMap.upd jb.regions (field w 29 16) fun r => keepHaul jb.stepCur r ((List.range n).map hf) } }
        (plainReply stOk 0)) ∧
    (∀ r, Ran 0x0024 p s d c → getRegion jb (field w 29 16) = some r →
      let m := field w 43 32
      rsvdSet w [(63, 44), (31, 30), (15, 3)] = false → (flag w 2 = true → field w 1 0 = 0) → (c.sender.role = 4 → m = c.sender.who) →
      SMap.has jb.members m = true → field w 1 0 < r.haul.length → regionInFlight jb (field w 29 16) = false →
      Replies (.haulSub p) p s
        { s.dev with jobs := SMap.set s.dev.jobs c.job
                       { jb with members := SMap.upd jb.members m fun mb => keepSub jb.stepCur (field w 29 16) mb (flag w 2) (field w 1 0) } }
        (plainReply stOk 0))

/-- R447 to R449, R471: PARAM_LOAD and SNAP_RESTORE begin a load: it is among the job's loads, its slabs are asked for, and the
command waits. -/
def Obligations.LoadsBeginAndWait : Prop :=
  ∀ p s d c jb,
    let w := wordAt c.body 0
    let x := wordAt c.body 1
    getJob d c.job = some jb →
    (∀ r, Ran 0x0022 p s d c → rsvdSet w [(63, 62), (47, 44)] = false → rsvdSet x [(31, 1)] = false → wordAt c.body 3 = 0 →
      getRegion jb (field w 61 48) = some r → 1 ≤ field x 63 32 → field w 31 0 + field x 63 32 ≤ nSlabs r →
      SMap.has jb.members (field w 43 32) = true → loadBlocked d c.job jb (field w 61 48) = false →
      let l : Load := { kind := 2, member := field w 43 32, region := field w 61 48, object := wordAt c.body 2, states := flag x 0 }
      Gives (.paramLoad p) s (baseSettle (startLoad (waitOn d c (field w 61 48)) c.job l
        [(field w 61 48, (rangeFrom (field w 31 0) (field x 63 32)).filter (ownsSlab jb r))]) c.job)) ∧
    (Ran 0x0052 p s d c → rsvdSet w [(63, 48)] = false → rsvdSet x [(63, 12)] = false → SMap.has jb.members (field x 11 0) = true →
      ctxsActive d c.job = false → jb.sealSt.state = .opened → (jb.inFlight = true → jb.buckets = []) → jb.loads = [] →
      jb.snap.active = false → rebuilding jb = false →
      let l : Load := { kind := 1, member := field x 11 0, object := jobKey jb, step := field w 47 0 }
      Gives (.snapRestore p) s
        (poolsSettle (flushAll (baseSettle (startLoad (if readmits jb then clearCtxs (waitOn d c 0) else waitOn d c 0) c.job l (shardSlabs jb)) c.job))))

/-- R464, R465, R505: SYNC_ALLOC makes a counter or barrier at the lowest free number and answers it, and SYNC_FREE returns an
object no node of an unfinished graph names. -/
def Obligations.SyncObjectsAreMadeAndFreed : Prop :=
  ∀ p s d c jb,
    let w := wordAt c.body 0
    let x := wordAt c.body 1
    getJob s.dev c.job = some jb →
    (∀ n, Ran 0x0040 p s d c → rsvdSet w [(55, 0)] = false → syncInitBad (field w 63 56) x = false →
      (s.dev.syncs.filter fun e => e.2.job == c.job).length < jb.quotas.sync → SMap.firstFree s.dev.syncs 0 8192 = some n →
      Replies (.syncAlloc p) p s
        { s.dev with syncs := SMap.set s.dev.syncs n
                        (if field w 63 56 = 1 then { job := c.job, kind := .counter, value := x }
                         else { job := c.job, kind := .barrier, value := mkWord [(field x 15 0, 16)] }) }
        (okReply [BitVec.ofNat 64 n])) ∧
    (∀ o, Ran 0x0041 p s d c → SMap.get? s.dev.syncs (field w 12 0) = some o → rsvdSet w [(63, 13)] = false → o.job = c.job →
      o.kind ≠ .seal_ → syncNamed jb (field w 12 0) = false →
      Replies (.syncFree p) p s { s.dev with syncs := SMap.del s.dev.syncs (field w 12 0) } (plainReply stOk 0))

/-- R506, Table 14-8: the operations of sync objects. SYNC_OP applies one that its object's kind has, with an operand that the rule
allows, and answers the value before it; another operation or operand is answered ST_ILLEGAL (check 1) and the object is unchanged.
A counter is read, added to, set, raised, or has bits set or cleared; ARRIVE counts arrivals and advances the generation by the number
of times the target is reached, RESET clears the arrivals and takes a new target when one is given. A SYNC node that passes the same
checks applies the operation and is DONE; it keeps no value. -/
def Obligations.SyncOperationsFollowTheTable : Prop :=
  (∀ p s d c o,
    let w := wordAt c.body 0
    let x := wordAt c.body 1
    Ran 0x0042 p s d c → SMap.get? d.syncs (field w 12 0) = some o → rsvdSet w [(55, 13)] = false →
    (o.job = c.job → syncOpOk o.kind (field w 63 56) = true → syncOperandOk (field w 63 56) x = true →
      Gives (.syncOp p) s
        (poolsSettle (flushAll (finalReply
          (settle (bump { d with syncs := SMap.set d.syncs (field w 12 0) { o with value := syncApply (field w 63 56) o.value x } }
            ctrSyncOps o.job)) c.w (okReply [o.value]))))) ∧
    ((syncOpOk o.kind (field w 63 56) = false ∨ syncOperandOk (field w 63 56) x = false) →
      Gives (.syncOp p) s (poolsSettle (flushAll (finalReply d c.w (plainReply stIllegal 1)))))) ∧
  (∀ (d : Dev) (j g i : Nat) (n : Node) (o : SyncObj),
    SMap.get? d.syncs (nodeSync n) = some o → o.job = j → syncOpOk o.kind (nodeOp n) = true →
    syncOperandOk (nodeOp n) (wordAt n.words 2) = true →
    startSync d j g i n =
      nodeEnds (settle (bump
        { d with syncs := SMap.set d.syncs (nodeSync n) { o with value := syncApply (nodeOp n) o.value (wordAt n.words 2) } }
        ctrSyncOps o.job)) j g i .done 0) ∧
  (∀ op, (syncOpOk .counter op = true ↔ op ≤ 5) ∧ (syncOpOk .barrier op = true ↔ op = 0 ∨ op = 0x10 ∨ op = 0x11) ∧
    syncOpOk .seal_ op = false) ∧
  (∀ x : W64, (∀ op, op ≤ 5 → syncOperandOk op x = true) ∧
    (syncOperandOk 0x10 x = true ↔ field x 63 16 = 0 ∧ field x 15 0 ≠ 0) ∧ (syncOperandOk 0x11 x = true ↔ field x 63 16 = 0)) ∧
  (∀ v x : W64, syncApply 0 v x = v ∧ syncApply 1 v x = v + x ∧ syncApply 2 v x = x ∧
    (syncApply 3 v x).toNat = max v.toNat x.toNat ∧ syncApply 4 v x = v ||| x ∧ syncApply 5 v x = v &&& ~~~x) ∧
  (∀ v x : W64, 1 ≤ field v 31 16 →
    let t := field v 15 0 + field x 15 0
    let a := syncApply 0x10 v x
    let r := syncApply 0x11 v x
    field a 63 32 = (field v 63 32 + t / field v 31 16) % 2 ^ 32 ∧ field a 31 16 = field v 31 16 ∧ field a 15 0 = t % field v 31 16 ∧
    field r 63 32 = field v 63 32 ∧ field r 31 16 = (if field x 15 0 = 0 then field v 31 16 else field x 15 0) ∧ field r 15 0 = 0)

/-- R457 to R459, R387: an accepted CTX_OPEN drains the context, which its job now holds; an accepted CTX_RELEASE drains it for
its release. Both commands wait. Where the open lets go the entries of a completed use, blocked nodes are tested. -/
def Obligations.ContextCommandsDrainTheContext : Prop :=
  ∀ p s d c jb,
    getJob d c.job = some jb →
    (Ran 0x0030 p s d c → openCheck d c.job jb (openCtxNo c.body) (openParams jb.hold c.body) (openFieldsOk c.body) = none →
      let e := acceptOpen (waitOn d c (openCtxNo c.body)) c.job (openCtxNo c.body) (openParams jb.hold c.body) c.body
      Gives (.ctxOpen p) s
        (poolsSettle (flushAll (if (getCtx d (openCtxNo c.body)).state = .done then admitAll e else e)))) ∧
    (let w := wordAt c.body 0
     let x := getCtx d (field w 13 0)
     Ran 0x0031 p s d c → rsvdSet w [(63, 17), (15, 14)] = false → (x.holder = none ∨ x.holder = some c.job) →
      (x.state = .done ∨ x.state = .idle ∧ flag w 16 = true) → x.drain = .none →
      Gives (.ctxRelease p) s (updCtx (waitOn d c (field w 13 0)) (field w 13 0) fun x =>
        { x with prevEpoch := x.epoch, prevStatus := if x.state == .done then x.status else 0,
                 drain := if flag w 16 then .releaseFree else .releaseKeep }))

/-- R218, R368, R329: what acceptance of an open does. The context is DRAINING for its job, its EPOCH and, of a completed use, its
STATUS move to PREV_EPOCH and PREV_STATUS, its buckets are taken and the open is counted; no other job and no other context that
a job can hold changes. -/
def Obligations.AcceptedOpenHoldsTheContext : Prop :=
  ∀ (d : Dev) (j n : Nat) (q : CtxParams) (b : List W64) (jb : Job), getJob d j = some jb → n < 16384 →
    let x := getCtx d n
    let t := acceptOpen d j n q b
    (getCtx t n).holder = some j ∧ (getCtx t n).state = .draining ∧ (getCtx t n).drain = .open_ ∧ (getCtx t n).lastKnown = true ∧
    (getCtx t n).prevEpoch = x.epoch ∧ (getCtx t n).prevStatus = (if x.state = .done then x.status else 0) ∧
    (getCtx t n).next.epoch = q.epoch ∧ (getCtx t n).next.region = q.region ∧ (getCtx t n).resWin = q.accumWin ∧
    (getCtx t n).resSlabs = q.nslab ∧
    (∃ jb', getJob t j = some jb' ∧ jb'.buckets = jb.buckets ++ [(q.region, q.first, q.nslab)] ∧ jb'.stepCur = jb.stepCur ∧
      jb'.attempt = jb.attempt ∧ jb'.sealSt = jb.sealSt) ∧
    (∀ k, k ≠ j → getJob t k = getJob d k) ∧ (∀ m, m < 16384 → m ≠ n → getCtx t m = getCtx d m)

/-- R461 to R463, R487, R504: GRAPH_SUBMIT holds the graph of its payload, GRAPH_RELEASE releases it unless a seal is prepared or an abort
in progress, and GRAPH_CANCEL ends every node that has not begun and waits. R466 to R468: STEP_SEAL asks the job to seal its current step,
STEP_ABORT to abort its current attempt before a seal is decided; both wait for the outcome. STEP_POISON marks the step at its rank and is
answered. -/
def Obligations.GraphAndStepCommands : Prop :=
  (∀ p s d c jb,
     let w := wordAt c.body 0
     let g := field w 7 0
     let n := field w 47 32
     let ns := bodyNodes c.body n
     getJob s.dev c.job = some jb →
     (Ran 0x0038 p s d c → rsvdSet w [(63, 48), (31, 8)] = false → 1 ≤ n → c.body.length = 1 + 4 * n → SMap.has jb.graphs g = false →
       n + jobNodes jb ≤ jb.quotas.node → n + allNodes s.dev ≤ 32768 → graphCheck s.dev c.job ns = none →
       (∀ e ∈ ns, nodeType e.2 = 1 →
         neverMet (lostPositions s.dev) (getCtx s.dev (nodeCtx e.2)).p.accumWin (getCtx s.dev (nodeCtx e.2)).p.nslab jb.quotas.accum = false) →
       Replies (.graphSubmit p) p s
         { s.dev with jobs := SMap.set s.dev.jobs c.job { jb with graphs := SMap.set jb.graphs g { nodes := ns } } }
         (plainReply stOk 0)) ∧
     (∀ gr, Ran 0x0039 p s d c → SMap.get? jb.graphs g = some gr → rsvdSet w [(63, 8)] = false → gr.released = false →
       (releaseWaits jb = true → Gives (.graphRelease p) s (poolsSettle (flushAll (waitOn d c g)))) ∧
       (releaseWaits jb = false →
         Gives (.graphRelease p) s (poolsSettle (flushAll (finalReply (tryRelease d c.job g).1 c.w (tryRelease d c.job g).2))))) ∧
     (∀ gr, Ran 0x003A p s d c → SMap.get? jb.graphs g = some gr → rsvdSet w [(63, 8)] = false →
       Gives (.graphCancel p) s (poolsSettle (flushAll (cancelGraph (waitOn d c g) c.job g))))) ∧
  (∀ p s d c jb,
     let w := wordAt c.body 0
     let x := wordAt c.body 1
     getJob d c.job = some jb →
     (Ran 0x0048 p s d c → rsvdSet w [(63, 48)] = false → field w 47 0 = jb.stepCur →
       Gives (.stepSeal p) s (poolsSettle (flushAll (requestSeal (waitOn d c jb.stepCur) c.job false)))) ∧
     (Ran 0x0049 p s d c → rsvdSet w [(63, 56)] = false → field w 47 0 = jb.stepCur → field w 55 48 = jb.attempt →
       jb.sealSt.decision ≠ .seal →
       Gives (.stepAbort p) s (poolsSettle (flushAll (requestAbort (waitOn d c (field w 55 0)) c.job 0x50)))) ∧
     (Ran 0x004A p s d c → rsvdSet w [(63, 56)] = false → rsvdSet x [(63, 44), (31, 16), (7, 2)] = false → field x 1 0 ≠ 3 →
       (c.sender.role = 4 → sourcesRank d c.job jb c.sender.who (field x 43 32) = true) → poisonLate jb c.body = none →
       Gives (.stepPoison p) s
         (poolsSettle (flushAll (finalReply (poisonStep d c.job (field x 43 32) (field x 15 8) c.body) c.w (plainReply stOk 0))))))

/-- R469, R470, R473, R474: SNAP_CONFIG sets when and to whom snapshots go; SNAP_TAKE starts one of the commit point and waits;
PARITY_GROUP_SET sets and stores the group and claims the position; REBUILD_START begins a rebuild and waits. R476 to R479: REC_START
begins a recording to a buffer in the store or to a mirror port, REC_STOP ends it and answers how much was recorded and dropped,
REPLAY_START begins a replay of the held record or of a port, REF_MODE turns reference mode on or off. -/
def Obligations.SnapshotRecordAndReplayCommands : Prop :=
  (∀ p s d c jb,
     let w := wordAt c.body 0
     let x := wordAt c.body 1
     getJob s.dev c.job = some jb →
     (let mems := (List.range 4).map fun i => field x (16 * i + 11) (16 * i)
      Ran 0x0050 p s d c → rsvdSet w [(63, 20), (15, 10)] = false → rsvdSet x [(63, 60), (47, 44), (31, 28), (15, 12)] = false →
       1 ≤ field w 9 0 → field w 9 0 ≤ 1000 → field w 19 16 ≠ 0 →
       (∀ i, i < 4 → flag w (16 + i) = true → SMap.has jb.members (mems.getD i 0) = true) →
       Replies (.snapConfig p) p s
         { s.dev with jobs := SMap.set s.dev.jobs c.job { jb with snapNext := some (field w 9 0, field w 19 16, mems) } }
         (plainReply stOk 0)) ∧
     (Ran 0x0051 p s d c → storeMembers jb ≠ [] → jb.snap.active = false → hasCommit jb.commit = true →
       Gives (.snapTake p) s (startRepair (startSnap (waitOn d c 0) c.job (commitStep jb.commit)) c.job)) ∧
     (let serials := (c.body.drop 1).take 8
      Ran 0x0058 p s d c → rsvdSet w [(31, 3)] = false → serials.contains 0 = false → serials.Nodup →
       wordAt serials (field w 2 0) = d.fac.serial → (∀ e ∈ d.jobs, e.2.regions = []) →
       let f := flashWrite d 0x17 72 (sparseWords 0 c.body)
       let e := { f with start := { f.start with claimBad := false },
                         parity := { f.parity with group := some { id := field w 63 32, pos := field w 2 0, serials := serials },
                                                   lost := [] } }
       Gives (.parityGroupSet p) s (finalReply (claimGroup e false) c.w (plainReply stOk 0))) ∧
     (Ran 0x0059 p s d c → rsvdSet w [(63, 9)] = false → rsvdSet x [(63, 48)] = false → field w 8 0 = jb.ordinal →
       servesNow jb = false → rebuilding jb = false → (∀ l ∈ jb.loads, l.kind ≠ 1) →
       Gives (.rebuildStart p) s (poolsSettle (flushAll (startRebuild (waitOn d c 0) c.job (field x 47 0)))))) ∧
  (∀ p s d c jb,
     let w := wordAt c.body 0
     let x := wordAt c.body 1
     getJob d c.job = some jb →
     (Ran 0x0060 p s d c → rsvdSet w [(63, 41), (31, 2)] = false → rsvdSet x [(63, 32)] = false → recording jb = false →
       (field w 1 0 = 0 ∧ jb.charge + 2 ^ 20 * field x 31 0 ≤ jb.quotas.memMib * 2 ^ 20 ∧ 2 ^ 20 * field x 31 0 ≤ freeSpace d ∨
         field w 1 0 = 1 ∧ (getPort d (field w 40 32)).role = 1) →
       let size := if field w 1 0 = 0 then 2 ^ 20 * field x 31 0 else 0
       Gives (.recStart p) s (finalReply (updJob d c.job fun jb =>
         { jb with recd := some { target := field w 1 0, port := field w 40 32, size := size }, charge := jb.charge + size })
         c.w (plainReply stOk 0))) ∧
     (∀ jb' r, Ran 0x0061 p s d c → recording jb = true →
       let e := settleMem (countHold (recEnd d c.job) c.job)
       getJob e c.job = some jb' → jb'.recd = some r →
       Gives (.recStop p) s (finalReply (updJob e c.job fun jb => endRec jb r) c.w
         (okReply [BitVec.ofNat 64 r.off, BitVec.ofNat 64 r.drops]))) ∧
     (Ran 0x0062 p s d c → rsvdSet w [(63, 41), (31, 2)] = false → rsvdSet x [(63, 48)] = false →
       (field w 1 0 = 0 ∨ field w 1 0 = 1 ∧ field w 40 32 ≤ 287) → quiesced d c.job jb = true → recording jb = false →
       replaying jb = false →
       Gives (.replayStart p) s (poolsSettle (flushAll (finalReply
         (setJob d c.job { jb with replay := some (newReplay d jb (field w 1 0) (field w 40 32) (field x 47 0)) })
         c.w (plainReply stOk 0))))) ∧
     (Ran 0x0063 p s d c → rsvdSet w [(63, 41), (31, 1)] = false → field w 40 32 ≤ 287 → ctxsActive d c.job = false →
       Gives (.refMode p) s (poolsSettle (flushAll (finalReply
         (setJob d c.job { jb with refMode := if flag w 0 then some (field w 40 32) else none }) c.w (plainReply stOk 0))))))

/-- R481, R483, R484: CABLE_CHECK classifies every port and answers the counts; SPARE_RETIRE takes a unit out of service, answered at once
but for a channel, which waits for its rebuild, and a seam, while its position takes no traffic; BYPASS_SET joins its pairs and holds them, or lets them be released again. R404:
INTERIM_REPLY sends an interim reply of ST_PENDING without a body for every command that has waited 1 ms and had none, and notes it; a
command that a takeover muted gets none. R425: STAGED_LOAD_TIMEOUT discards each staged load that got no segment for 10 s: its session
holds it no more, and its buffers are returned. All five complete. -/
def Obligations.CableSpareBypassAndTimers : Prop :=
  (∀ p s d c,
     let w := wordAt c.body 0
     let done_ := fun i e r => Gives i s (poolsSettle (flushAll (settleLinks s.dev (finalReply e c.w r))))
     (Ran 0x0069 p s d c → done_ (.cableCheck p) (cableCheck d) (okReply (cableCheckWords (cableCheck d)))) ∧
     (let u := field w 63 56
      let i := field w 15 0
      Ran 0x0071 p s d c → rsvdSet w [(55, 16)] = false → 1 ≤ u → u ≤ 4 → i < unitCount u → unitGone d u i = false →
       noSpare d u i = false → (u = 1 → portUsed d i = false) →
       (u = 1 → done_ (.spareRetire p) (failPosition d i) (plainReply stOk 0)) ∧
       (u = 2 → (seamRec d i).pos = none → done_ (.spareRetire p) (retireSeam d i) (plainReply stOk 0)) ∧
      (∀ pos, u = 2 → (seamRec d i).pos = some pos → Gives (.spareRetire p) s (poolsSettle (flushAll (settleLinks s.dev
        (if posRetiring (retireSeam d i) pos = true then waitOn (retireSeam d i) c (256 + pos)
         else finalReply (retireSeam d i) c.w (plainReply stOk 0)))))) ∧
       (u = 3 → Gives (.spareRetire p) s (poolsSettle (flushAll (settleLinks s.dev
         (retireChannel (waitOn d c (i / 64 * 64 + (chanRec d i).wnum.getD 63)) i))))) ∧
       (u = 4 → done_ (.spareRetire p) (retireLane d i) (plainReply stOk 0))) ∧
     (let qs := if field w 4 0 = 0x1F then List.range 16 else [field w 4 0]
      Ran 0x0078 p s d c → rsvdSet w [(63, 9), (7, 5)] = false → (field w 4 0 < 16 ∨ field w 4 0 = 0x1F) →
       (flag w 8 = true →
         done_ (.bypassSet p) (forEach qs d fun d q => joinPair d q fun x => { x with held := true }) (plainReply stOk 0)) ∧
       (flag w 8 = false → (∀ q ∈ qs, pairChecked d q = true) →
         done_ (.bypassSet p) (forEach qs d fun d q => updPair d q fun x => { x with held := false, reverted := false })
           (plainReply stOk 0)))) ∧
  (∀ s : State,
     let due := fun w : Waiting => !w.interim && decide (w.since + 1000 ≤ s.dev.nowUs)
     (answersCmds s.dev = true →
       Gives .interimReply s
         (let e := forEach (s.dev.mgmt.waiting.filter due) s.dev interimReply
          { e with mgmt := { e.mgmt with waiting := e.mgmt.waiting.map fun w => if due w then { w with interim := true } else w } })) ∧
     (answersCmds s.dev = false → Gives .interimReply s s.dev) ∧
     (∀ (d : Dev) (w : Waiting),
       (w.muted = true → interimReply d w = d) ∧
       (w.muted = false → interimReply d w = sendOuvrov d w.src w.hjob
         (replyWords 3 w.opcode w.hjob w.session w.seq w.tag (plainReply stPending 0)))) ∧
     (let stale := fun x : Session => match x.staged with | some g => decide (g.lastAt + 10000000 ≤ s.dev.nowUs) | none => false
      Gives .stagedLoadTimeout s (forEach (s.dev.mgmt.sessions.filter stale) s.dev fun d x =>
        dropStaged d { inband := x.inband, job := x.job, who := x.who, session := x.session })) ∧
     (∀ (d : Dev) (k : SessKey) (x : Session), d.mgmt.sessions.find? (keyOf k) = some x →
       (x.staged = none → dropStaged d k = d) ∧
       (∀ g, x.staged = some g → dropStaged d k = forEach g.buffers
         { d with mgmt := { d.mgmt with sessions := d.mgmt.sessions.map fun y => if keyOf k y then { y with staged := none } else y } }
         poolRelease)))

/-! ## Contributions and partials -/

/-- R373 to R375, R377, R379, R676, R142, R183, Table 11-6: a contribution is checked in order and stops at the first check that fails: the
job and its replay, the holder and the face-die copy, the epoch, the rank and its source, the shape, the pass and the slab, the end of
the context. A spoiled copy is counted and answered with the packet that ends it; a shape, pass or slab that does not fit poisons
the context. One that passes goes to its seam: a copy already taken is a repeat, a copy for a seam that is being retired, a pass two or more
ahead and a full window that the copy would grow are refused, anything else is received. Residues modulo 3 or 7 that disagree on its way
(R190) add their own effect, residues that agree none. Stripes that a write for it found lost meet their effect (R286). -/
def Obligations.ContributionsAreCheckedInOrder : Prop :=
  ∀ (s : State) (k : PktRx) (d : Dev), Arrives 0x10 (contribBad k) k s d →
    let f := contribF k.words
    let j := pktJob k.words
    let x := getCtx d f.ctx
    let spoil := fun (c : Ctr) i st =>
      if f.fin then contribAns (bump d c i) k.port j (wordAt k.words 1) f.slab st else d
    let gives := fun t => Gives (.contrib k none) s (settleLost t)
    (∀ n st, staleAnswer x j n st = if x.holder = some j ∧ n = x.prevEpoch ∧ x.prevStatus ≠ 0 then x.prevStatus.toNat else st) ∧
    (∀ t, Gives (.contrib k none) s t → ∀ r, Gives (.contrib k (some r)) s
      (if residuesDiffer r then residueErr t f.ctx f.slab f.pass r.lane (stageCode r.what) else t)) ∧
    (getJob d j = none → gives (spoil ctrClosedSpoil j stCtxClosed)) ∧
    (∀ jb, getJob d j = some jb →
      (∀ r, jb.replay = some r → r.active = true → gives (spoil ctrReplaySpoil j stCtxClosed)) ∧
      ((∀ r, jb.replay = some r → r.active = false) →
        (x.holder ≠ some j → gives (spoil ctrClosedSpoil j stCtxClosed)) ∧
        (x.holder = some j →
          (ctxClosed x = true → gives (spoil ctrClosedSpoil j (staleAnswer x j f.epoch stCtxClosed))) ∧
          (ctxClosed x = false →
            (f.epoch ≠ x.epoch → gives (spoil ctrStaleSpoil j (staleAnswer x j f.epoch stStaleEpoch))) ∧
            (f.epoch = x.epoch → ∀ e, ctxEnv d f.ctx = some e →
              let en := rankEntry e.m f.rank
              let own := ownBase e ≤ f.rank ∧ f.rank < ownBase e + ownSize e
              let from_ := fun mb => memberOn jb k.port = some mb ∧ (en.pri = mb ∨ en.bakEn = true ∧ en.bak = mb)
              ((¬ own ∨ ∀ mb, ¬ from_ mb) → gives (spoil ctrRankSpoil j stBadRank)) ∧
              (∀ mb, own → from_ mb →
                (f.shape ≠ x.shape.toNat ∨ f.fmt ≠ x.p.fmt → gives (mismatch d k mb 0x60)) ∧
                (f.shape = x.shape.toNat → f.fmt = x.p.fmt →
                  (x.p.npass ≤ f.pass → gives (mismatch d k mb 0x61)) ∧
                  (f.pass < x.p.npass → x.p.nslab ≤ f.slab → gives (mismatch d k mb 0x62)) ∧
                  (f.pass < x.p.npass → f.slab < x.p.nslab →
                    (x.state = .done → x.status ≠ 0 → gives
                      (spoil (if x.status = BitVec.ofNat 16 stAborted then ctrAbortSpoil else ctrLateSpoil) f.ctx x.status.toNat)) ∧
                    ((x.state ≠ .done ∨ x.status = 0) →
                      let src := if en.pri = mb then Source.primary else .backup
                      let r := getRed x f.slab
                      let sl := getSlot r f.pass f.rank
                      ((if en.pri = mb then sl.gotPri else sl.gotBak) = true →
                        gives (spoil ctrSlotRepeat f.ctx stOk)) ∧
                      ((if en.pri = mb then sl.gotPri else sl.gotBak) = false →
                        posRetiring d (seamPos d f.ctx f.slab) = true → gives (refuseCopy d k src stAccumFull)) ∧
                      ((if en.pri = mb then sl.gotPri else sl.gotBak) = false → posRetiring d (seamPos d f.ctx f.slab) = false →
                        (∀ c, getRx sl src = some c → c.refused = 0 → gives (receive d e k src mb c)) ∧
                        (∀ c, getRx sl src = some c → c.refused ≠ 0 → gives (refuseCopy d k src c.refused)) ∧
                        (getRx sl src = none →
                          (r.low + 2 ≤ f.pass → gives
                            (refuseCopy (bump d ctrPassAhead f.ctx) k src stPassAhead)) ∧
                          (f.pass < r.low + 2 → accumFull d e f.ctx (seamPos d f.ctx f.slab) = false →
                            gives (receive d e k src mb {})) ∧
                          (f.pass < r.low + 2 → accumFull d e f.ctx (seamPos d f.ctx f.slab) = true →
                            (joinsAtOnce d e k src mb = true → gives (receive d e k src mb {})) ∧
                            (joinsAtOnce d e k src mb = false →
                              gives (refuseCopy (countFull d e f.ctx) k src stAccumFull))))))))))))))

/-- R142, R146, R147, R374, R376, R379, R133: a trunk partial is spoiled, counted and answered where its context is not held by its job,
is closed, has another epoch or has ended; a pass or slab out of range or another rank map poisons an open context; any other is taken
into the owner's tree. Whatever became of it, recordings under replay then go on. R142, R144, R188, R376, R381, R551, R552: an answer
ends, or has repeated, the partial it names; refused partials go again after 10 µs, unanswered ones after 100 µs; a CTX_FAIL or POISON
notice is acknowledged and ends the open context it names under its epoch; a POISON of one poisoned already is counted, and either notice
where the epoch, the holder or the face-die copy differs. -/
def Obligations.PartialsAnswersAndNotices : Prop :=
  (∀ (s : State) (k : PktRx) (d : Dev), Arrives 0x60 (partialBad k) k s d →
     let f := partialF k.words
     let j := pktJob k.words
     let x := getCtx d f.ctx
     let gives := fun t => Gives (.partialRx k none) s (settleLost (replayAll t)) ∧
       ∀ r, Gives (.partialRx k (some r)) s (if residuesDiffer r then
         residueErr (settleLost (replayAll t)) f.ctx f.slab f.pass r.lane (stageCode r.what) else settleLost (replayAll t))
     (x.holder ≠ some j → gives (partialAns (bump d ctrClosedSpoil j) k stCtxClosed)) ∧
     (x.holder = some j →
       (ctxClosed x = true → gives (partialAns (bump d ctrClosedSpoil j) k (staleAnswer x j f.epoch stCtxClosed))) ∧
       (ctxClosed x = false →
         (f.epoch ≠ x.epoch → gives (partialAns (bump d ctrStaleSpoil j) k (staleAnswer x j f.epoch stStaleEpoch))) ∧
         (f.epoch = x.epoch → ∀ e, ctxEnv d f.ctx = some e →
           (x.state = .done → x.status ≠ 0 → gives (partialAns
             (bump d (if x.status = BitVec.ofNat 16 stAborted then ctrAbortSpoil else ctrLateSpoil) f.ctx) k x.status.toNat)) ∧
           (x.state = .opened →
             (∀ c, (x.p.npass ≤ f.pass ∧ c = 0x61 ∨ f.pass < x.p.npass ∧ x.p.nslab ≤ f.slab ∧ c = 0x62) →
               let a := partialAns (bump d ctrShapeSpoil f.ctx) k stMismatch
               gives (poisonCtx a f.ctx c
                 { cause := c, job := jobInfo a j, ctx := some (f.ctx, x.epoch, f.slab, 0, f.pass, 0), kind := 8, unit := f.ord })) ∧
             (f.pass < x.p.npass → f.slab < x.p.nslab → f.crc ≠ e.m.crc.toNat → gives (mapMismatch d k))) ∧
           ((x.state ≠ .done ∨ x.status = 0) → f.pass < x.p.npass → f.slab < x.p.nslab → f.crc = e.m.crc.toNat →
             gives (takePartial d e k)))))) ∧
  ((∀ (s : State) (k : PktRx) (d : Dev), Arrives 0x61 (partialAnsBad k) k s d →
     let f := partialF k.words
     let status := field (wordAt k.words 2) 15 0
     let x := getCtx d f.ctx
     let out := (getPass (getRed x f.slab) f.pass).out
     let gives := fun t => Gives (.partialAns k) s (settleLost (replayAll t))
     ((x.holder ≠ some (pktJob k.words) ∨ x.epoch ≠ f.epoch ∨ out = none) → gives d) ∧
     (x.holder = some (pktJob k.words) → x.epoch = f.epoch → ∀ h, out = some h →
       (status = stOk →
         let a := updPass d f.ctx f.slab f.pass fun ps => { ps with out := none, acked := true }
         let pos := seamPos d f.ctx f.slab
         gives (spill (ackPasses f.ctx f.slab 3
           (dropSpilled a (pktJob k.words) f.ctx pos (· == .part f.slab f.pass))) f.ctx pos)) ∧
       ((status = stPassAhead ∨ status = stAccumFull) →
         gives (updPass d f.ctx f.slab f.pass fun ps => { ps with out := ps.out.map fun h => { h with refused := true } })) ∧
       (status ≠ stOk → status ≠ stPassAhead → status ≠ stAccumFull →
         gives (bump (updPass d f.ctx f.slab f.pass fun ps => { ps with out := none }) ctrPartialStale f.ctx)))) ∧
   (∀ s : State,
     Gives .partialRetry s (resendPartials s.dev fun h => h.refused && decide (h.sentAt + 10 ≤ s.dev.nowUs)) ∧
     Gives .partialTimeout s (resendPartials s.dev fun h => !h.refused && decide (h.sentAt + 100 ≤ s.dev.nowUs))) ∧
   (∀ (s : State) (k : PktRx) (d : Dev),
     ∀ r ∈ [(Instr.ctxFail k, 0x63, stLate, 0x35), (Instr.poison k, 0x64, stMismatch, 0x63)], Arrives r.2.1 (noticeBad k) k s d →
       let c := field (wordAt k.words 1) 45 32
       let x := getCtx d c
       let a := msgAck d k
       (x.holder = some (pktJob k.words) → x.epoch = field (wordAt k.words 1) 63 48 → ctxClosed x = false →
         (x.state = .opened → Gives r.1 s (failCtx a c r.2.2.1 r.2.2.2 none)) ∧
         (x.state ≠ .opened → Gives r.1 s
           (if r.2.1 = 0x64 ∧ x.status = BitVec.ofNat 16 stMismatch then bump a ctrTrapSuppressed 0 else a))) ∧
       ((x.holder ≠ some (pktJob k.words) ∨ x.epoch ≠ field (wordAt k.words 1) 63 48 ∨ ctxClosed x = true) →
         Gives r.1 s (bump a ctrStaleSpoil (pktJob k.words)))))

/-- R59, R154, R180, R186 to R189, R192, R194, R195: a drained context opens or is released; an expired slot clock fills what
backups can fill and fails the context where a slot stays empty; an expired partial clock fails it where a module's group is missing; a
further expiry in a context that has failed late is counted only; a kept copy past the hold deadline is released unverified; spilled
entries come back; a sample of which every value has been compared is counted when none differs, a value that differs traps, marks its
job's step and has both seams tested, and a residue mismatch of the checking seam retires it. After a residue mismatch at the slab a
difference traps no more and is counted all the same (R199, Table 5-3). Residues disagree where they differ modulo 3 or modulo 7 (R190); those
of the seam that fills a slot add their own effect. A context number that does not exist is none. (The form of the two traps of a checking
seam is the model's reading, log 83.) -/
def Obligations.ContextClocksAndSamplesAct : Prop :=
  ∀ (s : State) (c b p r : Nat), c < 16384 →
    let d := s.dev
    let x := getCtx d c
    let red := getRed x b
    (∀ j, x.holder = some j →
      (x.drain = .open_ → Gives (.drainComplete c) s (poolsSettle (flushAll (openNow d j c)))) ∧
      (x.drain = .releaseKeep → Gives (.drainComplete c) s (poolsSettle (flushAll (releaseNow d j c false)))) ∧
      (x.drain = .releaseFree → Gives (.drainComplete c) s (poolsSettle (flushAll (releaseNow d j c true))))) ∧
    (∀ e t, ctxEnv d c = some e →
      (x.state = .opened → red.low ≤ p →
        ((getPass red p).slotClock = some t → t + x.p.holdUs ≤ d.nowUs →
          let empty := (rangeFrom (ownBase e) (ownSize e)).filter fun r =>
            (getSlot red p r).filled.isNone && (getSlot red p r).heldBak.isNone
          let a := fillHeld (updPass d c b p fun ps => { ps with slotClock := none }) e c b p
          let g := updPass a c b p fun ps => { ps with slotClock := none }
          (empty = [] → Gives (.slotClockExpiry c b ⟨p, none⟩) s (settleLost (replayAll (spill a c (seamPos a c b))))) ∧
          (∀ r l, empty = r :: l → Gives (.slotClockExpiry c b ⟨p, none⟩) s (settleLost (replayAll
            (lateCtx g e c 0x30 { cause := 0x30, job := jobInfo a e.j, ctx := some (c, x.epoch, b, 0, p, r), kind := 2,
                                  unit := seamUnit a c b }))))) ∧
        ((getPass red p).partClock = some t → t + 2 * x.p.holdUs ≤ d.nowUs → ∀ q,
          ((List.range e.jb.q).find? fun q => groupSize e.m q != 0 && !SMap.has (getPass red p).groups q) = some q →
          Gives (.partialClockExpiry c b p) s
            (lateCtx (updPass d c b p fun ps => { ps with partClock := none }) e c 0x31 { cause := 0x31, job := jobInfo d e.j, ctx := some (c, x.epoch, b, 0, p, 0), kind := 8, unit := q }))) ∧
      (x.state = .done → x.lateTrap = true →
        ((getPass red p).slotClock = some t → t + x.p.holdUs ≤ d.nowUs → Gives (.slotClockExpiry c b ⟨p, none⟩) s
          (settleLost (replayAll (bump (updPass d c b p fun ps => { ps with slotClock := none }) ctrTrapSuppressed 0)))) ∧
        ((getPass red p).partClock = some t → t + 2 * x.p.holdUs ≤ d.nowUs → Gives (.partialClockExpiry c b p) s
          (bump (updPass d c b p fun ps => { ps with partClock := none }) ctrTrapSuppressed 0)))) ∧
    (∀ t r, Gives (.slotClockExpiry c b ⟨p, none⟩) s t → Gives (.slotClockExpiry c b ⟨p, some r⟩) s
      (if residuesDiffer r then residueErr t c b p r.lane (stageCode r.what) else t)) ∧
    (∀ j, x.holder = some j → (getSlot red p r).kept ≠ none → (getSlot red p r).keptAt + x.p.holdUs < d.nowUs →
      let pos := seamPos d c b
      Gives (.keptCopyExpiry c b p r) s
        (spill (bump (updSlot (dropSpilled d j c pos (· == .kept b p r)) c b p r fun s => { s with kept := none }) ctrFillUnverified c) c pos)) ∧
    (p < 128 → posRetiring d p = false → Gives (.refill c p) s (settleLost (replayAll (refill d c p)))) ∧
    (p < 128 → posRetiring d p = true → Gives (.refill c p) s d) ∧
    (∀ act chk, SMap.get? x.resid b = some act → red.sample = .pending chk →
      let a := updCtx d c fun x => { x with resid := SMap.del x.resid b }
      Gives (.sampleComplete c b .agreed) s (poolsSettle (bump (updRed a c b fun s => { s with sample := .agreed }) ctrSampled (seamPos d c b))) ∧
      (∀ v q lane, Gives (.sampleComplete c b (.differed v q lane)) s (poolsSettle
        (bump (bump (bump (updRed a c b fun s => { s with sample := .differed }) ctrTrapSuppressed 0) ctrSampled (seamPos d c b))
          ctrSampleErr act)))) ∧
    (∀ e j chk, ctxEnv d c = some e → x.holder = some j → red.sample = .pending chk → SMap.get? x.resid b = none →
      let pos := seamPos d c b
      let act := seamUnit d c b
      (sampleWhole e x b = true → Gives (.sampleComplete c b .agreed) s
        (poolsSettle (bump (updRed d c b fun s => { s with sample := .agreed }) ctrSampled pos))) ∧
      (∀ v q lane, sampleFormed e x b v q = true →
        let a := bump (bump (updRed d c b fun s => { s with sample := .differed }) ctrSampled pos) ctrSampleErr act
        let t := raiseTrap a
          { cause := 0x33, job := some (j, x.step % 2 ^ 48, x.attempt), ctx := some (c, x.epoch, b, lane, q, 0), kind := 2, unit := act
            details := [BitVec.ofNat 64 chk, BitVec.ofNat 64 v] }
        Gives (.sampleComplete c b (.differed v q lane)) s (poolsSettle
          (markJob { t with spare := { t.spare with tests := t.spare.tests ++ [(act, chk, t.nowUs)] } } j 0x33))) ∧
      (∀ r, residuesDiffer r = true → Gives (.sampleComplete c b (.residue r)) s (poolsSettle (retireSeam
        (raiseTrap (bump d ctrResidueErr chk)
          { cause := 0x32, kind := 2, unit := chk, details := [0xFF, BitVec.ofNat 64 r.lane, BitVec.ofNat 64 (stageCode r.what)] }) chk))) ∧
      (∀ r, residuesDiffer r = false → Gives (.sampleComplete c b (.residue r)) s (poolsSettle d))) ∧
    (∀ r, residuesDiffer r = false ↔ r.pred3 % 3 = r.got3 % 3 ∧ r.pred7 % 7 = r.got7 % 7) ∧
    (∀ c', 16384 ≤ c' → ∀ i ∈ [Instr.drainComplete c', .slotClockExpiry c' b ⟨p, none⟩, .partialClockExpiry c' b p, .keptCopyExpiry c' b p r,
      .refill c' p, .sampleComplete c' b .agreed], exec i s = .fault .noSuchUnit)

/-! ## Updates, haul and hoist -/

/-- R55, R64, R68, R73, R205, R206, R209, R235, R265, R343: the home update die accepts a finished slab that waits, of a step that goes on: its
arithmetic runs on the valid copy and the new copy is being written, with a residue fault of a lane it uses or without; a die that a
non-finite value stopped, a damaged slab and a memory error end it instead. A completed write tags the copy, is counted and leaves for haul
unless the attempt has ended or its die was stopped. A slab that does not wait, or whose die has no live lane left (R646), is not accepted. -/
def Obligations.UpdateDiesWriteWhatTheyAccept : Prop :=
  (∀ (s : State) (c b : Nat) (f : UpdFault), c < 16384 → b < 65536 →
    let d := s.dev
    let u := updUse d c b
    let x := getCtx d u
    let k := slabOf x b
    let rn := x.p.region
    let gives := fun t => Gives (.updateAccept c b f) s (poolsSettle (flushAll t))
    ∀ e rs, ctxEnv d u = some e → SMap.get? d.rules e.r.rule = some rs →
      let jb := e.jb
      let die := homeDie jb.q e.r rn k
      let sl := getSlab e.r k
      let waits := updWaits jb x b = true ∧ ownsB e x b = true ∧ liveLanes d die ≠ [] ∧ jb.stopped = false ∧ jb.updStop = false ∧
        jb.sealSt.applyWait = [] ∧ jb.sealSt.state ≠ .aborting
      (¬ waits → gives d) ∧
      (waits →
        (jb.dieStop.contains die = true →
          gives (if stepValsFinite (stepVals rs.words (slotVals d jb rs.words)) then acceptSlab d u b
            else stepValueEvent (acceptSlab d u b) e.j die)) ∧
        (jb.dieStop.contains die = false →
          (sl.damaged = true → gives (markJob (acceptSlab d u b) e.j 0x40)) ∧
          (sl.damaged = false → validCopy jb.commit sl = none →
            gives (markJob (memUeSlab (acceptSlab d u b) e.j rn k 2) e.j 0x40)) ∧
          (sl.damaged = false → ∀ v, validCopy jb.commit sl = some v →
            (f = .none → gives (updateSlab d e u b v rs.words none)) ∧
            (∀ l, f = .residue l → gives (updateSlab d e u b v rs.words
              (if l < 128 ∧ (128 * die + l) ∉ d.spare.lanes then some l else none))) ∧
            (f = .memUe 2 → x.p.sealed = false → gives (updateSlab d e u b v rs.words none)) ∧
            (∀ a, f = .memUe a → (a ≠ 2 ∨ x.p.sealed = true) → gives (markJob
              (memUeSlab (acceptSlab d u b) e.j rn k (if a = 0 then v else if a = 1 then 2 else 3)) e.j 0x40)))))) ∧
  (∀ (s : State) (j rn k : Nat) (w : PendingWrite), j < 64 →
    ((getJob s.dev j).bind fun jb => jb.writes.find? fun w => w.region == rn && w.slab == k) = some w →
    Gives (.copyWriteComplete j rn k) s (poolsSettle (settleLost (copyWritten s.dev w))) ∧
    (∀ jb r, getJob s.dev w.job = some jb → getRegion jb w.region = some r →
      let tag := mkTag true false false w.step
      let sl := getSlab r w.slab
      let fresh := match validCopy jb.commit sl with | some v => tagFresh (slabTag sl v) | none => false
      let a := updJob (updSlab s.dev w.job w.region w.slab fun x => putCopy x w.copy w.data tag) w.job fun jb =>
        { jb with writes := jb.writes.filter (· != w) }
      let b := writeCopy (bump a ctrUpdSlabs w.job) w.job jb r w.region w.slab w.copy
      let e := if fresh then bump b ctrUpdFresh w.job else b
      let g := match ctxOfKey e w.ctx with
        | none => e
        | some c =>
          let x := getCtx e c
          recResult e w.job (ctxNum c) (w.slab - x.p.first) x (getRed x (w.slab - x.p.first)).acrc (crcWords (protImage r w.data tag))
      copyWritten s.dev w =
        (if jb.sealSt.state = .aborting ∨ jb.stopped = true ∨ jb.dieStop.contains (homeDie jb.q r w.region w.slab) = true ∨
            jb.stepCur ≠ w.step ∨ jb.attempt ≠ w.attempt then g
         else haulStart g w.job w.region w.slab w.step w.attempt w.data)))

/-- R214 to R217, R67, R68, R756, Table 15-17: the norm exchange. Once a seal is requested and every bucket of the step is complete a module
forms its partial, once, and sends it to every other; each module takes one partial of the step in progress from each ordinal and
evaluates the norm when it holds all; and the updates of sealed mode begin once the norm is known and nothing stops them. -/
def Obligations.NormPartialsAreExchangedOnce : Prop :=
  (∀ (s : State) (j : Nat) (jb : Job), j < 64 → getJob s.dev j = some jb →
    let d := s.dev
    ((jb.norm.formed = true ∨ jb.sealSt.requested = false ∨ ctxsComplete d j jb = false) → Gives (.formNormPartial j) s d) ∧
    (jb.norm.formed = false → jb.sealSt.requested = true → jb.stopped = false → jb.sealSt.state ≠ .aborting → ctxsComplete d j jb = true →
      ((stepCtxs d j jb).any (fun e => sealedCtx jb e.2) = true ∨ jb.norm.parts ≠ []) →
      let h := treeOf ((normSet d j jb).map fun x => (getRegion jb x.1).map fun r => (getSlab r x.2).norm)
      let a := setJob d j { jb with norm := { jb.norm with formed := true, parts := SMap.set jb.norm.parts jb.ordinal h } }
      let b := forEach (otherOrds jb) a fun d' q => sendHeld (nextMsg d' j).2 j 0x62 6 q [(nextMsg d' j).1]
        (mkPacket 0x62 j [stepWord jb.stepCur jb.attempt, mkWord [((nextMsg d' j).1, 32), (jb.ordinal, 16), (bit h.isNone, 0)], h.getD 0])
      Gives (.formNormPartial j) s (normEval (if h.all fpFinite then b else normOverflow b j) j)) ∧
    (jb.norm.known ≠ none → jb.norm.bad = false → jb.updStop = false → jb.sealSt.state = .opened → jb.stopped = false →
      ctxsComplete d j jb = true → (stepCtxs d j jb).any (fun e => sealedCtx jb e.2) = true →
      Gives (.sealedUpdateBegin j) s (setJob d j { jb with sealedRun := true })) ∧
    (jb.norm.known = none → Gives (.sealedUpdateBegin j) s d)) ∧
  (∀ (s : State) (k : PktRx) (d : Dev), Arrives 0x62 (normBad k) k s d →
    let j := pktJob k.words
    let e := msgAck d k
    let w2 := wordAt k.words 2
    let q := field w2 24 16
    ∀ jb, getJob e j = some jb → msgAge jb (field (wordAt k.words 1) 47 0) (field (wordAt k.words 1) 55 48) = .now →
      (SMap.has jb.norm.parts q = false → Gives (.normPartial k) s (flushJob (normEval (setJob e j
        { jb with norm := { jb.norm with parts := SMap.set jb.norm.parts q (if flag w2 0 then none else some (wordAt k.words 3)) } }) j) j)) ∧
      (SMap.has jb.norm.parts q = true → Gives (.normPartial k) s (flushJob e j)))

/-- R296 to R300, R306, R307, R546: haul over trunks and to members. A haul slab is acknowledged; a repeat is counted and goes no
further; a first one goes on, as it is, to the module's children and members while its attempt is alive; an acknowledgment ends what is
kept for its sender; what is unacknowledged for 100 µs goes again; overdue haul of a member port is dropped; HAUL_END goes when every slab of
a context is delivered or dropped. -/
def Obligations.HaulSlabsGoOnOnce : Prop :=
  (∀ (s : State) (k : PktRx) (d : Dev), Arrives 0x20 (haulBad k) k s d →
    let w := k.words
    let j := pktJob w
    let w1 := wordAt w 1
    let w2 := wordAt w 2
    let rn := field w1 61 48
    let b := field w2 63 32
    let at_ := field w2 31 24
    let id := [rn, b, field w1 47 0, at_, field w2 11 10]
    let a := sendAddr d 2 j k.src (mkPacket 0x21 j [w1, mkWord [(b, 32), (at_, 24), (field w2 11 10, 10)]])
    (getJob d j = none → Gives (.haulData k) s d) ∧
    (∀ jb, getJob d j = some jb →
      (id ∈ jb.haulSeen → Gives (.haulData k) s (bump a ctrHaulDup j)) ∧
      (id ∉ jb.haulSeen →
        let e := updJob a j fun jb => { jb with haulSeen := jb.haulSeen ++ [id] }
        (getRegion jb rn = none → Gives (.haulData k) s e) ∧
        ∀ r, getRegion jb rn = some r →
          let hd : SlabHead :=
            { region := rn, step := field w1 47 0, slab := b, attempt := at_, ofmt := BitVec.ofNat 8 (field w2 23 16), prov := true
              base := false, hfi := field w2 11 10, tag := 0, lanes := field (wordAt w 3) 10 0 }
          ((haulDead jb hd.step at_ = true ∨ jb.stopped = true ∨ nSlabs r ≤ b) → Gives (.haulData k) s e) ∧
          (haulDead jb hd.step at_ = false → jb.stopped = false → b < nSlabs r → Gives (.haulData k) s
            (haulOut e j rn b (slabOwner jb.q r b) hd.step at_ (fun i => if i = hd.hfi then some (hd, w.drop 4, 0) else none)
              (fun i => (haulListAt r hd.step)[i]? == some hd.ofmt) [hd.hfi]))))) ∧
  (∀ (s : State) (k : PktRx) (d : Dev), Arrives 0x21 (haulAckBad k) k s d → ∀ q,
    ((getJob d (pktJob k.words)).bind fun jb => ordOfAddr jb k.src) = some q →
    let w1 := wordAt k.words 1
    let w2 := wordAt k.words 2
    Gives (.haulAck k) s (dropHeld d (pktJob k.words) fun h => h.ptype == 0x20 && h.dst == q &&
      h.key == [field w1 61 48, field w1 47 0, field w2 63 32, field w2 31 24, field w2 11 10])) ∧
  (∀ s : State,
    Gives .haulResend s (resendHeld s.dev (fun h => h.ptype == 0x20) fun d h =>
      bump (bump (sendOrd d h.job h.dst h.vc h.words) ctrEndResend 0) ctrHaulResend h.job) ∧
    (∀ p, p < 288 →
      let x := getPort s.dev p
      ((unacked x).any (haulOverdue s.dev) = false → Gives (.haulDrop p) s s.dev) ∧
      ((unacked x).any (haulOverdue s.dev) = true → Gives (.haulDrop p) s
        (forEach ((unacked x).filter isHaul) (stallTick (setPort s.dev p (dropUnacked isHaul x)) p) dropHaulPkt))) ∧
    (∀ c m, c < 16384 → m < 4096 → Gives (.haulEnd c m) s
      (tidyLeft (haulEndDue (forEach (leftOf s.dev c) s.dev fun d h => haulEndDue d h m) c m))))

/-- R310 to R323, R338, R548, R549, Table 9-4: hoist. A request that fails a check is answered at once and counted; one that passes is held
with its slabs to read. A read waits while it must or while a reply buffer has no room for it (R611), is held while the seal may still move its copy, and answers the slab, or
ST_DAMAGED after a memory error, or ST_SHARD_OFFLINE; the end reply frees the tag. Another module's reads are served likewise, and its
answers complete the entries that wait for them; unanswered reads go again after 100 µs. -/
def Obligations.HoistReadsAreAnswered : Prop :=
  (∀ (s : State) (k : PktRx) (d : Dev), Arrives 0x30 (hoistReqBad k) k s d →
    let f := hoistF (wordAt k.words 1) (wordAt k.words 2)
    let bad := hoistRsvd (wordAt k.words 1) (wordAt k.words 2)
    (∀ jb m, getJob d f.job = some jb → memberOn jb k.port = some m → ∀ mb, SMap.get? jb.members m = some mb →
      (∀ n st, hoistCheck d f bad (some (jb, m)) = some (n, st) → Gives (.hoistReq k) s
        (bump (sendPort d (homeOf d mb) { queue := f.job, vc := 3, words := hoistEndWords f.job f.tag st n 0 0 0 })
          ctrHoistRefused (memberIdx f.job m))) ∧
      (hoistCheck d f bad (some (jb, m)) = none →
        let h : Hoist := { member := m, tag := f.tag, port := homeOf d mb, region := f.region, todo := rangeFrom f.first f.n }
        Gives (.hoistReq k) s (forEach (rangeFrom f.first f.n)
          (bump (setJob d f.job { jb with hoists := jb.hoists ++ [h] }) ctrHoistReq (memberIdx f.job m))
          fun d' s => askSlab d' f.job f.region s (f.sel == 1) (hoistFmt jb m f) (m, f.tag)))) ∧
    (((getJob d f.job).bind fun jb => memberOn jb k.port) = none → Gives (.hoistReq k) s
      (sendPort d k.port { queue := f.job, vc := 3, words := hoistEndWords f.job f.tag stAuth 1 0 0 0 }))) ∧
  (∀ (s : State) (j i : Nat) (jb : Job) (e : ReadEntry), j < 64 → getJob s.dev j = some jb → jb.reads[i]? = some e → e.remote = none →
    e.held = false →
    let d := s.dev
    let gives := fun ue t => Gives (.hoistSlabRead j i ue) s (poolsSettle t)
    (readWaits jb e = true → ∀ ue, gives ue d) ∧
    (readWaits jb e = false →
      (servesShard jb = false → ∀ ue, gives ue (completeRead d j i (.status stShardOffline))) ∧
      (servesShard jb = true →
        (readHeld jb e = true → ∀ ue, gives ue (bumpBy
          (setJob d j { jb with reads := jb.reads.modify i fun e => { e with held := true } }) ctrReadHeld j (e.locals.length + e.remotes.length))) ∧
        (readHeld jb e = false → ∀ r, getRegion jb e.region = some r → replyRoom d j jb e r = false → ∀ ue, gives ue d) ∧
        (readHeld jb e = false → ∀ r, getRegion jb e.region = some r → replyRoom d j jb e r = true →
          let f := hoistFetch d j jb r e
          (∀ a, f.lost = some a → ∀ ue, gives ue (completeRead (memUeSlab f.dev j e.region e.slab a) j i (.status stDamaged))) ∧
          (f.lost = none →
            gives false (completeRead f.dev j i (readSlab jb f.r e.region e.slab e.newest e.ofmt)) ∧
            (∀ v, wantedCopy jb (getSlab r e.slab) e.newest = some v →
              gives true (completeRead (memUeSlab f.dev j e.region e.slab v) j i (.status stDamaged)))))))) ∧
  (∀ (s : State) (j m tag : Nat) (h : Hoist), j < 64 → m < 4096 → ((getJob s.dev j).bind fun jb => getHoist jb m tag) = some h →
    (h.todo ≠ [] → Gives (.hoistEnd j m tag) s s.dev) ∧
    (h.todo = [] → Gives (.hoistEnd j m tag) s (dropHoist (sendPort s.dev h.port
      { queue := j, vc := 3, words := hoistEndWords j tag stOk 0 h.sent h.damaged h.offline
        track := .hoistEnd j m tag h.sent h.damaged h.offline }) j m tag))) ∧
  (∀ (s : State) (k : PktRx) (d : Dev), Arrives 0x34 (remoteReadBad k) k s d → Gives (.remoteRead k) s (remoteReadIn d k)) ∧
  (∀ (s : State) (k : PktRx) (d : Dev), Arrives 0x35 (remoteDataBad k) k s d →
    let w1 := wordAt k.words 1
    let w2 := wordAt k.words 2
    let hd : SlabHead :=
      { region := field w1 61 48, step := field w1 47 0, slab := field w2 63 32, attempt := field w2 31 24
        ofmt := BitVec.ofNat 8 (field w2 23 16), prov := flag w2 15, base := flag w2 14, hfi := 0, tag := 0
        lanes := field (wordAt k.words 3) 10 0 }
    (∀ i, remoteEntry d (pktJob k.words) (field (wordAt k.words 3) 63 48) hd.region hd.slab = some i →
      Gives (.remoteData k) s (completeRead d (pktJob k.words) i (.data hd (k.words.drop 4) 0))) ∧
    (remoteEntry d (pktJob k.words) (field (wordAt k.words 3) 63 48) hd.region hd.slab = none → Gives (.remoteData k) s d)) ∧
  (∀ (s : State) (k : PktRx) (d : Dev), Arrives 0x36 (remoteStatusBad k) k s d →
    let w1 := wordAt k.words 1
    let en := remoteEntry d (pktJob k.words) (field w1 47 32) (field w1 61 48) (field w1 31 0)
    (∀ i, en = some i → Gives (.remoteStatus k) s (completeRead d (pktJob k.words) i (.status (field (wordAt k.words 2) 15 0)))) ∧
    (en = none → Gives (.remoteStatus k) s d)) ∧
  (∀ s : State,
    let due := fun (r : ReadEntry) => match r.remote with | some (_, t) => decide (t + 100 ≤ s.dev.nowUs) | none => false
    Gives .remoteReadResend s (forEach s.dev.jobs s.dev fun d e =>
      forEach (e.2.reads.filter due)
        (updJob d e.1 fun jb => { jb with reads := jb.reads.map fun r => if due r then { r with remote := r.remote.map fun x => (x.1, s.dev.nowUs) } else r })
        fun d r => bump (sendRemoteRead d e.1 r) ctrEndResend 0))

/-! ## Seal and abort -/

/-- R344, R552, Table 10-3: seal messages. Each is acknowledged. One of a step and attempt not reached yet is kept; one of an attempt the module
has left, or a duplicate, is spoiled (a SEAL_COMMIT of the last sealed step is still answered); any other acts once: a request, a vote or
an abort wish reaches the coordinator, a commit is written and answered (by no module that has withdrawn, R626), an acknowledgment may end the
seal, an abort begins, a query is answered with this module's state and whether it wrote, and a reply counts for the query it answers, whatever
its age (R345). -/
def Obligations.SealMessagesActOnce : Prop :=
  ∀ (s : State) (k : PktRx) (d : Dev), Arrives 0x65 (sealBad k) k s d →
    let j := pktJob k.words
    let f := sealF k.words
    let e := msgAck d k
    ∀ r ∈ [(1, Instr.sealReq k), (2, .sealVote k), (3, .abortReq k), (4, .sealCommit k), (5, .sealAck k), (6, .sealDone k),
      (7, .sealAbort k), (8, .abortAck k), (9, .sealQuery k), (10, .sealState k)],
      (f.kind ≠ r.1 → exec r.2 s = .fault .noSuchUnit) ∧
      (f.kind = r.1 → ∀ jb, getJob e j = some jb →
        let age := msgAge jb f.step f.attempt
        let id := (f.step, f.attempt, f.ord, f.kind)
        let fresh := updSeal e j fun s => { s with seen := s.seen ++ [id] }
        let st := match jb.sealSt.state with | .opened => 0 | .marked => 1 | .prepared => 2 | .aborting => 3
        (age = .early →
          (∀ o ∈ jb.early, pktType o.words = pktType k.words → wordAt o.words 1 = wordAt k.words 1 →
            field (wordAt o.words 2) 24 16 ≠ f.ord) →
          Gives r.2 s (poolsSettle (updJob e j fun jb => { jb with early := jb.early ++ [k] }))) ∧
        (age = .now → id ∉ jb.sealSt.seen → Gives r.2 s (poolsSettle (flushJob
          (if f.kind = 1 then requestSeal fresh j true
           else if f.kind = 2 then (if !isCoord jb then fresh else if f.vote then takeYes fresh j f.ord else decideAbort fresh j f.reason f.ord)
           else if f.kind = 3 then (if isCoord jb then decideAbort fresh j f.reason f.ord else fresh)
           else if f.kind = 4 then
             (if jb.sealSt.state = .aborting ∨ jb.stopped = true then fresh else sendSealOf (writeCommit fresh j) j 5 f.ord f.step f.attempt {})
           else if f.kind = 5 then trySealEnd (updSeal fresh j fun s => { s with acks := insNat f.ord s.acks }) j
           else if f.kind = 6 then fresh
           else if f.kind = 7 then beginAbort (updSeal fresh j fun s => { s with reason := f.reason, first := some f.first }) j
           else if f.kind = 8 then takeAbortAck fresh j f.ord f.step f.attempt
           else if f.kind = 9 then sendSealOf fresh j 10 f.ord f.step f.attempt { state := st }
           else if jb.sealSt.queryOf = (f.step, f.attempt) then queryAnswer fresh j f.ord f.written else fresh) j))) ∧
        (age = .last → id ∉ jb.sealSt.seen → Gives r.2 s (poolsSettle (flushJob
          (if f.kind = 4 then sendSealOf fresh j 5 f.ord f.step f.attempt {}
           else if f.kind = 5 then trySealEnd (updSeal fresh j fun s => { s with acks := insNat f.ord s.acks }) j
           else if f.kind = 6 then sealDone fresh j f.step f.attempt
           else if f.kind = 9 then sendSealOf fresh j 10 f.ord f.step f.attempt { written := 1, state := st }
           else if f.kind = 10 ∧ jb.sealSt.queryOf = (f.step, f.attempt) then queryAnswer fresh j f.ord f.written
           else fresh) j))) ∧
        ((age = .now ∨ age = .last) → id ∈ jb.sealSt.seen → Gives r.2 s (poolsSettle (flushJob
          (if age = .last ∧ f.kind = 4 then sendSealOf (bump e ctrSealDup 0) j 5 f.ord f.step f.attempt {} else bump e ctrSealDup 0) j))) ∧
        (age = .left → f.kind = 8 → awaitsAck jb.sealSt f.step f.attempt f.ord = true →
          Gives r.2 s (poolsSettle (flushJob (takeAbortAck e j f.ord f.step f.attempt) j))) ∧
        let asked := jb.sealSt.queryOf = (f.step, f.attempt) ∧ f.ord ∈ jb.sealSt.queryWait
        (age = .left → f.kind = 10 → asked → Gives r.2 s (poolsSettle (flushJob (queryAnswer e j f.ord f.written) j))) ∧
        (age = .left → (f.kind ≠ 8 ∨ awaitsAck jb.sealSt f.step f.attempt f.ord = false) → (f.kind ≠ 10 ∨ ¬ asked) → Gives r.2 s (poolsSettle (flushJob
          (if f.kind = 7 then sendSealOf (bump e ctrSealDup 0) j 8 f.ord f.step f.attempt {} else bump e ctrSealDup 0) j))))

/-- R72, R335, R340, R350, R275, R552: a module votes YES when every condition of the vote holds, to itself where it is the coordinator; the abort scan,
once the writes begun are complete, empties the attempt's copies, lets held reads go and sends PARITY_DROP; a MSG_ACK ends what is kept under
its number, and what is unacknowledged for 100 µs goes again. -/
def Obligations.VotesScansAndMessageAcks : Prop :=
  (∀ (s : State) (j : Nat) (jb : Job), j < 64 → getJob s.dev j = some jb →
    let d := s.dev
    (voteReady d j jb = false → Gives (.voteYes j) s (flushJob d j)) ∧
    (voteReady d j jb = true →
      let e := setJob d j { jb with sealSt := { jb.sealSt with state := .prepared } }
      Gives (.voteYes j) s (flushJob
        (if coordinator jb = jb.ordinal then takeYes e j jb.ordinal else sendSeal e j 2 (coordinator jb) { vote := 1 }) j)) ∧
    (jb.sealSt.state = .aborting → jb.sealSt.scanDone = false → jb.writes = [] →
      let hs := jb.sealSt.holders.filter fun h => !d.parity.lost.contains h
      let a := dropHeld (releaseReads (abortScan d j) j) j fun h => h.ptype == 0x40 && h.key.getD 0 1 == 0
      let b := updSeal a j fun s => { s with scanDone := true, dropWait := hs }
      Gives (.abortScanComplete j) s (flushJob (finishAbort (forEach hs b fun d h => sendCtl d j h 2 jb.stepCur jb.attempt) j) j)) ∧
    ((jb.sealSt.state ≠ .aborting ∨ jb.sealSt.scanDone = true ∨ jb.writes ≠ []) → Gives (.abortScanComplete j) s (flushJob d j))) ∧
  (∀ (s : State) (k : PktRx) (d : Dev), Arrives 0x66 (msgAckBad k) k s d →
    let w1 := wordAt k.words 1
    Gives (.msgAck k) s (dropHeld d (pktJob k.words) fun h =>
      h.ptype == field w1 7 0 && h.dst == field w1 24 16 && h.key == [field w1 63 32])) ∧
  (∀ s : State, Gives .msgResend s (resendHeld s.dev (fun h => decide (0x62 ≤ h.ptype) && decide (h.ptype ≤ 0x65)) fun d h =>
    bump (sendOrd d h.job h.dst h.vc h.words) ctrEndResend 0))

/-! ## Parity, withdrawal and transfers -/

/-- R72, R341, R343, R347, R348, R350, R619 to R623, R638, Table 18-2: parity between modules. A holder of a group takes each piece and acknowledges it;
an acknowledgment of a piece the module awaits ends its wait, any other changes nothing; PARITY_APPLY and PARITY_DROP are carried out and
answered with their acknowledgment; those acknowledgments end the wait of the seal or of the abort; what waits 100 µs goes again. Where a
write of held parity finds a stripe that does not decode, the stripe meets its effect (R286). -/
def Obligations.ParityPiecesAreHeldAndAcknowledged : Prop :=
  (∀ (s : State) (k : PktRx) (d : Dev), Arrives 0x40 (parityDeltaBad k) k s d →
    (d.parity.group = none → Gives (.parityDelta k) s (settleLost d)) ∧
    (d.parity.group ≠ none →
      let t := takePiece d (pieceOf k.words)
      Gives (.parityDelta k) s (settleLost (sendAddr t.1 4 (pktJob k.words) k.src
        (mkPacket 0x41 (pktJob k.words) ((k.words.drop 1).take 4 ++ [mkWord [(bit t.2.2, 16), (t.2.1, 0)]])))))) ∧
  (∀ (s : State) (k : PktRx) (d : Dev), Arrives 0x41 (parityAckBad k) k s d →
    let j := pktJob k.words
    let p := pieceOf k.words
    let sl := field (wordAt k.words 4) 63 32
    ∀ jb c, getJob d j = some jb → chunkOf p.row p.pos = some c →
      let w := 131072 * c + p.off
      let mine := fun (h : Held) => h.ptype == 0x40 && h.key == [bit p.base, p.step, p.attempt, p.region, sl, w]
      ((p.key ≠ jobKey jb ∨ jb.held.any mine = false) → Gives (.parityAck k) s (poolsSettle d)) ∧
      (p.key = jobKey jb → jb.held.any mine = true → Gives (.parityAck k) s (poolsSettle (baseSettle (updJob (dropHeld d j mine) j fun jb =>
        if p.base then { jb with baseWait := jb.baseWait.filter (· != (p.region, sl, w)) }
        else { jb with deltaWait := jb.deltaWait.filter (· != (p.region, sl, w)) }) j)))) ∧
  (∀ (s : State) (k : PktRx) (d : Dev), Arrives 0x42 (parityCtlBad k) k s d →
    let j := pktJob k.words
    let t := ctlStep k.words
    let ans := fun (e : Dev) n => sendAddr e 4 j k.src (mkPacket 0x42 j ((k.words.drop 1).take 2 ++ [mkWord [(n, 0)]]))
    (ctlKind k.words = 1 → Gives (.parityApply k) s (ans (settleLost (applyStep d t)) 3)) ∧
    (ctlKind k.words = 2 → Gives (.parityDrop k) s (ans (dropStep d t) 4)) ∧
    (∀ n i, (n = 1 ∧ i = Instr.applyAck k ∨ n = 2 ∧ i = .dropAck k) → ctlKind k.words = n + 2 →
      ∀ jb h, getJob d j = some jb → posOfAddr d k.src = some h →
        let mine := fun (x : Held) => x.ptype == 0x42 && x.dst == h && x.key == [n, t.step, t.attempt]
        let e := dropHeld d j mine
        (t.key = jobKey jb → jb.held.any mine = true → Gives i s
          (if n = 1 then updSeal e j fun s => { s with applyWait := delNat h s.applyWait }
           else flushJob (finishAbort (updSeal e j fun s => { s with dropWait := delNat h s.dropWait }) j) j)) ∧
        ((t.key ≠ jobKey jb ∨ jb.held.any mine = false) → Gives i s (if n = 1 then d else flushJob d j)))) ∧
  (∀ s : State,
    let a := resendHeld s.dev (fun h => h.ptype == 0x40 || h.ptype == 0x42) fun d h => bump (sendPos d h.job h.dst h.words) ctrEndResend 0
    let b := resendHeld a (fun h => h.ptype == 0x45 || h.ptype == 0x46) fun d h => sendMember d h.job h.dst 4 h.words .none
    Gives .vc4Resend s (forEach (SMap.keys b.jobs) (resendClaims b) resendRows))

/-- R624 to R628, R704, Table 18-2: liveness and claims. LIVE from the watched module restarts its watch and no other does; a declaration of a
job's ordinal or a group's position under its key is final, and one of an ordinal declared before is counted only (in WITHDRAWN_SPOIL, the
model's choice, log 62: Table 18-5 names no counter); a watch that runs out declares the watched module; LIVE goes out every 5 ms; claims are taken, and their
answers end the claims they answer. -/
def Obligations.LivenessAndClaims : Prop :=
  (∀ (s : State) (k : PktRx) (d : Dev), Arrives 0x48 (livenessBad k) k s d →
    let w2 := wordAt k.words 2
    let j := pktJob k.words
    (liveKind k.words = 1 →
      (∀ jb, field w2 63 62 = 1 → getJob d j = some jb →
        (jobKey jb = wordAt k.words 1 → nextUp jb.ordinal (liveOrds jb) = some (field w2 8 0) →
          Gives (.live k) s (setJob d j { jb with liveRx := d.nowUs })) ∧
        ((jobKey jb ≠ wordAt k.words 1 ∨ nextUp jb.ordinal (liveOrds jb) ≠ some (field w2 8 0)) → Gives (.live k) s d)) ∧
      (∀ g, field w2 63 62 = 2 → d.parity.group = some g →
        (groupId g = wordAt k.words 1 → nextUp g.pos (livePos d) = some (field w2 8 0) →
          Gives (.live k) s { d with parity := { d.parity with liveRx := d.nowUs } }) ∧
        ((groupId g ≠ wordAt k.words 1 ∨ nextUp g.pos (livePos d) ≠ some (field w2 8 0)) → Gives (.live k) s d))) ∧
    (liveKind k.words = 2 →
      (∀ jb, field w2 63 62 = 1 → getJob d j = some jb → Gives (.withdrawn k) s (poolsSettle (flushAll
        (if jobKey jb ≠ wordAt k.words 1 then d
         else if field w2 24 16 ∈ jb.withdrawn then bump d ctrWithdrawnSpoil j else markWithdrawn d j (field w2 24 16))))) ∧
      (∀ g, field w2 63 62 = 2 → d.parity.group = some g → Gives (.withdrawn k) s (poolsSettle (flushAll
        (if groupId g = wordAt k.words 1 then markLost d (field w2 24 16) else d)))))) ∧
  (∀ s : State,
    (let a := forEach (SMap.keys s.dev.jobs) s.dev jobLive
     ((s.dev.parity.group = none ∨ s.dev.parity.out = true ∨ s.dev.nowUs < s.dev.parity.liveTx + 5000) → Gives .liveTimer s a) ∧
     (∀ g p, s.dev.parity.group = some g → s.dev.parity.out = false → s.dev.parity.liveTx + 5000 ≤ s.dev.nowUs →
       nextDown g.pos (livePos s.dev) = some p →
       Gives .liveTimer s (sendGroupLive { a with parity := { a.parity with liveTx := s.dev.nowUs } } p 1 0))) ∧
    (∀ j jb, j < 64 → getJob s.dev j = some jb →
      ((jb.q < 2 ∨ jb.stopped = true ∨ s.dev.nowUs < jb.liveRx + 50000) → Gives (.liveWatchTimeout j) s s.dev) ∧
      (∀ q, 2 ≤ jb.q → jb.stopped = false → jb.liveRx + 50000 ≤ s.dev.nowUs → nextUp jb.ordinal (liveOrds jb) = some q →
        Gives (.liveWatchTimeout j) s (poolsSettle (flushJob (declareWithdrawn s.dev j q) j)))) ∧
    (∀ g p, s.dev.parity.group = some g → s.dev.parity.out = false → s.dev.parity.liveRx + 50000 ≤ s.dev.nowUs →
      nextUp g.pos (livePos s.dev) = some p → Gives (.liveWatchTimeout 64) s (poolsSettle (flushAll (declareLost s.dev p)))) ∧
    (∀ j, 64 < j → exec (.liveWatchTimeout j) s = .fault .noSuchUnit)) ∧
  (∀ (s : State) (k : PktRx) (d : Dev), Arrives 0x4A (claimBad k) k s d →
    let w2 := wordAt k.words 2
    (flag w2 61 = false → Gives (.claim k) s (if field w2 63 62 = 1 then claimJobIn d k else claimGroupIn d k)) ∧
    (flag w2 61 = true →
      let mine := fun (c : ClaimOut) => c.scope == field w2 63 62 && (field w2 63 62 == 2 || c.job == pktJob k.words) && c.addr == some k.src
      (d.parity.claims.find? mine = none → Gives (.claimAnswer k) s (poolsSettle d)) ∧
      (∀ c, d.parity.claims.find? mine = some c →
        let e := { d with parity := { d.parity with claims := d.parity.claims.filter fun x => !mine x } }
        let inUse := field w2 47 32 != stOk
        (field w2 63 62 = 2 → (inUse = false ∨ d.parity.ready = false) → Gives (.claimAnswer k) s (poolsSettle e)) ∧
        (field w2 63 62 = 2 → inUse = true → d.parity.ready = true → Gives (.claimAnswer k) s (poolsSettle
          (raiseTrap { e with start := { e.start with claimBad := true } }
            { cause := 0xB4, kind := 8, unit := c.target, details := [wordAt k.words 3] }))) ∧
        (field w2 63 62 = 1 → Gives (.claimAnswer k) s (poolsSettle (claimsSettle (updRebuild e (pktJob k.words) fun b =>
          { b with waiting := delNat c.target b.waiting
                   refused := b.refused || inUse
                   answers := if inUse then b.answers else b.answers ++ [(c.target, wordAt k.words 4, field w2 55 48, field w2 57 56)] })
          (pktJob k.words)))))))

/-- R449, R629, R630, R633, R635, R637, Table 18-2: rows and slabs between modules and storage. A module of a group answers each row asked for; bytes of a
row are counted and pushed into parity, or taken into the row they belong to and settle the rebuild; a slab for a load ends its request
and is taken, or is missed where its array or format is another; an answer to a snapshot's packet settles or fails the snapshot;
a storage member silent for 10 s ends its transfers. -/
def Obligations.RowsAndSlabsAreTransferred : Prop :=
  (∀ (s : State) (k : PktRx) (d : Dev), Arrives 0x43 (rebuildReqBad k) k s d →
    let w2 := wordAt k.words 2
    (d.parity.group = none → Gives (.rebuildReq k) s (settleLost d)) ∧
    (d.parity.group ≠ none → Gives (.rebuildReq k) s (settleLost (forEach (rangeFrom (field w2 49 23) (field w2 15 0 + 1)) d fun d row =>
      answerRow d k (field w2 63 50) row (field (wordAt k.words 3) 47 0))))) ∧
  (∀ (s : State) (k : PktRx) (d : Dev), Arrives 0x44 (rebuildDataBad k) k s d →
    let a := bumpBy d ctrRebuildBytes 0 (field (wordAt k.words 4) 13 0)
    (flag (wordAt k.words 2) 3 = true → Gives (.rebuildData k) s (poolsSettle (settleLost (pushIn a k)))) ∧
    (flag (wordAt k.words 2) 3 = false → Gives (.rebuildData k) s (poolsSettle (settleLost (rowIn a k))))) ∧
  (∀ (s : State) (k : PktRx) (d : Dev), Arrives 0x45 (slabXferBad k) k s d →
    let w := k.words
    let j := pktJob w
    let kind := field (wordAt w 3) 31 30
    let rn := field (wordAt w 2) 61 48
    let sl := field (wordAt w 3) 63 32
    let a := field (wordAt w 2) 63 62
    ∀ jb m l r, getJob d j = some jb → memberOn jb k.port = some m →
      loadFor jb m kind rn (wordAt w 1) (field (wordAt w 2) 47 0) = some l → getRegion jb rn = some r →
      let want := l.pending.find? fun f => f.region == rn && f.slab == sl
      (want = none → Gives (.slabXfer k) s (poolsSettle (settleLost d))) ∧
      (∀ f, want = some f →
        (((loadArrays l r).contains a = false ∨ field (wordAt w 3) 28 21 ≠ (r.fmts.getD a 0).toNat) →
          Gives (.slabXfer k) s (poolsSettle (settleLost (missSlab (answered d j kind rn sl jb.q) j kind rn sl)))) ∧
        ((loadArrays l r).contains a = true → field (wordAt w 3) 28 21 = (r.fmts.getD a 0).toNat →
          Gives (.slabXfer k) s (poolsSettle (settleLost (takePart (answered d j kind rn sl jb.q) j l r f (2 * a + field (wordAt w 3) 29 29)
            (field (wordAt w 4) 48 48) (field (wordAt w 4) 47 0) (w.drop 5))))))) ∧
  (∀ (s : State) (k : PktRx) (d : Dev), Arrives 0x47 (xferAckBad k) k s d →
    let w3 := wordAt k.words 3
    let rn := field (wordAt k.words 2) 61 48
    let j := pktJob k.words
    let step := field (wordAt k.words 2) 47 0
    ∀ jb m, getJob d j = some jb → memberOn jb k.port = some m →
      let mine := fun (h : Held) => h.ptype == 0x45 && h.dst == m && h.key == [0, field w3 29 28, field w3 27 27, rn, field w3 63 32, step]
      (field w3 31 30 = 0 →
        (jb.held.any mine = false → Gives (.xferAck k) s d) ∧
        (jb.held.any mine = true → field w3 15 0 = stOk → Gives (.xferAck k) s (snapSettle (dropHeld d j mine) j)) ∧
        (jb.held.any mine = true → field w3 15 0 ≠ stOk → Gives (.xferAck k) s (failSnap d j))) ∧
      (∀ l, field w3 31 30 ≠ 0 → loadFor jb m (field w3 31 30) rn (wordAt k.words 1) step = some l →
        field w3 15 0 = stIllegal → (l.pending.any fun f => f.region == rn && f.slab == field w3 63 32) = true →
        Gives (.xferAck k) s (missSlab (answered d j (field w3 31 30) rn (field w3 63 32) jb.q) j (field w3 31 30) rn (field w3 63 32)))) ∧
  (∀ s : State, Gives .xferTimeout s (poolsSettle (forEach (SMap.keys s.dev.jobs) s.dev xferLapse)))

/-- R671, R675 to R680, Table 20-7: recording and replay over ports. A member's read is answered with the bytes asked for, as the memory gives them; bytes of a
replay from its port are joined in order, the rest of a short answer asked for again; requests of 1 ms age go again; a source
port not UP for 1 s ends its replay; a mirror port not UP for 10 ms loses the records held for it, of recordings that ended first. Residues of a seam that takes an injected
copy add their effect where they disagree (R190). -/
def Obligations.RecordsAreReadMirroredAndReplayed : Prop :=
  (∀ (s : State) (k : PktRx) (d : Dev), Arrives 0x51 (recReadBad k) k s d → ∀ jb, getJob d (pktJob k.words) = some jb →
    let off := wordAt k.words 1
    let n := field (wordAt k.words 2) 31 0
    let answer := fun (ws : List W64) => mkPacket 0x50 (pktJob k.words) ([off, mkWord [(pktJob k.words, 32), (8 * ws.length, 0)]] ++ ws)
    let a := recFetch d (pktJob k.words) jb off.toNat n
    Gives (.recRead k) s (enqueue a.2 k.port { queue := pktJob k.words, vc := 5, words := answer a.1 }) ∧
    ((∀ u n, (getMem d u).errs = [] ∧ failedChans d u = [] ∧ erasures d u n = []) → Gives (.recRead k) s
      (enqueue d k.port { queue := pktJob k.words, vc := 5, words := answer (recSlice (recBuffer jb) off.toNat n) }))) ∧
  (∀ (s : State) (k : PktRx) (d : Dev), Arrives 0x53 (replayDataBad k) k s d → ∀ jb rp, getJob d (pktJob k.words) = some jb →
    jb.replay = some rp →
    let j := pktJob k.words
    let off := (wordAt k.words 1).toNat
    let ws := k.words.drop 3
    let ask := rp.asked.find? fun a => a.1 == off
    ((rp.active = false ∨ rp.port ≠ k.port ∨ ws = [] ∨ ask = none) → Gives (.replayData ⟨k, none⟩) s d) ∧
    (∀ a, ask = some a → rp.active = true → rp.port = k.port → ws ≠ [] → 8 * ws.length ≤ a.2.1 →
      let n := a.2.1 - 8 * ws.length
      let rp2 := joinAhead (rp.ahead.length + 1) { rp with asked := rp.asked.erase a, ahead := SMap.set rp.ahead off ws }
      let e := setJob d j { jb with replay := some rp2 }
      Gives (.replayData ⟨k, none⟩) s (replayPump (if n = 0 then e else askReplay e j rp.port (off + 8 * ws.length) n) j)) ∧
    (∀ t (r : SeamAt), Gives (.replayData ⟨k, none⟩) s t → Gives (.replayData ⟨k, some r⟩) s
      (if residuesDiffer r.found then residueErr t r.ctx r.slab r.pass r.found.lane (stageCode r.found.what) else t))) ∧
  (∀ s : State,
    Gives .replayReqResend s (forEach (SMap.keys s.dev.jobs) s.dev resendReplay) ∧
    Gives .replayPortTimeout s (forEach (SMap.keys s.dev.jobs) s.dev replayPortEnd) ∧
    (∀ j jb, j < 64 → getJob s.dev j = some jb →
      let a := forEach jb.recEnded s.dev fun d _ => onEnded d j recMirrorLapse
      (∀ r, (getJob a j).bind (·.recd) = some r → recMirrorDown a r = true → r.heldQ ≠ [] →
        let n := r.heldQ.length
        Gives (.recMirrorTimeout j) s
          (recUnhold (bumpBy a ctrRecDrop j n) j { r with dropped := r.dropped + n, drops := r.drops + n })) ∧
      ((∀ r, (getJob a j).bind (·.recd) = some r → recMirrorDown a r = false ∨ r.heldQ = []) → Gives (.recMirrorTimeout j) s a)) ∧
    (∀ j, j < 64 → getJob s.dev j = none → Gives (.recMirrorTimeout j) s s.dev))

/-! ## Fabric, pools, repair, management -/

/-- R540, R579 to R583, R586, R587: the torus. A packet for another module goes on with HOPS less one, or is spoiled and counted, and one
for this module is left to the row of its type; a held packet is
routed or spoiled after 100 µs; a newer RING_STATE of the module's line replaces its entry, is counted and goes on while its TTL
lasts, an older one changes nothing; entries lapse after 350 ms; a pair that may be released is, a release of 2 s is undone with a trap. -/
def Obligations.FabricRowsRouteMapAndRelease : Prop :=
  (∀ (s : State) (k : PktRx), k.port < 288 →
    let d := takeArrived s.dev k
    let vc := typeVc (pktType k.words)
    let others := hasEnvelope (getPort s.dev k.port).role vc = true ∧ k.dst ≠ ownAddr s.dev
    (¬ others → Gives (.transitPacket k) s s.dev) ∧
    (others → spoilsAt s.dev k = true → Gives (.transitPacket k) s (bump d ctrCableSpoil k.port)) ∧
    (others → spoilsAt s.dev k = false → k.hops ≤ 1 → Gives (.transitPacket k) s (bump d ctrRouteDrop 0)) ∧
    (others → spoilsAt s.dev k = false → 1 < k.hops → Gives (.transitPacket k) s
      (routeOrHold d vc (pktJob k.words) k.dst (mkWord [(k.dst, 48), (k.src, 32), (k.hops - 1, 24)] :: k.words)))) ∧
  (∀ (s : State) (k : PktRx) (d : Dev), Arrives 0x70 (ringBad k) k s d → field (wordAt k.words 1) 63 56 = 2 →
    let w1 := wordAt k.words 1
    let axis := field w1 49 48
    let src := field w1 8 0
    let key := 8 * axis + coord src axis
    let e : RingEntry :=
      { seq := field w1 47 40, plusN := field w1 28 24, minusN := field w1 23 19, plusNext := field w1 18 15, minusNext := field w1 14 11
        at_ := d.nowUs }
    let a := bump { d with fabric := { d.fabric with ring := SMap.set d.fabric.ring key e } } ctrRingStateRx axis
    let newer := ∀ o, SMap.get? d.fabric.ring key = some o →
      1 ≤ (field w1 47 40 + 256 - o.seq) % 256 ∧ (field w1 47 40 + 256 - o.seq) % 256 ≤ 127
    ((¬ newer ∨ sameLine axis src (ownAddr d) = false) → Gives (.ringState k) s d) ∧
    (newer → sameLine axis src (ownAddr d) = true →
      ((field w1 39 36 = 0 ∨ src = ownAddr d) → Gives (.ringState k) s a) ∧
      (field w1 39 36 ≠ 0 → src ≠ ownAddr d →
        let out := (trunksOn a axis ((planOf d k.port).dir != 0)).head?
        (out = none → Gives (.ringState k) s a) ∧
        let w := ringWord axis e.seq (field w1 39 36 - 1) e.plusN e.minusN e.plusNext e.minusNext src
        (∀ p, out = some p → Gives (.ringState k) s (enqueue a p { queue := 64, vc := 7, words := [commonWord 0x70 0 16, w] }))))) ∧
  (∀ s : State,
    let d := s.dev
    let due := fun (h : RouteHold) => decide (h.since + 100 ≤ d.nowUs)
    Gives .routeHoldExpiry s
      (forEach (d.fabric.holds.filter due) { d with fabric := { d.fabric with holds := d.fabric.holds.filter fun h => !due h } } fun e h =>
        (routeNow e h.vc h.job h.dst h.words).getD (bump e ctrRouteDrop 0)) ∧
    (linksOn d = true → d.fabric.ringAt + 100000 ≤ d.nowUs → Gives .ringStateTimer s
      (forEach [0, 1, 2] { d with fabric := { d.fabric with ringAt := d.nowUs } } sendRing)) ∧
    Gives .ringMapLapse s
      { d with fabric := { d.fabric with ring := SMap.keep (fun _ e => decide (d.nowUs < e.at_ + 350000)) d.fabric.ring } } ∧
    (∀ q, q < 16 →
      (mayRelease d q = true → Gives (.bypassRelease q) s (settleLinks d (bump (unjoinPair d q) ctrBypassReleases q))) ∧
      (mayRelease d q = false → Gives (.bypassRelease q) s (settleLinks d d))) ∧
    (∀ q, 16 ≤ q → exec (.bypassRelease q) s = .fault .noSuchUnit) ∧
    Gives .bypassReleaseTimeout s (settleLinks d (forEach (List.range 16) d fun e q =>
      let a := pairDone e q
      let x := a.fabric.pairs.getD q {}
      if x.st = .releasing ∧ x.startAt + 2000000 ≤ a.nowUs then
        raiseTrap (bump (joinPair a q fun x => { x with reverted := true }) ctrBypassReverts q) { cause := 0x91, kind := 7, unit := q }
      else a)))

/-- R593 to R598, R601, R614, Tables 17-1 to 17-3: the buffer pools. A request of an unprivileged pool takes its lowest free buffer with one reference for
its requester and job, unless the pool is empty or the job at its cap; a privileged pool that is closed, empty or past a quota gives none and
raises PRIV_EMPTY, but that a failure of the trap unit in pool 63 loses a trap (R601) and one of pool 61 ends the procedure that asked
(R614; which that is, is the model's choice, log 107); ADDREF counts up to 255; RELEASE counts down and frees at 0; a
handle of no buffer raises POOL_FAULT and changes no buffer. -/
def Obligations.PoolsGiveCountAndFree : Prop :=
  ∀ (s : State),
    let d := s.dev
    let ans := fun (e : Dev) h => { e with pools := { e.pools with answer := h } }
    let failed := fun (p r : Nat) (j : Option Nat) (e : Dev) =>
      if p = 63 ∧ r = 6 then ans (bump e ctrTrapLost 0) none
      else
        let x := ans (raiseTrap e { cause := 0xA1, kind := 9, unit := p, details := [BitVec.ofNat 64 r] }) none
        if p = 61 then poolsSettle (procFails x j) else x
    (∀ p r j, p < 64 → isRequester r = true → (∀ n, j = some n → n < 64) →
      (poolPriv p = false → (∀ n cap, j = some n → poolJobCap p = some cap → poolHeld d p (fun b => b.job == some n) < cap) →
        (∀ h, SMap.firstFree d.pools.bufs (2 ^ 18 * p) (poolCount p) = some h →
          ∃ t, Gives (.alloc p r j) s t ∧ t.pools.answer = some h ∧ SMap.get? t.pools.bufs h = some { refs := 1, req := r, job := j } ∧
            (∀ g, g ≠ h → SMap.get? t.pools.bufs g = SMap.get? d.pools.bufs g) ∧ t.jobs = d.jobs ∧ t.mgmt = d.mgmt) ∧
        (SMap.firstFree d.pools.bufs (2 ^ 18 * p) (poolCount p) = none → Gives (.alloc p r j) s (ans (bump d ctrPoolEmpty p) none))) ∧
      (∀ n cap, j = some n → poolPriv p = false → poolJobCap p = some cap → cap ≤ poolHeld d p (fun b => b.job == some n) →
        Gives (.alloc p r j) s (ans (bump (bump (bump d ctrPoolEmpty p) ctrJobCapHit (64 * n + p)) ctrQuotaHit (16 * n + 11)) none)) ∧
      (poolPriv p = true → poolOpen d p = true → poolHeld d p (fun b => b.req == r) < poolQuota p r → ∀ i l, poolStack d p = i :: l →
        ∃ t, Gives (.alloc p r j) s t ∧ t.pools.answer = some (2 ^ 18 * p + i) ∧
          SMap.get? t.pools.bufs (2 ^ 18 * p + i) = some { refs := 1, req := r, job := none } ∧ SMap.get? t.pools.frees p = some l) ∧
      (poolPriv p = true → poolOpen d p = true → poolHeld d p (fun b => b.req == r) < poolQuota p r → poolStack d p = [] →
        Gives (.alloc p r j) s (failed p r j (bump d ctrPoolEmpty p))) ∧
      (poolPriv p = true → (poolOpen d p = false ∨ poolQuota p r ≤ poolHeld d p (fun b => b.req == r)) →
        Gives (.alloc p r j) s (failed p r j (bump (bump d ctrPoolEmpty p) ctrPrivDeny (64 * p + r))))) ∧
    (∀ h r, h < 2 ^ 24 → isRequester r = true →
      (∀ b, SMap.get? d.pools.bufs h = some b →
        (b.refs < 255 → Gives (.addref h r) s
          { d with pools := { d.pools with bufs := SMap.set d.pools.bufs h { b with refs := b.refs + 1 }, answer := some h } }) ∧
        (255 ≤ b.refs → Gives (.addref h r) s (ans (bump d ctrRefSat (h / 2 ^ 18)) none)) ∧
        (1 < b.refs → Gives (.releaseBuf h r) s
          { d with pools := { d.pools with bufs := SMap.set d.pools.bufs h { b with refs := b.refs - 1 }, answer := some h } }) ∧
        (b.refs ≤ 1 → ∃ t, Gives (.releaseBuf h r) s t ∧ t.pools.answer = some h ∧
          (SMap.wf d.pools.bufs = true → SMap.get? t.pools.bufs h = none) ∧
          (∀ g, g ≠ h → SMap.get? t.pools.bufs g = SMap.get? d.pools.bufs g) ∧
          (∀ q, poolStack t q = if q = h / 2 ^ 18 ∧ poolPriv q = true then h % 2 ^ 18 :: poolStack d q else poolStack d q) ∧
          t.counters = d.counters ∧ t.jobs = d.jobs ∧ t.mgmt = d.mgmt)) ∧
      (SMap.get? d.pools.bufs h = none → ∀ i ∈ [Instr.addref h r, .releaseBuf h r],
        Gives i s (raiseTrap (ans d none)
          { cause := 0xA0, kind := 9, unit := h / 2 ^ 18 % 64, details := [BitVec.ofNat 64 h, BitVec.ofNat 64 r] }))) ∧
    (∀ p r j, (64 ≤ p ∨ isRequester r = false) → exec (.alloc p r j) s = .fault .noSuchUnit)

/-- R62, R195, R266, R284 to R286, R641 to R652, Table 19-3: repair. A trigger retires the unit it names and what stood on it follows, a slice
or channel once its counts have reached the limits of Table 19-3 and not before; a lost stack withdraws the module; residues that disagree act
where an open context works; the retries of a lane group are counted, and one that fails brings in the spare group, then, with none left,
degrades its link, then loses it; a worn laser traps once for a position and fails it at the limit; a rebuilt channel works; the scrubber goes
on by the stripes of its walk, reads each that an error has struck and, during a rebuild, each not built yet, and one that does not decode has
the effects of what it held; the built-in test retires the seam that failed. -/
def Obligations.RepairRetiresWhatFails : Prop :=
  ∀ (s : State),
    let d := s.dev
    let settled := fun (e : Dev) => settleLinks d (poolsSettle (flushAll e))
    (∀ p, p < 288 →
      let lost := ((getPort d p).fecLost.filter fun e => decide (d.nowUs < e.1 + 3600000000)).foldl (fun a e => a + e.2) 0
      ((3 ≤ (getPort d p).trainErr ∨ 1000 < lost) → Gives (.repairTrigger (.slice p)) s (settled (retireSlice d p))) ∧
      ((getPort d p).trainErr < 3 → lost ≤ 1000 → Gives (.repairTrigger (.slice p)) s (settleLinks d d)) ∧
      Gives (.repairTrigger (.position p)) s (settled
        (if posState d p = 2 then d
         else
           let a := portDown d p none
           commitRepair { a with spare := { a.spare with posState := SMap.set a.spare.posState p 2 } } false 1 p))) ∧
    (∀ n, n < 36 → Gives (.repairTrigger (.engine n)) s (settled
      (forEach (rangeFrom (8 * n) 8) (forEach (rangeFrom (8 * n) 8) d fun e p => portDown e p (some 7)) failPosition))) ∧
    (∀ n, n < 144 → Gives (.repairTrigger (.seam n)) s (settled (retireSeam d n))) ∧
    (∀ c, c < 9 → Gives (.repairTrigger (.combineDie c)) s (settled (retireDie d c))) ∧
    (∀ k, k < 16 → Gives (.repairTrigger (.stack k)) s (settled (loseStack d k))) ∧
    (∀ r : SeamAt, r.ctx < 16384 →
      let x := getCtx d r.ctx
      (x.state = .opened → r.slab < x.p.nslab → r.pass < x.p.npass → residuesDiffer r.found = true →
        Gives (.repairTrigger (.residue r)) s (settled (residueErr d r.ctx r.slab r.pass r.found.lane (stageCode r.found.what)))) ∧
      ((x.state ≠ .opened ∨ x.p.nslab ≤ r.slab ∨ x.p.npass ≤ r.pass) → Gives (.repairTrigger (.residue r)) s (settleLinks d d))) ∧
    (∀ c, c < 256 →
      let near := fun (l : List (Nat × Nat)) (keep : Nat) => l.filter fun e => decide (d.nowUs < e.1 + keep)
      let corrected := (near (SMap.getD d.spare.chanCes c []) 86400000000).foldl (fun a e => a + e.2) 0
      let erased := ((near (SMap.getD d.spare.chanErs c []) 1000000).map (·.2)).eraseDups.length
      ((10000 < corrected ∨ 3 ≤ erased ∨ d.start.phase = .memory) →
        Gives (.repairTrigger (.channel c)) s (settled (retireChannel d c))) ∧
      (corrected ≤ 10000 → erased < 3 → d.start.phase ≠ .memory → Gives (.repairTrigger (.channel c)) s (settleLinks d d)) ∧
      ((chanRec d c).st ≠ 2 → Gives (.channelRebuildDone c) s (poolsSettle d)) ∧
      ((chanRec d c).st = 2 → Gives (.channelRebuildDone c) s (poolsSettle (channelDone d c)))) ∧
    (∀ l, l < 512 → Gives (.repairTrigger (.updateLane l)) s (settled (retireLane d l))) ∧
    (∀ die bank row u a, triggerOk (.sramRow die bank row u a) = true →
      Gives (.repairTrigger (.sramRow die bank row u a)) s (settled (sramRow d die bank row u a))) ∧
    (∀ l, l < 301 →
      (∀ n, 1 ≤ n → n ≤ 8 → (linkRec d l).st = 3 → Gives (.laneGroupFail ⟨l, n⟩) s (settleLinks d (flushAll d))) ∧
      (∀ n, 1 ≤ n → n < 8 → (linkRec d l).st ≠ 3 →
        Gives (.laneGroupFail ⟨l, n⟩) s (settleLinks d (flushAll (bumpBy d ctrLinkRetry l n)))) ∧
      ((linkRec d l).st ≠ 3 →
        let a := bump (bumpBy d ctrLinkRetry l 8) ctrLinkGroupRet l
        let put := fun st => { a with spare := { a.spare with links := SMap.set a.spare.links l { linkRec d l with st := st, groups := (linkRec d l).groups + 1 } } }
        ((linkRec d l).groups = 0 → Gives (.laneGroupFail ⟨l, 8⟩) s (settleLinks d (flushAll
          (raiseTrap (commitSpare (put 1)) { cause := 0xC0, details := [BitVec.ofNat 64 l] })))) ∧
        ((linkRec d l).groups = 1 → Gives (.laneGroupFail ⟨l, 8⟩) s (settleLinks d (flushAll
          (raiseTrap (raiseTrap (commitSpare (put 2)) { cause := 0xC1, details := [BitVec.ofNat 64 l] })
            { cause := 0xC3, details := [BitVec.ofNat 64 l] })))) ∧
        (2 ≤ (linkRec d l).groups →
          let out := match linkDie l with | some c => !(put 3).spare.dead.contains (18 + c) | none => false
          Gives (.laneGroupFail ⟨l, 8⟩) s (settleLinks d (flushAll (loseLink
            (if out then put 3 else raiseTrap (commitSpare (put 3)) { cause := 0xC1, details := [BitVec.ofNat 64 l] }) l)))))) ∧
    (∀ p level, p < 288 →
      let a := setCtr d ctrLaserBias p (BitVec.ofNat 64 level)
      let e := updPort a p fun x => { x with bias := level }
      let known := SMap.getD d.flash.source 3 3 ≠ 4
      let g := raiseTrap (saveSpare { e with spare := { e.spare with posState := SMap.set e.spare.posState p 1 } })
        { cause := 0xC4, kind := 1, unit := p }
      let h := if posState d p = 0 then g else e
      ((5 * level < 6 * 1024 ∨ ¬ known) → Gives (.wear p level) s (settleLinks d e)) ∧
      (known → 6 * 1024 ≤ 5 * level → 5 * level < 7 * 1024 → Gives (.wear p level) s (settleLinks d h)) ∧
      (known → 7 * 1024 ≤ 5 * level → Gives (.wear p level) s (settleLinks d (failPosition h p)))) ∧
    (∀ u n ks, u < 4 → n ≤ dieStripes → (∀ k ∈ ks, k.stripe < dieStripes ∧ k.channel < 64) →
      (memoryUp d = false → Gives (.scrub ⟨u, n, ks⟩) s (poolsSettle (flushAll d))) ∧
      (memoryUp d = true →
        let a := bindWalk (forEach ks (settleMem d) fun e k => strike e u k) u (.service 64 3)
        let m := getMem a u
        let walk := inWalk (badStripes m) m.scrub n
        let runs := if chanNums a u 2 = [] then [] else unbuiltRuns m m.scrub n walk
        let read := if failedChans a u = [] then runs.foldl (fun a r => a + (r.2 - r.1)) 0 else n - walk.length
        let b := bumpBy a ctrOuterCorr (updDie u) read
        let e := updMem b u fun m => { m with scrub := (m.scrub + n) % dieStripes, again := [], runs := m.runs ++ runs }
        Gives (.scrub ⟨u, n, ks⟩) s (poolsSettle (flushAll
          (forEach (m.again ++ walk.filter fun x => !m.again.contains x) e fun e x => scrubStripe e u x))))) ∧
    (∀ e u n, (writeStripes e u).contains n = false → decodedStripe e u n = none →
      scrubStripe e u n = stripeLost (forEach (kindAt (stripeErrs (getMem e u) n) .soft)
        (countInner e u n (List.range 62) (stripeErrs (getMem e u) n)) fun x k => putErr x u n k.1 none) u n) ∧
    (∀ x y okx oky, x < 144 → y < 144 →
      ((d.spare.tests.any fun t => t.1 == x && t.2.1 == y && decide (t.2.2 + 200 ≤ d.nowUs)) = true →
        let e := { d with spare := { d.spare with tests := d.spare.tests.filter fun t => !(t.1 == x && t.2.1 == y) } }
        Gives (.builtinTestDone x y okx oky) s (poolsSettle (flushAll (retireSeam e (if okx && !oky then y else x))))) ∧
      ((d.spare.tests.any fun t => t.1 == x && t.2.1 == y && decide (t.2.2 + 200 ≤ d.nowUs)) = false →
        Gives (.builtinTestDone x y okx oky) s (poolsSettle (flushAll d)))) ∧
    (∀ n, 144 ≤ n → exec (.repairTrigger (.seam n)) s = .fault .noSuchUnit)

/-- R497, R499, R707, R734, R749, R751, R752: the scheduler, trap records and the management ports. The next queued node starts; a record held 600 s
is released and counted; a sink's next period and SEQ begin when its period has passed, its snapshots wait to be sent, and a stream whose last
snapshot still waits gives none; requests for an address in use are answered, a claimed address traps once, and one claimed or probed for while
it is being checked is not used; another frame is counted; a link change takes the port's addresses out of use and begins their checks, whose
packets go out (their numbers are those of the RFCs, log 104). -/
def Obligations.NodesTrapsAndManagementPorts : Prop :=
  ∀ (s : State),
    let d := s.dev
    (nextNode d = none → Gives .nodeStart s d) ∧
    (∀ b, nextNode d = some b → Gives .nodeStart s (poolsSettle (flushAll (settle (startNode d b.2.1 b.2.2.1 b.2.2.2))))) ∧
    (∀ r, SMap.get? d.mgmt.traps (d.mgmt.readTseq % 8192) = some r → d.mgmt.readTseq ≠ d.mgmt.nextTseq →
      r.at_ + 600000000 ≤ d.nowUs →
      let a := poolRelease d r.handle
      Gives .trapAge s (bump { a with mgmt := { a.mgmt with traps := SMap.del a.mgmt.traps (d.mgmt.readTseq % 8192)
                                                            readTseq := (d.mgmt.readTseq + 1) % 2 ^ 32 } } ctrTrapAged 0)) ∧
    (∀ n k, n < 4 → SMap.get? d.mgmt.sinks n = some k → k.period ≠ 0 → k.lastAt + k.period ≤ d.nowUs →
      ∃ t l, Gives (.telemetryPeriod n) s t ∧ t.jobs = d.jobs ∧
        SMap.get? t.mgmt.sinks n = some { k with seq := (k.seq + 1) % 2 ^ 32, lastAt := k.lastAt + k.period, unsent := k.unsent ++ l } ∧
        (∀ b, (∃ w, (b, w) ∈ k.unsent) → ∀ w, (b, w) ∉ l)) ∧
    (∀ p, p < 2 → p ∈ d.mgmt.linkUp →
      (∀ sha spa tpa, spa ≠ ipv4Of d p ∨ sha = BitVec.setWidth 64 (macOf d p) →
        (tpa ≠ 0 → tpa = ipv4Of d p → 3 * p ∈ d.mgmt.inUse → Gives (.arpRequest p sha spa tpa) s
          (output d (.arp p (BitVec.setWidth 64 (macOf d p)) tpa sha spa))) ∧
        ((tpa = 0 ∨ tpa ≠ ipv4Of d p ∨ 3 * p ∉ d.mgmt.inUse ∧ spa ≠ 0) → Gives (.arpRequest p sha spa tpa) s d)) ∧
      (∀ sha, ipv4Of d p ≠ 0 → sha ≠ BitVec.setWidth 64 (macOf d p) → 3 * p ∉ d.mgmt.inUse → 3 * p ∉ d.mgmt.dup →
        Gives (.arpRequest p sha 0 (ipv4Of d p)) s
          (raiseTrap { d with mgmt := { d.mgmt with dup := insNat (3 * p) d.mgmt.dup } } { cause := 0xE4 })) ∧
      (∀ sha spa, spa ≠ 0 → spa = ipv4Of d p → sha ≠ BitVec.setWidth 64 (macOf d p) → 3 * p ∉ d.mgmt.dup →
        let a := raiseTrap { d with mgmt := { d.mgmt with dup := insNat (3 * p) d.mgmt.dup } } { cause := 0xE4 }
        (3 * p ∉ d.mgmt.inUse → Gives (.addrDup p sha spa) s a) ∧
        (3 * p ∈ d.mgmt.inUse → Gives (.addrDup p sha spa) s (output
          { a with mgmt := { a.mgmt with defended := insNat (3 * p) a.mgmt.defended } }
          (.arp p (BitVec.setWidth 64 (macOf d p)) spa 0 spa)))) ∧
      (∀ src tgt k, addrKey d p tgt = some k → k % 3 ≠ 0 →
        (k ∈ d.mgmt.inUse → src ≠ 0 → Gives (.neighborDiscovery p (some src) tgt) s
          (output d (.neighbor p tgt (BitVec.setWidth 64 (macOf d p)) src))) ∧
        (k ∈ d.mgmt.inUse → Gives (.neighborDiscovery p (some 0) tgt) s
          (output d (.neighbor p tgt (BitVec.setWidth 64 (macOf d p)) (BitVec.ofNat 128 (0x02FF + 2 ^ 120))))) ∧
        (k ∈ d.mgmt.inUse → Gives (.neighborDiscovery p none tgt) s d) ∧
        (∀ from_ ∈ [none, some (0 : BitVec 128)], k ∉ d.mgmt.inUse → k ∉ d.mgmt.dup → Gives (.neighborDiscovery p from_ tgt) s
          (raiseTrap { d with mgmt := { d.mgmt with dup := insNat k d.mgmt.dup } } { cause := 0xE4 })) ∧
        (k ∉ d.mgmt.inUse → src ≠ 0 → Gives (.neighborDiscovery p (some src) tgt) s d)) ∧
      (∀ src dst id data k, addrKey d p dst = some k →
        (k ∈ d.mgmt.inUse → Gives (.echoRequest p src dst id data) s (output d (.echo p src id data))) ∧
        (k ∉ d.mgmt.inUse → Gives (.echoRequest p src dst id data) s d)) ∧
      Gives (.mgmtFrameDrop p) s (bump d ctrMgmtFrameDrop p) ∧
      (ipv4Of d p ≠ 0 → 3 * p ∉ d.mgmt.dup → Gives (.addressProbeDone p false) s
        (forEach [0, 1] { d with mgmt := { d.mgmt with inUse := insNat (3 * p) d.mgmt.inUse } } fun e _ => output e
          (.arp p (BitVec.setWidth 64 (macOf d p)) (ipv4Of d p) 0 (ipv4Of d p)))) ∧
      (3 * p + 1 ∉ d.mgmt.dup → ipv6Of d p = 0 → Gives (.addressProbeDone p true) s
        { d with mgmt := { d.mgmt with inUse := insNat (3 * p + 1) d.mgmt.inUse } }) ∧
      (3 * p + 1 ∉ d.mgmt.dup → 3 * p + 2 ∉ d.mgmt.dup → ipv6Of d p ≠ 0 → Gives (.addressProbeDone p true) s
        { d with mgmt := { d.mgmt with inUse := insNat (3 * p + 2) (insNat (3 * p + 1) d.mgmt.inUse) } })) ∧
    (∀ p, p < 2 →
      let used := d.mgmt.inUse.filter fun k => k / 3 != p
      (macsUp d = true →
        let a := { d with mgmt := { d.mgmt with linkUp := insNat p d.mgmt.linkUp, inUse := used } }
        let b := if ipv4Of d p = 0 ∨ 3 * p ∈ d.mgmt.dup then a
          else forEach [0, 1, 2] a fun e _ => output e (.arp p (BitVec.setWidth 64 (macOf d p)) 0 0 (ipv4Of d p))
        Gives (.mgmtLinkChange p true) s
          (solicitAddr (solicitAddr b p (3 * p + 1) (linkLocalOf d p)) p (3 * p + 2) (ipv6Of d p))) ∧
      (macsUp d = false → Gives (.mgmtLinkChange p true) s d) ∧
      (∀ e : Dev, ∀ k x, solicitAddr e p k x = if x = 0 ∨ k ∈ e.mgmt.dup then e else output e (.solicit p x)) ∧
      Gives (.mgmtLinkChange p false) s { d with mgmt := { d.mgmt with linkUp := delNat p d.mgmt.linkUp, inUse := used } }) ∧
    (∀ p, 2 ≤ p → exec (.mgmtFrameDrop p) s = .fault .noSuchUnit)
end

