-- ==== Sys2Proof/Laws/Sparse.lean ====
section
/-!
SUPPORT. Sys2Proof/Laws/Sparse.lean: reading a sparse table after it was written, and the canonical form that every operation
on one keeps.
-/
namespace Sys2Proof.Machine.SMap

set_option linter.all false

variable {α : Type}

@[simp] theorem get?_nil (k : Nat) : get? ([] : SMap α) k = none := rfl

theorem get?_set (m : SMap α) (k q : Nat) (v : α) : get? (set m k v) q = if k = q then some v else get? m q := by
  induction m with
  | nil => simp [set, get?]
  | cons e r ih =>
    obtain ⟨a, x⟩ := e
    simp only [set]
    split
    · simp [get?]
    · split
      · subst_vars
        by_cases h : a = q <;> simp [get?, h]
      · by_cases h : a = q
        · subst h
          simp [get?]
          omega
        · simp [get?, h, ih]

@[simp] theorem get?_set_same (m : SMap α) (k : Nat) (v : α) : get? (set m k v) k = some v := by simp [get?_set]

theorem get?_set_other (m : SMap α) {k q : Nat} (v : α) (h : k ≠ q) : get? (set m k v) q = get? m q := by simp [get?_set, h]

theorem getD_set (m : SMap α) (k q : Nat) (v d : α) : getD (set m k v) q d = if k = q then v else getD m q d := by
  simp only [getD, get?_set]
  split <;> rfl

@[simp] theorem getD_set_same (m : SMap α) (k : Nat) (v d : α) : getD (set m k v) k d = v := by simp [getD_set]

theorem get?_del_other (m : SMap α) {k q : Nat} (h : k ≠ q) : get? (del m k) q = get? m q := by
  induction m with
  | nil => rfl
  | cons e r ih =>
    obtain ⟨a, x⟩ := e
    simp only [del]
    split
    · subst_vars
      simp [get?, h]
    · by_cases g : a = q <;> simp [get?, g, ih]

theorem get?_upd (m : SMap α) (k q : Nat) (f : α → α) :
    get? (upd m k f) q = if k = q then (get? m k).map f else get? m q := by
  simp only [upd]
  cases h : get? m k with
  | none =>
    by_cases g : k = q
    · subst g; simp [h]
    · simp [g]
  | some x => simp [get?_set]

/-! ## The canonical form -/

/-- The first key of a table, if it has one, is above `k`. -/
theorem wf_cons (a : Nat) (x : α) (m : SMap α) : wf ((a, x) :: m) = ((match m with | [] => true | (b, _) :: _ => decide (a < b)) && wf m) := by
  cases m with
  | nil => rfl
  | cons e r => rfl

/-- Every key of a canonical table is above `a` when its first key is. -/
theorem wf_lt {a : Nat} {x : α} {m : SMap α} (h : wf ((a, x) :: m) = true) : ∀ e ∈ m, a < e.1 := by
  induction m generalizing a x with
  | nil => simp
  | cons e r ih =>
    obtain ⟨b, y⟩ := e
    simp only [wf, Bool.and_eq_true, decide_eq_true_eq] at h
    intro e he
    rcases List.mem_cons.mp he with rfl | he
    · exact h.1
    · exact Nat.lt_trans h.1 (ih h.2 e he)

theorem wf_tail {e : Nat × α} {m : SMap α} (h : wf (e :: m) = true) : wf m = true := by
  obtain ⟨a, x⟩ := e
  rw [wf_cons, Bool.and_eq_true] at h
  exact h.2

/-- A table is canonical when it is its tail behind a smaller key. -/
theorem wf_of_lt {a : Nat} {x : α} {m : SMap α} (hm : wf m = true) (h : ∀ e ∈ m, a < e.1) : wf ((a, x) :: m) = true := by
  cases m with
  | nil => rfl
  | cons e r =>
    obtain ⟨b, y⟩ := e
    simp only [wf, Bool.and_eq_true, decide_eq_true_eq]
    exact ⟨h (b, y) List.mem_cons_self, hm⟩

theorem mem_set {m : SMap α} {k : Nat} {v : α} {e : Nat × α} (h : e ∈ set m k v) : e = (k, v) ∨ e ∈ m := by
  induction m with
  | nil => simpa [set] using h
  | cons c r ih =>
    obtain ⟨a, x⟩ := c
    simp only [set] at h
    split at h
    · rcases List.mem_cons.mp h with h | h
      · exact .inl h
      · exact .inr h
    · split at h
      · rcases List.mem_cons.mp h with h | h
        · exact .inl h
        · exact .inr (List.mem_cons_of_mem _ h)
      · rcases List.mem_cons.mp h with h | h
        · exact .inr (h ▸ List.mem_cons_self)
        · rcases ih h with h | h
          · exact .inl h
          · exact .inr (List.mem_cons_of_mem _ h)

@[simp] theorem wf_set {m : SMap α} (k : Nat) (v : α) (h : wf m = true) : wf (set m k v) = true := by
  induction m with
  | nil => rfl
  | cons c r ih =>
    obtain ⟨a, x⟩ := c
    simp only [set]
    have hlt := wf_lt h
    split
    · exact wf_of_lt h (fun e he => by
        rcases List.mem_cons.mp he with rfl | he
        · assumption
        · have := hlt e he; omega)
    · split
      · subst_vars
        exact wf_of_lt (wf_tail h) hlt
      · refine wf_of_lt (ih (wf_tail h)) (fun e he => ?_)
        rcases mem_set he with rfl | he
        · show a < k; omega
        · exact hlt e he

/-- Leaving entries out keeps the canonical form. -/
theorem wf_sublist {m n : SMap α} (s : List.Sublist m n) (h : wf n = true) : wf m = true := by
  induction s with
  | slnil => rfl
  | cons e _ ih => exact ih (wf_tail h)
  | cons_cons e s ih =>
    obtain ⟨a, x⟩ := e
    exact wf_of_lt (ih (wf_tail h)) fun c hc => wf_lt h c (s.subset hc)

theorem del_sublist (m : SMap α) (k : Nat) : List.Sublist (del m k) m := by
  induction m with
  | nil => exact .slnil
  | cons e r ih =>
    obtain ⟨a, x⟩ := e
    simp only [del]
    split
    · exact .cons _ (List.Sublist.refl r)
    · exact .cons_cons _ ih

@[simp] theorem wf_del {m : SMap α} (k : Nat) (h : wf m = true) : wf (del m k) = true := wf_sublist (del_sublist m k) h

@[simp] theorem wf_filter {m : SMap α} (p : Nat × α → Bool) (h : wf m = true) : wf (m.filter p) = true :=
  wf_sublist List.filter_sublist h

@[simp] theorem wf_upd {m : SMap α} (k : Nat) (f : α → α) (h : wf m = true) : wf (upd m k f) = true := by
  simp only [upd]
  split
  · exact wf_set k _ h
  · exact h

theorem keep_sublist (p : Nat → α → Bool) (m : SMap α) : List.Sublist (keep p m) m := by
  induction m with
  | nil => exact .slnil
  | cons e r ih =>
    obtain ⟨a, x⟩ := e
    simp only [keep]
    split
    · exact .cons_cons _ ih
    · exact .cons _ ih

@[simp] theorem wf_keep {m : SMap α} (p : Nat → α → Bool) (h : wf m = true) : wf (keep p m) = true :=
  wf_sublist (keep_sublist p m) h

@[simp] theorem wf_mapV {m : SMap α} (f : Nat → α → α) (h : wf m = true) : wf (mapV f m) = true := by
  induction m with
  | nil => rfl
  | cons e r ih =>
    obtain ⟨a, x⟩ := e
    cases r with
    | nil => rfl
    | cons c r =>
      obtain ⟨b, y⟩ := c
      simp only [wf, Bool.and_eq_true, decide_eq_true_eq] at h
      simp only [mapV, wf, Bool.and_eq_true, decide_eq_true_eq]
      exact ⟨h.1, by simpa [mapV] using ih h.2⟩

end Sys2Proof.Machine.SMap
end

