-- ==== Sys2Proof/Laws/Aside.lean ====
section
/-!
SUPPORT. Sys2Proof/Laws/Aside.lean: what the shared work of a command (buffers, traps, sessions, segments, the final reply)
changes, and nothing else.
-/
namespace Sys2Proof.Machine

set_option linter.all false
open SMap

variable {src : CmdSrc} {a d : Dev}

theorem Queued.refl (x : Port) : Queued x x := ⟨rfl, fun _ => rfl⟩

theorem Queued.trans {x y z : Port} (h : Queued x y) (g : Queued y z) : Queued x z :=
  ⟨by rw [g.rest, h.rest], fun v => by rw [g.tx v, h.tx v]⟩

theorem getD_listSet {α : Type} (l : List α) (i j : Nat) (x y : α) :
    (listSet l i x).getD j y = if i = j ∧ i < l.length then x else l.getD j y := by
  induction l generalizing i j with
  | nil => simp [listSet]
  | cons a r ih =>
    cases i with
    | zero => cases j <;> simp [listSet]
    | succ i =>
      cases j with
      | zero => simp [listSet]
      | succ j => simpa [listSet] using ih i j

theorem startStall_queued (x : Port) (v now : Nat) : Queued x (startStall x v now) := by
  unfold startStall
  split
  · refine ⟨rfl, fun w => ?_⟩
    simp only [setTxVc, txVc, getD_listSet]
    split
    · rename_i h
      rw [h.1]
    · rfl
  · exact .refl x

theorem Aside.refl (a : Dev) : Aside src a a := by
  refine ⟨rfl, ?_, ?_⟩
  · cases src with
    | mgmt _ _ _ => rfl
    | inband p => exact fun q => ⟨.refl _, fun _ => rfl⟩
  · cases src with
    | mgmt _ _ _ => rfl
    | inband p => exact .refl _

theorem Aside.trans {a b c : Dev} (h : Aside src a b) (g : Aside src b c) : Aside src a c := by
  refine ⟨?_, ?_, ?_⟩
  · rw [g.rest, h.rest]
  · have p := h.ports
    have q := g.ports
    cases src with
    | mgmt _ _ _ => exact q.trans p
    | inband n =>
      intro x
      exact ⟨(p x).1.trans (q x).1, fun hx => ((q x).2 hx).trans ((p x).2 hx)⟩
  · have p := h.taken
    have q := g.taken
    cases src with
    | mgmt _ _ _ => exact q.trans p
    | inband n => exact List.Sublist.trans q p

theorem aside_fst {α : Type} {x : Dev × α} {b : Dev} {y : α} (e : x = (b, y)) (h : Aside src a x.1) : Aside src a b := by subst e; exact h
theorem aside_snd {α : Type} {x : α × Dev} {b : Dev} {y : α} (e : x = (y, b)) (h : Aside src a x.2) : Aside src a b := by subst e; exact h

/-- An optional device, if there is one. -/
def AsideO (src : CmdSrc) (a : Dev) (x : Option Dev) : Prop := ∀ e, x = some e → Aside src a e

theorem asideO_none : AsideO src a none := fun _ h => nomatch h
theorem asideO_some (h : Aside src a d) : AsideO src a (some d) := fun _ e => Option.some.inj e ▸ h
theorem asideO_use {x : Option Dev} {b : Dev} (e : x = some b) (h : AsideO src a x) : Aside src a b := h b e

/-- Buffers, counters and the open parts of management are written. -/
theorem aside_mk {pl ct se wa tr nt ou} (h : Aside src a d) :
    Aside src a { d with pools := pl, counters := ct,
                         mgmt := { d.mgmt with sessions := se, waiting := wa, traps := tr, nextTseq := nt, out := ou } } :=
  h.trans ⟨rfl,
    by cases src with
      | mgmt _ _ _ => rfl
      | inband p => exact fun q => ⟨.refl _, fun _ => rfl⟩,
    by cases src with
      | mgmt _ _ _ => rfl
      | inband p => exact .refl _⟩

theorem updMgmt_aside {f : Mgmt → Mgmt} (h : Aside src a d)
    (g : ∀ m, f m = { m with sessions := (f m).sessions, waiting := (f m).waiting, traps := (f m).traps, nextTseq := (f m).nextTseq,
                             out := (f m).out }) : Aside src a (updMgmt d f) := by
  unfold updMgmt
  rw [g]
  exact aside_mk h
theorem output_aside {o} (h : Aside src a d) : Aside src a (output d o) := aside_mk h
theorem setCtrWord_aside {k v} (h : Aside src a d) : Aside src a (setCtrWord d k v) := aside_mk h
theorem forEach_aside {α : Type} {l : List α} {f : Dev → α → Dev} (h : Aside src a d) (g : ∀ e x, Aside src a e → Aside src a (f e x)) :
    Aside src a (forEach l d f) := by
  induction l generalizing d with
  | nil => exact h
  | cons x r ih => exact ih (g d x h)

theorem enqueue_aside {p k} (h : Aside (.inband p) a d) : Aside (.inband p) a (enqueue d p k) := by
  refine h.trans ⟨rfl, ?_, .refl _⟩
  intro q
  by_cases hq : p = q
  · subst hq
    refine ⟨?_, fun x => absurd rfl x⟩
    have e : getPort (enqueue d p k) p = startStall { getPort d p with queue := (getPort d p).queue ++ [k] } k.vc d.nowUs := by
      simp [enqueue, updPort, setPort, getPort]
    rw [e]
    exact Queued.trans (y := { getPort d p with queue := (getPort d p).queue ++ [k] }) ⟨rfl, fun _ => rfl⟩ (startStall_queued _ _ _)
  · have e : getPort (enqueue d p k) q = getPort d q := by simp [enqueue, updPort, setPort, getPort, getD_set, hq]
    exact ⟨e ▸ .refl _, fun _ => e⟩

theorem sendOuvrov_aside {hjob : Nat} {words : List W64} (h : Aside src a d) : Aside src a (sendOuvrov d src hjob words) := by
  unfold sendOuvrov sendPort
  split
  · split
    · exact output_aside h
    · exact h
  · dsimp only
    split
    · exact enqueue_aside h
    · exact h

theorem bumpBy_aside {src : CmdSrc} {a0 : Dev} {d : Dev} {c : Ctr} {i n : Nat} (hK : Aside src a0 d) : Aside src a0 (bumpBy d c i n) := by
  unfold bumpBy
  try dsimp only
  with_reducible repeat' first | assumption | apply setCtrWord_aside | intro _

theorem bump_aside {src : CmdSrc} {a0 : Dev} {d : Dev} {c : Ctr} {i : Nat} (hK : Aside src a0 d) : Aside src a0 (bump d c i) := by
  unfold bump
  try dsimp only
  with_reducible repeat' first | assumption | apply bumpBy_aside | intro _

theorem setCtr_aside {src : CmdSrc} {a0 : Dev} {d : Dev} {c : Ctr} {i : Nat} {v : W64} (hK : Aside src a0 d) : Aside src a0 (setCtr d c i v) := by
  unfold setCtr
  try dsimp only
  with_reducible repeat' first | assumption | apply setCtrWord_aside | intro _

theorem quotaHit_aside {src : CmdSrc} {a0 : Dev} {d : Dev} {j row : Nat} (hK : Aside src a0 d) : Aside src a0 (quotaHit d j row) := by
  unfold quotaHit
  try dsimp only
  with_reducible repeat' first | assumption | apply bump_aside | intro _

theorem poolTake_aside {src : CmdSrc} {a0 : Dev} {d : Dev} {p i req : Nat} {job : Option Nat} (hK : Aside src a0 d) : Aside src a0 (poolTake d p i req job) := by
  unfold poolTake
  try dsimp only
  with_reducible repeat'
    first
    | assumption | apply asideO_getD | split | intro _ | (apply aside_mk; first | assumption | apply asideO_getD)
    | (apply aside_mk; apply aside_mk; first | assumption | apply asideO_getD)

theorem poolAlloc_aside {src : CmdSrc} {a0 : Dev} {d : Dev} {p req : Nat} {job : Option Nat} (hK : Aside src a0 d) : Aside src a0 (poolAlloc d p req job).1 := by
  unfold poolAlloc
  try dsimp only
  with_reducible repeat'
    first
    | assumption | apply poolTake_aside | apply bump_aside | apply quotaHit_aside | split | apply aside_fst (by assumption)
    | apply aside_snd (by assumption) | intro _
    | (apply aside_mk; first | assumption | apply poolTake_aside | apply bump_aside | apply quotaHit_aside)
    | (apply aside_mk; apply aside_mk; first | assumption | apply poolTake_aside | apply bump_aside | apply quotaHit_aside)

theorem poolFreeBuf_aside {src : CmdSrc} {a0 : Dev} {d : Dev} {h : Nat} (hK : Aside src a0 d) : Aside src a0 (poolFreeBuf d h) := by
  unfold poolFreeBuf
  try dsimp only
  with_reducible repeat'
    first
    | assumption | split | intro _ | (apply aside_mk; first | assumption)
    | (apply aside_mk; apply aside_mk; first | assumption)

theorem poolRelease_aside {src : CmdSrc} {a0 : Dev} {d : Dev} {h : Nat} (hK : Aside src a0 d) : Aside src a0 (poolRelease d h) := by
  unfold poolRelease
  try dsimp only
  with_reducible repeat'
    first
    | assumption | apply poolFreeBuf_aside | split | apply aside_fst (by assumption) | apply aside_snd (by assumption)
    | intro _ | (apply aside_mk; first | assumption | apply poolFreeBuf_aside)
    | (apply aside_mk; apply aside_mk; first | assumption | apply poolFreeBuf_aside)

theorem poolReleaseOpt_aside {src : CmdSrc} {a0 : Dev} {d : Dev} {h : Option Nat} (hK : Aside src a0 d) : Aside src a0 (poolReleaseOpt d h) := by
  unfold poolReleaseOpt
  try dsimp only
  with_reducible repeat'
    first
    | assumption | apply poolRelease_aside | split | apply aside_fst (by assumption) | apply aside_snd (by assumption)
    | intro _

theorem poolAllocN_aside {src : CmdSrc} {a0 : Dev} {req p : Nat} {job : Option Nat} {y0 : Nat} {y1 : Dev} {y2 : List Nat} (hK : Aside src a0 y1) : Aside src a0 (poolAllocN req p job y0 y1 y2).1 := by
  induction y0 generalizing req p job y1 y2 with
  | zero =>
    unfold poolAllocN
    try dsimp only
    with_reducible repeat'
      first
      | assumption | apply poolAlloc_aside | split | apply aside_fst (by assumption) | apply aside_snd (by assumption)
      | intro _
  | succ k ih =>
    unfold poolAllocN
    try dsimp only
    with_reducible repeat'
      first
      | assumption | apply ih | apply poolAlloc_aside | split | apply aside_fst (by assumption)
      | apply aside_snd (by assumption) | intro _

theorem telemSend_aside {src : CmdSrc} {a0 : Dev} {d : Dev} {sink : Nat} {k : Sink} {words : List W64} (hK : Aside src a0 d) : Aside src a0 (telemSend d sink k words) := by
  unfold telemSend
  try dsimp only
  with_reducible repeat'
    first
    | assumption | apply bump_aside | apply poolAlloc_aside | apply poolRelease_aside | apply output_aside | split
    | apply aside_fst (by assumption) | apply aside_snd (by assumption) | intro _

theorem telemTrap_aside {src : CmdSrc} {a0 : Dev} {d : Dev} {tseq : Nat} {words : List W64} (hK : Aside src a0 d) : Aside src a0 (telemTrap d tseq words) := by
  unfold telemTrap
  try dsimp only
  with_reducible repeat' first | assumption | apply forEach_aside | apply telemSend_aside | split | intro _

theorem recordTrap_aside {src : CmdSrc} {a0 : Dev} {d : Dev} {t : TrapInfo} {h : Nat} (hK : Aside src a0 d) : Aside src a0 (recordTrap d t h) := by
  unfold recordTrap
  try dsimp only
  with_reducible repeat'
    first
    | assumption | apply updMgmt_aside | intro _ | rfl | (apply aside_mk; first | assumption | apply updMgmt_aside)
    | (apply aside_mk; apply aside_mk; first | assumption | apply updMgmt_aside)

theorem raiseTrap_aside {src : CmdSrc} {a0 : Dev} {d : Dev} {t : TrapInfo} (hK : Aside src a0 d) : Aside src a0 (raiseTrap d t) := by
  unfold raiseTrap
  try dsimp only
  with_reducible repeat'
    first
    | assumption | apply recordTrap_aside | apply telemTrap_aside | apply poolAlloc_aside | apply bump_aside | split
    | apply aside_fst (by assumption) | apply aside_snd (by assumption) | intro _

theorem allocOp_aside {src : CmdSrc} {a0 : Dev} {d : Dev} {p req : Nat} {job : Option Nat} (hK : Aside src a0 d) : Aside src a0 (allocOp d p req job).1 := by
  unfold allocOp
  try dsimp only
  with_reducible repeat'
    first
    | assumption | apply poolAlloc_aside | apply raiseTrap_aside | apply bump_aside | split | apply aside_fst (by assumption)
    | apply aside_snd (by assumption) | intro _ | dsimp only
    | (apply aside_mk; first | assumption | apply poolAlloc_aside | apply raiseTrap_aside)
    | (apply aside_mk; apply aside_mk; first | assumption | apply poolAlloc_aside | apply raiseTrap_aside)

theorem updSession_aside {src : CmdSrc} {a0 : Dev} {d : Dev} {w : Waiting} {f : Session → Session} (hK : Aside src a0 d) : Aside src a0 (updSession d w f) := by
  unfold updSession
  try dsimp only
  with_reducible repeat'
    first
    | assumption | apply updMgmt_aside | split | intro _ | rfl | (apply aside_mk; first | assumption | apply updMgmt_aside)
    | (apply aside_mk; apply aside_mk; first | assumption | apply updMgmt_aside)

theorem countReject_aside {src : CmdSrc} {a0 : Dev} {d : Dev} {w : Waiting} {r : Reply} (hK : Aside src a0 d) : Aside src a0 (countReject d w r) := by
  unfold countReject
  try dsimp only
  with_reducible repeat' first | assumption | apply bump_aside | split | intro _

theorem cacheReply_aside {src : CmdSrc} {a0 : Dev} {d : Dev} {w : Waiting} {r : Reply} (hK : Aside src a0 d) : Aside src a0 (cacheReply d w r).1 := by
  unfold cacheReply
  try dsimp only
  with_reducible repeat'
    first
    | assumption | apply allocOp_aside | split | apply aside_fst (by assumption) | apply aside_snd (by assumption) | intro _
    | (apply aside_mk; first | assumption | apply allocOp_aside)
    | (apply aside_mk; apply aside_mk; first | assumption | apply allocOp_aside)

theorem keepReply_aside {src : CmdSrc} {a0 : Dev} {d : Dev} {w : Waiting} {r : Reply} {h : Option Nat} (hK : Aside src a0 d) : Aside src a0 (keepReply d w r h) := by
  unfold keepReply
  try dsimp only
  with_reducible repeat'
    first
    | assumption | apply updSession_aside | apply poolReleaseOpt_aside | split | intro _
    | (apply aside_mk; first | assumption | apply updSession_aside | apply poolReleaseOpt_aside)
    | (apply aside_mk; apply aside_mk; first | assumption | apply updSession_aside | apply poolReleaseOpt_aside)

theorem freeSession_aside {src : CmdSrc} {a0 : Dev} {d : Dev} {s : Session} (hK : Aside src a0 d) : Aside src a0 (freeSession d s) := by
  unfold freeSession
  try dsimp only
  with_reducible repeat'
    first
    | assumption | apply forEach_aside | apply poolReleaseOpt_aside | apply poolRelease_aside | split
    | apply aside_fst (by assumption) | apply aside_snd (by assumption) | intro _

theorem removeSessions_aside {src : CmdSrc} {a0 : Dev} {d : Dev} {p : Session → Bool} (hK : Aside src a0 d) : Aside src a0 (removeSessions d p) := by
  unfold removeSessions
  try dsimp only
  with_reducible repeat'
    first
    | assumption | apply forEach_aside | apply updMgmt_aside | apply freeSession_aside | intro _ | rfl
    | (apply aside_mk; first | assumption | apply forEach_aside | apply updMgmt_aside | apply freeSession_aside)
    | (apply aside_mk; apply aside_mk; first | assumption | apply forEach_aside | apply updMgmt_aside | apply freeSession_aside)

theorem endDying_aside {src : CmdSrc} {a0 : Dev} {d : Dev} {w : Waiting} (hK : Aside src a0 d) : Aside src a0 (endDying d w) := by
  unfold endDying
  try dsimp only
  with_reducible repeat' first | assumption | apply removeSessions_aside | intro _

theorem finalReply_aside {a0 : Dev} {d : Dev} {w : Waiting} {r0 : Reply} (hK : Aside w.src a0 d) : Aside w.src a0 (finalReply d w r0) := by
  unfold finalReply
  try dsimp only
  with_reducible repeat'
    first
    | assumption | apply cacheReply_aside | apply keepReply_aside | apply updMgmt_aside | apply endDying_aside
    | apply poolReleaseOpt_aside | apply countReject_aside | apply sendOuvrov_aside | split | apply aside_fst (by assumption)
    | apply aside_snd (by assumption) | intro _ | rfl
    | (apply aside_mk; first | assumption | apply cacheReply_aside | apply keepReply_aside | apply updMgmt_aside | apply endDying_aside | apply poolReleaseOpt_aside | apply countReject_aside | apply sendOuvrov_aside)
    | (apply aside_mk; apply aside_mk; first | assumption | apply cacheReply_aside | apply keepReply_aside | apply updMgmt_aside | apply endDying_aside | apply poolReleaseOpt_aside | apply countReject_aside | apply sendOuvrov_aside)

theorem roomForSession_aside {src : CmdSrc} {a0 : Dev} {d : Dev} {inband : Bool} (hK : Aside src a0 d) : AsideO src a0 (roomForSession d inband) := by
  unfold roomForSession
  try dsimp only
  with_reducible repeat'
    first
    | assumption | apply bump_aside | apply removeSessions_aside | split | apply aside_fst (by assumption)
    | apply aside_snd (by assumption) | exact asideO_none | apply asideO_some | apply asideO_use (by assumption) | intro _

theorem updSess_aside {src : CmdSrc} {a0 : Dev} {d : Dev} {k : SessKey} {f : Session → Session} (hK : Aside src a0 d) : Aside src a0 (updSess d k f) := by
  unfold updSess
  try dsimp only
  with_reducible repeat'
    first
    | assumption | apply updMgmt_aside | split | intro _ | rfl | (apply aside_mk; first | assumption | apply updMgmt_aside)
    | (apply aside_mk; apply aside_mk; first | assumption | apply updMgmt_aside)

theorem forgetHist_aside {src : CmdSrc} {a0 : Dev} {d : Dev} {s t : Session} (hK : Aside src a0 d) : Aside src a0 (forgetHist d s t) := by
  unfold forgetHist
  try dsimp only
  with_reducible repeat' first | assumption | apply forEach_aside | apply poolReleaseOpt_aside | intro _

theorem retarget_aside {src : CmdSrc} {a0 : Dev} {d : Dev} {k : SessKey} {p : CmdPkt} (hK : Aside src a0 d) : Aside src a0 (retarget d k p) := by
  unfold retarget
  try dsimp only
  with_reducible repeat'
    first
    | assumption | apply updMgmt_aside | split | intro _ | rfl | (apply aside_mk; first | assumption | apply updMgmt_aside)
    | (apply aside_mk; apply aside_mk; first | assumption | apply updMgmt_aside)

theorem dropStaged_aside {src : CmdSrc} {a0 : Dev} {d : Dev} {k : SessKey} (hK : Aside src a0 d) : Aside src a0 (dropStaged d k) := by
  unfold dropStaged
  try dsimp only
  with_reducible repeat'
    first
    | assumption | apply forEach_aside | apply updSess_aside | apply poolRelease_aside | split
    | apply aside_fst (by assumption) | apply aside_snd (by assumption) | intro _
    | (apply aside_mk; first | assumption | apply forEach_aside | apply updSess_aside | apply poolRelease_aside)
    | (apply aside_mk; apply aside_mk; first | assumption | apply forEach_aside | apply updSess_aside | apply poolRelease_aside)

theorem abandonStaged_aside {src : CmdSrc} {a0 : Dev} {d : Dev} {k : SessKey} (hK : Aside src a0 d) : Aside src a0 (abandonStaged d k) := by
  unfold abandonStaged
  try dsimp only
  with_reducible repeat'
    first
    | assumption | apply bump_aside | apply dropStaged_aside | split | apply aside_fst (by assumption)
    | apply aside_snd (by assumption) | intro _

theorem stageRefused_aside {src : CmdSrc} {a0 : Dev} {d : Dev} {job : Option Nat} {n : Nat} (hK : Aside src a0 d) : Aside src a0 (stageRefused d job n) := by
  unfold stageRefused
  try dsimp only
  with_reducible repeat'
    first
    | assumption | apply bump_aside | apply quotaHit_aside | split | apply aside_fst (by assumption)
    | apply aside_snd (by assumption) | intro _

theorem takeSegment_aside {src : CmdSrc} {a0 : Dev} {d : Dev} {k : SessKey} {op hjob limit req : Nat} {job : Option Nat} {body : List W64} (hK : Aside src a0 d) : Aside src a0 (takeSegment d k op hjob limit req job body).1 := by
  unfold takeSegment
  try dsimp only
  with_reducible repeat'
    first
    | assumption | apply abandonStaged_aside | apply poolAllocN_aside | apply stageRefused_aside | apply forEach_aside
    | apply poolRelease_aside | apply updSess_aside | apply dropStaged_aside | split | apply aside_fst (by assumption)
    | apply aside_snd (by assumption) | intro _
    | (apply aside_mk; first | assumption | apply abandonStaged_aside | apply poolAllocN_aside | apply stageRefused_aside | apply forEach_aside | apply poolRelease_aside | apply updSess_aside | apply dropStaged_aside)
    | (apply aside_mk; apply aside_mk; first | assumption | apply abandonStaged_aside | apply poolAllocN_aside | apply stageRefused_aside | apply forEach_aside | apply poolRelease_aside | apply updSess_aside | apply dropStaged_aside)

/-! ## Checks 1 to 11 -/

/-- Where the checks let a command go on, only what is aside has changed. -/
def AsideF (src : CmdSrc) (a : Dev) (x : Front) : Prop := ∀ d c, x = .run d c → Aside src a d

theorem asideF_stop {d : Dev} : AsideF src a (.stop d) := fun _ _ h => nomatch h
theorem asideF_run {d : Dev} {c : Cmd} (h : Aside src a d) : AsideF src a (.run d c) := fun _ _ e => by cases e; exact h

theorem runAccepted_aside {p : CmdPkt} {s : Sender} {k : SessKey} {w : Waiting} (h : Aside src a d) : AsideF src a (runAccepted d p s k w) := by
  unfold runAccepted
  split
  · exact asideF_stop
  · dsimp only
    split
    · exact asideF_run h
    · split
      · exact asideF_stop
      · exact asideF_stop
      · exact asideF_run (aside_fst (by assumption) (takeSegment_aside h))

theorem acceptCmd_aside {p : CmdPkt} {s : Sender} {k : SessKey} {o : Session} {b : Option Nat} (h : Aside src a d) :
    AsideF src a (acceptCmd d p s k o b) := by
  unfold acceptCmd
  dsimp only
  exact runAccepted_aside (updMgmt_aside (bump_aside (updSess_aside (forgetHist_aside h))) fun _ => rfl)

theorem checkSeq_aside {p : CmdPkt} {s : Sender} {b : Option Nat} (h : Aside src a d) : AsideF src a (checkSeq d p s b) := by
  unfold checkSeq
  dsimp only
  split
  · split
    · exact asideF_stop
    · exact acceptCmd_aside (updMgmt_aside (asideO_use (by assumption) (roomForSession_aside (removeSessions_aside h))) fun _ => rfl)
  · split
    · exact acceptCmd_aside h
    all_goals exact asideF_stop

theorem checkSender_aside {p : CmdPkt} (h : Aside src a d) : AsideF src a (checkSender d p) := by
  unfold checkSender
  split
  · exact asideF_stop
  · split
    · exact asideF_stop
    · split
      · exact asideF_stop
      · split
        · exact asideF_stop
        · split
          · exact asideF_stop
          · exact checkSeq_aside (aside_fst (by assumption) (allocOp_aside h))

/-- An in-band packet that reaches the checks leaves those the link layer has delivered, and nothing else changes. -/
theorem takeCarrier_aside {port : Nat} {p : CmdPkt} (h : (takeCarrier d port p).2 = true) :
    Aside (.inband port) d (takeCarrier d port p).1 := by
  unfold takeCarrier at h ⊢
  dsimp only at h ⊢
  split at h
  · cases h
  · rename_i g
    rw [if_neg g]
    split at h
    · cases h
    · rename_i g'
      simp only [g']
      exact ⟨rfl, fun q => ⟨.refl _, fun _ => rfl⟩, List.erase_sublist⟩

/-- A command that passes checks 1 to 11 finds the device as it was, but for what is aside. -/
theorem frontEnd_aside {p : CmdPkt} : AsideF p.src d (frontEnd d p) := by
  unfold frontEnd
  split
  · rename_i port e
    rw [e]
    dsimp only
    split
    · exact asideF_stop
    · rename_i g
      simp only [Bool.or_eq_true, Bool.not_eq_true', not_or, Bool.not_eq_false] at g
      split
      · exact checkSender_aside (takeCarrier_aside g.1)
      · exact asideF_stop
  · repeat' split
    all_goals first | exact asideF_stop | exact checkSender_aside (Aside.refl d)

/-- What a command carries that the checks let go on. -/
structure CmdOf (p : CmdPkt) (c : Cmd) : Prop where
  op    : c.op = cmdOpcode p
  job   : c.job = cmdJob p
  src   : c.w.src = p.src
  hjob  : c.w.hjob = cmdJob p
  opc   : c.w.opcode = cmdOpcode p
  sess  : c.w.session = cmdSession p
  seq   : c.w.seq = cmdSeq p
  tag   : c.w.tag = cmdTag p
  muted : c.w.muted = false

/-- Every command of a front end is the packet's. -/
def FrontOf (p : CmdPkt) (x : Front) : Prop := ∀ d c, x = .run d c → CmdOf p c

theorem frontOf_stop {p : CmdPkt} : FrontOf p (.stop d) := fun _ _ h => nomatch h

theorem runAccepted_cmd {p : CmdPkt} {s : Sender} {k : SessKey} {w : Waiting}
    (h : w.src = p.src ∧ w.hjob = cmdJob p ∧ w.opcode = cmdOpcode p ∧ w.session = cmdSession p ∧ w.seq = cmdSeq p ∧ w.tag = cmdTag p ∧
      w.muted = false) : FrontOf p (runAccepted d p s k w) := by
  obtain ⟨h1, h2, h3, h4, h5, h6, h7⟩ := h
  unfold runAccepted
  split
  · exact frontOf_stop
  · dsimp only
    split
    · intro _ _ e; cases e; exact ⟨rfl, rfl, h1, h2, h3, h4, h5, h6, h7⟩
    · split
      · exact frontOf_stop
      · exact frontOf_stop
      · intro _ _ e; cases e; exact ⟨rfl, rfl, h1, h2, h3, h4, h5, h6, h7⟩

theorem sessKey_session {p : CmdPkt} {s : Sender} : (sessKey p s).session = cmdSession p := rfl

theorem acceptCmd_cmd {p : CmdPkt} {s : Sender} {k : SessKey} {o : Session} {b : Option Nat} (h : k.session = cmdSession p) :
    FrontOf p (acceptCmd d p s k o b) := by
  unfold acceptCmd
  dsimp only
  exact runAccepted_cmd ⟨rfl, rfl, rfl, h, rfl, rfl, rfl⟩

theorem checkSeq_cmd {p : CmdPkt} {s : Sender} {b : Option Nat} : FrontOf p (checkSeq d p s b) := by
  unfold checkSeq
  dsimp only
  repeat' split
  all_goals first | exact frontOf_stop | exact acceptCmd_cmd sessKey_session

theorem frontEnd_cmd {p : CmdPkt} : FrontOf p (frontEnd d p) := by
  unfold frontEnd checkSender
  split
  all_goals
    try dsimp only
    repeat' split
    all_goals first | exact frontOf_stop | exact checkSeq_cmd

/-- A final reply with a body of at most eight words is put out as it is. -/
theorem finalReply_sends {d : Dev} {w : Waiting} {r : Reply} (hm : w.muted = false) (ht : d.start.takeover = none)
    (hb : r.body.length ≤ 8) :
    ∃ e, Aside w.src d e ∧ finalReply d w r = sendOuvrov e w.src w.hjob (replyWords 2 w.opcode w.hjob w.session w.seq w.tag r) := by
  have hc : (cacheReply d w r).2.1 = r := by simp [cacheReply, hb]
  unfold finalReply
  dsimp only
  rw [hc]
  have g : Aside w.src d (endDying (poolReleaseOpt (countReject (updMgmt (keepReply (cacheReply d w r).1 w r (cacheReply d w r).2.2)
      fun m => { m with waiting := m.waiting.filter fun v => !(v.inband == w.inband && v.job == w.job &&
        v.who == w.who && v.session == w.session && v.seq == w.seq) }) w r) w.buffer) w) :=
    endDying_aside (poolReleaseOpt_aside (countReject_aside (updMgmt_aside (keepReply_aside (cacheReply_aside (Aside.refl d)))
      fun _ => rfl)))
  refine ⟨_, g, ?_⟩
  have ht' := congrArg (fun x => x.start.takeover) g.rest
  simp only at ht'
  rw [if_neg]
  simp only [hm, ht', ht]
  simp

theorem Aside.nowUs {a b : Dev} (h : Aside src a b) : b.nowUs = a.nowUs := by rw [h.rest]
theorem Aside.fac {a b : Dev} (h : Aside src a b) : b.fac = a.fac := by rw [h.rest]
theorem Aside.start {a b : Dev} (h : Aside src a b) : b.start = a.start := by rw [h.rest]
theorem Aside.spare {a b : Dev} (h : Aside src a b) : b.spare = a.spare := by rw [h.rest]
theorem Aside.flash {a b : Dev} (h : Aside src a b) : b.flash = a.flash := by rw [h.rest]
theorem Aside.power {a b : Dev} (h : Aside src a b) : b.power = a.power := by rw [h.rest]
theorem Aside.clocks {a b : Dev} (h : Aside src a b) : b.clocks = a.clocks := by rw [h.rest]
theorem Aside.jobs {a b : Dev} (h : Aside src a b) : b.jobs = a.jobs := by rw [h.rest]
theorem Aside.ctxs {a b : Dev} (h : Aside src a b) : b.ctxs = a.ctxs := by rw [h.rest]
theorem Aside.left {a b : Dev} (h : Aside src a b) : b.left = a.left := by rw [h.rest]
theorem Aside.maps {a b : Dev} (h : Aside src a b) : b.maps = a.maps := by rw [h.rest]
theorem Aside.rules {a b : Dev} (h : Aside src a b) : b.rules = a.rules := by rw [h.rest]
theorem Aside.scheds {a b : Dev} (h : Aside src a b) : b.scheds = a.scheds := by rw [h.rest]
theorem Aside.syncs {a b : Dev} (h : Aside src a b) : b.syncs = a.syncs := by rw [h.rest]
theorem Aside.fabric {a b : Dev} (h : Aside src a b) : b.fabric = a.fabric := by rw [h.rest]
theorem Aside.parity {a b : Dev} (h : Aside src a b) : b.parity = a.parity := by rw [h.rest]
theorem Aside.mems {a b : Dev} (h : Aside src a b) : b.mems = a.mems := by rw [h.rest]
theorem Aside.policed {a b : Dev} (h : Aside src a b) : b.policed = a.policed := by rw [h.rest]
theorem Aside.order {a b : Dev} (h : Aside src a b) : b.order = a.order := by rw [h.rest]
theorem Aside.lastJob {a b : Dev} (h : Aside src a b) : b.lastJob = a.lastJob := by rw [h.rest]
theorem Aside.freeCtr {a b : Dev} (h : Aside src a b) : b.freeCtr = a.freeCtr := by rw [h.rest]
theorem Aside.principals {a b : Dev} (h : Aside src a b) : b.mgmt.principals = a.mgmt.principals := by rw [h.rest]
theorem Aside.sinks {a b : Dev} (h : Aside src a b) : b.mgmt.sinks = a.mgmt.sinks := by rw [h.rest]
theorem Aside.readTseq {a b : Dev} (h : Aside src a b) : b.mgmt.readTseq = a.mgmt.readTseq := by rw [h.rest]
theorem Aside.linkUp {a b : Dev} (h : Aside src a b) : b.mgmt.linkUp = a.mgmt.linkUp := by rw [h.rest]
theorem Aside.addr {a b : Dev} (h : Aside src a b) : b.mgmt.addr = a.mgmt.addr := by rw [h.rest]
theorem Aside.addrRun {a b : Dev} (h : Aside src a b) : b.mgmt.addrRun = a.mgmt.addrRun := by rw [h.rest]
theorem Aside.inUse {a b : Dev} (h : Aside src a b) : b.mgmt.inUse = a.mgmt.inUse := by rw [h.rest]
theorem Aside.dup {a b : Dev} (h : Aside src a b) : b.mgmt.dup = a.mgmt.dup := by rw [h.rest]
theorem Aside.defended {a b : Dev} (h : Aside src a b) : b.mgmt.defended = a.mgmt.defended := by rw [h.rest]

theorem frontEnd_answers {p : CmdPkt} {e : Dev} {c : Cmd} (h : frontEnd d p = .run e c) : answersCmds d = true := by
  unfold frontEnd at h
  split at h
  · dsimp only at h
    split at h
    · cases h
    · rename_i g
      simp only [Bool.or_eq_true, Bool.not_eq_true', not_or, Bool.not_eq_false] at g
      simpa [answersCmds, processorUp, (takeCarrier_aside g.1).start, (takeCarrier_aside g.1).power] using g.2
  · split at h
    · cases h
    · rename_i g
      simp only [Bool.or_eq_true, Bool.not_eq_true', not_or, Bool.not_eq_false] at g
      exact g.1

/-- A command row whose own checks answer at once. -/
theorem onCmd_done {op : Nat} {p : CmdPkt} {s : State} {c : Cmd} {f : CmdFn} {e : Dev} {r : Reply} (h : Ran op p s d c)
    (hf : f d c = (e, some r)) : onCmd op p s f = .next (s.withDev (finalReply e c.w r)) := by
  simp [onCmd, onUnit, h.1, onDev, receiveCmd, h.2, runOwn, hf]

/-- A command row that waits. -/
theorem onCmd_waits {op : Nat} {p : CmdPkt} {s : State} {c : Cmd} {f : CmdFn} {e : Dev} (h : Ran op p s d c)
    (hf : f d c = (e, none)) : onCmd op p s f = .next (s.withDev e) := by
  simp [onCmd, onUnit, h.1, onDev, receiveCmd, h.2, runOwn, hf]

/-- A command row that answers at once, with a short body: its device and its reply. -/
theorem replies_of {op : Nat} {i : Instr} {p : CmdPkt} {s : State} {c : Cmd} {f : CmdFn} {e b : Dev} {r : Reply}
    (hx : exec i s = onCmd op p s f) (h : Ran op p s d c) (hf : f d c = (e, some r)) (hb : r.body.length ≤ 8)
    (he : Aside p.src s.dev d → Aside p.src b e) (ht : b.start.takeover = s.dev.start.takeover) : Replies i p s b r := by
  have k := frontEnd_cmd _ _ h.2
  have ha : Aside p.src b e := he (frontEnd_aside _ _ h.2)
  have hn : s.dev.start.takeover = none := by
    have := frontEnd_answers h.2
    simp [answersCmds] at this
    exact this.1.2
  obtain ⟨x, hx1, hx2⟩ := finalReply_sends (d := e) (w := c.w) (r := r) k.muted (by rw [ha.start, ht, hn]) hb
  refine ⟨finalReply e c.w r, by rw [Gives, hx, onCmd_done h hf]; rfl, ?_, x, ?_⟩
  · have g := finalReply_aside (w := c.w) (r0 := r) (Aside.refl e)
    rw [k.src] at g
    exact ha.trans g
  · rw [hx2, k.src, k.hjob, k.opc, k.sess, k.seq, k.tag]

end Sys2Proof.Machine
end

