-- ==== Sys2Proof/Laws/Kin.lean ====
section
/-!
SUPPORT. Sys2Proof/Laws/Kin.lean: what every update of the device keeps: its time, what manufacture fixed, and the form of its
tables. One lemma for each way in which a field is written.
-/
namespace Sys2Proof.Machine

set_option linter.all false
open SMap

variable {a d : Dev}

theorem Kin.refl (a : Dev) : Kin a a := ⟨rfl, rfl, id⟩

theorem Kin.trans {a b c : Dev} (h : Kin a b) (g : Kin b c) : Kin a c :=
  ⟨g.time.trans h.time, g.fac.trans h.fac, fun w => g.wf (h.wf w)⟩

/-- A pair's first part, from the pair. -/
theorem kin_fst {α : Type} {x : Dev × α} {b : Dev} {y : α} (e : x = (b, y)) (h : Kin a x.1) : Kin a b := by subst e; exact h

/-- A pair's second part, from the pair. -/
theorem kin_snd {α : Type} {x : α × Dev} {b : Dev} {y : α} (e : x = (y, b)) (h : Kin a x.2) : Kin a b := by subst e; exact h

/-- An optional device, if there is one, is of the kin. -/
def KinO (a : Dev) (x : Option Dev) : Prop := ∀ e, x = some e → Kin a e

theorem kinO_none : KinO a none := fun _ h => nomatch h
theorem kinO_some (h : Kin a d) : KinO a (some d) := fun _ e => Option.some.inj e ▸ h
theorem kinO_use {x : Option Dev} {b : Dev} (e : x = some b) (h : KinO a x) : Kin a b := h b e

theorem kinO_getD {x : Option Dev} (h : KinO a x) (g : Kin a d) : Kin a (x.getD d) := by
  cases x with
  | none => exact g
  | some y => exact h y rfl
theorem kinO_map {x : Option Dev} {f : Dev → Dev} (h : KinO a x) (g : ∀ e, Kin a e → Kin a (f e)) : KinO a (x.map f) := by
  intro e he
  obtain ⟨y, hy, rfl⟩ := Option.map_eq_some_iff.mp he
  exact g y (h y hy)

/-- Fields outside the tables are written. -/
theorem kin_other {s sp fl po cl pl mg pa ar pd o l f} (h : Kin a d) :
    Kin a { d with start := s, spare := sp, flash := fl, power := po, clocks := cl, pools := pl, mgmt := mg, parity := pa, arrived := ar,
                   policed := pd, order := o, lastJob := l, freeCtr := f } :=
  ⟨h.time, h.fac, fun w => { h.wf w with }⟩

/-- Any fields but time, identity and counters are written, the tables in their form and sixteen pairs. -/
theorem kin_mk {s sp me fl po cl j c le ma ru sc sy pt fa pl mg pa ar pd o l f} (h : Kin a d) (gj : wf d.jobs = true → wf j = true)
    (gc : wf d.ctxs = true → wf c = true) (gl : wf d.left = true → wf le = true) (gm : wf d.maps = true → wf ma = true)
    (gr : wf d.rules = true → wf ru = true) (gs : wf d.scheds = true → wf sc = true) (gy : wf d.syncs = true → wf sy = true)
    (gp : wf d.ports = true → wf pt = true) (gf : d.fabric.pairs.length = 16 → fa.pairs.length = 16)
    (gn : wf d.mems = true → wf me = true) :
    Kin a { d with start := s, spare := sp, mems := me, flash := fl, power := po, clocks := cl, jobs := j, ctxs := c, left := le, maps := ma,
                   rules := ru, scheds := sc, syncs := sy, ports := pt, fabric := fa, pools := pl, mgmt := mg, parity := pa,
                   arrived := ar, policed := pd, order := o, lastJob := l, freeCtr := f } :=
  ⟨h.time, h.fac, fun w =>
    { h.wf w with
      jobs := gj (h.wf w).jobs, ctxs := gc (h.wf w).ctxs, left := gl (h.wf w).left, maps := gm (h.wf w).maps
      rules := gr (h.wf w).rules, scheds := gs (h.wf w).scheds, syncs := gy (h.wf w).syncs, ports := gp (h.wf w).ports
      pairs := gf (h.wf w).pairs, mems := gn (h.wf w).mems }⟩

/-! ## Commands -/

/-- A command that answers a next state keeps the queue, and the device of the kin. -/
def KinS (s : State) (o : Host.Outcome State Fault Refusal) : Prop := ∀ t, o = .next t → Kin s.dev t.dev ∧ t.pending = s.pending

theorem kinS_fault {s : State} {r : Fault} : KinS s (.fault r) := fun _ h => nomatch h
theorem onDev_kin {s : State} {f : Dev → Dev} (g : ∀ d, Kin s.dev d → Kin s.dev (f d)) : KinS s (onDev s f) := by
  intro t h
  cases h
  exact ⟨g s.dev (Kin.refl _), rfl⟩

/-! ## Named operations -/

theorem setPort_kin {p x} (h : Kin a d) : Kin a (setPort d p x) := kin_mk h id id id id id id id (wf_set _ _) id id
theorem updPort_kin {p f} (h : Kin a d) : Kin a (updPort d p f) := setPort_kin h
theorem setJob_kin {j x} (h : Kin a d) : Kin a (setJob d j x) := kin_mk h (wf_set _ _) id id id id id id id id id
theorem updJob_kin {j f} (h : Kin a d) : Kin a (updJob d j f) := kin_mk h (wf_upd _ _) id id id id id id id id id
theorem setCtx_kin {c x} (h : Kin a d) : Kin a (setCtx d c x) := by
  unfold setCtx
  split
  · exact kin_mk h id (wf_set _ _) id id id id id id id id
  · exact kin_mk h id id (wf_set _ _) id id id id id id id
theorem updCtx_kin {c f} (h : Kin a d) : Kin a (updCtx d c f) := setCtx_kin h
theorem updMgmt_kin {f} (h : Kin a d) : Kin a (updMgmt d f) := kin_other h
theorem output_kin {o} (h : Kin a d) : Kin a (output d o) := kin_other h
theorem drawFree_kin (h : Kin a d) : Kin a (drawFree d).2 := kin_other h

theorem forEach_kin {α : Type} {l : List α} {f : Dev → α → Dev} (h : Kin a d) (g : ∀ e x, Kin a e → Kin a (f e x)) :
    Kin a (forEach l d f) := by
  induction l generalizing d with
  | nil => exact h
  | cons x r ih => exact ih (g d x h)

theorem foldl_kin {α : Type} {l : List α} {f : Dev → α → Dev} (h : Kin a d) (g : ∀ e x, Kin a e → Kin a (f e x)) :
    Kin a (l.foldl f d) := by
  induction l generalizing d with
  | nil => exact h
  | cons x r ih => exact ih (g d x h)

theorem all_set {m : SMap W64} {k : Nat} {v : W64} (h : (m.all fun e => e.2 != 0) = true) (hv : v ≠ 0) :
    ((set m k v).all fun e => e.2 != 0) = true := by
  rw [List.all_eq_true] at *
  intro e he
  rcases mem_set he with rfl | he
  · simpa using hv
  · exact h e he

theorem all_del {m : SMap W64} {k : Nat} (h : (m.all fun e => e.2 != 0) = true) : ((del m k).all fun e => e.2 != 0) = true := by
  rw [List.all_eq_true] at *
  exact fun e he => h e ((del_sublist m k).subset he)

theorem all_sublist {m n : SMap W64} (s : List.Sublist m n) (h : (n.all fun e => e.2 != 0) = true) :
    (m.all fun e => e.2 != 0) = true := by
  rw [List.all_eq_true] at *
  exact fun e he => h e (s.subset he)

theorem setCtrWord_kin {k v} (h : Kin a d) : Kin a (setCtrWord d k v) := by
  refine ⟨h.time, h.fac, fun w => ?_⟩
  have g := h.wf w
  refine { g with counters := ?_, nonzero := ?_ }
  · simp only [setCtrWord]
    split
    · exact wf_del _ g.counters
    · exact wf_set _ _ g.counters
  · simp only [setCtrWord]
    split
    · exact all_del g.nonzero
    · exact all_set g.nonzero (by assumption)

end Sys2Proof.Machine
end

