-- ==== Sys2Proof/Laws/KinCounters.lean ====
section
/-!
SUPPORT. Sys2Proof/Laws/KinCounters.lean: every operation of Counters.lean keeps time, identity and the form of the tables.
-/
namespace Sys2Proof.Machine
open SMap

theorem bumpBy_kin {a0 : Dev} {d : Dev} {c : Ctr} {i n : Nat} (hK : Kin a0 d) : Kin a0 (bumpBy d c i n) := by
  unfold bumpBy
  try dsimp only
  with_reducible repeat' first | assumption | apply setCtrWord_kin | intro _

theorem bump_kin {a0 : Dev} {d : Dev} {c : Ctr} {i : Nat} (hK : Kin a0 d) : Kin a0 (bump d c i) := by
  unfold bump
  try dsimp only
  with_reducible repeat' first | assumption | apply bumpBy_kin | intro _

theorem setCtr_kin {a0 : Dev} {d : Dev} {c : Ctr} {i : Nat} {v : W64} (hK : Kin a0 d) : Kin a0 (setCtr d c i v) := by
  unfold setCtr
  try dsimp only
  with_reducible repeat' first | assumption | apply setCtrWord_kin | intro _

theorem clearCtrs_kin {a : Dev} {d : Dev} {scope i : Nat} (hK : Kin a d) : Kin a (clearCtrs d scope i) := by
  refine ⟨hK.time, hK.fac, fun w => ?_⟩
  have g := hK.wf w
  exact { g with counters := wf_keep _ g.counters, nonzero := all_sublist (keep_sublist _ _) g.nonzero }

end Sys2Proof.Machine
end

