-- ==== Sys2Proof/Laws/KinOps.lean ====
section
/-!
SUPPORT. Sys2Proof/Laws/KinOps.lean: every operation of Ops.lean keeps time, identity and the form of the tables.
-/
namespace Sys2Proof.Machine
open SMap

theorem onUnit_kin {ok : Bool} {s : State} {f : Dev → Dev} (g_f : ∀ e, Kin s.dev e → Kin s.dev (f e)) : KinS s (onUnit ok s f) := by
  unfold onUnit
  try dsimp only
  with_reducible repeat'
    first
    | assumption | apply g_f | exact kinS_fault | exact Kin.refl _ | apply onDev_kin | split | intro _

theorem quotaHit_kin {a0 : Dev} {d : Dev} {j row : Nat} (hK : Kin a0 d) : Kin a0 (quotaHit d j row) := by
  unfold quotaHit
  try dsimp only
  with_reducible repeat' first | assumption | apply bump_kin | intro _

theorem poolTake_kin {a0 : Dev} {d : Dev} {p i req : Nat} {job : Option Nat} (hK : Kin a0 d) : Kin a0 (poolTake d p i req job) := by
  unfold poolTake
  try dsimp only
  with_reducible repeat'
    first
    | assumption | apply kinO_getD | split | intro _ | (apply kin_other; first | assumption | apply kinO_getD)
    | (apply kin_other; apply kin_other; first | assumption | apply kinO_getD)
    | (apply kin_mk <;> first | assumption | apply kinO_getD | (intro w; first | exact w | exact wf_set _ _ w | exact wf_upd _ _ w | exact wf_del _ w | exact wf_keep _ w | exact wf_mapV _ w | exact wf_filter _ w | (simp; done) | (simpa using w) | (rw [length_listSet]; exact w)))

theorem poolAlloc_kin {a0 : Dev} {d : Dev} {p req : Nat} {job : Option Nat} (hK : Kin a0 d) : Kin a0 (poolAlloc d p req job).1 := by
  unfold poolAlloc
  try dsimp only
  with_reducible repeat'
    first
    | assumption | apply poolTake_kin | apply bump_kin | apply quotaHit_kin | split | apply kin_fst (by assumption)
    | apply kin_snd (by assumption) | intro _
    | (apply kin_other; first | assumption | apply poolTake_kin | apply bump_kin | apply quotaHit_kin)
    | (apply kin_other; apply kin_other; first | assumption | apply poolTake_kin | apply bump_kin | apply quotaHit_kin)
    | (apply kin_mk <;> first | assumption | apply poolTake_kin | apply bump_kin | apply quotaHit_kin | (intro w; first | exact w | exact wf_set _ _ w | exact wf_upd _ _ w | exact wf_del _ w | exact wf_keep _ w | exact wf_mapV _ w | exact wf_filter _ w | (simp; done) | (simpa using w) | (rw [length_listSet]; exact w)))

theorem poolFreeBuf_kin {a0 : Dev} {d : Dev} {h : Nat} (hK : Kin a0 d) : Kin a0 (poolFreeBuf d h) := by
  unfold poolFreeBuf
  try dsimp only
  with_reducible repeat'
    first
    | assumption | split | intro _ | (apply kin_other; first | assumption)
    | (apply kin_other; apply kin_other; first | assumption)
    | (apply kin_mk <;> first | assumption | (intro w; first | exact w | exact wf_set _ _ w | exact wf_upd _ _ w | exact wf_del _ w | exact wf_keep _ w | exact wf_mapV _ w | exact wf_filter _ w | (simp; done) | (simpa using w) | (rw [length_listSet]; exact w)))

theorem poolRelease_kin {a0 : Dev} {d : Dev} {h : Nat} (hK : Kin a0 d) : Kin a0 (poolRelease d h) := by
  unfold poolRelease
  try dsimp only
  with_reducible repeat'
    first
    | assumption | apply poolFreeBuf_kin | split | apply kin_fst (by assumption) | apply kin_snd (by assumption) | intro _
    | (apply kin_other; first | assumption | apply poolFreeBuf_kin)
    | (apply kin_other; apply kin_other; first | assumption | apply poolFreeBuf_kin)
    | (apply kin_mk <;> first | assumption | apply poolFreeBuf_kin | (intro w; first | exact w | exact wf_set _ _ w | exact wf_upd _ _ w | exact wf_del _ w | exact wf_keep _ w | exact wf_mapV _ w | exact wf_filter _ w | (simp; done) | (simpa using w) | (rw [length_listSet]; exact w)))

theorem poolReleaseOpt_kin {a0 : Dev} {d : Dev} {h : Option Nat} (hK : Kin a0 d) : Kin a0 (poolReleaseOpt d h) := by
  unfold poolReleaseOpt
  try dsimp only
  with_reducible repeat'
    first
    | assumption | apply poolRelease_kin | split | apply kin_fst (by assumption) | apply kin_snd (by assumption) | intro _

theorem poolAllocN_kin {a0 : Dev} {req p : Nat} {job : Option Nat} {y0 : Nat} {y1 : Dev} {y2 : List Nat} (hK : Kin a0 y1) : Kin a0 (poolAllocN req p job y0 y1 y2).1 := by
  induction y0 generalizing req p job y1 y2 with
  | zero =>
    unfold poolAllocN
    try dsimp only
    with_reducible repeat'
      first
      | assumption | apply poolAlloc_kin | split | apply kin_fst (by assumption) | apply kin_snd (by assumption) | intro _
  | succ k ih =>
    unfold poolAllocN
    try dsimp only
    with_reducible repeat'
      first
      | assumption | apply ih | apply poolAlloc_kin | split | apply kin_fst (by assumption) | apply kin_snd (by assumption)
      | intro _

theorem telemSend_kin {a0 : Dev} {d : Dev} {sink : Nat} {k : Sink} {words : List W64} (hK : Kin a0 d) : Kin a0 (telemSend d sink k words) := by
  unfold telemSend
  try dsimp only
  with_reducible repeat'
    first
    | assumption | apply bump_kin | apply poolAlloc_kin | apply poolRelease_kin | apply output_kin | split
    | apply kin_fst (by assumption) | apply kin_snd (by assumption) | intro _

theorem telemTrap_kin {a0 : Dev} {d : Dev} {tseq : Nat} {words : List W64} (hK : Kin a0 d) : Kin a0 (telemTrap d tseq words) := by
  unfold telemTrap
  try dsimp only
  with_reducible repeat' first | assumption | apply forEach_kin | apply telemSend_kin | split | intro _

theorem recordTrap_kin {a0 : Dev} {d : Dev} {t : TrapInfo} {h : Nat} (hK : Kin a0 d) : Kin a0 (recordTrap d t h) := by
  unfold recordTrap
  try dsimp only
  with_reducible repeat'
    first
    | assumption | apply updMgmt_kin | intro _ | (apply kin_other; first | assumption | apply updMgmt_kin)
    | (apply kin_other; apply kin_other; first | assumption | apply updMgmt_kin)
    | (apply kin_mk <;> first | assumption | apply updMgmt_kin | (intro w; first | exact w | exact wf_set _ _ w | exact wf_upd _ _ w | exact wf_del _ w | exact wf_keep _ w | exact wf_mapV _ w | exact wf_filter _ w | (simp; done) | (simpa using w) | (rw [length_listSet]; exact w)))

theorem raiseTrap_kin {a0 : Dev} {d : Dev} {t : TrapInfo} (hK : Kin a0 d) : Kin a0 (raiseTrap d t) := by
  unfold raiseTrap
  try dsimp only
  with_reducible repeat'
    first
    | assumption | apply recordTrap_kin | apply telemTrap_kin | apply poolAlloc_kin | apply bump_kin | split
    | apply kin_fst (by assumption) | apply kin_snd (by assumption) | intro _

theorem allocOp_kin {a0 : Dev} {d : Dev} {p req : Nat} {job : Option Nat} (hK : Kin a0 d) : Kin a0 (allocOp d p req job).1 := by
  unfold allocOp
  try dsimp only
  with_reducible repeat'
    first
    | assumption | apply poolAlloc_kin | apply bump_kin | apply raiseTrap_kin | split | apply kin_fst (by assumption)
    | apply kin_snd (by assumption) | intro _
    | (apply kin_other; first | assumption | apply poolAlloc_kin | apply bump_kin | apply raiseTrap_kin)
    | (apply kin_other; apply kin_other; first | assumption | apply poolAlloc_kin | apply bump_kin | apply raiseTrap_kin)
    | (apply kin_mk <;> first | assumption | apply poolAlloc_kin | apply bump_kin | apply raiseTrap_kin | (intro w; first | exact w | exact wf_set _ _ w | exact wf_upd _ _ w | exact wf_del _ w | exact wf_keep _ w | exact wf_mapV _ w | exact wf_filter _ w | (simp; done) | (simpa using w) | (rw [length_listSet]; exact w)))

theorem closePool_kin {a0 : Dev} {d : Dev} {p : Nat} (hK : Kin a0 d) : Kin a0 (closePool d p) := by
  unfold closePool
  try dsimp only
  with_reducible repeat'
    first
    | assumption | apply forEach_kin | apply poolFreeBuf_kin | apply raiseTrap_kin | split | intro _
    | (apply kin_other; first | assumption | apply forEach_kin | apply poolFreeBuf_kin | apply raiseTrap_kin)
    | (apply kin_other; apply kin_other; first | assumption | apply forEach_kin | apply poolFreeBuf_kin | apply raiseTrap_kin)
    | (apply kin_mk <;> first | assumption | apply forEach_kin | apply poolFreeBuf_kin | apply raiseTrap_kin | (intro w; first | exact w | exact wf_set _ _ w | exact wf_upd _ _ w | exact wf_del _ w | exact wf_keep _ w | exact wf_mapV _ w | exact wf_filter _ w | (simp; done) | (simpa using w) | (rw [length_listSet]; exact w)))

theorem openPool_kin {a0 : Dev} {d : Dev} {p : Nat} (hK : Kin a0 d) : Kin a0 (openPool d p) := by
  unfold openPool
  try dsimp only
  with_reducible repeat'
    first
    | assumption | intro _ | (apply kin_other; first | assumption) | (apply kin_other; apply kin_other; first | assumption)
    | (apply kin_mk <;> first | assumption | (intro w; first | exact w | exact wf_set _ _ w | exact wf_upd _ _ w | exact wf_del _ w | exact wf_keep _ w | exact wf_mapV _ w | exact wf_filter _ w | (simp; done) | (simpa using w) | (rw [length_listSet]; exact w)))

theorem appendCopy_kin {a0 : Dev} {d : Dev} {m : Nat} {c : RecCopy} (hK : Kin a0 d) : Kin a0 (appendCopy d m c) := by
  unfold appendCopy
  try dsimp only
  with_reducible repeat'
    first
    | assumption | apply bumpBy_kin | apply kin_fst (by assumption) | apply kin_snd (by assumption) | intro _
    | (apply kin_other; first | assumption | apply bumpBy_kin)
    | (apply kin_other; apply kin_other; first | assumption | apply bumpBy_kin)
    | (apply kin_mk <;> first | assumption | apply bumpBy_kin | (intro w; first | exact w | exact wf_set _ _ w | exact wf_upd _ _ w | exact wf_del _ w | exact wf_keep _ w | exact wf_mapV _ w | exact wf_filter _ w | (simp; done) | (simpa using w) | (rw [length_listSet]; exact w)))

theorem writeMirror_kin {a0 : Dev} {m fails : Nat} {d : Dev} {c : RecCopy} (hK : Kin a0 d) : Kin a0 (writeMirror m fails d c) := by
  unfold writeMirror
  try dsimp only
  with_reducible repeat'
    first
    | assumption | apply raiseTrap_kin | apply appendCopy_kin | split | intro _
    | (apply kin_other; first | assumption | apply raiseTrap_kin | apply appendCopy_kin)
    | (apply kin_other; apply kin_other; first | assumption | apply raiseTrap_kin | apply appendCopy_kin)
    | (apply kin_mk <;> first | assumption | apply raiseTrap_kin | apply appendCopy_kin | (intro w; first | exact w | exact wf_set _ _ w | exact wf_upd _ _ w | exact wf_del _ w | exact wf_keep _ w | exact wf_mapV _ w | exact wf_filter _ w | (simp; done) | (simpa using w) | (rw [length_listSet]; exact w)))

theorem flashCommit_kin {a0 : Dev} {d : Dev} {w : FlashWrite} (hK : Kin a0 d) : Kin a0 (flashCommit d w) := by
  unfold flashCommit
  try dsimp only
  with_reducible repeat'
    first
    | assumption | apply writeMirror_kin | apply kin_fst (by assumption) | apply kin_snd (by assumption) | intro _
    | (apply kin_other; first | assumption | apply writeMirror_kin)
    | (apply kin_other; apply kin_other; first | assumption | apply writeMirror_kin)
    | (apply kin_mk <;> first | assumption | apply writeMirror_kin | (intro w; first | exact w | exact wf_set _ _ w | exact wf_upd _ _ w | exact wf_del _ w | exact wf_keep _ w | exact wf_mapV _ w | exact wf_filter _ w | (simp; done) | (simpa using w) | (rw [length_listSet]; exact w)))

theorem flashWrite_kin {a0 : Dev} {d : Dev} {rid len : Nat} {body : SMap W64} (hK : Kin a0 d) : Kin a0 (flashWrite d rid len body) := by
  unfold flashWrite
  try dsimp only
  with_reducible repeat'
    first
    | assumption | apply flashCommit_kin | split | apply kin_fst (by assumption) | apply kin_snd (by assumption) | intro _
    | (apply kin_other; first | assumption | apply flashCommit_kin)
    | (apply kin_other; apply kin_other; first | assumption | apply flashCommit_kin)
    | (apply kin_mk <;> first | assumption | apply flashCommit_kin | (intro w; first | exact w | exact wf_set _ _ w | exact wf_upd _ _ w | exact wf_del _ w | exact wf_keep _ w | exact wf_mapV _ w | exact wf_filter _ w | (simp; done) | (simpa using w) | (rw [length_listSet]; exact w)))

theorem tearWrite_kin {a0 : Dev} {d : Dev} {t : TornWrite} (hK : Kin a0 d) : Kin a0 (tearWrite d t) := by
  unfold tearWrite
  try dsimp only
  with_reducible repeat'
    first
    | assumption | split | apply kin_fst (by assumption) | apply kin_snd (by assumption) | intro _
    | (apply kin_other; first | assumption) | (apply kin_other; apply kin_other; first | assumption)
    | (apply kin_mk <;> first | assumption | (intro w; first | exact w | exact wf_set _ _ w | exact wf_upd _ _ w | exact wf_del _ w | exact wf_keep _ w | exact wf_mapV _ w | exact wf_filter _ w | (simp; done) | (simpa using w) | (rw [length_listSet]; exact w)))

end Sys2Proof.Machine
end

