-- ==== Sys2Proof/Laws/KinFabric.lean ====
section
/-!
SUPPORT. Sys2Proof/Laws/KinFabric.lean: every operation of Fabric.lean keeps time, identity and the form of the tables.
-/
namespace Sys2Proof.Machine
open SMap

theorem enqueue_kin {a0 : Dev} {d : Dev} {p : Nat} {k : TxPacket} (hK : Kin a0 d) : Kin a0 (enqueue d p k) := by
  unfold enqueue
  try dsimp only
  with_reducible repeat'
    first
    | assumption | apply updPort_kin | intro _ | (apply kin_other; first | assumption | apply updPort_kin)
    | (apply kin_other; apply kin_other; first | assumption | apply updPort_kin)
    | (apply kin_mk <;> first | assumption | apply updPort_kin | (intro w; first | exact w | exact wf_set _ _ w | exact wf_upd _ _ w | exact wf_del _ w | exact wf_keep _ w | exact wf_mapV _ w | exact wf_filter _ w | (simp; done) | (simpa using w) | (rw [length_listSet]; exact w)))

theorem stallVc_kin {a0 : Dev} {d : Dev} {p v : Nat} (hK : Kin a0 d) : Kin a0 (stallVc d p v) := by
  unfold stallVc
  try dsimp only
  with_reducible repeat'
    first
    | assumption | apply bumpBy_kin | apply updPort_kin | split | apply kin_fst (by assumption)
    | apply kin_snd (by assumption) | intro _ | (apply kin_other; first | assumption | apply bumpBy_kin | apply updPort_kin)
    | (apply kin_other; apply kin_other; first | assumption | apply bumpBy_kin | apply updPort_kin)
    | (apply kin_mk <;> first | assumption | apply bumpBy_kin | apply updPort_kin | (intro w; first | exact w | exact wf_set _ _ w | exact wf_upd _ _ w | exact wf_del _ w | exact wf_keep _ w | exact wf_mapV _ w | exact wf_filter _ w | (simp; done) | (simpa using w) | (rw [length_listSet]; exact w)))

theorem stallTick_kin {a0 : Dev} {d : Dev} {p : Nat} (hK : Kin a0 d) : Kin a0 (stallTick d p) := by
  unfold stallTick
  try dsimp only
  with_reducible repeat' first | assumption | apply forEach_kin | apply stallVc_kin | intro _

theorem routeNow_kin {a0 : Dev} {d : Dev} {vc job dst : Nat} {words : List W64} (hK : Kin a0 d) : KinO a0 (routeNow d vc job dst words) := by
  unfold routeNow
  try dsimp only
  with_reducible repeat'
    first
    | assumption | apply bump_kin | apply enqueue_kin | split | apply kin_fst (by assumption) | apply kin_snd (by assumption)
    | exact kinO_none | apply kinO_some | apply kinO_use (by assumption) | intro _
    | (apply kin_other; first | assumption | apply bump_kin | apply enqueue_kin)
    | (apply kin_other; apply kin_other; first | assumption | apply bump_kin | apply enqueue_kin)
    | (apply kin_mk <;> first | assumption | apply bump_kin | apply enqueue_kin | (intro w; first | exact w | exact wf_set _ _ w | exact wf_upd _ _ w | exact wf_del _ w | exact wf_keep _ w | exact wf_mapV _ w | exact wf_filter _ w | (simp; done) | (simpa using w) | (rw [length_listSet]; exact w)))

theorem routeOrHold_kin {a0 : Dev} {d : Dev} {vc job dst : Nat} {words : List W64} (hK : Kin a0 d) : Kin a0 (routeOrHold d vc job dst words) := by
  unfold routeOrHold
  try dsimp only
  with_reducible repeat'
    first
    | assumption | apply routeNow_kin | split | apply kin_fst (by assumption) | apply kin_snd (by assumption)
    | exact kinO_none | apply kinO_some | apply kinO_use (by assumption) | intro _
    | (apply kin_other; first | assumption | apply routeNow_kin)
    | (apply kin_other; apply kin_other; first | assumption | apply routeNow_kin)
    | (apply kin_mk <;> first | assumption | apply routeNow_kin | (intro w; first | exact w | exact wf_set _ _ w | exact wf_upd _ _ w | exact wf_del _ w | exact wf_keep _ w | exact wf_mapV _ w | exact wf_filter _ w | (simp; done) | (simpa using w) | (rw [length_listSet]; exact w)))

theorem sendAddr_kin {a0 : Dev} {d : Dev} {vc job dst : Nat} {words : List W64} (hK : Kin a0 d) : Kin a0 (sendAddr d vc job dst words) := by
  unfold sendAddr
  try dsimp only
  with_reducible repeat' first | assumption | apply routeOrHold_kin | intro _

theorem sendOrd_kin {a0 : Dev} {d : Dev} {j q vc : Nat} {words : List W64} (hK : Kin a0 d) : Kin a0 (sendOrd d j q vc words) := by
  unfold sendOrd
  try dsimp only
  with_reducible repeat'
    first
    | assumption | apply sendAddr_kin | apply bump_kin | apply kinO_getD | split | apply kin_fst (by assumption)
    | apply kin_snd (by assumption) | intro _

theorem sendPort_kin {a0 : Dev} {d : Dev} {p : Nat} {k : TxPacket} (hK : Kin a0 d) : Kin a0 (sendPort d p k) := by
  unfold sendPort
  try dsimp only
  with_reducible repeat' first | assumption | apply enqueue_kin | split | intro _

theorem sendMember_kin {a0 : Dev} {d : Dev} {j m vc : Nat} {words : List W64} {track : Track} (hK : Kin a0 d) : Kin a0 (sendMember d j m vc words track) := by
  unfold sendMember
  try dsimp only
  with_reducible repeat'
    first
    | assumption | apply sendPort_kin | split | apply kin_fst (by assumption) | apply kin_snd (by assumption) | intro _
    | (apply kin_other; first | assumption | apply sendPort_kin)
    | (apply kin_other; apply kin_other; first | assumption | apply sendPort_kin)
    | (apply kin_mk <;> first | assumption | apply sendPort_kin | (intro w; first | exact w | exact wf_set _ _ w | exact wf_upd _ _ w | exact wf_del _ w | exact wf_keep _ w | exact wf_mapV _ w | exact wf_filter _ w | (simp; done) | (simpa using w) | (rw [length_listSet]; exact w)))

theorem sendRing_kin {a0 : Dev} {d : Dev} {axis : Nat} (hK : Kin a0 d) : Kin a0 (sendRing d axis) := by
  unfold sendRing
  try dsimp only
  with_reducible repeat'
    first
    | assumption | apply enqueue_kin | apply kinO_getD | split | apply kin_fst (by assumption) | apply kin_snd (by assumption)
    | intro _ | (apply kin_other; first | assumption | apply enqueue_kin | apply kinO_getD)
    | (apply kin_other; apply kin_other; first | assumption | apply enqueue_kin | apply kinO_getD)
    | (apply kin_mk <;> first | assumption | apply enqueue_kin | apply kinO_getD | (intro w; first | exact w | exact wf_set _ _ w | exact wf_upd _ _ w | exact wf_del _ w | exact wf_keep _ w | exact wf_mapV _ w | exact wf_filter _ w | (simp; done) | (simpa using w) | (rw [length_listSet]; exact w)))

theorem ringOnChange_kin {a0 : Dev} {old d : Dev} (hK : Kin a0 d) : Kin a0 (ringOnChange old d) := by
  unfold ringOnChange
  try dsimp only
  with_reducible repeat' first | assumption | apply forEach_kin | apply sendRing_kin | split | intro _

end Sys2Proof.Machine
end

