-- ==== Sys2Proof/Laws/KinOperands.lean ====
section
/-!
SUPPORT. Sys2Proof/Laws/KinOperands.lean: every operation of Operands.lean keeps time, identity and the form of the tables.
-/
namespace Sys2Proof.Machine
open SMap

theorem protocolTrap_kin {a : Dev} {d : Dev} {port : Nat} (hK : Kin a d) : Kin a (protocolTrap d port) := by
  have g : Kin a (protocolTrap.go port d) := by
    unfold protocolTrap.go
    exact raiseTrap_kin (updPort_kin hK)
  unfold protocolTrap
  dsimp only
  with_reducible repeat' first | assumption | split

theorem malformed_kin {a0 : Dev} {d : Dev} {port vc reason : Nat} {words : List W64} (hK : Kin a0 d) : Kin a0 (malformed d port vc reason words) := by
  unfold malformed
  try dsimp only
  with_reducible repeat'
    first
    | assumption | apply bump_kin | apply updPort_kin | apply protocolTrap_kin | split | apply kin_fst (by assumption)
    | apply kin_snd (by assumption) | intro _
    | (apply kin_other; first | assumption | apply bump_kin | apply updPort_kin | apply protocolTrap_kin)
    | (apply kin_other; apply kin_other; first | assumption | apply bump_kin | apply updPort_kin | apply protocolTrap_kin)
    | (apply kin_mk <;> first | assumption | apply bump_kin | apply updPort_kin | apply protocolTrap_kin | (intro w; first | exact w | exact wf_set _ _ w | exact wf_upd _ _ w | exact wf_del _ w | exact wf_keep _ w | exact wf_mapV _ w | exact wf_filter _ w | (simp; done) | (simpa using w) | (rw [length_listSet]; exact w)))

theorem takeArrived_kin {a0 : Dev} {d : Dev} {k : PktRx} (hK : Kin a0 d) : Kin a0 (takeArrived d k) := by
  unfold takeArrived
  try dsimp only
  with_reducible repeat'
    first
    | assumption | intro _ | (apply kin_other; first | assumption) | (apply kin_other; apply kin_other; first | assumption)
    | (apply kin_mk <;> first | assumption | (intro w; first | exact w | exact wf_set _ _ w | exact wf_upd _ _ w | exact wf_del _ w | exact wf_keep _ w | exact wf_mapV _ w | exact wf_filter _ w | (simp; done) | (simpa using w) | (rw [length_listSet]; exact w)))

theorem passOn_kin {a0 : Dev} {d : Dev} {k : PktRx} (hK : Kin a0 d) : Kin a0 (passOn d k) := by
  unfold passOn
  try dsimp only
  with_reducible repeat' first | assumption | apply bump_kin | apply routeOrHold_kin | split | intro _

theorem onArrival_kin {k : PktRx} {t : Nat} {bad : Dev → Option Nat} {f : Dev → Dev} {s : State} (g_f : ∀ e, Kin s.dev e → Kin s.dev (f e)) : KinS s (onArrival k t bad f s) := by
  unfold onArrival
  try dsimp only
  with_reducible repeat'
    first
    | assumption | apply g_f | exact kinS_fault | exact Kin.refl _ | apply onUnit_kin | apply takeArrived_kin | apply bump_kin
    | apply passOn_kin | apply malformed_kin | split | apply kin_fst (by assumption) | apply kin_snd (by assumption) | intro _

theorem onArrivalKind_kin {k : PktRx} {t : Nat} {kindOk : Bool} {bad : Dev → Option Nat} {f : Dev → Dev} {s : State} (g_f : ∀ e, Kin s.dev e → Kin s.dev (f e)) : KinS s (onArrivalKind k t kindOk bad f s) := by
  unfold onArrivalKind
  try dsimp only
  with_reducible repeat'
    first
    | assumption | apply g_f | exact kinS_fault | exact Kin.refl _ | apply onArrival_kin | split | intro _

end Sys2Proof.Machine
end

