-- ==== Sys2Proof/Laws/KinStore.lean ====
section
/-!
SUPPORT. Sys2Proof/Laws/KinStore.lean: every operation of Store.lean keeps time, identity and the form of the tables.
-/
namespace Sys2Proof.Machine
open SMap

theorem setSlab_kin {a0 : Dev} {d : Dev} {j rn k : Nat} {x : Slab} (hK : Kin a0 d) : Kin a0 (setSlab d j rn k x) := by
  unfold setSlab
  try dsimp only
  with_reducible repeat'
    first
    | assumption | apply updJob_kin | intro _ | (apply kin_other; first | assumption | apply updJob_kin)
    | (apply kin_other; apply kin_other; first | assumption | apply updJob_kin)
    | (apply kin_mk <;> first | assumption | apply updJob_kin | (intro w; first | exact w | exact wf_set _ _ w | exact wf_upd _ _ w | exact wf_del _ w | exact wf_keep _ w | exact wf_mapV _ w | exact wf_filter _ w | (simp; done) | (simpa using w) | (rw [length_listSet]; exact w)))

theorem updSlab_kin {a0 : Dev} {d : Dev} {j rn k : Nat} {f : Slab → Slab} (hK : Kin a0 d) : Kin a0 (updSlab d j rn k f) := by
  unfold updSlab
  try dsimp only
  with_reducible repeat'
    first
    | assumption | apply updJob_kin | intro _ | (apply kin_other; first | assumption | apply updJob_kin)
    | (apply kin_other; apply kin_other; first | assumption | apply updJob_kin)
    | (apply kin_mk <;> first | assumption | apply updJob_kin | (intro w; first | exact w | exact wf_set _ _ w | exact wf_upd _ _ w | exact wf_del _ w | exact wf_keep _ w | exact wf_mapV _ w | exact wf_filter _ w | (simp; done) | (simpa using w) | (rw [length_listSet]; exact w)))

theorem looseWrite_kin {a0 : Dev} {d : Dev} {u n : Nat} (hK : Kin a0 d) : Kin a0 (looseWrite d u n) := by
  unfold looseWrite
  try dsimp only
  with_reducible repeat'
    first
    | assumption | apply drawFree_kin | apply bumpBy_kin | split | apply kin_fst (by assumption)
    | apply kin_snd (by assumption) | intro _

theorem setDamaged_kin {a0 : Dev} {d : Dev} {j rn k : Nat} {v : Bool} (hK : Kin a0 d) : Kin a0 (setDamaged d j rn k v) := by
  unfold setDamaged
  try dsimp only
  with_reducible repeat'
    first
    | assumption | apply updSlab_kin | apply setCtr_kin | split | apply kin_fst (by assumption)
    | apply kin_snd (by assumption) | intro _ | (apply kin_other; first | assumption | apply updSlab_kin | apply setCtr_kin)
    | (apply kin_other; apply kin_other; first | assumption | apply updSlab_kin | apply setCtr_kin)
    | (apply kin_mk <;> first | assumption | apply updSlab_kin | apply setCtr_kin | (intro w; first | exact w | exact wf_set _ _ w | exact wf_upd _ _ w | exact wf_del _ w | exact wf_keep _ w | exact wf_mapV _ w | exact wf_filter _ w | (simp; done) | (simpa using w) | (rw [length_listSet]; exact w)))

end Sys2Proof.Machine
end

