-- ==== Sys2Proof/Laws/KinRecord.lean ====
section
/-!
SUPPORT. Sys2Proof/Laws/KinRecord.lean: every operation of Record.lean keeps time, identity and the form of the tables.
-/
namespace Sys2Proof.Machine
open SMap

theorem updRec_kin {a0 : Dev} {d : Dev} {j : Nat} {f : Rec → Rec} (hK : Kin a0 d) : Kin a0 (updRec d j f) := by
  unfold updRec
  try dsimp only
  with_reducible repeat'
    first
    | assumption | apply updJob_kin | intro _ | (apply kin_other; first | assumption | apply updJob_kin)
    | (apply kin_other; apply kin_other; first | assumption | apply updJob_kin)
    | (apply kin_mk <;> first | assumption | apply updJob_kin | (intro w; first | exact w | exact wf_set _ _ w | exact wf_upd _ _ w | exact wf_del _ w | exact wf_keep _ w | exact wf_mapV _ w | exact wf_filter _ w | (simp; done) | (simpa using w) | (rw [length_listSet]; exact w)))

theorem sendRecData_kin {a0 : Dev} {d : Dev} {j port off : Nat} {first : Bool} {y0 : Nat} {y1 : List W64} (hK : Kin a0 d) : Kin a0 (sendRecData d j port off first y0 y1) := by
  induction y0 generalizing d j port off first y1 with
  | zero =>
    unfold sendRecData
    try dsimp only
    with_reducible repeat'
      first
      | assumption | apply enqueue_kin | split | apply kin_fst (by assumption) | apply kin_snd (by assumption) | intro _
      | (apply kin_other; first | assumption | apply enqueue_kin)
      | (apply kin_other; apply kin_other; first | assumption | apply enqueue_kin)
      | (apply kin_mk <;> first | assumption | apply enqueue_kin | (intro w; first | exact w | exact wf_set _ _ w | exact wf_upd _ _ w | exact wf_del _ w | exact wf_keep _ w | exact wf_mapV _ w | exact wf_filter _ w | (simp; done) | (simpa using w) | (rw [length_listSet]; exact w)))
  | succ k ih =>
    unfold sendRecData
    try dsimp only
    with_reducible repeat'
      first
      | assumption | apply ih | apply enqueue_kin | split | apply kin_fst (by assumption) | apply kin_snd (by assumption)
      | intro _ | (apply kin_other; first | assumption | apply enqueue_kin)
      | (apply kin_other; apply kin_other; first | assumption | apply enqueue_kin)
      | (apply kin_mk <;> first | assumption | apply enqueue_kin | (intro w; first | exact w | exact wf_set _ _ w | exact wf_upd _ _ w | exact wf_del _ w | exact wf_keep _ w | exact wf_mapV _ w | exact wf_filter _ w | (simp; done) | (simpa using w) | (rw [length_listSet]; exact w)))

theorem putRecord_kin {a0 : Dev} {d : Dev} {j : Nat} {r : Rec} {ws : List W64} (hK : Kin a0 d) : Kin a0 (putRecord d j r ws) := by
  unfold putRecord
  try dsimp only
  with_reducible repeat'
    first
    | assumption | apply bumpBy_kin | apply updRec_kin | apply sendRecData_kin | split | intro _
    | (apply kin_other; first | assumption | apply bumpBy_kin | apply updRec_kin | apply sendRecData_kin)
    | (apply kin_other; apply kin_other; first | assumption | apply bumpBy_kin | apply updRec_kin | apply sendRecData_kin)
    | (apply kin_mk <;> first | assumption | apply bumpBy_kin | apply updRec_kin | apply sendRecData_kin | (intro w; first | exact w | exact wf_set _ _ w | exact wf_upd _ _ w | exact wf_del _ w | exact wf_keep _ w | exact wf_mapV _ w | exact wf_filter _ w | (simp; done) | (simpa using w) | (rw [length_listSet]; exact w)))

theorem recPut_kin {a0 : Dev} {d : Dev} {j : Nat} {jb : Job} {r : Rec} {rtype : Nat} {body : List W64} (hK : Kin a0 d) : Kin a0 (recPut d j jb r rtype body) := by
  unfold recPut
  try dsimp only
  with_reducible repeat'
    first
    | assumption | apply putRecord_kin | apply raiseTrap_kin | apply updRec_kin | apply bump_kin | apply kinO_getD | split
    | intro _
    | (apply kin_other; first | assumption | apply putRecord_kin | apply raiseTrap_kin | apply updRec_kin | apply bump_kin | apply kinO_getD)
    | (apply kin_other; apply kin_other; first | assumption | apply putRecord_kin | apply raiseTrap_kin | apply updRec_kin | apply bump_kin | apply kinO_getD)
    | (apply kin_mk <;> first | assumption | apply putRecord_kin | apply raiseTrap_kin | apply updRec_kin | apply bump_kin | apply kinO_getD | (intro w; first | exact w | exact wf_set _ _ w | exact wf_upd _ _ w | exact wf_del _ w | exact wf_keep _ w | exact wf_mapV _ w | exact wf_filter _ w | (simp; done) | (simpa using w) | (rw [length_listSet]; exact w)))

theorem recBegin_kin {a0 : Dev} {d : Dev} {j : Nat} (hK : Kin a0 d) : Kin a0 (recBegin d j) := by
  unfold recBegin
  try dsimp only
  with_reducible repeat'
    first
    | assumption | apply updRec_kin | apply recPut_kin | split | apply kin_fst (by assumption) | apply kin_snd (by assumption)
    | intro _ | (apply kin_other; first | assumption | apply updRec_kin | apply recPut_kin)
    | (apply kin_other; apply kin_other; first | assumption | apply updRec_kin | apply recPut_kin)
    | (apply kin_mk <;> first | assumption | apply updRec_kin | apply recPut_kin | (intro w; first | exact w | exact wf_set _ _ w | exact wf_upd _ _ w | exact wf_del _ w | exact wf_keep _ w | exact wf_mapV _ w | exact wf_filter _ w | (simp; done) | (simpa using w) | (rw [length_listSet]; exact w)))

theorem recWrite_kin {a0 : Dev} {d : Dev} {j rtype : Nat} {body : List W64} (hK : Kin a0 d) : Kin a0 (recWrite d j rtype body) := by
  unfold recWrite
  try dsimp only
  with_reducible repeat'
    first
    | assumption | apply recBegin_kin | apply recPut_kin | split | apply kin_fst (by assumption)
    | apply kin_snd (by assumption) | intro _

theorem recEnd_kin {a0 : Dev} {d : Dev} {j : Nat} (hK : Kin a0 d) : Kin a0 (recEnd d j) := by
  unfold recEnd
  try dsimp only
  with_reducible repeat'
    first
    | assumption | apply recPut_kin | split | apply kin_fst (by assumption) | apply kin_snd (by assumption) | intro _

theorem countHold_kin {a0 : Dev} {d : Dev} {j : Nat} (hK : Kin a0 d) : Kin a0 (countHold d j) := by
  unfold countHold
  try dsimp only
  with_reducible repeat'
    first
    | assumption | apply updRec_kin | apply bumpBy_kin | split | apply kin_fst (by assumption) | apply kin_snd (by assumption)
    | intro _ | (apply kin_other; first | assumption | apply updRec_kin | apply bumpBy_kin)
    | (apply kin_other; apply kin_other; first | assumption | apply updRec_kin | apply bumpBy_kin)
    | (apply kin_mk <;> first | assumption | apply updRec_kin | apply bumpBy_kin | (intro w; first | exact w | exact wf_set _ _ w | exact wf_upd _ _ w | exact wf_del _ w | exact wf_keep _ w | exact wf_mapV _ w | exact wf_filter _ w | (simp; done) | (simpa using w) | (rw [length_listSet]; exact w)))

theorem recUnhold_kin {a0 : Dev} {d : Dev} {j : Nat} {r : Rec} (hK : Kin a0 d) : Kin a0 (recUnhold d j r) := by
  unfold recUnhold
  try dsimp only
  with_reducible repeat'
    first
    | assumption | apply updJob_kin | apply countHold_kin | split | intro _
    | (apply kin_other; first | assumption | apply updJob_kin | apply countHold_kin)
    | (apply kin_other; apply kin_other; first | assumption | apply updJob_kin | apply countHold_kin)
    | (apply kin_mk <;> first | assumption | apply updJob_kin | apply countHold_kin | (intro w; first | exact w | exact wf_set _ _ w | exact wf_upd _ _ w | exact wf_del _ w | exact wf_keep _ w | exact wf_mapV _ w | exact wf_filter _ w | (simp; done) | (simpa using w) | (rw [length_listSet]; exact w)))

theorem onEnded_kin {a0 : Dev} {d : Dev} {j : Nat} {f : Dev → Nat → Dev} (hK : Kin a0 d) (g_f : ∀ e x0, Kin a0 e → Kin a0 (f e x0)) : Kin a0 (onEnded d j f) := by
  unfold onEnded
  try dsimp only
  with_reducible repeat'
    first
    | assumption | apply g_f | apply updJob_kin | split | apply kin_fst (by assumption) | apply kin_snd (by assumption)
    | intro _ | (apply kin_other; first | assumption | apply g_f | apply updJob_kin)
    | (apply kin_other; apply kin_other; first | assumption | apply g_f | apply updJob_kin)
    | (apply kin_mk <;> first | assumption | apply g_f | apply updJob_kin | (intro w; first | exact w | exact wf_set _ _ w | exact wf_upd _ _ w | exact wf_del _ w | exact wf_keep _ w | exact wf_mapV _ w | exact wf_filter _ w | (simp; done) | (simpa using w) | (rw [length_listSet]; exact w)))

theorem recFlush_kin {a0 : Dev} {d : Dev} {j : Nat} (hK : Kin a0 d) : Kin a0 (recFlush d j) := by
  unfold recFlush
  try dsimp only
  with_reducible repeat'
    first
    | assumption | apply updRec_kin | apply forEach_kin | apply recPut_kin | apply recUnhold_kin | split
    | apply kin_fst (by assumption) | apply kin_snd (by assumption) | intro _
    | (apply kin_other; first | assumption | apply updRec_kin | apply forEach_kin | apply recPut_kin | apply recUnhold_kin)
    | (apply kin_other; apply kin_other; first | assumption | apply updRec_kin | apply forEach_kin | apply recPut_kin | apply recUnhold_kin)
    | (apply kin_mk <;> first | assumption | apply updRec_kin | apply forEach_kin | apply recPut_kin | apply recUnhold_kin | (intro w; first | exact w | exact wf_set _ _ w | exact wf_upd _ _ w | exact wf_del _ w | exact wf_keep _ w | exact wf_mapV _ w | exact wf_filter _ w | (simp; done) | (simpa using w) | (rw [length_listSet]; exact w)))

theorem recFlushAll_kin {a0 : Dev} {d : Dev} {j : Nat} (hK : Kin a0 d) : Kin a0 (recFlushAll d j) := by
  unfold recFlushAll
  try dsimp only
  with_reducible repeat'
    first
    | assumption | apply recFlush_kin | apply forEach_kin | apply onEnded_kin | split | apply kin_fst (by assumption)
    | apply kin_snd (by assumption) | intro _

end Sys2Proof.Machine
end

