-- ==== Sys2Proof/Laws/KinGraphOps.lean ====
section
/-!
SUPPORT. Sys2Proof/Laws/KinGraphOps.lean: every operation of GraphOps.lean keeps time, identity and the form of the tables.
-/
namespace Sys2Proof.Machine
open SMap

theorem foldlMarked_kin {a : Dev} {α : Type} {l : List α} {f : Marked → α → Marked} {m : Marked} (h : Kin a m.dev)
    (g : ∀ m x, Kin a m.dev → Kin a (f m x).dev) : Kin a (l.foldl f m).dev := by
  induction l generalizing m with
  | nil => exact h
  | cons x r ih => exact ih (g m x h)

theorem updNode_kin {a0 : Dev} {d : Dev} {j g i : Nat} {f : Node → Node} (hK : Kin a0 d) : Kin a0 (updNode d j g i f) := by
  unfold updNode
  try dsimp only
  with_reducible repeat'
    first
    | assumption | apply updJob_kin | intro _ | (apply kin_other; first | assumption | apply updJob_kin)
    | (apply kin_other; apply kin_other; first | assumption | apply updJob_kin)
    | (apply kin_mk <;> first | assumption | apply updJob_kin | (intro w; first | exact w | exact wf_set _ _ w | exact wf_upd _ _ w | exact wf_del _ w | exact wf_keep _ w | exact wf_mapV _ w | exact wf_filter _ w | (simp; done) | (simpa using w) | (rw [length_listSet]; exact w)))

theorem countWaits_kin {a0 : Dev} {d : Dev} (hK : Kin a0 d) : Kin a0 (countWaits d) := by
  unfold countWaits
  try dsimp only
  with_reducible repeat' first | assumption | apply forEach_kin | apply bumpBy_kin | intro _

theorem endNode_kin {a0 : Dev} {m : Marked} {j g i : Nat} {st : NodeSt} {cause : Nat} (hK : Kin a0 m.dev) : Kin a0 (endNode m j g i st cause).dev := by
  unfold endNode
  try dsimp only
  with_reducible repeat'
    first
    | assumption | apply bumpBy_kin | apply updNode_kin | apply bump_kin | split | apply kin_fst (by assumption)
    | apply kin_snd (by assumption) | intro _
    | (apply kin_other; first | assumption | apply bumpBy_kin | apply updNode_kin | apply bump_kin)
    | (apply kin_other; apply kin_other; first | assumption | apply bumpBy_kin | apply updNode_kin | apply bump_kin)
    | (apply kin_mk <;> first | assumption | apply bumpBy_kin | apply updNode_kin | apply bump_kin | (intro w; first | exact w | exact wf_set _ _ w | exact wf_upd _ _ w | exact wf_del _ w | exact wf_keep _ w | exact wf_mapV _ w | exact wf_filter _ w | (simp; done) | (simpa using w) | (rw [length_listSet]; exact w)))

theorem readyNode_kin {a0 : Dev} {d : Dev} {j g i : Nat} (hK : Kin a0 d) : Kin a0 (readyNode d j g i) := by
  unfold readyNode
  try dsimp only
  with_reducible repeat'
    first
    | assumption | apply updNode_kin | intro _ | (apply kin_other; first | assumption | apply updNode_kin)
    | (apply kin_other; apply kin_other; first | assumption | apply updNode_kin)
    | (apply kin_mk <;> first | assumption | apply updNode_kin | (intro w; first | exact w | exact wf_set _ _ w | exact wf_upd _ _ w | exact wf_del _ w | exact wf_keep _ w | exact wf_mapV _ w | exact wf_filter _ w | (simp; done) | (simpa using w) | (rw [length_listSet]; exact w)))

theorem settleNode_kin {a0 : Dev} {j g : Nat} {m : Marked} {i : Nat} (hK : Kin a0 m.dev) : Kin a0 (settleNode j g m i).dev := by
  unfold settleNode
  try dsimp only
  with_reducible repeat'
    first
    | assumption | apply readyNode_kin | apply endNode_kin | split | apply kin_fst (by assumption)
    | apply kin_snd (by assumption) | intro _
    | (apply kin_other; first | assumption | apply readyNode_kin | apply endNode_kin)
    | (apply kin_other; apply kin_other; first | assumption | apply readyNode_kin | apply endNode_kin)
    | (apply kin_mk <;> first | assumption | apply readyNode_kin | apply endNode_kin | (intro w; first | exact w | exact wf_set _ _ w | exact wf_upd _ _ w | exact wf_del _ w | exact wf_keep _ w | exact wf_mapV _ w | exact wf_filter _ w | (simp; done) | (simpa using w) | (rw [length_listSet]; exact w)))

theorem settleGraph_kin {a0 : Dev} {j : Nat} {m : Marked} {g : Nat} (hK : Kin a0 m.dev) : Kin a0 (settleGraph j m g).dev := by
  unfold settleGraph
  try dsimp only
  with_reducible repeat'
    first
    | assumption | apply foldlMarked_kin | apply settleNode_kin | apply updJob_kin | split | apply kin_fst (by assumption)
    | apply kin_snd (by assumption) | intro _
    | (apply kin_other; first | assumption | apply foldlMarked_kin | apply settleNode_kin | apply updJob_kin)
    | (apply kin_other; apply kin_other; first | assumption | apply foldlMarked_kin | apply settleNode_kin | apply updJob_kin)
    | (apply kin_mk <;> first | assumption | apply foldlMarked_kin | apply settleNode_kin | apply updJob_kin | (intro w; first | exact w | exact wf_set _ _ w | exact wf_upd _ _ w | exact wf_del _ w | exact wf_keep _ w | exact wf_mapV _ w | exact wf_filter _ w | (simp; done) | (simpa using w) | (rw [length_listSet]; exact w)))

theorem settleAll_kin {a0 : Dev} {m : Marked} (hK : Kin a0 m.dev) : Kin a0 (settleAll m).dev := by
  unfold settleAll
  try dsimp only
  with_reducible repeat'
    first
    | assumption | apply foldlMarked_kin | apply settleGraph_kin | split | apply kin_fst (by assumption)
    | apply kin_snd (by assumption) | intro _

theorem endNodesIf_kin {a0 : Dev} {j g : Nat} {p : Node → Bool} {st : NodeSt} {cause : Nat} {m : Marked} (hK : Kin a0 m.dev) : Kin a0 (endNodesIf j g p st cause m).dev := by
  unfold endNodesIf
  try dsimp only
  with_reducible repeat'
    first
    | assumption | apply foldlMarked_kin | apply endNode_kin | split | apply kin_fst (by assumption)
    | apply kin_snd (by assumption) | intro _

theorem graphsSealed_kin {a0 : Dev} {j step attempt : Nat} {d : Dev} (hK : Kin a0 d) : Kin a0 (graphsSealed j step attempt d).dev := by
  unfold graphsSealed
  try dsimp only
  with_reducible repeat'
    first
    | assumption | apply foldlMarked_kin | apply step_kin | apply settleAll_kin | apply endNodesIf_kin | apply updJob_kin
    | split | apply kin_fst (by assumption) | apply kin_snd (by assumption) | intro _
    | (apply kin_other; first | assumption | apply foldlMarked_kin | apply step_kin | apply settleAll_kin | apply endNodesIf_kin | apply updJob_kin)
    | (apply kin_other; apply kin_other; first | assumption | apply foldlMarked_kin | apply step_kin | apply settleAll_kin | apply endNodesIf_kin | apply updJob_kin)
    | (apply kin_mk <;> first | assumption | apply foldlMarked_kin | apply step_kin | apply settleAll_kin | apply endNodesIf_kin | apply updJob_kin | (intro w; first | exact w | exact wf_set _ _ w | exact wf_upd _ _ w | exact wf_del _ w | exact wf_keep _ w | exact wf_mapV _ w | exact wf_filter _ w | (simp; done) | (simpa using w) | (rw [length_listSet]; exact w)))

theorem graphsAborted_kin {a0 : Dev} {j step attempt : Nat} {d : Dev} (hK : Kin a0 d) : Kin a0 (graphsAborted j step attempt d).dev := by
  unfold graphsAborted
  try dsimp only
  with_reducible repeat'
    first
    | assumption | apply foldlMarked_kin | apply step_kin | apply settleAll_kin | apply endNodesIf_kin | split
    | apply kin_fst (by assumption) | apply kin_snd (by assumption) | intro _
    | (apply kin_other; first | assumption | apply foldlMarked_kin | apply step_kin | apply settleAll_kin | apply endNodesIf_kin)
    | (apply kin_other; apply kin_other; first | assumption | apply foldlMarked_kin | apply step_kin | apply settleAll_kin | apply endNodesIf_kin)
    | (apply kin_mk <;> first | assumption | apply foldlMarked_kin | apply step_kin | apply settleAll_kin | apply endNodesIf_kin | (intro w; first | exact w | exact wf_set _ _ w | exact wf_upd _ _ w | exact wf_del _ w | exact wf_keep _ w | exact wf_mapV _ w | exact wf_filter _ w | (simp; done) | (simpa using w) | (rw [length_listSet]; exact w)))

end Sys2Proof.Machine
end

