-- ==== Sys2Proof/Laws/KinReply.lean ====
section
/-!
SUPPORT. Sys2Proof/Laws/KinReply.lean: every operation of Reply.lean keeps time, identity and the form of the tables.
-/
namespace Sys2Proof.Machine
open SMap

theorem sendOuvrov_kin {a0 : Dev} {d : Dev} {src : CmdSrc} {hjob : Nat} {words : List W64} (hK : Kin a0 d) : Kin a0 (sendOuvrov d src hjob words) := by
  unfold sendOuvrov
  try dsimp only
  with_reducible repeat'
    first
    | assumption | apply output_kin | apply sendPort_kin | split | apply kin_fst (by assumption)
    | apply kin_snd (by assumption) | intro _ | (apply kin_other; first | assumption | apply output_kin | apply sendPort_kin)
    | (apply kin_other; apply kin_other; first | assumption | apply output_kin | apply sendPort_kin)
    | (apply kin_mk <;> first | assumption | apply output_kin | apply sendPort_kin | (intro w; first | exact w | exact wf_set _ _ w | exact wf_upd _ _ w | exact wf_del _ w | exact wf_keep _ w | exact wf_mapV _ w | exact wf_filter _ w | (simp; done) | (simpa using w) | (rw [length_listSet]; exact w)))

theorem updSession_kin {a0 : Dev} {d : Dev} {w : Waiting} {f : Session → Session} (hK : Kin a0 d) : Kin a0 (updSession d w f) := by
  unfold updSession
  try dsimp only
  with_reducible repeat'
    first
    | assumption | apply updMgmt_kin | split | intro _ | (apply kin_other; first | assumption | apply updMgmt_kin)
    | (apply kin_other; apply kin_other; first | assumption | apply updMgmt_kin)
    | (apply kin_mk <;> first | assumption | apply updMgmt_kin | (intro w; first | exact w | exact wf_set _ _ w | exact wf_upd _ _ w | exact wf_del _ w | exact wf_keep _ w | exact wf_mapV _ w | exact wf_filter _ w | (simp; done) | (simpa using w) | (rw [length_listSet]; exact w)))

theorem countReject_kin {a0 : Dev} {d : Dev} {w : Waiting} {r : Reply} (hK : Kin a0 d) : Kin a0 (countReject d w r) := by
  unfold countReject
  try dsimp only
  with_reducible repeat'
    first
    | assumption | apply bump_kin | split | apply kin_fst (by assumption) | apply kin_snd (by assumption) | intro _

theorem cacheReply_kin {a0 : Dev} {d : Dev} {w : Waiting} {r : Reply} (hK : Kin a0 d) : Kin a0 (cacheReply d w r).1 := by
  unfold cacheReply
  try dsimp only
  with_reducible repeat'
    first
    | assumption | apply allocOp_kin | split | apply kin_fst (by assumption) | apply kin_snd (by assumption) | intro _
    | (apply kin_other; first | assumption | apply allocOp_kin)
    | (apply kin_other; apply kin_other; first | assumption | apply allocOp_kin)
    | (apply kin_mk <;> first | assumption | apply allocOp_kin | (intro w; first | exact w | exact wf_set _ _ w | exact wf_upd _ _ w | exact wf_del _ w | exact wf_keep _ w | exact wf_mapV _ w | exact wf_filter _ w | (simp; done) | (simpa using w) | (rw [length_listSet]; exact w)))

theorem keepReply_kin {a0 : Dev} {d : Dev} {w : Waiting} {r : Reply} {h : Option Nat} (hK : Kin a0 d) : Kin a0 (keepReply d w r h) := by
  unfold keepReply
  try dsimp only
  with_reducible repeat'
    first
    | assumption | apply updSession_kin | apply poolReleaseOpt_kin | split | intro _
    | (apply kin_other; first | assumption | apply updSession_kin | apply poolReleaseOpt_kin)
    | (apply kin_other; apply kin_other; first | assumption | apply updSession_kin | apply poolReleaseOpt_kin)
    | (apply kin_mk <;> first | assumption | apply updSession_kin | apply poolReleaseOpt_kin | (intro w; first | exact w | exact wf_set _ _ w | exact wf_upd _ _ w | exact wf_del _ w | exact wf_keep _ w | exact wf_mapV _ w | exact wf_filter _ w | (simp; done) | (simpa using w) | (rw [length_listSet]; exact w)))

theorem freeSession_kin {a0 : Dev} {d : Dev} {s : Session} (hK : Kin a0 d) : Kin a0 (freeSession d s) := by
  unfold freeSession
  try dsimp only
  with_reducible repeat'
    first
    | assumption | apply forEach_kin | apply poolReleaseOpt_kin | apply poolRelease_kin | split
    | apply kin_fst (by assumption) | apply kin_snd (by assumption) | intro _

theorem removeSessions_kin {a0 : Dev} {d : Dev} {p : Session → Bool} (hK : Kin a0 d) : Kin a0 (removeSessions d p) := by
  unfold removeSessions
  try dsimp only
  with_reducible repeat'
    first
    | assumption | apply forEach_kin | apply updMgmt_kin | apply freeSession_kin | intro _
    | (apply kin_other; first | assumption | apply forEach_kin | apply updMgmt_kin | apply freeSession_kin)
    | (apply kin_other; apply kin_other; first | assumption | apply forEach_kin | apply updMgmt_kin | apply freeSession_kin)
    | (apply kin_mk <;> first | assumption | apply forEach_kin | apply updMgmt_kin | apply freeSession_kin | (intro w; first | exact w | exact wf_set _ _ w | exact wf_upd _ _ w | exact wf_del _ w | exact wf_keep _ w | exact wf_mapV _ w | exact wf_filter _ w | (simp; done) | (simpa using w) | (rw [length_listSet]; exact w)))

theorem endDying_kin {a0 : Dev} {d : Dev} {w : Waiting} (hK : Kin a0 d) : Kin a0 (endDying d w) := by
  unfold endDying
  try dsimp only
  with_reducible repeat' first | assumption | apply removeSessions_kin | intro _

theorem finalReply_kin {a0 : Dev} {d : Dev} {w : Waiting} {r0 : Reply} (hK : Kin a0 d) : Kin a0 (finalReply d w r0) := by
  unfold finalReply
  try dsimp only
  with_reducible repeat'
    first
    | assumption | apply cacheReply_kin | apply keepReply_kin | apply updMgmt_kin | apply endDying_kin
    | apply poolReleaseOpt_kin | apply countReject_kin | apply sendOuvrov_kin | split | apply kin_fst (by assumption)
    | apply kin_snd (by assumption) | intro _
    | (apply kin_other; first | assumption | apply cacheReply_kin | apply keepReply_kin | apply updMgmt_kin | apply endDying_kin | apply poolReleaseOpt_kin | apply countReject_kin | apply sendOuvrov_kin)
    | (apply kin_other; apply kin_other; first | assumption | apply cacheReply_kin | apply keepReply_kin | apply updMgmt_kin | apply endDying_kin | apply poolReleaseOpt_kin | apply countReject_kin | apply sendOuvrov_kin)
    | (apply kin_mk <;> first | assumption | apply cacheReply_kin | apply keepReply_kin | apply updMgmt_kin | apply endDying_kin | apply poolReleaseOpt_kin | apply countReject_kin | apply sendOuvrov_kin | (intro w; first | exact w | exact wf_set _ _ w | exact wf_upd _ _ w | exact wf_del _ w | exact wf_keep _ w | exact wf_mapV _ w | exact wf_filter _ w | (simp; done) | (simpa using w) | (rw [length_listSet]; exact w)))

theorem finishCmds_kin {a0 : Dev} {d : Dev} {p : Waiting → Bool} {r : Reply} (hK : Kin a0 d) : Kin a0 (finishCmds d p r) := by
  unfold finishCmds
  try dsimp only
  with_reducible repeat' first | assumption | apply forEach_kin | apply finalReply_kin | intro _

theorem interimReply_kin {a0 : Dev} {d : Dev} {w : Waiting} (hK : Kin a0 d) : Kin a0 (interimReply d w) := by
  unfold interimReply
  try dsimp only
  with_reducible repeat' first | assumption | apply sendOuvrov_kin | split | intro _

end Sys2Proof.Machine
end

