-- ==== Sys2Proof/Laws/KinSealOps.lean ====
section
/-!
SUPPORT. Sys2Proof/Laws/KinSealOps.lean: every operation of SealOps.lean keeps time, identity and the form of the tables.
-/
namespace Sys2Proof.Machine
open SMap

theorem sendHeld_kin {a0 : Dev} {d : Dev} {j ptype vc dst : Nat} {key : List Nat} {words : List W64} (hK : Kin a0 d) : Kin a0 (sendHeld d j ptype vc dst key words) := by
  unfold sendHeld
  try dsimp only
  with_reducible repeat'
    first
    | assumption | apply sendOrd_kin | apply updJob_kin | intro _
    | (apply kin_other; first | assumption | apply sendOrd_kin | apply updJob_kin)
    | (apply kin_other; apply kin_other; first | assumption | apply sendOrd_kin | apply updJob_kin)
    | (apply kin_mk <;> first | assumption | apply sendOrd_kin | apply updJob_kin | (intro w; first | exact w | exact wf_set _ _ w | exact wf_upd _ _ w | exact wf_del _ w | exact wf_keep _ w | exact wf_mapV _ w | exact wf_filter _ w | (simp; done) | (simpa using w) | (rw [length_listSet]; exact w)))

theorem nextMsg_kin {a0 : Dev} {d : Dev} {j : Nat} (hK : Kin a0 d) : Kin a0 (nextMsg d j).2 := by
  unfold nextMsg
  try dsimp only
  with_reducible repeat'
    first
    | assumption | apply updJob_kin | split | apply kin_fst (by assumption) | apply kin_snd (by assumption) | intro _
    | (apply kin_other; first | assumption | apply updJob_kin)
    | (apply kin_other; apply kin_other; first | assumption | apply updJob_kin)
    | (apply kin_mk <;> first | assumption | apply updJob_kin | (intro w; first | exact w | exact wf_set _ _ w | exact wf_upd _ _ w | exact wf_del _ w | exact wf_keep _ w | exact wf_mapV _ w | exact wf_filter _ w | (simp; done) | (simpa using w) | (rw [length_listSet]; exact w)))

theorem sendSealOf_kin {a0 : Dev} {d : Dev} {j kind dst step attempt : Nat} {f : SealFields} (hK : Kin a0 d) : Kin a0 (sendSealOf d j kind dst step attempt f) := by
  unfold sendSealOf
  try dsimp only
  with_reducible repeat'
    first
    | assumption | apply nextMsg_kin | apply sendHeld_kin | apply step_kin | split | apply kin_fst (by assumption)
    | apply kin_snd (by assumption) | intro _

theorem sendSeal_kin {a0 : Dev} {d : Dev} {j kind dst : Nat} {f : SealFields} (hK : Kin a0 d) : Kin a0 (sendSeal d j kind dst f) := by
  unfold sendSeal
  try dsimp only
  with_reducible repeat'
    first
    | assumption | apply sendSealOf_kin | split | apply kin_fst (by assumption) | apply kin_snd (by assumption) | intro _

theorem sendNotice_kin {a0 : Dev} {d : Dev} {j ptype c epoch cause : Nat} (hK : Kin a0 d) : Kin a0 (sendNotice d j ptype c epoch cause) := by
  unfold sendNotice
  try dsimp only
  with_reducible repeat'
    first
    | assumption | apply forEach_kin | apply nextMsg_kin | apply sendHeld_kin | split | apply kin_fst (by assumption)
    | apply kin_snd (by assumption) | intro _

theorem sendHaulEnd_kin {a0 : Dev} {d : Dev} {c m outcome : Nat} (hK : Kin a0 d) : Kin a0 (sendHaulEnd d c m outcome) := by
  unfold sendHaulEnd
  try dsimp only
  with_reducible repeat'
    first
    | assumption | apply step_kin | apply updCtx_kin | apply sendMember_kin | apply kinO_getD | split
    | apply kin_fst (by assumption) | apply kin_snd (by assumption) | intro _
    | (apply kin_other; first | assumption | apply step_kin | apply updCtx_kin | apply sendMember_kin | apply kinO_getD)
    | (apply kin_other; apply kin_other; first | assumption | apply step_kin | apply updCtx_kin | apply sendMember_kin | apply kinO_getD)
    | (apply kin_mk <;> first | assumption | apply step_kin | apply updCtx_kin | apply sendMember_kin | apply kinO_getD | (intro w; first | exact w | exact wf_set _ _ w | exact wf_upd _ _ w | exact wf_del _ w | exact wf_keep _ w | exact wf_mapV _ w | exact wf_filter _ w | (simp; done) | (simpa using w) | (rw [length_listSet]; exact w)))

theorem haulEndAll_kin {a0 : Dev} {d : Dev} {c outcome : Nat} (hK : Kin a0 d) : Kin a0 (haulEndAll d c outcome) := by
  unfold haulEndAll
  try dsimp only
  with_reducible repeat'
    first
    | assumption | apply forEach_kin | apply step_kin | apply sendHaulEnd_kin | split | apply kin_fst (by assumption)
    | apply kin_snd (by assumption) | intro _

theorem dropHaul_kin {a0 : Dev} {d : Dev} {c : Nat} (hK : Kin a0 d) : Kin a0 (dropHaul d c) := by
  unfold dropHaul
  try dsimp only
  with_reducible repeat'
    first
    | assumption | intro _ | (apply kin_other; first | assumption) | (apply kin_other; apply kin_other; first | assumption)
    | (apply kin_mk <;> first | assumption | (intro w; first | exact w | exact wf_set _ _ w | exact wf_upd _ _ w | exact wf_del _ w | exact wf_keep _ w | exact wf_mapV _ w | exact wf_filter _ w | (simp; done) | (simpa using w) | (rw [length_listSet]; exact w)))

theorem dropHeld_kin {a0 : Dev} {d : Dev} {j : Nat} {p : Held → Bool} (hK : Kin a0 d) : Kin a0 (dropHeld d j p) := by
  unfold dropHeld
  try dsimp only
  with_reducible repeat'
    first
    | assumption | apply updJob_kin | intro _ | (apply kin_other; first | assumption | apply updJob_kin)
    | (apply kin_other; apply kin_other; first | assumption | apply updJob_kin)
    | (apply kin_mk <;> first | assumption | apply updJob_kin | (intro w; first | exact w | exact wf_set _ _ w | exact wf_upd _ _ w | exact wf_del _ w | exact wf_keep _ w | exact wf_mapV _ w | exact wf_filter _ w | (simp; done) | (simpa using w) | (rw [length_listSet]; exact w)))

theorem dropTrunkHaul_kin {a0 : Dev} {d : Dev} {j step attempt : Nat} {hit : Nat → Nat → Bool} (hK : Kin a0 d) : Kin a0 (dropTrunkHaul d j step attempt hit) := by
  unfold dropTrunkHaul
  try dsimp only
  with_reducible repeat'
    first
    | assumption | apply step_kin | apply dropHeld_kin | apply kinO_getD | split | intro _
    | (apply kin_other; first | assumption | apply step_kin | apply dropHeld_kin | apply kinO_getD)
    | (apply kin_other; apply kin_other; first | assumption | apply step_kin | apply dropHeld_kin | apply kinO_getD)
    | (apply kin_mk <;> first | assumption | apply step_kin | apply dropHeld_kin | apply kinO_getD | (intro w; first | exact w | exact wf_set _ _ w | exact wf_upd _ _ w | exact wf_del _ w | exact wf_keep _ w | exact wf_mapV _ w | exact wf_filter _ w | (simp; done) | (simpa using w) | (rw [length_listSet]; exact w)))

theorem freeEntries_kin {a0 : Dev} {d : Dev} {c : Nat} (hK : Kin a0 d) : Kin a0 (freeEntries d c) := by
  unfold freeEntries
  try dsimp only
  with_reducible repeat'
    first
    | assumption | apply bumpBy_kin | apply updJob_kin | apply updCtx_kin | split | apply kin_fst (by assumption)
    | apply kin_snd (by assumption) | intro _
    | (apply kin_other; first | assumption | apply bumpBy_kin | apply updJob_kin | apply updCtx_kin)
    | (apply kin_other; apply kin_other; first | assumption | apply bumpBy_kin | apply updJob_kin | apply updCtx_kin)
    | (apply kin_mk <;> first | assumption | apply bumpBy_kin | apply updJob_kin | apply updCtx_kin | (intro w; first | exact w | exact wf_set _ _ w | exact wf_upd _ _ w | exact wf_del _ w | exact wf_keep _ w | exact wf_mapV _ w | exact wf_filter _ w | (simp; done) | (simpa using w) | (rw [length_listSet]; exact w)))

theorem leaveCtx_kin {a0 : Dev} {d : Dev} {c : Nat} (hK : Kin a0 d) : Kin a0 (leaveCtx d c) := by
  unfold leaveCtx
  try dsimp only
  with_reducible repeat'
    first
    | assumption | apply step_kin | split | apply kin_fst (by assumption) | apply kin_snd (by assumption) | intro _
    | (apply kin_other; first | assumption | apply step_kin)
    | (apply kin_other; apply kin_other; first | assumption | apply step_kin)
    | (apply kin_mk <;> first | assumption | apply step_kin | (intro w; first | exact w | exact wf_set _ _ w | exact wf_upd _ _ w | exact wf_del _ w | exact wf_keep _ w | exact wf_mapV _ w | exact wf_filter _ w | (simp; done) | (simpa using w) | (rw [length_listSet]; exact w)))

theorem tidyLeft_kin {a0 : Dev} {d : Dev} (hK : Kin a0 d) : Kin a0 (tidyLeft d) := by
  unfold tidyLeft
  try dsimp only
  with_reducible repeat'
    first
    | assumption | apply step_kin | split | apply kin_fst (by assumption) | apply kin_snd (by assumption) | intro _
    | (apply kin_other; first | assumption | apply step_kin)
    | (apply kin_other; apply kin_other; first | assumption | apply step_kin)
    | (apply kin_mk <;> first | assumption | apply step_kin | (intro w; first | exact w | exact wf_set _ _ w | exact wf_upd _ _ w | exact wf_del _ w | exact wf_keep _ w | exact wf_mapV _ w | exact wf_filter _ w | (simp; done) | (simpa using w) | (rw [length_listSet]; exact w)))

theorem endCtx_kin {a0 : Dev} {d : Dev} {c status : Nat} (hK : Kin a0 d) : Kin a0 (endCtx d c status) := by
  unfold endCtx
  try dsimp only
  with_reducible repeat'
    first
    | assumption | apply freeEntries_kin | apply dropHaul_kin | apply updCtx_kin | apply dropTrunkHaul_kin | apply step_kin
    | split | apply kin_fst (by assumption) | apply kin_snd (by assumption) | intro _
    | (apply kin_other; first | assumption | apply freeEntries_kin | apply dropHaul_kin | apply updCtx_kin | apply dropTrunkHaul_kin | apply step_kin)
    | (apply kin_other; apply kin_other; first | assumption | apply freeEntries_kin | apply dropHaul_kin | apply updCtx_kin | apply dropTrunkHaul_kin | apply step_kin)
    | (apply kin_mk <;> first | assumption | apply freeEntries_kin | apply dropHaul_kin | apply updCtx_kin | apply dropTrunkHaul_kin | apply step_kin | (intro w; first | exact w | exact wf_set _ _ w | exact wf_upd _ _ w | exact wf_del _ w | exact wf_keep _ w | exact wf_mapV _ w | exact wf_filter _ w | (simp; done) | (simpa using w) | (rw [length_listSet]; exact w)))

theorem dropHeldValues_kin {a0 : Dev} {d : Dev} {c : Nat} (hK : Kin a0 d) : Kin a0 (dropHeldValues d c) := by
  unfold dropHeldValues
  try dsimp only
  with_reducible repeat'
    first
    | assumption | apply updCtx_kin | apply freeEntries_kin | apply dropHeld_kin | intro _
    | (apply kin_other; first | assumption | apply updCtx_kin | apply freeEntries_kin | apply dropHeld_kin)
    | (apply kin_other; apply kin_other; first | assumption | apply updCtx_kin | apply freeEntries_kin | apply dropHeld_kin)
    | (apply kin_mk <;> first | assumption | apply updCtx_kin | apply freeEntries_kin | apply dropHeld_kin | (intro w; first | exact w | exact wf_set _ _ w | exact wf_upd _ _ w | exact wf_del _ w | exact wf_keep _ w | exact wf_mapV _ w | exact wf_filter _ w | (simp; done) | (simpa using w) | (rw [length_listSet]; exact w)))

theorem abortCtx_kin {a0 : Dev} {d : Dev} {j step attempt c : Nat} (hK : Kin a0 d) : Kin a0 (abortCtx d j step attempt c) := by
  unfold abortCtx
  try dsimp only
  with_reducible repeat'
    first
    | assumption | apply step_kin | apply endCtx_kin | apply dropHeldValues_kin | apply updCtx_kin | split | intro _
    | (apply kin_other; first | assumption | apply step_kin | apply endCtx_kin | apply dropHeldValues_kin | apply updCtx_kin)
    | (apply kin_other; apply kin_other; first | assumption | apply step_kin | apply endCtx_kin | apply dropHeldValues_kin | apply updCtx_kin)
    | (apply kin_mk <;> first | assumption | apply step_kin | apply endCtx_kin | apply dropHeldValues_kin | apply updCtx_kin | (intro w; first | exact w | exact wf_set _ _ w | exact wf_upd _ _ w | exact wf_del _ w | exact wf_keep _ w | exact wf_mapV _ w | exact wf_filter _ w | (simp; done) | (simpa using w) | (rw [length_listSet]; exact w)))

theorem cancelSettle_kin {a0 : Dev} {d : Dev} (hK : Kin a0 d) : Kin a0 (cancelSettle d) := by
  unfold cancelSettle
  try dsimp only
  with_reducible repeat'
    first
    | assumption | apply finishCmds_kin | split | apply kin_fst (by assumption) | apply kin_snd (by assumption) | intro _

theorem abortMarks_kin {a0 : Dev} {d : Dev} {j : Nat} (hK : Kin a0 d) : Kin a0 (abortMarks d j).dev := by
  unfold abortMarks
  try dsimp only
  with_reducible repeat'
    first
    | assumption | apply updJob_kin | apply graphsAborted_kin | apply forEach_kin | apply abortCtx_kin | apply step_kin
    | apply dropHaul_kin | apply settleAll_kin | apply dropTrunkHaul_kin | split | apply kin_fst (by assumption)
    | apply kin_snd (by assumption) | intro _
    | (apply kin_other; first | assumption | apply updJob_kin | apply graphsAborted_kin | apply forEach_kin | apply abortCtx_kin | apply step_kin | apply dropHaul_kin | apply settleAll_kin | apply dropTrunkHaul_kin)
    | (apply kin_other; apply kin_other; first | assumption | apply updJob_kin | apply graphsAborted_kin | apply forEach_kin | apply abortCtx_kin | apply step_kin | apply dropHaul_kin | apply settleAll_kin | apply dropTrunkHaul_kin)
    | (apply kin_mk <;> first | assumption | apply updJob_kin | apply graphsAborted_kin | apply forEach_kin | apply abortCtx_kin | apply step_kin | apply dropHaul_kin | apply settleAll_kin | apply dropTrunkHaul_kin | (intro w; first | exact w | exact wf_set _ _ w | exact wf_upd _ _ w | exact wf_del _ w | exact wf_keep _ w | exact wf_mapV _ w | exact wf_filter _ w | (simp; done) | (simpa using w) | (rw [length_listSet]; exact w)))

theorem decideMarks_kin {a0 : Dev} {d : Dev} {j reason first : Nat} (hK : Kin a0 d) : Kin a0 (decideMarks d j reason first).dev := by
  unfold decideMarks
  try dsimp only
  with_reducible repeat'
    first
    | assumption | apply updJob_kin | apply step_kin | apply forEach_kin | apply sendSeal_kin | apply abortMarks_kin | split
    | apply kin_fst (by assumption) | apply kin_snd (by assumption) | intro _
    | (apply kin_other; first | assumption | apply updJob_kin | apply step_kin | apply forEach_kin | apply sendSeal_kin | apply abortMarks_kin)
    | (apply kin_other; apply kin_other; first | assumption | apply updJob_kin | apply step_kin | apply forEach_kin | apply sendSeal_kin | apply abortMarks_kin)
    | (apply kin_mk <;> first | assumption | apply updJob_kin | apply step_kin | apply forEach_kin | apply sendSeal_kin | apply abortMarks_kin | (intro w; first | exact w | exact wf_set _ _ w | exact wf_upd _ _ w | exact wf_del _ w | exact wf_keep _ w | exact wf_mapV _ w | exact wf_filter _ w | (simp; done) | (simpa using w) | (rw [length_listSet]; exact w)))

theorem markStep_kin {a0 : Dev} {d : Dev} {j reason : Nat} (hK : Kin a0 d) : Kin a0 (markStep d j reason).dev := by
  unfold markStep
  try dsimp only
  with_reducible repeat'
    first
    | assumption | apply updJob_kin | apply decideMarks_kin | apply sendSeal_kin | apply bump_kin | split
    | apply kin_fst (by assumption) | apply kin_snd (by assumption) | intro _
    | (apply kin_other; first | assumption | apply updJob_kin | apply decideMarks_kin | apply sendSeal_kin | apply bump_kin)
    | (apply kin_other; apply kin_other; first | assumption | apply updJob_kin | apply decideMarks_kin | apply sendSeal_kin | apply bump_kin)
    | (apply kin_mk <;> first | assumption | apply updJob_kin | apply decideMarks_kin | apply sendSeal_kin | apply bump_kin | (intro w; first | exact w | exact wf_set _ _ w | exact wf_upd _ _ w | exact wf_del _ w | exact wf_keep _ w | exact wf_mapV _ w | exact wf_filter _ w | (simp; done) | (simpa using w) | (rw [length_listSet]; exact w)))

theorem markDeep_kin {a0 : Dev} {y0 : Nat} {y1 : Dev} {y2 : Nat} {y3 : Nat} (hK : Kin a0 y1) : Kin a0 (markDeep y0 y1 y2 y3) := by
  induction y0 generalizing y1 y2 y3 with
  | zero => exact hK
  | succ k ih => exact foldl_kin (markStep_kin hK) fun e x h => ih h

theorem markJob_kin {a0 : Dev} {d : Dev} {j reason : Nat} (hK : Kin a0 d) : Kin a0 (markJob d j reason) := by
  unfold markJob
  try dsimp only
  with_reducible repeat' first | assumption | apply cancelSettle_kin | apply markDeep_kin | intro _

theorem applyMarks_kin {a0 : Dev} {m : Marked} (hK : Kin a0 m.dev) : Kin a0 (applyMarks m) := by
  unfold applyMarks
  try dsimp only
  with_reducible repeat' first | assumption | apply forEach_kin | apply markJob_kin | intro _

theorem beginAbort_kin {a0 : Dev} {d : Dev} {j : Nat} (hK : Kin a0 d) : Kin a0 (beginAbort d j) := by
  unfold beginAbort
  try dsimp only
  with_reducible repeat' first | assumption | apply cancelSettle_kin | apply applyMarks_kin | apply abortMarks_kin | intro _

theorem decideAbort_kin {a0 : Dev} {d : Dev} {j reason first : Nat} (hK : Kin a0 d) : Kin a0 (decideAbort d j reason first) := by
  unfold decideAbort
  try dsimp only
  with_reducible repeat' first | assumption | apply cancelSettle_kin | apply applyMarks_kin | apply decideMarks_kin | intro _

theorem requestAbort_kin {a0 : Dev} {d : Dev} {j reason : Nat} (hK : Kin a0 d) : Kin a0 (requestAbort d j reason) := by
  unfold requestAbort
  try dsimp only
  with_reducible repeat'
    first
    | assumption | apply decideAbort_kin | apply sendSeal_kin | split | apply kin_fst (by assumption)
    | apply kin_snd (by assumption) | intro _
    | (apply kin_other; first | assumption | apply decideAbort_kin | apply sendSeal_kin)
    | (apply kin_other; apply kin_other; first | assumption | apply decideAbort_kin | apply sendSeal_kin)
    | (apply kin_mk <;> first | assumption | apply decideAbort_kin | apply sendSeal_kin | (intro w; first | exact w | exact wf_set _ _ w | exact wf_upd _ _ w | exact wf_del _ w | exact wf_keep _ w | exact wf_mapV _ w | exact wf_filter _ w | (simp; done) | (simpa using w) | (rw [length_listSet]; exact w)))

theorem settle_kin {a0 : Dev} {d : Dev} (hK : Kin a0 d) : Kin a0 (settle d) := by
  unfold settle
  try dsimp only
  with_reducible repeat'
    first
    | assumption | apply cancelSettle_kin | apply applyMarks_kin | apply settleAll_kin | intro _
    | (apply kin_other; first | assumption | apply cancelSettle_kin | apply applyMarks_kin | apply settleAll_kin)
    | (apply kin_other; apply kin_other; first | assumption | apply cancelSettle_kin | apply applyMarks_kin | apply settleAll_kin)
    | (apply kin_mk <;> first | assumption | apply cancelSettle_kin | apply applyMarks_kin | apply settleAll_kin | (intro w; first | exact w | exact wf_set _ _ w | exact wf_upd _ _ w | exact wf_del _ w | exact wf_keep _ w | exact wf_mapV _ w | exact wf_filter _ w | (simp; done) | (simpa using w) | (rw [length_listSet]; exact w)))

theorem failCtx_kin {a0 : Dev} {d : Dev} {c status cause : Nat} {notice : Option Nat} (hK : Kin a0 d) : Kin a0 (failCtx d c status cause notice) := by
  unfold failCtx
  try dsimp only
  with_reducible repeat'
    first
    | assumption | apply updCtx_kin | apply endCtx_kin | apply sendNotice_kin | apply settle_kin | apply markJob_kin
    | apply haulEndAll_kin | split | apply kin_fst (by assumption) | apply kin_snd (by assumption) | intro _
    | (apply kin_other; first | assumption | apply updCtx_kin | apply endCtx_kin | apply sendNotice_kin | apply settle_kin | apply markJob_kin | apply haulEndAll_kin)
    | (apply kin_other; apply kin_other; first | assumption | apply updCtx_kin | apply endCtx_kin | apply sendNotice_kin | apply settle_kin | apply markJob_kin | apply haulEndAll_kin)
    | (apply kin_mk <;> first | assumption | apply updCtx_kin | apply endCtx_kin | apply sendNotice_kin | apply settle_kin | apply markJob_kin | apply haulEndAll_kin | (intro w; first | exact w | exact wf_set _ _ w | exact wf_upd _ _ w | exact wf_del _ w | exact wf_keep _ w | exact wf_mapV _ w | exact wf_filter _ w | (simp; done) | (simpa using w) | (rw [length_listSet]; exact w)))

theorem unitFailCtx_kin {a0 : Dev} {d : Dev} {c cause : Nat} (hK : Kin a0 d) : Kin a0 (unitFailCtx d c cause) := by
  unfold unitFailCtx
  try dsimp only
  with_reducible repeat' first | assumption | apply failCtx_kin | intro _

end Sys2Proof.Machine
end

