-- ==== Sys2Proof/Laws/KinHaulOps.lean ====
section
/-!
SUPPORT. Sys2Proof/Laws/KinHaulOps.lean: every operation of HaulOps.lean keeps time, identity and the form of the tables.
-/
namespace Sys2Proof.Machine
open SMap

theorem countSat_kin {a0 : Dev} {d : Dev} {port sats : Nat} (hK : Kin a0 d) : Kin a0 (countSat d port sats) := by
  unfold countSat
  try dsimp only
  with_reducible repeat' first | assumption | apply bumpBy_kin | split | intro _

theorem accountHaul_kin {a0 : Dev} {d : Dev} {c m : Nat} {delivered : Bool} (hK : Kin a0 d) : Kin a0 (accountHaul d c m delivered) := by
  unfold accountHaul
  try dsimp only
  with_reducible repeat'
    first
    | assumption | apply updCtx_kin | apply kinO_getD | split | apply kin_fst (by assumption) | apply kin_snd (by assumption)
    | intro _ | (apply kin_other; first | assumption | apply updCtx_kin | apply kinO_getD)
    | (apply kin_other; apply kin_other; first | assumption | apply updCtx_kin | apply kinO_getD)
    | (apply kin_mk <;> first | assumption | apply updCtx_kin | apply kinO_getD | (intro w; first | exact w | exact wf_set _ _ w | exact wf_upd _ _ w | exact wf_del _ w | exact wf_keep _ w | exact wf_mapV _ w | exact wf_filter _ w | (simp; done) | (simpa using w) | (rw [length_listSet]; exact w)))

theorem dropFor_kin {a0 : Dev} {d : Dev} {j m : Nat} {c : Option Nat} (hK : Kin a0 d) : Kin a0 (dropFor d j m c) := by
  unfold dropFor
  try dsimp only
  with_reducible repeat'
    first
    | assumption | apply bump_kin | apply accountHaul_kin | split | apply kin_fst (by assumption)
    | apply kin_snd (by assumption) | intro _

theorem haulToMember_kin {a0 : Dev} {d : Dev} {j m : Nat} {c : Option Nat} {words : List W64} {sats : Nat} (hK : Kin a0 d) : Kin a0 (haulToMember d j m c words sats) := by
  unfold haulToMember
  try dsimp only
  with_reducible repeat'
    first
    | assumption | apply countSat_kin | apply enqueue_kin | split | apply kin_fst (by assumption)
    | apply kin_snd (by assumption) | intro _ | (apply kin_other; first | assumption | apply countSat_kin | apply enqueue_kin)
    | (apply kin_other; apply kin_other; first | assumption | apply countSat_kin | apply enqueue_kin)
    | (apply kin_mk <;> first | assumption | apply countSat_kin | apply enqueue_kin | (intro w; first | exact w | exact wf_set _ _ w | exact wf_upd _ _ w | exact wf_del _ w | exact wf_keep _ w | exact wf_mapV _ w | exact wf_filter _ w | (simp; done) | (simpa using w) | (rw [length_listSet]; exact w)))

theorem haulToChild_kin {a0 : Dev} {d : Dev} {j q : Nat} {h : SlabHead} {words : List W64} {sats : Nat} (hK : Kin a0 d) : Kin a0 (haulToChild d j q h words sats) := by
  unfold haulToChild
  try dsimp only
  with_reducible repeat'
    first
    | assumption | apply sendHeld_kin | apply step_kin | apply countSat_kin | apply kinO_getD | split
    | apply kin_fst (by assumption) | apply kin_snd (by assumption) | intro _

theorem haulOut_kin {a0 : Dev} {d : Dev} {j rn k owner step attempt : Nat} {h : Nat → Option (SlabHead × List W64 × Nat)} {use : Nat → Bool} {toTrunk : List Nat} (hK : Kin a0 d) : Kin a0 (haulOut d j rn k owner step attempt h use toTrunk) := by
  unfold haulOut
  try dsimp only
  with_reducible repeat'
    first
    | assumption | apply step_kin | apply updCtx_kin | apply forEach_kin | apply haulToMember_kin | apply haulToChild_kin
    | split | apply kin_fst (by assumption) | apply kin_snd (by assumption) | intro _
    | (apply kin_other; first | assumption | apply step_kin | apply updCtx_kin | apply forEach_kin | apply haulToMember_kin | apply haulToChild_kin)
    | (apply kin_other; apply kin_other; first | assumption | apply step_kin | apply updCtx_kin | apply forEach_kin | apply haulToMember_kin | apply haulToChild_kin)
    | (apply kin_mk <;> first | assumption | apply step_kin | apply updCtx_kin | apply forEach_kin | apply haulToMember_kin | apply haulToChild_kin | (intro w; first | exact w | exact wf_set _ _ w | exact wf_upd _ _ w | exact wf_del _ w | exact wf_keep _ w | exact wf_mapV _ w | exact wf_filter _ w | (simp; done) | (simpa using w) | (rw [length_listSet]; exact w)))

theorem haulStart_kin {a0 : Dev} {d : Dev} {j rn k step attempt : Nat} {c : CopyData} (hK : Kin a0 d) : Kin a0 (haulStart d j rn k step attempt c) := by
  unfold haulStart
  try dsimp only
  with_reducible repeat'
    first
    | assumption | apply step_kin | apply haulOut_kin | split | apply kin_fst (by assumption) | apply kin_snd (by assumption)
    | intro _ | (apply kin_other; first | assumption | apply step_kin | apply haulOut_kin)
    | (apply kin_other; apply kin_other; first | assumption | apply step_kin | apply haulOut_kin)
    | (apply kin_mk <;> first | assumption | apply step_kin | apply haulOut_kin | (intro w; first | exact w | exact wf_set _ _ w | exact wf_upd _ _ w | exact wf_del _ w | exact wf_keep _ w | exact wf_mapV _ w | exact wf_filter _ w | (simp; done) | (simpa using w) | (rw [length_listSet]; exact w)))

theorem haulEndDue_kin {a0 : Dev} {d : Dev} {c m : Nat} (hK : Kin a0 d) : Kin a0 (haulEndDue d c m) := by
  unfold haulEndDue
  try dsimp only
  with_reducible repeat'
    first
    | assumption | apply step_kin | apply sendHaulEnd_kin | split | apply kin_fst (by assumption)
    | apply kin_snd (by assumption) | intro _

theorem execHaulEnd_kin {ctx member : Nat} {s : State}  : KinS s (execHaulEnd ctx member s) := by
  unfold execHaulEnd
  try dsimp only
  with_reducible repeat'
    first
    | assumption | exact kinS_fault | exact Kin.refl _ | apply onUnit_kin | apply tidyLeft_kin | apply haulEndDue_kin
    | apply forEach_kin | intro _

theorem dropHaulPkt_kin {a0 : Dev} {d : Dev} {k : TxPacket} (hK : Kin a0 d) : Kin a0 (dropHaulPkt d k) := by
  unfold dropHaulPkt
  try dsimp only
  with_reducible repeat'
    first
    | assumption | apply dropFor_kin | split | apply kin_fst (by assumption) | apply kin_snd (by assumption) | intro _

theorem execHaulDrop_kin {port : Nat} {s : State}  : KinS s (execHaulDrop port s) := by
  unfold execHaulDrop
  try dsimp only
  with_reducible repeat'
    first
    | assumption | exact kinS_fault | exact Kin.refl _ | apply onUnit_kin | apply forEach_kin | apply stallTick_kin
    | apply updPort_kin | apply dropHaulPkt_kin | split | intro _

theorem haulIn_kin {a0 : Dev} {d : Dev} {k : PktRx} (hK : Kin a0 d) : Kin a0 (haulIn d k) := by
  unfold haulIn
  try dsimp only
  with_reducible repeat'
    first
    | assumption | apply step_kin | apply sendAddr_kin | apply bump_kin | apply updJob_kin | apply haulOut_kin | split
    | apply kin_fst (by assumption) | apply kin_snd (by assumption) | intro _
    | (apply kin_other; first | assumption | apply step_kin | apply sendAddr_kin | apply bump_kin | apply updJob_kin | apply haulOut_kin)
    | (apply kin_other; apply kin_other; first | assumption | apply step_kin | apply sendAddr_kin | apply bump_kin | apply updJob_kin | apply haulOut_kin)
    | (apply kin_mk <;> first | assumption | apply step_kin | apply sendAddr_kin | apply bump_kin | apply updJob_kin | apply haulOut_kin | (intro w; first | exact w | exact wf_set _ _ w | exact wf_upd _ _ w | exact wf_del _ w | exact wf_keep _ w | exact wf_mapV _ w | exact wf_filter _ w | (simp; done) | (simpa using w) | (rw [length_listSet]; exact w)))

theorem execHaulData_kin {k : PktRx} {s : State}  : KinS s (execHaulData k s) := by
  unfold execHaulData
  try dsimp only
  with_reducible repeat'
    first
    | assumption | exact kinS_fault | exact Kin.refl _ | apply onArrival_kin | apply haulIn_kin | intro _

theorem haulAckIn_kin {a0 : Dev} {d : Dev} {k : PktRx} (hK : Kin a0 d) : Kin a0 (haulAckIn d k) := by
  unfold haulAckIn
  try dsimp only
  with_reducible repeat'
    first
    | assumption | apply dropHeld_kin | split | apply kin_fst (by assumption) | apply kin_snd (by assumption) | intro _

theorem execHaulAck_kin {k : PktRx} {s : State}  : KinS s (execHaulAck k s) := by
  unfold execHaulAck
  try dsimp only
  with_reducible repeat'
    first
    | assumption | exact kinS_fault | exact Kin.refl _ | apply onArrival_kin | apply haulAckIn_kin | intro _

theorem resendHeld_kin {a0 : Dev} {d : Dev} {p : Held → Bool} {f : Dev → Held → Dev} (hK : Kin a0 d) (g_f : ∀ e x0, Kin a0 e → Kin a0 (f e x0)) : Kin a0 (resendHeld d p f) := by
  unfold resendHeld
  try dsimp only
  with_reducible repeat'
    first
    | assumption | apply g_f | apply forEach_kin | apply updJob_kin | split | intro _
    | (apply kin_other; first | assumption | apply g_f | apply forEach_kin | apply updJob_kin)
    | (apply kin_other; apply kin_other; first | assumption | apply g_f | apply forEach_kin | apply updJob_kin)
    | (apply kin_mk <;> first | assumption | apply g_f | apply forEach_kin | apply updJob_kin | (intro w; first | exact w | exact wf_set _ _ w | exact wf_upd _ _ w | exact wf_del _ w | exact wf_keep _ w | exact wf_mapV _ w | exact wf_filter _ w | (simp; done) | (simpa using w) | (rw [length_listSet]; exact w)))

theorem resendOrd_kin {a0 : Dev} {d : Dev} {h : Held} (hK : Kin a0 d) : Kin a0 (resendOrd d h) := by
  unfold resendOrd
  try dsimp only
  with_reducible repeat' first | assumption | apply bump_kin | apply sendOrd_kin | intro _

theorem execHaulResend_kin {s : State}  : KinS s (execHaulResend s) := by
  unfold execHaulResend
  try dsimp only
  with_reducible repeat'
    first
    | assumption | exact kinS_fault | exact Kin.refl _ | apply onDev_kin | apply resendHeld_kin | apply bump_kin
    | apply resendOrd_kin | intro _

end Sys2Proof.Machine
end

