-- ==== Sys2Proof/Laws/KinHoistOps.lean ====
section
/-!
SUPPORT. Sys2Proof/Laws/KinHoistOps.lean: every operation of HoistOps.lean keeps time, identity and the form of the tables.
-/
namespace Sys2Proof.Machine
open SMap

theorem updHoist_kin {a0 : Dev} {d : Dev} {j m tag : Nat} {f : Hoist → Hoist} (hK : Kin a0 d) : Kin a0 (updHoist d j m tag f) := by
  unfold updHoist
  try dsimp only
  with_reducible repeat'
    first
    | assumption | apply updJob_kin | split | intro _ | (apply kin_other; first | assumption | apply updJob_kin)
    | (apply kin_other; apply kin_other; first | assumption | apply updJob_kin)
    | (apply kin_mk <;> first | assumption | apply updJob_kin | (intro w; first | exact w | exact wf_set _ _ w | exact wf_upd _ _ w | exact wf_del _ w | exact wf_keep _ w | exact wf_mapV _ w | exact wf_filter _ w | (simp; done) | (simpa using w) | (rw [length_listSet]; exact w)))

theorem dropHoist_kin {a0 : Dev} {d : Dev} {j m tag : Nat} (hK : Kin a0 d) : Kin a0 (dropHoist d j m tag) := by
  unfold dropHoist
  try dsimp only
  with_reducible repeat'
    first
    | assumption | apply updJob_kin | intro _ | (apply kin_other; first | assumption | apply updJob_kin)
    | (apply kin_other; apply kin_other; first | assumption | apply updJob_kin)
    | (apply kin_mk <;> first | assumption | apply updJob_kin | (intro w; first | exact w | exact wf_set _ _ w | exact wf_upd _ _ w | exact wf_del _ w | exact wf_keep _ w | exact wf_mapV _ w | exact wf_filter _ w | (simp; done) | (simpa using w) | (rw [length_listSet]; exact w)))

theorem answerLocal_kin {a0 : Dev} {d : Dev} {j rn k : Nat} {r : ReadResult} {who : Nat × Nat} (hK : Kin a0 d) : Kin a0 (answerLocal d j rn k r who) := by
  unfold answerLocal
  try dsimp only
  with_reducible repeat'
    first
    | assumption | apply bump_kin | apply sendPort_kin | apply updHoist_kin | apply countSat_kin | split
    | apply kin_fst (by assumption) | apply kin_snd (by assumption) | intro _
    | (apply kin_other; first | assumption | apply bump_kin | apply sendPort_kin | apply updHoist_kin | apply countSat_kin)
    | (apply kin_other; apply kin_other; first | assumption | apply bump_kin | apply sendPort_kin | apply updHoist_kin | apply countSat_kin)
    | (apply kin_mk <;> first | assumption | apply bump_kin | apply sendPort_kin | apply updHoist_kin | apply countSat_kin | (intro w; first | exact w | exact wf_set _ _ w | exact wf_upd _ _ w | exact wf_del _ w | exact wf_keep _ w | exact wf_mapV _ w | exact wf_filter _ w | (simp; done) | (simpa using w) | (rw [length_listSet]; exact w)))

theorem answerRemote_kin {a0 : Dev} {d : Dev} {j rn k : Nat} {r : ReadResult} {who : Nat × Nat} (hK : Kin a0 d) : Kin a0 (answerRemote d j rn k r who) := by
  unfold answerRemote
  try dsimp only
  with_reducible repeat'
    first
    | assumption | apply sendAddr_kin | apply countSat_kin | split | apply kin_fst (by assumption)
    | apply kin_snd (by assumption) | intro _
    | (apply kin_other; first | assumption | apply sendAddr_kin | apply countSat_kin)
    | (apply kin_other; apply kin_other; first | assumption | apply sendAddr_kin | apply countSat_kin)
    | (apply kin_mk <;> first | assumption | apply sendAddr_kin | apply countSat_kin | (intro w; first | exact w | exact wf_set _ _ w | exact wf_upd _ _ w | exact wf_del _ w | exact wf_keep _ w | exact wf_mapV _ w | exact wf_filter _ w | (simp; done) | (simpa using w) | (rw [length_listSet]; exact w)))

theorem completeRead_kin {a0 : Dev} {d : Dev} {j i : Nat} {r : ReadResult} (hK : Kin a0 d) : Kin a0 (completeRead d j i r) := by
  unfold completeRead
  try dsimp only
  with_reducible repeat'
    first
    | assumption | apply updJob_kin | apply forEach_kin | apply answerLocal_kin | apply answerRemote_kin | split
    | apply kin_fst (by assumption) | apply kin_snd (by assumption) | intro _
    | (apply kin_other; first | assumption | apply updJob_kin | apply forEach_kin | apply answerLocal_kin | apply answerRemote_kin)
    | (apply kin_other; apply kin_other; first | assumption | apply updJob_kin | apply forEach_kin | apply answerLocal_kin | apply answerRemote_kin)
    | (apply kin_mk <;> first | assumption | apply updJob_kin | apply forEach_kin | apply answerLocal_kin | apply answerRemote_kin | (intro w; first | exact w | exact wf_set _ _ w | exact wf_upd _ _ w | exact wf_del _ w | exact wf_keep _ w | exact wf_mapV _ w | exact wf_filter _ w | (simp; done) | (simpa using w) | (rw [length_listSet]; exact w)))

theorem nextReadId_kin {a0 : Dev} {d : Dev} {j : Nat} (hK : Kin a0 d) : Kin a0 (nextReadId d j).2 := by
  unfold nextReadId
  try dsimp only
  with_reducible repeat'
    first
    | assumption | apply updJob_kin | split | apply kin_fst (by assumption) | apply kin_snd (by assumption) | intro _
    | (apply kin_other; first | assumption | apply updJob_kin)
    | (apply kin_other; apply kin_other; first | assumption | apply updJob_kin)
    | (apply kin_mk <;> first | assumption | apply updJob_kin | (intro w; first | exact w | exact wf_set _ _ w | exact wf_upd _ _ w | exact wf_del _ w | exact wf_keep _ w | exact wf_mapV _ w | exact wf_filter _ w | (simp; done) | (simpa using w) | (rw [length_listSet]; exact w)))

theorem sendRemoteRead_kin {a0 : Dev} {d : Dev} {j : Nat} {e : ReadEntry} (hK : Kin a0 d) : Kin a0 (sendRemoteRead d j e) := by
  unfold sendRemoteRead
  try dsimp only
  with_reducible repeat'
    first
    | assumption | apply sendOrd_kin | split | apply kin_fst (by assumption) | apply kin_snd (by assumption) | intro _

theorem addRead_kin {a0 : Dev} {d : Dev} {j t : Nat} {away : Bool} {a : ReadAsk} (hK : Kin a0 d) : Kin a0 (addRead d j t away a) := by
  unfold addRead
  try dsimp only
  with_reducible repeat'
    first
    | assumption | apply bump_kin | apply updJob_kin | apply nextReadId_kin | apply sendRemoteRead_kin | split
    | apply kin_fst (by assumption) | apply kin_snd (by assumption) | intro _
    | (apply kin_other; first | assumption | apply bump_kin | apply updJob_kin | apply nextReadId_kin | apply sendRemoteRead_kin)
    | (apply kin_other; apply kin_other; first | assumption | apply bump_kin | apply updJob_kin | apply nextReadId_kin | apply sendRemoteRead_kin)
    | (apply kin_mk <;> first | assumption | apply bump_kin | apply updJob_kin | apply nextReadId_kin | apply sendRemoteRead_kin | (intro w; first | exact w | exact wf_set _ _ w | exact wf_upd _ _ w | exact wf_del _ w | exact wf_keep _ w | exact wf_mapV _ w | exact wf_filter _ w | (simp; done) | (simpa using w) | (rw [length_listSet]; exact w)))

theorem askSlab_kin {a0 : Dev} {d : Dev} {j rn k : Nat} {newest : Bool} {ofmt : Byte} {who : Nat × Nat} (hK : Kin a0 d) : Kin a0 (askSlab d j rn k newest ofmt who) := by
  unfold askSlab
  try dsimp only
  with_reducible repeat'
    first
    | assumption | apply addRead_kin | apply answerLocal_kin | split | apply kin_fst (by assumption)
    | apply kin_snd (by assumption) | intro _
    | (apply kin_other; first | assumption | apply addRead_kin | apply answerLocal_kin)
    | (apply kin_other; apply kin_other; first | assumption | apply addRead_kin | apply answerLocal_kin)
    | (apply kin_mk <;> first | assumption | apply addRead_kin | apply answerLocal_kin | (intro w; first | exact w | exact wf_set _ _ w | exact wf_upd _ _ w | exact wf_del _ w | exact wf_keep _ w | exact wf_mapV _ w | exact wf_filter _ w | (simp; done) | (simpa using w) | (rw [length_listSet]; exact w)))

theorem offlineReads_kin {a0 : Dev} {d : Dev} {j : Nat} {p : ReadEntry → Bool} {y0 : Nat} (hK : Kin a0 d) : Kin a0 (offlineReads d j p y0) := by
  induction y0 generalizing d j p with
  | zero =>
    unfold offlineReads
    try dsimp only
    with_reducible repeat'
      first
      | assumption | apply completeRead_kin | split | apply kin_fst (by assumption) | apply kin_snd (by assumption) | intro _
  | succ k ih =>
    unfold offlineReads
    try dsimp only
    with_reducible repeat'
      first
      | assumption | apply ih | apply completeRead_kin | split | apply kin_fst (by assumption) | apply kin_snd (by assumption)
      | intro _

theorem offlineOwner_kin {a0 : Dev} {d : Dev} {j q : Nat} (hK : Kin a0 d) : Kin a0 (offlineOwner d j q) := by
  unfold offlineOwner
  try dsimp only
  with_reducible repeat'
    first
    | assumption | apply offlineReads_kin | split | apply kin_fst (by assumption) | apply kin_snd (by assumption) | intro _

theorem releaseReads_kin {a0 : Dev} {d : Dev} {j : Nat} (hK : Kin a0 d) : Kin a0 (releaseReads d j) := by
  unfold releaseReads
  try dsimp only
  with_reducible repeat'
    first
    | assumption | apply updJob_kin | intro _ | (apply kin_other; first | assumption | apply updJob_kin)
    | (apply kin_other; apply kin_other; first | assumption | apply updJob_kin)
    | (apply kin_mk <;> first | assumption | apply updJob_kin | (intro w; first | exact w | exact wf_set _ _ w | exact wf_upd _ _ w | exact wf_del _ w | exact wf_keep _ w | exact wf_mapV _ w | exact wf_filter _ w | (simp; done) | (simpa using w) | (rw [length_listSet]; exact w)))

end Sys2Proof.Machine
end

