-- ==== Sys2Proof/Laws/KinSpare.lean ====
section
/-!
SUPPORT. Sys2Proof/Laws/KinSpare.lean: every operation of Spare.lean keeps time, identity and the form of the tables.
-/
namespace Sys2Proof.Machine
open SMap

theorem saveSpare_kin {a0 : Dev} {d : Dev} (hK : Kin a0 d) : Kin a0 (saveSpare d) := by
  unfold saveSpare
  try dsimp only
  with_reducible repeat' first | assumption | apply flashWrite_kin | intro _

theorem commitSpare_kin {a0 : Dev} {d : Dev} (hK : Kin a0 d) : Kin a0 (commitSpare d) := by
  unfold commitSpare
  try dsimp only
  with_reducible repeat'
    first
    | assumption | apply bump_kin | apply saveSpare_kin | intro _
    | (apply kin_other; first | assumption | apply bump_kin | apply saveSpare_kin)
    | (apply kin_other; apply kin_other; first | assumption | apply bump_kin | apply saveSpare_kin)
    | (apply kin_mk <;> first | assumption | apply bump_kin | apply saveSpare_kin | (intro w; first | exact w | exact wf_set _ _ w | exact wf_upd _ _ w | exact wf_del _ w | exact wf_keep _ w | exact wf_mapV _ w | exact wf_filter _ w | (simp; done) | (simpa using w) | (rw [length_listSet]; exact w)))

theorem commitRepair_kin {a0 : Dev} {d : Dev} {spared : Bool} {kind unit : Nat} (hK : Kin a0 d) : Kin a0 (commitRepair d spared kind unit) := by
  unfold commitRepair
  try dsimp only
  with_reducible repeat'
    first
    | assumption | apply raiseTrap_kin | apply commitSpare_kin | split | intro _
    | (apply kin_other; first | assumption | apply raiseTrap_kin | apply commitSpare_kin)
    | (apply kin_other; apply kin_other; first | assumption | apply raiseTrap_kin | apply commitSpare_kin)
    | (apply kin_mk <;> first | assumption | apply raiseTrap_kin | apply commitSpare_kin | (intro w; first | exact w | exact wf_set _ _ w | exact wf_upd _ _ w | exact wf_del _ w | exact wf_keep _ w | exact wf_mapV _ w | exact wf_filter _ w | (simp; done) | (simpa using w) | (rw [length_listSet]; exact w)))

theorem poolPhase_kin {a0 : Dev} {d : Dev} {p : Nat} {on : Bool} (hK : Kin a0 d) : Kin a0 (poolPhase d p on) := by
  unfold poolPhase
  try dsimp only
  with_reducible repeat' first | assumption | apply openPool_kin | apply closePool_kin | split | intro _

theorem poolsSettle_kin {a0 : Dev} {d : Dev} (hK : Kin a0 d) : Kin a0 (poolsSettle d) := by
  unfold poolsSettle
  try dsimp only
  with_reducible repeat' first | assumption | apply poolPhase_kin | intro _

end Sys2Proof.Machine
end

