-- ==== Sys2Proof/Laws/KinMemory.lean ====
section
/-!
SUPPORT. Sys2Proof/Laws/KinMemory.lean: every operation of Memory.lean keeps time, identity and the form of the tables.
-/
namespace Sys2Proof.Machine
open SMap

/-- A fold over reads keeps the kin. -/
theorem foldlRead_kin {a : Dev} {α : Type} {l : List α} {f : MemRead → α → MemRead} {m : MemRead} (h : Kin a m.dev)
    (g : ∀ e x, Kin a e.dev → Kin a (f e x).dev) : Kin a (l.foldl f m).dev := by
  induction l generalizing m with
  | nil => exact h
  | cons x r ih => exact ih (g m x h)

theorem updMem_kin {a0 : Dev} {d : Dev} {u : Nat} {f : MemDie → MemDie} (hK : Kin a0 d) : Kin a0 (updMem d u f) := by
  unfold updMem
  try dsimp only
  with_reducible repeat'
    first
    | assumption | intro _ | (apply kin_other; first | assumption) | (apply kin_other; apply kin_other; first | assumption)
    | (apply kin_mk <;> first | assumption | (intro w; first | exact w | exact wf_set _ _ w | exact wf_upd _ _ w | exact wf_del _ w | exact wf_keep _ w | exact wf_mapV _ w | exact wf_filter _ w | (simp; done) | (simpa using w) | (rw [length_listSet]; exact w)))

theorem syncDie_kin {a0 : Dev} {d : Dev} {u : Nat} (hK : Kin a0 d) : Kin a0 (syncDie d u) := by
  unfold syncDie
  try dsimp only
  with_reducible repeat'
    first
    | assumption | apply foldl_kin | apply updMem_kin | intro _
    | (apply kin_other; first | assumption | apply foldl_kin | apply updMem_kin)
    | (apply kin_other; apply kin_other; first | assumption | apply foldl_kin | apply updMem_kin)
    | (apply kin_mk <;> first | assumption | apply foldl_kin | apply updMem_kin | (intro w; first | exact w | exact wf_set _ _ w | exact wf_upd _ _ w | exact wf_del _ w | exact wf_keep _ w | exact wf_mapV _ w | exact wf_filter _ w | (simp; done) | (simpa using w) | (rw [length_listSet]; exact w)))

theorem syncExts_kin {a0 : Dev} {d : Dev} (hK : Kin a0 d) : Kin a0 (syncExts d) := by
  unfold syncExts
  try dsimp only
  with_reducible repeat' first | assumption | apply forEach_kin | apply syncDie_kin | intro _

theorem countInner_kin {a0 : Dev} {d : Dev} {u s : Nat} {l : List Nat} {es : List (Nat × BlockErr)} (hK : Kin a0 d) : Kin a0 (countInner d u s l es) := by
  unfold countInner
  try dsimp only
  with_reducible repeat'
    first
    | assumption | apply forEach_kin | apply bump_kin | intro _
    | (apply kin_other; first | assumption | apply forEach_kin | apply bump_kin)
    | (apply kin_other; apply kin_other; first | assumption | apply forEach_kin | apply bump_kin)
    | (apply kin_mk <;> first | assumption | apply forEach_kin | apply bump_kin | (intro w; first | exact w | exact wf_set _ _ w | exact wf_upd _ _ w | exact wf_del _ w | exact wf_keep _ w | exact wf_mapV _ w | exact wf_filter _ w | (simp; done) | (simpa using w) | (rw [length_listSet]; exact w)))

theorem readBlocks_kin {a0 : Dev} {d : Dev} {u s : Nat} {need : List Nat} (hK : Kin a0 d) : Kin a0 (readBlocks d u s need).1 := by
  unfold readBlocks
  try dsimp only
  with_reducible repeat'
    first
    | assumption | apply countInner_kin | apply bump_kin | split | apply kin_fst (by assumption)
    | apply kin_snd (by assumption) | intro _

theorem readStripe_kin {a0 : Dev} {d : Dev} {u s b n : Nat} (hK : Kin a0 d) : Kin a0 (readStripe d u s b n).1 := by
  unfold readStripe
  try dsimp only
  with_reducible repeat' first | assumption | apply readBlocks_kin | intro _

theorem readPart_kin {a0 : Dev} {u : Nat} {a : MemRead} {p : Nat × Nat × Nat × Nat} (hK : Kin a0 a.dev) : Kin a0 (readPart u a p).dev := by
  unfold readPart
  have h : Kin a0 (readStripe a.dev u p.1 p.2.1 p.2.2.1).1 := readStripe_kin hK
  split <;> rename_i e <;> exact kin_fst e h

theorem readSpan_kin {a0 : Dev} {d : Dev} {s : Span} (hK : Kin a0 d) : Kin a0 (readSpan d s).dev :=
  foldlRead_kin hK fun _ _ h => readPart_kin h

theorem writeStripe_kin {a0 : Dev} {d : Dev} {u s b n : Nat} (hK : Kin a0 d) : Kin a0 (writeStripe d u s b n) := by
  unfold writeStripe
  try dsimp only
  with_reducible repeat'
    first
    | assumption | apply readBlocks_kin | apply bump_kin | apply updMem_kin | split | apply kin_fst (by assumption)
    | apply kin_snd (by assumption) | intro _
    | (apply kin_other; first | assumption | apply readBlocks_kin | apply bump_kin | apply updMem_kin)
    | (apply kin_other; apply kin_other; first | assumption | apply readBlocks_kin | apply bump_kin | apply updMem_kin)
    | (apply kin_mk <;> first | assumption | apply readBlocks_kin | apply bump_kin | apply updMem_kin | (intro w; first | exact w | exact wf_set _ _ w | exact wf_upd _ _ w | exact wf_del _ w | exact wf_keep _ w | exact wf_mapV _ w | exact wf_filter _ w | (simp; done) | (simpa using w) | (rw [length_listSet]; exact w)))

theorem writeParts_kin {a0 : Dev} {d : Dev} {u : Nat} {l : List (Nat × Nat × Nat × Nat)} (hK : Kin a0 d) : Kin a0 (writeParts d u l) := by
  unfold writeParts
  try dsimp only
  with_reducible repeat' first | assumption | apply forEach_kin | apply writeStripe_kin | intro _

theorem writeSpan_kin {a0 : Dev} {d : Dev} {s : Span} (hK : Kin a0 d) : Kin a0 (writeSpan d s) := by
  unfold writeSpan
  try dsimp only
  with_reducible repeat' first | assumption | apply writeParts_kin | intro _

theorem writeMeta_kin {a0 : Dev} {d : Dev} {j : Nat} {jb : Job} {r : Region} {rn k : Nat} (hK : Kin a0 d) : Kin a0 (writeMeta d j jb r rn k) := by
  unfold writeMeta
  try dsimp only
  with_reducible repeat'
    first
    | assumption | apply forEach_kin | apply writeSpan_kin | apply updMem_kin | intro _
    | (apply kin_other; first | assumption | apply forEach_kin | apply writeSpan_kin | apply updMem_kin)
    | (apply kin_other; apply kin_other; first | assumption | apply forEach_kin | apply writeSpan_kin | apply updMem_kin)
    | (apply kin_mk <;> first | assumption | apply forEach_kin | apply writeSpan_kin | apply updMem_kin | (intro w; first | exact w | exact wf_set _ _ w | exact wf_upd _ _ w | exact wf_del _ w | exact wf_keep _ w | exact wf_mapV _ w | exact wf_filter _ w | (simp; done) | (simpa using w) | (rw [length_listSet]; exact w)))

theorem writeCopy_kin {a0 : Dev} {d : Dev} {j : Nat} {jb : Job} {r : Region} {rn k c : Nat} (hK : Kin a0 d) : Kin a0 (writeCopy d j jb r rn k c) := by
  unfold writeCopy
  try dsimp only
  with_reducible repeat' first | assumption | apply writeMeta_kin | apply writeSpan_kin | intro _

theorem clearRegion_kin {a0 : Dev} {d : Dev} {j : Nat} {jb : Job} {r : Region} {rn : Nat} (hK : Kin a0 d) : Kin a0 (clearRegion d j jb r rn) := by
  unfold clearRegion
  try dsimp only
  with_reducible repeat'
    first
    | assumption | apply forEach_kin | apply updMem_kin | apply kinO_getD | intro _
    | (apply kin_other; first | assumption | apply forEach_kin | apply updMem_kin | apply kinO_getD)
    | (apply kin_other; apply kin_other; first | assumption | apply forEach_kin | apply updMem_kin | apply kinO_getD)
    | (apply kin_mk <;> first | assumption | apply forEach_kin | apply updMem_kin | apply kinO_getD | (intro w; first | exact w | exact wf_set _ _ w | exact wf_upd _ _ w | exact wf_del _ w | exact wf_keep _ w | exact wf_mapV _ w | exact wf_filter _ w | (simp; done) | (simpa using w) | (rw [length_listSet]; exact w)))

theorem memUeTrap_kin {a0 : Dev} {d : Dev} {u : Nat} {job : Option (Nat × Nat × Nat)} {stripe area : Nat} (hK : Kin a0 d) : Kin a0 (memUeTrap d u job stripe area) := by
  unfold memUeTrap
  try dsimp only
  with_reducible repeat'
    first
    | assumption | apply raiseTrap_kin | apply bump_kin | intro _
    | (apply kin_other; first | assumption | apply raiseTrap_kin | apply bump_kin)
    | (apply kin_other; apply kin_other; first | assumption | apply raiseTrap_kin | apply bump_kin)
    | (apply kin_mk <;> first | assumption | apply raiseTrap_kin | apply bump_kin | (intro w; first | exact w | exact wf_set _ _ w | exact wf_upd _ _ w | exact wf_del _ w | exact wf_keep _ w | exact wf_mapV _ w | exact wf_filter _ w | (simp; done) | (simpa using w) | (rw [length_listSet]; exact w)))

theorem stageLost_kin {a0 : Dev} {d : Dev} {j : Nat} {jb : Job} {r : Region} {rn k : Nat} (hK : Kin a0 d) : Kin a0 (stageLost d j jb r rn k) := by
  unfold stageLost
  try dsimp only
  with_reducible repeat' first | assumption | apply memUeTrap_kin | apply markJob_kin | split | intro _

theorem damageNow_kin {a0 : Dev} {d : Dev} {j rn k cause : Nat} (hK : Kin a0 d) : Kin a0 (damageNow d j rn k cause) := by
  unfold damageNow
  try dsimp only
  with_reducible repeat'
    first
    | assumption | apply writeMeta_kin | apply setDamaged_kin | apply markJob_kin | apply updJob_kin | split
    | apply kin_fst (by assumption) | apply kin_snd (by assumption) | intro _
    | (apply kin_other; first | assumption | apply writeMeta_kin | apply setDamaged_kin | apply markJob_kin | apply updJob_kin)
    | (apply kin_other; apply kin_other; first | assumption | apply writeMeta_kin | apply setDamaged_kin | apply markJob_kin | apply updJob_kin)
    | (apply kin_mk <;> first | assumption | apply writeMeta_kin | apply setDamaged_kin | apply markJob_kin | apply updJob_kin | (intro w; first | exact w | exact wf_set _ _ w | exact wf_upd _ _ w | exact wf_del _ w | exact wf_keep _ w | exact wf_mapV _ w | exact wf_filter _ w | (simp; done) | (simpa using w) | (rw [length_listSet]; exact w)))

theorem memUeNow_kin {a0 : Dev} {d : Dev} {j rn k area : Nat} (hK : Kin a0 d) : Kin a0 (memUeNow d j rn k area) := by
  unfold memUeNow
  try dsimp only
  with_reducible repeat'
    first
    | assumption | apply stageLost_kin | apply memUeTrap_kin | apply markJob_kin | apply damageNow_kin | split
    | apply kin_fst (by assumption) | apply kin_snd (by assumption) | intro _

theorem readMeta_kin {a0 : Dev} {d : Dev} {j : Nat} {jb : Job} {r : Region} {rn k : Nat} (hK : Kin a0 d) : Kin a0 (readMeta d j jb r rn k).dev := by
  unfold readMeta
  try dsimp only
  with_reducible repeat'
    first
    | assumption | apply foldlMarked_kin | apply readSpan_kin | apply updMem_kin | split | intro _
    | (apply kin_other; first | assumption | apply foldlMarked_kin | apply readSpan_kin | apply updMem_kin)
    | (apply kin_other; apply kin_other; first | assumption | apply foldlMarked_kin | apply readSpan_kin | apply updMem_kin)
    | (apply kin_mk <;> first | assumption | apply foldlMarked_kin | apply readSpan_kin | apply updMem_kin | (intro w; first | exact w | exact wf_set _ _ w | exact wf_upd _ _ w | exact wf_del _ w | exact wf_keep _ w | exact wf_mapV _ w | exact wf_filter _ w | (simp; done) | (simpa using w) | (rw [length_listSet]; exact w)))

theorem readAhead_kin {a0 : Dev} {d : Dev} {u i j rn k : Nat} {hoist : Bool} (hK : Kin a0 d) : Kin a0 (readAhead d u i j rn k hoist) := by
  unfold readAhead
  try dsimp only
  with_reducible repeat'
    first
    | assumption | apply foldlMarked_kin | apply readMeta_kin | apply readSpan_kin | apply updMem_kin | split
    | apply kin_fst (by assumption) | apply kin_snd (by assumption) | intro _
    | (apply kin_other; first | assumption | apply foldlMarked_kin | apply readMeta_kin | apply readSpan_kin | apply updMem_kin)
    | (apply kin_other; apply kin_other; first | assumption | apply foldlMarked_kin | apply readMeta_kin | apply readSpan_kin | apply updMem_kin)
    | (apply kin_mk <;> first | assumption | apply foldlMarked_kin | apply readMeta_kin | apply readSpan_kin | apply updMem_kin | (intro w; first | exact w | exact wf_set _ _ w | exact wf_upd _ _ w | exact wf_del _ w | exact wf_keep _ w | exact wf_mapV _ w | exact wf_filter _ w | (simp; done) | (simpa using w) | (rw [length_listSet]; exact w)))

theorem walkOn_kin {a0 : Dev} {d : Dev} {u i : Nat} (hK : Kin a0 d) : Kin a0 (walkOn d u i) := by
  unfold walkOn
  try dsimp only
  with_reducible repeat'
    first
    | assumption | apply updMem_kin | apply forEach_kin | apply readAhead_kin | split | apply kin_fst (by assumption)
    | apply kin_snd (by assumption) | intro _
    | (apply kin_other; first | assumption | apply updMem_kin | apply forEach_kin | apply readAhead_kin)
    | (apply kin_other; apply kin_other; first | assumption | apply updMem_kin | apply forEach_kin | apply readAhead_kin)
    | (apply kin_mk <;> first | assumption | apply updMem_kin | apply forEach_kin | apply readAhead_kin | (intro w; first | exact w | exact wf_set _ _ w | exact wf_upd _ _ w | exact wf_del _ w | exact wf_keep _ w | exact wf_mapV _ w | exact wf_filter _ w | (simp; done) | (simpa using w) | (rw [length_listSet]; exact w)))

theorem bindWalk_kin {a0 : Dev} {d : Dev} {u : Nat} {w : WalkFor} (hK : Kin a0 d) : Kin a0 (bindWalk d u w) := by
  unfold bindWalk
  try dsimp only
  with_reducible repeat'
    first
    | assumption | apply updMem_kin | split | apply kin_fst (by assumption) | apply kin_snd (by assumption) | intro _
    | (apply kin_other; first | assumption | apply updMem_kin)
    | (apply kin_other; apply kin_other; first | assumption | apply updMem_kin)
    | (apply kin_mk <;> first | assumption | apply updMem_kin | (intro w; first | exact w | exact wf_set _ _ w | exact wf_upd _ _ w | exact wf_del _ w | exact wf_keep _ w | exact wf_mapV _ w | exact wf_filter _ w | (simp; done) | (simpa using w) | (rw [length_listSet]; exact w)))

theorem walkDie_kin {a0 : Dev} {d : Dev} {u : Nat} (hK : Kin a0 d) : Kin a0 (walkDie d u) := by
  unfold walkDie
  try dsimp only
  with_reducible repeat' first | assumption | apply forEach_kin | apply walkOn_kin | apply bindWalk_kin | intro _

theorem fetchCopy_kin {a0 : Dev} {d : Dev} {ws : List WalkFor} {s : Span} {k c : Nat} (hK : Kin a0 d) : Kin a0 (fetchCopy d ws s k c).dev := by
  unfold fetchCopy
  try dsimp only
  with_reducible repeat'
    first
    | assumption | apply bumpBy_kin | apply readSpan_kin | split | intro _
    | (apply kin_other; first | assumption | apply bumpBy_kin | apply readSpan_kin)
    | (apply kin_other; apply kin_other; first | assumption | apply bumpBy_kin | apply readSpan_kin)
    | (apply kin_mk <;> first | assumption | apply bumpBy_kin | apply readSpan_kin | (intro w; first | exact w | exact wf_set _ _ w | exact wf_upd _ _ w | exact wf_del _ w | exact wf_keep _ w | exact wf_mapV _ w | exact wf_filter _ w | (simp; done) | (simpa using w) | (rw [length_listSet]; exact w)))

theorem fetchStage_kin {a0 : Dev} {d : Dev} {w : WalkFor} {s : Span} {next : List Span} (hK : Kin a0 d) : Kin a0 (fetchStage d w s next).dev := by
  unfold fetchStage
  try dsimp only
  with_reducible repeat'
    first
    | assumption | apply foldlMarked_kin | apply bindWalk_kin | apply bumpBy_kin | apply readSpan_kin | apply forEach_kin
    | apply updMem_kin | split | intro _
    | (apply kin_other; first | assumption | apply foldlMarked_kin | apply bindWalk_kin | apply bumpBy_kin | apply readSpan_kin | apply forEach_kin | apply updMem_kin)
    | (apply kin_other; apply kin_other; first | assumption | apply foldlMarked_kin | apply bindWalk_kin | apply bumpBy_kin | apply readSpan_kin | apply forEach_kin | apply updMem_kin)
    | (apply kin_mk <;> first | assumption | apply foldlMarked_kin | apply bindWalk_kin | apply bumpBy_kin | apply readSpan_kin | apply forEach_kin | apply updMem_kin | (intro w; first | exact w | exact wf_set _ _ w | exact wf_upd _ _ w | exact wf_del _ w | exact wf_keep _ w | exact wf_mapV _ w | exact wf_filter _ w | (simp; done) | (simpa using w) | (rw [length_listSet]; exact w)))

theorem fetchService_kin {a0 : Dev} {d : Dev} {w : WalkFor} {s : Span} (hK : Kin a0 d) : Kin a0 (fetchService d w s).dev := by
  unfold fetchService
  try dsimp only
  with_reducible repeat'
    first
    | assumption | apply updMem_kin | apply readSpan_kin | apply bumpBy_kin | split | apply kin_fst (by assumption)
    | apply kin_snd (by assumption) | intro _
    | (apply kin_other; first | assumption | apply updMem_kin | apply readSpan_kin | apply bumpBy_kin)
    | (apply kin_other; apply kin_other; first | assumption | apply updMem_kin | apply readSpan_kin | apply bumpBy_kin)
    | (apply kin_mk <;> first | assumption | apply updMem_kin | apply readSpan_kin | apply bumpBy_kin | (intro w; first | exact w | exact wf_set _ _ w | exact wf_upd _ _ w | exact wf_del _ w | exact wf_keep _ w | exact wf_mapV _ w | exact wf_filter _ w | (simp; done) | (simpa using w) | (rw [length_listSet]; exact w)))

theorem readSlabs_kin {a0 : Dev} {d : Dev} {j stream : Nat} {y0 : List (Nat × Nat)} (hK : Kin a0 d) : Kin a0 (readSlabs d j stream y0).1 := by
  induction y0 generalizing d j stream with
  | nil =>
    unfold readSlabs
    try dsimp only
    with_reducible repeat'
      first
      | assumption | apply readMeta_kin | apply memUeNow_kin | apply fetchService_kin | split | apply kin_fst (by assumption)
      | apply kin_snd (by assumption) | intro _
  | cons z zs ih =>
    unfold readSlabs
    try dsimp only
    with_reducible repeat'
      first
      | assumption | apply ih | apply readMeta_kin | apply memUeNow_kin | apply fetchService_kin | split
      | apply kin_fst (by assumption) | apply kin_snd (by assumption) | intro _

theorem writeStage_kin {a0 : Dev} {d : Dev} {j : Nat} {jb : Job} {r : Region} {rn k : Nat} (hK : Kin a0 d) : Kin a0 (writeStage d j jb r rn k) := by
  unfold writeStage
  try dsimp only
  with_reducible repeat' first | assumption | apply writeMeta_kin | apply writeSpan_kin | intro _

end Sys2Proof.Machine
end

