-- ==== Sys2Proof/Laws/KinParityOps.lean ====
section
/-!
SUPPORT. Sys2Proof/Laws/KinParityOps.lean: every operation of ParityOps.lean keeps time, identity and the form of the tables.
-/
namespace Sys2Proof.Machine
open SMap

theorem updPar_kin {a0 : Dev} {d : Dev} {f : ParitySt → ParitySt} (hK : Kin a0 d) : Kin a0 (updPar d f) := by
  unfold updPar
  try dsimp only
  with_reducible repeat'
    first
    | assumption | intro _ | (apply kin_other; first | assumption) | (apply kin_other; apply kin_other; first | assumption)
    | (apply kin_mk <;> first | assumption | (intro w; first | exact w | exact wf_set _ _ w | exact wf_upd _ _ w | exact wf_del _ w | exact wf_keep _ w | exact wf_mapV _ w | exact wf_filter _ w | (simp; done) | (simpa using w) | (rw [length_listSet]; exact w)))

theorem sendPos_kin {a0 : Dev} {d : Dev} {j pos : Nat} {words : List W64} (hK : Kin a0 d) : Kin a0 (sendPos d j pos words) := by
  unfold sendPos
  try dsimp only
  with_reducible repeat'
    first
    | assumption | apply sendAddr_kin | apply bump_kin | split | apply kin_fst (by assumption) | apply kin_snd (by assumption)
    | intro _

theorem sendPosHeld_kin {a0 : Dev} {d : Dev} {j pos ptype : Nat} {key : List Nat} {words : List W64} (hK : Kin a0 d) : Kin a0 (sendPosHeld d j pos ptype key words) := by
  unfold sendPosHeld
  try dsimp only
  with_reducible repeat'
    first
    | assumption | apply sendPos_kin | apply updJob_kin | intro _
    | (apply kin_other; first | assumption | apply sendPos_kin | apply updJob_kin)
    | (apply kin_other; apply kin_other; first | assumption | apply sendPos_kin | apply updJob_kin)
    | (apply kin_mk <;> first | assumption | apply sendPos_kin | apply updJob_kin | (intro w; first | exact w | exact wf_set _ _ w | exact wf_upd _ _ w | exact wf_del _ w | exact wf_keep _ w | exact wf_mapV _ w | exact wf_filter _ w | (simp; done) | (simpa using w) | (rw [length_listSet]; exact w)))

theorem sendPiece_kin {a0 : Dev} {d : Dev} {j rn k : Nat} {g : ParGroup} {jb : Job} {f : DeltaFor} {pc : Nat × List W64} (hK : Kin a0 d) : Kin a0 (sendPiece d j rn k g jb f pc) := by
  unfold sendPiece
  try dsimp only
  with_reducible repeat'
    first
    | assumption | apply bump_kin | apply step_kin | apply sendPosHeld_kin | apply updJob_kin | split | intro _
    | (apply kin_other; first | assumption | apply bump_kin | apply step_kin | apply sendPosHeld_kin | apply updJob_kin)
    | (apply kin_other; apply kin_other; first | assumption | apply bump_kin | apply step_kin | apply sendPosHeld_kin | apply updJob_kin)
    | (apply kin_mk <;> first | assumption | apply bump_kin | apply step_kin | apply sendPosHeld_kin | apply updJob_kin | (intro w; first | exact w | exact wf_set _ _ w | exact wf_upd _ _ w | exact wf_del _ w | exact wf_keep _ w | exact wf_mapV _ w | exact wf_filter _ w | (simp; done) | (simpa using w) | (rw [length_listSet]; exact w)))

theorem sendDelta_kin {a0 : Dev} {d : Dev} {j rn k at_ : Nat} {f : DeltaFor} {delta : List W64} (hK : Kin a0 d) : Kin a0 (sendDelta d j rn k at_ f delta) := by
  unfold sendDelta
  try dsimp only
  with_reducible repeat'
    first
    | assumption | apply forEach_kin | apply sendPiece_kin | split | apply kin_fst (by assumption)
    | apply kin_snd (by assumption) | intro _

theorem nextBaseOp_kin {a0 : Dev} {d : Dev} {j rn : Nat} (hK : Kin a0 d) : Kin a0 (nextBaseOp d j rn).2 := by
  unfold nextBaseOp
  try dsimp only
  with_reducible repeat'
    first
    | assumption | apply updPar_kin | apply kinO_getD | intro _
    | (apply kin_other; first | assumption | apply updPar_kin | apply kinO_getD)
    | (apply kin_other; apply kin_other; first | assumption | apply updPar_kin | apply kinO_getD)
    | (apply kin_mk <;> first | assumption | apply updPar_kin | apply kinO_getD | (intro w; first | exact w | exact wf_set _ _ w | exact wf_upd _ _ w | exact wf_del _ w | exact wf_keep _ w | exact wf_mapV _ w | exact wf_filter _ w | (simp; done) | (simpa using w) | (rw [length_listSet]; exact w)))

theorem sendCtl_kin {a0 : Dev} {d : Dev} {j pos kind step attempt : Nat} (hK : Kin a0 d) : Kin a0 (sendCtl d j pos kind step attempt) := by
  unfold sendCtl
  try dsimp only
  with_reducible repeat'
    first
    | assumption | apply sendPosHeld_kin | apply step_kin | split | apply kin_fst (by assumption)
    | apply kin_snd (by assumption) | intro _

theorem sendApply_kin {a0 : Dev} {d : Dev} {j step attempt : Nat} (hK : Kin a0 d) : Kin a0 (sendApply d j step attempt) := by
  unfold sendApply
  try dsimp only
  with_reducible repeat'
    first
    | assumption | apply forEach_kin | apply updJob_kin | apply sendCtl_kin | apply step_kin | split
    | apply kin_fst (by assumption) | apply kin_snd (by assumption) | intro _
    | (apply kin_other; first | assumption | apply forEach_kin | apply updJob_kin | apply sendCtl_kin | apply step_kin)
    | (apply kin_other; apply kin_other; first | assumption | apply forEach_kin | apply updJob_kin | apply sendCtl_kin | apply step_kin)
    | (apply kin_mk <;> first | assumption | apply forEach_kin | apply updJob_kin | apply sendCtl_kin | apply step_kin | (intro w; first | exact w | exact wf_set _ _ w | exact wf_upd _ _ w | exact wf_del _ w | exact wf_keep _ w | exact wf_mapV _ w | exact wf_filter _ w | (simp; done) | (simpa using w) | (rw [length_listSet]; exact w)))

theorem baseWriteSlab_kin {a0 : Dev} {d : Dev} {j rn k : Nat} {data : CopyData} {fresh : Bool} {step : Nat} {silent : Bool} (hK : Kin a0 d) : Kin a0 (baseWriteSlab d j rn k data fresh step silent) := by
  unfold baseWriteSlab
  try dsimp only
  with_reducible repeat'
    first
    | assumption | apply step_kin | apply setDamaged_kin | apply writeCopy_kin | apply setSlab_kin | apply nextBaseOp_kin
    | apply sendDelta_kin | split | apply kin_fst (by assumption) | apply kin_snd (by assumption) | intro _
    | (apply kin_other; first | assumption | apply step_kin | apply setDamaged_kin | apply writeCopy_kin | apply setSlab_kin | apply nextBaseOp_kin | apply sendDelta_kin)
    | (apply kin_other; apply kin_other; first | assumption | apply step_kin | apply setDamaged_kin | apply writeCopy_kin | apply setSlab_kin | apply nextBaseOp_kin | apply sendDelta_kin)
    | (apply kin_mk <;> first | assumption | apply step_kin | apply setDamaged_kin | apply writeCopy_kin | apply setSlab_kin | apply nextBaseOp_kin | apply sendDelta_kin | (intro w; first | exact w | exact wf_set _ _ w | exact wf_upd _ _ w | exact wf_del _ w | exact wf_keep _ w | exact wf_mapV _ w | exact wf_filter _ w | (simp; done) | (simpa using w) | (rw [length_listSet]; exact w)))

end Sys2Proof.Machine
end

