-- ==== Sys2Proof/Laws/KinLoads.lean ====
section
/-!
SUPPORT. Sys2Proof/Laws/KinLoads.lean: every operation of Loads.lean keeps time, identity and the form of the tables.
-/
namespace Sys2Proof.Machine
open SMap

theorem sendXfer_kin {a0 : Dev} {d : Dev} {j m : Nat} {key : List Nat} {words : List W64} (hK : Kin a0 d) : Kin a0 (sendXfer d j m key words) := by
  unfold sendXfer
  try dsimp only
  with_reducible repeat'
    first
    | assumption | apply bumpBy_kin | apply updJob_kin | apply sendMember_kin | intro _
    | (apply kin_other; first | assumption | apply bumpBy_kin | apply updJob_kin | apply sendMember_kin)
    | (apply kin_other; apply kin_other; first | assumption | apply bumpBy_kin | apply updJob_kin | apply sendMember_kin)
    | (apply kin_mk <;> first | assumption | apply bumpBy_kin | apply updJob_kin | apply sendMember_kin | (intro w; first | exact w | exact wf_set _ _ w | exact wf_upd _ _ w | exact wf_del _ w | exact wf_keep _ w | exact wf_mapV _ w | exact wf_filter _ w | (simp; done) | (simpa using w) | (rw [length_listSet]; exact w)))

theorem snapSlab_kin {a0 : Dev} {d : Dev} {j m rn k step : Nat} (hK : Kin a0 d) : Kin a0 (snapSlab d j m rn k step) := by
  unfold snapSlab
  try dsimp only
  with_reducible repeat'
    first
    | assumption | apply forEach_kin | apply sendXfer_kin | apply step_kin | apply kinO_getD | split
    | apply kin_fst (by assumption) | apply kin_snd (by assumption) | intro _

theorem snapSettle_kin {a0 : Dev} {d : Dev} {j : Nat} (hK : Kin a0 d) : Kin a0 (snapSettle d j) := by
  unfold snapSettle
  try dsimp only
  with_reducible repeat'
    first
    | assumption | apply updJob_kin | apply step_kin | apply finishCmds_kin | split | apply kin_fst (by assumption)
    | apply kin_snd (by assumption) | intro _
    | (apply kin_other; first | assumption | apply updJob_kin | apply step_kin | apply finishCmds_kin)
    | (apply kin_other; apply kin_other; first | assumption | apply updJob_kin | apply step_kin | apply finishCmds_kin)
    | (apply kin_mk <;> first | assumption | apply updJob_kin | apply step_kin | apply finishCmds_kin | (intro w; first | exact w | exact wf_set _ _ w | exact wf_upd _ _ w | exact wf_del _ w | exact wf_keep _ w | exact wf_mapV _ w | exact wf_filter _ w | (simp; done) | (simpa using w) | (rw [length_listSet]; exact w)))

theorem snapSetting_kin {a0 : Dev} {d : Dev} {j : Nat} (hK : Kin a0 d) : Kin a0 (snapSetting d j) := by
  unfold snapSetting
  try dsimp only
  with_reducible repeat'
    first
    | assumption | apply updJob_kin | split | apply kin_fst (by assumption) | apply kin_snd (by assumption) | intro _
    | (apply kin_other; first | assumption | apply updJob_kin)
    | (apply kin_other; apply kin_other; first | assumption | apply updJob_kin)
    | (apply kin_mk <;> first | assumption | apply updJob_kin | (intro w; first | exact w | exact wf_set _ _ w | exact wf_upd _ _ w | exact wf_del _ w | exact wf_keep _ w | exact wf_mapV _ w | exact wf_filter _ w | (simp; done) | (simpa using w) | (rw [length_listSet]; exact w)))

theorem failSnap_kin {a0 : Dev} {d : Dev} {j : Nat} (hK : Kin a0 d) : Kin a0 (failSnap d j) := by
  unfold failSnap
  try dsimp only
  with_reducible repeat'
    first
    | assumption | apply dropHeld_kin | apply updJob_kin | apply raiseTrap_kin | apply drawFree_kin | apply finishCmds_kin
    | apply kinO_getD | split | apply kin_fst (by assumption) | apply kin_snd (by assumption) | intro _
    | (apply kin_other; first | assumption | apply dropHeld_kin | apply updJob_kin | apply raiseTrap_kin | apply drawFree_kin | apply finishCmds_kin | apply kinO_getD)
    | (apply kin_other; apply kin_other; first | assumption | apply dropHeld_kin | apply updJob_kin | apply raiseTrap_kin | apply drawFree_kin | apply finishCmds_kin | apply kinO_getD)
    | (apply kin_mk <;> first | assumption | apply dropHeld_kin | apply updJob_kin | apply raiseTrap_kin | apply drawFree_kin | apply finishCmds_kin | apply kinO_getD | (intro w; first | exact w | exact wf_set _ _ w | exact wf_upd _ _ w | exact wf_del _ w | exact wf_keep _ w | exact wf_mapV _ w | exact wf_filter _ w | (simp; done) | (simpa using w) | (rw [length_listSet]; exact w)))

theorem startSnap_kin {a0 : Dev} {d : Dev} {j step : Nat} (hK : Kin a0 d) : Kin a0 (startSnap d j step) := by
  unfold startSnap
  try dsimp only
  with_reducible repeat'
    first
    | assumption | apply updJob_kin | apply step_kin | apply readSlabs_kin | apply failSnap_kin | apply snapSettle_kin
    | apply forEach_kin | apply snapSlab_kin | apply kinO_getD | split | apply kin_fst (by assumption)
    | apply kin_snd (by assumption) | intro _
    | (apply kin_other; first | assumption | apply updJob_kin | apply step_kin | apply readSlabs_kin | apply failSnap_kin | apply snapSettle_kin | apply forEach_kin | apply snapSlab_kin | apply kinO_getD)
    | (apply kin_other; apply kin_other; first | assumption | apply updJob_kin | apply step_kin | apply readSlabs_kin | apply failSnap_kin | apply snapSettle_kin | apply forEach_kin | apply snapSlab_kin | apply kinO_getD)
    | (apply kin_mk <;> first | assumption | apply updJob_kin | apply step_kin | apply readSlabs_kin | apply failSnap_kin | apply snapSettle_kin | apply forEach_kin | apply snapSlab_kin | apply kinO_getD | (intro w; first | exact w | exact wf_set _ _ w | exact wf_upd _ _ w | exact wf_del _ w | exact wf_keep _ w | exact wf_mapV _ w | exact wf_filter _ w | (simp; done) | (simpa using w) | (rw [length_listSet]; exact w)))

theorem snapDue_kin {a0 : Dev} {d : Dev} {j step : Nat} (hK : Kin a0 d) : Kin a0 (snapDue d j step) := by
  unfold snapDue
  try dsimp only
  with_reducible repeat'
    first
    | assumption | apply step_kin | apply bump_kin | apply startSnap_kin | split | apply kin_fst (by assumption)
    | apply kin_snd (by assumption) | intro _

theorem sendXferReq_kin {a0 : Dev} {d : Dev} {j q : Nat} {l : Load} {rn : Nat} {run : Nat × Nat} (hK : Kin a0 d) : Kin a0 (sendXferReq d j q l rn run) := by
  unfold sendXferReq
  try dsimp only
  with_reducible repeat'
    first
    | assumption | apply step_kin | apply sendMember_kin | apply updJob_kin | intro _
    | (apply kin_other; first | assumption | apply step_kin | apply sendMember_kin | apply updJob_kin)
    | (apply kin_other; apply kin_other; first | assumption | apply step_kin | apply sendMember_kin | apply updJob_kin)
    | (apply kin_mk <;> first | assumption | apply step_kin | apply sendMember_kin | apply updJob_kin | (intro w; first | exact w | exact wf_set _ _ w | exact wf_upd _ _ w | exact wf_del _ w | exact wf_keep _ w | exact wf_mapV _ w | exact wf_filter _ w | (simp; done) | (simpa using w) | (rw [length_listSet]; exact w)))

theorem startLoad_kin {a0 : Dev} {d : Dev} {j : Nat} {l : Load} {slabs : List (Nat × List Nat)} (hK : Kin a0 d) : Kin a0 (startLoad d j l slabs) := by
  unfold startLoad
  try dsimp only
  with_reducible repeat'
    first
    | assumption | apply updJob_kin | apply forEach_kin | apply sendXferReq_kin | split | apply kin_fst (by assumption)
    | apply kin_snd (by assumption) | intro _
    | (apply kin_other; first | assumption | apply updJob_kin | apply forEach_kin | apply sendXferReq_kin)
    | (apply kin_other; apply kin_other; first | assumption | apply updJob_kin | apply forEach_kin | apply sendXferReq_kin)
    | (apply kin_mk <;> first | assumption | apply updJob_kin | apply forEach_kin | apply sendXferReq_kin | (intro w; first | exact w | exact wf_set _ _ w | exact wf_upd _ _ w | exact wf_del _ w | exact wf_keep _ w | exact wf_mapV _ w | exact wf_filter _ w | (simp; done) | (simpa using w) | (rw [length_listSet]; exact w)))

theorem setCommit_kin {a0 : Dev} {d : Dev} {j : Nat} {commit : W64} {step attempt : Nat} (hK : Kin a0 d) : Kin a0 (setCommit d j commit step attempt) := by
  unfold setCommit
  try dsimp only
  with_reducible repeat'
    first
    | assumption | apply releaseReads_kin | apply updJob_kin | apply step_kin | intro _
    | (apply kin_other; first | assumption | apply releaseReads_kin | apply updJob_kin | apply step_kin)
    | (apply kin_other; apply kin_other; first | assumption | apply releaseReads_kin | apply updJob_kin | apply step_kin)
    | (apply kin_mk <;> first | assumption | apply releaseReads_kin | apply updJob_kin | apply step_kin | (intro w; first | exact w | exact wf_set _ _ w | exact wf_upd _ _ w | exact wf_del _ w | exact wf_keep _ w | exact wf_mapV _ w | exact wf_filter _ w | (simp; done) | (simpa using w) | (rw [length_listSet]; exact w)))

theorem endLoad_kin {a0 : Dev} {d : Dev} {j : Nat} {l : Load} (hK : Kin a0 d) : Kin a0 (endLoad d j l) := by
  unfold endLoad
  try dsimp only
  with_reducible repeat'
    first
    | assumption | apply updJob_kin | apply finishCmds_kin | apply setCommit_kin | apply step_kin | split | intro _
    | (apply kin_other; first | assumption | apply updJob_kin | apply finishCmds_kin | apply setCommit_kin | apply step_kin)
    | (apply kin_other; apply kin_other; first | assumption | apply updJob_kin | apply finishCmds_kin | apply setCommit_kin | apply step_kin)
    | (apply kin_mk <;> first | assumption | apply updJob_kin | apply finishCmds_kin | apply setCommit_kin | apply step_kin | (intro w; first | exact w | exact wf_set _ _ w | exact wf_upd _ _ w | exact wf_del _ w | exact wf_keep _ w | exact wf_mapV _ w | exact wf_filter _ w | (simp; done) | (simpa using w) | (rw [length_listSet]; exact w)))

theorem baseSettle_kin {a0 : Dev} {d : Dev} {j : Nat} (hK : Kin a0 d) : Kin a0 (baseSettle d j) := by
  unfold baseSettle
  try dsimp only
  with_reducible repeat'
    first
    | assumption | apply finishCmds_kin | apply forEach_kin | apply endLoad_kin | split | apply kin_fst (by assumption)
    | apply kin_snd (by assumption) | intro _

theorem updLoad_kin {a0 : Dev} {d : Dev} {j kind rn : Nat} {f : Load → Load} (hK : Kin a0 d) : Kin a0 (updLoad d j kind rn f) := by
  unfold updLoad
  try dsimp only
  with_reducible repeat'
    first
    | assumption | apply updJob_kin | split | intro _ | (apply kin_other; first | assumption | apply updJob_kin)
    | (apply kin_other; apply kin_other; first | assumption | apply updJob_kin)
    | (apply kin_mk <;> first | assumption | apply updJob_kin | (intro w; first | exact w | exact wf_set _ _ w | exact wf_upd _ _ w | exact wf_del _ w | exact wf_keep _ w | exact wf_mapV _ w | exact wf_filter _ w | (simp; done) | (simpa using w) | (rw [length_listSet]; exact w)))

theorem missSlab_kin {a0 : Dev} {d : Dev} {j kind rn k : Nat} (hK : Kin a0 d) : Kin a0 (missSlab d j kind rn k) := by
  unfold missSlab
  try dsimp only
  with_reducible repeat'
    first
    | assumption | apply baseSettle_kin | apply updLoad_kin | intro _
    | (apply kin_other; first | assumption | apply baseSettle_kin | apply updLoad_kin)
    | (apply kin_other; apply kin_other; first | assumption | apply baseSettle_kin | apply updLoad_kin)
    | (apply kin_mk <;> first | assumption | apply baseSettle_kin | apply updLoad_kin | (intro w; first | exact w | exact wf_set _ _ w | exact wf_upd _ _ w | exact wf_del _ w | exact wf_keep _ w | exact wf_mapV _ w | exact wf_filter _ w | (simp; done) | (simpa using w) | (rw [length_listSet]; exact w)))

theorem takePart_kin {a0 : Dev} {d : Dev} {j : Nat} {l : Load} {r : Region} {f : Fetch} {key fresh step : Nat} {data : List W64} (hK : Kin a0 d) : Kin a0 (takePart d j l r f key fresh step data) := by
  unfold takePart
  try dsimp only
  with_reducible repeat'
    first
    | assumption | apply step_kin | apply missSlab_kin | apply baseWriteSlab_kin | apply baseSettle_kin | apply updLoad_kin
    | split | apply kin_fst (by assumption) | apply kin_snd (by assumption) | intro _
    | (apply kin_other; first | assumption | apply step_kin | apply missSlab_kin | apply baseWriteSlab_kin | apply baseSettle_kin | apply updLoad_kin)
    | (apply kin_other; apply kin_other; first | assumption | apply step_kin | apply missSlab_kin | apply baseWriteSlab_kin | apply baseSettle_kin | apply updLoad_kin)
    | (apply kin_mk <;> first | assumption | apply step_kin | apply missSlab_kin | apply baseWriteSlab_kin | apply baseSettle_kin | apply updLoad_kin | (intro w; first | exact w | exact wf_set _ _ w | exact wf_upd _ _ w | exact wf_del _ w | exact wf_keep _ w | exact wf_mapV _ w | exact wf_filter _ w | (simp; done) | (simpa using w) | (rw [length_listSet]; exact w)))

theorem answered_kin {a0 : Dev} {d : Dev} {j kind rn k q : Nat} (hK : Kin a0 d) : Kin a0 (answered d j kind rn k q) := by
  unfold answered
  try dsimp only
  with_reducible repeat' first | assumption | apply dropHeld_kin | apply kinO_getD | intro _

theorem slabXferIn_kin {a0 : Dev} {d : Dev} {k : PktRx} (hK : Kin a0 d) : Kin a0 (slabXferIn d k) := by
  unfold slabXferIn
  try dsimp only
  with_reducible repeat'
    first
    | assumption | apply answered_kin | apply missSlab_kin | apply takePart_kin | apply kinO_getD | split
    | apply kin_fst (by assumption) | apply kin_snd (by assumption) | intro _

theorem xferAckIn_kin {a0 : Dev} {d : Dev} {k : PktRx} (hK : Kin a0 d) : Kin a0 (xferAckIn d k) := by
  unfold xferAckIn
  try dsimp only
  with_reducible repeat'
    first
    | assumption | apply step_kin | apply snapSettle_kin | apply dropHeld_kin | apply failSnap_kin | apply missSlab_kin
    | apply answered_kin | split | apply kin_fst (by assumption) | apply kin_snd (by assumption) | intro _

theorem execXferAck_kin {k : PktRx} {s : State}  : KinS s (execXferAck k s) := by
  unfold execXferAck
  try dsimp only
  with_reducible repeat'
    first
    | assumption | exact kinS_fault | exact Kin.refl _ | apply onArrival_kin | apply xferAckIn_kin | intro _

theorem xferLapse_kin {a0 : Dev} {d : Dev} {j : Nat} (hK : Kin a0 d) : Kin a0 (xferLapse d j) := by
  unfold xferLapse
  try dsimp only
  with_reducible repeat'
    first
    | assumption | apply failSnap_kin | apply forEach_kin | apply updLoad_kin | apply dropHeld_kin | apply baseSettle_kin
    | apply kinO_getD | split | apply kin_fst (by assumption) | apply kin_snd (by assumption) | intro _
    | (apply kin_other; first | assumption | apply failSnap_kin | apply forEach_kin | apply updLoad_kin | apply dropHeld_kin | apply baseSettle_kin | apply kinO_getD)
    | (apply kin_other; apply kin_other; first | assumption | apply failSnap_kin | apply forEach_kin | apply updLoad_kin | apply dropHeld_kin | apply baseSettle_kin | apply kinO_getD)
    | (apply kin_mk <;> first | assumption | apply failSnap_kin | apply forEach_kin | apply updLoad_kin | apply dropHeld_kin | apply baseSettle_kin | apply kinO_getD | (intro w; first | exact w | exact wf_set _ _ w | exact wf_upd _ _ w | exact wf_del _ w | exact wf_keep _ w | exact wf_mapV _ w | exact wf_filter _ w | (simp; done) | (simpa using w) | (rw [length_listSet]; exact w)))

theorem execXferTimeout_kin {s : State}  : KinS s (execXferTimeout s) := by
  unfold execXferTimeout
  try dsimp only
  with_reducible repeat'
    first
    | assumption | exact kinS_fault | exact Kin.refl _ | apply onDev_kin | apply poolsSettle_kin | apply forEach_kin
    | apply xferLapse_kin | intro _

end Sys2Proof.Machine
end

