-- ==== Sys2Proof/Laws/KinRebuildOps.lean ====
section
/-!
SUPPORT. Sys2Proof/Laws/KinRebuildOps.lean: every operation of RebuildOps.lean keeps time, identity and the form of the tables.
-/
namespace Sys2Proof.Machine
open SMap

theorem sendRow_kin {a0 : Dev} {d : Dev} {j dst : Nat} {h : RowHead} {y0 : Nat} {y1 : Nat} {y2 : List W64} (hK : Kin a0 d) : Kin a0 (sendRow d j dst h y0 y1 y2) := by
  induction y0 generalizing d j dst h y1 y2 with
  | zero =>
    unfold sendRow
    try dsimp only
    with_reducible repeat' first | assumption | apply sendAddr_kin | split | intro _
  | succ k ih =>
    unfold sendRow
    try dsimp only
    with_reducible repeat' first | assumption | apply ih | apply sendAddr_kin | split | intro _

theorem askRow_kin {a0 : Dev} {d : Dev} {j rn row step : Nat} (hK : Kin a0 d) : Kin a0 (askRow d j rn row step) := by
  unfold askRow
  try dsimp only
  with_reducible repeat'
    first
    | assumption | apply forEach_kin | apply sendPos_kin | apply step_kin | split | apply kin_fst (by assumption)
    | apply kin_snd (by assumption) | intro _

theorem updRebuild_kin {a0 : Dev} {d : Dev} {j : Nat} {f : Rebuild → Rebuild} (hK : Kin a0 d) : Kin a0 (updRebuild d j f) := by
  unfold updRebuild
  try dsimp only
  with_reducible repeat'
    first
    | assumption | apply updJob_kin | intro _ | (apply kin_other; first | assumption | apply updJob_kin)
    | (apply kin_other; apply kin_other; first | assumption | apply updJob_kin)
    | (apply kin_mk <;> first | assumption | apply updJob_kin | (intro w; first | exact w | exact wf_set _ _ w | exact wf_upd _ _ w | exact wf_del _ w | exact wf_keep _ w | exact wf_mapV _ w | exact wf_filter _ w | (simp; done) | (simpa using w) | (rw [length_listSet]; exact w)))

theorem askRows_kin {a0 : Dev} {d : Dev} {j : Nat} {rows : List (Nat × Nat)} (hK : Kin a0 d) : Kin a0 (askRows d j rows) := by
  unfold askRows
  try dsimp only
  with_reducible repeat'
    first
    | assumption | apply updRebuild_kin | apply forEach_kin | apply askRow_kin | apply step_kin | split
    | apply kin_fst (by assumption) | apply kin_snd (by assumption) | intro _
    | (apply kin_other; first | assumption | apply updRebuild_kin | apply forEach_kin | apply askRow_kin | apply step_kin)
    | (apply kin_other; apply kin_other; first | assumption | apply updRebuild_kin | apply forEach_kin | apply askRow_kin | apply step_kin)
    | (apply kin_mk <;> first | assumption | apply updRebuild_kin | apply forEach_kin | apply askRow_kin | apply step_kin | (intro w; first | exact w | exact wf_set _ _ w | exact wf_upd _ _ w | exact wf_del _ w | exact wf_keep _ w | exact wf_mapV _ w | exact wf_filter _ w | (simp; done) | (simpa using w) | (rw [length_listSet]; exact w)))

theorem writeImage_kin {a0 : Dev} {d : Dev} {j rn k : Nat} {r : Region} {img : List W64} {silent : Bool} (hK : Kin a0 d) : Kin a0 (writeImage d j rn k r img silent) := by
  unfold writeImage
  try dsimp only
  with_reducible repeat'
    first
    | assumption | apply baseWriteSlab_kin | intro _ | (apply kin_other; first | assumption | apply baseWriteSlab_kin)
    | (apply kin_other; apply kin_other; first | assumption | apply baseWriteSlab_kin)
    | (apply kin_mk <;> first | assumption | apply baseWriteSlab_kin | (intro w; first | exact w | exact wf_set _ _ w | exact wf_upd _ _ w | exact wf_del _ w | exact wf_keep _ w | exact wf_mapV _ w | exact wf_filter _ w | (simp; done) | (simpa using w) | (rw [length_listSet]; exact w)))

theorem startRepair_kin {a0 : Dev} {d : Dev} {j : Nat} (hK : Kin a0 d) : Kin a0 (startRepair d j) := by
  unfold startRepair
  try dsimp only
  with_reducible repeat'
    first
    | assumption | apply updJob_kin | apply step_kin | apply askRows_kin | split | apply kin_fst (by assumption)
    | apply kin_snd (by assumption) | intro _
    | (apply kin_other; first | assumption | apply updJob_kin | apply step_kin | apply askRows_kin)
    | (apply kin_other; apply kin_other; first | assumption | apply updJob_kin | apply step_kin | apply askRows_kin)
    | (apply kin_mk <;> first | assumption | apply updJob_kin | apply step_kin | apply askRows_kin | (intro w; first | exact w | exact wf_set _ _ w | exact wf_upd _ _ w | exact wf_del _ w | exact wf_keep _ w | exact wf_mapV _ w | exact wf_filter _ w | (simp; done) | (simpa using w) | (rw [length_listSet]; exact w)))

theorem endRepair_kin {a0 : Dev} {d : Dev} {j rn k : Nat} (hK : Kin a0 d) : Kin a0 (endRepair d j rn k) := by
  unfold endRepair
  try dsimp only
  with_reducible repeat'
    first
    | assumption | apply updJob_kin | apply writeImage_kin | apply nextBaseOp_kin | apply sendDelta_kin | apply step_kin
    | split | apply kin_fst (by assumption) | apply kin_snd (by assumption) | intro _
    | (apply kin_other; first | assumption | apply updJob_kin | apply writeImage_kin | apply nextBaseOp_kin | apply sendDelta_kin | apply step_kin)
    | (apply kin_other; apply kin_other; first | assumption | apply updJob_kin | apply writeImage_kin | apply nextBaseOp_kin | apply sendDelta_kin | apply step_kin)
    | (apply kin_mk <;> first | assumption | apply updJob_kin | apply writeImage_kin | apply nextBaseOp_kin | apply sendDelta_kin | apply step_kin | (intro w; first | exact w | exact wf_set _ _ w | exact wf_upd _ _ w | exact wf_del _ w | exact wf_keep _ w | exact wf_mapV _ w | exact wf_filter _ w | (simp; done) | (simpa using w) | (rw [length_listSet]; exact w)))

theorem refuseRebuild_kin {a0 : Dev} {d : Dev} {j status : Nat} (hK : Kin a0 d) : Kin a0 (refuseRebuild d j status) := by
  unfold refuseRebuild
  try dsimp only
  with_reducible repeat'
    first
    | assumption | apply updJob_kin | apply startRepair_kin | apply finishCmds_kin | intro _
    | (apply kin_other; first | assumption | apply updJob_kin | apply startRepair_kin | apply finishCmds_kin)
    | (apply kin_other; apply kin_other; first | assumption | apply updJob_kin | apply startRepair_kin | apply finishCmds_kin)
    | (apply kin_mk <;> first | assumption | apply updJob_kin | apply startRepair_kin | apply finishCmds_kin | (intro w; first | exact w | exact wf_set _ _ w | exact wf_upd _ _ w | exact wf_del _ w | exact wf_keep _ w | exact wf_mapV _ w | exact wf_filter _ w | (simp; done) | (simpa using w) | (rw [length_listSet]; exact w)))

theorem endRebuild_kin {a0 : Dev} {d : Dev} {j : Nat} (hK : Kin a0 d) : Kin a0 (endRebuild d j) := by
  unfold endRebuild
  try dsimp only
  with_reducible repeat'
    first
    | assumption | apply forEach_kin | apply writeImage_kin | apply setDamaged_kin | apply step_kin | apply setCommit_kin
    | apply updJob_kin | apply startRepair_kin | apply finishCmds_kin | split | apply kin_fst (by assumption)
    | apply kin_snd (by assumption) | intro _
    | (apply kin_other; first | assumption | apply forEach_kin | apply writeImage_kin | apply setDamaged_kin | apply step_kin | apply setCommit_kin | apply updJob_kin | apply startRepair_kin | apply finishCmds_kin)
    | (apply kin_other; apply kin_other; first | assumption | apply forEach_kin | apply writeImage_kin | apply setDamaged_kin | apply step_kin | apply setCommit_kin | apply updJob_kin | apply startRepair_kin | apply finishCmds_kin)
    | (apply kin_mk <;> first | assumption | apply forEach_kin | apply writeImage_kin | apply setDamaged_kin | apply step_kin | apply setCommit_kin | apply updJob_kin | apply startRepair_kin | apply finishCmds_kin | (intro w; first | exact w | exact wf_set _ _ w | exact wf_upd _ _ w | exact wf_del _ w | exact wf_keep _ w | exact wf_mapV _ w | exact wf_filter _ w | (simp; done) | (simpa using w) | (rw [length_listSet]; exact w)))

theorem rebuildSettle_kin {a0 : Dev} {d : Dev} {j : Nat} (hK : Kin a0 d) : Kin a0 (rebuildSettle d j) := by
  unfold rebuildSettle
  try dsimp only
  with_reducible repeat'
    first
    | assumption | apply updRebuild_kin | apply forEach_kin | apply askRow_kin | apply step_kin | apply startRepair_kin
    | apply endRepair_kin | apply endRebuild_kin | split | apply kin_fst (by assumption) | apply kin_snd (by assumption)
    | intro _
    | (apply kin_other; first | assumption | apply updRebuild_kin | apply forEach_kin | apply askRow_kin | apply step_kin | apply startRepair_kin | apply endRepair_kin | apply endRebuild_kin)
    | (apply kin_other; apply kin_other; first | assumption | apply updRebuild_kin | apply forEach_kin | apply askRow_kin | apply step_kin | apply startRepair_kin | apply endRepair_kin | apply endRebuild_kin)
    | (apply kin_mk <;> first | assumption | apply updRebuild_kin | apply forEach_kin | apply askRow_kin | apply step_kin | apply startRepair_kin | apply endRepair_kin | apply endRebuild_kin | (intro w; first | exact w | exact wf_set _ _ w | exact wf_upd _ _ w | exact wf_del _ w | exact wf_keep _ w | exact wf_mapV _ w | exact wf_filter _ w | (simp; done) | (simpa using w) | (rw [length_listSet]; exact w)))

theorem claimsSettle_kin {a0 : Dev} {d : Dev} {j : Nat} (hK : Kin a0 d) : Kin a0 (claimsSettle d j) := by
  unfold claimsSettle
  try dsimp only
  with_reducible repeat'
    first
    | assumption | apply refuseRebuild_kin | apply step_kin | apply rebuildSettle_kin | apply askRows_kin | split
    | apply kin_fst (by assumption) | apply kin_snd (by assumption) | intro _

theorem damageSlab_kin {a0 : Dev} {d : Dev} {j rn k cause : Nat} (hK : Kin a0 d) : Kin a0 (damageSlab d j rn k cause) := by
  unfold damageSlab
  try dsimp only
  with_reducible repeat' first | assumption | apply startRepair_kin | apply damageNow_kin | intro _

theorem memUeSlab_kin {a0 : Dev} {d : Dev} {j rn k area : Nat} (hK : Kin a0 d) : Kin a0 (memUeSlab d j rn k area) := by
  unfold memUeSlab
  try dsimp only
  with_reducible repeat' first | assumption | apply startRepair_kin | apply memUeNow_kin | intro _

theorem readChunk_kin {a0 : Dev} {d : Dev} {j : Nat} {jb : Job} {rn c : Nat} (hK : Kin a0 d) : Kin a0 (readChunk d j jb rn c).1 := by
  unfold readChunk
  try dsimp only
  with_reducible repeat'
    first
    | assumption | apply readSlabs_kin | apply startRepair_kin | split | apply kin_fst (by assumption)
    | apply kin_snd (by assumption) | intro _

end Sys2Proof.Machine
end

