-- ==== Sys2Proof/Laws/KinHoist.lean ====
section
/-!
SUPPORT. Sys2Proof/Laws/KinHoist.lean: every operation of Hoist.lean keeps time, identity and the form of the tables.
-/
namespace Sys2Proof.Machine
open SMap

theorem hoistReqIn_kin {a0 : Dev} {d : Dev} {k : PktRx} (hK : Kin a0 d) : Kin a0 (hoistReqIn d k) := by
  unfold hoistReqIn
  try dsimp only
  with_reducible repeat'
    first
    | assumption | apply sendPort_kin | apply bump_kin | apply updJob_kin | apply forEach_kin | apply askSlab_kin | split
    | apply kin_fst (by assumption) | apply kin_snd (by assumption) | intro _
    | (apply kin_other; first | assumption | apply sendPort_kin | apply bump_kin | apply updJob_kin | apply forEach_kin | apply askSlab_kin)
    | (apply kin_other; apply kin_other; first | assumption | apply sendPort_kin | apply bump_kin | apply updJob_kin | apply forEach_kin | apply askSlab_kin)
    | (apply kin_mk <;> first | assumption | apply sendPort_kin | apply bump_kin | apply updJob_kin | apply forEach_kin | apply askSlab_kin | (intro w; first | exact w | exact wf_set _ _ w | exact wf_upd _ _ w | exact wf_del _ w | exact wf_keep _ w | exact wf_mapV _ w | exact wf_filter _ w | (simp; done) | (simpa using w) | (rw [length_listSet]; exact w)))

theorem execHoistReq_kin {k : PktRx} {s : State}  : KinS s (execHoistReq k s) := by
  unfold execHoistReq
  try dsimp only
  with_reducible repeat'
    first
    | assumption | exact kinS_fault | exact Kin.refl _ | apply onArrival_kin | apply hoistReqIn_kin | intro _

theorem hoistFetch_kin {a0 : Dev} {d : Dev} {j : Nat} {jb : Job} {r : Region} {e : ReadEntry} (hK : Kin a0 d) : Kin a0 (hoistFetch d j jb r e).dev := by
  unfold hoistFetch
  try dsimp only
  with_reducible repeat'
    first
    | assumption | apply readMeta_kin | apply walkDie_kin | apply fetchCopy_kin | split | apply kin_fst (by assumption)
    | apply kin_snd (by assumption) | intro _
    | (apply kin_other; first | assumption | apply readMeta_kin | apply walkDie_kin | apply fetchCopy_kin)
    | (apply kin_other; apply kin_other; first | assumption | apply readMeta_kin | apply walkDie_kin | apply fetchCopy_kin)
    | (apply kin_mk <;> first | assumption | apply readMeta_kin | apply walkDie_kin | apply fetchCopy_kin | (intro w; first | exact w | exact wf_set _ _ w | exact wf_upd _ _ w | exact wf_del _ w | exact wf_keep _ w | exact wf_mapV _ w | exact wf_filter _ w | (simp; done) | (simpa using w) | (rw [length_listSet]; exact w)))

theorem slabRead_kin {a0 : Dev} {d : Dev} {j i : Nat} {ue : Bool} (hK : Kin a0 d) : Kin a0 (slabRead d j i ue) := by
  unfold slabRead
  try dsimp only
  with_reducible repeat'
    first
    | assumption | apply completeRead_kin | apply bumpBy_kin | apply updJob_kin | apply hoistFetch_kin | apply memUeSlab_kin
    | split | apply kin_fst (by assumption) | apply kin_snd (by assumption) | intro _
    | (apply kin_other; first | assumption | apply completeRead_kin | apply bumpBy_kin | apply updJob_kin | apply hoistFetch_kin | apply memUeSlab_kin)
    | (apply kin_other; apply kin_other; first | assumption | apply completeRead_kin | apply bumpBy_kin | apply updJob_kin | apply hoistFetch_kin | apply memUeSlab_kin)
    | (apply kin_mk <;> first | assumption | apply completeRead_kin | apply bumpBy_kin | apply updJob_kin | apply hoistFetch_kin | apply memUeSlab_kin | (intro w; first | exact w | exact wf_set _ _ w | exact wf_upd _ _ w | exact wf_del _ w | exact wf_keep _ w | exact wf_mapV _ w | exact wf_filter _ w | (simp; done) | (simpa using w) | (rw [length_listSet]; exact w)))

theorem execHoistSlabRead_kin {job entry : Nat} {memUe : Bool} {s : State}  : KinS s (execHoistSlabRead job entry memUe s) := by
  unfold execHoistSlabRead
  try dsimp only
  with_reducible repeat'
    first
    | assumption | exact kinS_fault | exact Kin.refl _ | apply onUnit_kin | apply poolsSettle_kin | apply slabRead_kin
    | intro _

theorem hoistDone_kin {a0 : Dev} {d : Dev} {j m tag : Nat} (hK : Kin a0 d) : Kin a0 (hoistDone d j m tag) := by
  unfold hoistDone
  try dsimp only
  with_reducible repeat'
    first
    | assumption | apply sendPort_kin | apply dropHoist_kin | split | apply kin_fst (by assumption)
    | apply kin_snd (by assumption) | intro _
    | (apply kin_other; first | assumption | apply sendPort_kin | apply dropHoist_kin)
    | (apply kin_other; apply kin_other; first | assumption | apply sendPort_kin | apply dropHoist_kin)
    | (apply kin_mk <;> first | assumption | apply sendPort_kin | apply dropHoist_kin | (intro w; first | exact w | exact wf_set _ _ w | exact wf_upd _ _ w | exact wf_del _ w | exact wf_keep _ w | exact wf_mapV _ w | exact wf_filter _ w | (simp; done) | (simpa using w) | (rw [length_listSet]; exact w)))

theorem execHoistEnd_kin {job member tag : Nat} {s : State}  : KinS s (execHoistEnd job member tag s) := by
  unfold execHoistEnd
  try dsimp only
  with_reducible repeat'
    first
    | assumption | exact kinS_fault | exact Kin.refl _ | apply onUnit_kin | apply hoistDone_kin | intro _

theorem remoteReadIn_kin {a0 : Dev} {d : Dev} {k : PktRx} (hK : Kin a0 d) : Kin a0 (remoteReadIn d k) := by
  unfold remoteReadIn
  try dsimp only
  with_reducible repeat'
    first
    | assumption | apply answerRemote_kin | apply forEach_kin | apply addRead_kin | split | apply kin_fst (by assumption)
    | apply kin_snd (by assumption) | intro _
    | (apply kin_other; first | assumption | apply answerRemote_kin | apply forEach_kin | apply addRead_kin)
    | (apply kin_other; apply kin_other; first | assumption | apply answerRemote_kin | apply forEach_kin | apply addRead_kin)
    | (apply kin_mk <;> first | assumption | apply answerRemote_kin | apply forEach_kin | apply addRead_kin | (intro w; first | exact w | exact wf_set _ _ w | exact wf_upd _ _ w | exact wf_del _ w | exact wf_keep _ w | exact wf_mapV _ w | exact wf_filter _ w | (simp; done) | (simpa using w) | (rw [length_listSet]; exact w)))

theorem execRemoteRead_kin {k : PktRx} {s : State}  : KinS s (execRemoteRead k s) := by
  unfold execRemoteRead
  try dsimp only
  with_reducible repeat'
    first
    | assumption | exact kinS_fault | exact Kin.refl _ | apply onArrival_kin | apply remoteReadIn_kin | intro _

theorem remoteDataIn_kin {a0 : Dev} {d : Dev} {k : PktRx} (hK : Kin a0 d) : Kin a0 (remoteDataIn d k) := by
  unfold remoteDataIn
  try dsimp only
  with_reducible repeat'
    first
    | assumption | apply step_kin | apply completeRead_kin | split | apply kin_fst (by assumption)
    | apply kin_snd (by assumption) | intro _
    | (apply kin_other; first | assumption | apply step_kin | apply completeRead_kin)
    | (apply kin_other; apply kin_other; first | assumption | apply step_kin | apply completeRead_kin)
    | (apply kin_mk <;> first | assumption | apply step_kin | apply completeRead_kin | (intro w; first | exact w | exact wf_set _ _ w | exact wf_upd _ _ w | exact wf_del _ w | exact wf_keep _ w | exact wf_mapV _ w | exact wf_filter _ w | (simp; done) | (simpa using w) | (rw [length_listSet]; exact w)))

theorem execRemoteData_kin {k : PktRx} {s : State}  : KinS s (execRemoteData k s) := by
  unfold execRemoteData
  try dsimp only
  with_reducible repeat'
    first
    | assumption | exact kinS_fault | exact Kin.refl _ | apply onArrival_kin | apply remoteDataIn_kin | intro _

theorem remoteStatusIn_kin {a0 : Dev} {d : Dev} {k : PktRx} (hK : Kin a0 d) : Kin a0 (remoteStatusIn d k) := by
  unfold remoteStatusIn
  try dsimp only
  with_reducible repeat'
    first
    | assumption | apply completeRead_kin | split | apply kin_fst (by assumption) | apply kin_snd (by assumption) | intro _

theorem execRemoteStatus_kin {k : PktRx} {s : State}  : KinS s (execRemoteStatus k s) := by
  unfold execRemoteStatus
  try dsimp only
  with_reducible repeat'
    first
    | assumption | exact kinS_fault | exact Kin.refl _ | apply onArrival_kin | apply remoteStatusIn_kin | intro _

theorem execRemoteReadResend_kin {s : State}  : KinS s (execRemoteReadResend s) := by
  unfold execRemoteReadResend
  try dsimp only
  with_reducible repeat'
    first
    | assumption | exact kinS_fault | exact Kin.refl _ | apply onDev_kin | apply forEach_kin | apply updJob_kin
    | apply bump_kin | apply sendRemoteRead_kin | split | apply kin_fst (by assumption) | apply kin_snd (by assumption)
    | intro _
    | (apply kin_other; first | assumption | exact kinS_fault | exact Kin.refl _ | apply onDev_kin | apply forEach_kin | apply updJob_kin | apply bump_kin | apply sendRemoteRead_kin)
    | (apply kin_other; apply kin_other; first | assumption | exact kinS_fault | exact Kin.refl _ | apply onDev_kin | apply forEach_kin | apply updJob_kin | apply bump_kin | apply sendRemoteRead_kin)
    | (apply kin_mk <;> first | assumption | exact kinS_fault | exact Kin.refl _ | apply onDev_kin | apply forEach_kin | apply updJob_kin | apply bump_kin | apply sendRemoteRead_kin | (intro w; first | exact w | exact wf_set _ _ w | exact wf_upd _ _ w | exact wf_del _ w | exact wf_keep _ w | exact wf_mapV _ w | exact wf_filter _ w | (simp; done) | (simpa using w) | (rw [length_listSet]; exact w)))

end Sys2Proof.Machine
end

