-- ==== Sys2Proof/Laws/KinTree.lean ====
section
/-!
SUPPORT. Sys2Proof/Laws/KinTree.lean: every operation of Tree.lean keeps time, identity and the form of the tables.
-/
namespace Sys2Proof.Machine
open SMap

theorem updRed_kin {a0 : Dev} {d : Dev} {c b : Nat} {f : SlabRed → SlabRed} (hK : Kin a0 d) : Kin a0 (updRed d c b f) := by
  unfold updRed
  try dsimp only
  with_reducible repeat'
    first
    | assumption | apply updCtx_kin | intro _ | (apply kin_other; first | assumption | apply updCtx_kin)
    | (apply kin_other; apply kin_other; first | assumption | apply updCtx_kin)
    | (apply kin_mk <;> first | assumption | apply updCtx_kin | (intro w; first | exact w | exact wf_set _ _ w | exact wf_upd _ _ w | exact wf_del _ w | exact wf_keep _ w | exact wf_mapV _ w | exact wf_filter _ w | (simp; done) | (simpa using w) | (rw [length_listSet]; exact w)))

theorem updSlot_kin {a0 : Dev} {d : Dev} {c b p r : Nat} {f : Slot → Slot} (hK : Kin a0 d) : Kin a0 (updSlot d c b p r f) := by
  unfold updSlot
  try dsimp only
  with_reducible repeat'
    first
    | assumption | apply updRed_kin | intro _ | (apply kin_other; first | assumption | apply updRed_kin)
    | (apply kin_other; apply kin_other; first | assumption | apply updRed_kin)
    | (apply kin_mk <;> first | assumption | apply updRed_kin | (intro w; first | exact w | exact wf_set _ _ w | exact wf_upd _ _ w | exact wf_del _ w | exact wf_keep _ w | exact wf_mapV _ w | exact wf_filter _ w | (simp; done) | (simpa using w) | (rw [length_listSet]; exact w)))

theorem updPass_kin {a0 : Dev} {d : Dev} {c b p : Nat} {f : PassRed → PassRed} (hK : Kin a0 d) : Kin a0 (updPass d c b p f) := by
  unfold updPass
  try dsimp only
  with_reducible repeat'
    first
    | assumption | apply updRed_kin | intro _ | (apply kin_other; first | assumption | apply updRed_kin)
    | (apply kin_other; apply kin_other; first | assumption | apply updRed_kin)
    | (apply kin_mk <;> first | assumption | apply updRed_kin | (intro w; first | exact w | exact wf_set _ _ w | exact wf_upd _ _ w | exact wf_del _ w | exact wf_keep _ w | exact wf_mapV _ w | exact wf_filter _ w | (simp; done) | (simpa using w) | (rw [length_listSet]; exact w)))

theorem setSpilled_kin {a0 : Dev} {d : Dev} {j c pos : Nat} {l : List Entry} (hK : Kin a0 d) : Kin a0 (setSpilled d j c pos l) := by
  unfold setSpilled
  try dsimp only
  with_reducible repeat'
    first
    | assumption | apply looseWrite_kin | apply updCtx_kin | apply updJob_kin | apply setCtr_kin | split
    | apply kin_fst (by assumption) | apply kin_snd (by assumption) | intro _
    | (apply kin_other; first | assumption | apply looseWrite_kin | apply updCtx_kin | apply updJob_kin | apply setCtr_kin)
    | (apply kin_other; apply kin_other; first | assumption | apply looseWrite_kin | apply updCtx_kin | apply updJob_kin | apply setCtr_kin)
    | (apply kin_mk <;> first | assumption | apply looseWrite_kin | apply updCtx_kin | apply updJob_kin | apply setCtr_kin | (intro w; first | exact w | exact wf_set _ _ w | exact wf_upd _ _ w | exact wf_del _ w | exact wf_keep _ w | exact wf_mapV _ w | exact wf_filter _ w | (simp; done) | (simpa using w) | (rw [length_listSet]; exact w)))

theorem readSpilled_kin {a0 : Dev} {d : Dev} {c pos : Nat} {l : List Entry} (hK : Kin a0 d) : Kin a0 (readSpilled d c pos l).dev := by
  refine foldlRead_kin hK fun e x h => ?_
  split
  · exact foldlRead_kin h fun _ _ g => readPart_kin g
  · exact h

theorem ovfFail_kin {a0 : Dev} {d : Dev} {c pos : Nat} {bad : Option Nat} (hK : Kin a0 d) : Kin a0 (ovfFail d c pos bad) := by
  unfold ovfFail
  try dsimp only
  with_reducible repeat'
    first
    | assumption | apply memUeTrap_kin | apply unitFailCtx_kin | split | apply kin_fst (by assumption)
    | apply kin_snd (by assumption) | intro _

theorem spill_kin {a0 : Dev} {d : Dev} {c pos : Nat} (hK : Kin a0 d) : Kin a0 (spill d c pos) := by
  unfold spill
  try dsimp only
  with_reducible repeat'
    first
    | assumption | apply readSpilled_kin | apply bumpBy_kin | apply setSpilled_kin | apply ovfFail_kin | split
    | apply kin_fst (by assumption) | apply kin_snd (by assumption) | intro _

theorem dropSpilled_kin {a0 : Dev} {d : Dev} {j c pos : Nat} {p : Entry → Bool} (hK : Kin a0 d) : Kin a0 (dropSpilled d j c pos p) := by
  unfold dropSpilled
  try dsimp only
  with_reducible repeat' first | assumption | apply setSpilled_kin | split | intro _

theorem countFull_kin {a0 : Dev} {d : Dev} {e : Env} {c : Nat} (hK : Kin a0 d) : Kin a0 (countFull d e c) := by
  unfold countFull
  try dsimp only
  with_reducible repeat' first | assumption | apply bump_kin | apply quotaHit_kin | split | intro _

theorem refill_kin {a0 : Dev} {d : Dev} {c pos : Nat} (hK : Kin a0 d) : Kin a0 (refill d c pos) := by
  unfold refill
  try dsimp only
  with_reducible repeat'
    first
    | assumption | apply readSpilled_kin | apply ovfFail_kin | apply bumpBy_kin | apply setSpilled_kin | split
    | apply kin_fst (by assumption) | apply kin_snd (by assumption) | intro _

theorem startRetiring_kin {a0 : Dev} {d : Dev} {pos : Nat} (hK : Kin a0 d) : Kin a0 (startRetiring d pos) := by
  unfold startRetiring
  try dsimp only
  with_reducible repeat'
    first
    | assumption | apply drawFree_kin | apply kin_fst (by assumption) | apply kin_snd (by assumption) | intro _
    | (apply kin_other; first | assumption | apply drawFree_kin)
    | (apply kin_other; apply kin_other; first | assumption | apply drawFree_kin)
    | (apply kin_mk <;> first | assumption | apply drawFree_kin | (intro w; first | exact w | exact wf_set _ _ w | exact wf_upd _ _ w | exact wf_del _ w | exact wf_keep _ w | exact wf_mapV _ w | exact wf_filter _ w | (simp; done) | (simpa using w) | (rw [length_listSet]; exact w)))

theorem dropSamples_kin {a0 : Dev} {d : Dev} {seam : Nat} (hK : Kin a0 d) : Kin a0 (dropSamples d seam) := by
  unfold dropSamples
  try dsimp only
  with_reducible repeat'
    first
    | assumption | apply forEach_kin | apply bumpBy_kin | apply updCtx_kin | split | intro _
    | (apply kin_other; first | assumption | apply forEach_kin | apply bumpBy_kin | apply updCtx_kin)
    | (apply kin_other; apply kin_other; first | assumption | apply forEach_kin | apply bumpBy_kin | apply updCtx_kin)
    | (apply kin_mk <;> first | assumption | apply forEach_kin | apply bumpBy_kin | apply updCtx_kin | (intro w; first | exact w | exact wf_set _ _ w | exact wf_upd _ _ w | exact wf_del _ w | exact wf_keep _ w | exact wf_mapV _ w | exact wf_filter _ w | (simp; done) | (simpa using w) | (rw [length_listSet]; exact w)))

theorem dropSample_kin {a0 : Dev} {d : Dev} {seam c k : Nat} (hK : Kin a0 d) : Kin a0 (dropSample d seam c k) := by
  unfold dropSample
  try dsimp only
  with_reducible repeat'
    first
    | assumption | apply bump_kin | apply updCtx_kin | apply kinO_getD | split | intro _
    | (apply kin_other; first | assumption | apply bump_kin | apply updCtx_kin | apply kinO_getD)
    | (apply kin_other; apply kin_other; first | assumption | apply bump_kin | apply updCtx_kin | apply kinO_getD)
    | (apply kin_mk <;> first | assumption | apply bump_kin | apply updCtx_kin | apply kinO_getD | (intro w; first | exact w | exact wf_set _ _ w | exact wf_upd _ _ w | exact wf_del _ w | exact wf_keep _ w | exact wf_mapV _ w | exact wf_filter _ w | (simp; done) | (simpa using w) | (rw [length_listSet]; exact w)))

theorem dropKeptAt_kin {a0 : Dev} {d : Dev} {c pos : Nat} (hK : Kin a0 d) : Kin a0 (dropKeptAt d c pos) := by
  unfold dropKeptAt
  try dsimp only
  with_reducible repeat'
    first
    | assumption | apply foldl_kin | apply bumpBy_kin | apply dropSpilled_kin | apply updCtx_kin | apply dropHeld_kin | split
    | apply kin_fst (by assumption) | apply kin_snd (by assumption) | intro _
    | (apply kin_other; first | assumption | apply foldl_kin | apply bumpBy_kin | apply dropSpilled_kin | apply updCtx_kin | apply dropHeld_kin)
    | (apply kin_other; apply kin_other; first | assumption | apply foldl_kin | apply bumpBy_kin | apply dropSpilled_kin | apply updCtx_kin | apply dropHeld_kin)
    | (apply kin_mk <;> first | assumption | apply foldl_kin | apply bumpBy_kin | apply dropSpilled_kin | apply updCtx_kin | apply dropHeld_kin | (intro w; first | exact w | exact wf_set _ _ w | exact wf_upd _ _ w | exact wf_del _ w | exact wf_keep _ w | exact wf_mapV _ w | exact wf_filter _ w | (simp; done) | (simpa using w) | (rw [length_listSet]; exact w)))

theorem failOnSeam_kin {a0 : Dev} {d : Dev} {seam pos : Nat} {all : Bool} (hK : Kin a0 d) : Kin a0 (failOnSeam d seam pos all) := by
  unfold failOnSeam
  try dsimp only
  with_reducible repeat'
    first
    | assumption | apply forEach_kin | apply raiseTrap_kin | apply unitFailCtx_kin | apply dropKeptAt_kin | split | intro _
    | (apply kin_other; first | assumption | apply forEach_kin | apply raiseTrap_kin | apply unitFailCtx_kin | apply dropKeptAt_kin)
    | (apply kin_other; apply kin_other; first | assumption | apply forEach_kin | apply raiseTrap_kin | apply unitFailCtx_kin | apply dropKeptAt_kin)
    | (apply kin_mk <;> first | assumption | apply forEach_kin | apply raiseTrap_kin | apply unitFailCtx_kin | apply dropKeptAt_kin | (intro w; first | exact w | exact wf_set _ _ w | exact wf_upd _ _ w | exact wf_del _ w | exact wf_keep _ w | exact wf_mapV _ w | exact wf_filter _ w | (simp; done) | (simpa using w) | (rw [length_listSet]; exact w)))

theorem putSeam_kin {a0 : Dev} {d : Dev} {s : Nat} {r : SeamRec} (hK : Kin a0 d) : Kin a0 (putSeam d s r) := by
  unfold putSeam
  try dsimp only
  with_reducible repeat'
    first
    | assumption | intro _ | (apply kin_other; first | assumption) | (apply kin_other; apply kin_other; first | assumption)
    | (apply kin_mk <;> first | assumption | (intro w; first | exact w | exact wf_set _ _ w | exact wf_upd _ _ w | exact wf_del _ w | exact wf_keep _ w | exact wf_mapV _ w | exact wf_filter _ w | (simp; done) | (simpa using w) | (rw [length_listSet]; exact w)))

theorem seamOut_kin {a0 : Dev} {d : Dev} {s : Nat} (hK : Kin a0 d) : Kin a0 (seamOut d s).1 := by
  unfold seamOut
  try dsimp only
  with_reducible repeat'
    first
    | assumption | apply putSeam_kin | apply dropSamples_kin | apply startRetiring_kin | apply failOnSeam_kin | split
    | apply kin_fst (by assumption) | apply kin_snd (by assumption) | intro _
    | (apply kin_other; first | assumption | apply putSeam_kin | apply dropSamples_kin | apply startRetiring_kin | apply failOnSeam_kin)
    | (apply kin_other; apply kin_other; first | assumption | apply putSeam_kin | apply dropSamples_kin | apply startRetiring_kin | apply failOnSeam_kin)
    | (apply kin_mk <;> first | assumption | apply putSeam_kin | apply dropSamples_kin | apply startRetiring_kin | apply failOnSeam_kin | (intro w; first | exact w | exact wf_set _ _ w | exact wf_upd _ _ w | exact wf_del _ w | exact wf_keep _ w | exact wf_mapV _ w | exact wf_filter _ w | (simp; done) | (simpa using w) | (rw [length_listSet]; exact w)))

theorem seamsOut_kin {a : Dev} {l : List Nat} {r : Dev × Bool} (h : Kin a r.1) : Kin a (seamsOut l r).1 := by
  induction l generalizing r with
  | nil => exact h
  | cons s l ih => exact ih (seamOut_kin h)

theorem retireDie_kin {a : Dev} {d : Dev} {c : Nat} (hK : Kin a d) : Kin a (retireDie d c) := by
  unfold retireDie
  split
  · exact hK
  · exact commitRepair_kin (kin_other (seamsOut_kin (r := (_, true)) (seamsOut_kin (r := (_, true)) hK)))

theorem retireSeam_kin {a0 : Dev} {d : Dev} {s : Nat} (hK : Kin a0 d) : Kin a0 (retireSeam d s) := by
  unfold retireSeam
  try dsimp only
  with_reducible repeat'
    first
    | assumption | apply seamOut_kin | apply commitRepair_kin | apply retireDie_kin | split | apply kin_fst (by assumption)
    | apply kin_snd (by assumption) | intro _

end Sys2Proof.Machine
end

