-- ==== Sys2Proof/Laws/KinReduce.lean ====
section
/-!
SUPPORT. Sys2Proof/Laws/KinReduce.lean: every operation of Reduce.lean keeps time, identity and the form of the tables.
-/
namespace Sys2Proof.Machine
open SMap

theorem nfTrap_kin {a0 : Dev} {d : Dev} {j : Nat} {t : TrapInfo} (hK : Kin a0 d) : Kin a0 (nfTrap d j t) := by
  unfold nfTrap
  try dsimp only
  with_reducible repeat'
    first
    | assumption | apply bump_kin | apply raiseTrap_kin | apply updJob_kin | split | apply kin_fst (by assumption)
    | apply kin_snd (by assumption) | intro _
    | (apply kin_other; first | assumption | apply bump_kin | apply raiseTrap_kin | apply updJob_kin)
    | (apply kin_other; apply kin_other; first | assumption | apply bump_kin | apply raiseTrap_kin | apply updJob_kin)
    | (apply kin_mk <;> first | assumption | apply bump_kin | apply raiseTrap_kin | apply updJob_kin | (intro w; first | exact w | exact wf_set _ _ w | exact wf_upd _ _ w | exact wf_del _ w | exact wf_keep _ w | exact wf_mapV _ w | exact wf_filter _ w | (simp; done) | (simpa using w) | (rw [length_listSet]; exact w)))

theorem nfEvent_kin {a0 : Dev} {d : Dev} {c : Nat} {id : NfId} {hold : Bool} {kind unit : Nat} (hK : Kin a0 d) : Kin a0 (nfEvent d c id hold kind unit) := by
  unfold nfEvent
  try dsimp only
  with_reducible repeat'
    first
    | assumption | apply bump_kin | apply updCtx_kin | apply updRed_kin | apply nfTrap_kin | apply markJob_kin
    | apply kinO_getD | split | apply kin_fst (by assumption) | apply kin_snd (by assumption) | intro _
    | (apply kin_other; first | assumption | apply bump_kin | apply updCtx_kin | apply updRed_kin | apply nfTrap_kin | apply markJob_kin | apply kinO_getD)
    | (apply kin_other; apply kin_other; first | assumption | apply bump_kin | apply updCtx_kin | apply updRed_kin | apply nfTrap_kin | apply markJob_kin | apply kinO_getD)
    | (apply kin_mk <;> first | assumption | apply bump_kin | apply updCtx_kin | apply updRed_kin | apply nfTrap_kin | apply markJob_kin | apply kinO_getD | (intro w; first | exact w | exact wf_set _ _ w | exact wf_upd _ _ w | exact wf_del _ w | exact wf_keep _ w | exact wf_mapV _ w | exact wf_filter _ w | (simp; done) | (simpa using w) | (rw [length_listSet]; exact w)))

theorem seamEvent_kin {a0 : Dev} {d : Dev} {c : Nat} {id : NfId} {hold : Bool} (hK : Kin a0 d) : Kin a0 (seamEvent d c id hold) := by
  unfold seamEvent
  try dsimp only
  with_reducible repeat' first | assumption | apply nfEvent_kin | intro _

theorem recCopy_kin {a0 : Dev} {d : Dev} {c b p r member lane outcome : Nat} {bak : Bool} {data : List W64} (hK : Kin a0 d) : Kin a0 (recCopy d c b p r member lane outcome bak data) := by
  unfold recCopy
  try dsimp only
  with_reducible repeat'
    first
    | assumption | apply recWrite_kin | apply step_kin | split | apply kin_fst (by assumption) | apply kin_snd (by assumption)
    | intro _

theorem sampleStart_kin {a0 : Dev} {d : Dev} {c b : Nat} (hK : Kin a0 d) : Kin a0 (sampleStart d c b) := by
  unfold sampleStart
  try dsimp only
  with_reducible repeat'
    first
    | assumption | apply step_kin | apply updRed_kin | apply bump_kin | split | apply kin_fst (by assumption)
    | apply kin_snd (by assumption) | intro _
    | (apply kin_other; first | assumption | apply step_kin | apply updRed_kin | apply bump_kin)
    | (apply kin_other; apply kin_other; first | assumption | apply step_kin | apply updRed_kin | apply bump_kin)
    | (apply kin_mk <;> first | assumption | apply step_kin | apply updRed_kin | apply bump_kin | (intro w; first | exact w | exact wf_set _ _ w | exact wf_upd _ _ w | exact wf_del _ w | exact wf_keep _ w | exact wf_mapV _ w | exact wf_filter _ w | (simp; done) | (simpa using w) | (rw [length_listSet]; exact w)))

theorem checkComplete_kin {a0 : Dev} {d : Dev} {c : Nat} (hK : Kin a0 d) : Kin a0 (checkComplete d c) := by
  unfold checkComplete
  try dsimp only
  with_reducible repeat'
    first
    | assumption | apply updCtx_kin | apply settle_kin | apply updJob_kin | split | apply kin_fst (by assumption)
    | apply kin_snd (by assumption) | intro _
    | (apply kin_other; first | assumption | apply updCtx_kin | apply settle_kin | apply updJob_kin)
    | (apply kin_other; apply kin_other; first | assumption | apply updCtx_kin | apply settle_kin | apply updJob_kin)
    | (apply kin_mk <;> first | assumption | apply updCtx_kin | apply settle_kin | apply updJob_kin | (intro w; first | exact w | exact wf_set _ _ w | exact wf_upd _ _ w | exact wf_del _ w | exact wf_keep _ w | exact wf_mapV _ w | exact wf_filter _ w | (simp; done) | (simpa using w) | (rw [length_listSet]; exact w)))

theorem slabDone_kin {a0 : Dev} {d : Dev} {c b : Nat} (hK : Kin a0 d) : Kin a0 (slabDone d c b) := by
  unfold slabDone
  try dsimp only
  with_reducible repeat'
    first
    | assumption | apply checkComplete_kin | apply updRed_kin | intro _
    | (apply kin_other; first | assumption | apply checkComplete_kin | apply updRed_kin)
    | (apply kin_other; apply kin_other; first | assumption | apply checkComplete_kin | apply updRed_kin)
    | (apply kin_mk <;> first | assumption | apply checkComplete_kin | apply updRed_kin | (intro w; first | exact w | exact wf_set _ _ w | exact wf_upd _ _ w | exact wf_del _ w | exact wf_keep _ w | exact wf_mapV _ w | exact wf_filter _ w | (simp; done) | (simpa using w) | (rw [length_listSet]; exact w)))

theorem drawMany_kin {a0 : Dev} {d : Dev} {n : Nat} (hK : Kin a0 d) : Kin a0 (drawMany d n).2 := by
  unfold drawMany
  try dsimp only
  with_reducible repeat'
    first
    | assumption | intro _ | (apply kin_other; first | assumption) | (apply kin_other; apply kin_other; first | assumption)
    | (apply kin_mk <;> first | assumption | (intro w; first | exact w | exact wf_set _ _ w | exact wf_upd _ _ w | exact wf_del _ w | exact wf_keep _ w | exact wf_mapV _ w | exact wf_filter _ w | (simp; done) | (simpa using w) | (rw [length_listSet]; exact w)))

theorem sendPartialPkt_kin {a0 : Dev} {d : Dev} {c b p : Nat} (hK : Kin a0 d) : Kin a0 (sendPartialPkt d c b p) := by
  unfold sendPartialPkt
  try dsimp only
  with_reducible repeat'
    first
    | assumption | apply sendOrd_kin | apply updPass_kin | split | apply kin_fst (by assumption)
    | apply kin_snd (by assumption) | intro _ | (apply kin_other; first | assumption | apply sendOrd_kin | apply updPass_kin)
    | (apply kin_other; apply kin_other; first | assumption | apply sendOrd_kin | apply updPass_kin)
    | (apply kin_mk <;> first | assumption | apply sendOrd_kin | apply updPass_kin | (intro w; first | exact w | exact wf_set _ _ w | exact wf_upd _ _ w | exact wf_del _ w | exact wf_keep _ w | exact wf_mapV _ w | exact wf_filter _ w | (simp; done) | (simpa using w) | (rw [length_listSet]; exact w)))

theorem startPartial_kin {a0 : Dev} {d : Dev} {c b p : Nat} {lanes : List F64} (hK : Kin a0 d) : Kin a0 (startPartial d c b p lanes) := by
  unfold startPartial
  try dsimp only
  with_reducible repeat'
    first
    | assumption | apply drawMany_kin | apply updPass_kin | apply sendPartialPkt_kin | apply kinO_getD | split
    | apply kin_fst (by assumption) | apply kin_snd (by assumption) | intro _
    | (apply kin_other; first | assumption | apply drawMany_kin | apply updPass_kin | apply sendPartialPkt_kin | apply kinO_getD)
    | (apply kin_other; apply kin_other; first | assumption | apply drawMany_kin | apply updPass_kin | apply sendPartialPkt_kin | apply kinO_getD)
    | (apply kin_mk <;> first | assumption | apply drawMany_kin | apply updPass_kin | apply sendPartialPkt_kin | apply kinO_getD | (intro w; first | exact w | exact wf_set _ _ w | exact wf_upd _ _ w | exact wf_del _ w | exact wf_keep _ w | exact wf_mapV _ w | exact wf_filter _ w | (simp; done) | (simpa using w) | (rw [length_listSet]; exact w)))

theorem ackPasses_kin {a0 : Dev} {c b : Nat} {y0 : Nat} {y1 : Dev} (hK : Kin a0 y1) : Kin a0 (ackPasses c b y0 y1) := by
  induction y0 generalizing c b y1 with
  | zero =>
    unfold ackPasses
    try dsimp only
    with_reducible repeat'
      first
      | assumption | apply updRed_kin | apply slabDone_kin | split | intro _
      | (apply kin_other; first | assumption | apply updRed_kin | apply slabDone_kin)
      | (apply kin_other; apply kin_other; first | assumption | apply updRed_kin | apply slabDone_kin)
      | (apply kin_mk <;> first | assumption | apply updRed_kin | apply slabDone_kin | (intro w; first | exact w | exact wf_set _ _ w | exact wf_upd _ _ w | exact wf_del _ w | exact wf_keep _ w | exact wf_mapV _ w | exact wf_filter _ w | (simp; done) | (simpa using w) | (rw [length_listSet]; exact w)))
  | succ k ih =>
    unfold ackPasses
    try dsimp only
    with_reducible repeat'
      first
      | assumption | apply ih | apply updRed_kin | apply slabDone_kin | split | intro _
      | (apply kin_other; first | assumption | apply updRed_kin | apply slabDone_kin)
      | (apply kin_other; apply kin_other; first | assumption | apply updRed_kin | apply slabDone_kin)
      | (apply kin_mk <;> first | assumption | apply updRed_kin | apply slabDone_kin | (intro w; first | exact w | exact wf_set _ _ w | exact wf_upd _ _ w | exact wf_del _ w | exact wf_keep _ w | exact wf_mapV _ w | exact wf_filter _ w | (simp; done) | (simpa using w) | (rw [length_listSet]; exact w)))

theorem stagingWrite_kin {a0 : Dev} {d : Dev} {e : Env} {x : Ctx} {c b p : Nat} {fin : Bool} {v : List F64} (hK : Kin a0 d) : Kin a0 (stagingWrite d e x c b p fin v) := by
  unfold stagingWrite
  try dsimp only
  with_reducible repeat'
    first
    | assumption | apply updSlab_kin | apply writeStage_kin | intro _
    | (apply kin_other; first | assumption | apply updSlab_kin | apply writeStage_kin)
    | (apply kin_other; apply kin_other; first | assumption | apply updSlab_kin | apply writeStage_kin)
    | (apply kin_mk <;> first | assumption | apply updSlab_kin | apply writeStage_kin | (intro w; first | exact w | exact wf_set _ _ w | exact wf_upd _ _ w | exact wf_del _ w | exact wf_keep _ w | exact wf_mapV _ w | exact wf_filter _ w | (simp; done) | (simpa using w) | (rw [length_listSet]; exact w)))

theorem stageStale_kin {a0 : Dev} {d : Dev} {e : Env} {x : Ctx} {c b p kind unit : Nat} (hK : Kin a0 d) : Kin a0 (stageStale d e x c b p kind unit) := by
  unfold stageStale
  try dsimp only
  with_reducible repeat'
    first
    | assumption | apply markJob_kin | apply raiseTrap_kin | intro _
    | (apply kin_other; first | assumption | apply markJob_kin | apply raiseTrap_kin)
    | (apply kin_other; apply kin_other; first | assumption | apply markJob_kin | apply raiseTrap_kin)
    | (apply kin_mk <;> first | assumption | apply markJob_kin | apply raiseTrap_kin | (intro w; first | exact w | exact wf_set _ _ w | exact wf_upd _ _ w | exact wf_del _ w | exact wf_keep _ w | exact wf_mapV _ w | exact wf_filter _ w | (simp; done) | (simpa using w) | (rw [length_listSet]; exact w)))

theorem stagingRead_kin {a0 : Dev} {d : Dev} {s : Slab} {n : Nat} (hK : Kin a0 d) : Kin a0 (stagingRead d s n).2 := by
  unfold stagingRead
  try dsimp only
  with_reducible repeat'
    first
    | assumption | apply drawMany_kin | split | apply kin_fst (by assumption) | apply kin_snd (by assumption) | intro _

theorem stageFetch_kin {a0 : Dev} {d : Dev} {e : Env} {x : Ctx} {c b : Nat} (hK : Kin a0 d) : Kin a0 (stageFetch d e x c b).2.2 := by
  unfold stageFetch
  try dsimp only
  with_reducible repeat'
    first
    | assumption | apply fetchStage_kin | apply stagingRead_kin | apply stageLost_kin | split | apply kin_fst (by assumption)
    | apply kin_snd (by assumption) | intro _

theorem startPass_kin {a0 : Dev} {d : Dev} {c b : Nat} (hK : Kin a0 d) : Kin a0 (startPass d c b) := by
  unfold startPass
  try dsimp only
  with_reducible repeat'
    first
    | assumption | apply stageFetch_kin | apply updRed_kin | apply stageStale_kin | split | apply kin_fst (by assumption)
    | apply kin_snd (by assumption) | intro _
    | (apply kin_other; first | assumption | apply stageFetch_kin | apply updRed_kin | apply stageStale_kin)
    | (apply kin_other; apply kin_other; first | assumption | apply stageFetch_kin | apply updRed_kin | apply stageStale_kin)
    | (apply kin_mk <;> first | assumption | apply stageFetch_kin | apply updRed_kin | apply stageStale_kin | (intro w; first | exact w | exact wf_set _ _ w | exact wf_upd _ _ w | exact wf_del _ w | exact wf_keep _ w | exact wf_mapV _ w | exact wf_filter _ w | (simp; done) | (simpa using w) | (rw [length_listSet]; exact w)))

theorem updReplay_kin {a0 : Dev} {d : Dev} {j : Nat} {f : Replay → Replay} (hK : Kin a0 d) : Kin a0 (updReplay d j f) := by
  unfold updReplay
  try dsimp only
  with_reducible repeat'
    first
    | assumption | apply updJob_kin | intro _ | (apply kin_other; first | assumption | apply updJob_kin)
    | (apply kin_other; apply kin_other; first | assumption | apply updJob_kin)
    | (apply kin_mk <;> first | assumption | apply updJob_kin | (intro w; first | exact w | exact wf_set _ _ w | exact wf_upd _ _ w | exact wf_del _ w | exact wf_keep _ w | exact wf_mapV _ w | exact wf_filter _ w | (simp; done) | (simpa using w) | (rw [length_listSet]; exact w)))

theorem resultDiff_kin {a0 : Dev} {d : Dev} {j : Nat} {m : MadeSlab} {r : List W64} (hK : Kin a0 d) : Kin a0 (resultDiff d j m r) := by
  unfold resultDiff
  try dsimp only
  with_reducible repeat'
    first
    | assumption | apply bump_kin | apply step_kin | apply raiseTrap_kin | apply updReplay_kin | split | intro _
    | (apply kin_other; first | assumption | apply bump_kin | apply step_kin | apply raiseTrap_kin | apply updReplay_kin)
    | (apply kin_other; apply kin_other; first | assumption | apply bump_kin | apply step_kin | apply raiseTrap_kin | apply updReplay_kin)
    | (apply kin_mk <;> first | assumption | apply bump_kin | apply step_kin | apply raiseTrap_kin | apply updReplay_kin | (intro w; first | exact w | exact wf_set _ _ w | exact wf_upd _ _ w | exact wf_del _ w | exact wf_keep _ w | exact wf_mapV _ w | exact wf_filter _ w | (simp; done) | (simpa using w) | (rw [length_listSet]; exact w)))

theorem replayCompare_kin {a0 : Dev} {d : Dev} {j c b : Nat} {x : Ctx} {acrc img : W32} (hK : Kin a0 d) : Kin a0 (replayCompare d j c b x acrc img) := by
  unfold replayCompare
  try dsimp only
  with_reducible repeat'
    first
    | assumption | apply updReplay_kin | apply resultDiff_kin | split | apply kin_fst (by assumption)
    | apply kin_snd (by assumption) | intro _
    | (apply kin_other; first | assumption | apply updReplay_kin | apply resultDiff_kin)
    | (apply kin_other; apply kin_other; first | assumption | apply updReplay_kin | apply resultDiff_kin)
    | (apply kin_mk <;> first | assumption | apply updReplay_kin | apply resultDiff_kin | (intro w; first | exact w | exact wf_set _ _ w | exact wf_upd _ _ w | exact wf_del _ w | exact wf_keep _ w | exact wf_mapV _ w | exact wf_filter _ w | (simp; done) | (simpa using w) | (rw [length_listSet]; exact w)))

theorem recResult_kin {a0 : Dev} {d : Dev} {j c b : Nat} {x : Ctx} {acrc img : W32} (hK : Kin a0 d) : Kin a0 (recResult d j c b x acrc img) := by
  unfold recResult
  try dsimp only
  with_reducible repeat' first | assumption | apply step_kin | apply replayCompare_kin | apply recWrite_kin | intro _

theorem emitRef_kin {a0 : Dev} {d : Dev} {c b : Nat} (hK : Kin a0 d) : Kin a0 (emitRef d c b) := by
  unfold emitRef
  try dsimp only
  with_reducible repeat'
    first
    | assumption | apply step_kin | apply bumpBy_kin | apply bump_kin | apply sendPort_kin | apply slabDone_kin
    | apply recResult_kin | split | apply kin_fst (by assumption) | apply kin_snd (by assumption) | intro _
    | (apply kin_other; first | assumption | apply step_kin | apply bumpBy_kin | apply bump_kin | apply sendPort_kin | apply slabDone_kin | apply recResult_kin)
    | (apply kin_other; apply kin_other; first | assumption | apply step_kin | apply bumpBy_kin | apply bump_kin | apply sendPort_kin | apply slabDone_kin | apply recResult_kin)
    | (apply kin_mk <;> first | assumption | apply step_kin | apply bumpBy_kin | apply bump_kin | apply sendPort_kin | apply slabDone_kin | apply recResult_kin | (intro w; first | exact w | exact wf_set _ _ w | exact wf_upd _ _ w | exact wf_del _ w | exact wf_keep _ w | exact wf_mapV _ w | exact wf_filter _ w | (simp; done) | (simpa using w) | (rw [length_listSet]; exact w)))

theorem finishSlab_kin {a0 : Dev} {d : Dev} {c b : Nat} {a : List F64} (hK : Kin a0 d) : Kin a0 (finishSlab d c b a) := by
  unfold finishSlab
  try dsimp only
  with_reducible repeat'
    first
    | assumption | apply updRed_kin | apply seamEvent_kin | apply emitRef_kin | apply stagingWrite_kin | apply writeMeta_kin
    | apply updSlab_kin | apply updJob_kin | apply slabDone_kin | split | apply kin_fst (by assumption)
    | apply kin_snd (by assumption) | intro _
    | (apply kin_other; first | assumption | apply updRed_kin | apply seamEvent_kin | apply emitRef_kin | apply stagingWrite_kin | apply writeMeta_kin | apply updSlab_kin | apply updJob_kin | apply slabDone_kin)
    | (apply kin_other; apply kin_other; first | assumption | apply updRed_kin | apply seamEvent_kin | apply emitRef_kin | apply stagingWrite_kin | apply writeMeta_kin | apply updSlab_kin | apply updJob_kin | apply slabDone_kin)
    | (apply kin_mk <;> first | assumption | apply updRed_kin | apply seamEvent_kin | apply emitRef_kin | apply stagingWrite_kin | apply writeMeta_kin | apply updSlab_kin | apply updJob_kin | apply slabDone_kin | (intro w; first | exact w | exact wf_set _ _ w | exact wf_upd _ _ w | exact wf_del _ w | exact wf_keep _ w | exact wf_mapV _ w | exact wf_filter _ w | (simp; done) | (simpa using w) | (rw [length_listSet]; exact w)))

theorem ovfEvents_kin {a0 : Dev} {d : Dev} {c b p : Nat} {l : List (Nat × Nat)} (hK : Kin a0 d) : Kin a0 (ovfEvents d c b p l) := by
  unfold ovfEvents
  try dsimp only
  with_reducible repeat'
    first
    | assumption | apply forEach_kin | apply seamEvent_kin | intro _
    | (apply kin_other; first | assumption | apply forEach_kin | apply seamEvent_kin)
    | (apply kin_other; apply kin_other; first | assumption | apply forEach_kin | apply seamEvent_kin)
    | (apply kin_mk <;> first | assumption | apply forEach_kin | apply seamEvent_kin | (intro w; first | exact w | exact wf_set _ _ w | exact wf_upd _ _ w | exact wf_del _ w | exact wf_keep _ w | exact wf_mapV _ w | exact wf_filter _ w | (simp; done) | (simpa using w) | (rw [length_listSet]; exact w)))

theorem ownerAdvance_kin {a0 : Dev} {c b : Nat} {y0 : Nat} {y1 : Dev} (hK : Kin a0 y1) : Kin a0 (ownerAdvance c b y0 y1) := by
  induction y0 generalizing c b y1 with
  | zero =>
    unfold ownerAdvance
    try dsimp only
    with_reducible repeat'
      first
      | assumption | apply startPass_kin | apply ovfEvents_kin | apply updRed_kin | apply finishSlab_kin
      | apply stagingWrite_kin | split | apply kin_fst (by assumption) | apply kin_snd (by assumption) | intro _
      | (apply kin_other; first | assumption | apply startPass_kin | apply ovfEvents_kin | apply updRed_kin | apply finishSlab_kin | apply stagingWrite_kin)
      | (apply kin_other; apply kin_other; first | assumption | apply startPass_kin | apply ovfEvents_kin | apply updRed_kin | apply finishSlab_kin | apply stagingWrite_kin)
      | (apply kin_mk <;> first | assumption | apply startPass_kin | apply ovfEvents_kin | apply updRed_kin | apply finishSlab_kin | apply stagingWrite_kin | (intro w; first | exact w | exact wf_set _ _ w | exact wf_upd _ _ w | exact wf_del _ w | exact wf_keep _ w | exact wf_mapV _ w | exact wf_filter _ w | (simp; done) | (simpa using w) | (rw [length_listSet]; exact w)))
  | succ k ih =>
    unfold ownerAdvance
    try dsimp only
    with_reducible repeat'
      first
      | assumption | apply ih | apply startPass_kin | apply ovfEvents_kin | apply updRed_kin | apply finishSlab_kin
      | apply stagingWrite_kin | split | apply kin_fst (by assumption) | apply kin_snd (by assumption) | intro _
      | (apply kin_other; first | assumption | apply startPass_kin | apply ovfEvents_kin | apply updRed_kin | apply finishSlab_kin | apply stagingWrite_kin)
      | (apply kin_other; apply kin_other; first | assumption | apply startPass_kin | apply ovfEvents_kin | apply updRed_kin | apply finishSlab_kin | apply stagingWrite_kin)
      | (apply kin_mk <;> first | assumption | apply startPass_kin | apply ovfEvents_kin | apply updRed_kin | apply finishSlab_kin | apply stagingWrite_kin | (intro w; first | exact w | exact wf_set _ _ w | exact wf_upd _ _ w | exact wf_del _ w | exact wf_keep _ w | exact wf_mapV _ w | exact wf_filter _ w | (simp; done) | (simpa using w) | (rw [length_listSet]; exact w)))

theorem holdGroup_kin {a0 : Dev} {d : Dev} {e : Env} {c b p q : Nat} {g : GroupSum} (hK : Kin a0 d) : Kin a0 (holdGroup d e c b p q g) := by
  unfold holdGroup
  try dsimp only
  with_reducible repeat'
    first
    | assumption | apply updPass_kin | apply sampleStart_kin | apply ovfEvents_kin | apply ownerAdvance_kin | apply kinO_getD
    | intro _
    | (apply kin_other; first | assumption | apply updPass_kin | apply sampleStart_kin | apply ovfEvents_kin | apply ownerAdvance_kin | apply kinO_getD)
    | (apply kin_other; apply kin_other; first | assumption | apply updPass_kin | apply sampleStart_kin | apply ovfEvents_kin | apply ownerAdvance_kin | apply kinO_getD)
    | (apply kin_mk <;> first | assumption | apply updPass_kin | apply sampleStart_kin | apply ovfEvents_kin | apply ownerAdvance_kin | apply kinO_getD | (intro w; first | exact w | exact wf_set _ _ w | exact wf_upd _ _ w | exact wf_del _ w | exact wf_keep _ w | exact wf_mapV _ w | exact wf_filter _ w | (simp; done) | (simpa using w) | (rw [length_listSet]; exact w)))

theorem joinSlot_kin {a0 : Dev} {d : Dev} {c b p r : Nat} (hK : Kin a0 d) : Kin a0 (joinSlot d c b p r) := by
  unfold joinSlot
  try dsimp only
  with_reducible repeat'
    first
    | assumption | apply ovfEvents_kin | apply holdGroup_kin | apply startPartial_kin | split | apply kin_fst (by assumption)
    | apply kin_snd (by assumption) | intro _
    | (apply kin_other; first | assumption | apply ovfEvents_kin | apply holdGroup_kin | apply startPartial_kin)
    | (apply kin_other; apply kin_other; first | assumption | apply ovfEvents_kin | apply holdGroup_kin | apply startPartial_kin)
    | (apply kin_mk <;> first | assumption | apply ovfEvents_kin | apply holdGroup_kin | apply startPartial_kin | (intro w; first | exact w | exact wf_set _ _ w | exact wf_upd _ _ w | exact wf_del _ w | exact wf_keep _ w | exact wf_mapV _ w | exact wf_filter _ w | (simp; done) | (simpa using w) | (rw [length_listSet]; exact w)))

theorem fillSlot_kin {a0 : Dev} {d : Dev} {c b p r : Nat} {src : Source} {member : Nat} {cp : Copy} (hK : Kin a0 d) : Kin a0 (fillSlot d c b p r src member cp) := by
  unfold fillSlot
  try dsimp only
  with_reducible repeat'
    first
    | assumption | apply updSlot_kin | apply bump_kin | apply updPass_kin | apply startPass_kin | apply sampleStart_kin
    | apply recCopy_kin | apply forEach_kin | apply seamEvent_kin | apply joinSlot_kin | apply kinO_getD | split
    | apply kin_fst (by assumption) | apply kin_snd (by assumption) | intro _
    | (apply kin_other; first | assumption | apply updSlot_kin | apply bump_kin | apply updPass_kin | apply startPass_kin | apply sampleStart_kin | apply recCopy_kin | apply forEach_kin | apply seamEvent_kin | apply joinSlot_kin | apply kinO_getD)
    | (apply kin_other; apply kin_other; first | assumption | apply updSlot_kin | apply bump_kin | apply updPass_kin | apply startPass_kin | apply sampleStart_kin | apply recCopy_kin | apply forEach_kin | apply seamEvent_kin | apply joinSlot_kin | apply kinO_getD)
    | (apply kin_mk <;> first | assumption | apply updSlot_kin | apply bump_kin | apply updPass_kin | apply startPass_kin | apply sampleStart_kin | apply recCopy_kin | apply forEach_kin | apply seamEvent_kin | apply joinSlot_kin | apply kinO_getD | (intro w; first | exact w | exact wf_set _ _ w | exact wf_upd _ _ w | exact wf_del _ w | exact wf_keep _ w | exact wf_mapV _ w | exact wf_filter _ w | (simp; done) | (simpa using w) | (rw [length_listSet]; exact w)))

theorem takeDuplicate_kin {a0 : Dev} {d : Dev} {c b p r : Nat} {src : Source} {member : Nat} {cp : Copy} (hK : Kin a0 d) : Kin a0 (takeDuplicate d c b p r src member cp) := by
  unfold takeDuplicate
  try dsimp only
  with_reducible repeat'
    first
    | assumption | apply updSlot_kin | apply recCopy_kin | apply bump_kin | apply raiseTrap_kin | apply updCtx_kin
    | apply step_kin | apply markJob_kin | split | apply kin_fst (by assumption) | apply kin_snd (by assumption) | intro _
    | (apply kin_other; first | assumption | apply updSlot_kin | apply recCopy_kin | apply bump_kin | apply raiseTrap_kin | apply updCtx_kin | apply step_kin | apply markJob_kin)
    | (apply kin_other; apply kin_other; first | assumption | apply updSlot_kin | apply recCopy_kin | apply bump_kin | apply raiseTrap_kin | apply updCtx_kin | apply step_kin | apply markJob_kin)
    | (apply kin_mk <;> first | assumption | apply updSlot_kin | apply recCopy_kin | apply bump_kin | apply raiseTrap_kin | apply updCtx_kin | apply step_kin | apply markJob_kin | (intro w; first | exact w | exact wf_set _ _ w | exact wf_upd _ _ w | exact wf_del _ w | exact wf_keep _ w | exact wf_mapV _ w | exact wf_filter _ w | (simp; done) | (simpa using w) | (rw [length_listSet]; exact w)))

theorem completeCopy_kin {a0 : Dev} {d : Dev} {c b p r : Nat} {src : Source} {member : Nat} {cp : Copy} (hK : Kin a0 d) : Kin a0 (completeCopy d c b p r src member cp) := by
  unfold completeCopy
  try dsimp only
  with_reducible repeat'
    first
    | assumption | apply takeDuplicate_kin | apply updSlot_kin | apply fillSlot_kin | split | apply kin_fst (by assumption)
    | apply kin_snd (by assumption) | intro _
    | (apply kin_other; first | assumption | apply takeDuplicate_kin | apply updSlot_kin | apply fillSlot_kin)
    | (apply kin_other; apply kin_other; first | assumption | apply takeDuplicate_kin | apply updSlot_kin | apply fillSlot_kin)
    | (apply kin_mk <;> first | assumption | apply takeDuplicate_kin | apply updSlot_kin | apply fillSlot_kin | (intro w; first | exact w | exact wf_set _ _ w | exact wf_upd _ _ w | exact wf_del _ w | exact wf_keep _ w | exact wf_mapV _ w | exact wf_filter _ w | (simp; done) | (simpa using w) | (rw [length_listSet]; exact w)))

end Sys2Proof.Machine
end

