-- ==== Sys2Proof/Laws/KinReplayOps.lean ====
section
/-!
SUPPORT. Sys2Proof/Laws/KinReplayOps.lean: every operation of ReplayOps.lean keeps time, identity and the form of the tables.
-/
namespace Sys2Proof.Machine
open SMap

theorem foldlRec_kin {a : Dev} {off : Nat} {l : List Span} {m : RecRead} (h : Kin a m.dev) :
    Kin a (l.foldl (readRecPart off) m).dev := by
  induction l generalizing m with
  | nil => exact h
  | cons x r ih => exact ih (readSpan_kin h)

theorem readRecPart_kin {a0 : Dev} {off : Nat} {a : RecRead} {s : Span} (hK : Kin a0 a.dev) : Kin a0 (readRecPart off a s).dev :=
  readSpan_kin hK

theorem readRec_kin {a0 : Dev} {d : Dev} {j : Nat} {side : Bool} {off len : Nat} {ws : List W64} (hK : Kin a0 d) :
    Kin a0 (readRec d j side off len ws).dev := foldlRec_kin hK

theorem storeRec_kin {a0 : Dev} {d : Dev} {j : Nat} (hK : Kin a0 d) : Kin a0 (storeRec d j) := by
  unfold storeRec
  try dsimp only
  with_reducible repeat'
    first
    | assumption | apply updRec_kin | apply forEach_kin | apply writeSpan_kin | split | apply kin_fst (by assumption)
    | apply kin_snd (by assumption) | intro _
    | (apply kin_other; first | assumption | apply updRec_kin | apply forEach_kin | apply writeSpan_kin)
    | (apply kin_other; apply kin_other; first | assumption | apply updRec_kin | apply forEach_kin | apply writeSpan_kin)
    | (apply kin_mk <;> first | assumption | apply updRec_kin | apply forEach_kin | apply writeSpan_kin | (intro w; first | exact w | exact wf_set _ _ w | exact wf_upd _ _ w | exact wf_del _ w | exact wf_keep _ w | exact wf_mapV _ w | exact wf_filter _ w | (simp; done) | (simpa using w) | (rw [length_listSet]; exact w)))

theorem settleMem_kin {a0 : Dev} {d : Dev} (hK : Kin a0 d) : Kin a0 (settleMem d) := by
  unfold settleMem
  try dsimp only
  with_reducible repeat' first | assumption | apply forEach_kin | apply syncExts_kin | apply storeRec_kin | intro _

theorem poisonStep_kin {a0 : Dev} {d : Dev} {j rank pass : Nat} {body : List W64} (hK : Kin a0 d) : Kin a0 (poisonStep d j rank pass body) := by
  unfold poisonStep
  try dsimp only
  with_reducible repeat'
    first
    | assumption | apply nfTrap_kin | apply recWrite_kin | apply markJob_kin | apply requestAbort_kin | split
    | apply kin_fst (by assumption) | apply kin_snd (by assumption) | intro _
    | (apply kin_other; first | assumption | apply nfTrap_kin | apply recWrite_kin | apply markJob_kin | apply requestAbort_kin)
    | (apply kin_other; apply kin_other; first | assumption | apply nfTrap_kin | apply recWrite_kin | apply markJob_kin | apply requestAbort_kin)
    | (apply kin_mk <;> first | assumption | apply nfTrap_kin | apply recWrite_kin | apply markJob_kin | apply requestAbort_kin | (intro w; first | exact w | exact wf_set _ _ w | exact wf_upd _ _ w | exact wf_del _ w | exact wf_keep _ w | exact wf_mapV _ w | exact wf_filter _ w | (simp; done) | (simpa using w) | (rw [length_listSet]; exact w)))

theorem replayDiverge_kin {a0 : Dev} {d : Dev} {j : Nat} {c : Option (Nat × Nat × Nat × Nat × Nat × Nat)} (hK : Kin a0 d) : Kin a0 (replayDiverge d j c) := by
  unfold replayDiverge
  try dsimp only
  with_reducible repeat'
    first
    | assumption | apply raiseTrap_kin | intro _ | (apply kin_other; first | assumption | apply raiseTrap_kin)
    | (apply kin_other; apply kin_other; first | assumption | apply raiseTrap_kin)
    | (apply kin_mk <;> first | assumption | apply raiseTrap_kin | (intro w; first | exact w | exact wf_set _ _ w | exact wf_upd _ _ w | exact wf_del _ w | exact wf_keep _ w | exact wf_mapV _ w | exact wf_filter _ w | (simp; done) | (simpa using w) | (rw [length_listSet]; exact w)))

theorem countSkips_kin {a0 : Dev} {d : Dev} {j : Nat} {rs : List (List W64)} (hK : Kin a0 d) : Kin a0 (countSkips d j rs) := by
  unfold countSkips
  try dsimp only
  with_reducible repeat' first | assumption | apply bumpBy_kin | intro _

theorem dropPassed_kin {a0 : Dev} {d : Dev} {j : Nat} (hK : Kin a0 d) : Kin a0 (dropPassed d j) := by
  unfold dropPassed
  try dsimp only
  with_reducible repeat'
    first
    | assumption | apply updReplay_kin | apply countSkips_kin | split | apply kin_fst (by assumption)
    | apply kin_snd (by assumption) | intro _
    | (apply kin_other; first | assumption | apply updReplay_kin | apply countSkips_kin)
    | (apply kin_other; apply kin_other; first | assumption | apply updReplay_kin | apply countSkips_kin)
    | (apply kin_mk <;> first | assumption | apply updReplay_kin | apply countSkips_kin | (intro w; first | exact w | exact wf_set _ _ w | exact wf_upd _ _ w | exact wf_del _ w | exact wf_keep _ w | exact wf_mapV _ w | exact wf_filter _ w | (simp; done) | (simpa using w) | (rw [length_listSet]; exact w)))

theorem readBegin_kin {a0 : Dev} {d : Dev} {j : Nat} {jb : Job} {rp : Replay} {r : List W64} (hK : Kin a0 d) : Kin a0 (readBegin d j jb rp r).1 := by
  unfold readBegin
  try dsimp only
  with_reducible repeat'
    first
    | assumption | apply updReplay_kin | apply replayDiverge_kin | split | apply kin_fst (by assumption)
    | apply kin_snd (by assumption) | intro _
    | (apply kin_other; first | assumption | apply updReplay_kin | apply replayDiverge_kin)
    | (apply kin_other; apply kin_other; first | assumption | apply updReplay_kin | apply replayDiverge_kin)
    | (apply kin_mk <;> first | assumption | apply updReplay_kin | apply replayDiverge_kin | (intro w; first | exact w | exact wf_set _ _ w | exact wf_upd _ _ w | exact wf_del _ w | exact wf_keep _ w | exact wf_mapV _ w | exact wf_filter _ w | (simp; done) | (simpa using w) | (rw [length_listSet]; exact w)))

theorem readPending_kin {a0 : Dev} {d : Dev} {j : Nat} {jb : Job} {rp : Replay} {r : List W64} (hK : Kin a0 d) : Kin a0 (readPending d j jb rp r).1 := by
  unfold readPending
  try dsimp only
  with_reducible repeat'
    first
    | assumption | apply countSkips_kin | apply updReplay_kin | split | apply kin_fst (by assumption)
    | apply kin_snd (by assumption) | intro _
    | (apply kin_other; first | assumption | apply countSkips_kin | apply updReplay_kin)
    | (apply kin_other; apply kin_other; first | assumption | apply countSkips_kin | apply updReplay_kin)
    | (apply kin_mk <;> first | assumption | apply countSkips_kin | apply updReplay_kin | (intro w; first | exact w | exact wf_set _ _ w | exact wf_upd _ _ w | exact wf_del _ w | exact wf_keep _ w | exact wf_mapV _ w | exact wf_filter _ w | (simp; done) | (simpa using w) | (rw [length_listSet]; exact w)))

theorem readGap_kin {a0 : Dev} {d : Dev} {j : Nat} (hK : Kin a0 d) : Kin a0 (readGap d j) := by
  unfold readGap
  try dsimp only
  with_reducible repeat'
    first
    | assumption | apply raiseTrap_kin | intro _ | (apply kin_other; first | assumption | apply raiseTrap_kin)
    | (apply kin_other; apply kin_other; first | assumption | apply raiseTrap_kin)
    | (apply kin_mk <;> first | assumption | apply raiseTrap_kin | (intro w; first | exact w | exact wf_set _ _ w | exact wf_upd _ _ w | exact wf_del _ w | exact wf_keep _ w | exact wf_mapV _ w | exact wf_filter _ w | (simp; done) | (simpa using w) | (rw [length_listSet]; exact w)))

theorem readRecord_kin {a0 : Dev} {d : Dev} {j : Nat} {jb : Job} {rp : Replay} {r : List W64} (hK : Kin a0 d) : Kin a0 (readRecord d j jb rp r).1 := by
  unfold readRecord
  try dsimp only
  with_reducible repeat'
    first
    | assumption | apply readBegin_kin | apply readGap_kin | apply updReplay_kin | apply countSkips_kin
    | apply readPending_kin | split | apply kin_fst (by assumption) | apply kin_snd (by assumption) | intro _
    | (apply kin_other; first | assumption | apply readBegin_kin | apply readGap_kin | apply updReplay_kin | apply countSkips_kin | apply readPending_kin)
    | (apply kin_other; apply kin_other; first | assumption | apply readBegin_kin | apply readGap_kin | apply updReplay_kin | apply countSkips_kin | apply readPending_kin)
    | (apply kin_mk <;> first | assumption | apply readBegin_kin | apply readGap_kin | apply updReplay_kin | apply countSkips_kin | apply readPending_kin | (intro w; first | exact w | exact wf_set _ _ w | exact wf_upd _ _ w | exact wf_del _ w | exact wf_keep _ w | exact wf_mapV _ w | exact wf_filter _ w | (simp; done) | (simpa using w) | (rw [length_listSet]; exact w)))

theorem takeRecord_kin {a0 : Dev} {d : Dev} {j : Nat} {jb : Job} {rp : Replay} {n : Nat} (hK : Kin a0 d) : Kin a0 (takeRecord d j jb rp n).1 := by
  unfold takeRecord
  try dsimp only
  with_reducible repeat'
    first
    | assumption | apply readRecord_kin | apply readRec_kin | apply readGap_kin | apply memUeTrap_kin | split
    | apply kin_fst (by assumption) | apply kin_snd (by assumption) | intro _

theorem readRecords_kin {a0 : Dev} {j : Nat} {y0 : Nat} {y1 : Dev} (hK : Kin a0 y1) : Kin a0 (readRecords j y0 y1) := by
  induction y0 generalizing j y1 with
  | zero =>
    unfold readRecords
    try dsimp only
    with_reducible repeat'
      first
      | assumption | apply takeRecord_kin | apply updReplay_kin | split | apply kin_fst (by assumption)
      | apply kin_snd (by assumption) | intro _
      | (apply kin_other; first | assumption | apply takeRecord_kin | apply updReplay_kin)
      | (apply kin_other; apply kin_other; first | assumption | apply takeRecord_kin | apply updReplay_kin)
      | (apply kin_mk <;> first | assumption | apply takeRecord_kin | apply updReplay_kin | (intro w; first | exact w | exact wf_set _ _ w | exact wf_upd _ _ w | exact wf_del _ w | exact wf_keep _ w | exact wf_mapV _ w | exact wf_filter _ w | (simp; done) | (simpa using w) | (rw [length_listSet]; exact w)))
  | succ k ih =>
    unfold readRecords
    try dsimp only
    with_reducible repeat'
      first
      | assumption | apply ih | apply takeRecord_kin | apply updReplay_kin | split | apply kin_fst (by assumption)
      | apply kin_snd (by assumption) | intro _
      | (apply kin_other; first | assumption | apply takeRecord_kin | apply updReplay_kin)
      | (apply kin_other; apply kin_other; first | assumption | apply takeRecord_kin | apply updReplay_kin)
      | (apply kin_mk <;> first | assumption | apply takeRecord_kin | apply updReplay_kin | (intro w; first | exact w | exact wf_set _ _ w | exact wf_upd _ _ w | exact wf_del _ w | exact wf_keep _ w | exact wf_mapV _ w | exact wf_filter _ w | (simp; done) | (simpa using w) | (rw [length_listSet]; exact w)))

theorem foundCtx_kin {a0 : Dev} {d : Dev} {j c : Nat} {rp : Replay} {r : List W64} (hK : Kin a0 d) : Kin a0 (foundCtx d j c rp r) := by
  unfold foundCtx
  try dsimp only
  with_reducible repeat'
    first
    | assumption | apply updCtx_kin | apply updReplay_kin | apply replayDiverge_kin | split | apply kin_fst (by assumption)
    | apply kin_snd (by assumption) | intro _
    | (apply kin_other; first | assumption | apply updCtx_kin | apply updReplay_kin | apply replayDiverge_kin)
    | (apply kin_other; apply kin_other; first | assumption | apply updCtx_kin | apply updReplay_kin | apply replayDiverge_kin)
    | (apply kin_mk <;> first | assumption | apply updCtx_kin | apply updReplay_kin | apply replayDiverge_kin | (intro w; first | exact w | exact wf_set _ _ w | exact wf_upd _ _ w | exact wf_del _ w | exact wf_keep _ w | exact wf_mapV _ w | exact wf_filter _ w | (simp; done) | (simpa using w) | (rw [length_listSet]; exact w)))

theorem countRefused_kin {a0 : Dev} {d : Dev} {j : Nat} {e : Env} {c b p : Nat} {rec_ : List W64} (hK : Kin a0 d) : KinO a0 (countRefused d j e c b p rec_) := by
  unfold countRefused
  try dsimp only
  with_reducible repeat'
    first
    | assumption | apply bump_kin | apply countFull_kin | apply updReplay_kin | split | apply kin_fst (by assumption)
    | apply kin_snd (by assumption) | exact kinO_none | apply kinO_some | apply kinO_use (by assumption) | intro _
    | (apply kin_other; first | assumption | apply bump_kin | apply countFull_kin | apply updReplay_kin)
    | (apply kin_other; apply kin_other; first | assumption | apply bump_kin | apply countFull_kin | apply updReplay_kin)
    | (apply kin_mk <;> first | assumption | apply bump_kin | apply countFull_kin | apply updReplay_kin | (intro w; first | exact w | exact wf_set _ _ w | exact wf_upd _ _ w | exact wf_del _ w | exact wf_keep _ w | exact wf_mapV _ w | exact wf_filter _ w | (simp; done) | (simpa using w) | (rw [length_listSet]; exact w)))

theorem injectCopy_kin {a0 d : Dev} {j c : Nat} {rec_ : List W64} (hK : Kin a0 d) : ∀ y, injectCopy d j c rec_ = some y → Kin a0 y.1 := by
  intro y
  unfold injectCopy
  try dsimp only
  repeat' split
  all_goals
    intro h
    first
    | (obtain ⟨z, hz, rfl⟩ := Option.map_eq_some_iff.mp h; exact countRefused_kin hK z hz)
    | (cases h; with_reducible repeat' first | exact hK | apply spill_kin | apply updReplay_kin | apply bump_kin | apply completeCopy_kin)

theorem kinO_mapPair {a : Dev} {β : Type} {x : Option (Dev × β)} {f : Dev × β → Dev} (h : ∀ y, x = some y → Kin a y.1)
    (g : ∀ y, Kin a y.1 → Kin a (f y)) : KinO a (x.map f) := by
  intro e he
  obtain ⟨y, hy, rfl⟩ := Option.map_eq_some_iff.mp he
  exact g y (h y hy)

theorem actRecord_kin {a0 : Dev} {d : Dev} {j : Nat} {jb : Job} {rp : Replay} {before : List (List W64)} {r : List W64} (hK : Kin a0 d) : KinO a0 (actRecord d j jb rp before r) := by
  unfold actRecord
  try dsimp only
  with_reducible repeat'
    first
    | assumption | apply updReplay_kin | apply foundCtx_kin | apply bump_kin | apply poisonStep_kin | apply resultDiff_kin
    | split | exact kinO_none | apply kinO_some
    | (refine kinO_mapPair (injectCopy_kin hK) ?_) | intro _


theorem actFirst_kin {a0 : Dev} {d : Dev} {j : Nat} {jb : Job} {rp : Replay} {y0 : List (List W64)} {y1 : List (List W64)} (hK : Kin a0 d) : KinO a0 (actFirst d j jb rp y0 y1) := by
  induction y1 generalizing d j jb rp y0 with
  | nil =>
    unfold actFirst
    try dsimp only
    with_reducible repeat'
      first
      | assumption | apply actRecord_kin | split | apply kin_fst (by assumption) | apply kin_snd (by assumption)
      | exact kinO_none | apply kinO_some | apply kinO_use (by assumption) | intro _
  | cons z zs ih =>
    unfold actFirst
    try dsimp only
    with_reducible repeat'
      first
      | assumption | apply ih | apply actRecord_kin | split | apply kin_fst (by assumption) | apply kin_snd (by assumption)
      | exact kinO_none | apply kinO_some | apply kinO_use (by assumption) | intro _

theorem actRecords_kin {a0 : Dev} {j : Nat} {y0 : Nat} {y1 : Dev} (hK : Kin a0 y1) : Kin a0 (actRecords j y0 y1) := by
  induction y0 generalizing j y1 with
  | zero =>
    unfold actRecords
    try dsimp only
    with_reducible repeat'
      first
      | assumption | apply actFirst_kin | split | apply kin_fst (by assumption) | apply kin_snd (by assumption)
      | exact kinO_none | apply kinO_some | apply kinO_use (by assumption) | intro _
  | succ k ih =>
    unfold actRecords
    try dsimp only
    with_reducible repeat'
      first
      | assumption | apply ih | apply actFirst_kin | split | apply kin_fst (by assumption) | apply kin_snd (by assumption)
      | exact kinO_none | apply kinO_some | apply kinO_use (by assumption) | intro _

theorem sendReplayReq_kin {a0 : Dev} {d : Dev} {j port off n : Nat} (hK : Kin a0 d) : Kin a0 (sendReplayReq d j port off n) := by
  unfold sendReplayReq
  try dsimp only
  with_reducible repeat'
    first
    | assumption | apply sendPort_kin | intro _ | (apply kin_other; first | assumption | apply sendPort_kin)
    | (apply kin_other; apply kin_other; first | assumption | apply sendPort_kin)
    | (apply kin_mk <;> first | assumption | apply sendPort_kin | (intro w; first | exact w | exact wf_set _ _ w | exact wf_upd _ _ w | exact wf_del _ w | exact wf_keep _ w | exact wf_mapV _ w | exact wf_filter _ w | (simp; done) | (simpa using w) | (rw [length_listSet]; exact w)))

theorem askReplay_kin {a0 : Dev} {d : Dev} {j port off n : Nat} (hK : Kin a0 d) : Kin a0 (askReplay d j port off n) := by
  unfold askReplay
  try dsimp only
  with_reducible repeat'
    first
    | assumption | apply updReplay_kin | apply sendReplayReq_kin | intro _
    | (apply kin_other; first | assumption | apply updReplay_kin | apply sendReplayReq_kin)
    | (apply kin_other; apply kin_other; first | assumption | apply updReplay_kin | apply sendReplayReq_kin)
    | (apply kin_mk <;> first | assumption | apply updReplay_kin | apply sendReplayReq_kin | (intro w; first | exact w | exact wf_set _ _ w | exact wf_upd _ _ w | exact wf_del _ w | exact wf_keep _ w | exact wf_mapV _ w | exact wf_filter _ w | (simp; done) | (simpa using w) | (rw [length_listSet]; exact w)))

theorem askOn_kin {a0 : Dev} {j : Nat} {y0 : Nat} {y1 : Dev} (hK : Kin a0 y1) : Kin a0 (askOn j y0 y1) := by
  induction y0 generalizing j y1 with
  | zero =>
    unfold askOn
    try dsimp only
    with_reducible repeat'
      first
      | assumption | apply updReplay_kin | apply askReplay_kin | split | apply kin_fst (by assumption)
      | apply kin_snd (by assumption) | intro _
      | (apply kin_other; first | assumption | apply updReplay_kin | apply askReplay_kin)
      | (apply kin_other; apply kin_other; first | assumption | apply updReplay_kin | apply askReplay_kin)
      | (apply kin_mk <;> first | assumption | apply updReplay_kin | apply askReplay_kin | (intro w; first | exact w | exact wf_set _ _ w | exact wf_upd _ _ w | exact wf_del _ w | exact wf_keep _ w | exact wf_mapV _ w | exact wf_filter _ w | (simp; done) | (simpa using w) | (rw [length_listSet]; exact w)))
  | succ k ih =>
    unfold askOn
    try dsimp only
    with_reducible repeat'
      first
      | assumption | apply ih | apply updReplay_kin | apply askReplay_kin | split | apply kin_fst (by assumption)
      | apply kin_snd (by assumption) | intro _
      | (apply kin_other; first | assumption | apply updReplay_kin | apply askReplay_kin)
      | (apply kin_other; apply kin_other; first | assumption | apply updReplay_kin | apply askReplay_kin)
      | (apply kin_mk <;> first | assumption | apply updReplay_kin | apply askReplay_kin | (intro w; first | exact w | exact wf_set _ _ w | exact wf_upd _ _ w | exact wf_del _ w | exact wf_keep _ w | exact wf_mapV _ w | exact wf_filter _ w | (simp; done) | (simpa using w) | (rw [length_listSet]; exact w)))

theorem replayPump_kin {a0 : Dev} {d : Dev} {j : Nat} (hK : Kin a0 d) : Kin a0 (replayPump d j) := by
  unfold replayPump
  try dsimp only
  with_reducible repeat'
    first
    | assumption | apply readRecords_kin | apply dropPassed_kin | apply actRecords_kin | apply askOn_kin | split
    | apply kin_fst (by assumption) | apply kin_snd (by assumption) | intro _

theorem replayAll_kin {a0 : Dev} {d : Dev} (hK : Kin a0 d) : Kin a0 (replayAll d) := by
  unfold replayAll
  try dsimp only
  with_reducible repeat' first | assumption | apply forEach_kin | apply replayPump_kin | intro _

end Sys2Proof.Machine
end

