-- ==== Sys2Proof/Laws/KinStepBegin.lean ====
section
/-!
SUPPORT. Sys2Proof/Laws/KinStepBegin.lean: every operation of StepBegin.lean keeps time, identity and the form of the tables.
-/
namespace Sys2Proof.Machine
open SMap

theorem beginStep_kin {a0 : Dev} {d : Dev} {j : Nat} (hK : Kin a0 d) : Kin a0 (beginStep d j) := by
  unfold beginStep
  try dsimp only
  with_reducible repeat'
    first
    | assumption | apply updJob_kin | apply recBegin_kin | apply bump_kin | apply bumpBy_kin | split
    | apply kin_fst (by assumption) | apply kin_snd (by assumption) | intro _
    | (apply kin_other; first | assumption | apply updJob_kin | apply recBegin_kin | apply bump_kin | apply bumpBy_kin)
    | (apply kin_other; apply kin_other; first | assumption | apply updJob_kin | apply recBegin_kin | apply bump_kin | apply bumpBy_kin)
    | (apply kin_mk <;> first | assumption | apply updJob_kin | apply recBegin_kin | apply bump_kin | apply bumpBy_kin | (intro w; first | exact w | exact wf_set _ _ w | exact wf_upd _ _ w | exact wf_del _ w | exact wf_keep _ w | exact wf_mapV _ w | exact wf_filter _ w | (simp; done) | (simpa using w) | (rw [length_listSet]; exact w)))

theorem releaseNode_kin {a0 : Dev} {j g : Nat} {d : Dev} {i : Nat} (hK : Kin a0 d) : Kin a0 (releaseNode j g d i) := by
  unfold releaseNode
  try dsimp only
  with_reducible repeat'
    first
    | assumption | apply readyNode_kin | apply updNode_kin | split | apply kin_fst (by assumption)
    | apply kin_snd (by assumption) | intro _
    | (apply kin_other; first | assumption | apply readyNode_kin | apply updNode_kin)
    | (apply kin_other; apply kin_other; first | assumption | apply readyNode_kin | apply updNode_kin)
    | (apply kin_mk <;> first | assumption | apply readyNode_kin | apply updNode_kin | (intro w; first | exact w | exact wf_set _ _ w | exact wf_upd _ _ w | exact wf_del _ w | exact wf_keep _ w | exact wf_mapV _ w | exact wf_filter _ w | (simp; done) | (simpa using w) | (rw [length_listSet]; exact w)))

theorem releaseGraph_kin {a0 : Dev} {d : Dev} {j g : Nat} (hK : Kin a0 d) : Kin a0 (releaseGraph d j g) := by
  unfold releaseGraph
  try dsimp only
  with_reducible repeat'
    first
    | assumption | apply foldl_kin | apply beginStep_kin | apply updJob_kin | apply step_kin | apply bump_kin
    | apply settle_kin | apply releaseNode_kin | split | apply kin_fst (by assumption) | apply kin_snd (by assumption)
    | intro _
    | (apply kin_other; first | assumption | apply foldl_kin | apply beginStep_kin | apply updJob_kin | apply step_kin | apply bump_kin | apply settle_kin | apply releaseNode_kin)
    | (apply kin_other; apply kin_other; first | assumption | apply foldl_kin | apply beginStep_kin | apply updJob_kin | apply step_kin | apply bump_kin | apply settle_kin | apply releaseNode_kin)
    | (apply kin_mk <;> first | assumption | apply foldl_kin | apply beginStep_kin | apply updJob_kin | apply step_kin | apply bump_kin | apply settle_kin | apply releaseNode_kin | (intro w; first | exact w | exact wf_set _ _ w | exact wf_upd _ _ w | exact wf_del _ w | exact wf_keep _ w | exact wf_mapV _ w | exact wf_filter _ w | (simp; done) | (simpa using w) | (rw [length_listSet]; exact w)))

theorem tryRelease_kin {a0 : Dev} {d : Dev} {j g : Nat} (hK : Kin a0 d) : Kin a0 (tryRelease d j g).1 := by
  unfold tryRelease
  try dsimp only
  with_reducible repeat'
    first
    | assumption | apply releaseGraph_kin | split | apply kin_fst (by assumption) | apply kin_snd (by assumption) | intro _

theorem bindReleases_kin {a0 : Dev} {d : Dev} {j : Nat} (hK : Kin a0 d) : Kin a0 (bindReleases d j) := by
  unfold bindReleases
  try dsimp only
  with_reducible repeat'
    first
    | assumption | apply forEach_kin | apply tryRelease_kin | apply finalReply_kin | split | apply kin_fst (by assumption)
    | apply kin_snd (by assumption) | intro _

end Sys2Proof.Machine
end

