-- ==== Sys2Proof/Laws/KinSealSteps.lean ====
section
/-!
SUPPORT. Sys2Proof/Laws/KinSealSteps.lean: every operation of SealSteps.lean keeps time, identity and the form of the tables.
-/
namespace Sys2Proof.Machine
open SMap

theorem updSeal_kin {a0 : Dev} {d : Dev} {j : Nat} {f : SealObj → SealObj} (hK : Kin a0 d) : Kin a0 (updSeal d j f) := by
  unfold updSeal
  try dsimp only
  with_reducible repeat'
    first
    | assumption | apply updJob_kin | intro _ | (apply kin_other; first | assumption | apply updJob_kin)
    | (apply kin_other; apply kin_other; first | assumption | apply updJob_kin)
    | (apply kin_mk <;> first | assumption | apply updJob_kin | (intro w; first | exact w | exact wf_set _ _ w | exact wf_upd _ _ w | exact wf_del _ w | exact wf_keep _ w | exact wf_mapV _ w | exact wf_filter _ w | (simp; done) | (simpa using w) | (rw [length_listSet]; exact w)))

theorem requestSeal_kin {a0 : Dev} {d : Dev} {j : Nat} {asked : Bool} (hK : Kin a0 d) : Kin a0 (requestSeal d j asked) := by
  unfold requestSeal
  try dsimp only
  with_reducible repeat'
    first
    | assumption | apply updSeal_kin | apply forEach_kin | apply sendSeal_kin | split | apply kin_fst (by assumption)
    | apply kin_snd (by assumption) | intro _
    | (apply kin_other; first | assumption | apply updSeal_kin | apply forEach_kin | apply sendSeal_kin)
    | (apply kin_other; apply kin_other; first | assumption | apply updSeal_kin | apply forEach_kin | apply sendSeal_kin)
    | (apply kin_mk <;> first | assumption | apply updSeal_kin | apply forEach_kin | apply sendSeal_kin | (intro w; first | exact w | exact wf_set _ _ w | exact wf_upd _ _ w | exact wf_del _ w | exact wf_keep _ w | exact wf_mapV _ w | exact wf_filter _ w | (simp; done) | (simpa using w) | (rw [length_listSet]; exact w)))

theorem stepNotices_kin {a0 : Dev} {d : Dev} {j outcome step attempt : Nat} (hK : Kin a0 d) : Kin a0 (stepNotices d j outcome step attempt) := by
  unfold stepNotices
  try dsimp only
  with_reducible repeat'
    first
    | assumption | apply forEach_kin | apply sendMember_kin | apply step_kin | split | apply kin_fst (by assumption)
    | apply kin_snd (by assumption) | intro _

theorem writeCommit_kin {a0 : Dev} {d : Dev} {j : Nat} (hK : Kin a0 d) : Kin a0 (writeCommit d j) := by
  unfold writeCommit
  try dsimp only
  with_reducible repeat'
    first
    | assumption | apply recWrite_kin | apply updJob_kin | apply bump_kin | apply tidyLeft_kin | apply bumpBy_kin
    | apply stepNotices_kin | apply releaseReads_kin | apply cancelSettle_kin | apply applyMarks_kin | apply graphsSealed_kin
    | apply finishCmds_kin | apply startRepair_kin | apply bindReleases_kin | apply snapDue_kin | apply snapSetting_kin
    | split | apply kin_fst (by assumption) | apply kin_snd (by assumption) | intro _
    | (apply kin_other; first | assumption | apply recWrite_kin | apply updJob_kin | apply bump_kin | apply tidyLeft_kin | apply bumpBy_kin | apply stepNotices_kin | apply releaseReads_kin | apply cancelSettle_kin | apply applyMarks_kin | apply graphsSealed_kin | apply finishCmds_kin | apply startRepair_kin | apply bindReleases_kin | apply snapDue_kin | apply snapSetting_kin)
    | (apply kin_other; apply kin_other; first | assumption | apply recWrite_kin | apply updJob_kin | apply bump_kin | apply tidyLeft_kin | apply bumpBy_kin | apply stepNotices_kin | apply releaseReads_kin | apply cancelSettle_kin | apply applyMarks_kin | apply graphsSealed_kin | apply finishCmds_kin | apply startRepair_kin | apply bindReleases_kin | apply snapDue_kin | apply snapSetting_kin)
    | (apply kin_mk <;> first | assumption | apply recWrite_kin | apply updJob_kin | apply bump_kin | apply tidyLeft_kin | apply bumpBy_kin | apply stepNotices_kin | apply releaseReads_kin | apply cancelSettle_kin | apply applyMarks_kin | apply graphsSealed_kin | apply finishCmds_kin | apply startRepair_kin | apply bindReleases_kin | apply snapDue_kin | apply snapSetting_kin | (intro w; first | exact w | exact wf_set _ _ w | exact wf_upd _ _ w | exact wf_del _ w | exact wf_keep _ w | exact wf_mapV _ w | exact wf_filter _ w | (simp; done) | (simpa using w) | (rw [length_listSet]; exact w)))

theorem sealDone_kin {a0 : Dev} {d : Dev} {j step attempt : Nat} (hK : Kin a0 d) : Kin a0 (sealDone d j step attempt) := by
  unfold sealDone
  try dsimp only
  with_reducible repeat'
    first
    | assumption | apply sendApply_kin | apply updSeal_kin | apply step_kin | split | apply kin_fst (by assumption)
    | apply kin_snd (by assumption) | intro _
    | (apply kin_other; first | assumption | apply sendApply_kin | apply updSeal_kin | apply step_kin)
    | (apply kin_other; apply kin_other; first | assumption | apply sendApply_kin | apply updSeal_kin | apply step_kin)
    | (apply kin_mk <;> first | assumption | apply sendApply_kin | apply updSeal_kin | apply step_kin | (intro w; first | exact w | exact wf_set _ _ w | exact wf_upd _ _ w | exact wf_del _ w | exact wf_keep _ w | exact wf_mapV _ w | exact wf_filter _ w | (simp; done) | (simpa using w) | (rw [length_listSet]; exact w)))

theorem trySealEnd_kin {a0 : Dev} {d : Dev} {j : Nat} (hK : Kin a0 d) : Kin a0 (trySealEnd d j) := by
  unfold trySealEnd
  try dsimp only
  with_reducible repeat'
    first
    | assumption | apply writeCommit_kin | apply updSeal_kin | apply forEach_kin | apply sendSealOf_kin | apply sealDone_kin
    | split | apply kin_fst (by assumption) | apply kin_snd (by assumption) | intro _
    | (apply kin_other; first | assumption | apply writeCommit_kin | apply updSeal_kin | apply forEach_kin | apply sendSealOf_kin | apply sealDone_kin)
    | (apply kin_other; apply kin_other; first | assumption | apply writeCommit_kin | apply updSeal_kin | apply forEach_kin | apply sendSealOf_kin | apply sealDone_kin)
    | (apply kin_mk <;> first | assumption | apply writeCommit_kin | apply updSeal_kin | apply forEach_kin | apply sendSealOf_kin | apply sealDone_kin | (intro w; first | exact w | exact wf_set _ _ w | exact wf_upd _ _ w | exact wf_del _ w | exact wf_keep _ w | exact wf_mapV _ w | exact wf_filter _ w | (simp; done) | (simpa using w) | (rw [length_listSet]; exact w)))

theorem decideSeal_kin {a0 : Dev} {d : Dev} {j s a : Nat} {qs : List Nat} (hK : Kin a0 d) : Kin a0 (decideSeal d j s a qs) := by
  unfold decideSeal
  try dsimp only
  with_reducible repeat'
    first
    | assumption | apply updJob_kin | apply trySealEnd_kin | apply forEach_kin | apply sendSealOf_kin | split | intro _
    | (apply kin_other; first | assumption | apply updJob_kin | apply trySealEnd_kin | apply forEach_kin | apply sendSealOf_kin)
    | (apply kin_other; apply kin_other; first | assumption | apply updJob_kin | apply trySealEnd_kin | apply forEach_kin | apply sendSealOf_kin)
    | (apply kin_mk <;> first | assumption | apply updJob_kin | apply trySealEnd_kin | apply forEach_kin | apply sendSealOf_kin | (intro w; first | exact w | exact wf_set _ _ w | exact wf_upd _ _ w | exact wf_del _ w | exact wf_keep _ w | exact wf_mapV _ w | exact wf_filter _ w | (simp; done) | (simpa using w) | (rw [length_listSet]; exact w)))

theorem takeYes_kin {a0 : Dev} {d : Dev} {j q : Nat} (hK : Kin a0 d) : Kin a0 (takeYes d j q) := by
  unfold takeYes
  try dsimp only
  with_reducible repeat'
    first
    | assumption | apply updSeal_kin | apply decideSeal_kin | split | apply kin_fst (by assumption)
    | apply kin_snd (by assumption) | intro _
    | (apply kin_other; first | assumption | apply updSeal_kin | apply decideSeal_kin)
    | (apply kin_other; apply kin_other; first | assumption | apply updSeal_kin | apply decideSeal_kin)
    | (apply kin_mk <;> first | assumption | apply updSeal_kin | apply decideSeal_kin | (intro w; first | exact w | exact wf_set _ _ w | exact wf_upd _ _ w | exact wf_del _ w | exact wf_keep _ w | exact wf_mapV _ w | exact wf_filter _ w | (simp; done) | (simpa using w) | (rw [length_listSet]; exact w)))

theorem castYes_kin {a0 : Dev} {d : Dev} {j : Nat} (hK : Kin a0 d) : Kin a0 (castYes d j) := by
  unfold castYes
  try dsimp only
  with_reducible repeat'
    first
    | assumption | apply updSeal_kin | apply takeYes_kin | apply sendSeal_kin | split | apply kin_fst (by assumption)
    | apply kin_snd (by assumption) | intro _
    | (apply kin_other; first | assumption | apply updSeal_kin | apply takeYes_kin | apply sendSeal_kin)
    | (apply kin_other; apply kin_other; first | assumption | apply updSeal_kin | apply takeYes_kin | apply sendSeal_kin)
    | (apply kin_mk <;> first | assumption | apply updSeal_kin | apply takeYes_kin | apply sendSeal_kin | (intro w; first | exact w | exact wf_set _ _ w | exact wf_upd _ _ w | exact wf_del _ w | exact wf_keep _ w | exact wf_mapV _ w | exact wf_filter _ w | (simp; done) | (simpa using w) | (rw [length_listSet]; exact w)))

theorem tryAbortEnd_kin {a0 : Dev} {d : Dev} {j : Nat} (hK : Kin a0 d) : Kin a0 (tryAbortEnd d j) := by
  unfold tryAbortEnd
  try dsimp only
  with_reducible repeat'
    first
    | assumption | apply updSeal_kin | apply forEach_kin | apply finishCmds_kin | apply step_kin | split
    | apply kin_fst (by assumption) | apply kin_snd (by assumption) | intro _
    | (apply kin_other; first | assumption | apply updSeal_kin | apply forEach_kin | apply finishCmds_kin | apply step_kin)
    | (apply kin_other; apply kin_other; first | assumption | apply updSeal_kin | apply forEach_kin | apply finishCmds_kin | apply step_kin)
    | (apply kin_mk <;> first | assumption | apply updSeal_kin | apply forEach_kin | apply finishCmds_kin | apply step_kin | (intro w; first | exact w | exact wf_set _ _ w | exact wf_upd _ _ w | exact wf_del _ w | exact wf_keep _ w | exact wf_mapV _ w | exact wf_filter _ w | (simp; done) | (simpa using w) | (rw [length_listSet]; exact w)))

theorem takeAbortAck_kin {a0 : Dev} {d : Dev} {j q step attempt : Nat} (hK : Kin a0 d) : Kin a0 (takeAbortAck d j q step attempt) := by
  unfold takeAbortAck
  try dsimp only
  with_reducible repeat'
    first
    | assumption | apply tryAbortEnd_kin | apply updSeal_kin | apply step_kin | split | intro _
    | (apply kin_other; first | assumption | apply tryAbortEnd_kin | apply updSeal_kin | apply step_kin)
    | (apply kin_other; apply kin_other; first | assumption | apply tryAbortEnd_kin | apply updSeal_kin | apply step_kin)
    | (apply kin_mk <;> first | assumption | apply tryAbortEnd_kin | apply updSeal_kin | apply step_kin | (intro w; first | exact w | exact wf_set _ _ w | exact wf_upd _ _ w | exact wf_del _ w | exact wf_keep _ w | exact wf_mapV _ w | exact wf_filter _ w | (simp; done) | (simpa using w) | (rw [length_listSet]; exact w)))

theorem finishAbort_kin {a0 : Dev} {d : Dev} {j : Nat} (hK : Kin a0 d) : Kin a0 (finishAbort d j) := by
  unfold finishAbort
  try dsimp only
  with_reducible repeat'
    first
    | assumption | apply recWrite_kin | apply forEach_kin | apply haulEndAll_kin | apply updJob_kin | apply bump_kin
    | apply tidyLeft_kin | apply stepNotices_kin | apply finishCmds_kin | apply startRepair_kin | apply bindReleases_kin
    | apply takeAbortAck_kin | apply sendSealOf_kin | split | apply kin_fst (by assumption) | apply kin_snd (by assumption)
    | intro _
    | (apply kin_other; first | assumption | apply recWrite_kin | apply forEach_kin | apply haulEndAll_kin | apply updJob_kin | apply bump_kin | apply tidyLeft_kin | apply stepNotices_kin | apply finishCmds_kin | apply startRepair_kin | apply bindReleases_kin | apply takeAbortAck_kin | apply sendSealOf_kin)
    | (apply kin_other; apply kin_other; first | assumption | apply recWrite_kin | apply forEach_kin | apply haulEndAll_kin | apply updJob_kin | apply bump_kin | apply tidyLeft_kin | apply stepNotices_kin | apply finishCmds_kin | apply startRepair_kin | apply bindReleases_kin | apply takeAbortAck_kin | apply sendSealOf_kin)
    | (apply kin_mk <;> first | assumption | apply recWrite_kin | apply forEach_kin | apply haulEndAll_kin | apply updJob_kin | apply bump_kin | apply tidyLeft_kin | apply stepNotices_kin | apply finishCmds_kin | apply startRepair_kin | apply bindReleases_kin | apply takeAbortAck_kin | apply sendSealOf_kin | (intro w; first | exact w | exact wf_set _ _ w | exact wf_upd _ _ w | exact wf_del _ w | exact wf_keep _ w | exact wf_mapV _ w | exact wf_filter _ w | (simp; done) | (simpa using w) | (rw [length_listSet]; exact w)))

theorem abortScan_kin {a0 : Dev} {d : Dev} {j : Nat} (hK : Kin a0 d) : Kin a0 (abortScan d j) := by
  unfold abortScan
  try dsimp only
  with_reducible repeat'
    first
    | assumption | apply foldl_kin | apply updJob_kin | apply bumpBy_kin | apply forEach_kin | apply writeMeta_kin | split
    | apply kin_fst (by assumption) | apply kin_snd (by assumption) | intro _
    | (apply kin_other; first | assumption | apply foldl_kin | apply updJob_kin | apply bumpBy_kin | apply forEach_kin | apply writeMeta_kin)
    | (apply kin_other; apply kin_other; first | assumption | apply foldl_kin | apply updJob_kin | apply bumpBy_kin | apply forEach_kin | apply writeMeta_kin)
    | (apply kin_mk <;> first | assumption | apply foldl_kin | apply updJob_kin | apply bumpBy_kin | apply forEach_kin | apply writeMeta_kin | (intro w; first | exact w | exact wf_set _ _ w | exact wf_upd _ _ w | exact wf_del _ w | exact wf_keep _ w | exact wf_mapV _ w | exact wf_filter _ w | (simp; done) | (simpa using w) | (rw [length_listSet]; exact w)))

theorem scanDone_kin {a0 : Dev} {d : Dev} {j : Nat} (hK : Kin a0 d) : Kin a0 (scanDone d j) := by
  unfold scanDone
  try dsimp only
  with_reducible repeat'
    first
    | assumption | apply releaseReads_kin | apply abortScan_kin | apply dropHeld_kin | apply updSeal_kin
    | apply finishAbort_kin | apply forEach_kin | apply sendCtl_kin | apply kinO_getD | split | apply kin_fst (by assumption)
    | apply kin_snd (by assumption) | intro _
    | (apply kin_other; first | assumption | apply releaseReads_kin | apply abortScan_kin | apply dropHeld_kin | apply updSeal_kin | apply finishAbort_kin | apply forEach_kin | apply sendCtl_kin | apply kinO_getD)
    | (apply kin_other; apply kin_other; first | assumption | apply releaseReads_kin | apply abortScan_kin | apply dropHeld_kin | apply updSeal_kin | apply finishAbort_kin | apply forEach_kin | apply sendCtl_kin | apply kinO_getD)
    | (apply kin_mk <;> first | assumption | apply releaseReads_kin | apply abortScan_kin | apply dropHeld_kin | apply updSeal_kin | apply finishAbort_kin | apply forEach_kin | apply sendCtl_kin | apply kinO_getD | (intro w; first | exact w | exact wf_set _ _ w | exact wf_upd _ _ w | exact wf_del _ w | exact wf_keep _ w | exact wf_mapV _ w | exact wf_filter _ w | (simp; done) | (simpa using w) | (rw [length_listSet]; exact w)))

theorem abortLeft_kin {a0 : Dev} {d : Dev} {j step attempt : Nat} (hK : Kin a0 d) : Kin a0 (abortLeft d j step attempt) := by
  unfold abortLeft
  try dsimp only
  with_reducible repeat'
    first
    | assumption | apply updSeal_kin | apply step_kin | apply tryAbortEnd_kin | apply forEach_kin | apply sendSealOf_kin
    | split | apply kin_fst (by assumption) | apply kin_snd (by assumption) | intro _
    | (apply kin_other; first | assumption | apply updSeal_kin | apply step_kin | apply tryAbortEnd_kin | apply forEach_kin | apply sendSealOf_kin)
    | (apply kin_other; apply kin_other; first | assumption | apply updSeal_kin | apply step_kin | apply tryAbortEnd_kin | apply forEach_kin | apply sendSealOf_kin)
    | (apply kin_mk <;> first | assumption | apply updSeal_kin | apply step_kin | apply tryAbortEnd_kin | apply forEach_kin | apply sendSealOf_kin | (intro w; first | exact w | exact wf_set _ _ w | exact wf_upd _ _ w | exact wf_del _ w | exact wf_keep _ w | exact wf_mapV _ w | exact wf_filter _ w | (simp; done) | (simpa using w) | (rw [length_listSet]; exact w)))

theorem queryEnd_kin {a0 : Dev} {d : Dev} {j : Nat} (hK : Kin a0 d) : Kin a0 (queryEnd d j) := by
  unfold queryEnd
  try dsimp only
  with_reducible repeat'
    first
    | assumption | apply step_kin | apply updSeal_kin | apply decideSeal_kin | apply decideAbort_kin | apply abortLeft_kin
    | split | apply kin_fst (by assumption) | apply kin_snd (by assumption) | intro _
    | (apply kin_other; first | assumption | apply step_kin | apply updSeal_kin | apply decideSeal_kin | apply decideAbort_kin | apply abortLeft_kin)
    | (apply kin_other; apply kin_other; first | assumption | apply step_kin | apply updSeal_kin | apply decideSeal_kin | apply decideAbort_kin | apply abortLeft_kin)
    | (apply kin_mk <;> first | assumption | apply step_kin | apply updSeal_kin | apply decideSeal_kin | apply decideAbort_kin | apply abortLeft_kin | (intro w; first | exact w | exact wf_set _ _ w | exact wf_upd _ _ w | exact wf_del _ w | exact wf_keep _ w | exact wf_mapV _ w | exact wf_filter _ w | (simp; done) | (simpa using w) | (rw [length_listSet]; exact w)))

theorem resendDone_kin {a0 : Dev} {d : Dev} {j : Nat} (hK : Kin a0 d) : Kin a0 (resendDone d j) := by
  unfold resendDone
  try dsimp only
  with_reducible repeat'
    first
    | assumption | apply forEach_kin | apply sendSealOf_kin | split | apply kin_fst (by assumption)
    | apply kin_snd (by assumption) | intro _
    | (apply kin_other; first | assumption | apply forEach_kin | apply sendSealOf_kin)
    | (apply kin_other; apply kin_other; first | assumption | apply forEach_kin | apply sendSealOf_kin)
    | (apply kin_mk <;> first | assumption | apply forEach_kin | apply sendSealOf_kin | (intro w; first | exact w | exact wf_set _ _ w | exact wf_upd _ _ w | exact wf_del _ w | exact wf_keep _ w | exact wf_mapV _ w | exact wf_filter _ w | (simp; done) | (simpa using w) | (rw [length_listSet]; exact w)))

theorem takeover_kin {a0 : Dev} {d : Dev} {j first : Nat} (hK : Kin a0 d) : Kin a0 (takeover d j first) := by
  unfold takeover
  try dsimp only
  with_reducible repeat'
    first
    | assumption | apply raiseTrap_kin | apply updSeal_kin | apply abortLeft_kin | apply forEach_kin | apply resendDone_kin
    | apply sendSealOf_kin | apply queryEnd_kin | split | apply kin_fst (by assumption) | apply kin_snd (by assumption)
    | intro _
    | (apply kin_other; first | assumption | apply raiseTrap_kin | apply updSeal_kin | apply abortLeft_kin | apply forEach_kin | apply resendDone_kin | apply sendSealOf_kin | apply queryEnd_kin)
    | (apply kin_other; apply kin_other; first | assumption | apply raiseTrap_kin | apply updSeal_kin | apply abortLeft_kin | apply forEach_kin | apply resendDone_kin | apply sendSealOf_kin | apply queryEnd_kin)
    | (apply kin_mk <;> first | assumption | apply raiseTrap_kin | apply updSeal_kin | apply abortLeft_kin | apply forEach_kin | apply resendDone_kin | apply sendSealOf_kin | apply queryEnd_kin | (intro w; first | exact w | exact wf_set _ _ w | exact wf_upd _ _ w | exact wf_del _ w | exact wf_keep _ w | exact wf_mapV _ w | exact wf_filter _ w | (simp; done) | (simpa using w) | (rw [length_listSet]; exact w)))

theorem queryAnswer_kin {a0 : Dev} {d : Dev} {j q : Nat} {written : Bool} (hK : Kin a0 d) : Kin a0 (queryAnswer d j q written) := by
  unfold queryAnswer
  try dsimp only
  with_reducible repeat'
    first
    | assumption | apply updSeal_kin | apply queryEnd_kin | split | apply kin_fst (by assumption)
    | apply kin_snd (by assumption) | intro _ | (apply kin_other; first | assumption | apply updSeal_kin | apply queryEnd_kin)
    | (apply kin_other; apply kin_other; first | assumption | apply updSeal_kin | apply queryEnd_kin)
    | (apply kin_mk <;> first | assumption | apply updSeal_kin | apply queryEnd_kin | (intro w; first | exact w | exact wf_set _ _ w | exact wf_upd _ _ w | exact wf_del _ w | exact wf_keep _ w | exact wf_mapV _ w | exact wf_filter _ w | (simp; done) | (simpa using w) | (rw [length_listSet]; exact w)))

theorem stopJob_kin {a0 : Dev} {d : Dev} {j : Nat} (hK : Kin a0 d) : Kin a0 (stopJob d j) := by
  unfold stopJob
  try dsimp only
  with_reducible repeat'
    first
    | assumption | apply updJob_kin | apply forEach_kin | apply settle_kin | apply haulEndAll_kin | apply endCtx_kin
    | apply offlineReads_kin | split | apply kin_fst (by assumption) | apply kin_snd (by assumption) | intro _
    | (apply kin_other; first | assumption | apply updJob_kin | apply forEach_kin | apply settle_kin | apply haulEndAll_kin | apply endCtx_kin | apply offlineReads_kin)
    | (apply kin_other; apply kin_other; first | assumption | apply updJob_kin | apply forEach_kin | apply settle_kin | apply haulEndAll_kin | apply endCtx_kin | apply offlineReads_kin)
    | (apply kin_mk <;> first | assumption | apply updJob_kin | apply forEach_kin | apply settle_kin | apply haulEndAll_kin | apply endCtx_kin | apply offlineReads_kin | (intro w; first | exact w | exact wf_set _ _ w | exact wf_upd _ _ w | exact wf_del _ w | exact wf_keep _ w | exact wf_mapV _ w | exact wf_filter _ w | (simp; done) | (simpa using w) | (rw [length_listSet]; exact w)))

theorem markWithdrawn_kin {a0 : Dev} {d : Dev} {j q : Nat} (hK : Kin a0 d) : Kin a0 (markWithdrawn d j q) := by
  unfold markWithdrawn
  try dsimp only
  with_reducible repeat'
    first
    | assumption | apply stopJob_kin | apply updJob_kin | apply offlineOwner_kin | apply takeover_kin | apply queryAnswer_kin
    | apply tryAbortEnd_kin | apply trySealEnd_kin | apply decideAbort_kin | split | apply kin_fst (by assumption)
    | apply kin_snd (by assumption) | intro _
    | (apply kin_other; first | assumption | apply stopJob_kin | apply updJob_kin | apply offlineOwner_kin | apply takeover_kin | apply queryAnswer_kin | apply tryAbortEnd_kin | apply trySealEnd_kin | apply decideAbort_kin)
    | (apply kin_other; apply kin_other; first | assumption | apply stopJob_kin | apply updJob_kin | apply offlineOwner_kin | apply takeover_kin | apply queryAnswer_kin | apply tryAbortEnd_kin | apply trySealEnd_kin | apply decideAbort_kin)
    | (apply kin_mk <;> first | assumption | apply stopJob_kin | apply updJob_kin | apply offlineOwner_kin | apply takeover_kin | apply queryAnswer_kin | apply tryAbortEnd_kin | apply trySealEnd_kin | apply decideAbort_kin | (intro w; first | exact w | exact wf_set _ _ w | exact wf_upd _ _ w | exact wf_del _ w | exact wf_keep _ w | exact wf_mapV _ w | exact wf_filter _ w | (simp; done) | (simpa using w) | (rw [length_listSet]; exact w)))

theorem applyAcked_kin {a0 : Dev} {d : Dev} {j h : Nat} (hK : Kin a0 d) : Kin a0 (applyAcked d j h) := by
  unfold applyAcked
  try dsimp only
  with_reducible repeat'
    first
    | assumption | apply updSeal_kin | intro _ | (apply kin_other; first | assumption | apply updSeal_kin)
    | (apply kin_other; apply kin_other; first | assumption | apply updSeal_kin)
    | (apply kin_mk <;> first | assumption | apply updSeal_kin | (intro w; first | exact w | exact wf_set _ _ w | exact wf_upd _ _ w | exact wf_del _ w | exact wf_keep _ w | exact wf_mapV _ w | exact wf_filter _ w | (simp; done) | (simpa using w) | (rw [length_listSet]; exact w)))

theorem dropAcked_kin {a0 : Dev} {d : Dev} {j h : Nat} (hK : Kin a0 d) : Kin a0 (dropAcked d j h) := by
  unfold dropAcked
  try dsimp only
  with_reducible repeat'
    first
    | assumption | apply finishAbort_kin | apply updSeal_kin | intro _
    | (apply kin_other; first | assumption | apply finishAbort_kin | apply updSeal_kin)
    | (apply kin_other; apply kin_other; first | assumption | apply finishAbort_kin | apply updSeal_kin)
    | (apply kin_mk <;> first | assumption | apply finishAbort_kin | apply updSeal_kin | (intro w; first | exact w | exact wf_set _ _ w | exact wf_upd _ _ w | exact wf_del _ w | exact wf_keep _ w | exact wf_mapV _ w | exact wf_filter _ w | (simp; done) | (simpa using w) | (rw [length_listSet]; exact w)))

theorem loseHolder_kin {a0 : Dev} {d : Dev} {j h : Nat} (hK : Kin a0 d) : Kin a0 (loseHolder d j h) := by
  unfold loseHolder
  try dsimp only
  with_reducible repeat'
    first
    | assumption | apply dropHeld_kin | apply updJob_kin | apply bumpBy_kin | apply baseSettle_kin | apply dropAcked_kin
    | apply applyAcked_kin | apply kinO_getD | split | apply kin_fst (by assumption) | apply kin_snd (by assumption) | intro _
    | (apply kin_other; first | assumption | apply dropHeld_kin | apply updJob_kin | apply bumpBy_kin | apply baseSettle_kin | apply dropAcked_kin | apply applyAcked_kin | apply kinO_getD)
    | (apply kin_other; apply kin_other; first | assumption | apply dropHeld_kin | apply updJob_kin | apply bumpBy_kin | apply baseSettle_kin | apply dropAcked_kin | apply applyAcked_kin | apply kinO_getD)
    | (apply kin_mk <;> first | assumption | apply dropHeld_kin | apply updJob_kin | apply bumpBy_kin | apply baseSettle_kin | apply dropAcked_kin | apply applyAcked_kin | apply kinO_getD | (intro w; first | exact w | exact wf_set _ _ w | exact wf_upd _ _ w | exact wf_del _ w | exact wf_keep _ w | exact wf_mapV _ w | exact wf_filter _ w | (simp; done) | (simpa using w) | (rw [length_listSet]; exact w)))

theorem rewatchPos_kin {a0 : Dev} {old d : Dev} (hK : Kin a0 d) : Kin a0 (rewatchPos old d) := by
  unfold rewatchPos
  try dsimp only
  with_reducible repeat'
    first
    | assumption | apply updPar_kin | split | intro _ | (apply kin_other; first | assumption | apply updPar_kin)
    | (apply kin_other; apply kin_other; first | assumption | apply updPar_kin)
    | (apply kin_mk <;> first | assumption | apply updPar_kin | (intro w; first | exact w | exact wf_set _ _ w | exact wf_upd _ _ w | exact wf_del _ w | exact wf_keep _ w | exact wf_mapV _ w | exact wf_filter _ w | (simp; done) | (simpa using w) | (rw [length_listSet]; exact w)))

theorem markLost_kin {a0 : Dev} {d : Dev} {pos : Nat} (hK : Kin a0 d) : Kin a0 (markLost d pos) := by
  unfold markLost
  try dsimp only
  with_reducible repeat'
    first
    | assumption | apply updPar_kin | apply rewatchPos_kin | apply forEach_kin | apply loseHolder_kin
    | apply rebuildSettle_kin | apply updRebuild_kin | split | intro _
    | (apply kin_other; first | assumption | apply updPar_kin | apply rewatchPos_kin | apply forEach_kin | apply loseHolder_kin | apply rebuildSettle_kin | apply updRebuild_kin)
    | (apply kin_other; apply kin_other; first | assumption | apply updPar_kin | apply rewatchPos_kin | apply forEach_kin | apply loseHolder_kin | apply rebuildSettle_kin | apply updRebuild_kin)
    | (apply kin_mk <;> first | assumption | apply updPar_kin | apply rewatchPos_kin | apply forEach_kin | apply loseHolder_kin | apply rebuildSettle_kin | apply updRebuild_kin | (intro w; first | exact w | exact wf_set _ _ w | exact wf_upd _ _ w | exact wf_del _ w | exact wf_keep _ w | exact wf_mapV _ w | exact wf_filter _ w | (simp; done) | (simpa using w) | (rw [length_listSet]; exact w)))

end Sys2Proof.Machine
end

