-- ==== Sys2Proof/Laws/KinAreas.lean ====
section
/-!
SUPPORT. Sys2Proof/Laws/KinAreas.lean: every operation of Areas.lean keeps time, identity and the form of the tables.
-/
namespace Sys2Proof.Machine
open SMap

theorem xorArea_kin {a0 : Dev} {d : Dev} {a : Area} {x : BitVec 256} (hK : Kin a0 d) : Kin a0 (xorArea d a x) := by
  unfold xorArea
  try dsimp only
  with_reducible repeat'
    first
    | assumption | apply updSlab_kin | apply setDamaged_kin | apply updPar_kin | apply updJob_kin | split
    | apply kin_fst (by assumption) | apply kin_snd (by assumption) | intro _
    | (apply kin_other; first | assumption | apply updSlab_kin | apply setDamaged_kin | apply updPar_kin | apply updJob_kin)
    | (apply kin_other; apply kin_other; first | assumption | apply updSlab_kin | apply setDamaged_kin | apply updPar_kin | apply updJob_kin)
    | (apply kin_mk <;> first | assumption | apply updSlab_kin | apply setDamaged_kin | apply updPar_kin | apply updJob_kin | (intro w; first | exact w | exact wf_set _ _ w | exact wf_upd _ _ w | exact wf_del _ w | exact wf_keep _ w | exact wf_mapV _ w | exact wf_filter _ w | (simp; done) | (simpa using w) | (rw [length_listSet]; exact w)))

theorem xorBlock_kin {a0 : Dev} {d : Dev} {u n p : Nat} {x : BitVec 256} (hK : Kin a0 d) : Kin a0 (xorBlock d u n p x) := by
  unfold xorBlock
  try dsimp only
  with_reducible repeat'
    first
    | assumption | apply xorArea_kin | split | apply kin_fst (by assumption) | apply kin_snd (by assumption) | intro _

theorem putErr_kin {a0 : Dev} {d : Dev} {u n p : Nat} {e : Option BlockErr} (hK : Kin a0 d) : Kin a0 (putErr d u n p e) := by
  unfold putErr
  try dsimp only
  with_reducible repeat'
    first
    | assumption | apply updMem_kin | apply xorBlock_kin | split | apply kin_fst (by assumption)
    | apply kin_snd (by assumption) | intro _ | (apply kin_other; first | assumption | apply updMem_kin | apply xorBlock_kin)
    | (apply kin_other; apply kin_other; first | assumption | apply updMem_kin | apply xorBlock_kin)
    | (apply kin_mk <;> first | assumption | apply updMem_kin | apply xorBlock_kin | (intro w; first | exact w | exact wf_set _ _ w | exact wf_upd _ _ w | exact wf_del _ w | exact wf_keep _ w | exact wf_mapV _ w | exact wf_filter _ w | (simp; done) | (simpa using w) | (rw [length_listSet]; exact w)))

theorem strike_kin {a0 : Dev} {d : Dev} {u : Nat} {s : Strike} (hK : Kin a0 d) : Kin a0 (strike d u s) := by
  unfold strike
  try dsimp only
  with_reducible repeat'
    first
    | assumption | apply putErr_kin | apply kinO_getD | split | apply kin_fst (by assumption) | apply kin_snd (by assumption)
    | intro _ | (apply kin_other; first | assumption | apply putErr_kin | apply kinO_getD)
    | (apply kin_other; apply kin_other; first | assumption | apply putErr_kin | apply kinO_getD)
    | (apply kin_mk <;> first | assumption | apply putErr_kin | apply kinO_getD | (intro w; first | exact w | exact wf_set _ _ w | exact wf_upd _ _ w | exact wf_del _ w | exact wf_keep _ w | exact wf_mapV _ w | exact wf_filter _ w | (simp; done) | (simpa using w) | (rw [length_listSet]; exact w)))

theorem dropChan_kin {a0 : Dev} {d : Dev} {u p : Nat} (hK : Kin a0 d) : Kin a0 (dropChan d u p) := by
  unfold dropChan
  try dsimp only
  with_reducible repeat' first | assumption | apply forEach_kin | apply putErr_kin | intro _

theorem rewriteStripe_kin {a0 : Dev} {d : Dev} {u n : Nat} (hK : Kin a0 d) : Kin a0 (rewriteStripe d u n) := by
  unfold rewriteStripe
  try dsimp only
  with_reducible repeat' first | assumption | apply forEach_kin | apply putErr_kin | intro _

end Sys2Proof.Machine
end

