-- ==== Sys2Proof/Laws/KinHeldParity.lean ====
section
/-!
SUPPORT. Sys2Proof/Laws/KinHeldParity.lean: every operation of HeldParity.lean keeps time, identity and the form of the tables.
-/
namespace Sys2Proof.Machine
open SMap

theorem heldFold_kin {a : Dev} {l : List Span} {x : MemRead × Nat} {g : MemRead × Nat → Span → MemRead × Nat}
    (hg : ∀ y s, (g y s).1.dev = (readSpan y.1.dev s).dev) (h : Kin a x.1.dev) : Kin a (l.foldl g x).1.dev := by
  induction l generalizing x with
  | nil => exact h
  | cons s r ih => exact ih (by rw [hg]; exact readSpan_kin h)

theorem heldRead_kin {a0 : Dev} {d : Dev} {c off len : Nat} (hK : Kin a0 d) : Kin a0 (heldRead d c off len).dev :=
  heldFold_kin (fun _ _ => rfl) hK


theorem parityLost_kin {a0 : Dev} {d : Dev} {u n c : Nat} (hK : Kin a0 d) : Kin a0 (parityLost d u n c) := by
  unfold parityLost
  try dsimp only
  with_reducible repeat'
    first
    | assumption | apply rewriteStripe_kin | apply memUeTrap_kin | apply openPool_kin | apply updPar_kin | intro _
    | (apply kin_other; first | assumption | apply rewriteStripe_kin | apply memUeTrap_kin | apply openPool_kin | apply updPar_kin)
    | (apply kin_other; apply kin_other; first | assumption | apply rewriteStripe_kin | apply memUeTrap_kin | apply openPool_kin | apply updPar_kin)
    | (apply kin_mk <;> first | assumption | apply rewriteStripe_kin | apply memUeTrap_kin | apply openPool_kin | apply updPar_kin | (intro w; first | exact w | exact wf_set _ _ w | exact wf_upd _ _ w | exact wf_del _ w | exact wf_keep _ w | exact wf_mapV _ w | exact wf_filter _ w | (simp; done) | (simpa using w) | (rw [length_listSet]; exact w)))

theorem deltaLost_kin {a0 : Dev} {d : Dev} {u n c : Nat} (hK : Kin a0 d) : Kin a0 (deltaLost d u n c) := by
  unfold deltaLost
  try dsimp only
  with_reducible repeat'
    first
    | assumption | apply memUeTrap_kin | apply step_kin | apply markJob_kin | split | apply kin_fst (by assumption)
    | apply kin_snd (by assumption) | intro _

theorem fixHeld_kin {a0 : Dev} {d : Dev} {c : Nat} {l : List (Nat × BitVec 256)} (hK : Kin a0 d) : Kin a0 (fixHeld d c l) := by
  unfold fixHeld
  try dsimp only
  with_reducible repeat'
    first
    | assumption | apply foldl_kin | apply updPar_kin | split | intro _
    | (apply kin_other; first | assumption | apply foldl_kin | apply updPar_kin)
    | (apply kin_other; apply kin_other; first | assumption | apply foldl_kin | apply updPar_kin)
    | (apply kin_mk <;> first | assumption | apply foldl_kin | apply updPar_kin | (intro w; first | exact w | exact wf_set _ _ w | exact wf_upd _ _ w | exact wf_del _ w | exact wf_keep _ w | exact wf_mapV _ w | exact wf_filter _ w | (simp; done) | (simpa using w) | (rw [length_listSet]; exact w)))

theorem touchHeld_kin {a0 : Dev} {d : Dev} {c off len : Nat} (hK : Kin a0 d) : Kin a0 (touchHeld d c off len) := by
  unfold touchHeld
  try dsimp only
  with_reducible repeat'
    first
    | assumption | apply heldRead_kin | apply parityLost_kin | apply fixHeld_kin | apply forEach_kin | apply writeSpan_kin
    | split | apply kin_fst (by assumption) | apply kin_snd (by assumption) | intro _

theorem readAcc_kin {a0 : Dev} {d : Dev} {c off len : Nat} (hK : Kin a0 d) : Kin a0 (readAcc d c off len) := by
  have h : Kin a0 ((rawStripes (2 ^ 20 * (c / 4) + off) len).foldl (readPart (c % 4)) { dev := d }).dev :=
    foldlRead_kin hK fun _ _ h => readPart_kin h
  unfold readAcc
  dsimp only
  repeat' split
  · exact hK
  · exact deltaLost_kin h
  · exact h


theorem writeAcc_kin {a0 : Dev} {d : Dev} {c off len : Nat} (hK : Kin a0 d) : Kin a0 (writeAcc d c off len) := by
  unfold writeAcc
  try dsimp only
  with_reducible repeat' first | assumption | apply writeParts_kin | split | intro _

theorem rowSpace_kin {a0 : Dev} {d : Dev} {key : W64} {job region row : Nat} (hK : Kin a0 d) : KinO a0 (rowSpace d key job region row) := by
  unfold rowSpace
  try dsimp only
  with_reducible repeat'
    first
    | assumption | apply updPar_kin | apply bump_kin | split | exact kinO_none | apply kinO_some
    | apply kinO_use (by assumption) | intro _ | (apply kin_other; first | assumption | apply updPar_kin | apply bump_kin)
    | (apply kin_other; apply kin_other; first | assumption | apply updPar_kin | apply bump_kin)
    | (apply kin_mk <;> first | assumption | apply updPar_kin | apply bump_kin | (intro w; first | exact w | exact wf_set _ _ w | exact wf_upd _ _ w | exact wf_del _ w | exact wf_keep _ w | exact wf_mapV _ w | exact wf_filter _ w | (simp; done) | (simpa using w) | (rw [length_listSet]; exact w)))

theorem unprotect_kin {a0 : Dev} {d : Dev} {key : W64} {job region row : Nat} (hK : Kin a0 d) : Kin a0 (unprotect d key job region row) := by
  unfold unprotect
  try dsimp only
  with_reducible repeat'
    first
    | assumption | apply bump_kin | apply updPar_kin | apply raiseTrap_kin | split | intro _
    | (apply kin_other; first | assumption | apply bump_kin | apply updPar_kin | apply raiseTrap_kin)
    | (apply kin_other; apply kin_other; first | assumption | apply bump_kin | apply updPar_kin | apply raiseTrap_kin)
    | (apply kin_mk <;> first | assumption | apply bump_kin | apply updPar_kin | apply raiseTrap_kin | (intro w; first | exact w | exact wf_set _ _ w | exact wf_upd _ _ w | exact wf_del _ w | exact wf_keep _ w | exact wf_mapV _ w | exact wf_filter _ w | (simp; done) | (simpa using w) | (rw [length_listSet]; exact w)))

theorem freeRows_kin {a0 : Dev} {d : Dev} (hK : Kin a0 d) : Kin a0 (freeRows d) := by
  unfold freeRows
  try dsimp only
  with_reducible repeat'
    first
    | assumption | apply updPar_kin | apply kin_fst (by assumption) | apply kin_snd (by assumption) | intro _
    | (apply kin_other; first | assumption | apply updPar_kin)
    | (apply kin_other; apply kin_other; first | assumption | apply updPar_kin)
    | (apply kin_mk <;> first | assumption | apply updPar_kin | (intro w; first | exact w | exact wf_set _ _ w | exact wf_upd _ _ w | exact wf_del _ w | exact wf_keep _ w | exact wf_mapV _ w | exact wf_filter _ w | (simp; done) | (simpa using w) | (rw [length_listSet]; exact w)))

theorem foldRow_kin {a0 : Dev} {d : Dev} {key : W64} {job region row off : Nat} {ws : List W64} (hK : Kin a0 d) : Kin a0 (foldRow d key job region row off ws) := by
  unfold foldRow
  try dsimp only
  with_reducible repeat'
    first
    | assumption | apply updPar_kin | apply touchHeld_kin | split | apply kin_fst (by assumption)
    | apply kin_snd (by assumption) | intro _ | (apply kin_other; first | assumption | apply updPar_kin | apply touchHeld_kin)
    | (apply kin_other; apply kin_other; first | assumption | apply updPar_kin | apply touchHeld_kin)
    | (apply kin_mk <;> first | assumption | apply updPar_kin | apply touchHeld_kin | (intro w; first | exact w | exact wf_set _ _ w | exact wf_upd _ _ w | exact wf_del _ w | exact wf_keep _ w | exact wf_mapV _ w | exact wf_filter _ w | (simp; done) | (simpa using w) | (rw [length_listSet]; exact w)))

theorem foldChunk_kin {a0 : Dev} {d : Dev} {a : AccRow} (hK : Kin a0 d) : Kin a0 (foldChunk d a) := by
  unfold foldChunk
  try dsimp only
  with_reducible repeat'
    first
    | assumption | apply readAcc_kin | apply updPar_kin | apply touchHeld_kin | split | apply kin_fst (by assumption)
    | apply kin_snd (by assumption) | intro _
    | (apply kin_other; first | assumption | apply readAcc_kin | apply updPar_kin | apply touchHeld_kin)
    | (apply kin_other; apply kin_other; first | assumption | apply readAcc_kin | apply updPar_kin | apply touchHeld_kin)
    | (apply kin_mk <;> first | assumption | apply readAcc_kin | apply updPar_kin | apply touchHeld_kin | (intro w; first | exact w | exact wf_set _ _ w | exact wf_upd _ _ w | exact wf_del _ w | exact wf_keep _ w | exact wf_mapV _ w | exact wf_filter _ w | (simp; done) | (simpa using w) | (rw [length_listSet]; exact w)))

theorem accSpace_kin {a0 : Dev} {d : Dev} {p : ParPiece} (hK : Kin a0 d) : KinO a0 (accSpace d p) := by
  unfold accSpace
  try dsimp only
  with_reducible repeat'
    first
    | assumption | apply bump_kin | split | exact kinO_none | apply kinO_some | apply kinO_use (by assumption) | intro _

theorem accumulate_kin {a0 : Dev} {d : Dev} {p : ParPiece} (hK : Kin a0 d) : Kin a0 (accumulate d p) := by
  unfold accumulate
  try dsimp only
  with_reducible repeat'
    first
    | assumption | apply updPar_kin | apply writeAcc_kin | apply readAcc_kin | apply step_kin | split
    | apply kin_fst (by assumption) | apply kin_snd (by assumption) | intro _
    | (apply kin_other; first | assumption | apply updPar_kin | apply writeAcc_kin | apply readAcc_kin | apply step_kin)
    | (apply kin_other; apply kin_other; first | assumption | apply updPar_kin | apply writeAcc_kin | apply readAcc_kin | apply step_kin)
    | (apply kin_mk <;> first | assumption | apply updPar_kin | apply writeAcc_kin | apply readAcc_kin | apply step_kin | (intro w; first | exact w | exact wf_set _ _ w | exact wf_upd _ _ w | exact wf_del _ w | exact wf_keep _ w | exact wf_mapV _ w | exact wf_filter _ w | (simp; done) | (simpa using w) | (rw [length_listSet]; exact w)))

theorem placePiece_kin {a0 : Dev} {d : Dev} {p : ParPiece} (hK : Kin a0 d) : Kin a0 (placePiece d p).1 := by
  unfold placePiece
  try dsimp only
  with_reducible repeat'
    first
    | assumption | apply rowSpace_kin | apply unprotect_kin | apply accSpace_kin | apply foldRow_kin | apply accumulate_kin
    | split | apply kin_fst (by assumption) | apply kin_snd (by assumption) | exact kinO_none | apply kinO_some
    | apply kinO_use (by assumption) | intro _

theorem pushRule_kin {a0 : Dev} {d : Dev} {p : ParPiece} (hK : Kin a0 d) : Kin a0 (pushRule d p).1 := by
  unfold pushRule
  try dsimp only
  with_reducible repeat'
    first
    | assumption | apply step_kin | apply placePiece_kin | apply bump_kin | apply updPar_kin | split
    | apply kin_fst (by assumption) | apply kin_snd (by assumption) | intro _
    | (apply kin_other; first | assumption | apply step_kin | apply placePiece_kin | apply bump_kin | apply updPar_kin)
    | (apply kin_other; apply kin_other; first | assumption | apply step_kin | apply placePiece_kin | apply bump_kin | apply updPar_kin)
    | (apply kin_mk <;> first | assumption | apply step_kin | apply placePiece_kin | apply bump_kin | apply updPar_kin | (intro w; first | exact w | exact wf_set _ _ w | exact wf_upd _ _ w | exact wf_del _ w | exact wf_keep _ w | exact wf_mapV _ w | exact wf_filter _ w | (simp; done) | (simpa using w) | (rw [length_listSet]; exact w)))

theorem takePiece_kin {a0 : Dev} {d : Dev} {p : ParPiece} (hK : Kin a0 d) : Kin a0 (takePiece d p).1 := by
  unfold takePiece
  try dsimp only
  with_reducible repeat'
    first
    | assumption | apply step_kin | apply bump_kin | apply updPar_kin | apply placePiece_kin | apply pushRule_kin
    | apply freeRows_kin | split | apply kin_fst (by assumption) | apply kin_snd (by assumption) | intro _
    | (apply kin_other; first | assumption | apply step_kin | apply bump_kin | apply updPar_kin | apply placePiece_kin | apply pushRule_kin | apply freeRows_kin)
    | (apply kin_other; apply kin_other; first | assumption | apply step_kin | apply bump_kin | apply updPar_kin | apply placePiece_kin | apply pushRule_kin | apply freeRows_kin)
    | (apply kin_mk <;> first | assumption | apply step_kin | apply bump_kin | apply updPar_kin | apply placePiece_kin | apply pushRule_kin | apply freeRows_kin | (intro w; first | exact w | exact wf_set _ _ w | exact wf_upd _ _ w | exact wf_del _ w | exact wf_keep _ w | exact wf_mapV _ w | exact wf_filter _ w | (simp; done) | (simpa using w) | (rw [length_listSet]; exact w)))

theorem applyStep_kin {a0 : Dev} {d : Dev} {t : ParStep} (hK : Kin a0 d) : Kin a0 (applyStep d t) := by
  unfold applyStep
  try dsimp only
  with_reducible repeat'
    first
    | assumption | apply step_kin | apply forEach_kin | apply foldChunk_kin | apply freeRows_kin | apply updPar_kin | split
    | intro _
    | (apply kin_other; first | assumption | apply step_kin | apply forEach_kin | apply foldChunk_kin | apply freeRows_kin | apply updPar_kin)
    | (apply kin_other; apply kin_other; first | assumption | apply step_kin | apply forEach_kin | apply foldChunk_kin | apply freeRows_kin | apply updPar_kin)
    | (apply kin_mk <;> first | assumption | apply step_kin | apply forEach_kin | apply foldChunk_kin | apply freeRows_kin | apply updPar_kin | (intro w; first | exact w | exact wf_set _ _ w | exact wf_upd _ _ w | exact wf_del _ w | exact wf_keep _ w | exact wf_mapV _ w | exact wf_filter _ w | (simp; done) | (simpa using w) | (rw [length_listSet]; exact w)))

theorem dropStep_kin {a0 : Dev} {d : Dev} {t : ParStep} (hK : Kin a0 d) : Kin a0 (dropStep d t) := by
  unfold dropStep
  try dsimp only
  with_reducible repeat'
    first
    | assumption | apply step_kin | apply freeRows_kin | apply updPar_kin | split | intro _
    | (apply kin_other; first | assumption | apply step_kin | apply freeRows_kin | apply updPar_kin)
    | (apply kin_other; apply kin_other; first | assumption | apply step_kin | apply freeRows_kin | apply updPar_kin)
    | (apply kin_mk <;> first | assumption | apply step_kin | apply freeRows_kin | apply updPar_kin | (intro w; first | exact w | exact wf_set _ _ w | exact wf_upd _ _ w | exact wf_del _ w | exact wf_keep _ w | exact wf_mapV _ w | exact wf_filter _ w | (simp; done) | (simpa using w) | (rw [length_listSet]; exact w)))

end Sys2Proof.Machine
end

