-- ==== Sys2Proof/Laws/KinLost.lean ====
section
/-!
SUPPORT. Sys2Proof/Laws/KinLost.lean: every operation of Lost.lean keeps time, identity and the form of the tables.
-/
namespace Sys2Proof.Machine
open SMap

theorem sendGroupLive_kin {a0 : Dev} {d : Dev} {pos kind named : Nat} (hK : Kin a0 d) : Kin a0 (sendGroupLive d pos kind named) := by
  unfold sendGroupLive
  try dsimp only
  with_reducible repeat'
    first
    | assumption | apply sendPos_kin | split | apply kin_fst (by assumption) | apply kin_snd (by assumption) | intro _

theorem tellWithdrawn_kin {a0 : Dev} {d : Dev} {j q : Nat} (hK : Kin a0 d) : Kin a0 (tellWithdrawn d j q) := by
  unfold tellWithdrawn
  try dsimp only
  with_reducible repeat'
    first
    | assumption | apply forEach_kin | apply sendOrd_kin | split | apply kin_fst (by assumption)
    | apply kin_snd (by assumption) | intro _

theorem tellLost_kin {a0 : Dev} {d : Dev} {pos : Nat} (hK : Kin a0 d) : Kin a0 (tellLost d pos) := by
  unfold tellLost
  try dsimp only
  with_reducible repeat' first | assumption | apply forEach_kin | apply sendGroupLive_kin | intro _

theorem withdrawSelf_kin {a0 : Dev} {d : Dev} (hK : Kin a0 d) : Kin a0 (withdrawSelf d) := by
  unfold withdrawSelf
  try dsimp only
  with_reducible repeat'
    first
    | assumption | apply forEach_kin | apply raiseTrap_kin | apply stopJob_kin | apply tellWithdrawn_kin | apply updPar_kin
    | apply tellLost_kin | split | apply kin_fst (by assumption) | apply kin_snd (by assumption) | intro _
    | (apply kin_other; first | assumption | apply forEach_kin | apply raiseTrap_kin | apply stopJob_kin | apply tellWithdrawn_kin | apply updPar_kin | apply tellLost_kin)
    | (apply kin_other; apply kin_other; first | assumption | apply forEach_kin | apply raiseTrap_kin | apply stopJob_kin | apply tellWithdrawn_kin | apply updPar_kin | apply tellLost_kin)
    | (apply kin_mk <;> first | assumption | apply forEach_kin | apply raiseTrap_kin | apply stopJob_kin | apply tellWithdrawn_kin | apply updPar_kin | apply tellLost_kin | (intro w; first | exact w | exact wf_set _ _ w | exact wf_upd _ _ w | exact wf_del _ w | exact wf_keep _ w | exact wf_mapV _ w | exact wf_filter _ w | (simp; done) | (simpa using w) | (rw [length_listSet]; exact w)))

theorem areaLost_kin {a0 : Dev} {d : Dev} {u n : Nat} {a : Area} (hK : Kin a0 d) : Kin a0 (areaLost d u n a) := by
  unfold areaLost
  try dsimp only
  with_reducible repeat'
    first
    | assumption | apply memUeSlab_kin | apply parityLost_kin | apply deltaLost_kin | apply memUeTrap_kin
    | apply unitFailCtx_kin | apply withdrawSelf_kin | apply rewriteStripe_kin | split | apply kin_fst (by assumption)
    | apply kin_snd (by assumption) | intro _
    | (apply kin_other; first | assumption | apply memUeSlab_kin | apply parityLost_kin | apply deltaLost_kin | apply memUeTrap_kin | apply unitFailCtx_kin | apply withdrawSelf_kin | apply rewriteStripe_kin)
    | (apply kin_other; apply kin_other; first | assumption | apply memUeSlab_kin | apply parityLost_kin | apply deltaLost_kin | apply memUeTrap_kin | apply unitFailCtx_kin | apply withdrawSelf_kin | apply rewriteStripe_kin)
    | (apply kin_mk <;> first | assumption | apply memUeSlab_kin | apply parityLost_kin | apply deltaLost_kin | apply memUeTrap_kin | apply unitFailCtx_kin | apply withdrawSelf_kin | apply rewriteStripe_kin | (intro w; first | exact w | exact wf_set _ _ w | exact wf_upd _ _ w | exact wf_del _ w | exact wf_keep _ w | exact wf_mapV _ w | exact wf_filter _ w | (simp; done) | (simpa using w) | (rw [length_listSet]; exact w)))

theorem stripeLost_kin {a0 : Dev} {d : Dev} {u n : Nat} (hK : Kin a0 d) : Kin a0 (stripeLost d u n) := by
  unfold stripeLost
  try dsimp only
  with_reducible repeat' first | assumption | apply forEach_kin | apply areaLost_kin | intro _

theorem settleLost_kin {a0 : Dev} {d : Dev} (hK : Kin a0 d) : Kin a0 (settleLost d) := by
  unfold settleLost
  try dsimp only
  with_reducible repeat'
    first
    | assumption | apply forEach_kin | apply updMem_kin | apply stripeLost_kin | split | intro _
    | (apply kin_other; first | assumption | apply forEach_kin | apply updMem_kin | apply stripeLost_kin)
    | (apply kin_other; apply kin_other; first | assumption | apply forEach_kin | apply updMem_kin | apply stripeLost_kin)
    | (apply kin_mk <;> first | assumption | apply forEach_kin | apply updMem_kin | apply stripeLost_kin | (intro w; first | exact w | exact wf_set _ _ w | exact wf_upd _ _ w | exact wf_del _ w | exact wf_keep _ w | exact wf_mapV _ w | exact wf_filter _ w | (simp; done) | (simpa using w) | (rw [length_listSet]; exact w)))

end Sys2Proof.Machine
end

