-- ==== Sys2Proof/Laws/KinContrib.lean ====
section
/-!
SUPPORT. Sys2Proof/Laws/KinContrib.lean: every operation of Contrib.lean keeps time, identity and the form of the tables.
-/
namespace Sys2Proof.Machine
open SMap

theorem contribAns_kin {a0 : Dev} {d : Dev} {port j : Nat} {w1 : W64} {slab status : Nat} (hK : Kin a0 d) : Kin a0 (contribAns d port j w1 slab status) := by
  unfold contribAns
  try dsimp only
  with_reducible repeat'
    first
    | assumption | apply sendPort_kin | intro _ | (apply kin_other; first | assumption | apply sendPort_kin)
    | (apply kin_other; apply kin_other; first | assumption | apply sendPort_kin)
    | (apply kin_mk <;> first | assumption | apply sendPort_kin | (intro w; first | exact w | exact wf_set _ _ w | exact wf_upd _ _ w | exact wf_del _ w | exact wf_keep _ w | exact wf_mapV _ w | exact wf_filter _ w | (simp; done) | (simpa using w) | (rw [length_listSet]; exact w)))

theorem spoilCopy_kin {a0 : Dev} {d : Dev} {k : PktRx} {ctr : Option (Ctr × Nat)} {status : Nat} (hK : Kin a0 d) : Kin a0 (spoilCopy d k ctr status) := by
  unfold spoilCopy
  try dsimp only
  with_reducible repeat'
    first
    | assumption | apply bump_kin | apply contribAns_kin | split | apply kin_fst (by assumption)
    | apply kin_snd (by assumption) | intro _

theorem poisonCtx_kin {a0 : Dev} {d : Dev} {c cause : Nat} {t : TrapInfo} (hK : Kin a0 d) : Kin a0 (poisonCtx d c cause t) := by
  unfold poisonCtx
  try dsimp only
  with_reducible repeat'
    first
    | assumption | apply bump_kin | apply raiseTrap_kin | apply updCtx_kin | apply failCtx_kin | split
    | apply kin_fst (by assumption) | apply kin_snd (by assumption) | intro _
    | (apply kin_other; first | assumption | apply bump_kin | apply raiseTrap_kin | apply updCtx_kin | apply failCtx_kin)
    | (apply kin_other; apply kin_other; first | assumption | apply bump_kin | apply raiseTrap_kin | apply updCtx_kin | apply failCtx_kin)
    | (apply kin_mk <;> first | assumption | apply bump_kin | apply raiseTrap_kin | apply updCtx_kin | apply failCtx_kin | (intro w; first | exact w | exact wf_set _ _ w | exact wf_upd _ _ w | exact wf_del _ w | exact wf_keep _ w | exact wf_mapV _ w | exact wf_filter _ w | (simp; done) | (simpa using w) | (rw [length_listSet]; exact w)))

theorem mismatch_kin {a0 : Dev} {d : Dev} {k : PktRx} {member cause : Nat} (hK : Kin a0 d) : Kin a0 (mismatch d k member cause) := by
  unfold mismatch
  try dsimp only
  with_reducible repeat'
    first
    | assumption | apply spoilCopy_kin | apply poisonCtx_kin | apply bump_kin | split | apply kin_fst (by assumption)
    | apply kin_snd (by assumption) | intro _
    | (apply kin_other; first | assumption | apply spoilCopy_kin | apply poisonCtx_kin | apply bump_kin)
    | (apply kin_other; apply kin_other; first | assumption | apply spoilCopy_kin | apply poisonCtx_kin | apply bump_kin)
    | (apply kin_mk <;> first | assumption | apply spoilCopy_kin | apply poisonCtx_kin | apply bump_kin | (intro w; first | exact w | exact wf_set _ _ w | exact wf_upd _ _ w | exact wf_del _ w | exact wf_keep _ w | exact wf_mapV _ w | exact wf_filter _ w | (simp; done) | (simpa using w) | (rw [length_listSet]; exact w)))

theorem refuseCopy_kin {a0 : Dev} {d : Dev} {k : PktRx} {src : Source} {status : Nat} (hK : Kin a0 d) : Kin a0 (refuseCopy d k src status) := by
  unfold refuseCopy
  try dsimp only
  with_reducible repeat'
    first
    | assumption | apply contribAns_kin | apply updSlot_kin | split | intro _
    | (apply kin_other; first | assumption | apply contribAns_kin | apply updSlot_kin)
    | (apply kin_other; apply kin_other; first | assumption | apply contribAns_kin | apply updSlot_kin)
    | (apply kin_mk <;> first | assumption | apply contribAns_kin | apply updSlot_kin | (intro w; first | exact w | exact wf_set _ _ w | exact wf_upd _ _ w | exact wf_del _ w | exact wf_keep _ w | exact wf_mapV _ w | exact wf_filter _ w | (simp; done) | (simpa using w) | (rw [length_listSet]; exact w)))

theorem receive_kin {a0 : Dev} {d : Dev} {e : Env} {k : PktRx} {src : Source} {member : Nat} {r : RxCopy} (hK : Kin a0 d) : Kin a0 (receive d e k src member r) := by
  unfold receive
  try dsimp only
  with_reducible repeat'
    first
    | assumption | apply bump_kin | apply completeCopy_kin | apply contribAns_kin | apply spill_kin | apply updSlot_kin
    | split | intro _
    | (apply kin_other; first | assumption | apply bump_kin | apply completeCopy_kin | apply contribAns_kin | apply spill_kin | apply updSlot_kin)
    | (apply kin_other; apply kin_other; first | assumption | apply bump_kin | apply completeCopy_kin | apply contribAns_kin | apply spill_kin | apply updSlot_kin)
    | (apply kin_mk <;> first | assumption | apply bump_kin | apply completeCopy_kin | apply contribAns_kin | apply spill_kin | apply updSlot_kin | (intro w; first | exact w | exact wf_set _ _ w | exact wf_upd _ _ w | exact wf_del _ w | exact wf_keep _ w | exact wf_mapV _ w | exact wf_filter _ w | (simp; done) | (simpa using w) | (rw [length_listSet]; exact w)))

theorem seamContrib_kin {a0 : Dev} {d : Dev} {e : Env} {k : PktRx} {src : Source} {member : Nat} (hK : Kin a0 d) : Kin a0 (seamContrib d e k src member) := by
  unfold seamContrib
  try dsimp only
  with_reducible repeat'
    first
    | assumption | apply spoilCopy_kin | apply refuseCopy_kin | apply receive_kin | apply bump_kin | apply countFull_kin
    | split | apply kin_fst (by assumption) | apply kin_snd (by assumption) | intro _
    | (apply kin_other; first | assumption | apply spoilCopy_kin | apply refuseCopy_kin | apply receive_kin | apply bump_kin | apply countFull_kin)
    | (apply kin_other; apply kin_other; first | assumption | apply spoilCopy_kin | apply refuseCopy_kin | apply receive_kin | apply bump_kin | apply countFull_kin)
    | (apply kin_mk <;> first | assumption | apply spoilCopy_kin | apply refuseCopy_kin | apply receive_kin | apply bump_kin | apply countFull_kin | (intro w; first | exact w | exact wf_set _ _ w | exact wf_upd _ _ w | exact wf_del _ w | exact wf_keep _ w | exact wf_mapV _ w | exact wf_filter _ w | (simp; done) | (simpa using w) | (rw [length_listSet]; exact w)))

theorem residueErr_kin {a0 : Dev} {d : Dev} {c b p lane stage : Nat} (hK : Kin a0 d) : Kin a0 (residueErr d c b p lane stage) := by
  unfold residueErr
  try dsimp only
  with_reducible repeat'
    first
    | assumption | apply bump_kin | apply updCtx_kin | apply raiseTrap_kin | apply markJob_kin | apply retireSeam_kin | split
    | apply kin_fst (by assumption) | apply kin_snd (by assumption) | intro _
    | (apply kin_other; first | assumption | apply bump_kin | apply updCtx_kin | apply raiseTrap_kin | apply markJob_kin | apply retireSeam_kin)
    | (apply kin_other; apply kin_other; first | assumption | apply bump_kin | apply updCtx_kin | apply raiseTrap_kin | apply markJob_kin | apply retireSeam_kin)
    | (apply kin_mk <;> first | assumption | apply bump_kin | apply updCtx_kin | apply raiseTrap_kin | apply markJob_kin | apply retireSeam_kin | (intro w; first | exact w | exact wf_set _ _ w | exact wf_upd _ _ w | exact wf_del _ w | exact wf_keep _ w | exact wf_mapV _ w | exact wf_filter _ w | (simp; done) | (simpa using w) | (rw [length_listSet]; exact w)))

theorem seamFault_kin {a0 : Dev} {d : Dev} {residue : Option Residues} {c b p : Nat} (hK : Kin a0 d) : Kin a0 (seamFault d residue c b p) := by
  unfold seamFault
  try dsimp only
  with_reducible repeat'
    first
    | assumption | apply residueErr_kin | split | apply kin_fst (by assumption) | apply kin_snd (by assumption) | intro _

theorem checkContrib_kin {a0 : Dev} {d : Dev} {k : PktRx} (hK : Kin a0 d) : ∀ e, checkContrib d k = .error e → Kin a0 e := by
  intro e
  unfold checkContrib
  try dsimp only
  repeat' split
  all_goals
    intro h
    first
    | (cases h; with_reducible repeat' first | exact hK | apply spoilCopy_kin | apply mismatch_kin)
    | cases h

theorem contrib_kin {a0 : Dev} {d : Dev} {k : PktRx} (hK : Kin a0 d) : Kin a0 (contrib d k) := by
  unfold contrib
  try dsimp only
  with_reducible repeat'
    first
    | assumption | apply spoilCopy_kin | apply seamContrib_kin | exact checkContrib_kin hK _ (by assumption) | split | intro _


theorem execContrib_kin {k : PktRx} {residue : Option Residues} {s : State}  : KinS s (execContrib k residue s) := by
  unfold execContrib
  try dsimp only
  with_reducible repeat'
    first
    | assumption | exact kinS_fault | exact Kin.refl _ | apply onArrival_kin | apply settleLost_kin | apply contrib_kin
    | apply seamFault_kin | intro _

theorem partialAns_kin {a0 : Dev} {d : Dev} {k : PktRx} {status : Nat} (hK : Kin a0 d) : Kin a0 (partialAns d k status) := by
  unfold partialAns
  try dsimp only
  with_reducible repeat' first | assumption | apply sendAddr_kin | intro _

theorem mapMismatch_kin {a0 : Dev} {d : Dev} {k : PktRx} (hK : Kin a0 d) : Kin a0 (mapMismatch d k) := by
  unfold mapMismatch
  try dsimp only
  with_reducible repeat'
    first
    | assumption | apply partialAns_kin | apply bump_kin | apply poisonCtx_kin | split | apply kin_fst (by assumption)
    | apply kin_snd (by assumption) | intro _
    | (apply kin_other; first | assumption | apply partialAns_kin | apply bump_kin | apply poisonCtx_kin)
    | (apply kin_other; apply kin_other; first | assumption | apply partialAns_kin | apply bump_kin | apply poisonCtx_kin)
    | (apply kin_mk <;> first | assumption | apply partialAns_kin | apply bump_kin | apply poisonCtx_kin | (intro w; first | exact w | exact wf_set _ _ w | exact wf_upd _ _ w | exact wf_del _ w | exact wf_keep _ w | exact wf_mapV _ w | exact wf_filter _ w | (simp; done) | (simpa using w) | (rw [length_listSet]; exact w)))

theorem dupPartial_kin {a0 : Dev} {d : Dev} {e : Env} {k : PktRx} (hK : Kin a0 d) : Kin a0 (dupPartial d e k) := by
  unfold dupPartial
  try dsimp only
  with_reducible repeat'
    first
    | assumption | apply bump_kin | apply markJob_kin | apply raiseTrap_kin | apply step_kin | apply partialAns_kin | split
    | apply kin_fst (by assumption) | apply kin_snd (by assumption) | intro _
    | (apply kin_other; first | assumption | apply bump_kin | apply markJob_kin | apply raiseTrap_kin | apply step_kin | apply partialAns_kin)
    | (apply kin_other; apply kin_other; first | assumption | apply bump_kin | apply markJob_kin | apply raiseTrap_kin | apply step_kin | apply partialAns_kin)
    | (apply kin_mk <;> first | assumption | apply bump_kin | apply markJob_kin | apply raiseTrap_kin | apply step_kin | apply partialAns_kin | (intro w; first | exact w | exact wf_set _ _ w | exact wf_upd _ _ w | exact wf_del _ w | exact wf_keep _ w | exact wf_mapV _ w | exact wf_filter _ w | (simp; done) | (simpa using w) | (rw [length_listSet]; exact w)))

theorem takePartial_kin {a0 : Dev} {d : Dev} {e : Env} {k : PktRx} (hK : Kin a0 d) : Kin a0 (takePartial d e k) := by
  unfold takePartial
  try dsimp only
  with_reducible repeat'
    first
    | assumption | apply partialAns_kin | apply bump_kin | apply dupPartial_kin | apply seamEvent_kin | apply holdGroup_kin
    | apply startPass_kin | apply countFull_kin | apply spill_kin | split | intro _
    | (apply kin_other; first | assumption | apply partialAns_kin | apply bump_kin | apply dupPartial_kin | apply seamEvent_kin | apply holdGroup_kin | apply startPass_kin | apply countFull_kin | apply spill_kin)
    | (apply kin_other; apply kin_other; first | assumption | apply partialAns_kin | apply bump_kin | apply dupPartial_kin | apply seamEvent_kin | apply holdGroup_kin | apply startPass_kin | apply countFull_kin | apply spill_kin)
    | (apply kin_mk <;> first | assumption | apply partialAns_kin | apply bump_kin | apply dupPartial_kin | apply seamEvent_kin | apply holdGroup_kin | apply startPass_kin | apply countFull_kin | apply spill_kin | (intro w; first | exact w | exact wf_set _ _ w | exact wf_upd _ _ w | exact wf_del _ w | exact wf_keep _ w | exact wf_mapV _ w | exact wf_filter _ w | (simp; done) | (simpa using w) | (rw [length_listSet]; exact w)))

theorem partialIn_kin {a0 : Dev} {d : Dev} {k : PktRx} (hK : Kin a0 d) : Kin a0 (partialIn d k) := by
  unfold partialIn
  try dsimp only
  with_reducible repeat'
    first
    | assumption | apply partialAns_kin | apply bump_kin | apply poisonCtx_kin | apply mapMismatch_kin | apply takePartial_kin
    | split | apply kin_fst (by assumption) | apply kin_snd (by assumption) | intro _
    | (apply kin_other; first | assumption | apply partialAns_kin | apply bump_kin | apply poisonCtx_kin | apply mapMismatch_kin | apply takePartial_kin)
    | (apply kin_other; apply kin_other; first | assumption | apply partialAns_kin | apply bump_kin | apply poisonCtx_kin | apply mapMismatch_kin | apply takePartial_kin)
    | (apply kin_mk <;> first | assumption | apply partialAns_kin | apply bump_kin | apply poisonCtx_kin | apply mapMismatch_kin | apply takePartial_kin | (intro w; first | exact w | exact wf_set _ _ w | exact wf_upd _ _ w | exact wf_del _ w | exact wf_keep _ w | exact wf_mapV _ w | exact wf_filter _ w | (simp; done) | (simpa using w) | (rw [length_listSet]; exact w)))

theorem execPartialRx_kin {k : PktRx} {residue : Option Residues} {s : State}  : KinS s (execPartialRx k residue s) := by
  unfold execPartialRx
  try dsimp only
  with_reducible repeat'
    first
    | assumption | exact kinS_fault | exact Kin.refl _ | apply onArrival_kin | apply settleLost_kin | apply replayAll_kin
    | apply partialIn_kin | apply seamFault_kin | intro _

theorem partialAnsIn_kin {a0 : Dev} {d : Dev} {k : PktRx} (hK : Kin a0 d) : Kin a0 (partialAnsIn d k) := by
  unfold partialAnsIn
  try dsimp only
  with_reducible repeat'
    first
    | assumption | apply updPass_kin | apply spill_kin | apply ackPasses_kin | apply dropSpilled_kin | apply bump_kin | split
    | intro _
    | (apply kin_other; first | assumption | apply updPass_kin | apply spill_kin | apply ackPasses_kin | apply dropSpilled_kin | apply bump_kin)
    | (apply kin_other; apply kin_other; first | assumption | apply updPass_kin | apply spill_kin | apply ackPasses_kin | apply dropSpilled_kin | apply bump_kin)
    | (apply kin_mk <;> first | assumption | apply updPass_kin | apply spill_kin | apply ackPasses_kin | apply dropSpilled_kin | apply bump_kin | (intro w; first | exact w | exact wf_set _ _ w | exact wf_upd _ _ w | exact wf_del _ w | exact wf_keep _ w | exact wf_mapV _ w | exact wf_filter _ w | (simp; done) | (simpa using w) | (rw [length_listSet]; exact w)))

theorem execPartialAns_kin {k : PktRx} {s : State}  : KinS s (execPartialAns k s) := by
  unfold execPartialAns
  try dsimp only
  with_reducible repeat'
    first
    | assumption | exact kinS_fault | exact Kin.refl _ | apply onArrival_kin | apply settleLost_kin | apply replayAll_kin
    | apply partialAnsIn_kin | intro _

theorem resendPartials_kin {a0 : Dev} {d : Dev} {due : HeldPartial → Bool} (hK : Kin a0 d) : Kin a0 (resendPartials d due) := by
  unfold resendPartials
  try dsimp only
  with_reducible repeat'
    first
    | assumption | apply forEach_kin | apply bump_kin | apply sendPartialPkt_kin | split | apply kin_fst (by assumption)
    | apply kin_snd (by assumption) | intro _

theorem execPartialRetry_kin {s : State}  : KinS s (execPartialRetry s) := by
  unfold execPartialRetry
  try dsimp only
  with_reducible repeat'
    first
    | assumption | exact kinS_fault | exact Kin.refl _ | apply onDev_kin | apply resendPartials_kin | intro _

theorem execPartialTimeout_kin {s : State}  : KinS s (execPartialTimeout s) := by
  unfold execPartialTimeout
  try dsimp only
  with_reducible repeat'
    first
    | assumption | exact kinS_fault | exact Kin.refl _ | apply onDev_kin | apply resendPartials_kin | intro _

theorem lateCtx_kin {a0 : Dev} {d : Dev} {e : Env} {c cause : Nat} {t : TrapInfo} (hK : Kin a0 d) : Kin a0 (lateCtx d e c cause t) := by
  unfold lateCtx
  try dsimp only
  with_reducible repeat'
    first
    | assumption | apply raiseTrap_kin | apply updCtx_kin | apply failCtx_kin | split | intro _
    | (apply kin_other; first | assumption | apply raiseTrap_kin | apply updCtx_kin | apply failCtx_kin)
    | (apply kin_other; apply kin_other; first | assumption | apply raiseTrap_kin | apply updCtx_kin | apply failCtx_kin)
    | (apply kin_mk <;> first | assumption | apply raiseTrap_kin | apply updCtx_kin | apply failCtx_kin | (intro w; first | exact w | exact wf_set _ _ w | exact wf_upd _ _ w | exact wf_del _ w | exact wf_keep _ w | exact wf_mapV _ w | exact wf_filter _ w | (simp; done) | (simpa using w) | (rw [length_listSet]; exact w)))

theorem lateAgain_kin {a0 : Dev} {d : Dev} {c b p : Nat} {f : PassRed → PassRed} (hK : Kin a0 d) : Kin a0 (lateAgain d c b p f) := by
  unfold lateAgain
  try dsimp only
  with_reducible repeat' first | assumption | apply bump_kin | apply updPass_kin | intro _

theorem fillHeld_kin {a0 : Dev} {d : Dev} {e : Env} {c b p : Nat} (hK : Kin a0 d) : Kin a0 (fillHeld d e c b p) := by
  unfold fillHeld
  try dsimp only
  with_reducible repeat'
    first
    | assumption | apply forEach_kin | apply fillSlot_kin | split | apply kin_fst (by assumption)
    | apply kin_snd (by assumption) | intro _

theorem slotExpiry_kin {a0 : Dev} {d : Dev} {c b p : Nat} (hK : Kin a0 d) : Kin a0 (slotExpiry d c b p) := by
  unfold slotExpiry
  try dsimp only
  with_reducible repeat'
    first
    | assumption | apply lateAgain_kin | apply fillHeld_kin | apply updPass_kin | apply lateCtx_kin | apply spill_kin | split
    | apply kin_fst (by assumption) | apply kin_snd (by assumption) | intro _
    | (apply kin_other; first | assumption | apply lateAgain_kin | apply fillHeld_kin | apply updPass_kin | apply lateCtx_kin | apply spill_kin)
    | (apply kin_other; apply kin_other; first | assumption | apply lateAgain_kin | apply fillHeld_kin | apply updPass_kin | apply lateCtx_kin | apply spill_kin)
    | (apply kin_mk <;> first | assumption | apply lateAgain_kin | apply fillHeld_kin | apply updPass_kin | apply lateCtx_kin | apply spill_kin | (intro w; first | exact w | exact wf_set _ _ w | exact wf_upd _ _ w | exact wf_del _ w | exact wf_keep _ w | exact wf_mapV _ w | exact wf_filter _ w | (simp; done) | (simpa using w) | (rw [length_listSet]; exact w)))

theorem execSlotClockExpiry_kin {ctx slab : Nat} {clock : PassClock} {s : State}  : KinS s (execSlotClockExpiry ctx slab clock s) := by
  unfold execSlotClockExpiry
  try dsimp only
  with_reducible repeat'
    first
    | assumption | exact kinS_fault | exact Kin.refl _ | apply onUnit_kin | apply seamFault_kin | apply settleLost_kin
    | apply replayAll_kin | apply slotExpiry_kin | intro _

theorem partialExpiry_kin {a0 : Dev} {d : Dev} {c b p : Nat} (hK : Kin a0 d) : Kin a0 (partialExpiry d c b p) := by
  unfold partialExpiry
  try dsimp only
  with_reducible repeat'
    first
    | assumption | apply lateAgain_kin | apply lateCtx_kin | apply updPass_kin | split | apply kin_fst (by assumption)
    | apply kin_snd (by assumption) | intro _
    | (apply kin_other; first | assumption | apply lateAgain_kin | apply lateCtx_kin | apply updPass_kin)
    | (apply kin_other; apply kin_other; first | assumption | apply lateAgain_kin | apply lateCtx_kin | apply updPass_kin)
    | (apply kin_mk <;> first | assumption | apply lateAgain_kin | apply lateCtx_kin | apply updPass_kin | (intro w; first | exact w | exact wf_set _ _ w | exact wf_upd _ _ w | exact wf_del _ w | exact wf_keep _ w | exact wf_mapV _ w | exact wf_filter _ w | (simp; done) | (simpa using w) | (rw [length_listSet]; exact w)))

theorem execPartialClockExpiry_kin {ctx slab pass : Nat} {s : State}  : KinS s (execPartialClockExpiry ctx slab pass s) := by
  unfold execPartialClockExpiry
  try dsimp only
  with_reducible repeat'
    first
    | assumption | exact kinS_fault | exact Kin.refl _ | apply onUnit_kin | apply partialExpiry_kin | intro _

theorem execKeptCopyExpiry_kin {ctx slab pass rank : Nat} {s : State}  : KinS s (execKeptCopyExpiry ctx slab pass rank s) := by
  unfold execKeptCopyExpiry
  try dsimp only
  with_reducible repeat'
    first
    | assumption | exact kinS_fault | exact Kin.refl _ | apply onUnit_kin | apply dropSpilled_kin | apply spill_kin
    | apply bump_kin | apply updSlot_kin | split | apply kin_fst (by assumption) | apply kin_snd (by assumption) | intro _
    | (apply kin_other; first | assumption | exact kinS_fault | exact Kin.refl _ | apply onUnit_kin | apply dropSpilled_kin | apply spill_kin | apply bump_kin | apply updSlot_kin)
    | (apply kin_other; apply kin_other; first | assumption | exact kinS_fault | exact Kin.refl _ | apply onUnit_kin | apply dropSpilled_kin | apply spill_kin | apply bump_kin | apply updSlot_kin)
    | (apply kin_mk <;> first | assumption | exact kinS_fault | exact Kin.refl _ | apply onUnit_kin | apply dropSpilled_kin | apply spill_kin | apply bump_kin | apply updSlot_kin | (intro w; first | exact w | exact wf_set _ _ w | exact wf_upd _ _ w | exact wf_del _ w | exact wf_keep _ w | exact wf_mapV _ w | exact wf_filter _ w | (simp; done) | (simpa using w) | (rw [length_listSet]; exact w)))

theorem execRefill_kin {ctx pos : Nat} {s : State}  : KinS s (execRefill ctx pos s) := by
  unfold execRefill
  try dsimp only
  with_reducible repeat'
    first
    | assumption | exact kinS_fault | exact Kin.refl _ | apply onUnit_kin | apply settleLost_kin | apply replayAll_kin
    | apply refill_kin | split | intro _

theorem sampleDiffer_kin {a0 : Dev} {d : Dev} {c b chk value p lane : Nat} (hK : Kin a0 d) : Kin a0 (sampleDiffer d c b chk value p lane) := by
  unfold sampleDiffer
  try dsimp only
  with_reducible repeat'
    first
    | assumption | apply bump_kin | apply updRed_kin | apply raiseTrap_kin | apply step_kin | apply markJob_kin | split
    | apply kin_fst (by assumption) | apply kin_snd (by assumption) | intro _
    | (apply kin_other; first | assumption | apply bump_kin | apply updRed_kin | apply raiseTrap_kin | apply step_kin | apply markJob_kin)
    | (apply kin_other; apply kin_other; first | assumption | apply bump_kin | apply updRed_kin | apply raiseTrap_kin | apply step_kin | apply markJob_kin)
    | (apply kin_mk <;> first | assumption | apply bump_kin | apply updRed_kin | apply raiseTrap_kin | apply step_kin | apply markJob_kin | (intro w; first | exact w | exact wf_set _ _ w | exact wf_upd _ _ w | exact wf_del _ w | exact wf_keep _ w | exact wf_mapV _ w | exact wf_filter _ w | (simp; done) | (simpa using w) | (rw [length_listSet]; exact w)))

theorem checkResidue_kin {a0 : Dev} {d : Dev} {chk : Nat} {r : Residues} (hK : Kin a0 d) : Kin a0 (checkResidue d chk r) := by
  unfold checkResidue
  try dsimp only
  with_reducible repeat'
    first
    | assumption | apply raiseTrap_kin | apply bump_kin | apply retireSeam_kin | split | intro _
    | (apply kin_other; first | assumption | apply raiseTrap_kin | apply bump_kin | apply retireSeam_kin)
    | (apply kin_other; apply kin_other; first | assumption | apply raiseTrap_kin | apply bump_kin | apply retireSeam_kin)
    | (apply kin_mk <;> first | assumption | apply raiseTrap_kin | apply bump_kin | apply retireSeam_kin | (intro w; first | exact w | exact wf_set _ _ w | exact wf_upd _ _ w | exact wf_del _ w | exact wf_keep _ w | exact wf_mapV _ w | exact wf_filter _ w | (simp; done) | (simpa using w) | (rw [length_listSet]; exact w)))

theorem sampleAfter_kin {a0 : Dev} {d : Dev} {c b act : Nat} {how : SampleEnd} (hK : Kin a0 d) : Kin a0 (sampleAfter d c b act how) := by
  unfold sampleAfter
  try dsimp only
  with_reducible repeat'
    first
    | assumption | apply updCtx_kin | apply updRed_kin | apply bump_kin | apply checkResidue_kin | split
    | apply kin_fst (by assumption) | apply kin_snd (by assumption) | intro _
    | (apply kin_other; first | assumption | apply updCtx_kin | apply updRed_kin | apply bump_kin | apply checkResidue_kin)
    | (apply kin_other; apply kin_other; first | assumption | apply updCtx_kin | apply updRed_kin | apply bump_kin | apply checkResidue_kin)
    | (apply kin_mk <;> first | assumption | apply updCtx_kin | apply updRed_kin | apply bump_kin | apply checkResidue_kin | (intro w; first | exact w | exact wf_set _ _ w | exact wf_upd _ _ w | exact wf_del _ w | exact wf_keep _ w | exact wf_mapV _ w | exact wf_filter _ w | (simp; done) | (simpa using w) | (rw [length_listSet]; exact w)))

theorem sampleDone_kin {a0 : Dev} {d : Dev} {c b : Nat} {how : SampleEnd} (hK : Kin a0 d) : Kin a0 (sampleDone d c b how) := by
  unfold sampleDone
  try dsimp only
  with_reducible repeat'
    first
    | assumption | apply sampleAfter_kin | apply bump_kin | apply updRed_kin | apply sampleDiffer_kin | apply checkResidue_kin
    | split | apply kin_fst (by assumption) | apply kin_snd (by assumption) | intro _
    | (apply kin_other; first | assumption | apply sampleAfter_kin | apply bump_kin | apply updRed_kin | apply sampleDiffer_kin | apply checkResidue_kin)
    | (apply kin_other; apply kin_other; first | assumption | apply sampleAfter_kin | apply bump_kin | apply updRed_kin | apply sampleDiffer_kin | apply checkResidue_kin)
    | (apply kin_mk <;> first | assumption | apply sampleAfter_kin | apply bump_kin | apply updRed_kin | apply sampleDiffer_kin | apply checkResidue_kin | (intro w; first | exact w | exact wf_set _ _ w | exact wf_upd _ _ w | exact wf_del _ w | exact wf_keep _ w | exact wf_mapV _ w | exact wf_filter _ w | (simp; done) | (simpa using w) | (rw [length_listSet]; exact w)))

theorem execSampleComplete_kin {ctx slab : Nat} {how : SampleEnd} {s : State}  : KinS s (execSampleComplete ctx slab how s) := by
  unfold execSampleComplete
  try dsimp only
  with_reducible repeat'
    first
    | assumption | exact kinS_fault | exact Kin.refl _ | apply onUnit_kin | apply poolsSettle_kin | apply sampleDone_kin
    | intro _

theorem msgAck_kin {a0 : Dev} {d : Dev} {k : PktRx} (hK : Kin a0 d) : Kin a0 (msgAck d k) := by
  unfold msgAck
  try dsimp only
  with_reducible repeat'
    first
    | assumption | apply sendAddr_kin | split | apply kin_fst (by assumption) | apply kin_snd (by assumption) | intro _

theorem noticeIn_kin {a0 : Dev} {d : Dev} {k : PktRx} {status cause : Nat} (hK : Kin a0 d) : Kin a0 (noticeIn d k status cause) := by
  unfold noticeIn
  try dsimp only
  with_reducible repeat'
    first
    | assumption | apply msgAck_kin | apply bump_kin | apply failCtx_kin | split | apply kin_fst (by assumption)
    | apply kin_snd (by assumption) | intro _

theorem execCtxFail_kin {k : PktRx} {s : State}  : KinS s (execCtxFail k s) := by
  unfold execCtxFail
  try dsimp only
  with_reducible repeat'
    first
    | assumption | exact kinS_fault | exact Kin.refl _ | apply onArrival_kin | apply noticeIn_kin | intro _

theorem execPoison_kin {k : PktRx} {s : State}  : KinS s (execPoison k s) := by
  unfold execPoison
  try dsimp only
  with_reducible repeat'
    first
    | assumption | exact kinS_fault | exact Kin.refl _ | apply onArrival_kin | apply noticeIn_kin | split
    | apply kin_fst (by assumption) | apply kin_snd (by assumption) | intro _

end Sys2Proof.Machine
end

