-- ==== Sys2Proof/Laws/KinSeal.lean ====
section
/-!
SUPPORT. Sys2Proof/Laws/KinSeal.lean: every operation of Seal.lean keeps time, identity and the form of the tables.
-/
namespace Sys2Proof.Machine
open SMap

theorem updNorm_kin {a0 : Dev} {d : Dev} {j : Nat} {f : NormSt → NormSt} (hK : Kin a0 d) : Kin a0 (updNorm d j f) := by
  unfold updNorm
  try dsimp only
  with_reducible repeat'
    first
    | assumption | apply updJob_kin | intro _ | (apply kin_other; first | assumption | apply updJob_kin)
    | (apply kin_other; apply kin_other; first | assumption | apply updJob_kin)
    | (apply kin_mk <;> first | assumption | apply updJob_kin | (intro w; first | exact w | exact wf_set _ _ w | exact wf_upd _ _ w | exact wf_del _ w | exact wf_keep _ w | exact wf_mapV _ w | exact wf_filter _ w | (simp; done) | (simpa using w) | (rw [length_listSet]; exact w)))

theorem normOverflow_kin {a0 : Dev} {d : Dev} {j : Nat} (hK : Kin a0 d) : Kin a0 (normOverflow d j) := by
  unfold normOverflow
  try dsimp only
  with_reducible repeat'
    first
    | assumption | apply updJob_kin | apply markJob_kin | apply nfTrap_kin | intro _
    | (apply kin_other; first | assumption | apply updJob_kin | apply markJob_kin | apply nfTrap_kin)
    | (apply kin_other; apply kin_other; first | assumption | apply updJob_kin | apply markJob_kin | apply nfTrap_kin)
    | (apply kin_mk <;> first | assumption | apply updJob_kin | apply markJob_kin | apply nfTrap_kin | (intro w; first | exact w | exact wf_set _ _ w | exact wf_upd _ _ w | exact wf_del _ w | exact wf_keep _ w | exact wf_mapV _ w | exact wf_filter _ w | (simp; done) | (simpa using w) | (rw [length_listSet]; exact w)))

theorem normEval_kin {a0 : Dev} {d : Dev} {j : Nat} (hK : Kin a0 d) : Kin a0 (normEval d j) := by
  unfold normEval
  try dsimp only
  with_reducible repeat'
    first
    | assumption | apply updNorm_kin | apply bumpBy_kin | apply normOverflow_kin | apply kinO_getD | split
    | apply kin_fst (by assumption) | apply kin_snd (by assumption) | intro _
    | (apply kin_other; first | assumption | apply updNorm_kin | apply bumpBy_kin | apply normOverflow_kin | apply kinO_getD)
    | (apply kin_other; apply kin_other; first | assumption | apply updNorm_kin | apply bumpBy_kin | apply normOverflow_kin | apply kinO_getD)
    | (apply kin_mk <;> first | assumption | apply updNorm_kin | apply bumpBy_kin | apply normOverflow_kin | apply kinO_getD | (intro w; first | exact w | exact wf_set _ _ w | exact wf_upd _ _ w | exact wf_del _ w | exact wf_keep _ w | exact wf_mapV _ w | exact wf_filter _ w | (simp; done) | (simpa using w) | (rw [length_listSet]; exact w)))

theorem formNorm_kin {a0 : Dev} {d : Dev} {j : Nat} (hK : Kin a0 d) : Kin a0 (formNorm d j) := by
  unfold formNorm
  try dsimp only
  with_reducible repeat'
    first
    | assumption | apply updNorm_kin | apply forEach_kin | apply nextMsg_kin | apply sendHeld_kin | apply normOverflow_kin
    | apply normEval_kin | apply kinO_getD | split | apply kin_fst (by assumption) | apply kin_snd (by assumption) | intro _
    | (apply kin_other; first | assumption | apply updNorm_kin | apply forEach_kin | apply nextMsg_kin | apply sendHeld_kin | apply normOverflow_kin | apply normEval_kin | apply kinO_getD)
    | (apply kin_other; apply kin_other; first | assumption | apply updNorm_kin | apply forEach_kin | apply nextMsg_kin | apply sendHeld_kin | apply normOverflow_kin | apply normEval_kin | apply kinO_getD)
    | (apply kin_mk <;> first | assumption | apply updNorm_kin | apply forEach_kin | apply nextMsg_kin | apply sendHeld_kin | apply normOverflow_kin | apply normEval_kin | apply kinO_getD | (intro w; first | exact w | exact wf_set _ _ w | exact wf_upd _ _ w | exact wf_del _ w | exact wf_keep _ w | exact wf_mapV _ w | exact wf_filter _ w | (simp; done) | (simpa using w) | (rw [length_listSet]; exact w)))

theorem execFormNormPartial_kin {job : Nat} {s : State}  : KinS s (execFormNormPartial job s) := by
  unfold execFormNormPartial
  try dsimp only
  with_reducible repeat'
    first
    | assumption | exact kinS_fault | exact Kin.refl _ | apply onUnit_kin | apply formNorm_kin | intro _

theorem takeNorm_kin {a0 : Dev} {d : Dev} {j : Nat} {w : List W64} (hK : Kin a0 d) : Kin a0 (takeNorm d j w) := by
  unfold takeNorm
  try dsimp only
  with_reducible repeat'
    first
    | assumption | apply normEval_kin | apply updNorm_kin | split | apply kin_fst (by assumption)
    | apply kin_snd (by assumption) | intro _ | (apply kin_other; first | assumption | apply normEval_kin | apply updNorm_kin)
    | (apply kin_other; apply kin_other; first | assumption | apply normEval_kin | apply updNorm_kin)
    | (apply kin_mk <;> first | assumption | apply normEval_kin | apply updNorm_kin | (intro w; first | exact w | exact wf_set _ _ w | exact wf_upd _ _ w | exact wf_del _ w | exact wf_keep _ w | exact wf_mapV _ w | exact wf_filter _ w | (simp; done) | (simpa using w) | (rw [length_listSet]; exact w)))

theorem sealDup_kin {a0 : Dev} {d : Dev} (hK : Kin a0 d) : Kin a0 (sealDup d) := by
  unfold sealDup
  try dsimp only
  with_reducible repeat' first | assumption | apply bump_kin | intro _

theorem queryIn_kin {a0 : Dev} {d : Dev} {j : Nat} {jb : Job} {f : SealF} (hK : Kin a0 d) : Kin a0 (queryIn d j jb f) := by
  unfold queryIn
  try dsimp only
  with_reducible repeat' first | assumption | apply step_kin | apply queryAnswer_kin | split | intro _

theorem sealNow_kin {a0 : Dev} {d : Dev} {j : Nat} {jb : Job} {f : SealF} (hK : Kin a0 d) : Kin a0 (sealNow d j jb f) := by
  unfold sealNow
  try dsimp only
  with_reducible repeat'
    first
    | assumption | apply requestSeal_kin | apply takeYes_kin | apply decideAbort_kin | apply sendSealOf_kin
    | apply writeCommit_kin | apply step_kin | apply trySealEnd_kin | apply updSeal_kin | apply beginAbort_kin
    | apply takeAbortAck_kin | apply queryIn_kin | split | apply kin_fst (by assumption) | apply kin_snd (by assumption)
    | intro _
    | (apply kin_other; first | assumption | apply requestSeal_kin | apply takeYes_kin | apply decideAbort_kin | apply sendSealOf_kin | apply writeCommit_kin | apply step_kin | apply trySealEnd_kin | apply updSeal_kin | apply beginAbort_kin | apply takeAbortAck_kin | apply queryIn_kin)
    | (apply kin_other; apply kin_other; first | assumption | apply requestSeal_kin | apply takeYes_kin | apply decideAbort_kin | apply sendSealOf_kin | apply writeCommit_kin | apply step_kin | apply trySealEnd_kin | apply updSeal_kin | apply beginAbort_kin | apply takeAbortAck_kin | apply queryIn_kin)
    | (apply kin_mk <;> first | assumption | apply requestSeal_kin | apply takeYes_kin | apply decideAbort_kin | apply sendSealOf_kin | apply writeCommit_kin | apply step_kin | apply trySealEnd_kin | apply updSeal_kin | apply beginAbort_kin | apply takeAbortAck_kin | apply queryIn_kin | (intro w; first | exact w | exact wf_set _ _ w | exact wf_upd _ _ w | exact wf_del _ w | exact wf_keep _ w | exact wf_mapV _ w | exact wf_filter _ w | (simp; done) | (simpa using w) | (rw [length_listSet]; exact w)))

theorem sealLast_kin {a0 : Dev} {d : Dev} {j : Nat} {jb : Job} {f : SealF} (hK : Kin a0 d) : Kin a0 (sealLast d j jb f) := by
  unfold sealLast
  try dsimp only
  with_reducible repeat'
    first
    | assumption | apply sendSealOf_kin | apply step_kin | apply trySealEnd_kin | apply updSeal_kin | apply sealDone_kin
    | apply queryIn_kin | split | apply kin_fst (by assumption) | apply kin_snd (by assumption) | intro _
    | (apply kin_other; first | assumption | apply sendSealOf_kin | apply step_kin | apply trySealEnd_kin | apply updSeal_kin | apply sealDone_kin | apply queryIn_kin)
    | (apply kin_other; apply kin_other; first | assumption | apply sendSealOf_kin | apply step_kin | apply trySealEnd_kin | apply updSeal_kin | apply sealDone_kin | apply queryIn_kin)
    | (apply kin_mk <;> first | assumption | apply sendSealOf_kin | apply step_kin | apply trySealEnd_kin | apply updSeal_kin | apply sealDone_kin | apply queryIn_kin | (intro w; first | exact w | exact wf_set _ _ w | exact wf_upd _ _ w | exact wf_del _ w | exact wf_keep _ w | exact wf_mapV _ w | exact wf_filter _ w | (simp; done) | (simpa using w) | (rw [length_listSet]; exact w)))

theorem sealLeft_kin {a0 : Dev} {d : Dev} {j : Nat} {jb : Job} {f : SealF} (hK : Kin a0 d) : Kin a0 (sealLeft d j jb f) := by
  unfold sealLeft
  try dsimp only
  with_reducible repeat'
    first
    | assumption | apply step_kin | apply takeAbortAck_kin | apply queryIn_kin | apply sealDup_kin | apply sendSealOf_kin
    | split | intro _
    | (apply kin_other; first | assumption | apply step_kin | apply takeAbortAck_kin | apply queryIn_kin | apply sealDup_kin | apply sendSealOf_kin)
    | (apply kin_other; apply kin_other; first | assumption | apply step_kin | apply takeAbortAck_kin | apply queryIn_kin | apply sealDup_kin | apply sendSealOf_kin)
    | (apply kin_mk <;> first | assumption | apply step_kin | apply takeAbortAck_kin | apply queryIn_kin | apply sealDup_kin | apply sendSealOf_kin | (intro w; first | exact w | exact wf_set _ _ w | exact wf_upd _ _ w | exact wf_del _ w | exact wf_keep _ w | exact wf_mapV _ w | exact wf_filter _ w | (simp; done) | (simpa using w) | (rw [length_listSet]; exact w)))

theorem takeSeal_kin {a0 : Dev} {d : Dev} {j : Nat} {w : List W64} (hK : Kin a0 d) : Kin a0 (takeSeal d j w) := by
  unfold takeSeal
  try dsimp only
  with_reducible repeat'
    first
    | assumption | apply step_kin | apply sealLeft_kin | apply sealDup_kin | apply sealLast_kin | apply updSeal_kin
    | apply sealNow_kin | split | apply kin_fst (by assumption) | apply kin_snd (by assumption) | intro _
    | (apply kin_other; first | assumption | apply step_kin | apply sealLeft_kin | apply sealDup_kin | apply sealLast_kin | apply updSeal_kin | apply sealNow_kin)
    | (apply kin_other; apply kin_other; first | assumption | apply step_kin | apply sealLeft_kin | apply sealDup_kin | apply sealLast_kin | apply updSeal_kin | apply sealNow_kin)
    | (apply kin_mk <;> first | assumption | apply step_kin | apply sealLeft_kin | apply sealDup_kin | apply sealLast_kin | apply updSeal_kin | apply sealNow_kin | (intro w; first | exact w | exact wf_set _ _ w | exact wf_upd _ _ w | exact wf_del _ w | exact wf_keep _ w | exact wf_mapV _ w | exact wf_filter _ w | (simp; done) | (simpa using w) | (rw [length_listSet]; exact w)))

theorem takeMsg_kin {a0 : Dev} {d : Dev} {j : Nat} {k : PktRx} (hK : Kin a0 d) : Kin a0 (takeMsg d j k) := by
  unfold takeMsg
  try dsimp only
  with_reducible repeat'
    first
    | assumption | apply takeNorm_kin | apply takeSeal_kin | split | apply kin_fst (by assumption)
    | apply kin_snd (by assumption) | intro _

theorem flushEarly_kin {a0 : Dev} {j : Nat} {y0 : Nat} {y1 : Dev} (hK : Kin a0 y1) : Kin a0 (flushEarly j y0 y1) := by
  induction y0 generalizing j y1 with
  | zero =>
    unfold flushEarly
    try dsimp only
    with_reducible repeat'
      first
      | assumption | apply takeMsg_kin | apply updJob_kin | split | apply kin_fst (by assumption)
      | apply kin_snd (by assumption) | intro _ | (apply kin_other; first | assumption | apply takeMsg_kin | apply updJob_kin)
      | (apply kin_other; apply kin_other; first | assumption | apply takeMsg_kin | apply updJob_kin)
      | (apply kin_mk <;> first | assumption | apply takeMsg_kin | apply updJob_kin | (intro w; first | exact w | exact wf_set _ _ w | exact wf_upd _ _ w | exact wf_del _ w | exact wf_keep _ w | exact wf_mapV _ w | exact wf_filter _ w | (simp; done) | (simpa using w) | (rw [length_listSet]; exact w)))
  | succ k ih =>
    unfold flushEarly
    try dsimp only
    with_reducible repeat'
      first
      | assumption | apply ih | apply takeMsg_kin | apply updJob_kin | split | apply kin_fst (by assumption)
      | apply kin_snd (by assumption) | intro _ | (apply kin_other; first | assumption | apply takeMsg_kin | apply updJob_kin)
      | (apply kin_other; apply kin_other; first | assumption | apply takeMsg_kin | apply updJob_kin)
      | (apply kin_mk <;> first | assumption | apply takeMsg_kin | apply updJob_kin | (intro w; first | exact w | exact wf_set _ _ w | exact wf_upd _ _ w | exact wf_del _ w | exact wf_keep _ w | exact wf_mapV _ w | exact wf_filter _ w | (simp; done) | (simpa using w) | (rw [length_listSet]; exact w)))

theorem flushJob_kin {a0 : Dev} {d : Dev} {j : Nat} (hK : Kin a0 d) : Kin a0 (flushJob d j) := by
  unfold flushJob
  try dsimp only
  with_reducible repeat'
    first
    | assumption | apply settleLost_kin | apply flushEarly_kin | split | apply kin_fst (by assumption)
    | apply kin_snd (by assumption) | intro _

theorem flushAll_kin {a0 : Dev} {d : Dev} (hK : Kin a0 d) : Kin a0 (flushAll d) := by
  unfold flushAll
  try dsimp only
  with_reducible repeat'
    first
    | assumption | apply replayAll_kin | apply forEach_kin | apply settleLost_kin | apply flushJob_kin | intro _

theorem msgIn_kin {a0 : Dev} {d : Dev} {k : PktRx} (hK : Kin a0 d) : Kin a0 (msgIn d k) := by
  unfold msgIn
  try dsimp only
  with_reducible repeat'
    first
    | assumption | apply msgAck_kin | apply sealDup_kin | apply updJob_kin | apply flushJob_kin | apply takeMsg_kin | split
    | apply kin_fst (by assumption) | apply kin_snd (by assumption) | intro _
    | (apply kin_other; first | assumption | apply msgAck_kin | apply sealDup_kin | apply updJob_kin | apply flushJob_kin | apply takeMsg_kin)
    | (apply kin_other; apply kin_other; first | assumption | apply msgAck_kin | apply sealDup_kin | apply updJob_kin | apply flushJob_kin | apply takeMsg_kin)
    | (apply kin_mk <;> first | assumption | apply msgAck_kin | apply sealDup_kin | apply updJob_kin | apply flushJob_kin | apply takeMsg_kin | (intro w; first | exact w | exact wf_set _ _ w | exact wf_upd _ _ w | exact wf_del _ w | exact wf_keep _ w | exact wf_mapV _ w | exact wf_filter _ w | (simp; done) | (simpa using w) | (rw [length_listSet]; exact w)))

theorem sealRow_kin {kind : Nat} {k : PktRx} {s : State}  : KinS s (sealRow kind k s) := by
  unfold sealRow
  try dsimp only
  with_reducible repeat'
    first
    | assumption | exact kinS_fault | exact Kin.refl _ | apply onArrivalKind_kin | apply poolsSettle_kin | apply msgIn_kin
    | intro _

theorem execNormPartial_kin {k : PktRx} {s : State}  : KinS s (execNormPartial k s) := by
  unfold execNormPartial
  try dsimp only
  with_reducible repeat'
    first
    | assumption | exact kinS_fault | exact Kin.refl _ | apply onArrival_kin | apply msgIn_kin | intro _

theorem execSealReq_kin {k : PktRx} {s : State}  : KinS s (execSealReq k s) := by
  unfold execSealReq
  try dsimp only
  with_reducible repeat' first | assumption | exact kinS_fault | exact Kin.refl _ | apply sealRow_kin | intro _

theorem execSealVote_kin {k : PktRx} {s : State}  : KinS s (execSealVote k s) := by
  unfold execSealVote
  try dsimp only
  with_reducible repeat' first | assumption | exact kinS_fault | exact Kin.refl _ | apply sealRow_kin | intro _

theorem execAbortReq_kin {k : PktRx} {s : State}  : KinS s (execAbortReq k s) := by
  unfold execAbortReq
  try dsimp only
  with_reducible repeat' first | assumption | exact kinS_fault | exact Kin.refl _ | apply sealRow_kin | intro _

theorem execSealCommit_kin {k : PktRx} {s : State}  : KinS s (execSealCommit k s) := by
  unfold execSealCommit
  try dsimp only
  with_reducible repeat' first | assumption | exact kinS_fault | exact Kin.refl _ | apply sealRow_kin | intro _

theorem execSealAck_kin {k : PktRx} {s : State}  : KinS s (execSealAck k s) := by
  unfold execSealAck
  try dsimp only
  with_reducible repeat' first | assumption | exact kinS_fault | exact Kin.refl _ | apply sealRow_kin | intro _

theorem execSealDone_kin {k : PktRx} {s : State}  : KinS s (execSealDone k s) := by
  unfold execSealDone
  try dsimp only
  with_reducible repeat' first | assumption | exact kinS_fault | exact Kin.refl _ | apply sealRow_kin | intro _

theorem execSealAbort_kin {k : PktRx} {s : State}  : KinS s (execSealAbort k s) := by
  unfold execSealAbort
  try dsimp only
  with_reducible repeat' first | assumption | exact kinS_fault | exact Kin.refl _ | apply sealRow_kin | intro _

theorem execAbortAck_kin {k : PktRx} {s : State}  : KinS s (execAbortAck k s) := by
  unfold execAbortAck
  try dsimp only
  with_reducible repeat' first | assumption | exact kinS_fault | exact Kin.refl _ | apply sealRow_kin | intro _

theorem execSealQuery_kin {k : PktRx} {s : State}  : KinS s (execSealQuery k s) := by
  unfold execSealQuery
  try dsimp only
  with_reducible repeat' first | assumption | exact kinS_fault | exact Kin.refl _ | apply sealRow_kin | intro _

theorem execSealState_kin {k : PktRx} {s : State}  : KinS s (execSealState k s) := by
  unfold execSealState
  try dsimp only
  with_reducible repeat' first | assumption | exact kinS_fault | exact Kin.refl _ | apply sealRow_kin | intro _

theorem execMsgAck_kin {k : PktRx} {s : State}  : KinS s (execMsgAck k s) := by
  unfold execMsgAck
  try dsimp only
  with_reducible repeat'
    first
    | assumption | exact kinS_fault | exact Kin.refl _ | apply onArrival_kin | apply dropHeld_kin | intro _

theorem execMsgResend_kin {s : State}  : KinS s (execMsgResend s) := by
  unfold execMsgResend
  try dsimp only
  with_reducible repeat'
    first
    | assumption | exact kinS_fault | exact Kin.refl _ | apply onDev_kin | apply resendHeld_kin | apply resendOrd_kin
    | intro _

theorem execVoteYes_kin {job : Nat} {s : State}  : KinS s (execVoteYes job s) := by
  unfold execVoteYes
  try dsimp only
  with_reducible repeat'
    first
    | assumption | exact kinS_fault | exact Kin.refl _ | apply onUnit_kin | apply flushJob_kin | apply castYes_kin | intro _

theorem execAbortScanComplete_kin {job : Nat} {s : State}  : KinS s (execAbortScanComplete job s) := by
  unfold execAbortScanComplete
  try dsimp only
  with_reducible repeat'
    first
    | assumption | exact kinS_fault | exact Kin.refl _ | apply onUnit_kin | apply flushJob_kin | apply scanDone_kin | intro _

theorem beginSealed_kin {a0 : Dev} {d : Dev} {j : Nat} (hK : Kin a0 d) : Kin a0 (beginSealed d j) := by
  unfold beginSealed
  try dsimp only
  with_reducible repeat'
    first
    | assumption | apply updJob_kin | split | apply kin_fst (by assumption) | apply kin_snd (by assumption) | intro _
    | (apply kin_other; first | assumption | apply updJob_kin)
    | (apply kin_other; apply kin_other; first | assumption | apply updJob_kin)
    | (apply kin_mk <;> first | assumption | apply updJob_kin | (intro w; first | exact w | exact wf_set _ _ w | exact wf_upd _ _ w | exact wf_del _ w | exact wf_keep _ w | exact wf_mapV _ w | exact wf_filter _ w | (simp; done) | (simpa using w) | (rw [length_listSet]; exact w)))

theorem execSealedUpdateBegin_kin {job : Nat} {s : State}  : KinS s (execSealedUpdateBegin job s) := by
  unfold execSealedUpdateBegin
  try dsimp only
  with_reducible repeat'
    first
    | assumption | exact kinS_fault | exact Kin.refl _ | apply onUnit_kin | apply beginSealed_kin | intro _

end Sys2Proof.Machine
end

