-- ==== Sys2Proof/Laws/KinParity.lean ====
section
/-!
SUPPORT. Sys2Proof/Laws/KinParity.lean: every operation of Parity.lean keeps time, identity and the form of the tables.
-/
namespace Sys2Proof.Machine
open SMap

theorem parityDeltaIn_kin {a0 : Dev} {d : Dev} {k : PktRx} (hK : Kin a0 d) : Kin a0 (parityDeltaIn d k) := by
  unfold parityDeltaIn
  try dsimp only
  with_reducible repeat'
    first
    | assumption | apply takePiece_kin | apply sendAddr_kin | split | apply kin_fst (by assumption)
    | apply kin_snd (by assumption) | intro _

theorem execParityDelta_kin {k : PktRx} {s : State}  : KinS s (execParityDelta k s) := by
  unfold execParityDelta
  try dsimp only
  with_reducible repeat'
    first
    | assumption | exact kinS_fault | exact Kin.refl _ | apply onArrival_kin | apply settleLost_kin | apply parityDeltaIn_kin
    | intro _

theorem execSlabXfer_kin {k : PktRx} {s : State}  : KinS s (execSlabXfer k s) := by
  unfold execSlabXfer
  try dsimp only
  with_reducible repeat'
    first
    | assumption | exact kinS_fault | exact Kin.refl _ | apply onArrival_kin | apply poolsSettle_kin | apply settleLost_kin
    | apply slabXferIn_kin | intro _

theorem parityAckIn_kin {a0 : Dev} {d : Dev} {k : PktRx} (hK : Kin a0 d) : Kin a0 (parityAckIn d k) := by
  unfold parityAckIn
  try dsimp only
  with_reducible repeat'
    first
    | assumption | apply step_kin | apply dropHeld_kin | apply updJob_kin | apply baseSettle_kin | split
    | apply kin_fst (by assumption) | apply kin_snd (by assumption) | intro _
    | (apply kin_other; first | assumption | apply step_kin | apply dropHeld_kin | apply updJob_kin | apply baseSettle_kin)
    | (apply kin_other; apply kin_other; first | assumption | apply step_kin | apply dropHeld_kin | apply updJob_kin | apply baseSettle_kin)
    | (apply kin_mk <;> first | assumption | apply step_kin | apply dropHeld_kin | apply updJob_kin | apply baseSettle_kin | (intro w; first | exact w | exact wf_set _ _ w | exact wf_upd _ _ w | exact wf_del _ w | exact wf_keep _ w | exact wf_mapV _ w | exact wf_filter _ w | (simp; done) | (simpa using w) | (rw [length_listSet]; exact w)))

theorem execParityAck_kin {k : PktRx} {s : State}  : KinS s (execParityAck k s) := by
  unfold execParityAck
  try dsimp only
  with_reducible repeat'
    first
    | assumption | exact kinS_fault | exact Kin.refl _ | apply onArrival_kin | apply poolsSettle_kin | apply parityAckIn_kin
    | intro _

theorem ctlAnswer_kin {a0 : Dev} {d : Dev} {k : PktRx} {kind : Nat} (hK : Kin a0 d) : Kin a0 (ctlAnswer d k kind) := by
  unfold ctlAnswer
  try dsimp only
  with_reducible repeat' first | assumption | apply sendAddr_kin | intro _

theorem execParityApply_kin {k : PktRx} {s : State}  : KinS s (execParityApply k s) := by
  unfold execParityApply
  try dsimp only
  with_reducible repeat'
    first
    | assumption | exact kinS_fault | exact Kin.refl _ | apply onArrivalKind_kin | apply ctlAnswer_kin | apply settleLost_kin
    | apply applyStep_kin | intro _

theorem execParityDrop_kin {k : PktRx} {s : State}  : KinS s (execParityDrop k s) := by
  unfold execParityDrop
  try dsimp only
  with_reducible repeat'
    first
    | assumption | exact kinS_fault | exact Kin.refl _ | apply onArrivalKind_kin | apply ctlAnswer_kin | apply dropStep_kin
    | intro _

theorem ctlAcked_kin {a0 : Dev} {d : Dev} {k : PktRx} {kind : Nat} {f : Dev → Nat → Nat → Dev} (hK : Kin a0 d) (g_f : ∀ e x0 x1, Kin a0 e → Kin a0 (f e x0 x1)) : Kin a0 (ctlAcked d k kind f) := by
  unfold ctlAcked
  try dsimp only
  with_reducible repeat'
    first
    | assumption | apply g_f | apply step_kin | apply dropHeld_kin | split | apply kin_fst (by assumption)
    | apply kin_snd (by assumption) | intro _

theorem execApplyAck_kin {k : PktRx} {s : State}  : KinS s (execApplyAck k s) := by
  unfold execApplyAck
  try dsimp only
  with_reducible repeat'
    first
    | assumption | exact kinS_fault | exact Kin.refl _ | apply onArrivalKind_kin | apply ctlAcked_kin | apply applyAcked_kin
    | intro _

theorem execDropAck_kin {k : PktRx} {s : State}  : KinS s (execDropAck k s) := by
  unfold execDropAck
  try dsimp only
  with_reducible repeat'
    first
    | assumption | exact kinS_fault | exact Kin.refl _ | apply onArrivalKind_kin | apply flushJob_kin | apply ctlAcked_kin
    | apply dropAcked_kin | intro _

theorem answerRow_kin {a0 : Dev} {d : Dev} {k : PktRx} {rn row asked : Nat} (hK : Kin a0 d) : Kin a0 (answerRow d k rn row asked) := by
  unfold answerRow
  try dsimp only
  with_reducible repeat'
    first
    | assumption | apply step_kin | apply sendRow_kin | apply heldRead_kin | apply parityLost_kin | apply fixHeld_kin
    | apply readChunk_kin | split | apply kin_fst (by assumption) | apply kin_snd (by assumption) | intro _
    | (apply kin_other; first | assumption | apply step_kin | apply sendRow_kin | apply heldRead_kin | apply parityLost_kin | apply fixHeld_kin | apply readChunk_kin)
    | (apply kin_other; apply kin_other; first | assumption | apply step_kin | apply sendRow_kin | apply heldRead_kin | apply parityLost_kin | apply fixHeld_kin | apply readChunk_kin)
    | (apply kin_mk <;> first | assumption | apply step_kin | apply sendRow_kin | apply heldRead_kin | apply parityLost_kin | apply fixHeld_kin | apply readChunk_kin | (intro w; first | exact w | exact wf_set _ _ w | exact wf_upd _ _ w | exact wf_del _ w | exact wf_keep _ w | exact wf_mapV _ w | exact wf_filter _ w | (simp; done) | (simpa using w) | (rw [length_listSet]; exact w)))

theorem rebuildReqIn_kin {a0 : Dev} {d : Dev} {k : PktRx} (hK : Kin a0 d) : Kin a0 (rebuildReqIn d k) := by
  unfold rebuildReqIn
  try dsimp only
  with_reducible repeat' first | assumption | apply forEach_kin | apply answerRow_kin | split | intro _

theorem execRebuildReq_kin {k : PktRx} {s : State}  : KinS s (execRebuildReq k s) := by
  unfold execRebuildReq
  try dsimp only
  with_reducible repeat'
    first
    | assumption | exact kinS_fault | exact Kin.refl _ | apply onArrival_kin | apply settleLost_kin | apply rebuildReqIn_kin
    | intro _

theorem letHeld_kin {a0 : Dev} {d : Dev} {p : ParPiece → Bool} (hK : Kin a0 d) : Kin a0 (letHeld d p) := by
  unfold letHeld
  try dsimp only
  with_reducible repeat'
    first
    | assumption | apply updPar_kin | apply forEach_kin | apply pushRule_kin | intro _
    | (apply kin_other; first | assumption | apply updPar_kin | apply forEach_kin | apply pushRule_kin)
    | (apply kin_other; apply kin_other; first | assumption | apply updPar_kin | apply forEach_kin | apply pushRule_kin)
    | (apply kin_mk <;> first | assumption | apply updPar_kin | apply forEach_kin | apply pushRule_kin | (intro w; first | exact w | exact wf_set _ _ w | exact wf_upd _ _ w | exact wf_del _ w | exact wf_keep _ w | exact wf_mapV _ w | exact wf_filter _ w | (simp; done) | (simpa using w) | (rw [length_listSet]; exact w)))

theorem pushIn_kin {a0 : Dev} {d : Dev} {k : PktRx} (hK : Kin a0 d) : Kin a0 (pushIn d k) := by
  unfold pushIn
  try dsimp only
  with_reducible repeat'
    first
    | assumption | apply step_kin | apply updPar_kin | apply letHeld_kin | apply rowSpace_kin | apply freeRows_kin
    | apply foldRow_kin | apply unprotect_kin | apply kinO_getD | split | apply kin_fst (by assumption)
    | apply kin_snd (by assumption) | exact kinO_none | apply kinO_some | apply kinO_use (by assumption) | intro _
    | (apply kin_other; first | assumption | apply step_kin | apply updPar_kin | apply letHeld_kin | apply rowSpace_kin | apply freeRows_kin | apply foldRow_kin | apply unprotect_kin | apply kinO_getD)
    | (apply kin_other; apply kin_other; first | assumption | apply step_kin | apply updPar_kin | apply letHeld_kin | apply rowSpace_kin | apply freeRows_kin | apply foldRow_kin | apply unprotect_kin | apply kinO_getD)
    | (apply kin_mk <;> first | assumption | apply step_kin | apply updPar_kin | apply letHeld_kin | apply rowSpace_kin | apply freeRows_kin | apply foldRow_kin | apply unprotect_kin | apply kinO_getD | (intro w; first | exact w | exact wf_set _ _ w | exact wf_upd _ _ w | exact wf_del _ w | exact wf_keep _ w | exact wf_mapV _ w | exact wf_filter _ w | (simp; done) | (simpa using w) | (rw [length_listSet]; exact w)))

theorem rowIn_kin {a0 : Dev} {d : Dev} {k : PktRx} (hK : Kin a0 d) : Kin a0 (rowIn d k) := by
  unfold rowIn
  try dsimp only
  with_reducible repeat'
    first
    | assumption | apply step_kin | apply rebuildSettle_kin | apply updRebuild_kin | apply kinO_getD | split
    | apply kin_fst (by assumption) | apply kin_snd (by assumption) | intro _
    | (apply kin_other; first | assumption | apply step_kin | apply rebuildSettle_kin | apply updRebuild_kin | apply kinO_getD)
    | (apply kin_other; apply kin_other; first | assumption | apply step_kin | apply rebuildSettle_kin | apply updRebuild_kin | apply kinO_getD)
    | (apply kin_mk <;> first | assumption | apply step_kin | apply rebuildSettle_kin | apply updRebuild_kin | apply kinO_getD | (intro w; first | exact w | exact wf_set _ _ w | exact wf_upd _ _ w | exact wf_del _ w | exact wf_keep _ w | exact wf_mapV _ w | exact wf_filter _ w | (simp; done) | (simpa using w) | (rw [length_listSet]; exact w)))

theorem execRebuildData_kin {k : PktRx} {s : State}  : KinS s (execRebuildData k s) := by
  unfold execRebuildData
  try dsimp only
  with_reducible repeat'
    first
    | assumption | exact kinS_fault | exact Kin.refl _ | apply onArrival_kin | apply bumpBy_kin | apply poolsSettle_kin
    | apply settleLost_kin | apply pushIn_kin | apply rowIn_kin | split | intro _

theorem jobLive_kin {a0 : Dev} {d : Dev} {j : Nat} (hK : Kin a0 d) : Kin a0 (jobLive d j) := by
  unfold jobLive
  try dsimp only
  with_reducible repeat'
    first
    | assumption | apply sendOrd_kin | apply updJob_kin | split | apply kin_fst (by assumption)
    | apply kin_snd (by assumption) | intro _ | (apply kin_other; first | assumption | apply sendOrd_kin | apply updJob_kin)
    | (apply kin_other; apply kin_other; first | assumption | apply sendOrd_kin | apply updJob_kin)
    | (apply kin_mk <;> first | assumption | apply sendOrd_kin | apply updJob_kin | (intro w; first | exact w | exact wf_set _ _ w | exact wf_upd _ _ w | exact wf_del _ w | exact wf_keep _ w | exact wf_mapV _ w | exact wf_filter _ w | (simp; done) | (simpa using w) | (rw [length_listSet]; exact w)))

theorem execLiveTimer_kin {s : State}  : KinS s (execLiveTimer s) := by
  unfold execLiveTimer
  try dsimp only
  with_reducible repeat'
    first
    | assumption | exact kinS_fault | exact Kin.refl _ | apply onDev_kin | apply forEach_kin | apply jobLive_kin
    | apply sendGroupLive_kin | apply updPar_kin | split | apply kin_fst (by assumption) | apply kin_snd (by assumption)
    | intro _
    | (apply kin_other; first | assumption | exact kinS_fault | exact Kin.refl _ | apply onDev_kin | apply forEach_kin | apply jobLive_kin | apply sendGroupLive_kin | apply updPar_kin)
    | (apply kin_other; apply kin_other; first | assumption | exact kinS_fault | exact Kin.refl _ | apply onDev_kin | apply forEach_kin | apply jobLive_kin | apply sendGroupLive_kin | apply updPar_kin)
    | (apply kin_mk <;> first | assumption | exact kinS_fault | exact Kin.refl _ | apply onDev_kin | apply forEach_kin | apply jobLive_kin | apply sendGroupLive_kin | apply updPar_kin | (intro w; first | exact w | exact wf_set _ _ w | exact wf_upd _ _ w | exact wf_del _ w | exact wf_keep _ w | exact wf_mapV _ w | exact wf_filter _ w | (simp; done) | (simpa using w) | (rw [length_listSet]; exact w)))

theorem declareWithdrawn_kin {a0 : Dev} {d : Dev} {j q : Nat} (hK : Kin a0 d) : Kin a0 (declareWithdrawn d j q) := by
  unfold declareWithdrawn
  try dsimp only
  with_reducible repeat'
    first
    | assumption | apply raiseTrap_kin | apply markWithdrawn_kin | apply tellWithdrawn_kin | split
    | apply kin_fst (by assumption) | apply kin_snd (by assumption) | intro _
    | (apply kin_other; first | assumption | apply raiseTrap_kin | apply markWithdrawn_kin | apply tellWithdrawn_kin)
    | (apply kin_other; apply kin_other; first | assumption | apply raiseTrap_kin | apply markWithdrawn_kin | apply tellWithdrawn_kin)
    | (apply kin_mk <;> first | assumption | apply raiseTrap_kin | apply markWithdrawn_kin | apply tellWithdrawn_kin | (intro w; first | exact w | exact wf_set _ _ w | exact wf_upd _ _ w | exact wf_del _ w | exact wf_keep _ w | exact wf_mapV _ w | exact wf_filter _ w | (simp; done) | (simpa using w) | (rw [length_listSet]; exact w)))

theorem declareLost_kin {a0 : Dev} {d : Dev} {pos : Nat} (hK : Kin a0 d) : Kin a0 (declareLost d pos) := by
  unfold declareLost
  try dsimp only
  with_reducible repeat'
    first
    | assumption | apply raiseTrap_kin | apply markLost_kin | apply tellLost_kin | split | intro _
    | (apply kin_other; first | assumption | apply raiseTrap_kin | apply markLost_kin | apply tellLost_kin)
    | (apply kin_other; apply kin_other; first | assumption | apply raiseTrap_kin | apply markLost_kin | apply tellLost_kin)
    | (apply kin_mk <;> first | assumption | apply raiseTrap_kin | apply markLost_kin | apply tellLost_kin | (intro w; first | exact w | exact wf_set _ _ w | exact wf_upd _ _ w | exact wf_del _ w | exact wf_keep _ w | exact wf_mapV _ w | exact wf_filter _ w | (simp; done) | (simpa using w) | (rw [length_listSet]; exact w)))

theorem execLiveWatchTimeout_kin {job : Nat} {s : State}  : KinS s (execLiveWatchTimeout job s) := by
  unfold execLiveWatchTimeout
  try dsimp only
  with_reducible repeat'
    first
    | assumption | exact kinS_fault | exact Kin.refl _ | apply onUnit_kin | apply poolsSettle_kin | apply flushAll_kin
    | apply declareLost_kin | apply flushJob_kin | apply declareWithdrawn_kin | split | apply kin_fst (by assumption)
    | apply kin_snd (by assumption) | intro _

theorem liveIn_kin {a0 : Dev} {d : Dev} {k : PktRx} (hK : Kin a0 d) : Kin a0 (liveIn d k) := by
  unfold liveIn
  try dsimp only
  with_reducible repeat'
    first
    | assumption | apply updJob_kin | apply updPar_kin | split | apply kin_fst (by assumption) | apply kin_snd (by assumption)
    | intro _ | (apply kin_other; first | assumption | apply updJob_kin | apply updPar_kin)
    | (apply kin_other; apply kin_other; first | assumption | apply updJob_kin | apply updPar_kin)
    | (apply kin_mk <;> first | assumption | apply updJob_kin | apply updPar_kin | (intro w; first | exact w | exact wf_set _ _ w | exact wf_upd _ _ w | exact wf_del _ w | exact wf_keep _ w | exact wf_mapV _ w | exact wf_filter _ w | (simp; done) | (simpa using w) | (rw [length_listSet]; exact w)))

theorem execLive_kin {k : PktRx} {s : State}  : KinS s (execLive k s) := by
  unfold execLive
  try dsimp only
  with_reducible repeat'
    first
    | assumption | exact kinS_fault | exact Kin.refl _ | apply onArrivalKind_kin | apply liveIn_kin | intro _

theorem withdrawnIn_kin {a0 : Dev} {d : Dev} {k : PktRx} (hK : Kin a0 d) : Kin a0 (withdrawnIn d k) := by
  unfold withdrawnIn
  try dsimp only
  with_reducible repeat'
    first
    | assumption | apply bump_kin | apply markWithdrawn_kin | apply markLost_kin | split | apply kin_fst (by assumption)
    | apply kin_snd (by assumption) | intro _

theorem execWithdrawn_kin {k : PktRx} {s : State}  : KinS s (execWithdrawn k s) := by
  unfold execWithdrawn
  try dsimp only
  with_reducible repeat'
    first
    | assumption | exact kinS_fault | exact Kin.refl _ | apply onArrivalKind_kin | apply poolsSettle_kin | apply flushAll_kin
    | apply withdrawnIn_kin | intro _

theorem sendClaim_kin {a0 : Dev} {d : Dev} {scope j target : Nat} {addr : Option Nat} {words : List W64} (hK : Kin a0 d) : Kin a0 (sendClaim d scope j target addr words) := by
  unfold sendClaim
  try dsimp only
  with_reducible repeat'
    first
    | assumption | apply updPar_kin | apply sendAddr_kin | apply bump_kin | split | apply kin_fst (by assumption)
    | apply kin_snd (by assumption) | intro _
    | (apply kin_other; first | assumption | apply updPar_kin | apply sendAddr_kin | apply bump_kin)
    | (apply kin_other; apply kin_other; first | assumption | apply updPar_kin | apply sendAddr_kin | apply bump_kin)
    | (apply kin_mk <;> first | assumption | apply updPar_kin | apply sendAddr_kin | apply bump_kin | (intro w; first | exact w | exact wf_set _ _ w | exact wf_upd _ _ w | exact wf_del _ w | exact wf_keep _ w | exact wf_mapV _ w | exact wf_filter _ w | (simp; done) | (simpa using w) | (rw [length_listSet]; exact w)))

theorem claimGroup_kin {a0 : Dev} {d : Dev} {ready : Bool} (hK : Kin a0 d) : Kin a0 (claimGroup d ready) := by
  unfold claimGroup
  try dsimp only
  with_reducible repeat'
    first
    | assumption | apply updPar_kin | apply forEach_kin | apply sendClaim_kin | split | apply kin_fst (by assumption)
    | apply kin_snd (by assumption) | intro _
    | (apply kin_other; first | assumption | apply updPar_kin | apply forEach_kin | apply sendClaim_kin)
    | (apply kin_other; apply kin_other; first | assumption | apply updPar_kin | apply forEach_kin | apply sendClaim_kin)
    | (apply kin_mk <;> first | assumption | apply updPar_kin | apply forEach_kin | apply sendClaim_kin | (intro w; first | exact w | exact wf_set _ _ w | exact wf_upd _ _ w | exact wf_del _ w | exact wf_keep _ w | exact wf_mapV _ w | exact wf_filter _ w | (simp; done) | (simpa using w) | (rw [length_listSet]; exact w)))

theorem claimJob_kin {a0 : Dev} {d : Dev} {j : Nat} (hK : Kin a0 d) : Kin a0 (claimJob d j) := by
  unfold claimJob
  try dsimp only
  with_reducible repeat'
    first
    | assumption | apply forEach_kin | apply sendClaim_kin | apply kinO_getD | split | apply kin_fst (by assumption)
    | apply kin_snd (by assumption) | intro _

theorem refuseClaim_kin {a0 : Dev} {d : Dev} {k : PktRx} (hK : Kin a0 d) : Kin a0 (refuseClaim d k) := by
  unfold refuseClaim
  try dsimp only
  with_reducible repeat'
    first
    | assumption | apply raiseTrap_kin | apply sendAddr_kin | split | intro _
    | (apply kin_other; first | assumption | apply raiseTrap_kin | apply sendAddr_kin)
    | (apply kin_other; apply kin_other; first | assumption | apply raiseTrap_kin | apply sendAddr_kin)
    | (apply kin_mk <;> first | assumption | apply raiseTrap_kin | apply sendAddr_kin | (intro w; first | exact w | exact wf_set _ _ w | exact wf_upd _ _ w | exact wf_del _ w | exact wf_keep _ w | exact wf_mapV _ w | exact wf_filter _ w | (simp; done) | (simpa using w) | (rw [length_listSet]; exact w)))

theorem rekey_kin {a0 : Dev} {d : Dev} {j : Nat} {old new_ : W64} (hK : Kin a0 d) : Kin a0 (rekey d j old new_) := by
  unfold rekey
  try dsimp only
  with_reducible repeat'
    first
    | assumption | apply updPar_kin | split | intro _ | (apply kin_other; first | assumption | apply updPar_kin)
    | (apply kin_other; apply kin_other; first | assumption | apply updPar_kin)
    | (apply kin_mk <;> first | assumption | apply updPar_kin | (intro w; first | exact w | exact wf_set _ _ w | exact wf_upd _ _ w | exact wf_del _ w | exact wf_keep _ w | exact wf_mapV _ w | exact wf_filter _ w | (simp; done) | (simpa using w) | (rw [length_listSet]; exact w)))

theorem claimJobIn_kin {a0 : Dev} {d : Dev} {k : PktRx} (hK : Kin a0 d) : Kin a0 (claimJobIn d k) := by
  unfold claimJobIn
  try dsimp only
  with_reducible repeat'
    first
    | assumption | apply refuseClaim_kin | apply updJob_kin | apply rekey_kin | apply sendAddr_kin | split
    | apply kin_fst (by assumption) | apply kin_snd (by assumption) | intro _
    | (apply kin_other; first | assumption | apply refuseClaim_kin | apply updJob_kin | apply rekey_kin | apply sendAddr_kin)
    | (apply kin_other; apply kin_other; first | assumption | apply refuseClaim_kin | apply updJob_kin | apply rekey_kin | apply sendAddr_kin)
    | (apply kin_mk <;> first | assumption | apply refuseClaim_kin | apply updJob_kin | apply rekey_kin | apply sendAddr_kin | (intro w; first | exact w | exact wf_set _ _ w | exact wf_upd _ _ w | exact wf_del _ w | exact wf_keep _ w | exact wf_mapV _ w | exact wf_filter _ w | (simp; done) | (simpa using w) | (rw [length_listSet]; exact w)))

theorem pushTo_kin {a0 : Dev} {d : Dev} {dst pos : Nat} (hK : Kin a0 d) : Kin a0 (pushTo d dst pos) := by
  unfold pushTo
  try dsimp only
  with_reducible repeat'
    first
    | assumption | apply forEach_kin | apply readChunk_kin | apply step_kin | apply sendRow_kin | apply sendAddr_kin | intro _
    | (apply kin_other; first | assumption | apply forEach_kin | apply readChunk_kin | apply step_kin | apply sendRow_kin | apply sendAddr_kin)
    | (apply kin_other; apply kin_other; first | assumption | apply forEach_kin | apply readChunk_kin | apply step_kin | apply sendRow_kin | apply sendAddr_kin)
    | (apply kin_mk <;> first | assumption | apply forEach_kin | apply readChunk_kin | apply step_kin | apply sendRow_kin | apply sendAddr_kin | (intro w; first | exact w | exact wf_set _ _ w | exact wf_upd _ _ w | exact wf_del _ w | exact wf_keep _ w | exact wf_mapV _ w | exact wf_filter _ w | (simp; done) | (simpa using w) | (rw [length_listSet]; exact w)))

theorem claimGroupIn_kin {a0 : Dev} {d : Dev} {k : PktRx} (hK : Kin a0 d) : Kin a0 (claimGroupIn d k) := by
  unfold claimGroupIn
  try dsimp only
  with_reducible repeat'
    first
    | assumption | apply refuseClaim_kin | apply rewatchPos_kin | apply updPar_kin | apply sendAddr_kin | apply pushTo_kin
    | split | apply kin_fst (by assumption) | apply kin_snd (by assumption) | intro _
    | (apply kin_other; first | assumption | apply refuseClaim_kin | apply rewatchPos_kin | apply updPar_kin | apply sendAddr_kin | apply pushTo_kin)
    | (apply kin_other; apply kin_other; first | assumption | apply refuseClaim_kin | apply rewatchPos_kin | apply updPar_kin | apply sendAddr_kin | apply pushTo_kin)
    | (apply kin_mk <;> first | assumption | apply refuseClaim_kin | apply rewatchPos_kin | apply updPar_kin | apply sendAddr_kin | apply pushTo_kin | (intro w; first | exact w | exact wf_set _ _ w | exact wf_upd _ _ w | exact wf_del _ w | exact wf_keep _ w | exact wf_mapV _ w | exact wf_filter _ w | (simp; done) | (simpa using w) | (rw [length_listSet]; exact w)))

theorem execClaim_kin {k : PktRx} {s : State}  : KinS s (execClaim k s) := by
  unfold execClaim
  try dsimp only
  with_reducible repeat'
    first
    | assumption | exact kinS_fault | exact Kin.refl _ | apply onArrivalKind_kin | apply claimJobIn_kin
    | apply claimGroupIn_kin | split | intro _

theorem claimAnswerIn_kin {a0 : Dev} {d : Dev} {k : PktRx} (hK : Kin a0 d) : Kin a0 (claimAnswerIn d k) := by
  unfold claimAnswerIn
  try dsimp only
  with_reducible repeat'
    first
    | assumption | apply updPar_kin | apply raiseTrap_kin | apply claimsSettle_kin | apply updRebuild_kin | split
    | apply kin_fst (by assumption) | apply kin_snd (by assumption) | intro _
    | (apply kin_other; first | assumption | apply updPar_kin | apply raiseTrap_kin | apply claimsSettle_kin | apply updRebuild_kin)
    | (apply kin_other; apply kin_other; first | assumption | apply updPar_kin | apply raiseTrap_kin | apply claimsSettle_kin | apply updRebuild_kin)
    | (apply kin_mk <;> first | assumption | apply updPar_kin | apply raiseTrap_kin | apply claimsSettle_kin | apply updRebuild_kin | (intro w; first | exact w | exact wf_set _ _ w | exact wf_upd _ _ w | exact wf_del _ w | exact wf_keep _ w | exact wf_mapV _ w | exact wf_filter _ w | (simp; done) | (simpa using w) | (rw [length_listSet]; exact w)))

theorem execClaimAnswer_kin {k : PktRx} {s : State}  : KinS s (execClaimAnswer k s) := by
  unfold execClaimAnswer
  try dsimp only
  with_reducible repeat'
    first
    | assumption | exact kinS_fault | exact Kin.refl _ | apply onArrivalKind_kin | apply poolsSettle_kin
    | apply claimAnswerIn_kin | intro _

theorem resendClaims_kin {a0 : Dev} {d : Dev} (hK : Kin a0 d) : Kin a0 (resendClaims d) := by
  unfold resendClaims
  try dsimp only
  with_reducible repeat'
    first
    | assumption | apply updPar_kin | apply forEach_kin | apply bump_kin | apply sendAddr_kin | split
    | apply kin_fst (by assumption) | apply kin_snd (by assumption) | intro _
    | (apply kin_other; first | assumption | apply updPar_kin | apply forEach_kin | apply bump_kin | apply sendAddr_kin)
    | (apply kin_other; apply kin_other; first | assumption | apply updPar_kin | apply forEach_kin | apply bump_kin | apply sendAddr_kin)
    | (apply kin_mk <;> first | assumption | apply updPar_kin | apply forEach_kin | apply bump_kin | apply sendAddr_kin | (intro w; first | exact w | exact wf_set _ _ w | exact wf_upd _ _ w | exact wf_del _ w | exact wf_keep _ w | exact wf_mapV _ w | exact wf_filter _ w | (simp; done) | (simpa using w) | (rw [length_listSet]; exact w)))

theorem resendRows_kin {a0 : Dev} {d : Dev} {j : Nat} (hK : Kin a0 d) : Kin a0 (resendRows d j) := by
  unfold resendRows
  try dsimp only
  with_reducible repeat'
    first
    | assumption | apply updRebuild_kin | apply forEach_kin | apply bump_kin | apply askRow_kin | apply step_kin | split
    | apply kin_fst (by assumption) | apply kin_snd (by assumption) | intro _
    | (apply kin_other; first | assumption | apply updRebuild_kin | apply forEach_kin | apply bump_kin | apply askRow_kin | apply step_kin)
    | (apply kin_other; apply kin_other; first | assumption | apply updRebuild_kin | apply forEach_kin | apply bump_kin | apply askRow_kin | apply step_kin)
    | (apply kin_mk <;> first | assumption | apply updRebuild_kin | apply forEach_kin | apply bump_kin | apply askRow_kin | apply step_kin | (intro w; first | exact w | exact wf_set _ _ w | exact wf_upd _ _ w | exact wf_del _ w | exact wf_keep _ w | exact wf_mapV _ w | exact wf_filter _ w | (simp; done) | (simpa using w) | (rw [length_listSet]; exact w)))

theorem execVc4Resend_kin {s : State}  : KinS s (execVc4Resend s) := by
  unfold execVc4Resend
  try dsimp only
  with_reducible repeat'
    first
    | assumption | exact kinS_fault | exact Kin.refl _ | apply onDev_kin | apply resendHeld_kin | apply bump_kin
    | apply sendPos_kin | apply sendMember_kin | apply forEach_kin | apply resendClaims_kin | apply resendRows_kin | intro _

end Sys2Proof.Machine
end

