-- ==== Sys2Proof/Laws/KinLinkTraffic.lean ====
section
/-!
SUPPORT. Sys2Proof/Laws/KinLinkTraffic.lean: every operation of LinkTraffic.lean keeps time, identity and the form of the tables.
-/
namespace Sys2Proof.Machine
open SMap

theorem length_listSet {α : Type} (l : List α) (i : Nat) (v : α) : (listSet l i v).length = l.length := by
  induction l generalizing i with
  | nil => rfl
  | cons a r ih => cases i <;> simp [listSet, ih]

theorem delivered_kin {a0 : Dev} {d : Dev} {k : TxPacket} (hK : Kin a0 d) : Kin a0 (delivered d k) := by
  unfold delivered
  try dsimp only
  with_reducible repeat'
    first
    | assumption | apply bump_kin | apply accountHaul_kin | split | apply kin_fst (by assumption)
    | apply kin_snd (by assumption) | intro _

theorem takePortAck_kin {a0 : Dev} {d : Dev} {p ack : Nat} (hK : Kin a0 d) : Kin a0 (takePortAck d p ack) := by
  unfold takePortAck
  try dsimp only
  with_reducible repeat'
    first
    | assumption | apply forEach_kin | apply setPort_kin | apply delivered_kin | apply kin_fst (by assumption)
    | apply kin_snd (by assumption) | intro _

theorem lostPacket_kin {a0 : Dev} {p : Nat} {started : Bool} {d : Dev} {k : TxPacket} (hK : Kin a0 d) : Kin a0 (lostPacket p started d k) := by
  unfold lostPacket
  try dsimp only
  with_reducible repeat'
    first
    | assumption | apply enqueue_kin | apply dropFor_kin | apply sendPort_kin | split | apply kin_fst (by assumption)
    | apply kin_snd (by assumption) | intro _

theorem endLostHoist_kin {a0 : Dev} {d : Dev} {p j m tag del dam off : Nat} (hK : Kin a0 d) : Kin a0 (endLostHoist d p j m tag del dam off) := by
  unfold endLostHoist
  try dsimp only
  with_reducible repeat'
    first
    | assumption | apply bump_kin | apply sendPort_kin | split | apply kin_fst (by assumption) | apply kin_snd (by assumption)
    | intro _ | (apply kin_other; first | assumption | apply bump_kin | apply sendPort_kin)
    | (apply kin_other; apply kin_other; first | assumption | apply bump_kin | apply sendPort_kin)
    | (apply kin_mk <;> first | assumption | apply bump_kin | apply sendPort_kin | (intro w; first | exact w | exact wf_set _ _ w | exact wf_upd _ _ w | exact wf_del _ w | exact wf_keep _ w | exact wf_mapV _ w | exact wf_filter _ w | (simp; done) | (simpa using w) | (rw [length_listSet]; exact w)))

theorem lostHoists_kin {a0 : Dev} {p : Nat} {y0 : List TxPacket} {y1 : List HoistLost} {y2 : Dev} (hK : Kin a0 y2) : Kin a0 (lostHoists p y0 y1 y2).1 := by
  induction y0 generalizing p y1 y2 with
  | nil =>
    unfold lostHoists
    try dsimp only
    with_reducible repeat'
      first
      | assumption | apply endLostHoist_kin | split | apply kin_fst (by assumption) | apply kin_snd (by assumption) | intro _
  | cons z zs ih =>
    unfold lostHoists
    try dsimp only
    with_reducible repeat'
      first
      | assumption | apply ih | apply endLostHoist_kin | split | apply kin_fst (by assumption) | apply kin_snd (by assumption)
      | intro _

theorem endHoists_kin {a0 : Dev} {d : Dev} {p : Nat} {l : List HoistLost} {sel : Nat → Hoist → Bool} (hK : Kin a0 d) : Kin a0 (endHoists d p l sel) := by
  unfold endHoists
  try dsimp only
  with_reducible repeat' first | assumption | apply forEach_kin | apply dropHoist_kin | apply endLostHoist_kin | intro _

theorem endHoistsOn_kin {a0 : Dev} {d : Dev} {p : Nat} {l : List HoistLost} (hK : Kin a0 d) : Kin a0 (endHoistsOn d p l) := by
  unfold endHoistsOn
  try dsimp only
  with_reducible repeat' first | assumption | apply endHoists_kin | intro _

theorem endLostHoists_kin {a0 : Dev} {d : Dev} {p : Nat} {l : List HoistLost} (hK : Kin a0 d) : Kin a0 (endLostHoists d p l) := by
  unfold endLostHoists
  try dsimp only
  with_reducible repeat' first | assumption | apply endHoists_kin | intro _

theorem passPacket_kin {a0 : Dev} {d : Dev} {p : Nat} {k : Parked} (hK : Kin a0 d) : Kin a0 (passPacket d p k) := by
  unfold passPacket
  try dsimp only
  with_reducible repeat'
    first
    | assumption | apply updPort_kin | apply kinO_getD | split | intro _
    | (apply kin_other; first | assumption | apply updPort_kin | apply kinO_getD)
    | (apply kin_other; apply kin_other; first | assumption | apply updPort_kin | apply kinO_getD)
    | (apply kin_mk <;> first | assumption | apply updPort_kin | apply kinO_getD | (intro w; first | exact w | exact wf_set _ _ w | exact wf_upd _ _ w | exact wf_del _ w | exact wf_keep _ w | exact wf_mapV _ w | exact wf_filter _ w | (simp; done) | (simpa using w) | (rw [length_listSet]; exact w)))

theorem policeVc_kin {a0 : Dev} {y0 : Nat} {y1 : Dev} {y2 : Nat} {y3 : Nat} (hK : Kin a0 y1) : Kin a0 (policeVc y0 y1 y2 y3) := by
  induction y0 generalizing y1 y2 y3 with
  | zero =>
    unfold policeVc
    try dsimp only
    with_reducible repeat'
      first
      | assumption | apply passPacket_kin | apply updPort_kin | apply kinO_getD | split | apply kin_fst (by assumption)
      | apply kin_snd (by assumption) | intro _
      | (apply kin_other; first | assumption | apply passPacket_kin | apply updPort_kin | apply kinO_getD)
      | (apply kin_other; apply kin_other; first | assumption | apply passPacket_kin | apply updPort_kin | apply kinO_getD)
      | (apply kin_mk <;> first | assumption | apply passPacket_kin | apply updPort_kin | apply kinO_getD | (intro w; first | exact w | exact wf_set _ _ w | exact wf_upd _ _ w | exact wf_del _ w | exact wf_keep _ w | exact wf_mapV _ w | exact wf_filter _ w | (simp; done) | (simpa using w) | (rw [length_listSet]; exact w)))
  | succ k ih =>
    unfold policeVc
    try dsimp only
    with_reducible repeat'
      first
      | assumption | apply ih | apply passPacket_kin | apply updPort_kin | apply kinO_getD | split
      | apply kin_fst (by assumption) | apply kin_snd (by assumption) | intro _
      | (apply kin_other; first | assumption | apply passPacket_kin | apply updPort_kin | apply kinO_getD)
      | (apply kin_other; apply kin_other; first | assumption | apply passPacket_kin | apply updPort_kin | apply kinO_getD)
      | (apply kin_mk <;> first | assumption | apply passPacket_kin | apply updPort_kin | apply kinO_getD | (intro w; first | exact w | exact wf_set _ _ w | exact wf_upd _ _ w | exact wf_del _ w | exact wf_keep _ w | exact wf_mapV _ w | exact wf_filter _ w | (simp; done) | (simpa using w) | (rw [length_listSet]; exact w)))

theorem holdTick_kin {a0 : Dev} {d : Dev} {die : Nat} (hK : Kin a0 d) : Kin a0 (holdTick d die) := by
  unfold holdTick
  try dsimp only
  with_reducible repeat'
    first
    | assumption | apply foldl_kin | apply forEach_kin | apply bumpBy_kin | split | intro _
    | (apply kin_other; first | assumption | apply foldl_kin | apply forEach_kin | apply bumpBy_kin)
    | (apply kin_other; apply kin_other; first | assumption | apply foldl_kin | apply forEach_kin | apply bumpBy_kin)
    | (apply kin_mk <;> first | assumption | apply foldl_kin | apply forEach_kin | apply bumpBy_kin | (intro w; first | exact w | exact wf_set _ _ w | exact wf_upd _ _ w | exact wf_del _ w | exact wf_keep _ w | exact wf_mapV _ w | exact wf_filter _ w | (simp; done) | (simpa using w) | (rw [length_listSet]; exact w)))

theorem policeDie_kin {a0 : Dev} {d : Dev} {die : Nat} (hK : Kin a0 d) : Kin a0 (policeDie d die) := by
  unfold policeDie
  try dsimp only
  with_reducible repeat' first | assumption | apply forEach_kin | apply policeVc_kin | apply holdTick_kin | split | intro _

theorem leftUp_kin {a0 : Dev} {d : Dev} {p : Nat} (hK : Kin a0 d) : Kin a0 (leftUp d p) := by
  unfold leftUp
  try dsimp only
  with_reducible repeat'
    first
    | assumption | apply updPort_kin | split | apply kin_fst (by assumption) | apply kin_snd (by assumption) | intro _
    | (apply kin_other; first | assumption | apply updPort_kin)
    | (apply kin_other; apply kin_other; first | assumption | apply updPort_kin)
    | (apply kin_mk <;> first | assumption | apply updPort_kin | (intro w; first | exact w | exact wf_set _ _ w | exact wf_upd _ _ w | exact wf_del _ w | exact wf_keep _ w | exact wf_mapV _ w | exact wf_filter _ w | (simp; done) | (simpa using w) | (rw [length_listSet]; exact w)))

theorem portDown_kin {a0 : Dev} {d : Dev} {p : Nat} {cause : Option Nat} (hK : Kin a0 d) : Kin a0 (portDown d p cause) := by
  unfold portDown
  try dsimp only
  with_reducible repeat'
    first
    | assumption | apply stallTick_kin | apply leftUp_kin | apply raiseTrap_kin | apply bump_kin | apply updPort_kin
    | apply forEach_kin | apply lostPacket_kin | apply lostHoists_kin | apply policeDie_kin | apply endHoistsOn_kin
    | apply kinO_getD | split | apply kin_fst (by assumption) | apply kin_snd (by assumption) | intro _
    | (apply kin_other; first | assumption | apply stallTick_kin | apply leftUp_kin | apply raiseTrap_kin | apply bump_kin | apply updPort_kin | apply forEach_kin | apply lostPacket_kin | apply lostHoists_kin | apply policeDie_kin | apply endHoistsOn_kin | apply kinO_getD)
    | (apply kin_other; apply kin_other; first | assumption | apply stallTick_kin | apply leftUp_kin | apply raiseTrap_kin | apply bump_kin | apply updPort_kin | apply forEach_kin | apply lostPacket_kin | apply lostHoists_kin | apply policeDie_kin | apply endHoistsOn_kin | apply kinO_getD)
    | (apply kin_mk <;> first | assumption | apply stallTick_kin | apply leftUp_kin | apply raiseTrap_kin | apply bump_kin | apply updPort_kin | apply forEach_kin | apply lostPacket_kin | apply lostHoists_kin | apply policeDie_kin | apply endHoistsOn_kin | apply kinO_getD | (intro w; first | exact w | exact wf_set _ _ w | exact wf_upd _ _ w | exact wf_del _ w | exact wf_keep _ w | exact wf_mapV _ w | exact wf_filter _ w | (simp; done) | (simpa using w) | (rw [length_listSet]; exact w)))

theorem trainFail_kin {a0 : Dev} {d : Dev} {p cause : Nat} (hK : Kin a0 d) : Kin a0 (trainFail d p cause) := by
  unfold trainFail
  try dsimp only
  with_reducible repeat'
    first
    | assumption | apply bump_kin | apply raiseTrap_kin | apply updPort_kin | apply portDown_kin | split | intro _
    | (apply kin_other; first | assumption | apply bump_kin | apply raiseTrap_kin | apply updPort_kin | apply portDown_kin)
    | (apply kin_other; apply kin_other; first | assumption | apply bump_kin | apply raiseTrap_kin | apply updPort_kin | apply portDown_kin)
    | (apply kin_mk <;> first | assumption | apply bump_kin | apply raiseTrap_kin | apply updPort_kin | apply portDown_kin | (intro w; first | exact w | exact wf_set _ _ w | exact wf_upd _ _ w | exact wf_del _ w | exact wf_keep _ w | exact wf_mapV _ w | exact wf_filter _ w | (simp; done) | (simpa using w) | (rw [length_listSet]; exact w)))

theorem enterTrain_kin {a0 : Dev} {d : Dev} {p : Nat} (hK : Kin a0 d) : Kin a0 (enterTrain d p) := by
  unfold enterTrain
  try dsimp only
  with_reducible repeat'
    first
    | assumption | apply updPort_kin | intro _ | (apply kin_other; first | assumption | apply updPort_kin)
    | (apply kin_other; apply kin_other; first | assumption | apply updPort_kin)
    | (apply kin_mk <;> first | assumption | apply updPort_kin | (intro w; first | exact w | exact wf_set _ _ w | exact wf_upd _ _ w | exact wf_del _ w | exact wf_keep _ w | exact wf_mapV _ w | exact wf_filter _ w | (simp; done) | (simpa using w) | (rw [length_listSet]; exact w)))

theorem enterRetrain_kin {a0 : Dev} {d : Dev} {p lanes : Nat} (hK : Kin a0 d) : Kin a0 (enterRetrain d p lanes) := by
  unfold enterRetrain
  try dsimp only
  with_reducible repeat'
    first
    | assumption | apply bump_kin | apply leftUp_kin | apply stallTick_kin | apply updPort_kin | split | intro _
    | (apply kin_other; first | assumption | apply bump_kin | apply leftUp_kin | apply stallTick_kin | apply updPort_kin)
    | (apply kin_other; apply kin_other; first | assumption | apply bump_kin | apply leftUp_kin | apply stallTick_kin | apply updPort_kin)
    | (apply kin_mk <;> first | assumption | apply bump_kin | apply leftUp_kin | apply stallTick_kin | apply updPort_kin | (intro w; first | exact w | exact wf_set _ _ w | exact wf_upd _ _ w | exact wf_del _ w | exact wf_keep _ w | exact wf_mapV _ w | exact wf_filter _ w | (simp; done) | (simpa using w) | (rw [length_listSet]; exact w)))

theorem emitFlit_kin {a0 : Dev} {d : Dev} {p : Nat} {hdr : W64} {us : List W32} (hK : Kin a0 d) : Kin a0 (emitFlit d p hdr us) := by
  unfold emitFlit
  try dsimp only
  with_reducible repeat'
    first
    | assumption | apply output_kin | apply updPort_kin | split | apply kin_fst (by assumption)
    | apply kin_snd (by assumption) | intro _ | (apply kin_other; first | assumption | apply output_kin | apply updPort_kin)
    | (apply kin_other; apply kin_other; first | assumption | apply output_kin | apply updPort_kin)
    | (apply kin_mk <;> first | assumption | apply output_kin | apply updPort_kin | (intro w; first | exact w | exact wf_set _ _ w | exact wf_upd _ _ w | exact wf_del _ w | exact wf_keep _ w | exact wf_mapV _ w | exact wf_filter _ w | (simp; done) | (simpa using w) | (rw [length_listSet]; exact w)))

theorem sendDownNotice_kin {a0 : Dev} {d : Dev} {p : Nat} (hK : Kin a0 d) : Kin a0 (sendDownNotice d p) := by
  unfold sendDownNotice
  try dsimp only
  with_reducible repeat' first | assumption | apply emitFlit_kin | intro _

theorem mapMembers_kin {a0 : Dev} {f : Member → Member} {d : Dev} (hK : Kin a0 d) : Kin a0 (mapMembers f d) := by
  unfold mapMembers
  try dsimp only
  with_reducible repeat'
    first
    | assumption | intro _ | (apply kin_other; first | assumption) | (apply kin_other; apply kin_other; first | assumption)
    | (apply kin_mk <;> first | assumption | (intro w; first | exact w | exact wf_set _ _ w | exact wf_upd _ _ w | exact wf_del _ w | exact wf_keep _ w | exact wf_mapV _ w | exact wf_filter _ w | (simp; done) | (simpa using w) | (rw [length_listSet]; exact w)))

theorem tellHomes_kin {a0 : Dev} {d : Dev} (hK : Kin a0 d) : Kin a0 (tellHomes d) := by
  unfold tellHomes
  try dsimp only
  with_reducible repeat'
    first
    | assumption | apply mapMembers_kin | apply forEach_kin | apply enqueue_kin | split | intro _
    | (apply kin_other; first | assumption | apply mapMembers_kin | apply forEach_kin | apply enqueue_kin)
    | (apply kin_other; apply kin_other; first | assumption | apply mapMembers_kin | apply forEach_kin | apply enqueue_kin)
    | (apply kin_mk <;> first | assumption | apply mapMembers_kin | apply forEach_kin | apply enqueue_kin | (intro w; first | exact w | exact wf_set _ _ w | exact wf_upd _ _ w | exact wf_del _ w | exact wf_keep _ w | exact wf_mapV _ w | exact wf_filter _ w | (simp; done) | (simpa using w) | (rw [length_listSet]; exact w)))

theorem setClass_kin {a0 : Dev} {d : Dev} {p : Nat} {c : Nat × Nat} (hK : Kin a0 d) : Kin a0 (setClass d p c) := by
  unfold setClass
  try dsimp only
  with_reducible repeat'
    first
    | assumption | apply updPort_kin | apply raiseTrap_kin | split | intro _
    | (apply kin_other; first | assumption | apply updPort_kin | apply raiseTrap_kin)
    | (apply kin_other; apply kin_other; first | assumption | apply updPort_kin | apply raiseTrap_kin)
    | (apply kin_mk <;> first | assumption | apply updPort_kin | apply raiseTrap_kin | (intro w; first | exact w | exact wf_set _ _ w | exact wf_upd _ _ w | exact wf_del _ w | exact wf_keep _ w | exact wf_mapV _ w | exact wf_filter _ w | (simp; done) | (simpa using w) | (rw [length_listSet]; exact w)))

theorem classifyPort_kin {a0 : Dev} {d : Dev} {p : Nat} (hK : Kin a0 d) : Kin a0 (classifyPort d p) := by
  unfold classifyPort
  try dsimp only
  with_reducible repeat' first | assumption | apply setClass_kin | intro _

theorem recordWarn_kin {a0 : Dev} {d : Dev} {p : Nat} (hK : Kin a0 d) : Kin a0 (recordWarn d p) := by
  unfold recordWarn
  try dsimp only
  with_reducible repeat'
    first
    | assumption | apply updPort_kin | split | intro _ | (apply kin_other; first | assumption | apply updPort_kin)
    | (apply kin_other; apply kin_other; first | assumption | apply updPort_kin)
    | (apply kin_mk <;> first | assumption | apply updPort_kin | (intro w; first | exact w | exact wf_set _ _ w | exact wf_upd _ _ w | exact wf_del _ w | exact wf_keep _ w | exact wf_mapV _ w | exact wf_filter _ w | (simp; done) | (simpa using w) | (rw [length_listSet]; exact w)))

theorem checkAll_kin {a0 : Dev} {d : Dev} (hK : Kin a0 d) : Kin a0 (checkAll d) := by
  unfold checkAll
  try dsimp only
  with_reducible repeat'
    first
    | assumption | apply forEach_kin | apply recordWarn_kin | apply setClass_kin | apply kinO_getD | split | intro _
    | (apply kin_other; first | assumption | apply forEach_kin | apply recordWarn_kin | apply setClass_kin | apply kinO_getD)
    | (apply kin_other; apply kin_other; first | assumption | apply forEach_kin | apply recordWarn_kin | apply setClass_kin | apply kinO_getD)
    | (apply kin_mk <;> first | assumption | apply forEach_kin | apply recordWarn_kin | apply setClass_kin | apply kinO_getD | (intro w; first | exact w | exact wf_set _ _ w | exact wf_upd _ _ w | exact wf_del _ w | exact wf_keep _ w | exact wf_mapV _ w | exact wf_filter _ w | (simp; done) | (simpa using w) | (rw [length_listSet]; exact w)))

theorem cableCheck_kin {a0 : Dev} {d : Dev} (hK : Kin a0 d) : Kin a0 (cableCheck d) := by
  unfold cableCheck
  try dsimp only
  with_reducible repeat'
    first
    | assumption | apply checkAll_kin | intro _ | (apply kin_other; first | assumption | apply checkAll_kin)
    | (apply kin_other; apply kin_other; first | assumption | apply checkAll_kin)
    | (apply kin_mk <;> first | assumption | apply checkAll_kin | (intro w; first | exact w | exact wf_set _ _ w | exact wf_upd _ _ w | exact wf_del _ w | exact wf_keep _ w | exact wf_mapV _ w | exact wf_filter _ w | (simp; done) | (simpa using w) | (rw [length_listSet]; exact w)))

theorem checkOne_kin {a0 : Dev} {d : Dev} {p : Nat} (hK : Kin a0 d) : Kin a0 (checkOne d p) := by
  unfold checkOne
  try dsimp only
  with_reducible repeat'
    first
    | assumption | apply recordWarn_kin | apply classifyPort_kin | apply forEach_kin | apply setClass_kin | split | intro _

theorem checkPort_kin {a0 : Dev} {d : Dev} {p : Nat} (hK : Kin a0 d) : Kin a0 (checkPort d p) := by
  unfold checkPort
  try dsimp only
  with_reducible repeat' first | assumption | apply checkAll_kin | apply checkOne_kin | split | intro _

theorem updPair_kin {a0 : Dev} {d : Dev} {q : Nat} {f : Pair → Pair} (hK : Kin a0 d) : Kin a0 (updPair d q f) := by
  unfold updPair
  try dsimp only
  with_reducible repeat'
    first
    | assumption | apply kinO_getD | intro _ | (apply kin_other; first | assumption | apply kinO_getD)
    | (apply kin_other; apply kin_other; first | assumption | apply kinO_getD)
    | (apply kin_mk <;> first | assumption | apply kinO_getD | (intro w; first | exact w | exact wf_set _ _ w | exact wf_upd _ _ w | exact wf_del _ w | exact wf_keep _ w | exact wf_mapV _ w | exact wf_filter _ w | (simp; done) | (simpa using w) | (rw [length_listSet]; exact w)))

theorem switchPort_kin {a0 : Dev} {d : Dev} {p : Nat} {seen : Option Beacon × Nat} (hK : Kin a0 d) : Kin a0 (switchPort d p seen) := by
  unfold switchPort
  try dsimp only
  with_reducible repeat'
    first
    | assumption | apply updPort_kin | apply portDown_kin | apply enterTrain_kin | split | intro _
    | (apply kin_other; first | assumption | apply updPort_kin | apply portDown_kin | apply enterTrain_kin)
    | (apply kin_other; apply kin_other; first | assumption | apply updPort_kin | apply portDown_kin | apply enterTrain_kin)
    | (apply kin_mk <;> first | assumption | apply updPort_kin | apply portDown_kin | apply enterTrain_kin | (intro w; first | exact w | exact wf_set _ _ w | exact wf_upd _ _ w | exact wf_del _ w | exact wf_keep _ w | exact wf_mapV _ w | exact wf_filter _ w | (simp; done) | (simpa using w) | (rw [length_listSet]; exact w)))

theorem joinPair_kin {a0 : Dev} {d : Dev} {q : Nat} {f : Pair → Pair} (hK : Kin a0 d) : Kin a0 (joinPair d q f) := by
  unfold joinPair
  try dsimp only
  with_reducible repeat'
    first
    | assumption | apply updPair_kin | apply switchPort_kin | apply kinO_getD | split | intro _
    | (apply kin_other; first | assumption | apply updPair_kin | apply switchPort_kin | apply kinO_getD)
    | (apply kin_other; apply kin_other; first | assumption | apply updPair_kin | apply switchPort_kin | apply kinO_getD)
    | (apply kin_mk <;> first | assumption | apply updPair_kin | apply switchPort_kin | apply kinO_getD | (intro w; first | exact w | exact wf_set _ _ w | exact wf_upd _ _ w | exact wf_del _ w | exact wf_keep _ w | exact wf_mapV _ w | exact wf_filter _ w | (simp; done) | (simpa using w) | (rw [length_listSet]; exact w)))

theorem unjoinPair_kin {a0 : Dev} {d : Dev} {q : Nat} (hK : Kin a0 d) : Kin a0 (unjoinPair d q) := by
  unfold unjoinPair
  try dsimp only
  with_reducible repeat'
    first
    | assumption | apply updPair_kin | apply switchPort_kin | apply kinO_getD | intro _
    | (apply kin_other; first | assumption | apply updPair_kin | apply switchPort_kin | apply kinO_getD)
    | (apply kin_other; apply kin_other; first | assumption | apply updPair_kin | apply switchPort_kin | apply kinO_getD)
    | (apply kin_mk <;> first | assumption | apply updPair_kin | apply switchPort_kin | apply kinO_getD | (intro w; first | exact w | exact wf_set _ _ w | exact wf_upd _ _ w | exact wf_del _ w | exact wf_keep _ w | exact wf_mapV _ w | exact wf_filter _ w | (simp; done) | (simpa using w) | (rw [length_listSet]; exact w)))

theorem pairDone_kin {a0 : Dev} {d : Dev} {q : Nat} (hK : Kin a0 d) : Kin a0 (pairDone d q) := by
  unfold pairDone
  try dsimp only
  with_reducible repeat'
    first
    | assumption | apply updPair_kin | apply kinO_getD | split | intro _
    | (apply kin_other; first | assumption | apply updPair_kin | apply kinO_getD)
    | (apply kin_other; apply kin_other; first | assumption | apply updPair_kin | apply kinO_getD)
    | (apply kin_mk <;> first | assumption | apply updPair_kin | apply kinO_getD | (intro w; first | exact w | exact wf_set _ _ w | exact wf_upd _ _ w | exact wf_del _ w | exact wf_keep _ w | exact wf_mapV _ w | exact wf_filter _ w | (simp; done) | (simpa using w) | (rw [length_listSet]; exact w)))

theorem emitWaiting_kin {a0 : Dev} {d : Dev} {p : Nat} (hK : Kin a0 d) : Kin a0 (emitWaiting d p) := by
  unfold emitWaiting
  try dsimp only
  with_reducible repeat'
    first
    | assumption | apply forEach_kin | apply emitRef_kin | split | apply kin_fst (by assumption)
    | apply kin_snd (by assumption) | intro _

theorem wakeRecords_kin {a0 : Dev} {d : Dev} {p : Nat} (hK : Kin a0 d) : Kin a0 (wakeRecords d p) := by
  unfold wakeRecords
  try dsimp only
  with_reducible repeat'
    first
    | assumption | apply forEach_kin | apply recFlushAll_kin | split | apply kin_fst (by assumption)
    | apply kin_snd (by assumption) | intro _
    | (apply kin_other; first | assumption | apply forEach_kin | apply recFlushAll_kin)
    | (apply kin_other; apply kin_other; first | assumption | apply forEach_kin | apply recFlushAll_kin)
    | (apply kin_mk <;> first | assumption | apply forEach_kin | apply recFlushAll_kin | (intro w; first | exact w | exact wf_set _ _ w | exact wf_upd _ _ w | exact wf_del _ w | exact wf_keep _ w | exact wf_mapV _ w | exact wf_filter _ w | (simp; done) | (simpa using w) | (rw [length_listSet]; exact w)))

theorem settleLinks_kin {a0 : Dev} {old d : Dev} (hK : Kin a0 d) : Kin a0 (settleLinks old d) := by
  unfold settleLinks
  try dsimp only
  with_reducible repeat'
    first
    | assumption | apply tellHomes_kin | apply forEach_kin | apply pairDone_kin | apply ringOnChange_kin
    | apply emitWaiting_kin | apply wakeRecords_kin | intro _

theorem onLinks_kin {ok : Bool} {s : State} {f : Dev → Dev} (g_f : ∀ e, Kin s.dev e → Kin s.dev (f e)) : KinS s (onLinks ok s f) := by
  unfold onLinks
  try dsimp only
  with_reducible repeat'
    first
    | assumption | apply g_f | exact kinS_fault | exact Kin.refl _ | apply onUnit_kin | apply settleLinks_kin | intro _

theorem enterUp_kin {a0 : Dev} {d : Dev} {p : Nat} (hK : Kin a0 d) : Kin a0 (enterUp d p) := by
  unfold enterUp
  try dsimp only
  with_reducible repeat'
    first
    | assumption | apply updPort_kin | apply stallTick_kin | apply checkPort_kin | split | intro _
    | (apply kin_other; first | assumption | apply updPort_kin | apply stallTick_kin | apply checkPort_kin)
    | (apply kin_other; apply kin_other; first | assumption | apply updPort_kin | apply stallTick_kin | apply checkPort_kin)
    | (apply kin_mk <;> first | assumption | apply updPort_kin | apply stallTick_kin | apply checkPort_kin | (intro w; first | exact w | exact wf_set _ _ w | exact wf_upd _ _ w | exact wf_del _ w | exact wf_keep _ w | exact wf_mapV _ w | exact wf_filter _ w | (simp; done) | (simpa using w) | (rw [length_listSet]; exact w)))

end Sys2Proof.Machine
end

