-- ==== Sys2Proof/Laws/KinRepair.lean ====
section
/-!
SUPPORT. Sys2Proof/Laws/KinRepair.lean: every operation of Repair.lean keeps time, identity and the form of the tables.
-/
namespace Sys2Proof.Machine
open SMap

theorem updSpare_kin {a0 : Dev} {d : Dev} {f : Spare → Spare} (hK : Kin a0 d) : Kin a0 (updSpare d f) := by
  unfold updSpare
  try dsimp only
  with_reducible repeat'
    first
    | assumption | intro _ | (apply kin_other; first | assumption) | (apply kin_other; apply kin_other; first | assumption)
    | (apply kin_mk <;> first | assumption | (intro w; first | exact w | exact wf_set _ _ w | exact wf_upd _ _ w | exact wf_del _ w | exact wf_keep _ w | exact wf_mapV _ w | exact wf_filter _ w | (simp; done) | (simpa using w) | (rw [length_listSet]; exact w)))

theorem loseFace_kin {a0 : Dev} {d : Dev} {f : Nat} (hK : Kin a0 d) : Kin a0 (loseFace d f) := by
  unfold loseFace
  try dsimp only
  with_reducible repeat'
    first
    | assumption | apply forEach_kin | apply portDown_kin | apply updSpare_kin | split | intro _
    | (apply kin_other; first | assumption | apply forEach_kin | apply portDown_kin | apply updSpare_kin)
    | (apply kin_other; apply kin_other; first | assumption | apply forEach_kin | apply portDown_kin | apply updSpare_kin)
    | (apply kin_mk <;> first | assumption | apply forEach_kin | apply portDown_kin | apply updSpare_kin | (intro w; first | exact w | exact wf_set _ _ w | exact wf_upd _ _ w | exact wf_del _ w | exact wf_keep _ w | exact wf_mapV _ w | exact wf_filter _ w | (simp; done) | (simpa using w) | (rw [length_listSet]; exact w)))

theorem steer_kin {a0 : Dev} {d : Dev} {p k : Nat} (hK : Kin a0 d) : Kin a0 (steer d p k) := by
  unfold steer
  try dsimp only
  with_reducible repeat'
    first
    | assumption | apply updSpare_kin | split | apply kin_fst (by assumption) | apply kin_snd (by assumption) | intro _
    | (apply kin_other; first | assumption | apply updSpare_kin)
    | (apply kin_other; apply kin_other; first | assumption | apply updSpare_kin)
    | (apply kin_mk <;> first | assumption | apply updSpare_kin | (intro w; first | exact w | exact wf_set _ _ w | exact wf_upd _ _ w | exact wf_del _ w | exact wf_keep _ w | exact wf_mapV _ w | exact wf_filter _ w | (simp; done) | (simpa using w) | (rw [length_listSet]; exact w)))

theorem retireSlice_kin {a0 : Dev} {d : Dev} {p : Nat} (hK : Kin a0 d) : Kin a0 (retireSlice d p) := by
  unfold retireSlice
  try dsimp only
  with_reducible repeat'
    first
    | assumption | apply updSpare_kin | apply portDown_kin | apply updPort_kin | apply steer_kin | apply enterTrain_kin
    | apply commitRepair_kin | apply bump_kin | split | apply kin_fst (by assumption) | apply kin_snd (by assumption)
    | intro _
    | (apply kin_other; first | assumption | apply updSpare_kin | apply portDown_kin | apply updPort_kin | apply steer_kin | apply enterTrain_kin | apply commitRepair_kin | apply bump_kin)
    | (apply kin_other; apply kin_other; first | assumption | apply updSpare_kin | apply portDown_kin | apply updPort_kin | apply steer_kin | apply enterTrain_kin | apply commitRepair_kin | apply bump_kin)
    | (apply kin_mk <;> first | assumption | apply updSpare_kin | apply portDown_kin | apply updPort_kin | apply steer_kin | apply enterTrain_kin | apply commitRepair_kin | apply bump_kin | (intro w; first | exact w | exact wf_set _ _ w | exact wf_upd _ _ w | exact wf_del _ w | exact wf_keep _ w | exact wf_mapV _ w | exact wf_filter _ w | (simp; done) | (simpa using w) | (rw [length_listSet]; exact w)))

theorem failPosition_kin {a0 : Dev} {d : Dev} {p : Nat} (hK : Kin a0 d) : Kin a0 (failPosition d p) := by
  unfold failPosition
  try dsimp only
  with_reducible repeat'
    first
    | assumption | apply updSpare_kin | apply portDown_kin | apply commitRepair_kin | split | intro _
    | (apply kin_other; first | assumption | apply updSpare_kin | apply portDown_kin | apply commitRepair_kin)
    | (apply kin_other; apply kin_other; first | assumption | apply updSpare_kin | apply portDown_kin | apply commitRepair_kin)
    | (apply kin_mk <;> first | assumption | apply updSpare_kin | apply portDown_kin | apply commitRepair_kin | (intro w; first | exact w | exact wf_set _ _ w | exact wf_upd _ _ w | exact wf_del _ w | exact wf_keep _ w | exact wf_mapV _ w | exact wf_filter _ w | (simp; done) | (simpa using w) | (rw [length_listSet]; exact w)))

theorem failEngine_kin {a0 : Dev} {d : Dev} {e : Nat} (hK : Kin a0 d) : Kin a0 (failEngine d e) := by
  unfold failEngine
  try dsimp only
  with_reducible repeat' first | assumption | apply forEach_kin | apply portDown_kin | apply failPosition_kin | intro _

theorem wearLevel_kin {a0 : Dev} {d : Dev} {p level : Nat} (hK : Kin a0 d) : Kin a0 (wearLevel d p level) := by
  unfold wearLevel
  try dsimp only
  with_reducible repeat'
    first
    | assumption | apply updPort_kin | apply setCtr_kin | apply raiseTrap_kin | apply saveSpare_kin | apply updSpare_kin
    | apply failPosition_kin | apply kinO_getD | split | intro _
    | (apply kin_other; first | assumption | apply updPort_kin | apply setCtr_kin | apply raiseTrap_kin | apply saveSpare_kin | apply updSpare_kin | apply failPosition_kin | apply kinO_getD)
    | (apply kin_other; apply kin_other; first | assumption | apply updPort_kin | apply setCtr_kin | apply raiseTrap_kin | apply saveSpare_kin | apply updSpare_kin | apply failPosition_kin | apply kinO_getD)
    | (apply kin_mk <;> first | assumption | apply updPort_kin | apply setCtr_kin | apply raiseTrap_kin | apply saveSpare_kin | apply updSpare_kin | apply failPosition_kin | apply kinO_getD | (intro w; first | exact w | exact wf_set _ _ w | exact wf_upd _ _ w | exact wf_del _ w | exact wf_keep _ w | exact wf_mapV _ w | exact wf_filter _ w | (simp; done) | (simpa using w) | (rw [length_listSet]; exact w)))

theorem putChan_kin {a0 : Dev} {d : Dev} {c : Nat} {r : ChanRec} (hK : Kin a0 d) : Kin a0 (putChan d c r) := by
  unfold putChan
  try dsimp only
  with_reducible repeat'
    first
    | assumption | apply updSpare_kin | intro _ | (apply kin_other; first | assumption | apply updSpare_kin)
    | (apply kin_other; apply kin_other; first | assumption | apply updSpare_kin)
    | (apply kin_mk <;> first | assumption | apply updSpare_kin | (intro w; first | exact w | exact wf_set _ _ w | exact wf_upd _ _ w | exact wf_del _ w | exact wf_keep _ w | exact wf_mapV _ w | exact wf_filter _ w | (simp; done) | (simpa using w) | (rw [length_listSet]; exact w)))

theorem chanSettle_kin {a0 : Dev} {d : Dev} {c : Nat} (hK : Kin a0 d) : Kin a0 (chanSettle d c) := by
  unfold chanSettle
  try dsimp only
  with_reducible repeat'
    first
    | assumption | apply forEach_kin | apply commitRepair_kin | apply putChan_kin | apply withdrawSelf_kin | split | intro _
    | (apply kin_other; first | assumption | apply forEach_kin | apply commitRepair_kin | apply putChan_kin | apply withdrawSelf_kin)
    | (apply kin_other; apply kin_other; first | assumption | apply forEach_kin | apply commitRepair_kin | apply putChan_kin | apply withdrawSelf_kin)
    | (apply kin_mk <;> first | assumption | apply forEach_kin | apply commitRepair_kin | apply putChan_kin | apply withdrawSelf_kin | (intro w; first | exact w | exact wf_set _ _ w | exact wf_upd _ _ w | exact wf_del _ w | exact wf_keep _ w | exact wf_mapV _ w | exact wf_filter _ w | (simp; done) | (simpa using w) | (rw [length_listSet]; exact w)))

theorem retireChannel_kin {a0 : Dev} {d : Dev} {c : Nat} (hK : Kin a0 d) : Kin a0 (retireChannel d c) := by
  unfold retireChannel
  try dsimp only
  with_reducible repeat'
    first
    | assumption | apply chanSettle_kin | apply commitRepair_kin | apply putChan_kin | apply updMem_kin | apply dropChan_kin
    | apply kinO_getD | split | apply kin_fst (by assumption) | apply kin_snd (by assumption) | intro _
    | (apply kin_other; first | assumption | apply chanSettle_kin | apply commitRepair_kin | apply putChan_kin | apply updMem_kin | apply dropChan_kin | apply kinO_getD)
    | (apply kin_other; apply kin_other; first | assumption | apply chanSettle_kin | apply commitRepair_kin | apply putChan_kin | apply updMem_kin | apply dropChan_kin | apply kinO_getD)
    | (apply kin_mk <;> first | assumption | apply chanSettle_kin | apply commitRepair_kin | apply putChan_kin | apply updMem_kin | apply dropChan_kin | apply kinO_getD | (intro w; first | exact w | exact wf_set _ _ w | exact wf_upd _ _ w | exact wf_del _ w | exact wf_keep _ w | exact wf_mapV _ w | exact wf_filter _ w | (simp; done) | (simpa using w) | (rw [length_listSet]; exact w)))

theorem loseStack_kin {a0 : Dev} {d : Dev} {k : Nat} (hK : Kin a0 d) : Kin a0 (loseStack d k) := by
  unfold loseStack
  try dsimp only
  with_reducible repeat'
    first
    | assumption | apply withdrawSelf_kin | apply forEach_kin | apply commitRepair_kin | apply putChan_kin
    | apply dropChan_kin | apply kinO_getD | split | intro _
    | (apply kin_other; first | assumption | apply withdrawSelf_kin | apply forEach_kin | apply commitRepair_kin | apply putChan_kin | apply dropChan_kin | apply kinO_getD)
    | (apply kin_other; apply kin_other; first | assumption | apply withdrawSelf_kin | apply forEach_kin | apply commitRepair_kin | apply putChan_kin | apply dropChan_kin | apply kinO_getD)
    | (apply kin_mk <;> first | assumption | apply withdrawSelf_kin | apply forEach_kin | apply commitRepair_kin | apply putChan_kin | apply dropChan_kin | apply kinO_getD | (intro w; first | exact w | exact wf_set _ _ w | exact wf_upd _ _ w | exact wf_del _ w | exact wf_keep _ w | exact wf_mapV _ w | exact wf_filter _ w | (simp; done) | (simpa using w) | (rw [length_listSet]; exact w)))

theorem retireLane_kin {a0 : Dev} {d : Dev} {l : Nat} (hK : Kin a0 d) : Kin a0 (retireLane d l) := by
  unfold retireLane
  try dsimp only
  with_reducible repeat'
    first
    | assumption | apply updSpare_kin | apply commitRepair_kin | apply withdrawSelf_kin | split | intro _
    | (apply kin_other; first | assumption | apply updSpare_kin | apply commitRepair_kin | apply withdrawSelf_kin)
    | (apply kin_other; apply kin_other; first | assumption | apply updSpare_kin | apply commitRepair_kin | apply withdrawSelf_kin)
    | (apply kin_mk <;> first | assumption | apply updSpare_kin | apply commitRepair_kin | apply withdrawSelf_kin | (intro w; first | exact w | exact wf_set _ _ w | exact wf_upd _ _ w | exact wf_del _ w | exact wf_keep _ w | exact wf_mapV _ w | exact wf_filter _ w | (simp; done) | (simpa using w) | (rw [length_listSet]; exact w)))

theorem loseLink_kin {a0 : Dev} {d : Dev} {l : Nat} (hK : Kin a0 d) : Kin a0 (loseLink d l) := by
  unfold loseLink
  try dsimp only
  with_reducible repeat'
    first
    | assumption | apply retireDie_kin | apply withdrawSelf_kin | apply loseFace_kin | split | intro _
    | (apply kin_other; first | assumption | apply retireDie_kin | apply withdrawSelf_kin | apply loseFace_kin)
    | (apply kin_other; apply kin_other; first | assumption | apply retireDie_kin | apply withdrawSelf_kin | apply loseFace_kin)
    | (apply kin_mk <;> first | assumption | apply retireDie_kin | apply withdrawSelf_kin | apply loseFace_kin | (intro w; first | exact w | exact wf_set _ _ w | exact wf_upd _ _ w | exact wf_del _ w | exact wf_keep _ w | exact wf_mapV _ w | exact wf_filter _ w | (simp; done) | (simpa using w) | (rw [length_listSet]; exact w)))

theorem groupOut_kin {a0 : Dev} {d : Dev} {l : Nat} (hK : Kin a0 d) : Kin a0 (groupOut d l) := by
  unfold groupOut
  try dsimp only
  with_reducible repeat'
    first
    | assumption | apply updSpare_kin | apply bump_kin | apply raiseTrap_kin | apply commitSpare_kin | apply loseLink_kin
    | split | apply kin_fst (by assumption) | apply kin_snd (by assumption) | intro _
    | (apply kin_other; first | assumption | apply updSpare_kin | apply bump_kin | apply raiseTrap_kin | apply commitSpare_kin | apply loseLink_kin)
    | (apply kin_other; apply kin_other; first | assumption | apply updSpare_kin | apply bump_kin | apply raiseTrap_kin | apply commitSpare_kin | apply loseLink_kin)
    | (apply kin_mk <;> first | assumption | apply updSpare_kin | apply bump_kin | apply raiseTrap_kin | apply commitSpare_kin | apply loseLink_kin | (intro w; first | exact w | exact wf_set _ _ w | exact wf_upd _ _ w | exact wf_del _ w | exact wf_keep _ w | exact wf_mapV _ w | exact wf_filter _ w | (simp; done) | (simpa using w) | (rw [length_listSet]; exact w)))

theorem laneGroup_kin {a0 : Dev} {d : Dev} {l n : Nat} (hK : Kin a0 d) : Kin a0 (laneGroup d l n) := by
  unfold laneGroup
  try dsimp only
  with_reducible repeat' first | assumption | apply bumpBy_kin | apply groupOut_kin | split | intro _

theorem execLaneGroupFail_kin {group : GroupRetries} {s : State}  : KinS s (execLaneGroupFail group s) := by
  unfold execLaneGroupFail
  try dsimp only
  with_reducible repeat'
    first
    | assumption | exact kinS_fault | exact Kin.refl _ | apply onLinks_kin | apply flushAll_kin | apply laneGroup_kin
    | intro _

theorem dropParts_kin {a0 : Dev} {d : Dev} {p : Nat} (hK : Kin a0 d) : Kin a0 (dropParts d p) := by
  unfold dropParts
  try dsimp only
  with_reducible repeat'
    first
    | assumption | apply updPort_kin | split | intro _ | (apply kin_other; first | assumption | apply updPort_kin)
    | (apply kin_other; apply kin_other; first | assumption | apply updPort_kin)
    | (apply kin_mk <;> first | assumption | apply updPort_kin | (intro w; first | exact w | exact wf_set _ _ w | exact wf_upd _ _ w | exact wf_del _ w | exact wf_keep _ w | exact wf_mapV _ w | exact wf_filter _ w | (simp; done) | (simpa using w) | (rw [length_listSet]; exact w)))

theorem dropHeldOn_kin {a0 : Dev} {d : Dev} {held : List HeldPacket} {p : Nat} (hK : Kin a0 d) : Kin a0 (dropHeldOn d held p) := by
  unfold dropHeldOn
  try dsimp only
  with_reducible repeat'
    first
    | assumption | apply updPort_kin | apply lostHoists_kin | apply forEach_kin | apply lostPacket_kin
    | apply endLostHoists_kin | split | apply kin_fst (by assumption) | apply kin_snd (by assumption) | intro _
    | (apply kin_other; first | assumption | apply updPort_kin | apply lostHoists_kin | apply forEach_kin | apply lostPacket_kin | apply endLostHoists_kin)
    | (apply kin_other; apply kin_other; first | assumption | apply updPort_kin | apply lostHoists_kin | apply forEach_kin | apply lostPacket_kin | apply endLostHoists_kin)
    | (apply kin_mk <;> first | assumption | apply updPort_kin | apply lostHoists_kin | apply forEach_kin | apply lostPacket_kin | apply endLostHoists_kin | (intro w; first | exact w | exact wf_set _ _ w | exact wf_upd _ _ w | exact wf_del _ w | exact wf_keep _ w | exact wf_mapV _ w | exact wf_filter _ w | (simp; done) | (simpa using w) | (rw [length_listSet]; exact w)))

theorem dropPast_kin {a0 : Dev} {d : Dev} {die : Nat} {held : List HeldPacket} (hK : Kin a0 d) : Kin a0 (dropPast d die held) := by
  unfold dropPast
  try dsimp only
  with_reducible repeat'
    first
    | assumption | intro _ | (apply kin_other; first | assumption) | (apply kin_other; apply kin_other; first | assumption)
    | (apply kin_mk <;> first | assumption | (intro w; first | exact w | exact wf_set _ _ w | exact wf_upd _ _ w | exact wf_del _ w | exact wf_keep _ w | exact wf_mapV _ w | exact wf_filter _ w | (simp; done) | (simpa using w) | (rw [length_listSet]; exact w)))

theorem cutLine_kin {a0 : Dev} {d : Dev} {u part : Nat} (hK : Kin a0 d) : Kin a0 (cutLine d u part) := by
  unfold cutLine
  try dsimp only
  with_reducible repeat'
    first
    | assumption | apply updSpare_kin | apply kinO_getD | intro _
    | (apply kin_other; first | assumption | apply updSpare_kin | apply kinO_getD)
    | (apply kin_other; apply kin_other; first | assumption | apply updSpare_kin | apply kinO_getD)
    | (apply kin_mk <;> first | assumption | apply updSpare_kin | apply kinO_getD | (intro w; first | exact w | exact wf_set _ _ w | exact wf_upd _ _ w | exact wf_del _ w | exact wf_keep _ w | exact wf_mapV _ w | exact wf_filter _ w | (simp; done) | (simpa using w) | (rw [length_listSet]; exact w)))

theorem sramLost_kin {a0 : Dev} {d : Dev} {die : Nat} {a : SramArea} (hK : Kin a0 d) : Kin a0 (sramLost d die a) := by
  unfold sramLost
  try dsimp only
  with_reducible repeat'
    first
    | assumption | apply forEach_kin | apply unitFailCtx_kin | apply dropSample_kin | apply portDown_kin | apply dropPast_kin
    | apply dropParts_kin | apply dropHeldOn_kin | apply updMem_kin | apply markJob_kin | apply withdrawSelf_kin | split
    | apply kin_fst (by assumption) | apply kin_snd (by assumption) | intro _
    | (apply kin_other; first | assumption | apply forEach_kin | apply unitFailCtx_kin | apply dropSample_kin | apply portDown_kin | apply dropPast_kin | apply dropParts_kin | apply dropHeldOn_kin | apply updMem_kin | apply markJob_kin | apply withdrawSelf_kin)
    | (apply kin_other; apply kin_other; first | assumption | apply forEach_kin | apply unitFailCtx_kin | apply dropSample_kin | apply portDown_kin | apply dropPast_kin | apply dropParts_kin | apply dropHeldOn_kin | apply updMem_kin | apply markJob_kin | apply withdrawSelf_kin)
    | (apply kin_mk <;> first | assumption | apply forEach_kin | apply unitFailCtx_kin | apply dropSample_kin | apply portDown_kin | apply dropPast_kin | apply dropParts_kin | apply dropHeldOn_kin | apply updMem_kin | apply markJob_kin | apply withdrawSelf_kin | (intro w; first | exact w | exact wf_set _ _ w | exact wf_upd _ _ w | exact wf_del _ w | exact wf_keep _ w | exact wf_mapV _ w | exact wf_filter _ w | (simp; done) | (simpa using w) | (rw [length_listSet]; exact w)))

theorem rowLost_kin {a0 : Dev} {d : Dev} {die : Nat} {a : SramArea} (hK : Kin a0 d) : Kin a0 (rowLost d die a) := by
  unfold rowLost
  try dsimp only
  with_reducible repeat'
    first
    | assumption | apply retireSeam_kin | apply retireSlice_kin | apply loseFace_kin | apply updMem_kin | apply cutLine_kin
    | apply withdrawSelf_kin | split | apply kin_fst (by assumption) | apply kin_snd (by assumption) | intro _
    | (apply kin_other; first | assumption | apply retireSeam_kin | apply retireSlice_kin | apply loseFace_kin | apply updMem_kin | apply cutLine_kin | apply withdrawSelf_kin)
    | (apply kin_other; apply kin_other; first | assumption | apply retireSeam_kin | apply retireSlice_kin | apply loseFace_kin | apply updMem_kin | apply cutLine_kin | apply withdrawSelf_kin)
    | (apply kin_mk <;> first | assumption | apply retireSeam_kin | apply retireSlice_kin | apply loseFace_kin | apply updMem_kin | apply cutLine_kin | apply withdrawSelf_kin | (intro w; first | exact w | exact wf_set _ _ w | exact wf_upd _ _ w | exact wf_del _ w | exact wf_keep _ w | exact wf_mapV _ w | exact wf_filter _ w | (simp; done) | (simpa using w) | (rw [length_listSet]; exact w)))

theorem replaceRow_kin {a0 : Dev} {d : Dev} {die bank : Nat} {a : SramArea} (hK : Kin a0 d) : Kin a0 (replaceRow d die bank a) := by
  unfold replaceRow
  try dsimp only
  with_reducible repeat'
    first
    | assumption | apply updSpare_kin | apply commitRepair_kin | apply bump_kin | apply rowLost_kin | apply kinO_getD | split
    | intro _
    | (apply kin_other; first | assumption | apply updSpare_kin | apply commitRepair_kin | apply bump_kin | apply rowLost_kin | apply kinO_getD)
    | (apply kin_other; apply kin_other; first | assumption | apply updSpare_kin | apply commitRepair_kin | apply bump_kin | apply rowLost_kin | apply kinO_getD)
    | (apply kin_mk <;> first | assumption | apply updSpare_kin | apply commitRepair_kin | apply bump_kin | apply rowLost_kin | apply kinO_getD | (intro w; first | exact w | exact wf_set _ _ w | exact wf_upd _ _ w | exact wf_del _ w | exact wf_keep _ w | exact wf_mapV _ w | exact wf_filter _ w | (simp; done) | (simpa using w) | (rw [length_listSet]; exact w)))

theorem sramCorrected_kin {a0 : Dev} {d : Dev} {die bank row : Nat} {a : SramArea} (hK : Kin a0 d) : Kin a0 (sramCorrected d die bank row a) := by
  unfold sramCorrected
  try dsimp only
  with_reducible repeat'
    first
    | assumption | apply updSpare_kin | apply bump_kin | apply replaceRow_kin | apply kinO_getD | split | intro _
    | (apply kin_other; first | assumption | apply updSpare_kin | apply bump_kin | apply replaceRow_kin | apply kinO_getD)
    | (apply kin_other; apply kin_other; first | assumption | apply updSpare_kin | apply bump_kin | apply replaceRow_kin | apply kinO_getD)
    | (apply kin_mk <;> first | assumption | apply updSpare_kin | apply bump_kin | apply replaceRow_kin | apply kinO_getD | (intro w; first | exact w | exact wf_set _ _ w | exact wf_upd _ _ w | exact wf_del _ w | exact wf_keep _ w | exact wf_mapV _ w | exact wf_filter _ w | (simp; done) | (simpa using w) | (rw [length_listSet]; exact w)))

theorem sramRow_kin {a0 : Dev} {d : Dev} {die bank row : Nat} {uncorr : Bool} {a : SramArea} (hK : Kin a0 d) : Kin a0 (sramRow d die bank row uncorr a) := by
  unfold sramRow
  try dsimp only
  with_reducible repeat'
    first
    | assumption | apply updSpare_kin | apply raiseTrap_kin | apply bump_kin | apply replaceRow_kin | apply sramLost_kin
    | apply sramCorrected_kin | split | intro _
    | (apply kin_other; first | assumption | apply updSpare_kin | apply raiseTrap_kin | apply bump_kin | apply replaceRow_kin | apply sramLost_kin | apply sramCorrected_kin)
    | (apply kin_other; apply kin_other; first | assumption | apply updSpare_kin | apply raiseTrap_kin | apply bump_kin | apply replaceRow_kin | apply sramLost_kin | apply sramCorrected_kin)
    | (apply kin_mk <;> first | assumption | apply updSpare_kin | apply raiseTrap_kin | apply bump_kin | apply replaceRow_kin | apply sramLost_kin | apply sramCorrected_kin | (intro w; first | exact w | exact wf_set _ _ w | exact wf_upd _ _ w | exact wf_del _ w | exact wf_keep _ w | exact wf_mapV _ w | exact wf_filter _ w | (simp; done) | (simpa using w) | (rw [length_listSet]; exact w)))

theorem repair_kin {a0 : Dev} {d : Dev} {t : Trigger} (hK : Kin a0 d) : Kin a0 (repair d t) := by
  unfold repair
  try dsimp only
  with_reducible repeat'
    first
    | assumption | apply retireSlice_kin | apply failPosition_kin | apply failEngine_kin | apply retireSeam_kin
    | apply retireDie_kin | apply seamFault_kin | apply retireChannel_kin | apply loseStack_kin | apply retireLane_kin
    | apply sramRow_kin | split | apply kin_fst (by assumption) | apply kin_snd (by assumption) | intro _

theorem execRepairTrigger_kin {t : Trigger} {s : State}  : KinS s (execRepairTrigger t s) := by
  unfold execRepairTrigger
  try dsimp only
  with_reducible repeat'
    first
    | assumption | exact kinS_fault | exact Kin.refl _ | apply onLinks_kin | apply poolsSettle_kin | apply flushAll_kin
    | apply repair_kin | split | intro _

theorem execWear_kin {port level : Nat} {s : State}  : KinS s (execWear port level s) := by
  unfold execWear
  try dsimp only
  with_reducible repeat'
    first
    | assumption | exact kinS_fault | exact Kin.refl _ | apply onLinks_kin | apply wearLevel_kin | intro _

theorem rebuildStripe_kin {a0 : Dev} {d : Dev} {u p n : Nat} (hK : Kin a0 d) : Kin a0 (rebuildStripe d u p n) := by
  unfold rebuildStripe
  try dsimp only
  with_reducible repeat'
    first
    | assumption | apply forEach_kin | apply xorBlock_kin | apply putErr_kin | apply stripeLost_kin | split
    | apply kin_fst (by assumption) | apply kin_snd (by assumption) | intro _
    | (apply kin_other; first | assumption | apply forEach_kin | apply xorBlock_kin | apply putErr_kin | apply stripeLost_kin)
    | (apply kin_other; apply kin_other; first | assumption | apply forEach_kin | apply xorBlock_kin | apply putErr_kin | apply stripeLost_kin)
    | (apply kin_mk <;> first | assumption | apply forEach_kin | apply xorBlock_kin | apply putErr_kin | apply stripeLost_kin | (intro w; first | exact w | exact wf_set _ _ w | exact wf_upd _ _ w | exact wf_del _ w | exact wf_keep _ w | exact wf_mapV _ w | exact wf_filter _ w | (simp; done) | (simpa using w) | (rw [length_listSet]; exact w)))

theorem channelDone_kin {a0 : Dev} {d : Dev} {c : Nat} (hK : Kin a0 d) : Kin a0 (channelDone d c) := by
  unfold channelDone
  try dsimp only
  with_reducible repeat'
    first
    | assumption | apply updMem_kin | apply forEach_kin | apply rebuildStripe_kin | apply putChan_kin
    | apply retireChannel_kin | apply finishCmds_kin | apply chanSettle_kin | apply kinO_getD | split
    | apply kin_fst (by assumption) | apply kin_snd (by assumption) | intro _
    | (apply kin_other; first | assumption | apply updMem_kin | apply forEach_kin | apply rebuildStripe_kin | apply putChan_kin | apply retireChannel_kin | apply finishCmds_kin | apply chanSettle_kin | apply kinO_getD)
    | (apply kin_other; apply kin_other; first | assumption | apply updMem_kin | apply forEach_kin | apply rebuildStripe_kin | apply putChan_kin | apply retireChannel_kin | apply finishCmds_kin | apply chanSettle_kin | apply kinO_getD)
    | (apply kin_mk <;> first | assumption | apply updMem_kin | apply forEach_kin | apply rebuildStripe_kin | apply putChan_kin | apply retireChannel_kin | apply finishCmds_kin | apply chanSettle_kin | apply kinO_getD | (intro w; first | exact w | exact wf_set _ _ w | exact wf_upd _ _ w | exact wf_del _ w | exact wf_keep _ w | exact wf_mapV _ w | exact wf_filter _ w | (simp; done) | (simpa using w) | (rw [length_listSet]; exact w)))

theorem execChannelRebuildDone_kin {channel : Nat} {s : State}  : KinS s (execChannelRebuildDone channel s) := by
  unfold execChannelRebuildDone
  try dsimp only
  with_reducible repeat'
    first
    | assumption | exact kinS_fault | exact Kin.refl _ | apply onUnit_kin | apply poolsSettle_kin | apply channelDone_kin
    | intro _

theorem scrubStripe_kin {a0 : Dev} {d : Dev} {u n : Nat} (hK : Kin a0 d) : Kin a0 (scrubStripe d u n) := by
  unfold scrubStripe
  try dsimp only
  with_reducible repeat'
    first
    | assumption | apply updMem_kin | apply countInner_kin | apply bump_kin | apply forEach_kin | apply putErr_kin
    | apply xorBlock_kin | apply stripeLost_kin | split | apply kin_fst (by assumption) | apply kin_snd (by assumption)
    | intro _
    | (apply kin_other; first | assumption | apply updMem_kin | apply countInner_kin | apply bump_kin | apply forEach_kin | apply putErr_kin | apply xorBlock_kin | apply stripeLost_kin)
    | (apply kin_other; apply kin_other; first | assumption | apply updMem_kin | apply countInner_kin | apply bump_kin | apply forEach_kin | apply putErr_kin | apply xorBlock_kin | apply stripeLost_kin)
    | (apply kin_mk <;> first | assumption | apply updMem_kin | apply countInner_kin | apply bump_kin | apply forEach_kin | apply putErr_kin | apply xorBlock_kin | apply stripeLost_kin | (intro w; first | exact w | exact wf_set _ _ w | exact wf_upd _ _ w | exact wf_del _ w | exact wf_keep _ w | exact wf_mapV _ w | exact wf_filter _ w | (simp; done) | (simpa using w) | (rw [length_listSet]; exact w)))

theorem scrubDie_kin {a0 : Dev} {d : Dev} {u n : Nat} {strikes : List Strike} (hK : Kin a0 d) : Kin a0 (scrubDie d u n strikes) := by
  unfold scrubDie
  try dsimp only
  with_reducible repeat'
    first
    | assumption | apply foldl_kin | apply bindWalk_kin | apply forEach_kin | apply settleMem_kin | apply strike_kin
    | apply bumpBy_kin | apply updMem_kin | apply scrubStripe_kin | split | intro _
    | (apply kin_other; first | assumption | apply foldl_kin | apply bindWalk_kin | apply forEach_kin | apply settleMem_kin | apply strike_kin | apply bumpBy_kin | apply updMem_kin | apply scrubStripe_kin)
    | (apply kin_other; apply kin_other; first | assumption | apply foldl_kin | apply bindWalk_kin | apply forEach_kin | apply settleMem_kin | apply strike_kin | apply bumpBy_kin | apply updMem_kin | apply scrubStripe_kin)
    | (apply kin_mk <;> first | assumption | apply foldl_kin | apply bindWalk_kin | apply forEach_kin | apply settleMem_kin | apply strike_kin | apply bumpBy_kin | apply updMem_kin | apply scrubStripe_kin | (intro w; first | exact w | exact wf_set _ _ w | exact wf_upd _ _ w | exact wf_del _ w | exact wf_keep _ w | exact wf_mapV _ w | exact wf_filter _ w | (simp; done) | (simpa using w) | (rw [length_listSet]; exact w)))

theorem execScrub_kin {walk : ScrubWalk} {s : State}  : KinS s (execScrub walk s) := by
  unfold execScrub
  try dsimp only
  with_reducible repeat'
    first
    | assumption | exact kinS_fault | exact Kin.refl _ | apply onUnit_kin | apply poolsSettle_kin | apply flushAll_kin
    | apply scrubDie_kin | intro _

theorem testDone_kin {a0 : Dev} {d : Dev} {act chk : Nat} {actOk chkOk : Bool} (hK : Kin a0 d) : Kin a0 (testDone d act chk actOk chkOk) := by
  unfold testDone
  try dsimp only
  with_reducible repeat'
    first
    | assumption | apply updSpare_kin | apply retireSeam_kin | split | intro _
    | (apply kin_other; first | assumption | apply updSpare_kin | apply retireSeam_kin)
    | (apply kin_other; apply kin_other; first | assumption | apply updSpare_kin | apply retireSeam_kin)
    | (apply kin_mk <;> first | assumption | apply updSpare_kin | apply retireSeam_kin | (intro w; first | exact w | exact wf_set _ _ w | exact wf_upd _ _ w | exact wf_del _ w | exact wf_keep _ w | exact wf_mapV _ w | exact wf_filter _ w | (simp; done) | (simpa using w) | (rw [length_listSet]; exact w)))

theorem execBuiltinTestDone_kin {active checking : Nat} {activeOk checkingOk : Bool} {s : State}  : KinS s (execBuiltinTestDone active checking activeOk checkingOk s) := by
  unfold execBuiltinTestDone
  try dsimp only
  with_reducible repeat'
    first
    | assumption | exact kinS_fault | exact Kin.refl _ | apply onUnit_kin | apply poolsSettle_kin | apply flushAll_kin
    | apply testDone_kin | intro _

end Sys2Proof.Machine
end

