-- ==== Sys2Proof/Laws/KinUpdate.lean ====
section
/-!
SUPPORT. Sys2Proof/Laws/KinUpdate.lean: every operation of Update.lean keeps time, identity and the form of the tables.
-/
namespace Sys2Proof.Machine
open SMap

theorem acceptSlab_kin {a0 : Dev} {d : Dev} {c b : Nat} (hK : Kin a0 d) : Kin a0 (acceptSlab d c b) := by
  unfold acceptSlab
  try dsimp only
  with_reducible repeat'
    first
    | assumption | apply updCtx_kin | apply slabDone_kin | split | intro _
    | (apply kin_other; first | assumption | apply updCtx_kin | apply slabDone_kin)
    | (apply kin_other; apply kin_other; first | assumption | apply updCtx_kin | apply slabDone_kin)
    | (apply kin_mk <;> first | assumption | apply updCtx_kin | apply slabDone_kin | (intro w; first | exact w | exact wf_set _ _ w | exact wf_upd _ _ w | exact wf_del _ w | exact wf_keep _ w | exact wf_mapV _ w | exact wf_filter _ w | (simp; done) | (simpa using w) | (rw [length_listSet]; exact w)))

theorem updInput_kin {a0 : Dev} {d : Dev} {e : Env} {c b : Nat} {copy : CopyData} (hK : Kin a0 d) : Kin a0 (updInput d e c b copy).dev := by
  unfold updInput
  try dsimp only
  with_reducible repeat'
    first
    | assumption | apply fetchStage_kin | apply stagingRead_kin | apply stageStale_kin | apply kinO_getD | split
    | apply kin_fst (by assumption) | apply kin_snd (by assumption) | intro _
    | (apply kin_other; first | assumption | apply fetchStage_kin | apply stagingRead_kin | apply stageStale_kin | apply kinO_getD)
    | (apply kin_other; apply kin_other; first | assumption | apply fetchStage_kin | apply stagingRead_kin | apply stageStale_kin | apply kinO_getD)
    | (apply kin_mk <;> first | assumption | apply fetchStage_kin | apply stagingRead_kin | apply stageStale_kin | apply kinO_getD | (intro w; first | exact w | exact wf_set _ _ w | exact wf_upd _ _ w | exact wf_del _ w | exact wf_keep _ w | exact wf_mapV _ w | exact wf_filter _ w | (simp; done) | (simpa using w) | (rw [length_listSet]; exact w)))

theorem updRead_kin {a0 : Dev} {d : Dev} {e : Env} {c b v : Nat} (hK : Kin a0 d) : Kin a0 (updRead d e c b v).dev := by
  unfold updRead
  try dsimp only
  with_reducible repeat'
    first
    | assumption | apply readMeta_kin | apply walkDie_kin | apply fetchCopy_kin | apply updInput_kin | split | intro _
    | (apply kin_other; first | assumption | apply readMeta_kin | apply walkDie_kin | apply fetchCopy_kin | apply updInput_kin)
    | (apply kin_other; apply kin_other; first | assumption | apply readMeta_kin | apply walkDie_kin | apply fetchCopy_kin | apply updInput_kin)
    | (apply kin_mk <;> first | assumption | apply readMeta_kin | apply walkDie_kin | apply fetchCopy_kin | apply updInput_kin | (intro w; first | exact w | exact wf_set _ _ w | exact wf_upd _ _ w | exact wf_del _ w | exact wf_keep _ w | exact wf_mapV _ w | exact wf_filter _ w | (simp; done) | (simpa using w) | (rw [length_listSet]; exact w)))

theorem updStopped_kin {a0 : Dev} {d : Dev} {j die : Nat} (hK : Kin a0 d) : Kin a0 (updStopped d j die) := by
  unfold updStopped
  try dsimp only
  with_reducible repeat'
    first
    | assumption | apply updJob_kin | apply bump_kin | intro _
    | (apply kin_other; first | assumption | apply updJob_kin | apply bump_kin)
    | (apply kin_other; apply kin_other; first | assumption | apply updJob_kin | apply bump_kin)
    | (apply kin_mk <;> first | assumption | apply updJob_kin | apply bump_kin | (intro w; first | exact w | exact wf_set _ _ w | exact wf_upd _ _ w | exact wf_del _ w | exact wf_keep _ w | exact wf_mapV _ w | exact wf_filter _ w | (simp; done) | (simpa using w) | (rw [length_listSet]; exact w)))

theorem stepValueEvent_kin {a0 : Dev} {d : Dev} {j die : Nat} (hK : Kin a0 d) : Kin a0 (stepValueEvent d j die) := by
  unfold stepValueEvent
  try dsimp only
  with_reducible repeat'
    first
    | assumption | apply nfTrap_kin | apply updStopped_kin | apply markJob_kin | intro _
    | (apply kin_other; first | assumption | apply nfTrap_kin | apply updStopped_kin | apply markJob_kin)
    | (apply kin_other; apply kin_other; first | assumption | apply nfTrap_kin | apply updStopped_kin | apply markJob_kin)
    | (apply kin_mk <;> first | assumption | apply nfTrap_kin | apply updStopped_kin | apply markJob_kin | (intro w; first | exact w | exact wf_set _ _ w | exact wf_upd _ _ w | exact wf_del _ w | exact wf_keep _ w | exact wf_mapV _ w | exact wf_filter _ w | (simp; done) | (simpa using w) | (rw [length_listSet]; exact w)))

theorem laneEvent_kin {a0 : Dev} {d : Dev} {j die c b lane : Nat} (hK : Kin a0 d) : Kin a0 (laneEvent d j die c b lane) := by
  unfold laneEvent
  try dsimp only
  with_reducible repeat'
    first
    | assumption | apply nfEvent_kin | apply updStopped_kin | intro _
    | (apply kin_other; first | assumption | apply nfEvent_kin | apply updStopped_kin)
    | (apply kin_other; apply kin_other; first | assumption | apply nfEvent_kin | apply updStopped_kin)
    | (apply kin_mk <;> first | assumption | apply nfEvent_kin | apply updStopped_kin | (intro w; first | exact w | exact wf_set _ _ w | exact wf_upd _ _ w | exact wf_del _ w | exact wf_keep _ w | exact wf_mapV _ w | exact wf_filter _ w | (simp; done) | (simpa using w) | (rw [length_listSet]; exact w)))

theorem laneResidue_kin {a0 : Dev} {d : Dev} {j die c b lane : Nat} (hK : Kin a0 d) : Kin a0 (laneResidue d j die c b lane) := by
  unfold laneResidue
  try dsimp only
  with_reducible repeat'
    first
    | assumption | apply drawFree_kin | apply raiseTrap_kin | apply retireLane_kin | apply markJob_kin
    | apply kin_fst (by assumption) | apply kin_snd (by assumption) | intro _
    | (apply kin_other; first | assumption | apply drawFree_kin | apply raiseTrap_kin | apply retireLane_kin | apply markJob_kin)
    | (apply kin_other; apply kin_other; first | assumption | apply drawFree_kin | apply raiseTrap_kin | apply retireLane_kin | apply markJob_kin)
    | (apply kin_mk <;> first | assumption | apply drawFree_kin | apply raiseTrap_kin | apply retireLane_kin | apply markJob_kin | (intro w; first | exact w | exact wf_set _ _ w | exact wf_upd _ _ w | exact wf_del _ w | exact wf_keep _ w | exact wf_mapV _ w | exact wf_filter _ w | (simp; done) | (simpa using w) | (rw [length_listSet]; exact w)))

theorem spoilLanes_kin {a0 : Dev} {hit : Nat → Bool} {y0 : Nat} {y1 : List (Option LaneOut)} {y2 : Dev} (hK : Kin a0 y2) :
    Kin a0 (spoilLanes hit y0 y1 y2).2 := by
  induction y1 generalizing y0 y2 with
  | nil => exact hK
  | cons o l ih =>
    unfold spoilLanes
    split
    · exact ih (drawMany_kin hK)
    · exact ih hK

theorem beginWrite_kin {a0 : Dev} {d : Dev} {j rn k c : Nat} {jb : Job} {r : Region} {x : Ctx} {valid : Nat} {data : CopyData} (hK : Kin a0 d) : Kin a0 (beginWrite d j rn k c jb r x valid data) := by
  unfold beginWrite
  try dsimp only
  with_reducible repeat'
    first
    | assumption | apply step_kin | apply updJob_kin | apply sendDelta_kin | intro _
    | (apply kin_other; first | assumption | apply step_kin | apply updJob_kin | apply sendDelta_kin)
    | (apply kin_other; apply kin_other; first | assumption | apply step_kin | apply updJob_kin | apply sendDelta_kin)
    | (apply kin_mk <;> first | assumption | apply step_kin | apply updJob_kin | apply sendDelta_kin | (intro w; first | exact w | exact wf_set _ _ w | exact wf_upd _ _ w | exact wf_del _ w | exact wf_keep _ w | exact wf_mapV _ w | exact wf_filter _ w | (simp; done) | (simpa using w) | (rw [length_listSet]; exact w)))

theorem updateSlab_kin {a0 : Dev} {d : Dev} {e : Env} {c b v : Nat} {rule : List W64} {residue : Option Nat} (hK : Kin a0 d) : Kin a0 (updateSlab d e c b v rule residue) := by
  unfold updateSlab
  try dsimp only
  with_reducible repeat'
    first
    | assumption | apply updRead_kin | apply acceptSlab_kin | apply markJob_kin | apply memUeSlab_kin
    | apply stepValueEvent_kin | apply spoilLanes_kin | apply laneResidue_kin | apply step_kin | apply laneEvent_kin
    | apply beginWrite_kin | split | apply kin_fst (by assumption) | apply kin_snd (by assumption) | intro _
    | (apply kin_other; first | assumption | apply updRead_kin | apply acceptSlab_kin | apply markJob_kin | apply memUeSlab_kin | apply stepValueEvent_kin | apply spoilLanes_kin | apply laneResidue_kin | apply step_kin | apply laneEvent_kin | apply beginWrite_kin)
    | (apply kin_other; apply kin_other; first | assumption | apply updRead_kin | apply acceptSlab_kin | apply markJob_kin | apply memUeSlab_kin | apply stepValueEvent_kin | apply spoilLanes_kin | apply laneResidue_kin | apply step_kin | apply laneEvent_kin | apply beginWrite_kin)
    | (apply kin_mk <;> first | assumption | apply updRead_kin | apply acceptSlab_kin | apply markJob_kin | apply memUeSlab_kin | apply stepValueEvent_kin | apply spoilLanes_kin | apply laneResidue_kin | apply step_kin | apply laneEvent_kin | apply beginWrite_kin | (intro w; first | exact w | exact wf_set _ _ w | exact wf_upd _ _ w | exact wf_del _ w | exact wf_keep _ w | exact wf_mapV _ w | exact wf_filter _ w | (simp; done) | (simpa using w) | (rw [length_listSet]; exact w)))

theorem updateAccept_kin {a0 : Dev} {d : Dev} {c b : Nat} {f : UpdFault} (hK : Kin a0 d) : Kin a0 (updateAccept d c b f) := by
  unfold updateAccept
  try dsimp only
  with_reducible repeat'
    first
    | assumption | apply acceptSlab_kin | apply stepValueEvent_kin | apply markJob_kin | apply memUeSlab_kin
    | apply updateSlab_kin | split | apply kin_fst (by assumption) | apply kin_snd (by assumption) | intro _

theorem execUpdateAccept_kin {ctx slab : Nat} {fault : UpdFault} {s : State}  : KinS s (execUpdateAccept ctx slab fault s) := by
  unfold execUpdateAccept
  try dsimp only
  with_reducible repeat'
    first
    | assumption | exact kinS_fault | exact Kin.refl _ | apply onUnit_kin | apply poolsSettle_kin | apply flushAll_kin
    | apply updateAccept_kin | intro _

theorem copyWritten_kin {a0 : Dev} {d : Dev} {w : PendingWrite} (hK : Kin a0 d) : Kin a0 (copyWritten d w) := by
  unfold copyWritten
  try dsimp only
  with_reducible repeat'
    first
    | assumption | apply step_kin | apply updSlab_kin | apply updJob_kin | apply writeCopy_kin | apply bump_kin
    | apply recResult_kin | apply haulStart_kin | split | apply kin_fst (by assumption) | apply kin_snd (by assumption)
    | intro _
    | (apply kin_other; first | assumption | apply step_kin | apply updSlab_kin | apply updJob_kin | apply writeCopy_kin | apply bump_kin | apply recResult_kin | apply haulStart_kin)
    | (apply kin_other; apply kin_other; first | assumption | apply step_kin | apply updSlab_kin | apply updJob_kin | apply writeCopy_kin | apply bump_kin | apply recResult_kin | apply haulStart_kin)
    | (apply kin_mk <;> first | assumption | apply step_kin | apply updSlab_kin | apply updJob_kin | apply writeCopy_kin | apply bump_kin | apply recResult_kin | apply haulStart_kin | (intro w; first | exact w | exact wf_set _ _ w | exact wf_upd _ _ w | exact wf_del _ w | exact wf_keep _ w | exact wf_mapV _ w | exact wf_filter _ w | (simp; done) | (simpa using w) | (rw [length_listSet]; exact w)))

theorem execCopyWriteComplete_kin {job region slab : Nat} {s : State}  : KinS s (execCopyWriteComplete job region slab s) := by
  unfold execCopyWriteComplete
  try dsimp only
  with_reducible repeat'
    first
    | assumption | exact kinS_fault | exact Kin.refl _ | apply onUnit_kin | apply poolsSettle_kin | apply settleLost_kin
    | apply copyWritten_kin | split | apply kin_fst (by assumption) | apply kin_snd (by assumption) | intro _

end Sys2Proof.Machine
end

