-- ==== Sys2Proof/Laws/KinContexts.lean ====
section
/-!
SUPPORT. Sys2Proof/Laws/KinContexts.lean: every operation of Contexts.lean keeps time, identity and the form of the tables.
-/
namespace Sys2Proof.Machine
open SMap

theorem countOpenRefusal_kin {a0 : Dev} {d : Dev} {j : Nat} {jb : Job} {c : Nat} {p : CtxParams} {detail : Nat} (hK : Kin a0 d) : Kin a0 (countOpenRefusal d j jb c p detail) := by
  unfold countOpenRefusal
  try dsimp only
  with_reducible repeat' first | assumption | apply quotaHit_kin | apply bump_kin | split | intro _

theorem acceptOpen_kin {a0 : Dev} {d : Dev} {j c : Nat} {p : CtxParams} {body : List W64} (hK : Kin a0 d) : Kin a0 (acceptOpen d j c p body) := by
  unfold acceptOpen
  try dsimp only
  with_reducible repeat'
    first
    | assumption | apply updCtx_kin | apply leaveCtx_kin | apply updJob_kin | apply bump_kin | split
    | apply kin_fst (by assumption) | apply kin_snd (by assumption) | intro _
    | (apply kin_other; first | assumption | apply updCtx_kin | apply leaveCtx_kin | apply updJob_kin | apply bump_kin)
    | (apply kin_other; apply kin_other; first | assumption | apply updCtx_kin | apply leaveCtx_kin | apply updJob_kin | apply bump_kin)
    | (apply kin_mk <;> first | assumption | apply updCtx_kin | apply leaveCtx_kin | apply updJob_kin | apply bump_kin | (intro w; first | exact w | exact wf_set _ _ w | exact wf_upd _ _ w | exact wf_del _ w | exact wf_keep _ w | exact wf_mapV _ w | exact wf_filter _ w | (simp; done) | (simpa using w) | (rw [length_listSet]; exact w)))

theorem ctxNodesDone_kin {a0 : Dev} {d : Dev} {j c type : Nat} (hK : Kin a0 d) : Kin a0 (ctxNodesDone d j c type) := by
  unfold ctxNodesDone
  try dsimp only
  with_reducible repeat'
    first
    | assumption | apply foldlMarked_kin | apply endNodesIf_kin | apply applyMarks_kin | split | apply kin_fst (by assumption)
    | apply kin_snd (by assumption) | intro _
    | (apply kin_other; first | assumption | apply foldlMarked_kin | apply endNodesIf_kin | apply applyMarks_kin)
    | (apply kin_other; apply kin_other; first | assumption | apply foldlMarked_kin | apply endNodesIf_kin | apply applyMarks_kin)
    | (apply kin_mk <;> first | assumption | apply foldlMarked_kin | apply endNodesIf_kin | apply applyMarks_kin | (intro w; first | exact w | exact wf_set _ _ w | exact wf_upd _ _ w | exact wf_del _ w | exact wf_keep _ w | exact wf_mapV _ w | exact wf_filter _ w | (simp; done) | (simpa using w) | (rw [length_listSet]; exact w)))

theorem openNotices_kin {a0 : Dev} {d : Dev} {c : Nat} (hK : Kin a0 d) : Kin a0 (openNotices d c) := by
  unfold openNotices
  try dsimp only
  with_reducible repeat'
    first
    | assumption | apply forEach_kin | apply sendMember_kin | apply step_kin | split | apply kin_fst (by assumption)
    | apply kin_snd (by assumption) | intro _

theorem recCtx_kin {a0 : Dev} {d : Dev} {j c : Nat} (hK : Kin a0 d) : Kin a0 (recCtx d j c) := by
  unfold recCtx
  try dsimp only
  with_reducible repeat'
    first
    | assumption | apply recWrite_kin | apply step_kin | split | apply kin_fst (by assumption) | apply kin_snd (by assumption)
    | intro _

theorem openNow_kin {a0 : Dev} {d : Dev} {j c : Nat} (hK : Kin a0 d) : Kin a0 (openNow d j c) := by
  unfold openNow
  try dsimp only
  with_reducible repeat'
    first
    | assumption | apply beginStep_kin | apply freeEntries_kin | apply step_kin | apply clearCtrs_kin | apply setCtx_kin
    | apply bump_kin | apply openNotices_kin | apply recCtx_kin | apply forEach_kin | apply walkDie_kin | apply finishCmds_kin
    | apply ctxNodesDone_kin | apply finishAbort_kin | apply settle_kin | apply endCtx_kin | apply checkComplete_kin | split
    | apply kin_fst (by assumption) | apply kin_snd (by assumption) | intro _
    | (apply kin_other; first | assumption | apply beginStep_kin | apply freeEntries_kin | apply step_kin | apply clearCtrs_kin | apply setCtx_kin | apply bump_kin | apply openNotices_kin | apply recCtx_kin | apply forEach_kin | apply walkDie_kin | apply finishCmds_kin | apply ctxNodesDone_kin | apply finishAbort_kin | apply settle_kin | apply endCtx_kin | apply checkComplete_kin)
    | (apply kin_other; apply kin_other; first | assumption | apply beginStep_kin | apply freeEntries_kin | apply step_kin | apply clearCtrs_kin | apply setCtx_kin | apply bump_kin | apply openNotices_kin | apply recCtx_kin | apply forEach_kin | apply walkDie_kin | apply finishCmds_kin | apply ctxNodesDone_kin | apply finishAbort_kin | apply settle_kin | apply endCtx_kin | apply checkComplete_kin)
    | (apply kin_mk <;> first | assumption | apply beginStep_kin | apply freeEntries_kin | apply step_kin | apply clearCtrs_kin | apply setCtx_kin | apply bump_kin | apply openNotices_kin | apply recCtx_kin | apply forEach_kin | apply walkDie_kin | apply finishCmds_kin | apply ctxNodesDone_kin | apply finishAbort_kin | apply settle_kin | apply endCtx_kin | apply checkComplete_kin | (intro w; first | exact w | exact wf_set _ _ w | exact wf_upd _ _ w | exact wf_del _ w | exact wf_keep _ w | exact wf_mapV _ w | exact wf_filter _ w | (simp; done) | (simpa using w) | (rw [length_listSet]; exact w)))

theorem nodeRefused_kin {a0 : Dev} {d : Dev} {j g i : Nat} {n : Node} {status : Nat} (hK : Kin a0 d) : Kin a0 (nodeRefused d j g i n status) := by
  unfold nodeRefused
  try dsimp only
  with_reducible repeat'
    first
    | assumption | apply applyMarks_kin | apply endNode_kin | apply bump_kin | apply updJob_kin | apply raiseTrap_kin | split
    | apply kin_fst (by assumption) | apply kin_snd (by assumption) | intro _
    | (apply kin_other; first | assumption | apply applyMarks_kin | apply endNode_kin | apply bump_kin | apply updJob_kin | apply raiseTrap_kin)
    | (apply kin_other; apply kin_other; first | assumption | apply applyMarks_kin | apply endNode_kin | apply bump_kin | apply updJob_kin | apply raiseTrap_kin)
    | (apply kin_mk <;> first | assumption | apply applyMarks_kin | apply endNode_kin | apply bump_kin | apply updJob_kin | apply raiseTrap_kin | (intro w; first | exact w | exact wf_set _ _ w | exact wf_upd _ _ w | exact wf_del _ w | exact wf_keep _ w | exact wf_mapV _ w | exact wf_filter _ w | (simp; done) | (simpa using w) | (rw [length_listSet]; exact w)))

theorem nodeAdmit_kin {a0 : Dev} {d : Dev} {j g i : Nat} {jb : Job} {n : Node} (hK : Kin a0 d) : Kin a0 (nodeAdmit d j g i jb n) := by
  unfold nodeAdmit
  try dsimp only
  with_reducible repeat'
    first
    | assumption | apply acceptOpen_kin | apply bumpBy_kin | apply updNode_kin | split | intro _
    | (apply kin_other; first | assumption | apply acceptOpen_kin | apply bumpBy_kin | apply updNode_kin)
    | (apply kin_other; apply kin_other; first | assumption | apply acceptOpen_kin | apply bumpBy_kin | apply updNode_kin)
    | (apply kin_mk <;> first | assumption | apply acceptOpen_kin | apply bumpBy_kin | apply updNode_kin | (intro w; first | exact w | exact wf_set _ _ w | exact wf_upd _ _ w | exact wf_del _ w | exact wf_keep _ w | exact wf_mapV _ w | exact wf_filter _ w | (simp; done) | (simpa using w) | (rw [length_listSet]; exact w)))

theorem admitBlocked_kin {a0 : Dev} {y0 : Nat} {y1 : List Nat} {y2 : List (Nat × Nat × Nat × Nat)} {y3 : Dev} (hK : Kin a0 y3) : Kin a0 (admitBlocked y0 y1 y2 y3) := by
  induction y0 generalizing y1 y2 y3 with
  | zero =>
    unfold admitBlocked
    try dsimp only
    with_reducible repeat'
      first
      | assumption | apply nodeAdmit_kin | apply settle_kin | apply nodeRefused_kin | apply countOpenRefusal_kin | split
      | apply kin_fst (by assumption) | apply kin_snd (by assumption) | intro _
  | succ k ih =>
    unfold admitBlocked
    try dsimp only
    with_reducible repeat'
      first
      | assumption | apply ih | apply nodeAdmit_kin | apply settle_kin | apply nodeRefused_kin | apply countOpenRefusal_kin
      | split | apply kin_fst (by assumption) | apply kin_snd (by assumption) | intro _

theorem admitAll_kin {a0 : Dev} {d : Dev} (hK : Kin a0 d) : Kin a0 (admitAll d) := by
  unfold admitAll
  try dsimp only
  with_reducible repeat' first | assumption | apply admitBlocked_kin | intro _

theorem clearCtxs_kin {a0 : Dev} {d : Dev} (hK : Kin a0 d) : Kin a0 (clearCtxs d) := by
  unfold clearCtxs
  refine cancelSettle_kin (finishCmds_kin (kin_mk ?_ (wf_mapV _) (fun _ => rfl) id id id id id id id id))
  refine forEach_kin (countWaits_kin (forEach_kin (forEach_kin hK fun e x h => unitFailCtx_kin h) fun e x h => markJob_kin h)) fun e x h => ?_
  split
  · exact freeEntries_kin (leaveCtx_kin h)
  · exact h

theorem acceptRelease_kin {a0 : Dev} {d : Dev} {c : Nat} {free : Bool} (hK : Kin a0 d) : Kin a0 (acceptRelease d c free) := by
  unfold acceptRelease
  try dsimp only
  with_reducible repeat' first | assumption | apply updCtx_kin | split | intro _

theorem releaseNow_kin {a0 : Dev} {d : Dev} {j c : Nat} {free : Bool} (hK : Kin a0 d) : Kin a0 (releaseNow d j c free) := by
  unfold releaseNow
  try dsimp only
  with_reducible repeat'
    first
    | assumption | apply updCtx_kin | apply freeEntries_kin | apply leaveCtx_kin | apply finishCmds_kin | apply admitAll_kin
    | apply settle_kin | apply ctxNodesDone_kin | split | intro _
    | (apply kin_other; first | assumption | apply updCtx_kin | apply freeEntries_kin | apply leaveCtx_kin | apply finishCmds_kin | apply admitAll_kin | apply settle_kin | apply ctxNodesDone_kin)
    | (apply kin_other; apply kin_other; first | assumption | apply updCtx_kin | apply freeEntries_kin | apply leaveCtx_kin | apply finishCmds_kin | apply admitAll_kin | apply settle_kin | apply ctxNodesDone_kin)
    | (apply kin_mk <;> first | assumption | apply updCtx_kin | apply freeEntries_kin | apply leaveCtx_kin | apply finishCmds_kin | apply admitAll_kin | apply settle_kin | apply ctxNodesDone_kin | (intro w; first | exact w | exact wf_set _ _ w | exact wf_upd _ _ w | exact wf_del _ w | exact wf_keep _ w | exact wf_mapV _ w | exact wf_filter _ w | (simp; done) | (simpa using w) | (rw [length_listSet]; exact w)))

theorem drainComplete_kin {a0 : Dev} {d : Dev} {c : Nat} (hK : Kin a0 d) : Kin a0 (drainComplete d c) := by
  unfold drainComplete
  try dsimp only
  with_reducible repeat'
    first
    | assumption | apply openNow_kin | apply releaseNow_kin | split | apply kin_fst (by assumption)
    | apply kin_snd (by assumption) | intro _

theorem execDrainComplete_kin {ctx : Nat} {s : State}  : KinS s (execDrainComplete ctx s) := by
  unfold execDrainComplete
  try dsimp only
  with_reducible repeat'
    first
    | assumption | exact kinS_fault | exact Kin.refl _ | apply onUnit_kin | apply poolsSettle_kin | apply flushAll_kin
    | apply drainComplete_kin | intro _

end Sys2Proof.Machine
end

