-- ==== Sys2Proof/Laws/KinSession.lean ====
section
/-!
SUPPORT. Sys2Proof/Laws/KinSession.lean: every operation of Session.lean keeps time, identity and the form of the tables.
-/
namespace Sys2Proof.Machine
open SMap

/-- The device with which the first checks end. -/
def Front.dev : Front → Dev
  | .stop d => d
  | .run d _ => d

theorem front_stop {a d : Dev} (h : Kin a d) : Kin a (Front.stop d).dev := h
theorem front_run {a d : Dev} {c : Cmd} (h : Kin a d) : Kin a (Front.run d c).dev := h
theorem front_stopped {a b : Dev} {x : Front} (e : x = .stop b) (h : Kin a x.dev) : Kin a b := by subst e; exact h
theorem front_ran {a b : Dev} {c : Cmd} {x : Front} (e : x = .run b c) (h : Kin a x.dev) : Kin a b := by subst e; exact h

theorem roomForSession_kin {a0 : Dev} {d : Dev} {inband : Bool} (hK : Kin a0 d) : KinO a0 (roomForSession d inband) := by
  unfold roomForSession
  try dsimp only
  with_reducible repeat'
    first
    | assumption | apply bump_kin | apply removeSessions_kin | split | apply kin_fst (by assumption)
    | apply kin_snd (by assumption) | exact kinO_none | apply kinO_some | apply kinO_use (by assumption) | intro _

theorem updSess_kin {a0 : Dev} {d : Dev} {k : SessKey} {f : Session → Session} (hK : Kin a0 d) : Kin a0 (updSess d k f) := by
  unfold updSess
  try dsimp only
  with_reducible repeat'
    first
    | assumption | apply updMgmt_kin | split | intro _ | (apply kin_other; first | assumption | apply updMgmt_kin)
    | (apply kin_other; apply kin_other; first | assumption | apply updMgmt_kin)
    | (apply kin_mk <;> first | assumption | apply updMgmt_kin | (intro w; first | exact w | exact wf_set _ _ w | exact wf_upd _ _ w | exact wf_del _ w | exact wf_keep _ w | exact wf_mapV _ w | exact wf_filter _ w | (simp; done) | (simpa using w) | (rw [length_listSet]; exact w)))

theorem forgetHist_kin {a0 : Dev} {d : Dev} {s t : Session} (hK : Kin a0 d) : Kin a0 (forgetHist d s t) := by
  unfold forgetHist
  try dsimp only
  with_reducible repeat' first | assumption | apply forEach_kin | apply poolReleaseOpt_kin | intro _

theorem answerNow_kin {a0 : Dev} {d : Dev} {p : CmdPkt} {r : Reply} (hK : Kin a0 d) : Kin a0 (answerNow d p r) := by
  unfold answerNow
  try dsimp only
  with_reducible repeat' first | assumption | apply sendOuvrov_kin | intro _

theorem retarget_kin {a0 : Dev} {d : Dev} {k : SessKey} {p : CmdPkt} (hK : Kin a0 d) : Kin a0 (retarget d k p) := by
  unfold retarget
  try dsimp only
  with_reducible repeat'
    first
    | assumption | apply updMgmt_kin | split | intro _ | (apply kin_other; first | assumption | apply updMgmt_kin)
    | (apply kin_other; apply kin_other; first | assumption | apply updMgmt_kin)
    | (apply kin_mk <;> first | assumption | apply updMgmt_kin | (intro w; first | exact w | exact wf_set _ _ w | exact wf_upd _ _ w | exact wf_del _ w | exact wf_keep _ w | exact wf_mapV _ w | exact wf_filter _ w | (simp; done) | (simpa using w) | (rw [length_listSet]; exact w)))

theorem dropStaged_kin {a0 : Dev} {d : Dev} {k : SessKey} (hK : Kin a0 d) : Kin a0 (dropStaged d k) := by
  unfold dropStaged
  try dsimp only
  with_reducible repeat'
    first
    | assumption | apply forEach_kin | apply updSess_kin | apply poolRelease_kin | split | apply kin_fst (by assumption)
    | apply kin_snd (by assumption) | intro _
    | (apply kin_other; first | assumption | apply forEach_kin | apply updSess_kin | apply poolRelease_kin)
    | (apply kin_other; apply kin_other; first | assumption | apply forEach_kin | apply updSess_kin | apply poolRelease_kin)
    | (apply kin_mk <;> first | assumption | apply forEach_kin | apply updSess_kin | apply poolRelease_kin | (intro w; first | exact w | exact wf_set _ _ w | exact wf_upd _ _ w | exact wf_del _ w | exact wf_keep _ w | exact wf_mapV _ w | exact wf_filter _ w | (simp; done) | (simpa using w) | (rw [length_listSet]; exact w)))

theorem abandonStaged_kin {a0 : Dev} {d : Dev} {k : SessKey} (hK : Kin a0 d) : Kin a0 (abandonStaged d k) := by
  unfold abandonStaged
  try dsimp only
  with_reducible repeat'
    first
    | assumption | apply bump_kin | apply dropStaged_kin | split | apply kin_fst (by assumption)
    | apply kin_snd (by assumption) | intro _

theorem stageRefused_kin {a0 : Dev} {d : Dev} {job : Option Nat} {n : Nat} (hK : Kin a0 d) : Kin a0 (stageRefused d job n) := by
  unfold stageRefused
  try dsimp only
  with_reducible repeat'
    first
    | assumption | apply bump_kin | apply quotaHit_kin | split | apply kin_fst (by assumption) | apply kin_snd (by assumption)
    | intro _

theorem takeSegment_kin {a0 : Dev} {d : Dev} {k : SessKey} {op hjob limit req : Nat} {job : Option Nat} {body : List W64} (hK : Kin a0 d) : Kin a0 (takeSegment d k op hjob limit req job body).1 := by
  unfold takeSegment
  try dsimp only
  with_reducible repeat'
    first
    | assumption | apply abandonStaged_kin | apply poolAllocN_kin | apply stageRefused_kin | apply forEach_kin
    | apply poolRelease_kin | apply updSess_kin | apply dropStaged_kin | split | apply kin_fst (by assumption)
    | apply kin_snd (by assumption) | intro _
    | (apply kin_other; first | assumption | apply abandonStaged_kin | apply poolAllocN_kin | apply stageRefused_kin | apply forEach_kin | apply poolRelease_kin | apply updSess_kin | apply dropStaged_kin)
    | (apply kin_other; apply kin_other; first | assumption | apply abandonStaged_kin | apply poolAllocN_kin | apply stageRefused_kin | apply forEach_kin | apply poolRelease_kin | apply updSess_kin | apply dropStaged_kin)
    | (apply kin_mk <;> first | assumption | apply abandonStaged_kin | apply poolAllocN_kin | apply stageRefused_kin | apply forEach_kin | apply poolRelease_kin | apply updSess_kin | apply dropStaged_kin | (intro w; first | exact w | exact wf_set _ _ w | exact wf_upd _ _ w | exact wf_del _ w | exact wf_keep _ w | exact wf_mapV _ w | exact wf_filter _ w | (simp; done) | (simpa using w) | (rw [length_listSet]; exact w)))

theorem runAccepted_kin {a0 : Dev} {d : Dev} {p : CmdPkt} {s : Sender} {k : SessKey} {w : Waiting} (hK : Kin a0 d) : Kin a0 (runAccepted d p s k w).dev := by
  unfold runAccepted
  try dsimp only
  with_reducible repeat'
    first
    | assumption | apply finalReply_kin | apply takeSegment_kin | apply front_stop | apply front_run
    | apply front_stopped (by assumption) | apply front_ran (by assumption) | split | apply kin_fst (by assumption)
    | apply kin_snd (by assumption) | intro _
    | (apply kin_other; first | assumption | apply finalReply_kin | apply takeSegment_kin | apply front_stop | apply front_run | apply front_stopped (by assumption) | apply front_ran (by assumption))
    | (apply kin_other; apply kin_other; first | assumption | apply finalReply_kin | apply takeSegment_kin | apply front_stop | apply front_run | apply front_stopped (by assumption) | apply front_ran (by assumption))
    | (apply kin_mk <;> first | assumption | apply finalReply_kin | apply takeSegment_kin | apply front_stop | apply front_run | apply front_stopped (by assumption) | apply front_ran (by assumption) | (intro w; first | exact w | exact wf_set _ _ w | exact wf_upd _ _ w | exact wf_del _ w | exact wf_keep _ w | exact wf_mapV _ w | exact wf_filter _ w | (simp; done) | (simpa using w) | (rw [length_listSet]; exact w)))

theorem acceptCmd_kin {a0 : Dev} {d : Dev} {p : CmdPkt} {s : Sender} {k : SessKey} {old : Session} {buf : Option Nat} (hK : Kin a0 d) : Kin a0 (acceptCmd d p s k old buf).dev := by
  unfold acceptCmd
  try dsimp only
  with_reducible repeat'
    first
    | assumption | apply bump_kin | apply updSess_kin | apply forgetHist_kin | apply runAccepted_kin | apply updMgmt_kin
    | apply front_stop | apply front_run | apply front_stopped (by assumption) | apply front_ran (by assumption) | intro _
    | (apply kin_other; first | assumption | apply bump_kin | apply updSess_kin | apply forgetHist_kin | apply runAccepted_kin | apply updMgmt_kin | apply front_stop | apply front_run | apply front_stopped (by assumption) | apply front_ran (by assumption))
    | (apply kin_other; apply kin_other; first | assumption | apply bump_kin | apply updSess_kin | apply forgetHist_kin | apply runAccepted_kin | apply updMgmt_kin | apply front_stop | apply front_run | apply front_stopped (by assumption) | apply front_ran (by assumption))
    | (apply kin_mk <;> first | assumption | apply bump_kin | apply updSess_kin | apply forgetHist_kin | apply runAccepted_kin | apply updMgmt_kin | apply front_stop | apply front_run | apply front_stopped (by assumption) | apply front_ran (by assumption) | (intro w; first | exact w | exact wf_set _ _ w | exact wf_upd _ _ w | exact wf_del _ w | exact wf_keep _ w | exact wf_mapV _ w | exact wf_filter _ w | (simp; done) | (simpa using w) | (rw [length_listSet]; exact w)))

theorem checkSeq_kin {a0 : Dev} {d : Dev} {p : CmdPkt} {s : Sender} {buf : Option Nat} (hK : Kin a0 d) : Kin a0 (checkSeq d p s buf).dev := by
  unfold checkSeq
  try dsimp only
  with_reducible repeat'
    first
    | assumption | apply poolReleaseOpt_kin | apply removeSessions_kin | apply roomForSession_kin | apply answerNow_kin
    | apply acceptCmd_kin | apply updMgmt_kin | apply updSess_kin | apply bump_kin | apply retarget_kin | apply sendOuvrov_kin
    | apply kinO_getD | apply front_stop | apply front_run | apply front_stopped (by assumption)
    | apply front_ran (by assumption) | split | apply kin_fst (by assumption) | apply kin_snd (by assumption)
    | exact kinO_none | apply kinO_some | apply kinO_use (by assumption) | intro _
    | (apply kin_other; first | assumption | apply poolReleaseOpt_kin | apply removeSessions_kin | apply roomForSession_kin | apply answerNow_kin | apply acceptCmd_kin | apply updMgmt_kin | apply updSess_kin | apply bump_kin | apply retarget_kin | apply sendOuvrov_kin | apply kinO_getD | apply front_stop | apply front_run | apply front_stopped (by assumption) | apply front_ran (by assumption))
    | (apply kin_other; apply kin_other; first | assumption | apply poolReleaseOpt_kin | apply removeSessions_kin | apply roomForSession_kin | apply answerNow_kin | apply acceptCmd_kin | apply updMgmt_kin | apply updSess_kin | apply bump_kin | apply retarget_kin | apply sendOuvrov_kin | apply kinO_getD | apply front_stop | apply front_run | apply front_stopped (by assumption) | apply front_ran (by assumption))
    | (apply kin_mk <;> first | assumption | apply poolReleaseOpt_kin | apply removeSessions_kin | apply roomForSession_kin | apply answerNow_kin | apply acceptCmd_kin | apply updMgmt_kin | apply updSess_kin | apply bump_kin | apply retarget_kin | apply sendOuvrov_kin | apply kinO_getD | apply front_stop | apply front_run | apply front_stopped (by assumption) | apply front_ran (by assumption) | (intro w; first | exact w | exact wf_set _ _ w | exact wf_upd _ _ w | exact wf_del _ w | exact wf_keep _ w | exact wf_mapV _ w | exact wf_filter _ w | (simp; done) | (simpa using w) | (rw [length_listSet]; exact w)))

theorem checkSender_kin {a0 : Dev} {d : Dev} {p : CmdPkt} (hK : Kin a0 d) : Kin a0 (checkSender d p).dev := by
  unfold checkSender
  try dsimp only
  with_reducible repeat'
    first
    | assumption | apply bump_kin | apply answerNow_kin | apply allocOp_kin | apply checkSeq_kin | apply front_stop
    | apply front_run | apply front_stopped (by assumption) | apply front_ran (by assumption) | split
    | apply kin_fst (by assumption) | apply kin_snd (by assumption) | intro _

theorem takeCarrier_kin {a0 : Dev} {d0 : Dev} {port : Nat} {p : CmdPkt} (hK : Kin a0 d0) : Kin a0 (takeCarrier d0 port p).1 := by
  unfold takeCarrier
  try dsimp only
  with_reducible repeat'
    first
    | assumption | apply takeArrived_kin | apply bump_kin | apply malformed_kin | split | apply kin_fst (by assumption)
    | apply kin_snd (by assumption) | intro _

theorem frontEnd_kin {a0 : Dev} {d0 : Dev} {p : CmdPkt} (hK : Kin a0 d0) : Kin a0 (frontEnd d0 p).dev := by
  unfold frontEnd
  try dsimp only
  with_reducible repeat'
    first
    | assumption | apply takeCarrier_kin | apply checkSender_kin | apply bump_kin | apply front_stop | apply front_run
    | apply front_stopped (by assumption) | apply front_ran (by assumption) | split | apply kin_fst (by assumption)
    | apply kin_snd (by assumption) | intro _

theorem runOwn_kin {a0 : Dev} {d : Dev} {c : Cmd} {f : CmdFn} (hK : Kin a0 d) (g_f : ∀ e x0, Kin a0 e → Kin a0 (f e x0).1) : Kin a0 (runOwn d c f) := by
  unfold runOwn
  try dsimp only
  with_reducible repeat'
    first
    | assumption | apply g_f | apply finalReply_kin | split | apply kin_fst (by assumption) | apply kin_snd (by assumption)
    | intro _

theorem receiveCmd_kin {a0 : Dev} {d : Dev} {p : CmdPkt} {f : CmdFn} (hK : Kin a0 d) (g_f : ∀ e x0, Kin a0 e → Kin a0 (f e x0).1) : Kin a0 (receiveCmd d p f) := by
  unfold receiveCmd
  try dsimp only
  with_reducible repeat'
    first
    | assumption | apply g_f | apply frontEnd_kin | apply runOwn_kin | apply front_stop | apply front_run
    | apply front_stopped (by assumption) | apply front_ran (by assumption) | split | apply kin_fst (by assumption)
    | apply kin_snd (by assumption) | intro _

theorem onCmd_kin {op : Nat} {p : CmdPkt} {s : State} {f : CmdFn} (g_f : ∀ e x0, Kin s.dev e → Kin s.dev (f e x0).1) : KinS s (onCmd op p s f) := by
  unfold onCmd
  try dsimp only
  with_reducible repeat'
    first
    | assumption | apply g_f | exact kinS_fault | exact Kin.refl _ | apply onUnit_kin | apply receiveCmd_kin | intro _

theorem fail_kin {a0 : Dev} {d : Dev} {status detail : Nat} (hK : Kin a0 d) : Kin a0 (fail d status detail).1 := by
  unfold fail
  try dsimp only
  with_reducible repeat' first | assumption | intro _

theorem done_kin {a0 : Dev} {d : Dev} (hK : Kin a0 d) : Kin a0 (done d).1 := by
  unfold done
  try dsimp only
  with_reducible repeat' first | assumption | intro _

theorem doneWith_kin {a0 : Dev} {d : Dev} {body : List W64} (hK : Kin a0 d) : Kin a0 (doneWith d body).1 := by
  unfold doneWith
  try dsimp only
  with_reducible repeat' first | assumption | intro _

theorem waitOn_kin {a0 : Dev} {d : Dev} {c : Cmd} {object : Nat} (hK : Kin a0 d) : Kin a0 (waitOn d c object) := by
  unfold waitOn
  try dsimp only
  with_reducible repeat'
    first
    | assumption | apply updMgmt_kin | split | intro _ | (apply kin_other; first | assumption | apply updMgmt_kin)
    | (apply kin_other; apply kin_other; first | assumption | apply updMgmt_kin)
    | (apply kin_mk <;> first | assumption | apply updMgmt_kin | (intro w; first | exact w | exact wf_set _ _ w | exact wf_upd _ _ w | exact wf_del _ w | exact wf_keep _ w | exact wf_mapV _ w | exact wf_filter _ w | (simp; done) | (simpa using w) | (rw [length_listSet]; exact w)))

theorem checks_kin {a d : Dev} {l : List (Bool × Nat)} {f : Unit → Dev × Option Reply} (hK : Kin a d)
    (g : ∀ u, Kin a (f u).1) : Kin a (checks d l f).1 := by
  have go : ∀ l i, Kin a (checks.go d f i l).1 := by
    intro l
    induction l with
    | nil => exact fun _ => g ()
    | cons x r ih =>
      intro i
      unfold checks.go
      split
      · exact hK
      · exact ih _
  exact go l 1


theorem interimReplies_kin {a0 : Dev} {d : Dev} (hK : Kin a0 d) : Kin a0 (interimReplies d) := by
  unfold interimReplies
  try dsimp only
  with_reducible repeat'
    first
    | assumption | apply forEach_kin | apply interimReply_kin | apply updMgmt_kin | split | intro _
    | (apply kin_other; first | assumption | apply forEach_kin | apply interimReply_kin | apply updMgmt_kin)
    | (apply kin_other; apply kin_other; first | assumption | apply forEach_kin | apply interimReply_kin | apply updMgmt_kin)
    | (apply kin_mk <;> first | assumption | apply forEach_kin | apply interimReply_kin | apply updMgmt_kin | (intro w; first | exact w | exact wf_set _ _ w | exact wf_upd _ _ w | exact wf_del _ w | exact wf_keep _ w | exact wf_mapV _ w | exact wf_filter _ w | (simp; done) | (simpa using w) | (rw [length_listSet]; exact w)))

theorem execInterimReply_kin {s : State}  : KinS s (execInterimReply s) := by
  unfold execInterimReply
  try dsimp only
  with_reducible repeat'
    first
    | assumption | exact kinS_fault | exact Kin.refl _ | apply onDev_kin | apply interimReplies_kin | split | intro _

theorem execStagedLoadTimeout_kin {s : State}  : KinS s (execStagedLoadTimeout s) := by
  unfold execStagedLoadTimeout
  try dsimp only
  with_reducible repeat'
    first
    | assumption | exact kinS_fault | exact Kin.refl _ | apply onDev_kin | apply forEach_kin | apply dropStaged_kin | split
    | apply kin_fst (by assumption) | apply kin_snd (by assumption) | intro _
    | (apply kin_other; first | assumption | exact kinS_fault | exact Kin.refl _ | apply onDev_kin | apply forEach_kin | apply dropStaged_kin)
    | (apply kin_other; apply kin_other; first | assumption | exact kinS_fault | exact Kin.refl _ | apply onDev_kin | apply forEach_kin | apply dropStaged_kin)
    | (apply kin_mk <;> first | assumption | exact kinS_fault | exact Kin.refl _ | apply onDev_kin | apply forEach_kin | apply dropStaged_kin | (intro w; first | exact w | exact wf_set _ _ w | exact wf_upd _ _ w | exact wf_del _ w | exact wf_keep _ w | exact wf_mapV _ w | exact wf_filter _ w | (simp; done) | (simpa using w) | (rw [length_listSet]; exact w)))

end Sys2Proof.Machine
end

