-- ==== Sys2Proof/Laws/KinGraphs.lean ====
section
/-!
SUPPORT. Sys2Proof/Laws/KinGraphs.lean: every operation of Graphs.lean keeps time, identity and the form of the tables.
-/
namespace Sys2Proof.Machine
open SMap

theorem applySync_kin {a0 : Dev} {d : Dev} {n op : Nat} {x : W64} (hK : Kin a0 d) : Kin a0 (applySync d n op x) := by
  unfold applySync
  try dsimp only
  with_reducible repeat'
    first
    | assumption | apply settle_kin | apply bump_kin | split | apply kin_fst (by assumption) | apply kin_snd (by assumption)
    | intro _ | (apply kin_other; first | assumption | apply settle_kin | apply bump_kin)
    | (apply kin_other; apply kin_other; first | assumption | apply settle_kin | apply bump_kin)
    | (apply kin_mk <;> first | assumption | apply settle_kin | apply bump_kin | (intro w; first | exact w | exact wf_set _ _ w | exact wf_upd _ _ w | exact wf_del _ w | exact wf_keep _ w | exact wf_mapV _ w | exact wf_filter _ w | (simp; done) | (simpa using w) | (rw [length_listSet]; exact w)))

theorem nodeEnds_kin {a0 : Dev} {d : Dev} {j g i : Nat} {st : NodeSt} {cause : Nat} (hK : Kin a0 d) : Kin a0 (nodeEnds d j g i st cause) := by
  unfold nodeEnds
  try dsimp only
  with_reducible repeat'
    first
    | assumption | apply applyMarks_kin | apply endNode_kin | intro _
    | (apply kin_other; first | assumption | apply applyMarks_kin | apply endNode_kin)
    | (apply kin_other; apply kin_other; first | assumption | apply applyMarks_kin | apply endNode_kin)
    | (apply kin_mk <;> first | assumption | apply applyMarks_kin | apply endNode_kin | (intro w; first | exact w | exact wf_set _ _ w | exact wf_upd _ _ w | exact wf_del _ w | exact wf_keep _ w | exact wf_mapV _ w | exact wf_filter _ w | (simp; done) | (simpa using w) | (rw [length_listSet]; exact w)))

theorem nodeRuns_kin {a0 : Dev} {d : Dev} {j g i : Nat} (hK : Kin a0 d) : Kin a0 (nodeRuns d j g i) := by
  unfold nodeRuns
  try dsimp only
  with_reducible repeat'
    first
    | assumption | apply updNode_kin | intro _ | (apply kin_other; first | assumption | apply updNode_kin)
    | (apply kin_other; apply kin_other; first | assumption | apply updNode_kin)
    | (apply kin_mk <;> first | assumption | apply updNode_kin | (intro w; first | exact w | exact wf_set _ _ w | exact wf_upd _ _ w | exact wf_del _ w | exact wf_keep _ w | exact wf_mapV _ w | exact wf_filter _ w | (simp; done) | (simpa using w) | (rw [length_listSet]; exact w)))

theorem startOpen_kin {a0 : Dev} {d : Dev} {j g i : Nat} {jb : Job} {n : Node} (hK : Kin a0 d) : Kin a0 (startOpen d j g i jb n) := by
  unfold startOpen
  try dsimp only
  with_reducible repeat'
    first
    | assumption | apply done_kin | apply admitAll_kin | apply nodeAdmit_kin | apply countOpenRefusal_kin | apply updNode_kin
    | apply nodeRefused_kin | split | apply kin_fst (by assumption) | apply kin_snd (by assumption) | intro _
    | (apply kin_other; first | assumption | apply done_kin | apply admitAll_kin | apply nodeAdmit_kin | apply countOpenRefusal_kin | apply updNode_kin | apply nodeRefused_kin)
    | (apply kin_other; apply kin_other; first | assumption | apply done_kin | apply admitAll_kin | apply nodeAdmit_kin | apply countOpenRefusal_kin | apply updNode_kin | apply nodeRefused_kin)
    | (apply kin_mk <;> first | assumption | apply done_kin | apply admitAll_kin | apply nodeAdmit_kin | apply countOpenRefusal_kin | apply updNode_kin | apply nodeRefused_kin | (intro w; first | exact w | exact wf_set _ _ w | exact wf_upd _ _ w | exact wf_del _ w | exact wf_keep _ w | exact wf_mapV _ w | exact wf_filter _ w | (simp; done) | (simpa using w) | (rw [length_listSet]; exact w)))

theorem startRelease_kin {a0 : Dev} {d : Dev} {j g i : Nat} {n : Node} (hK : Kin a0 d) : Kin a0 (startRelease d j g i n) := by
  unfold startRelease
  try dsimp only
  with_reducible repeat'
    first
    | assumption | apply nodeEnds_kin | apply nodeRuns_kin | apply acceptRelease_kin | split | apply kin_fst (by assumption)
    | apply kin_snd (by assumption) | intro _

theorem startSeal_kin {a0 : Dev} {d : Dev} {j g i : Nat} {jb : Job} {gr : Graph} (hK : Kin a0 d) : Kin a0 (startSeal d j g i jb gr) := by
  unfold startSeal
  try dsimp only
  with_reducible repeat'
    first
    | assumption | apply nodeEnds_kin | apply done_kin | apply requestSeal_kin | apply nodeRuns_kin | split | intro _

theorem startSync_kin {a0 : Dev} {d : Dev} {j g i : Nat} {n : Node} (hK : Kin a0 d) : Kin a0 (startSync d j g i n) := by
  unfold startSync
  try dsimp only
  with_reducible repeat'
    first
    | assumption | apply nodeEnds_kin | apply applySync_kin | apply done_kin | split | apply kin_fst (by assumption)
    | apply kin_snd (by assumption) | intro _

theorem startNode_kin {a0 : Dev} {d : Dev} {j g i : Nat} (hK : Kin a0 d) : Kin a0 (startNode d j g i) := by
  unfold startNode
  try dsimp only
  with_reducible repeat'
    first
    | assumption | apply startOpen_kin | apply startRelease_kin | apply startSeal_kin | apply startSync_kin
    | apply nodeEnds_kin | apply done_kin | split | apply kin_fst (by assumption) | apply kin_snd (by assumption) | intro _
    | (apply kin_other; first | assumption | apply startOpen_kin | apply startRelease_kin | apply startSeal_kin | apply startSync_kin | apply nodeEnds_kin | apply done_kin)
    | (apply kin_other; apply kin_other; first | assumption | apply startOpen_kin | apply startRelease_kin | apply startSeal_kin | apply startSync_kin | apply nodeEnds_kin | apply done_kin)
    | (apply kin_mk <;> first | assumption | apply startOpen_kin | apply startRelease_kin | apply startSeal_kin | apply startSync_kin | apply nodeEnds_kin | apply done_kin | (intro w; first | exact w | exact wf_set _ _ w | exact wf_upd _ _ w | exact wf_del _ w | exact wf_keep _ w | exact wf_mapV _ w | exact wf_filter _ w | (simp; done) | (simpa using w) | (rw [length_listSet]; exact w)))

theorem execNodeStart_kin {s : State}  : KinS s (execNodeStart s) := by
  unfold execNodeStart
  try dsimp only
  with_reducible repeat'
    first
    | assumption | exact kinS_fault | exact Kin.refl _ | apply onDev_kin | apply poolsSettle_kin | apply flushAll_kin
    | apply settle_kin | apply startNode_kin | split | apply kin_fst (by assumption) | apply kin_snd (by assumption) | intro _

end Sys2Proof.Machine
end

