-- ==== Sys2Proof/Laws/KinCtxCmds.lean ====
section
/-!
SUPPORT. Sys2Proof/Laws/KinCtxCmds.lean: every operation of CtxCmds.lean keeps time, identity and the form of the tables.
-/
namespace Sys2Proof.Machine
open SMap

theorem onStepCmd_kin {op : Nat} {p : CmdPkt} {s : State} {f : CmdFn} (g_f : ∀ e x0, Kin s.dev e → Kin s.dev (f e x0).1) : KinS s (onStepCmd op p s f) := by
  unfold onStepCmd
  try dsimp only
  with_reducible repeat'
    first
    | assumption | apply g_f | exact kinS_fault | exact Kin.refl _ | apply onUnit_kin | apply poolsSettle_kin
    | apply flushAll_kin | apply receiveCmd_kin | intro _

theorem ctxOpenCmd_kin {a0 : Dev} {y0 : Dev} {y1 : Cmd} (hK : Kin a0 y0) : Kin a0 (ctxOpenCmd y0 y1).1 := by
  unfold ctxOpenCmd
  try dsimp only
  with_reducible repeat'
    first
    | assumption | apply fail_kin | apply countOpenRefusal_kin | apply acceptOpen_kin | apply waitOn_kin | apply done_kin
    | apply admitAll_kin | split | apply kin_fst (by assumption) | apply kin_snd (by assumption) | intro _

theorem execCtxOpen_kin {p : CmdPkt} {s : State}  : KinS s (execCtxOpen p s) := by
  unfold execCtxOpen
  try dsimp only
  with_reducible repeat'
    first
    | assumption | exact kinS_fault | exact Kin.refl _ | apply onStepCmd_kin | apply ctxOpenCmd_kin | intro _

theorem ctxReleaseCmd_kin {a0 : Dev} {y0 : Dev} {y1 : Cmd} (hK : Kin a0 y0) : Kin a0 (ctxReleaseCmd y0 y1).1 := by
  unfold ctxReleaseCmd
  try dsimp only
  with_reducible repeat'
    first
    | assumption | apply fail_kin | apply acceptRelease_kin | apply waitOn_kin | split | apply kin_fst (by assumption)
    | apply kin_snd (by assumption) | intro _

theorem execCtxRelease_kin {p : CmdPkt} {s : State}  : KinS s (execCtxRelease p s) := by
  unfold execCtxRelease
  try dsimp only
  with_reducible repeat'
    first
    | assumption | exact kinS_fault | exact Kin.refl _ | apply onCmd_kin | apply ctxReleaseCmd_kin | intro _

theorem ctxReadCmd_kin {a0 : Dev} {y0 : Dev} {y1 : Cmd} (hK : Kin a0 y0) : Kin a0 (ctxReadCmd y0 y1).1 := by
  unfold ctxReadCmd
  try dsimp only
  with_reducible repeat' first | assumption | apply fail_kin | apply doneWith_kin | split | intro _

theorem execCtxRead_kin {p : CmdPkt} {s : State}  : KinS s (execCtxRead p s) := by
  unfold execCtxRead
  try dsimp only
  with_reducible repeat'
    first
    | assumption | exact kinS_fault | exact Kin.refl _ | apply onCmd_kin | apply ctxReadCmd_kin | intro _

theorem graphSubmitCmd_kin {a0 : Dev} {y0 : Dev} {y1 : Cmd} (hK : Kin a0 y0) : Kin a0 (graphSubmitCmd y0 y1).1 := by
  unfold graphSubmitCmd
  try dsimp only
  with_reducible repeat'
    first
    | assumption | apply fail_kin | apply checks_kin | apply quotaHit_kin | apply done_kin | apply updJob_kin | split
    | apply kin_fst (by assumption) | apply kin_snd (by assumption) | intro _
    | (apply kin_other; first | assumption | apply fail_kin | apply checks_kin | apply quotaHit_kin | apply done_kin | apply updJob_kin)
    | (apply kin_other; apply kin_other; first | assumption | apply fail_kin | apply checks_kin | apply quotaHit_kin | apply done_kin | apply updJob_kin)
    | (apply kin_mk <;> first | assumption | apply fail_kin | apply checks_kin | apply quotaHit_kin | apply done_kin | apply updJob_kin | (intro w; first | exact w | exact wf_set _ _ w | exact wf_upd _ _ w | exact wf_del _ w | exact wf_keep _ w | exact wf_mapV _ w | exact wf_filter _ w | (simp; done) | (simpa using w) | (rw [length_listSet]; exact w)))

theorem execGraphSubmit_kin {p : CmdPkt} {s : State}  : KinS s (execGraphSubmit p s) := by
  unfold execGraphSubmit
  try dsimp only
  with_reducible repeat'
    first
    | assumption | exact kinS_fault | exact Kin.refl _ | apply onCmd_kin | apply graphSubmitCmd_kin | intro _

theorem graphReleaseCmd_kin {a0 : Dev} {y0 : Dev} {y1 : Cmd} (hK : Kin a0 y0) : Kin a0 (graphReleaseCmd y0 y1).1 := by
  unfold graphReleaseCmd
  try dsimp only
  with_reducible repeat'
    first
    | assumption | apply fail_kin | apply waitOn_kin | apply tryRelease_kin | split | apply kin_fst (by assumption)
    | apply kin_snd (by assumption) | intro _

theorem execGraphRelease_kin {p : CmdPkt} {s : State}  : KinS s (execGraphRelease p s) := by
  unfold execGraphRelease
  try dsimp only
  with_reducible repeat'
    first
    | assumption | exact kinS_fault | exact Kin.refl _ | apply onStepCmd_kin | apply graphReleaseCmd_kin | intro _

theorem cancelGraph_kin {a0 : Dev} {d : Dev} {j g : Nat} (hK : Kin a0 d) : Kin a0 (cancelGraph d j g) := by
  unfold cancelGraph
  try dsimp only
  with_reducible repeat'
    first
    | assumption | apply updJob_kin | apply settle_kin | apply applyMarks_kin | apply endNodesIf_kin | intro _
    | (apply kin_other; first | assumption | apply updJob_kin | apply settle_kin | apply applyMarks_kin | apply endNodesIf_kin)
    | (apply kin_other; apply kin_other; first | assumption | apply updJob_kin | apply settle_kin | apply applyMarks_kin | apply endNodesIf_kin)
    | (apply kin_mk <;> first | assumption | apply updJob_kin | apply settle_kin | apply applyMarks_kin | apply endNodesIf_kin | (intro w; first | exact w | exact wf_set _ _ w | exact wf_upd _ _ w | exact wf_del _ w | exact wf_keep _ w | exact wf_mapV _ w | exact wf_filter _ w | (simp; done) | (simpa using w) | (rw [length_listSet]; exact w)))

theorem graphCancelCmd_kin {a0 : Dev} {y0 : Dev} {y1 : Cmd} (hK : Kin a0 y0) : Kin a0 (graphCancelCmd y0 y1).1 := by
  unfold graphCancelCmd
  try dsimp only
  with_reducible repeat'
    first
    | assumption | apply fail_kin | apply cancelGraph_kin | apply waitOn_kin | split | apply kin_fst (by assumption)
    | apply kin_snd (by assumption) | intro _

theorem execGraphCancel_kin {p : CmdPkt} {s : State}  : KinS s (execGraphCancel p s) := by
  unfold execGraphCancel
  try dsimp only
  with_reducible repeat'
    first
    | assumption | exact kinS_fault | exact Kin.refl _ | apply onStepCmd_kin | apply graphCancelCmd_kin | intro _

theorem graphReadCmd_kin {a0 : Dev} {y0 : Dev} {y1 : Cmd} (hK : Kin a0 y0) : Kin a0 (graphReadCmd y0 y1).1 := by
  unfold graphReadCmd
  try dsimp only
  with_reducible repeat'
    first
    | assumption | apply fail_kin | apply doneWith_kin | split | apply kin_fst (by assumption) | apply kin_snd (by assumption)
    | intro _

theorem execGraphRead_kin {p : CmdPkt} {s : State}  : KinS s (execGraphRead p s) := by
  unfold execGraphRead
  try dsimp only
  with_reducible repeat'
    first
    | assumption | exact kinS_fault | exact Kin.refl _ | apply onCmd_kin | apply graphReadCmd_kin | intro _

theorem syncAllocCmd_kin {a0 : Dev} {y0 : Dev} {y1 : Cmd} (hK : Kin a0 y0) : Kin a0 (syncAllocCmd y0 y1).1 := by
  unfold syncAllocCmd
  try dsimp only
  with_reducible repeat'
    first
    | assumption | apply fail_kin | apply quotaHit_kin | apply doneWith_kin | split | apply kin_fst (by assumption)
    | apply kin_snd (by assumption) | intro _
    | (apply kin_other; first | assumption | apply fail_kin | apply quotaHit_kin | apply doneWith_kin)
    | (apply kin_other; apply kin_other; first | assumption | apply fail_kin | apply quotaHit_kin | apply doneWith_kin)
    | (apply kin_mk <;> first | assumption | apply fail_kin | apply quotaHit_kin | apply doneWith_kin | (intro w; first | exact w | exact wf_set _ _ w | exact wf_upd _ _ w | exact wf_del _ w | exact wf_keep _ w | exact wf_mapV _ w | exact wf_filter _ w | (simp; done) | (simpa using w) | (rw [length_listSet]; exact w)))

theorem execSyncAlloc_kin {p : CmdPkt} {s : State}  : KinS s (execSyncAlloc p s) := by
  unfold execSyncAlloc
  try dsimp only
  with_reducible repeat'
    first
    | assumption | exact kinS_fault | exact Kin.refl _ | apply onCmd_kin | apply syncAllocCmd_kin | intro _

theorem syncFreeCmd_kin {a0 : Dev} {y0 : Dev} {y1 : Cmd} (hK : Kin a0 y0) : Kin a0 (syncFreeCmd y0 y1).1 := by
  unfold syncFreeCmd
  try dsimp only
  with_reducible repeat'
    first
    | assumption | apply checks_kin | apply done_kin | apply fail_kin | split | apply kin_fst (by assumption)
    | apply kin_snd (by assumption) | intro _
    | (apply kin_other; first | assumption | apply checks_kin | apply done_kin | apply fail_kin)
    | (apply kin_other; apply kin_other; first | assumption | apply checks_kin | apply done_kin | apply fail_kin)
    | (apply kin_mk <;> first | assumption | apply checks_kin | apply done_kin | apply fail_kin | (intro w; first | exact w | exact wf_set _ _ w | exact wf_upd _ _ w | exact wf_del _ w | exact wf_keep _ w | exact wf_mapV _ w | exact wf_filter _ w | (simp; done) | (simpa using w) | (rw [length_listSet]; exact w)))

theorem execSyncFree_kin {p : CmdPkt} {s : State}  : KinS s (execSyncFree p s) := by
  unfold execSyncFree
  try dsimp only
  with_reducible repeat'
    first
    | assumption | exact kinS_fault | exact Kin.refl _ | apply onCmd_kin | apply syncFreeCmd_kin | intro _

theorem syncOpCmd_kin {a0 : Dev} {y0 : Dev} {y1 : Cmd} (hK : Kin a0 y0) : Kin a0 (syncOpCmd y0 y1).1 := by
  unfold syncOpCmd
  try dsimp only
  with_reducible repeat'
    first
    | assumption | apply fail_kin | apply doneWith_kin | apply applySync_kin | split | apply kin_fst (by assumption)
    | apply kin_snd (by assumption) | intro _

theorem execSyncOp_kin {p : CmdPkt} {s : State}  : KinS s (execSyncOp p s) := by
  unfold execSyncOp
  try dsimp only
  with_reducible repeat'
    first
    | assumption | exact kinS_fault | exact Kin.refl _ | apply onStepCmd_kin | apply syncOpCmd_kin | intro _

end Sys2Proof.Machine
end

