-- ==== Sys2Proof/Laws/KinPower.lean ====
section
/-!
SUPPORT. Sys2Proof/Laws/KinPower.lean: every operation of Power.lean keeps time, identity and the form of the tables.
-/
namespace Sys2Proof.Machine
open SMap

theorem wipeDev_kin {a d : Dev} (hK : Kin a d) : Kin a (wipeDev d) :=
  ⟨hK.time, hK.fac, fun w =>
    { jobs := rfl, ctxs := rfl, left := rfl, maps := rfl, rules := rfl, scheds := rfl, syncs := rfl, ports := rfl, counters := rfl
      nonzero := rfl, pairs := by simpa [wipeDev, joinAll] using (hK.wf w).pairs, mems := rfl }⟩

theorem beginStart_kin {a0 : Dev} {d : Dev} {restarts : Nat} (hK : Kin a0 d) : Kin a0 (beginStart d restarts) := by
  unfold beginStart
  try dsimp only
  with_reducible repeat'
    first
    | assumption | apply wipeDev_kin | intro _ | (apply kin_other; first | assumption | apply wipeDev_kin)
    | (apply kin_other; apply kin_other; first | assumption | apply wipeDev_kin)
    | (apply kin_mk <;> first | assumption | apply wipeDev_kin | (intro w; first | exact w | exact wf_set _ _ w | exact wf_upd _ _ w | exact wf_del _ w | exact wf_keep _ w | exact wf_mapV _ w | exact wf_filter _ w | (simp; done) | (simpa using w) | (rw [length_listSet]; exact w)))

theorem tryStart_kin {a0 : Dev} {d : Dev} (hK : Kin a0 d) : Kin a0 (tryStart d) := by
  unfold tryStart
  try dsimp only
  with_reducible repeat' first | assumption | apply beginStart_kin | split | intro _

theorem resetModule_kin {a0 : Dev} {d : Dev} (hK : Kin a0 d) : Kin a0 (resetModule d) := by
  unfold resetModule
  try dsimp only
  with_reducible repeat'
    first
    | assumption | apply wipeDev_kin | intro _ | (apply kin_other; first | assumption | apply wipeDev_kin)
    | (apply kin_other; apply kin_other; first | assumption | apply wipeDev_kin)
    | (apply kin_mk <;> first | assumption | apply wipeDev_kin | (intro w; first | exact w | exact wf_set _ _ w | exact wf_upd _ _ w | exact wf_del _ w | exact wf_keep _ w | exact wf_mapV _ w | exact wf_filter _ w | (simp; done) | (simpa using w) | (rw [length_listSet]; exact w)))

theorem shutdown_kin {a0 : Dev} {d : Dev} {cause : Nat} (hK : Kin a0 d) : Kin a0 (shutdown d cause) := by
  unfold shutdown
  try dsimp only
  with_reducible repeat'
    first
    | assumption | apply wipeDev_kin | split | apply kin_fst (by assumption) | apply kin_snd (by assumption) | intro _
    | (apply kin_other; first | assumption | apply wipeDev_kin)
    | (apply kin_other; apply kin_other; first | assumption | apply wipeDev_kin)
    | (apply kin_mk <;> first | assumption | apply wipeDev_kin | (intro w; first | exact w | exact wf_set _ _ w | exact wf_upd _ _ w | exact wf_del _ w | exact wf_keep _ w | exact wf_mapV _ w | exact wf_filter _ w | (simp; done) | (simpa using w) | (rw [length_listSet]; exact w)))

theorem updPower_kin {a0 : Dev} {d : Dev} {f : Power → Power} (hK : Kin a0 d) : Kin a0 (updPower d f) := by
  unfold updPower
  try dsimp only
  with_reducible repeat'
    first
    | assumption | intro _ | (apply kin_other; first | assumption) | (apply kin_other; apply kin_other; first | assumption)
    | (apply kin_mk <;> first | assumption | (intro w; first | exact w | exact wf_set _ _ w | exact wf_upd _ _ w | exact wf_del _ w | exact wf_keep _ w | exact wf_mapV _ w | exact wf_filter _ w | (simp; done) | (simpa using w) | (rw [length_listSet]; exact w)))

theorem pmbus_kin {s : State} {f : Dev → Dev} (g_f : ∀ e, Kin s.dev e → Kin s.dev (f e)) : KinS s (pmbus s f) := by
  unfold pmbus
  try dsimp only
  with_reducible repeat'
    first
    | assumption | apply g_f | exact kinS_fault | exact Kin.refl _ | apply onDev_kin | apply output_kin | split | intro _

theorem setCml_kin {a0 : Dev} {d : Dev} {b : Byte} (hK : Kin a0 d) : Kin a0 (setCml d b) := by
  unfold setCml
  try dsimp only
  with_reducible repeat'
    first
    | assumption | apply updPower_kin | intro _ | (apply kin_other; first | assumption | apply updPower_kin)
    | (apply kin_other; apply kin_other; first | assumption | apply updPower_kin)
    | (apply kin_mk <;> first | assumption | apply updPower_kin | (intro w; first | exact w | exact wf_set _ _ w | exact wf_upd _ _ w | exact wf_del _ w | exact wf_keep _ w | exact wf_mapV _ w | exact wf_filter _ w | (simp; done) | (simpa using w) | (rw [length_listSet]; exact w)))

theorem pmbusRefuse_kin {a0 : Dev} {d : Dev} (hK : Kin a0 d) : Kin a0 (pmbusRefuse d) := by
  unfold pmbusRefuse
  try dsimp only
  with_reducible repeat' first | assumption | apply output_kin | apply setCml_kin | intro _

theorem pmbusAnswer_kin {a0 : Dev} {d : Dev} {bs : List Byte} (hK : Kin a0 d) : Kin a0 (pmbusAnswer d bs) := by
  unfold pmbusAnswer
  try dsimp only
  with_reducible repeat' first | assumption | apply output_kin | apply pmbus_kin | intro _

theorem freshReading_kin {a0 : Dev} {d : Dev} {code key now : Nat} (hK : Kin a0 d) : Kin a0 (freshReading d code key now).2 := by
  unfold freshReading
  try dsimp only
  with_reducible repeat'
    first
    | assumption | apply drawFree_kin | apply updPower_kin | apply kin_fst (by assumption) | apply kin_snd (by assumption)
    | intro _ | (apply kin_other; first | assumption | apply drawFree_kin | apply updPower_kin)
    | (apply kin_other; apply kin_other; first | assumption | apply drawFree_kin | apply updPower_kin)
    | (apply kin_mk <;> first | assumption | apply drawFree_kin | apply updPower_kin | (intro w; first | exact w | exact wf_set _ _ w | exact wf_upd _ _ w | exact wf_del _ w | exact wf_keep _ w | exact wf_mapV _ w | exact wf_filter _ w | (simp; done) | (simpa using w) | (rw [length_listSet]; exact w)))

theorem pmbusReading_kin {a0 : Dev} {d : Dev} {code : Nat} {page0 : Bool} (hK : Kin a0 d) : Kin a0 (pmbusReading d code page0) := by
  unfold pmbusReading
  try dsimp only
  with_reducible repeat'
    first
    | assumption | apply pmbusRefuse_kin | apply freshReading_kin | apply pmbusAnswer_kin | split
    | apply kin_fst (by assumption) | apply kin_snd (by assumption) | intro _

theorem execPage_kin {value : Option Nat} {s : State}  : KinS s (execPage value s) := by
  unfold execPage
  try dsimp only
  with_reducible repeat'
    first
    | assumption | exact kinS_fault | exact Kin.refl _ | apply pmbus_kin | apply pmbusAnswer_kin | apply updPower_kin
    | apply setCml_kin | split | apply kin_fst (by assumption) | apply kin_snd (by assumption) | intro _
    | (apply kin_other; first | assumption | exact kinS_fault | exact Kin.refl _ | apply pmbus_kin | apply pmbusAnswer_kin | apply updPower_kin | apply setCml_kin)
    | (apply kin_other; apply kin_other; first | assumption | exact kinS_fault | exact Kin.refl _ | apply pmbus_kin | apply pmbusAnswer_kin | apply updPower_kin | apply setCml_kin)
    | (apply kin_mk <;> first | assumption | exact kinS_fault | exact Kin.refl _ | apply pmbus_kin | apply pmbusAnswer_kin | apply updPower_kin | apply setCml_kin | (intro w; first | exact w | exact wf_set _ _ w | exact wf_upd _ _ w | exact wf_del _ w | exact wf_keep _ w | exact wf_mapV _ w | exact wf_filter _ w | (simp; done) | (simpa using w) | (rw [length_listSet]; exact w)))

theorem execOperationOff_kin {s : State}  : KinS s (execOperationOff s) := by
  unfold execOperationOff
  try dsimp only
  with_reducible repeat'
    first
    | assumption | exact kinS_fault | exact Kin.refl _ | apply pmbus_kin | apply updPower_kin | apply shutdown_kin | intro _
    | (apply kin_other; first | assumption | exact kinS_fault | exact Kin.refl _ | apply pmbus_kin | apply updPower_kin | apply shutdown_kin)
    | (apply kin_other; apply kin_other; first | assumption | exact kinS_fault | exact Kin.refl _ | apply pmbus_kin | apply updPower_kin | apply shutdown_kin)
    | (apply kin_mk <;> first | assumption | exact kinS_fault | exact Kin.refl _ | apply pmbus_kin | apply updPower_kin | apply shutdown_kin | (intro w; first | exact w | exact wf_set _ _ w | exact wf_upd _ _ w | exact wf_del _ w | exact wf_keep _ w | exact wf_mapV _ w | exact wf_filter _ w | (simp; done) | (simpa using w) | (rw [length_listSet]; exact w)))

theorem execOperationOn_kin {s : State}  : KinS s (execOperationOn s) := by
  unfold execOperationOn
  try dsimp only
  with_reducible repeat'
    first
    | assumption | exact kinS_fault | exact Kin.refl _ | apply onDev_kin | apply output_kin | apply setCml_kin
    | apply tryStart_kin | apply updPower_kin | split | intro _
    | (apply kin_other; first | assumption | exact kinS_fault | exact Kin.refl _ | apply onDev_kin | apply output_kin | apply setCml_kin | apply tryStart_kin | apply updPower_kin)
    | (apply kin_other; apply kin_other; first | assumption | exact kinS_fault | exact Kin.refl _ | apply onDev_kin | apply output_kin | apply setCml_kin | apply tryStart_kin | apply updPower_kin)
    | (apply kin_mk <;> first | assumption | exact kinS_fault | exact Kin.refl _ | apply onDev_kin | apply output_kin | apply setCml_kin | apply tryStart_kin | apply updPower_kin | (intro w; first | exact w | exact wf_set _ _ w | exact wf_upd _ _ w | exact wf_del _ w | exact wf_keep _ w | exact wf_mapV _ w | exact wf_filter _ w | (simp; done) | (simpa using w) | (rw [length_listSet]; exact w)))

theorem execClearFaults_kin {s : State}  : KinS s (execClearFaults s) := by
  unfold execClearFaults
  try dsimp only
  with_reducible repeat'
    first
    | assumption | exact kinS_fault | exact Kin.refl _ | apply pmbus_kin | apply updPower_kin | intro _
    | (apply kin_other; first | assumption | exact kinS_fault | exact Kin.refl _ | apply pmbus_kin | apply updPower_kin)
    | (apply kin_other; apply kin_other; first | assumption | exact kinS_fault | exact Kin.refl _ | apply pmbus_kin | apply updPower_kin)
    | (apply kin_mk <;> first | assumption | exact kinS_fault | exact Kin.refl _ | apply pmbus_kin | apply updPower_kin | (intro w; first | exact w | exact wf_set _ _ w | exact wf_upd _ _ w | exact wf_del _ w | exact wf_keep _ w | exact wf_mapV _ w | exact wf_filter _ w | (simp; done) | (simpa using w) | (rw [length_listSet]; exact w)))

theorem execVoutMode_kin {s : State}  : KinS s (execVoutMode s) := by
  unfold execVoutMode
  try dsimp only
  with_reducible repeat'
    first
    | assumption | exact kinS_fault | exact Kin.refl _ | apply pmbus_kin | apply pmbusAnswer_kin | intro _

theorem execStatusWord_kin {s : State}  : KinS s (execStatusWord s) := by
  unfold execStatusWord
  try dsimp only
  with_reducible repeat'
    first
    | assumption | exact kinS_fault | exact Kin.refl _ | apply pmbus_kin | apply pmbusAnswer_kin | intro _

theorem execStatusVout_kin {s : State}  : KinS s (execStatusVout s) := by
  unfold execStatusVout
  try dsimp only
  with_reducible repeat'
    first
    | assumption | exact kinS_fault | exact Kin.refl _ | apply pmbus_kin | apply pmbusAnswer_kin | intro _

theorem execStatusIout_kin {s : State}  : KinS s (execStatusIout s) := by
  unfold execStatusIout
  try dsimp only
  with_reducible repeat'
    first
    | assumption | exact kinS_fault | exact Kin.refl _ | apply pmbus_kin | apply pmbusAnswer_kin | intro _

theorem execStatusInput_kin {s : State}  : KinS s (execStatusInput s) := by
  unfold execStatusInput
  try dsimp only
  with_reducible repeat'
    first
    | assumption | exact kinS_fault | exact Kin.refl _ | apply pmbus_kin | apply pmbusAnswer_kin | intro _

theorem execStatusTemperature_kin {s : State}  : KinS s (execStatusTemperature s) := by
  unfold execStatusTemperature
  try dsimp only
  with_reducible repeat'
    first
    | assumption | exact kinS_fault | exact Kin.refl _ | apply pmbus_kin | apply pmbusAnswer_kin | intro _

theorem execStatusCml_kin {s : State}  : KinS s (execStatusCml s) := by
  unfold execStatusCml
  try dsimp only
  with_reducible repeat'
    first
    | assumption | exact kinS_fault | exact Kin.refl _ | apply pmbus_kin | apply pmbusAnswer_kin | intro _

theorem execReadVin_kin {s : State}  : KinS s (execReadVin s) := by
  unfold execReadVin
  try dsimp only
  with_reducible repeat'
    first
    | assumption | exact kinS_fault | exact Kin.refl _ | apply pmbus_kin | apply pmbusReading_kin | intro _

theorem execReadIin_kin {s : State}  : KinS s (execReadIin s) := by
  unfold execReadIin
  try dsimp only
  with_reducible repeat'
    first
    | assumption | exact kinS_fault | exact Kin.refl _ | apply pmbus_kin | apply pmbusReading_kin | intro _

theorem execReadVout_kin {s : State}  : KinS s (execReadVout s) := by
  unfold execReadVout
  try dsimp only
  with_reducible repeat'
    first
    | assumption | exact kinS_fault | exact Kin.refl _ | apply pmbus_kin | apply pmbusReading_kin | intro _

theorem execReadIout_kin {s : State}  : KinS s (execReadIout s) := by
  unfold execReadIout
  try dsimp only
  with_reducible repeat'
    first
    | assumption | exact kinS_fault | exact Kin.refl _ | apply pmbus_kin | apply pmbusReading_kin | intro _

theorem execReadTemperature1_kin {s : State}  : KinS s (execReadTemperature1 s) := by
  unfold execReadTemperature1
  try dsimp only
  with_reducible repeat'
    first
    | assumption | exact kinS_fault | exact Kin.refl _ | apply pmbus_kin | apply pmbusReading_kin | intro _

theorem execReadTemperature2_kin {s : State}  : KinS s (execReadTemperature2 s) := by
  unfold execReadTemperature2
  try dsimp only
  with_reducible repeat'
    first
    | assumption | exact kinS_fault | exact Kin.refl _ | apply pmbus_kin | apply pmbusReading_kin | intro _

theorem execReadTemperature3_kin {s : State}  : KinS s (execReadTemperature3 s) := by
  unfold execReadTemperature3
  try dsimp only
  with_reducible repeat'
    first
    | assumption | exact kinS_fault | exact Kin.refl _ | apply pmbus_kin | apply pmbusReading_kin | intro _

theorem execReadPout_kin {s : State}  : KinS s (execReadPout s) := by
  unfold execReadPout
  try dsimp only
  with_reducible repeat'
    first
    | assumption | exact kinS_fault | exact Kin.refl _ | apply pmbus_kin | apply pmbusReading_kin | intro _

theorem execReadPin_kin {s : State}  : KinS s (execReadPin s) := by
  unfold execReadPin
  try dsimp only
  with_reducible repeat'
    first
    | assumption | exact kinS_fault | exact Kin.refl _ | apply pmbus_kin | apply pmbusReading_kin | intro _

theorem execPmbusRevision_kin {s : State}  : KinS s (execPmbusRevision s) := by
  unfold execPmbusRevision
  try dsimp only
  with_reducible repeat'
    first
    | assumption | exact kinS_fault | exact Kin.refl _ | apply pmbus_kin | apply pmbusAnswer_kin | intro _

theorem execMfrId_kin {s : State}  : KinS s (execMfrId s) := by
  unfold execMfrId
  try dsimp only
  with_reducible repeat'
    first
    | assumption | exact kinS_fault | exact Kin.refl _ | apply pmbus_kin | apply pmbusAnswer_kin | intro _

theorem execMfrModel_kin {s : State}  : KinS s (execMfrModel s) := by
  unfold execMfrModel
  try dsimp only
  with_reducible repeat'
    first
    | assumption | exact kinS_fault | exact Kin.refl _ | apply pmbus_kin | apply pmbusAnswer_kin | intro _

theorem execMfrSerial_kin {s : State}  : KinS s (execMfrSerial s) := by
  unfold execMfrSerial
  try dsimp only
  with_reducible repeat'
    first
    | assumption | exact kinS_fault | exact Kin.refl _ | apply pmbus_kin | apply pmbusAnswer_kin | intro _

theorem execMfrShutdownCause_kin {s : State}  : KinS s (execMfrShutdownCause s) := by
  unfold execMfrShutdownCause
  try dsimp only
  with_reducible repeat'
    first
    | assumption | exact kinS_fault | exact Kin.refl _ | apply pmbus_kin | apply pmbusAnswer_kin | intro _

theorem execPmbusUnsupported_kin {code : Byte} {value : Option Byte} {s : State}  : KinS s (execPmbusUnsupported code value s) := by
  unfold execPmbusUnsupported
  try dsimp only
  with_reducible repeat'
    first
    | assumption | exact kinS_fault | exact Kin.refl _ | apply pmbus_kin | apply pmbusAnswer_kin | apply setCml_kin
    | apply pmbusRefuse_kin | split | apply kin_fst (by assumption) | apply kin_snd (by assumption) | intro _

theorem execSmbusReadByte_kin {offset : Nat} {s : State}  : KinS s (execSmbusReadByte offset s) := by
  unfold execSmbusReadByte
  try dsimp only
  with_reducible repeat'
    first
    | assumption | exact kinS_fault | exact Kin.refl _ | apply onUnit_kin | apply pmbusAnswer_kin | apply output_kin | split
    | intro _

theorem execSmbusReadWord_kin {offset : Nat} {s : State}  : KinS s (execSmbusReadWord offset s) := by
  unfold execSmbusReadWord
  try dsimp only
  with_reducible repeat'
    first
    | assumption | exact kinS_fault | exact Kin.refl _ | apply onUnit_kin | apply pmbusAnswer_kin | apply output_kin | split
    | intro _

theorem execSmbusBlockRead_kin {offset len : Nat} {s : State}  : KinS s (execSmbusBlockRead offset len s) := by
  unfold execSmbusBlockRead
  try dsimp only
  with_reducible repeat'
    first
    | assumption | exact kinS_fault | exact Kin.refl _ | apply onUnit_kin | apply pmbusAnswer_kin | apply output_kin | split
    | intro _

theorem scan_kin {s : State} {f : Dev → Dev} (g_f : ∀ e, Kin s.dev e → Kin s.dev (f e)) : KinS s (scan s f) := by
  unfold scan
  try dsimp only
  with_reducible repeat'
    first
    | assumption | apply g_f | exact kinS_fault | exact Kin.refl _ | apply onDev_kin | split | intro _

theorem execJtagBypass_kin {s : State}  : KinS s (execJtagBypass s) := by
  unfold execJtagBypass
  try dsimp only
  with_reducible repeat'
    first
    | assumption | exact kinS_fault | exact Kin.refl _ | apply scan_kin | apply output_kin | apply updPower_kin | intro _
    | (apply kin_other; first | assumption | exact kinS_fault | exact Kin.refl _ | apply scan_kin | apply output_kin | apply updPower_kin)
    | (apply kin_other; apply kin_other; first | assumption | exact kinS_fault | exact Kin.refl _ | apply scan_kin | apply output_kin | apply updPower_kin)
    | (apply kin_mk <;> first | assumption | exact kinS_fault | exact Kin.refl _ | apply scan_kin | apply output_kin | apply updPower_kin | (intro w; first | exact w | exact wf_set _ _ w | exact wf_upd _ _ w | exact wf_del _ w | exact wf_keep _ w | exact wf_mapV _ w | exact wf_filter _ w | (simp; done) | (simpa using w) | (rw [length_listSet]; exact w)))

theorem execIdcode_kin {s : State}  : KinS s (execIdcode s) := by
  unfold execIdcode
  try dsimp only
  with_reducible repeat'
    first
    | assumption | exact kinS_fault | exact Kin.refl _ | apply scan_kin | apply output_kin | apply updPower_kin | intro _
    | (apply kin_other; first | assumption | exact kinS_fault | exact Kin.refl _ | apply scan_kin | apply output_kin | apply updPower_kin)
    | (apply kin_other; apply kin_other; first | assumption | exact kinS_fault | exact Kin.refl _ | apply scan_kin | apply output_kin | apply updPower_kin)
    | (apply kin_mk <;> first | assumption | exact kinS_fault | exact Kin.refl _ | apply scan_kin | apply output_kin | apply updPower_kin | (intro w; first | exact w | exact wf_set _ _ w | exact wf_upd _ _ w | exact wf_del _ w | exact wf_keep _ w | exact wf_mapV _ w | exact wf_filter _ w | (simp; done) | (simpa using w) | (rw [length_listSet]; exact w)))

theorem execSamplePreload_kin {bits : List Bool} {s : State}  : KinS s (execSamplePreload bits s) := by
  unfold execSamplePreload
  try dsimp only
  with_reducible repeat'
    first
    | assumption | exact kinS_fault | exact Kin.refl _ | apply scan_kin | apply drawFree_kin | apply output_kin
    | apply updPower_kin | apply kin_fst (by assumption) | apply kin_snd (by assumption) | intro _
    | (apply kin_other; first | assumption | exact kinS_fault | exact Kin.refl _ | apply scan_kin | apply drawFree_kin | apply output_kin | apply updPower_kin)
    | (apply kin_other; apply kin_other; first | assumption | exact kinS_fault | exact Kin.refl _ | apply scan_kin | apply drawFree_kin | apply output_kin | apply updPower_kin)
    | (apply kin_mk <;> first | assumption | exact kinS_fault | exact Kin.refl _ | apply scan_kin | apply drawFree_kin | apply output_kin | apply updPower_kin | (intro w; first | exact w | exact wf_set _ _ w | exact wf_upd _ _ w | exact wf_del _ w | exact wf_keep _ w | exact wf_mapV _ w | exact wf_filter _ w | (simp; done) | (simpa using w) | (rw [length_listSet]; exact w)))

theorem execExtest_kin {s : State}  : KinS s (execExtest s) := by
  unfold execExtest
  try dsimp only
  with_reducible repeat'
    first
    | assumption | exact kinS_fault | exact Kin.refl _ | apply scan_kin | apply output_kin | apply updPower_kin | intro _
    | (apply kin_other; first | assumption | exact kinS_fault | exact Kin.refl _ | apply scan_kin | apply output_kin | apply updPower_kin)
    | (apply kin_other; apply kin_other; first | assumption | exact kinS_fault | exact Kin.refl _ | apply scan_kin | apply output_kin | apply updPower_kin)
    | (apply kin_mk <;> first | assumption | exact kinS_fault | exact Kin.refl _ | apply scan_kin | apply output_kin | apply updPower_kin | (intro w; first | exact w | exact wf_set _ _ w | exact wf_upd _ _ w | exact wf_del _ w | exact wf_keep _ w | exact wf_mapV _ w | exact wf_filter _ w | (simp; done) | (simpa using w) | (rw [length_listSet]; exact w)))

theorem execHighz_kin {s : State}  : KinS s (execHighz s) := by
  unfold execHighz
  try dsimp only
  with_reducible repeat'
    first
    | assumption | exact kinS_fault | exact Kin.refl _ | apply scan_kin | apply output_kin | apply updPower_kin | intro _
    | (apply kin_other; first | assumption | exact kinS_fault | exact Kin.refl _ | apply scan_kin | apply output_kin | apply updPower_kin)
    | (apply kin_other; apply kin_other; first | assumption | exact kinS_fault | exact Kin.refl _ | apply scan_kin | apply output_kin | apply updPower_kin)
    | (apply kin_mk <;> first | assumption | exact kinS_fault | exact Kin.refl _ | apply scan_kin | apply output_kin | apply updPower_kin | (intro w; first | exact w | exact wf_set _ _ w | exact wf_upd _ _ w | exact wf_del _ w | exact wf_keep _ w | exact wf_mapV _ w | exact wf_filter _ w | (simp; done) | (simpa using w) | (rw [length_listSet]; exact w)))

theorem execScanEnAssert_kin {s : State}  : KinS s (execScanEnAssert s) := by
  unfold execScanEnAssert
  try dsimp only
  with_reducible repeat'
    first
    | assumption | exact kinS_fault | exact Kin.refl _ | apply onDev_kin | apply updPower_kin | apply shutdown_kin | intro _
    | (apply kin_other; first | assumption | exact kinS_fault | exact Kin.refl _ | apply onDev_kin | apply updPower_kin | apply shutdown_kin)
    | (apply kin_other; apply kin_other; first | assumption | exact kinS_fault | exact Kin.refl _ | apply onDev_kin | apply updPower_kin | apply shutdown_kin)
    | (apply kin_mk <;> first | assumption | exact kinS_fault | exact Kin.refl _ | apply onDev_kin | apply updPower_kin | apply shutdown_kin | (intro w; first | exact w | exact wf_set _ _ w | exact wf_upd _ _ w | exact wf_del _ w | exact wf_keep _ w | exact wf_mapV _ w | exact wf_filter _ w | (simp; done) | (simpa using w) | (rw [length_listSet]; exact w)))

theorem execScanEnRelease_kin {s : State}  : KinS s (execScanEnRelease s) := by
  unfold execScanEnRelease
  try dsimp only
  with_reducible repeat'
    first
    | assumption | exact kinS_fault | exact Kin.refl _ | apply onDev_kin | apply tryStart_kin | apply updPower_kin | intro _
    | (apply kin_other; first | assumption | exact kinS_fault | exact Kin.refl _ | apply onDev_kin | apply tryStart_kin | apply updPower_kin)
    | (apply kin_other; apply kin_other; first | assumption | exact kinS_fault | exact Kin.refl _ | apply onDev_kin | apply tryStart_kin | apply updPower_kin)
    | (apply kin_mk <;> first | assumption | exact kinS_fault | exact Kin.refl _ | apply onDev_kin | apply tryStart_kin | apply updPower_kin | (intro w; first | exact w | exact wf_set _ _ w | exact wf_upd _ _ w | exact wf_del _ w | exact wf_keep _ w | exact wf_mapV _ w | exact wf_filter _ w | (simp; done) | (simpa using w) | (rw [length_listSet]; exact w)))

theorem execInputRise_kin {s : State}  : KinS s (execInputRise s) := by
  unfold execInputRise
  try dsimp only
  with_reducible repeat'
    first
    | assumption | exact kinS_fault | exact Kin.refl _ | apply onDev_kin | apply tryStart_kin | apply updPower_kin | split
    | intro _
    | (apply kin_other; first | assumption | exact kinS_fault | exact Kin.refl _ | apply onDev_kin | apply tryStart_kin | apply updPower_kin)
    | (apply kin_other; apply kin_other; first | assumption | exact kinS_fault | exact Kin.refl _ | apply onDev_kin | apply tryStart_kin | apply updPower_kin)
    | (apply kin_mk <;> first | assumption | exact kinS_fault | exact Kin.refl _ | apply onDev_kin | apply tryStart_kin | apply updPower_kin | (intro w; first | exact w | exact wf_set _ _ w | exact wf_upd _ _ w | exact wf_del _ w | exact wf_keep _ w | exact wf_mapV _ w | exact wf_filter _ w | (simp; done) | (simpa using w) | (rw [length_listSet]; exact w)))

theorem execInputLow_kin {fall : InputFall} {s : State}  : KinS s (execInputLow fall s) := by
  unfold execInputLow
  try dsimp only
  with_reducible repeat'
    first
    | assumption | exact kinS_fault | exact Kin.refl _ | apply onDev_kin | apply tearWrite_kin | apply updPower_kin
    | apply shutdown_kin | split | apply kin_fst (by assumption) | apply kin_snd (by assumption) | intro _
    | (apply kin_other; first | assumption | exact kinS_fault | exact Kin.refl _ | apply onDev_kin | apply tearWrite_kin | apply updPower_kin | apply shutdown_kin)
    | (apply kin_other; apply kin_other; first | assumption | exact kinS_fault | exact Kin.refl _ | apply onDev_kin | apply tearWrite_kin | apply updPower_kin | apply shutdown_kin)
    | (apply kin_mk <;> first | assumption | exact kinS_fault | exact Kin.refl _ | apply onDev_kin | apply tearWrite_kin | apply updPower_kin | apply shutdown_kin | (intro w; first | exact w | exact wf_set _ _ w | exact wf_upd _ _ w | exact wf_del _ w | exact wf_keep _ w | exact wf_mapV _ w | exact wf_filter _ w | (simp; done) | (simpa using w) | (rw [length_listSet]; exact w)))

theorem execInputDip_kin {s : State}  : KinS s (execInputDip s) := by
  unfold execInputDip
  try dsimp only
  with_reducible repeat' first | assumption | exact kinS_fault | exact Kin.refl _ | apply onDev_kin | intro _

theorem execInputHigh_kin {s : State}  : KinS s (execInputHigh s) := by
  unfold execInputHigh
  try dsimp only
  with_reducible repeat'
    first
    | assumption | exact kinS_fault | exact Kin.refl _ | apply onDev_kin | apply updPower_kin | apply shutdown_kin | intro _
    | (apply kin_other; first | assumption | exact kinS_fault | exact Kin.refl _ | apply onDev_kin | apply updPower_kin | apply shutdown_kin)
    | (apply kin_other; apply kin_other; first | assumption | exact kinS_fault | exact Kin.refl _ | apply onDev_kin | apply updPower_kin | apply shutdown_kin)
    | (apply kin_mk <;> first | assumption | exact kinS_fault | exact Kin.refl _ | apply onDev_kin | apply updPower_kin | apply shutdown_kin | (intro w; first | exact w | exact wf_set _ _ w | exact wf_upd _ _ w | exact wf_del _ w | exact wf_keep _ w | exact wf_mapV _ w | exact wf_filter _ w | (simp; done) | (simpa using w) | (rw [length_listSet]; exact w)))

theorem execInputHighClear_kin {s : State}  : KinS s (execInputHighClear s) := by
  unfold execInputHighClear
  try dsimp only
  with_reducible repeat'
    first
    | assumption | exact kinS_fault | exact Kin.refl _ | apply onDev_kin | apply tryStart_kin | apply updPower_kin | split
    | intro _
    | (apply kin_other; first | assumption | exact kinS_fault | exact Kin.refl _ | apply onDev_kin | apply tryStart_kin | apply updPower_kin)
    | (apply kin_other; apply kin_other; first | assumption | exact kinS_fault | exact Kin.refl _ | apply onDev_kin | apply tryStart_kin | apply updPower_kin)
    | (apply kin_mk <;> first | assumption | exact kinS_fault | exact Kin.refl _ | apply onDev_kin | apply tryStart_kin | apply updPower_kin | (intro w; first | exact w | exact wf_set _ _ w | exact wf_upd _ _ w | exact wf_del _ w | exact wf_keep _ w | exact wf_mapV _ w | exact wf_filter _ w | (simp; done) | (simpa using w) | (rw [length_listSet]; exact w)))

theorem execOvercurrent_kin {s : State}  : KinS s (execOvercurrent s) := by
  unfold execOvercurrent
  try dsimp only
  with_reducible repeat'
    first
    | assumption | exact kinS_fault | exact Kin.refl _ | apply onDev_kin | apply updPower_kin | apply shutdown_kin | intro _
    | (apply kin_other; first | assumption | exact kinS_fault | exact Kin.refl _ | apply onDev_kin | apply updPower_kin | apply shutdown_kin)
    | (apply kin_other; apply kin_other; first | assumption | exact kinS_fault | exact Kin.refl _ | apply onDev_kin | apply updPower_kin | apply shutdown_kin)
    | (apply kin_mk <;> first | assumption | exact kinS_fault | exact Kin.refl _ | apply onDev_kin | apply updPower_kin | apply shutdown_kin | (intro w; first | exact w | exact wf_set _ _ w | exact wf_upd _ _ w | exact wf_del _ w | exact wf_keep _ w | exact wf_mapV _ w | exact wf_filter _ w | (simp; done) | (simpa using w) | (rw [length_listSet]; exact w)))

theorem execRailFault_kin {s : State}  : KinS s (execRailFault s) := by
  unfold execRailFault
  try dsimp only
  with_reducible repeat'
    first
    | assumption | exact kinS_fault | exact Kin.refl _ | apply onDev_kin | apply drawFree_kin | apply updPower_kin
    | apply shutdown_kin | split | apply kin_fst (by assumption) | apply kin_snd (by assumption) | intro _
    | (apply kin_other; first | assumption | exact kinS_fault | exact Kin.refl _ | apply onDev_kin | apply drawFree_kin | apply updPower_kin | apply shutdown_kin)
    | (apply kin_other; apply kin_other; first | assumption | exact kinS_fault | exact Kin.refl _ | apply onDev_kin | apply drawFree_kin | apply updPower_kin | apply shutdown_kin)
    | (apply kin_mk <;> first | assumption | exact kinS_fault | exact Kin.refl _ | apply onDev_kin | apply drawFree_kin | apply updPower_kin | apply shutdown_kin | (intro w; first | exact w | exact wf_set _ _ w | exact wf_upd _ _ w | exact wf_del _ w | exact wf_keep _ w | exact wf_mapV _ w | exact wf_filter _ w | (simp; done) | (simpa using w) | (rw [length_listSet]; exact w)))

theorem execShutdownRestart_kin {s : State}  : KinS s (execShutdownRestart s) := by
  unfold execShutdownRestart
  try dsimp only
  with_reducible repeat'
    first
    | assumption | exact kinS_fault | exact Kin.refl _ | apply onDev_kin | apply updPower_kin | apply beginStart_kin
    | apply kinO_getD | split | intro _
    | (apply kin_other; first | assumption | exact kinS_fault | exact Kin.refl _ | apply onDev_kin | apply updPower_kin | apply beginStart_kin | apply kinO_getD)
    | (apply kin_other; apply kin_other; first | assumption | exact kinS_fault | exact Kin.refl _ | apply onDev_kin | apply updPower_kin | apply beginStart_kin | apply kinO_getD)
    | (apply kin_mk <;> first | assumption | exact kinS_fault | exact Kin.refl _ | apply onDev_kin | apply updPower_kin | apply beginStart_kin | apply kinO_getD | (intro w; first | exact w | exact wf_set _ _ w | exact wf_upd _ _ w | exact wf_del _ w | exact wf_keep _ w | exact wf_mapV _ w | exact wf_filter _ w | (simp; done) | (simpa using w) | (rw [length_listSet]; exact w)))

theorem execHeartbeat_kin {s : State}  : KinS s (execHeartbeat s) := by
  unfold execHeartbeat
  try dsimp only
  with_reducible repeat'
    first
    | assumption | exact kinS_fault | exact Kin.refl _ | apply onDev_kin | apply updPower_kin | split | intro _
    | (apply kin_other; first | assumption | exact kinS_fault | exact Kin.refl _ | apply onDev_kin | apply updPower_kin)
    | (apply kin_other; apply kin_other; first | assumption | exact kinS_fault | exact Kin.refl _ | apply onDev_kin | apply updPower_kin)
    | (apply kin_mk <;> first | assumption | exact kinS_fault | exact Kin.refl _ | apply onDev_kin | apply updPower_kin | (intro w; first | exact w | exact wf_set _ _ w | exact wf_upd _ _ w | exact wf_del _ w | exact wf_keep _ w | exact wf_mapV _ w | exact wf_filter _ w | (simp; done) | (simpa using w) | (rw [length_listSet]; exact w)))

theorem execHeartbeatMissing_kin {s : State}  : KinS s (execHeartbeatMissing s) := by
  unfold execHeartbeatMissing
  try dsimp only
  with_reducible repeat'
    first
    | assumption | exact kinS_fault | exact Kin.refl _ | apply onDev_kin | apply shutdown_kin | split | intro _

theorem execOverTemperature_kin {s : State}  : KinS s (execOverTemperature s) := by
  unfold execOverTemperature
  try dsimp only
  with_reducible repeat'
    first
    | assumption | exact kinS_fault | exact Kin.refl _ | apply onDev_kin | apply updPower_kin | apply shutdown_kin | intro _
    | (apply kin_other; first | assumption | exact kinS_fault | exact Kin.refl _ | apply onDev_kin | apply updPower_kin | apply shutdown_kin)
    | (apply kin_other; apply kin_other; first | assumption | exact kinS_fault | exact Kin.refl _ | apply onDev_kin | apply updPower_kin | apply shutdown_kin)
    | (apply kin_mk <;> first | assumption | exact kinS_fault | exact Kin.refl _ | apply onDev_kin | apply updPower_kin | apply shutdown_kin | (intro w; first | exact w | exact wf_set _ _ w | exact wf_upd _ _ w | exact wf_del _ w | exact wf_keep _ w | exact wf_mapV _ w | exact wf_filter _ w | (simp; done) | (simpa using w) | (rw [length_listSet]; exact w)))

theorem execTempRecovered_kin {s : State}  : KinS s (execTempRecovered s) := by
  unfold execTempRecovered
  try dsimp only
  with_reducible repeat'
    first
    | assumption | exact kinS_fault | exact Kin.refl _ | apply onDev_kin | apply tryStart_kin | apply updPower_kin | split
    | intro _
    | (apply kin_other; first | assumption | exact kinS_fault | exact Kin.refl _ | apply onDev_kin | apply tryStart_kin | apply updPower_kin)
    | (apply kin_other; apply kin_other; first | assumption | exact kinS_fault | exact Kin.refl _ | apply onDev_kin | apply tryStart_kin | apply updPower_kin)
    | (apply kin_mk <;> first | assumption | exact kinS_fault | exact Kin.refl _ | apply onDev_kin | apply tryStart_kin | apply updPower_kin | (intro w; first | exact w | exact wf_set _ _ w | exact wf_upd _ _ w | exact wf_del _ w | exact wf_keep _ w | exact wf_mapV _ w | exact wf_filter _ w | (simp; done) | (simpa using w) | (rw [length_listSet]; exact w)))

theorem execThermalWarn_kin {sensor : Nat} {above : Bool} {s : State}  : KinS s (execThermalWarn sensor above s) := by
  unfold execThermalWarn
  try dsimp only
  with_reducible repeat'
    first
    | assumption | exact kinS_fault | exact Kin.refl _ | apply onUnit_kin | apply updPower_kin | apply raiseTrap_kin
    | apply bump_kin | split | intro _
    | (apply kin_other; first | assumption | exact kinS_fault | exact Kin.refl _ | apply onUnit_kin | apply updPower_kin | apply raiseTrap_kin | apply bump_kin)
    | (apply kin_other; apply kin_other; first | assumption | exact kinS_fault | exact Kin.refl _ | apply onUnit_kin | apply updPower_kin | apply raiseTrap_kin | apply bump_kin)
    | (apply kin_mk <;> first | assumption | exact kinS_fault | exact Kin.refl _ | apply onUnit_kin | apply updPower_kin | apply raiseTrap_kin | apply bump_kin | (intro w; first | exact w | exact wf_set _ _ w | exact wf_upd _ _ w | exact wf_del _ w | exact wf_keep _ w | exact wf_mapV _ w | exact wf_filter _ w | (simp; done) | (simpa using w) | (rw [length_listSet]; exact w)))

theorem execInputWarn_kin {near : Bool} {s : State}  : KinS s (execInputWarn near s) := by
  unfold execInputWarn
  try dsimp only
  with_reducible repeat'
    first
    | assumption | exact kinS_fault | exact Kin.refl _ | apply onDev_kin | apply updPower_kin | apply raiseTrap_kin
    | apply bump_kin | split | intro _
    | (apply kin_other; first | assumption | exact kinS_fault | exact Kin.refl _ | apply onDev_kin | apply updPower_kin | apply raiseTrap_kin | apply bump_kin)
    | (apply kin_other; apply kin_other; first | assumption | exact kinS_fault | exact Kin.refl _ | apply onDev_kin | apply updPower_kin | apply raiseTrap_kin | apply bump_kin)
    | (apply kin_mk <;> first | assumption | exact kinS_fault | exact Kin.refl _ | apply onDev_kin | apply updPower_kin | apply raiseTrap_kin | apply bump_kin | (intro w; first | exact w | exact wf_set _ _ w | exact wf_upd _ _ w | exact wf_del _ w | exact wf_keep _ w | exact wf_mapV _ w | exact wf_filter _ w | (simp; done) | (simpa using w) | (rw [length_listSet]; exact w)))

theorem execModuleReset_kin {s : State}  : KinS s (execModuleReset s) := by
  unfold execModuleReset
  try dsimp only
  with_reducible repeat'
    first
    | assumption | exact kinS_fault | exact Kin.refl _ | apply onDev_kin | apply resetModule_kin | split | intro _

theorem updClocks_kin {a0 : Dev} {d : Dev} {f : Clocks → Clocks} (hK : Kin a0 d) : Kin a0 (updClocks d f) := by
  unfold updClocks
  try dsimp only
  with_reducible repeat'
    first
    | assumption | intro _ | (apply kin_other; first | assumption) | (apply kin_other; apply kin_other; first | assumption)
    | (apply kin_mk <;> first | assumption | (intro w; first | exact w | exact wf_set _ _ w | exact wf_upd _ _ w | exact wf_del _ w | exact wf_keep _ w | exact wf_mapV _ w | exact wf_filter _ w | (simp; done) | (simpa using w) | (rw [length_listSet]; exact w)))

theorem execRefClockLoss_kin {s : State}  : KinS s (execRefClockLoss s) := by
  unfold execRefClockLoss
  try dsimp only
  with_reducible repeat'
    first
    | assumption | exact kinS_fault | exact Kin.refl _ | apply onDev_kin | apply updClocks_kin | apply raiseTrap_kin
    | apply bump_kin | split | intro _
    | (apply kin_other; first | assumption | exact kinS_fault | exact Kin.refl _ | apply onDev_kin | apply updClocks_kin | apply raiseTrap_kin | apply bump_kin)
    | (apply kin_other; apply kin_other; first | assumption | exact kinS_fault | exact Kin.refl _ | apply onDev_kin | apply updClocks_kin | apply raiseTrap_kin | apply bump_kin)
    | (apply kin_mk <;> first | assumption | exact kinS_fault | exact Kin.refl _ | apply onDev_kin | apply updClocks_kin | apply raiseTrap_kin | apply bump_kin | (intro w; first | exact w | exact wf_set _ _ w | exact wf_upd _ _ w | exact wf_del _ w | exact wf_keep _ w | exact wf_mapV _ w | exact wf_filter _ w | (simp; done) | (simpa using w) | (rw [length_listSet]; exact w)))

theorem execRefClockReturn_kin {s : State}  : KinS s (execRefClockReturn s) := by
  unfold execRefClockReturn
  try dsimp only
  with_reducible repeat'
    first
    | assumption | exact kinS_fault | exact Kin.refl _ | apply onDev_kin | apply updClocks_kin | apply bumpBy_kin | split
    | intro _
    | (apply kin_other; first | assumption | exact kinS_fault | exact Kin.refl _ | apply onDev_kin | apply updClocks_kin | apply bumpBy_kin)
    | (apply kin_other; apply kin_other; first | assumption | exact kinS_fault | exact Kin.refl _ | apply onDev_kin | apply updClocks_kin | apply bumpBy_kin)
    | (apply kin_mk <;> first | assumption | exact kinS_fault | exact Kin.refl _ | apply onDev_kin | apply updClocks_kin | apply bumpBy_kin | (intro w; first | exact w | exact wf_set _ _ w | exact wf_upd _ _ w | exact wf_del _ w | exact wf_keep _ w | exact wf_mapV _ w | exact wf_filter _ w | (simp; done) | (simpa using w) | (rw [length_listSet]; exact w)))

theorem execSlewComplete_kin {s : State}  : KinS s (execSlewComplete s) := by
  unfold execSlewComplete
  try dsimp only
  with_reducible repeat'
    first
    | assumption | exact kinS_fault | exact Kin.refl _ | apply onDev_kin | apply updClocks_kin | intro _
    | (apply kin_other; first | assumption | exact kinS_fault | exact Kin.refl _ | apply onDev_kin | apply updClocks_kin)
    | (apply kin_other; apply kin_other; first | assumption | exact kinS_fault | exact Kin.refl _ | apply onDev_kin | apply updClocks_kin)
    | (apply kin_mk <;> first | assumption | exact kinS_fault | exact Kin.refl _ | apply onDev_kin | apply updClocks_kin | (intro w; first | exact w | exact wf_set _ _ w | exact wf_upd _ _ w | exact wf_del _ w | exact wf_keep _ w | exact wf_mapV _ w | exact wf_filter _ w | (simp; done) | (simpa using w) | (rw [length_listSet]; exact w)))

end Sys2Proof.Machine
end

