-- ==== Sys2Proof/Laws/KinTelemetry.lean ====
section
/-!
SUPPORT. Sys2Proof/Laws/KinTelemetry.lean: every operation of Telemetry.lean keeps time, identity and the form of the tables.
-/
namespace Sys2Proof.Machine
open SMap

theorem releaseTrap_kin {a0 : Dev} {d : Dev} (hK : Kin a0 d) : Kin a0 (releaseTrap d) := by
  unfold releaseTrap
  try dsimp only
  with_reducible repeat'
    first
    | assumption | apply poolRelease_kin | apply updMgmt_kin | split | apply kin_fst (by assumption)
    | apply kin_snd (by assumption) | intro _
    | (apply kin_other; first | assumption | apply poolRelease_kin | apply updMgmt_kin)
    | (apply kin_other; apply kin_other; first | assumption | apply poolRelease_kin | apply updMgmt_kin)
    | (apply kin_mk <;> first | assumption | apply poolRelease_kin | apply updMgmt_kin | (intro w; first | exact w | exact wf_set _ _ w | exact wf_upd _ _ w | exact wf_del _ w | exact wf_keep _ w | exact wf_mapV _ w | exact wf_filter _ w | (simp; done) | (simpa using w) | (rw [length_listSet]; exact w)))

theorem releaseTraps_kin {a0 : Dev} {y0 : Nat} {y1 : Dev} (hK : Kin a0 y1) : Kin a0 (releaseTraps y0 y1) := by
  induction y0 generalizing y1 with
  | zero =>
    unfold releaseTraps
    try dsimp only
    with_reducible repeat' first | assumption | apply releaseTrap_kin | intro _
  | succ k ih =>
    unfold releaseTraps
    try dsimp only
    with_reducible repeat' first | assumption | apply ih | apply releaseTrap_kin | intro _

theorem writeTrapCtl_kin {a0 : Dev} {d : Dev} {v : Nat} (hK : Kin a0 d) : Kin a0 (writeTrapCtl d v) := by
  unfold writeTrapCtl
  try dsimp only
  with_reducible repeat' first | assumption | apply bump_kin | apply releaseTraps_kin | split | intro _

theorem execTrapAge_kin {s : State}  : KinS s (execTrapAge s) := by
  unfold execTrapAge
  try dsimp only
  with_reducible repeat'
    first
    | assumption | exact kinS_fault | exact Kin.refl _ | apply onDev_kin | apply bump_kin | apply releaseTrap_kin | split
    | apply kin_fst (by assumption) | apply kin_snd (by assumption) | intro _

theorem drawWords_kin {a0 : Dev} {y0 : Nat} {y1 : Dev} (hK : Kin a0 y1) : Kin a0 (drawWords y0 y1).2 := by
  induction y0 generalizing y1 with
  | zero =>
    unfold drawWords
    try dsimp only
    with_reducible repeat'
      first
      | assumption | apply drawFree_kin | apply kin_fst (by assumption) | apply kin_snd (by assumption) | intro _
  | succ k ih =>
    unfold drawWords
    try dsimp only
    with_reducible repeat'
      first
      | assumption | apply ih | apply drawFree_kin | apply kin_fst (by assumption) | apply kin_snd (by assumption) | intro _

theorem streamWords_kin {a0 : Dev} {d : Dev} {stream : Nat} (hK : Kin a0 d) : Kin a0 (streamWords d stream).2 := by
  unfold streamWords
  try dsimp only
  with_reducible repeat'
    first
    | assumption | apply drawWords_kin | split | apply kin_fst (by assumption) | apply kin_snd (by assumption) | intro _

theorem takeSnapshot_kin {a0 : Dev} {sink stream : Nat} {d : Dev} (hK : Kin a0 d) : Kin a0 (takeSnapshot sink stream d) := by
  unfold takeSnapshot
  try dsimp only
  with_reducible repeat'
    first
    | assumption | apply bump_kin | apply streamWords_kin | apply updMgmt_kin | split | apply kin_fst (by assumption)
    | apply kin_snd (by assumption) | intro _
    | (apply kin_other; first | assumption | apply bump_kin | apply streamWords_kin | apply updMgmt_kin)
    | (apply kin_other; apply kin_other; first | assumption | apply bump_kin | apply streamWords_kin | apply updMgmt_kin)
    | (apply kin_mk <;> first | assumption | apply bump_kin | apply streamWords_kin | apply updMgmt_kin | (intro w; first | exact w | exact wf_set _ _ w | exact wf_upd _ _ w | exact wf_del _ w | exact wf_keep _ w | exact wf_mapV _ w | exact wf_filter _ w | (simp; done) | (simpa using w) | (rw [length_listSet]; exact w)))

theorem execTelemetryPeriod_kin {sink : Nat} {s : State}  : KinS s (execTelemetryPeriod sink s) := by
  unfold execTelemetryPeriod
  try dsimp only
  with_reducible repeat'
    first
    | assumption | exact kinS_fault | exact Kin.refl _ | apply onUnit_kin | apply updMgmt_kin | apply forEach_kin
    | apply takeSnapshot_kin | split | apply kin_fst (by assumption) | apply kin_snd (by assumption) | intro _
    | (apply kin_other; first | assumption | exact kinS_fault | exact Kin.refl _ | apply onUnit_kin | apply updMgmt_kin | apply forEach_kin | apply takeSnapshot_kin)
    | (apply kin_other; apply kin_other; first | assumption | exact kinS_fault | exact Kin.refl _ | apply onUnit_kin | apply updMgmt_kin | apply forEach_kin | apply takeSnapshot_kin)
    | (apply kin_mk <;> first | assumption | exact kinS_fault | exact Kin.refl _ | apply onUnit_kin | apply updMgmt_kin | apply forEach_kin | apply takeSnapshot_kin | (intro w; first | exact w | exact wf_set _ _ w | exact wf_upd _ _ w | exact wf_del _ w | exact wf_keep _ w | exact wf_mapV _ w | exact wf_filter _ w | (simp; done) | (simpa using w) | (rw [length_listSet]; exact w)))

theorem sendUnsent_kin {a0 : Dev} {d : Dev} {sink : Nat} (hK : Kin a0 d) : Kin a0 (sendUnsent d sink) := by
  unfold sendUnsent
  try dsimp only
  with_reducible repeat'
    first
    | assumption | apply forEach_kin | apply updMgmt_kin | apply telemSend_kin | split | apply kin_fst (by assumption)
    | apply kin_snd (by assumption) | intro _
    | (apply kin_other; first | assumption | apply forEach_kin | apply updMgmt_kin | apply telemSend_kin)
    | (apply kin_other; apply kin_other; first | assumption | apply forEach_kin | apply updMgmt_kin | apply telemSend_kin)
    | (apply kin_mk <;> first | assumption | apply forEach_kin | apply updMgmt_kin | apply telemSend_kin | (intro w; first | exact w | exact wf_set _ _ w | exact wf_upd _ _ w | exact wf_del _ w | exact wf_keep _ w | exact wf_mapV _ w | exact wf_filter _ w | (simp; done) | (simpa using w) | (rw [length_listSet]; exact w)))

theorem onMport_kin {port : Nat} {s : State} {f : Dev → Dev} (g_f : ∀ e, Kin s.dev e → Kin s.dev (f e)) : KinS s (onMport port s f) := by
  unfold onMport
  try dsimp only
  with_reducible repeat'
    first
    | assumption | apply g_f | exact kinS_fault | exact Kin.refl _ | apply onUnit_kin | split | intro _

theorem addrConflict_kin {a0 : Dev} {d : Dev} {k : Nat} (hK : Kin a0 d) : Kin a0 (addrConflict d k) := by
  unfold addrConflict
  try dsimp only
  with_reducible repeat'
    first
    | assumption | apply raiseTrap_kin | apply updMgmt_kin | split | intro _
    | (apply kin_other; first | assumption | apply raiseTrap_kin | apply updMgmt_kin)
    | (apply kin_other; apply kin_other; first | assumption | apply raiseTrap_kin | apply updMgmt_kin)
    | (apply kin_mk <;> first | assumption | apply raiseTrap_kin | apply updMgmt_kin | (intro w; first | exact w | exact wf_set _ _ w | exact wf_upd _ _ w | exact wf_del _ w | exact wf_keep _ w | exact wf_mapV _ w | exact wf_filter _ w | (simp; done) | (simpa using w) | (rw [length_listSet]; exact w)))

theorem arpClaim_kin {a0 : Dev} {d : Dev} {mport : Nat} {sha : W64} {spa : W32} (hK : Kin a0 d) : Kin a0 (arpClaim d mport sha spa) := by
  unfold arpClaim
  try dsimp only
  with_reducible repeat'
    first
    | assumption | apply raiseTrap_kin | apply updMgmt_kin | apply output_kin | apply addrConflict_kin | split | intro _
    | (apply kin_other; first | assumption | apply raiseTrap_kin | apply updMgmt_kin | apply output_kin | apply addrConflict_kin)
    | (apply kin_other; apply kin_other; first | assumption | apply raiseTrap_kin | apply updMgmt_kin | apply output_kin | apply addrConflict_kin)
    | (apply kin_mk <;> first | assumption | apply raiseTrap_kin | apply updMgmt_kin | apply output_kin | apply addrConflict_kin | (intro w; first | exact w | exact wf_set _ _ w | exact wf_upd _ _ w | exact wf_del _ w | exact wf_keep _ w | exact wf_mapV _ w | exact wf_filter _ w | (simp; done) | (simpa using w) | (rw [length_listSet]; exact w)))

theorem execArpRequest_kin {mport : Nat} {sha : W64} {spa tpa : W32} {s : State}  : KinS s (execArpRequest mport sha spa tpa s) := by
  unfold execArpRequest
  try dsimp only
  with_reducible repeat'
    first
    | assumption | exact kinS_fault | exact Kin.refl _ | apply onMport_kin | apply arpClaim_kin | apply output_kin
    | apply addrConflict_kin | split | intro _

theorem execAddrDup_kin {mport : Nat} {sha : W64} {spa : W32} {s : State}  : KinS s (execAddrDup mport sha spa s) := by
  unfold execAddrDup
  try dsimp only
  with_reducible repeat'
    first
    | assumption | exact kinS_fault | exact Kin.refl _ | apply onMport_kin | apply arpClaim_kin | intro _

theorem execNeighborDiscovery_kin {mport : Nat} {src : Option (BitVec 128)} {target : BitVec 128} {s : State}  : KinS s (execNeighborDiscovery mport src target s) := by
  unfold execNeighborDiscovery
  try dsimp only
  with_reducible repeat'
    first
    | assumption | exact kinS_fault | exact Kin.refl _ | apply onMport_kin | apply output_kin | apply addrConflict_kin | split
    | apply kin_fst (by assumption) | apply kin_snd (by assumption) | intro _

theorem execEchoRequest_kin {mport : Nat} {src dst : BitVec 128} {ident : W32} {data : List Byte} {s : State}  : KinS s (execEchoRequest mport src dst ident data s) := by
  unfold execEchoRequest
  try dsimp only
  with_reducible repeat'
    first
    | assumption | exact kinS_fault | exact Kin.refl _ | apply onMport_kin | apply output_kin | split | intro _

theorem execMgmtFrameDrop_kin {mport : Nat} {s : State}  : KinS s (execMgmtFrameDrop mport s) := by
  unfold execMgmtFrameDrop
  try dsimp only
  with_reducible repeat' first | assumption | exact kinS_fault | exact Kin.refl _ | apply onMport_kin | apply bump_kin | intro _

theorem solicitAddr_kin {a0 : Dev} {d : Dev} {mport k : Nat} {x : BitVec 128} (hK : Kin a0 d) : Kin a0 (solicitAddr d mport k x) := by
  unfold solicitAddr
  try dsimp only
  with_reducible repeat' first | assumption | apply output_kin | split | intro _

theorem probeAddrs_kin {a0 : Dev} {d : Dev} {mport : Nat} (hK : Kin a0 d) : Kin a0 (probeAddrs d mport) := by
  unfold probeAddrs
  try dsimp only
  with_reducible repeat' first | assumption | apply forEach_kin | apply output_kin | apply solicitAddr_kin | split | intro _

theorem execMgmtLinkChange_kin {mport : Nat} {up : Bool} {s : State}  : KinS s (execMgmtLinkChange mport up s) := by
  unfold execMgmtLinkChange
  try dsimp only
  with_reducible repeat'
    first
    | assumption | exact kinS_fault | exact Kin.refl _ | apply onUnit_kin | apply probeAddrs_kin | apply updMgmt_kin | split
    | intro _
    | (apply kin_other; first | assumption | exact kinS_fault | exact Kin.refl _ | apply onUnit_kin | apply probeAddrs_kin | apply updMgmt_kin)
    | (apply kin_other; apply kin_other; first | assumption | exact kinS_fault | exact Kin.refl _ | apply onUnit_kin | apply probeAddrs_kin | apply updMgmt_kin)
    | (apply kin_mk <;> first | assumption | exact kinS_fault | exact Kin.refl _ | apply onUnit_kin | apply probeAddrs_kin | apply updMgmt_kin | (intro w; first | exact w | exact wf_set _ _ w | exact wf_upd _ _ w | exact wf_del _ w | exact wf_keep _ w | exact wf_mapV _ w | exact wf_filter _ w | (simp; done) | (simpa using w) | (rw [length_listSet]; exact w)))

theorem execAddressProbeDone_kin {mport : Nat} {v6 : Bool} {s : State}  : KinS s (execAddressProbeDone mport v6 s) := by
  unfold execAddressProbeDone
  try dsimp only
  with_reducible repeat'
    first
    | assumption | exact kinS_fault | exact Kin.refl _ | apply onMport_kin | apply updMgmt_kin | apply forEach_kin
    | apply output_kin | split | intro _
    | (apply kin_other; first | assumption | exact kinS_fault | exact Kin.refl _ | apply onMport_kin | apply updMgmt_kin | apply forEach_kin | apply output_kin)
    | (apply kin_other; apply kin_other; first | assumption | exact kinS_fault | exact Kin.refl _ | apply onMport_kin | apply updMgmt_kin | apply forEach_kin | apply output_kin)
    | (apply kin_mk <;> first | assumption | exact kinS_fault | exact Kin.refl _ | apply onMport_kin | apply updMgmt_kin | apply forEach_kin | apply output_kin | (intro w; first | exact w | exact wf_set _ _ w | exact wf_upd _ _ w | exact wf_del _ w | exact wf_keep _ w | exact wf_mapV _ w | exact wf_filter _ w | (simp; done) | (simpa using w) | (rw [length_listSet]; exact w)))

end Sys2Proof.Machine
end

