-- ==== Sys2Proof/Laws/KinModuleCmds.lean ====
section
/-!
SUPPORT. Sys2Proof/Laws/KinModuleCmds.lean: every operation of ModuleCmds.lean keeps time, identity and the form of the tables.
-/
namespace Sys2Proof.Machine
open SMap

theorem moduleInfoCmd_kin {a0 : Dev} {y0 : Dev} {y1 : Cmd} (hK : Kin a0 y0) : Kin a0 (moduleInfoCmd y0 y1).1 := by
  unfold moduleInfoCmd
  try dsimp only
  with_reducible repeat' first | assumption | apply doneWith_kin | intro _

theorem execModuleInfo_kin {p : CmdPkt} {s : State}  : KinS s (execModuleInfo p s) := by
  unfold execModuleInfo
  try dsimp only
  with_reducible repeat'
    first
    | assumption | exact kinS_fault | exact Kin.refl _ | apply onCmd_kin | apply moduleInfoCmd_kin | intro _

theorem doneStored_kin {a0 : Dev} {d : Dev} {c : Cmd} (hK : Kin a0 d) : Kin a0 (doneStored d c).1 := by
  unfold doneStored
  try dsimp only
  with_reducible repeat' first | assumption | apply done_kin | apply waitOn_kin | split | intro _

theorem disableSessions_kin {a0 : Dev} {d : Dev} {i : Nat} (hK : Kin a0 d) : Kin a0 (disableSessions d i) := by
  unfold disableSessions
  try dsimp only
  with_reducible repeat'
    first
    | assumption | apply updMgmt_kin | apply removeSessions_kin | split | intro _
    | (apply kin_other; first | assumption | apply updMgmt_kin | apply removeSessions_kin)
    | (apply kin_other; apply kin_other; first | assumption | apply updMgmt_kin | apply removeSessions_kin)
    | (apply kin_mk <;> first | assumption | apply updMgmt_kin | apply removeSessions_kin | (intro w; first | exact w | exact wf_set _ _ w | exact wf_upd _ _ w | exact wf_del _ w | exact wf_keep _ w | exact wf_mapV _ w | exact wf_filter _ w | (simp; done) | (simpa using w) | (rw [length_listSet]; exact w)))

theorem authSetCmd_kin {a0 : Dev} {y0 : Dev} {y1 : Cmd} (hK : Kin a0 y0) : Kin a0 (authSetCmd y0 y1).1 := by
  unfold authSetCmd
  try dsimp only
  with_reducible repeat'
    first
    | assumption | apply checks_kin | apply flashWrite_kin | apply doneStored_kin | apply updMgmt_kin
    | apply disableSessions_kin | split | intro _
    | (apply kin_other; first | assumption | apply checks_kin | apply flashWrite_kin | apply doneStored_kin | apply updMgmt_kin | apply disableSessions_kin)
    | (apply kin_other; apply kin_other; first | assumption | apply checks_kin | apply flashWrite_kin | apply doneStored_kin | apply updMgmt_kin | apply disableSessions_kin)
    | (apply kin_mk <;> first | assumption | apply checks_kin | apply flashWrite_kin | apply doneStored_kin | apply updMgmt_kin | apply disableSessions_kin | (intro w; first | exact w | exact wf_set _ _ w | exact wf_upd _ _ w | exact wf_del _ w | exact wf_keep _ w | exact wf_mapV _ w | exact wf_filter _ w | (simp; done) | (simpa using w) | (rw [length_listSet]; exact w)))

theorem execAuthSet_kin {p : CmdPkt} {s : State}  : KinS s (execAuthSet p s) := by
  unfold execAuthSet
  try dsimp only
  with_reducible repeat'
    first
    | assumption | exact kinS_fault | exact Kin.refl _ | apply onCmd_kin | apply authSetCmd_kin | intro _

theorem patchLoadCmd_kin {a0 : Dev} {y0 : Dev} {y1 : Cmd} (hK : Kin a0 y0) : Kin a0 (patchLoadCmd y0 y1).1 := by
  unfold patchLoadCmd
  try dsimp only
  with_reducible repeat' first | assumption | apply checks_kin | apply done_kin | apply flashWrite_kin | intro _

theorem execPatchLoad_kin {p : CmdPkt} {s : State}  : KinS s (execPatchLoad p s) := by
  unfold execPatchLoad
  try dsimp only
  with_reducible repeat'
    first
    | assumption | exact kinS_fault | exact Kin.refl _ | apply onCmd_kin | apply patchLoadCmd_kin | intro _

theorem needSlice_kin {a0 : Dev} {d : Dev} {p : Nat} (hK : Kin a0 d) : Kin a0 (needSlice d p) := by
  unfold needSlice
  try dsimp only
  with_reducible repeat'
    first
    | assumption | apply steer_kin | split | apply kin_fst (by assumption) | apply kin_snd (by assumption) | intro _

theorem setRole_kin {a0 : Dev} {d : Dev} {p role : Nat} (hK : Kin a0 d) : Kin a0 (setRole d p role) := by
  unfold setRole
  try dsimp only
  with_reducible repeat'
    first
    | assumption | apply enterTrain_kin | apply updPort_kin | apply portDown_kin | apply sendDownNotice_kin
    | apply needSlice_kin | split | intro _
    | (apply kin_other; first | assumption | apply enterTrain_kin | apply updPort_kin | apply portDown_kin | apply sendDownNotice_kin | apply needSlice_kin)
    | (apply kin_other; apply kin_other; first | assumption | apply enterTrain_kin | apply updPort_kin | apply portDown_kin | apply sendDownNotice_kin | apply needSlice_kin)
    | (apply kin_mk <;> first | assumption | apply enterTrain_kin | apply updPort_kin | apply portDown_kin | apply sendDownNotice_kin | apply needSlice_kin | (intro w; first | exact w | exact wf_set _ _ w | exact wf_upd _ _ w | exact wf_del _ w | exact wf_keep _ w | exact wf_mapV _ w | exact wf_filter _ w | (simp; done) | (simpa using w) | (rw [length_listSet]; exact w)))

theorem portConfigCmd_kin {a0 : Dev} {y0 : Dev} {y1 : Cmd} (hK : Kin a0 y0) : Kin a0 (portConfigCmd y0 y1).1 := by
  unfold portConfigCmd
  try dsimp only
  with_reducible repeat'
    first
    | assumption | apply checks_kin | apply setRole_kin | apply done_kin | apply flashWrite_kin | intro _

theorem execPortConfig_kin {p : CmdPkt} {s : State}  : KinS s (execPortConfig p s) := by
  unfold execPortConfig
  try dsimp only
  with_reducible repeat'
    first
    | assumption | exact kinS_fault | exact Kin.refl _ | apply onUnit_kin | apply settleLinks_kin | apply receiveCmd_kin
    | apply portConfigCmd_kin | intro _

theorem regReadCmd_kin {a0 : Dev} {y0 : Dev} {y1 : Cmd} (hK : Kin a0 y0) : Kin a0 (regReadCmd y0 y1).1 := by
  unfold regReadCmd
  try dsimp only
  with_reducible repeat'
    first
    | assumption | apply checks_kin | apply drawFree_kin | apply doneWith_kin | split | apply kin_fst (by assumption)
    | apply kin_snd (by assumption) | intro _

theorem execRegRead_kin {p : CmdPkt} {s : State}  : KinS s (execRegRead p s) := by
  unfold execRegRead
  try dsimp only
  with_reducible repeat'
    first
    | assumption | exact kinS_fault | exact Kin.refl _ | apply onCmd_kin | apply regReadCmd_kin | intro _

theorem jobRegReadCmd_kin {a0 : Dev} {y0 : Dev} {y1 : Cmd} (hK : Kin a0 y0) : Kin a0 (jobRegReadCmd y0 y1).1 := by
  unfold jobRegReadCmd
  try dsimp only
  with_reducible repeat' first | assumption | apply checks_kin | apply doneWith_kin | apply kinO_getD | intro _

theorem execJobRegRead_kin {p : CmdPkt} {s : State}  : KinS s (execJobRegRead p s) := by
  unfold execJobRegRead
  try dsimp only
  with_reducible repeat'
    first
    | assumption | exact kinS_fault | exact Kin.refl _ | apply onCmd_kin | apply jobRegReadCmd_kin | intro _

theorem regWrite_kin {a0 : Dev} {d : Dev} {a : Nat} {v : W64} (hK : Kin a0 d) : KinO a0 (regWrite d a v) := by
  unfold regWrite
  try dsimp only
  with_reducible repeat'
    first
    | assumption | apply flashWrite_kin | apply updMgmt_kin | apply writeTrapCtl_kin | apply updPort_kin | apply kinO_map
    | split | exact kinO_none | apply kinO_some | apply kinO_use (by assumption) | intro _
    | (apply kin_other; first | assumption | apply flashWrite_kin | apply updMgmt_kin | apply writeTrapCtl_kin | apply updPort_kin | apply kinO_map)
    | (apply kin_other; apply kin_other; first | assumption | apply flashWrite_kin | apply updMgmt_kin | apply writeTrapCtl_kin | apply updPort_kin | apply kinO_map)
    | (apply kin_mk <;> first | assumption | apply flashWrite_kin | apply updMgmt_kin | apply writeTrapCtl_kin | apply updPort_kin | apply kinO_map | (intro w; first | exact w | exact wf_set _ _ w | exact wf_upd _ _ w | exact wf_del _ w | exact wf_keep _ w | exact wf_mapV _ w | exact wf_filter _ w | (simp; done) | (simpa using w) | (rw [length_listSet]; exact w)))

theorem regWriteCmd_kin {a0 : Dev} {y0 : Dev} {y1 : Cmd} (hK : Kin a0 y0) : Kin a0 (regWriteCmd y0 y1).1 := by
  unfold regWriteCmd
  try dsimp only
  with_reducible repeat'
    first
    | assumption | apply checks_kin | apply regWrite_kin | apply doneStored_kin | apply kinO_getD | exact kinO_none
    | apply kinO_some | apply kinO_use (by assumption) | intro _

theorem execRegWrite_kin {p : CmdPkt} {s : State}  : KinS s (execRegWrite p s) := by
  unfold execRegWrite
  try dsimp only
  with_reducible repeat'
    first
    | assumption | exact kinS_fault | exact Kin.refl _ | apply onCmd_kin | apply regWriteCmd_kin | intro _

theorem execTrapCtl_kin {p : CmdPkt} {s : State}  : KinS s (execTrapCtl p s) := by
  unfold execTrapCtl
  try dsimp only
  with_reducible repeat'
    first
    | assumption | exact kinS_fault | exact Kin.refl _ | apply onCmd_kin | apply regWriteCmd_kin | intro _

theorem execCaptureClear_kin {p : CmdPkt} {s : State}  : KinS s (execCaptureClear p s) := by
  unfold execCaptureClear
  try dsimp only
  with_reducible repeat'
    first
    | assumption | exact kinS_fault | exact Kin.refl _ | apply onCmd_kin | apply regWriteCmd_kin | intro _

theorem telemSetCmd_kin {a0 : Dev} {y0 : Dev} {y1 : Cmd} (hK : Kin a0 y0) : Kin a0 (telemSetCmd y0 y1).1 := by
  unfold telemSetCmd
  try dsimp only
  with_reducible repeat'
    first
    | assumption | apply checks_kin | apply done_kin | apply updMgmt_kin | split | intro _
    | (apply kin_other; first | assumption | apply checks_kin | apply done_kin | apply updMgmt_kin)
    | (apply kin_other; apply kin_other; first | assumption | apply checks_kin | apply done_kin | apply updMgmt_kin)
    | (apply kin_mk <;> first | assumption | apply checks_kin | apply done_kin | apply updMgmt_kin | (intro w; first | exact w | exact wf_set _ _ w | exact wf_upd _ _ w | exact wf_del _ w | exact wf_keep _ w | exact wf_mapV _ w | exact wf_filter _ w | (simp; done) | (simpa using w) | (rw [length_listSet]; exact w)))

theorem execTelemSet_kin {p : CmdPkt} {s : State}  : KinS s (execTelemSet p s) := by
  unfold execTelemSet
  try dsimp only
  with_reducible repeat'
    first
    | assumption | exact kinS_fault | exact Kin.refl _ | apply onCmd_kin | apply telemSetCmd_kin | intro _

end Sys2Proof.Machine
end

