-- ==== Sys2Proof/Laws/KinFabricRows.lean ====
section
/-!
SUPPORT. Sys2Proof/Laws/KinFabricRows.lean: every operation of FabricRows.lean keeps time, identity and the form of the tables.
-/
namespace Sys2Proof.Machine
open SMap

theorem transit_kin {a0 : Dev} {d0 : Dev} {k : PktRx} (hK : Kin a0 d0) : Kin a0 (transit d0 k) := by
  unfold transit
  try dsimp only
  with_reducible repeat' first | assumption | apply bump_kin | apply takeArrived_kin | apply passOn_kin | split | intro _

theorem execTransitPacket_kin {k : PktRx} {s : State}  : KinS s (execTransitPacket k s) := by
  unfold execTransitPacket
  try dsimp only
  with_reducible repeat'
    first
    | assumption | exact kinS_fault | exact Kin.refl _ | apply onUnit_kin | apply transit_kin | intro _

theorem retryHold_kin {a0 : Dev} {d : Dev} {h : RouteHold} (hK : Kin a0 d) : Kin a0 (retryHold d h) := by
  unfold retryHold
  try dsimp only
  with_reducible repeat'
    first
    | assumption | apply routeNow_kin | apply bump_kin | split | apply kin_fst (by assumption) | apply kin_snd (by assumption)
    | exact kinO_none | apply kinO_some | apply kinO_use (by assumption) | intro _

theorem execRouteHoldExpiry_kin {s : State}  : KinS s (execRouteHoldExpiry s) := by
  unfold execRouteHoldExpiry
  try dsimp only
  with_reducible repeat'
    first
    | assumption | exact kinS_fault | exact Kin.refl _ | apply onDev_kin | apply forEach_kin | apply retryHold_kin | intro _
    | (apply kin_other; first | assumption | exact kinS_fault | exact Kin.refl _ | apply onDev_kin | apply forEach_kin | apply retryHold_kin)
    | (apply kin_other; apply kin_other; first | assumption | exact kinS_fault | exact Kin.refl _ | apply onDev_kin | apply forEach_kin | apply retryHold_kin)
    | (apply kin_mk <;> first | assumption | exact kinS_fault | exact Kin.refl _ | apply onDev_kin | apply forEach_kin | apply retryHold_kin | (intro w; first | exact w | exact wf_set _ _ w | exact wf_upd _ _ w | exact wf_del _ w | exact wf_keep _ w | exact wf_mapV _ w | exact wf_filter _ w | (simp; done) | (simpa using w) | (rw [length_listSet]; exact w)))

theorem ringIn_kin {a0 : Dev} {d : Dev} {k : PktRx} (hK : Kin a0 d) : Kin a0 (ringIn d k) := by
  unfold ringIn
  try dsimp only
  with_reducible repeat'
    first
    | assumption | apply bump_kin | apply enqueue_kin | split | apply kin_fst (by assumption) | apply kin_snd (by assumption)
    | intro _ | (apply kin_other; first | assumption | apply bump_kin | apply enqueue_kin)
    | (apply kin_other; apply kin_other; first | assumption | apply bump_kin | apply enqueue_kin)
    | (apply kin_mk <;> first | assumption | apply bump_kin | apply enqueue_kin | (intro w; first | exact w | exact wf_set _ _ w | exact wf_upd _ _ w | exact wf_del _ w | exact wf_keep _ w | exact wf_mapV _ w | exact wf_filter _ w | (simp; done) | (simpa using w) | (rw [length_listSet]; exact w)))

theorem execRingState_kin {k : PktRx} {s : State}  : KinS s (execRingState k s) := by
  unfold execRingState
  try dsimp only
  with_reducible repeat'
    first
    | assumption | exact kinS_fault | exact Kin.refl _ | apply onArrivalKind_kin | apply ringIn_kin | intro _

theorem execRingStateTimer_kin {s : State}  : KinS s (execRingStateTimer s) := by
  unfold execRingStateTimer
  try dsimp only
  with_reducible repeat'
    first
    | assumption | exact kinS_fault | exact Kin.refl _ | apply onDev_kin | apply forEach_kin | apply sendRing_kin | split
    | intro _
    | (apply kin_other; first | assumption | exact kinS_fault | exact Kin.refl _ | apply onDev_kin | apply forEach_kin | apply sendRing_kin)
    | (apply kin_other; apply kin_other; first | assumption | exact kinS_fault | exact Kin.refl _ | apply onDev_kin | apply forEach_kin | apply sendRing_kin)
    | (apply kin_mk <;> first | assumption | exact kinS_fault | exact Kin.refl _ | apply onDev_kin | apply forEach_kin | apply sendRing_kin | (intro w; first | exact w | exact wf_set _ _ w | exact wf_upd _ _ w | exact wf_del _ w | exact wf_keep _ w | exact wf_mapV _ w | exact wf_filter _ w | (simp; done) | (simpa using w) | (rw [length_listSet]; exact w)))

theorem execRingMapLapse_kin {s : State}  : KinS s (execRingMapLapse s) := by
  unfold execRingMapLapse
  try dsimp only
  with_reducible repeat'
    first
    | assumption | exact kinS_fault | exact Kin.refl _ | apply onDev_kin | intro _
    | (apply kin_other; first | assumption | exact kinS_fault | exact Kin.refl _ | apply onDev_kin)
    | (apply kin_other; apply kin_other; first | assumption | exact kinS_fault | exact Kin.refl _ | apply onDev_kin)
    | (apply kin_mk <;> first | assumption | exact kinS_fault | exact Kin.refl _ | apply onDev_kin | (intro w; first | exact w | exact wf_set _ _ w | exact wf_upd _ _ w | exact wf_del _ w | exact wf_keep _ w | exact wf_mapV _ w | exact wf_filter _ w | (simp; done) | (simpa using w) | (rw [length_listSet]; exact w)))

theorem execBypassRelease_kin {pair : Nat} {s : State}  : KinS s (execBypassRelease pair s) := by
  unfold execBypassRelease
  try dsimp only
  with_reducible repeat'
    first
    | assumption | exact kinS_fault | exact Kin.refl _ | apply onLinks_kin | apply bump_kin | apply unjoinPair_kin | split
    | intro _

theorem revertPair_kin {a0 : Dev} {d0 : Dev} {q : Nat} (hK : Kin a0 d0) : Kin a0 (revertPair d0 q) := by
  unfold revertPair
  try dsimp only
  with_reducible repeat'
    first
    | assumption | apply pairDone_kin | apply bump_kin | apply joinPair_kin | apply raiseTrap_kin | apply kinO_getD | split
    | intro _
    | (apply kin_other; first | assumption | apply pairDone_kin | apply bump_kin | apply joinPair_kin | apply raiseTrap_kin | apply kinO_getD)
    | (apply kin_other; apply kin_other; first | assumption | apply pairDone_kin | apply bump_kin | apply joinPair_kin | apply raiseTrap_kin | apply kinO_getD)
    | (apply kin_mk <;> first | assumption | apply pairDone_kin | apply bump_kin | apply joinPair_kin | apply raiseTrap_kin | apply kinO_getD | (intro w; first | exact w | exact wf_set _ _ w | exact wf_upd _ _ w | exact wf_del _ w | exact wf_keep _ w | exact wf_mapV _ w | exact wf_filter _ w | (simp; done) | (simpa using w) | (rw [length_listSet]; exact w)))

theorem execBypassReleaseTimeout_kin {s : State}  : KinS s (execBypassReleaseTimeout s) := by
  unfold execBypassReleaseTimeout
  try dsimp only
  with_reducible repeat'
    first
    | assumption | exact kinS_fault | exact Kin.refl _ | apply onLinks_kin | apply forEach_kin | apply revertPair_kin
    | intro _

end Sys2Proof.Machine
end

