-- ==== Sys2Proof/Laws/KinFabricCmds.lean ====
section
/-!
SUPPORT. Sys2Proof/Laws/KinFabricCmds.lean: every operation of FabricCmds.lean keeps time, identity and the form of the tables.
-/
namespace Sys2Proof.Machine
open SMap

theorem onLinkCmd_kin {op : Nat} {p : CmdPkt} {s : State} {f : CmdFn} (g_f : ∀ e x0, Kin s.dev e → Kin s.dev (f e x0).1) : KinS s (onLinkCmd op p s f) := by
  unfold onLinkCmd
  try dsimp only
  with_reducible repeat'
    first
    | assumption | apply g_f | exact kinS_fault | exact Kin.refl _ | apply onUnit_kin | apply poolsSettle_kin
    | apply flushAll_kin | apply settleLinks_kin | apply receiveCmd_kin | intro _

theorem cablePlanCmd_kin {a0 : Dev} {y0 : Dev} {y1 : Cmd} (hK : Kin a0 y0) : Kin a0 (cablePlanCmd y0 y1).1 := by
  unfold cablePlanCmd
  try dsimp only
  with_reducible repeat'
    first
    | assumption | apply checks_kin | apply flashWrite_kin | apply done_kin | intro _
    | (apply kin_other; first | assumption | apply checks_kin | apply flashWrite_kin | apply done_kin)
    | (apply kin_other; apply kin_other; first | assumption | apply checks_kin | apply flashWrite_kin | apply done_kin)
    | (apply kin_mk <;> first | assumption | apply checks_kin | apply flashWrite_kin | apply done_kin | (intro w; first | exact w | exact wf_set _ _ w | exact wf_upd _ _ w | exact wf_del _ w | exact wf_keep _ w | exact wf_mapV _ w | exact wf_filter _ w | (simp; done) | (simpa using w) | (rw [length_listSet]; exact w)))

theorem execCablePlanLoad_kin {p : CmdPkt} {s : State}  : KinS s (execCablePlanLoad p s) := by
  unfold execCablePlanLoad
  try dsimp only
  with_reducible repeat'
    first
    | assumption | exact kinS_fault | exact Kin.refl _ | apply onCmd_kin | apply cablePlanCmd_kin | intro _

theorem cableCheckCmd_kin {a0 : Dev} {y0 : Dev} {y1 : Cmd} (hK : Kin a0 y0) : Kin a0 (cableCheckCmd y0 y1).1 := by
  unfold cableCheckCmd
  try dsimp only
  with_reducible repeat' first | assumption | apply cableCheck_kin | apply doneWith_kin | intro _

theorem execCableCheck_kin {p : CmdPkt} {s : State}  : KinS s (execCableCheck p s) := by
  unfold execCableCheck
  try dsimp only
  with_reducible repeat'
    first
    | assumption | exact kinS_fault | exact Kin.refl _ | apply onLinkCmd_kin | apply cableCheckCmd_kin | intro _

theorem cableReportCmd_kin {a0 : Dev} {y0 : Dev} {y1 : Cmd} (hK : Kin a0 y0) : Kin a0 (cableReportCmd y0 y1).1 := by
  unfold cableReportCmd
  try dsimp only
  with_reducible repeat' first | assumption | apply fail_kin | apply doneWith_kin | split | intro _

theorem execCableReport_kin {p : CmdPkt} {s : State}  : KinS s (execCableReport p s) := by
  unfold execCableReport
  try dsimp only
  with_reducible repeat'
    first
    | assumption | exact kinS_fault | exact Kin.refl _ | apply onCmd_kin | apply cableReportCmd_kin | intro _

theorem spareReadCmd_kin {a0 : Dev} {y0 : Dev} {y1 : Cmd} (hK : Kin a0 y0) : Kin a0 (spareReadCmd y0 y1).1 := by
  unfold spareReadCmd
  try dsimp only
  with_reducible repeat' first | assumption | apply fail_kin | apply doneWith_kin | split | intro _

theorem execSpareRead_kin {p : CmdPkt} {s : State}  : KinS s (execSpareRead p s) := by
  unfold execSpareRead
  try dsimp only
  with_reducible repeat'
    first
    | assumption | exact kinS_fault | exact Kin.refl _ | apply onCmd_kin | apply spareReadCmd_kin | intro _

theorem spareRetireCmd_kin {a0 : Dev} {y0 : Dev} {y1 : Cmd} (hK : Kin a0 y0) : Kin a0 (spareRetireCmd y0 y1).1 := by
  unfold spareRetireCmd
  try dsimp only
  with_reducible repeat'
    first
    | assumption | apply checks_kin | apply done_kin | apply failPosition_kin | apply retireSeam_kin | apply waitOn_kin
    | apply retireChannel_kin | apply retireLane_kin | apply kinO_getD | split | apply kin_fst (by assumption)
    | apply kin_snd (by assumption) | intro _

theorem execSpareRetire_kin {p : CmdPkt} {s : State}  : KinS s (execSpareRetire p s) := by
  unfold execSpareRetire
  try dsimp only
  with_reducible repeat'
    first
    | assumption | exact kinS_fault | exact Kin.refl _ | apply onLinkCmd_kin | apply spareRetireCmd_kin | intro _

theorem bypassSetCmd_kin {a0 : Dev} {y0 : Dev} {y1 : Cmd} (hK : Kin a0 y0) : Kin a0 (bypassSetCmd y0 y1).1 := by
  unfold bypassSetCmd
  try dsimp only
  with_reducible repeat'
    first
    | assumption | apply checks_kin | apply done_kin | apply forEach_kin | apply joinPair_kin | apply updPair_kin | split
    | intro _
    | (apply kin_other; first | assumption | apply checks_kin | apply done_kin | apply forEach_kin | apply joinPair_kin | apply updPair_kin)
    | (apply kin_other; apply kin_other; first | assumption | apply checks_kin | apply done_kin | apply forEach_kin | apply joinPair_kin | apply updPair_kin)
    | (apply kin_mk <;> first | assumption | apply checks_kin | apply done_kin | apply forEach_kin | apply joinPair_kin | apply updPair_kin | (intro w; first | exact w | exact wf_set _ _ w | exact wf_upd _ _ w | exact wf_del _ w | exact wf_keep _ w | exact wf_mapV _ w | exact wf_filter _ w | (simp; done) | (simpa using w) | (rw [length_listSet]; exact w)))

theorem execBypassSet_kin {p : CmdPkt} {s : State}  : KinS s (execBypassSet p s) := by
  unfold execBypassSet
  try dsimp only
  with_reducible repeat'
    first
    | assumption | exact kinS_fault | exact Kin.refl _ | apply onLinkCmd_kin | apply bypassSetCmd_kin | intro _

end Sys2Proof.Machine
end

