-- ==== Sys2Proof/Laws/KinJobCmds.lean ====
section
/-!
SUPPORT. Sys2Proof/Laws/KinJobCmds.lean: every operation of JobCmds.lean keeps time, identity and the form of the tables.
-/
namespace Sys2Proof.Machine
open SMap

theorem clearJobCtrs_kin {a0 : Dev} {d : Dev} {j : Nat} (hK : Kin a0 d) : Kin a0 (clearJobCtrs d j) := by
  unfold clearJobCtrs
  try dsimp only
  with_reducible repeat' first | assumption | apply clearCtrs_kin | apply forEach_kin | intro _

theorem createJob_kin {a0 : Dev} {d : Dev} {j : Nat} {jb : Job} {n : Nat} (hK : Kin a0 d) : Kin a0 (createJob d j jb n) := by
  unfold createJob
  try dsimp only
  with_reducible repeat'
    first
    | assumption | apply setJob_kin | apply clearJobCtrs_kin | apply raiseTrap_kin | apply kinO_getD | split | intro _
    | (apply kin_other; first | assumption | apply setJob_kin | apply clearJobCtrs_kin | apply raiseTrap_kin | apply kinO_getD)
    | (apply kin_other; apply kin_other; first | assumption | apply setJob_kin | apply clearJobCtrs_kin | apply raiseTrap_kin | apply kinO_getD)
    | (apply kin_mk <;> first | assumption | apply setJob_kin | apply clearJobCtrs_kin | apply raiseTrap_kin | apply kinO_getD | (intro w; first | exact w | exact wf_set _ _ w | exact wf_upd _ _ w | exact wf_del _ w | exact wf_keep _ w | exact wf_mapV _ w | exact wf_filter _ w | (simp; done) | (simpa using w) | (rw [length_listSet]; exact w)))

theorem jobCreateCmd_kin {a0 : Dev} {y0 : Dev} {y1 : Cmd} (hK : Kin a0 y0) : Kin a0 (jobCreateCmd y0 y1).1 := by
  unfold jobCreateCmd
  try dsimp only
  with_reducible repeat'
    first
    | assumption | apply checks_kin | apply done_kin | apply createJob_kin | apply kinO_getD | intro _

theorem execJobCreate_kin {p : CmdPkt} {s : State}  : KinS s (execJobCreate p s) := by
  unfold execJobCreate
  try dsimp only
  with_reducible repeat'
    first
    | assumption | exact kinS_fault | exact Kin.refl _ | apply onCmd_kin | apply jobCreateCmd_kin | intro _

theorem freeCtxs_kin {a0 : Dev} {d : Dev} {j : Nat} (hK : Kin a0 d) : Kin a0 (freeCtxs d j) := by
  unfold freeCtxs
  try dsimp only
  with_reducible repeat' first | assumption | apply forEach_kin | apply updCtx_kin | apply freeEntries_kin | split | intro _

theorem freeParity_kin {a0 : Dev} {d : Dev} {key : W64} {j : Nat} (hK : Kin a0 d) : Kin a0 (freeParity d key j) := by
  unfold freeParity
  try dsimp only
  with_reducible repeat'
    first
    | assumption | apply updPar_kin | intro _ | (apply kin_other; first | assumption | apply updPar_kin)
    | (apply kin_other; apply kin_other; first | assumption | apply updPar_kin)
    | (apply kin_mk <;> first | assumption | apply updPar_kin | (intro w; first | exact w | exact wf_set _ _ w | exact wf_upd _ _ w | exact wf_del _ w | exact wf_keep _ w | exact wf_mapV _ w | exact wf_filter _ w | (simp; done) | (simpa using w) | (rw [length_listSet]; exact w)))

theorem detach_kin {a0 : Dev} {d : Dev} {j m : Nat} (hK : Kin a0 d) : Kin a0 (detach d j m) := by
  unfold detach
  try dsimp only
  with_reducible repeat'
    first
    | assumption | apply forEach_kin | apply dropFor_kin | apply stallTick_kin | apply updPort_kin | apply updJob_kin
    | apply removeSessions_kin | intro _
    | (apply kin_other; first | assumption | apply forEach_kin | apply dropFor_kin | apply stallTick_kin | apply updPort_kin | apply updJob_kin | apply removeSessions_kin)
    | (apply kin_other; apply kin_other; first | assumption | apply forEach_kin | apply dropFor_kin | apply stallTick_kin | apply updPort_kin | apply updJob_kin | apply removeSessions_kin)
    | (apply kin_mk <;> first | assumption | apply forEach_kin | apply dropFor_kin | apply stallTick_kin | apply updPort_kin | apply updJob_kin | apply removeSessions_kin | (intro w; first | exact w | exact wf_set _ _ w | exact wf_upd _ _ w | exact wf_del _ w | exact wf_keep _ w | exact wf_mapV _ w | exact wf_filter _ w | (simp; done) | (simpa using w) | (rw [length_listSet]; exact w)))

theorem endJobCmds_kin {a0 : Dev} {d : Dev} {j : Nat} (hK : Kin a0 d) : Kin a0 (endJobCmds d j) := by
  unfold endJobCmds
  try dsimp only
  with_reducible repeat' first | assumption | apply finishCmds_kin | intro _

theorem freeHoldings_kin {a0 : Dev} {d : Dev} {j : Nat} (hK : Kin a0 d) : Kin a0 (freeHoldings d j) := by
  unfold freeHoldings
  try dsimp only
  with_reducible repeat'
    first
    | assumption | split | intro _ | (apply kin_other; first | assumption)
    | (apply kin_other; apply kin_other; first | assumption)
    | (apply kin_mk <;> first | assumption | (intro w; first | exact w | exact wf_set _ _ w | exact wf_upd _ _ w | exact wf_del _ w | exact wf_keep _ w | exact wf_mapV _ w | exact wf_filter _ w | (simp; done) | (simpa using w) | (rw [length_listSet]; exact w)))

theorem destroyJob_kin {a0 : Dev} {d : Dev} {j : Nat} {jb : Job} (hK : Kin a0 d) : Kin a0 (destroyJob d j jb) := by
  unfold destroyJob
  try dsimp only
  with_reducible repeat'
    first
    | assumption | apply endJobCmds_kin | apply freeCtxs_kin | apply forEach_kin | apply detach_kin | apply freeParity_kin
    | apply dropStaged_kin | apply removeSessions_kin | apply poolsSettle_kin | apply admitAll_kin | apply freeHoldings_kin
    | split | apply kin_fst (by assumption) | apply kin_snd (by assumption) | intro _
    | (apply kin_other; first | assumption | apply endJobCmds_kin | apply freeCtxs_kin | apply forEach_kin | apply detach_kin | apply freeParity_kin | apply dropStaged_kin | apply removeSessions_kin | apply poolsSettle_kin | apply admitAll_kin | apply freeHoldings_kin)
    | (apply kin_other; apply kin_other; first | assumption | apply endJobCmds_kin | apply freeCtxs_kin | apply forEach_kin | apply detach_kin | apply freeParity_kin | apply dropStaged_kin | apply removeSessions_kin | apply poolsSettle_kin | apply admitAll_kin | apply freeHoldings_kin)
    | (apply kin_mk <;> first | assumption | apply endJobCmds_kin | apply freeCtxs_kin | apply forEach_kin | apply detach_kin | apply freeParity_kin | apply dropStaged_kin | apply removeSessions_kin | apply poolsSettle_kin | apply admitAll_kin | apply freeHoldings_kin | (intro w; first | exact w | exact wf_set _ _ w | exact wf_upd _ _ w | exact wf_del _ w | exact wf_keep _ w | exact wf_mapV _ w | exact wf_filter _ w | (simp; done) | (simpa using w) | (rw [length_listSet]; exact w)))

theorem jobDestroyCmd_kin {a0 : Dev} {y0 : Dev} {y1 : Cmd} (hK : Kin a0 y0) : Kin a0 (jobDestroyCmd y0 y1).1 := by
  unfold jobDestroyCmd
  try dsimp only
  with_reducible repeat'
    first
    | assumption | apply fail_kin | apply checks_kin | apply done_kin | apply destroyJob_kin | split
    | apply kin_fst (by assumption) | apply kin_snd (by assumption) | intro _

theorem execJobDestroy_kin {p : CmdPkt} {s : State}  : KinS s (execJobDestroy p s) := by
  unfold execJobDestroy
  try dsimp only
  with_reducible repeat'
    first
    | assumption | exact kinS_fault | exact Kin.refl _ | apply onCmd_kin | apply jobDestroyCmd_kin | intro _

theorem setQuotas_kin {a0 : Dev} {d : Dev} {j : Nat} {q : Quotas} (hK : Kin a0 d) : Kin a0 (setQuotas d j q) := by
  unfold setQuotas
  split
  · exact hK
  · exact kin_mk (setJob_kin hK) id id id id id id id (wf_mapV _) id id


theorem jobQuotaCmd_kin {a0 : Dev} {y0 : Dev} {y1 : Cmd} (hK : Kin a0 y0) : Kin a0 (jobQuotaCmd y0 y1).1 := by
  unfold jobQuotaCmd
  try dsimp only
  with_reducible repeat' first | assumption | apply checks_kin | apply done_kin | apply setQuotas_kin | intro _

theorem execJobQuota_kin {p : CmdPkt} {s : State}  : KinS s (execJobQuota p s) := by
  unfold execJobQuota
  try dsimp only
  with_reducible repeat'
    first
    | assumption | exact kinS_fault | exact Kin.refl _ | apply onCmd_kin | apply jobQuotaCmd_kin | intro _

theorem jobConfigCmd_kin {a0 : Dev} {y0 : Dev} {y1 : Cmd} (hK : Kin a0 y0) : Kin a0 (jobConfigCmd y0 y1).1 := by
  unfold jobConfigCmd
  try dsimp only
  with_reducible repeat'
    first
    | assumption | apply checks_kin | apply done_kin | apply updJob_kin | split | intro _
    | (apply kin_other; first | assumption | apply checks_kin | apply done_kin | apply updJob_kin)
    | (apply kin_other; apply kin_other; first | assumption | apply checks_kin | apply done_kin | apply updJob_kin)
    | (apply kin_mk <;> first | assumption | apply checks_kin | apply done_kin | apply updJob_kin | (intro w; first | exact w | exact wf_set _ _ w | exact wf_upd _ _ w | exact wf_del _ w | exact wf_keep _ w | exact wf_mapV _ w | exact wf_filter _ w | (simp; done) | (simpa using w) | (rw [length_listSet]; exact w)))

theorem execJobConfig_kin {p : CmdPkt} {s : State}  : KinS s (execJobConfig p s) := by
  unfold execJobConfig
  try dsimp only
  with_reducible repeat'
    first
    | assumption | exact kinS_fault | exact Kin.refl _ | apply onCmd_kin | apply jobConfigCmd_kin | intro _

theorem jobReadCmd_kin {a0 : Dev} {y0 : Dev} {y1 : Cmd} (hK : Kin a0 y0) : Kin a0 (jobReadCmd y0 y1).1 := by
  unfold jobReadCmd
  try dsimp only
  with_reducible repeat'
    first
    | assumption | apply fail_kin | apply doneWith_kin | split | apply kin_fst (by assumption) | apply kin_snd (by assumption)
    | intro _

theorem execJobRead_kin {p : CmdPkt} {s : State}  : KinS s (execJobRead p s) := by
  unfold execJobRead
  try dsimp only
  with_reducible repeat'
    first
    | assumption | exact kinS_fault | exact Kin.refl _ | apply onCmd_kin | apply jobReadCmd_kin | intro _

theorem noEarlierEnds_kin {a0 : Dev} {d : Dev} {j m : Nat} (hK : Kin a0 d) : Kin a0 (noEarlierEnds d j m) := by
  unfold noEarlierEnds
  try dsimp only
  with_reducible repeat'
    first
    | assumption | apply done_kin | split | intro _ | (apply kin_other; first | assumption | apply done_kin)
    | (apply kin_other; apply kin_other; first | assumption | apply done_kin)
    | (apply kin_mk <;> first | assumption | apply done_kin | (intro w; first | exact w | exact wf_set _ _ w | exact wf_upd _ _ w | exact wf_del _ w | exact wf_keep _ w | exact wf_mapV _ w | exact wf_filter _ w | (simp; done) | (simpa using w) | (rw [length_listSet]; exact w)))

theorem memberAttachCmd_kin {a0 : Dev} {y0 : Dev} {y1 : Cmd} (hK : Kin a0 y0) : Kin a0 (memberAttachCmd y0 y1).1 := by
  unfold memberAttachCmd
  try dsimp only
  with_reducible repeat'
    first
    | assumption | apply checks_kin | apply clearCtrs_kin | apply updJob_kin | apply done_kin | apply noEarlierEnds_kin
    | split | apply kin_fst (by assumption) | apply kin_snd (by assumption) | intro _
    | (apply kin_other; first | assumption | apply checks_kin | apply clearCtrs_kin | apply updJob_kin | apply done_kin | apply noEarlierEnds_kin)
    | (apply kin_other; apply kin_other; first | assumption | apply checks_kin | apply clearCtrs_kin | apply updJob_kin | apply done_kin | apply noEarlierEnds_kin)
    | (apply kin_mk <;> first | assumption | apply checks_kin | apply clearCtrs_kin | apply updJob_kin | apply done_kin | apply noEarlierEnds_kin | (intro w; first | exact w | exact wf_set _ _ w | exact wf_upd _ _ w | exact wf_del _ w | exact wf_keep _ w | exact wf_mapV _ w | exact wf_filter _ w | (simp; done) | (simpa using w) | (rw [length_listSet]; exact w)))

theorem execMemberAttach_kin {p : CmdPkt} {s : State}  : KinS s (execMemberAttach p s) := by
  unfold execMemberAttach
  try dsimp only
  with_reducible repeat'
    first
    | assumption | exact kinS_fault | exact Kin.refl _ | apply onCmd_kin | apply memberAttachCmd_kin | intro _

theorem memberDetachCmd_kin {a0 : Dev} {y0 : Dev} {y1 : Cmd} (hK : Kin a0 y0) : Kin a0 (memberDetachCmd y0 y1).1 := by
  unfold memberDetachCmd
  try dsimp only
  with_reducible repeat'
    first
    | assumption | apply checks_kin | apply done_kin | apply detach_kin | split | apply kin_fst (by assumption)
    | apply kin_snd (by assumption) | intro _

theorem execMemberDetach_kin {p : CmdPkt} {s : State}  : KinS s (execMemberDetach p s) := by
  unfold execMemberDetach
  try dsimp only
  with_reducible repeat'
    first
    | assumption | exact kinS_fault | exact Kin.refl _ | apply onCmd_kin | apply memberDetachCmd_kin | intro _

end Sys2Proof.Machine
end

