-- ==== Sys2Proof/Laws/KinRecords.lean ====
section
/-!
SUPPORT. Sys2Proof/Laws/KinRecords.lean: every operation of Records.lean keeps time, identity and the form of the tables.
-/
namespace Sys2Proof.Machine
open SMap

theorem recFetch_kin {a0 : Dev} {d : Dev} {j : Nat} {jb : Job} {off n : Nat} (hK : Kin a0 d) : Kin a0 (recFetch d j jb off n).2 := by
  unfold recFetch
  try dsimp only
  with_reducible repeat'
    first
    | assumption | apply readRec_kin | apply drawMany_kin | apply memUeTrap_kin | split | apply kin_fst (by assumption)
    | apply kin_snd (by assumption) | intro _

theorem recReadIn_kin {a0 : Dev} {d : Dev} {k : PktRx} (hK : Kin a0 d) : Kin a0 (recReadIn d k) := by
  unfold recReadIn
  try dsimp only
  with_reducible repeat'
    first
    | assumption | apply recFetch_kin | apply enqueue_kin | split | apply kin_fst (by assumption)
    | apply kin_snd (by assumption) | intro _ | (apply kin_other; first | assumption | apply recFetch_kin | apply enqueue_kin)
    | (apply kin_other; apply kin_other; first | assumption | apply recFetch_kin | apply enqueue_kin)
    | (apply kin_mk <;> first | assumption | apply recFetch_kin | apply enqueue_kin | (intro w; first | exact w | exact wf_set _ _ w | exact wf_upd _ _ w | exact wf_del _ w | exact wf_keep _ w | exact wf_mapV _ w | exact wf_filter _ w | (simp; done) | (simpa using w) | (rw [length_listSet]; exact w)))

theorem execRecRead_kin {k : PktRx} {s : State}  : KinS s (execRecRead k s) := by
  unfold execRecRead
  try dsimp only
  with_reducible repeat'
    first
    | assumption | exact kinS_fault | exact Kin.refl _ | apply onArrival_kin | apply recReadIn_kin | intro _

theorem replayDataIn_kin {a0 : Dev} {d : Dev} {k : PktRx} (hK : Kin a0 d) : Kin a0 (replayDataIn d k) := by
  unfold replayDataIn
  try dsimp only
  with_reducible repeat'
    first
    | assumption | apply updReplay_kin | apply askReplay_kin | apply replayPump_kin | split | apply kin_fst (by assumption)
    | apply kin_snd (by assumption) | intro _
    | (apply kin_other; first | assumption | apply updReplay_kin | apply askReplay_kin | apply replayPump_kin)
    | (apply kin_other; apply kin_other; first | assumption | apply updReplay_kin | apply askReplay_kin | apply replayPump_kin)
    | (apply kin_mk <;> first | assumption | apply updReplay_kin | apply askReplay_kin | apply replayPump_kin | (intro w; first | exact w | exact wf_set _ _ w | exact wf_upd _ _ w | exact wf_del _ w | exact wf_keep _ w | exact wf_mapV _ w | exact wf_filter _ w | (simp; done) | (simpa using w) | (rw [length_listSet]; exact w)))

theorem execReplayData_kin {k : ReplayRx} {s : State}  : KinS s (execReplayData k s) := by
  unfold execReplayData
  try dsimp only
  with_reducible repeat'
    first
    | assumption | exact kinS_fault | exact Kin.refl _ | apply onArrival_kin | apply replayDataIn_kin | apply seamFault_kin
    | split | apply kin_fst (by assumption) | apply kin_snd (by assumption) | intro _

theorem resendReplay_kin {a0 : Dev} {d : Dev} {j : Nat} (hK : Kin a0 d) : Kin a0 (resendReplay d j) := by
  unfold resendReplay
  try dsimp only
  with_reducible repeat'
    first
    | assumption | apply forEach_kin | apply updReplay_kin | apply sendReplayReq_kin | split | apply kin_fst (by assumption)
    | apply kin_snd (by assumption) | intro _
    | (apply kin_other; first | assumption | apply forEach_kin | apply updReplay_kin | apply sendReplayReq_kin)
    | (apply kin_other; apply kin_other; first | assumption | apply forEach_kin | apply updReplay_kin | apply sendReplayReq_kin)
    | (apply kin_mk <;> first | assumption | apply forEach_kin | apply updReplay_kin | apply sendReplayReq_kin | (intro w; first | exact w | exact wf_set _ _ w | exact wf_upd _ _ w | exact wf_del _ w | exact wf_keep _ w | exact wf_mapV _ w | exact wf_filter _ w | (simp; done) | (simpa using w) | (rw [length_listSet]; exact w)))

theorem execReplayReqResend_kin {s : State}  : KinS s (execReplayReqResend s) := by
  unfold execReplayReqResend
  try dsimp only
  with_reducible repeat'
    first
    | assumption | exact kinS_fault | exact Kin.refl _ | apply onDev_kin | apply forEach_kin | apply resendReplay_kin
    | intro _

theorem replayPortEnd_kin {a0 : Dev} {d : Dev} {j : Nat} (hK : Kin a0 d) : Kin a0 (replayPortEnd d j) := by
  unfold replayPortEnd
  try dsimp only
  with_reducible repeat'
    first
    | assumption | apply updReplay_kin | split | apply kin_fst (by assumption) | apply kin_snd (by assumption) | intro _
    | (apply kin_other; first | assumption | apply updReplay_kin)
    | (apply kin_other; apply kin_other; first | assumption | apply updReplay_kin)
    | (apply kin_mk <;> first | assumption | apply updReplay_kin | (intro w; first | exact w | exact wf_set _ _ w | exact wf_upd _ _ w | exact wf_del _ w | exact wf_keep _ w | exact wf_mapV _ w | exact wf_filter _ w | (simp; done) | (simpa using w) | (rw [length_listSet]; exact w)))

theorem execReplayPortTimeout_kin {s : State}  : KinS s (execReplayPortTimeout s) := by
  unfold execReplayPortTimeout
  try dsimp only
  with_reducible repeat'
    first
    | assumption | exact kinS_fault | exact Kin.refl _ | apply onDev_kin | apply forEach_kin | apply replayPortEnd_kin
    | intro _

theorem recMirrorLapse_kin {a0 : Dev} {d : Dev} {j : Nat} (hK : Kin a0 d) : Kin a0 (recMirrorLapse d j) := by
  unfold recMirrorLapse
  try dsimp only
  with_reducible repeat'
    first
    | assumption | apply recUnhold_kin | apply bumpBy_kin | split | apply kin_fst (by assumption)
    | apply kin_snd (by assumption) | intro _ | (apply kin_other; first | assumption | apply recUnhold_kin | apply bumpBy_kin)
    | (apply kin_other; apply kin_other; first | assumption | apply recUnhold_kin | apply bumpBy_kin)
    | (apply kin_mk <;> first | assumption | apply recUnhold_kin | apply bumpBy_kin | (intro w; first | exact w | exact wf_set _ _ w | exact wf_upd _ _ w | exact wf_del _ w | exact wf_keep _ w | exact wf_mapV _ w | exact wf_filter _ w | (simp; done) | (simpa using w) | (rw [length_listSet]; exact w)))

theorem execRecMirrorTimeout_kin {job : Nat} {s : State}  : KinS s (execRecMirrorTimeout job s) := by
  unfold execRecMirrorTimeout
  try dsimp only
  with_reducible repeat'
    first
    | assumption | exact kinS_fault | exact Kin.refl _ | apply onUnit_kin | apply recMirrorLapse_kin | apply forEach_kin
    | apply onEnded_kin | split | apply kin_fst (by assumption) | apply kin_snd (by assumption) | intro _

end Sys2Proof.Machine
end

