-- ==== Sys2Proof/Laws/KinLinks.lean ====
section
/-!
SUPPORT. Sys2Proof/Laws/KinLinks.lean: every operation of Links.lean keeps time, identity and the form of the tables.
-/
namespace Sys2Proof.Machine
open SMap

theorem execDownRetry_kin {port : Nat} {s : State}  : KinS s (execDownRetry port s) := by
  unfold execDownRetry
  try dsimp only
  with_reducible repeat'
    first
    | assumption | exact kinS_fault | exact Kin.refl _ | apply onUnit_kin | apply enterTrain_kin | split | intro _

theorem eqWriteBack_kin {a0 : Dev} {d : Dev} {port : Nat} {ws : List W64} (hK : Kin a0 d) : Kin a0 (eqWriteBack d port ws) := by
  unfold eqWriteBack
  try dsimp only
  with_reducible repeat'
    first
    | assumption | apply updPort_kin | apply flashWrite_kin | apply kinO_getD | split | apply kin_fst (by assumption)
    | apply kin_snd (by assumption) | intro _
    | (apply kin_other; first | assumption | apply updPort_kin | apply flashWrite_kin | apply kinO_getD)
    | (apply kin_other; apply kin_other; first | assumption | apply updPort_kin | apply flashWrite_kin | apply kinO_getD)
    | (apply kin_mk <;> first | assumption | apply updPort_kin | apply flashWrite_kin | apply kinO_getD | (intro w; first | exact w | exact wf_set _ _ w | exact wf_upd _ _ w | exact wf_del _ w | exact wf_keep _ w | exact wf_mapV _ w | exact wf_filter _ w | (simp; done) | (simpa using w) | (rw [length_listSet]; exact w)))

theorem execTrainLock_kin {port : Nat} {stored : Bool} {settings : List W64} {s : State}  : KinS s (execTrainLock port stored settings s) := by
  unfold execTrainLock
  try dsimp only
  with_reducible repeat'
    first
    | assumption | exact kinS_fault | exact Kin.refl _ | apply onUnit_kin | apply eqWriteBack_kin | apply updPort_kin
    | apply kinO_getD | split | intro _
    | (apply kin_other; first | assumption | exact kinS_fault | exact Kin.refl _ | apply onUnit_kin | apply eqWriteBack_kin | apply updPort_kin | apply kinO_getD)
    | (apply kin_other; apply kin_other; first | assumption | exact kinS_fault | exact Kin.refl _ | apply onUnit_kin | apply eqWriteBack_kin | apply updPort_kin | apply kinO_getD)
    | (apply kin_mk <;> first | assumption | exact kinS_fault | exact Kin.refl _ | apply onUnit_kin | apply eqWriteBack_kin | apply updPort_kin | apply kinO_getD | (intro w; first | exact w | exact wf_set _ _ w | exact wf_upd _ _ w | exact wf_del _ w | exact wf_keep _ w | exact wf_mapV _ w | exact wf_filter _ w | (simp; done) | (simpa using w) | (rw [length_listSet]; exact w)))

theorem execTrainTimeout_kin {port : Nat} {fecLock : Bool} {s : State}  : KinS s (execTrainTimeout port fecLock s) := by
  unfold execTrainTimeout
  try dsimp only
  with_reducible repeat'
    first
    | assumption | exact kinS_fault | exact Kin.refl _ | apply onUnit_kin | apply trainFail_kin | split | intro _

theorem execInitComplete_kin {port : Nat} {s : State}  : KinS s (execInitComplete port s) := by
  unfold execInitComplete
  try dsimp only
  with_reducible repeat'
    first
    | assumption | exact kinS_fault | exact Kin.refl _ | apply onLinks_kin | apply enterUp_kin | apply updPort_kin | split
    | intro _
    | (apply kin_other; first | assumption | exact kinS_fault | exact Kin.refl _ | apply onLinks_kin | apply enterUp_kin | apply updPort_kin)
    | (apply kin_other; apply kin_other; first | assumption | exact kinS_fault | exact Kin.refl _ | apply onLinks_kin | apply enterUp_kin | apply updPort_kin)
    | (apply kin_mk <;> first | assumption | exact kinS_fault | exact Kin.refl _ | apply onLinks_kin | apply enterUp_kin | apply updPort_kin | (intro w; first | exact w | exact wf_set _ _ w | exact wf_upd _ _ w | exact wf_del _ w | exact wf_keep _ w | exact wf_mapV _ w | exact wf_filter _ w | (simp; done) | (simpa using w) | (rw [length_listSet]; exact w)))

theorem execInitTimeout_kin {port : Nat} {s : State}  : KinS s (execInitTimeout port s) := by
  unfold execInitTimeout
  try dsimp only
  with_reducible repeat'
    first
    | assumption | exact kinS_fault | exact Kin.refl _ | apply onLinks_kin | apply trainFail_kin | split | intro _

theorem execLossOfLock_kin {port lanes : Nat} {s : State}  : KinS s (execLossOfLock port lanes s) := by
  unfold execLossOfLock
  try dsimp only
  with_reducible repeat'
    first
    | assumption | exact kinS_fault | exact Kin.refl _ | apply onLinks_kin | apply enterRetrain_kin | intro _

theorem execRetrainLock_kin {port : Nat} {s : State}  : KinS s (execRetrainLock port s) := by
  unfold execRetrainLock
  try dsimp only
  with_reducible repeat'
    first
    | assumption | exact kinS_fault | exact Kin.refl _ | apply onLinks_kin | apply enterUp_kin | split | intro _

theorem execRetrainTimeout_kin {port : Nat} {s : State}  : KinS s (execRetrainTimeout port s) := by
  unfold execRetrainTimeout
  try dsimp only
  with_reducible repeat'
    first
    | assumption | exact kinS_fault | exact Kin.refl _ | apply onLinks_kin | apply portDown_kin | split | intro _

theorem flitArrives_kin {a0 : Dev} {d : Dev} {p : Nat} {f : FlitRx} (hK : Kin a0 d) : Kin a0 (flitArrives d p f).1 := by
  unfold flitArrives
  try dsimp only
  with_reducible repeat'
    first
    | assumption | apply bumpBy_kin | apply updPort_kin | apply bump_kin | split | intro _
    | (apply kin_other; first | assumption | apply bumpBy_kin | apply updPort_kin | apply bump_kin)
    | (apply kin_other; apply kin_other; first | assumption | apply bumpBy_kin | apply updPort_kin | apply bump_kin)
    | (apply kin_mk <;> first | assumption | apply bumpBy_kin | apply updPort_kin | apply bump_kin | (intro w; first | exact w | exact wf_set _ _ w | exact wf_upd _ _ w | exact wf_del _ w | exact wf_keep _ w | exact wf_mapV _ w | exact wf_filter _ w | (simp; done) | (simpa using w) | (rw [length_listSet]; exact w)))

theorem takeHeader_kin {a0 : Dev} {d : Dev} {p : Nat} {h : W64} (hK : Kin a0 d) : Kin a0 (takeHeader d p h) := by
  unfold takeHeader
  try dsimp only
  with_reducible repeat' first | assumption | apply takePortAck_kin | apply stallTick_kin | apply updPort_kin | intro _

theorem onFlit_kin {port ftype kind : Nat} {f : FlitRx} {s : State} {g : Dev → Dev} (g_g : ∀ e, Kin s.dev e → Kin s.dev (g e)) : KinS s (onFlit port ftype kind f s g) := by
  unfold onFlit
  try dsimp only
  with_reducible repeat'
    first
    | assumption | apply g_g | exact kinS_fault | exact Kin.refl _ | apply onLinks_kin | apply flitArrives_kin
    | apply takeHeader_kin | apply kinO_getD | split | apply kin_fst (by assumption) | apply kin_snd (by assumption) | intro _

theorem execIdleFlit_kin {port : Nat} {f : FlitRx} {s : State}  : KinS s (execIdleFlit port f s) := by
  unfold execIdleFlit
  try dsimp only
  with_reducible repeat' first | assumption | exact kinS_fault | exact Kin.refl _ | apply onFlit_kin | intro _

theorem beginResend_kin {a0 : Dev} {d : Dev} {p seq : Nat} (hK : Kin a0 d) : Kin a0 (beginResend d p seq) := by
  unfold beginResend
  try dsimp only
  with_reducible repeat'
    first
    | assumption | apply updPort_kin | apply bump_kin | apply enterRetrain_kin | split | apply kin_fst (by assumption)
    | apply kin_snd (by assumption) | intro _
    | (apply kin_other; first | assumption | apply updPort_kin | apply bump_kin | apply enterRetrain_kin)
    | (apply kin_other; apply kin_other; first | assumption | apply updPort_kin | apply bump_kin | apply enterRetrain_kin)
    | (apply kin_mk <;> first | assumption | apply updPort_kin | apply bump_kin | apply enterRetrain_kin | (intro w; first | exact w | exact wf_set _ _ w | exact wf_upd _ _ w | exact wf_del _ w | exact wf_keep _ w | exact wf_mapV _ w | exact wf_filter _ w | (simp; done) | (simpa using w) | (rw [length_listSet]; exact w)))

theorem execNak_kin {port : Nat} {f : FlitRx} {s : State}  : KinS s (execNak port f s) := by
  unfold execNak
  try dsimp only
  with_reducible repeat'
    first
    | assumption | exact kinS_fault | exact Kin.refl _ | apply onFlit_kin | apply beginResend_kin | intro _

theorem execCreditInit_kin {port : Nat} {f : FlitRx} {s : State}  : KinS s (execCreditInit port f s) := by
  unfold execCreditInit
  try dsimp only
  with_reducible repeat'
    first
    | assumption | exact kinS_fault | exact Kin.refl _ | apply foldl_kin | apply onFlit_kin | apply updPort_kin | split
    | intro _
    | (apply kin_other; first | assumption | exact kinS_fault | exact Kin.refl _ | apply foldl_kin | apply onFlit_kin | apply updPort_kin)
    | (apply kin_other; apply kin_other; first | assumption | exact kinS_fault | exact Kin.refl _ | apply foldl_kin | apply onFlit_kin | apply updPort_kin)
    | (apply kin_mk <;> first | assumption | exact kinS_fault | exact Kin.refl _ | apply foldl_kin | apply onFlit_kin | apply updPort_kin | (intro w; first | exact w | exact wf_set _ _ w | exact wf_upd _ _ w | exact wf_del _ w | exact wf_keep _ w | exact wf_mapV _ w | exact wf_filter _ w | (simp; done) | (simpa using w) | (rw [length_listSet]; exact w)))

theorem execCreditSnap_kin {port : Nat} {f : FlitRx} {s : State}  : KinS s (execCreditSnap port f s) := by
  unfold execCreditSnap
  try dsimp only
  with_reducible repeat'
    first
    | assumption | exact kinS_fault | exact Kin.refl _ | apply foldl_kin | apply onFlit_kin | apply stallTick_kin
    | apply updPort_kin | intro _

theorem monitorSees_kin {a0 : Dev} {d : Dev} {p : Nat} {b : Beacon} (hK : Kin a0 d) : Kin a0 (monitorSees d p b) := by
  unfold monitorSees
  try dsimp only
  with_reducible repeat'
    first
    | assumption | apply updPair_kin | apply checkPort_kin | split | intro _
    | (apply kin_other; first | assumption | apply updPair_kin | apply checkPort_kin)
    | (apply kin_other; apply kin_other; first | assumption | apply updPair_kin | apply checkPort_kin)
    | (apply kin_mk <;> first | assumption | apply updPair_kin | apply checkPort_kin | (intro w; first | exact w | exact wf_set _ _ w | exact wf_upd _ _ w | exact wf_del _ w | exact wf_keep _ w | exact wf_mapV _ w | exact wf_filter _ w | (simp; done) | (simpa using w) | (rw [length_listSet]; exact w)))

theorem portSees_kin {a0 : Dev} {d : Dev} {p : Nat} {b : Beacon} (hK : Kin a0 d) : Kin a0 (portSees d p b) := by
  unfold portSees
  try dsimp only
  with_reducible repeat'
    first
    | assumption | apply updPort_kin | apply checkPort_kin | split | intro _
    | (apply kin_other; first | assumption | apply updPort_kin | apply checkPort_kin)
    | (apply kin_other; apply kin_other; first | assumption | apply updPort_kin | apply checkPort_kin)
    | (apply kin_mk <;> first | assumption | apply updPort_kin | apply checkPort_kin | (intro w; first | exact w | exact wf_set _ _ w | exact wf_upd _ _ w | exact wf_del _ w | exact wf_keep _ w | exact wf_mapV _ w | exact wf_filter _ w | (simp; done) | (simpa using w) | (rw [length_listSet]; exact w)))

theorem execBeacon_kin {port : Nat} {f : FlitRx} {monitor : Bool} {s : State}  : KinS s (execBeacon port f monitor s) := by
  unfold execBeacon
  try dsimp only
  with_reducible repeat'
    first
    | assumption | exact kinS_fault | exact Kin.refl _ | apply onLinks_kin | apply monitorSees_kin | apply onFlit_kin
    | apply portSees_kin | split | intro _

theorem execDownNotice_kin {port : Nat} {f : FlitRx} {s : State}  : KinS s (execDownNotice port f s) := by
  unfold execDownNotice
  try dsimp only
  with_reducible repeat'
    first
    | assumption | exact kinS_fault | exact Kin.refl _ | apply onLinks_kin | apply flitArrives_kin | apply portDown_kin
    | apply takeHeader_kin | split | apply kin_fst (by assumption) | apply kin_snd (by assumption) | intro _

theorem classified_kin {a0 : Dev} {d : Dev} {k : PktRx} {vc : Nat} {flits : List Nat} (hK : Kin a0 d) : Kin a0 (classified d k vc flits) := by
  unfold classified
  try dsimp only
  repeat' split
  · exact checkContrib_kin hK _ (by assumption)
  · exact updPort_kin hK
  · exact updPort_kin hK


theorem packetArrives_kin {a0 : Dev} {p vc : Nat} {d : Dev} {us : List W32} {flits : List Nat} (hK : Kin a0 d) : Kin a0 (packetArrives p vc d us flits) := by
  unfold packetArrives
  try dsimp only
  with_reducible repeat'
    first
    | assumption | apply transit_kin | apply bump_kin | apply malformed_kin | apply updPort_kin | apply classified_kin | split
    | apply kin_fst (by assumption) | apply kin_snd (by assumption) | intro _
    | (apply kin_other; first | assumption | apply transit_kin | apply bump_kin | apply malformed_kin | apply updPort_kin | apply classified_kin)
    | (apply kin_other; apply kin_other; first | assumption | apply transit_kin | apply bump_kin | apply malformed_kin | apply updPort_kin | apply classified_kin)
    | (apply kin_mk <;> first | assumption | apply transit_kin | apply bump_kin | apply malformed_kin | apply updPort_kin | apply classified_kin | (intro w; first | exact w | exact wf_set _ _ w | exact wf_upd _ _ w | exact wf_del _ w | exact wf_keep _ w | exact wf_mapV _ w | exact wf_filter _ w | (simp; done) | (simpa using w) | (rw [length_listSet]; exact w)))

theorem packetsArrive_kin {a0 : Dev} {p vc cur : Nat} {first : List Nat} {d : Dev} {y0 : List (List W32)} (hK : Kin a0 d) : Kin a0 (packetsArrive p vc cur first d y0) := by
  induction y0 generalizing p vc cur first d with
  | nil =>
    unfold packetsArrive
    try dsimp only
    with_reducible repeat' first | assumption | apply packetArrives_kin | intro _
  | cons z zs ih =>
    unfold packetsArrive
    try dsimp only
    with_reducible repeat' first | assumption | apply ih | apply packetArrives_kin | intro _

theorem acceptFlit_kin {a0 : Dev} {d : Dev} {p : Nat} {f : FlitRx} (hK : Kin a0 d) : Kin a0 (acceptFlit d p f) := by
  unfold acceptFlit
  try dsimp only
  with_reducible repeat'
    first
    | assumption | apply bump_kin | apply updPort_kin | apply protocolTrap_kin | apply packetsArrive_kin | apply malformed_kin
    | apply policeDie_kin | split | apply kin_fst (by assumption) | apply kin_snd (by assumption) | intro _
    | (apply kin_other; first | assumption | apply bump_kin | apply updPort_kin | apply protocolTrap_kin | apply packetsArrive_kin | apply malformed_kin | apply policeDie_kin)
    | (apply kin_other; apply kin_other; first | assumption | apply bump_kin | apply updPort_kin | apply protocolTrap_kin | apply packetsArrive_kin | apply malformed_kin | apply policeDie_kin)
    | (apply kin_mk <;> first | assumption | apply bump_kin | apply updPort_kin | apply protocolTrap_kin | apply packetsArrive_kin | apply malformed_kin | apply policeDie_kin | (intro w; first | exact w | exact wf_set _ _ w | exact wf_upd _ _ w | exact wf_del _ w | exact wf_keep _ w | exact wf_mapV _ w | exact wf_filter _ w | (simp; done) | (simpa using w) | (rw [length_listSet]; exact w)))

theorem sendNak_kin {a0 : Dev} {d : Dev} {p : Nat} (hK : Kin a0 d) : Kin a0 (sendNak d p) := by
  unfold sendNak
  try dsimp only
  with_reducible repeat'
    first
    | assumption | apply bump_kin | apply updPort_kin | intro _
    | (apply kin_other; first | assumption | apply bump_kin | apply updPort_kin)
    | (apply kin_other; apply kin_other; first | assumption | apply bump_kin | apply updPort_kin)
    | (apply kin_mk <;> first | assumption | apply bump_kin | apply updPort_kin | (intro w; first | exact w | exact wf_set _ _ w | exact wf_upd _ _ w | exact wf_del _ w | exact wf_keep _ w | exact wf_mapV _ w | exact wf_filter _ w | (simp; done) | (simpa using w) | (rw [length_listSet]; exact w)))

theorem execDataFlit_kin {port : Nat} {f : FlitRx} {s : State}  : KinS s (execDataFlit port f s) := by
  unfold execDataFlit
  try dsimp only
  with_reducible repeat'
    first
    | assumption | exact kinS_fault | exact Kin.refl _ | apply onLinks_kin | apply flitArrives_kin | apply acceptFlit_kin
    | apply takeHeader_kin | apply sendNak_kin | split | apply kin_fst (by assumption) | apply kin_snd (by assumption)
    | intro _

theorem execNakRepeat_kin {port : Nat} {s : State}  : KinS s (execNakRepeat port s) := by
  unfold execNakRepeat
  try dsimp only
  with_reducible repeat'
    first
    | assumption | exact kinS_fault | exact Kin.refl _ | apply onUnit_kin | apply sendNak_kin | split
    | apply kin_fst (by assumption) | apply kin_snd (by assumption) | intro _

theorem execReplayTimer_kin {port : Nat} {s : State}  : KinS s (execReplayTimer port s) := by
  unfold execReplayTimer
  try dsimp only
  with_reducible repeat'
    first
    | assumption | exact kinS_fault | exact Kin.refl _ | apply onLinks_kin | apply beginResend_kin | split
    | apply kin_fst (by assumption) | apply kin_snd (by assumption) | intro _

theorem execCreditSnapTimer_kin {port : Nat} {s : State}  : KinS s (execCreditSnapTimer port s) := by
  unfold execCreditSnapTimer
  try dsimp only
  with_reducible repeat'
    first
    | assumption | exact kinS_fault | exact Kin.refl _ | apply onUnit_kin | apply updPort_kin | split | intro _
    | (apply kin_other; first | assumption | exact kinS_fault | exact Kin.refl _ | apply onUnit_kin | apply updPort_kin)
    | (apply kin_other; apply kin_other; first | assumption | exact kinS_fault | exact Kin.refl _ | apply onUnit_kin | apply updPort_kin)
    | (apply kin_mk <;> first | assumption | exact kinS_fault | exact Kin.refl _ | apply onUnit_kin | apply updPort_kin | (intro w; first | exact w | exact wf_set _ _ w | exact wf_upd _ _ w | exact wf_del _ w | exact wf_keep _ w | exact wf_mapV _ w | exact wf_filter _ w | (simp; done) | (simpa using w) | (rw [length_listSet]; exact w)))

theorem execBeaconTimer_kin {port : Nat} {s : State}  : KinS s (execBeaconTimer port s) := by
  unfold execBeaconTimer
  try dsimp only
  with_reducible repeat'
    first
    | assumption | exact kinS_fault | exact Kin.refl _ | apply onUnit_kin | apply updPort_kin | split | intro _
    | (apply kin_other; first | assumption | exact kinS_fault | exact Kin.refl _ | apply onUnit_kin | apply updPort_kin)
    | (apply kin_other; apply kin_other; first | assumption | exact kinS_fault | exact Kin.refl _ | apply onUnit_kin | apply updPort_kin)
    | (apply kin_mk <;> first | assumption | exact kinS_fault | exact Kin.refl _ | apply onUnit_kin | apply updPort_kin | (intro w; first | exact w | exact wf_set _ _ w | exact wf_upd _ _ w | exact wf_del _ w | exact wf_keep _ w | exact wf_mapV _ w | exact wf_filter _ w | (simp; done) | (simpa using w) | (rw [length_listSet]; exact w)))

theorem execBeaconMissing_kin {port : Nat} {s : State}  : KinS s (execBeaconMissing port s) := by
  unfold execBeaconMissing
  try dsimp only
  with_reducible repeat'
    first
    | assumption | exact kinS_fault | exact Kin.refl _ | apply onLinks_kin | apply updPair_kin | apply checkPort_kin | split
    | intro _
    | (apply kin_other; first | assumption | exact kinS_fault | exact Kin.refl _ | apply onLinks_kin | apply updPair_kin | apply checkPort_kin)
    | (apply kin_other; apply kin_other; first | assumption | exact kinS_fault | exact Kin.refl _ | apply onLinks_kin | apply updPair_kin | apply checkPort_kin)
    | (apply kin_mk <;> first | assumption | exact kinS_fault | exact Kin.refl _ | apply onLinks_kin | apply updPair_kin | apply checkPort_kin | (intro w; first | exact w | exact wf_set _ _ w | exact wf_upd _ _ w | exact wf_del _ w | exact wf_keep _ w | exact wf_mapV _ w | exact wf_filter _ w | (simp; done) | (simpa using w) | (rw [length_listSet]; exact w)))

theorem putFlit_kin {a0 : Dev} {d : Dev} {p ftype vc nextPkt seq : Nat} {us : List W32} (hK : Kin a0 d) : Kin a0 (putFlit d p ftype vc nextPkt seq us) := by
  unfold putFlit
  try dsimp only
  with_reducible repeat'
    first
    | assumption | apply updPort_kin | apply emitFlit_kin | intro _
    | (apply kin_other; first | assumption | apply updPort_kin | apply emitFlit_kin)
    | (apply kin_other; apply kin_other; first | assumption | apply updPort_kin | apply emitFlit_kin)
    | (apply kin_mk <;> first | assumption | apply updPort_kin | apply emitFlit_kin | (intro w; first | exact w | exact wf_set _ _ w | exact wf_upd _ _ w | exact wf_del _ w | exact wf_keep _ w | exact wf_mapV _ w | exact wf_filter _ w | (simp; done) | (simpa using w) | (rw [length_listSet]; exact w)))

theorem putIdle_kin {a0 : Dev} {d : Dev} {p : Nat} (hK : Kin a0 d) : Kin a0 (putIdle d p) := by
  unfold putIdle
  try dsimp only
  with_reducible repeat' first | assumption | apply putFlit_kin | intro _

theorem putCtl_kin {a0 : Dev} {d : Dev} {p : Nat} {c : CtlFlit} (hK : Kin a0 d) : Kin a0 (putCtl d p c) := by
  unfold putCtl
  try dsimp only
  with_reducible repeat'
    first
    | assumption | apply updPort_kin | apply putFlit_kin | split | apply kin_fst (by assumption)
    | apply kin_snd (by assumption) | intro _ | (apply kin_other; first | assumption | apply updPort_kin | apply putFlit_kin)
    | (apply kin_other; apply kin_other; first | assumption | apply updPort_kin | apply putFlit_kin)
    | (apply kin_mk <;> first | assumption | apply updPort_kin | apply putFlit_kin | (intro w; first | exact w | exact wf_set _ _ w | exact wf_upd _ _ w | exact wf_del _ w | exact wf_keep _ w | exact wf_mapV _ w | exact wf_filter _ w | (simp; done) | (simpa using w) | (rw [length_listSet]; exact w)))

theorem putData_kin {a0 : Dev} {d : Dev} {p : Nat} (hK : Kin a0 d) : KinO a0 (putData d p) := by
  unfold putData
  try dsimp only
  with_reducible repeat'
    first
    | assumption | apply updPort_kin | apply bump_kin | apply putFlit_kin | apply putIdle_kin | apply setPort_kin | split
    | apply kin_fst (by assumption) | apply kin_snd (by assumption) | exact kinO_none | apply kinO_some
    | apply kinO_use (by assumption) | intro _
    | (apply kin_other; first | assumption | apply updPort_kin | apply bump_kin | apply putFlit_kin | apply putIdle_kin | apply setPort_kin)
    | (apply kin_other; apply kin_other; first | assumption | apply updPort_kin | apply bump_kin | apply putFlit_kin | apply putIdle_kin | apply setPort_kin)
    | (apply kin_mk <;> first | assumption | apply updPort_kin | apply bump_kin | apply putFlit_kin | apply putIdle_kin | apply setPort_kin | (intro w; first | exact w | exact wf_set _ _ w | exact wf_upd _ _ w | exact wf_del _ w | exact wf_keep _ w | exact wf_mapV _ w | exact wf_filter _ w | (simp; done) | (simpa using w) | (rw [length_listSet]; exact w)))

theorem execFlitArbitration_kin {port : Nat} {s : State}  : KinS s (execFlitArbitration port s) := by
  unfold execFlitArbitration
  try dsimp only
  with_reducible repeat'
    first
    | assumption | exact kinS_fault | exact Kin.refl _ | apply onUnit_kin | apply wakeRecords_kin | apply policeDie_kin
    | apply stallTick_kin | apply putCtl_kin | apply putData_kin | apply putIdle_kin | apply kinO_getD | split
    | apply kin_fst (by assumption) | apply kin_snd (by assumption) | exact kinO_none | apply kinO_some
    | apply kinO_use (by assumption) | intro _

end Sys2Proof.Machine
end

