-- ==== Sys2Proof/Laws/KinPools.lean ====
section
/-!
SUPPORT. Sys2Proof/Laws/KinPools.lean: every operation of Pools.lean keeps time, identity and the form of the tables.
-/
namespace Sys2Proof.Machine
open SMap

theorem poolAnswer_kin {a0 : Dev} {d : Dev} {h : Option Nat} (hK : Kin a0 d) : Kin a0 (poolAnswer d h) := by
  unfold poolAnswer
  try dsimp only
  with_reducible repeat'
    first
    | assumption | intro _ | (apply kin_other; first | assumption) | (apply kin_other; apply kin_other; first | assumption)
    | (apply kin_mk <;> first | assumption | (intro w; first | exact w | exact wf_set _ _ w | exact wf_upd _ _ w | exact wf_del _ w | exact wf_keep _ w | exact wf_mapV _ w | exact wf_filter _ w | (simp; done) | (simpa using w) | (rw [length_listSet]; exact w)))

theorem poolFault_kin {a0 : Dev} {d : Dev} {h req : Nat} (hK : Kin a0 d) : Kin a0 (poolFault d h req) := by
  unfold poolFault
  try dsimp only
  with_reducible repeat'
    first
    | assumption | apply raiseTrap_kin | apply poolAnswer_kin | intro _
    | (apply kin_other; first | assumption | apply raiseTrap_kin | apply poolAnswer_kin)
    | (apply kin_other; apply kin_other; first | assumption | apply raiseTrap_kin | apply poolAnswer_kin)
    | (apply kin_mk <;> first | assumption | apply raiseTrap_kin | apply poolAnswer_kin | (intro w; first | exact w | exact wf_set _ _ w | exact wf_upd _ _ w | exact wf_del _ w | exact wf_keep _ w | exact wf_mapV _ w | exact wf_filter _ w | (simp; done) | (simpa using w) | (rw [length_listSet]; exact w)))

theorem failRestore_kin {a0 : Dev} {d : Dev} {j : Nat} (hK : Kin a0 d) : Kin a0 (failRestore d j) := by
  unfold failRestore
  try dsimp only
  with_reducible repeat'
    first
    | assumption | apply updJob_kin | apply finishCmds_kin | apply dropHeld_kin | apply kinO_getD | intro _
    | (apply kin_other; first | assumption | apply updJob_kin | apply finishCmds_kin | apply dropHeld_kin | apply kinO_getD)
    | (apply kin_other; apply kin_other; first | assumption | apply updJob_kin | apply finishCmds_kin | apply dropHeld_kin | apply kinO_getD)
    | (apply kin_mk <;> first | assumption | apply updJob_kin | apply finishCmds_kin | apply dropHeld_kin | apply kinO_getD | (intro w; first | exact w | exact wf_set _ _ w | exact wf_upd _ _ w | exact wf_del _ w | exact wf_keep _ w | exact wf_mapV _ w | exact wf_filter _ w | (simp; done) | (simpa using w) | (rw [length_listSet]; exact w)))

theorem procFails_kin {a0 : Dev} {d : Dev} {job : Option Nat} (hK : Kin a0 d) : Kin a0 (procFails d job) := by
  unfold procFails
  try dsimp only
  with_reducible repeat'
    first
    | assumption | apply finishCmds_kin | apply refuseRebuild_kin | apply failRestore_kin | split
    | apply kin_fst (by assumption) | apply kin_snd (by assumption) | intro _

theorem execAlloc_kin {pool requester : Nat} {job : Option Nat} {s : State}  : KinS s (execAlloc pool requester job s) := by
  unfold execAlloc
  try dsimp only
  with_reducible repeat'
    first
    | assumption | exact kinS_fault | exact Kin.refl _ | apply onUnit_kin | apply allocOp_kin | apply poolAnswer_kin
    | apply poolsSettle_kin | apply procFails_kin | split | apply kin_fst (by assumption) | apply kin_snd (by assumption)
    | intro _

theorem execAddref_kin {handle requester : Nat} {s : State}  : KinS s (execAddref handle requester s) := by
  unfold execAddref
  try dsimp only
  with_reducible repeat'
    first
    | assumption | exact kinS_fault | exact Kin.refl _ | apply onUnit_kin | apply poolFault_kin | apply poolAnswer_kin
    | apply bump_kin | split | apply kin_fst (by assumption) | apply kin_snd (by assumption) | intro _
    | (apply kin_other; first | assumption | exact kinS_fault | exact Kin.refl _ | apply onUnit_kin | apply poolFault_kin | apply poolAnswer_kin | apply bump_kin)
    | (apply kin_other; apply kin_other; first | assumption | exact kinS_fault | exact Kin.refl _ | apply onUnit_kin | apply poolFault_kin | apply poolAnswer_kin | apply bump_kin)
    | (apply kin_mk <;> first | assumption | exact kinS_fault | exact Kin.refl _ | apply onUnit_kin | apply poolFault_kin | apply poolAnswer_kin | apply bump_kin | (intro w; first | exact w | exact wf_set _ _ w | exact wf_upd _ _ w | exact wf_del _ w | exact wf_keep _ w | exact wf_mapV _ w | exact wf_filter _ w | (simp; done) | (simpa using w) | (rw [length_listSet]; exact w)))

theorem execReleaseBuf_kin {handle requester : Nat} {s : State}  : KinS s (execReleaseBuf handle requester s) := by
  unfold execReleaseBuf
  try dsimp only
  with_reducible repeat'
    first
    | assumption | exact kinS_fault | exact Kin.refl _ | apply onUnit_kin | apply poolFault_kin | apply poolAnswer_kin
    | apply poolRelease_kin | split | apply kin_fst (by assumption) | apply kin_snd (by assumption) | intro _

end Sys2Proof.Machine
end

