-- ==== Sys2Proof/Laws/KinStoreCmds.lean ====
section
/-!
SUPPORT. Sys2Proof/Laws/KinStoreCmds.lean: every operation of StoreCmds.lean keeps time, identity and the form of the tables.
-/
namespace Sys2Proof.Machine
open SMap

theorem countNoMem_kin {a0 : Dev} {d : Dev} {j : Nat} {n : Bool × Bool × Bool} (hK : Kin a0 d) : Kin a0 (countNoMem d j n) := by
  unfold countNoMem
  try dsimp only
  with_reducible repeat' first | assumption | apply bump_kin | apply quotaHit_kin | split | intro _

theorem createRegion_kin {a0 : Dev} {d : Dev} {j rn : Nat} {jb : Job} {r : Region} (hK : Kin a0 d) : Kin a0 (createRegion d j rn jb r) := by
  unfold createRegion
  try dsimp only
  with_reducible repeat'
    first
    | assumption | apply updJob_kin | apply syncExts_kin | apply clearRegion_kin | apply step_kin | apply forEach_kin
    | apply nextBaseOp_kin | apply sendDelta_kin | apply kin_fst (by assumption) | apply kin_snd (by assumption) | intro _
    | (apply kin_other; first | assumption | apply updJob_kin | apply syncExts_kin | apply clearRegion_kin | apply step_kin | apply forEach_kin | apply nextBaseOp_kin | apply sendDelta_kin)
    | (apply kin_other; apply kin_other; first | assumption | apply updJob_kin | apply syncExts_kin | apply clearRegion_kin | apply step_kin | apply forEach_kin | apply nextBaseOp_kin | apply sendDelta_kin)
    | (apply kin_mk <;> first | assumption | apply updJob_kin | apply syncExts_kin | apply clearRegion_kin | apply step_kin | apply forEach_kin | apply nextBaseOp_kin | apply sendDelta_kin | (intro w; first | exact w | exact wf_set _ _ w | exact wf_upd _ _ w | exact wf_del _ w | exact wf_keep _ w | exact wf_mapV _ w | exact wf_filter _ w | (simp; done) | (simpa using w) | (rw [length_listSet]; exact w)))

theorem endRegionCmd_kin {a0 : Dev} {d : Dev} {c : Cmd} {rn : Nat} (hK : Kin a0 d) : Kin a0 (endRegionCmd d c rn).1 := by
  unfold endRegionCmd
  try dsimp only
  with_reducible repeat'
    first
    | assumption | apply waitOn_kin | apply done_kin | split | apply kin_fst (by assumption) | apply kin_snd (by assumption)
    | intro _

theorem regionCreateCmd_kin {a0 : Dev} {y0 : Dev} {y1 : Cmd} (hK : Kin a0 y0) : Kin a0 (regionCreateCmd y0 y1).1 := by
  unfold regionCreateCmd
  try dsimp only
  with_reducible repeat'
    first
    | assumption | apply fail_kin | apply checks_kin | apply quotaHit_kin | apply countNoMem_kin | apply endRegionCmd_kin
    | apply createRegion_kin | apply kinO_getD | split | apply kin_fst (by assumption) | apply kin_snd (by assumption)
    | intro _

theorem execRegionCreate_kin {p : CmdPkt} {s : State}  : KinS s (execRegionCreate p s) := by
  unfold execRegionCreate
  try dsimp only
  with_reducible repeat'
    first
    | assumption | exact kinS_fault | exact Kin.refl _ | apply onCmd_kin | apply regionCreateCmd_kin | intro _

theorem destroyRegion_kin {a0 : Dev} {d : Dev} {j rn : Nat} {jb : Job} {r : Region} (hK : Kin a0 d) : Kin a0 (destroyRegion d j rn jb r) := by
  unfold destroyRegion
  try dsimp only
  with_reducible repeat'
    first
    | assumption | apply forEach_kin | apply readSlabs_kin | apply nextBaseOp_kin | apply step_kin | apply setDamaged_kin
    | apply sendDelta_kin | apply updJob_kin | split | apply kin_fst (by assumption) | apply kin_snd (by assumption) | intro _
    | (apply kin_other; first | assumption | apply forEach_kin | apply readSlabs_kin | apply nextBaseOp_kin | apply step_kin | apply setDamaged_kin | apply sendDelta_kin | apply updJob_kin)
    | (apply kin_other; apply kin_other; first | assumption | apply forEach_kin | apply readSlabs_kin | apply nextBaseOp_kin | apply step_kin | apply setDamaged_kin | apply sendDelta_kin | apply updJob_kin)
    | (apply kin_mk <;> first | assumption | apply forEach_kin | apply readSlabs_kin | apply nextBaseOp_kin | apply step_kin | apply setDamaged_kin | apply sendDelta_kin | apply updJob_kin | (intro w; first | exact w | exact wf_set _ _ w | exact wf_upd _ _ w | exact wf_del _ w | exact wf_keep _ w | exact wf_mapV _ w | exact wf_filter _ w | (simp; done) | (simpa using w) | (rw [length_listSet]; exact w)))

theorem regionDestroyCmd_kin {a0 : Dev} {y0 : Dev} {y1 : Cmd} (hK : Kin a0 y0) : Kin a0 (regionDestroyCmd y0 y1).1 := by
  unfold regionDestroyCmd
  try dsimp only
  with_reducible repeat'
    first
    | assumption | apply fail_kin | apply checks_kin | apply endRegionCmd_kin | apply destroyRegion_kin | split
    | apply kin_fst (by assumption) | apply kin_snd (by assumption) | intro _

theorem execRegionDestroy_kin {p : CmdPkt} {s : State}  : KinS s (execRegionDestroy p s) := by
  unfold execRegionDestroy
  try dsimp only
  with_reducible repeat'
    first
    | assumption | exact kinS_fault | exact Kin.refl _ | apply onCmd_kin | apply regionDestroyCmd_kin | intro _

theorem paramLoadCmd_kin {a0 : Dev} {y0 : Dev} {y1 : Cmd} (hK : Kin a0 y0) : Kin a0 (paramLoadCmd y0 y1).1 := by
  unfold paramLoadCmd
  try dsimp only
  with_reducible repeat'
    first
    | assumption | apply fail_kin | apply checks_kin | apply startLoad_kin | apply waitOn_kin | apply baseSettle_kin | split
    | apply kin_fst (by assumption) | apply kin_snd (by assumption) | intro _
    | (apply kin_other; first | assumption | apply fail_kin | apply checks_kin | apply startLoad_kin | apply waitOn_kin | apply baseSettle_kin)
    | (apply kin_other; apply kin_other; first | assumption | apply fail_kin | apply checks_kin | apply startLoad_kin | apply waitOn_kin | apply baseSettle_kin)
    | (apply kin_mk <;> first | assumption | apply fail_kin | apply checks_kin | apply startLoad_kin | apply waitOn_kin | apply baseSettle_kin | (intro w; first | exact w | exact wf_set _ _ w | exact wf_upd _ _ w | exact wf_del _ w | exact wf_keep _ w | exact wf_mapV _ w | exact wf_filter _ w | (simp; done) | (simpa using w) | (rw [length_listSet]; exact w)))

theorem execParamLoad_kin {p : CmdPkt} {s : State}  : KinS s (execParamLoad p s) := by
  unfold execParamLoad
  try dsimp only
  with_reducible repeat'
    first
    | assumption | exact kinS_fault | exact Kin.refl _ | apply onCmd_kin | apply paramLoadCmd_kin | intro _

theorem haulSetCmd_kin {a0 : Dev} {y0 : Dev} {y1 : Cmd} (hK : Kin a0 y0) : Kin a0 (haulSetCmd y0 y1).1 := by
  unfold haulSetCmd
  try dsimp only
  with_reducible repeat'
    first
    | assumption | apply fail_kin | apply checks_kin | apply done_kin | apply updJob_kin | split
    | apply kin_fst (by assumption) | apply kin_snd (by assumption) | intro _
    | (apply kin_other; first | assumption | apply fail_kin | apply checks_kin | apply done_kin | apply updJob_kin)
    | (apply kin_other; apply kin_other; first | assumption | apply fail_kin | apply checks_kin | apply done_kin | apply updJob_kin)
    | (apply kin_mk <;> first | assumption | apply fail_kin | apply checks_kin | apply done_kin | apply updJob_kin | (intro w; first | exact w | exact wf_set _ _ w | exact wf_upd _ _ w | exact wf_del _ w | exact wf_keep _ w | exact wf_mapV _ w | exact wf_filter _ w | (simp; done) | (simpa using w) | (rw [length_listSet]; exact w)))

theorem execHaulSet_kin {p : CmdPkt} {s : State}  : KinS s (execHaulSet p s) := by
  unfold execHaulSet
  try dsimp only
  with_reducible repeat'
    first
    | assumption | exact kinS_fault | exact Kin.refl _ | apply onCmd_kin | apply haulSetCmd_kin | intro _

theorem haulSubCmd_kin {a0 : Dev} {y0 : Dev} {y1 : Cmd} (hK : Kin a0 y0) : Kin a0 (haulSubCmd y0 y1).1 := by
  unfold haulSubCmd
  try dsimp only
  with_reducible repeat'
    first
    | assumption | apply fail_kin | apply checks_kin | apply done_kin | apply updJob_kin | split
    | apply kin_fst (by assumption) | apply kin_snd (by assumption) | intro _
    | (apply kin_other; first | assumption | apply fail_kin | apply checks_kin | apply done_kin | apply updJob_kin)
    | (apply kin_other; apply kin_other; first | assumption | apply fail_kin | apply checks_kin | apply done_kin | apply updJob_kin)
    | (apply kin_mk <;> first | assumption | apply fail_kin | apply checks_kin | apply done_kin | apply updJob_kin | (intro w; first | exact w | exact wf_set _ _ w | exact wf_upd _ _ w | exact wf_del _ w | exact wf_keep _ w | exact wf_mapV _ w | exact wf_filter _ w | (simp; done) | (simpa using w) | (rw [length_listSet]; exact w)))

theorem execHaulSub_kin {p : CmdPkt} {s : State}  : KinS s (execHaulSub p s) := by
  unfold execHaulSub
  try dsimp only
  with_reducible repeat'
    first
    | assumption | exact kinS_fault | exact Kin.refl _ | apply onCmd_kin | apply haulSubCmd_kin | intro _

theorem rankmapLoadCmd_kin {a0 : Dev} {y0 : Dev} {y1 : Cmd} (hK : Kin a0 y0) : Kin a0 (rankmapLoadCmd y0 y1).1 := by
  unfold rankmapLoadCmd
  try dsimp only
  with_reducible repeat'
    first
    | assumption | apply foldl_kin | apply fail_kin | apply checks_kin | apply quotaHit_kin | apply done_kin | split
    | apply kin_fst (by assumption) | apply kin_snd (by assumption) | intro _
    | (apply kin_other; first | assumption | apply foldl_kin | apply fail_kin | apply checks_kin | apply quotaHit_kin | apply done_kin)
    | (apply kin_other; apply kin_other; first | assumption | apply foldl_kin | apply fail_kin | apply checks_kin | apply quotaHit_kin | apply done_kin)
    | (apply kin_mk <;> first | assumption | apply foldl_kin | apply fail_kin | apply checks_kin | apply quotaHit_kin | apply done_kin | (intro w; first | exact w | exact wf_set _ _ w | exact wf_upd _ _ w | exact wf_del _ w | exact wf_keep _ w | exact wf_mapV _ w | exact wf_filter _ w | (simp; done) | (simpa using w) | (rw [length_listSet]; exact w)))

theorem execRankmapLoad_kin {p : CmdPkt} {s : State}  : KinS s (execRankmapLoad p s) := by
  unfold execRankmapLoad
  try dsimp only
  with_reducible repeat'
    first
    | assumption | exact kinS_fault | exact Kin.refl _ | apply onCmd_kin | apply rankmapLoadCmd_kin | intro _

theorem ruleLoadCmd_kin {a0 : Dev} {y0 : Dev} {y1 : Cmd} (hK : Kin a0 y0) : Kin a0 (ruleLoadCmd y0 y1).1 := by
  unfold ruleLoadCmd
  try dsimp only
  with_reducible repeat'
    first
    | assumption | apply fail_kin | apply checks_kin | apply bump_kin | apply quotaHit_kin | apply done_kin | split
    | apply kin_fst (by assumption) | apply kin_snd (by assumption) | intro _
    | (apply kin_other; first | assumption | apply fail_kin | apply checks_kin | apply bump_kin | apply quotaHit_kin | apply done_kin)
    | (apply kin_other; apply kin_other; first | assumption | apply fail_kin | apply checks_kin | apply bump_kin | apply quotaHit_kin | apply done_kin)
    | (apply kin_mk <;> first | assumption | apply fail_kin | apply checks_kin | apply bump_kin | apply quotaHit_kin | apply done_kin | (intro w; first | exact w | exact wf_set _ _ w | exact wf_upd _ _ w | exact wf_del _ w | exact wf_keep _ w | exact wf_mapV _ w | exact wf_filter _ w | (simp; done) | (simpa using w) | (rw [length_listSet]; exact w)))

theorem execRuleLoad_kin {p : CmdPkt} {s : State}  : KinS s (execRuleLoad p s) := by
  unfold execRuleLoad
  try dsimp only
  with_reducible repeat'
    first
    | assumption | exact kinS_fault | exact Kin.refl _ | apply onCmd_kin | apply ruleLoadCmd_kin | intro _

theorem schedLoadCmd_kin {a0 : Dev} {y0 : Dev} {y1 : Cmd} (hK : Kin a0 y0) : Kin a0 (schedLoadCmd y0 y1).1 := by
  unfold schedLoadCmd
  try dsimp only
  with_reducible repeat'
    first
    | assumption | apply fail_kin | apply checks_kin | apply bump_kin | apply quotaHit_kin | apply done_kin | split
    | apply kin_fst (by assumption) | apply kin_snd (by assumption) | intro _
    | (apply kin_other; first | assumption | apply fail_kin | apply checks_kin | apply bump_kin | apply quotaHit_kin | apply done_kin)
    | (apply kin_other; apply kin_other; first | assumption | apply fail_kin | apply checks_kin | apply bump_kin | apply quotaHit_kin | apply done_kin)
    | (apply kin_mk <;> first | assumption | apply fail_kin | apply checks_kin | apply bump_kin | apply quotaHit_kin | apply done_kin | (intro w; first | exact w | exact wf_set _ _ w | exact wf_upd _ _ w | exact wf_del _ w | exact wf_keep _ w | exact wf_mapV _ w | exact wf_filter _ w | (simp; done) | (simpa using w) | (rw [length_listSet]; exact w)))

theorem execSchedLoad_kin {p : CmdPkt} {s : State}  : KinS s (execSchedLoad p s) := by
  unfold execSchedLoad
  try dsimp only
  with_reducible repeat'
    first
    | assumption | exact kinS_fault | exact Kin.refl _ | apply onCmd_kin | apply schedLoadCmd_kin | intro _

theorem schedReadCmd_kin {a0 : Dev} {y0 : Dev} {y1 : Cmd} (hK : Kin a0 y0) : Kin a0 (schedReadCmd y0 y1).1 := by
  unfold schedReadCmd
  try dsimp only
  with_reducible repeat'
    first
    | assumption | apply checks_kin | apply doneWith_kin | apply fail_kin | split | apply kin_fst (by assumption)
    | apply kin_snd (by assumption) | intro _

theorem execSchedRead_kin {p : CmdPkt} {s : State}  : KinS s (execSchedRead p s) := by
  unfold execSchedRead
  try dsimp only
  with_reducible repeat'
    first
    | assumption | exact kinS_fault | exact Kin.refl _ | apply onCmd_kin | apply schedReadCmd_kin | intro _

theorem freeObj_kin {a0 : Dev} {d : Dev} {kind i : Nat} (hK : Kin a0 d) : Kin a0 (freeObj d kind i) := by
  unfold freeObj
  try dsimp only
  with_reducible repeat'
    first
    | assumption | split | apply kin_fst (by assumption) | apply kin_snd (by assumption) | intro _
    | (apply kin_other; first | assumption) | (apply kin_other; apply kin_other; first | assumption)
    | (apply kin_mk <;> first | assumption | (intro w; first | exact w | exact wf_set _ _ w | exact wf_upd _ _ w | exact wf_del _ w | exact wf_keep _ w | exact wf_mapV _ w | exact wf_filter _ w | (simp; done) | (simpa using w) | (rw [length_listSet]; exact w)))

theorem objFreeCmd_kin {a0 : Dev} {y0 : Dev} {y1 : Cmd} (hK : Kin a0 y0) : Kin a0 (objFreeCmd y0 y1).1 := by
  unfold objFreeCmd
  try dsimp only
  with_reducible repeat'
    first
    | assumption | apply checks_kin | apply done_kin | apply freeObj_kin | split | apply kin_fst (by assumption)
    | apply kin_snd (by assumption) | intro _

theorem execObjFree_kin {p : CmdPkt} {s : State}  : KinS s (execObjFree p s) := by
  unfold execObjFree
  try dsimp only
  with_reducible repeat'
    first
    | assumption | exact kinS_fault | exact Kin.refl _ | apply onCmd_kin | apply objFreeCmd_kin | intro _

end Sys2Proof.Machine
end

