-- ==== Sys2Proof/Laws/KinStepCmds.lean ====
section
/-!
SUPPORT. Sys2Proof/Laws/KinStepCmds.lean: every operation of StepCmds.lean keeps time, identity and the form of the tables.
-/
namespace Sys2Proof.Machine
open SMap

theorem stepSealCmd_kin {a0 : Dev} {y0 : Dev} {y1 : Cmd} (hK : Kin a0 y0) : Kin a0 (stepSealCmd y0 y1).1 := by
  unfold stepSealCmd
  try dsimp only
  with_reducible repeat'
    first
    | assumption | apply fail_kin | apply checks_kin | apply requestSeal_kin | apply waitOn_kin | split
    | apply kin_fst (by assumption) | apply kin_snd (by assumption) | intro _

theorem execStepSeal_kin {p : CmdPkt} {s : State}  : KinS s (execStepSeal p s) := by
  unfold execStepSeal
  try dsimp only
  with_reducible repeat'
    first
    | assumption | exact kinS_fault | exact Kin.refl _ | apply onStepCmd_kin | apply stepSealCmd_kin | intro _

theorem stepAbortCmd_kin {a0 : Dev} {y0 : Dev} {y1 : Cmd} (hK : Kin a0 y0) : Kin a0 (stepAbortCmd y0 y1).1 := by
  unfold stepAbortCmd
  try dsimp only
  with_reducible repeat'
    first
    | assumption | apply fail_kin | apply checks_kin | apply requestAbort_kin | apply waitOn_kin | split
    | apply kin_fst (by assumption) | apply kin_snd (by assumption) | intro _

theorem execStepAbort_kin {p : CmdPkt} {s : State}  : KinS s (execStepAbort p s) := by
  unfold execStepAbort
  try dsimp only
  with_reducible repeat'
    first
    | assumption | exact kinS_fault | exact Kin.refl _ | apply onStepCmd_kin | apply stepAbortCmd_kin | intro _

theorem stepPoisonCmd_kin {a0 : Dev} {y0 : Dev} {y1 : Cmd} (hK : Kin a0 y0) : Kin a0 (stepPoisonCmd y0 y1).1 := by
  unfold stepPoisonCmd
  try dsimp only
  with_reducible repeat'
    first
    | assumption | apply fail_kin | apply checks_kin | apply bump_kin | apply done_kin | apply poisonStep_kin | split
    | apply kin_fst (by assumption) | apply kin_snd (by assumption) | intro _

theorem execStepPoison_kin {p : CmdPkt} {s : State}  : KinS s (execStepPoison p s) := by
  unfold execStepPoison
  try dsimp only
  with_reducible repeat'
    first
    | assumption | exact kinS_fault | exact Kin.refl _ | apply onStepCmd_kin | apply stepPoisonCmd_kin | intro _

theorem snapConfigCmd_kin {a0 : Dev} {y0 : Dev} {y1 : Cmd} (hK : Kin a0 y0) : Kin a0 (snapConfigCmd y0 y1).1 := by
  unfold snapConfigCmd
  try dsimp only
  with_reducible repeat'
    first
    | assumption | apply fail_kin | apply checks_kin | apply done_kin | apply updJob_kin | apply kinO_getD | split
    | apply kin_fst (by assumption) | apply kin_snd (by assumption) | intro _
    | (apply kin_other; first | assumption | apply fail_kin | apply checks_kin | apply done_kin | apply updJob_kin | apply kinO_getD)
    | (apply kin_other; apply kin_other; first | assumption | apply fail_kin | apply checks_kin | apply done_kin | apply updJob_kin | apply kinO_getD)
    | (apply kin_mk <;> first | assumption | apply fail_kin | apply checks_kin | apply done_kin | apply updJob_kin | apply kinO_getD | (intro w; first | exact w | exact wf_set _ _ w | exact wf_upd _ _ w | exact wf_del _ w | exact wf_keep _ w | exact wf_mapV _ w | exact wf_filter _ w | (simp; done) | (simpa using w) | (rw [length_listSet]; exact w)))

theorem execSnapConfig_kin {p : CmdPkt} {s : State}  : KinS s (execSnapConfig p s) := by
  unfold execSnapConfig
  try dsimp only
  with_reducible repeat'
    first
    | assumption | exact kinS_fault | exact Kin.refl _ | apply onCmd_kin | apply snapConfigCmd_kin | intro _

theorem snapTakeCmd_kin {a0 : Dev} {y0 : Dev} {y1 : Cmd} (hK : Kin a0 y0) : Kin a0 (snapTakeCmd y0 y1).1 := by
  unfold snapTakeCmd
  try dsimp only
  with_reducible repeat'
    first
    | assumption | apply fail_kin | apply checks_kin | apply startRepair_kin | apply startSnap_kin | apply waitOn_kin | split
    | apply kin_fst (by assumption) | apply kin_snd (by assumption) | intro _

theorem execSnapTake_kin {p : CmdPkt} {s : State}  : KinS s (execSnapTake p s) := by
  unfold execSnapTake
  try dsimp only
  with_reducible repeat'
    first
    | assumption | exact kinS_fault | exact Kin.refl _ | apply onCmd_kin | apply snapTakeCmd_kin | intro _

theorem snapRestoreCmd_kin {a0 : Dev} {y0 : Dev} {y1 : Cmd} (hK : Kin a0 y0) : Kin a0 (snapRestoreCmd y0 y1).1 := by
  unfold snapRestoreCmd
  try dsimp only
  with_reducible repeat'
    first
    | assumption | apply step_kin | apply fail_kin | apply checks_kin | apply waitOn_kin | apply baseSettle_kin
    | apply startLoad_kin | apply clearCtxs_kin | split | apply kin_fst (by assumption) | apply kin_snd (by assumption)
    | intro _
    | (apply kin_other; first | assumption | apply step_kin | apply fail_kin | apply checks_kin | apply waitOn_kin | apply baseSettle_kin | apply startLoad_kin | apply clearCtxs_kin)
    | (apply kin_other; apply kin_other; first | assumption | apply step_kin | apply fail_kin | apply checks_kin | apply waitOn_kin | apply baseSettle_kin | apply startLoad_kin | apply clearCtxs_kin)
    | (apply kin_mk <;> first | assumption | apply step_kin | apply fail_kin | apply checks_kin | apply waitOn_kin | apply baseSettle_kin | apply startLoad_kin | apply clearCtxs_kin | (intro w; first | exact w | exact wf_set _ _ w | exact wf_upd _ _ w | exact wf_del _ w | exact wf_keep _ w | exact wf_mapV _ w | exact wf_filter _ w | (simp; done) | (simpa using w) | (rw [length_listSet]; exact w)))

theorem execSnapRestore_kin {p : CmdPkt} {s : State}  : KinS s (execSnapRestore p s) := by
  unfold execSnapRestore
  try dsimp only
  with_reducible repeat'
    first
    | assumption | exact kinS_fault | exact Kin.refl _ | apply onStepCmd_kin | apply snapRestoreCmd_kin | intro _

theorem snapReadCmd_kin {a0 : Dev} {y0 : Dev} {y1 : Cmd} (hK : Kin a0 y0) : Kin a0 (snapReadCmd y0 y1).1 := by
  unfold snapReadCmd
  try dsimp only
  with_reducible repeat'
    first
    | assumption | apply fail_kin | apply doneWith_kin | split | apply kin_fst (by assumption) | apply kin_snd (by assumption)
    | intro _

theorem execSnapRead_kin {p : CmdPkt} {s : State}  : KinS s (execSnapRead p s) := by
  unfold execSnapRead
  try dsimp only
  with_reducible repeat'
    first
    | assumption | exact kinS_fault | exact Kin.refl _ | apply onCmd_kin | apply snapReadCmd_kin | intro _

theorem parityGroupCmd_kin {a0 : Dev} {y0 : Dev} {y1 : Cmd} (hK : Kin a0 y0) : Kin a0 (parityGroupCmd y0 y1).1 := by
  unfold parityGroupCmd
  try dsimp only
  with_reducible repeat'
    first
    | assumption | apply checks_kin | apply flashWrite_kin | apply updPar_kin | apply done_kin | apply claimGroup_kin
    | intro _
    | (apply kin_other; first | assumption | apply checks_kin | apply flashWrite_kin | apply updPar_kin | apply done_kin | apply claimGroup_kin)
    | (apply kin_other; apply kin_other; first | assumption | apply checks_kin | apply flashWrite_kin | apply updPar_kin | apply done_kin | apply claimGroup_kin)
    | (apply kin_mk <;> first | assumption | apply checks_kin | apply flashWrite_kin | apply updPar_kin | apply done_kin | apply claimGroup_kin | (intro w; first | exact w | exact wf_set _ _ w | exact wf_upd _ _ w | exact wf_del _ w | exact wf_keep _ w | exact wf_mapV _ w | exact wf_filter _ w | (simp; done) | (simpa using w) | (rw [length_listSet]; exact w)))

theorem execParityGroupSet_kin {p : CmdPkt} {s : State}  : KinS s (execParityGroupSet p s) := by
  unfold execParityGroupSet
  try dsimp only
  with_reducible repeat'
    first
    | assumption | exact kinS_fault | exact Kin.refl _ | apply onCmd_kin | apply parityGroupCmd_kin | intro _

theorem startRebuild_kin {a0 : Dev} {d : Dev} {j step : Nat} (hK : Kin a0 d) : Kin a0 (startRebuild d j step) := by
  unfold startRebuild
  try dsimp only
  with_reducible repeat'
    first
    | assumption | apply step_kin | apply updJob_kin | apply clearCtxs_kin | apply updPar_kin | apply claimsSettle_kin
    | apply claimJob_kin | split | apply kin_fst (by assumption) | apply kin_snd (by assumption) | intro _
    | (apply kin_other; first | assumption | apply step_kin | apply updJob_kin | apply clearCtxs_kin | apply updPar_kin | apply claimsSettle_kin | apply claimJob_kin)
    | (apply kin_other; apply kin_other; first | assumption | apply step_kin | apply updJob_kin | apply clearCtxs_kin | apply updPar_kin | apply claimsSettle_kin | apply claimJob_kin)
    | (apply kin_mk <;> first | assumption | apply step_kin | apply updJob_kin | apply clearCtxs_kin | apply updPar_kin | apply claimsSettle_kin | apply claimJob_kin | (intro w; first | exact w | exact wf_set _ _ w | exact wf_upd _ _ w | exact wf_del _ w | exact wf_keep _ w | exact wf_mapV _ w | exact wf_filter _ w | (simp; done) | (simpa using w) | (rw [length_listSet]; exact w)))

theorem rebuildStartCmd_kin {a0 : Dev} {y0 : Dev} {y1 : Cmd} (hK : Kin a0 y0) : Kin a0 (rebuildStartCmd y0 y1).1 := by
  unfold rebuildStartCmd
  try dsimp only
  with_reducible repeat'
    first
    | assumption | apply fail_kin | apply checks_kin | apply startRebuild_kin | apply waitOn_kin | split
    | apply kin_fst (by assumption) | apply kin_snd (by assumption) | intro _

theorem execRebuildStart_kin {p : CmdPkt} {s : State}  : KinS s (execRebuildStart p s) := by
  unfold execRebuildStart
  try dsimp only
  with_reducible repeat'
    first
    | assumption | exact kinS_fault | exact Kin.refl _ | apply onStepCmd_kin | apply rebuildStartCmd_kin | intro _

theorem parityReadCmd_kin {a0 : Dev} {y0 : Dev} {y1 : Cmd} (hK : Kin a0 y0) : Kin a0 (parityReadCmd y0 y1).1 := by
  unfold parityReadCmd
  try dsimp only
  with_reducible repeat' first | assumption | apply doneWith_kin | intro _

theorem execParityRead_kin {p : CmdPkt} {s : State}  : KinS s (execParityRead p s) := by
  unfold execParityRead
  try dsimp only
  with_reducible repeat'
    first
    | assumption | exact kinS_fault | exact Kin.refl _ | apply onCmd_kin | apply parityReadCmd_kin | intro _

theorem recStartCmd_kin {a0 : Dev} {y0 : Dev} {y1 : Cmd} (hK : Kin a0 y0) : Kin a0 (recStartCmd y0 y1).1 := by
  unfold recStartCmd
  try dsimp only
  with_reducible repeat'
    first
    | assumption | apply fail_kin | apply checks_kin | apply quotaHit_kin | apply done_kin | apply updJob_kin | split
    | apply kin_fst (by assumption) | apply kin_snd (by assumption) | intro _
    | (apply kin_other; first | assumption | apply fail_kin | apply checks_kin | apply quotaHit_kin | apply done_kin | apply updJob_kin)
    | (apply kin_other; apply kin_other; first | assumption | apply fail_kin | apply checks_kin | apply quotaHit_kin | apply done_kin | apply updJob_kin)
    | (apply kin_mk <;> first | assumption | apply fail_kin | apply checks_kin | apply quotaHit_kin | apply done_kin | apply updJob_kin | (intro w; first | exact w | exact wf_set _ _ w | exact wf_upd _ _ w | exact wf_del _ w | exact wf_keep _ w | exact wf_mapV _ w | exact wf_filter _ w | (simp; done) | (simpa using w) | (rw [length_listSet]; exact w)))

theorem execRecStart_kin {p : CmdPkt} {s : State}  : KinS s (execRecStart p s) := by
  unfold execRecStart
  try dsimp only
  with_reducible repeat'
    first
    | assumption | exact kinS_fault | exact Kin.refl _ | apply onCmd_kin | apply recStartCmd_kin | intro _

theorem recStopCmd_kin {a0 : Dev} {y0 : Dev} {y1 : Cmd} (hK : Kin a0 y0) : Kin a0 (recStopCmd y0 y1).1 := by
  unfold recStopCmd
  try dsimp only
  with_reducible repeat'
    first
    | assumption | apply fail_kin | apply settleMem_kin | apply countHold_kin | apply recEnd_kin | apply doneWith_kin
    | apply updJob_kin | split | apply kin_fst (by assumption) | apply kin_snd (by assumption) | intro _

theorem execRecStop_kin {p : CmdPkt} {s : State}  : KinS s (execRecStop p s) := by
  unfold execRecStop
  try dsimp only
  with_reducible repeat'
    first
    | assumption | exact kinS_fault | exact Kin.refl _ | apply onCmd_kin | apply recStopCmd_kin | intro _

theorem replayStartCmd_kin {a0 : Dev} {y0 : Dev} {y1 : Cmd} (hK : Kin a0 y0) : Kin a0 (replayStartCmd y0 y1).1 := by
  unfold replayStartCmd
  try dsimp only
  with_reducible repeat'
    first
    | assumption | apply fail_kin | apply checks_kin | apply done_kin | apply updJob_kin | split
    | apply kin_fst (by assumption) | apply kin_snd (by assumption) | intro _
    | (apply kin_other; first | assumption | apply fail_kin | apply checks_kin | apply done_kin | apply updJob_kin)
    | (apply kin_other; apply kin_other; first | assumption | apply fail_kin | apply checks_kin | apply done_kin | apply updJob_kin)
    | (apply kin_mk <;> first | assumption | apply fail_kin | apply checks_kin | apply done_kin | apply updJob_kin | (intro w; first | exact w | exact wf_set _ _ w | exact wf_upd _ _ w | exact wf_del _ w | exact wf_keep _ w | exact wf_mapV _ w | exact wf_filter _ w | (simp; done) | (simpa using w) | (rw [length_listSet]; exact w)))

theorem execReplayStart_kin {p : CmdPkt} {s : State}  : KinS s (execReplayStart p s) := by
  unfold execReplayStart
  try dsimp only
  with_reducible repeat'
    first
    | assumption | exact kinS_fault | exact Kin.refl _ | apply onStepCmd_kin | apply replayStartCmd_kin | intro _

theorem refModeCmd_kin {a0 : Dev} {y0 : Dev} {y1 : Cmd} (hK : Kin a0 y0) : Kin a0 (refModeCmd y0 y1).1 := by
  unfold refModeCmd
  try dsimp only
  with_reducible repeat'
    first
    | assumption | apply fail_kin | apply done_kin | apply updJob_kin | split | intro _
    | (apply kin_other; first | assumption | apply fail_kin | apply done_kin | apply updJob_kin)
    | (apply kin_other; apply kin_other; first | assumption | apply fail_kin | apply done_kin | apply updJob_kin)
    | (apply kin_mk <;> first | assumption | apply fail_kin | apply done_kin | apply updJob_kin | (intro w; first | exact w | exact wf_set _ _ w | exact wf_upd _ _ w | exact wf_del _ w | exact wf_keep _ w | exact wf_mapV _ w | exact wf_filter _ w | (simp; done) | (simpa using w) | (rw [length_listSet]; exact w)))

theorem execRefMode_kin {p : CmdPkt} {s : State}  : KinS s (execRefMode p s) := by
  unfold execRefMode
  try dsimp only
  with_reducible repeat'
    first
    | assumption | exact kinS_fault | exact Kin.refl _ | apply onStepCmd_kin | apply refModeCmd_kin | intro _

end Sys2Proof.Machine
end

