-- ==== Sys2Proof/Laws/KinStartup.lean ====
section
/-!
SUPPORT. Sys2Proof/Laws/KinStartup.lean: every operation of Startup.lean keeps time, identity and the form of the tables.
-/
namespace Sys2Proof.Machine
open SMap

theorem updStart_kin {a0 : Dev} {d : Dev} {f : Start → Start} (hK : Kin a0 d) : Kin a0 (updStart d f) := by
  unfold updStart
  try dsimp only
  with_reducible repeat'
    first
    | assumption | intro _ | (apply kin_other; first | assumption) | (apply kin_other; apply kin_other; first | assumption)
    | (apply kin_mk <;> first | assumption | (intro w; first | exact w | exact wf_set _ _ w | exact wf_upd _ _ w | exact wf_del _ w | exact wf_keep _ w | exact wf_mapV _ w | exact wf_filter _ w | (simp; done) | (simpa using w) | (rw [length_listSet]; exact w)))

theorem enterPhase_kin {a0 : Dev} {d : Dev} {p : Phase} (hK : Kin a0 d) : Kin a0 (enterPhase d p) := by
  unfold enterPhase
  try dsimp only
  with_reducible repeat'
    first
    | assumption | apply updStart_kin | intro _ | (apply kin_other; first | assumption | apply updStart_kin)
    | (apply kin_other; apply kin_other; first | assumption | apply updStart_kin)
    | (apply kin_mk <;> first | assumption | apply updStart_kin | (intro w; first | exact w | exact wf_set _ _ w | exact wf_upd _ _ w | exact wf_del _ w | exact wf_keep _ w | exact wf_mapV _ w | exact wf_filter _ w | (simp; done) | (simpa using w) | (rw [length_listSet]; exact w)))

theorem writeLife_kin {a0 : Dev} {d : Dev} (hK : Kin a0 d) : Kin a0 (writeLife d) := by
  unfold writeLife
  try dsimp only
  with_reducible repeat' first | assumption | apply flashWrite_kin | intro _

theorem loadLife_kin {a0 : Dev} {d : Dev} (hK : Kin a0 d) : Kin a0 (loadLife d) := by
  unfold loadLife
  try dsimp only
  with_reducible repeat'
    first
    | assumption | apply forEach_kin | apply setCtr_kin | apply kinO_getD | split | apply kin_fst (by assumption)
    | apply kin_snd (by assumption) | intro _

theorem execLifeWrite_kin {fail : Nat × Nat} {later : List (Nat × Nat)} {s : State}  : KinS s (execLifeWrite fail later s) := by
  unfold execLifeWrite
  try dsimp only
  with_reducible repeat'
    first
    | assumption | exact kinS_fault | exact Kin.refl _ | apply onUnit_kin | apply writeLife_kin | apply bump_kin | split
    | intro _
    | (apply kin_other; first | assumption | exact kinS_fault | exact Kin.refl _ | apply onUnit_kin | apply writeLife_kin | apply bump_kin)
    | (apply kin_other; apply kin_other; first | assumption | exact kinS_fault | exact Kin.refl _ | apply onUnit_kin | apply writeLife_kin | apply bump_kin)
    | (apply kin_mk <;> first | assumption | exact kinS_fault | exact Kin.refl _ | apply onUnit_kin | apply writeLife_kin | apply bump_kin | (intro w; first | exact w | exact wf_set _ _ w | exact wf_upd _ _ w | exact wf_del _ w | exact wf_keep _ w | exact wf_mapV _ w | exact wf_filter _ w | (simp; done) | (simpa using w) | (rw [length_listSet]; exact w)))

theorem execFlashWaitTimeout_kin {s : State}  : KinS s (execFlashWaitTimeout s) := by
  unfold execFlashWaitTimeout
  try dsimp only
  with_reducible repeat'
    first
    | assumption | exact kinS_fault | exact Kin.refl _ | apply onDev_kin | apply raiseTrap_kin | split
    | apply kin_fst (by assumption) | apply kin_snd (by assumption) | intro _
    | (apply kin_other; first | assumption | exact kinS_fault | exact Kin.refl _ | apply onDev_kin | apply raiseTrap_kin)
    | (apply kin_other; apply kin_other; first | assumption | exact kinS_fault | exact Kin.refl _ | apply onDev_kin | apply raiseTrap_kin)
    | (apply kin_mk <;> first | assumption | exact kinS_fault | exact Kin.refl _ | apply onDev_kin | apply raiseTrap_kin | (intro w; first | exact w | exact wf_set _ _ w | exact wf_upd _ _ w | exact wf_del _ w | exact wf_keep _ w | exact wf_mapV _ w | exact wf_filter _ w | (simp; done) | (simpa using w) | (rw [length_listSet]; exact w)))

theorem enterFailed_kin {a0 : Dev} {d : Dev} {cause : Nat} (hK : Kin a0 d) : Kin a0 (enterFailed d cause) := by
  unfold enterFailed
  try dsimp only
  with_reducible repeat'
    first
    | assumption | apply bump_kin | apply loadLife_kin | apply updStart_kin | apply enterPhase_kin | apply raiseTrap_kin
    | apply closePool_kin | apply writeLife_kin | split | intro _
    | (apply kin_other; first | assumption | apply bump_kin | apply loadLife_kin | apply updStart_kin | apply enterPhase_kin | apply raiseTrap_kin | apply closePool_kin | apply writeLife_kin)
    | (apply kin_other; apply kin_other; first | assumption | apply bump_kin | apply loadLife_kin | apply updStart_kin | apply enterPhase_kin | apply raiseTrap_kin | apply closePool_kin | apply writeLife_kin)
    | (apply kin_mk <;> first | assumption | apply bump_kin | apply loadLife_kin | apply updStart_kin | apply enterPhase_kin | apply raiseTrap_kin | apply closePool_kin | apply writeLife_kin | (intro w; first | exact w | exact wf_set _ _ w | exact wf_upd _ _ w | exact wf_del _ w | exact wf_keep _ w | exact wf_mapV _ w | exact wf_filter _ w | (simp; done) | (simpa using w) | (rw [length_listSet]; exact w)))

theorem execPhaseLimit_kin {s : State}  : KinS s (execPhaseLimit s) := by
  unfold execPhaseLimit
  try dsimp only
  with_reducible repeat'
    first
    | assumption | exact kinS_fault | exact Kin.refl _ | apply onDev_kin | apply enterFailed_kin | split
    | apply kin_fst (by assumption) | apply kin_snd (by assumption) | intro _

theorem fromPhase_kin {a0 : Dev} {d : Dev} {p : Phase} {f : Dev → Dev} (hK : Kin a0 d) (g_f : ∀ e, Kin a0 e → Kin a0 (f e)) : Kin a0 (fromPhase d p f) := by
  unfold fromPhase
  try dsimp only
  with_reducible repeat' first | assumption | apply g_f | split | intro _

theorem chooseCpu_kin {a0 : Dev} {d : Dev} {ok0 ok1 : Bool} (hK : Kin a0 d) : Kin a0 (chooseCpu d ok0 ok1) := by
  unfold chooseCpu
  try dsimp only
  with_reducible repeat'
    first
    | assumption | apply updStart_kin | split | intro _ | (apply kin_other; first | assumption | apply updStart_kin)
    | (apply kin_other; apply kin_other; first | assumption | apply updStart_kin)
    | (apply kin_mk <;> first | assumption | apply updStart_kin | (intro w; first | exact w | exact wf_set _ _ w | exact wf_upd _ _ w | exact wf_del _ w | exact wf_keep _ w | exact wf_mapV _ w | exact wf_filter _ w | (simp; done) | (simpa using w) | (rw [length_listSet]; exact w)))

theorem mapKRow_kin {a0 : Dev} {d : Dev} {bank : Nat} (hK : Kin a0 d) : Kin a0 (mapKRow d bank) := by
  unfold mapKRow
  try dsimp only
  with_reducible repeat'
    first
    | assumption | apply updSpare_kin | apply kinO_getD | split | intro _
    | (apply kin_other; first | assumption | apply updSpare_kin | apply kinO_getD)
    | (apply kin_other; apply kin_other; first | assumption | apply updSpare_kin | apply kinO_getD)
    | (apply kin_mk <;> first | assumption | apply updSpare_kin | apply kinO_getD | (intro w; first | exact w | exact wf_set _ _ w | exact wf_upd _ _ w | exact wf_del _ w | exact wf_keep _ w | exact wf_mapV _ w | exact wf_filter _ w | (simp; done) | (simpa using w) | (rw [length_listSet]; exact w)))

theorem execPhaseRom_kin {passed : Bool × Bool} {rows : List (Nat × Nat)} {s : State}  : KinS s (execPhaseRom passed rows s) := by
  unfold execPhaseRom
  try dsimp only
  with_reducible repeat'
    first
    | assumption | exact kinS_fault | exact Kin.refl _ | apply onUnit_kin | apply forEach_kin | apply chooseCpu_kin
    | apply mapKRow_kin | apply enterPhase_kin | apply enterFailed_kin | split | intro _

theorem spoilNewest_kin {a0 : Dev} {m : Nat} {d : Dev} {rid : Nat} (hK : Kin a0 d) : Kin a0 (spoilNewest m d rid) := by
  unfold spoilNewest
  try dsimp only
  with_reducible repeat'
    first
    | assumption | split | apply kin_fst (by assumption) | apply kin_snd (by assumption) | intro _
    | (apply kin_other; first | assumption) | (apply kin_other; apply kin_other; first | assumption)
    | (apply kin_mk <;> first | assumption | (intro w; first | exact w | exact wf_set _ _ w | exact wf_upd _ _ w | exact wf_del _ w | exact wf_keep _ w | exact wf_mapV _ w | exact wf_filter _ w | (simp; done) | (simpa using w) | (rw [length_listSet]; exact w)))

theorem resolve_kin {a0 : Dev} {d : Dev} {rid : Nat} (hK : Kin a0 d) : Kin a0 (resolve d rid) := by
  unfold resolve
  try dsimp only
  with_reducible repeat'
    first
    | assumption | apply appendCopy_kin | apply bump_kin | apply raiseTrap_kin | split | apply kin_fst (by assumption)
    | apply kin_snd (by assumption) | intro _
    | (apply kin_other; first | assumption | apply appendCopy_kin | apply bump_kin | apply raiseTrap_kin)
    | (apply kin_other; apply kin_other; first | assumption | apply appendCopy_kin | apply bump_kin | apply raiseTrap_kin)
    | (apply kin_mk <;> first | assumption | apply appendCopy_kin | apply bump_kin | apply raiseTrap_kin | (intro w; first | exact w | exact wf_set _ _ w | exact wf_upd _ _ w | exact wf_del _ w | exact wf_keep _ w | exact wf_mapV _ w | exact wf_filter _ w | (simp; done) | (simpa using w) | (rw [length_listSet]; exact w)))

theorem spoilFactory_kin {a0 : Dev} {d : Dev} {e : Nat × Nat} (hK : Kin a0 d) : Kin a0 (spoilFactory d e) := by
  unfold spoilFactory
  try dsimp only
  with_reducible repeat'
    first
    | assumption | intro _ | (apply kin_other; first | assumption) | (apply kin_other; apply kin_other; first | assumption)
    | (apply kin_mk <;> first | assumption | (intro w; first | exact w | exact wf_set _ _ w | exact wf_upd _ _ w | exact wf_del _ w | exact wf_keep _ w | exact wf_mapV _ w | exact wf_filter _ w | (simp; done) | (simpa using w) | (rw [length_listSet]; exact w)))

theorem resolveFactory_kin {a0 : Dev} {d : Dev} {rid : Nat} (hK : Kin a0 d) : Kin a0 (resolveFactory d rid) := by
  unfold resolveFactory
  try dsimp only
  with_reducible repeat'
    first
    | assumption | apply raiseTrap_kin | split | intro _ | (apply kin_other; first | assumption | apply raiseTrap_kin)
    | (apply kin_other; apply kin_other; first | assumption | apply raiseTrap_kin)
    | (apply kin_mk <;> first | assumption | apply raiseTrap_kin | (intro w; first | exact w | exact wf_set _ _ w | exact wf_upd _ _ w | exact wf_del _ w | exact wf_keep _ w | exact wf_mapV _ w | exact wf_filter _ w | (simp; done) | (simpa using w) | (rw [length_listSet]; exact w)))

theorem applyRecords_kin {a0 : Dev} {d : Dev} (hK : Kin a0 d) : Kin a0 (applyRecords d) := by
  unfold applyRecords
  try dsimp only
  with_reducible repeat'
    first
    | assumption | apply kinO_getD | split | apply kin_fst (by assumption) | apply kin_snd (by assumption) | intro _
    | (apply kin_other; first | assumption | apply kinO_getD)
    | (apply kin_other; apply kin_other; first | assumption | apply kinO_getD)
    | (apply kin_mk <;> first | assumption | apply kinO_getD | (intro w; first | exact w | exact wf_set _ _ w | exact wf_upd _ _ w | exact wf_del _ w | exact wf_keep _ w | exact wf_mapV _ w | exact wf_filter _ w | (simp; done) | (simpa using w) | (rw [length_listSet]; exact w)))

theorem execPhaseRestore_kin {badA badB : List Nat} {badFactory : List (Nat × Nat)} {s : State}  : KinS s (execPhaseRestore badA badB badFactory s) := by
  unfold execPhaseRestore
  try dsimp only
  with_reducible repeat'
    first
    | assumption | exact kinS_fault | exact Kin.refl _ | apply onDev_kin | apply fromPhase_kin | apply forEach_kin
    | apply spoilNewest_kin | apply spoilFactory_kin | apply updPower_kin | apply enterPhase_kin | apply resolveFactory_kin
    | apply resolve_kin | apply bump_kin | apply loadLife_kin | apply applyRecords_kin | apply enterFailed_kin
    | apply writeLife_kin | split | intro _
    | (apply kin_other; first | assumption | exact kinS_fault | exact Kin.refl _ | apply onDev_kin | apply fromPhase_kin | apply forEach_kin | apply spoilNewest_kin | apply spoilFactory_kin | apply updPower_kin | apply enterPhase_kin | apply resolveFactory_kin | apply resolve_kin | apply bump_kin | apply loadLife_kin | apply applyRecords_kin | apply enterFailed_kin | apply writeLife_kin)
    | (apply kin_other; apply kin_other; first | assumption | exact kinS_fault | exact Kin.refl _ | apply onDev_kin | apply fromPhase_kin | apply forEach_kin | apply spoilNewest_kin | apply spoilFactory_kin | apply updPower_kin | apply enterPhase_kin | apply resolveFactory_kin | apply resolve_kin | apply bump_kin | apply loadLife_kin | apply applyRecords_kin | apply enterFailed_kin | apply writeLife_kin)
    | (apply kin_mk <;> first | assumption | exact kinS_fault | exact Kin.refl _ | apply onDev_kin | apply fromPhase_kin | apply forEach_kin | apply spoilNewest_kin | apply spoilFactory_kin | apply updPower_kin | apply enterPhase_kin | apply resolveFactory_kin | apply resolve_kin | apply bump_kin | apply loadLife_kin | apply applyRecords_kin | apply enterFailed_kin | apply writeLife_kin | (intro w; first | exact w | exact wf_set _ _ w | exact wf_upd _ _ w | exact wf_del _ w | exact wf_keep _ w | exact wf_mapV _ w | exact wf_filter _ w | (simp; done) | (simpa using w) | (rw [length_listSet]; exact w)))

theorem execPhasePatch_kin {s : State}  : KinS s (execPhasePatch s) := by
  unfold execPhasePatch
  try dsimp only
  with_reducible repeat'
    first
    | assumption | exact kinS_fault | exact Kin.refl _ | apply onDev_kin | apply fromPhase_kin | apply enterPhase_kin
    | apply updStart_kin | apply raiseTrap_kin | split | apply kin_fst (by assumption) | apply kin_snd (by assumption)
    | intro _
    | (apply kin_other; first | assumption | exact kinS_fault | exact Kin.refl _ | apply onDev_kin | apply fromPhase_kin | apply enterPhase_kin | apply updStart_kin | apply raiseTrap_kin)
    | (apply kin_other; apply kin_other; first | assumption | exact kinS_fault | exact Kin.refl _ | apply onDev_kin | apply fromPhase_kin | apply enterPhase_kin | apply updStart_kin | apply raiseTrap_kin)
    | (apply kin_mk <;> first | assumption | exact kinS_fault | exact Kin.refl _ | apply onDev_kin | apply fromPhase_kin | apply enterPhase_kin | apply updStart_kin | apply raiseTrap_kin | (intro w; first | exact w | exact wf_set _ _ w | exact wf_upd _ _ w | exact wf_del _ w | exact wf_keep _ w | exact wf_mapV _ w | exact wf_filter _ w | (simp; done) | (simpa using w) | (rw [length_listSet]; exact w)))

theorem execPhaseDies_kin {fails : List Trigger} {links : List Nat} {s : State}  : KinS s (execPhaseDies fails links s) := by
  unfold execPhaseDies
  try dsimp only
  with_reducible repeat'
    first
    | assumption | exact kinS_fault | exact Kin.refl _ | apply onUnit_kin | apply fromPhase_kin | apply updClocks_kin
    | apply enterPhase_kin | apply forEach_kin | apply groupOut_kin | apply repair_kin | apply enterFailed_kin | split
    | intro _
    | (apply kin_other; first | assumption | exact kinS_fault | exact Kin.refl _ | apply onUnit_kin | apply fromPhase_kin | apply updClocks_kin | apply enterPhase_kin | apply forEach_kin | apply groupOut_kin | apply repair_kin | apply enterFailed_kin)
    | (apply kin_other; apply kin_other; first | assumption | exact kinS_fault | exact Kin.refl _ | apply onUnit_kin | apply fromPhase_kin | apply updClocks_kin | apply enterPhase_kin | apply forEach_kin | apply groupOut_kin | apply repair_kin | apply enterFailed_kin)
    | (apply kin_mk <;> first | assumption | exact kinS_fault | exact Kin.refl _ | apply onUnit_kin | apply fromPhase_kin | apply updClocks_kin | apply enterPhase_kin | apply forEach_kin | apply groupOut_kin | apply repair_kin | apply enterFailed_kin | (intro w; first | exact w | exact wf_set _ _ w | exact wf_upd _ _ w | exact wf_del _ w | exact wf_keep _ w | exact wf_mapV _ w | exact wf_filter _ w | (simp; done) | (simpa using w) | (rw [length_listSet]; exact w)))

theorem zeroFill_kin {a0 : Dev} {d : Dev} (hK : Kin a0 d) : Kin a0 (zeroFill d) := by
  unfold zeroFill
  try dsimp only
  with_reducible repeat' first | assumption | apply forEach_kin | apply channelDone_kin | intro _

theorem execPhaseMemory_kin {fails : List Trigger} {s : State}  : KinS s (execPhaseMemory fails s) := by
  unfold execPhaseMemory
  try dsimp only
  with_reducible repeat'
    first
    | assumption | exact kinS_fault | exact Kin.refl _ | apply onUnit_kin | apply fromPhase_kin | apply forEach_kin
    | apply zeroFill_kin | apply enterPhase_kin | apply repair_kin | apply enterFailed_kin | split | intro _

theorem execPhaseLinks_kin {s : State}  : KinS s (execPhaseLinks s) := by
  unfold execPhaseLinks
  try dsimp only
  with_reducible repeat'
    first
    | assumption | exact kinS_fault | exact Kin.refl _ | apply onDev_kin | apply fromPhase_kin | apply enterPhase_kin
    | apply forEach_kin | apply updPort_kin | apply enterTrain_kin | apply raiseTrap_kin | split | intro _
    | (apply kin_other; first | assumption | exact kinS_fault | exact Kin.refl _ | apply onDev_kin | apply fromPhase_kin | apply enterPhase_kin | apply forEach_kin | apply updPort_kin | apply enterTrain_kin | apply raiseTrap_kin)
    | (apply kin_other; apply kin_other; first | assumption | exact kinS_fault | exact Kin.refl _ | apply onDev_kin | apply fromPhase_kin | apply enterPhase_kin | apply forEach_kin | apply updPort_kin | apply enterTrain_kin | apply raiseTrap_kin)
    | (apply kin_mk <;> first | assumption | exact kinS_fault | exact Kin.refl _ | apply onDev_kin | apply fromPhase_kin | apply enterPhase_kin | apply forEach_kin | apply updPort_kin | apply enterTrain_kin | apply raiseTrap_kin | (intro w; first | exact w | exact wf_set _ _ w | exact wf_upd _ _ w | exact wf_del _ w | exact wf_keep _ w | exact wf_mapV _ w | exact wf_filter _ w | (simp; done) | (simpa using w) | (rw [length_listSet]; exact w)))

theorem execPhaseServe_kin {s : State}  : KinS s (execPhaseServe s) := by
  unfold execPhaseServe
  try dsimp only
  with_reducible repeat'
    first
    | assumption | exact kinS_fault | exact Kin.refl _ | apply onLinks_kin | apply fromPhase_kin | apply closePool_kin
    | apply enterPhase_kin | apply updPower_kin | apply raiseTrap_kin | apply cableCheck_kin | split | intro _
    | (apply kin_other; first | assumption | exact kinS_fault | exact Kin.refl _ | apply onLinks_kin | apply fromPhase_kin | apply closePool_kin | apply enterPhase_kin | apply updPower_kin | apply raiseTrap_kin | apply cableCheck_kin)
    | (apply kin_other; apply kin_other; first | assumption | exact kinS_fault | exact Kin.refl _ | apply onLinks_kin | apply fromPhase_kin | apply closePool_kin | apply enterPhase_kin | apply updPower_kin | apply raiseTrap_kin | apply cableCheck_kin)
    | (apply kin_mk <;> first | assumption | exact kinS_fault | exact Kin.refl _ | apply onLinks_kin | apply fromPhase_kin | apply closePool_kin | apply enterPhase_kin | apply updPower_kin | apply raiseTrap_kin | apply cableCheck_kin | (intro w; first | exact w | exact wf_set _ _ w | exact wf_upd _ _ w | exact wf_del _ w | exact wf_keep _ w | exact wf_mapV _ w | exact wf_filter _ w | (simp; done) | (simpa using w) | (rw [length_listSet]; exact w)))

theorem execPhaseBypass_kin {s : State}  : KinS s (execPhaseBypass s) := by
  unfold execPhaseBypass
  try dsimp only
  with_reducible repeat'
    first
    | assumption | exact kinS_fault | exact Kin.refl _ | apply onDev_kin | apply fromPhase_kin | apply enterPhase_kin | split
    | intro _

theorem execPhaseReady_kin {s : State}  : KinS s (execPhaseReady s) := by
  unfold execPhaseReady
  try dsimp only
  with_reducible repeat'
    first
    | assumption | exact kinS_fault | exact Kin.refl _ | apply onDev_kin | apply fromPhase_kin | apply claimGroup_kin
    | apply enterPhase_kin | split | intro _

theorem dropCpuBufs_kin {a0 : Dev} {d : Dev} {cpu : Nat} (hK : Kin a0 d) : Kin a0 (dropCpuBufs d cpu) := by
  unfold dropCpuBufs
  try dsimp only
  with_reducible repeat' first | assumption | apply forEach_kin | apply poolFreeBuf_kin | intro _

theorem forgetCmd_kin {a0 : Dev} {d : Dev} {w : Waiting} (hK : Kin a0 d) : Kin a0 (forgetCmd d w) := by
  unfold forgetCmd
  try dsimp only
  with_reducible repeat'
    first
    | assumption | apply updMgmt_kin | apply updSession_kin | apply poolReleaseOpt_kin | intro _
    | (apply kin_other; first | assumption | apply updMgmt_kin | apply updSession_kin | apply poolReleaseOpt_kin)
    | (apply kin_other; apply kin_other; first | assumption | apply updMgmt_kin | apply updSession_kin | apply poolReleaseOpt_kin)
    | (apply kin_mk <;> first | assumption | apply updMgmt_kin | apply updSession_kin | apply poolReleaseOpt_kin | (intro w; first | exact w | exact wf_set _ _ w | exact wf_upd _ _ w | exact wf_del _ w | exact wf_keep _ w | exact wf_mapV _ w | exact wf_filter _ w | (simp; done) | (simpa using w) | (rw [length_listSet]; exact w)))

theorem interruptCmds_kin {a0 : Dev} {d : Dev} (hK : Kin a0 d) : Kin a0 (interruptCmds d) := by
  unfold interruptCmds
  try dsimp only
  with_reducible repeat'
    first
    | assumption | apply updMgmt_kin | apply forEach_kin | apply drawFree_kin | apply forgetCmd_kin | split
    | apply kin_fst (by assumption) | apply kin_snd (by assumption) | intro _
    | (apply kin_other; first | assumption | apply updMgmt_kin | apply forEach_kin | apply drawFree_kin | apply forgetCmd_kin)
    | (apply kin_other; apply kin_other; first | assumption | apply updMgmt_kin | apply forEach_kin | apply drawFree_kin | apply forgetCmd_kin)
    | (apply kin_mk <;> first | assumption | apply updMgmt_kin | apply forEach_kin | apply drawFree_kin | apply forgetCmd_kin | (intro w; first | exact w | exact wf_set _ _ w | exact wf_upd _ _ w | exact wf_del _ w | exact wf_keep _ w | exact wf_mapV _ w | exact wf_filter _ w | (simp; done) | (simpa using w) | (rw [length_listSet]; exact w)))

theorem cpuFails_kin {a0 : Dev} {d : Dev} {cpu : Nat} (hK : Kin a0 d) : Kin a0 (cpuFails d cpu) := by
  unfold cpuFails
  try dsimp only
  with_reducible repeat'
    first
    | assumption | apply dropCpuBufs_kin | apply updStart_kin | apply interruptCmds_kin | apply takeover_kin
    | apply drawFree_kin | apply raiseTrap_kin | apply bump_kin | split | apply kin_fst (by assumption)
    | apply kin_snd (by assumption) | intro _
    | (apply kin_other; first | assumption | apply dropCpuBufs_kin | apply updStart_kin | apply interruptCmds_kin | apply takeover_kin | apply drawFree_kin | apply raiseTrap_kin | apply bump_kin)
    | (apply kin_other; apply kin_other; first | assumption | apply dropCpuBufs_kin | apply updStart_kin | apply interruptCmds_kin | apply takeover_kin | apply drawFree_kin | apply raiseTrap_kin | apply bump_kin)
    | (apply kin_mk <;> first | assumption | apply dropCpuBufs_kin | apply updStart_kin | apply interruptCmds_kin | apply takeover_kin | apply drawFree_kin | apply raiseTrap_kin | apply bump_kin | (intro w; first | exact w | exact wf_set _ _ w | exact wf_upd _ _ w | exact wf_del _ w | exact wf_keep _ w | exact wf_mapV _ w | exact wf_filter _ w | (simp; done) | (simpa using w) | (rw [length_listSet]; exact w)))

theorem activeFails_kin {a0 : Dev} {d : Dev} (hK : Kin a0 d) : Kin a0 (activeFails d) := by
  unfold activeFails
  try dsimp only
  with_reducible repeat' first | assumption | apply cpuFails_kin | split | intro _

theorem execWatchdogExpiry_kin {s : State}  : KinS s (execWatchdogExpiry s) := by
  unfold execWatchdogExpiry
  try dsimp only
  with_reducible repeat'
    first
    | assumption | exact kinS_fault | exact Kin.refl _ | apply onDev_kin | apply activeFails_kin | intro _

theorem execProcessorFault_kin {s : State}  : KinS s (execProcessorFault s) := by
  unfold execProcessorFault
  try dsimp only
  with_reducible repeat'
    first
    | assumption | exact kinS_fault | exact Kin.refl _ | apply onDev_kin | apply activeFails_kin | intro _

theorem execTakeoverComplete_kin {s : State}  : KinS s (execTakeoverComplete s) := by
  unfold execTakeoverComplete
  try dsimp only
  with_reducible repeat'
    first
    | assumption | exact kinS_fault | exact Kin.refl _ | apply onDev_kin | apply updStart_kin | apply takeover_kin | intro _
    | (apply kin_other; first | assumption | exact kinS_fault | exact Kin.refl _ | apply onDev_kin | apply updStart_kin | apply takeover_kin)
    | (apply kin_other; apply kin_other; first | assumption | exact kinS_fault | exact Kin.refl _ | apply onDev_kin | apply updStart_kin | apply takeover_kin)
    | (apply kin_mk <;> first | assumption | exact kinS_fault | exact Kin.refl _ | apply onDev_kin | apply updStart_kin | apply takeover_kin | (intro w; first | exact w | exact wf_set _ _ w | exact wf_upd _ _ w | exact wf_del _ w | exact wf_keep _ w | exact wf_mapV _ w | exact wf_filter _ w | (simp; done) | (simpa using w) | (rw [length_listSet]; exact w)))

theorem domainLost_kin {a0 : Dev} {d : Dev} {n : Nat} (hK : Kin a0 d) : Kin a0 (domainLost d n) := by
  unfold domainLost
  try dsimp only
  with_reducible repeat'
    first
    | assumption | apply loseFace_kin | apply retireDie_kin | apply withdrawSelf_kin | apply resetModule_kin
    | apply updMgmt_kin | apply cpuFails_kin | split | intro _
    | (apply kin_other; first | assumption | apply loseFace_kin | apply retireDie_kin | apply withdrawSelf_kin | apply resetModule_kin | apply updMgmt_kin | apply cpuFails_kin)
    | (apply kin_other; apply kin_other; first | assumption | apply loseFace_kin | apply retireDie_kin | apply withdrawSelf_kin | apply resetModule_kin | apply updMgmt_kin | apply cpuFails_kin)
    | (apply kin_mk <;> first | assumption | apply loseFace_kin | apply retireDie_kin | apply withdrawSelf_kin | apply resetModule_kin | apply updMgmt_kin | apply cpuFails_kin | (intro w; first | exact w | exact wf_set _ _ w | exact wf_upd _ _ w | exact wf_del _ w | exact wf_keep _ w | exact wf_mapV _ w | exact wf_filter _ w | (simp; done) | (simpa using w) | (rw [length_listSet]; exact w)))

theorem execPllLockLoss_kin {domain : Nat} {s : State}  : KinS s (execPllLockLoss domain s) := by
  unfold execPllLockLoss
  try dsimp only
  with_reducible repeat'
    first
    | assumption | exact kinS_fault | exact Kin.refl _ | apply onLinks_kin | apply raiseTrap_kin | apply bump_kin
    | apply updClocks_kin | apply poolsSettle_kin | apply flushAll_kin | apply domainLost_kin | split | intro _
    | (apply kin_other; first | assumption | exact kinS_fault | exact Kin.refl _ | apply onLinks_kin | apply raiseTrap_kin | apply bump_kin | apply updClocks_kin | apply poolsSettle_kin | apply flushAll_kin | apply domainLost_kin)
    | (apply kin_other; apply kin_other; first | assumption | exact kinS_fault | exact Kin.refl _ | apply onLinks_kin | apply raiseTrap_kin | apply bump_kin | apply updClocks_kin | apply poolsSettle_kin | apply flushAll_kin | apply domainLost_kin)
    | (apply kin_mk <;> first | assumption | exact kinS_fault | exact Kin.refl _ | apply onLinks_kin | apply raiseTrap_kin | apply bump_kin | apply updClocks_kin | apply poolsSettle_kin | apply flushAll_kin | apply domainLost_kin | (intro w; first | exact w | exact wf_set _ _ w | exact wf_upd _ _ w | exact wf_del _ w | exact wf_keep _ w | exact wf_mapV _ w | exact wf_filter _ w | (simp; done) | (simpa using w) | (rw [length_listSet]; exact w)))

end Sys2Proof.Machine
end

