-- ==== Sys2Proof/Laws/KinIdle.lean ====
section
/-!
SUPPORT. Sys2Proof/Laws/KinIdle.lean: every operation of Idle.lean keeps time, identity and the form of the tables.
-/
namespace Sys2Proof.Machine
open SMap

theorem recompTick_kin {a0 : Dev} {d : Dev} (hK : Kin a0 d) : Kin a0 (recompTick d) := by
  unfold recompTick
  try dsimp only
  with_reducible repeat'
    first
    | assumption | apply poolsSettle_kin | apply updPar_kin | split | intro _
    | (apply kin_other; first | assumption | apply poolsSettle_kin | apply updPar_kin)
    | (apply kin_other; apply kin_other; first | assumption | apply poolsSettle_kin | apply updPar_kin)
    | (apply kin_mk <;> first | assumption | apply poolsSettle_kin | apply updPar_kin | (intro w; first | exact w | exact wf_set _ _ w | exact wf_upd _ _ w | exact wf_del _ w | exact wf_keep _ w | exact wf_mapV _ w | exact wf_filter _ w | (simp; done) | (simpa using w) | (rw [length_listSet]; exact w)))

theorem retireTick_kin {a0 : Dev} {d : Dev} (hK : Kin a0 d) : Kin a0 (retireTick d) := by
  unfold retireTick
  try dsimp only
  with_reducible repeat'
    first
    | assumption | apply poolsSettle_kin | apply flushAll_kin | apply forEach_kin | apply clearCtxs_kin | apply finishCmds_kin
    | split | intro _
    | (apply kin_other; first | assumption | apply poolsSettle_kin | apply flushAll_kin | apply forEach_kin | apply clearCtxs_kin | apply finishCmds_kin)
    | (apply kin_other; apply kin_other; first | assumption | apply poolsSettle_kin | apply flushAll_kin | apply forEach_kin | apply clearCtxs_kin | apply finishCmds_kin)
    | (apply kin_mk <;> first | assumption | apply poolsSettle_kin | apply flushAll_kin | apply forEach_kin | apply clearCtxs_kin | apply finishCmds_kin | (intro w; first | exact w | exact wf_set _ _ w | exact wf_upd _ _ w | exact wf_del _ w | exact wf_keep _ w | exact wf_mapV _ w | exact wf_filter _ w | (simp; done) | (simpa using w) | (rw [length_listSet]; exact w)))

end Sys2Proof.Machine
end

