-- ==== Sys2Proof/Laws/State.lean ====
section
/-!
SUPPORT. Sys2Proof/Laws/State.lean: what each update of the state leaves in each field, one lemma a field, so that no proof
unfolds an update.
-/
namespace Sys2Proof.Machine

set_option linter.all false

@[simp] theorem withDev_dev (s : State) (d : Dev) : (s.withDev d).dev = d := rfl
@[simp] theorem withDev_pending (s : State) (d : Dev) : (s.withDev d).pending = s.pending := rfl
@[simp] theorem withDev_withDev (s : State) (d e : Dev) : (s.withDev d).withDev e = s.withDev e := rfl
@[simp] theorem onDev_next (s : State) (f : Dev → Dev) : onDev s f = .next { s with dev := f s.dev } := rfl
@[simp] theorem onUnit_true (s : State) (f : Dev → Dev) : onUnit true s f = .next { s with dev := f s.dev } := rfl
@[simp] theorem onUnit_false (s : State) (f : Dev → Dev) : onUnit false s f = .fault .noSuchUnit := rfl

/-! setPort -/

@[simp] theorem setPort_nowUs (d : Dev) (p : Nat) (x : Port) : (setPort d p x).nowUs = d.nowUs := rfl
@[simp] theorem setPort_fac (d : Dev) (p : Nat) (x : Port) : (setPort d p x).fac = d.fac := rfl
@[simp] theorem setPort_start (d : Dev) (p : Nat) (x : Port) : (setPort d p x).start = d.start := rfl
@[simp] theorem setPort_spare (d : Dev) (p : Nat) (x : Port) : (setPort d p x).spare = d.spare := rfl
@[simp] theorem setPort_mems (d : Dev) (p : Nat) (x : Port) : (setPort d p x).mems = d.mems := rfl
@[simp] theorem setPort_flash (d : Dev) (p : Nat) (x : Port) : (setPort d p x).flash = d.flash := rfl
@[simp] theorem setPort_power (d : Dev) (p : Nat) (x : Port) : (setPort d p x).power = d.power := rfl
@[simp] theorem setPort_clocks (d : Dev) (p : Nat) (x : Port) : (setPort d p x).clocks = d.clocks := rfl
@[simp] theorem setPort_jobs (d : Dev) (p : Nat) (x : Port) : (setPort d p x).jobs = d.jobs := rfl
@[simp] theorem setPort_ctxs (d : Dev) (p : Nat) (x : Port) : (setPort d p x).ctxs = d.ctxs := rfl
@[simp] theorem setPort_left (d : Dev) (p : Nat) (x : Port) : (setPort d p x).left = d.left := rfl
@[simp] theorem setPort_maps (d : Dev) (p : Nat) (x : Port) : (setPort d p x).maps = d.maps := rfl
@[simp] theorem setPort_rules (d : Dev) (p : Nat) (x : Port) : (setPort d p x).rules = d.rules := rfl
@[simp] theorem setPort_scheds (d : Dev) (p : Nat) (x : Port) : (setPort d p x).scheds = d.scheds := rfl
@[simp] theorem setPort_syncs (d : Dev) (p : Nat) (x : Port) : (setPort d p x).syncs = d.syncs := rfl
@[simp] theorem setPort_fabric (d : Dev) (p : Nat) (x : Port) : (setPort d p x).fabric = d.fabric := rfl
@[simp] theorem setPort_pools (d : Dev) (p : Nat) (x : Port) : (setPort d p x).pools = d.pools := rfl
@[simp] theorem setPort_mgmt (d : Dev) (p : Nat) (x : Port) : (setPort d p x).mgmt = d.mgmt := rfl
@[simp] theorem setPort_parity (d : Dev) (p : Nat) (x : Port) : (setPort d p x).parity = d.parity := rfl
@[simp] theorem setPort_counters (d : Dev) (p : Nat) (x : Port) : (setPort d p x).counters = d.counters := rfl
@[simp] theorem setPort_arrived (d : Dev) (p : Nat) (x : Port) : (setPort d p x).arrived = d.arrived := rfl
@[simp] theorem setPort_policed (d : Dev) (p : Nat) (x : Port) : (setPort d p x).policed = d.policed := rfl
@[simp] theorem setPort_order (d : Dev) (p : Nat) (x : Port) : (setPort d p x).order = d.order := rfl
@[simp] theorem setPort_lastJob (d : Dev) (p : Nat) (x : Port) : (setPort d p x).lastJob = d.lastJob := rfl
@[simp] theorem setPort_freeCtr (d : Dev) (p : Nat) (x : Port) : (setPort d p x).freeCtr = d.freeCtr := rfl

/-! updPort -/

@[simp] theorem updPort_nowUs (d : Dev) (p : Nat) (f : Port → Port) : (updPort d p f).nowUs = d.nowUs := rfl
@[simp] theorem updPort_fac (d : Dev) (p : Nat) (f : Port → Port) : (updPort d p f).fac = d.fac := rfl
@[simp] theorem updPort_start (d : Dev) (p : Nat) (f : Port → Port) : (updPort d p f).start = d.start := rfl
@[simp] theorem updPort_spare (d : Dev) (p : Nat) (f : Port → Port) : (updPort d p f).spare = d.spare := rfl
@[simp] theorem updPort_mems (d : Dev) (p : Nat) (f : Port → Port) : (updPort d p f).mems = d.mems := rfl
@[simp] theorem updPort_flash (d : Dev) (p : Nat) (f : Port → Port) : (updPort d p f).flash = d.flash := rfl
@[simp] theorem updPort_power (d : Dev) (p : Nat) (f : Port → Port) : (updPort d p f).power = d.power := rfl
@[simp] theorem updPort_clocks (d : Dev) (p : Nat) (f : Port → Port) : (updPort d p f).clocks = d.clocks := rfl
@[simp] theorem updPort_jobs (d : Dev) (p : Nat) (f : Port → Port) : (updPort d p f).jobs = d.jobs := rfl
@[simp] theorem updPort_ctxs (d : Dev) (p : Nat) (f : Port → Port) : (updPort d p f).ctxs = d.ctxs := rfl
@[simp] theorem updPort_left (d : Dev) (p : Nat) (f : Port → Port) : (updPort d p f).left = d.left := rfl
@[simp] theorem updPort_maps (d : Dev) (p : Nat) (f : Port → Port) : (updPort d p f).maps = d.maps := rfl
@[simp] theorem updPort_rules (d : Dev) (p : Nat) (f : Port → Port) : (updPort d p f).rules = d.rules := rfl
@[simp] theorem updPort_scheds (d : Dev) (p : Nat) (f : Port → Port) : (updPort d p f).scheds = d.scheds := rfl
@[simp] theorem updPort_syncs (d : Dev) (p : Nat) (f : Port → Port) : (updPort d p f).syncs = d.syncs := rfl
@[simp] theorem updPort_fabric (d : Dev) (p : Nat) (f : Port → Port) : (updPort d p f).fabric = d.fabric := rfl
@[simp] theorem updPort_pools (d : Dev) (p : Nat) (f : Port → Port) : (updPort d p f).pools = d.pools := rfl
@[simp] theorem updPort_mgmt (d : Dev) (p : Nat) (f : Port → Port) : (updPort d p f).mgmt = d.mgmt := rfl
@[simp] theorem updPort_parity (d : Dev) (p : Nat) (f : Port → Port) : (updPort d p f).parity = d.parity := rfl
@[simp] theorem updPort_counters (d : Dev) (p : Nat) (f : Port → Port) : (updPort d p f).counters = d.counters := rfl
@[simp] theorem updPort_arrived (d : Dev) (p : Nat) (f : Port → Port) : (updPort d p f).arrived = d.arrived := rfl
@[simp] theorem updPort_policed (d : Dev) (p : Nat) (f : Port → Port) : (updPort d p f).policed = d.policed := rfl
@[simp] theorem updPort_order (d : Dev) (p : Nat) (f : Port → Port) : (updPort d p f).order = d.order := rfl
@[simp] theorem updPort_lastJob (d : Dev) (p : Nat) (f : Port → Port) : (updPort d p f).lastJob = d.lastJob := rfl
@[simp] theorem updPort_freeCtr (d : Dev) (p : Nat) (f : Port → Port) : (updPort d p f).freeCtr = d.freeCtr := rfl

/-! setJob -/

@[simp] theorem setJob_nowUs (d : Dev) (j : Nat) (x : Job) : (setJob d j x).nowUs = d.nowUs := rfl
@[simp] theorem setJob_fac (d : Dev) (j : Nat) (x : Job) : (setJob d j x).fac = d.fac := rfl
@[simp] theorem setJob_start (d : Dev) (j : Nat) (x : Job) : (setJob d j x).start = d.start := rfl
@[simp] theorem setJob_spare (d : Dev) (j : Nat) (x : Job) : (setJob d j x).spare = d.spare := rfl
@[simp] theorem setJob_mems (d : Dev) (j : Nat) (x : Job) : (setJob d j x).mems = d.mems := rfl
@[simp] theorem setJob_flash (d : Dev) (j : Nat) (x : Job) : (setJob d j x).flash = d.flash := rfl
@[simp] theorem setJob_power (d : Dev) (j : Nat) (x : Job) : (setJob d j x).power = d.power := rfl
@[simp] theorem setJob_clocks (d : Dev) (j : Nat) (x : Job) : (setJob d j x).clocks = d.clocks := rfl
@[simp] theorem setJob_ctxs (d : Dev) (j : Nat) (x : Job) : (setJob d j x).ctxs = d.ctxs := rfl
@[simp] theorem setJob_left (d : Dev) (j : Nat) (x : Job) : (setJob d j x).left = d.left := rfl
@[simp] theorem setJob_maps (d : Dev) (j : Nat) (x : Job) : (setJob d j x).maps = d.maps := rfl
@[simp] theorem setJob_rules (d : Dev) (j : Nat) (x : Job) : (setJob d j x).rules = d.rules := rfl
@[simp] theorem setJob_scheds (d : Dev) (j : Nat) (x : Job) : (setJob d j x).scheds = d.scheds := rfl
@[simp] theorem setJob_syncs (d : Dev) (j : Nat) (x : Job) : (setJob d j x).syncs = d.syncs := rfl
@[simp] theorem setJob_ports (d : Dev) (j : Nat) (x : Job) : (setJob d j x).ports = d.ports := rfl
@[simp] theorem setJob_fabric (d : Dev) (j : Nat) (x : Job) : (setJob d j x).fabric = d.fabric := rfl
@[simp] theorem setJob_pools (d : Dev) (j : Nat) (x : Job) : (setJob d j x).pools = d.pools := rfl
@[simp] theorem setJob_mgmt (d : Dev) (j : Nat) (x : Job) : (setJob d j x).mgmt = d.mgmt := rfl
@[simp] theorem setJob_parity (d : Dev) (j : Nat) (x : Job) : (setJob d j x).parity = d.parity := rfl
@[simp] theorem setJob_counters (d : Dev) (j : Nat) (x : Job) : (setJob d j x).counters = d.counters := rfl
@[simp] theorem setJob_arrived (d : Dev) (j : Nat) (x : Job) : (setJob d j x).arrived = d.arrived := rfl
@[simp] theorem setJob_policed (d : Dev) (j : Nat) (x : Job) : (setJob d j x).policed = d.policed := rfl
@[simp] theorem setJob_order (d : Dev) (j : Nat) (x : Job) : (setJob d j x).order = d.order := rfl
@[simp] theorem setJob_lastJob (d : Dev) (j : Nat) (x : Job) : (setJob d j x).lastJob = d.lastJob := rfl
@[simp] theorem setJob_freeCtr (d : Dev) (j : Nat) (x : Job) : (setJob d j x).freeCtr = d.freeCtr := rfl

/-! updJob -/

@[simp] theorem updJob_nowUs (d : Dev) (j : Nat) (f : Job → Job) : (updJob d j f).nowUs = d.nowUs := rfl
@[simp] theorem updJob_fac (d : Dev) (j : Nat) (f : Job → Job) : (updJob d j f).fac = d.fac := rfl
@[simp] theorem updJob_start (d : Dev) (j : Nat) (f : Job → Job) : (updJob d j f).start = d.start := rfl
@[simp] theorem updJob_spare (d : Dev) (j : Nat) (f : Job → Job) : (updJob d j f).spare = d.spare := rfl
@[simp] theorem updJob_mems (d : Dev) (j : Nat) (f : Job → Job) : (updJob d j f).mems = d.mems := rfl
@[simp] theorem updJob_flash (d : Dev) (j : Nat) (f : Job → Job) : (updJob d j f).flash = d.flash := rfl
@[simp] theorem updJob_power (d : Dev) (j : Nat) (f : Job → Job) : (updJob d j f).power = d.power := rfl
@[simp] theorem updJob_clocks (d : Dev) (j : Nat) (f : Job → Job) : (updJob d j f).clocks = d.clocks := rfl
@[simp] theorem updJob_ctxs (d : Dev) (j : Nat) (f : Job → Job) : (updJob d j f).ctxs = d.ctxs := rfl
@[simp] theorem updJob_left (d : Dev) (j : Nat) (f : Job → Job) : (updJob d j f).left = d.left := rfl
@[simp] theorem updJob_maps (d : Dev) (j : Nat) (f : Job → Job) : (updJob d j f).maps = d.maps := rfl
@[simp] theorem updJob_rules (d : Dev) (j : Nat) (f : Job → Job) : (updJob d j f).rules = d.rules := rfl
@[simp] theorem updJob_scheds (d : Dev) (j : Nat) (f : Job → Job) : (updJob d j f).scheds = d.scheds := rfl
@[simp] theorem updJob_syncs (d : Dev) (j : Nat) (f : Job → Job) : (updJob d j f).syncs = d.syncs := rfl
@[simp] theorem updJob_ports (d : Dev) (j : Nat) (f : Job → Job) : (updJob d j f).ports = d.ports := rfl
@[simp] theorem updJob_fabric (d : Dev) (j : Nat) (f : Job → Job) : (updJob d j f).fabric = d.fabric := rfl
@[simp] theorem updJob_pools (d : Dev) (j : Nat) (f : Job → Job) : (updJob d j f).pools = d.pools := rfl
@[simp] theorem updJob_mgmt (d : Dev) (j : Nat) (f : Job → Job) : (updJob d j f).mgmt = d.mgmt := rfl
@[simp] theorem updJob_parity (d : Dev) (j : Nat) (f : Job → Job) : (updJob d j f).parity = d.parity := rfl
@[simp] theorem updJob_counters (d : Dev) (j : Nat) (f : Job → Job) : (updJob d j f).counters = d.counters := rfl
@[simp] theorem updJob_arrived (d : Dev) (j : Nat) (f : Job → Job) : (updJob d j f).arrived = d.arrived := rfl
@[simp] theorem updJob_policed (d : Dev) (j : Nat) (f : Job → Job) : (updJob d j f).policed = d.policed := rfl
@[simp] theorem updJob_order (d : Dev) (j : Nat) (f : Job → Job) : (updJob d j f).order = d.order := rfl
@[simp] theorem updJob_lastJob (d : Dev) (j : Nat) (f : Job → Job) : (updJob d j f).lastJob = d.lastJob := rfl
@[simp] theorem updJob_freeCtr (d : Dev) (j : Nat) (f : Job → Job) : (updJob d j f).freeCtr = d.freeCtr := rfl

/-! updMgmt -/

@[simp] theorem updMgmt_nowUs (d : Dev) (f : Mgmt → Mgmt) : (updMgmt d f).nowUs = d.nowUs := rfl
@[simp] theorem updMgmt_fac (d : Dev) (f : Mgmt → Mgmt) : (updMgmt d f).fac = d.fac := rfl
@[simp] theorem updMgmt_start (d : Dev) (f : Mgmt → Mgmt) : (updMgmt d f).start = d.start := rfl
@[simp] theorem updMgmt_spare (d : Dev) (f : Mgmt → Mgmt) : (updMgmt d f).spare = d.spare := rfl
@[simp] theorem updMgmt_mems (d : Dev) (f : Mgmt → Mgmt) : (updMgmt d f).mems = d.mems := rfl
@[simp] theorem updMgmt_flash (d : Dev) (f : Mgmt → Mgmt) : (updMgmt d f).flash = d.flash := rfl
@[simp] theorem updMgmt_power (d : Dev) (f : Mgmt → Mgmt) : (updMgmt d f).power = d.power := rfl
@[simp] theorem updMgmt_clocks (d : Dev) (f : Mgmt → Mgmt) : (updMgmt d f).clocks = d.clocks := rfl
@[simp] theorem updMgmt_jobs (d : Dev) (f : Mgmt → Mgmt) : (updMgmt d f).jobs = d.jobs := rfl
@[simp] theorem updMgmt_ctxs (d : Dev) (f : Mgmt → Mgmt) : (updMgmt d f).ctxs = d.ctxs := rfl
@[simp] theorem updMgmt_left (d : Dev) (f : Mgmt → Mgmt) : (updMgmt d f).left = d.left := rfl
@[simp] theorem updMgmt_maps (d : Dev) (f : Mgmt → Mgmt) : (updMgmt d f).maps = d.maps := rfl
@[simp] theorem updMgmt_rules (d : Dev) (f : Mgmt → Mgmt) : (updMgmt d f).rules = d.rules := rfl
@[simp] theorem updMgmt_scheds (d : Dev) (f : Mgmt → Mgmt) : (updMgmt d f).scheds = d.scheds := rfl
@[simp] theorem updMgmt_syncs (d : Dev) (f : Mgmt → Mgmt) : (updMgmt d f).syncs = d.syncs := rfl
@[simp] theorem updMgmt_ports (d : Dev) (f : Mgmt → Mgmt) : (updMgmt d f).ports = d.ports := rfl
@[simp] theorem updMgmt_fabric (d : Dev) (f : Mgmt → Mgmt) : (updMgmt d f).fabric = d.fabric := rfl
@[simp] theorem updMgmt_pools (d : Dev) (f : Mgmt → Mgmt) : (updMgmt d f).pools = d.pools := rfl
@[simp] theorem updMgmt_parity (d : Dev) (f : Mgmt → Mgmt) : (updMgmt d f).parity = d.parity := rfl
@[simp] theorem updMgmt_counters (d : Dev) (f : Mgmt → Mgmt) : (updMgmt d f).counters = d.counters := rfl
@[simp] theorem updMgmt_arrived (d : Dev) (f : Mgmt → Mgmt) : (updMgmt d f).arrived = d.arrived := rfl
@[simp] theorem updMgmt_policed (d : Dev) (f : Mgmt → Mgmt) : (updMgmt d f).policed = d.policed := rfl
@[simp] theorem updMgmt_order (d : Dev) (f : Mgmt → Mgmt) : (updMgmt d f).order = d.order := rfl
@[simp] theorem updMgmt_lastJob (d : Dev) (f : Mgmt → Mgmt) : (updMgmt d f).lastJob = d.lastJob := rfl
@[simp] theorem updMgmt_freeCtr (d : Dev) (f : Mgmt → Mgmt) : (updMgmt d f).freeCtr = d.freeCtr := rfl

/-! output -/

@[simp] theorem output_nowUs (d : Dev) (o : Out) : (output d o).nowUs = d.nowUs := rfl
@[simp] theorem output_fac (d : Dev) (o : Out) : (output d o).fac = d.fac := rfl
@[simp] theorem output_start (d : Dev) (o : Out) : (output d o).start = d.start := rfl
@[simp] theorem output_spare (d : Dev) (o : Out) : (output d o).spare = d.spare := rfl
@[simp] theorem output_mems (d : Dev) (o : Out) : (output d o).mems = d.mems := rfl
@[simp] theorem output_flash (d : Dev) (o : Out) : (output d o).flash = d.flash := rfl
@[simp] theorem output_power (d : Dev) (o : Out) : (output d o).power = d.power := rfl
@[simp] theorem output_clocks (d : Dev) (o : Out) : (output d o).clocks = d.clocks := rfl
@[simp] theorem output_jobs (d : Dev) (o : Out) : (output d o).jobs = d.jobs := rfl
@[simp] theorem output_ctxs (d : Dev) (o : Out) : (output d o).ctxs = d.ctxs := rfl
@[simp] theorem output_left (d : Dev) (o : Out) : (output d o).left = d.left := rfl
@[simp] theorem output_maps (d : Dev) (o : Out) : (output d o).maps = d.maps := rfl
@[simp] theorem output_rules (d : Dev) (o : Out) : (output d o).rules = d.rules := rfl
@[simp] theorem output_scheds (d : Dev) (o : Out) : (output d o).scheds = d.scheds := rfl
@[simp] theorem output_syncs (d : Dev) (o : Out) : (output d o).syncs = d.syncs := rfl
@[simp] theorem output_ports (d : Dev) (o : Out) : (output d o).ports = d.ports := rfl
@[simp] theorem output_fabric (d : Dev) (o : Out) : (output d o).fabric = d.fabric := rfl
@[simp] theorem output_pools (d : Dev) (o : Out) : (output d o).pools = d.pools := rfl
@[simp] theorem output_parity (d : Dev) (o : Out) : (output d o).parity = d.parity := rfl
@[simp] theorem output_counters (d : Dev) (o : Out) : (output d o).counters = d.counters := rfl
@[simp] theorem output_arrived (d : Dev) (o : Out) : (output d o).arrived = d.arrived := rfl
@[simp] theorem output_policed (d : Dev) (o : Out) : (output d o).policed = d.policed := rfl
@[simp] theorem output_order (d : Dev) (o : Out) : (output d o).order = d.order := rfl
@[simp] theorem output_lastJob (d : Dev) (o : Out) : (output d o).lastJob = d.lastJob := rfl
@[simp] theorem output_freeCtr (d : Dev) (o : Out) : (output d o).freeCtr = d.freeCtr := rfl

/-! takeArrived -/

@[simp] theorem takeArrived_nowUs (d : Dev) (k : PktRx) : (takeArrived d k).nowUs = d.nowUs := rfl
@[simp] theorem takeArrived_fac (d : Dev) (k : PktRx) : (takeArrived d k).fac = d.fac := rfl
@[simp] theorem takeArrived_start (d : Dev) (k : PktRx) : (takeArrived d k).start = d.start := rfl
@[simp] theorem takeArrived_spare (d : Dev) (k : PktRx) : (takeArrived d k).spare = d.spare := rfl
@[simp] theorem takeArrived_mems (d : Dev) (k : PktRx) : (takeArrived d k).mems = d.mems := rfl
@[simp] theorem takeArrived_flash (d : Dev) (k : PktRx) : (takeArrived d k).flash = d.flash := rfl
@[simp] theorem takeArrived_power (d : Dev) (k : PktRx) : (takeArrived d k).power = d.power := rfl
@[simp] theorem takeArrived_clocks (d : Dev) (k : PktRx) : (takeArrived d k).clocks = d.clocks := rfl
@[simp] theorem takeArrived_jobs (d : Dev) (k : PktRx) : (takeArrived d k).jobs = d.jobs := rfl
@[simp] theorem takeArrived_ctxs (d : Dev) (k : PktRx) : (takeArrived d k).ctxs = d.ctxs := rfl
@[simp] theorem takeArrived_left (d : Dev) (k : PktRx) : (takeArrived d k).left = d.left := rfl
@[simp] theorem takeArrived_maps (d : Dev) (k : PktRx) : (takeArrived d k).maps = d.maps := rfl
@[simp] theorem takeArrived_rules (d : Dev) (k : PktRx) : (takeArrived d k).rules = d.rules := rfl
@[simp] theorem takeArrived_scheds (d : Dev) (k : PktRx) : (takeArrived d k).scheds = d.scheds := rfl
@[simp] theorem takeArrived_syncs (d : Dev) (k : PktRx) : (takeArrived d k).syncs = d.syncs := rfl
@[simp] theorem takeArrived_ports (d : Dev) (k : PktRx) : (takeArrived d k).ports = d.ports := rfl
@[simp] theorem takeArrived_fabric (d : Dev) (k : PktRx) : (takeArrived d k).fabric = d.fabric := rfl
@[simp] theorem takeArrived_pools (d : Dev) (k : PktRx) : (takeArrived d k).pools = d.pools := rfl
@[simp] theorem takeArrived_mgmt (d : Dev) (k : PktRx) : (takeArrived d k).mgmt = d.mgmt := rfl
@[simp] theorem takeArrived_parity (d : Dev) (k : PktRx) : (takeArrived d k).parity = d.parity := rfl
@[simp] theorem takeArrived_counters (d : Dev) (k : PktRx) : (takeArrived d k).counters = d.counters := rfl
@[simp] theorem takeArrived_policed (d : Dev) (k : PktRx) : (takeArrived d k).policed = d.policed := rfl
@[simp] theorem takeArrived_order (d : Dev) (k : PktRx) : (takeArrived d k).order = d.order := rfl
@[simp] theorem takeArrived_lastJob (d : Dev) (k : PktRx) : (takeArrived d k).lastJob = d.lastJob := rfl
@[simp] theorem takeArrived_freeCtr (d : Dev) (k : PktRx) : (takeArrived d k).freeCtr = d.freeCtr := rfl

/-! drawFree -/

@[simp] theorem drawFree_word (d : Dev) : (drawFree d).1 = Config.freeWord d.freeCtr := rfl
@[simp] theorem drawFree_freeCtr (d : Dev) : (drawFree d).2.freeCtr = d.freeCtr + 1 := rfl
@[simp] theorem drawFree_nowUs (d : Dev) : (drawFree d).2.nowUs = d.nowUs := rfl
@[simp] theorem drawFree_fac (d : Dev) : (drawFree d).2.fac = d.fac := rfl
@[simp] theorem drawFree_start (d : Dev) : (drawFree d).2.start = d.start := rfl
@[simp] theorem drawFree_spare (d : Dev) : (drawFree d).2.spare = d.spare := rfl
@[simp] theorem drawFree_mems (d : Dev) : (drawFree d).2.mems = d.mems := rfl
@[simp] theorem drawFree_flash (d : Dev) : (drawFree d).2.flash = d.flash := rfl
@[simp] theorem drawFree_power (d : Dev) : (drawFree d).2.power = d.power := rfl
@[simp] theorem drawFree_clocks (d : Dev) : (drawFree d).2.clocks = d.clocks := rfl
@[simp] theorem drawFree_jobs (d : Dev) : (drawFree d).2.jobs = d.jobs := rfl
@[simp] theorem drawFree_ctxs (d : Dev) : (drawFree d).2.ctxs = d.ctxs := rfl
@[simp] theorem drawFree_left (d : Dev) : (drawFree d).2.left = d.left := rfl
@[simp] theorem drawFree_maps (d : Dev) : (drawFree d).2.maps = d.maps := rfl
@[simp] theorem drawFree_rules (d : Dev) : (drawFree d).2.rules = d.rules := rfl
@[simp] theorem drawFree_scheds (d : Dev) : (drawFree d).2.scheds = d.scheds := rfl
@[simp] theorem drawFree_syncs (d : Dev) : (drawFree d).2.syncs = d.syncs := rfl
@[simp] theorem drawFree_ports (d : Dev) : (drawFree d).2.ports = d.ports := rfl
@[simp] theorem drawFree_fabric (d : Dev) : (drawFree d).2.fabric = d.fabric := rfl
@[simp] theorem drawFree_pools (d : Dev) : (drawFree d).2.pools = d.pools := rfl
@[simp] theorem drawFree_mgmt (d : Dev) : (drawFree d).2.mgmt = d.mgmt := rfl
@[simp] theorem drawFree_parity (d : Dev) : (drawFree d).2.parity = d.parity := rfl
@[simp] theorem drawFree_counters (d : Dev) : (drawFree d).2.counters = d.counters := rfl
@[simp] theorem drawFree_arrived (d : Dev) : (drawFree d).2.arrived = d.arrived := rfl
@[simp] theorem drawFree_policed (d : Dev) : (drawFree d).2.policed = d.policed := rfl
@[simp] theorem drawFree_order (d : Dev) : (drawFree d).2.order = d.order := rfl
@[simp] theorem drawFree_lastJob (d : Dev) : (drawFree d).2.lastJob = d.lastJob := rfl

/-! setCtx -/

@[simp] theorem setCtx_nowUs (d : Dev) (c : Nat) (x : Ctx) : (setCtx d c x).nowUs = d.nowUs := by unfold setCtx; split <;> rfl
@[simp] theorem setCtx_fac (d : Dev) (c : Nat) (x : Ctx) : (setCtx d c x).fac = d.fac := by unfold setCtx; split <;> rfl
@[simp] theorem setCtx_start (d : Dev) (c : Nat) (x : Ctx) : (setCtx d c x).start = d.start := by unfold setCtx; split <;> rfl
@[simp] theorem setCtx_spare (d : Dev) (c : Nat) (x : Ctx) : (setCtx d c x).spare = d.spare := by unfold setCtx; split <;> rfl
@[simp] theorem setCtx_mems (d : Dev) (c : Nat) (x : Ctx) : (setCtx d c x).mems = d.mems := by unfold setCtx; split <;> rfl
@[simp] theorem setCtx_flash (d : Dev) (c : Nat) (x : Ctx) : (setCtx d c x).flash = d.flash := by unfold setCtx; split <;> rfl
@[simp] theorem setCtx_power (d : Dev) (c : Nat) (x : Ctx) : (setCtx d c x).power = d.power := by unfold setCtx; split <;> rfl
@[simp] theorem setCtx_clocks (d : Dev) (c : Nat) (x : Ctx) : (setCtx d c x).clocks = d.clocks := by unfold setCtx; split <;> rfl
@[simp] theorem setCtx_jobs (d : Dev) (c : Nat) (x : Ctx) : (setCtx d c x).jobs = d.jobs := by unfold setCtx; split <;> rfl
@[simp] theorem setCtx_maps (d : Dev) (c : Nat) (x : Ctx) : (setCtx d c x).maps = d.maps := by unfold setCtx; split <;> rfl
@[simp] theorem setCtx_rules (d : Dev) (c : Nat) (x : Ctx) : (setCtx d c x).rules = d.rules := by unfold setCtx; split <;> rfl
@[simp] theorem setCtx_scheds (d : Dev) (c : Nat) (x : Ctx) : (setCtx d c x).scheds = d.scheds := by unfold setCtx; split <;> rfl
@[simp] theorem setCtx_syncs (d : Dev) (c : Nat) (x : Ctx) : (setCtx d c x).syncs = d.syncs := by unfold setCtx; split <;> rfl
@[simp] theorem setCtx_ports (d : Dev) (c : Nat) (x : Ctx) : (setCtx d c x).ports = d.ports := by unfold setCtx; split <;> rfl
@[simp] theorem setCtx_fabric (d : Dev) (c : Nat) (x : Ctx) : (setCtx d c x).fabric = d.fabric := by unfold setCtx; split <;> rfl
@[simp] theorem setCtx_pools (d : Dev) (c : Nat) (x : Ctx) : (setCtx d c x).pools = d.pools := by unfold setCtx; split <;> rfl
@[simp] theorem setCtx_mgmt (d : Dev) (c : Nat) (x : Ctx) : (setCtx d c x).mgmt = d.mgmt := by unfold setCtx; split <;> rfl
@[simp] theorem setCtx_parity (d : Dev) (c : Nat) (x : Ctx) : (setCtx d c x).parity = d.parity := by unfold setCtx; split <;> rfl
@[simp] theorem setCtx_counters (d : Dev) (c : Nat) (x : Ctx) : (setCtx d c x).counters = d.counters := by unfold setCtx; split <;> rfl
@[simp] theorem setCtx_arrived (d : Dev) (c : Nat) (x : Ctx) : (setCtx d c x).arrived = d.arrived := by unfold setCtx; split <;> rfl
@[simp] theorem setCtx_policed (d : Dev) (c : Nat) (x : Ctx) : (setCtx d c x).policed = d.policed := by unfold setCtx; split <;> rfl
@[simp] theorem setCtx_order (d : Dev) (c : Nat) (x : Ctx) : (setCtx d c x).order = d.order := by unfold setCtx; split <;> rfl
@[simp] theorem setCtx_lastJob (d : Dev) (c : Nat) (x : Ctx) : (setCtx d c x).lastJob = d.lastJob := by unfold setCtx; split <;> rfl
@[simp] theorem setCtx_freeCtr (d : Dev) (c : Nat) (x : Ctx) : (setCtx d c x).freeCtr = d.freeCtr := by unfold setCtx; split <;> rfl

/-! the counters -/

@[simp] theorem bumpBy_nowUs (d : Dev) (c : Ctr) (i n : Nat) : (bumpBy d c i n).nowUs = d.nowUs := rfl
@[simp] theorem bumpBy_fac (d : Dev) (c : Ctr) (i n : Nat) : (bumpBy d c i n).fac = d.fac := rfl
@[simp] theorem bumpBy_start (d : Dev) (c : Ctr) (i n : Nat) : (bumpBy d c i n).start = d.start := rfl
@[simp] theorem bumpBy_spare (d : Dev) (c : Ctr) (i n : Nat) : (bumpBy d c i n).spare = d.spare := rfl
@[simp] theorem bumpBy_mems (d : Dev) (c : Ctr) (i n : Nat) : (bumpBy d c i n).mems = d.mems := rfl
@[simp] theorem bumpBy_flash (d : Dev) (c : Ctr) (i n : Nat) : (bumpBy d c i n).flash = d.flash := rfl
@[simp] theorem bumpBy_power (d : Dev) (c : Ctr) (i n : Nat) : (bumpBy d c i n).power = d.power := rfl
@[simp] theorem bumpBy_clocks (d : Dev) (c : Ctr) (i n : Nat) : (bumpBy d c i n).clocks = d.clocks := rfl
@[simp] theorem bumpBy_jobs (d : Dev) (c : Ctr) (i n : Nat) : (bumpBy d c i n).jobs = d.jobs := rfl
@[simp] theorem bumpBy_ctxs (d : Dev) (c : Ctr) (i n : Nat) : (bumpBy d c i n).ctxs = d.ctxs := rfl
@[simp] theorem bumpBy_left (d : Dev) (c : Ctr) (i n : Nat) : (bumpBy d c i n).left = d.left := rfl
@[simp] theorem bumpBy_maps (d : Dev) (c : Ctr) (i n : Nat) : (bumpBy d c i n).maps = d.maps := rfl
@[simp] theorem bumpBy_rules (d : Dev) (c : Ctr) (i n : Nat) : (bumpBy d c i n).rules = d.rules := rfl
@[simp] theorem bumpBy_scheds (d : Dev) (c : Ctr) (i n : Nat) : (bumpBy d c i n).scheds = d.scheds := rfl
@[simp] theorem bumpBy_syncs (d : Dev) (c : Ctr) (i n : Nat) : (bumpBy d c i n).syncs = d.syncs := rfl
@[simp] theorem bumpBy_ports (d : Dev) (c : Ctr) (i n : Nat) : (bumpBy d c i n).ports = d.ports := rfl
@[simp] theorem bumpBy_fabric (d : Dev) (c : Ctr) (i n : Nat) : (bumpBy d c i n).fabric = d.fabric := rfl
@[simp] theorem bumpBy_pools (d : Dev) (c : Ctr) (i n : Nat) : (bumpBy d c i n).pools = d.pools := rfl
@[simp] theorem bumpBy_mgmt (d : Dev) (c : Ctr) (i n : Nat) : (bumpBy d c i n).mgmt = d.mgmt := rfl
@[simp] theorem bumpBy_parity (d : Dev) (c : Ctr) (i n : Nat) : (bumpBy d c i n).parity = d.parity := rfl
@[simp] theorem bumpBy_arrived (d : Dev) (c : Ctr) (i n : Nat) : (bumpBy d c i n).arrived = d.arrived := rfl
@[simp] theorem bumpBy_policed (d : Dev) (c : Ctr) (i n : Nat) : (bumpBy d c i n).policed = d.policed := rfl
@[simp] theorem bumpBy_order (d : Dev) (c : Ctr) (i n : Nat) : (bumpBy d c i n).order = d.order := rfl
@[simp] theorem bumpBy_lastJob (d : Dev) (c : Ctr) (i n : Nat) : (bumpBy d c i n).lastJob = d.lastJob := rfl
@[simp] theorem bumpBy_freeCtr (d : Dev) (c : Ctr) (i n : Nat) : (bumpBy d c i n).freeCtr = d.freeCtr := rfl
@[simp] theorem bump_nowUs (d : Dev) (c : Ctr) (i : Nat) : (bump d c i).nowUs = d.nowUs := rfl
@[simp] theorem bump_fac (d : Dev) (c : Ctr) (i : Nat) : (bump d c i).fac = d.fac := rfl
@[simp] theorem bump_start (d : Dev) (c : Ctr) (i : Nat) : (bump d c i).start = d.start := rfl
@[simp] theorem bump_spare (d : Dev) (c : Ctr) (i : Nat) : (bump d c i).spare = d.spare := rfl
@[simp] theorem bump_mems (d : Dev) (c : Ctr) (i : Nat) : (bump d c i).mems = d.mems := rfl
@[simp] theorem bump_flash (d : Dev) (c : Ctr) (i : Nat) : (bump d c i).flash = d.flash := rfl
@[simp] theorem bump_power (d : Dev) (c : Ctr) (i : Nat) : (bump d c i).power = d.power := rfl
@[simp] theorem bump_clocks (d : Dev) (c : Ctr) (i : Nat) : (bump d c i).clocks = d.clocks := rfl
@[simp] theorem bump_jobs (d : Dev) (c : Ctr) (i : Nat) : (bump d c i).jobs = d.jobs := rfl
@[simp] theorem bump_ctxs (d : Dev) (c : Ctr) (i : Nat) : (bump d c i).ctxs = d.ctxs := rfl
@[simp] theorem bump_left (d : Dev) (c : Ctr) (i : Nat) : (bump d c i).left = d.left := rfl
@[simp] theorem bump_maps (d : Dev) (c : Ctr) (i : Nat) : (bump d c i).maps = d.maps := rfl
@[simp] theorem bump_rules (d : Dev) (c : Ctr) (i : Nat) : (bump d c i).rules = d.rules := rfl
@[simp] theorem bump_scheds (d : Dev) (c : Ctr) (i : Nat) : (bump d c i).scheds = d.scheds := rfl
@[simp] theorem bump_syncs (d : Dev) (c : Ctr) (i : Nat) : (bump d c i).syncs = d.syncs := rfl
@[simp] theorem bump_ports (d : Dev) (c : Ctr) (i : Nat) : (bump d c i).ports = d.ports := rfl
@[simp] theorem bump_fabric (d : Dev) (c : Ctr) (i : Nat) : (bump d c i).fabric = d.fabric := rfl
@[simp] theorem bump_pools (d : Dev) (c : Ctr) (i : Nat) : (bump d c i).pools = d.pools := rfl
@[simp] theorem bump_mgmt (d : Dev) (c : Ctr) (i : Nat) : (bump d c i).mgmt = d.mgmt := rfl
@[simp] theorem bump_parity (d : Dev) (c : Ctr) (i : Nat) : (bump d c i).parity = d.parity := rfl
@[simp] theorem bump_arrived (d : Dev) (c : Ctr) (i : Nat) : (bump d c i).arrived = d.arrived := rfl
@[simp] theorem bump_policed (d : Dev) (c : Ctr) (i : Nat) : (bump d c i).policed = d.policed := rfl
@[simp] theorem bump_order (d : Dev) (c : Ctr) (i : Nat) : (bump d c i).order = d.order := rfl
@[simp] theorem bump_lastJob (d : Dev) (c : Ctr) (i : Nat) : (bump d c i).lastJob = d.lastJob := rfl
@[simp] theorem bump_freeCtr (d : Dev) (c : Ctr) (i : Nat) : (bump d c i).freeCtr = d.freeCtr := rfl
@[simp] theorem setCtr_nowUs (d : Dev) (c : Ctr) (i : Nat) (v : W64) : (setCtr d c i v).nowUs = d.nowUs := rfl
@[simp] theorem setCtr_fac (d : Dev) (c : Ctr) (i : Nat) (v : W64) : (setCtr d c i v).fac = d.fac := rfl
@[simp] theorem setCtr_start (d : Dev) (c : Ctr) (i : Nat) (v : W64) : (setCtr d c i v).start = d.start := rfl
@[simp] theorem setCtr_spare (d : Dev) (c : Ctr) (i : Nat) (v : W64) : (setCtr d c i v).spare = d.spare := rfl
@[simp] theorem setCtr_mems (d : Dev) (c : Ctr) (i : Nat) (v : W64) : (setCtr d c i v).mems = d.mems := rfl
@[simp] theorem setCtr_flash (d : Dev) (c : Ctr) (i : Nat) (v : W64) : (setCtr d c i v).flash = d.flash := rfl
@[simp] theorem setCtr_power (d : Dev) (c : Ctr) (i : Nat) (v : W64) : (setCtr d c i v).power = d.power := rfl
@[simp] theorem setCtr_clocks (d : Dev) (c : Ctr) (i : Nat) (v : W64) : (setCtr d c i v).clocks = d.clocks := rfl
@[simp] theorem setCtr_jobs (d : Dev) (c : Ctr) (i : Nat) (v : W64) : (setCtr d c i v).jobs = d.jobs := rfl
@[simp] theorem setCtr_ctxs (d : Dev) (c : Ctr) (i : Nat) (v : W64) : (setCtr d c i v).ctxs = d.ctxs := rfl
@[simp] theorem setCtr_left (d : Dev) (c : Ctr) (i : Nat) (v : W64) : (setCtr d c i v).left = d.left := rfl
@[simp] theorem setCtr_maps (d : Dev) (c : Ctr) (i : Nat) (v : W64) : (setCtr d c i v).maps = d.maps := rfl
@[simp] theorem setCtr_rules (d : Dev) (c : Ctr) (i : Nat) (v : W64) : (setCtr d c i v).rules = d.rules := rfl
@[simp] theorem setCtr_scheds (d : Dev) (c : Ctr) (i : Nat) (v : W64) : (setCtr d c i v).scheds = d.scheds := rfl
@[simp] theorem setCtr_syncs (d : Dev) (c : Ctr) (i : Nat) (v : W64) : (setCtr d c i v).syncs = d.syncs := rfl
@[simp] theorem setCtr_ports (d : Dev) (c : Ctr) (i : Nat) (v : W64) : (setCtr d c i v).ports = d.ports := rfl
@[simp] theorem setCtr_fabric (d : Dev) (c : Ctr) (i : Nat) (v : W64) : (setCtr d c i v).fabric = d.fabric := rfl
@[simp] theorem setCtr_pools (d : Dev) (c : Ctr) (i : Nat) (v : W64) : (setCtr d c i v).pools = d.pools := rfl
@[simp] theorem setCtr_mgmt (d : Dev) (c : Ctr) (i : Nat) (v : W64) : (setCtr d c i v).mgmt = d.mgmt := rfl
@[simp] theorem setCtr_parity (d : Dev) (c : Ctr) (i : Nat) (v : W64) : (setCtr d c i v).parity = d.parity := rfl
@[simp] theorem setCtr_arrived (d : Dev) (c : Ctr) (i : Nat) (v : W64) : (setCtr d c i v).arrived = d.arrived := rfl
@[simp] theorem setCtr_policed (d : Dev) (c : Ctr) (i : Nat) (v : W64) : (setCtr d c i v).policed = d.policed := rfl
@[simp] theorem setCtr_order (d : Dev) (c : Ctr) (i : Nat) (v : W64) : (setCtr d c i v).order = d.order := rfl
@[simp] theorem setCtr_lastJob (d : Dev) (c : Ctr) (i : Nat) (v : W64) : (setCtr d c i v).lastJob = d.lastJob := rfl
@[simp] theorem setCtr_freeCtr (d : Dev) (c : Ctr) (i : Nat) (v : W64) : (setCtr d c i v).freeCtr = d.freeCtr := rfl

/-! What is read after it was written -/

@[simp] theorem getPort_setPort_same (d : Dev) (p : Nat) (x : Port) : getPort (setPort d p x) p = x := by simp [getPort, setPort]
theorem getPort_setPort_other (d : Dev) {p q : Nat} (x : Port) (h : p ≠ q) : getPort (setPort d p x) q = getPort d q := by
  simp [getPort, setPort, SMap.getD_set, h]
@[simp] theorem getJob_setJob_same (d : Dev) (j : Nat) (x : Job) : getJob (setJob d j x) j = some x := by simp [getJob, setJob]
theorem getJob_setJob_other (d : Dev) {j q : Nat} (x : Job) (h : j ≠ q) : getJob (setJob d j x) q = getJob d q := by
  simp [getJob, setJob, SMap.get?_set, h]
theorem getJob_updJob (d : Dev) (j q : Nat) (f : Job → Job) :
    getJob (updJob d j f) q = if j = q then (getJob d j).map f else getJob d q := by
  simp [getJob, updJob, SMap.get?_upd]
@[simp] theorem getCtx_setCtx_same (d : Dev) (c : Nat) (x : Ctx) : getCtx (setCtx d c x) c = x := by
  unfold getCtx setCtx
  split <;> simp [*]
theorem getCtx_setCtx_other (d : Dev) {c q : Nat} (x : Ctx) (h : c ≠ q) : getCtx (setCtx d c x) q = getCtx d q := by
  unfold getCtx setCtx
  split <;> split <;> simp [SMap.getD_set, h]
@[simp] theorem getPort_setJob (d : Dev) (j : Nat) (x : Job) (p : Nat) : getPort (setJob d j x) p = getPort d p := rfl
@[simp] theorem getJob_setPort (d : Dev) (p : Nat) (x : Port) (j : Nat) : getJob (setPort d p x) j = getJob d j := rfl
@[simp] theorem getCtx_setJob (d : Dev) (j : Nat) (x : Job) (c : Nat) : getCtx (setJob d j x) c = getCtx d c := rfl
@[simp] theorem getCtx_setPort (d : Dev) (p : Nat) (x : Port) (c : Nat) : getCtx (setPort d p x) c = getCtx d c := rfl

/-! The two flash devices -/

@[simp] theorem Flash.dev_setDev (f : Flash) (m : Nat) (v : FlashDev) : (f.setDev m v).dev m = v := by
  unfold Flash.dev Flash.setDev; split <;> rfl
theorem Flash.dev_setDev_ne (f : Flash) {m n : Nat} (v : FlashDev) (h : (m = 0) ≠ (n = 0)) : (f.setDev m v).dev n = f.dev n := by
  unfold Flash.dev Flash.setDev; by_cases hm : m = 0 <;> by_cases hn : n = 0 <;> simp_all
@[simp] theorem Flash.setDev_source (f : Flash) (m : Nat) (v : FlashDev) : (f.setDev m v).source = f.source := by
  unfold Flash.setDev; split <;> rfl
@[simp] theorem Flash.setDev_fails (f : Flash) (m : Nat) (v : FlashDev) : (f.setDev m v).fails = f.fails := by
  unfold Flash.setDev; split <;> rfl
@[simp] theorem Flash.setDev_waits (f : Flash) (m : Nat) (v : FlashDev) : (f.setDev m v).waits = f.waits := by
  unfold Flash.setDev; split <;> rfl
@[simp] theorem Flash.setDev_waitAt (f : Flash) (m : Nat) (v : FlashDev) : (f.setDev m v).waitAt = f.waitAt := by
  unfold Flash.setDev; split <;> rfl
@[simp] theorem Flash.setDev_waitTrap (f : Flash) (m : Nat) (v : FlashDev) : (f.setDev m v).waitTrap = f.waitTrap := by
  unfold Flash.setDev; split <;> rfl
@[simp] theorem Flash.setDev_lifeAt (f : Flash) (m : Nat) (v : FlashDev) : (f.setDev m v).lifeAt = f.lifeAt := by
  unfold Flash.setDev; split <;> rfl

end Sys2Proof.Machine
end

