-- ==== Sys2Proof/WellFormed.lean ====
section
/-!
DEFINITION. Sys2Proof/WellFormed.lean: which commands name units the module has (R15, Table 0-5, R36, R515) and carry packets, flits
and operands of the sizes the spec gives.
-/
namespace Sys2Proof

/-- A port position, 0 to 287 (R13). -/
def portWf (p : Nat) : Bool := decide (p < 288)
/-- A context number (R15). -/
def ctxWf (c : Nat) : Bool := decide (c < 16384)
/-- A job number (R15). -/
def jobWf (j : Nat) : Bool := decide (j < 64)
/-- A slab of a bucket (R15). -/
def slabWf (b : Nat) : Bool := decide (b < 65536)
/-- A pass (R15). -/
def passWf (p : Nat) : Bool := decide (p < 256)
/-- A rank or a member number (R15, R443). -/
def rankWf (r : Nat) : Bool := decide (r < 4096)
/-- A requester of the buffer pools (Table 17-2). -/
def reqWf (r : Nat) : Bool := decide (r < 12) || (decide (16 ≤ r) && decide (r < 47))
/-- A region number: 14 bits (R445). -/
def regionWf (r : Nat) : Bool := decide (r < 16384)

/-- A command packet: from management port 0 or 1, or a member position, with a whole header (Table 12-1). -/
def cmdPktOk (p : CmdPkt) : Bool :=
  (match p.src with
   | .mgmt port _ _ => decide (port < 2)
   | .inband port => decide (port < 256)) && decide (4 ≤ p.words.length) && decide (p.tail.length < 8)

/-- A packet of the link: its port exists, its addresses have 9 bits, and it has a common word (Table 15-8). -/
def pktOk (k : PktRx) : Bool :=
  portWf k.port && decide (k.src < 512) && decide (k.dst < 512) && decide (1 ≤ k.words.length)

/-- A flit carries sixty-one 4-byte units (Table 15-3). -/
def flitOk (f : FlitRx) : Bool := f.payload.length == 61

/-- Residues of a lane of a seam or checking seam: modulo 3 and modulo 7 (R190). -/
def residuesWf (r : Residues) : Bool :=
  decide (r.lane < 128) && decide (r.pred3 < 3) && decide (r.got3 < 3) && decide (r.pred7 < 7) && decide (r.got7 < 7)

/-- Residues found at a slab and pass of a context. -/
def seamAtWf (r : SeamAt) : Bool := ctxWf r.ctx && slabWf r.slab && passWf r.pass && residuesWf r.found

/-- The unit of a trigger exists (Table 19-3). -/
def triggerWf : Trigger → Bool
  | .slice p | .position p => portWf p
  | .engine e => decide (e < 36)
  | .seam n => decide (n < 144)
  | .residue r => seamAtWf r
  | .combineDie c => decide (c < 9)
  | .channel c => decide (c < 256)
  | .stack k => decide (k < 16)
  | .updateLane l => decide (l < 512)
  | .sramRow die _ _ _ _ => decide (die < 32)

/-- The lane or area of an update fault exists. -/
def updFaultWf : UpdFault → Bool
  | .none => true
  | .residue l => decide (l < 128)
  | .memUe a => decide (a < 3)

/-- What a sample's end names exists: one of four compared values, a pass, a lane; a seam lane. -/
def sampleEndWf : SampleEnd → Bool
  | .agreed => true
  | .differed v p l => decide (v < 4) && passWf p && decide (l < 1024)
  | .residue r => residuesWf r

/-- An error strikes a block of the die: one of its stripes and channels (R261). -/
def strikeWf (k : Strike) : Bool := decide (k.stripe < 187500000) && decide (k.channel < 64)

/-- A torn record write names a record, and its body is one (R688). -/
def tornWf (t : TornWrite) : Bool := decide (t.rid < 256) && decide (t.body.length ≤ 32768)

/-- A command is well formed: each operand names a unit the module has. -/
def Instr.wf : Instr → Bool
  | .moduleInfo p | .authSet p | .patchLoad p | .portConfig p | .regRead p | .regWrite p | .trapCtl p | .captureClear p
  | .jobRegRead p | .telemSet p | .jobCreate p | .jobDestroy p | .jobQuota p | .jobConfig p | .jobRead p | .memberAttach p
  | .memberDetach p | .regionCreate p | .regionDestroy p | .paramLoad p | .haulSet p | .haulSub p | .rankmapLoad p
  | .ruleLoad p | .schedLoad p | .schedRead p | .objFree p | .ctxOpen p | .ctxRelease p | .ctxRead p | .graphSubmit p
  | .graphRelease p | .graphCancel p | .graphRead p | .syncAlloc p | .syncFree p | .syncOp p | .stepSeal p | .stepAbort p
  | .stepPoison p | .snapConfig p | .snapTake p | .snapRestore p | .snapRead p | .parityGroupSet p | .rebuildStart p
  | .parityRead p | .recStart p | .recStop p | .replayStart p | .refMode p | .cablePlanLoad p | .cableCheck p | .cableReport p
  | .spareRead p | .spareRetire p | .bypassSet p => cmdPktOk p
  | .interimReply | .stagedLoadTimeout => true
  | .page v => (v.all fun x => decide (x < 256))
  | .operationOff | .operationOn | .clearFaults | .voutMode | .statusWord | .statusVout | .statusIout | .statusInput
  | .statusTemperature | .statusCml | .readVin | .readIin | .readVout | .readIout | .readTemperature1 | .readTemperature2
  | .readTemperature3 | .readPout | .readPin | .pmbusRevision | .mfrId | .mfrModel | .mfrSerial | .mfrShutdownCause
  | .pmbusUnsupported _ _ => true
  | .smbusReadByte o | .smbusReadWord o => decide (o < 256)
  | .smbusBlockRead o n => decide (o < 256) && decide (n ≤ 32)
  | .jtagBypass | .idcode | .samplePreload _ | .extest | .highz | .scanEnAssert | .scanEnRelease | .inputRise
  | .inputDip | .inputHigh | .inputHighClear | .overcurrent | .railFault | .shutdownRestart | .heartbeat | .heartbeatMissing
  | .overTemperature | .tempRecovered => true
  | .inputLow f => f.torn.all tornWf
  | .thermalWarn n _ => decide (n < 32) || (decide (64 ≤ n) && decide (n < 100)) || n == 200
  | .inputWarn _ | .moduleReset | .refClockLoss | .refClockReturn => true
  | .pllLockLoss n => decide (n < 40)
  | .phaseRom _ l => l.all fun r => decide (r.1 < 2048) && decide (r.2 < 1024)
  | .phaseRestore a b c => ((a ++ b).all fun r => decide (r < 256)) && c.all fun r => decide (r.1 < 2) && decide (r.2 < 256)
  | .phasePatch => true
  | .phaseDies f l => f.all triggerWf && l.all fun n => decide (n < 301)
  | .phaseMemory f => f.all triggerWf
  | .phaseLinks | .phaseServe | .phaseBypass | .phaseReady | .phaseLimit | .watchdogExpiry | .processorFault => true
  | .lifeWrite f l => (f :: l).all fun e => decide (e.1 ≤ 3) && decide (e.2 ≤ 3)
  | .downRetry p | .trainLock p _ _ | .trainTimeout p _ | .initComplete p | .initTimeout p => portWf p
  | .lossOfLock p n => portWf p && decide (n < 256)
  | .retrainLock p | .retrainTimeout p => portWf p
  | .dataFlit p f | .idleFlit p f | .nak p f | .creditInit p f | .creditSnap p f | .beacon p f _ | .downNotice p f => portWf p && flitOk f
  | .nakRepeat p | .replayTimer p | .creditSnapTimer p | .beaconTimer p | .beaconMissing p | .flitArbitration p => portWf p
  | .contrib k r | .partialRx k r => pktOk k && r.all residuesWf
  | .partialAns k => pktOk k
  | .partialRetry | .partialTimeout => true
  | .refill c p => ctxWf c && decide (p < 128)
  | .slotClockExpiry c b ⟨p, r⟩ => ctxWf c && slabWf b && passWf p && r.all residuesWf
  | .partialClockExpiry c b p => ctxWf c && slabWf b && passWf p
  | .keptCopyExpiry c b p r => ctxWf c && slabWf b && passWf p && rankWf r
  | .ctxFail k | .poison k | .msgAck k => pktOk k
  | .msgResend => true
  | .sampleComplete c b h => ctxWf c && slabWf b && sampleEndWf h
  | .builtinTestDone a c _ _ => decide (a < 144) && decide (c < 144)
  | .drainComplete c => ctxWf c
  | .updateAccept c b f => ctxWf c && slabWf b && updFaultWf f
  | .copyWriteComplete j r k => jobWf j && regionWf r && decide (k < 2 ^ 32)
  | .formNormPartial j => jobWf j
  | .normPartial k => pktOk k
  | .sealedUpdateBegin j => jobWf j
  | .haulData k | .haulAck k => pktOk k
  | .haulResend => true
  | .haulDrop p => portWf p
  | .haulEnd c m => ctxWf c && rankWf m
  | .hoistReq k => pktOk k
  | .hoistSlabRead j _ _ => jobWf j
  | .hoistEnd j m t => jobWf j && rankWf m && decide (t < 65536)
  | .remoteRead k | .remoteData k | .remoteStatus k => pktOk k
  | .remoteReadResend => true
  | .voteYes j => jobWf j
  | .sealReq k | .sealVote k | .abortReq k | .sealCommit k | .sealAck k | .sealDone k | .sealAbort k => pktOk k
  | .abortScanComplete j => jobWf j
  | .abortAck k | .sealQuery k | .sealState k | .parityDelta k | .parityAck k | .parityApply k | .parityDrop k | .applyAck k
  | .dropAck k => pktOk k
  | .vc4Resend => true
  | .rebuildReq k | .rebuildData k | .slabXfer k | .xferAck k => pktOk k
  | .xferTimeout => true
  | .live k => pktOk k
  | .liveTimer => true
  | .liveWatchTimeout j => decide (j ≤ 64)
  | .withdrawn k | .claim k | .claimAnswer k | .recRead k => pktOk k
  | .replayData ⟨k, r⟩ => pktOk k && r.all seamAtWf
  | .replayReqResend | .replayPortTimeout => true
  | .transitPacket k => pktOk k
  | .routeHoldExpiry => true
  | .ringState k => pktOk k
  | .ringStateTimer | .ringMapLapse => true
  | .bypassRelease q => decide (q < 16)
  | .bypassReleaseTimeout | .nodeStart => true
  | .alloc p r j => decide (p < 64) && reqWf r && j.all jobWf
  | .addref h r | .releaseBuf h r => decide (h < 2 ^ 24) && reqWf r
  | .repairTrigger t => triggerWf t
  | .wear p _ => portWf p
  | .laneGroupFail ⟨l, n⟩ => decide (l < 301) && decide (1 ≤ n) && decide (n ≤ 8)
  | .channelRebuildDone c => decide (c < 256)
  | .scrub ⟨u, n, l⟩ => decide (u < 4) && decide (n ≤ 187500000) && l.all strikeWf
  | .trapAge => true
  | .telemetryPeriod n => decide (n < 4)
  | .arpRequest m _ _ _ | .addrDup m _ _ | .neighborDiscovery m _ _ | .echoRequest m _ _ _ _ | .mgmtFrameDrop m => decide (m < 2)
  | .takeoverComplete | .slewComplete => true
  | .mgmtLinkChange m _ | .addressProbeDone m _ => decide (m < 2)
  | .recMirrorTimeout j => jobWf j
  | .flashWaitTimeout => true

end Sys2Proof
end

