-- ==== Sys2Proof/Tests/Slice0.lean ====
section
/-!
SUPPORT. Sys2Proof/Tests/Slice0.lean: the smoke test of WellFormed, witnesses that the hypotheses of the statements can be met,
and small tests whose expected values come from the spec's text.
-/
namespace Sys2Proof.Tests

open Sys2Proof.Machine

set_option linter.all false
set_option Elab.async false
set_option maxRecDepth 100000
set_option synthInstance.maxSize 2000

/-! ## Ill-formed commands -/

theorem test_wf_port : (Instr.downRetry 288).wf = false ∧ (Instr.downRetry 287).wf = true := by decide
theorem test_wf_ctx : (Instr.drainComplete 16384).wf = false ∧ (Instr.drainComplete 16383).wf = true := by decide
theorem test_wf_job : (Instr.voteYes 64).wf = false ∧ (Instr.voteYes 63).wf = true ∧ (Instr.liveWatchTimeout 65).wf = false := by decide
theorem test_wf_slab : (Instr.slotClockExpiry 0 65536 ⟨0, none⟩).wf = false ∧ (Instr.slotClockExpiry 0 65535 ⟨0, none⟩).wf = true := by decide
theorem test_wf_pass : (Instr.slotClockExpiry 0 0 ⟨256, none⟩).wf = false ∧ (Instr.slotClockExpiry 0 0 ⟨255, none⟩).wf = true := by decide
theorem test_wf_rank : (Instr.keptCopyExpiry 0 0 0 4096).wf = false ∧ (Instr.haulEnd 0 4096).wf = false := by decide
theorem test_wf_region : (Instr.copyWriteComplete 0 16384 0).wf = false ∧ (Instr.copyWriteComplete 0 16383 0).wf = true := by decide
theorem test_wf_cmd : (Instr.moduleInfo { src := .mgmt 2 0 0, words := [0, 0, 0, 0] }).wf = false ∧
    (Instr.moduleInfo { src := .inband 256, words := [0, 0, 0, 0] }).wf = false ∧
    (Instr.moduleInfo { src := .mgmt 0 0 0, words := [0, 0, 0] }).wf = false ∧
    (Instr.moduleInfo { src := .mgmt 1 0 0, words := [0, 0, 0, 0] }).wf = true := by decide
theorem test_wf_packet : (Instr.msgAck { port := 288, words := [0] }).wf = false ∧ (Instr.msgAck { port := 0, words := [] }).wf = false ∧
    (Instr.msgAck { port := 0, src := 512, words := [0] }).wf = false ∧ (Instr.msgAck { port := 287, words := [0] }).wf = true := by decide
theorem test_wf_flit : (Instr.nak 0 { hdr := 0, payload := [], crc := 0 }).wf = false := by decide
theorem test_wf_trigger : (Instr.repairTrigger (.seam 144)).wf = false ∧ (Instr.repairTrigger (.combineDie 9)).wf = false ∧
    (Instr.repairTrigger (.channel 256)).wf = false ∧ (Instr.repairTrigger (.updateLane 512)).wf = false ∧
    (Instr.repairTrigger (.slice 288)).wf = false ∧ (Instr.repairTrigger (.engine 36)).wf = false ∧ (Instr.repairTrigger (.engine 35)).wf = true ∧ (Instr.repairTrigger (.sramRow 32 0 0 false .control)).wf = false ∧
    (Instr.repairTrigger (.seam 143)).wf = true := by decide
theorem test_wf_update : (Instr.updateAccept 0 0 (.residue 128)).wf = false ∧ (Instr.updateAccept 0 0 (.memUe 3)).wf = false := by decide
/-- Residues of a lane that agree, but for the one modulo 7 as computed. -/
def found (lane got7 : Nat) : Residues := { lane := lane, what := .ingest, pred3 := 2, got3 := 2, pred7 := 6, got7 := got7 }
theorem test_wf_residue : (Instr.contrib { port := 0, words := [0] } (some (found 128 6))).wf = false ∧
    (Instr.slotClockExpiry 0 0 ⟨0, some (found 0 7)⟩).wf = false ∧
    (Instr.replayData ⟨{ port := 0, words := [0] }, some { ctx := 16384, slab := 0, pass := 0, found := found 0 6 }⟩).wf = false ∧
    (Instr.partialRx { port := 0, words := [0] } (some (found 127 6))).wf = true := by decide
theorem test_wf_sample : (Instr.sampleComplete 0 0 (.differed 4 0 0)).wf = false ∧ (Instr.sampleComplete 0 0 (.differed 3 256 0)).wf = false ∧
    (Instr.sampleComplete 0 0 (.differed 3 0 1024)).wf = false ∧ (Instr.sampleComplete 0 0 (.residue (found 128 6))).wf = false ∧
    (Instr.sampleComplete 0 0 .agreed).wf = true := by decide
theorem test_wf_scrub : (Instr.scrub ⟨4, 1, []⟩).wf = false ∧ (Instr.scrub ⟨0, 187500001, []⟩).wf = false ∧
    (Instr.scrub ⟨0, 1, [{ stripe := 187500000, channel := 0, pat := 1, caught := true }]⟩).wf = false ∧
    (Instr.scrub ⟨0, 1, [{ stripe := 0, channel := 64, pat := 1, caught := true }]⟩).wf = false ∧
    (Instr.scrub ⟨3, 187500000, [{ stripe := 187499999, channel := 63, pat := 1, caught := true }]⟩).wf = true := by decide
theorem test_wf_bus : (Instr.smbusReadByte 256).wf = false ∧ (Instr.smbusBlockRead 0 33).wf = false ∧ (Instr.page (some 256)).wf = false ∧
    (Instr.smbusBlockRead 255 32).wf = true := by decide
theorem test_wf_units : (Instr.thermalWarn 32 true).wf = false ∧ (Instr.thermalWarn 200 true).wf = true ∧ (Instr.pllLockLoss 40).wf = false ∧
    (Instr.bypassRelease 16).wf = false ∧ (Instr.laneGroupFail ⟨301, 8⟩).wf = false ∧ (Instr.laneGroupFail ⟨300, 9⟩).wf = false ∧ (Instr.laneGroupFail ⟨300, 0⟩).wf = false ∧ (Instr.channelRebuildDone 256).wf = false ∧
    (Instr.telemetryPeriod 4).wf = false ∧ (Instr.mgmtFrameDrop 2).wf = false ∧ (Instr.refill 0 128).wf = false ∧
    (Instr.builtinTestDone 144 0 true true).wf = false ∧ (Instr.phaseRestore [256] [] []).wf = false ∧
    (Instr.phaseDies [] [301]).wf = false ∧ (Instr.lossOfLock 0 256).wf = false ∧ (Instr.hoistEnd 0 0 65536).wf = false := by decide
theorem test_wf_pool : (Instr.alloc 64 0 none).wf = false ∧ (Instr.alloc 0 12 none).wf = false ∧ (Instr.alloc 0 47 none).wf = false ∧ (Instr.alloc 0 0 (some 64)).wf = false ∧
    (Instr.addref (2 ^ 24) 0).wf = false ∧ (Instr.releaseBuf (2 ^ 24 - 1) 0).wf = true := by decide

/-! ## Witnesses: the block, numbers, power, start-up -/

/-- A device at work: start-up is READY and processor 0 is active. -/
def up : Dev := { State.reset.dev with start := { phase := .ready, cpu := 0 }, mgmt := { linkUp := [0, 1], inUse := [1] } }
/-- A state of a device with an empty queue. -/
def at_ (d : Dev) : State := { dev := d, pending := [] }
/-- A device at work whose power stage is as given. -/
def withPower (p : Power) : Dev := { up with power := p }

theorem witness_StepRunsTheFrontCommand : ∃ (c : Instr) (s : State) (r : List Instr), s.pending = c :: r ∧ r ≠ [] :=
  ⟨.heartbeat, { at_ up with pending := [.heartbeat, .scrub ⟨0, 1, []⟩] }, _, rfl, by decide⟩
theorem witness_EmptyQueueLetsAMicrosecondPass : ∃ s : State, s.pending = [] := ⟨State.reset, rfl⟩
theorem witness_CommandsKeepQueueTimeAndIdentity :
    (∃ c s t, exec c s = .next t) ∧ (∃ c s f, exec c s = .fault f) ∧
    (∃ c, operandsFit c = true ∧ c = .bypassRelease 15) ∧ (∃ c, operandsFit c = false ∧ c = .bypassRelease 16) :=
  ⟨⟨.takeoverComplete, State.reset, _, rfl⟩, ⟨.downRetry 288, State.reset, _, rfl⟩, ⟨_, by decide, rfl⟩, ⟨_, by decide, rfl⟩⟩
theorem witness_EveryStepKeepsTheTablesWellFormed : ∃ s t : State, s.dev.Wf ∧ step s = .next t ∧ s.pending ≠ [] :=
  ⟨{ State.reset with pending := [.takeoverComplete] }, _, ⟨rfl, rfl, rfl, rfl, rfl, rfl, rfl, rfl, rfl, rfl, rfl, rfl⟩, rfl, by decide⟩
theorem witness_TreeSplitsAtThePowerOfTwoBelow : (∃ vs : List TreeVal, 2 ≤ vs.length ∧ vs.length = 2) ∧
    (∃ vs : List TreeVal, 2 ≤ vs.length ∧ vs.length = 8192) :=
  ⟨⟨List.replicate 2 none, Nat.le_of_eq List.length_replicate.symm, List.length_replicate⟩,
   ⟨List.replicate 8192 none, by rw [List.length_replicate]; omega, List.length_replicate⟩⟩
theorem witness_AdditionCommutesAndSignsZeros : fpFinite fpOne = true ∧ fpFinite (fpNeg fpOne) = true ∧ fpFinite (fpZero true) = true := by
  decide
/-- Binary64 of 2 to the 1,000. -/
def huge : F64 := 0x7E70000000000000#64
theorem witness_ProducedElementsAreFinite :
    fpFinite huge = true ∧ fpFinite (fpZero true) = true ∧
    (outScalar 0 false ⟨0, 0, 0, 0, 0⟩ (fpZero true)).code = 0 ∧
    (∀ f ∈ [1, 2, 3, 4, 5], (outScalar f true ⟨0, 0, 0, 0, 0⟩ (fpNeg huge)).sat = true) ∧
    (∀ f ∈ [6, 7, 8], (outMx f false ⟨0, 0, 0, 0, 0⟩ 127 huge).sat = true) := by
  decide +kernel
theorem witness_PmbusReadsPutOutTheirValues :
    (∃ s : State, s.dev.power.input = .ok ∧ s.dev.power.answerAt ≤ s.dev.nowUs ∧ s.dev.power.page = 0) ∧
    (∃ s : State, s.dev.power.input = .high ∧ s.dev.power.answerAt ≤ s.dev.nowUs ∧ s.dev.power.page = 5) :=
  ⟨⟨at_ up, by decide⟩, ⟨at_ (withPower { input := .high, page := 5 }), by decide⟩⟩
theorem witness_PmbusWritesAndSilence :
    (∃ s : State, s.dev.power.input = .ok ∧ s.dev.power.answerAt ≤ s.dev.nowUs ∧ s.dev.power.opOff = false) ∧
    (∃ s : State, s.dev.power.input = .high ∧ s.dev.power.answerAt ≤ s.dev.nowUs) ∧
    (∃ s : State, s.dev.power.input = .low) ∧ (∃ s : State, s.dev.power.input = .below10) ∧
    (∃ s : State, s.dev.nowUs < s.dev.power.answerAt) :=
  ⟨⟨at_ up, by decide⟩, ⟨at_ (withPower { input := .high }), by decide⟩, ⟨at_ (withPower { input := .low }), rfl⟩,
   ⟨at_ (withPower { input := .below10 }), rfl⟩, ⟨at_ (withPower { answerAt := 1 }), by decide⟩⟩
theorem witness_SmbusServesIdentityBytes : ∃ s : State, s.dev.power.input = .ok ∧ s.dev.power.answerAt ≤ s.dev.nowUs := ⟨at_ up, by decide⟩
theorem witness_TestPortNeedsScanEn : (∃ s : State, s.dev.power.scanEn = true) ∧ (∃ s : State, s.dev.power.scanEn = false) :=
  ⟨⟨at_ (withPower { scanEn := true }), rfl⟩, ⟨at_ up, rfl⟩⟩
theorem witness_ShutdownLatchesTheFirstCause :
    (∃ s : State, s.dev.power.down = none ∧ s.dev.power.hbArmed = true ∧ s.dev.power.hbAt + 10000 ≤ s.dev.nowUs ∧
      s.dev.power.input = .ok ∧ s.dev.power.answerAt ≤ s.dev.nowUs) ∧
    (∃ (s : State) (c : Nat), s.dev.power.down = some c ∧ s.dev.power.hbArmed = false ∧ s.dev.power.downAt ≠ s.dev.nowUs) ∧
    (∃ (s : State) (c : Nat), s.dev.power.down = some c ∧ s.dev.power.downAt = s.dev.nowUs ∧ c ≤ 8 ∧ 7 < c) :=
  ⟨⟨at_ { withPower { hbArmed := true } with nowUs := 10000 }, by decide⟩, ⟨at_ { withPower { down := some 3 } with nowUs := 1 }, 3, by decide⟩,
   ⟨at_ (withPower { down := some 8 }), 8, by decide⟩⟩
theorem witness_RestartAndReleaseBeginStartUp :
    (∃ s : State, s.dev.power.opOff = false ∧ s.dev.power.scanEn = false ∧ s.dev.power.locked = false ∧ s.dev.power.input = .low) ∧
    (∃ s : State, s.dev.power.opOff = false ∧ s.dev.power.scanEn = false ∧ s.dev.power.locked = false ∧ s.dev.power.input = .high ∧
      s.dev.power.down = some 2) ∧
    (∃ s : State, s.dev.power.opOff = false ∧ s.dev.power.scanEn = false ∧ s.dev.power.locked = false ∧ s.dev.power.input = .ok ∧
      s.dev.power.down = some 4) ∧
    (∃ s : State, s.dev.power.opOff = false ∧ s.dev.power.scanEn = false ∧ s.dev.power.locked = false ∧ s.dev.power.input = .ok ∧
      s.dev.power.down = some 8 ∧ s.dev.power.downAt + 1000000 ≤ s.dev.nowUs ∧ (recentRestarts s.dev).length = 2) ∧
    (∃ s : State, s.dev.power.input = .ok ∧ s.dev.power.opOff = true ∧ s.dev.power.scanEn = false ∧ s.dev.power.down = some 6 ∧
      s.dev.power.answerAt ≤ s.dev.nowUs) ∧
    (∃ s : State, s.dev.power.input = .ok ∧ s.dev.power.opOff = true ∧ s.dev.power.scanEn = false ∧ s.dev.power.down = some 3 ∧
      s.dev.power.locked = true ∧ s.dev.power.answerAt ≤ s.dev.nowUs) ∧
    (∃ s : State, s.dev.power.input = .ok ∧ s.dev.power.opOff = false ∧ s.dev.power.locked = false ∧ s.dev.power.down = some 7) ∧
    (∃ s : State, s.dev.power.input = .ok ∧ s.dev.power.down = some 5 ∧ s.dev.power.opOff = false ∧ s.dev.power.scanEn = false ∧
      s.dev.power.locked = false ∧ s.dev.power.downAt + 1000000 ≤ s.dev.nowUs ∧ (recentRestarts s.dev).length = 3) :=
  ⟨⟨at_ (withPower { input := .low }), by decide⟩, ⟨at_ (withPower { input := .high, down := some 2 }), by decide⟩,
   ⟨at_ (withPower { down := some 4 }), by decide⟩,
   ⟨at_ { withPower { down := some 8, restarts := [1, 2] } with nowUs := 1000000 }, by decide⟩,
   ⟨at_ (withPower { down := some 6, opOff := true }), by decide⟩, ⟨at_ (withPower { down := some 3, opOff := true, locked := true }), by decide⟩,
   ⟨at_ (withPower { down := some 7, scanEn := true }), by decide⟩,
   ⟨at_ { withPower { down := some 5, restarts := [1, 2, 3] } with nowUs := 1000000 }, by decide⟩⟩
theorem witness_ResetHeartbeatAndClockRows : ∃ s : State, s.dev.power.down = none ∧ s.dev.power.input = .high :=
  ⟨at_ (withPower { input := .high }), by decide⟩
theorem witness_TrapIsRecordedOrCountedLost :
    (∃ (d : Dev) (h : Nat), (poolAlloc d 6 6 none).2 = some h) ∧
    (∃ (d : Dev) (h : Nat), (poolAlloc d 6 6 (some 5)).2 = none ∧ (poolAlloc (poolAlloc d 6 6 (some 5)).1 63 6 none).2 = some h) ∧
    (∃ d : Dev, (poolAlloc d 6 6 (some 5)).2 = none ∧ (poolAlloc (poolAlloc d 6 6 (some 5)).1 63 6 none).2 = none) := by
  let full : Dev := { up with pools := { bufs := (List.range 256).map fun i => (6 * 2 ^ 18 + i, { refs := 1, req := 6, job := some 5 }) } }
  refine ⟨⟨up, _, rfl⟩, ⟨{ full with pools := { full.pools with opened := [63] } }, _, ?_, rfl⟩, ⟨full, ?_, ?_⟩⟩ <;> decide +kernel
theorem witness_ExcursionsTrapOnceEach :
    (∃ s : State, s.dev.power.down = none ∧ s.dev.power.input = .ok ∧ s.dev.power.hot.contains 200 = false ∧ s.dev.power.inputExc = false) ∧
    (∃ s : State, s.dev.power.down = none ∧ s.dev.power.input = .ok ∧ s.dev.power.hot.contains 31 = true ∧ s.dev.power.inputExc = true) :=
  ⟨⟨at_ up, by decide⟩, ⟨at_ (withPower { hot := [31], inputExc := true }), by decide⟩⟩
theorem witness_ClockLossesHaveTheirEffects :
    (∃ s : State, s.dev.power.down = none ∧ s.dev.power.input = .ok ∧ s.dev.clocks.refOk = true ∧ s.dev.start.phase ≠ .power ∧
      s.dev.clocks.locked = true ∧ s.dev.clocks.lost.contains 39 = false) ∧
    (∃ s : State, s.dev.power.down = none ∧ s.dev.power.input = .ok ∧ s.dev.clocks.refOk = false) :=
  ⟨⟨at_ { up with clocks := { locked := true } }, by decide⟩, ⟨at_ { up with clocks := { refOk := false } }, by decide⟩⟩
/-- A device in a phase of start-up. -/
def inPhase (p : Phase) : Dev := { State.reset.dev with start := { phase := p, cpu := 0 } }
theorem witness_FirstPhasesChooseAndRestore :
    (∃ s : State, s.dev.power.down = none ∧ s.dev.power.input = .ok ∧ s.dev.start.phase = .power ∧ s.dev.clocks.refOk = true) ∧
    (∃ s : State, s.dev.power.down = none ∧ s.dev.power.input = .ok ∧ s.dev.start.phase = .power ∧ s.dev.clocks.refOk = false) ∧
    (∃ s : State, s.dev.power.down = none ∧ s.dev.power.input = .ok ∧ s.dev.start.phase = .rom ∧ s.dev.start.cpu = 0xFF ∧
      s.dev.start.cpuLost = []) ∧
    (∃ s : State, s.dev.power.down = none ∧ s.dev.power.input = .ok ∧ s.dev.start.phase = .rom ∧ s.dev.start.cpu ≠ 0xFF) ∧
    (∃ s : State, s.dev.power.down = none ∧ s.dev.power.input = .ok ∧ s.dev.start.phase = .restore ∧ flashRead s.dev 0x18 = none) ∧
    (∃ (s : State) (r : RecCopy), s.dev.power.down = none ∧ s.dev.power.input = .ok ∧ s.dev.start.phase = .restore ∧
      flashRead s.dev 0x18 = some r ∧ patchBad s.dev (denseWords r.body (r.len / 8)) = true) :=
  ⟨⟨at_ (inPhase .power), by decide⟩, ⟨at_ { inPhase .power with clocks := { refOk := false } }, by decide⟩, ⟨State.reset, by decide⟩,
   ⟨at_ (inPhase .rom), by decide⟩, ⟨at_ (inPhase .restore), by decide⟩,
   ⟨at_ { inPhase .restore with flash := { a := { copies := [mkCopy 0x18 1 136 []] } } }, mkCopy 0x18 1 136 [], rfl, rfl, rfl, by decide +kernel,
     by decide +kernel⟩⟩
/-- A patch image that is well formed (R697): version 1, 8 code bytes, unsigned. -/
def image : List W64 := [mkWord [(0x49505431, 32), (1, 0)], mkWord [(0x00010000, 32), (8, 0)], 0, 0, 0, 0, 0, 0, 0, 0, 0, 0, 0, 0, 0, 0, 0]
theorem witness_patch_well_formed : patchBad up image = false := by decide
theorem witness_RecordsResolveToTheNewerCopy :
    let c := fun n => mkCopy 0x12 n 8 []
    let l := fun (a : Option Nat) => ({ copies := (a.map c).toList } : FlashDev)
    (l (some 3)).newest 0x12 = some (c 3) ∧ (l (some 4)).newest 0x12 = some (c 4) ∧ (c 3).seq < (c 4).seq ∧ (l none).newest 0x12 = none ∧
    (l (some 3)).pos + (c 4).size + 32 * sectorBytes ≤ (l (some 3)).free := by decide +kernel
theorem witness_LaterPhasesDoTheirWork :
    (∃ (s : State) (fails : List Trigger) (links : List Nat), s.dev.power.down = none ∧ s.dev.power.input = .ok ∧ fails.all triggerOk = true ∧
      (∀ l ∈ links, l < 301) ∧ s.dev.start.phase = .patch ∧ fails ≠ [] ∧ links ≠ []) ∧
    (∃ s : State, s.dev.power.down = none ∧ s.dev.power.input = .ok ∧ s.dev.start.phase = .dies) ∧
    (∃ s : State, s.dev.power.down = none ∧ s.dev.power.input = .ok ∧ s.dev.start.phase = .memory) ∧
    (∃ s : State, s.dev.power.down = none ∧ s.dev.power.input = .ok ∧ s.dev.start.phase = .links ∧ linksDone s.dev = true) ∧
    (∃ s : State, s.dev.power.down = none ∧ s.dev.power.input = .ok ∧ s.dev.start.phase = .serve ∧ s.dev.start.phaseAt + 100000 ≤ s.dev.nowUs) ∧
    (∃ s : State, s.dev.power.down = none ∧ s.dev.power.input = .ok ∧ s.dev.start.phase = .bypass ∧ ∀ q, q < 16 → pairEnded s.dev q = true) :=
  ⟨⟨at_ (inPhase .patch), [.seam 143], [300], by decide⟩, ⟨at_ (inPhase .dies), by decide⟩, ⟨at_ (inPhase .memory), by decide⟩,
   ⟨at_ (inPhase .links), by decide +kernel⟩, ⟨at_ { inPhase .serve with nowUs := 100000 }, by decide⟩,
   ⟨at_ (inPhase .bypass), by decide +kernel⟩⟩
theorem witness_ProcessorsFailAndTakeOver :
    (∃ (s : State) (ms : Nat), s.dev.power.down = none ∧ s.dev.power.input = .ok ∧ phaseLimitMs s.dev.start.phase = some ms ∧
      haltedInRom s.dev = false ∧ s.dev.start.phaseAt + 1000 * ms < s.dev.nowUs) ∧
    (∃ s : State, s.dev.power.down = none ∧ s.dev.power.input = .ok ∧ pastRom s.dev = true ∧ s.dev.flash.lifeAt + 3600000000 ≤ s.dev.nowUs ∧
      s.dev.start.cpu ≠ 0xFF) ∧
    (∃ s : State, s.dev.power.down = none ∧ s.dev.power.input = .ok ∧ s.dev.start.cpu = 0xFF) ∧
    (∃ (s : State) (t : Nat), s.dev.flash.waitAt = some t ∧ s.dev.flash.waitTrap = false ∧ s.dev.flash.waits ≠ [] ∧ t + 1000000 ≤ s.dev.nowUs) ∧
    (∃ d : Dev, d.start.cpu < 2 ∧ d.start.cpuLost.contains (1 - d.start.cpu) = false) :=
  ⟨⟨at_ { inPhase .patch with nowUs := 100001 }, 100, by decide⟩, ⟨at_ { up with nowUs := 3600000000 }, by decide⟩, ⟨State.reset, by decide⟩,
   ⟨at_ { up with flash := { waits := [{ rid := 0x12, len := 8, body := [] }], waitAt := some 0 }, nowUs := 1000000 }, 0, by decide⟩,
   ⟨up, by decide⟩⟩

/-! ## Witnesses: commands -/

/-- A command packet with opcode, JOB and body, SESSION 1, SEQ 1 and TAG 0, from management port 0. -/
def cmd (op job : Nat) (body : List W64) : CmdPkt :=
  let h := [mkWord [(1, 56), (1, 52), (op, 32), (job, 24), (8 * body.length, 0)], mkWord [(1, 32), (1, 0)], 0]
  { src := .mgmt 0 0 0, words := h ++ [mkWord [((crc32c (wordsBytes (h ++ [0] ++ body))).toNat, 0)]] ++ body }
/-- Segment 0 of a segmented command that has one segment. -/
def seg (op job : Nat) (body : List W64) : CmdPkt := cmd op job (mkWord [(8 * body.length, 32)] :: body)

/-- A packet passes the shared checks and `q` holds of what it runs on. -/
def runs (s : State) (p : CmdPkt) (q : Dev → Cmd → Bool) : Bool :=
  match frontEnd s.dev p with
  | .run d c => q d c
  | _ => false

theorem of_runs {op : Nat} {s : State} {p : CmdPkt} {q : Dev → Cmd → Bool} (h : cmdRowOk op p = true) (g : runs s p q = true) :
    ∃ d c, Ran op p s d c ∧ q d c = true := by
  unfold runs at g
  split at g
  · exact ⟨_, _, ⟨h, by assumption⟩, g⟩
  · exact absurd g (by decide)

/-- The command `p` on the device `x` meets `P`. -/
theorem ran_by {op : Nat} {P : State → Dev → Cmd → Prop} [∀ s d c, Decidable (P s d c)] (x : Dev) (p : CmdPkt)
    (h : cmdRowOk op p = true) (g : runs (at_ x) p (fun d c => decide (P (at_ x) d c)) = true) :
    ∃ p s d c, Ran op p s d c ∧ P s d c := by
  obtain ⟨d, c, r, q⟩ := of_runs h g
  exact ⟨p, _, d, c, r, of_decide_eq_true q⟩

/-- A job of one module, with member 7 on port 40 and region 3 of 2,048 elements. -/
def job1 : Job :=
  { q := 1, serials := [0x1000#64], ordinal := 0, fanout := 4, haulFmt := 1, inband := true, seed := 0, stepCur := 9, commit := mkCommit 8 0
    quotas := createQuotas, addrs := [some 0], members := [(7, { portA := 40, portB := none, home := 40 })]
    regions := [(3, { length := 2048, rule := 2, fmts := [0, 0, 0, 0], stateEn := 0, deal := 0, haul := [1, 1], tag := mkTag true true false 8 })] }

/-- A device at work that holds the job as job 5, with ports 40 and 41 UP as member ports. -/
def withJob (jb : Job) : Dev :=
  { up with jobs := [(5, jb)], ports := [(40, { role := 1, st := .up }), (41, { role := 1, st := .up })] }
/-- The job's rule slot 2, of schedule entry 4: only EPS is not zero. -/
def rule1 : List W64 := [mkWord [(4, 48)], 0, 0, 0, 0, 0, 0, 0, 0, 0, 0, 0, fpOne, 0, 0, 0, 0]
/-- A schedule entry: no decay, multipliers 1. -/
def sched1 : List W64 := [0, 0, mkWord [(1, 0)], 0, 0, 0, 0, 0, 0, 0, fpOne]
/-- A device that holds the job with its rule slot and schedule entry. -/
def withRule (jb : Job) : Dev := { withJob jb with rules := [(2, { job := 5, words := rule1 })], scheds := [(4, { job := 5, words := sched1 })] }

theorem witness_SharedChecksChangeOnlyWhatIsAside : ∃ (s : State) (p : CmdPkt) (d : Dev) (c : Cmd), frontEnd s.dev p = .run d c ∧
    (∃ r n, opRow (cmdOpcode p) = some r ∧ r.body = .fixed n) := by
  obtain ⟨d, c, r, _⟩ := of_runs (op := 0x0001) (s := at_ up) (p := cmd 0x0001 0xFF []) (q := fun _ _ => true) (by decide) (by decide +kernel)
  exact ⟨_, _, d, c, r.2, { scope := .readModule, body := .fixed 0, early := true }, 0, by decide, rfl⟩
/-- A waiting command. -/
def waiting1 : Waiting :=
  { inband := false, job := 0, who := 63, session := 1, seq := 1, tag := 0, opcode := 0x48, hjob := 5, since := 0, src := .mgmt 0 0 0, object := 0 }
theorem witness_FinalReplyIsSentAndEndsTheCommand : ∃ (d : Dev) (w : Waiting) (r : Reply),
    w.muted = false ∧ d.start.takeover = none ∧ r.body.length ≤ 8 ∧ r.body.length = 8 :=
  ⟨up, waiting1, okReply (List.replicate 8 0), by decide⟩
theorem witness_ReadCommandsAnswerAndChangeNothing :
    (∃ p s d c, Ran 0x0001 p s d c ∧ c.op = 1) ∧
    (∃ p s d c, Ran 0x0014 p s d c ∧ getJob s.dev c.job = some job1) ∧
    (∃ p s d c, Ran 0x0053 p s d c ∧ getJob s.dev c.job = some job1) ∧
    (∃ p s d c, Ran 0x005A p s d c ∧ c.op = 0x5A) ∧
    (∃ p s d c, Ran 0x0032 p s d c ∧ rsvdSet (wordAt c.body 0) [(63, 14)] = false ∧ field (wordAt c.body 0) 13 0 = 16383 ∧
      (getCtx s.dev (field (wordAt c.body 0) 13 0)).holder = none) ∧
    (∃ p s d c, Ran 0x0032 p s d c ∧ rsvdSet (wordAt c.body 0) [(63, 14)] = false ∧
      (getCtx s.dev (field (wordAt c.body 0) 13 0)).holder = some c.job) ∧
    (∃ p s d c, Ran 0x0028 p s d c ∧ rsvdSet (wordAt c.body 0) [(63, 12)] = false ∧ rsvdSet (wordAt c.body 1) [(63, 48)] = false ∧
      (SMap.get? s.dev.scheds (field (wordAt c.body 0) 11 0)).map (·.job) = some c.job) ∧
    (∃ p s d c, Ran 0x0005 p s d c ∧ rsvdSet (wordAt c.body 0) [(63, 48)] = false ∧ 1 ≤ field (wordAt c.body 0) 47 32 ∧
      field (wordAt c.body 0) 47 32 ≤ 176 ∧ field (wordAt c.body 0) 2 0 = 0 ∧
      (∀ a ∈ (List.range (field (wordAt c.body 0) 47 32)).map fun i => field (wordAt c.body 0) 31 0 + 8 * i, regMapped a = true ∧ a ≠ 0x208)) ∧
    (∃ p s d c, Ran 0x0005 p s d c ∧ rsvdSet (wordAt c.body 0) [(63, 48)] = false ∧ 1 ≤ field (wordAt c.body 0) 47 32 ∧
      field (wordAt c.body 0) 47 32 ≤ 176 ∧ field (wordAt c.body 0) 2 0 = 0 ∧
      (∀ a ∈ (List.range (field (wordAt c.body 0) 47 32)).map fun i => field (wordAt c.body 0) 31 0 + 8 * i, regMapped a = true) ∧
      0x208 ∈ (List.range (field (wordAt c.body 0) 47 32)).map fun i => field (wordAt c.body 0) 31 0 + 8 * i) ∧
    (∃ p s d c, Ran 0x0007 p s d c ∧ rsvdSet (wordAt c.body 0) [(63, 48)] = false ∧ 1 ≤ field (wordAt c.body 0) 47 32 ∧
      field (wordAt c.body 0) 47 32 ≤ 176 ∧ field (wordAt c.body 0) 2 0 = 0 ∧
      (∀ a ∈ (List.range (field (wordAt c.body 0) 47 32)).map fun i => field (wordAt c.body 0) 31 0 + 8 * i,
        (jobWindowWord d c.job a).isSome = true)) ∧
    (∃ p s d c, Ran 0x003B p s d c ∧ (getJob d c.job).any (fun jb => SMap.has jb.graphs (field (wordAt c.body 0) 39 32)) = true ∧
      rsvdSet (wordAt c.body 0) [(63, 40)] = false ∧ field (wordAt c.body 0) 2 0 = 0) ∧
    (∃ p s d c, Ran 0x006A p s d c ∧ rsvdSet (wordAt c.body 0) [(63, 32)] = false ∧ field (wordAt c.body 0) 2 0 = 0) ∧
    (∃ p s d c, Ran 0x0070 p s d c ∧ rsvdSet (wordAt c.body 0) [(63, 32)] = false ∧ field (wordAt c.body 0) 2 0 = 0) :=
  ⟨ran_by up (cmd 0x0001 0xFF []) (by decide) (by decide +kernel),
   ran_by (withJob job1) (cmd 0x0014 5 []) (by decide) (by decide +kernel),
   ran_by (withJob job1) (cmd 0x0053 5 []) (by decide) (by decide +kernel),
   ran_by up (cmd 0x005A 0xFF []) (by decide) (by decide +kernel),
   ran_by (withJob job1) (cmd 0x0032 5 [16383]) (by decide) (by decide +kernel),
   ran_by { withJob job1 with ctxs := [(2, { holder := some 5, state := .done })] } (cmd 0x0032 5 [2]) (by decide) (by decide +kernel),
   ran_by (withRule job1) (cmd 0x0028 5 [4, 9]) (by decide) (by decide +kernel),
   ran_by up (cmd 0x0005 0xFF [mkWord [(3, 32)]]) (by decide) (by decide +kernel),
   ran_by up (cmd 0x0005 0xFF [mkWord [(1, 32), (0x208, 0)]]) (by decide) (by decide +kernel),
   ran_by (withJob job1) (cmd 0x0007 5 [mkWord [(1, 32), (0, 0)]]) (by decide) (by decide +kernel),
   ran_by (withJob { job1 with graphs := [(6, { nodes := [] })] }) (cmd 0x003B 5 [mkWord [(6, 32)]]) (by decide) (by decide +kernel),
   ran_by up (cmd 0x006A 0xFF [8]) (by decide) (by decide +kernel),
   ran_by up (cmd 0x0070 0xFF [0]) (by decide) (by decide +kernel)⟩
/-- A plan of two entries for different ports, each within its checks. -/
theorem plan_entries_ok : ∃ p s d c, Ran 0x0068 p s d c ∧
    (let es := (List.range (field (wordAt c.body 0) 8 0)).map (planWords c.body)
     rsvdSet (wordAt c.body 0) [(63, 9)] = false ∧ (es.all fun e => rsvdSet e.1 [(63, 32), (15, 9)] == false) = true ∧
     c.body.length = 1 + 2 * field (wordAt c.body 0) 8 0 ∧ 1 ≤ field (wordAt c.body 0) 8 0 ∧ field (wordAt c.body 0) 8 0 ≤ 288 ∧
     (es.all fun e => decide (planPort e ≤ 287 ∧ planBad e = false)) = true ∧ (es.map planPort).Nodup) :=
  ran_by up (seg 0x0068 0xFF [2, mkWord [(287, 0)], 0, mkWord [(0, 0)], 0]) (by decide) (by decide +kernel)
theorem witness_SettingsAreWritten :
    (∃ p s d c, Ran 0x0002 p s d c ∧ rsvdSet (wordAt c.body 0) [(63, 6)] = false ∧
      rsvdSet (wordAt c.body 3) [(61, 48), (31, 0)] = false ∧ field (wordAt c.body 3) 63 62 ≠ 0) ∧
    (∃ p s d c, Ran 0x0002 p s d c ∧ rsvdSet (wordAt c.body 0) [(63, 6)] = false ∧
      rsvdSet (wordAt c.body 3) [(61, 48), (31, 0)] = false ∧ field (wordAt c.body 3) 63 62 = 0 ∧
      BitVec.ofNat 128 ((wordAt c.body 1).toNat + 2 ^ 64 * (wordAt c.body 2).toNat) = 0 ∧
      field (wordAt c.body 3) 47 32 = 0 ∧ wordAt c.body 4 = 0) ∧
    (∃ p s d c, Ran 0x0008 p s d c ∧ rsvdSet (wordAt c.body 2) [(47, 35)] = false ∧ 1000 ≤ field (wordAt c.body 2) 31 0 ∧
      field (wordAt c.body 2) 31 0 ≤ 10000000 ∧ (wordAt c.body 3).toNat < 256) ∧
    (∃ p s d c, Ran 0x0008 p s d c ∧ rsvdSet (wordAt c.body 2) [(47, 35)] = false ∧ field (wordAt c.body 2) 31 0 = 0 ∧
      (wordAt c.body 3).toNat < 256) ∧
    (∃ p s d c, Ran 0x0003 p s d c ∧ patchBad d c.body = false ∧ storedPatchVer d < field (wordAt c.body 0) 31 0) ∧
    (∃ p s d c, Ran 0x0004 p s d c ∧ rsvdSet (wordAt c.body 0) [(63, 11)] = false ∧ field (wordAt c.body 0) 8 0 ≤ 287 ∧
      field (wordAt c.body 0) 10 9 ≠ 3 ∧ ¬(256 ≤ field (wordAt c.body 0) 8 0 ∧ field (wordAt c.body 0) 10 9 = 1) ∧
      posState d (field (wordAt c.body 0) 8 0) ≠ 2 ∧
      ¬(field (wordAt c.body 0) 8 0 < 256 ∧ field (wordAt c.body 0) 10 9 ≠ 0 ∧ (getPort d (field (wordAt c.body 0) 8 0)).role = 0 ∧
        14 ≤ activePorts d (field (wordAt c.body 0) 8 0 / 16)) ∧
      (portAttached d (field (wordAt c.body 0) 8 0) = true → field (wordAt c.body 0) 10 9 = 1)) ∧
    (∃ p s d c, Ran 0x0068 p s d c ∧
      (let es := (List.range (field (wordAt c.body 0) 8 0)).map (planWords c.body)
       rsvdSet (wordAt c.body 0) [(63, 9)] = false ∧ (∀ e ∈ es, rsvdSet e.1 [(63, 32), (15, 9)] = false) ∧
       c.body.length = 1 + 2 * field (wordAt c.body 0) 8 0 ∧ 1 ≤ field (wordAt c.body 0) 8 0 ∧ field (wordAt c.body 0) 8 0 ≤ 288 ∧
       (∀ e ∈ es, planPort e ≤ 287 ∧ planBad e = false) ∧ (es.map planPort).Nodup)) :=
  ⟨ran_by up (cmd 0x0002 0xFF [63, 9, 8, mkWord [(3, 62), (7, 32)], 1]) (by decide) (by decide +kernel),
   ran_by up (cmd 0x0002 0xFF [63, 0, 0, 0, 0]) (by decide) (by decide +kernel),
   ran_by up (cmd 0x0008 0xFF [9, 0, mkWord [(1000, 0), (3, 32)], 255]) (by decide) (by decide +kernel),
   ran_by up (cmd 0x0008 0xFF [9, 0, mkWord [(3, 32)], 0]) (by decide) (by decide +kernel),
   ran_by up (seg 0x0003 0xFF image) (by decide) (by decide +kernel),
   ran_by up (cmd 0x0004 0xFF [mkWord [(2, 9), (287, 0)]]) (by decide) (by decide +kernel),
   by
     obtain ⟨p, s, d, c, r, h0, h1, h2, h3, h4, h5, h6⟩ := plan_entries_ok
     exact ⟨p, s, d, c, r, h0, fun e he => eq_of_beq (List.all_eq_true.mp h1 e he), h2, h3, h4,
       fun e he => of_decide_eq_true (List.all_eq_true.mp h5 e he), h6⟩⟩
theorem witness_RegisterWritesDoWhatTheRegisterDoes :
    (∃ p s d c, Ran 0x0006 p s d c ∧ rsvdSet (wordAt c.body 0) [(63, 32)] = false ∧ field (wordAt c.body 0) 31 0 = 0x2600) ∧
    (∃ p s d c, Ran 0x0006 p s d c ∧ rsvdSet (wordAt c.body 0) [(63, 32)] = false ∧ field (wordAt c.body 0) 31 0 = 0x4000 + 64 * 287) ∧
    (∃ p s d c, Ran 0x0006 p s d c ∧ rsvdSet (wordAt c.body 0) [(63, 32)] = false ∧ field (wordAt c.body 0) 31 0 = 0x300) ∧
    (∃ p s d c, Ran 0x0006 p s d c ∧ rsvdSet (wordAt c.body 0) [(63, 32)] = false ∧ field (wordAt c.body 0) 31 0 = 0x1000 + 8 * 511) ∧
    (∃ p s d c, Ran 0x0006 p s d c ∧ rsvdSet (wordAt c.body 0) [(63, 32)] = false ∧ field (wordAt c.body 0) 31 0 = 0x2000 + 8 * 63) ∧
    (∃ p s d c, Ran 0x0006 p s d c ∧ rsvdSet (wordAt c.body 0) [(63, 32)] = false ∧ field (wordAt c.body 0) 31 0 % 8 ≠ 0) :=
  ⟨ran_by up (cmd 0x0006 0xFF [0x2600, 3]) (by decide) (by decide +kernel),
   ran_by up (cmd 0x0006 0xFF [0x87C0, 0]) (by decide) (by decide +kernel),
   ran_by up (cmd 0x0006 0xFF [0x300, 3]) (by decide) (by decide +kernel),
   ran_by up (cmd 0x0006 0xFF [0x1FF8, 3]) (by decide) (by decide +kernel),
   ran_by up (cmd 0x0006 0xFF [0x21F8, 3]) (by decide) (by decide +kernel),
   ran_by up (cmd 0x0006 0xFF [0x2604, 3]) (by decide) (by decide +kernel)⟩
theorem witness_JobsAreMadeAndEnded :
    (∃ p s d c, Ran 0x0010 p s d c ∧
      (let b := c.body
       let w := wordAt b 0
       let q := field w 57 48
       let serials := (b.drop 4).take q
       rsvdSet w [(63, 58), (47, 41), (31, 14), (3, 1)] = false ∧ rsvdSet (wordAt b 1) [(63, 48)] = false ∧
       rsvdSet (wordAt b 2) [(63, 8)] = false ∧ 1 ≤ q ∧ q ≤ 512 ∧ field w 40 32 < q ∧ field w 7 4 ≤ 8 ∧ b.length = 4 + q ∧
       ofmtHaulOk (BitVec.ofNat 8 (field (wordAt b 2) 7 0)) = true ∧ serials.contains 0 = false ∧ hasRepeat serials = false ∧
       serials.getD (field w 40 32) 0 = d.fac.serial ∧ getJob d (field w 13 8) = none ∧ SMap.firstFree d.syncs 0 8192 = some 0)) ∧
    (∃ p s d c, Ran 0x0011 p s d c ∧ getJob d (field (wordAt c.body 0) 5 0) = some job1 ∧ rsvdSet (wordAt c.body 0) [(63, 6)] = false ∧
      job1.sealSt.state = .opened ∧ ctxsActive d (field (wordAt c.body 0) 5 0) = false ∧ transfersActive job1 = false ∧
      recording job1 = false ∧ replaying job1 = false) ∧
    (∃ p s d c, Ran 0x0012 p s d c ∧ rsvdSet (wordAt c.body 0) [(13, 6)] = false ∧ rsvdSet (wordAt c.body 1) [(63, 48)] = false ∧
      rsvdSet (wordAt c.body 2) [(63, 40)] = false ∧ getJob s.dev (field (wordAt c.body 0) 5 0) = some job1 ∧
      quotaBad (quotaBody c.body) = false) ∧
    (∃ p s d c, Ran 0x0013 p s d c ∧ getJob s.dev c.job = some job1 ∧
      (field (wordAt c.body 0) 63 32 = 0 ∨ 100 ≤ field (wordAt c.body 0) 63 32 ∧ field (wordAt c.body 0) 63 32 ≤ 1000000) ∧
      (field (wordAt c.body 0) 31 0 = 0 ∨ 500 ≤ field (wordAt c.body 0) 31 0 ∧ field (wordAt c.body 0) 31 0 ≤ 100000)) ∧
    (∃ p s d c, Ran 0x0013 p s d c ∧ getJob s.dev c.job = some job1 ∧
      (field (wordAt c.body 0) 63 32 ≠ 0 ∧ (field (wordAt c.body 0) 63 32 < 100 ∨ 1000000 < field (wordAt c.body 0) 63 32) ∨
        field (wordAt c.body 0) 31 0 ≠ 0 ∧ (field (wordAt c.body 0) 31 0 < 500 ∨ 100000 < field (wordAt c.body 0) 31 0))) :=
  ⟨ran_by up (seg 0x0010 0xFF [mkWord [(1, 48), (5, 8), (4, 4), (1, 0)], 9, 1, 0, 0x1000]) (by decide) (by decide +kernel),
   ran_by (withJob job1) (cmd 0x0011 0xFF [5]) (by decide) (by decide +kernel),
   ran_by (withJob job1) (cmd 0x0012 0xFF [mkWord [(100, 32), (64, 14), (5, 0)], mkWord [(9, 32), (9, 16), (1, 0)], mkWord [(9, 16), (9, 0)],
     0x0101010101010101]) (by decide) (by decide +kernel),
   ran_by (withJob job1) (cmd 0x0013 5 [mkWord [(100, 32), (100000, 0)]]) (by decide) (by decide +kernel),
   ran_by (withJob job1) (cmd 0x0013 5 [mkWord [(99, 32)]]) (by decide) (by decide +kernel)⟩
theorem witness_MembersAttachAndDetach :
    (∃ p s d c, Ran 0x0015 p s d c ∧ getJob d c.job = some job1 ∧ rsvdSet (wordAt c.body 0) [(63, 44), (31, 25), (15, 9)] = false ∧
      field (wordAt c.body 0) 8 0 ≤ 287 ∧ (field (wordAt c.body 0) 24 16 ≤ 287 ∨ field (wordAt c.body 0) 24 16 = 0x1FF) ∧
      field (wordAt c.body 0) 8 0 ≠ field (wordAt c.body 0) 24 16 ∧ (getPort d (field (wordAt c.body 0) 8 0)).role = 1 ∧
      field (wordAt c.body 0) 24 16 = 0x1FF ∧ SMap.has job1.members (field (wordAt c.body 0) 43 32) = false ∧
      homesClash d (field (wordAt c.body 0) 8 0) none = false) ∧
    (∃ p s d c, Ran 0x0016 p s d c ∧ getJob d c.job = some job1 ∧ rsvdSet (wordAt c.body 0) [(63, 44), (31, 0)] = false ∧
      SMap.has job1.members (field (wordAt c.body 0) 43 32) = true ∧ memberSources d c.job (field (wordAt c.body 0) 43 32) = false) :=
  ⟨ran_by (withJob job1) (cmd 0x0015 5 [mkWord [(4095, 32), (0x1FF, 16), (41, 0)]]) (by decide) (by decide +kernel),
   ran_by (withJob job1) (cmd 0x0016 5 [mkWord [(7, 32)]]) (by decide) (by decide +kernel)⟩
theorem witness_RulesAndSchedulesAreHeldAndFreed :
    (∃ p s d c, Ran 0x0026 p s d c ∧ getJob s.dev c.job = some job1 ∧
      (let k := field (wordAt c.body 0) 11 0
       let r := c.body.drop 1
       rsvdSet (wordAt c.body 0) [(63, 12)] = false ∧ k = 4095 ∧ SMap.get? s.dev.rules k = none ∧
       ruleCheck r (entryOf s.dev c.job (rsEntry r)) = 0 ∧ ruleInStep job1 k = false ∧ ruleChanges job1 k r = false ∧
       (s.dev.rules.filter fun e => e.2.job == c.job).length < 256)) ∧
    (∃ p s d c, Ran 0x0027 p s d c ∧ getJob s.dev c.job = some job1 ∧
      (let k := field (wordAt c.body 0) 11 0
       rsvdSet (wordAt c.body 0) [(63, 12)] = false ∧ SMap.get? s.dev.scheds k = some { job := c.job, words := sched1 } ∧
       schedCheck (c.body.drop 1) = 0 ∧ schedUsed s.dev c.job job1 k = false)) ∧
    (∀ k3 ∈ [1, 2, 3], ∃ p s d c, Ran 0x0029 p s d c ∧ getJob s.dev c.job = some { job1 with regions := [] } ∧
      (let k := field (wordAt c.body 0) 11 0
       let kind := field (wordAt c.body 0) 63 56
       rsvdSet (wordAt c.body 0) [(55, 12)] = false ∧ kind = k3 ∧ 1 ≤ kind ∧ kind ≤ 3 ∧ (kind = 1 → k ≤ 255) ∧
       objJob s.dev kind k = some c.job ∧ objUsed s.dev c.job kind k = false)) := by
  refine ⟨ran_by (withRule job1) (cmd 0x0026 5 (4095 :: rule1)) (by decide) (by decide +kernel),
   ran_by { withRule job1 with rules := [] } (cmd 0x0027 5 (4 :: sched1)) (by decide) (by decide +kernel), ?_⟩
  intro k3 h
  rcases List.mem_cons.mp h with rfl | h
  · exact ran_by { withJob { job1 with regions := [] } with maps := [(255, { job := 5, dupPoison := false, nmemb := [], ranks := [], crc := 0 })] }
      (cmd 0x0029 5 [mkWord [(1, 56), (255, 0)]]) (by decide) (by decide +kernel)
  rcases List.mem_cons.mp h with rfl | h
  · exact ran_by (withRule { job1 with regions := [] }) (cmd 0x0029 5 [mkWord [(2, 56), (2, 0)]]) (by decide) (by decide +kernel)
  rcases List.mem_cons.mp h with rfl | h
  · exact ran_by { withRule { job1 with regions := [] } with rules := [] } (cmd 0x0029 5 [mkWord [(3, 56), (4, 0)]]) (by decide) (by decide +kernel)
  cases h
theorem witness_RankMapsAreHeld :
    ∃ p s d c, Ran 0x0025 p s d c ∧ getJob s.dev c.job = some job1 ∧
      (let slot := field (wordAt c.body 0) 7 0
       let b := c.body.drop 1
       let m := bodyMap c.job b
       let own := (ownRanks job1 m).flatMap rankSources
       rsvdSet (wordAt c.body 0) [(63, 8)] = false ∧ slot = 255 ∧ SMap.get? s.dev.maps slot = none ∧
       b.length = 1 + groupWords (mapGroups b) + mapRanks b ∧ mapRsvd b = false ∧ 1 ≤ mapRanks b ∧ mapRanks b ≤ 4096 ∧
       mapGroups b = job1.q ∧ m.nmemb.foldl (· + ·) 0 = mapRanks b ∧ (∀ e ∈ m.ranks, e.bakEn = false → e.bak = 0 ∧ e.prefer = false) ∧
       (∀ e ∈ m.ranks, e.bakEn = true → e.pri ≠ e.bak) ∧ (∀ x ∈ own, SMap.has job1.members x = true) ∧ own.Nodup ∧
       mapUsed s.dev slot = false ∧ (s.dev.maps.filter fun e => e.2.job == c.job).length < 32) :=
  ran_by (withJob job1) (seg 0x0025 5 [255, mkWord [(1, 16), (1, 0)], 1, mkWord [(7, 32)]]) (by decide) (by decide +kernel)
theorem witness_RegionCommandsMakeEndAndSetRegions :
    (∃ p s d c, Ran 0x0020 p s d c ∧ getJob d c.job = some job1 ∧
      (let b := c.body
       let w := wordAt b 0
       let rn := field w 61 48
       let en := rsStateEn rule1
       let r := bodyRegion job1 en b
       let fmt := fun i => r.fmts.getD i (0 : Byte)
       rsvdSet w [(63, 62), (47, 43)] = false ∧ rsvdSet (wordAt b 1) [(63, 60), (47, 32)] = false ∧ rsvdSet (wordAt b 2) [(63, 9)] = false ∧
       1 ≤ field w 42 0 ∧ field w 42 0 ≤ 2 ^ 42 ∧ SMap.get? d.rules (field (wordAt b 1) 59 48) = some { job := c.job, words := rule1 } ∧
       ofmtStoreOk (fmt 0) = true ∧ (∀ i, i < 3 → if en / 2 ^ i % 2 = 1 then ofmtStoreOk (fmt (i + 1)) = true else fmt (i + 1) = 0) ∧
       r.deal < job1.q ∧ getRegion job1 rn = none ∧ rn = 16383 ∧ job1.regions.length < job1.quotas.region ∧ regionCount d < 65536 ∧
       noMem d job1 rn r = (false, false, false) ∧ (getJob (createRegion d c.job rn job1 r) c.job).isSome = true)) ∧
    (∃ p s d c, Ran 0x0021 p s d c ∧ getJob d c.job = some job1 ∧
      (let w := wordAt c.body 0
       rsvdSet w [(63, 62), (47, 0)] = false ∧ getRegion job1 (field w 61 48) = SMap.get? job1.regions 3 ∧
       regionUsed d c.job job1 (field w 61 48) = false ∧
       ((getRegion job1 (field w 61 48)).bind fun r => getJob (destroyRegion d c.job (field w 61 48) job1 r) c.job).isSome = true)) ∧
    (∃ p s d c, Ran 0x0023 p s d c ∧ getJob d c.job = some job1 ∧
      (let w := wordAt c.body 0
       let n := field w 1 0 + 1
       let hf := fun i => BitVec.ofNat 8 (field w (39 + 8 * i) (32 + 8 * i))
       (getRegion job1 (field w 29 16)).isSome = true ∧ rsvdSet w [(31, 30), (15, 2)] = false ∧ (∀ i, i < 4 → n ≤ i → hf i = 0) ∧
       (∀ i, i < n → ofmtHaulOk (hf i) = true) ∧ regionInFlight job1 (field w 29 16) = false ∧
       (∀ e ∈ job1.members, haulSub e.2 (field w 29 16) = some 0) ∧ 1 ≤ n)) ∧
    (∃ p s d c, Ran 0x0024 p s d c ∧ getJob d c.job = some job1 ∧
      (let w := wordAt c.body 0
       let m := field w 43 32
       ((getRegion job1 (field w 29 16)).map fun r => decide (field w 1 0 < r.haul.length)) = some true ∧
       rsvdSet w [(63, 44), (31, 30), (15, 3)] = false ∧ (flag w 2 = true → field w 1 0 = 0) ∧ (c.sender.role = 4 → m = c.sender.who) ∧
       SMap.has job1.members m = true ∧ regionInFlight job1 (field w 29 16) = false)) :=
  ⟨ran_by (withRule job1) (cmd 0x0020 5 [mkWord [(16383, 48), (5000, 0)], mkWord [(2, 48)], 0]) (by decide) (by decide +kernel),
   ran_by (withJob job1) (cmd 0x0021 5 [mkWord [(3, 48)]]) (by decide) (by decide +kernel),
   ran_by (withJob job1) (cmd 0x0023 5 [mkWord [(1, 40), (1, 32), (3, 16), (1, 0)]]) (by decide) (by decide +kernel),
   ran_by (withJob job1) (cmd 0x0024 5 [mkWord [(7, 32), (3, 16), (1, 0)]]) (by decide) (by decide +kernel)⟩
theorem witness_LoadsBeginAndWait :
    (∃ p s d c, Ran 0x0022 p s d c ∧ getJob d c.job = some job1 ∧
      (let w := wordAt c.body 0
       let x := wordAt c.body 1
       rsvdSet w [(63, 62), (47, 44)] = false ∧ rsvdSet x [(31, 1)] = false ∧ wordAt c.body 3 = 0 ∧
       ((getRegion job1 (field w 61 48)).map fun r => decide (field w 31 0 + field x 63 32 ≤ nSlabs r)) = some true ∧
       1 ≤ field x 63 32 ∧ SMap.has job1.members (field w 43 32) = true ∧ loadBlocked d c.job job1 (field w 61 48) = false)) ∧
    (∃ p s d c, Ran 0x0052 p s d c ∧ getJob d c.job = some job1 ∧
      (let w := wordAt c.body 0
       let x := wordAt c.body 1
       rsvdSet w [(63, 48)] = false ∧ rsvdSet x [(63, 12)] = false ∧ SMap.has job1.members (field x 11 0) = true ∧
       ctxsActive d c.job = false ∧ job1.sealSt.state = .opened ∧ (job1.inFlight = true → job1.buckets = []) ∧ job1.loads = [] ∧
       job1.snap.active = false ∧ rebuilding job1 = false)) :=
  ⟨ran_by (withJob job1) (cmd 0x0022 5 [mkWord [(3, 48), (7, 32)], mkWord [(2, 32), (1, 0)], 9, 0]) (by decide) (by decide +kernel),
   ran_by (withJob job1) (cmd 0x0052 5 [8, 7]) (by decide) (by decide +kernel)⟩
theorem witness_SyncObjectsAreMadeAndFreed :
    (∃ p s d c, Ran 0x0040 p s d c ∧ getJob s.dev c.job = some job1 ∧ rsvdSet (wordAt c.body 0) [(55, 0)] = false ∧
      syncInitBad (field (wordAt c.body 0) 63 56) (wordAt c.body 1) = false ∧
      (s.dev.syncs.filter fun e => e.2.job == c.job).length < job1.quotas.sync ∧ SMap.firstFree s.dev.syncs 0 8192 = some 0) ∧
    (∃ p s d c, Ran 0x0041 p s d c ∧ getJob s.dev c.job = some job1 ∧
      SMap.get? s.dev.syncs (field (wordAt c.body 0) 12 0) = some { job := c.job, kind := .counter } ∧
      rsvdSet (wordAt c.body 0) [(63, 13)] = false ∧ syncNamed job1 (field (wordAt c.body 0) 12 0) = false) :=
  ⟨ran_by (withJob job1) (cmd 0x0040 5 [mkWord [(2, 56)], 65535]) (by decide) (by decide +kernel),
   ran_by { withJob job1 with syncs := [(8191, { job := 5, kind := .counter })] } (cmd 0x0041 5 [8191]) (by decide) (by decide +kernel)⟩
theorem witness_SyncOperationsFollowTheTable :
    (∃ p s d c, Ran 0x0042 p s d c ∧ SMap.get? d.syncs (field (wordAt c.body 0) 12 0) = some { job := c.job, kind := .barrier, value := 0x10000 } ∧
      rsvdSet (wordAt c.body 0) [(55, 13)] = false ∧ syncOpOk .barrier (field (wordAt c.body 0) 63 56) = true ∧
      syncOperandOk (field (wordAt c.body 0) 63 56) (wordAt c.body 1) = true) ∧
    (∃ p s d c, Ran 0x0042 p s d c ∧ SMap.get? d.syncs (field (wordAt c.body 0) 12 0) = some { job := c.job, kind := .barrier, value := 0x10000 } ∧
      rsvdSet (wordAt c.body 0) [(55, 13)] = false ∧ syncOpOk .barrier (field (wordAt c.body 0) 63 56) = false) ∧
    (∃ (d : Dev) (n : Node) (o : SyncObj), SMap.get? d.syncs (nodeSync n) = some o ∧ o.job = 5 ∧ syncOpOk o.kind (nodeOp n) = true ∧
      syncOperandOk (nodeOp n) (wordAt n.words 2) = true) ∧
    (∃ v : W64, 1 ≤ field v 31 16) :=
  ⟨ran_by { withJob job1 with syncs := [(8191, { job := 5, kind := .barrier, value := 0x10000 })] } (cmd 0x0042 5 [mkWord [(16, 56), (8191, 0)], 1])
     (by decide) (by decide +kernel),
   ran_by { withJob job1 with syncs := [(8191, { job := 5, kind := .barrier, value := 0x10000 })] } (cmd 0x0042 5 [mkWord [(1, 56), (8191, 0)], 1])
     (by decide) (by decide +kernel),
   ⟨{ up with syncs := [(0, { job := 5, kind := .counter, value := 3 })] }, { words := [], preds := [] }, _, rfl, by decide⟩, ⟨0x10000, by decide⟩⟩
/-- A rank map of one group and one rank, sourced by member 7. -/
def map1 : RankMap := { job := 5, dupPoison := true, nmemb := [1], ranks := [{ pri := 7 }], crc := 0 }
/-- The body of a CTX_OPEN of context 16,383 under EPOCH 2: region 3, slab 0, format 1, map slot 6. -/
def open1 : List W64 := [mkWord [(2, 48), (16383, 32), (3, 16), (6, 8), (1, 0)], 0, 0, fpOne, 0, 0, 0, 0]
theorem witness_ContextCommandsDrainTheContext :
    (∃ p s d c, Ran 0x0030 p s d c ∧ getJob d c.job = some job1 ∧
      openCheck d c.job job1 (openCtxNo c.body) (openParams job1.hold c.body) (openFieldsOk c.body) = none ∧
      (getCtx d (openCtxNo c.body)).state = .free) ∧
    (∃ p s d c, Ran 0x0030 p s d c ∧ getJob d c.job = some job1 ∧
      openCheck d c.job job1 (openCtxNo c.body) (openParams job1.hold c.body) (openFieldsOk c.body) = none ∧
      (getCtx d (openCtxNo c.body)).state = .done) ∧
    (∃ p s d c, Ran 0x0031 p s d c ∧ getJob d c.job = some job1 ∧
      (let w := wordAt c.body 0
       let x := getCtx d (field w 13 0)
       rsvdSet w [(63, 17), (15, 14)] = false ∧ x.holder = some c.job ∧ x.state = .idle ∧ flag w 16 = true ∧ x.drain = .none)) ∧
    (∃ p s d c, Ran 0x0031 p s d c ∧ getJob d c.job = some job1 ∧
      (let w := wordAt c.body 0
       let x := getCtx d (field w 13 0)
       rsvdSet w [(63, 17), (15, 14)] = false ∧ x.holder = some c.job ∧ x.state = .done ∧ flag w 16 = false ∧ x.drain = .none)) :=
  ⟨ran_by { withJob job1 with maps := [(6, map1)] } (cmd 0x0030 5 open1) (by decide) (by decide +kernel),
   ran_by { withJob job1 with maps := [(6, map1)], ctxs := [(16383, { holder := some 5, state := .done, epoch := 1, lastKnown := true })] }
     (cmd 0x0030 5 open1) (by decide) (by decide +kernel),
   ran_by { withJob job1 with ctxs := [(2, { holder := some 5, state := .idle })] } (cmd 0x0031 5 [mkWord [(1, 16), (2, 0)]]) (by decide) (by decide +kernel),
   ran_by { withJob job1 with ctxs := [(2, { holder := some 5, state := .done })] } (cmd 0x0031 5 [2]) (by decide) (by decide +kernel)⟩
theorem witness_AcceptedOpenHoldsTheContext : ∃ (d : Dev) (j n : Nat) (jb : Job), getJob d j = some jb ∧ n < 16384 ∧ n = 16383 ∧
    (getCtx d n).state = .done := ⟨{ withJob job1 with ctxs := [(16383, { holder := some 5, state := .done })] }, 5, 16383, job1, rfl, by decide⟩
/-- A graph of one WAIT node with no predecessors, of type 6 on sync object 0. -/
def graph1 : Graph := { nodes := [(0, newNode [mkWord [(4, 60)], 0, 0, 0])] }
theorem witness_GraphAndStepCommands :
    (∃ p s d c, Ran 0x0038 p s d c ∧ getJob s.dev c.job = some job1 ∧
      (let w := wordAt c.body 0
       let g := field w 7 0
       let n := field w 47 32
       let ns := bodyNodes c.body n
       rsvdSet w [(63, 48), (31, 8)] = false ∧ 1 ≤ n ∧ c.body.length = 1 + 4 * n ∧ SMap.has job1.graphs g = false ∧
       n + jobNodes job1 ≤ job1.quotas.node ∧ n + allNodes s.dev ≤ 32768 ∧ graphCheck s.dev c.job ns = none ∧
       (∀ e ∈ ns, nodeType e.2 = 1 →
         neverMet (lostPositions s.dev) (getCtx s.dev (nodeCtx e.2)).p.accumWin (getCtx s.dev (nodeCtx e.2)).p.nslab job1.quotas.accum = false))) ∧
    (∃ p s d c, Ran 0x0039 p s d c ∧ getJob s.dev c.job = some { job1 with graphs := [(255, graph1)] } ∧ field (wordAt c.body 0) 7 0 = 255 ∧
      rsvdSet (wordAt c.body 0) [(63, 8)] = false ∧ graph1.released = false ∧ releaseWaits job1 = false) ∧
    (∃ p s d c, Ran 0x0039 p s d c ∧
      getJob s.dev c.job = some { job1 with graphs := [(255, graph1)], sealSt := { state := .prepared } } ∧ field (wordAt c.body 0) 7 0 = 255 ∧
      rsvdSet (wordAt c.body 0) [(63, 8)] = false ∧ releaseWaits { job1 with sealSt := { state := .prepared } } = true) ∧
    (∃ p s d c, Ran 0x003A p s d c ∧ getJob s.dev c.job = some { job1 with graphs := [(255, graph1)] } ∧ field (wordAt c.body 0) 7 0 = 255 ∧
      rsvdSet (wordAt c.body 0) [(63, 8)] = false) ∧
    (∃ p s d c, Ran 0x0048 p s d c ∧ getJob d c.job = some job1 ∧ rsvdSet (wordAt c.body 0) [(63, 48)] = false ∧
      field (wordAt c.body 0) 47 0 = job1.stepCur) ∧
    (∃ p s d c, Ran 0x0049 p s d c ∧ getJob d c.job = some job1 ∧ rsvdSet (wordAt c.body 0) [(63, 56)] = false ∧
      field (wordAt c.body 0) 47 0 = job1.stepCur ∧ field (wordAt c.body 0) 55 48 = job1.attempt ∧ job1.sealSt.decision ≠ .seal) ∧
    (∃ p s d c, Ran 0x004A p s d c ∧ getJob d c.job = some job1 ∧
      (let w := wordAt c.body 0
       let x := wordAt c.body 1
       rsvdSet w [(63, 56)] = false ∧ rsvdSet x [(63, 44), (31, 16), (7, 2)] = false ∧ field x 1 0 ≠ 3 ∧
       (c.sender.role = 4 → sourcesRank d c.job job1 c.sender.who (field x 43 32) = true) ∧ poisonLate job1 c.body = none)) :=
  ⟨ran_by (withJob job1) (seg 0x0038 5 [mkWord [(1, 32), (255, 0)], mkWord [(4, 60)], 0, 0, 0]) (by decide) (by decide +kernel),
   ran_by (withJob { job1 with graphs := [(255, graph1)] }) (cmd 0x0039 5 [255]) (by decide) (by decide +kernel),
   ran_by (withJob { job1 with graphs := [(255, graph1)], sealSt := { state := .prepared } }) (cmd 0x0039 5 [255]) (by decide) (by decide +kernel),
   ran_by (withJob { job1 with graphs := [(255, graph1)] }) (cmd 0x003A 5 [255]) (by decide) (by decide +kernel),
   ran_by (withJob job1) (cmd 0x0048 5 [9]) (by decide) (by decide +kernel),
   ran_by (withJob job1) (cmd 0x0049 5 [9]) (by decide) (by decide +kernel),
   ran_by (withJob job1) (cmd 0x004A 5 [9, mkWord [(4095, 32), (255, 8), (2, 0)]]) (by decide) (by decide +kernel)⟩
theorem witness_SnapshotRecordAndReplayCommands :
    let store := { job1 with snapEn := 1, snapMem := [7, 0, 0, 0] }
    let rec1 := { job1 with recd := some { target := 0, size := 1048576 } }
    (∃ p s d c, Ran 0x0050 p s d c ∧ getJob s.dev c.job = some job1 ∧
      (let w := wordAt c.body 0
       let x := wordAt c.body 1
       let mems := (List.range 4).map fun i => field x (16 * i + 11) (16 * i)
       rsvdSet w [(63, 20), (15, 10)] = false ∧ rsvdSet x [(63, 60), (47, 44), (31, 28), (15, 12)] = false ∧
       1 ≤ field w 9 0 ∧ field w 9 0 ≤ 1000 ∧ field w 19 16 ≠ 0 ∧
       (∀ i, i < 4 → flag w (16 + i) = true → SMap.has job1.members (mems.getD i 0) = true))) ∧
    (∃ p s d c, Ran 0x0051 p s d c ∧ getJob s.dev c.job = some store ∧ storeMembers store ≠ [] ∧ store.snap.active = false ∧
      hasCommit store.commit = true) ∧
    (∃ p s d c, Ran 0x0058 p s d c ∧ getJob s.dev 5 = some { job1 with regions := [] } ∧
      (let w := wordAt c.body 0
       let serials := (c.body.drop 1).take 8
       rsvdSet w [(31, 3)] = false ∧ serials.contains 0 = false ∧ serials.Nodup ∧ wordAt serials (field w 2 0) = d.fac.serial ∧
       (∀ e ∈ d.jobs, e.2.regions = []))) ∧
    (∃ p s d c, Ran 0x0059 p s d c ∧ getJob s.dev c.job = some { job1 with commit := 0 } ∧
      rsvdSet (wordAt c.body 0) [(63, 9)] = false ∧ rsvdSet (wordAt c.body 1) [(63, 48)] = false ∧ field (wordAt c.body 0) 8 0 = job1.ordinal ∧
      servesNow { job1 with commit := 0 } = false ∧ rebuilding job1 = false ∧ (∀ l ∈ job1.loads, l.kind ≠ 1)) ∧
    (∃ p s d c, Ran 0x0060 p s d c ∧ getJob d c.job = some job1 ∧
      (let w := wordAt c.body 0
       let x := wordAt c.body 1
       rsvdSet w [(63, 41), (31, 2)] = false ∧ rsvdSet x [(63, 32)] = false ∧ recording job1 = false ∧ field w 1 0 = 0 ∧
       job1.charge + 2 ^ 20 * field x 31 0 ≤ job1.quotas.memMib * 2 ^ 20 ∧ 2 ^ 20 * field x 31 0 ≤ freeSpace d)) ∧
    (∃ p s d c, Ran 0x0060 p s d c ∧ getJob d c.job = some job1 ∧
      rsvdSet (wordAt c.body 0) [(63, 41), (31, 2)] = false ∧ rsvdSet (wordAt c.body 1) [(63, 32)] = false ∧ recording job1 = false ∧
      field (wordAt c.body 0) 1 0 = 1 ∧ (getPort d (field (wordAt c.body 0) 40 32)).role = 1) ∧
    (∃ p s d c, Ran 0x0061 p s d c ∧ getJob d c.job = some rec1 ∧ recording rec1 = true ∧
      ((getJob (recWrite d c.job 9 []) c.job).bind (·.recd)).isSome = true) ∧
    (∃ p s d c, Ran 0x0062 p s d c ∧ getJob d c.job = some job1 ∧
      rsvdSet (wordAt c.body 0) [(63, 41), (31, 2)] = false ∧ rsvdSet (wordAt c.body 1) [(63, 48)] = false ∧
      field (wordAt c.body 0) 1 0 = 1 ∧ field (wordAt c.body 0) 40 32 ≤ 287 ∧ quiesced d c.job job1 = true ∧ recording job1 = false ∧
      replaying job1 = false) ∧
    (∃ p s d c, Ran 0x0063 p s d c ∧ getJob d c.job = some job1 ∧ rsvdSet (wordAt c.body 0) [(63, 41), (31, 1)] = false ∧
      field (wordAt c.body 0) 40 32 ≤ 287 ∧ ctxsActive d c.job = false) :=
  ⟨ran_by (withJob job1) (cmd 0x0050 5 [mkWord [(8, 16), (1000, 0)], mkWord [(7, 48)]]) (by decide) (by decide +kernel),
   ran_by (withJob { job1 with snapEn := 1, snapMem := [7, 0, 0, 0] }) (cmd 0x0051 5 []) (by decide) (by decide +kernel),
   ran_by (withJob { job1 with regions := [] }) (cmd 0x0058 0xFF [mkWord [(9, 32), (7, 0)], 1, 2, 3, 4, 5, 6, 7, 0x1000]) (by decide) (by decide +kernel),
   ran_by (withJob { job1 with commit := 0 }) (cmd 0x0059 5 [0, 8]) (by decide) (by decide +kernel),
   ran_by (withJob job1) (cmd 0x0060 5 [0, 1]) (by decide) (by decide +kernel),
   ran_by (withJob job1) (cmd 0x0060 5 [mkWord [(41, 32), (1, 0)], 0]) (by decide) (by decide +kernel),
   ran_by (withJob { job1 with recd := some { target := 0, size := 1048576 } }) (cmd 0x0061 5 []) (by decide) (by decide +kernel),
   ran_by (withJob job1) (cmd 0x0062 5 [mkWord [(287, 32), (1, 0)], 0]) (by decide) (by decide +kernel),
   ran_by (withJob job1) (cmd 0x0063 5 [mkWord [(287, 32), (1, 0)]]) (by decide) (by decide +kernel)⟩
/-- A session with a staged load that got its last segment at 1 µs. -/
def staged1 : Session :=
  { inband := false, job := 0, who := 63, session := 1, high := 1, lastUse := 0
    staged := some { opcode := 3, job := 255, target := 0, total := 2000, chunks := [], next := 1, lastAt := 1, buffers := [] } }
theorem witness_CableSpareBypassAndTimers :
    (∃ p s d c, Ran 0x0069 p s d c ∧ c.op = 0x69) ∧
    (∀ u4 ∈ [1, 2, 3, 4], ∃ p s d c, Ran 0x0071 p s d c ∧
      (let w := wordAt c.body 0
       let u := field w 63 56
       let i := field w 15 0
       rsvdSet w [(55, 16)] = false ∧ u = u4 ∧ 1 ≤ u ∧ u ≤ 4 ∧ i + 1 = unitCount u ∧ unitGone d u i = false ∧ noSpare d u i = false ∧
       (u = 1 → portUsed d i = false))) ∧
    (∃ p s d c, Ran 0x0078 p s d c ∧ rsvdSet (wordAt c.body 0) [(63, 9), (7, 5)] = false ∧ field (wordAt c.body 0) 4 0 = 0x1F ∧
      flag (wordAt c.body 0) 8 = true) ∧
    (∃ p s d c, Ran 0x0078 p s d c ∧ rsvdSet (wordAt c.body 0) [(63, 9), (7, 5)] = false ∧ field (wordAt c.body 0) 4 0 = 15 ∧
      flag (wordAt c.body 0) 8 = false ∧ pairChecked d 15 = true) ∧
    (∃ s : State, answersCmds s.dev = true ∧ s.dev.mgmt.waiting.any (fun w => !w.interim && decide (w.since + 1000 ≤ s.dev.nowUs)) = true) ∧
    (∃ s : State, answersCmds s.dev = false) ∧
    (∃ w : Waiting, w.muted = true) ∧ (∃ w : Waiting, w.muted = false) ∧
    (∃ (d : Dev) (k : SessKey) (x : Session), d.mgmt.sessions.find? (keyOf k) = some x ∧ x.staged.isSome = true) ∧
    (∃ (d : Dev) (k : SessKey) (x : Session), d.mgmt.sessions.find? (keyOf k) = some x ∧ x.staged = none) := by
  refine ⟨ran_by up (cmd 0x0069 0xFF []) (by decide) (by decide +kernel), ?_, ran_by up (cmd 0x0078 0xFF [mkWord [(1, 8), (31, 0)]]) (by decide) (by decide +kernel),
    ran_by { up with ports := [(271, { cls := 1 }), (287, { cls := 5 })] } (cmd 0x0078 0xFF [15]) (by decide) (by decide +kernel),
    ⟨at_ { up with nowUs := 1000, mgmt := { waiting := [waiting1] } }, by decide⟩, ⟨State.reset, by decide⟩,
    ⟨{ waiting1 with muted := true }, rfl⟩, ⟨{ waiting1 with muted := false }, rfl⟩,
    ⟨{ up with mgmt := { sessions := [staged1] } }, { inband := staged1.inband, job := staged1.job, who := staged1.who, session := staged1.session },
      staged1, by decide, by decide⟩,
    ⟨{ up with mgmt := { sessions := [{ staged1 with staged := none }] } },
      { inband := staged1.inband, job := staged1.job, who := staged1.who, session := staged1.session }, { staged1 with staged := none }, by decide, rfl⟩⟩
  intro u4 h
  rcases List.mem_cons.mp h with rfl | h
  · exact ran_by { up with ports := [(287, { role := 2 })] } (cmd 0x0071 0xFF [mkWord [(1, 56), (287, 0)]]) (by decide) (by decide +kernel)
  rcases List.mem_cons.mp h with rfl | h
  · exact ran_by { up with spare := { seams := [(143, { st := 0, pos := some 0 })] } } (cmd 0x0071 0xFF [mkWord [(2, 56), (143, 0)]]) (by decide) (by decide +kernel)
  rcases List.mem_cons.mp h with rfl | h
  · exact ran_by { up with spare := { chans := [(255, { st := 0, wnum := some 0 })] } } (cmd 0x0071 0xFF [mkWord [(3, 56), (255, 0)]]) (by decide) (by decide +kernel)
  rcases List.mem_cons.mp h with rfl | h
  · exact ran_by up (cmd 0x0071 0xFF [mkWord [(4, 56), (511, 0)]]) (by decide) (by decide +kernel)
  cases h

/-! ## Witnesses: links -/

/-- A device at work with one listed port. -/
def withPort (p : Nat) (x : Port) : Dev := { up with ports := [(p, x)], nowUs := 3000000 }
/-- A flit with a header, the first payload unit's words, and a CRC that passes. -/
def flit (hdr : W64) (us : List W32) : FlitRx :=
  let f := us ++ List.replicate (61 - us.length) 0
  { hdr := hdr, payload := f, crc := flitCrc hdr f }
/-- A control flit of a CKIND. -/
def ctlFlit (ck : Nat) : FlitRx := flit (mkWord [(1, 62)]) [0, BitVec.ofNat 32 (ck * 2 ^ 24)]

theorem witness_LinkStatesFollowTraining :
    (∃ (s : State) (p : Nat), p < 288 ∧ (getPort s.dev p).st = .down ∧ (getPort s.dev p).role ≠ 0 ∧ linksOn s.dev = true ∧
      portLost s.dev p = false ∧ ((getPort s.dev p).failed = false ∨ (getPort s.dev p).since + 1000000 ≤ s.dev.nowUs)) ∧
    (∃ (s : State) (p : Nat), p < 288 ∧ (getPort s.dev p).st = .train ∧ (getPort s.dev p).since + 200000 ≤ s.dev.nowUs ∧
      256 ≤ p ∧ (s.dev.fabric.pairs.getD ((p - 256) % 16) {}).st = .releasing) ∧
    (∃ (s : State) (p : Nat), p < 288 ∧ (getPort s.dev p).st = .init ∧ (getPort s.dev p).credSent = true ∧
      (getPort s.dev p).credRcvd = true ∧ (getPort s.dev p).beacSent = true ∧ (getPort s.dev p).beacRcvd = true ∧ (getPort s.dev p).credLow = false) ∧
    (∃ (s : State) (p : Nat), p < 288 ∧ (getPort s.dev p).st = .init ∧ (getPort s.dev p).since + 1000 ≤ s.dev.nowUs) ∧
    (∃ (s : State) (p : Nat), p < 288 ∧ (getPort s.dev p).st = .up) ∧
    (∃ (s : State) (p : Nat), p < 288 ∧ (getPort s.dev p).st = .retrain ∧ (getPort s.dev p).since + 100000 ≤ s.dev.nowUs) :=
  ⟨⟨at_ (withPort 287 { role := 2, failed := true }), 287, by decide +kernel⟩,
   ⟨at_ { withPort 287 { role := 2, st := .train } with fabric := { pairs := List.replicate 16 { st := .releasing } } }, 287, by decide +kernel⟩,
   ⟨at_ (withPort 0 { role := 1, st := .init, credSent := true, credRcvd := true, beacSent := true, beacRcvd := true }), 0, by decide +kernel⟩,
   ⟨at_ (withPort 0 { role := 1, st := .init, since := 2999000 }), 0, by decide +kernel⟩,
   ⟨at_ (withPort 0 { role := 1, st := .up }), 0, by decide +kernel⟩,
   ⟨at_ (withPort 0 { role := 1, st := .retrain, since := 2900000 }), 0, by decide +kernel⟩⟩
theorem witness_FlitsAreReceived :
    (∃ (s : State) (p : Nat) (f : FlitRx), p < 288 ∧ (getPort s.dev p).st ≠ .down ∧ flitCrc f.hdr f.payload ≠ f.crc) ∧
    (∃ (s : State) (p : Nat) (f : FlitRx), p < 288 ∧ (getPort s.dev p).st ≠ .down ∧ flitCrc f.hdr f.payload = f.crc ∧
      field f.hdr 63 62 = 1 ∧ field (flitWord f 0) 63 56 = 5) ∧
    (∃ (s : State) (p : Nat) (f : FlitRx), p < 288 ∧ (getPort s.dev p).st ≠ .down ∧ flitCrc f.hdr f.payload = f.crc ∧ flitsOn s.dev p = true ∧
      field f.hdr 63 62 = 2) ∧
    (∀ ck ∈ [1, 3, 4], ∃ (s : State) (p : Nat) (f : FlitRx), p < 288 ∧ (getPort s.dev p).st ≠ .down ∧ flitCrc f.hdr f.payload = f.crc ∧
      flitsOn s.dev p = true ∧ field f.hdr 63 62 = 1 ∧ field (flitWord f 0) 63 56 = ck) ∧
    (∃ (s : State) (p : Nat) (f : FlitRx), p < 288 ∧ (getPort s.dev p).st ≠ .down ∧ flitCrc f.hdr f.payload = f.crc ∧ flitsOn s.dev p = true ∧
      field f.hdr 63 62 = 1 ∧ field (flitWord f 0) 63 56 = 2 ∧
      (getPort (takeHeader (if f.fecCorr = 0 then s.dev else s.dev) p f.hdr) p).st = .init) ∧
    (∃ (s : State) (p : Nat) (f : FlitRx), p < 288 ∧ (getPort s.dev p).st ≠ .down ∧ flitCrc f.hdr f.payload = f.crc ∧ 256 ≤ p ∧
      field f.hdr 63 62 = 1 ∧ field (flitWord f 0) 63 56 = 4 ∧ linksOn s.dev = true) ∧
    (∃ (s : State) (p : Nat) (f : FlitRx), p < 288 ∧ (getPort s.dev p).st ≠ .down ∧ flitCrc f.hdr f.payload = f.crc ∧ field f.hdr 63 62 = 0 ∧
      flitsOn s.dev p = true ∧ field f.hdr 15 0 = (getPort s.dev p).rxSeq) ∧
    (∃ (s : State) (p : Nat) (f : FlitRx), p < 288 ∧ (getPort s.dev p).st ≠ .down ∧ flitCrc f.hdr f.payload = f.crc ∧ field f.hdr 63 62 = 0 ∧
      flitsOn s.dev p = true ∧ field f.hdr 15 0 ≠ (getPort s.dev p).rxSeq ∧ (getPort s.dev p).nakAt = none) ∧
    (∃ (s : State) (p : Nat) (f : FlitRx), p < 288 ∧ (getPort s.dev p).st ≠ .down ∧ flitsOn s.dev p = true ∧ flitCrc f.hdr f.payload ≠ f.crc ∧
      (getPort s.dev p).nakAt = some 5) ∧
    (∃ (s : State) (p : Nat), p < 288 ∧ (getPort s.dev p).st ≠ .down ∧ flitsOn s.dev p = false) := by
  refine ⟨⟨at_ (withPort 287 { st := .up }), 287, { flit (mkWord [(2, 62)]) [] with crc := 0 }, by decide +kernel⟩,
    ⟨at_ (withPort 0 { st := .train }), 0, ctlFlit 5, by decide +kernel⟩,
    ⟨at_ (withPort 0 { st := .up }), 0, flit (mkWord [(2, 62)]) [], by decide +kernel⟩, ?_,
    ⟨at_ (withPort 0 { st := .init }), 0, ctlFlit 2, by decide +kernel⟩,
    ⟨at_ (withPort 256 { st := .train }), 256, ctlFlit 4, by decide +kernel⟩,
    ⟨at_ (withPort 0 { st := .up, rxSeq := 65535 }), 0, flit (mkWord [(63, 53), (65535, 0)]) [], by decide +kernel⟩,
    ⟨at_ (withPort 0 { st := .up, rxSeq := 65535 }), 0, flit (mkWord [(63, 53)]) [], by decide +kernel⟩,
    ⟨at_ (withPort 0 { st := .up, nakAt := some 5 }), 0, { flit 0 [] with crc := 0 }, by decide +kernel⟩,
    ⟨at_ (withPort 0 { st := .retrain }), 0, by decide +kernel⟩⟩
  intro ck h
  have h' : ck = 1 ∨ ck = 3 ∨ ck = 4 := by simpa using h
  rcases h' with rfl | rfl | rfl
  · exact ⟨at_ (withPort 0 { st := .up }), 0, ctlFlit 1, by decide +kernel⟩
  · exact ⟨at_ (withPort 0 { st := .up }), 0, ctlFlit 3, by decide +kernel⟩
  · exact ⟨at_ (withPort 0 { st := .up }), 0, ctlFlit 4, by decide +kernel⟩
theorem witness_LinkTimersAndTransmission :
    (∃ (s : State) (p t : Nat), p < 288 ∧ (getPort s.dev p).nakAt = some t ∧ flitsOn s.dev p = true ∧ t + 1 ≤ s.dev.nowUs) ∧
    (∃ (s : State) (p : Nat), p < 288 ∧ (getPort s.dev p).replay ≠ [] ∧ (getPort s.dev p).st = .up ∧ (getPort s.dev p).ackAt + 20 ≤ s.dev.nowUs ∧
      (getPort s.dev p).snapAt + 10 ≤ s.dev.nowUs ∧ (getPort s.dev p).beacAt + 100000 ≤ s.dev.nowUs ∧ (getPort s.dev p).ctl = [.beacon]) ∧
    (∃ (s : State) (p : Nat), p < 288 ∧ (getPort s.dev p).st = .up ∧ (getPort s.dev p).ctl = [] ∧ (getPort s.dev p).queue ≠ []) ∧
    (∃ (s : State) (p : Nat), p < 288 ∧ (getPort s.dev p).st = .init ∧ (getPort s.dev p).ctl = [.creditInit]) ∧
    (∃ (s : State) (p : Nat), p < 288 ∧ (getPort s.dev p).st = .init ∧ (getPort s.dev p).ctl = []) ∧
    (∃ (s : State) (p : Nat), p < 288 ∧ (getPort s.dev p).st = .train) ∧ (∃ (s : State) (p : Nat), p < 288 ∧ (getPort s.dev p).st = .retrain) ∧
    (∃ (s : State) (p : Nat), p < 288 ∧ (getPort s.dev p).st = .down) ∧
    (∃ (s : State) (p : Nat), p < 256 ∧ classifying s.dev = true ∧ (planOf s.dev p).kind ≠ 0 ∧ beaconGone s.dev p = true) :=
  ⟨⟨at_ (withPort 287 { st := .up, nakAt := some 2999999 }), 287, 2999999, by decide +kernel⟩,
   ⟨at_ (withPort 0 { st := .up, replay := [{ seq := 0, vc := 0, nextPkt := 63, payload := [] }], ctl := [.beacon], snapAt := 2999990 }), 0,
     by decide +kernel⟩,
   ⟨at_ (withPort 0 { st := .up, queue := [{ queue := 5, vc := 0, words := [0] }] }), 0, by decide +kernel⟩,
   ⟨at_ (withPort 0 { st := .init, ctl := [.creditInit] }), 0, by decide +kernel⟩, ⟨at_ (withPort 0 { st := .init }), 0, by decide +kernel⟩,
   ⟨at_ (withPort 0 { st := .train }), 0, by decide +kernel⟩, ⟨at_ (withPort 0 { st := .retrain }), 0, by decide +kernel⟩,
   ⟨at_ (withPort 0 {}), 0, by decide +kernel⟩,
   ⟨at_ { withPort 255 { st := .up } with fabric := { planRun := [(255, { kind := 1, axis := 0, dir := 0, engine := 0, pos := 0, serial := 0 })] } }, 255,
     by decide +kernel⟩⟩

/-! ## Witnesses: arrivals -/

/-- The device to which the link layer has delivered the packet. -/
def bring (x : Dev) (k : PktRx) : Dev := { x with arrived := [k] }

/-- The packet `k`, delivered to the device `x`, is whole and meets `P`. -/
theorem arr_by {ty : Nat} {bad : PktRx → Dev → Option Nat} {P : State → PktRx → Dev → Prop} (x : Dev) (k : PktRx)
    (h : (arrivalOk k ty && !spoilsAt (bring x k) k && !passesOn (takeArrived (bring x k) k) k && commonOk k.words &&
      bad k (takeArrived (bring x k) k) == none && !fromWithdrawn (takeArrived (bring x k) k) k) = true)
    (g : P (at_ (bring x k)) k (takeArrived (bring x k) k)) : ∃ s k d, Arrives ty (bad k) k s d ∧ P s k d := by
  simp only [Bool.and_eq_true, Bool.not_eq_true', beq_iff_eq] at h
  exact ⟨_, k, _, ⟨h.1.1.1.1.1, h.1.1.1.1.2, h.1.1.1.2, h.1.1.2, h.1.2, h.2, rfl⟩, g⟩

/-- Context 2 in the hands of job 5: OPEN under epoch 1, region 3, two slabs of two passes. -/
def ctx1 : Ctx :=
  { holder := some 5, state := .opened, epoch := 1, lastKnown := true, step := 9
    p := { epoch := 1, region := 3, mapSlot := 6, nslab := 2, npass := 2, holdUs := 100, accumWin := 64 } }
/-- A device at work with the job, its rank map and context 2. -/
def withCtx (jb : Job) (x : Ctx) : Dev := { withRule jb with maps := [(6, map1)], ctxs := [(2, x)], nowUs := 1000 }
/-- A contribution of member 7 to context 2: the first 32 lanes, END set. -/
def contribK (epoch rank pass slab shape : Nat) : PktRx :=
  { port := 40, words := mkPacket 0x10 5 ([mkWord [(epoch, 48), (2, 32), (rank, 16), (pass, 0)], mkWord [(slab, 48), (32, 16), (1, 15)],
      mkWord [(shape, 32)]] ++ List.replicate (payloadWords 0 32) 0) }
/-- Context 2 with one rank slot of slab 0, pass 0. -/
def ctxSlot (sl : Slot) : Ctx := { ctx1 with slabs := [(0, { slots := [(0, sl)] })] }

theorem witness_ContributionsAreCheckedInOrder :
    let opened := fun (k : PktRx) (d : Dev) => (getJob d 5).any (fun jb => jb.replay.isNone) && decide ((getCtx d (contribF k.words).ctx).holder = some 5) &&
      !ctxClosed (getCtx d (contribF k.words).ctx) && decide ((contribF k.words).epoch = (getCtx d (contribF k.words).ctx).epoch)
    let ranked := fun (k : PktRx) (d : Dev) => opened k d && (ctxEnv d (contribF k.words).ctx).any fun e =>
      decide (ownBase e ≤ (contribF k.words).rank) && decide ((contribF k.words).rank < ownBase e + ownSize e) &&
      decide (memberOn e.jb k.port = some 7) && decide ((rankEntry e.m (contribF k.words).rank).pri = 7)
    let fits := fun (k : PktRx) (d : Dev) => ranked k d && decide ((contribF k.words).shape = (getCtx d 2).shape.toNat) &&
      decide ((contribF k.words).fmt = (getCtx d 2).p.fmt) && decide ((contribF k.words).pass < (getCtx d 2).p.npass) &&
      decide ((contribF k.words).slab < (getCtx d 2).p.nslab)
    let slot := fun (k : PktRx) (d : Dev) => getSlot (getRed (getCtx d 2) (contribF k.words).slab) (contribF k.words).pass (contribF k.words).rank
    (∃ s k d, Arrives 0x10 (contribBad k) k s d ∧ getJob d (pktJob k.words) = none) ∧
    (∃ s k d, Arrives 0x10 (contribBad k) k s d ∧ ((getJob d (pktJob k.words)).bind (·.replay)).any (·.active) = true) ∧
    (∃ s k d, Arrives 0x10 (contribBad k) k s d ∧ getJob d (pktJob k.words) = some job1 ∧
      (getCtx d (contribF k.words).ctx).holder ≠ some (pktJob k.words)) ∧
    (∃ s k d, Arrives 0x10 (contribBad k) k s d ∧ (getCtx d (contribF k.words).ctx).holder = some (pktJob k.words) ∧
      ctxClosed (getCtx d (contribF k.words).ctx) = true) ∧
    (∃ s k d, Arrives 0x10 (contribBad k) k s d ∧ (getCtx d (contribF k.words).ctx).holder = some (pktJob k.words) ∧
      ctxClosed (getCtx d (contribF k.words).ctx) = false ∧ (contribF k.words).epoch ≠ (getCtx d (contribF k.words).ctx).epoch) ∧
    (∃ s k d, Arrives 0x10 (contribBad k) k s d ∧ opened k d = true ∧
      (ctxEnv d 2).any (fun e => decide (ownBase e + ownSize e ≤ (contribF k.words).rank)) = true) ∧
    (∃ s k d, Arrives 0x10 (contribBad k) k s d ∧ ranked k d = true ∧ (contribF k.words).shape ≠ (getCtx d 2).shape.toNat) ∧
    (∃ s k d, Arrives 0x10 (contribBad k) k s d ∧ ranked k d = true ∧ (contribF k.words).shape = (getCtx d 2).shape.toNat ∧
      (contribF k.words).fmt = (getCtx d 2).p.fmt ∧ (contribF k.words).pass = (getCtx d 2).p.npass) ∧
    (∃ s k d, Arrives 0x10 (contribBad k) k s d ∧ ranked k d = true ∧ (contribF k.words).shape = (getCtx d 2).shape.toNat ∧
      (contribF k.words).fmt = (getCtx d 2).p.fmt ∧ (contribF k.words).pass < (getCtx d 2).p.npass ∧
      (contribF k.words).slab = (getCtx d 2).p.nslab) ∧
    (∃ s k d, Arrives 0x10 (contribBad k) k s d ∧ fits k d = true ∧ (getCtx d 2).state = .done ∧ (getCtx d 2).status ≠ 0) ∧
    (∃ s k d, Arrives 0x10 (contribBad k) k s d ∧ fits k d = true ∧ (getCtx d 2).state ≠ .done ∧ (slot k d).gotPri = true) ∧
    (∃ s k d, Arrives 0x10 (contribBad k) k s d ∧ fits k d = true ∧ (getCtx d 2).state ≠ .done ∧ (slot k d).gotPri = false ∧
      posRetiring d (seamPos d 2 0) = true) ∧
    (∃ s k d, Arrives 0x10 (contribBad k) k s d ∧ fits k d = true ∧ (getCtx d 2).state ≠ .done ∧ (slot k d).gotPri = false ∧
      posRetiring d (seamPos d 2 0) = false ∧ (slot k d).rxPri = some {}) ∧
    (∃ s k d, Arrives 0x10 (contribBad k) k s d ∧ fits k d = true ∧ (getCtx d 2).state ≠ .done ∧ (slot k d).gotPri = false ∧
      (slot k d).rxPri = some { refused := 1 }) ∧
    (∃ s k d, Arrives 0x10 (contribBad k) k s d ∧ fits k d = true ∧ (getCtx d 2).state ≠ .done ∧ (slot k d).gotPri = false ∧
      (slot k d).rxPri = none ∧ (getRed (getCtx d 2) 0).low + 2 ≤ (contribF k.words).pass) ∧
    (∃ s k d, Arrives 0x10 (contribBad k) k s d ∧ fits k d = true ∧ (getCtx d 2).state ≠ .done ∧ (slot k d).gotPri = false ∧
      (slot k d).rxPri = none ∧ (contribF k.words).pass < (getRed (getCtx d 2) 0).low + 2 ∧
      (ctxEnv d 2).any (fun e => !accumFull d e 2 (seamPos d 2 0)) = true) ∧
    (∃ s k d, Arrives 0x10 (contribBad k) k s d ∧ fits k d = true ∧ (getCtx d 2).state ≠ .done ∧ (slot k d).gotPri = false ∧
      (slot k d).rxPri = none ∧ (contribF k.words).pass < (getRed (getCtx d 2) 0).low + 2 ∧
      (ctxEnv d 2).any (fun e => accumFull d e 2 (seamPos d 2 0) && !joinsAtOnce d e k .primary 7) = true) :=
  ⟨arr_by { up with ports := [(40, { role := 1 })] } (contribK 1 0 0 0 0) (by decide) (by decide +kernel),
   arr_by (withJob { job1 with replay := some { source := 0, port := 0, first := 0 } }) (contribK 1 0 0 0 0) (by decide) (by decide +kernel),
   arr_by (withJob job1) (contribK 1 0 0 0 0) (by decide) (by decide +kernel),
   arr_by (withCtx job1 { ctx1 with state := .draining }) (contribK 1 0 0 0 0) (by decide) (by decide +kernel),
   arr_by (withCtx job1 ctx1) (contribK 0 0 0 0 0) (by decide) (by decide +kernel),
   arr_by (withCtx job1 ctx1) (contribK 1 1 0 0 0) (by decide) (by decide +kernel),
   arr_by (withCtx job1 ctx1) (contribK 1 0 0 0 1) (by decide) (by decide +kernel),
   arr_by (withCtx job1 ctx1) (contribK 1 0 2 0 0) (by decide) (by decide +kernel),
   arr_by (withCtx job1 ctx1) (contribK 1 0 1 2 0) (by decide) (by decide +kernel),
   arr_by (withCtx job1 { ctx1 with state := .done, status := 9 }) (contribK 1 0 1 1 0) (by decide) (by decide +kernel),
   arr_by (withCtx job1 (ctxSlot { gotPri := true })) (contribK 1 0 0 0 0) (by decide) (by decide +kernel),
   arr_by { withCtx job1 ctx1 with spare := { retiring := (List.range 128).map fun p => (p, 1001) } } (contribK 1 0 0 0 0) (by decide) (by decide +kernel),
   arr_by (withCtx job1 (ctxSlot { rxPri := some {} })) (contribK 1 0 0 0 0) (by decide) (by decide +kernel),
   arr_by (withCtx job1 (ctxSlot { rxPri := some { refused := 1 } })) (contribK 1 0 0 0 0) (by decide) (by decide +kernel),
   arr_by (withCtx job1 { ctx1 with p := { ctx1.p with npass := 3 } }) (contribK 1 0 2 0 0) (by decide) (by decide +kernel),
   arr_by (withCtx job1 ctx1) (contribK 1 0 1 0 0) (by decide) (by decide +kernel),
   arr_by (withCtx { job1 with quotas := { createQuotas with ovf := 0 } } { ctx1 with p := { ctx1.p with accumWin := 0 } }) (contribK 1 0 0 0 0)
     (by decide) (by decide +kernel)⟩

/-- A job of two modules: this one is ordinal 0, fabric address 0; ordinal 1 has address 1. -/
def job2 : Job := { job1 with q := 2, serials := [0x1000#64, 0x2000#64], addrs := [some 0, some 1] }
/-- A rank map of two groups of one rank each. -/
def map2 : RankMap := { map1 with nmemb := [1, 1], ranks := [{ pri := 7 }, { pri := 8 }] }
/-- A device at work with a job, a rank map, a context and trunk port 256 in service. -/
def withTrunk (jb : Job) (x : Ctx) : Dev :=
  { withRule jb with maps := [(6, map2)], ctxs := [(2, x)], nowUs := 1000
                     ports := [(40, { role := 1, st := .up }), (256, { role := 2, st := .up, cls := 1 })] }
/-- A packet of job 5 from fabric address 1 on port 256. -/
def trunkK (ty : Nat) (ws : List W64) : PktRx := { port := 256, src := 1, words := mkPacket ty 5 ws }
/-- A partial of ordinal 1 for context 2 without a value. -/
def partialK (epoch pass slab crc : Nat) : PktRx :=
  trunkK 0x60 ([mkWord [(epoch, 48), (2, 32), (1, 16), (pass, 0)], mkWord [(slab, 48), (crc, 0)], 0] ++ List.replicate 1024 0)
/-- An answer to this module's partial. -/
def answerK (epoch slab status : Nat) : PktRx := trunkK 0x61 [mkWord [(epoch, 48), (2, 32)], mkWord [(slab, 48), (status, 0)]]
/-- A context notice of ordinal 1. -/
def noticeK (ty epoch : Nat) : PktRx := trunkK ty [mkWord [(epoch, 48), (2, 32), (1, 16)], 0]
/-- Context 2 with an unacknowledged partial of slab 1. -/
def ctxOut : Ctx := { ctx1 with slabs := [(1, { passes := [(0, { out := some { lanes := [], nf := none, since := 0, sentAt := 0 } })] })] }

theorem witness_PartialsAnswersAndNotices :
    let now := fun (k : PktRx) (d : Dev) => decide ((getCtx d (partialF k.words).ctx).holder = some (pktJob k.words)) &&
      !ctxClosed (getCtx d (partialF k.words).ctx) && decide ((partialF k.words).epoch = (getCtx d (partialF k.words).ctx).epoch) &&
      (ctxEnv d (partialF k.words).ctx).isSome
    (∃ s k d, Arrives 0x60 (partialBad k) k s d ∧ (getCtx d (partialF k.words).ctx).holder ≠ some (pktJob k.words)) ∧
    (∃ s k d, Arrives 0x60 (partialBad k) k s d ∧ (getCtx d (partialF k.words).ctx).holder = some (pktJob k.words) ∧
      ctxClosed (getCtx d (partialF k.words).ctx) = true) ∧
    (∃ s k d, Arrives 0x60 (partialBad k) k s d ∧ (getCtx d (partialF k.words).ctx).holder = some (pktJob k.words) ∧
      ctxClosed (getCtx d (partialF k.words).ctx) = false ∧ (partialF k.words).epoch ≠ (getCtx d (partialF k.words).ctx).epoch) ∧
    (∃ s k d, Arrives 0x60 (partialBad k) k s d ∧ now k d = true ∧ (getCtx d (partialF k.words).ctx).state = .done ∧
      (getCtx d (partialF k.words).ctx).status ≠ 0) ∧
    (∃ s k d, Arrives 0x60 (partialBad k) k s d ∧ now k d = true ∧ (getCtx d (partialF k.words).ctx).state = .opened ∧
      (partialF k.words).pass = (getCtx d (partialF k.words).ctx).p.npass) ∧
    (∃ s k d, Arrives 0x60 (partialBad k) k s d ∧ now k d = true ∧ (getCtx d (partialF k.words).ctx).state = .opened ∧
      (partialF k.words).pass < (getCtx d (partialF k.words).ctx).p.npass ∧
      (partialF k.words).slab = (getCtx d (partialF k.words).ctx).p.nslab) ∧
    (∃ s k d, Arrives 0x60 (partialBad k) k s d ∧ now k d = true ∧ (getCtx d (partialF k.words).ctx).state = .opened ∧
      (partialF k.words).pass < (getCtx d (partialF k.words).ctx).p.npass ∧ (partialF k.words).slab < (getCtx d (partialF k.words).ctx).p.nslab ∧
      (partialF k.words).crc = 1 ∧ map2.crc = 0) ∧
    (∃ s k d, Arrives 0x60 (partialBad k) k s d ∧ now k d = true ∧ (getCtx d (partialF k.words).ctx).state ≠ .done ∧
      (partialF k.words).pass < (getCtx d (partialF k.words).ctx).p.npass ∧ (partialF k.words).slab < (getCtx d (partialF k.words).ctx).p.nslab ∧
      (partialF k.words).crc = 0 ∧ map2.crc = 0) ∧
    (∃ s k d, Arrives 0x61 (partialAnsBad k) k s d ∧ (getCtx d (partialF k.words).ctx).epoch ≠ (partialF k.words).epoch) ∧
    (∀ st ∈ [stOk, stPassAhead, stAccumFull, stLate], ∃ s k d, Arrives 0x61 (partialAnsBad k) k s d ∧
      (getCtx d (partialF k.words).ctx).holder = some (pktJob k.words) ∧ (getCtx d (partialF k.words).ctx).epoch = (partialF k.words).epoch ∧
      (getPass (getRed (getCtx d (partialF k.words).ctx) (partialF k.words).slab) (partialF k.words).pass).out.isSome = true ∧
      field (wordAt k.words 2) 15 0 = st) ∧
    (∀ ty ∈ [0x63, 0x64],
      (∃ s k d, Arrives ty (noticeBad k) k s d ∧ (getCtx d (field (wordAt k.words 1) 45 32)).holder = some (pktJob k.words) ∧
        (getCtx d (field (wordAt k.words 1) 45 32)).epoch = field (wordAt k.words 1) 63 48 ∧ ctxClosed (getCtx d (field (wordAt k.words 1) 45 32)) = false ∧
        (getCtx d (field (wordAt k.words 1) 45 32)).state = .opened) ∧
      (∃ s k d, Arrives ty (noticeBad k) k s d ∧ (getCtx d (field (wordAt k.words 1) 45 32)).holder = some (pktJob k.words) ∧
        (getCtx d (field (wordAt k.words 1) 45 32)).epoch = field (wordAt k.words 1) 63 48 ∧ ctxClosed (getCtx d (field (wordAt k.words 1) 45 32)) = false ∧
        (getCtx d (field (wordAt k.words 1) 45 32)).state ≠ .opened) ∧
      (∃ s k d, Arrives ty (noticeBad k) k s d ∧ (getCtx d (field (wordAt k.words 1) 45 32)).epoch ≠ field (wordAt k.words 1) 63 48)) := by
  refine ⟨arr_by (withTrunk job2 {}) (partialK 1 0 0 0) (by decide +kernel) (by decide +kernel),
   arr_by (withTrunk job2 { ctx1 with state := .draining }) (partialK 1 0 0 0) (by decide +kernel) (by decide +kernel),
   arr_by (withTrunk job2 ctx1) (partialK 0 0 0 0) (by decide +kernel) (by decide +kernel),
   arr_by (withTrunk job2 { ctx1 with state := .done, status := 9 }) (partialK 1 0 0 0) (by decide +kernel) (by decide +kernel),
   arr_by (withTrunk job2 ctx1) (partialK 1 2 0 0) (by decide +kernel) (by decide +kernel),
   arr_by (withTrunk job2 ctx1) (partialK 1 1 2 0) (by decide +kernel) (by decide +kernel),
   arr_by (withTrunk job2 ctx1) (partialK 1 1 0 1) (by decide +kernel) (by decide +kernel),
   arr_by (withTrunk job2 ctx1) (partialK 1 1 0 0) (by decide +kernel) (by decide +kernel),
   arr_by (withTrunk job2 ctx1) (answerK 0 1 0) (by decide +kernel) (by decide +kernel), ?_, ?_⟩
  · intro st h
    rcases List.mem_cons.mp h with rfl | h
    · exact arr_by (withTrunk job2 ctxOut) (answerK 1 1 stOk) (by decide +kernel) (by decide +kernel)
    rcases List.mem_cons.mp h with rfl | h
    · exact arr_by (withTrunk job2 ctxOut) (answerK 1 1 stPassAhead) (by decide +kernel) (by decide +kernel)
    rcases List.mem_cons.mp h with rfl | h
    · exact arr_by (withTrunk job2 ctxOut) (answerK 1 1 stAccumFull) (by decide +kernel) (by decide +kernel)
    rcases List.mem_cons.mp h with rfl | h
    · exact arr_by (withTrunk job2 ctxOut) (answerK 1 1 stLate) (by decide +kernel) (by decide +kernel)
    cases h
  · intro ty h
    rcases List.mem_cons.mp h with rfl | h
    · exact ⟨arr_by (withTrunk job2 ctx1) (noticeK 0x63 1) (by decide +kernel) (by decide +kernel),
        arr_by (withTrunk job2 { ctx1 with state := .done }) (noticeK 0x63 1) (by decide +kernel) (by decide +kernel),
        arr_by (withTrunk job2 ctx1) (noticeK 0x63 0) (by decide +kernel) (by decide +kernel)⟩
    rcases List.mem_cons.mp h with rfl | h
    · exact ⟨arr_by (withTrunk job2 ctx1) (noticeK 0x64 1) (by decide +kernel) (by decide +kernel),
        arr_by (withTrunk job2 { ctx1 with state := .done }) (noticeK 0x64 1) (by decide +kernel) (by decide +kernel),
        arr_by (withTrunk job2 ctx1) (noticeK 0x64 0) (by decide +kernel) (by decide +kernel)⟩
    cases h
theorem witness_ContextClocksAndSamplesAct :
    (∀ dr ∈ [DrainFor.open_, .releaseKeep, .releaseFree], ∃ (s : State) (c : Nat), c < 16384 ∧ (getCtx s.dev c).holder = some 5 ∧
      (getCtx s.dev c).drain = dr) ∧
    (∃ (s : State) (c b p t : Nat), c < 16384 ∧ (ctxEnv s.dev c).isSome = true ∧ (getCtx s.dev c).state = .opened ∧
      (getRed (getCtx s.dev c) b).low ≤ p ∧ (getPass (getRed (getCtx s.dev c) b) p).slotClock = some t ∧
      t + (getCtx s.dev c).p.holdUs ≤ s.dev.nowUs ∧
      (ctxEnv s.dev c).any (fun e => ((rangeFrom (ownBase e) (ownSize e)).filter fun r =>
        (getSlot (getRed (getCtx s.dev c) b) p r).filled.isNone && (getSlot (getRed (getCtx s.dev c) b) p r).heldBak.isNone) == []) = true) ∧
    (∃ (s : State) (c b p t : Nat), c < 16384 ∧ (ctxEnv s.dev c).isSome = true ∧ (getCtx s.dev c).state = .opened ∧
      (getRed (getCtx s.dev c) b).low ≤ p ∧ (getPass (getRed (getCtx s.dev c) b) p).slotClock = some t ∧
      t + (getCtx s.dev c).p.holdUs ≤ s.dev.nowUs ∧
      (ctxEnv s.dev c).any (fun e => ((rangeFrom (ownBase e) (ownSize e)).filter fun r =>
        (getSlot (getRed (getCtx s.dev c) b) p r).filled.isNone && (getSlot (getRed (getCtx s.dev c) b) p r).heldBak.isNone) == [0]) = true) ∧
    (∃ (s : State) (c b p t : Nat), c < 16384 ∧ (getCtx s.dev c).state = .opened ∧ (getRed (getCtx s.dev c) b).low ≤ p ∧
      (getPass (getRed (getCtx s.dev c) b) p).partClock = some t ∧ t + 2 * (getCtx s.dev c).p.holdUs ≤ s.dev.nowUs ∧
      (ctxEnv s.dev c).any (fun e => ((List.range e.jb.q).find? fun q => groupSize e.m q != 0 &&
        !SMap.has (getPass (getRed (getCtx s.dev c) b) p).groups q) == some 1) = true) ∧
    (∃ (s : State) (c b p r : Nat), c < 16384 ∧ (getSlot (getRed (getCtx s.dev c) b) p r).kept ≠ none ∧
      (getSlot (getRed (getCtx s.dev c) b) p r).keptAt + (getCtx s.dev c).p.holdUs < s.dev.nowUs) ∧
    (∃ (s : State) (c b p t : Nat), c < 16384 ∧ (ctxEnv s.dev c).isSome = true ∧ (getCtx s.dev c).state = .done ∧ (getCtx s.dev c).lateTrap = true ∧
      (getPass (getRed (getCtx s.dev c) b) p).slotClock = some t ∧ t + (getCtx s.dev c).p.holdUs ≤ s.dev.nowUs) ∧
    (∃ (s : State) (c b p t : Nat), c < 16384 ∧ (ctxEnv s.dev c).isSome = true ∧ (getCtx s.dev c).state = .done ∧ (getCtx s.dev c).lateTrap = true ∧
      (getPass (getRed (getCtx s.dev c) b) p).partClock = some t ∧ t + 2 * (getCtx s.dev c).p.holdUs ≤ s.dev.nowUs) ∧
    (∃ (s : State) (p : Nat), p < 128 ∧ posRetiring s.dev p = false) ∧
    (∃ (s : State) (c b : Nat), c < 16384 ∧ (getRed (getCtx s.dev c) b).sample = .pending 8 ∧ (getCtx s.dev c).holder = some 5 ∧
      SMap.get? (getCtx s.dev c).resid b = none ∧ (ctxEnv s.dev c).any (fun e => sampleWhole e (getCtx s.dev c) b) = true) ∧
    (∃ (s : State) (c b : Nat), c < 16384 ∧ (getRed (getCtx s.dev c) b).sample = .pending 8 ∧ (getCtx s.dev c).holder = some 5 ∧
      SMap.get? (getCtx s.dev c).resid b = none ∧ (ctxEnv s.dev c).any (fun e => sampleFormed e (getCtx s.dev c) b 2 0) = true) := by
  refine ⟨?_, ⟨at_ (withCtx job1 { ctx1 with slabs := [(0, { passes := [(0, { slotClock := some 900 })], slots := [(0, { filled := some .primary })] })] }),
      2, 0, 0, 900, by decide +kernel⟩,
    ⟨at_ (withCtx job1 { ctx1 with slabs := [(0, { passes := [(0, { slotClock := some 900 })] })] }), 2, 0, 0, 900, by decide +kernel⟩,
    ⟨at_ (withTrunk job2 { ctx1 with slabs := [(0, { passes := [(0, { partClock := some 800, groups := [(0, { lanes := [] })] })] })] }), 2, 0, 0, 800,
      by decide +kernel⟩,
    ⟨at_ (withCtx job1 { ctx1 with slabs := [(0, { slots := [(0, { kept := some {}, keptAt := 899 })] })] }), 2, 0, 0, 0, by decide +kernel⟩,
    ⟨at_ (withCtx job1 { ctx1 with state := .done, lateTrap := true, slabs := [(0, { passes := [(0, { slotClock := some 900 })] })] }), 2, 0, 0, 900,
      by decide +kernel⟩,
    ⟨at_ (withCtx job1 { ctx1 with state := .done, lateTrap := true, slabs := [(0, { passes := [(0, { partClock := some 800 })] })] }), 2, 0, 0, 800,
      by decide +kernel⟩,
    ⟨at_ up, 127, by decide⟩,
    ⟨at_ (withCtx job1 { ctx1 with slabs := [(0, { sample := .pending 8, low := 2 })] }), 2, 0, by decide +kernel⟩,
    ⟨at_ (withCtx job1 { ctx1 with slabs := [(0, { sample := .pending 8, low := 1 })] }), 2, 0, by decide +kernel⟩⟩
  intro dr h
  rcases List.mem_cons.mp h with rfl | h
  · exact ⟨at_ (withCtx job1 { ctx1 with drain := .open_ }), 2, by decide +kernel⟩
  rcases List.mem_cons.mp h with rfl | h
  · exact ⟨at_ (withCtx job1 { ctx1 with drain := .releaseKeep }), 2, by decide +kernel⟩
  rcases List.mem_cons.mp h with rfl | h
  · exact ⟨at_ (withCtx job1 { ctx1 with drain := .releaseFree }), 2, by decide +kernel⟩
  cases h
/-- The job in its step: slab 0 of region 3 has a valid copy 0, or as given. -/
def jobStep (sl : Slab) : Job :=
  { job1 with inFlight := true, buckets := [(3, 0, 2)], sealedRun := true
              regions := [(3, { length := 2048, rule := 2, fmts := [0, 0, 0, 0], stateEn := 0, deal := 0, haul := [1, 1], tag := mkTag true true false 8,
                                slabs := [(0, sl)] })] }
/-- A slab whose copy 0 was written in step 8. -/
def slab1 : Slab := { tag0 := mkTag true false false 8, tag1 := 0 }
/-- Context 2 with slab 0 finished and waiting for its update. -/
def ctxWait : Ctx := { ctx1 with slabs := [(0, { done := true, waiting := some [] })] }
/-- Context 2 DONE in sealed mode. -/
def ctxSealed : Ctx := { ctx1 with state := .done, p := { ctx1.p with sealed := true } }
theorem witness_UpdateDiesWriteWhatTheyAccept :
    let ready := fun (s : State) => (ctxEnv s.dev (updUse s.dev 2 0)).any fun e => (SMap.get? s.dev.rules e.r.rule).isSome &&
      updWaits e.jb (getCtx s.dev (updUse s.dev 2 0)) 0 && ownsB e (getCtx s.dev (updUse s.dev 2 0)) 0 && !e.jb.stopped && !e.jb.updStop &&
      e.jb.sealSt.applyWait.isEmpty && decide (e.jb.sealSt.state ≠ .aborting)
    let slab := fun (s : State) => ((ctxEnv s.dev (updUse s.dev 2 0)).map fun e => (getSlab e.r 0, e.jb.dieStop.contains (homeDie 1 e.r 3 0),
      (validCopy e.jb.commit (getSlab e.r 0)).isSome))
    (∃ s : State, (ctxEnv s.dev (updUse s.dev 2 0)).any (fun e => !updWaits e.jb (getCtx s.dev (updUse s.dev 2 0)) 0) = true) ∧
    (∃ s : State, ready s = true ∧ slab s = some (slab1, true, true)) ∧
    (∃ s : State, ready s = true ∧ slab s = some ({ slab1 with damaged := true }, false, true)) ∧
    (∃ s : State, ready s = true ∧ slab s = some ({ slab1 with tag0 := 0 }, false, false)) ∧
    (∃ s : State, ready s = true ∧ slab s = some (slab1, false, true) ∧ (getCtx s.dev (updUse s.dev 2 0)).p.sealed = false) ∧
    (∃ s : State, ready s = true ∧ slab s = some (slab1, false, true) ∧ (getCtx s.dev (updUse s.dev 2 0)).p.sealed = true) ∧
    (∃ (s : State) (j rn k : Nat), j < 64 ∧
      ((getJob s.dev j).bind fun jb => jb.writes.find? fun w => w.region == rn && w.slab == k).isSome = true) :=
  ⟨⟨at_ (withCtx (jobStep slab1) ctx1), by decide +kernel⟩, ⟨at_ (withCtx { jobStep slab1 with dieStop := [3] } ctxWait), by decide +kernel⟩,
   ⟨at_ (withCtx (jobStep { slab1 with damaged := true }) ctxWait), by decide +kernel⟩,
   ⟨at_ (withCtx (jobStep { slab1 with tag0 := 0 }) ctxWait), by decide +kernel⟩, ⟨at_ (withCtx (jobStep slab1) ctxWait), by decide +kernel⟩,
   ⟨at_ (withCtx (jobStep slab1) ctxSealed), by decide +kernel⟩,
   ⟨at_ (withJob { job1 with writes := [{ job := 5, ctx := 0, region := 3, slab := 0, step := 9, attempt := 0, copy := 1, data := {} }] }), 5, 3, 0,
     by decide +kernel⟩⟩
theorem witness_NormPartialsAreExchangedOnce :
    (∃ (s : State) (j : Nat) (jb : Job), j < 64 ∧ getJob s.dev j = some jb ∧ jb.norm.formed = true) ∧
    (∃ (s : State) (j : Nat) (jb : Job), j < 64 ∧ getJob s.dev j = some jb ∧ jb.norm.formed = false ∧ jb.sealSt.requested = true ∧
      jb.stopped = false ∧ jb.sealSt.state ≠ .aborting ∧ ctxsComplete s.dev j jb = true ∧
      (stepCtxs s.dev j jb).any (fun e => sealedCtx jb e.2) = true) ∧
    (∃ (s : State) (j : Nat) (jb : Job), j < 64 ∧ getJob s.dev j = some jb ∧ jb.norm.known ≠ none ∧ jb.norm.bad = false ∧ jb.updStop = false ∧
      jb.sealSt.state = .opened ∧ jb.stopped = false ∧ ctxsComplete s.dev j jb = true ∧
      (stepCtxs s.dev j jb).any (fun e => sealedCtx jb e.2) = true) ∧
    (∃ (s : State) (j : Nat) (jb : Job), j < 64 ∧ getJob s.dev j = some jb ∧ jb.norm.known = none) ∧
    (∃ s k d, Arrives 0x62 (normBad k) k s d ∧
      (getJob (msgAck d k) (pktJob k.words)).any (fun jb => decide (msgAge jb (field (wordAt k.words 1) 47 0) (field (wordAt k.words 1) 55 48) = .now) &&
        !SMap.has jb.norm.parts (field (wordAt k.words 2) 24 16)) = true) ∧
    (∃ s k d, Arrives 0x62 (normBad k) k s d ∧
      (getJob (msgAck d k) (pktJob k.words)).any (fun jb => decide (msgAge jb (field (wordAt k.words 1) 47 0) (field (wordAt k.words 1) 55 48) = .now) &&
        SMap.has jb.norm.parts (field (wordAt k.words 2) 24 16)) = true) :=
  ⟨⟨at_ (withJob { job1 with norm := { formed := true } }), 5, _, by decide, rfl, rfl⟩,
   ⟨at_ (withCtx { job1 with sealSt := { requested := true } } ctxSealed), 5, { job1 with sealSt := { requested := true } }, by decide +kernel⟩,
   ⟨at_ (withCtx { job1 with norm := { known := some 0 } } ctxSealed), 5, { job1 with norm := { known := some 0 } }, by decide +kernel⟩,
   ⟨at_ (withJob job1), 5, job1, by decide +kernel⟩,
   arr_by (withTrunk job2 {}) (trunkK 0x62 [mkWord [(9, 0)], mkWord [(7, 32), (1, 16), (1, 0)], 0]) (by decide +kernel) (by decide +kernel),
   arr_by (withTrunk { job2 with norm := { parts := [(1, none)] } } {}) (trunkK 0x62 [mkWord [(9, 0)], mkWord [(7, 32), (1, 16), (1, 0)], 0])
     (by decide +kernel) (by decide +kernel)⟩
/-- A haul slab: region, slab, step, attempt. -/
def haulK (rn slab step att : Nat) : PktRx :=
  trunkK 0x20 ([mkWord [(rn, 48), (step, 0)], mkWord [(slab, 32), (att, 24), (1, 16), (1, 15), (1, 13)], mkWord [(32, 16), (32, 0)]] ++
    List.replicate (payloadWords 1 32) 0)
theorem witness_HaulSlabsGoOnOnce :
    let id := fun (k : PktRx) => [field (wordAt k.words 1) 61 48, field (wordAt k.words 2) 63 32, field (wordAt k.words 1) 47 0,
      field (wordAt k.words 2) 31 24, field (wordAt k.words 2) 11 10]
    (∃ s k d, Arrives 0x20 (haulBad k) k s d ∧ getJob d (pktJob k.words) = none) ∧
    (∃ s k d, Arrives 0x20 (haulBad k) k s d ∧ (getJob d (pktJob k.words)).any (fun jb => jb.haulSeen.contains (id k)) = true) ∧
    (∃ s k d, Arrives 0x20 (haulBad k) k s d ∧ (getJob d (pktJob k.words)).any (fun jb => !jb.haulSeen.contains (id k) &&
      (getRegion jb (field (wordAt k.words 1) 61 48)).isNone) = true) ∧
    (∃ s k d, Arrives 0x20 (haulBad k) k s d ∧ (getJob d (pktJob k.words)).any (fun jb => !jb.haulSeen.contains (id k) &&
      (getRegion jb (field (wordAt k.words 1) 61 48)).any (fun r => decide (nSlabs r = field (wordAt k.words 2) 63 32))) = true) ∧
    (∃ s k d, Arrives 0x20 (haulBad k) k s d ∧ (getJob d (pktJob k.words)).any (fun jb => !jb.haulSeen.contains (id k) &&
      !haulDead jb (field (wordAt k.words 1) 47 0) (field (wordAt k.words 2) 31 24) && !jb.stopped &&
      (getRegion jb (field (wordAt k.words 1) 61 48)).any (fun r => decide (field (wordAt k.words 2) 63 32 < nSlabs r))) = true) ∧
    (∃ s k d, Arrives 0x21 (haulAckBad k) k s d ∧ ((getJob d (pktJob k.words)).bind fun jb => ordOfAddr jb k.src) = some 1) ∧
    (∃ (s : State) (p : Nat), p < 288 ∧ (unacked (getPort s.dev p)).any (haulOverdue s.dev) = false) ∧
    (∃ (s : State) (p : Nat), p < 288 ∧ (unacked (getPort s.dev p)).any (haulOverdue s.dev) = true) :=
  ⟨arr_by { withTrunk job2 {} with jobs := [] } (haulK 3 1 9 0) (by decide +kernel) (by decide +kernel),
   arr_by (withTrunk { job2 with haulSeen := [[3, 1, 9, 0, 0]] } {}) (haulK 3 1 9 0) (by decide +kernel) (by decide +kernel),
   arr_by (withTrunk job2 {}) (haulK 4 1 9 0) (by decide +kernel) (by decide +kernel),
   arr_by (withTrunk job2 {}) (haulK 3 2 9 0) (by decide +kernel) (by decide +kernel),
   arr_by (withTrunk job2 {}) (haulK 3 1 9 0) (by decide +kernel) (by decide +kernel),
   arr_by (withTrunk job2 {}) (trunkK 0x21 [mkWord [(3, 48), (9, 0)], mkWord [(1, 32)]]) (by decide +kernel) (by decide +kernel),
   ⟨at_ (withTrunk job2 {}), 40, by decide +kernel⟩,
   ⟨at_ { withJob job1 with ports := [(287, { role := 1, st := .up, queue := [{ queue := 5, vc := 2, words := [], track := .haul 5 7 0 0 }] })], nowUs := 5000 },
     287, by decide +kernel⟩⟩
/-- A HOIST_REQ of member 7 for region 3. -/
def hoistK (tag first n : Nat) : PktRx :=
  { port := 40, words := mkPacket 0x30 5 [mkWord [(3, 48), (tag, 32), (first, 0)], mkWord [(5, 32), (1, 24), (n - 1, 0)]] }
/-- A read entry of region 3, slab 0, committed data for member 7's tag 1. -/
def read1 : ReadEntry := { region := 3, slab := 0, newest := false, ofmt := 1, cseq := 0, locals := [(7, 1)], table := 0 }
theorem witness_HoistReadsAreAnswered :
    let at0 := fun (jb : Job) => decide ((jb.reads[0]?.map fun e => (e.remote, e.held)) = some (none, false))
    (∃ s k d, Arrives 0x30 (hoistReqBad k) k s d ∧ (getJob d (hoistF (wordAt k.words 1) (wordAt k.words 2)).job = some job1 ∧
      memberOn job1 k.port = some 7 ∧ (hoistCheck d (hoistF (wordAt k.words 1) (wordAt k.words 2)) (hoistRsvd (wordAt k.words 1) (wordAt k.words 2))
        (some (job1, 7))).isSome = true)) ∧
    (∃ s k d, Arrives 0x30 (hoistReqBad k) k s d ∧ (getJob d (hoistF (wordAt k.words 1) (wordAt k.words 2)).job = some job1 ∧
      memberOn job1 k.port = some 7 ∧ hoistCheck d (hoistF (wordAt k.words 1) (wordAt k.words 2)) (hoistRsvd (wordAt k.words 1) (wordAt k.words 2))
        (some (job1, 7)) = none)) ∧
    (∃ s k d, Arrives 0x30 (hoistReqBad k) k s d ∧
      ((getJob d (hoistF (wordAt k.words 1) (wordAt k.words 2)).job).bind fun jb => memberOn jb k.port) = none) ∧
    (∃ (s : State) (j : Nat) (jb : Job), j < 64 ∧ getJob s.dev j = some jb ∧ at0 jb = true ∧ jb.reads.any (readWaits jb) = true) ∧
    (∃ (s : State) (j : Nat) (jb : Job), j < 64 ∧ getJob s.dev j = some jb ∧ at0 jb = true ∧ readWaits jb read1 = false ∧ servesShard jb = false) ∧
    (∃ (s : State) (j : Nat) (jb : Job), j < 64 ∧ getJob s.dev j = some jb ∧ at0 jb = true ∧ readWaits jb read1 = false ∧ servesShard jb = true ∧
      readHeld jb read1 = true) ∧
    (∃ (s : State) (j : Nat) (jb : Job), j < 64 ∧ getJob s.dev j = some jb ∧ at0 jb = true ∧ readWaits jb read1 = false ∧ servesShard jb = true ∧
      readHeld jb read1 = false ∧ (getRegion jb 3).any (fun r => (wantedCopy jb (getSlab r 0) false).isSome &&
        (hoistFetch s.dev j jb r read1).lost.isNone) = true) ∧
    (∃ (s : State) (j : Nat) (jb : Job), j < 64 ∧ getJob s.dev j = some jb ∧ at0 jb = true ∧ readWaits jb read1 = false ∧ servesShard jb = true ∧
      readHeld jb read1 = false ∧ (getRegion jb 3).any (fun r => (hoistFetch s.dev j jb r read1).lost == some 2) = true) ∧
    (∃ (s : State) (j m tag : Nat), j < 64 ∧ m < 4096 ∧ (((getJob s.dev j).bind fun jb => getHoist jb m tag).any fun h => h.todo != []) = true) ∧
    (∃ (s : State) (j m tag : Nat), j < 64 ∧ m < 4096 ∧ (((getJob s.dev j).bind fun jb => getHoist jb m tag).any fun h => h.todo == []) = true) ∧
    (∃ s k d, Arrives 0x34 (remoteReadBad k) k s d ∧ pktType k.words = 0x34) ∧
    (∃ s k d, Arrives 0x35 (remoteDataBad k) k s d ∧
      remoteEntry d (pktJob k.words) (field (wordAt k.words 3) 63 48) (field (wordAt k.words 1) 61 48) (field (wordAt k.words 2) 63 32) = some 0) ∧
    (∃ s k d, Arrives 0x35 (remoteDataBad k) k s d ∧
      remoteEntry d (pktJob k.words) (field (wordAt k.words 3) 63 48) (field (wordAt k.words 1) 61 48) (field (wordAt k.words 2) 63 32) = none) ∧
    (∃ s k d, Arrives 0x36 (remoteStatusBad k) k s d ∧
      remoteEntry d (pktJob k.words) (field (wordAt k.words 1) 47 32) (field (wordAt k.words 1) 61 48) (field (wordAt k.words 1) 31 0) = some 0) ∧
    (∃ s k d, Arrives 0x36 (remoteStatusBad k) k s d ∧
      remoteEntry d (pktJob k.words) (field (wordAt k.words 1) 47 32) (field (wordAt k.words 1) 61 48) (field (wordAt k.words 1) 31 0) = none) :=
  let far : Job := { job2 with reads := [{ read1 with slab := 1, remote := some (9, 0) }] }
  let rdata := fun id : Nat => trunkK 0x35 ([mkWord [(3, 48), (8, 0)], mkWord [(1, 32), (1, 16), (1, 13)], mkWord [(id, 48), (32, 16), (32, 0)]] ++
    List.replicate (payloadWords 1 32) 0)
  let rstat := fun id : Nat => trunkK 0x36 [mkWord [(3, 48), (id, 32), (1, 0)], mkWord [(stDamaged, 0)]]
  ⟨arr_by (withJob job1) (hoistK 1 1 2) (by decide +kernel) (by decide +kernel),
   arr_by (withJob job1) (hoistK 65535 0 2) (by decide +kernel) (by decide +kernel),
   arr_by { withJob job1 with jobs := [] } (hoistK 1 0 2) (by decide +kernel) (by decide +kernel),
   ⟨at_ (withJob { job1 with
       reads := [{ read1 with newest := true }]
       writes := [{ job := 5, ctx := 0, region := 3, slab := 0, step := 9, attempt := 0, copy := 1, data := {} }] }), 5, _, by decide, rfl, by decide, by decide⟩,
   ⟨at_ (withJob { job1 with reads := [read1], stopped := true }), 5, _, by decide, rfl, by decide +kernel⟩,
   ⟨at_ (withJob { jobStep { slab1 with tag1 := mkTag true false false 9 } with reads := [read1], sealSt := { state := .prepared } }), 5, _, by decide, rfl,
     by decide +kernel⟩,
   ⟨at_ (withJob { jobStep slab1 with reads := [read1] }), 5, _, by decide, rfl, by decide +kernel⟩,
   ⟨at_ (withJob { jobStep { slab1 with tag0 := 0 } with reads := [read1] }), 5, _, by decide, rfl, by decide +kernel⟩,
   ⟨at_ (withJob { job1 with hoists := [{ member := 7, tag := 1, port := 40, region := 3, todo := [0] }] }), 5, 7, 1, by decide +kernel⟩,
   ⟨at_ (withJob { job1 with hoists := [{ member := 7, tag := 1, port := 40, region := 3, todo := [] }] }), 5, 7, 1, by decide +kernel⟩,
   arr_by (withTrunk job2 {}) (trunkK 0x34 [mkWord [(3, 48), (1, 32), (0, 0)], mkWord [(5, 32), (1, 24)], 1]) (by decide +kernel) (by decide +kernel),
   arr_by (withTrunk far {}) (rdata 9) (by decide +kernel) (by decide +kernel), arr_by (withTrunk far {}) (rdata 8) (by decide +kernel) (by decide +kernel),
   arr_by (withTrunk far {}) (rstat 9) (by decide +kernel) (by decide +kernel), arr_by (withTrunk far {}) (rstat 8) (by decide +kernel) (by decide +kernel)⟩
/-- A seal message of ordinal 1. -/
def sealK (kind step att : Nat) : PktRx := trunkK 0x65 [mkWord [(kind, 60), (att, 48), (step, 0)], mkWord [(1, 16)], 0]
/-- The ten kinds of seal messages. -/
def sealKinds : List Nat := [1, 2, 3, 4, 5, 6, 7, 8, 9, 10]
/-- The device on which the witnesses of seal messages arrive: step 9, attempt 3; step 8, attempt 1 was the last sealed; `seen` has
arrived before. -/
def sealDev (seen : List (Nat × Nat × Nat × Nat)) : Dev :=
  withTrunk { job2 with attempt := 3, sealSt := { lastStep := some (8, 1), aborts := [{ step := 9, attempt := 2 }], seen := seen } } {}
theorem witness_SealMessagesActOnce :
    let age := fun (k : PktRx) (d : Dev) => (getJob (msgAck d k) (pktJob k.words)).map fun jb =>
      (msgAge jb (sealF k.words).step (sealF k.words).attempt,
        jb.sealSt.seen.contains ((sealF k.words).step, (sealF k.words).attempt, (sealF k.words).ord, (sealF k.words).kind))
    (∀ n ∈ sealKinds, (∃ s k d, Arrives 0x65 (sealBad k) k s d ∧ (sealF k.words).kind = n ∧ age k d = some (.now, false)) ∧
      (∃ s k d, Arrives 0x65 (sealBad k) k s d ∧ (sealF k.words).kind = n ∧ age k d = some (.now, true)) ∧
      (∃ s k d, Arrives 0x65 (sealBad k) k s d ∧ (sealF k.words).kind = n ∧ age k d = some (.last, false)) ∧
      (∃ s k d, Arrives 0x65 (sealBad k) k s d ∧ (sealF k.words).kind = n ∧ age k d = some (.last, true)) ∧
      (∃ s k d, Arrives 0x65 (sealBad k) k s d ∧ (sealF k.words).kind = n ∧ age k d = some (.early, false) ∧
        (getJob (msgAck d k) (pktJob k.words)).any (fun jb => jb.early.isEmpty) = true) ∧
      (∃ s k d, Arrives 0x65 (sealBad k) k s d ∧ (sealF k.words).kind = n ∧ age k d = some (.left, false) ∧
        (getJob (msgAck d k) (pktJob k.words)).any (fun jb => !awaitsAck jb.sealSt (sealF k.words).step (sealF k.words).attempt (sealF k.words).ord) = true)) ∧
    (∃ s k d, Arrives 0x65 (sealBad k) k s d ∧ (sealF k.words).kind = 8 ∧ age k d = some (.left, false) ∧
      (getJob (msgAck d k) (pktJob k.words)).any (fun jb => awaitsAck jb.sealSt (sealF k.words).step (sealF k.words).attempt (sealF k.words).ord) = true) := by
  refine ⟨fun n h => ?_, arr_by (sealDev []) (sealK 8 9 2) (by decide +kernel) (by decide +kernel)⟩
  have all : ∀ n ∈ sealKinds, ∀ x ∈ [(9, 3, false), (9, 3, true), (8, 1, false), (8, 1, true), (9, 4, false), (9, 1, false)],
      (arrivalOk (sealK n x.1 x.2.1) 0x65 && !spoilsAt (bring (sealDev (if x.2.2 then [(x.1, x.2.1, 1, n)] else [])) (sealK n x.1 x.2.1)) (sealK n x.1 x.2.1) &&
        !passesOn (takeArrived (bring (sealDev (if x.2.2 then [(x.1, x.2.1, 1, n)] else [])) (sealK n x.1 x.2.1)) (sealK n x.1 x.2.1)) (sealK n x.1 x.2.1) && commonOk (sealK n x.1 x.2.1).words &&
        sealBad (sealK n x.1 x.2.1) (takeArrived (bring (sealDev (if x.2.2 then [(x.1, x.2.1, 1, n)] else [])) (sealK n x.1 x.2.1)) (sealK n x.1 x.2.1)) == none &&
        !fromWithdrawn (takeArrived (bring (sealDev (if x.2.2 then [(x.1, x.2.1, 1, n)] else [])) (sealK n x.1 x.2.1)) (sealK n x.1 x.2.1)) (sealK n x.1 x.2.1)) = true := by
    decide +kernel
  have at1 := fun x hx => all n h x hx
  have hn : n = 1 ∨ n = 2 ∨ n = 3 ∨ n = 4 ∨ n = 5 ∨ n = 6 ∨ n = 7 ∨ n = 8 ∨ n = 9 ∨ n = 10 := by simpa [sealKinds] using h
  refine ⟨arr_by (sealDev []) (sealK n 9 3) (at1 (9, 3, false) (by decide)) ?_, arr_by (sealDev [(9, 3, 1, n)]) (sealK n 9 3) (at1 (9, 3, true) (by decide)) ?_,
    arr_by (sealDev []) (sealK n 8 1) (at1 (8, 1, false) (by decide)) ?_, arr_by (sealDev [(8, 1, 1, n)]) (sealK n 8 1) (at1 (8, 1, true) (by decide)) ?_,
    arr_by (sealDev []) (sealK n 9 4) (at1 (9, 4, false) (by decide)) ?_, arr_by (sealDev []) (sealK n 9 1) (at1 (9, 1, false) (by decide)) ?_⟩ <;>
  rcases hn with rfl | rfl | rfl | rfl | rfl | rfl | rfl | rfl | rfl | rfl <;> decide +kernel
theorem witness_VotesScansAndMessageAcks :
    (∃ (s : State) (j : Nat) (jb : Job), j < 64 ∧ getJob s.dev j = some jb ∧ voteReady s.dev j jb = false ∧ jb.sealSt.state ≠ .aborting) ∧
    (∃ (s : State) (j : Nat) (jb : Job), j < 64 ∧ getJob s.dev j = some jb ∧ voteReady s.dev j jb = true ∧ coordinator jb = jb.ordinal) ∧
    (∃ (s : State) (j : Nat) (jb : Job), j < 64 ∧ getJob s.dev j = some jb ∧ voteReady s.dev j jb = true ∧ coordinator jb ≠ jb.ordinal) ∧
    (∃ (s : State) (j : Nat) (jb : Job), j < 64 ∧ getJob s.dev j = some jb ∧ jb.sealSt.state = .aborting ∧ jb.sealSt.scanDone = false ∧ jb.writes = []) ∧
    (∃ s k d, Arrives 0x66 (msgAckBad k) k s d ∧ field (wordAt k.words 1) 7 0 = 0x65) :=
  ⟨⟨at_ (withJob job1), 5, job1, by decide +kernel⟩,
   ⟨at_ (withJob { job1 with sealSt := { requested := true } }), 5, _, by decide, rfl, by decide +kernel⟩,
   ⟨at_ (withJob { job2 with sealSt := { requested := true }, ordinal := 1 }), 5, _, by decide, rfl, by decide +kernel⟩,
   ⟨at_ (withJob { job1 with sealSt := { state := .aborting } }), 5, _, by decide, rfl, by decide +kernel⟩,
   arr_by (withTrunk job2 {}) (trunkK 0x66 [mkWord [(7, 32), (1, 16), (0x65, 0)]]) (by decide +kernel) (by decide +kernel)⟩
/-- A parity group in which this module is position 7; position 0 is at fabric address 1. -/
def group1 : ParGroup := { id := 9, pos := 7, serials := [0x2000, 2, 3, 4, 5, 6, 7, 0x1000] }
/-- A device at work with the job and the group. -/
def withGroup (jb : Job) : Dev := { withTrunk jb {} with fabric := { mapRun := [(1, 0x2000)] }, parity := { group := some group1 } }
/-- A PARITY_DELTA of one word, and the PARITY_ACK of a piece: region 3, row 1, position 0. -/
def pieceWords : List W64 := [0x1000, mkWord [(9, 0)], mkWord [(3, 50), (1, 23)], mkWord [(1, 32), (8, 0)]]
/-- A message kept until it is acknowledged. -/
def kept (ty dst : Nat) (key : List Nat) : Held := { ptype := ty, job := 5, dst := dst, key := key, vc := 4, words := [], sentAt := 0, since := 0 }
theorem witness_ParityPiecesAreHeldAndAcknowledged :
    let mine := fun (k : PktRx) (d : Dev) => (getJob d (pktJob k.words)).bind fun jb => (chunkOf (pieceOf k.words).row (pieceOf k.words).pos).map fun c =>
      decide ((pieceOf k.words).key = jobKey jb) && jb.held.any fun h => h.ptype == 0x40 && h.key == [bit (pieceOf k.words).base, (pieceOf k.words).step,
        (pieceOf k.words).attempt, (pieceOf k.words).region, field (wordAt k.words 4) 63 32, 131072 * c + (pieceOf k.words).off]
    (∃ s k d, Arrives 0x40 (parityDeltaBad k) k s d ∧ d.parity.group = none) ∧
    (∃ s k d, Arrives 0x40 (parityDeltaBad k) k s d ∧ d.parity.group ≠ none) ∧
    (∃ s k d, Arrives 0x41 (parityAckBad k) k s d ∧ mine k d = some false) ∧
    (∃ s k d, Arrives 0x41 (parityAckBad k) k s d ∧ mine k d = some true) ∧
    (∀ n ∈ [1, 2, 3, 4], ∃ s k d, Arrives 0x42 (parityCtlBad k) k s d ∧ ctlKind k.words = n ∧ posOfAddr d k.src = some 0 ∧
      (getJob d (pktJob k.words)).any (fun jb => decide ((ctlStep k.words).key = jobKey jb) &&
        jb.held.any fun x => x.ptype == 0x42 && x.dst == 0 && (decide (n < 3) || x.key == [n - 2, (ctlStep k.words).step, (ctlStep k.words).attempt])) = true) ∧
    (∀ n ∈ [3, 4], ∃ s k d, Arrives 0x42 (parityCtlBad k) k s d ∧ ctlKind k.words = n ∧ posOfAddr d k.src = some 0 ∧
      (getJob d (pktJob k.words)).any (fun jb => jb.held.isEmpty) = true) := by
  refine ⟨arr_by (withTrunk job2 {}) (trunkK 0x40 (pieceWords ++ [1])) (by decide +kernel) (by decide +kernel),
    arr_by (withGroup job2) (trunkK 0x40 (pieceWords ++ [1])) (by decide +kernel) (by decide +kernel),
    arr_by (withGroup job2) (trunkK 0x41 (pieceWords ++ [0])) (by decide +kernel) (by decide +kernel),
    arr_by (withGroup { job2 with held := [kept 0x40 1 [0, 9, 0, 3, 1, 0]] }) (trunkK 0x41 (pieceWords ++ [0])) (by decide +kernel) (by decide +kernel), ?_, ?_⟩
  · intro n h
    have hn : n = 1 ∨ n = 2 ∨ n = 3 ∨ n = 4 := by simpa using h
    rcases hn with rfl | rfl | rfl | rfl
    · exact arr_by (withGroup { job2 with held := [kept 0x42 0 [1, 9, 0]] }) (trunkK 0x42 [0x1000, 9, 1]) (by decide +kernel) (by decide +kernel)
    · exact arr_by (withGroup { job2 with held := [kept 0x42 0 [2, 9, 0]] }) (trunkK 0x42 [0x1000, 9, 2]) (by decide +kernel) (by decide +kernel)
    · exact arr_by (withGroup { job2 with held := [kept 0x42 0 [1, 9, 0]] }) (trunkK 0x42 [0x1000, 9, 3]) (by decide +kernel) (by decide +kernel)
    · exact arr_by (withGroup { job2 with held := [kept 0x42 0 [2, 9, 0]] }) (trunkK 0x42 [0x1000, 9, 4]) (by decide +kernel) (by decide +kernel)
  · intro n h
    have hn : n = 3 ∨ n = 4 := by simpa using h
    rcases hn with rfl | rfl
    · exact arr_by (withGroup job2) (trunkK 0x42 [0x1000, 9, 3]) (by decide +kernel) (by decide +kernel)
    · exact arr_by (withGroup job2) (trunkK 0x42 [0x1000, 9, 4]) (by decide +kernel) (by decide +kernel)
/-- A LIVENESS: scope, KIND, key, sender and subject. -/
def liveK (scope kind : Nat) (key : W64) (from_ subj : Nat) : PktRx := trunkK 0x48 [key, mkWord [(scope, 62), (kind, 56), (subj, 16), (from_, 0)]]
/-- A device with claims outstanding to fabric address 1. -/
def withClaim (scope : Nat) (ready : Bool) : Dev :=
  let g := withGroup { job2 with rebuild := some { step := 8, waiting := [1] } }
  { g with parity := { g.parity with ready := ready, claims := [{ scope := scope, job := 5, target := 1, addr := some 1, words := [], sentAt := 0 }] } }
/-- A CLAIM answer of fabric address 1. -/
def claimK (scope status : Nat) : PktRx := trunkK 0x4A [9, mkWord [(scope, 62), (1, 61), (status, 32)], 0, 0]
theorem witness_LivenessAndClaims :
    (∀ kind ∈ [1, 2], (∃ s k d, Arrives 0x48 (livenessBad k) k s d ∧ liveKind k.words = kind ∧ field (wordAt k.words 2) 63 62 = 1 ∧
        (getJob d (pktJob k.words)).any (fun jb => decide (jobKey jb = wordAt k.words 1) &&
          decide (nextUp jb.ordinal (liveOrds jb) = some (field (wordAt k.words 2) 8 0))) = true) ∧
      (∃ s k d, Arrives 0x48 (livenessBad k) k s d ∧ liveKind k.words = kind ∧ field (wordAt k.words 2) 63 62 = 1 ∧
        (getJob d (pktJob k.words)).any (fun jb => decide (jobKey jb ≠ wordAt k.words 1)) = true) ∧
      (∃ s k d, Arrives 0x48 (livenessBad k) k s d ∧ liveKind k.words = kind ∧ field (wordAt k.words 2) 63 62 = 2 ∧ d.parity.group = some group1 ∧
        groupId group1 = wordAt k.words 1 ∧ nextUp group1.pos (livePos d) = some (field (wordAt k.words 2) 8 0)) ∧
      (∃ s k d, Arrives 0x48 (livenessBad k) k s d ∧ liveKind k.words = kind ∧ field (wordAt k.words 2) 63 62 = 2 ∧ d.parity.group = some group1 ∧
        groupId group1 ≠ wordAt k.words 1)) ∧
    (∃ s : State, s.dev.parity.group = none) ∧
    (∃ (s : State) (p : Nat), s.dev.parity.group = some group1 ∧ s.dev.parity.out = false ∧ s.dev.parity.liveTx + 5000 ≤ s.dev.nowUs ∧
      s.dev.parity.liveRx + 50000 ≤ s.dev.nowUs ∧ nextDown group1.pos (livePos s.dev) = some p ∧ (nextUp group1.pos (livePos s.dev)).isSome = true) ∧
    (∃ (s : State) (j : Nat) (jb : Job), j < 64 ∧ getJob s.dev j = some jb ∧ jb.q < 2) ∧
    (∃ (s : State) (j q : Nat) (jb : Job), j < 64 ∧ getJob s.dev j = some jb ∧ 2 ≤ jb.q ∧ jb.stopped = false ∧ jb.liveRx + 50000 ≤ s.dev.nowUs ∧
      nextUp jb.ordinal (liveOrds jb) = some q) ∧
    (∃ s k d, Arrives 0x4A (claimBad k) k s d ∧ flag (wordAt k.words 2) 61 = false) ∧
    (∃ s k d, Arrives 0x4A (claimBad k) k s d ∧ flag (wordAt k.words 2) 61 = true ∧ d.parity.claims = []) ∧
    (∃ s k d, Arrives 0x4A (claimBad k) k s d ∧ flag (wordAt k.words 2) 61 = true ∧ d.parity.claims ≠ [] ∧ field (wordAt k.words 2) 63 62 = 2 ∧
      field (wordAt k.words 2) 47 32 = stOk) ∧
    (∃ s k d, Arrives 0x4A (claimBad k) k s d ∧ flag (wordAt k.words 2) 61 = true ∧ d.parity.claims ≠ [] ∧ field (wordAt k.words 2) 63 62 = 2 ∧
      field (wordAt k.words 2) 47 32 ≠ stOk ∧ d.parity.ready = true) ∧
    (∃ s k d, Arrives 0x4A (claimBad k) k s d ∧ flag (wordAt k.words 2) 61 = true ∧ d.parity.claims ≠ [] ∧ field (wordAt k.words 2) 63 62 = 1) := by
  refine ⟨?_, ⟨at_ up, rfl⟩, ⟨at_ { withGroup job2 with nowUs := 50000 }, 6, by decide +kernel⟩, ⟨at_ (withJob job1), 5, job1, by decide +kernel⟩,
    ⟨at_ { withGroup job2 with nowUs := 50000 }, 5, 1, job2, by decide +kernel⟩,
    arr_by (withGroup job2) (trunkK 0x4A [0x1000, mkWord [(1, 62), (1, 0)], 0x2000, 0]) (by decide +kernel) (by decide +kernel),
    arr_by (withGroup job2) (claimK 2 0) (by decide +kernel) (by decide +kernel),
    arr_by (withClaim 2 false) (claimK 2 0) (by decide +kernel) (by decide +kernel),
    arr_by (withClaim 2 true) (claimK 2 stInUse) (by decide +kernel) (by decide +kernel),
    arr_by (withClaim 1 true) (claimK 1 0) (by decide +kernel) (by decide +kernel)⟩
  intro kind h
  have hn : kind = 1 ∨ kind = 2 := by simpa using h
  rcases hn with rfl | rfl
  · exact ⟨arr_by (withGroup job2) (liveK 1 1 0x1000 1 1) (by decide +kernel) (by decide +kernel),
      arr_by (withGroup job2) (liveK 1 1 0x2000 1 1) (by decide +kernel) (by decide +kernel),
      arr_by (withGroup job2) (liveK 2 1 9 0 0) (by decide +kernel) (by decide +kernel),
      arr_by (withGroup job2) (liveK 2 1 8 0 0) (by decide +kernel) (by decide +kernel)⟩
  · exact ⟨arr_by (withGroup job2) (liveK 1 2 0x1000 1 1) (by decide +kernel) (by decide +kernel),
      arr_by (withGroup job2) (liveK 1 2 0x2000 1 1) (by decide +kernel) (by decide +kernel),
      arr_by (withGroup job2) (liveK 2 2 9 0 0) (by decide +kernel) (by decide +kernel),
      arr_by (withGroup job2) (liveK 2 2 8 0 0) (by decide +kernel) (by decide +kernel)⟩
/-- A SLAB_XFER of member 7: region 3, slab, array, for a load of object 9 in format 1. -/
def xferK (slab array : Nat) : PktRx :=
  { port := 40, words := mkPacket 0x45 5 ([9, mkWord [(array, 62), (3, 48)], mkWord [(slab, 32), (2, 30)], 0] ++ List.replicate (64 * fmtBytes 0) 0) }
/-- An XFER_ACK of member 7. -/
def xackK (kind status : Nat) : PktRx :=
  { port := 40, words := mkPacket 0x47 5 [if kind = 0 then 0x1000 else 9, mkWord [(3, 48)], mkWord [(1, 32), (kind, 30), (status, 0)]] }
/-- The job with a load of slab 1 of region 3 from member 7. -/
def jobLoad : Job := { job1 with loads := [{ kind := 2, member := 7, region := 3, object := 9, pending := [{ region := 3, slab := 1 }] }] }
/-- The job with a snapshot packet on its way to member 7. -/
def jobSnap : Job := { job1 with held := [kept 0x45 7 [0, 0, 0, 3, 1, 0]] }
theorem witness_RowsAndSlabsAreTransferred :
    let load := fun (k : PktRx) (d : Dev) => (getJob d (pktJob k.words)).bind fun jb => (memberOn jb k.port).bind fun m =>
      (loadFor jb m (field (wordAt k.words 3) 31 30) (field (wordAt k.words 2) 61 48) (wordAt k.words 1) (field (wordAt k.words 2) 47 0)).bind fun l =>
        (getRegion jb (field (wordAt k.words 2) 61 48)).map fun r =>
          (l.pending.any fun f => f.region == field (wordAt k.words 2) 61 48 && f.slab == field (wordAt k.words 3) 63 32,
            (loadArrays l r).contains (field (wordAt k.words 2) 63 62) &&
              decide (field (wordAt k.words 3) 28 21 = (r.fmts.getD (field (wordAt k.words 2) 63 62) 0).toNat))
    let mine := fun (k : PktRx) (d : Dev) => (getJob d (pktJob k.words)).bind fun jb => (memberOn jb k.port).map fun m =>
      jb.held.any fun h => h.ptype == 0x45 && h.dst == m && h.key == [0, field (wordAt k.words 3) 29 28, field (wordAt k.words 3) 27 27,
        field (wordAt k.words 2) 61 48, field (wordAt k.words 3) 63 32, field (wordAt k.words 2) 47 0]
    (∃ s k d, Arrives 0x43 (rebuildReqBad k) k s d ∧ d.parity.group = none) ∧
    (∃ s k d, Arrives 0x43 (rebuildReqBad k) k s d ∧ d.parity.group ≠ none) ∧
    (∃ s k d, Arrives 0x44 (rebuildDataBad k) k s d ∧ flag (wordAt k.words 2) 3 = true) ∧
    (∃ s k d, Arrives 0x44 (rebuildDataBad k) k s d ∧ flag (wordAt k.words 2) 3 = false) ∧
    (∃ s k d, Arrives 0x45 (slabXferBad k) k s d ∧ (load k d).map (·.1) = some false) ∧
    (∃ s k d, Arrives 0x45 (slabXferBad k) k s d ∧ load k d = some (true, false)) ∧
    (∃ s k d, Arrives 0x45 (slabXferBad k) k s d ∧ load k d = some (true, true)) ∧
    (∃ s k d, Arrives 0x47 (xferAckBad k) k s d ∧ field (wordAt k.words 3) 31 30 = 0 ∧ mine k d = some false) ∧
    (∃ s k d, Arrives 0x47 (xferAckBad k) k s d ∧ field (wordAt k.words 3) 31 30 = 0 ∧ mine k d = some true ∧ field (wordAt k.words 3) 15 0 = stOk) ∧
    (∃ s k d, Arrives 0x47 (xferAckBad k) k s d ∧ field (wordAt k.words 3) 31 30 = 0 ∧ mine k d = some true ∧ field (wordAt k.words 3) 15 0 ≠ stOk) ∧
    (∃ s k d, Arrives 0x47 (xferAckBad k) k s d ∧ field (wordAt k.words 3) 31 30 ≠ 0 ∧ (load k d).map (·.1) = some true ∧
      field (wordAt k.words 3) 15 0 = stIllegal) :=
  ⟨arr_by (withTrunk job2 {}) (trunkK 0x43 [0x1000, mkWord [(3, 50), (1, 23)], 0]) (by decide +kernel) (by decide +kernel),
   arr_by (withGroup job2) (trunkK 0x43 [0x1000, mkWord [(3, 50), (1, 23)], 0]) (by decide +kernel) (by decide +kernel),
   arr_by (withGroup job2) (trunkK 0x44 [0x1000, mkWord [(3, 50), (1, 23), (1, 3)], 0, 8, 1]) (by decide +kernel) (by decide +kernel),
   arr_by (withGroup job2) (trunkK 0x44 [0x1000, mkWord [(3, 50), (1, 23)], 0, 8, 1]) (by decide +kernel) (by decide +kernel),
   arr_by (withJob jobLoad) (xferK 0 0) (by decide +kernel) (by decide +kernel), arr_by (withJob jobLoad) (xferK 1 3) (by decide +kernel) (by decide +kernel),
   arr_by (withJob jobLoad) (xferK 1 0) (by decide +kernel) (by decide +kernel),
   arr_by (withJob job1) (xackK 0 0) (by decide +kernel) (by decide +kernel), arr_by (withJob jobSnap) (xackK 0 0) (by decide +kernel) (by decide +kernel),
   arr_by (withJob jobSnap) (xackK 0 stLimit) (by decide +kernel) (by decide +kernel),
   arr_by (withJob jobLoad) (xackK 2 stIllegal) (by decide +kernel) (by decide +kernel)⟩
/-- A replay from port 40 that has asked for 16 bytes at 0. -/
def replay1 : Replay := { source := 1, port := 40, first := 0, asked := [(0, 16, 0)] }
/-- A REPLAY_DATA of one word. -/
def replayK (off : Nat) : PktRx := { port := 40, words := mkPacket 0x53 5 [BitVec.ofNat 64 off, mkWord [(5, 32), (8, 0)], 1] }
/-- A device on whose update dies nothing has happened reads every stripe without an error. -/
theorem clean_memory {d : Dev} (h : d.mems = []) (g : d.spare.chans = []) :
    ∀ u n, (getMem d u).errs = [] ∧ failedChans d u = [] ∧ erasures d u n = [] := by
  simp [getMem, h, SMap.getD, SMap.get?, failedChans, chanNums, chansAt, g, erasures, unbuiltChans, stripeErrs, kindAt]
theorem witness_RecordsAreReadMirroredAndReplayed :
    (∃ s k d, Arrives 0x51 (recReadBad k) k s d ∧ getJob d (pktJob k.words) = some job1 ∧
      ∀ u n, (getMem d u).errs = [] ∧ failedChans d u = [] ∧ erasures d u n = []) ∧
    (∃ s k d, Arrives 0x53 (replayDataBad k) k s d ∧ ((getJob d (pktJob k.words)).bind (·.replay)) = some replay1 ∧ k.port = replay1.port ∧
      (replay1.asked.find? fun a => a.1 == (wordAt k.words 1).toNat) = none) ∧
    (∃ s k d, Arrives 0x53 (replayDataBad k) k s d ∧ ((getJob d (pktJob k.words)).bind (·.replay)) = some replay1 ∧ replay1.active = true ∧
      k.port = replay1.port ∧ k.words.drop 3 ≠ [] ∧ 8 * (k.words.drop 3).length ≤ 16 ∧
      (replay1.asked.find? fun a => a.1 == (wordAt k.words 1).toNat) = some (0, 16, 0)) ∧
    (∃ (s : State) (j : Nat) (r : Rec), j < 64 ∧ ((getJob s.dev j).bind (·.recd)) = some r ∧ recMirrorDown s.dev r = true ∧ r.heldQ ≠ []) ∧
    (∃ (s : State) (j : Nat), j < 64 ∧ getJob s.dev j = none) :=
  ⟨arr_by (withJob job1) { port := 40, words := mkPacket 0x51 5 [0, mkWord [(5, 32), (8192, 0)]] } (by decide +kernel)
    ⟨by decide +kernel, clean_memory (by decide) (by decide)⟩,
   arr_by (withJob { job1 with replay := some replay1 }) (replayK 8) (by decide +kernel) (by decide +kernel),
   arr_by (withJob { job1 with replay := some replay1 }) (replayK 0) (by decide +kernel) (by decide +kernel),
   ⟨at_ { withJob { job1 with recd := some { target := 1, port := 42, heldQ := [[0]] } } with nowUs := 10000 }, 5, { target := 1, port := 42, heldQ := [[0]] },
     by decide +kernel⟩, ⟨at_ up, 63, by decide⟩⟩
/-- A RING_STATE of axis 0 from the module at address `src`. -/
def ringK (ttl src : Nat) : PktRx := { port := 256, words := [commonWord 0x70 0 16, mkWord [(2, 56), (1, 40), (ttl, 36), (src, 0)]] }
/-- A device in READY whose second port of the pair 0 trunks are planned, so that a RING_STATE can go on. -/
def withRing (e : SMap RingEntry) : Dev := { withTrunk job2 {} with fabric := { ring := e, pairs := resetPairs } }
/-- A device in READY whose pair 0 is planned and seen as R580 asks: the next module toward + on axis 0 has serial 0x2000. -/
def pairDev : Dev :=
  let b := fun (e : Nat) => some ({ serial := 0x1000, engine := e, pos := 0, role := 2 } : Beacon)
  let pl := fun (dir : Nat) => ({ kind := 1, axis := 0, dir := dir, engine := 34, pos := 0, serial := 0x2000 } : PlanEntry)
  { up with
    ports := [(256, { role := 2, st := .up, beacon := b 34 }), (272, { role := 2, st := .up, beacon := b 32 })]
    fabric := { cfgRun := mkWord [(1, 16)], mapRun := [(1, 0x2000)], planRun := [(256, pl 0), (272, pl 1)], pairs := { clsA := 1, clsB := 5 } :: List.replicate 15 {} } }
theorem witness_FabricRowsRouteMapAndRelease :
    let others := fun (s : State) (k : PktRx) => hasEnvelope (getPort s.dev k.port).role (typeVc (pktType k.words)) && decide (k.dst ≠ ownAddr s.dev)
    let newer := fun (k : PktRx) (d : Dev) => match SMap.get? d.fabric.ring (8 * field (wordAt k.words 1) 49 48 +
        coord (field (wordAt k.words 1) 8 0) (field (wordAt k.words 1) 49 48)) with
      | none => true
      | some o => decide (1 ≤ (field (wordAt k.words 1) 47 40 + 256 - o.seq) % 256) && decide ((field (wordAt k.words 1) 47 40 + 256 - o.seq) % 256 ≤ 127)
    (∃ (s : State) (k : PktRx), k.port < 288 ∧ k.dst = ownAddr s.dev) ∧
    (∃ (s : State) (k : PktRx), k.port < 288 ∧ others s k = true ∧ spoilsAt s.dev k = true) ∧
    (∃ (s : State) (k : PktRx), k.port < 288 ∧ others s k = true ∧ spoilsAt s.dev k = false ∧ k.hops = 1) ∧
    (∃ (s : State) (k : PktRx), k.port < 288 ∧ others s k = true ∧ spoilsAt s.dev k = false ∧ k.hops = 2) ∧
    (∃ s k d, Arrives 0x70 (ringBad k) k s d ∧ field (wordAt k.words 1) 63 56 = 2 ∧ newer k d = false) ∧
    (∃ s k d, Arrives 0x70 (ringBad k) k s d ∧ field (wordAt k.words 1) 63 56 = 2 ∧
      sameLine (field (wordAt k.words 1) 49 48) (field (wordAt k.words 1) 8 0) (ownAddr d) = false) ∧
    (∃ s k d, Arrives 0x70 (ringBad k) k s d ∧ field (wordAt k.words 1) 63 56 = 2 ∧ newer k d = true ∧
      sameLine (field (wordAt k.words 1) 49 48) (field (wordAt k.words 1) 8 0) (ownAddr d) = true ∧ field (wordAt k.words 1) 39 36 = 0) ∧
    (∃ s k d, Arrives 0x70 (ringBad k) k s d ∧ field (wordAt k.words 1) 63 56 = 2 ∧ newer k d = true ∧
      sameLine (field (wordAt k.words 1) 49 48) (field (wordAt k.words 1) 8 0) (ownAddr d) = true ∧ field (wordAt k.words 1) 39 36 ≠ 0 ∧
      field (wordAt k.words 1) 8 0 ≠ ownAddr d) ∧
    (∃ s : State, linksOn s.dev = true ∧ s.dev.fabric.ringAt + 100000 ≤ s.dev.nowUs) ∧
    (∃ (s : State) (q : Nat), q < 16 ∧ mayRelease s.dev q = true) ∧ (∃ (s : State) (q : Nat), q < 16 ∧ mayRelease s.dev q = false) :=
  let far := fun (h : Nat) => ({ trunkK 0x60 [0] with dst := 1, hops := h } : PktRx)
  ⟨⟨at_ up, { port := 287, words := [] }, by decide⟩, ⟨at_ (withTrunk job2 {}), far 2, by decide +kernel⟩,
   ⟨at_ (bring (withTrunk job2 {}) (far 1)), far 1, by decide +kernel⟩, ⟨at_ (bring (withTrunk job2 {}) (far 2)), far 2, by decide +kernel⟩,
   arr_by (withRing [(1, { seq := 1, plusN := 0, minusN := 0, plusNext := 0, minusNext := 0, at_ := 0 })]) (ringK 7 1) (by decide +kernel) (by decide +kernel),
   arr_by (withRing []) (ringK 7 8) (by decide +kernel) (by decide +kernel), arr_by (withRing []) (ringK 0 1) (by decide +kernel) (by decide +kernel),
   arr_by (withRing []) (ringK 7 1) (by decide +kernel) (by decide +kernel), ⟨at_ (withPort 0 {}), by decide⟩, ⟨at_ pairDev, 0, by decide +kernel⟩,
   ⟨State.reset, 15, by decide +kernel⟩⟩
/-- A device with listed buffers. -/
def withBufs (bs : SMap Buf) : Dev := { up with pools := { bufs := bs, opened := [60, 61, 62] } }
theorem witness_PoolsGiveCountAndFree :
    (∃ (s : State) (p r h : Nat), p < 64 ∧ isRequester r = true ∧ poolPriv p = false ∧ SMap.firstFree s.dev.pools.bufs (2 ^ 18 * p) (poolCount p) = some h ∧
      h = 2 ^ 18 * p + 1) ∧
    (∃ (s : State) (p r : Nat), p < 64 ∧ isRequester r = true ∧ poolPriv p = false ∧
      SMap.firstFree s.dev.pools.bufs (2 ^ 18 * p) (poolCount p) = none) ∧
    (∃ (s : State) (p r n cap : Nat), p < 64 ∧ isRequester r = true ∧ n < 64 ∧ poolPriv p = false ∧ poolJobCap p = some cap ∧
      poolHeld s.dev p (fun b => b.job == some n) < cap ∧ SMap.firstFree s.dev.pools.bufs (2 ^ 18 * p) (poolCount p) ≠ none) ∧
    (∃ (s : State) (p r n cap : Nat), p < 64 ∧ isRequester r = true ∧ n < 64 ∧ poolPriv p = false ∧ poolJobCap p = some cap ∧
      cap ≤ poolHeld s.dev p (fun b => b.job == some n)) ∧
    (∃ (s : State) (p r : Nat), p < 64 ∧ isRequester r = true ∧ poolPriv p = true ∧ poolOpen s.dev p = true ∧
      poolHeld s.dev p (fun b => b.req == r) < poolQuota p r ∧ (poolStack s.dev p).isEmpty = false) ∧
    (∃ (s : State) (p r : Nat), p < 64 ∧ isRequester r = true ∧ poolPriv p = true ∧ poolOpen s.dev p = true ∧
      poolHeld s.dev p (fun b => b.req == r) < poolQuota p r ∧ poolStack s.dev p = []) ∧
    (∃ (s : State) (p r : Nat), p < 64 ∧ isRequester r = true ∧ poolPriv p = true ∧ poolOpen s.dev p = false) ∧
    (∃ (s : State) (p r : Nat), p < 64 ∧ isRequester r = true ∧ poolPriv p = true ∧ poolOpen s.dev p = true ∧
      poolQuota p r ≤ poolHeld s.dev p (fun b => b.req == r)) ∧
    (∀ n ∈ [1, 2, 254, 255], ∃ (s : State) (h : Nat), h < 2 ^ 24 ∧ SMap.get? s.dev.pools.bufs h = some { refs := n, req := 46, job := none } ∧
      SMap.wf s.dev.pools.bufs = true) ∧
    (∃ (s : State) (h : Nat), h < 2 ^ 24 ∧ SMap.get? s.dev.pools.bufs h = none) :=
  ⟨⟨at_ (withBufs [(0, { refs := 1, req := 0, job := none })]), 0, 0, 1, by decide +kernel⟩,
   ⟨at_ up, 7, 0, by decide +kernel⟩, ⟨at_ up, 6, 46, 63, 256, by decide +kernel⟩,
   ⟨at_ (withBufs ((List.range 128).map fun i => (2 ^ 18 * 3 + i, { refs := 1, req := 0, job := some 63 }))), 3, 0, 63, 128, by decide +kernel⟩,
   ⟨at_ (withBufs []), 60, 9, by decide +kernel⟩,
   ⟨at_ { up with pools := { opened := [60], frees := [(60, [])] } }, 60, 9, by decide +kernel⟩,
   ⟨at_ (withBufs []), 63, 6, by decide +kernel⟩, ⟨at_ (withBufs []), 61, 9, by decide +kernel⟩,
   fun n _ => ⟨at_ (withBufs [(2 ^ 24 - 1, { refs := n, req := 46, job := none })]), 2 ^ 24 - 1, by decide, rfl, rfl⟩,
   ⟨at_ up, 5, by decide⟩⟩
/-- A device whose memory of update die 0 holds three blocks of stripe 5 that read as erasures. -/
def struck3 : Dev := { up with mems := [(0, { errs := [(310, { pat := 0x11, caught := true }), (311, { pat := 0x11, caught := true }), (312, { pat := 0x11, caught := true })] })] }
theorem witness_RepairRetiresWhatFails :
    (∃ s : State, posState s.dev 287 = 2) ∧ (∃ s : State, posState s.dev 287 ≠ 2) ∧
    (∃ s : State, (chanRec s.dev 255).st = 2) ∧ (∃ s : State, (chanRec s.dev 255).st ≠ 2) ∧
    (∃ (die bank row : Nat), triggerOk (.sramRow die bank row true (.checking 143 0 0)) = true) ∧
    (∀ n ∈ [0, 1, 2], ∃ s : State, (linkRec s.dev 300).st ≠ 3 ∧ (linkRec s.dev 300).groups = n) ∧
    (∃ s : State, (linkRec s.dev 300).st = 3) ∧
    (∃ (s : State) (level : Nat), SMap.getD s.dev.flash.source 3 3 ≠ 4 ∧ 5 * level < 6 * 1024) ∧
    (∃ (s : State) (level : Nat), SMap.getD s.dev.flash.source 3 3 ≠ 4 ∧ 6 * 1024 ≤ 5 * level ∧ 5 * level < 7 * 1024 ∧ posState s.dev 287 = 0) ∧
    (∃ (s : State) (level : Nat), SMap.getD s.dev.flash.source 3 3 ≠ 4 ∧ 6 * 1024 ≤ 5 * level ∧ 5 * level < 7 * 1024 ∧ posState s.dev 287 ≠ 0) ∧
    (∃ (s : State) (level : Nat), SMap.getD s.dev.flash.source 3 3 ≠ 4 ∧ 7 * 1024 ≤ 5 * level ∧ posState s.dev 287 = 1) ∧
    (∃ s : State, memoryUp s.dev = false) ∧ (∃ s : State, memoryUp s.dev = true) ∧
    (∃ (e : Dev) (u n : Nat), (writeStripes e u).contains n = false ∧ decodedStripe e u n = none) ∧
    (∃ (s : State) (x y : Nat), x < 144 ∧ y < 144 ∧ (s.dev.spare.tests.any fun t => t.1 == x && t.2.1 == y && decide (t.2.2 + 200 ≤ s.dev.nowUs)) = true) ∧
    (∃ (s : State) (x y : Nat), x < 144 ∧ y < 144 ∧ (s.dev.spare.tests.any fun t => t.1 == x && t.2.1 == y && decide (t.2.2 + 200 ≤ s.dev.nowUs)) = false) := by
  refine ⟨⟨at_ { up with spare := { posState := [(287, 2)] } }, by decide⟩, ⟨at_ up, by decide⟩,
   ⟨at_ { up with spare := { chans := [(255, { st := 2, wnum := none })] } }, by decide⟩, ⟨at_ up, by decide⟩, ⟨26, 0, 1023, by decide⟩, ?_,
   ⟨at_ { up with spare := { links := [(300, { st := 3 })] } }, by decide⟩, ⟨at_ up, 1228, by decide⟩, ⟨at_ up, 1229, by decide⟩,
   ⟨at_ { up with spare := { posState := [(287, 1)] } }, 1433, by decide⟩, ⟨at_ { up with spare := { posState := [(287, 1)] } }, 1434, by decide⟩,
   ⟨State.reset, by decide⟩, ⟨at_ up, by decide⟩, ⟨struck3, 0, 5, by decide, by decide +kernel⟩, ⟨at_ { up with spare := { tests := [(143, 0, 0)] }, nowUs := 200 }, 143, 0, by decide⟩,
   ⟨at_ up, 143, 0, by decide⟩⟩
  intro n h
  have hn : n = 0 ∨ n = 1 ∨ n = 2 := by simpa using h
  rcases hn with rfl | rfl | rfl
  · exact ⟨at_ up, by decide⟩
  · exact ⟨at_ { up with spare := { links := [(300, { st := 1, groups := 1 })] } }, by decide⟩
  · exact ⟨at_ { up with spare := { links := [(300, { st := 2, groups := 2 })] } }, by decide⟩
/-- A device whose management port 1 is up with the address 10.0.0.1 / 24 and, beside the link-local one, fd00::1 / 64. -/
def withAddr (use_ : List Nat) : Dev :=
  { up with mgmt := { linkUp := [1], inUse := use_, addrRun := (List.range 12).map fun i => (i, if i % 6 = 4 then 0x0100000A else if i % 6 = 5 then 0x4018 else 0xFD) } }
theorem witness_NodesTrapsAndManagementPorts :
    (∃ s : State, nextNode s.dev = none) ∧ (∃ s : State, (nextNode s.dev).isSome = true) ∧
    (∃ s : State, ((SMap.get? s.dev.mgmt.traps (s.dev.mgmt.readTseq % 8192)).any fun r => decide (r.at_ + 600000000 ≤ s.dev.nowUs)) = true ∧
      s.dev.mgmt.readTseq ≠ s.dev.mgmt.nextTseq) ∧
    (∃ (s : State) (k : Sink), SMap.get? s.dev.mgmt.sinks 3 = some k ∧ k.period ≠ 0 ∧ k.lastAt + k.period ≤ s.dev.nowUs) ∧
    (∃ s : State, 1 ∈ s.dev.mgmt.linkUp ∧ ipv4Of s.dev 1 ≠ 0 ∧ ipv6Of s.dev 1 ≠ 0 ∧ 3 ∈ s.dev.mgmt.inUse ∧ 3 ∉ s.dev.mgmt.dup) ∧
    (∃ s : State, 1 ∈ s.dev.mgmt.linkUp ∧ ipv4Of s.dev 1 ≠ 0 ∧ 3 ∉ s.dev.mgmt.inUse ∧ 3 ∉ s.dev.mgmt.dup ∧ 4 ∉ s.dev.mgmt.dup ∧ 5 ∉ s.dev.mgmt.dup) ∧
    (∃ s : State, 1 ∈ s.dev.mgmt.linkUp ∧ ipv6Of s.dev 1 = 0 ∧ 4 ∉ s.dev.mgmt.dup) ∧
    (∃ (s : State) (a : BitVec 128), 1 ∈ s.dev.mgmt.linkUp ∧ addrKey s.dev 1 a = some 4 ∧ 4 ∈ s.dev.mgmt.inUse) ∧
    (∃ (s : State) (a : BitVec 128), 1 ∈ s.dev.mgmt.linkUp ∧ addrKey s.dev 1 a = some 5 ∧ 5 ∉ s.dev.mgmt.inUse ∧ 5 ∉ s.dev.mgmt.dup) ∧
    (∃ s : State, macsUp s.dev = true) := by
  refine ⟨⟨State.reset, by decide +kernel⟩,
   ⟨at_ (withJob { job1 with graphs := [(0, { graph1 with released := true, nodes := [(0, { newNode [mkWord [(4, 60)], 0, 0, 0] with st := .ready })] })] }),
     by decide +kernel⟩,
   ⟨at_ { up with nowUs := 600000000, mgmt := { traps := [(8191, { words := [], at_ := 0, handle := 0 })], readTseq := 8191, nextTseq := 8192 } }, by decide +kernel⟩,
   ⟨at_ { up with nowUs := 1000, mgmt := { sinks := [(3, { addr := 0, udp := 0, mport := 0, period := 1000, mask := 0, lastAt := 0 })] } }, _, rfl, by decide, by decide⟩,
   ⟨at_ (withAddr [3]), by decide +kernel⟩, ⟨at_ (withAddr []), by decide +kernel⟩, ⟨at_ { up with mgmt := { linkUp := [1] } }, by decide +kernel⟩,
   ⟨at_ (withAddr [4]), linkLocalOf (withAddr [4]) 1, by decide +kernel⟩, ⟨at_ (withAddr []), ipv6Of (withAddr []) 1, by decide +kernel⟩,
   ⟨at_ up, by decide +kernel⟩⟩

/-! ## Values of the spec's worked examples -/

/-- What ingest answers: the value, or the cause of the non-finite event. -/
def ingestIs (f : Nat) (raw : W64) (scale : Byte) (v : Option F64) : Bool :=
  match ingestElem f raw scale with
  | .ok x => v == some x
  | .error _ => v.isNone

/-- Table 3-4. -/
theorem test_ingest_examples :
    ingestIs 4 0x6A 0 (some 0x4054000000000000#64) ∧ ingestIs 4 0x03 0 (some 0x3F78000000000000#64) ∧ ingestIs 5 0xFC 0 none ∧
    ingestIs 2 0xC049 0 (some 0xC009200000000000#64) ∧ ingestIs 6 0x6A 0x7A (some 0x4004000000000000#64) ∧
    ingestIs 8 0xA0 0x81 (some 0xC018000000000000#64) ∧ ingestIs 9 0xFFFFFFFE#64 0 (some 0xC000000000000000#64) ∧
    ingestIs 10 0xFFFFFFFE#64 0 (some 0x41EFFFFFFFC00000#64) := by decide +kernel

/-- Table 3-12: the four INT32 inputs, their sum 265,543 and the fused output stage with SCALE 2^-18. -/
theorem test_fixed_point_lane :
    ([0x00018000#64, 0xFFFF8000#64, 0x00030D40#64, 7#64].map fun w => ingestInt 32 w.toNat 0).foldl fpAdd 0 = fpOfNat 265543 ∧
    (outScalar 2 false ⟨0, 0, 0, 0, 0⟩ (fpFma (fpOfNat 265543) 0x3ED0000000000000#64 0)).code = 0x3F82 ∧
    (roundFloat (floatFmt 2) false 265543 (-18) true 0xB3C10F27).code = 0x3F82 ∧
    (roundFloat (floatFmt 2) false 265543 (-18) true 0x12345678).code = 0x3F81 := by decide +kernel

/-- Table 4-5: G_0, G_1 and S, which the addition in arrival order would miss. -/
theorem test_canonical_tree :
    treeVal treeFuel [some (some [fpOne]), some (some [0x3CA0000000000000#64]), some (some [0x3CA0000000000000#64])] = some (some [fpOne]) ∧
    treeVal treeFuel [some (some [fpNeg fpOne]), some (some [0x3CB0000000000000#64])] = some (some [0xBFEFFFFFFFFFFFFE#64]) ∧
    treeVal treeFuel [some (some [fpOne]), some (some [0xBFEFFFFFFFFFFFFE#64])] = some (some [0x3CB0000000000000#64]) := by decide +kernel

/-- The clipping example of chapter 6: N = 4 against GN_MAX 1 and GN_MAX 8. -/
theorem test_norm_factor :
    ncf (List.replicate 15 0 ++ [fpOne, 0]) (fpOfNat 4) = 0x3FD0000000000000#64 ∧
    ncf (List.replicate 15 0 ++ [fpOfNat 8, 0]) (fpOfNat 4) = fpOne := by decide +kernel

/-- Rule slot 7 of Table 6-6. -/
def slot7 : List W64 :=
  [0x0007000000000D80, 0x3FEC000000000000, 0x3FC0000000000000, 0x3FEFC00000000000, 0x3F80000000000000, 0, 0, 0x3FF0000000000000, 0, 0,
   0x3FF0000000000000, 0, 0x3C30000000000000, 0x3F80000000000000, 0, 0, 0]

/-- Tables 6-6 and 6-7: the slot passes its checks, the step values follow R208, and lane 5 ends where the table says. -/
theorem test_first_update :
    ruleCheck slot7 true = 0 ∧ rsEntry slot7 = 7 ∧
    stepVals slot7 { lr := 0x3F50000000000000, k1 := fpOfNat 8, k2 := fpOfNat 128, k3 := fpOne } =
      { lr := 0x3F50000000000000, c1e := fpOfNat 8, d1e := fpOfNat 128, lame := 0x3F80000000000000 } ∧
    updateLane slot7 { lr := 0x3F50000000000000, c1e := fpOfNat 8, d1e := fpOfNat 128, lame := 0x3F80000000000000 } fpOne true
      0x3FE0000000000000 0x3FF8000000000000 fpOne fpOne 0 =
      some { w := 0x3FF7FBF400000000, n1 := 0x3FB0000000000000, n2 := 0x3F60000000000000, n3 := 0 } := by decide +kernel

/-- The store write into FP32 and the haul conversion to BF16 of the same lane. -/
theorem test_first_update_stored :
    (outScalar 1 false ⟨0, 0, 0, 0, 0⟩ 0x3FF7FBF400000000).code = 0x3FBFDFA0 ∧
    (outScalar 1 false ⟨0, 0, 0, 0, 0⟩ 0x3FB0000000000000).code = 0x3D800000 ∧
    (outScalar 1 false ⟨0, 0, 0, 0, 0⟩ 0x3F60000000000000).code = 0x3B000000 ∧
    (outScalar 2 false ⟨0, 0, 0, 0, 0⟩ (storedElem 1 0x3FBFDFA0)).code = 0x3FC0 := by decide +kernel

/-- Entry 2 of Table 7-4. -/
def entry2 : List W64 :=
  [0x0000000003E800A6, 0x0000006400000190, 2, 0x3F50000000000000, 0x3F10000000000000, 0, 0, 0x3FEC000000000000, 0x3FEFC00000000000,
   0x3FF0000000000000, 0x3FE0000000000000]

/-- Table 7-4: the record passes, and its fields are those named. -/
theorem test_schedule_entry : schedCheck entry2 = 0 ∧ seStart entry2 = 1000 ∧ seWarm entry2 = 100 ∧ sePeriod entry2 = 400 := by decide +kernel

/-- Table 7-5: the exact values. -/
theorem test_schedule_values :
    fpFinite (schedule entry2 999).lr = false ∧
    (schedule entry2 1000).k1 = fpOfNat 8 ∧ (schedule entry2 1000).k2 = fpOfNat 128 ∧
    (schedule entry2 1049).lr = 0x3F40000000000000#64 ∧ (schedule entry2 1099).lr = 0x3F50000000000000#64 ∧
    (schedule entry2 1100).lr = 0x3F50000000000000#64 ∧ (schedule entry2 1300).lr = 0x3F41000000000000#64 ∧
    (schedule entry2 1300).k1 = fpOne ∧ (schedule entry2 1500).lr = 0x3F40000000000000#64 ∧
    (schedule entry2 1900).lr = 0x3F32000000000000#64 ∧ (schedule entry2 2300).lr = 0x3F30000000000000#64 := by decide +kernel

/-- Region 21 of Table 8-3. -/
def region21 : Region := { length := 5000, rule := 0, fmts := [], stateEn := 0, deal := 2, haul := [], tag := 0 }

/-- Table 8-3: owner, local index and home die of the five slabs on three modules. -/
theorem test_dealing :
    nSlabs region21 = 5 ∧ realLanes region21 4 = 904 ∧
    ((List.range 5).map fun k => (slabOwner 3 region21 k, localIdx 3 region21 k, homeDie 3 region21 21 k)) =
      [(2, 0, 1), (0, 1, 2), (1, 1, 2), (2, 1, 2), (0, 2, 3)] := by decide +kernel

/-- The epoch rule's example of chapter 11. -/
theorem test_epoch_rule :
    let x : Ctx := { ctx1 with lastKnown := true, epoch := 0x0231 }
    epochStale x 0x0232 = false ∧ epochStale x 0x0231 = true ∧ epochStale x 0xA000 = true := by decide +kernel

/-- The CONTRIB of chapter 15's example. -/
theorem test_contrib_words :
    let f := contribF [commonWord 0x10 7 1056, 0x01010BB800090000, 0x000C020002008002]
    commonWord 0x10 7 1056 = 0x1000070000000420#64 ∧ f.epoch = 0x0101 ∧ f.ctx = 3000 ∧ f.rank = 9 ∧ f.pass = 0 ∧ f.slab = 12 ∧
    f.lane0 = 512 ∧ f.nln = 512 ∧ f.fin = true ∧ f.fmt = 2 := by decide +kernel

/-- The CTX_OPEN body of chapter 13's example. -/
theorem test_ctx_open_words :
    let b := [0x0231038400040702#64, 0xFFFF030000000000#64]
    openCtxNo b = 900 ∧ (openParams 0 b).epoch = 0x0231 ∧ (openParams 0 b).region = 4 ∧ (openParams 0 b).mapSlot = 7 ∧
    (openParams 0 b).fmt = 2 ∧ (openParams 0 b).nslab = 65536 ∧ (openParams 0 b).npass = 4 := by decide +kernel

/-- R262: the generator polynomial (x - 1)(x - α) is x^2 + 3 x + 2, so a codeword whose symbol at position 2 is 1, and 0 above, has 3
at position 1 and 2 at position 0; α^8 is 0x1D and the inverse of 2 is 0x8E. -/
theorem test_outer_code_generator :
    checkSymbols 1 0 [(2, 1)] = (3, 2) ∧ syndromes [(2, 1), (1, 3), (0, 2)] = (0, 0) ∧ alpha 8 = 0x1D ∧ gfMul 2 0x8E = 1 ∧
    gfInv 2 = 0x8E := by decide +kernel
/-- R262: a stripe decodes with two erased blocks, or with one wrong block of unknown position, and not with three erased. -/
theorem test_outer_code_decodes :
    decodeStripe [0, 61] [(0, 0xFF00FF), (61, 0x8000000000000000000000000000000000000000000000000000000000000001)] = some [] ∧
    decodeStripe [] [(17, 0x1234)] = some [] ∧ decodeStripe [3, 4, 5] [(3, 1)] = none := by decide +kernel
/-- R263, R264, R266: two blocks with two wrong symbols each are read by the scrubber, which decodes the stripe, writes the blocks back
and counts a correction in OUTER_CORR (instance 27 is update die 0). -/
theorem test_scrub_writes_back :
    (match exec (.scrub ⟨0, 1, [{ stripe := 0, channel := 3, pat := 0x11, caught := true }, { stripe := 0, channel := 9, pat := 0x11, caught := true }]⟩)
        (at_ up) with
     | .next t => ((getMem t.dev 0).errs, (getMem t.dev 0).scrub, (getCtr t.dev ctrOuterCorr (updDie 0)).toNat)
     | _ => ([], 0, 0)) = ([], 1, 1) := by decide +kernel

/-! ## Witnesses of further hypotheses -/

theorem witness_EmptyQueue_ends :
    (∃ s : State, s.pending = [] ∧ s.dev.parity.recomp = false ∧
      (s.dev.spare.retiring.filter fun e => decide (e.2 ≤ s.dev.nowUs + 1)) ≠ []) ∧
    (∃ s : State, s.pending = [] ∧ s.dev.parity.recomp = false ∧ s.dev.spare.retiring ≠ [] ∧
      ∀ e ∈ s.dev.spare.retiring, s.dev.nowUs + 1 < e.2) :=
  ⟨⟨at_ { up with spare := { retiring := [(0, 1)] } }, by decide⟩, ⟨at_ { up with spare := { retiring := [(0, 2)] } }, by decide⟩⟩
theorem witness_PmbusReads_held :
    (∃ s : State, s.dev.power.input = .ok ∧ s.dev.power.answerAt ≤ s.dev.nowUs ∧ s.dev.power.page = 0 ∧
      SMap.get? s.dev.power.readings (8 * 0x88) = some (s.dev.nowUs / 10000, 48)) ∧
    (∃ d : Dev, d.power.page ≠ 0 ∧ d.power.down ≠ none ∧ d.power.downAt / 10000 < d.nowUs / 10000) ∧
    (∃ d : Dev, d.power.page ≠ 0 ∧ d.power.down = none) :=
  ⟨⟨at_ { withPower { readings := [(8 * 0x88, (1, 48))] } with nowUs := 19999 }, by decide⟩,
   ⟨{ withPower { page := 5, down := some 3 } with nowUs := 10000 }, by decide⟩, ⟨withPower { page := 1 }, by decide⟩⟩
theorem witness_Smbus_silent : ∃ s : State, s.dev.clocks.lost.contains 39 = true ∧ s.dev.power.input = .ok :=
  ⟨at_ { up with clocks := { lost := [39] } }, by decide⟩
theorem witness_Restart_due :
    (∃ s : State, s.dev.power.opOff = true ∧ s.dev.power.down = some 4) ∧
    (∃ s : State, s.dev.power.scanEn = true ∧ s.dev.power.input = .high ∧ s.dev.power.down = some 2) ∧
    (∃ s : State, s.dev.power.input = .ok ∧ s.dev.power.opOff = true ∧ s.dev.power.scanEn = false ∧ s.dev.power.due = true ∧
      s.dev.power.down = some 2 ∧ s.dev.power.answerAt ≤ s.dev.nowUs) ∧
    (∃ s : State, s.dev.power.input = .ok ∧ s.dev.power.opOff = false ∧ s.dev.power.locked = false ∧ s.dev.power.due = true ∧
      s.dev.power.down = some 4) ∧
    (∃ s : State, s.dev.power.opOff = false ∧ s.dev.power.scanEn = false ∧ s.dev.power.input = .low ∧ s.dev.power.locked = true ∧
      s.dev.power.down = some 1) :=
  ⟨⟨at_ (withPower { opOff := true, down := some 4 }), by decide⟩, ⟨at_ (withPower { scanEn := true, input := .high, down := some 2 }), by decide⟩,
   ⟨at_ (withPower { opOff := true, due := true, down := some 2 }), by decide⟩,
   ⟨at_ (withPower { scanEn := true, due := true, down := some 4 }), by decide⟩,
   ⟨at_ (withPower { input := .low, locked := true, down := some 1 }), by decide⟩⟩
theorem witness_ClockRows_reference :
    (∃ s : State, s.dev.clocks.refOk = false) ∧
    (∃ s : State, s.dev.clocks.refOk = true ∧ s.dev.clocks.holdover = true ∧ s.dev.clocks.refAt + 100000 = s.dev.nowUs) ∧
    (∃ s : State, s.dev.clocks.refOk = true ∧ s.dev.clocks.holdover = true ∧ s.dev.nowUs + 1 = s.dev.clocks.refAt + 100000) :=
  ⟨⟨at_ { up with clocks := { refOk := false } }, rfl⟩, ⟨at_ { up with clocks := { holdover := true }, nowUs := 100000 }, by decide⟩,
   ⟨at_ { up with clocks := { holdover := true }, nowUs := 99999 }, by decide⟩⟩
theorem witness_FirstPhases_rows :
    (∃ rows : List (Nat × Nat), rows ≠ [] ∧ (∀ r ∈ rows, r.1 < 2048 ∧ r.2 < 1024)) ∧
    (∃ s : State, s.dev.start.phase = .rom ∧ s.dev.start.cpu ≠ 0xFF ∧ s.dev.flash.a.facBad = []) :=
  ⟨⟨[(2047, 1023)], by decide⟩, ⟨at_ (inPhase .rom), by decide⟩⟩
theorem witness_LifeWrite_fails : ∃ (fail : Nat × Nat) (later : List (Nat × Nat)), ∀ e ∈ fail :: later, e.1 ≤ 3 ∧ e.2 ≤ 3 := ⟨(3, 3), [(0, 1)], by decide⟩
theorem witness_SharedChecks_listens : listensOn up 0 0 = true ∧ listensOn up 0 (mapV4 0x0100000A) = false ∧
    listensOn { up with mgmt := { linkUp := [0], inUse := [0] } } 0 (mapV4 0x0100000A) = true ∧ listensOn { up with mgmt := {} } 0 0 = false := by
  decide
theorem witness_Settings_wait :
    (∃ p s d c, Ran 0x0002 p s d c ∧ rsvdSet (wordAt c.body 0) [(63, 6)] = false ∧
      rsvdSet (wordAt c.body 3) [(61, 48), (31, 0)] = false ∧ field (wordAt c.body 3) 63 62 ≠ 0 ∧
      (flashWrite s.dev 0x15 2048 (principalsBody s.dev (field (wordAt c.body 0) 5 0) c.body)).flash.waits = []) ∧
    (∃ p s d c, Ran 0x0002 p s d c ∧ rsvdSet (wordAt c.body 0) [(63, 6)] = false ∧
      rsvdSet (wordAt c.body 3) [(61, 48), (31, 0)] = false ∧ field (wordAt c.body 3) 63 62 ≠ 0 ∧
      (flashWrite s.dev 0x15 2048 (principalsBody s.dev (field (wordAt c.body 0) 5 0) c.body)).flash.waits ≠ []) :=
  ⟨ran_by { up with flash := { a := { bad := true }, b := { bad := true } } } (cmd 0x0002 0xFF [63, 9, 8, mkWord [(3, 62), (7, 32)], 1]) (by decide)
     (by decide +kernel),
   ran_by { up with clocks := { lost := [39] } } (cmd 0x0002 0xFF [63, 9, 8, mkWord [(3, 62), (7, 32)], 1]) (by decide) (by decide +kernel)⟩
theorem witness_RegisterWrites_address :
    ∃ p s d c, Ran 0x0006 p s d c ∧ rsvdSet (wordAt c.body 0) [(63, 32)] = false ∧ field (wordAt c.body 0) 31 0 = 0x2200 + 8 * 11 :=
  ran_by up (cmd 0x0006 0xFF [0x2258, 0x1_0018]) (by decide) (by decide +kernel)
theorem witness_SpareRetire_seam :
    (∃ p s d c, Ran 0x0071 p s d c ∧ field (wordAt c.body 0) 63 56 = 2 ∧ field (wordAt c.body 0) 15 0 = 143 ∧ (seamRec d 143).pos = none ∧
      unitGone d 2 143 = false ∧ noSpare d 2 143 = false) ∧
    (∃ p s d c, Ran 0x0071 p s d c ∧ field (wordAt c.body 0) 63 56 = 2 ∧ field (wordAt c.body 0) 15 0 = 127 ∧ (seamRec d 127).pos = some 127 ∧
      unitGone d 2 127 = false ∧ noSpare d 2 127 = false) :=
  ⟨ran_by { up with spare := { seams := [(143, { st := 0, pos := none })] } } (cmd 0x0071 0xFF [mkWord [(2, 56), (143, 0)]]) (by decide) (by decide +kernel),
   ran_by up (cmd 0x0071 0xFF [mkWord [(2, 56), (127, 0)]]) (by decide) (by decide +kernel)⟩
theorem witness_residues : residuesDiffer (found 127 5) = true ∧ residuesDiffer (found 0 6) = false := by decide
theorem witness_Samples_after_residue :
    (∃ (s : State) (c b : Nat), c < 16384 ∧ SMap.get? (getCtx s.dev c).resid b = some 5 ∧ (getRed (getCtx s.dev c) b).sample = .pending 8) ∧
    (∃ (s : State) (p : Nat), p < 128 ∧ posRetiring s.dev p = true) :=
  ⟨⟨at_ (withCtx job1 { ctx1 with resid := [(0, 5)], slabs := [(0, { sample := .pending 8 })] }), 2, 0, by decide +kernel⟩,
   ⟨at_ { up with spare := { retiring := [(127, 1)] } }, 127, by decide⟩⟩
theorem witness_Updates_no_lane : ∃ d : Dev, liveLanes d 3 = [] ∧ liveLanes d 2 ≠ [] :=
  ⟨{ up with spare := { lanes := (List.range 128).map fun l => 384 + l } }, by decide +kernel⟩
/-- Hoist replies of more than 3 MiB of job 5 wait on port 40, each of another slab. -/
def fullReplies : Dev :=
  { withJob { jobStep slab1 with reads := [read1], hoists := [{ member := 7, tag := 1, port := 40, region := 3, todo := [] }] } with
    ports := [(40, { role := 1, st := .up, queue := (List.range 49).map fun i =>
      { queue := 5, vc := 3, words := 0 :: BitVec.ofNat 64 i :: List.replicate 8192 0 } })] }
theorem witness_Hoist_no_room :
    ((getJob fullReplies 5).bind fun jb => (getRegion jb 3).map fun r => (replyRoom fullReplies 5 jb read1 r, readHeld jb read1)) =
      some (false, false) := by decide +kernel
theorem witness_Seal_asked :
    (∃ s k d, Arrives 0x65 (sealBad k) k s d ∧ (sealF k.words).kind = 10 ∧ (getJob (msgAck d k) (pktJob k.words)).any (fun jb =>
      decide (msgAge jb (sealF k.words).step (sealF k.words).attempt = .left) &&
      decide (jb.sealSt.queryOf = ((sealF k.words).step, (sealF k.words).attempt)) && jb.sealSt.queryWait.contains (sealF k.words).ord) = true) ∧
    (∃ s k d, Arrives 0x65 (sealBad k) k s d ∧ (sealF k.words).kind = 4 ∧ (getJob (msgAck d k) (pktJob k.words)).any (fun jb =>
      decide (msgAge jb (sealF k.words).step (sealF k.words).attempt = .now) && jb.stopped) = true) :=
  ⟨arr_by (withTrunk { job2 with attempt := 3, sealSt := { lastStep := some (8, 1), queryOf := (9, 1), queryWait := [1] } } {}) (sealK 10 9 1)
     (by decide +kernel) (by decide +kernel),
   arr_by (withTrunk { job2 with attempt := 3, stopped := true } {}) (sealK 4 9 3) (by decide +kernel) (by decide +kernel)⟩
theorem witness_Withdrawn_twice :
    ∃ s k d, Arrives 0x48 (livenessBad k) k s d ∧ liveKind k.words = 2 ∧ field (wordAt k.words 2) 63 62 = 1 ∧
      (getJob d (pktJob k.words)).any (fun jb => decide (jobKey jb = wordAt k.words 1) && jb.withdrawn.contains (field (wordAt k.words 2) 24 16)) = true :=
  arr_by (withGroup { job2 with q := 3, serials := [0x1000#64, 0x2000#64, 0x3000#64], withdrawn := [2] }) (liveK 1 2 0x1000 1 2) (by decide +kernel)
    (by decide +kernel)
theorem witness_Records_ended : ∃ (s : State) (j : Nat) (jb : Job), j < 64 ∧ getJob s.dev j = some jb ∧ jb.recEnded ≠ [] :=
  ⟨at_ (withJob { job1 with recEnded := [{ target := 1, port := 42 }] }), 5, _, by decide, rfl, by decide⟩
theorem witness_Pools_trap_unit :
    ∃ s : State, poolPriv 63 = true ∧ isRequester 6 = true ∧ poolQuota 63 6 ≤ poolHeld s.dev 63 (fun b => b.req == 6) ∧ poolOpen s.dev 63 = true :=
  ⟨at_ { up with pools := { opened := [63], bufs := (List.range 768).map fun i => (63 * 2 ^ 18 + i, { refs := 1, req := 6, job := none }) } },
   by decide +kernel⟩
theorem witness_Repair_triggers :
    (∃ s : State, 3 ≤ (getPort s.dev 287).trainErr) ∧
    (∃ s : State, 1000 < ((getPort s.dev 287).fecLost.filter fun e => decide (s.dev.nowUs < e.1 + 3600000000)).foldl (fun a e => a + e.2) 0) ∧
    (∃ s : State, (getPort s.dev 287).trainErr = 2 ∧
      ((getPort s.dev 287).fecLost.filter fun e => decide (s.dev.nowUs < e.1 + 3600000000)).foldl (fun a e => a + e.2) 0 = 1000) ∧
    (∃ (s : State) (r : SeamAt), r.ctx < 16384 ∧ (getCtx s.dev r.ctx).state = .opened ∧ r.slab < (getCtx s.dev r.ctx).p.nslab ∧
      r.pass < (getCtx s.dev r.ctx).p.npass ∧ residuesDiffer r.found = true) ∧
    (∃ (s : State) (r : SeamAt), r.ctx < 16384 ∧ (getCtx s.dev r.ctx).state ≠ .opened) ∧
    (∃ s : State, 10000 < ((SMap.getD s.dev.spare.chanCes 255 []).filter fun e => decide (s.dev.nowUs < e.1 + 86400000000)).foldl (fun a e => a + e.2) 0) ∧
    (∃ s : State, 3 ≤ (((SMap.getD s.dev.spare.chanErs 255 []).filter fun e => decide (s.dev.nowUs < e.1 + 1000000)).map (·.2)).eraseDups.length) ∧
    (∃ s : State, s.dev.start.phase = .memory) ∧
    (∃ s : State, s.dev.start.phase ≠ .memory ∧ SMap.getD s.dev.spare.chanCes 255 [] = [(0, 10000)]) :=
  ⟨⟨at_ (withPort 287 { trainErr := 3 }), by decide⟩, ⟨at_ (withPort 287 { fecLost := [(0, 1001)] }), by decide⟩,
   ⟨at_ (withPort 287 { trainErr := 2, fecLost := [(0, 1000)] }), by decide⟩,
   ⟨at_ (withCtx job1 ctx1), { ctx := 2, slab := 1, pass := 1, found := found 127 5 }, by decide +kernel⟩,
   ⟨at_ up, { ctx := 16383, slab := 0, pass := 0, found := found 0 6 }, by decide +kernel⟩,
   ⟨at_ { up with spare := { chanCes := [(255, [(0, 10001)])] } }, by decide⟩,
   ⟨at_ { up with spare := { chanErs := [(255, [(0, 1), (0, 2), (0, 3)])] } }, by decide +kernel⟩,
   ⟨at_ (inPhase .memory), rfl⟩, ⟨at_ { up with spare := { chanCes := [(255, [(0, 10000)])] } }, by decide⟩⟩
theorem witness_ManagementPorts_more :
    (∃ (s : State) (k : Sink), SMap.get? s.dev.mgmt.sinks 3 = some k ∧ k.period ≠ 0 ∧ k.lastAt + k.period ≤ s.dev.nowUs ∧ k.unsent ≠ []) ∧
    (∃ (s : State) (sha : W64), 1 ∈ s.dev.mgmt.linkUp ∧ ipv4Of s.dev 1 ≠ 0 ∧ sha ≠ BitVec.setWidth 64 (macOf s.dev 1) ∧ 3 ∉ s.dev.mgmt.inUse ∧
      3 ∉ s.dev.mgmt.dup) ∧
    (∃ s : State, macsUp s.dev = false) :=
  ⟨⟨at_ { up with nowUs := 1000, mgmt := { sinks := [(3, { addr := 0, udp := 0, mport := 0, period := 1000, mask := 0, lastAt := 0, unsent := [(0, [0])] })] } },
      _, rfl, by decide, by decide, by decide⟩,
   ⟨at_ (withAddr []), 0xFFFF, by decide +kernel⟩, ⟨at_ { up with clocks := { lost := [38] } }, by decide +kernel⟩⟩

end Sys2Proof.Tests
end

section
/-!
SUPPORT. The block as a whole: whatever a step does, a command of the queue or an idle microsecond, keeps the queue, what manufacture
fixed and the form of the tables; and what an idle microsecond leaves alone (log 3).
-/
namespace Sys2Proof.Machine

/-! ## What a step runs -/

theorem step_of_empty {s : State} (h : s.pending = []) : step s = .next (idle s) := by simp [step, h]

theorem step_of_front {s : State} {c : Instr} {r : List Instr} (h : s.pending = c :: r) : step s = exec c { s with pending := r } := by
  simp [step, h]

/-! ## Every command -/

/-- Each of the 243 meanings keeps the queue, the time, the identity and the form of the tables. -/
theorem exec_kin (c : Instr) (s : State) : KinS s (exec c s) :=
  match c with
  | .moduleInfo _ => execModuleInfo_kin
  | .authSet _ => execAuthSet_kin
  | .patchLoad _ => execPatchLoad_kin
  | .portConfig _ => execPortConfig_kin
  | .regRead _ => execRegRead_kin
  | .regWrite _ => execRegWrite_kin
  | .trapCtl _ => execTrapCtl_kin
  | .captureClear _ => execCaptureClear_kin
  | .jobRegRead _ => execJobRegRead_kin
  | .telemSet _ => execTelemSet_kin
  | .jobCreate _ => execJobCreate_kin
  | .jobDestroy _ => execJobDestroy_kin
  | .jobQuota _ => execJobQuota_kin
  | .jobConfig _ => execJobConfig_kin
  | .jobRead _ => execJobRead_kin
  | .memberAttach _ => execMemberAttach_kin
  | .memberDetach _ => execMemberDetach_kin
  | .regionCreate _ => execRegionCreate_kin
  | .regionDestroy _ => execRegionDestroy_kin
  | .paramLoad _ => execParamLoad_kin
  | .haulSet _ => execHaulSet_kin
  | .haulSub _ => execHaulSub_kin
  | .rankmapLoad _ => execRankmapLoad_kin
  | .ruleLoad _ => execRuleLoad_kin
  | .schedLoad _ => execSchedLoad_kin
  | .schedRead _ => execSchedRead_kin
  | .objFree _ => execObjFree_kin
  | .ctxOpen _ => execCtxOpen_kin
  | .ctxRelease _ => execCtxRelease_kin
  | .ctxRead _ => execCtxRead_kin
  | .graphSubmit _ => execGraphSubmit_kin
  | .graphRelease _ => execGraphRelease_kin
  | .graphCancel _ => execGraphCancel_kin
  | .graphRead _ => execGraphRead_kin
  | .syncAlloc _ => execSyncAlloc_kin
  | .syncFree _ => execSyncFree_kin
  | .syncOp _ => execSyncOp_kin
  | .stepSeal _ => execStepSeal_kin
  | .stepAbort _ => execStepAbort_kin
  | .stepPoison _ => execStepPoison_kin
  | .snapConfig _ => execSnapConfig_kin
  | .snapTake _ => execSnapTake_kin
  | .snapRestore _ => execSnapRestore_kin
  | .snapRead _ => execSnapRead_kin
  | .parityGroupSet _ => execParityGroupSet_kin
  | .rebuildStart _ => execRebuildStart_kin
  | .parityRead _ => execParityRead_kin
  | .recStart _ => execRecStart_kin
  | .recStop _ => execRecStop_kin
  | .replayStart _ => execReplayStart_kin
  | .refMode _ => execRefMode_kin
  | .cablePlanLoad _ => execCablePlanLoad_kin
  | .cableCheck _ => execCableCheck_kin
  | .cableReport _ => execCableReport_kin
  | .spareRead _ => execSpareRead_kin
  | .spareRetire _ => execSpareRetire_kin
  | .bypassSet _ => execBypassSet_kin
  | .interimReply => execInterimReply_kin
  | .stagedLoadTimeout => execStagedLoadTimeout_kin
  | .page _ => execPage_kin
  | .operationOff => execOperationOff_kin
  | .operationOn => execOperationOn_kin
  | .clearFaults => execClearFaults_kin
  | .voutMode => execVoutMode_kin
  | .statusWord => execStatusWord_kin
  | .statusVout => execStatusVout_kin
  | .statusIout => execStatusIout_kin
  | .statusInput => execStatusInput_kin
  | .statusTemperature => execStatusTemperature_kin
  | .statusCml => execStatusCml_kin
  | .readVin => execReadVin_kin
  | .readIin => execReadIin_kin
  | .readVout => execReadVout_kin
  | .readIout => execReadIout_kin
  | .readTemperature1 => execReadTemperature1_kin
  | .readTemperature2 => execReadTemperature2_kin
  | .readTemperature3 => execReadTemperature3_kin
  | .readPout => execReadPout_kin
  | .readPin => execReadPin_kin
  | .pmbusRevision => execPmbusRevision_kin
  | .mfrId => execMfrId_kin
  | .mfrModel => execMfrModel_kin
  | .mfrSerial => execMfrSerial_kin
  | .mfrShutdownCause => execMfrShutdownCause_kin
  | .pmbusUnsupported _ _ => execPmbusUnsupported_kin
  | .smbusReadByte _ => execSmbusReadByte_kin
  | .smbusReadWord _ => execSmbusReadWord_kin
  | .smbusBlockRead _ _ => execSmbusBlockRead_kin
  | .jtagBypass => execJtagBypass_kin
  | .idcode => execIdcode_kin
  | .samplePreload _ => execSamplePreload_kin
  | .extest => execExtest_kin
  | .highz => execHighz_kin
  | .scanEnAssert => execScanEnAssert_kin
  | .scanEnRelease => execScanEnRelease_kin
  | .inputRise => execInputRise_kin
  | .inputLow _ => execInputLow_kin
  | .inputDip => execInputDip_kin
  | .inputHigh => execInputHigh_kin
  | .inputHighClear => execInputHighClear_kin
  | .overcurrent => execOvercurrent_kin
  | .railFault => execRailFault_kin
  | .shutdownRestart => execShutdownRestart_kin
  | .heartbeat => execHeartbeat_kin
  | .heartbeatMissing => execHeartbeatMissing_kin
  | .overTemperature => execOverTemperature_kin
  | .tempRecovered => execTempRecovered_kin
  | .thermalWarn _ _ => execThermalWarn_kin
  | .inputWarn _ => execInputWarn_kin
  | .moduleReset => execModuleReset_kin
  | .refClockLoss => execRefClockLoss_kin
  | .refClockReturn => execRefClockReturn_kin
  | .pllLockLoss _ => execPllLockLoss_kin
  | .phaseRom _ _ => execPhaseRom_kin
  | .phaseRestore _ _ _ => execPhaseRestore_kin
  | .phasePatch => execPhasePatch_kin
  | .phaseDies _ _ => execPhaseDies_kin
  | .phaseMemory _ => execPhaseMemory_kin
  | .phaseLinks => execPhaseLinks_kin
  | .phaseServe => execPhaseServe_kin
  | .phaseBypass => execPhaseBypass_kin
  | .phaseReady => execPhaseReady_kin
  | .phaseLimit => execPhaseLimit_kin
  | .lifeWrite _ _ => execLifeWrite_kin
  | .watchdogExpiry => execWatchdogExpiry_kin
  | .processorFault => execProcessorFault_kin
  | .downRetry _ => execDownRetry_kin
  | .trainLock _ _ _ => execTrainLock_kin
  | .trainTimeout _ _ => execTrainTimeout_kin
  | .initComplete _ => execInitComplete_kin
  | .initTimeout _ => execInitTimeout_kin
  | .lossOfLock _ _ => execLossOfLock_kin
  | .retrainLock _ => execRetrainLock_kin
  | .retrainTimeout _ => execRetrainTimeout_kin
  | .dataFlit _ _ => execDataFlit_kin
  | .idleFlit _ _ => execIdleFlit_kin
  | .nak _ _ => execNak_kin
  | .creditInit _ _ => execCreditInit_kin
  | .creditSnap _ _ => execCreditSnap_kin
  | .beacon _ _ _ => execBeacon_kin
  | .downNotice _ _ => execDownNotice_kin
  | .nakRepeat _ => execNakRepeat_kin
  | .replayTimer _ => execReplayTimer_kin
  | .creditSnapTimer _ => execCreditSnapTimer_kin
  | .beaconTimer _ => execBeaconTimer_kin
  | .beaconMissing _ => execBeaconMissing_kin
  | .flitArbitration _ => execFlitArbitration_kin
  | .contrib _ _ => execContrib_kin
  | .partialRx _ _ => execPartialRx_kin
  | .partialAns _ => execPartialAns_kin
  | .partialRetry => execPartialRetry_kin
  | .partialTimeout => execPartialTimeout_kin
  | .refill _ _ => execRefill_kin
  | .slotClockExpiry _ _ _ => execSlotClockExpiry_kin
  | .partialClockExpiry _ _ _ => execPartialClockExpiry_kin
  | .keptCopyExpiry _ _ _ _ => execKeptCopyExpiry_kin
  | .ctxFail _ => execCtxFail_kin
  | .poison _ => execPoison_kin
  | .msgAck _ => execMsgAck_kin
  | .msgResend => execMsgResend_kin
  | .sampleComplete _ _ _ => execSampleComplete_kin
  | .builtinTestDone _ _ _ _ => execBuiltinTestDone_kin
  | .drainComplete _ => execDrainComplete_kin
  | .updateAccept _ _ _ => execUpdateAccept_kin
  | .copyWriteComplete _ _ _ => execCopyWriteComplete_kin
  | .formNormPartial _ => execFormNormPartial_kin
  | .normPartial _ => execNormPartial_kin
  | .sealedUpdateBegin _ => execSealedUpdateBegin_kin
  | .haulData _ => execHaulData_kin
  | .haulAck _ => execHaulAck_kin
  | .haulResend => execHaulResend_kin
  | .haulDrop _ => execHaulDrop_kin
  | .haulEnd _ _ => execHaulEnd_kin
  | .hoistReq _ => execHoistReq_kin
  | .hoistSlabRead _ _ _ => execHoistSlabRead_kin
  | .hoistEnd _ _ _ => execHoistEnd_kin
  | .remoteRead _ => execRemoteRead_kin
  | .remoteData _ => execRemoteData_kin
  | .remoteStatus _ => execRemoteStatus_kin
  | .remoteReadResend => execRemoteReadResend_kin
  | .voteYes _ => execVoteYes_kin
  | .sealReq _ => execSealReq_kin
  | .sealVote _ => execSealVote_kin
  | .abortReq _ => execAbortReq_kin
  | .sealCommit _ => execSealCommit_kin
  | .sealAck _ => execSealAck_kin
  | .sealDone _ => execSealDone_kin
  | .sealAbort _ => execSealAbort_kin
  | .abortScanComplete _ => execAbortScanComplete_kin
  | .abortAck _ => execAbortAck_kin
  | .sealQuery _ => execSealQuery_kin
  | .sealState _ => execSealState_kin
  | .parityDelta _ => execParityDelta_kin
  | .parityAck _ => execParityAck_kin
  | .parityApply _ => execParityApply_kin
  | .parityDrop _ => execParityDrop_kin
  | .applyAck _ => execApplyAck_kin
  | .dropAck _ => execDropAck_kin
  | .vc4Resend => execVc4Resend_kin
  | .rebuildReq _ => execRebuildReq_kin
  | .rebuildData _ => execRebuildData_kin
  | .slabXfer _ => execSlabXfer_kin
  | .xferAck _ => execXferAck_kin
  | .xferTimeout => execXferTimeout_kin
  | .live _ => execLive_kin
  | .liveTimer => execLiveTimer_kin
  | .liveWatchTimeout _ => execLiveWatchTimeout_kin
  | .withdrawn _ => execWithdrawn_kin
  | .claim _ => execClaim_kin
  | .claimAnswer _ => execClaimAnswer_kin
  | .recRead _ => execRecRead_kin
  | .replayData _ => execReplayData_kin
  | .replayReqResend => execReplayReqResend_kin
  | .replayPortTimeout => execReplayPortTimeout_kin
  | .transitPacket _ => execTransitPacket_kin
  | .routeHoldExpiry => execRouteHoldExpiry_kin
  | .ringState _ => execRingState_kin
  | .ringStateTimer => execRingStateTimer_kin
  | .ringMapLapse => execRingMapLapse_kin
  | .bypassRelease _ => execBypassRelease_kin
  | .bypassReleaseTimeout => execBypassReleaseTimeout_kin
  | .nodeStart => execNodeStart_kin
  | .alloc _ _ _ => execAlloc_kin
  | .addref _ _ => execAddref_kin
  | .releaseBuf _ _ => execReleaseBuf_kin
  | .repairTrigger _ => execRepairTrigger_kin
  | .wear _ _ => execWear_kin
  | .laneGroupFail _ => execLaneGroupFail_kin
  | .channelRebuildDone _ => execChannelRebuildDone_kin
  | .scrub _ => execScrub_kin
  | .trapAge => execTrapAge_kin
  | .telemetryPeriod _ => execTelemetryPeriod_kin
  | .arpRequest _ _ _ _ => execArpRequest_kin
  | .addrDup _ _ _ => execAddrDup_kin
  | .neighborDiscovery _ _ _ => execNeighborDiscovery_kin
  | .echoRequest _ _ _ _ _ => execEchoRequest_kin
  | .mgmtFrameDrop _ => execMgmtFrameDrop_kin
  | .takeoverComplete => execTakeoverComplete_kin
  | .slewComplete => execSlewComplete_kin
  | .mgmtLinkChange _ _ => execMgmtLinkChange_kin
  | .addressProbeDone _ _ => execAddressProbeDone_kin
  | .recMirrorTimeout _ => execRecMirrorTimeout_kin
  | .flashWaitTimeout => execFlashWaitTimeout_kin
/-! ## An idle microsecond -/

/-- The device one microsecond later, before anything ends by it. -/
def Dev.later (d : Dev) : Dev := { d with nowUs := d.nowUs + 1 }

/-- The form of the tables does not depend on the time. -/
theorem Dev.Wf.later {d : Dev} (h : d.Wf) : d.later.Wf := { h with }

theorem idle_dev (s : State) : (idle s).dev = forEach (List.range 4) (retireTick (recompTick s.dev.later)) sendUnsent := rfl

/-- What the passing of a microsecond ends changes no time, no identity and no table's form. -/
theorem idle_kin (s : State) : Kin s.dev.later (idle s).dev :=
  forEach_kin (retireTick_kin (recompTick_kin (Kin.refl _))) fun _ _ => sendUnsent_kin

/-! ### What nothing ends -/

theorem recompTick_of_none {d : Dev} (h : d.parity.recomp = false) : recompTick d = d := by simp [recompTick, h]

theorem idle_dev_of_no_recomp {s : State} (h : s.dev.parity.recomp = false) :
    (idle s).dev = forEach (List.range 4) (retireTick s.dev.later) sendUnsent := by
  rw [idle_dev, recompTick_of_none (d := s.dev.later) h]

/-- The retirements whose time is over. -/
def retireEnded (d : Dev) : List (Nat × Nat) := d.spare.retiring.filter fun e => decide (e.2 ≤ d.nowUs)

theorem retireEnded_eq_nil {d : Dev} (h : ∀ e ∈ d.spare.retiring, d.nowUs < e.2) : retireEnded d = [] := by
  simpa [retireEnded, List.filter_eq_nil_iff] using fun a b hab => h (a, b) hab

theorem retireTick_of_none {d : Dev} (h : retireEnded d = []) : retireTick d = d := by
  rw [retireEnded] at h
  simp [retireTick, h]

/-- A retirement that is over clears the context tables (R389, log 90) and is answered. -/
theorem retireTick_of_ended {d : Dev} (h : retireEnded d ≠ []) :
    retireTick d = poolsSettle (flushAll (forEach (retireEnded d)
      (clearCtxs { d with spare := { d.spare with retiring := SMap.keep (fun _ t => decide (d.nowUs < t)) d.spare.retiring } })
      fun d' e => finishCmds d' (fun w => w.opcode == 0x71 && w.object == 256 + e.1) (plainReply stOk 0))) := by
  have : (retireEnded d).isEmpty = false := by simpa using h
  exact if_neg (by simpa [retireEnded] using this)

theorem sendUnsent_of_sent {d : Dev} {n : Nat} (h : ∀ k, SMap.get? d.mgmt.sinks n = some k → k.unsent = []) : sendUnsent d n = d := by
  unfold sendUnsent
  split
  · rfl
  · next k hk => simp [h k hk]

theorem forEach_of_fixed {α : Type} {l : List α} {d : Dev} {f : Dev → α → Dev} (h : ∀ x, f d x = d) : forEach l d f = d := by
  induction l with
  | nil => rfl
  | cons x r ih => rw [forEach, h, ih]

/-- A microsecond in which nothing ends moves the time alone. -/
theorem idle_of_nothing_due {s : State} (hrecomp : s.dev.parity.recomp = false)
    (hretire : ∀ e ∈ s.dev.spare.retiring, s.dev.nowUs + 1 < e.2)
    (hsent : ∀ n k, SMap.get? s.dev.mgmt.sinks n = some k → k.unsent = []) : idle s = { s with dev := s.dev.later } := by
  have hdev : (idle s).dev = s.dev.later := by
    rw [idle_dev_of_no_recomp hrecomp, retireTick_of_none (retireEnded_eq_nil (d := s.dev.later) hretire)]
    exact forEach_of_fixed fun n => sendUnsent_of_sent (hsent n)
  rw [← hdev]
  rfl

/-! ## The statements -/

/-- Settles O5: a command runs on the state it finds, and keeps the form by `exec_kin`; on an empty queue the time moves, which no table
reads, and what ends then keeps the form by `idle_kin`. -/
theorem everyStepKeepsTheTablesWellFormed : Obligations.EveryStepKeepsTheTablesWellFormed := by
  intro s t hwf hstep
  cases hq : s.pending with
  | nil =>
    rw [step_of_empty hq] at hstep
    cases hstep
    exact (idle_kin s).wf hwf.later
  | cons c r =>
    rw [step_of_front hq] at hstep
    obtain ⟨hkin, _⟩ := exec_kin c _ t hstep
    exact hkin.wf hwf

/-- Settles O2: an idle microsecond is `idle`; what it leaves alone is `idle_kin`, what it does when nothing is due `idle_of_nothing_due`,
and when a retirement is over `retireTick_of_ended`. -/
theorem emptyQueueLetsAMicrosecondPass : Obligations.EmptyQueueLetsAMicrosecondPass := by
  refine ⟨fun s hq => ?passes, fun s hq hrecomp hretire hsent => ?nothingDue, fun s hq hrecomp => ?retirementEnds⟩
  case passes => exact ⟨idle s, step_of_empty hq, hq, (idle_kin s).time, (idle_kin s).fac⟩
  case nothingDue =>
    rw [step_of_empty hq, idle_of_nothing_due hrecomp hretire hsent]
    rfl
  case retirementEnds =>
    intro d ended rest answered hended
    have hdev : (idle s).dev = forEach (List.range 4) (poolsSettle (flushAll answered)) sendUnsent := by
      rw [idle_dev_of_no_recomp hrecomp, retireTick_of_ended (d := s.dev.later) hended]
      rfl
    rw [step_of_empty hq, ← hdev]
    rfl

end Sys2Proof.Machine
end

section
/-!
SUPPORT. What a row gives: a row whose operands name units acts on the device, a row of the link whose packet has arrived whole acts on
the device with the packet taken, and a write of a job that exists is a new entry.
-/
namespace Sys2Proof.Machine

/-! ## What a row gives -/

theorem onUnit_of_ok {ok : Bool} (h : ok = true) (s : State) (f : Dev → Dev) : onUnit ok s f = .next { s with dev := f s.dev } := by
  rw [h, onUnit_true]

theorem onLinks_of_ok {ok : Bool} (h : ok = true) (s : State) (f : Dev → Dev) :
    onLinks ok s f = .next { s with dev := settleLinks s.dev (f s.dev) } := onUnit_of_ok h s _

/-- A packet that has arrived whole meets none of the ends of R540, R542, R576 and R625. -/
theorem onArrival_of_arrives {ty : Nat} {bad : Dev → Option Nat} {k : PktRx} {s : State} {d : Dev} (h : Arrives ty bad k s d)
    (f : Dev → Dev) : onArrival k ty bad f s = .next { s with dev := f d } := by
  obtain ⟨hrow, hserved, hours, hcommon, hwhole, hmember, rfl⟩ := h
  simp [onArrival, onUnit_of_ok hrow, hserved, hours, hcommon, hwhole, hmember]

theorem onArrivalKind_of_arrives {ty : Nat} {bad : Dev → Option Nat} {k : PktRx} {s : State} {d : Dev} {kindOk : Bool}
    (hkind : kindOk = true) (h : Arrives ty bad k s d) (f : Dev → Dev) : onArrivalKind k ty kindOk bad f s = .next { s with dev := f d } := by
  rw [onArrivalKind, if_pos hkind, onArrival_of_arrives h]

/-! ## A job that exists -/

theorem updJob_of_getJob {d : Dev} {j : Nat} {jb : Job} (h : getJob d j = some jb) (f : Job → Job) : updJob d j f = setJob d j (f jb) := by
  rw [getJob] at h
  simp [updJob, setJob, SMap.upd, h]

end Sys2Proof.Machine
end

section
/-!
SUPPORT. Votes, scans and messages of the seal exchange (chapter 10): what the rows do in each case of R335, R340 and R350.
-/
namespace Sys2Proof.Machine

variable {s : State} {d : Dev} {j : Nat} {jb : Job}

/-! ## The vote (R335, R340) -/

theorem gives_voteYes (hj : j < 64) : Gives (.voteYes j) s (flushJob (castYes s.dev j) j) := onUnit_of_ok (by simpa using hj) s _

theorem castYes_of_not_ready (hjb : getJob d j = some jb) (h : voteReady d j jb = false) : castYes d j = d := by
  simp [castYes, hjb, h]

/-- The module is PREPARED. -/
def prepared (d : Dev) (j : Nat) (jb : Job) : Dev := setJob d j { jb with sealSt := { jb.sealSt with state := .prepared } }

/-- The vote of a module whose conditions hold reaches the coordinator, which it may be itself. -/
theorem castYes_of_ready (hjb : getJob d j = some jb) (h : voteReady d j jb = true) :
    castYes d j =
      if coordinator jb = jb.ordinal then takeYes (prepared d j jb) j jb.ordinal
      else sendSeal (prepared d j jb) j 2 (coordinator jb) { vote := 1 } := by
  simp [castYes, hjb, h, prepared, updSeal, updJob_of_getJob hjb]

/-! ## The abort scan (R275, R350) -/

theorem gives_abortScanComplete (hj : j < 64) : Gives (.abortScanComplete j) s (flushJob (scanDone s.dev j) j) :=
  onUnit_of_ok (by simpa using hj) s _

/-- The holders that a PARITY_DROP goes to. -/
def dropHolders (d : Dev) (jb : Job) : List Nat := jb.sealSt.holders.filter fun h => !d.parity.lost.contains h

/-- The scan done: the copies are empty, held reads go, the attempt's pieces are held no longer, and the drops are awaited. -/
def scanned (d : Dev) (j : Nat) (jb : Job) : Dev :=
  updSeal (dropHeld (releaseReads (abortScan d j) j) j fun h => h.ptype == 0x40 && h.key.getD 0 1 == 0) j
    fun s => { s with scanDone := true, dropWait := dropHolders d jb }

theorem scanDone_of_due (hjb : getJob d j = some jb) (hst : jb.sealSt.state = .aborting) (hscan : jb.sealSt.scanDone = false)
    (hw : jb.writes = []) : scanDone d j =
      finishAbort (forEach (dropHolders d jb) (scanned d j jb) fun d' h => sendCtl d' j h 2 jb.stepCur jb.attempt) j := by
  simp [scanDone, hjb, hst, hscan, hw, scanned, dropHolders]

theorem scanDone_of_not_due (hjb : getJob d j = some jb)
    (h : jb.sealSt.state ≠ .aborting ∨ jb.sealSt.scanDone = true ∨ jb.writes ≠ []) : scanDone d j = d := by
  have hnot : (!(jb.sealSt.state == .aborting && !jb.sealSt.scanDone && jb.writes.isEmpty)) = true := by
    rcases h with h | h | h <;> simp [h]
  simp only [scanDone, hjb, if_pos hnot]

/-! ## The statement -/

/-- Settles O52: the vote is `castYes`, ready or not; the abort scan is `scanDone`, due or not; a MSG_ACK that has arrived whole drops what
is held under its number; what is resent is `resendHeld`. -/
theorem votesScansAndMessageAcks : Obligations.VotesScansAndMessageAcks := by
  refine ⟨fun s j jb hj hjb => ⟨fun hnot => ?notReady, fun hready => ?votes, fun hst hscan hw => ?scans, fun hnot => ?notDue⟩,
    fun s k d harr => ?msgAck, fun s => ?msgResend⟩
  case notReady =>
    have hgives := gives_voteYes (s := s) hj
    rwa [castYes_of_not_ready hjb hnot] at hgives
  case votes =>
    have hgives := gives_voteYes (s := s) hj
    rwa [castYes_of_ready hjb hready] at hgives
  case scans =>
    have hgives := gives_abortScanComplete (s := s) hj
    rwa [scanDone_of_due hjb hst hscan hw] at hgives
  case notDue =>
    have hgives := gives_abortScanComplete (s := s) hj
    rwa [scanDone_of_not_due hjb hnot] at hgives
  case msgAck =>
    intro w1
    exact onArrival_of_arrives harr fun d => dropHeld d (pktJob k.words) fun h =>
      h.ptype == field w1 7 0 && h.dst == field w1 24 16 && h.key == [field w1 63 32]
  case msgResend => rfl

end Sys2Proof.Machine
end

section
/-!
SUPPORT. Parity between modules (chapter 18): what a holder does with a piece, what an acknowledgment ends, and what PARITY_CTL does.
-/
namespace Sys2Proof.Machine

variable {s : State} {d : Dev} {k : PktRx} {jb : Job}

/-! ## Pieces and their acknowledgments (R619 to R621) -/

theorem gives_parityDelta (h : Arrives 0x40 (parityDeltaBad k) k s d) : Gives (.parityDelta k) s (settleLost (parityDeltaIn d k)) :=
  onArrival_of_arrives h fun d => settleLost (parityDeltaIn d k)

theorem parityDeltaIn_of_no_group (h : d.parity.group = none) : parityDeltaIn d k = d := by simp [parityDeltaIn, h]

theorem parityDeltaIn_of_group (h : d.parity.group ≠ none) :
    parityDeltaIn d k = sendAddr (takePiece d (pieceOf k.words)).1 4 (pktJob k.words) k.src
      (mkPacket 0x41 (pktJob k.words) ((k.words.drop 1).take 4 ++
        [mkWord [(bit (takePiece d (pieceOf k.words)).2.2, 16), ((takePiece d (pieceOf k.words)).2.1, 0)]])) := by
  simp [parityDeltaIn, h]

theorem gives_parityAck (h : Arrives 0x41 (parityAckBad k) k s d) : Gives (.parityAck k) s (poolsSettle (parityAckIn d k)) :=
  onArrival_of_arrives h fun d => poolsSettle (parityAckIn d k)

/-- The piece a PARITY_ACK names, as the job awaits it: region, slab and word. -/
def ackedPiece (k : PktRx) (c : Nat) : Nat × Nat × Nat :=
  ((pieceOf k.words).region, field (wordAt k.words 4) 63 32, 131072 * c + (pieceOf k.words).off)

/-- Is a held message the piece that a PARITY_ACK names? -/
def isAcked (k : PktRx) (c : Nat) (h : Held) : Bool :=
  let p := pieceOf k.words
  let a := ackedPiece k c
  h.ptype == 0x40 && h.key == [bit p.base, p.step, p.attempt, a.1, a.2.1, a.2.2]

theorem parityAckIn_of_other {c : Nat} (hjb : getJob d (pktJob k.words) = some jb)
    (hc : chunkOf (pieceOf k.words).row (pieceOf k.words).pos = some c)
    (h : (pieceOf k.words).key ≠ jobKey jb ∨ jb.held.any (isAcked k c) = false) : parityAckIn d k = d := by
  have hother : ((pieceOf k.words).key != jobKey jb || !jb.held.any (isAcked k c)) = true := by
    rcases h with h | h <;> simp [h]
  simp only [parityAckIn, hjb, hc]
  exact if_pos hother

/-- The acknowledgment of an awaited piece: it is held no longer, and its wait ends. -/
theorem parityAckIn_of_awaited {c : Nat} (hjb : getJob d (pktJob k.words) = some jb)
    (hc : chunkOf (pieceOf k.words).row (pieceOf k.words).pos = some c)
    (hkey : (pieceOf k.words).key = jobKey jb) (hheld : jb.held.any (isAcked k c) = true) :
    parityAckIn d k = baseSettle (updJob (dropHeld d (pktJob k.words) (isAcked k c)) (pktJob k.words) fun jb =>
      if (pieceOf k.words).base then { jb with baseWait := jb.baseWait.filter (· != ackedPiece k c) }
      else { jb with deltaWait := jb.deltaWait.filter (· != ackedPiece k c) }) (pktJob k.words) := by
  have hmine : ¬ ((pieceOf k.words).key != jobKey jb || !jb.held.any (isAcked k c)) = true := by simp [hkey, hheld]
  simp only [parityAckIn, hjb, hc]
  exact if_neg hmine

/-! ## PARITY_CTL (R341, R347, R348, R350, R622) -/

section
variable (h : Arrives 0x42 (parityCtlBad k) k s d)
include h

theorem gives_parityApply (hkind : ctlKind k.words = 1) :
    Gives (.parityApply k) s (ctlAnswer (settleLost (applyStep d (ctlStep k.words))) k 3) :=
  onArrivalKind_of_arrives (by simp [hkind]) h fun d => ctlAnswer (settleLost (applyStep d (ctlStep k.words))) k 3

theorem gives_parityDrop (hkind : ctlKind k.words = 2) : Gives (.parityDrop k) s (ctlAnswer (dropStep d (ctlStep k.words)) k 4) :=
  onArrivalKind_of_arrives (by simp [hkind]) h fun d => ctlAnswer (dropStep d (ctlStep k.words)) k 4

theorem gives_applyAck (hkind : ctlKind k.words = 3) : Gives (.applyAck k) s (ctlAcked d k 1 applyAcked) :=
  onArrivalKind_of_arrives (by simp [hkind]) h fun d => ctlAcked d k 1 applyAcked

theorem gives_dropAck (hkind : ctlKind k.words = 4) : Gives (.dropAck k) s (flushJob (ctlAcked d k 2 dropAcked) (pktJob k.words)) :=
  onArrivalKind_of_arrives (by simp [hkind]) h fun d => flushJob (ctlAcked d k 2 dropAcked) (pktJob k.words)

end

/-- Is a held message the PARITY_CTL of KIND `n` to holder `h` that an acknowledgment names? -/
def isAckedCtl (k : PktRx) (n h : Nat) (x : Held) : Bool :=
  x.ptype == 0x42 && x.dst == h && x.key == [n, (ctlStep k.words).step, (ctlStep k.words).attempt]

section
variable {h n : Nat} (hjb : getJob d (pktJob k.words) = some jb) (hh : posOfAddr d k.src = some h) {f : Dev → Nat → Nat → Dev}
include hjb hh

theorem ctlAcked_of_awaited (hkey : (ctlStep k.words).key = jobKey jb) (hheld : jb.held.any (isAckedCtl k n h) = true) :
    ctlAcked d k n f = f (dropHeld d (pktJob k.words) (isAckedCtl k n h)) (pktJob k.words) h := by
  have hmine : ((ctlStep k.words).key == jobKey jb && jb.held.any (isAckedCtl k n h)) = true := by simp [hkey, hheld]
  simp only [ctlAcked, hjb, hh]
  exact if_pos hmine

theorem ctlAcked_of_other (hother : (ctlStep k.words).key ≠ jobKey jb ∨ jb.held.any (isAckedCtl k n h) = false) :
    ctlAcked d k n f = d := by
  have hnot : ¬ ((ctlStep k.words).key == jobKey jb && jb.held.any (isAckedCtl k n h)) = true := by
    rcases hother with hother | hother <;> simp [hother]
  simp only [ctlAcked, hjb, hh]
  exact if_neg hnot

end

/-! ## The statement -/

/-- Settles O53: each row acts on the device with its packet taken; a piece is taken by a holder of a group alone, an acknowledgment ends
the wait of what it names and nothing else, and what has waited is sent again. -/
theorem parityPiecesAreHeldAndAcknowledged : Obligations.ParityPiecesAreHeldAndAcknowledged := by
  refine ⟨fun s k d harr => ⟨fun hnone => ?noGroup, fun hgroup => ?holder⟩, ?acks, ?ctl, fun s => ?resend⟩
  case noGroup =>
    have hgives := gives_parityDelta harr
    rwa [parityDeltaIn_of_no_group hnone] at hgives
  case holder =>
    have hgives := gives_parityDelta harr
    rwa [parityDeltaIn_of_group hgroup] at hgives
  case acks =>
    intro s k d harr j p sl jb c hjb hc w mine
    have hgives := gives_parityAck harr
    refine ⟨fun hother => ?_, fun hkey hheld => ?_⟩
    · rwa [parityAckIn_of_other hjb hc hother] at hgives
    · rwa [parityAckIn_of_awaited hjb hc hkey hheld] at hgives
  case ctl =>
    intro s k d harr j t ans
    refine ⟨gives_parityApply harr, gives_parityDrop harr, ?_⟩
    rintro n i (⟨rfl, rfl⟩ | ⟨rfl, rfl⟩) hkind jb h hjb hh mine e
    · have hgives := gives_applyAck harr hkind
      refine ⟨fun hkey hheld => ?_, fun hother => ?_⟩
      · rwa [ctlAcked_of_awaited hjb hh hkey hheld] at hgives
      · rwa [ctlAcked_of_other hjb hh hother] at hgives
    · have hgives := gives_dropAck harr hkind
      refine ⟨fun hkey hheld => ?_, fun hother => ?_⟩
      · rwa [ctlAcked_of_awaited hjb hh hkey hheld] at hgives
      · rwa [ctlAcked_of_other hjb hh hother] at hgives
  case resend => rfl

end Sys2Proof.Machine
end

section
/-!
SUPPORT. The update die (chapter 6): which slab it accepts, what each case of its arithmetic gives, and what a completed write does.
-/
namespace Sys2Proof.Machine

/-! ## Accepting a slab (R205, R235, R286, R343, R646) -/

theorem gives_updateAccept {s : State} {c b : Nat} (f : UpdFault) (hc : c < 16384) (hb : b < 65536) :
    Gives (.updateAccept c b f) s (poolsSettle (flushAll (updateAccept s.dev (updUse s.dev c b) b f))) :=
  onUnit_of_ok (by simp [hc, hb]) s _

/-- The home update die of slab `b` of context `u`. -/
def slabDie (d : Dev) (e : Env) (u b : Nat) : Nat := homeDie e.jb.q e.r (getCtx d u).p.region (slabOf (getCtx d u) b)

/-- The slab waits for its die, the die can take it, and nothing holds the step back (R235, R343, R646). -/
def Accepts (d : Dev) (e : Env) (u b : Nat) : Prop :=
  updWaits e.jb (getCtx d u) b = true ∧ ownsB e (getCtx d u) b = true ∧ liveLanes d (slabDie d e u b) ≠ [] ∧ e.jb.stopped = false ∧
    e.jb.updStop = false ∧ e.jb.sealSt.applyWait = [] ∧ e.jb.sealSt.state ≠ .aborting

/-- The test `updateAccept` makes for a slab it leaves. -/
def leavesSlab (d : Dev) (e : Env) (u b : Nat) : Bool :=
  !updWaits e.jb (getCtx d u) b || !ownsB e (getCtx d u) b || (liveLanes d (slabDie d e u b)).isEmpty || e.jb.stopped || e.jb.updStop ||
    !e.jb.sealSt.applyWait.isEmpty || e.jb.sealSt.state == .aborting

theorem leavesSlab_eq_false {d : Dev} {e : Env} {u b : Nat} : leavesSlab d e u b = false ↔ Accepts d e u b := by
  simp [leavesSlab, Accepts, and_assoc]

/-- What the die does with a slab it accepts, of a slot whose rule is `rule`. -/
def acceptedSlab (d : Dev) (e : Env) (u b : Nat) (rule : List W64) (f : UpdFault) : Dev :=
  let slab := getSlab e.r (slabOf (getCtx d u) b)
  let lose (area : Nat) : Dev := memUeSlab (acceptSlab d u b) e.j (getCtx d u).p.region (slabOf (getCtx d u) b) area
  if e.jb.dieStop.contains (slabDie d e u b) then
    if stepValsFinite (stepVals rule (slotVals d e.jb rule)) then acceptSlab d u b
    else stepValueEvent (acceptSlab d u b) e.j (slabDie d e u b)
  else if slab.damaged then markJob (acceptSlab d u b) e.j 0x40
  else
    match validCopy e.jb.commit slab, f with
    | none, _ => markJob (lose 2) e.j 0x40
    | some v, .memUe a =>
      if a = 2 && !(getCtx d u).p.sealed then updateSlab d e u b v rule none
      else markJob (lose (if a = 0 then v else if a = 1 then 2 else 3)) e.j 0x40
    | some v, _ => updateSlab d e u b v rule (faultLane d (slabDie d e u b) f)

section
variable {d : Dev} {e : Env} {u b : Nat} {f : UpdFault}

theorem updateAccept_of_not_accepts (henv : ctxEnv d u = some e) (h : ¬ Accepts d e u b) : updateAccept d u b f = d := by
  have hleaves : leavesSlab d e u b = true := by simpa [← leavesSlab_eq_false] using h
  simp only [updateAccept, henv]
  exact if_pos hleaves

theorem updateAccept_of_accepts {rs : RuleSlot} (henv : ctxEnv d u = some e) (hrs : SMap.get? d.rules e.r.rule = some rs)
    (h : Accepts d e u b) : updateAccept d u b f = acceptedSlab d e u b rs.words f := by
  have hleaves : ¬ leavesSlab d e u b = true := by simp [leavesSlab_eq_false.mpr h]
  simp only [updateAccept, henv, hrs]
  exact if_neg hleaves

variable {rule : List W64}

/-- A die that a non-finite value stopped discards the slab (R205), which still raises the event of step values that are not finite (R209). -/
theorem acceptedSlab_of_stopped (hstop : e.jb.dieStop.contains (slabDie d e u b) = true) :
    acceptedSlab d e u b rule f = if stepValsFinite (stepVals rule (slotVals d e.jb rule)) then acceptSlab d u b
      else stepValueEvent (acceptSlab d u b) e.j (slabDie d e u b) := if_pos hstop

variable (hstop : e.jb.dieStop.contains (slabDie d e u b) = false)
include hstop

theorem acceptedSlab_of_damaged (hdam : (getSlab e.r (slabOf (getCtx d u) b)).damaged = true) :
    acceptedSlab d e u b rule f = markJob (acceptSlab d u b) e.j 0x40 := by
  simp only [acceptedSlab, hstop, hdam, Bool.false_eq_true, if_false, if_true]

variable (hdam : (getSlab e.r (slabOf (getCtx d u) b)).damaged = false)
include hdam

/-- A slab without a valid copy has its metadata lost (R286). -/
theorem acceptedSlab_of_no_copy (hv : validCopy e.jb.commit (getSlab e.r (slabOf (getCtx d u) b)) = none) :
    acceptedSlab d e u b rule f =
      markJob (memUeSlab (acceptSlab d u b) e.j (getCtx d u).p.region (slabOf (getCtx d u) b) 2) e.j 0x40 := by
  simp only [acceptedSlab, hstop, hdam, hv, Bool.false_eq_true, if_false]

variable {v : Nat} (hv : validCopy e.jb.commit (getSlab e.r (slabOf (getCtx d u) b)) = some v)
include hv

theorem acceptedSlab_of_no_fault : acceptedSlab d e u b rule .none = updateSlab d e u b v rule none := by
  simp only [acceptedSlab, hstop, hdam, hv, Bool.false_eq_true, if_false, faultLane]

/-- A residue fault strikes a lane that the die has and uses (R206, R646). -/
theorem acceptedSlab_of_residue (l : Nat) : acceptedSlab d e u b rule (.residue l) =
    updateSlab d e u b v rule (if l < 128 ∧ (128 * slabDie d e u b + l) ∉ d.spare.lanes then some l else none) := by
  simp only [acceptedSlab, hstop, hdam, hv, Bool.false_eq_true, if_false]
  simp [faultLane]

/-- A stream slab reads no staging. -/
theorem acceptedSlab_of_unread_staging (hstream : (getCtx d u).p.sealed = false) :
    acceptedSlab d e u b rule (.memUe 2) = updateSlab d e u b v rule none := by
  simp only [acceptedSlab, hstop, hdam, hv, hstream, Bool.false_eq_true, if_false]
  simp

theorem acceptedSlab_of_memUe (a : Nat) (hread : a ≠ 2 ∨ (getCtx d u).p.sealed = true) :
    acceptedSlab d e u b rule (.memUe a) = markJob (memUeSlab (acceptSlab d u b) e.j (getCtx d u).p.region (slabOf (getCtx d u) b)
      (if a = 0 then v else if a = 1 then 2 else 3)) e.j 0x40 := by
  have hlost : ¬ (a = 2 && !(getCtx d u).p.sealed) = true := by rcases hread with hread | hread <;> simp [hread]
  simp only [acceptedSlab, hstop, hdam, hv, if_neg hlost, Bool.false_eq_true, if_false]

end

/-! ## The write completes (R55, R73, R205, R235) -/

theorem gives_copyWriteComplete {s : State} {j rn k : Nat} {w : PendingWrite} (hj : j < 64)
    (hw : ((getJob s.dev j).bind fun jb => jb.writes.find? fun w => w.region == rn && w.slab == k) = some w) :
    Gives (.copyWriteComplete j rn k) s (poolsSettle (settleLost (copyWritten s.dev w))) := by
  have hgives : Gives (.copyWriteComplete j rn k) s _ := onUnit_of_ok (by simpa using hj) s _
  simpa only [hw] using hgives

/-- The tag of the new copy: written, of the write's step. -/
def newTag (w : PendingWrite) : W64 := mkTag true false false w.step

/-- The tag is written and the write is no longer pending, its stripes are written, and it is counted, a fresh slab's once more. -/
def countedWrite (d : Dev) (w : PendingWrite) (jb : Job) (r : Region) : Dev :=
  let a := updJob (updSlab d w.job w.region w.slab fun x => putCopy x w.copy w.data (newTag w)) w.job fun jb =>
    { jb with writes := jb.writes.filter (· != w) }
  let b := writeCopy (bump a ctrUpdSlabs w.job) w.job jb r w.region w.slab w.copy
  let fresh := match validCopy jb.commit (getSlab r w.slab) with | some v => tagFresh (slabTag (getSlab r w.slab) v) | none => false
  if fresh then bump b ctrUpdFresh w.job else b

/-- The result of the slab in its context's record, where the context's use is still known. -/
def recordedWrite (d : Dev) (w : PendingWrite) (r : Region) : Dev :=
  match ctxOfKey d w.ctx with
  | none => d
  | some c =>
    let b := w.slab - (getCtx d c).p.first
    recResult d w.job (ctxNum c) b (getCtx d c) (getRed (getCtx d c) b).acrc (crcWords (protImage r w.data (newTag w)))

/-- The copy stays here: the attempt ends or has ended (R73), or its die hands on nothing more (R205). -/
def KeepsWrite (w : PendingWrite) (jb : Job) (r : Region) : Prop :=
  jb.sealSt.state = .aborting ∨ jb.stopped = true ∨ jb.dieStop.contains (homeDie jb.q r w.region w.slab) = true ∨ jb.stepCur ≠ w.step ∨
    jb.attempt ≠ w.attempt

section
variable {d : Dev} {w : PendingWrite} {jb : Job} {r : Region} (hjb : getJob d w.job = some jb) (hr : getRegion jb w.region = some r)
include hjb hr

theorem copyWritten_of_keeps (h : KeepsWrite w jb r) : copyWritten d w = recordedWrite (countedWrite d w jb r) w r := by
  have hkeeps : (jb.sealSt.state == .aborting || jb.stopped || jb.dieStop.contains (homeDie jb.q r w.region w.slab) ||
      jb.stepCur != w.step || jb.attempt != w.attempt) = true := by simpa [KeepsWrite, or_assoc] using h
  simp only [copyWritten, hjb, hr]
  exact if_pos hkeeps

theorem copyWritten_of_hauls (h : ¬ KeepsWrite w jb r) : copyWritten d w =
    haulStart (recordedWrite (countedWrite d w jb r) w r) w.job w.region w.slab w.step w.attempt w.data := by
  have hhauls : ¬ (jb.sealSt.state == .aborting || jb.stopped || jb.dieStop.contains (homeDie jb.q r w.region w.slab) ||
      jb.stepCur != w.step || jb.attempt != w.attempt) = true := by simpa [KeepsWrite, or_assoc] using h
  simp only [copyWritten, hjb, hr]
  exact if_neg hhauls

end

/-! ## The statement -/

/-- Settles O47: `updateAccept` by the cases of its die, of the slab and of the fault; a completed write is tagged and counted, and goes to
haul unless it is kept. -/
theorem updateDiesWriteWhatTheyAccept : Obligations.UpdateDiesWriteWhatTheyAccept := by
  refine ⟨?accept, fun s j rn k w hj hw => ⟨gives_copyWriteComplete hj hw, ?written⟩⟩
  case accept =>
    intro s c b f hc hb d u x k rn gives e rs henv hrs jb die sl waits
    have hgives := gives_updateAccept (s := s) f hc hb
    refine ⟨fun h => ?_, fun h => ?_⟩
    · rwa [updateAccept_of_not_accepts henv h] at hgives
    rw [updateAccept_of_accepts henv hrs h] at hgives
    refine ⟨fun hstop => ?_, fun hstop => ⟨fun hdam => ?_, fun hdam hv => ?_, fun hdam v hv => ⟨?_, ?_, ?_, ?_⟩⟩⟩
    · rwa [acceptedSlab_of_stopped hstop] at hgives
    · rwa [acceptedSlab_of_damaged hstop hdam] at hgives
    · rwa [acceptedSlab_of_no_copy hstop hdam hv] at hgives
    · rintro rfl
      rwa [acceptedSlab_of_no_fault hstop hdam hv] at hgives
    · rintro l rfl
      rwa [acceptedSlab_of_residue hstop hdam hv] at hgives
    · rintro rfl hstream
      rwa [acceptedSlab_of_unread_staging hstop hdam hv hstream] at hgives
    · rintro a rfl hread
      rwa [acceptedSlab_of_memUe hstop hdam hv a hread] at hgives
  case written =>
    intro jb r hjb hr tag sl fresh a b e g
    by_cases hkeeps : KeepsWrite w jb r
    · exact (copyWritten_of_keeps hjb hr hkeeps).trans (if_pos hkeeps).symm
    · exact (copyWritten_of_hauls hjb hr hkeeps).trans (if_neg hkeeps).symm

end Sys2Proof.Machine
end

section
/-!
SUPPORT. Repair (chapter 19): when a trigger is due, and what retries of a lane group, wear, a channel's rebuild, the scrubber and the
built-in test do in each of their cases.
-/
namespace Sys2Proof.Machine

variable {s : State} {d : Dev}

/-! ## Triggers (Table 19-3) -/

theorem gives_repairTrigger_due {t : Trigger} (hok : triggerOk t = true) (hdue : triggerDue s.dev t = true) :
    Gives (.repairTrigger t) s (settleLinks s.dev (poolsSettle (flushAll (repair s.dev t)))) := by
  have hgives : Gives (.repairTrigger t) s _ := onLinks_of_ok hok s _
  simpa only [if_pos hdue] using hgives

theorem gives_repairTrigger_early {t : Trigger} (hok : triggerOk t = true) (hdue : triggerDue s.dev t = false) :
    Gives (.repairTrigger t) s (settleLinks s.dev s.dev) := by
  have hgives : Gives (.repairTrigger t) s _ := onLinks_of_ok hok s _
  simpa only [hdue, Bool.false_eq_true, if_false] using hgives

/-- Codewords a port has lost in the last hour. -/
def lostCodewords (d : Dev) (p : Nat) : Nat :=
  ((getPort d p).fecLost.filter fun e => decide (d.nowUs < e.1 + 3600000000)).foldl (fun a e => a + e.2) 0

theorem triggerDue_slice_iff {p : Nat} : triggerDue d (.slice p) = true ↔ 3 ≤ (getPort d p).trainErr ∨ 1000 < lostCodewords d p := by
  simp [triggerDue, lostCodewords]

theorem triggerDue_slice_eq_false {p : Nat} (htrain : (getPort d p).trainErr < 3) (hfec : lostCodewords d p ≤ 1000) :
    triggerDue d (.slice p) = false := by
  rw [← Bool.not_eq_true, triggerDue_slice_iff]
  omega

/-- Blocks of a channel that were corrected in the last 24 hours. -/
def correctedBlocks (d : Dev) (c : Nat) : Nat :=
  ((SMap.getD d.spare.chanCes c []).filter fun e => decide (d.nowUs < e.1 + 86400000000)).foldl (fun a e => a + e.2) 0

/-- Different erasures of a channel in the last second. -/
def erasedBlocks (d : Dev) (c : Nat) : Nat :=
  ((((SMap.getD d.spare.chanErs c []).filter fun e => decide (d.nowUs < e.1 + 1000000)).map (·.2)).eraseDups).length

theorem triggerDue_channel_iff {c : Nat} :
    triggerDue d (.channel c) = true ↔ 10000 < correctedBlocks d c ∨ 3 ≤ erasedBlocks d c ∨ d.start.phase = .memory := by
  simp [triggerDue, correctedBlocks, erasedBlocks, or_assoc]

theorem triggerDue_channel_eq_false {c : Nat} (hcor : correctedBlocks d c ≤ 10000) (her : erasedBlocks d c < 3)
    (hphase : d.start.phase ≠ .memory) : triggerDue d (.channel c) = false := by
  rw [← Bool.not_eq_true, triggerDue_channel_iff]
  simpa [hphase, hcor] using her

theorem triggerDue_residue_iff {r : SeamAt} : triggerDue d (.residue r) = true ↔
    (getCtx d r.ctx).state = .opened ∧ r.slab < (getCtx d r.ctx).p.nslab ∧ r.pass < (getCtx d r.ctx).p.npass := by
  simp [triggerDue, and_assoc]

theorem triggerDue_residue_eq_false {r : SeamAt} (h : (getCtx d r.ctx).state ≠ .opened ∨ (getCtx d r.ctx).p.nslab ≤ r.slab ∨
    (getCtx d r.ctx).p.npass ≤ r.pass) : triggerDue d (.residue r) = false := by
  rw [← Bool.not_eq_true, triggerDue_residue_iff]
  rintro ⟨hst, hslab, hpass⟩
  rcases h with h | h | h
  · exact h hst
  · omega
  · omega

/-- Residues that disagree act as a mismatch of the seam (R191, R196). -/
theorem repair_residue_of_differ {r : SeamAt} (h : residuesDiffer r.found = true) :
    repair d (.residue r) = residueErr d r.ctx r.slab r.pass r.found.lane (stageCode r.found.what) := by
  simp [repair, seamFault, h]

/-! ## Lane groups (R62, R651) -/

theorem gives_laneGroupFail {l n : Nat} (hl : l < 301) (hn : 1 ≤ n) (hn' : n ≤ 8) :
    Gives (.laneGroupFail ⟨l, n⟩) s (settleLinks s.dev (flushAll (laneGroup s.dev l n))) := onLinks_of_ok (by simp [hl, hn, hn']) s _

theorem laneGroup_of_lost {l n : Nat} (h : (linkRec d l).st = 3) : laneGroup d l n = d := if_pos h

theorem laneGroup_of_retried {l n : Nat} (h : (linkRec d l).st ≠ 3) (hn : n < 8) : laneGroup d l n = bumpBy d ctrLinkRetry l n :=
  (if_neg h).trans (if_pos hn)

/-- The eighth retry takes the group out of the link. -/
theorem laneGroup_of_failed {l : Nat} (h : (linkRec d l).st ≠ 3) : laneGroup d l 8 = groupOut (bumpBy d ctrLinkRetry l 8) l :=
  (if_neg h).trans (if_neg (by decide))

/-- The record of a link whose group is out: its new state, and one group more out of use. -/
def withGroupOut (d : Dev) (l st : Nat) : Dev :=
  updSpare d fun x => { x with links := SMap.set x.links l { linkRec d l with st := st, groups := (linkRec d l).groups + 1 } }

/-- Does the loss of the link retire a combine die that is not retired? -/
def lossRetires (d : Dev) (l : Nat) : Bool :=
  match linkDie l with
  | some c => !d.spare.dead.contains (18 + c)
  | none => false

section
variable {l : Nat} (h : (linkRec d l).st ≠ 3)
include h

theorem groupOut_of_spare (hg : (linkRec d l).groups = 0) :
    groupOut d l = raiseTrap (commitSpare (withGroupOut (bump d ctrLinkGroupRet l) l 1)) { cause := 0xC0, details := [BitVec.ofNat 64 l] } := by
  simp only [groupOut, if_neg h]
  split
  · rfl
  · omega
  · next hne _ => exact absurd hg hne

theorem groupOut_of_last (hg : (linkRec d l).groups = 1) :
    groupOut d l = raiseTrap
      (raiseTrap (commitSpare (withGroupOut (bump d ctrLinkGroupRet l) l 2)) { cause := 0xC1, details := [BitVec.ofNat 64 l] })
      { cause := 0xC3, details := [BitVec.ofNat 64 l] } := by
  simp only [groupOut, if_neg h]
  split
  · omega
  · rfl
  · next _ hne => exact absurd hg hne

/-- A degraded link is lost; where the loss retires a die, that change records the link too. -/
theorem groupOut_of_degraded (hg : 2 ≤ (linkRec d l).groups) :
    groupOut d l = loseLink
      (if lossRetires (withGroupOut (bump d ctrLinkGroupRet l) l 3) l then withGroupOut (bump d ctrLinkGroupRet l) l 3
       else raiseTrap (commitSpare (withGroupOut (bump d ctrLinkGroupRet l) l 3)) { cause := 0xC1, details := [BitVec.ofNat 64 l] }) l := by
  simp only [groupOut, if_neg h]
  split
  · omega
  · omega
  · exact (apply_ite (loseLink · l) _ _ _).symm

end

/-! ## Wear (R648) -/

theorem gives_wear {p : Nat} (level : Nat) (hp : p < 288) : Gives (.wear p level) s (settleLinks s.dev (wearLevel s.dev p level)) :=
  onLinks_of_ok (by simpa using hp) s _

/-- The bias level of a laser has been read: LASER_BIAS counts it and its port holds it. -/
def biasRead (d : Dev) (p level : Nat) : Dev :=
  updPort (setCtr d ctrLaserBias p (BitVec.ofNat 64 level)) p fun x => { x with bias := level }

/-- Is the reference of the lasers known (Table 21-2)? -/
def LaserKnown (d : Dev) : Prop := SMap.getD d.flash.source 3 3 ≠ 4

theorem source_of_not_laserKnown (h : ¬ LaserKnown d) : SMap.getD d.flash.source 3 3 = 4 := Decidable.not_not.mp h

/-- The WEAR trap of a laser at 1.2 times its bias, once for a position: the spare map then holds the position as worn. -/
def wearTrapped (d : Dev) (p level : Nat) : Dev :=
  if decide (6 * 1024 ≤ 5 * level) && !(SMap.getD d.flash.source 3 3 == 4) && posState d p = 0 then
    raiseTrap (saveSpare (updSpare (biasRead d p level) fun x => { x with posState := SMap.set x.posState p 1 }))
      { cause := 0xC4, kind := 1, unit := p }
  else biasRead d p level

theorem wearLevel_eq (p level : Nat) : wearLevel d p level =
    if !(SMap.getD d.flash.source 3 3 == 4) && decide (7 * 1024 ≤ 5 * level) then failPosition (wearTrapped d p level) p
    else wearTrapped d p level := rfl

theorem wearTrapped_of_low {p level : Nat} (h : 5 * level < 6 * 1024 ∨ ¬ LaserKnown d) : wearTrapped d p level = biasRead d p level := by
  have hlow : ¬ (decide (6 * 1024 ≤ 5 * level) && !(SMap.getD d.flash.source 3 3 == 4) && posState d p = 0) = true := by
    rcases h with h | h
    · simp [show ¬ 6 * 1024 ≤ 5 * level by omega]
    · simp [source_of_not_laserKnown h]
  exact if_neg hlow

theorem wearTrapped_of_worn {p level : Nat} (hknown : LaserKnown d) (hlow : 6 * 1024 ≤ 5 * level) : wearTrapped d p level =
    if posState d p = 0 then
      raiseTrap (saveSpare (updSpare (biasRead d p level) fun x => { x with posState := SMap.set x.posState p 1 }))
        { cause := 0xC4, kind := 1, unit := p }
    else biasRead d p level := by
  rw [LaserKnown] at hknown
  simp [wearTrapped, hknown, hlow]

theorem wearLevel_of_kept {p level : Nat} (h : 5 * level < 7 * 1024 ∨ ¬ LaserKnown d) : wearLevel d p level = wearTrapped d p level := by
  have hkept : ¬ (!(SMap.getD d.flash.source 3 3 == 4) && decide (7 * 1024 ≤ 5 * level)) = true := by
    rcases h with h | h
    · simp [show ¬ 7 * 1024 ≤ 5 * level by omega]
    · simp [source_of_not_laserKnown h]
  rw [wearLevel_eq, if_neg hkept]

theorem wearLevel_of_failed {p level : Nat} (hknown : LaserKnown d) (hhigh : 7 * 1024 ≤ 5 * level) :
    wearLevel d p level = failPosition (wearTrapped d p level) p := by
  rw [LaserKnown] at hknown
  simp [wearLevel_eq, hknown, hhigh]

/-! ## Channels rebuilt (R284, R285) -/

theorem gives_channelRebuildDone {c : Nat} (hc : c < 256) : Gives (.channelRebuildDone c) s (poolsSettle (channelDone s.dev c)) :=
  onUnit_of_ok (by simpa using hc) s _

theorem channelDone_of_not_rebuilt {c : Nat} (h : (chanRec d c).st ≠ 2) : channelDone d c = d := if_pos (by simpa using h)

/-! ## The scrubber (R264, R266, R286) -/

theorem gives_scrub {u n : Nat} {ks : List Strike} (hu : u < 4) (hn : n ≤ dieStripes)
    (hks : ∀ k ∈ ks, k.stripe < dieStripes ∧ k.channel < 64) :
    Gives (.scrub ⟨u, n, ks⟩) s (poolsSettle (flushAll (scrubDie s.dev u n ks))) :=
  onUnit_of_ok (by simpa [hu, hn] using hks) s _

theorem scrubDie_of_not_up {u n : Nat} {ks : List Strike} (h : memoryUp d = false) : scrubDie d u n ks = d := if_pos (by simp [h])

/-- The errors have struck, and a service prefetcher reads for the walk (Table 8-12). -/
def struck (d : Dev) (u : Nat) (ks : List Strike) : Dev :=
  bindWalk (forEach ks (settleMem d) fun e k => strike e u k) u (.service 64 3)

/-- Damaged stripes of the walk over the next `n` stripes. -/
def walkStripes (a : Dev) (u n : Nat) : List Nat := inWalk (badStripes (getMem a u)) (getMem a u).scrub n

/-- Runs of stripes that the walk builds during a rebuild. -/
def builtRuns (a : Dev) (u n : Nat) : List (Nat × Nat) :=
  if chanNums a u 2 = [] then [] else unbuiltRuns (getMem a u) (getMem a u).scrub n (walkStripes a u n)

theorem builtRuns_eq_isEmpty (a : Dev) (u n : Nat) : builtRuns a u n =
    if (chanNums a u 2).isEmpty then [] else unbuiltRuns (getMem a u) (getMem a u).scrub n (walkStripes a u n) :=
  ite_congr (propext List.isEmpty_iff.symm) (fun _ => rfl) fun _ => rfl

/-- Undamaged stripes that the walk reads with a correction (log 96). -/
def correctedReads (a : Dev) (u n : Nat) : Nat :=
  if failedChans a u = [] then (builtRuns a u n).foldl (fun a r => a + (r.2 - r.1)) 0 else n - (walkStripes a u n).length

theorem correctedReads_eq_isEmpty (a : Dev) (u n : Nat) : correctedReads a u n =
    if (failedChans a u).isEmpty then (builtRuns a u n).foldl (fun a r => a + (r.2 - r.1)) 0 else n - (walkStripes a u n).length :=
  ite_congr (propext List.isEmpty_iff.symm) (fun _ => rfl) fun _ => rfl

/-- The walk has gone on by `n` stripes, and its reads are counted. -/
def walkedOn (a : Dev) (u n : Nat) : Dev :=
  updMem (bumpBy a ctrOuterCorr (updDie u) (correctedReads a u n)) u fun m =>
    { m with scrub := (m.scrub + n) % dieStripes, again := [], runs := m.runs ++ builtRuns a u n }

theorem scrubDie_of_up {u n : Nat} {ks : List Strike} (h : memoryUp d = true) : scrubDie d u n ks =
    forEach ((getMem (struck d u ks) u).again ++
        (walkStripes (struck d u ks) u n).filter fun x => !(getMem (struck d u ks) u).again.contains x)
      (walkedOn (struck d u ks) u n) fun e x => scrubStripe e u x := by
  have hup : ¬ (!memoryUp d) = true := by simp [h]
  rw [walkedOn, correctedReads_eq_isEmpty, builtRuns_eq_isEmpty]
  exact if_neg hup

/-- A stripe that does not decode: its soft errors are written back, and what it held meets its effect (Table 8-13). -/
theorem scrubStripe_of_undecoded {u n : Nat} (hw : (writeStripes d u).contains n = false) (hdec : decodedStripe d u n = none) :
    scrubStripe d u n = stripeLost (forEach (kindAt (stripeErrs (getMem d u) n) .soft)
      (countInner d u n (List.range 62) (stripeErrs (getMem d u) n)) fun x k => putErr x u n k.1 none) u n := by
  simp only [scrubStripe, hw, hdec, Bool.false_eq_true, if_false]

/-! ## The built-in test (R195) -/

theorem gives_builtinTestDone {x y : Nat} {okx oky : Bool} (hx : x < 144) (hy : y < 144) :
    Gives (.builtinTestDone x y okx oky) s (poolsSettle (flushAll (testDone s.dev x y okx oky))) := onUnit_of_ok (by simp [hx, hy]) s _

/-- Is the pair of seams under a built-in test that began at least 200 µs ago? -/
def testDue (d : Dev) (x y : Nat) : Bool := d.spare.tests.any fun t => t.1 == x && t.2.1 == y && decide (t.2.2 + 200 ≤ d.nowUs)

theorem testDone_of_due {x y : Nat} {okx oky : Bool} (h : testDue d x y = true) : testDone d x y okx oky =
    retireSeam (updSpare d fun z => { z with tests := z.tests.filter fun t => !(t.1 == x && t.2.1 == y) })
      (if okx && !oky then y else x) := if_pos h

theorem testDone_of_not_due {x y : Nat} {okx oky : Bool} (h : testDue d x y = false) : testDone d x y okx oky = d :=
  if_neg (Bool.eq_false_iff.mp h)

/-! ## The statement -/

/-- Settles O59: a trigger that is due has its unit's repair, one that is not does nothing; the other rows by their cases. -/
theorem repairRetiresWhatFails : Obligations.RepairRetiresWhatFails := by
  intro s d settled
  have hdue : ∀ t, triggerOk t = true → triggerDue d t = true → Gives (.repairTrigger t) s (settled (repair d t)) :=
    fun _ => gives_repairTrigger_due
  refine ⟨?port, fun n hn => ?engine, fun n hn => ?seam, fun c hc => ?combineDie, fun k hk => ?stack, ?residue, ?channel, fun l hl => ?lane,
    fun die bank row u a hok => hdue _ hok rfl, ?laneGroup, ?wear, ?scrub, fun e u n hw hdec => scrubStripe_of_undecoded hw hdec,
    ?builtinTest, fun n hn => ?noSeam⟩
  case port =>
    intro p hp lost
    refine ⟨fun hcount => ?_, fun htrain hfec => ?_, ?_⟩
    · exact hdue _ (by simpa [triggerOk] using hp) (triggerDue_slice_iff.mpr hcount)
    · exact gives_repairTrigger_early (by simpa [triggerOk] using hp) (triggerDue_slice_eq_false htrain hfec)
    · exact hdue (.position p) (by simpa [triggerOk] using hp) rfl
  case engine => exact hdue (.engine n) (by simpa [triggerOk] using hn) rfl
  case seam => exact hdue (.seam n) (by simpa [triggerOk] using hn) rfl
  case combineDie => exact hdue (.combineDie c) (by simpa [triggerOk] using hc) rfl
  case stack => exact hdue (.stack k) (by simpa [triggerOk] using hk) rfl
  case residue =>
    intro r hr x
    refine ⟨fun hst hslab hpass hdiffer => ?_, fun hidle => ?_⟩
    · rw [← repair_residue_of_differ hdiffer]
      exact hdue _ (by simpa [triggerOk] using hr) (triggerDue_residue_iff.mpr ⟨hst, hslab, hpass⟩)
    · exact gives_repairTrigger_early (by simpa [triggerOk] using hr) (triggerDue_residue_eq_false hidle)
  case channel =>
    intro c hc near corrected erased
    have hgives := gives_channelRebuildDone (s := s) hc
    refine ⟨fun hcount => ?_, fun hcor her hphase => ?_, fun hst => ?_, fun _ => hgives⟩
    · exact hdue (.channel c) (by simpa [triggerOk] using hc) (triggerDue_channel_iff.mpr hcount)
    · exact gives_repairTrigger_early (by simpa [triggerOk] using hc) (triggerDue_channel_eq_false hcor her hphase)
    · rwa [channelDone_of_not_rebuilt hst] at hgives
  case lane => exact hdue (.updateLane l) (by simpa [triggerOk] using hl) rfl
  case laneGroup =>
    intro l hl
    refine ⟨fun n hn hn' hst => ?_, fun n hn hn' hst => ?_, ?failed⟩
    · have hgives := gives_laneGroupFail (s := s) hl hn hn'
      rwa [laneGroup_of_lost hst] at hgives
    · have hgives := gives_laneGroupFail (s := s) hl hn (Nat.le_of_lt hn')
      rwa [laneGroup_of_retried hst hn'] at hgives
    case failed =>
      intro hst a put
      have hgives := gives_laneGroupFail (s := s) (n := 8) hl (by decide) (Nat.le_refl 8)
      rw [laneGroup_of_failed hst] at hgives
      refine ⟨fun hg => ?_, fun hg => ?_, fun hg => ?_⟩
      · rwa [groupOut_of_spare (d := bumpBy d ctrLinkRetry l 8) hst hg] at hgives
      · rwa [groupOut_of_last (d := bumpBy d ctrLinkRetry l 8) hst hg] at hgives
      · rwa [groupOut_of_degraded (d := bumpBy d ctrLinkRetry l 8) hst hg] at hgives
  case wear =>
    intro p level hp a e known g h
    have hgives := gives_wear (s := s) level hp
    refine ⟨fun hlow => ?_, fun hknown hlow hhigh => ?_, fun hknown hhigh => ?_⟩
    · rwa [wearLevel_of_kept (hlow.imp_left (by omega)), wearTrapped_of_low hlow] at hgives
    · rwa [wearLevel_of_kept (.inl hhigh), wearTrapped_of_worn hknown hlow] at hgives
    · rwa [wearLevel_of_failed hknown hhigh, wearTrapped_of_worn hknown (by omega)] at hgives
  case scrub =>
    intro u n ks hu hn hks
    have hgives := gives_scrub (s := s) hu hn hks
    refine ⟨fun hup => ?_, fun hup => ?_⟩
    · rwa [scrubDie_of_not_up hup] at hgives
    · rwa [scrubDie_of_up hup] at hgives
  case builtinTest =>
    intro x y okx oky hx hy
    have hgives := gives_builtinTestDone (s := s) (okx := okx) (oky := oky) hx hy
    refine ⟨fun htest => ?_, fun htest => ?_⟩
    · rwa [testDone_of_due htest] at hgives
    · rwa [testDone_of_not_due htest] at hgives
  case noSeam => exact if_neg (by simpa [triggerOk] using hn)

end Sys2Proof.Machine
end

section
/-!
SUPPORT. Number formats (chapter 3): the sign, the significand and the sum of binary64 values; what the rounding of the output stage
can give, and which encodings ingest takes.
-/
namespace Sys2Proof.Machine

variable {a b y : F64} {l : FloatFmt} {f n w d : Nat} {e u : Int} {s rnd : Bool}

/-! ## The sign and the magnitude -/

@[simp] theorem fpSign_fpNeg (a : F64) : fpSign (fpNeg a) = !fpSign a := by simp [fpSign, fpNeg]

@[simp] theorem fpMag_fpNeg (a : F64) : fpMag (fpNeg a) = fpMag a := by
  rw [fpMag, fpNeg, BitVec.toNat_xor, Nat.xor_mod_two_pow]
  exact Nat.xor_zero _

@[simp] theorem fpSig_fpNeg (a : F64) : fpSig (fpNeg a) = fpSig a := by simp [fpSig]
@[simp] theorem fpExp_fpNeg (a : F64) : fpExp (fpNeg a) = fpExp a := by simp [fpExp]
@[simp] theorem fpFinite_fpNeg (a : F64) : fpFinite (fpNeg a) = fpFinite a := by simp [fpFinite]

theorem fpIsNaN_of_finite (h : fpFinite a = true) : fpIsNaN a = false := by
  simp only [fpFinite, decide_eq_true_eq] at h
  simp only [fpIsNaN, decide_eq_false_iff_not]
  omega

theorem fpSig_of_isZero (h : fpIsZero a = true) : fpSig a = 0 := by
  have hmag : fpMag a = 0 := by simpa [fpIsZero] using h
  simp [fpSig, hmag]

/-! ## Addition (R97) -/

/-- A sum of finite values is their exact sum, in units of the lower of the two exponents, rounded once. -/
theorem fpAdd_of_finite (ha : fpFinite a = true) (hb : fpFinite b = true) :
    fpAdd a b = fpRoundInt (fpIntAt a (min (fpExp a) (fpExp b)) + fpIntAt b (min (fpExp a) (fpExp b)))
      (min (fpExp a) (fpExp b)) (fpSign a && fpSign b) := by
  simp [fpAdd, fpIsNaN_of_finite, ha, hb]

theorem fpAdd_comm_of_finite (ha : fpFinite a = true) (hb : fpFinite b = true) : fpAdd a b = fpAdd b a := by
  rw [fpAdd_of_finite ha hb, fpAdd_of_finite hb ha, Int.min_comm, Int.add_comm, Bool.and_comm]

theorem fpIntAt_fpNeg (a : F64) (e : Int) : fpIntAt (fpNeg a) e = -fpIntAt a e := by
  cases h : fpSign a <;> simp [fpIntAt, h]

theorem fpAdd_fpNeg_self (ha : fpFinite a = true) : fpAdd a (fpNeg a) = 0 := by
  rw [fpAdd_of_finite ha (by simpa using ha), fpExp_fpNeg, fpIntAt_fpNeg, Int.add_right_neg, fpSign_fpNeg, Bool.and_not_self]
  rfl

/-- Settles O7: the exact sum of finite values is symmetric, and that of opposite values is the zero whose sign is the conjunction of
their signs. -/
theorem additionCommutesAndSignsZeros : Obligations.AdditionCommutesAndSignsZeros :=
  ⟨fun _ _ => fpAdd_comm_of_finite, fun _ => fpAdd_fpNeg_self, by decide, by decide, by decide, by decide⟩

/-! ## Encodings of a floating-point format -/

/-- The bits below the sign bit of an encoding. -/
def FloatFmt.magBits (l : FloatFmt) : Nat := l.p + l.ebits

/-- The encoding of sign `s` and magnitude code `c`. -/
def FloatFmt.signed (l : FloatFmt) (s : Bool) (c : Nat) : Nat := if s then 2 ^ l.magBits + c else c

/-- Has an encoding room in a 64-bit word, and the largest magnitude in the bits below the sign? -/
def FloatFmt.Fits (l : FloatFmt) : Prop := l.magBits ≤ 63 ∧ l.maxCode < 2 ^ l.magBits

theorem floatFmt_fits (f : Nat) : (floatFmt f).Fits := by
  unfold floatFmt FloatFmt.Fits
  split <;> decide

theorem FloatFmt.signed_lt {c : Nat} (hc : c < 2 ^ l.magBits) : l.signed s c < 2 ^ (l.magBits + 1) := by
  rw [Nat.pow_succ]
  cases s <;> simp only [signed, Bool.false_eq_true, if_true, if_false] <;> omega

theorem FloatFmt.signed_mod {c : Nat} (hc : c < 2 ^ l.magBits) : l.signed s c % 2 ^ l.magBits = c := by
  cases s <;> simp [signed, Nat.mod_eq_of_lt hc]

theorem FloatFmt.toNat_ofNat_signed {c : Nat} (hfit : l.Fits) (hc : c < 2 ^ l.magBits) :
    (BitVec.ofNat 64 (l.signed s c)).toNat = l.signed s c := by
  obtain ⟨hroom, -⟩ := hfit
  have hword : 2 ^ (l.magBits + 1) ≤ 2 ^ 64 := Nat.pow_le_pow_right (by decide) (Nat.succ_le_succ hroom)
  exact (BitVec.toNat_ofNat _ _).trans (Nat.mod_eq_of_lt (Nat.lt_of_lt_of_le (signed_lt hc) hword))

/-! ## What rounding to a floating-point format gives (R114, R116) -/

/-- What R114 and R116 ask of an element of format `l` made of a value of sign `s`: a finite encoding, bounded to the largest
magnitude of that sign, and +0 where the magnitude is zero. -/
structure BoundedElem (l : FloatFmt) (s : Bool) (o : OutElem) : Prop where
  width  : o.code.toNat < 2 ^ (l.magBits + 1)
  finite : o.code.toNat % 2 ^ l.magBits ≤ l.maxCode
  atMax  : o.sat = true → o.code.toNat = l.signed s l.maxCode
  zero   : o.code.toNat % 2 ^ l.magBits = 0 → o.code = 0

theorem boundedElem_zero (l : FloatFmt) (s : Bool) : BoundedElem l s { code := 0, sat := false } where
  width := Nat.two_pow_pos _
  finite := Nat.zero_mod _ ▸ Nat.zero_le _
  atMax := nofun
  zero _ := rfl

/-- The magnitude code is positive, and the largest one where the element is bounded. -/
theorem boundedElem_signed {c : Nat} {sat : Bool} (hfit : l.Fits) (hpos : c ≠ 0) (hle : c ≤ l.maxCode)
    (hsat : sat = true → c = l.maxCode) : BoundedElem l s { code := BitVec.ofNat 64 (l.signed s c), sat := sat } := by
  have hlt : c < 2 ^ l.magBits := Nat.lt_of_le_of_lt hle hfit.2
  have hcode := FloatFmt.toNat_ofNat_signed (s := s) hfit hlt
  have hmag := FloatFmt.signed_mod (s := s) hlt
  constructor
  case width => exact hcode.symm ▸ FloatFmt.signed_lt hlt
  case finite => exact hcode.symm ▸ hmag.symm ▸ hle
  case atMax => exact fun h => hsat h ▸ hcode
  case zero => exact fun h => absurd (hmag.symm.trans (hcode ▸ h)) hpos

theorem roundFloat_bounded (hfit : l.Fits) : BoundedElem l s (roundFloat l s n e rnd d) := by
  unfold roundFloat
  split
  · exact boundedElem_zero l s
  · extract_lets top u q c sat c'
    split
    · exact boundedElem_zero l s
    case isFalse hpos =>
      have hle : c' ≤ l.maxCode := by
        by_cases hover : l.maxCode < c
        · simp [c', sat, hover]
        · simpa [c', sat, hover] using Nat.not_lt.mp hover
      exact boundedElem_signed hfit hpos hle fun h => if_pos h

/-! ## What rounding to an integer format gives (R114, R116, R118) -/

theorem roundInt_zero {maxPos maxNeg : Nat} : roundInt w u maxPos maxNeg s 0 e rnd d = { code := 0, sat := false } := rfl

theorem roundInt_code_of_sat {maxPos maxNeg : Nat} (h : (roundInt w u maxPos maxNeg s n e rnd d).sat = true) :
    (roundInt w u maxPos maxNeg s n e rnd d).code = BitVec.ofNat 64 (if s then (2 ^ w - maxNeg) % 2 ^ w else maxPos) := by
  by_cases hn : n = 0
  · simp [hn, roundInt_zero] at h
  · simp only [roundInt, if_neg hn, decide_eq_true_eq] at h ⊢
    cases s <;> simp_all

/-! ## What ingest takes (R91) -/

theorem ingestFloat_ok {raw : Nat} (sc : Int) (h : raw % 2 ^ l.magBits ≤ l.maxCode) : ∃ v, ingestFloat l raw sc = .ok v :=
  ⟨_, if_neg (Nat.not_lt.mpr h)⟩

theorem ingestElem_float (hf : f ≤ 5) (raw : W64) (scale : Byte) : ingestElem f raw scale = ingestFloat (floatFmt f) raw.toNat 0 := by
  match f, hf with
  | 0, _ | 1, _ | 2, _ | 3, _ | 4, _ | 5, _ => rfl

/-- The element of an MX floating-point format is a byte; its block's scale code is not the one of a NaN. -/
theorem ingestElem_mxFloat (hf : f = 6 ∨ f = 7) {raw : W64} {scale : Byte} (hraw : raw.toNat < 256) (hscale : scale ≠ 0xFF) :
    ingestElem f raw scale = ingestFloat (floatFmt f) raw.toNat ((scale.toNat : Int) - 127) := by
  obtain rfl | rfl := hf <;> exact (if_neg hscale).trans (by rw [Nat.mod_eq_of_lt hraw])

theorem ingestElem_mxInt (raw : W64) {scale : Byte} (hscale : scale ≠ 0xFF) : ∃ v, ingestElem 8 raw scale = .ok v := ⟨_, if_neg hscale⟩

theorem scaleCode_ne_nan {sc : Nat} (h : sc < 255) : BitVec.ofNat 8 sc ≠ 0xFF := by
  intro heq
  have hmod : sc % 2 ^ 8 = 255 := by simpa using congrArg BitVec.toNat heq
  omega

/-! ## What the output stage gives (R113 to R118) -/

variable {k : DitherKey}

theorem outScalar_fp64_bounded (hy : fpFinite y = true) : BoundedElem (floatFmt 0) (fpSign y) (outScalar 0 rnd k y) := by
  have hfin : fpMag y ≤ (floatFmt 0).maxCode := Nat.le_of_lt_succ (of_decide_eq_true hy)
  by_cases hz : fpIsZero y = true
  · simpa [outScalar, hz] using boundedElem_zero (floatFmt 0) (fpSign y)
  · simp only [outScalar, if_neg hz]
    exact ⟨y.isLt, hfin, nofun, fun h => absurd (beq_iff_eq.mpr h) hz⟩

theorem outScalar_bounded (hf : f ≤ 5) (hy : fpFinite y = true) : BoundedElem (floatFmt f) (fpSign y) (outScalar f rnd k y) := by
  obtain rfl | hpos := Nat.eq_zero_or_pos f
  · exact outScalar_fp64_bounded hy
  · match f, hpos, hf with
    | 1, _, _ | 2, _, _ | 3, _, _ | 4, _, _ | 5, _, _ => exact roundFloat_bounded (floatFmt_fits _)

theorem outMx_bounded {sc : Nat} (hf : f = 6 ∨ f = 7) : BoundedElem (floatFmt f) (fpSign y) (outMx f rnd k sc y) := by
  obtain rfl | rfl := hf <;> exact roundFloat_bounded (floatFmt_fits _)

theorem outMx_int_code_of_sat {sc : Nat} (h : (outMx 8 rnd k sc y).sat = true) :
    (outMx 8 rnd k sc y).code = if fpSign y then 0x81 else 0x7F := by
  refine (roundInt_code_of_sat h).trans ?_
  split <;> rfl

theorem outScalar_int32_code_of_sat (h : (outScalar 9 rnd k y).sat = true) :
    (outScalar 9 rnd k y).code.toNat = if fpSign y then 2 ^ 31 else 2 ^ 31 - 1 := by
  refine (congrArg BitVec.toNat (roundInt_code_of_sat h)).trans ?_
  split <;> rfl

/-- A negative value gives 0 whether or not it rounds to less than 0. -/
theorem outScalar_uint32_code_of_sat (h : (outScalar 10 rnd k y).sat = true) :
    (outScalar 10 rnd k y).code.toNat = if fpSign y then 0 else 2 ^ 32 - 1 := by
  by_cases hneg : (fpSign y && fpSig y != 0) = true
  · have hs : fpSign y = true := (Bool.and_eq_true_iff.mp hneg).1
    rw [show outScalar 10 rnd k y = { code := 0, sat := true } from if_pos hneg, if_pos hs]
    rfl
  · simp only [outScalar, if_neg hneg] at h ⊢
    refine (congrArg BitVec.toNat (roundInt_code_of_sat h)).trans ?_
    split <;> rfl

theorem outScalar_int_of_isZero (hf : f = 9 ∨ f = 10) (h : fpIsZero y = true) :
    outScalar f rnd k y = { code := 0, sat := false } := by
  obtain rfl | rfl := hf <;> simp [outScalar, fpSig_of_isZero h, roundInt_zero]

theorem ingestElem_int (hf : f = 9 ∨ f = 10) (raw : W64) : ∃ v, ingestElem f raw 0 = .ok v := by
  obtain rfl | rfl := hf <;> exact ⟨_, rfl⟩

/-- Settles O8: an element of a floating-point format is a `BoundedElem`, whose magnitude ingest takes; one of an integer format is
an end of the range where it is bounded. -/
theorem producedElementsAreFinite : Obligations.ProducedElementsAreFinite := by
  intro rnd k y hy
  refine ⟨fun f hf => ?float, fun f sc hf hsc => ?mx, fun f hf => ?int⟩
  case float =>
    have hb := outScalar_bounded (rnd := rnd) (k := k) hf hy
    exact ⟨ingestElem_float hf _ _ ▸ ingestFloat_ok 0 hb.finite, hb.atMax, hb.zero⟩
  case mx =>
    have hscale := scaleCode_ne_nan hsc
    obtain hf | rfl : (f = 6 ∨ f = 7) ∨ f = 8 := or_assoc.mpr hf
    · have hb := outMx_bounded (y := y) (rnd := rnd) (k := k) (sc := sc) hf
      have hbits : (floatFmt f).magBits = 7 := by obtain rfl | rfl := hf <;> rfl
      have hne : f ≠ 8 := by omega
      have hwidth : (outMx f rnd k sc y).code.toNat < 256 := by simpa [hbits] using hb.width
      refine ⟨ingestElem_mxFloat hf hwidth hscale ▸ ingestFloat_ok _ hb.finite, fun _ h => absurd h hne, fun h _ => ?_, fun _ => ?_⟩
      · rw [hb.atMax h, FloatFmt.signed, hbits]
        split <;> simp
      · simpa [hbits] using hb.zero
    · exact ⟨ingestElem_mxInt _ hscale, fun h _ => outMx_int_code_of_sat h, fun _ h => absurd rfl h, fun h => absurd rfl h⟩
  case int =>
    refine ⟨ingestElem_int hf _, ?_, ?_, fun h => ?_⟩
    · rintro rfl
      exact outScalar_int32_code_of_sat
    · rintro rfl
      exact outScalar_uint32_code_of_sat
    · exact outScalar_int_of_isZero hf h ▸ ⟨rfl, rfl⟩

end Sys2Proof.Machine
end

section
/-!
SUPPORT. The canonical tree (R134 to R136): where it splits, and that its value does not depend on the fuel that bounds its depth.
-/
namespace Sys2Proof.Machine

/-! ## The split (R134) -/

/-- The logarithm of `splitAt2`. -/
def splitLog (n : Nat) : Nat := Nat.log2 (n - 1)

theorem splitAt2_eq_two_pow (n : Nat) : splitAt2 n = 2 ^ splitLog n := rfl

/-- The left part is short of the whole. -/
theorem two_pow_splitLog_lt {n : Nat} (h : 2 ≤ n) : 2 ^ splitLog n < n := by
  have hle : 2 ^ splitLog n ≤ n - 1 := Nat.log2_self_le (by omega)
  omega

/-- The left part is at least as long as the right. -/
theorem le_two_pow_splitLog_succ {n : Nat} (h : 2 ≤ n) : n ≤ 2 ^ (splitLog n + 1) := by
  have hlt : n - 1 < 2 ^ (splitLog n + 1) := Nat.lt_log2_self
  omega

theorem splitLog_lt {n m : Nat} (h : 2 ≤ n) (hm : n ≤ 2 ^ m) : splitLog n < m :=
  (Nat.pow_lt_pow_iff_right Nat.one_lt_two).mp (Nat.lt_of_lt_of_le (two_pow_splitLog_lt h) hm)

/-- A tree of at most 2 to the `m + 1` leaves has parts of at most 2 to the `m`. -/
theorem length_parts_le {vs : List TreeVal} {m : Nat} (h : 2 ≤ vs.length) (hm : vs.length ≤ 2 ^ (m + 1)) :
    (vs.take (splitAt2 vs.length)).length ≤ 2 ^ m ∧ (vs.drop (splitAt2 vs.length)).length ≤ 2 ^ m := by
  have hk : 2 ^ splitLog vs.length ≤ 2 ^ m := Nat.pow_le_pow_right Nat.two_pos (Nat.lt_succ_iff.mp (splitLog_lt h hm))
  have hright := le_two_pow_splitLog_succ h
  rw [Nat.pow_succ] at hright
  rw [List.length_take, List.length_drop, splitAt2_eq_two_pow]
  omega

/-! ## The value (R134, R136) -/

theorem treeVal_nil (m : Nat) : treeVal (m + 1) [] = some none := rfl

theorem treeVal_singleton (m : Nat) (v : TreeVal) : treeVal (m + 1) [v] = v := rfl

theorem treeVal_of_two_le {m : Nat} {vs : List TreeVal} (h : 2 ≤ vs.length) : treeVal (m + 1) vs =
    joinVal (treeVal m (vs.take (splitAt2 vs.length))) (treeVal m (vs.drop (splitAt2 vs.length))) := by
  match vs, h with
  | _ :: _ :: _, _ => rfl

/-- One more unit of fuel does not change the value of a tree that the fuel reaches. -/
theorem treeVal_succ_fuel {m : Nat} {vs : List TreeVal} (h : vs.length ≤ 2 ^ m) : treeVal (m + 2) vs = treeVal (m + 1) vs := by
  induction m generalizing vs with
  | zero =>
    match vs, h with
    | [], _ => rfl
    | [_], _ => rfl
  | succ m ih =>
    match vs with
    | [] => rfl
    | [_] => rfl
    | v :: w :: rest =>
      have htwo : 2 ≤ (v :: w :: rest).length := Nat.le_add_left 2 rest.length
      obtain ⟨hleft, hright⟩ := length_parts_le htwo h
      rw [treeVal_of_two_le htwo, treeVal_of_two_le htwo, ih hleft, ih hright]

/-! ## The statement -/

/-- Settles O6: the split is `splitAt2`, and each part of at most 4,096 leaves has the same value with the whole tree's fuel. -/
theorem treeSplitsAtThePowerOfTwoBelow : Obligations.TreeSplitsAtThePowerOfTwoBelow := by
  refine ⟨treeVal_nil 13, treeVal_singleton 13, fun vs htwo hmax => ?split, fun a b => ⟨rfl, rfl, rfl⟩⟩
  case split =>
    refine ⟨splitLog vs.length, two_pow_splitLog_lt htwo, le_two_pow_splitLog_succ htwo, ?_⟩
    obtain ⟨hleft, hright⟩ : (vs.take (splitAt2 vs.length)).length ≤ 2 ^ 12 ∧ (vs.drop (splitAt2 vs.length)).length ≤ 2 ^ 12 :=
      length_parts_le htwo hmax
    calc treeVal treeFuel vs
        = joinVal (treeVal 13 (vs.take (splitAt2 vs.length))) (treeVal 13 (vs.drop (splitAt2 vs.length))) := treeVal_of_two_le htwo
      _ = joinVal (treeVal treeFuel (vs.take (splitAt2 vs.length))) (treeVal treeFuel (vs.drop (splitAt2 vs.length))) := by
        rw [← treeVal_succ_fuel hleft, ← treeVal_succ_fuel hright]
        rfl

end Sys2Proof.Machine
end

section
/-!
SUPPORT. Rank maps (R129 to R132): the checks of RANKMAP_LOAD, and what it changes.
-/
namespace Sys2Proof.Machine

variable {src : CmdSrc} {d : Dev} {c : Cmd} {jb : Job}

/-! ## Checks that all pass -/

theorem checks_go_of_all_pass {l : List (Bool × Nat)} {f : Unit → Dev × Option Reply} (h : ∀ e ∈ l, e.1 = false) (i : Nat) :
    checks.go d f i l = f () := by
  induction l generalizing i with
  | nil => rfl
  | cons e l ih =>
    obtain ⟨hpass, hrest⟩ := List.forall_mem_cons.mp h
    rw [checks.go, hpass]
    exact ih hrest (i + 1)

theorem checks_of_all_pass {l : List (Bool × Nat)} {f : Unit → Dev × Option Reply} (h : ∀ e ∈ l, e.1 = false) : checks d l f = f () :=
  checks_go_of_all_pass h 1

/-! ## RANKMAP_LOAD (R452) -/

/-- The slot a RANKMAP_LOAD names. -/
def loadSlot (c : Cmd) : Nat := field (wordAt c.body 0) 7 0

/-- The map a RANKMAP_LOAD carries. -/
def loadMap (c : Cmd) : RankMap := bodyMap c.job (c.body.drop 1)

/-- The members that the module's own group of a map takes copies from. -/
def ownSources (jb : Job) (m : RankMap) : List Nat := (ownRanks jb m).flatMap rankSources

/-- The map a RANKMAP_LOAD carries passes every check of the command (R129 to R132), and its job's quota has room for it. -/
structure LoadsMap (d : Dev) (c : Cmd) (jb : Job) : Prop where
  operand   : rsvdSet (wordAt c.body 0) [(63, 8)] = false
  sameJob   : ∀ h, SMap.get? d.maps (loadSlot c) = some h → h.job = c.job
  size      : (c.body.drop 1).length = 1 + groupWords (mapGroups (c.body.drop 1)) + mapRanks (c.body.drop 1)
  reserved  : mapRsvd (c.body.drop 1) = false
  nonempty  : 1 ≤ mapRanks (c.body.drop 1)
  ranksMax  : mapRanks (c.body.drop 1) ≤ 4096
  groups    : mapGroups (c.body.drop 1) = jb.q
  grouped   : (loadMap c).nmemb.foldl (· + ·) 0 = mapRanks (c.body.drop 1)
  noBackup  : ∀ e ∈ (loadMap c).ranks, e.bakEn = false → e.bak = 0 ∧ e.prefer = false
  backup    : ∀ e ∈ (loadMap c).ranks, e.bakEn = true → e.pri ≠ e.bak
  attached  : ∀ x ∈ ownSources jb (loadMap c), SMap.has jb.members x = true
  nodup     : (ownSources jb (loadMap c)).Nodup
  unused    : mapUsed d (loadSlot c) = false
  underMax  : SMap.get? d.maps (loadSlot c) = none → (d.maps.filter fun e => e.2.job == c.job).length < 32

/-- A map that passes every check is held under its slot, and the command is done. -/
theorem rankmapLoadCmd_of_loadsMap (hjb : getJob d c.job = some jb) (h : LoadsMap d c jb) :
    rankmapLoadCmd d c = done { d with maps := SMap.set d.maps (loadSlot c) (loadMap c) } := by
  have hauth : (match SMap.get? d.maps (loadSlot c) with | some m => m.job != c.job | none => false) = false := by
    cases hheld : SMap.get? d.maps (loadSlot c) with
    | none => rfl
    | some m => simpa using h.sameJob m hheld
  have hroom : ¬ ((SMap.get? d.maps (loadSlot c)).isNone && 32 ≤ (d.maps.filter fun e => e.2.job == c.job).length) = true := by
    cases hheld : SMap.get? d.maps (loadSlot c) with
    | none => simpa using h.underMax hheld
    | some m => simp
  simp only [rankmapLoadCmd, hjb]
  rw [checks_of_all_pass]
  · exact if_neg hroom
  · have hpos : mapRanks (c.body.drop 1) ≠ 0 := Nat.one_le_iff_ne_zero.mp h.nonempty
    have hprefer : ∀ e ∈ (loadMap c).ranks, e.prefer = true → e.bakEn = true := by
      intro e he hpref
      cases hen : e.bakEn with
      | true => rfl
      | false => exact absurd hpref (Bool.eq_false_iff.mp (h.noBackup e he hen).2)
    simp only [List.forall_mem_cons]
    refine ⟨h.operand, hauth, ?size, h.reserved, ?ranks, ?groups, ?grouped, ?bak, ?prefer, ?twice, ?attached, ?nodup, h.unused, nofun⟩
    case size => simpa using h.size
    case ranks => simpa using And.intro hpos h.ranksMax
    case groups => simpa using h.groups
    case grouped => simpa [loadMap] using h.grouped
    case bak => simpa [loadMap] using fun e he hen => (h.noBackup e he hen).1
    case prefer => simpa [loadMap] using hprefer
    case twice => simpa [loadMap] using h.backup
    case attached => exact List.any_eq_false.mpr fun x hx => by simp [h.attached x hx]
    case nodup => simpa [loadMap, ownSources] using h.nodup

/-- The same map loads on a device on which only what is aside has changed. -/
theorem LoadsMap.of_aside {a : Dev} (hside : Aside src a d) (h : LoadsMap a c jb) : LoadsMap d c jb :=
  { h with
    sameJob := hside.maps ▸ h.sameJob
    unused := by simpa only [mapUsed, hside.ctxs] using h.unused
    underMax := hside.maps ▸ h.underMax }

/-- A write of the rank maps leaves aside what is aside. -/
theorem Aside.setMaps {a b : Dev} (h : Aside src a b) (m : SMap RankMap) : Aside src { a with maps := m } { b with maps := m } where
  rest := by rw [h.rest]
  ports := h.ports
  taken := h.taken

/-! ## The statement -/

/-- Settles O34: every check of the command passes on the device that the shared checks leave, and nothing but the maps changes. -/
theorem rankMapsAreHeld : Obligations.RankMapsAreHeld := by
  intro p s d c jb slot b m own hjb hran hword hmine hsize hrsvd hpos hmax hgroups hsum hnobak hbak hatt hnodup hused hroom
  have hloads : LoadsMap s.dev c jb :=
    { operand := hword, sameJob := hmine, size := hsize, reserved := hrsvd, nonempty := hpos, ranksMax := hmax, groups := hgroups
      grouped := hsum, noBackup := hnobak, backup := hbak, attached := hatt, nodup := hnodup, unused := hused, underMax := hroom }
  have hside : Aside p.src s.dev d := frontEnd_aside _ _ hran.2
  have hjob : getJob d c.job = some jb := by rwa [getJob, hside.jobs]
  refine replies_of rfl hran (rankmapLoadCmd_of_loadsMap hjob (hloads.of_aside hside)) (Nat.zero_le 8) (fun h => ?_) rfl
  rw [h.maps]
  exact h.setMaps _

end Sys2Proof.Machine
end

section
/-!
SUPPORT. Trunk partials, their answers, and context notices (chapters 4, 5 and 15): what the owner does with a partial, what an answer
ends, and what a CTX_FAIL or POISON of another module does.
-/
namespace Sys2Proof.Machine

variable {s : State} {d t : Dev} {k : PktRx}

/-! ## A partial (R142, R146, R147, R374, R379, R133) -/

/-- The context that a partial, or the answer to one, names. -/
abbrev partialCtx (d : Dev) (k : PktRx) : Ctx := getCtx d (partialF k.words).ctx

/-- A partial that has arrived whole is taken, recordings under replay go on, and residues found at its seam act last. -/
theorem gives_partialRx (harr : Arrives 0x60 (partialBad k) k s d) (ht : partialIn d k = t) :
    Gives (.partialRx k none) s (settleLost (replayAll t)) ∧
      ∀ r, Gives (.partialRx k (some r)) s (if residuesDiffer r then
        residueErr (settleLost (replayAll t)) (partialF k.words).ctx (partialF k.words).slab (partialF k.words).pass r.lane (stageCode r.what)
        else settleLost (replayAll t)) := by
  have hgives : ∀ res, Gives (.partialRx k res) s (seamFault (settleLost (replayAll t)) res (partialF k.words).ctx
      (partialF k.words).slab (partialF k.words).pass) := fun res => ht ▸ onArrival_of_arrives harr fun d =>
    seamFault (settleLost (replayAll (partialIn d k))) res (partialF k.words).ctx (partialF k.words).slab (partialF k.words).pass
  exact ⟨hgives none, fun r => hgives (some r)⟩

theorem partialIn_of_not_holder (h : (partialCtx d k).holder ≠ some (pktJob k.words)) :
    partialIn d k = partialAns (bump d ctrClosedSpoil (pktJob k.words)) k stCtxClosed := by simp [partialIn, h]

section
variable (hheld : (partialCtx d k).holder = some (pktJob k.words))
include hheld

theorem partialIn_of_closed (hclosed : ctxClosed (partialCtx d k) = true) :
    partialIn d k = partialAns (bump d ctrClosedSpoil (pktJob k.words)) k
      (staleAnswer (partialCtx d k) (pktJob k.words) (partialF k.words).epoch stCtxClosed) := by
  simp [partialIn, hheld, hclosed]

theorem partialIn_of_other_epoch (hlive : ctxClosed (partialCtx d k) = false)
    (hepoch : (partialF k.words).epoch ≠ (partialCtx d k).epoch) :
    partialIn d k = partialAns (bump d ctrStaleSpoil (pktJob k.words)) k
      (staleAnswer (partialCtx d k) (pktJob k.words) (partialF k.words).epoch stStaleEpoch) := by
  simp [partialIn, hheld, hlive, hepoch]

end

/-- A partial of the context's job and epoch, at a context that is not closed. -/
structure PartialCurrent (d : Dev) (k : PktRx) (e : Env) : Prop where
  held  : (partialCtx d k).holder = some (pktJob k.words)
  live  : ctxClosed (partialCtx d k) = false
  epoch : (partialF k.words).epoch = (partialCtx d k).epoch
  env   : ctxEnv d (partialF k.words).ctx = some e

namespace PartialCurrent
variable {e : Env} (h : PartialCurrent d k e)
include h

theorem partialIn_of_ended (hdone : (partialCtx d k).state = .done) (hstatus : (partialCtx d k).status ≠ 0) :
    partialIn d k = partialAns (bump d (if (partialCtx d k).status = BitVec.ofNat 16 stAborted then ctrAbortSpoil
      else ctrLateSpoil) (partialF k.words).ctx) k (partialCtx d k).status.toNat := by
  simp only [partialIn, h.env]
  rw [if_neg (by simp [h.held]), if_neg (by simp [h.live]), if_neg (by simp [h.epoch]), if_pos (by simpa [hdone] using hstatus)]
  simp only [beq_iff_eq]

/-- A partial at a context that has not ended meets the checks of its place and of its map (R379, R133). -/
theorem partialIn_of_not_ended (hstate : (partialCtx d k).state ≠ .done ∨ (partialCtx d k).status = 0) :
    partialIn d k =
      let f := partialF k.words
      let x := getCtx d f.ctx
      if x.p.npass ≤ f.pass || x.p.nslab ≤ f.slab then
        let cause := if x.p.npass ≤ f.pass then 0x61 else 0x62
        let a := partialAns (bump d ctrShapeSpoil f.ctx) k stMismatch
        if x.state == .opened then
          poisonCtx a f.ctx cause
            { cause := cause, job := jobInfo a (pktJob k.words), ctx := some (f.ctx, x.epoch, f.slab, 0, f.pass, 0), kind := 8, unit := f.ord }
        else a
      else if f.crc != e.m.crc.toNat then
        if x.state == .opened then mapMismatch d k else partialAns (bump d ctrMapMismatch f.ctx) k stMismatch
      else takePartial d e k := by
  have hnotEnded : ¬ ((partialCtx d k).state == .done && (partialCtx d k).status != 0) = true := by
    rcases hstate with hstate | hstate <;> simp [hstate]
  simp only [partialIn, h.env]
  rw [if_neg (by simp [h.held]), if_neg (by simp [h.live]), if_neg (by simp [h.epoch]), if_neg hnotEnded]

theorem partialIn_of_out_of_range {c : Nat} (hopen : (partialCtx d k).state = .opened)
    (hc : (partialCtx d k).p.npass ≤ (partialF k.words).pass ∧ c = 0x61 ∨
      (partialF k.words).pass < (partialCtx d k).p.npass ∧
        (partialCtx d k).p.nslab ≤ (partialF k.words).slab ∧ c = 0x62) :
    partialIn d k =
      let f := partialF k.words
      let a := partialAns (bump d ctrShapeSpoil f.ctx) k stMismatch
      poisonCtx a f.ctx c
        { cause := c, job := jobInfo a (pktJob k.words), ctx := some (f.ctx, (partialCtx d k).epoch, f.slab, 0, f.pass, 0), kind := 8
          unit := f.ord } := by
  rw [h.partialIn_of_not_ended (.inl (by simp [hopen]))]
  rcases hc with ⟨hpass, rfl⟩ | ⟨hpass, hslab, rfl⟩
  · simp [hopen, hpass]
  · simp [hopen, hslab, Nat.not_le.mpr hpass]

section
variable (hpass : (partialF k.words).pass < (partialCtx d k).p.npass)
  (hslab : (partialF k.words).slab < (partialCtx d k).p.nslab)
include hpass hslab

theorem partialIn_of_other_map (hopen : (partialCtx d k).state = .opened) (hcrc : (partialF k.words).crc ≠ e.m.crc.toNat) :
    partialIn d k = mapMismatch d k := by
  rw [h.partialIn_of_not_ended (.inl (by simp [hopen]))]
  simp [hopen, hcrc, Nat.not_le.mpr hpass, Nat.not_le.mpr hslab]

theorem partialIn_of_same_map (hstate : (partialCtx d k).state ≠ .done ∨ (partialCtx d k).status = 0)
    (hcrc : (partialF k.words).crc = e.m.crc.toNat) : partialIn d k = takePartial d e k := by
  rw [h.partialIn_of_not_ended hstate]
  simp [hcrc, Nat.not_le.mpr hpass, Nat.not_le.mpr hslab]

end
end PartialCurrent

/-! ## The answer to a partial (R142, R144, R376) -/

/-- The status of an answer. -/
abbrev answerStatus (k : PktRx) : Nat := field (wordAt k.words 2) 15 0

theorem gives_partialAns (harr : Arrives 0x61 (partialAnsBad k) k s d) (ht : partialAnsIn d k = t) :
    Gives (.partialAns k) s (settleLost (replayAll t)) :=
  ht ▸ onArrival_of_arrives harr fun d => settleLost (replayAll (partialAnsIn d k))

/-- The partial that an answer names, as the context holds it until it is answered. -/
def namedPartial (d : Dev) (k : PktRx) : Option HeldPartial :=
  (getPass (getRed (partialCtx d k) (partialF k.words).slab) (partialF k.words).pass).out

theorem partialAnsIn_of_other (h : (partialCtx d k).holder ≠ some (pktJob k.words) ∨
    (partialCtx d k).epoch ≠ (partialF k.words).epoch ∨ namedPartial d k = none) : partialAnsIn d k = d := by
  rw [namedPartial] at h
  rcases h with h | h | h <;> simp [partialAnsIn, h]

/-- An answer under the context's job and epoch that names a partial not yet answered. -/
structure AnswersPartial (d : Dev) (k : PktRx) : Prop where
  held  : (partialCtx d k).holder = some (pktJob k.words)
  epoch : (partialCtx d k).epoch = (partialF k.words).epoch
  named : (namedPartial d k).isSome = true

namespace AnswersPartial
variable (h : AnswersPartial d k)
include h

/-- What an answer does turns on its status alone. -/
theorem partialAnsIn_eq : partialAnsIn d k =
    let f := partialF k.words
    let status := answerStatus k
    let pos := seamPos d f.ctx f.slab
    if status = stOk then
      spill (ackPasses f.ctx f.slab 3 (dropSpilled (updPass d f.ctx f.slab f.pass fun ps => { ps with out := none, acked := true })
        (pktJob k.words) f.ctx pos (· == .part f.slab f.pass))) f.ctx pos
    else if status = stPassAhead || status = stAccumFull then
      updPass d f.ctx f.slab f.pass fun ps => { ps with out := ps.out.map fun h => { h with refused := true } }
    else bump (updPass d f.ctx f.slab f.pass fun ps => { ps with out := none }) ctrPartialStale f.ctx := by
  have hnamed := Option.isSome_iff_ne_none.mp h.named
  rw [namedPartial] at hnamed
  rw [partialAnsIn, if_neg (by simp [h.held, h.epoch, hnamed])]

theorem partialAnsIn_of_accepted (hst : answerStatus k = stOk) : partialAnsIn d k =
    let f := partialF k.words
    let pos := seamPos d f.ctx f.slab
    spill (ackPasses f.ctx f.slab 3 (dropSpilled (updPass d f.ctx f.slab f.pass fun ps => { ps with out := none, acked := true })
      (pktJob k.words) f.ctx pos (· == .part f.slab f.pass))) f.ctx pos :=
  h.partialAnsIn_eq.trans (if_pos hst)

theorem partialAnsIn_of_refused (hst : answerStatus k = stPassAhead ∨ answerStatus k = stAccumFull) :
    partialAnsIn d k = updPass d (partialF k.words).ctx (partialF k.words).slab (partialF k.words).pass fun ps =>
      { ps with out := ps.out.map fun h => { h with refused := true } } := by
  have hnok : answerStatus k ≠ stOk := by rcases hst with hst | hst <;> rw [hst] <;> decide
  exact h.partialAnsIn_eq.trans ((if_neg hnok).trans (if_pos (by simpa using hst)))

theorem partialAnsIn_of_spoiled (hnok : answerStatus k ≠ stOk) (hahead : answerStatus k ≠ stPassAhead)
    (hfull : answerStatus k ≠ stAccumFull) : partialAnsIn d k =
      bump (updPass d (partialF k.words).ctx (partialF k.words).slab (partialF k.words).pass fun ps => { ps with out := none })
        ctrPartialStale (partialF k.words).ctx :=
  h.partialAnsIn_eq.trans ((if_neg hnok).trans (if_neg (by simp [hahead, hfull])))

end AnswersPartial

/-! ## Notices (R188, R376, R381) -/

/-- The number of the context that a notice names. -/
abbrev noticeCtx (k : PktRx) : Nat := field (wordAt k.words 1) 45 32

/-- The context that a notice names. -/
abbrev noticedCtx (d : Dev) (k : PktRx) : Ctx := getCtx d (noticeCtx k)

theorem gives_ctxFail (harr : Arrives 0x63 (noticeBad k) k s d) : Gives (.ctxFail k) s (noticeIn d k stLate 0x35) :=
  onArrival_of_arrives harr fun d => noticeIn d k stLate 0x35

theorem gives_poison (harr : Arrives 0x64 (noticeBad k) k s d) : Gives (.poison k) s (noticeIn d k stMismatch 0x63) :=
  onArrival_of_arrives harr fun d => noticeIn d k stMismatch 0x63

/-- A notice that names a context its job holds under its epoch, not closed. -/
structure NoticeCurrent (d : Dev) (k : PktRx) : Prop where
  held  : (noticedCtx d k).holder = some (pktJob k.words)
  epoch : (noticedCtx d k).epoch = field (wordAt k.words 1) 63 48
  live  : ctxClosed (noticedCtx d k) = false

section
variable {status cause : Nat}

theorem noticeIn_of_other (h : (noticedCtx d k).holder ≠ some (pktJob k.words) ∨
    (noticedCtx d k).epoch ≠ field (wordAt k.words 1) 63 48 ∨ ctxClosed (noticedCtx d k) = true) :
    noticeIn d k status cause = bump (msgAck d k) ctrStaleSpoil (pktJob k.words) := by
  rcases h with h | h | h <;> simp [noticeIn, h]

/-- A notice that names a current context is acknowledged, and acts on the context. -/
theorem NoticeCurrent.noticeIn_eq (h : NoticeCurrent d k) : noticeIn d k status cause =
    if (noticedCtx d k).state == .opened then failCtx (msgAck d k) (noticeCtx k) status cause none
    else if cause = 0x63 && (noticedCtx d k).status == BitVec.ofNat 16 stMismatch then bump (msgAck d k) ctrTrapSuppressed 0
    else msgAck d k := by
  obtain ⟨hheld, hepoch, hlive⟩ := h
  rw [noticeIn, if_neg (by simp [hheld, hepoch, hlive])]

/-- What a notice of either kind gives: only a POISON, told by its cause, is counted at a context poisoned already (R379). -/
theorem gives_notice {i : Instr} {poison : Prop} [Decidable poison] (hgives : Gives i s (noticeIn d k status cause))
    (hkind : cause = 0x63 ↔ poison) :
    ((noticedCtx d k).holder = some (pktJob k.words) → (noticedCtx d k).epoch = field (wordAt k.words 1) 63 48 →
      ctxClosed (noticedCtx d k) = false →
        ((noticedCtx d k).state = .opened → Gives i s (failCtx (msgAck d k) (noticeCtx k) status cause none)) ∧
        ((noticedCtx d k).state ≠ .opened → Gives i s
          (if poison ∧ (noticedCtx d k).status = BitVec.ofNat 16 stMismatch then bump (msgAck d k) ctrTrapSuppressed 0
            else msgAck d k))) ∧
    ((noticedCtx d k).holder ≠ some (pktJob k.words) ∨ (noticedCtx d k).epoch ≠ field (wordAt k.words 1) 63 48 ∨
      ctxClosed (noticedCtx d k) = true → Gives i s (bump (msgAck d k) ctrStaleSpoil (pktJob k.words))) := by
  refine ⟨fun hheld hepoch hlive => ?current, fun hother => noticeIn_of_other hother ▸ hgives⟩
  case current =>
    rw [NoticeCurrent.noticeIn_eq ⟨hheld, hepoch, hlive⟩] at hgives
    refine ⟨fun hopen => ?_, fun hnot => ?_⟩
    · simpa [hopen] using hgives
    · simpa [hnot, hkind] using hgives

end

/-! ## The statement -/

/-- Settles O45: a partial meets the owner's checks in their order, an answer acts by its status, what is resent is `resendPartials`, and
either notice is `noticeIn`, which tells them apart by their cause. -/
theorem partialsAnswersAndNotices : Obligations.PartialsAnswersAndNotices := by
  refine ⟨fun s k d harr => ?partials, fun s k d harr => ?answers, fun s => ⟨rfl, rfl⟩, fun s k d r hr => ?notices⟩
  case partials =>
    intro f j x gives
    refine ⟨fun hnot => gives_partialRx harr (partialIn_of_not_holder hnot), fun hheld =>
      ⟨fun hclosed => gives_partialRx harr (partialIn_of_closed hheld hclosed), fun hlive =>
      ⟨fun hepoch => gives_partialRx harr (partialIn_of_other_epoch hheld hlive hepoch), fun hepoch e henv => ?_⟩⟩⟩
    have hnow : PartialCurrent d k e := ⟨hheld, hlive, hepoch, henv⟩
    exact ⟨fun hdone hstatus => gives_partialRx harr (hnow.partialIn_of_ended hdone hstatus),
      fun hopen => ⟨fun c hc => gives_partialRx harr (hnow.partialIn_of_out_of_range hopen hc),
        fun hpass hslab hcrc => gives_partialRx harr (hnow.partialIn_of_other_map hpass hslab hopen hcrc)⟩,
      fun hstate hpass hslab hcrc => gives_partialRx harr (hnow.partialIn_of_same_map hpass hslab hstate hcrc)⟩
  case answers =>
    intro f status x out gives
    refine ⟨fun hother => gives_partialAns harr (partialAnsIn_of_other hother), fun hheld hepoch h hout => ?_⟩
    have hans : AnswersPartial d k := ⟨hheld, hepoch, Option.isSome_iff_exists.mpr ⟨h, hout⟩⟩
    exact ⟨fun hst => gives_partialAns harr (hans.partialAnsIn_of_accepted hst),
      fun hst => gives_partialAns harr (hans.partialAnsIn_of_refused hst),
      fun hnok hahead hfull => gives_partialAns harr (hans.partialAnsIn_of_spoiled hnok hahead hfull)⟩
  case notices =>
    rcases List.mem_cons.mp hr with rfl | hr
    · exact fun harr => gives_notice (gives_ctxFail harr) (by simp)
    · obtain rfl := List.mem_singleton.mp hr
      exact fun harr => gives_notice (gives_poison harr) (by simp)

end Sys2Proof.Machine
end

section
/-!
SUPPORT. Drains, the clocks of a slab's passes, kept copies, refills and samples (chapter 5): what the rows of a context do in each case of
R59, R154, R180, R186 to R189, R192 and R195.
-/
namespace Sys2Proof.Machine

variable {s : State} {d t : Dev} {c b p : Nat}

theorem onUnit_of_not_ok {ok : Bool} (h : ok = false) (s : State) (f : Dev → Dev) : onUnit ok s f = .fault .noSuchUnit := by
  rw [h, onUnit_false]

/-- A slab of a context, as its seam holds it. -/
abbrev slabIn (d : Dev) (c b : Nat) : SlabRed := getRed (getCtx d c) b

/-- A row gives one device. -/
theorem gives_inj {i : Instr} {d t : Dev} (hd : Gives i s d) (ht : Gives i s t) : d = t := by
  have h : (Host.Outcome.next { s with dev := d } : Host.Outcome State Fault Refusal) = .next { s with dev := t } := hd.symm.trans ht
  injection h with h
  exact congrArg State.dev h

/-! ## Drains (R59) -/

theorem gives_drainComplete (hc : c < 16384) (ht : drainComplete s.dev c = t) : Gives (.drainComplete c) s (poolsSettle (flushAll t)) :=
  ht ▸ onUnit_of_ok (by simpa using hc) s fun d => poolsSettle (flushAll (drainComplete d c))

section
variable {j : Nat} (hheld : (getCtx d c).holder = some j)
include hheld

theorem drainComplete_of_open (h : (getCtx d c).drain = .open_) : drainComplete d c = openNow d j c := by simp [drainComplete, hheld, h]

theorem drainComplete_of_releaseKeep (h : (getCtx d c).drain = .releaseKeep) : drainComplete d c = releaseNow d j c false := by
  simp [drainComplete, hheld, h]

theorem drainComplete_of_releaseFree (h : (getCtx d c).drain = .releaseFree) : drainComplete d c = releaseNow d j c true := by
  simp [drainComplete, hheld, h]

end

/-! ## The slot clock (R187, R189) -/

/-- Residues found at the seam that fills a slot act after what the clock does. -/
theorem gives_slotClockExpiry (residue : Option Residues) (hc : c < 16384) (ht : slotExpiry s.dev c b p = t) :
    Gives (.slotClockExpiry c b ⟨p, residue⟩) s (seamFault (settleLost (replayAll t)) residue c b p) :=
  ht ▸ onUnit_of_ok (by simpa using hc) s fun d => seamFault (settleLost (replayAll (slotExpiry d c b p))) residue c b p

/-- The clock is off. -/
def slotClockOff (d : Dev) (c b p : Nat) : Dev := updPass d c b p fun ps => { ps with slotClock := none }

/-- Slots of the module's own group that are not filled and that no backup copy can fill. -/
def emptySlots (e : Env) (red : SlabRed) (p : Nat) : List Nat :=
  (rangeFrom (ownBase e) (ownSize e)).filter fun r => (getSlot red p r).filled.isNone && (getSlot red p r).heldBak.isNone

section
variable {e : Env} {since : Nat} (henv : ctxEnv d c = some e) (hclock : (getPass (slabIn d c b) p).slotClock = some since)
  (hover : since + (getCtx d c).p.holdUs ≤ d.nowUs)
include henv hclock hover

theorem slotExpiry_of_late (hdone : (getCtx d c).state = .done) (hlate : (getCtx d c).lateTrap = true) :
    slotExpiry d c b p = bump (slotClockOff d c b p) ctrTrapSuppressed 0 := by
  simp only [slotExpiry, henv, hclock]
  rw [if_neg (Nat.not_lt.mpr hover), if_pos (by simp [hdone, hlate]), lateAgain, slotClockOff]

section
variable (hopen : (getCtx d c).state = .opened) (hlow : (slabIn d c b).low ≤ p)
include hopen hlow

/-- What the clock does turns on the lowest slot that stays empty (R187). -/
theorem slotExpiry_of_opened :
    slotExpiry d c b p =
      let a := fillHeld (slotClockOff d c b p) e c b p
      (emptySlots e (slabIn d c b) p).head?.elim (spill a c (seamPos a c b)) fun r =>
        lateCtx (slotClockOff a c b p) e c 0x30
          { cause := 0x30, job := jobInfo a e.j, ctx := some (c, (getCtx d c).epoch, b, 0, p, r), kind := 2, unit := seamUnit a c b } := by
  simp only [slotExpiry, henv, hclock]
  rw [if_neg (Nat.not_lt.mpr hover), if_neg (by simp [hopen]), if_neg (by simpa [hopen] using hlow)]
  rw [emptySlots]
  split
  next r hr => rw [hr, Option.elim_some, slotClockOff, slotClockOff]
  next hnone => rw [hnone, Option.elim_none, slotClockOff]

theorem slotExpiry_of_all_filled (hempty : emptySlots e (slabIn d c b) p = []) :
    slotExpiry d c b p =
      let a := fillHeld (slotClockOff d c b p) e c b p
      spill a c (seamPos a c b) := by
  rw [slotExpiry_of_opened henv hclock hover hopen hlow, hempty, List.head?_nil, Option.elim_none]

theorem slotExpiry_of_empty {r : Nat} {l : List Nat} (hempty : emptySlots e (slabIn d c b) p = r :: l) :
    slotExpiry d c b p =
      let a := fillHeld (slotClockOff d c b p) e c b p
      lateCtx (slotClockOff a c b p) e c 0x30
        { cause := 0x30, job := jobInfo a e.j, ctx := some (c, (getCtx d c).epoch, b, 0, p, r), kind := 2, unit := seamUnit a c b } := by
  rw [slotExpiry_of_opened henv hclock hover hopen hlow, hempty, List.head?_cons, Option.elim_some]

end
end

/-! ## The partial clock (R186, R187, R189) -/

theorem gives_partialClockExpiry (hc : c < 16384) (ht : partialExpiry s.dev c b p = t) : Gives (.partialClockExpiry c b p) s t :=
  ht ▸ onUnit_of_ok (by simpa using hc) s fun d => partialExpiry d c b p

/-- The clock is off. -/
def partClockOff (d : Dev) (c b p : Nat) : Dev := updPass d c b p fun ps => { ps with partClock := none }

/-- The lowest module of the map whose group has not come. -/
def missingGroup (e : Env) (red : SlabRed) (p : Nat) : Option Nat :=
  (List.range e.jb.q).find? fun q => groupSize e.m q != 0 && !SMap.has (getPass red p).groups q

section
variable {e : Env} {since : Nat} (henv : ctxEnv d c = some e) (hclock : (getPass (slabIn d c b) p).partClock = some since)
  (hover : since + 2 * (getCtx d c).p.holdUs ≤ d.nowUs)
include henv hclock hover

theorem partialExpiry_of_late (hdone : (getCtx d c).state = .done) (hlate : (getCtx d c).lateTrap = true) :
    partialExpiry d c b p = bump (partClockOff d c b p) ctrTrapSuppressed 0 := by
  simp only [partialExpiry, henv, hclock]
  rw [if_neg (Nat.not_lt.mpr hover), if_pos (by simp [hdone, hlate]), lateAgain, partClockOff]

theorem partialExpiry_of_missing {q : Nat} (hopen : (getCtx d c).state = .opened) (hlow : (slabIn d c b).low ≤ p)
    (hmiss : missingGroup e (slabIn d c b) p = some q) :
    partialExpiry d c b p = lateCtx (partClockOff d c b p) e c 0x31
      { cause := 0x31, job := jobInfo d e.j, ctx := some (c, (getCtx d c).epoch, b, 0, p, 0), kind := 8, unit := q } := by
  rw [missingGroup] at hmiss
  simp only [partialExpiry, henv, hclock]
  rw [if_neg (Nat.not_lt.mpr hover), if_neg (by simp [hopen]), if_neg (by simpa [hopen] using hlow)]
  simp only [hmiss, partClockOff]

end

/-! ## Kept copies and refills (R154, R180) -/

theorem gives_keptCopyExpiry {j r : Nat} (hc : c < 16384) (hheld : (getCtx s.dev c).holder = some j)
    (hkept : (getSlot (slabIn s.dev c b) p r).kept ≠ none)
    (hover : (getSlot (slabIn s.dev c b) p r).keptAt + (getCtx s.dev c).p.holdUs < s.dev.nowUs) :
    let pos := seamPos s.dev c b
    Gives (.keptCopyExpiry c b p r) s
      (spill (bump (updSlot (dropSpilled s.dev j c pos (· == .kept b p r)) c b p r fun s => { s with kept := none }) ctrFillUnverified c)
        c pos) := by
  have hgives : Gives (.keptCopyExpiry c b p r) s _ := onUnit_of_ok (by simpa using hc) s _
  have hdue : ((getSlot (slabIn s.dev c b) p r).kept.isSome &&
      decide ((getSlot (slabIn s.dev c b) p r).keptAt + (getCtx s.dev c).p.holdUs < s.dev.nowUs)) = true := by
    simpa [Option.isSome_iff_ne_none, hover] using hkept
  simpa only [if_pos hdue, hheld] using hgives

section
variable (hc : c < 16384) (hp : p < 128)
include hc hp

theorem gives_refill_of_live (h : posRetiring s.dev p = false) : Gives (.refill c p) s (settleLost (replayAll (refill s.dev c p))) := by
  have hgives : Gives (.refill c p) s _ := onUnit_of_ok (by simp [hc, hp]) s _
  simpa only [h, Bool.false_eq_true, if_false] using hgives

theorem gives_refill_of_retiring (h : posRetiring s.dev p = true) : Gives (.refill c p) s s.dev := by
  have hgives : Gives (.refill c p) s _ := onUnit_of_ok (by simp [hc, hp]) s _
  simpa only [if_pos h] using hgives

end

/-! ## Residues (R190) -/

theorem residuesDiffer_eq_false_iff {r : Residues} : residuesDiffer r = false ↔ r.pred3 % 3 = r.got3 % 3 ∧ r.pred7 % 7 = r.got7 % 7 := by
  simp [residuesDiffer]

theorem checkResidue_of_differ {chk : Nat} {r : Residues} (h : residuesDiffer r = true) : checkResidue d chk r =
    retireSeam (raiseTrap (bump d ctrResidueErr chk)
      { cause := 0x32, kind := 2, unit := chk, details := [0xFF, BitVec.ofNat 64 r.lane, BitVec.ofNat 64 (stageCode r.what)] }) chk :=
  if_pos h

theorem checkResidue_of_agree {chk : Nat} {r : Residues} (h : residuesDiffer r = false) : checkResidue d chk r = d :=
  if_neg (by simp [h])

/-! ## Samples (R192, R195, R199) -/

theorem gives_sampleComplete {how : SampleEnd} (hc : c < 16384) (ht : sampleDone s.dev c b how = t) :
    Gives (.sampleComplete c b how) s (poolsSettle t) :=
  ht ▸ onUnit_of_ok (by simpa using hc) s fun d => poolsSettle (sampleDone d c b how)

/-- The slab's residue mismatch is behind it. -/
def residForgotten (d : Dev) (c b : Nat) : Dev := updCtx d c fun x => { x with resid := SMap.del x.resid b }

/-- How the sample of a slab has ended. -/
def sampleSet (d : Dev) (c b : Nat) (r : SampleState) : Dev := updRed d c b fun s => { s with sample := r }

section
variable {act chk : Nat} (hresid : SMap.get? (getCtx d c).resid b = some act) (hpend : (slabIn d c b).sample = .pending chk)
include hresid hpend

theorem sampleDone_agreed_after_residue :
    sampleDone d c b .agreed = bump (sampleSet (residForgotten d c b) c b .agreed) ctrSampled (seamPos d c b) := by
  simp [sampleDone, hresid, sampleAfter, hpend, sampleSet, residForgotten]

/-- A difference traps no more, and is counted all the same (R199, Table 5-3). -/
theorem sampleDone_differed_after_residue (v q lane : Nat) :
    sampleDone d c b (.differed v q lane) =
      bump (bump (bump (sampleSet (residForgotten d c b) c b .differed) ctrTrapSuppressed 0) ctrSampled (seamPos d c b)) ctrSampleErr act := by
  simp [sampleDone, hresid, sampleAfter, hpend, sampleSet, residForgotten]

end

section
variable {e : Env} {chk : Nat} (henv : ctxEnv d c = some e) (hpend : (slabIn d c b).sample = .pending chk)
  (hresid : SMap.get? (getCtx d c).resid b = none)
include henv hpend hresid

theorem sampleDone_agreed (hwhole : sampleWhole e (getCtx d c) b = true) :
    sampleDone d c b .agreed = bump (sampleSet d c b .agreed) ctrSampled (seamPos d c b) := by
  simp [sampleDone, hresid, henv, hpend, hwhole, sampleSet]

theorem sampleDone_differed {v q lane : Nat} (hformed : sampleFormed e (getCtx d c) b v q = true) :
    sampleDone d c b (.differed v q lane) = sampleDiffer d c b chk v q lane := by simp [sampleDone, hresid, henv, hpend, hformed]

theorem sampleDone_residue (r : Residues) : sampleDone d c b (.residue r) = checkResidue d chk r := by
  simp [sampleDone, hresid, henv, hpend]

end

/-- The trap that a sample's difference raises (log 83). -/
def sampleTrap (d : Dev) (c b chk v q lane j : Nat) : TrapInfo :=
  { cause := 0x33, job := some (j, (getCtx d c).step % 2 ^ 48, (getCtx d c).attempt), ctx := some (c, (getCtx d c).epoch, b, lane, q, 0)
    kind := 2, unit := seamUnit d c b, details := [BitVec.ofNat 64 chk, BitVec.ofNat 64 v] }

/-- A difference in a context that a job holds: counted, trapped, both seams tested, the job's step marked. -/
theorem sampleDiffer_of_holder {chk v q lane j : Nat} (hheld : (getCtx d c).holder = some j) :
    sampleDiffer d c b chk v q lane =
      let act := seamUnit d c b
      let t := raiseTrap (bump (bump (sampleSet d c b .differed) ctrSampled (seamPos d c b)) ctrSampleErr act) (sampleTrap d c b chk v q lane j)
      markJob { t with spare := { t.spare with tests := t.spare.tests ++ [(act, chk, t.nowUs)] } } j 0x33 := by
  simp only [sampleDiffer, hheld, Option.map_some, sampleSet, sampleTrap]

/-! ## The statement -/

/-- Settles O46: each row acts on a context that exists, and what it does is the lemma of its case above; a slot clock's residues add
`seamFault` to what the clock did. -/
theorem contextClocksAndSamplesAct : Obligations.ContextClocksAndSamplesAct := by
  intro s c b p r hc d x red
  refine ⟨fun j hheld => ?drains, fun e t henv => ⟨fun hopen hlow => ⟨fun hclock hover => ?slotClock, fun hclock hover q hmiss => ?partialClock⟩,
      fun hdone hlate => ⟨fun hclock hover => ?slotAgain, fun hclock hover => ?partialAgain⟩⟩,
    fun t r hnone => ?residues, fun j hheld hkept hover => gives_keptCopyExpiry hc hheld hkept hover,
    fun hp => gives_refill_of_live hc hp, fun hp => gives_refill_of_retiring hc hp, fun act chk hresid hpend => ?afterResidue,
    fun e j chk henv hheld hpend hresid => ?sample, fun r => residuesDiffer_eq_false_iff, ?noContext⟩
  case drains =>
    exact ⟨fun h => gives_drainComplete hc (drainComplete_of_open hheld h),
      fun h => gives_drainComplete hc (drainComplete_of_releaseKeep hheld h),
      fun h => gives_drainComplete hc (drainComplete_of_releaseFree hheld h)⟩
  case slotClock =>
    exact ⟨fun hempty => gives_slotClockExpiry none hc (slotExpiry_of_all_filled henv hclock hover hopen hlow hempty),
      fun r l hempty => gives_slotClockExpiry none hc (slotExpiry_of_empty henv hclock hover hopen hlow hempty)⟩
  case partialClock => exact gives_partialClockExpiry hc (partialExpiry_of_missing henv hclock hover hopen hlow hmiss)
  case slotAgain => exact gives_slotClockExpiry none hc (slotExpiry_of_late henv hclock hover hdone hlate)
  case partialAgain => exact gives_partialClockExpiry hc (partialExpiry_of_late henv hclock hover hdone hlate)
  case residues =>
    have ht : settleLost (replayAll (slotExpiry d c b p)) = t := gives_inj (gives_slotClockExpiry none hc rfl) hnone
    rw [← ht]
    exact gives_slotClockExpiry (some r) hc rfl
  case afterResidue =>
    exact ⟨gives_sampleComplete hc (sampleDone_agreed_after_residue hresid hpend),
      fun v q lane => gives_sampleComplete hc (sampleDone_differed_after_residue hresid hpend v q lane)⟩
  case sample =>
    refine ⟨fun hwhole => ?_, fun v q lane hformed => ?_, fun r hdiffer => ?_, fun r hagree => ?_⟩
    · exact gives_sampleComplete hc (sampleDone_agreed henv hpend hresid hwhole)
    · exact gives_sampleComplete hc ((sampleDone_differed henv hpend hresid hformed).trans (sampleDiffer_of_holder hheld))
    · exact gives_sampleComplete hc ((sampleDone_residue henv hpend hresid r).trans (checkResidue_of_differ hdiffer))
    · exact gives_sampleComplete hc ((sampleDone_residue henv hpend hresid r).trans (checkResidue_of_agree hagree))
  case noContext =>
    intro c' hc' i hi
    simp only [List.mem_cons, List.not_mem_nil, or_false] at hi
    rcases hi with rfl | rfl | rfl | rfl | rfl | rfl <;> exact onUnit_of_not_ok (by simp [Nat.not_lt.mpr hc']) s _

end Sys2Proof.Machine
end

section
/-!
SUPPORT. Acceptance of an open (R218, R329, R368): what it leaves in the context and in its job, and that it reaches no other job and
no other context.
-/
namespace Sys2Proof.Machine

variable {d : Dev} {j n : Nat} {q : CtxParams} {b : List W64} {jb : Job}

/-! ## Reads of a context -/

theorem getCtx_updCtx_same (d : Dev) (n : Nat) (f : Ctx → Ctx) : getCtx (updCtx d n f) n = f (getCtx d n) := getCtx_setCtx_same d n _

theorem getCtx_updCtx_other (d : Dev) {n m : Nat} (f : Ctx → Ctx) (h : n ≠ m) : getCtx (updCtx d n f) m = getCtx d m :=
  getCtx_setCtx_other d _ h

/-- The uses left behind are named by numbers that no context has. -/
theorem getCtx_withLeft {m : Nat} (hm : m < 16384) (l : SMap Ctx) : getCtx { d with left := l } m = getCtx d m := by simp [getCtx, hm]

/-! ## The completed use (R68, R307) -/

/-- What leaves a context goes to the uses left behind, and nothing else changes. -/
theorem leaveCtx_eq_withLeft (d : Dev) (n : Nat) : ∃ l, leaveCtx d n = { d with left := l } := by
  unfold leaveCtx
  dsimp only
  split
  · exact ⟨d.left, rfl⟩
  · split
    · exact ⟨_, rfl⟩
    · exact ⟨d.left, rfl⟩

@[simp] theorem leaveCtx_jobs (d : Dev) (n : Nat) : (leaveCtx d n).jobs = d.jobs := by
  obtain ⟨l, hl⟩ := leaveCtx_eq_withLeft d n
  rw [hl]

theorem getCtx_leaveCtx {m : Nat} (hm : m < 16384) (n : Nat) : getCtx (leaveCtx d n) m = getCtx d m := by
  obtain ⟨l, hl⟩ := leaveCtx_eq_withLeft d n
  rw [hl, getCtx_withLeft hm]

/-! ## Acceptance -/

/-- A context that was `x` when its open was accepted: job `j` holds it, and it drains. -/
def acceptedCtx (d : Dev) (j : Nat) (q : CtxParams) (b : List W64) (x : Ctx) : Ctx :=
  { closeCopies x .open_ with holder := some j, state := .draining, lastKnown := true, next := q, resWin := q.accumWin
                              resSlabs := q.nslab, resLost := lostPositions d, body := b, abortAtOpen := false }

/-- The job with the buckets of an open added to those of its step (R234). -/
def addBucket (q : CtxParams) (jb : Job) : Job := { jb with buckets := jb.buckets ++ [(q.region, q.first, q.nslab)] }

section
variable (hjb : getJob d j = some jb)
include hjb

theorem acceptOpen_of_getJob : acceptOpen d j n q b =
    bump (updJob (updCtx (leaveCtx d n) n (acceptedCtx d j q b)) j (addBucket q)) ctrCtxOpens j := by
  rw [acceptOpen, hjb]
  rfl

theorem getCtx_acceptOpen_same (hn : n < 16384) : getCtx (acceptOpen d j n q b) n = acceptedCtx d j q b (getCtx d n) := by
  rw [acceptOpen_of_getJob hjb]
  calc getCtx (updCtx (leaveCtx d n) n (acceptedCtx d j q b)) n
      = acceptedCtx d j q b (getCtx (leaveCtx d n) n) := getCtx_updCtx_same _ n _
    _ = acceptedCtx d j q b (getCtx d n) := by rw [getCtx_leaveCtx hn]

theorem getCtx_acceptOpen_other {m : Nat} (hm : m < 16384) (hne : n ≠ m) : getCtx (acceptOpen d j n q b) m = getCtx d m := by
  rw [acceptOpen_of_getJob hjb]
  exact (getCtx_updCtx_other _ _ hne).trans (getCtx_leaveCtx hm n)

theorem acceptOpen_jobs : (acceptOpen d j n q b).jobs = SMap.upd d.jobs j (addBucket q) := by
  simp [acceptOpen_of_getJob hjb, updJob, updCtx]

theorem getJob_acceptOpen_same : getJob (acceptOpen d j n q b) j = some (addBucket q jb) := by
  rw [getJob] at hjb ⊢
  rw [acceptOpen_jobs hjb, SMap.get?_upd, if_pos rfl, hjb, Option.map_some]

theorem getJob_acceptOpen_other {k : Nat} (hne : j ≠ k) : getJob (acceptOpen d j n q b) k = getJob d k := by
  rw [getJob, acceptOpen_jobs hjb, SMap.get?_upd, if_neg hne, getJob]

end

/-! ## The statement -/

/-- Settles O40: the context is the accepted one, its job has one bucket more, and every other context and job is read as before. -/
theorem acceptedOpenHoldsTheContext : Obligations.AcceptedOpenHoldsTheContext := by
  intro d j n q b jb hjb hn x t
  have hctx : getCtx t n = acceptedCtx d j q b x := getCtx_acceptOpen_same hjb hn
  have hprev : (acceptedCtx d j q b x).prevStatus = if x.state = .done then x.status else 0 := by simp [acceptedCtx, closeCopies]
  rw [hctx]
  exact ⟨rfl, rfl, rfl, rfl, rfl, hprev, rfl, rfl, rfl, rfl, ⟨addBucket q jb, getJob_acceptOpen_same hjb, rfl, rfl, rfl, rfl⟩,
    fun _ hk => getJob_acceptOpen_other hjb hk.symm, fun _ hm hne => getCtx_acceptOpen_other hjb hm hne.symm⟩

end Sys2Proof.Machine
end

section
/-!
SUPPORT. The norm exchange (R67, R68, R214 to R217): when a module forms its partial, which partials it takes, and when the updates of
sealed mode begin.
-/
namespace Sys2Proof.Machine

variable {s : State} {d : Dev} {k : PktRx} {j : Nat} {jb : Job}

theorem updNorm_of_getJob (hjb : getJob d j = some jb) (f : NormSt → NormSt) : updNorm d j f = setJob d j { jb with norm := f jb.norm } :=
  updJob_of_getJob hjb _

/-! ## The module's own partial (R214, R215) -/

/-- The partial of the module: the tree over the norms of its slabs of the norm set, NONE for an empty set (R214). -/
def ownPartial (d : Dev) (j : Nat) (jb : Job) : Option F64 :=
  treeOf ((normSet d j jb).map fun x => (getRegion jb x.1).map fun r => (getSlab r x.2).norm)

/-- The tree over any list of the set's norms is the module's partial. -/
theorem treeOf_normSet {f : Nat × Nat → Option F64} (h : ∀ x, f x = (getRegion jb x.1).map fun r => (getSlab r x.2).norm) :
    treeOf ((normSet d j jb).map f) = ownPartial d j jb := by
  rw [ownPartial, funext h]

/-- The module holds its own partial `h`, and forms no other. -/
def formedNorm (d : Dev) (j : Nat) (jb : Job) (h : Option F64) : Dev :=
  setJob d j { jb with norm := { jb.norm with formed := true, parts := SMap.set jb.norm.parts jb.ordinal h } }

/-- A NORM_PARTIAL with partial `h` goes to ordinal `q` (Table 15-17). -/
def sendPartial (j : Nat) (jb : Job) (h : Option F64) (d : Dev) (q : Nat) : Dev :=
  sendHeld (nextMsg d j).2 j 0x62 6 q [(nextMsg d j).1]
    (mkPacket 0x62 j [stepWord jb.stepCur jb.attempt, mkWord [((nextMsg d j).1, 32), (jb.ordinal, 16), (bit h.isNone, 0)], h.getD 0])

/-- The partial is formed, and has gone to every other module of the job. -/
def exchangedNorm (d : Dev) (j : Nat) (jb : Job) (h : Option F64) : Dev :=
  forEach (otherOrds jb) (formedNorm d j jb h) (sendPartial j jb h)

/-- A partial is due: a seal is requested, nothing ends the step, every bucket is complete, and the step has a norm. -/
structure NormDue (d : Dev) (j : Nat) (jb : Job) : Prop where
  first     : jb.norm.formed = false
  requested : jb.sealSt.requested = true
  running   : jb.stopped = false
  alive     : jb.sealSt.state ≠ .aborting
  complete  : ctxsComplete d j jb = true
  wanted    : (stepCtxs d j jb).any (fun e => sealedCtx jb e.2) = true ∨ jb.norm.parts ≠ []

theorem gives_formNormPartial (hj : j < 64) : Gives (.formNormPartial j) s (formNorm s.dev j) :=
  onUnit_of_ok (by simpa using hj) s fun d => formNorm d j

theorem formNorm_of_not_due (hjb : getJob d j = some jb)
    (h : jb.norm.formed = true ∨ jb.sealSt.requested = false ∨ ctxsComplete d j jb = false) : formNorm d j = d := by
  rcases h with h | h | h <;> simp [formNorm, hjb, h]

theorem formNorm_of_due (hjb : getJob d j = some jb) (h : NormDue d j jb) : formNorm d j =
    let p := ownPartial d j jb
    normEval (if p.all fpFinite then exchangedNorm d j jb p else normOverflow (exchangedNorm d j jb p) j) j := by
  have hwanted : ((stepCtxs d j jb).any (fun e => sealedCtx jb e.2) || !jb.norm.parts.isEmpty) = true := by simpa using h.wanted
  simp only [formNorm, hjb, updNorm_of_getJob hjb]
  rw [if_neg (by simp [h.first, h.requested, h.running, h.alive, h.complete, hwanted]), treeOf_normSet]
  · generalize ownPartial d j jb = p
    cases p <;> rfl
  · exact fun x => by cases getRegion jb x.1 <;> rfl

/-! ## Sealed updates (R67, R68) -/

theorem gives_sealedUpdateBegin (hj : j < 64) : Gives (.sealedUpdateBegin j) s (beginSealed s.dev j) :=
  onUnit_of_ok (by simpa using hj) s fun d => beginSealed d j

theorem beginSealed_of_unknown (hjb : getJob d j = some jb) (h : jb.norm.known = none) : beginSealed d j = d := by
  simp [beginSealed, hjb, h]

/-- The norm is known, nothing stops the updates, and the step has slabs of sealed mode. -/
structure SealedDue (d : Dev) (j : Nat) (jb : Job) : Prop where
  known     : jb.norm.known ≠ none
  finite    : jb.norm.bad = false
  updating  : jb.updStop = false
  opened    : jb.sealSt.state = .opened
  running   : jb.stopped = false
  complete  : ctxsComplete d j jb = true
  anySealed : (stepCtxs d j jb).any (fun e => sealedCtx jb e.2) = true

theorem beginSealed_of_due (hjb : getJob d j = some jb) (h : SealedDue d j jb) :
    beginSealed d j = setJob d j { jb with sealedRun := true } := by
  have hknown : jb.norm.known.isSome = true := Option.isSome_iff_ne_none.mpr h.known
  simp only [beginSealed, hjb]
  rw [if_pos (by simp [hknown, h.finite, h.updating, h.opened, h.running, h.complete, h.anySealed]), updJob_of_getJob hjb]

/-! ## Partials of other modules (R215, R217, R344) -/

/-- The ordinal that a norm partial comes from. -/
abbrev partialOrd (k : PktRx) : Nat := field (wordAt k.words 2) 24 16

/-- The partial that a packet carries: NONE is flagged. -/
def carriedPartial (k : PktRx) : Option F64 := if flag (wordAt k.words 2) 0 then none else some (wordAt k.words 3)

theorem gives_normPartial (h : Arrives 0x62 (normBad k) k s d) : Gives (.normPartial k) s (msgIn d k) :=
  onArrival_of_arrives h fun d => msgIn d k

section
variable (hjb : getJob d j = some jb)
include hjb

theorem takeNorm_of_first (h : SMap.has jb.norm.parts (partialOrd k) = false) : takeNorm d j k.words =
    normEval (setJob d j { jb with norm := { jb.norm with parts := SMap.set jb.norm.parts (partialOrd k) (carriedPartial k) } }) j := by
  simp [takeNorm, hjb, h, updNorm_of_getJob hjb, carriedPartial]

theorem takeNorm_of_repeat (h : SMap.has jb.norm.parts (partialOrd k) = true) : takeNorm d j k.words = d := by
  simp [takeNorm, hjb, h]

end

/-- A norm partial of the step and attempt in progress is acknowledged and taken; then what waited for it is. -/
theorem msgIn_of_now (htype : pktType k.words = 0x62) (hjb : getJob (msgAck d k) (pktJob k.words) = some jb)
    (hnow : msgAge jb (field (wordAt k.words 1) 47 0) (field (wordAt k.words 1) 55 48) = .now) :
    msgIn d k = flushJob (takeNorm (msgAck d k) (pktJob k.words) k.words) (pktJob k.words) := by
  have hearly : isEarly jb k = false := by simp [isEarly, hnow]
  simp [msgIn, hjb, hearly, takeMsg, htype, hnow]

theorem pktType_of_arrives {ty : Nat} {bad : Dev → Option Nat} (h : Arrives ty bad k s d) : pktType k.words = ty := by
  have hrow := h.row
  simp only [arrivalOk, Bool.and_eq_true, beq_iff_eq] at hrow
  exact hrow.2

/-! ## The statement -/

/-- Settles O48: `formNorm` and `beginSealed` by whether they are due; a partial of the step in progress is `takeNorm`, by whether one
of its ordinal is held. -/
theorem normPartialsAreExchangedOnce : Obligations.NormPartialsAreExchangedOnce := by
  refine ⟨fun s j jb hj hjb => ⟨fun hnot => ?notDue, fun hfirst hreq hrun halive hcomplete hwanted => ?forms,
    fun hknown hfinite hupd hopen hrun hcomplete hsealed => ?begins, fun hunknown => ?unknown⟩, fun s k d harr => ?takes⟩
  case notDue =>
    have hgives := gives_formNormPartial (s := s) hj
    rwa [formNorm_of_not_due hjb hnot] at hgives
  case forms =>
    have hgives := gives_formNormPartial (s := s) hj
    rwa [formNorm_of_due hjb ⟨hfirst, hreq, hrun, halive, hcomplete, hwanted⟩] at hgives
  case begins =>
    have hgives := gives_sealedUpdateBegin (s := s) hj
    rwa [beginSealed_of_due hjb ⟨hknown, hfinite, hupd, hopen, hrun, hcomplete, hsealed⟩] at hgives
  case unknown =>
    have hgives := gives_sealedUpdateBegin (s := s) hj
    rwa [beginSealed_of_unknown hjb hunknown] at hgives
  case takes =>
    intro j e w2 q jb hjb hnow
    have hgives := gives_normPartial harr
    rw [msgIn_of_now (pktType_of_arrives harr) hjb hnow] at hgives
    refine ⟨fun hnew => ?_, fun hheld => ?_⟩
    · rwa [takeNorm_of_first hjb hnew] at hgives
    · rwa [takeNorm_of_repeat hjb hheld] at hgives

end Sys2Proof.Machine
end

section
/-!
SUPPORT. Haul (R296 to R300, R306, R307, R546): what a haul slab and its acknowledgment do as they arrive, and when a member port's haul
is dropped.
-/
namespace Sys2Proof.Machine

variable {s : State} {d t : Dev} {k : PktRx} {jb : Job}

/-! ## A haul slab (R296 to R299, R546) -/

/-- What a haul slab says beside its payload: it is provisional, of a step copy, without a tag. -/
def haulHead (k : PktRx) : SlabHead :=
  let w1 := wordAt k.words 1
  let w2 := wordAt k.words 2
  { region := field w1 61 48, step := field w1 47 0, slab := field w2 63 32, attempt := field w2 31 24, ofmt := BitVec.ofNat 8 (field w2 23 16)
    prov := true, base := false, hfi := field w2 11 10, tag := 0, lanes := field (wordAt k.words 3) 10 0 }

/-- What tells a haul slab from another: a second one of the same identity is a duplicate. -/
def haulId (k : PktRx) : List Nat :=
  [(haulHead k).region, (haulHead k).slab, (haulHead k).step, (haulHead k).attempt, (haulHead k).hfi]

/-- The HAUL_ACK of a haul slab has gone to its sender. -/
def haulAcked (d : Dev) (k : PktRx) : Dev :=
  sendAddr d 2 (pktJob k.words) k.src (mkPacket 0x21 (pktJob k.words)
    [wordAt k.words 1, mkWord [((haulHead k).slab, 32), ((haulHead k).attempt, 24), ((haulHead k).hfi, 10)]])

/-- A first haul slab is acknowledged, and its identity is kept. -/
def haulNoted (d : Dev) (k : PktRx) : Dev :=
  updJob (haulAcked d k) (pktJob k.words) fun jb => { jb with haulSeen := jb.haulSeen ++ [haulId k] }

/-- A haul slab goes on as it is, to the children and members that take its format. -/
def haulGoesOn (d : Dev) (k : PktRx) (jb : Job) (r : Region) : Dev :=
  haulOut (haulNoted d k) (pktJob k.words) (haulHead k).region (haulHead k).slab (slabOwner jb.q r (haulHead k).slab) (haulHead k).step
    (haulHead k).attempt (fun i => if i = (haulHead k).hfi then some (haulHead k, k.words.drop 4, 0) else none)
    (fun i => (haulListAt r (haulHead k).step)[i]? == some (haulHead k).ofmt) [(haulHead k).hfi]

theorem gives_haulData (harr : Arrives 0x20 (haulBad k) k s d) (ht : haulIn d k = t) : Gives (.haulData k) s t :=
  ht ▸ onArrival_of_arrives harr fun d => haulIn d k

theorem haulIn_of_no_job (h : getJob d (pktJob k.words) = none) : haulIn d k = d := by simp [haulIn, h]

section
variable (hjb : getJob d (pktJob k.words) = some jb)
include hjb

theorem haulIn_of_seen (hseen : haulId k ∈ jb.haulSeen) : haulIn d k = bump (haulAcked d k) ctrHaulDup (pktJob k.words) := by
  simp only [haulIn, hjb]
  exact if_pos (List.contains_iff_mem.mpr hseen)

variable (hnew : haulId k ∉ jb.haulSeen)
include hnew

/-- A first haul slab of a region that exists goes on unless the module has left its attempt, the job is stopped, or the region has no
such slab. -/
theorem haulIn_of_new : haulIn d k =
    match getRegion jb (haulHead k).region with
    | none => haulNoted d k
    | some r =>
      if haulDead jb (haulHead k).step (haulHead k).attempt || jb.stopped || nSlabs r ≤ (haulHead k).slab then haulNoted d k
      else haulGoesOn d k jb r := by
  simp only [haulIn, hjb]
  exact if_neg (mt List.contains_iff_mem.mp hnew)

theorem haulIn_of_no_region (hr : getRegion jb (haulHead k).region = none) : haulIn d k = haulNoted d k := by
  simp only [haulIn_of_new hjb hnew, hr]

variable {r : Region} (hr : getRegion jb (haulHead k).region = some r)
include hr

theorem haulIn_of_dead (hdead : haulDead jb (haulHead k).step (haulHead k).attempt = true ∨ jb.stopped = true ∨
    nSlabs r ≤ (haulHead k).slab) : haulIn d k = haulNoted d k := by
  simp only [haulIn_of_new hjb hnew, hr]
  exact if_pos (by simpa [or_assoc] using hdead)

theorem haulIn_of_alive (halive : haulDead jb (haulHead k).step (haulHead k).attempt = false) (hrun : jb.stopped = false)
    (hslab : (haulHead k).slab < nSlabs r) : haulIn d k = haulGoesOn d k jb r := by
  simp only [haulIn_of_new hjb hnew, hr]
  exact if_neg (by simp [halive, hrun, hslab])

end

/-! ## Its acknowledgment (R299, R546) -/

theorem gives_haulAck (harr : Arrives 0x21 (haulAckBad k) k s d) (ht : haulAckIn d k = t) : Gives (.haulAck k) s t :=
  ht ▸ onArrival_of_arrives harr fun d => haulAckIn d k

theorem haulAckIn_of_ordinal {q : Nat} (hq : ((getJob d (pktJob k.words)).bind fun jb => ordOfAddr jb k.src) = some q) :
    haulAckIn d k =
      let w1 := wordAt k.words 1
      let w2 := wordAt k.words 2
      dropHeld d (pktJob k.words) fun h => h.ptype == 0x20 && h.dst == q &&
        h.key == [field w1 61 48, field w1 47 0, field w2 63 32, field w2 31 24, field w2 11 10] := by
  simp only [haulAckIn, hq]

/-! ## Overdue haul of a member port (R306), and the end of a context's haul (R307) -/

/-- The undelivered haul of a port is dropped, overdue or not, and each slab is counted for its member. -/
def haulDropped (d : Dev) (p : Nat) : Dev :=
  forEach ((unacked (getPort d p)).filter isHaul) (stallTick (setPort d p (dropUnacked isHaul (getPort d p))) p) dropHaulPkt

theorem gives_haulDrop {p : Nat} (hp : p < 288) :
    Gives (.haulDrop p) s (if (unacked (getPort s.dev p)).any (haulOverdue s.dev) then haulDropped s.dev p else s.dev) :=
  onUnit_of_ok (by simpa using hp) s _

theorem gives_haulEnd {c m : Nat} (hc : c < 16384) (hm : m < 4096) : Gives (.haulEnd c m) s
    (tidyLeft (haulEndDue (forEach (leftOf s.dev c) s.dev fun d h => haulEndDue d h m) c m)) :=
  onUnit_of_ok (by simp [hc, hm]) s _

/-! ## The statement -/

/-- Settles O49: a haul slab that has arrived whole is `haulIn`, by whether its identity is known and whether its attempt is alive; an
acknowledgment drops what is held for its ordinal, what is resent is `resendHeld`, and a port's haul is dropped when some of it is overdue. -/
theorem haulSlabsGoOnOnce : Obligations.HaulSlabsGoOnOnce := by
  refine ⟨fun s k d harr => ⟨fun hnone => gives_haulData harr (haulIn_of_no_job hnone), fun jb hjb =>
      ⟨fun hseen => gives_haulData harr (haulIn_of_seen hjb hseen), fun hnew => ?first⟩⟩,
    fun s k d harr q hq => gives_haulAck harr (haulAckIn_of_ordinal hq),
    fun s => ⟨rfl, fun p hp => ⟨fun hnot => ?inTime, fun hover => ?overdue⟩, fun c m hc hm => gives_haulEnd hc hm⟩⟩
  case first =>
    exact ⟨fun hr => gives_haulData harr (haulIn_of_no_region hjb hnew hr), fun r hr =>
      ⟨fun hdead => gives_haulData harr (haulIn_of_dead hjb hnew hr hdead),
        fun halive hrun hslab => gives_haulData harr (haulIn_of_alive hjb hnew hr halive hrun hslab)⟩⟩
  case inTime =>
    have hgives := gives_haulDrop (s := s) hp
    rwa [if_neg (by simp [hnot])] at hgives
  case overdue =>
    have hgives := gives_haulDrop (s := s) hp
    rwa [if_pos hover] at hgives

end Sys2Proof.Machine
end

section
/-!
SUPPORT. Hoist (R310 to R323, R338, R548, R549, R611): how a request is checked and held, what a slab read finds, what ends a request, and
what the answers of other modules complete.
-/
namespace Sys2Proof.Machine

variable {s : State} {d t : Dev} {k : PktRx} {j i m : Nat} {jb : Job}

/-! ## A request (R310, R311, Table 9-4) -/

/-- What a HOIST_REQ asks for. -/
abbrev hoistAsk (k : PktRx) : HoistF := hoistF (wordAt k.words 1) (wordAt k.words 2)

/-- Does a HOIST_REQ set a RSVD bit of its body? -/
abbrev hoistAskRsvd (k : PktRx) : Bool := hoistRsvd (wordAt k.words 1) (wordAt k.words 2)

/-- The end reply that refuses a request: the status, and the order of the check that failed. -/
def hoistRefusal (k : PktRx) (order st : Nat) : TxPacket :=
  { queue := (hoistAsk k).job, vc := 3, words := hoistEndWords (hoistAsk k).job (hoistAsk k).tag st order 0 0 0 }

/-- A request is held with its slabs to read, which are asked for in turn. -/
def hoistHeld (d : Dev) (k : PktRx) (jb : Job) (m home : Nat) : Dev :=
  let f := hoistAsk k
  let h : Hoist := { member := m, tag := f.tag, port := home, region := f.region, todo := rangeFrom f.first f.n }
  forEach (rangeFrom f.first f.n) (bump (setJob d f.job { jb with hoists := jb.hoists ++ [h] }) ctrHoistReq (memberIdx f.job m))
    fun d' s => askSlab d' f.job f.region s (f.sel == 1) (hoistFmt jb m f) (m, f.tag)

theorem gives_hoistReq (harr : Arrives 0x30 (hoistReqBad k) k s d) (ht : hoistReqIn d k = t) : Gives (.hoistReq k) s t :=
  ht ▸ onArrival_of_arrives harr fun d => hoistReqIn d k

/-- A request of a job without a member on the port fails the first check, and is answered on the port. -/
theorem hoistReqIn_of_no_member (h : ((getJob d (hoistAsk k).job).bind fun jb => memberOn jb k.port) = none) :
    hoistReqIn d k = sendPort d k.port (hoistRefusal k 1 stAuth) := by
  have hwho : ((getJob d (hoistAsk k).job).bind fun jb => (memberOn jb k.port).map fun m => (jb, m)) = none := by
    cases hjb : getJob d (hoistAsk k).job with
    | none => rfl
    | some jb =>
      have hm : memberOn jb k.port = none := by simpa [hjb] using h
      simp [hm]
  simp [hoistReqIn, hwho, hoistCheck, hoistRefusal]

section
variable {mb : Member} (hjb : getJob d (hoistAsk k).job = some jb) (hm : memberOn jb k.port = some m)
  (hmb : SMap.get? jb.members m = some mb)
include hjb hm hmb

theorem hoistReqIn_of_refused {order st : Nat} (hbad : hoistCheck d (hoistAsk k) (hoistAskRsvd k) (some (jb, m)) = some (order, st)) :
    hoistReqIn d k =
      bump (sendPort d (homeOf d mb) (hoistRefusal k order st)) ctrHoistRefused (memberIdx (hoistAsk k).job m) := by
  simp [hoistReqIn, hjb, hm, hmb, hbad, hoistRefusal]

theorem hoistReqIn_of_passed (hok : hoistCheck d (hoistAsk k) (hoistAskRsvd k) (some (jb, m)) = none) :
    hoistReqIn d k = hoistHeld d k jb m (homeOf d mb) := by
  simp [hoistReqIn, hjb, hm, hmb, hok, hoistHeld, updJob_of_getJob hjb]

end

/-! ## A slab read (R55, R313, R314, R316, R338, R611) -/

theorem gives_hoistSlabRead {ue : Bool} (hj : j < 64) (ht : slabRead s.dev j i ue = t) : Gives (.hoistSlabRead j i ue) s (poolsSettle t) :=
  ht ▸ onUnit_of_ok (by simpa using hj) s _

/-- Entry `i` of the job's reads is a read of this module's own, which no seal holds. -/
structure OwnRead (d : Dev) (j i : Nat) (jb : Job) (e : ReadEntry) : Prop where
  job   : getJob d j = some jb
  entry : jb.reads[i]? = some e
  own   : e.remote = none
  free  : e.held = false

/-- A read is served by its die: it waits for no write and no scan, this module serves the shard, no seal may move its copy, and its
region stands. -/
structure Served (jb : Job) (e : ReadEntry) (r : Region) : Prop where
  ready  : readWaits jb e = false
  serves : servesShard jb = true
  stays  : readHeld jb e = false
  region : getRegion jb e.region = some r

namespace OwnRead
variable {e : ReadEntry} {ue : Bool} (h : OwnRead d j i jb e)
include h

theorem slabRead_of_waits (hwaits : readWaits jb e = true) : slabRead d j i ue = d := by
  simp [slabRead, h.job, h.entry, hwaits]

theorem slabRead_of_offline (hready : readWaits jb e = false) (hoff : servesShard jb = false) :
    slabRead d j i ue = completeRead d j i (.status stShardOffline) := by
  simp [slabRead, h.job, h.entry, h.own, h.free, hready, hoff]

/-- A read that the seal may still decide is held until it has (R338). -/
theorem slabRead_of_held (hready : readWaits jb e = false) (hserves : servesShard jb = true) (hheld : readHeld jb e = true) :
    slabRead d j i ue = bumpBy (setJob d j { jb with reads := jb.reads.modify i fun e => { e with held := true } }) ctrReadHeld j
      (e.locals.length + e.remotes.length) := by
  simp [slabRead, h.job, h.entry, h.own, h.free, hready, hserves, hheld, updJob_of_getJob h.job]

section
variable {r : Region} (hs : Served jb e r)
include hs

theorem slabRead_of_no_room (hroom : replyRoom d j jb e r = false) : slabRead d j i ue = d := by
  simp [slabRead, h.job, h.entry, hs.serves, hs.stays, hs.region, hroom]

/-- With room for its replies, a served read answers by what the die finds and by an error met while it reads. -/
theorem slabRead_of_room (hroom : replyRoom d j jb e r = true) : slabRead d j i ue =
    let f := hoistFetch d j jb r e
    match f.lost, (if ue then wantedCopy jb (getSlab r e.slab) e.newest else none) with
    | some a, _ => completeRead (memUeSlab f.dev j e.region e.slab a) j i (.status stDamaged)
    | none, some c => completeRead (memUeSlab f.dev j e.region e.slab c) j i (.status stDamaged)
    | none, none => completeRead f.dev j i (readSlab jb f.r e.region e.slab e.newest e.ofmt) := by
  simp only [slabRead, h.job, h.entry, h.own, h.free, hs.ready, hs.serves, hs.stays, hs.region, hroom]
  rfl

variable (hroom : replyRoom d j jb e r = true)
include hroom

theorem slabRead_of_lost {a : Nat} (hlost : (hoistFetch d j jb r e).lost = some a) : slabRead d j i ue =
    completeRead (memUeSlab (hoistFetch d j jb r e).dev j e.region e.slab a) j i (.status stDamaged) := by
  simp only [h.slabRead_of_room hs hroom, hlost]

theorem slabRead_of_whole (hwhole : (hoistFetch d j jb r e).lost = none) : slabRead d j i false =
    completeRead (hoistFetch d j jb r e).dev j i (readSlab jb (hoistFetch d j jb r e).r e.region e.slab e.newest e.ofmt) := by
  simp [h.slabRead_of_room hs hroom, hwhole]

theorem slabRead_of_ue {c : Nat} (hwhole : (hoistFetch d j jb r e).lost = none)
    (hc : wantedCopy jb (getSlab r e.slab) e.newest = some c) : slabRead d j i true =
      completeRead (memUeSlab (hoistFetch d j jb r e).dev j e.region e.slab c) j i (.status stDamaged) := by
  simp [h.slabRead_of_room hs hroom, hwhole, hc]

end
end OwnRead

/-! ## The end of a request (R317) -/

theorem gives_hoistEnd {tag : Nat} (hj : j < 64) (hm : m < 4096) (ht : hoistDone s.dev j m tag = t) : Gives (.hoistEnd j m tag) s t :=
  ht ▸ onUnit_of_ok (by simp [hj, hm]) s _

section
variable {tag : Nat} {h : Hoist} (hh : ((getJob d j).bind fun jb => getHoist jb m tag) = some h)
include hh

theorem hoistDone_of_todo (htodo : h.todo ≠ []) : hoistDone d j m tag = d := by
  simp [hoistDone, hh, htodo]

theorem hoistDone_of_all_answered (htodo : h.todo = []) : hoistDone d j m tag =
    dropHoist (sendPort d h.port
      { queue := j, vc := 3, words := hoistEndWords j tag stOk 0 h.sent h.damaged h.offline
        track := .hoistEnd j m tag h.sent h.damaged h.offline }) j m tag := by
  simp [hoistDone, hh, htodo]

end

/-! ## Answers of other modules (R322, R549) -/

/-- The entry that a REMOTE_DATA answers. -/
abbrev dataEntry (d : Dev) (k : PktRx) : Option Nat :=
  remoteEntry d (pktJob k.words) (field (wordAt k.words 3) 63 48) (field (wordAt k.words 1) 61 48) (field (wordAt k.words 2) 63 32)

/-- What a REMOTE_DATA says beside its payload: a haul slab's fields, but its copy may be committed or a base copy. -/
def remoteHead (k : PktRx) : SlabHead :=
  { haulHead k with prov := flag (wordAt k.words 2) 15, base := flag (wordAt k.words 2) 14, hfi := 0 }

theorem gives_remoteData (harr : Arrives 0x35 (remoteDataBad k) k s d) (ht : remoteDataIn d k = t) : Gives (.remoteData k) s t :=
  ht ▸ onArrival_of_arrives harr fun d => remoteDataIn d k

theorem remoteDataIn_of_entry (h : dataEntry d k = some i) :
    remoteDataIn d k = completeRead d (pktJob k.words) i (.data (remoteHead k) (k.words.drop 4) 0) := by
  simp only [remoteDataIn, h]
  rfl

theorem remoteDataIn_of_no_entry (h : dataEntry d k = none) : remoteDataIn d k = d := by
  simp only [remoteDataIn, h]

/-- The entry that a REMOTE_STATUS answers. -/
abbrev statusEntry (d : Dev) (k : PktRx) : Option Nat :=
  remoteEntry d (pktJob k.words) (field (wordAt k.words 1) 47 32) (field (wordAt k.words 1) 61 48) (field (wordAt k.words 1) 31 0)

theorem gives_remoteStatus (harr : Arrives 0x36 (remoteStatusBad k) k s d) (ht : remoteStatusIn d k = t) : Gives (.remoteStatus k) s t :=
  ht ▸ onArrival_of_arrives harr fun d => remoteStatusIn d k

theorem remoteStatusIn_of_entry (h : statusEntry d k = some i) :
    remoteStatusIn d k = completeRead d (pktJob k.words) i (.status (field (wordAt k.words 2) 15 0)) := by
  simp only [remoteStatusIn, h]

theorem remoteStatusIn_of_no_entry (h : statusEntry d k = none) : remoteStatusIn d k = d := by
  simp only [remoteStatusIn, h]

/-! ## The statement -/

/-- Settles O50: a request is `hoistReqIn`, by its member and its checks; a read is `slabRead`, by what it waits for and what its die finds;
a request ends when no slab of it is left; another module's answer completes the entry it names; what is resent is what has waited. -/
theorem hoistReadsAreAnswered : Obligations.HoistReadsAreAnswered := by
  refine ⟨fun s k d harr => ⟨fun jb m hjb hm mb hmb => ?member, fun hnone => gives_hoistReq harr (hoistReqIn_of_no_member hnone)⟩,
    fun s j i jb e hj hjb he hown hfree => ?read,
    fun s j m tag h hj hm hh => ⟨fun htodo => gives_hoistEnd hj hm (hoistDone_of_todo hh htodo),
      fun htodo => gives_hoistEnd hj hm (hoistDone_of_all_answered hh htodo)⟩,
    fun s k d harr => onArrival_of_arrives harr fun d => remoteReadIn d k,
    fun s k d harr => ⟨fun i hi => gives_remoteData harr (remoteDataIn_of_entry hi),
      fun hnone => gives_remoteData harr (remoteDataIn_of_no_entry hnone)⟩,
    fun s k d harr => ⟨fun i hi => gives_remoteStatus harr (remoteStatusIn_of_entry hi),
      fun hnone => gives_remoteStatus harr (remoteStatusIn_of_no_entry hnone)⟩,
    fun s => rfl⟩
  case member =>
    exact ⟨fun order st hbad => gives_hoistReq harr (hoistReqIn_of_refused hjb hm hmb hbad),
      fun hok => gives_hoistReq harr (hoistReqIn_of_passed hjb hm hmb hok)⟩
  case read =>
    have hread : OwnRead s.dev j i jb e := ⟨hjb, he, hown, hfree⟩
    refine ⟨fun hwaits ue => gives_hoistSlabRead hj (hread.slabRead_of_waits hwaits), fun hready =>
      ⟨fun hoff ue => gives_hoistSlabRead hj (hread.slabRead_of_offline hready hoff), fun hserves =>
      ⟨fun hheld ue => gives_hoistSlabRead hj (hread.slabRead_of_held hready hserves hheld),
        fun hstays r hr hroom ue => gives_hoistSlabRead hj (hread.slabRead_of_no_room ⟨hready, hserves, hstays, hr⟩ hroom),
        fun hstays r hr hroom => ?_⟩⟩⟩
    have hserved : Served jb e r := ⟨hready, hserves, hstays, hr⟩
    exact ⟨fun a hlost ue => gives_hoistSlabRead hj (hread.slabRead_of_lost hserved hroom hlost), fun hwhole =>
      ⟨gives_hoistSlabRead hj (hread.slabRead_of_whole hserved hroom hwhole),
        fun c hc => gives_hoistSlabRead hj (hread.slabRead_of_ue hserved hroom hwhole hc)⟩⟩

end Sys2Proof.Machine
end

section
/-!
SUPPORT. The seal messages (R344, R345, R349, R552): the row of each kind, what becomes of a message by its age, and what it does where it
acts.
-/
namespace Sys2Proof.Machine

variable {s : State} {d t : Dev} {k : PktRx} {j : Nat} {jb : Job} {f : SealF} {r : Nat × Instr}

/-! ## The rows (Table 10-3) -/

/-- The kinds of seal messages, each with its row. -/
def sealRows (k : PktRx) : List (Nat × Instr) :=
  [(1, .sealReq k), (2, .sealVote k), (3, .abortReq k), (4, .sealCommit k), (5, .sealAck k), (6, .sealDone k),
    (7, .sealAbort k), (8, .abortAck k), (9, .sealQuery k), (10, .sealState k)]

theorem exec_of_sealRows (hr : r ∈ sealRows k) : exec r.2 s = sealRow r.1 k s := by
  revert r
  simp only [sealRows, List.forall_mem_cons]
  exact ⟨rfl, rfl, rfl, rfl, rfl, rfl, rfl, rfl, rfl, rfl, nofun⟩

theorem kind_of_sealRows (hr : r ∈ sealRows k) : 1 ≤ r.1 ∧ r.1 ≤ 10 := by
  revert r
  simp [sealRows]

theorem sealRow_of_other_kind {n : Nat} (h : (sealF k.words).kind ≠ n) : sealRow n k s = .fault .noSuchUnit := by
  simp [sealRow, onArrivalKind, h]

theorem gives_sealRow (harr : Arrives 0x65 (sealBad k) k s d) (hr : r ∈ sealRows k) (hkind : (sealF k.words).kind = r.1)
    (ht : msgIn d k = t) : Gives r.2 s (poolsSettle t) := by
  rw [Gives, exec_of_sealRows hr, ← ht]
  exact onArrivalKind_of_arrives (beq_iff_eq.mpr hkind) harr fun d => poolsSettle (msgIn d k)

/-! ## Kept or taken (R344, R552) -/

/-- The age of a seal message against a job. -/
abbrev sealAge (jb : Job) (f : SealF) : MsgAge := msgAge jb f.step f.attempt

section
variable (hjb : getJob (msgAck d k) (pktJob k.words) = some jb)
include hjb

/-- A first message of a step and attempt not reached yet is acknowledged and kept. -/
theorem msgIn_of_early (hage : sealAge jb (sealF k.words) = .early)
    (hfirst : ∀ o ∈ jb.early, pktType o.words = pktType k.words → wordAt o.words 1 = wordAt k.words 1 →
      field (wordAt o.words 2) 24 16 ≠ (sealF k.words).ord) :
    msgIn d k = updJob (msgAck d k) (pktJob k.words) fun jb => { jb with early := jb.early ++ [k] } := by
  have hearly : isEarly jb k = true := beq_iff_eq.mpr hage
  have hnew : (jb.early.any fun o => pktType o.words == pktType k.words && wordAt o.words 1 == wordAt k.words 1 &&
      field (wordAt o.words 2) 24 16 == field (wordAt k.words 2) 24 16) = false := by
    simpa [sealF] using hfirst
  simp [msgIn, hjb, hearly, hnew]

/-- Any other message is acknowledged and taken; then what waited for it is. -/
theorem msgIn_of_reached (htype : pktType k.words = 0x65) (hage : sealAge jb (sealF k.words) ≠ .early) :
    msgIn d k = flushJob (takeSeal (msgAck d k) (pktJob k.words) k.words) (pktJob k.words) := by
  have hearly : isEarly jb k = false := beq_eq_false_iff_ne.mpr hage
  simp [msgIn, hjb, hearly, takeMsg, htype]

theorem gives_sealRow_of_reached (harr : Arrives 0x65 (sealBad k) k s d) (hr : r ∈ sealRows k) (hkind : (sealF k.words).kind = r.1)
    (hage : sealAge jb (sealF k.words) ≠ .early) (ht : takeSeal (msgAck d k) (pktJob k.words) k.words = t) :
    Gives r.2 s (poolsSettle (flushJob t (pktJob k.words))) :=
  gives_sealRow harr hr hkind ((msgIn_of_reached hjb (pktType_of_arrives harr) hage).trans (by rw [ht]))

end

/-! ## Acting or spoiled, by age (R344) -/

/-- What tells a seal message from another: a second one of the same identity is a duplicate. -/
abbrev sealId (f : SealF) : Nat × Nat × Nat × Nat := (f.step, f.attempt, f.ord, f.kind)

/-- The identity of a first message is kept. -/
def sealNoted (d : Dev) (j : Nat) (f : SealF) : Dev := updSeal d j fun s => { s with seen := s.seen ++ [sealId f] }

/-- The SEAL_ACK that answers a commit goes to the coordinator that sent it. -/
abbrev ackCommit (d : Dev) (j : Nat) (f : SealF) : Dev := sendSealOf d j 5 f.ord f.step f.attempt {}

section
variable {w : List W64} (hjb : getJob d j = some jb)
include hjb

theorem takeSeal_of_now (hage : sealAge jb (sealF w) = .now) (hnew : sealId (sealF w) ∉ jb.sealSt.seen) :
    takeSeal d j w = sealNow (sealNoted d j (sealF w)) j jb (sealF w) := by
  simp [takeSeal, hjb, hage, hnew, sealNoted]

theorem takeSeal_of_last (hage : sealAge jb (sealF w) = .last) (hnew : sealId (sealF w) ∉ jb.sealSt.seen) :
    takeSeal d j w = sealLast (sealNoted d j (sealF w)) j jb (sealF w) := by
  simp [takeSeal, hjb, hage, hnew, sealNoted]

/-- A duplicate is spoiled; a commit of the last sealed step is answered again. -/
theorem takeSeal_of_seen (hage : sealAge jb (sealF w) = .now ∨ sealAge jb (sealF w) = .last) (hseen : sealId (sealF w) ∈ jb.sealSt.seen) :
    takeSeal d j w = if sealAge jb (sealF w) = .last ∧ (sealF w).kind = 4 then ackCommit (bump d ctrSealDup 0) j (sealF w)
      else bump d ctrSealDup 0 := by
  have hreached : (sealAge jb (sealF w) == .left) = false := by
    rcases hage with hage | hage <;> rw [hage] <;> rfl
  by_cases hcommit : sealAge jb (sealF w) = .last ∧ (sealF w).kind = 4
  · obtain ⟨hlast, hkind⟩ := hcommit
    rw [sealId, hkind] at hseen
    simp [takeSeal, hjb, hseen, hlast, hkind, sealDup, sealLast]
  · simp [takeSeal, hjb, hseen, hreached, hcommit, sealDup]

theorem takeSeal_of_left (hage : sealAge jb (sealF w) = .left) : takeSeal d j w = sealLeft d j jb (sealF w) := by
  simp [takeSeal, hjb, hage]

end

/-! ## What a message does where it acts (Table 10-3) -/

/-- The STATE of a SEAL_STATE. -/
def stateCode : SealSt → Nat
  | .opened => 0
  | .marked => 1
  | .prepared => 2
  | .aborting => 3

/-- The coordinator holds the SEAL_ACK of the message's sender, which may be the last. -/
def ackedSeal (d : Dev) (j : Nat) (f : SealF) : Dev := trySealEnd (updSeal d j fun s => { s with acks := insNat f.ord s.acks }) j

/-- The abort of the attempt begins, for the reason and the first ordinal that the message names. -/
def abortBegun (d : Dev) (j : Nat) (f : SealF) : Dev :=
  beginAbort (updSeal d j fun s => { s with reason := f.reason, first := some f.first }) j

theorem queryIn_eq : queryIn d j jb f = if jb.sealSt.queryOf = (f.step, f.attempt) then queryAnswer d j f.ord f.written else d := by
  simp [queryIn]

/-- Each kind of message of the step and attempt in progress. -/
theorem sealNow_eq (hlow : 1 ≤ f.kind) (hhigh : f.kind ≤ 10) : sealNow d j jb f =
    if f.kind = 1 then requestSeal d j true
    else if f.kind = 2 then (if !isCoord jb then d else if f.vote then takeYes d j f.ord else decideAbort d j f.reason f.ord)
    else if f.kind = 3 then (if isCoord jb then decideAbort d j f.reason f.ord else d)
    else if f.kind = 4 then (if jb.sealSt.state = .aborting ∨ jb.stopped = true then d else ackCommit (writeCommit d j) j f)
    else if f.kind = 5 then ackedSeal d j f
    else if f.kind = 6 then d
    else if f.kind = 7 then abortBegun d j f
    else if f.kind = 8 then takeAbortAck d j f.ord f.step f.attempt
    else if f.kind = 9 then sendSealOf d j 10 f.ord f.step f.attempt { state := stateCode jb.sealSt.state }
    else if jb.sealSt.queryOf = (f.step, f.attempt) then queryAnswer d j f.ord f.written else d := by
  rw [sealNow]
  split
  case h_4 hkind => simp [hkind]
  case h_9 hkind => simp [hkind, queryIn_eq]
  case h_10 h1 h2 h3 h4 h5 h7 h8 h9 h10 =>
    have hdone : f.kind = 6 := by grind
    simp [hdone]
  all_goals
    rename_i hkind
    simp only [hkind]
    rfl

/-- Each kind of message of the last sealed step and attempt. -/
theorem sealLast_eq : sealLast d j jb f =
    if f.kind = 4 then ackCommit d j f
    else if f.kind = 5 then ackedSeal d j f
    else if f.kind = 6 then sealDone d j f.step f.attempt
    else if f.kind = 9 then sendSealOf d j 10 f.ord f.step f.attempt { written := 1, state := stateCode jb.sealSt.state }
    else if f.kind = 10 ∧ jb.sealSt.queryOf = (f.step, f.attempt) then queryAnswer d j f.ord f.written
    else d := by
  rw [sealLast]
  split
  case h_5 hkind => simp [hkind, queryIn_eq]
  case h_6 h4 h5 h6 h9 h10 => rw [if_neg h4, if_neg h5, if_neg h6, if_neg h9, if_neg fun h => h10 h.1]
  all_goals
    rename_i hkind
    simp only [hkind]
    rfl

/-! ## Messages of an attempt the module has left (R344, R345, R349) -/

/-- The message is a reply that the query in progress waits for (R345). -/
abbrev Asked (jb : Job) (f : SealF) : Prop := jb.sealSt.queryOf = (f.step, f.attempt) ∧ f.ord ∈ jb.sealSt.queryWait

theorem sealLeft_of_awaited_ack (hkind : f.kind = 8) (hawaited : awaitsAck jb.sealSt f.step f.attempt f.ord = true) :
    sealLeft d j jb f = takeAbortAck d j f.ord f.step f.attempt := by
  simp [sealLeft, hkind, hawaited]

theorem sealLeft_of_asked (hkind : f.kind = 10) (hasked : Asked jb f) : sealLeft d j jb f = queryAnswer d j f.ord f.written := by
  obtain ⟨hof, hwait⟩ := hasked
  simp [sealLeft, hkind, hof, hwait, queryIn_eq]

/-- Any other is spoiled; a SEAL_ABORT is acknowledged again. -/
theorem sealLeft_of_spoiled (hack : f.kind ≠ 8 ∨ awaitsAck jb.sealSt f.step f.attempt f.ord = false) (hreply : f.kind ≠ 10 ∨ ¬ Asked jb f) :
    sealLeft d j jb f =
      if f.kind = 7 then sendSealOf (bump d ctrSealDup 0) j 8 f.ord f.step f.attempt {} else bump d ctrSealDup 0 := by
  rw [sealLeft, if_neg ?notAck, if_neg ?notReply]
  · rfl
  case notAck =>
    simp only [Bool.and_eq_true, decide_eq_true_eq]
    exact fun h => hack.elim (· h.1) fun hnone => Bool.false_ne_true (hnone.symm.trans h.2)
  case notReply =>
    simp only [Bool.and_eq_true, decide_eq_true_eq, beq_iff_eq, List.contains_iff_mem, and_assoc]
    exact fun h => hreply.elim (· h.1) (· h.2)

/-! ## The statement -/

/-- Settles O51: a row takes its own kind and faults on any other; a message not reached yet is kept; one of the step in progress is
`sealNow` and one of the last sealed step `sealLast`, unless its identity was seen; one of an attempt left is `sealLeft`. -/
theorem sealMessagesActOnce : Obligations.SealMessagesActOnce := by
  intro s k d harr j f e r hr
  refine ⟨fun hother => (exec_of_sealRows hr).trans (sealRow_of_other_kind hother), fun hkind jb hjb => ?_⟩
  obtain ⟨hlow, hhigh⟩ := kind_of_sealRows hr
  have htakes : ∀ {t : Dev}, sealAge jb f ≠ .early → takeSeal e j k.words = t → Gives r.2 s (poolsSettle (flushJob t j)) :=
    gives_sealRow_of_reached hjb harr hr hkind
  refine ⟨fun hage hfirst => gives_sealRow harr hr hkind (msgIn_of_early hjb hage hfirst), fun hage hnew => ?now, fun hage hnew => ?last,
    fun hage hseen => ?seen, fun hage h8 hawaited => ?awaited, fun hage h10 hasked => ?asked, fun hage hack hreply => ?spoiled⟩
  case now => exact htakes (by simp [hage]) ((takeSeal_of_now hjb hage hnew).trans (sealNow_eq (hkind ▸ hlow) (hkind ▸ hhigh)))
  case last => exact htakes (by simp [hage]) ((takeSeal_of_last hjb hage hnew).trans sealLast_eq)
  case seen => exact htakes (by rcases hage with hage | hage <;> simp [hage]) (takeSeal_of_seen hjb hage hseen)
  case awaited => exact htakes (by simp [hage]) ((takeSeal_of_left hjb hage).trans (sealLeft_of_awaited_ack h8 hawaited))
  case asked => exact htakes (by simp [hage]) ((takeSeal_of_left hjb hage).trans (sealLeft_of_asked h10 hasked))
  case spoiled => exact htakes (by simp [hage]) ((takeSeal_of_left hjb hage).trans (sealLeft_of_spoiled hack hreply))

end Sys2Proof.Machine
end

section
/-!
SUPPORT. Contributions (chapters 5, 11 and 15): what each arrival check of Table 11-6 answers, and what the seam of a slab does with a
copy that has passed them.
-/
namespace Sys2Proof.Machine

variable {s : State} {d t : Dev} {k : PktRx} {jb : Job} {e : Env}

/-! ## A contribution that arrives (R190, R373) -/

/-- The context that a contribution names. -/
abbrev contribCtx (d : Dev) (k : PktRx) : Ctx := getCtx d (contribF k.words).ctx

/-- A contribution that has arrived whole is taken, and residues found at its seam act last. -/
theorem gives_contrib (residue : Option Residues) (harr : Arrives 0x10 (contribBad k) k s d) (ht : contrib d k = t) :
    Gives (.contrib k residue) s
      (seamFault (settleLost t) residue (contribF k.words).ctx (contribF k.words).slab (contribF k.words).pass) :=
  ht ▸ onArrival_of_arrives harr fun d =>
    seamFault (settleLost (contrib d k)) residue (contribF k.words).ctx (contribF k.words).slab (contribF k.words).pass

/-- A packet that fails a check stops there. -/
theorem gives_contrib_of_failed (harr : Arrives 0x10 (contribBad k) k s d) (hfail : checkContrib d k = .error t) :
    Gives (.contrib k none) s (settleLost t) :=
  gives_contrib none harr (by rw [contrib, hfail])

theorem staleAnswer_eq (x : Ctx) (j n st : Nat) :
    staleAnswer x j n st = if x.holder = some j ∧ n = x.prevEpoch ∧ x.prevStatus ≠ 0 then x.prevStatus.toNat else st := by
  simp [staleAnswer, and_assoc, eq_comm (a := n)]

/-! ## The stages of the checks -/

/-- The source of a copy: the member on its port, as the rank's primary or as its backup (R373). -/
def copySource (jb : Job) (en : RankEntry) (port : Nat) : Option (Source × Nat) :=
  match memberOn jb port with
  | none => none
  | some mb => if en.pri = mb then some (.primary, mb) else if en.bakEn && en.bak == mb then some (.backup, mb) else none

/-- The checks of the shape, the pass and the slab. -/
def placeChecks (d : Dev) (k : PktRx) (e : Env) (src : Source) (mb : Nat) : Except Dev Checkin :=
  let f := contribF k.words
  let x := contribCtx d k
  if f.shape != x.shape.toNat || f.fmt != x.p.fmt then .error (mismatch d k mb 0x60)
  else if x.p.npass ≤ f.pass then .error (mismatch d k mb 0x61)
  else if x.p.nslab ≤ f.slab then .error (mismatch d k mb 0x62)
  else .ok { env := e, src := src, member := mb }

/-- The rank is one of the module's own group. -/
abbrev OwnRank (e : Env) (r : Nat) : Prop := ownBase e ≤ r ∧ r < ownBase e + ownSize e

/-- The checks from the rank on. -/
def rankChecks (d : Dev) (k : PktRx) (jb : Job) (e : Env) : Except Dev Checkin :=
  let r := (contribF k.words).rank
  match if OwnRank e r then copySource jb (rankEntry e.m r) k.port else none with
  | none => .error (spoilCopy d k (some (ctrRankSpoil, pktJob k.words)) stBadRank)
  | some (src, mb) => placeChecks d k e src mb

/-- The checks from the holder on. -/
def holderChecks (d : Dev) (k : PktRx) (jb : Job) : Except Dev Checkin :=
  let f := contribF k.words
  let j := pktJob k.words
  let x := contribCtx d k
  if x.holder != some j then .error (spoilCopy d k (some (ctrClosedSpoil, j)) stCtxClosed)
  else if ctxClosed x then .error (spoilCopy d k (some (ctrClosedSpoil, j)) (staleAnswer x j f.epoch stCtxClosed))
  else if f.epoch != x.epoch then .error (spoilCopy d k (some (ctrStaleSpoil, j)) (staleAnswer x j f.epoch stStaleEpoch))
  else
    match ctxEnv d f.ctx with
    | none => .error (spoilCopy d k (some (ctrClosedSpoil, j)) stCtxClosed)
    | some e => rankChecks d k jb e

/-! ## The job and its replay (R676) -/

theorem checkContrib_of_no_job (h : getJob d (pktJob k.words) = none) :
    checkContrib d k = .error (spoilCopy d k (some (ctrClosedSpoil, pktJob k.words)) stCtxClosed) := by
  simp [checkContrib, h]

theorem checkContrib_of_replaying (hjb : getJob d (pktJob k.words) = some jb) {r : Replay} (hr : jb.replay = some r)
    (hactive : r.active = true) :
    checkContrib d k = .error (spoilCopy d k (some (ctrReplaySpoil, pktJob k.words)) stCtxClosed) := by
  simp [checkContrib, hjb, hr, hactive]

theorem checkContrib_of_not_replaying (hjb : getJob d (pktJob k.words) = some jb) (hrun : ∀ r, jb.replay = some r → r.active = false) :
    checkContrib d k = holderChecks d k jb := by
  have hown : ∀ e, (if OwnRank e (contribF k.words).rank then copySource jb (rankEntry e.m (contribF k.words).rank) k.port else none) =
      if decide (ownBase e ≤ (contribF k.words).rank) && decide ((contribF k.words).rank < ownBase e + ownSize e) then
        copySource jb (rankEntry e.m (contribF k.words).rank) k.port else none := by simp [OwnRank]
  simp only [checkContrib, hjb, holderChecks, rankChecks, hown]
  cases hr : jb.replay with
  | none => rfl
  | some r => simp only [hrun r hr]; rfl

/-! ## The holder, the face-die copy and the epoch (R373, R374) -/

theorem holderChecks_of_not_holder (h : (contribCtx d k).holder ≠ some (pktJob k.words)) :
    holderChecks d k jb = .error (spoilCopy d k (some (ctrClosedSpoil, pktJob k.words)) stCtxClosed) := by
  simp [holderChecks, h]

section
variable (hheld : (contribCtx d k).holder = some (pktJob k.words))
include hheld

theorem holderChecks_of_closed (hclosed : ctxClosed (contribCtx d k) = true) :
    holderChecks d k jb = .error (spoilCopy d k (some (ctrClosedSpoil, pktJob k.words))
      (staleAnswer (contribCtx d k) (pktJob k.words) (contribF k.words).epoch stCtxClosed)) := by
  simp [holderChecks, hheld, hclosed]

variable (hlive : ctxClosed (contribCtx d k) = false)
include hlive

theorem holderChecks_of_other_epoch (hepoch : (contribF k.words).epoch ≠ (contribCtx d k).epoch) :
    holderChecks d k jb = .error (spoilCopy d k (some (ctrStaleSpoil, pktJob k.words))
      (staleAnswer (contribCtx d k) (pktJob k.words) (contribF k.words).epoch stStaleEpoch)) := by
  simp [holderChecks, hheld, hlive, hepoch]

theorem holderChecks_of_current (hepoch : (contribF k.words).epoch = (contribCtx d k).epoch)
    (henv : ctxEnv d (contribF k.words).ctx = some e) : holderChecks d k jb = rankChecks d k jb e := by
  simp [holderChecks, hheld, hlive, hepoch, henv]

end

/-! ## The rank and its source (R373) -/

/-- Member `mb` sends on the port, and is the rank's primary or its backup. -/
abbrev SourceIs (jb : Job) (en : RankEntry) (port mb : Nat) : Prop :=
  memberOn jb port = some mb ∧ (en.pri = mb ∨ en.bakEn = true ∧ en.bak = mb)

/-- What a member is to a rank that it is a source of. -/
abbrev sourceOf (en : RankEntry) (mb : Nat) : Source := if en.pri = mb then .primary else .backup

theorem copySource_of_sourceIs {en : RankEntry} {port mb : Nat} (h : SourceIs jb en port mb) :
    copySource jb en port = some (sourceOf en mb, mb) := by
  obtain ⟨hon, hrole⟩ := h
  by_cases hpri : en.pri = mb
  · simp [copySource, hon, hpri]
  · simp [copySource, hon, hpri, hrole.resolve_left hpri]

theorem copySource_of_no_source {en : RankEntry} {port : Nat} (h : ∀ mb, ¬ SourceIs jb en port mb) : copySource jb en port = none := by
  cases hon : memberOn jb port with
  | none => simp [copySource, hon]
  | some mb =>
    have hrole : ¬ (en.pri = mb ∨ en.bakEn = true ∧ en.bak = mb) := fun hrole => h mb ⟨hon, hrole⟩
    simp only [not_or] at hrole
    simpa [copySource, hon, hrole.1] using hrole.2

theorem rankChecks_of_bad_rank
    (h : ¬ OwnRank e (contribF k.words).rank ∨ ∀ mb, ¬ SourceIs jb (rankEntry e.m (contribF k.words).rank) k.port mb) :
    rankChecks d k jb e = .error (spoilCopy d k (some (ctrRankSpoil, pktJob k.words)) stBadRank) := by
  have hnone : (if OwnRank e (contribF k.words).rank then
      copySource jb (rankEntry e.m (contribF k.words).rank) k.port else none) = none := by
    rcases h with hother | hno
    · exact if_neg hother
    · rw [copySource_of_no_source hno, ite_self]
  simp only [rankChecks, hnone]

theorem rankChecks_of_source {mb : Nat} (hown : OwnRank e (contribF k.words).rank)
    (hsource : SourceIs jb (rankEntry e.m (contribF k.words).rank) k.port mb) :
    rankChecks d k jb e = placeChecks d k e (sourceOf (rankEntry e.m (contribF k.words).rank) mb) mb := by
  simp only [rankChecks, if_pos hown, copySource_of_sourceIs hsource]

/-! ## The shape, the pass and the slab (R377, R379) -/

section
variable {src : Source} {mb : Nat}

theorem placeChecks_of_other_shape
    (h : (contribF k.words).shape ≠ (contribCtx d k).shape.toNat ∨ (contribF k.words).fmt ≠ (contribCtx d k).p.fmt) :
    placeChecks d k e src mb = .error (mismatch d k mb 0x60) :=
  if_pos (by simpa using h)

variable (hshape : (contribF k.words).shape = (contribCtx d k).shape.toNat) (hfmt : (contribF k.words).fmt = (contribCtx d k).p.fmt)
include hshape hfmt

theorem placeChecks_of_pass_out_of_range (hpass : (contribCtx d k).p.npass ≤ (contribF k.words).pass) :
    placeChecks d k e src mb = .error (mismatch d k mb 0x61) := by
  simp [placeChecks, hshape, hfmt, hpass]

variable (hpass : (contribF k.words).pass < (contribCtx d k).p.npass)
include hpass

theorem placeChecks_of_slab_out_of_range (hslab : (contribCtx d k).p.nslab ≤ (contribF k.words).slab) :
    placeChecks d k e src mb = .error (mismatch d k mb 0x62) := by
  simp [placeChecks, hshape, hfmt, Nat.not_le.mpr hpass, hslab]

theorem placeChecks_of_fits (hslab : (contribF k.words).slab < (contribCtx d k).p.nslab) :
    placeChecks d k e src mb = .ok { env := e, src := src, member := mb } := by
  simp [placeChecks, hshape, hfmt, Nat.not_le.mpr hpass, Nat.not_le.mpr hslab]

end

/-! ## The end of the context -/

section
variable {a : Checkin} (hok : checkContrib d k = .ok a)
include hok

theorem contrib_of_ended (hdone : (contribCtx d k).state = .done) (hstatus : (contribCtx d k).status ≠ 0) :
    contrib d k = spoilCopy d k (some (if (contribCtx d k).status = BitVec.ofNat 16 stAborted then ctrAbortSpoil else ctrLateSpoil,
      (contribF k.words).ctx)) (contribCtx d k).status.toNat := by
  simp only [contrib, hok]
  rw [if_pos (by simpa [hdone] using hstatus)]
  simp only [beq_iff_eq]

theorem contrib_of_not_ended (h : (contribCtx d k).state ≠ .done ∨ (contribCtx d k).status = 0) :
    contrib d k = seamContrib d a.env k a.src a.member := by
  rcases h with h | h <;> simp [contrib, hok, h]

end

/-! ## The seam (R142, R183) -/

/-- The slot of a contribution's slab, pass and rank. -/
abbrev contribSlot (d : Dev) (k : PktRx) : Slot :=
  getSlot (slabIn d (contribF k.words).ctx (contribF k.words).slab) (contribF k.words).pass (contribF k.words).rank

/-- The seam position of a contribution's slab. -/
abbrev contribPos (d : Dev) (k : PktRx) : Nat := seamPos d (contribF k.words).ctx (contribF k.words).slab

/-- The slot has taken the copy of a source. -/
def copyTaken (sl : Slot) (src : Source) : Bool := if src == .primary then sl.gotPri else sl.gotBak

theorem copyTaken_sourceOf (sl : Slot) (en : RankEntry) (mb : Nat) :
    copyTaken sl (sourceOf en mb) = if en.pri = mb then sl.gotPri else sl.gotBak := by
  by_cases hpri : en.pri = mb <;> simp [copyTaken, hpri]

section
variable {src : Source} {mb : Nat}

theorem seamContrib_of_taken (h : copyTaken (contribSlot d k) src = true) :
    seamContrib d e k src mb = spoilCopy d k (some (ctrSlotRepeat, (contribF k.words).ctx)) stOk :=
  if_pos h

variable (hnew : copyTaken (contribSlot d k) src = false)
include hnew

theorem seamContrib_of_retiring (h : posRetiring d (contribPos d k) = true) :
    seamContrib d e k src mb = refuseCopy d k src stAccumFull :=
  (if_neg (Bool.eq_false_iff.mp hnew)).trans (if_pos h)

variable (hstays : posRetiring d (contribPos d k) = false)
include hstays

/-- A copy not taken yet, at a seam that stays, goes by what its slot has of it. -/
theorem seamContrib_of_begun {c : RxCopy} (hrx : getRx (contribSlot d k) src = some c) :
    seamContrib d e k src mb = if c.refused != 0 then refuseCopy d k src c.refused else receive d e k src mb c := by
  refine (if_neg (Bool.eq_false_iff.mp hnew)).trans ((if_neg (Bool.eq_false_iff.mp hstays)).trans ?_)
  simp only [hrx]

theorem seamContrib_of_unbegun (hrx : getRx (contribSlot d k) src = none) :
    seamContrib d e k src mb =
      if (slabIn d (contribF k.words).ctx (contribF k.words).slab).low + 2 ≤ (contribF k.words).pass then
        refuseCopy (bump d ctrPassAhead (contribF k.words).ctx) k src stPassAhead
      else if accumFull d e (contribF k.words).ctx (contribPos d k) && !joinsAtOnce d e k src mb then
        refuseCopy (countFull d e (contribF k.words).ctx) k src stAccumFull
      else receive d e k src mb {} := by
  refine (if_neg (Bool.eq_false_iff.mp hnew)).trans ((if_neg (Bool.eq_false_iff.mp hstays)).trans ?_)
  simp only [hrx]

theorem seamContrib_of_refused {c : RxCopy} (hrx : getRx (contribSlot d k) src = some c) (hc : c.refused ≠ 0) :
    seamContrib d e k src mb = refuseCopy d k src c.refused :=
  (seamContrib_of_begun hnew hstays hrx).trans (if_pos (by simpa using hc))

theorem seamContrib_of_receiving {c : RxCopy} (hrx : getRx (contribSlot d k) src = some c) (hc : c.refused = 0) :
    seamContrib d e k src mb = receive d e k src mb c :=
  (seamContrib_of_begun hnew hstays hrx).trans (if_neg (by simp [hc]))

section
variable (hrx : getRx (contribSlot d k) src = none)
include hrx

theorem seamContrib_of_ahead (h : (slabIn d (contribF k.words).ctx (contribF k.words).slab).low + 2 ≤ (contribF k.words).pass) :
    seamContrib d e k src mb = refuseCopy (bump d ctrPassAhead (contribF k.words).ctx) k src stPassAhead :=
  (seamContrib_of_unbegun hnew hstays hrx).trans (if_pos h)

variable (hnear : (contribF k.words).pass < (slabIn d (contribF k.words).ctx (contribF k.words).slab).low + 2)
include hnear

theorem seamContrib_of_full (hfull : accumFull d e (contribF k.words).ctx (contribPos d k) = true)
    (hgrows : joinsAtOnce d e k src mb = false) :
    seamContrib d e k src mb = refuseCopy (countFull d e (contribF k.words).ctx) k src stAccumFull :=
  (seamContrib_of_unbegun hnew hstays hrx).trans ((if_neg (Nat.not_le.mpr hnear)).trans (if_pos (by simp [hfull, hgrows])))

theorem seamContrib_of_room
    (h : accumFull d e (contribF k.words).ctx (contribPos d k) = false ∨ joinsAtOnce d e k src mb = true) :
    seamContrib d e k src mb = receive d e k src mb {} := by
  refine (seamContrib_of_unbegun hnew hstays hrx).trans ((if_neg (Nat.not_le.mpr hnear)).trans (if_neg ?_))
  rcases h with h | h <;> simp [h]

end
end

/-! ## The statement -/

/-- Settles O44: the packet fails the first check whose lemma above applies, or passes them and is `seamContrib` unless its context has
ended; what the row gives then is settled, and residues act after it. -/
theorem contributionsAreCheckedInOrder : Obligations.ContributionsAreCheckedInOrder := by
  intro s k d harr f j x spoil gives
  have fails : ∀ {t}, checkContrib d k = .error t → gives t := gives_contrib_of_failed harr
  refine ⟨staleAnswer_eq x j, fun t ht r => ?residue, fun hno => fails (checkContrib_of_no_job hno), fun jb hjb =>
    ⟨fun r hr hactive => fails (checkContrib_of_replaying hjb hr hactive), fun hrun => ?running⟩⟩
  case residue =>
    rw [gives_inj ht (gives_contrib none harr rfl)]
    exact gives_contrib (some r) harr rfl
  case running =>
    have hcheck := checkContrib_of_not_replaying hjb hrun
    refine ⟨fun hnot => fails (hcheck.trans (holderChecks_of_not_holder hnot)), fun hheld =>
      ⟨fun hclosed => fails (hcheck.trans (holderChecks_of_closed hheld hclosed)), fun hlive =>
      ⟨fun hepoch => fails (hcheck.trans (holderChecks_of_other_epoch hheld hlive hepoch)), fun hepoch e henv => ?_⟩⟩⟩
    replace hcheck := hcheck.trans (holderChecks_of_current hheld hlive hepoch henv)
    intro en own from_
    refine ⟨fun hbad => fails (hcheck.trans (rankChecks_of_bad_rank hbad)), fun mb hown hfrom => ?_⟩
    replace hcheck := hcheck.trans (rankChecks_of_source hown hfrom)
    refine ⟨fun hother => fails (hcheck.trans (placeChecks_of_other_shape hother)), fun hshape hfmt =>
      ⟨fun hpass => fails (hcheck.trans (placeChecks_of_pass_out_of_range hshape hfmt hpass)),
      fun hpass hslab => fails (hcheck.trans (placeChecks_of_slab_out_of_range hshape hfmt hpass hslab)), fun hpass hslab => ?_⟩⟩
    replace hcheck := hcheck.trans (placeChecks_of_fits hshape hfmt hpass hslab)
    refine ⟨fun hdone hstatus => gives_contrib none harr (contrib_of_ended hcheck hdone hstatus), fun hnotEnded => ?_⟩
    intro src r sl
    have seam : ∀ {t}, seamContrib d e k src mb = t → gives t := fun ht =>
      gives_contrib none harr ((contrib_of_not_ended hcheck hnotEnded).trans ht)
    rw [← copyTaken_sourceOf sl en mb]
    exact ⟨fun htaken => seam (seamContrib_of_taken htaken), fun hnew hretiring => seam (seamContrib_of_retiring hnew hretiring),
      fun hnew hstays => ⟨fun c hrx hc => seam (seamContrib_of_receiving hnew hstays hrx hc),
        fun c hrx hc => seam (seamContrib_of_refused hnew hstays hrx hc), fun hrx =>
        ⟨fun hahead => seam (seamContrib_of_ahead hnew hstays hrx hahead),
          fun hnear hroom => seam (seamContrib_of_room hnew hstays hrx hnear (.inl hroom)), fun hnear hfull =>
          ⟨fun hjoins => seam (seamContrib_of_room hnew hstays hrx hnear (.inr hjoins)),
            fun hgrows => seam (seamContrib_of_full hnew hstays hrx hnear hfull hgrows)⟩⟩⟩⟩

end Sys2Proof.Machine
end

section
/-!
SUPPORT. A command up to its opcode's own checks (chapter 12): what the transport, the sender's checks and the opcode's row leave known
of a packet that passes them.
-/
namespace Sys2Proof.Machine

variable {d e : Dev} {p : CmdPkt} {s : Sender} {k : SessKey} {w : Waiting} {c : Cmd}

/-! ## What a packet that passes has met (Table 12-5) -/

/-- A failed check stops the packet, so one that goes on has passed it. -/
theorem run_of_ite_stop {bad : Prop} [Decidable bad] {x : Front} (h : (if bad then .stop d else x) = .run e c) : ¬ bad ∧ x = .run e c := by
  split at h
  · cases h
  · exact ⟨‹_›, h⟩

theorem run_of_ite_else_stop {ok : Prop} [Decidable ok] {x : Front} (h : (if ok then x else .stop d) = .run e c) : ok ∧ x = .run e c := by
  split at h
  · exact ⟨‹_›, h⟩
  · cases h

/-- Check 1 comes first; what passes it goes on to the sender's checks, an in-band packet on a device without its carrier. -/
theorem frontEnd_run (h : frontEnd d p = .run e c) :
    transportOk p = true ∧ (∀ port addr udp, p.src = .mgmt port addr udp → listensOn d port addr = true) ∧
    ∃ a, checkSender a p = .run e c := by
  unfold frontEnd at h
  cases hsrc : p.src with
  | inband port =>
    simp only [hsrc] at h
    obtain ⟨htransport, hsender⟩ := run_of_ite_else_stop (run_of_ite_stop h).2
    exact ⟨htransport, nofun, _, hsender⟩
  | mgmt port addr udp =>
    simp only [hsrc] at h
    obtain ⟨hserved, hchecked⟩ := run_of_ite_stop h
    obtain ⟨htransport, hsender⟩ := run_of_ite_else_stop hchecked
    have hlistens : listensOn d port addr = true := by
      simp only [Bool.or_eq_true, Bool.not_eq_true', not_or, Bool.not_eq_false] at hserved
      exact hserved.2
    refine ⟨htransport, fun port' addr' udp' heq => ?_, d, hsender⟩
    cases heq
    exact hlistens

/-- A command goes on only as one that is accepted under its SEQ. -/
theorem checkSeq_run {buf : Option Nat} (h : checkSeq d p s buf = .run e c) : ∃ a k w, runAccepted a p s k w = .run e c := by
  unfold checkSeq at h
  dsimp only at h
  split at h
  · split at h
    · cases h
    · exact ⟨_, _, _, h⟩
  · split at h
    · exact ⟨_, _, _, h⟩
    all_goals cases h

theorem checkSender_run (h : checkSender d p = .run e c) : ∃ s a k w, runAccepted a p s k w = .run e c := by
  unfold checkSender at h
  split at h
  · cases h
  · obtain ⟨-, hversion⟩ := run_of_ite_stop h
    obtain ⟨-, hlength⟩ := run_of_ite_stop hversion
    obtain ⟨-, hsession⟩ := run_of_ite_stop hlength
    split at hsession
    · cases hsession
    · exact ⟨_, checkSeq_run hsession⟩

/-- A failed check answers, so a packet that gets its row has passed it. -/
theorem ok_of_ite_error {bad : Prop} [Decidable bad] {x : Reply} {y : Except Reply OpRow} {r : OpRow}
    (h : (if bad then .error x else y) = .ok r) : y = .ok r := by
  split at h
  · cases h
  · exact h

/-- Checks 6 to 11 give the row of the packet's own opcode. -/
theorem headChecks_row {r : OpRow} (h : headChecks d p s = .ok r) : opRow (cmdOpcode p) = some r := by
  have hreserved := ok_of_ite_error h
  split at hreserved
  · cases hreserved
  · rename_i row hrow
    have hrest : Except.ok row = .ok r := ok_of_ite_error (ok_of_ite_error (ok_of_ite_error (ok_of_ite_error hreserved)))
    cases hrest
    exact hrow

/-- Only a segmented command gets another body than the packet's words. -/
theorem runAccepted_body {r : OpRow} {n : Nat} (h : runAccepted d p s k w = .run e c) (hrow : opRow (cmdOpcode p) = some r)
    (hfixed : r.body = .fixed n) : c.body = p.words.drop 4 := by
  unfold runAccepted at h
  split at h
  · cases h
  · rename_i row hok
    obtain rfl : row = r := Option.some.inj ((headChecks_row hok).symm.trans hrow)
    simp only [hfixed] at h
    cases h
    rfl

/-! ## The statements -/

/-- Settles O1: `step_of_front`, for every command and queue. -/
theorem stepRunsTheFrontCommand : Obligations.StepRunsTheFrontCommand := fun _ _ _ hfront => step_of_front hfront

/-- Settles O26: what the checks leave of the device, the packet's own opcode and job, and the module's readiness are the laws of
`frontEnd`; the transport and the address are `frontEnd_run`, the body `runAccepted_body`. -/
theorem sharedChecksChangeOnlyWhatIsAside : Obligations.SharedChecksChangeOnlyWhatIsAside := by
  intro s p d c hrun
  obtain ⟨htransport, hlistens, a, hsender⟩ := frontEnd_run hrun
  obtain ⟨who, a, k, w, haccepted⟩ := checkSender_run hsender
  have hcmd : CmdOf p c := frontEnd_cmd _ _ hrun
  exact ⟨frontEnd_aside _ _ hrun, hcmd.op, hcmd.job, frontEnd_answers hrun, htransport, hlistens,
    fun _ _ hrow hfixed => runAccepted_body haccepted hrow hfixed⟩

end Sys2Proof.Machine
end

section
/-!
SUPPORT. The final reply of a command (R396, R399): none of its work touches the other waiting commands.
-/
namespace Sys2Proof.Machine

variable {d : Dev} {w : Waiting} {r : Reply}

/-! ## What the management state keeps -/

/-- What every turn of a loop keeps, the loop keeps. -/
theorem forEach_keeps {α β : Type} (read : Dev → β) {f : Dev → α → Dev} (h : ∀ d x, read (f d x) = read d) (l : List α) (d : Dev) :
    read (forEach l d f) = read d := by
  induction l generalizing d with
  | nil => rfl
  | cons x l ih => exact (ih (f d x)).trans (h d x)

@[simp] theorem poolTake_mgmt (d : Dev) (p i req : Nat) (job : Option Nat) : (poolTake d p i req job).mgmt = d.mgmt := by
  unfold poolTake
  dsimp only
  split <;> rfl

@[simp] theorem quotaHit_mgmt (d : Dev) (j row : Nat) : (quotaHit d j row).mgmt = d.mgmt := rfl

@[simp] theorem poolAlloc_mgmt (d : Dev) (p req : Nat) (job : Option Nat) : (poolAlloc d p req job).1.mgmt = d.mgmt := by
  unfold poolAlloc
  repeat' split
  all_goals simp

@[simp] theorem poolFreeBuf_mgmt (d : Dev) (h : Nat) : (poolFreeBuf d h).mgmt = d.mgmt := by
  unfold poolFreeBuf
  dsimp only
  split <;> rfl

@[simp] theorem poolRelease_mgmt (d : Dev) (h : Nat) : (poolRelease d h).mgmt = d.mgmt := by
  unfold poolRelease
  split
  · rfl
  · split
    · exact poolFreeBuf_mgmt d h
    · rfl

@[simp] theorem poolReleaseOpt_mgmt (d : Dev) (h : Option Nat) : (poolReleaseOpt d h).mgmt = d.mgmt := by
  cases h with
  | none => rfl
  | some h => exact poolRelease_mgmt d h

/-- A pool that is not privileged raises no trap. -/
theorem allocOp_mgmt {p : Nat} (hpriv : poolPriv p = false) (d : Dev) (req : Nat) (job : Option Nat) :
    (allocOp d p req job).1.mgmt = d.mgmt := by
  cases hgot : poolAlloc d p req job with
  | mk d1 got =>
    have hkept : d1.mgmt = d.mgmt := by simpa only [hgot] using poolAlloc_mgmt d p req job
    cases got with
    | some h => simpa only [allocOp, hgot] using hkept
    | none =>
      simp only [allocOp, hgot, hpriv, Bool.false_eq_true, if_false]
      split <;> exact hkept

@[simp] theorem cacheReply_mgmt (d : Dev) (w : Waiting) (r : Reply) : (cacheReply d w r).1.mgmt = d.mgmt := by
  have hsmall (d : Dev) := allocOp_mgmt (p := 2) rfl d (srcReq w.src) none
  have hlarge := allocOp_mgmt (p := 3) rfl d (srcReq w.src) (if w.hjob < 64 then some w.hjob else none)
  unfold cacheReply
  dsimp only
  split
  · exact hsmall d
  · split
    · simpa [*] using hlarge
    · rename_i d1 hfull
      rw [hfull] at hlarge
      exact (hsmall d1).trans hlarge

@[simp] theorem countReject_mgmt (d : Dev) (w : Waiting) (r : Reply) : (countReject d w r).mgmt = d.mgmt := by
  unfold countReject
  dsimp only
  repeat' split
  all_goals rfl

@[simp] theorem freeSession_mgmt (d : Dev) (s : Session) : (freeSession d s).mgmt = d.mgmt := by
  have hhist : (forEach s.hist d fun d' h => poolReleaseOpt d' h.2.handle).mgmt = d.mgmt :=
    forEach_keeps (·.mgmt) (fun d h => poolReleaseOpt_mgmt d h.2.handle) s.hist d
  unfold freeSession
  split
  · exact (forEach_keeps (·.mgmt) poolRelease_mgmt _ _).trans hhist
  · exact hhist

/-! ## The waiting commands -/

@[simp] theorem keepReply_waiting (d : Dev) (w : Waiting) (r : Reply) (h : Option Nat) :
    (keepReply d w r h).mgmt.waiting = d.mgmt.waiting := by
  unfold keepReply
  split
  · rfl
  · rw [poolReleaseOpt_mgmt]

@[simp] theorem endDying_waiting (d : Dev) (w : Waiting) : (endDying d w).mgmt.waiting = d.mgmt.waiting :=
  forEach_keeps (·.mgmt.waiting) (fun d s => by rw [freeSession_mgmt]) _ _

@[simp] theorem sendOuvrov_waiting (d : Dev) (src : CmdSrc) (hjob : Nat) (words : List W64) :
    (sendOuvrov d src hjob words).mgmt.waiting = d.mgmt.waiting := by
  unfold sendOuvrov sendPort
  split
  · split <;> rfl
  · dsimp only
    split <;> rfl

/-- Is it the same command: of the same session, under the same SEQ (R398)? -/
def sameCommand (w v : Waiting) : Bool :=
  v.inband == w.inband && v.job == w.job && v.who == w.who && v.session == w.session && v.seq == w.seq

theorem sameCommand_iff {v : Waiting} : sameCommand w v = true ↔
    v.inband = w.inband ∧ v.job = w.job ∧ v.who = w.who ∧ v.session = w.session ∧ v.seq = w.seq := by
  simp [sameCommand, and_assoc]

/-- A final reply ends its own command and no other. -/
theorem finalReply_waiting (d : Dev) (w : Waiting) (r : Reply) :
    (finalReply d w r).mgmt.waiting = d.mgmt.waiting.filter fun v => !sameCommand w v := by
  unfold finalReply
  dsimp only
  split <;> simp [updMgmt, sameCommand]

/-! ## The statement -/

/-- Settles O27: a final reply changes what is aside by `finalReply_aside`, is sent last by `finalReply_sends`, and leaves waiting the
commands that `finalReply_waiting` names. -/
theorem finalReplyIsSentAndEndsTheCommand : Obligations.FinalReplyIsSentAndEndsTheCommand := by
  intro d w r
  refine ⟨finalReply_aside (Aside.refl d), fun hmuted htakeover hshort => ?sent, fun v hv => ?ended⟩
  case sent =>
    obtain ⟨e, -, hsent⟩ := finalReply_sends hmuted htakeover hshort
    exact ⟨e, hsent⟩
  case ended =>
    rw [finalReply_waiting] at hv
    obtain ⟨hmem, hother⟩ := List.mem_filter.mp hv
    exact ⟨hmem, fun hsame => by simp [sameCommand_iff.mpr hsame] at hother⟩

end Sys2Proof.Machine
end

section
/-!
SUPPORT. Module settings (R411, R429 to R431, R434, R480, R697): a retained record that is written, and the five commands that write a
setting.
-/
namespace Sys2Proof.Machine

variable {src : CmdSrc} {a b d e : Dev} {p : CmdPkt} {s : State} {c : Cmd} {f : CmdFn} {r : Reply}

/-! ## Writes that what is aside does not touch -/

theorem Aside.setFlash (h : Aside src a b) (f : Flash) : Aside src { a with flash := f } { b with flash := f } where
  rest := by rw [h.rest]
  ports := h.ports
  taken := h.taken

/-! ## A retained record (R687 to R690) -/

section
variable (rid len : Nat) (body : SMap W64)

@[simp] theorem raiseTrap_flash (d : Dev) (t : TrapInfo) : (raiseTrap d t).flash = d.flash :=
  (raiseTrap_aside (src := .inband 0) (Aside.refl d)).flash

theorem appendCopy_flash (d : Dev) (m : Nat) (c : RecCopy) :
    (appendCopy d m c).flash = d.flash.setDev m (((d.flash.dev m).place c).eraseAhead 64).1 := rfl

/-- A write on a mirror changes the flash, counts it, and may raise a trap. -/
theorem writeMirror_changes_flash (m fails : Nat) (d : Dev) (c : RecCopy) :
    Aside src { d with flash := (writeMirror m fails d c).flash } (writeMirror m fails d c) := by
  unfold writeMirror
  dsimp only
  split
  · exact .refl d
  · split
    · rw [raiseTrap_flash]
      exact raiseTrap_aside (.refl _)
    · exact bumpBy_aside (.refl _)

theorem writeMirror_flash_congr (h : a.flash = b.flash) (m fails : Nat) (c : RecCopy) :
    (writeMirror m fails a c).flash = (writeMirror m fails b c).flash := by
  unfold writeMirror
  rw [h]
  dsimp only
  split
  · exact h
  · split
    · rw [raiseTrap_flash, raiseTrap_flash]
    · rw [appendCopy_flash, appendCopy_flash]

/-- The copy that a write of a record puts on both mirrors (R689). -/
def recordCopy (f : Flash) (w : FlashWrite) : RecCopy := mkCopy w.rid (max (f.a.highest w.rid) (f.b.highest w.rid) + 1) w.len w.body

theorem flashCommit_eq (d : Dev) (w : FlashWrite) : flashCommit d w =
    writeMirror 1 (d.flash.fails.headD (0, 0)).2
      (writeMirror 0 (d.flash.fails.headD (0, 0)).1 { d with flash := { d.flash with fails := d.flash.fails.drop 1 } } (recordCopy d.flash w))
      (recordCopy d.flash w) := rfl

/-- It changes no more after a write that has changed the flash, and nothing else but what is aside. -/
theorem writeMirror_changes_flash_of (h : Aside src { a with flash := d.flash } d) (m fails : Nat) (c : RecCopy) :
    Aside src { a with flash := (writeMirror m fails d c).flash } (writeMirror m fails d c) :=
  (h.setFlash _).trans (writeMirror_changes_flash m fails d c)

theorem flashCommit_changes_flash (d : Dev) (w : FlashWrite) : Aside src { d with flash := (flashCommit d w).flash } (flashCommit d w) := by
  rw [flashCommit_eq]
  exact writeMirror_changes_flash_of (writeMirror_changes_flash_of (.refl _) 0 _ _) 1 _ _

theorem flashCommit_flash_congr (h : a.flash = b.flash) (w : FlashWrite) : (flashCommit a w).flash = (flashCommit b w).flash := by
  rw [flashCommit_eq, flashCommit_eq, h]
  refine writeMirror_flash_congr (writeMirror_flash_congr ?_ _ _ _) _ _ _
  rfl

theorem flashWrite_changes_flash (d : Dev) : Aside src { d with flash := (flashWrite d rid len body).flash } (flashWrite d rid len body) := by
  unfold flashWrite
  dsimp only
  split
  · exact .refl _
  · exact flashCommit_changes_flash d _

/-- What is written depends on nothing that is aside. -/
theorem flashWrite_flash_of_aside (h : Aside src a d) : (flashWrite d rid len body).flash = (flashWrite a rid len body).flash := by
  unfold flashWrite
  rw [h.clocks, h.flash, h.nowUs]
  dsimp only
  split
  · rfl
  · exact flashCommit_flash_congr h.flash _

/-- A record is written alike on a device on which only what is aside has changed. -/
theorem flashWrite_aside (h : Aside src a d) :
    Aside src { a with flash := (flashWrite a rid len body).flash } (flashWrite d rid len body) := by
  rw [← flashWrite_flash_of_aside rid len body h]
  exact (h.setFlash _).trans (flashWrite_changes_flash rid len body d)

end

/-! ## What the rows of commands give -/

/-- A command that answers at once. -/
theorem receiveCmd_of_run (hrun : frontEnd a p = .run d c) (hf : f d c = (e, some r)) : receiveCmd a p f = finalReply e c.w r := by
  simp [receiveCmd, hrun, runOwn, hf]

theorem gives_of_onCmd {op : Nat} {i : Instr} (hrow : exec i s = onCmd op p s f) (hran : Ran op p s d c) (hf : f d c = (e, some r)) :
    Gives i s (finalReply e c.w r) := hrow.trans (onCmd_done hran hf)

/-! ## AUTH_SET (R411, R429) -/

/-- The principal an AUTH_SET names. -/
def authIndex (c : Cmd) : Nat := field (wordAt c.body 0) 5 0

/-- The device with the record of an AUTH_SET written, or waiting for the flash interface. -/
def authStored (d : Dev) (c : Cmd) : Dev := flashWrite d 0x15 2048 (principalsBody d (authIndex c) c.body)

/-- The device with another table of principals. -/
def withPrincipals (d : Dev) (m : SMap Principal) : Dev := { d with mgmt := { d.mgmt with principals := m } }

/-- The principals after an AUTH_SET: one that it disables is not listed. -/
def authTable (m : SMap Principal) (c : Cmd) : SMap Principal :=
  if (principalBody c.body).role = 0 then SMap.del m (authIndex c) else SMap.set m (authIndex c) (principalBody c.body)

/-- The device once an AUTH_SET takes effect: the sessions of a principal that it disables end. -/
def authApplied (d : Dev) (c : Cmd) : Dev :=
  let d1 := withPrincipals d (authTable d.mgmt.principals c)
  if (principalBody c.body).role = 0 then disableSessions d1 (authIndex c) else d1

theorem authStored_aside (h : Aside src a d) (c : Cmd) : Aside src { a with flash := (authStored a c).flash } (authStored d c) := by
  have hbody : principalsBody d (authIndex c) c.body = principalsBody a (authIndex c) c.body := by simp only [principalsBody, flashRead, h.flash]
  unfold authStored
  rw [hbody]
  exact flashWrite_aside 0x15 2048 _ h

theorem withPrincipals_aside (h : Aside src a b) (m : SMap Principal) : Aside src (withPrincipals a m) (withPrincipals b m) where
  rest := by rw [h.rest]; rfl
  ports := h.ports
  taken := h.taken

theorem authApplied_aside (h : Aside src a d) (c : Cmd) :
    Aside src (withPrincipals a (authTable a.mgmt.principals c)) (authApplied d c) := by
  unfold authApplied
  dsimp only
  rw [h.principals]
  split
  · exact removeSessions_aside (updMgmt_aside (withPrincipals_aside h _) fun _ => rfl)
  · exact withPrincipals_aside h _

theorem doneStored_of_stored (h : d.flash.waits = []) : doneStored d c = done d := by simp [doneStored, h]

theorem doneStored_of_waits (h : d.flash.waits ≠ []) : doneStored d c = (waitOn d c 0, none) := by simp [doneStored, h]

/-- An AUTH_SET passes its checks: no reserved bit is set, and an entry that disables is otherwise zero. -/
structure AuthOk (c : Cmd) : Prop where
  operand : rsvdSet (wordAt c.body 0) [(63, 6)] = false
  entry   : rsvdSet (wordAt c.body 3) [(61, 48), (31, 0)] = false
  off     : (principalBody c.body).role ≠ 0 ∨
    (principalBody c.body).addr = 0 ∧ (principalBody c.body).udp = 0 ∧ (principalBody c.body).mask = 0

/-- It takes effect once its record stands; until then the command waits, and the table is the old one. -/
theorem authSetCmd_of_ok (h : AuthOk c) : authSetCmd d c =
    if (authStored d c).flash.waits = [] then done (authApplied (authStored d c) c) else (waitOn (authStored d c) c 0, none) := by
  have hpassed : authSetCmd d c =
      if !(authStored d c).flash.waits.isEmpty then doneStored (authStored d c) c else doneStored (authApplied (authStored d c) c) c := by
    refine checks_of_all_pass ?_
    simp only [List.forall_mem_cons]
    refine ⟨by simp [h.operand, h.entry], ?off, nofun⟩
    obtain hrole | ⟨haddr, hudp, hmask⟩ := h.off
    · simp [hrole]
    · simp [haddr, hudp, hmask]
  have hflash : (authApplied (authStored d c) c).flash = (authStored d c).flash :=
    (authApplied_aside (src := .inband 0) (.refl (authStored d c)) c).flash
  rw [hpassed]
  by_cases hstored : (authStored d c).flash.waits = []
  · rw [if_pos hstored, if_neg (by simp [hstored]), doneStored_of_stored (hflash ▸ hstored)]
  · rw [if_neg hstored, if_pos (by simp [hstored]), doneStored_of_waits hstored]

theorem replies_authSet (hran : Ran 0x0002 p s d c) (h : AuthOk c) (hstored : (authStored s.dev c).flash.waits = []) :
    Replies (.authSet p) p s
      (withPrincipals { s.dev with flash := (authStored s.dev c).flash } (authTable s.dev.mgmt.principals c)) (plainReply stOk 0) := by
  have hside : Aside p.src s.dev d := frontEnd_aside _ _ hran.2
  have hempty : (authStored d c).flash.waits = [] := by rwa [(authStored_aside hside c).flash]
  have hdone : authSetCmd d c = done (authApplied (authStored d c) c) := (authSetCmd_of_ok h).trans (if_pos hempty)
  exact replies_of rfl hran hdone (Nat.zero_le 8) (fun h => authApplied_aside (authStored_aside h c) c) rfl

theorem gives_authSet_of_waits (hran : Ran 0x0002 p s d c) (h : AuthOk c) (hwaits : (authStored s.dev c).flash.waits ≠ []) :
    Gives (.authSet p) s (waitOn (authStored d c) c 0) := by
  have hside : Aside p.src s.dev d := frontEnd_aside _ _ hran.2
  have hheld : (authStored d c).flash.waits ≠ [] := by rwa [(authStored_aside hside c).flash]
  exact onCmd_waits hran ((authSetCmd_of_ok h).trans (if_neg hheld))

/-! ## TELEM_SET (R434, R751) -/

/-- The sink a TELEM_SET names. -/
def telemIndex (c : Cmd) : Nat := field (wordAt c.body 2) 33 32

/-- The sink of a TELEM_SET. -/
def telemSink (d : Dev) (c : Cmd) : Sink :=
  { addr := BitVec.ofNat 128 ((wordAt c.body 0).toNat + 2 ^ 64 * (wordAt c.body 1).toNat), udp := field (wordAt c.body 2) 63 48
    mport := field (wordAt c.body 2) 34 34, period := field (wordAt c.body 2) 31 0, mask := (wordAt c.body 3).toNat, lastAt := d.nowUs }

/-- The device with another table of sinks. -/
def withSinks (d : Dev) (m : SMap Sink) : Dev := { d with mgmt := { d.mgmt with sinks := m } }

theorem withSinks_aside (h : Aside src a b) (m : SMap Sink) : Aside src (withSinks a m) (withSinks b m) where
  rest := by rw [h.rest]; rfl
  ports := h.ports
  taken := h.taken

/-- The sinks after a TELEM_SET: one whose period is 0 is not listed. -/
def telemTable (d : Dev) (c : Cmd) : SMap Sink :=
  if field (wordAt c.body 2) 31 0 = 0 then SMap.del d.mgmt.sinks (telemIndex c) else SMap.set d.mgmt.sinks (telemIndex c) (telemSink d c)

theorem telemTable_of_aside (h : Aside src a d) (c : Cmd) : telemTable d c = telemTable a c := by
  simp only [telemTable, telemSink, h.sinks, h.nowUs]

/-- A TELEM_SET passes its checks: no reserved bit is set, the period is 0 or within R434's range, and the mask has the streams' eight bits. -/
structure TelemOk (c : Cmd) : Prop where
  operand : rsvdSet (wordAt c.body 2) [(47, 35)] = false
  period  : field (wordAt c.body 2) 31 0 = 0 ∨ 1000 ≤ field (wordAt c.body 2) 31 0 ∧ field (wordAt c.body 2) 31 0 ≤ 10000000
  mask    : (wordAt c.body 3).toNat < 256

theorem telemSetCmd_of_ok (h : TelemOk c) : telemSetCmd d c = done (withSinks d (telemTable d c)) := by
  refine checks_of_all_pass ?_
  simp only [List.forall_mem_cons]
  refine ⟨h.operand, ?period, ?mask, nofun⟩
  case period =>
    obtain hoff | ⟨hlow, hhigh⟩ := h.period
    · simp [hoff]
    · simp [Nat.not_lt.mpr hlow, Nat.not_lt.mpr hhigh]
  case mask => simpa using h.mask

theorem replies_telemSet (hran : Ran 0x0008 p s d c) (h : TelemOk c) :
    Replies (.telemSet p) p s (withSinks s.dev (telemTable s.dev c)) (plainReply stOk 0) := by
  refine replies_of rfl hran (telemSetCmd_of_ok h) (Nat.zero_le 8) (fun hside => ?_) rfl
  rw [telemTable_of_aside hside]
  exact withSinks_aside hside _

/-! ## PATCH_LOAD (R430, R697) -/

theorem patchLoadCmd_of_ok (hform : patchBad d c.body = false) (hsigned : Config.patchSigned c.body = true)
    (hnewer : storedPatchVer d < field (wordAt c.body 0) 31 0) :
    patchLoadCmd d c = done (flashWrite d 0x18 (8 * c.body.length) (sparseWords 0 c.body)) := by
  refine checks_of_all_pass ?_
  simp only [List.forall_mem_cons]
  exact ⟨hform, by simp [hsigned], by simpa using hnewer, nofun⟩

theorem patchLoadCmd_of_unsigned (hform : patchBad d c.body = false) (hsigned : Config.patchSigned c.body = false) :
    patchLoadCmd d c = (d, some (plainReply stBadSig 2)) := by
  simp [patchLoadCmd, checks, checks.go, hform, hsigned, fail, failReply]

/-! ## PORT_CONFIG (R431) -/

/-- The port a PORT_CONFIG names. -/
def roleIndex (c : Cmd) : Nat := field (wordAt c.body 0) 8 0

/-- The role a PORT_CONFIG gives. -/
def roleGiven (c : Cmd) : Nat := field (wordAt c.body 0) 10 9

/-- A PORT_CONFIG passes its checks: the position can take the role, its die has a slice for it (R39), and no member's port changes role. -/
structure RoleOk (d : Dev) (c : Cmd) : Prop where
  operand  : rsvdSet (wordAt c.body 0) [(63, 11)] = false
  port     : roleIndex c ≤ 287
  role     : roleGiven c ≠ 3
  member   : ¬(256 ≤ roleIndex c ∧ roleGiven c = 1)
  present  : posState d (roleIndex c) ≠ 2
  room     : ¬(roleIndex c < 256 ∧ roleGiven c ≠ 0 ∧ (getPort d (roleIndex c)).role = 0 ∧ 14 ≤ activePorts d (roleIndex c / 16))
  attached : portAttached d (roleIndex c) = true → roleGiven c = 1

/-- The device with the port in its new role and the roles stored. -/
def roleStored (d : Dev) (c : Cmd) : Dev :=
  flashWrite (setRole d (roleIndex c) (roleGiven c)) 0x12 288 (rolesBody (setRole d (roleIndex c) (roleGiven c)))

theorem portConfigCmd_of_ok (h : RoleOk d c) : portConfigCmd d c = done (roleStored d c) := by
  refine checks_of_all_pass ?_
  simp only [List.forall_mem_cons]
  refine ⟨?operand, ?member, ?present, ?room, ?attached, nofun⟩
  case operand => simpa [h.operand, roleIndex, roleGiven] using And.intro h.port h.role
  case member => simpa [roleIndex, roleGiven] using h.member
  case present => simpa [roleIndex] using h.present
  case room => simpa [roleIndex, roleGiven] using h.room
  case attached => simpa [roleIndex, roleGiven] using h.attached

theorem gives_portConfig (hran : Ran 0x0004 p s d c) (h : RoleOk d c) :
    Gives (.portConfig p) s (settleLinks s.dev (finalReply (roleStored d c) c.w (plainReply stOk 0))) := by
  rw [← receiveCmd_of_run hran.2 (portConfigCmd_of_ok h)]
  exact onUnit_of_ok hran.1 s fun d => settleLinks d (receiveCmd d p portConfigCmd)

/-! ## CABLE_PLAN_LOAD (R480, R687) -/

/-- The entries of a cabling plan. -/
def planEntries (c : Cmd) : List (W64 × W64) := (List.range (field (wordAt c.body 0) 8 0)).map (planWords c.body)

/-- A CABLE_PLAN_LOAD passes its checks: as many entries as its count, each within Table 13-16, for ports that differ. -/
structure PlanOk (c : Cmd) : Prop where
  operand  : rsvdSet (wordAt c.body 0) [(63, 9)] = false
  entry    : ∀ e ∈ planEntries c, rsvdSet e.1 [(63, 32), (15, 9)] = false
  size     : c.body.length = 1 + 2 * field (wordAt c.body 0) 8 0
  nonempty : 1 ≤ field (wordAt c.body 0) 8 0
  most     : field (wordAt c.body 0) 8 0 ≤ 288
  fields   : ∀ e ∈ planEntries c, planPort e ≤ 287 ∧ planBad e = false
  nodup    : ((planEntries c).map planPort).Nodup

/-- The device with the plan stored and in force for the next check; a pair that was turned back may be released again (R581). -/
def planStored (d : Dev) (c : Cmd) : Dev :=
  let f := flashWrite d 0x13 (8 * c.body.length) (sparseWords 0 c.body)
  { f with fabric := { f.fabric with plan := planMap (planEntries c), pairs := f.fabric.pairs.map fun x => { x with reverted := false } } }

theorem cablePlanCmd_of_ok (h : PlanOk c) : cablePlanCmd d c = done (planStored d c) := by
  refine checks_of_all_pass ?_
  simp only [List.forall_mem_cons]
  refine ⟨?first, ?second, nofun⟩
  case first => simpa [planEntries, h.operand, h.size] using h.entry
  case second =>
    have hnonempty : field (wordAt c.body 0) 8 0 ≠ 0 := Nat.one_le_iff_ne_zero.mp h.nonempty
    have hports : ((planEntries c).any fun e => decide (287 < planPort e) || planBad e) = false :=
      List.any_eq_false.mpr fun e he => by simpa using h.fields e he
    have hdistinct : decide ((planEntries c).map planPort).Nodup = true := decide_eq_true h.nodup
    change (_ || _ || (planEntries c).any _ || !decide ((planEntries c).map planPort).Nodup) = false
    rw [hports, hdistinct]
    simpa [hnonempty] using h.most

/-! ## The statement -/

/-- Settles O29: the hypotheses are the checks that each command's `Ok` structure names, and the command then gives what its lemma above
says; AUTH_SET and TELEM_SET list or unlist by `authTable` and `telemTable`. -/
theorem settingsAreWritten : Obligations.SettingsAreWritten := by
  refine ⟨fun p s d c => ⟨?set, ?del, ?wait, ?telem, ?off⟩, fun p s d c => ⟨?patch, ?role, ?plan⟩⟩
  case set =>
    intro hran hword hentry hrole hstored
    obtain ⟨t, hgives, hside, hanswers⟩ := replies_authSet hran ⟨hword, hentry, .inl hrole⟩ hstored
    exact ⟨t, hgives, hside.principals.trans (if_neg hrole), hside.flash, hside.jobs, hside.sinks, hanswers⟩
  case del =>
    intro hran hword hentry hrole haddr hudp hmask hstored
    obtain ⟨t, hgives, hside, hanswers⟩ := replies_authSet hran ⟨hword, hentry, .inr ⟨haddr, hudp, hmask⟩⟩ hstored
    exact ⟨t, hgives, hside.principals.trans (if_pos hrole), hside.flash, hside.jobs, hanswers⟩
  case wait => exact fun hran hword hentry hoff hwaits => gives_authSet_of_waits hran ⟨hword, hentry, hoff⟩ hwaits
  case telem =>
    intro hran hword hlow hhigh hmask
    have hon : telemTable s.dev c = SMap.set s.dev.mgmt.sinks (telemIndex c) (telemSink s.dev c) := if_neg (by omega)
    have h := replies_telemSet hran ⟨hword, .inr ⟨hlow, hhigh⟩, hmask⟩
    rwa [hon] at h
  case off =>
    intro hran hword hper hmask
    have hoff : telemTable s.dev c = SMap.del s.dev.mgmt.sinks (telemIndex c) := if_pos hper
    have h := replies_telemSet hran ⟨hword, .inl hper, hmask⟩
    rwa [hoff] at h
  case patch =>
    exact fun hran hform => ⟨fun hsigned hnewer => gives_of_onCmd rfl hran (patchLoadCmd_of_ok hform hsigned hnewer),
      fun hunsigned => gives_of_onCmd rfl hran (patchLoadCmd_of_unsigned hform hunsigned)⟩
  case role =>
    exact fun hran hword hport hrole hmember hpresent hroom hattached =>
      gives_portConfig hran ⟨hword, hport, hrole, hmember, hpresent, hroom, hattached⟩
  case plan =>
    exact fun hran hword hentry hsize hsome hmost hfields hnodup =>
      gives_of_onCmd rfl hran (cablePlanCmd_of_ok ⟨hword, hentry, hsize, hsome, hmost, hfields, hnodup⟩)

end Sys2Proof.Machine
end

section
/-!
SUPPORT. What the rows of commands give, answered or waiting, and writes of the object tables that leave aside what is aside.
-/
namespace Sys2Proof.Machine

variable {src : CmdSrc} {a b d e : Dev} {p : CmdPkt} {s : State} {c : Cmd} {f : CmdFn} {r : Reply} {op : Nat} {i : Instr}

/-! ## Rows that only answer or wait -/

theorem gives_of_onCmd_waits (hrow : exec i s = onCmd op p s f) (hran : Ran op p s d c) (hf : f d c = (e, none)) : Gives i s e :=
  hrow.trans (onCmd_waits hran hf)

/-- A command that reads answers, and changes nothing but what is aside. -/
theorem replies_of_doneWith {ws : List W64} (hrow : exec i s = onCmd op p s f) (hran : Ran op p s d c) (hf : f d c = doneWith d ws)
    (hshort : ws.length ≤ 8) : Replies i p s s.dev (okReply ws) :=
  replies_of hrow hran hf hshort id rfl

/-- A command whose effect is the same on a device on which only what is aside has changed. -/
theorem replies_of_done {g : Dev → Dev} (hrow : exec i s = onCmd op p s f) (hran : Ran op p s d c) (hf : f d c = done (g d))
    (hside : Aside p.src s.dev d → Aside p.src (g s.dev) (g d)) (hkept : (g s.dev).start.takeover = s.dev.start.takeover) :
    Replies i p s (g s.dev) (plainReply stOk 0) :=
  replies_of hrow hran hf (Nat.zero_le 8) hside hkept

/-! ## Rows that let work of the jobs or the links go on -/

theorem receiveCmd_of_run_waits (hrun : frontEnd a p = .run d c) (hf : f d c = (e, none)) : receiveCmd a p f = e := by
  simp [receiveCmd, hrun, runOwn, hf]

theorem gives_of_onStepCmd (hrow : exec i s = onStepCmd op p s f) (hran : Ran op p s d c) (hf : f d c = (e, some r)) :
    Gives i s (poolsSettle (flushAll (finalReply e c.w r))) := by
  rw [Gives, hrow, onStepCmd, onUnit_of_ok hran.1, receiveCmd_of_run hran.2 hf]

theorem gives_of_onStepCmd_waits (hrow : exec i s = onStepCmd op p s f) (hran : Ran op p s d c) (hf : f d c = (e, none)) :
    Gives i s (poolsSettle (flushAll e)) := by
  rw [Gives, hrow, onStepCmd, onUnit_of_ok hran.1, receiveCmd_of_run_waits hran.2 hf]

theorem gives_of_onLinkCmd (hrow : exec i s = onLinkCmd op p s f) (hran : Ran op p s d c) (hf : f d c = (e, some r)) :
    Gives i s (poolsSettle (flushAll (settleLinks s.dev (finalReply e c.w r)))) := by
  rw [Gives, hrow, onLinkCmd, onUnit_of_ok hran.1, receiveCmd_of_run hran.2 hf]

theorem gives_of_onLinkCmd_waits (hrow : exec i s = onLinkCmd op p s f) (hran : Ran op p s d c) (hf : f d c = (e, none)) :
    Gives i s (poolsSettle (flushAll (settleLinks s.dev e))) := by
  rw [Gives, hrow, onLinkCmd, onUnit_of_ok hran.1, receiveCmd_of_run_waits hran.2 hf]

/-! ## The object tables -/

theorem Ran.aside (h : Ran op p s d c) : Aside p.src s.dev d := frontEnd_aside _ _ h.2

theorem Aside.getJob (h : Aside src a b) (j : Nat) : getJob b j = getJob a j := congrArg (SMap.get? · j) h.jobs

theorem Aside.getCtx (h : Aside src a b) (n : Nat) : getCtx b n = getCtx a n := by simp only [Machine.getCtx, h.ctxs, h.left]

theorem Aside.setJob (h : Aside src a b) (j : Nat) (jb : Job) : Aside src (setJob a j jb) (setJob b j jb) where
  rest := by rw [Machine.setJob, Machine.setJob, h.rest]
  ports := h.ports
  taken := h.taken

theorem Aside.setRules (h : Aside src a b) (m : SMap RuleSlot) : Aside src { a with rules := m } { b with rules := m } where
  rest := by rw [h.rest]
  ports := h.ports
  taken := h.taken

theorem Aside.setScheds (h : Aside src a b) (m : SMap SchedEntry) : Aside src { a with scheds := m } { b with scheds := m } where
  rest := by rw [h.rest]
  ports := h.ports
  taken := h.taken

theorem Aside.setSyncs (h : Aside src a b) (m : SMap SyncObj) : Aside src { a with syncs := m } { b with syncs := m } where
  rest := by rw [h.rest]
  ports := h.ports
  taken := h.taken

end Sys2Proof.Machine
end

section
/-!
SUPPORT. Commands that read (R426, R428, R432, R433, R442, R455, R460, R463, R472, R475, R481, R482): each answers the words of its table
from the device it finds.
-/
namespace Sys2Proof.Machine

variable {src : CmdSrc} {a d : Dev} {c : Cmd} {jb : Job}

/-! ## Words that do not depend on what is aside -/

theorem moduleInfoCmd_of_aside (h : Aside src a d) : moduleInfoCmd d c = doneWith d (moduleInfoWords a) := by
  simp only [moduleInfoCmd, moduleInfoWords, h.fac, h.start]

theorem ownPos_of_aside (h : Aside src a d) : ownPos d = ownPos a := by simp only [ownPos, h.parity]

theorem parityReadCmd_of_aside (h : Aside src a d) : parityReadCmd d c = doneWith d (parityReadWords a) := by
  simp only [parityReadCmd, parityReadWords, rebuiltSlabs, ownPos_of_aside h, h.parity, h.jobs]

theorem length_ctxReadWords_le (x : Ctx) : (ctxReadWords x).length ≤ 8 := by
  unfold ctxReadWords
  split <;> simp

/-! ## The own checks of the reads -/

theorem jobReadCmd_of_job (hjb : getJob d c.job = some jb) : jobReadCmd d c = doneWith d (jobReadWords jb) := by
  simp only [jobReadCmd, hjb]

theorem snapReadCmd_of_job (hjb : getJob d c.job = some jb) : snapReadCmd d c = doneWith d (snapReadWords jb) := by
  simp only [snapReadCmd, hjb]

/-- A context is read by the job that holds it, or by any where none does. -/
theorem ctxReadCmd_of_ok (hword : rsvdSet (wordAt c.body 0) [(63, 14)] = false)
    (hholder : (getCtx d (field (wordAt c.body 0) 13 0)).holder = none ∨ (getCtx d (field (wordAt c.body 0) 13 0)).holder = some c.job) :
    ctxReadCmd d c = doneWith d (ctxReadWords (getCtx d (field (wordAt c.body 0) 13 0))) := by
  have hauth : ((getCtx d (field (wordAt c.body 0) 13 0)).holder.isSome &&
      (getCtx d (field (wordAt c.body 0) 13 0)).holder != some c.job) = false := by
    obtain h | h := hholder <;> simp [h]
  simp [ctxReadCmd, hword, hauth]

/-- The four words of SCHED_READ (R455). -/
def schedReadWords (e : SchedEntry) (c : Cmd) : List W64 :=
  let v := schedule e.words (field (wordAt c.body 1) 47 0)
  [v.lr, v.k1, v.k2, v.k3]

theorem schedReadCmd_of_ok {e : SchedEntry} (hword : rsvdSet (wordAt c.body 0) [(63, 12)] = false)
    (hstep : rsvdSet (wordAt c.body 1) [(63, 48)] = false)
    (hheld : SMap.get? d.scheds (field (wordAt c.body 0) 11 0) = some e) (hjob : e.job = c.job) :
    schedReadCmd d c = doneWith d (schedReadWords e c) := by
  simp only [schedReadCmd, hheld]
  refine checks_of_all_pass ?_
  simp [hword, hstep, hjob]

/-! ## Registers (R432, R433) -/

/-- The addresses a register read names. -/
def namedAddrs (c : Cmd) : List Nat := readAddrs (field (wordAt c.body 0) 31 0) (field (wordAt c.body 0) 47 32)

/-- A register read passes its checks: 1 to 176 words, each of which `mapped` finds. -/
structure ReadOk (mapped : Nat → Bool) (c : Cmd) : Prop where
  operand : rsvdSet (wordAt c.body 0) [(63, 48)] = false
  any     : 1 ≤ field (wordAt c.body 0) 47 32
  most    : field (wordAt c.body 0) 47 32 ≤ 176
  aligned : field (wordAt c.body 0) 2 0 = 0
  mapped  : ∀ a ∈ namedAddrs c, mapped a = true

/-- Check 1 of a register read. -/
theorem ReadOk.count {mapped : Nat → Bool} (h : ReadOk mapped c) :
    (rsvdSet (wordAt c.body 0) [(63, 48)] || field (wordAt c.body 0) 47 32 == 0 || decide (176 < field (wordAt c.body 0) 47 32)) = false := by
  simpa [h.operand, h.most] using Nat.one_le_iff_ne_zero.mp h.any

theorem ReadOk.none_unmapped {mapped : Nat → Bool} (h : ReadOk mapped c) : ((namedAddrs c).any fun a => !mapped a) = false :=
  List.any_eq_false.mpr fun a ha => by simp [h.mapped a ha]

/-- Only the measured reference offset of CLK_STATUS, at 0x208, draws a free value. -/
theorem regReadCmd_of_ok (h : ReadOk regMapped c) : regReadCmd d c =
    if 0x208 ∈ namedAddrs c then
      doneWith (drawFree d).2 ((namedAddrs c).map (regWordFor d (readerMask c.sender) (drawFree d).1))
    else doneWith d ((namedAddrs c).map (regWordFor d (readerMask c.sender) 0)) := by
  have hpassed : regReadCmd d c =
      doneWith (if (namedAddrs c).contains 0x208 then drawFree d else (0, d)).2
        ((namedAddrs c).map (regWordFor d (readerMask c.sender) (if (namedAddrs c).contains 0x208 then drawFree d else (0, d)).1)) := by
    refine checks_of_all_pass ?_
    simp only [List.forall_mem_cons]
    exact ⟨h.count, by simpa [h.aligned, namedAddrs] using h.mapped, nofun⟩
  rw [hpassed]
  by_cases hclk : 0x208 ∈ namedAddrs c <;> simp [hclk]

theorem jobRegReadCmd_of_ok (h : ReadOk (fun a => (jobWindowWord d c.job a).isSome) c) :
    jobRegReadCmd d c = doneWith d ((namedAddrs c).map fun a => (jobWindowWord d c.job a).getD 0) := by
  refine checks_of_all_pass ?_
  simp only [List.forall_mem_cons]
  exact ⟨h.count, by simpa [h.aligned, namedAddrs] using h.none_unmapped, nofun⟩

/-! ## Results that are read in pages (R426) -/

theorem graphReadCmd_of_ok {gr : Graph} (hjb : getJob d c.job = some jb)
    (hgr : SMap.get? jb.graphs (field (wordAt c.body 0) 39 32) = some gr) (hword : rsvdSet (wordAt c.body 0) [(63, 40)] = false)
    (haligned : field (wordAt c.body 0) 2 0 = 0) :
    graphReadCmd d c = doneWith d (pagedWords (gr.nodes.map fun e => nodeByte e.2) (field (wordAt c.body 0) 31 0)) := by
  simp [graphReadCmd, hjb, hgr, hword, haligned]

theorem cableReportCmd_of_ok (hword : rsvdSet (wordAt c.body 0) [(63, 32)] = false) (haligned : field (wordAt c.body 0) 2 0 = 0) :
    cableReportCmd d c =
      doneWith d (pagedWords (wordsBytes ((List.range 288).flatMap (cableRecord d))) (field (wordAt c.body 0) 31 0)) := by
  simp [cableReportCmd, hword, haligned]

theorem spareReadCmd_of_ok (hword : rsvdSet (wordAt c.body 0) [(63, 32)] = false) (haligned : field (wordAt c.body 0) 2 0 = 0) :
    spareReadCmd d c = doneWith d (pagedWords (wordsBytes (spareWords d)) (field (wordAt c.body 0) 31 0)) := by
  simp [spareReadCmd, hword, haligned]

/-! ## The statement -/

/-- Settles O28: what a read of at most eight words answers is the same on the device before the shared checks; a register read and a page
are answered from the device that the shared checks leave. -/
theorem readCommandsAnswerAndChangeNothing : Obligations.ReadCommandsAnswerAndChangeNothing := by
  refine ⟨fun p s d c => ⟨fun hran => ?moduleInfo, fun jb hran hjb => ?jobRead, fun jb hran hjb => ?snapRead, fun hran => ?parityRead,
      fun hran hword hholder => ?ctxRead, fun e hran hword hstep hheld hjob => ?schedRead⟩,
    fun p s d c => ⟨fun hran hword hsome hmost haligned hmapped hclk => ?regRead, fun hran hword hsome hmost haligned hmapped hclk => ?regReadClk,
      fun hran hword hsome hmost haligned hmapped => ?jobRegRead, fun jb gr hran hjb hgr hword haligned => ?graphRead,
      fun hran hword haligned => ?cableReport, fun hran hword haligned => ?spareRead⟩⟩
  case moduleInfo => exact replies_of_doneWith rfl hran (moduleInfoCmd_of_aside hran.aside) (by simp)
  case jobRead => exact replies_of_doneWith rfl hran (jobReadCmd_of_job ((hran.aside.getJob _).trans hjb)) (by simp)
  case snapRead => exact replies_of_doneWith rfl hran (snapReadCmd_of_job ((hran.aside.getJob _).trans hjb)) (by simp)
  case parityRead => exact replies_of_doneWith rfl hran (parityReadCmd_of_aside hran.aside) (by simp [parityReadWords])
  case ctxRead =>
    rw [← hran.aside.getCtx] at hholder ⊢
    exact replies_of_doneWith rfl hran (ctxReadCmd_of_ok hword hholder) (length_ctxReadWords_le _)
  case schedRead => exact replies_of_doneWith rfl hran (schedReadCmd_of_ok hword hstep (hran.aside.scheds ▸ hheld) hjob) (by simp)
  case regRead =>
    have hnone : 0x208 ∉ namedAddrs c := fun hin => hclk _ hin rfl
    exact gives_of_onCmd rfl hran ((regReadCmd_of_ok ⟨hword, hsome, hmost, haligned, hmapped⟩).trans (if_neg hnone))
  case regReadClk => exact gives_of_onCmd rfl hran ((regReadCmd_of_ok ⟨hword, hsome, hmost, haligned, hmapped⟩).trans (if_pos hclk))
  case jobRegRead => exact gives_of_onCmd rfl hran (jobRegReadCmd_of_ok ⟨hword, hsome, hmost, haligned, hmapped⟩)
  case graphRead => exact gives_of_onCmd rfl hran (graphReadCmd_of_ok hjb hgr hword haligned)
  case cableReport => exact gives_of_onCmd rfl hran (cableReportCmd_of_ok hword haligned)
  case spareRead => exact gives_of_onCmd rfl hran (spareReadCmd_of_ok hword haligned)

end Sys2Proof.Machine
end

section
/-!
SUPPORT. Writes of registers (R433, R586, R706, R743, R749, Table 23-1): what a write does at each address, and that its reply waits with
a record that waits for the flash interface.
-/
namespace Sys2Proof.Machine

variable {d e : Dev} {p : CmdPkt} {s : State} {c : Cmd} {a k q : Nat} {v : W64} {i : Instr}

/-! ## What a write does at an address -/

theorem inBlock_iff {base n : Nat} : inBlock a base n = true ↔ base ≤ a ∧ a < base + n := by simp [inBlock]

/-- FABRIC_CFG written, in the device. -/
def withFabricCfg (d : Dev) (v : W64) : Dev := { d with fabric := { d.fabric with cfg := cfgBits v } }

/-- Word `k` of FABRIC_MAP written, in the device. -/
def withFabricMap (d : Dev) (k : Nat) (v : W64) : Dev := { d with fabric := { d.fabric with map := putSparse d.fabric.map k v } }

/-- The pairs of job `j` written, in the device. -/
def withJobPairs (d : Dev) (j : Nat) (v : W64) : Dev :=
  { d with fabric := { d.fabric with jobPairs := putSparse d.fabric.jobPairs j (BitVec.ofNat 64 (field v 15 0)) } }

/-- Word `k` of MGMT_ADDR written, in the device; the last word of a port has sixteen bits (Table 21-6). -/
def withMgmtAddr (d : Dev) (k : Nat) (v : W64) : Dev :=
  { d with mgmt := { d.mgmt with addr := putSparse d.mgmt.addr k (if k % 6 = 5 then BitVec.ofNat 64 (field v 15 0) else v) } }

/-- The device with its FABRIC record stored. -/
def fabricStored (d : Dev) : Dev := flashWrite d 0x14 4104 (fabricBody d)

/-- The device with its MGMT_ADDR record stored. -/
def mgmtAddrStored (d : Dev) : Dev := flashWrite d 0x16 96 d.mgmt.addr

theorem regWrite_fabricCfg : regWrite d 0x300 v = some (fabricStored (withFabricCfg d v)) := rfl

theorem regWrite_trapCtl : regWrite d 0x2600 v = some (writeTrapCtl d (field v 31 0)) := rfl

/-- The bypass control register is not written. -/
theorem regWrite_bypassCtl : regWrite d 0x2380 v = none := rfl

theorem regWrite_of_unaligned (h : a % 8 ≠ 0) : regWrite d a v = none := if_pos (by simpa using h)

theorem regWrite_fabricMap (hk : k < 512) : regWrite d (0x1000 + 8 * k) v = some (fabricStored (withFabricMap d k v)) := by
  have hword : (0x1000 + 8 * k - 0x1000) / 8 = k := by omega
  rw [regWrite, if_neg (by simp), if_neg (by omega), if_pos (inBlock_iff.mpr ⟨by omega, by omega⟩), hword]
  rfl

theorem regWrite_jobPairs (hk : k < 64) : regWrite d (0x2000 + 8 * k) v = some (withJobPairs d k v) := by
  have hword : (0x2000 + 8 * k - 0x2000) / 8 = k := by omega
  rw [regWrite, if_neg (by simp), if_neg (by omega), if_neg (by rw [inBlock_iff]; omega),
    if_pos (inBlock_iff.mpr ⟨by omega, by omega⟩), hword]
  rfl

theorem regWrite_mgmtAddr (hk : k < 12) : regWrite d (0x2200 + 8 * k) v = some (mgmtAddrStored (withMgmtAddr d k v)) := by
  have hword : (0x2200 + 8 * k - 0x2200) / 8 = k := by omega
  rw [regWrite, if_neg (by simp), if_neg (by omega), if_neg (by rw [inBlock_iff]; omega), if_neg (by rw [inBlock_iff]; omega),
    if_pos (inBlock_iff.mpr ⟨by omega, by omega⟩), hword]
  rfl

/-- A capture record is rearmed by a write of its first word. -/
theorem regWrite_capture (hq : q < 288) : regWrite d (0x4000 + 64 * q) v = some (setPort d q { getPort d q with capture := none }) := by
  have hport : (0x4000 + 64 * q - 0x4000) / 64 = q := by omega
  rw [regWrite, if_neg (by simp; omega), if_neg (by omega), if_neg (by rw [inBlock_iff]; omega), if_neg (by rw [inBlock_iff]; omega),
    if_neg (by rw [inBlock_iff]; omega), if_neg (by omega), if_pos (by simp [inBlock_iff]; omega), hport]
  rfl

/-! ## The command -/

/-- The rows that a REG_WRITE packet has. -/
def regWriteRows (p : CmdPkt) : List Instr := [.regWrite p, .trapCtl p, .captureClear p]

theorem exec_of_regWriteRows (hi : i ∈ regWriteRows p) : exec i s = onCmd 0x0006 p s regWriteCmd := by
  simp only [regWriteRows, List.mem_cons, List.not_mem_nil, or_false] at hi
  obtain rfl | rfl | rfl := hi <;> rfl

theorem regWriteCmd_of_written (hword : rsvdSet (wordAt c.body 0) [(63, 32)] = false)
    (hwritten : regWrite d (field (wordAt c.body 0) 31 0) (wordAt c.body 1) = some e) : regWriteCmd d c = doneStored e c := by
  have hnot : field (wordAt c.body 0) 31 0 ≠ 0x2380 := fun heq => by
    rw [heq, regWrite_bypassCtl] at hwritten
    cases hwritten
  have hpassed : regWriteCmd d c =
      doneStored ((regWrite d (field (wordAt c.body 0) 31 0) (wordAt c.body 1)).getD d) c := by
    refine checks_of_all_pass ?_
    simp only [List.forall_mem_cons]
    exact ⟨hword, by simp [hwritten], by simpa using hnot, nofun⟩
  rw [hpassed, hwritten, Option.getD_some]

theorem regWriteCmd_of_not_written (hword : rsvdSet (wordAt c.body 0) [(63, 32)] = false)
    (hnone : regWrite d (field (wordAt c.body 0) 31 0) (wordAt c.body 1) = none) :
    regWriteCmd d c = (d, some (plainReply stIllegal 2)) := by
  simp [regWriteCmd, checks, checks.go, hword, hnone, fail, failReply]

/-- What a write has made is answered at once, or once its record stands (log 33). -/
theorem gives_of_doneStored {op : Nat} {f : CmdFn} (hrow : exec i s = onCmd op p s f) (hran : Ran op p s d c) (hf : f d c = doneStored e c) :
    Gives i s (if e.flash.waits = [] then finalReply e c.w (plainReply stOk 0) else waitOn e c 0) := by
  by_cases hstored : e.flash.waits = []
  · rw [if_pos hstored]
    exact gives_of_onCmd hrow hran (hf.trans (doneStored_of_stored hstored))
  · rw [if_neg hstored]
    exact gives_of_onCmd_waits hrow hran (hf.trans (doneStored_of_waits hstored))

/-! ## The statement -/

/-- Settles O30: each row is a REG_WRITE, and what that writes at each address is the lemma of its register above. -/
theorem registerWritesDoWhatTheRegisterDoes : Obligations.RegisterWritesDoWhatTheRegisterDoes := by
  intro p s d c w a v hran hword ok i hi
  have hrow : exec i s = onCmd 0x0006 p s regWriteCmd := exec_of_regWriteRows hi
  have written {x : Nat} {e : Dev} (h : regWrite d x v = some e) (ha : a = x) : ok i e :=
    gives_of_doneStored hrow hran (regWriteCmd_of_written hword ((congrArg (regWrite d · v) ha).trans h))
  refine ⟨written regWrite_trapCtl, fun q hq => written (regWrite_capture hq), written regWrite_fabricCfg,
    fun k hk => written (regWrite_fabricMap hk), fun j hj => written (regWrite_jobPairs hj), fun k hk => written (regWrite_mgmtAddr hk),
    fun hrefused => gives_of_onCmd hrow hran (regWriteCmd_of_not_written hword ?_)⟩
  obtain hunaligned | hbypass := hrefused
  · exact regWrite_of_unaligned hunaligned
  · exact (congrArg (regWrite d · v) hbypass).trans regWrite_bypassCtl

end Sys2Proof.Machine
end

section
/-!
SUPPORT. The commands of jobs and members (R437 to R441, R443, R444): what each command's checks ask, and what it does to its job.
-/
namespace Sys2Proof.Machine

variable {src : CmdSrc} {a b d e : Dev} {p : CmdPkt} {s : State} {c : Cmd} {jb : Job} {j k n : Nat}

/-! ## Ports before a command's own checks -/

theorem Aside.ports_eq {port udp : Nat} {addr : BitVec 128} (h : Aside (.mgmt port addr udp) a b) : b.ports = a.ports := h.ports

/-- The checks from the sender's on send nothing for a command that passes them, so no port changes, whatever its source. -/
theorem checkSender_ports (h : checkSender a p = .run d c) : d.ports = a.ports :=
  Aside.ports_eq (port := 0) (addr := 0) (udp := 0) (checkSender_aside (.refl a) _ _ h)

theorem takeCarrier_ports {port : Nat} (h : (takeCarrier a port p).2 = true) : (takeCarrier a port p).1.ports = a.ports := by
  unfold takeCarrier at h ⊢
  dsimp only at h ⊢
  split at h
  · cases h
  · rename_i hserved
    rw [if_neg hserved]
    split at h
    · cases h
    · rfl

theorem frontEnd_ports (h : frontEnd a p = .run d c) : d.ports = a.ports := by
  unfold frontEnd at h
  cases hsrc : p.src with
  | inband port =>
    simp only [hsrc] at h
    obtain ⟨hready, hchecked⟩ := run_of_ite_stop h
    simp only [Bool.or_eq_true, Bool.not_eq_true', not_or, Bool.not_eq_false] at hready
    rw [checkSender_ports (run_of_ite_else_stop hchecked).2, takeCarrier_ports hready.1]
  | mgmt port addr udp =>
    simp only [hsrc] at h
    exact checkSender_ports (run_of_ite_else_stop (run_of_ite_stop h).2).2

theorem Aside.setPorts (h : Aside src a b) (m : SMap Port) : Aside src { a with ports := m } { b with ports := m } where
  rest := by rw [h.rest]
  ports := by
    cases src with
    | mgmt _ _ _ => rfl
    | inband p => exact fun q => ⟨.refl _, fun _ => rfl⟩
  taken := h.taken

/-! ## JOB_CREATE (R437, R438) -/

/-- The job number a JOB_CREATE names. -/
def createNo (c : Cmd) : Nat := field (wordAt c.body 0) 13 8

/-- The number of modules of a JOB_CREATE. -/
def createQ (c : Cmd) : Nat := field (wordAt c.body 0) 57 48

/-- The ordinal a JOB_CREATE gives. -/
def createOrdinal (c : Cmd) : Nat := field (wordAt c.body 0) 40 32

/-- The serials of a JOB_CREATE. -/
def createSerials (c : Cmd) : List W64 := (c.body.drop 4).take (createQ c)

/-- A JOB_CREATE passes its checks: its fields are in range, its serials differ and give the module its own ordinal, the number is free,
and so is sync object `n` (R437). -/
structure CreateOk (d : Dev) (c : Cmd) (n : Nat) : Prop where
  word0   : rsvdSet (wordAt c.body 0) [(63, 58), (47, 41), (31, 14), (3, 1)] = false
  word1   : rsvdSet (wordAt c.body 1) [(63, 48)] = false
  word2   : rsvdSet (wordAt c.body 2) [(63, 8)] = false
  any     : 1 ≤ createQ c
  most    : createQ c ≤ 512
  ordinal : createOrdinal c < createQ c
  fanout  : field (wordAt c.body 0) 7 4 ≤ 8
  size    : c.body.length = 4 + createQ c
  format  : ofmtHaulOk (BitVec.ofNat 8 (field (wordAt c.body 2) 7 0)) = true
  nonzero : (createSerials c).contains 0 = false
  nodup   : hasRepeat (createSerials c) = false
  own     : (createSerials c).getD (createOrdinal c) 0 = d.fac.serial
  unused  : getJob d (createNo c) = none
  free    : SMap.firstFree d.syncs 0 8192 = some n

theorem jobCreateCmd_of_ok (h : CreateOk d c n) : jobCreateCmd d c = done (createJob d (createNo c) (newJob d c.body) n) := by
  have hfree : freeSync d = some n := h.free
  have hpassed : jobCreateCmd d c = done (createJob d (createNo c) (newJob d c.body) ((freeSync d).getD 0)) := by
    refine checks_of_all_pass ?_
    simp only [List.forall_mem_cons]
    refine ⟨by simp [h.word0, h.word1, h.word2], ?range, by simpa [createQ] using h.size, by simp [h.format], ?serials, ?unused, ?free, nofun⟩
    case range =>
      have hsome : createQ c ≠ 0 := Nat.one_le_iff_ne_zero.mp h.any
      simpa [createQ, createOrdinal, h.fanout] using And.intro (And.intro hsome h.most) h.ordinal
    case serials =>
      have hnonzero := h.nonzero
      have hnodup := h.nodup
      have hown := h.own
      simp only [createSerials, createQ, createOrdinal] at hnonzero hnodup hown
      rw [hnonzero, hnodup, hown]
      simp
    case unused => exact Option.isSome_eq_false_iff.mpr (Option.isNone_iff_eq_none.mpr h.unused)
    case free => simp [hfree]
  rw [hpassed, hfree, Option.getD_some]

theorem clearCtrs_jobs (d : Dev) (scope i : Nat) : (clearCtrs d scope i).jobs = d.jobs := rfl

theorem forEach_clearCtrs_jobs (l : List Nat) (d : Dev) (scope : Nat) : (forEach l d fun d' i => clearCtrs d' scope i).jobs = d.jobs :=
  forEach_keeps (·.jobs) (fun d i => clearCtrs_jobs d scope i) l d

theorem clearJobCtrs_jobs (d : Dev) (j : Nat) : (clearJobCtrs d j).jobs = d.jobs := by
  rw [clearJobCtrs, forEach_clearCtrs_jobs, forEach_clearCtrs_jobs, forEach_clearCtrs_jobs, clearCtrs_jobs]

/-- The device with a job made, its counters cleared, and its seal object. -/
def jobMade (d : Dev) (j : Nat) (jb : Job) (n : Nat) : Dev :=
  let d1 := setJob (clearJobCtrs d j) j jb
  { d1 with syncs := SMap.set d1.syncs n { job := j, kind := .seal_ } }

/-- Nothing but what is aside follows: a trap, where an ordinal is not in FABRIC_MAP. -/
theorem createJob_aside : Aside src (jobMade d j jb n) (createJob d j jb n) := by
  change Aside src (jobMade d j jb n) (if jb.addrs.any Option.isNone then raiseTrap (jobMade d j jb n) _ else jobMade d j jb n)
  split
  · exact raiseTrap_aside (.refl (jobMade d j jb n))
  · exact .refl (jobMade d j jb n)

theorem jobs_createJob : (createJob d j jb n).jobs = SMap.set d.jobs j jb := by
  rw [(createJob_aside (src := .inband 0)).jobs, ← clearJobCtrs_jobs d j]
  rfl

theorem getJob_createJob_same : getJob (createJob d j jb n) j = some jb := by rw [getJob, jobs_createJob, SMap.get?_set_same]

theorem getJob_createJob_other (h : k ≠ j) : getJob (createJob d j jb n) k = getJob d k := by
  rw [getJob, jobs_createJob, SMap.get?_set_other _ jb h.symm, getJob]

theorem syncs_createJob_same : SMap.get? (createJob d j jb n).syncs n = some { job := j, kind := .seal_ } := by
  rw [(createJob_aside (src := .inband 0)).syncs, jobMade, SMap.get?_set_same]

/-! ## JOB_DESTROY (R439) -/

/-- Nothing of a job goes on that JOB_DESTROY would end: no seal, context, transfer, recording or replay. -/
structure Quiet (d : Dev) (j : Nat) (jb : Job) : Prop where
  opened    : jb.sealSt.state = .opened
  contexts  : ctxsActive d j = false
  transfers : transfersActive jb = false
  recording : recording jb = false
  replaying : replaying jb = false

theorem jobDestroyCmd_of_quiet (hjb : getJob d (field (wordAt c.body 0) 5 0) = some jb)
    (hword : rsvdSet (wordAt c.body 0) [(63, 6)] = false) (h : Quiet d (field (wordAt c.body 0) 5 0) jb) :
    jobDestroyCmd d c = done (destroyJob d (field (wordAt c.body 0) 5 0) jb) := by
  simp only [jobDestroyCmd, hjb]
  refine checks_of_all_pass ?_
  simp [hword, h.opened, h.contexts, h.transfers, h.recording, h.replaying]

/-! ## JOB_QUOTA (R440) -/

/-- The device with a job's quotas written; a port with work in its arbiters keeps the weights it had. -/
def quotasSet (d : Dev) (j : Nat) (jb : Job) (q : Quotas) : Dev :=
  { setJob d j { jb with quotas := q } with ports := SMap.mapV (fun _ x => keepWeights jb.quotas.weights q.weights j x) d.ports }

theorem jobQuotaCmd_of_ok (h0 : rsvdSet (wordAt c.body 0) [(13, 6)] = false) (h1 : rsvdSet (wordAt c.body 1) [(63, 48)] = false)
    (h2 : rsvdSet (wordAt c.body 2) [(63, 40)] = false) (hjb : getJob d (field (wordAt c.body 0) 5 0) = some jb)
    (hrange : quotaBad (quotaBody c.body) = false) :
    jobQuotaCmd d c = done (quotasSet d (field (wordAt c.body 0) 5 0) jb (quotaBody c.body)) := by
  have hpassed : jobQuotaCmd d c = done (setQuotas d (field (wordAt c.body 0) 5 0) (quotaBody c.body)) := by
    refine checks_of_all_pass ?_
    simp [h0, h1, h2, hjb, hrange]
  rw [hpassed, setQuotas, hjb]
  rfl

theorem quotasSet_aside (h : Aside src a d) (hports : d.ports = a.ports) (q : Quotas) :
    Aside src (quotasSet a j jb q) (quotasSet d j jb q) := by
  unfold quotasSet
  rw [hports]
  exact (h.setJob j _).setPorts _

/-! ## JOB_CONFIG (R441) -/

/-- A field of a JOB_CONFIG that is not 0 and not within its range. -/
def OutOfRange (x low high : Nat) : Prop := x ≠ 0 ∧ (x < low ∨ high < x)

/-- The job with the settings of a JOB_CONFIG: 0 leaves one as it is. -/
def configured (c : Cmd) (jb : Job) : Job :=
  { jb with hold := if field (wordAt c.body 0) 63 32 = 0 then jb.hold else field (wordAt c.body 0) 63 32
            haulDrop := if field (wordAt c.body 0) 31 0 = 0 then jb.haulDrop else field (wordAt c.body 0) 31 0 }

theorem jobConfigCmd_of_ok (hjb : getJob d c.job = some jb) (hhold : ¬ OutOfRange (field (wordAt c.body 0) 63 32) 100 1000000)
    (hdrop : ¬ OutOfRange (field (wordAt c.body 0) 31 0) 500 100000) : jobConfigCmd d c = done (setJob d c.job (configured c jb)) := by
  have hpassed : jobConfigCmd d c = done (updJob d c.job (configured c)) := by
    refine checks_of_all_pass ?_
    simp only [OutOfRange] at hhold hdrop
    simp only [List.forall_mem_cons, ← Bool.not_eq_true]
    simpa using And.intro hhold hdrop
  rw [hpassed, updJob_of_getJob hjb]

theorem jobConfigCmd_of_out_of_range (h : OutOfRange (field (wordAt c.body 0) 63 32) 100 1000000 ∨
    OutOfRange (field (wordAt c.body 0) 31 0) 500 100000) : jobConfigCmd d c = (d, some (plainReply stIllegal 1)) := by
  simp only [OutOfRange] at h
  simp [jobConfigCmd, checks, checks.go, fail, failReply, h]

/-! ## The statement of the jobs -/

/-- Settles O31: each command's checks are its lemma's hypotheses; JOB_QUOTA finds the ports as they were by `frontEnd_ports`; the job made
is `newJob`, which `createJob` puts under its number. -/
theorem jobsAreMadeAndEnded : Obligations.JobsAreMadeAndEnded := by
  refine ⟨fun p s d c => ⟨?create, ?destroy, ?quota, ?config, ?outOfRange, fun h body => rfl⟩, fun d j n b => ?made⟩
  case create =>
    intro n hran q serials h0 h1 h2 hsome hmost hord hfan hsize hfmt hnonzero hnodup hown hunused hfree
    exact gives_of_onCmd rfl hran (jobCreateCmd_of_ok ⟨h0, h1, h2, hsome, hmost, hord, hfan, hsize, hfmt, hnonzero, hnodup, hown, hunused, hfree⟩)
  case destroy =>
    intro jb hran hjb hword hopened hctxs htransfers hrec hrep
    exact gives_of_onCmd rfl hran (jobDestroyCmd_of_quiet hjb hword ⟨hopened, hctxs, htransfers, hrec, hrep⟩)
  case quota =>
    intro jb hran h0 h1 h2 hjb hrange
    have hcmd := jobQuotaCmd_of_ok h0 h1 h2 ((hran.aside.getJob _).trans hjb) hrange
    exact replies_of_done (g := fun d => quotasSet d _ jb _) rfl hran hcmd (fun h => quotasSet_aside h (frontEnd_ports hran.2) _) rfl
  case config =>
    intro jb hran hjb hhold hdrop
    have hcmd := jobConfigCmd_of_ok ((hran.aside.getJob _).trans hjb) (by simp only [OutOfRange]; omega) (by simp only [OutOfRange]; omega)
    exact replies_of_done (g := fun d => setJob d c.job (configured c jb)) rfl hran hcmd (fun h => h.setJob _ _) rfl
  case outOfRange => exact fun jb hran hjb hout => replies_of rfl hran (jobConfigCmd_of_out_of_range hout) (Nat.zero_le 8) id rfl
  case made =>
    exact ⟨newJob d b, getJob_createJob_same, rfl, rfl, rfl, rfl, rfl, rfl, rfl, rfl, rfl, rfl, rfl, syncs_createJob_same,
      fun k hk => getJob_createJob_other hk⟩

end Sys2Proof.Machine
end

section
/-!
SUPPORT. MEMBER_ATTACH and MEMBER_DETACH (R443, R444).
-/
namespace Sys2Proof.Machine

variable {d : Dev} {p : CmdPkt} {s : State} {c : Cmd} {jb : Job}

/-- The member number of a member command. -/
def memberNo (c : Cmd) : Nat := field (wordAt c.body 0) 43 32

/-- The first port of a MEMBER_ATTACH. -/
def attachPortA (c : Cmd) : Nat := field (wordAt c.body 0) 8 0

/-- The second port of a MEMBER_ATTACH, if it has one. -/
def attachPortB (c : Cmd) : Option Nat := if field (wordAt c.body 0) 24 16 = 0x1FF then none else some (field (wordAt c.body 0) 24 16)

/-- A MEMBER_ATTACH passes its checks: its ports exist, differ, are member ports and serve no member with other homes, and the member is
not attached (R443). -/
structure AttachOk (d : Dev) (c : Cmd) (jb : Job) : Prop where
  operand  : rsvdSet (wordAt c.body 0) [(63, 44), (31, 25), (15, 9)] = false
  portA    : attachPortA c ≤ 287
  portB    : field (wordAt c.body 0) 24 16 ≤ 287 ∨ field (wordAt c.body 0) 24 16 = 0x1FF
  distinct : attachPortA c ≠ field (wordAt c.body 0) 24 16
  activeA  : (getPort d (attachPortA c)).role = 1
  activeB  : ∀ x, attachPortB c = some x → (getPort d x).role = 1
  detached : SMap.has jb.members (memberNo c) = false
  homes    : homesClash d (attachPortA c) (attachPortB c) = false

/-- The member a MEMBER_ATTACH describes. -/
def attachedMember (d : Dev) (c : Cmd) : Member :=
  let mb : Member := { portA := attachPortA c, portB := attachPortB c, home := attachPortA c }
  { mb with home := homeOf d mb }

/-- The device with the member attached: its counters are cleared, and it gets no notice of haul that ended before. -/
def memberAttached (d : Dev) (c : Cmd) (jb : Job) : Dev :=
  noEarlierEnds (clearCtrs (setJob d c.job { jb with members := SMap.set jb.members (memberNo c) (attachedMember d c) }) 3
    (memberIdx c.job (memberNo c))) c.job (memberNo c)

theorem memberAttachCmd_of_ok (hjb : getJob d c.job = some jb) (h : AttachOk d c jb) : memberAttachCmd d c = done (memberAttached d c jb) := by
  have hpassed : memberAttachCmd d c =
      done (noEarlierEnds (clearCtrs (updJob d c.job fun jb =>
        { jb with members := SMap.set jb.members (memberNo c) (attachedMember d c) }) 3 (memberIdx c.job (memberNo c))) c.job (memberNo c)) := by
    refine checks_of_all_pass ?_
    simp only [List.forall_mem_cons]
    refine ⟨h.operand, ?ports, ?active, ?attached, h.homes, nofun⟩
    case ports =>
      have hb : 287 < field (wordAt c.body 0) 24 16 → field (wordAt c.body 0) 24 16 = 0x1FF := fun hgt => h.portB.resolve_left (Nat.not_le.mpr hgt)
      have ha : field (wordAt c.body 0) 8 0 ≤ 287 := h.portA
      have hne : field (wordAt c.body 0) 8 0 ≠ field (wordAt c.body 0) 24 16 := h.distinct
      simpa [ha, hne] using hb
    case active =>
      have hrole : ((getPort d (field (wordAt c.body 0) 8 0)).role == 1) = true := by simpa [attachPortA] using h.activeA
      have hroleB := h.activeB
      simp only [attachPortB] at hroleB
      rw [hrole]
      split
      · rename_i x hx
        simp [hroleB x hx]
      · rfl
    case attached => simpa only [hjb, memberNo] using h.detached
  rw [hpassed, updJob_of_getJob hjb]
  rfl

theorem memberDetachCmd_of_ok (hjb : getJob d c.job = some jb) (hword : rsvdSet (wordAt c.body 0) [(63, 44), (31, 0)] = false)
    (hattached : SMap.has jb.members (memberNo c) = true) (hidle : memberSources d c.job (memberNo c) = false) :
    memberDetachCmd d c = done (detach d c.job (memberNo c)) := by
  refine checks_of_all_pass ?_
  simp only [List.forall_mem_cons, hjb]
  exact ⟨by simpa [hword, memberNo] using hattached, hidle, nofun⟩

/-! ## The statement -/

/-- Settles O32: the hypotheses are the checks of each command, and both answer the device of their own effect. -/
theorem membersAttachAndDetach : Obligations.MembersAttachAndDetach := by
  intro p s d c jb w m b hjb
  refine ⟨fun hran hword ha hb hne hactA hactB hnew hhomes => ?attach, fun hran hword hattached hidle => ?detach⟩
  case attach => exact gives_of_onCmd rfl hran (memberAttachCmd_of_ok hjb ⟨hword, ha, hb, hne, hactA, hactB, hnew, hhomes⟩)
  case detach => exact gives_of_onCmd rfl hran (memberDetachCmd_of_ok hjb hword hattached hidle)

end Sys2Proof.Machine
end

section
/-!
SUPPORT. Loadable objects and sync objects (R453, R454, R456, R464, R465, R505): commands that write one table of objects.
-/
namespace Sys2Proof.Machine

variable {src : CmdSrc} {a d : Dev} {p : CmdPkt} {s : State} {c : Cmd} {jb : Job} {n : Nat}

/-- A slot that the job has already, or one more within the job's limit. -/
theorem slot_within_limit {α : Type} {held : Option α} {n most : Nat} (h : held = none → n < most) :
    ¬ (held.isNone && decide (most ≤ n)) = true := by
  cases held with
  | none => simpa using h rfl
  | some x => simp

/-! ## RULE_LOAD and SCHED_LOAD (R453, R454) -/

/-- The slot or entry that a command on an object names. -/
def objectNo (c : Cmd) : Nat := field (wordAt c.body 0) 11 0

/-- The words that a RULE_LOAD or SCHED_LOAD carries. -/
def objectWords (c : Cmd) : List W64 := c.body.drop 1

theorem entryOf_of_aside (h : Aside src a d) (j e : Nat) : entryOf d j e = entryOf a j e := by simp only [entryOf, h.scheds]

/-- A RULE_LOAD passes its checks: the slot is the job's or free, the rule is well formed, and no region's step or arrays forbid it. -/
structure RuleOk (d : Dev) (c : Cmd) (jb : Job) : Prop where
  operand : rsvdSet (wordAt c.body 0) [(63, 12)] = false
  sameJob : ∀ h, SMap.get? d.rules (objectNo c) = some h → h.job = c.job
  wellFormed : ruleCheck (objectWords c) (entryOf d c.job (rsEntry (objectWords c))) = 0
  unused  : ruleInStep jb (objectNo c) = false
  fits    : ruleChanges jb (objectNo c) (objectWords c) = false
  room    : SMap.get? d.rules (objectNo c) = none → (d.rules.filter fun e => e.2.job == c.job).length < 256

theorem RuleOk.of_aside (hside : Aside src a d) (h : RuleOk a c jb) : RuleOk d c jb :=
  { h with
    sameJob := hside.rules ▸ h.sameJob
    wellFormed := (entryOf_of_aside hside _ _).symm ▸ h.wellFormed
    room := hside.rules ▸ h.room }

/-- The device with the rule of a RULE_LOAD held under its slot. -/
def ruleHeld (d : Dev) (c : Cmd) : Dev := { d with rules := SMap.set d.rules (objectNo c) { job := c.job, words := objectWords c } }

theorem ruleHeld_aside (h : Aside src a d) : Aside src (ruleHeld a c) (ruleHeld d c) := by
  rw [ruleHeld, ruleHeld, h.rules]
  exact h.setRules _

theorem ruleLoadCmd_of_ok (hjb : getJob d c.job = some jb) (h : RuleOk d c jb) : ruleLoadCmd d c = done (ruleHeld d c) := by
  simp only [ruleLoadCmd, hjb]
  rw [checks_of_all_pass]
  · have hform : (ruleCheck (c.body.drop 1) (entryOf d c.job (rsEntry (c.body.drop 1))) != 0) = false := bne_eq_false_iff_eq.mpr h.wellFormed
    have hfits : ruleChanges jb (field (wordAt c.body 0) 11 0) (c.body.drop 1) = false := h.fits
    have hunused : ruleInStep jb (field (wordAt c.body 0) 11 0) = false := h.unused
    rw [hform, hunused, hfits]
    exact if_neg (slot_within_limit h.room)
  · simp only [List.forall_mem_cons]
    refine ⟨h.operand, ?_, nofun⟩
    split
    · simpa using h.sameJob _ ‹_›
    · rfl

/-- A SCHED_LOAD passes its checks: the entry is the job's or free, the schedule is well formed, and no step in flight uses it. -/
structure SchedOk (d : Dev) (c : Cmd) (jb : Job) : Prop where
  operand : rsvdSet (wordAt c.body 0) [(63, 12)] = false
  sameJob : ∀ h, SMap.get? d.scheds (objectNo c) = some h → h.job = c.job
  wellFormed : schedCheck (objectWords c) = 0
  unused  : schedUsed d c.job jb (objectNo c) = false
  room    : SMap.get? d.scheds (objectNo c) = none → (d.scheds.filter fun e => e.2.job == c.job).length < 256

theorem schedUsed_of_aside (h : Aside src a d) (j : Nat) (jb : Job) (e : Nat) : schedUsed d j jb e = schedUsed a j jb e := by
  simp only [schedUsed, h.rules]

theorem SchedOk.of_aside (hside : Aside src a d) (h : SchedOk a c jb) : SchedOk d c jb :=
  { h with
    sameJob := hside.scheds ▸ h.sameJob
    unused := (schedUsed_of_aside hside _ _ _).trans h.unused
    room := hside.scheds ▸ h.room }

/-- The device with the schedule of a SCHED_LOAD held under its entry. -/
def schedHeld (d : Dev) (c : Cmd) : Dev := { d with scheds := SMap.set d.scheds (objectNo c) { job := c.job, words := objectWords c } }

theorem schedHeld_aside (h : Aside src a d) : Aside src (schedHeld a c) (schedHeld d c) := by
  rw [schedHeld, schedHeld, h.scheds]
  exact h.setScheds _

theorem schedLoadCmd_of_ok (hjb : getJob d c.job = some jb) (h : SchedOk d c jb) : schedLoadCmd d c = done (schedHeld d c) := by
  simp only [schedLoadCmd, hjb]
  rw [checks_of_all_pass]
  · have hform : (schedCheck (c.body.drop 1) != 0) = false := bne_eq_false_iff_eq.mpr h.wellFormed
    have hunused : schedUsed d c.job jb (field (wordAt c.body 0) 11 0) = false := h.unused
    rw [hform, hunused]
    exact if_neg (slot_within_limit h.room)
  · simp only [List.forall_mem_cons]
    refine ⟨h.operand, ?_, nofun⟩
    split
    · simpa using h.sameJob _ ‹_›
    · rfl

/-! ## OBJ_FREE (R456) -/

/-- The kind of object that an OBJ_FREE names: rank map, rule or schedule entry. -/
def freedKind (c : Cmd) : Nat := field (wordAt c.body 0) 63 56

theorem objJob_of_aside (h : Aside src a d) (kind i : Nat) : objJob d kind i = objJob a kind i := by
  simp only [objJob, h.maps, h.rules, h.scheds]

theorem objUsed_of_aside (h : Aside src a d) (j kind i : Nat) : objUsed d j kind i = objUsed a j kind i := by
  simp only [objUsed, mapUsed, h.ctxs, h.rules, h.getJob]

theorem freeObj_eq (d : Dev) (kind i : Nat) : freeObj d kind i =
    if kind = 1 then { d with maps := SMap.del d.maps i }
    else if kind = 2 then { d with rules := SMap.del d.rules i }
    else { d with scheds := SMap.del d.scheds i } := by
  unfold freeObj
  split <;> simp_all

theorem freeObj_aside (h : Aside src a d) (kind i : Nat) : Aside src (freeObj a kind i) (freeObj d kind i) := by
  unfold freeObj
  split
  · rw [h.maps]; exact h.setMaps _
  · rw [h.rules]; exact h.setRules _
  · rw [h.scheds]; exact h.setScheds _

theorem freeObj_start (d : Dev) (kind i : Nat) : (freeObj d kind i).start = d.start := by
  unfold freeObj
  split <;> rfl

/-- An OBJ_FREE passes its checks: it names an object of its job that nothing uses. -/
structure FreeOk (d : Dev) (c : Cmd) : Prop where
  operand : rsvdSet (wordAt c.body 0) [(55, 12)] = false
  known   : 1 ≤ freedKind c
  most    : freedKind c ≤ 3
  mapNo   : freedKind c = 1 → objectNo c ≤ 255
  holder  : objJob d (freedKind c) (objectNo c) = some c.job
  unused  : objUsed d c.job (freedKind c) (objectNo c) = false

theorem FreeOk.of_aside (hside : Aside src a d) (h : FreeOk a c) : FreeOk d c :=
  { h with
    holder := (objJob_of_aside hside _ _).trans h.holder
    unused := (objUsed_of_aside hside _ _ _).trans h.unused }

theorem objFreeCmd_of_ok (h : FreeOk d c) : objFreeCmd d c = done (freeObj d (freedKind c) (objectNo c)) := by
  have hholder : objJob d (field (wordAt c.body 0) 63 56) (field (wordAt c.body 0) 11 0) = some c.job := h.holder
  refine checks_of_all_pass ?_
  simp only [List.forall_mem_cons, hholder]
  refine ⟨?operand, by simp, rfl, h.unused, nofun⟩
  have hknown : freedKind c ≠ 0 := Nat.one_le_iff_ne_zero.mp h.known
  simpa [h.operand, freedKind, objectNo] using And.intro (And.intro hknown h.most) h.mapNo

/-! ## SYNC_ALLOC and SYNC_FREE (R464, R465, R505) -/

/-- The kind of object that a SYNC_ALLOC asks for. -/
def syncKind (c : Cmd) : Nat := field (wordAt c.body 0) 63 56

/-- The object that a SYNC_FREE names. -/
def syncNo (c : Cmd) : Nat := field (wordAt c.body 0) 12 0

/-- A SYNC_ALLOC passes its checks: its kind takes its INIT, the job's quota has room, and `n` is the lowest free number. -/
structure AllocOk (d : Dev) (c : Cmd) (jb : Job) (n : Nat) : Prop where
  operand : rsvdSet (wordAt c.body 0) [(55, 0)] = false
  init    : syncInitBad (syncKind c) (wordAt c.body 1) = false
  quota   : (d.syncs.filter fun e => e.2.job == c.job).length < jb.quotas.sync
  lowest  : SMap.firstFree d.syncs 0 8192 = some n

/-- The device with the object of a SYNC_ALLOC. -/
def syncMade (d : Dev) (c : Cmd) (n : Nat) : Dev :=
  { d with syncs := SMap.set d.syncs n (newSync c.job (syncKind c) (wordAt c.body 1)) }

theorem syncMade_aside (h : Aside src a d) : Aside src (syncMade a c n) (syncMade d c n) := by
  rw [syncMade, syncMade, h.syncs]
  exact h.setSyncs _

theorem syncAllocCmd_of_ok (hjb : getJob d c.job = some jb) (h : AllocOk d c jb n) :
    syncAllocCmd d c = doneWith (syncMade d c n) [BitVec.ofNat 64 n] := by
  have hinit : syncInitBad (field (wordAt c.body 0) 63 56) (wordAt c.body 1) = false := h.init
  simp only [syncAllocCmd, hjb, h.operand, hinit, h.lowest]
  exact (if_neg (by decide)).trans (if_neg (Nat.not_le.mpr h.quota))

/-- The device without the object of a SYNC_FREE. -/
def syncGone (d : Dev) (c : Cmd) : Dev := { d with syncs := SMap.del d.syncs (syncNo c) }

theorem syncGone_aside (h : Aside src a d) : Aside src (syncGone a c) (syncGone d c) := by
  rw [syncGone, syncGone, h.syncs]
  exact h.setSyncs _

theorem syncFreeCmd_of_ok {o : SyncObj} (hjb : getJob d c.job = some jb) (ho : SMap.get? d.syncs (syncNo c) = some o)
    (hword : rsvdSet (wordAt c.body 0) [(63, 13)] = false) (hjob : o.job = c.job) (hkind : o.kind ≠ .seal_)
    (hunnamed : syncNamed jb (syncNo c) = false) : syncFreeCmd d c = done (syncGone d c) := by
  have ho' : SMap.get? d.syncs (field (wordAt c.body 0) 12 0) = some o := ho
  have hunnamed' : syncNamed jb (field (wordAt c.body 0) 12 0) = false := hunnamed
  simp only [syncFreeCmd, hjb, ho']
  refine checks_of_all_pass ?_
  simp [hword, hjob, hkind, hunnamed']

/-! ## The statements -/

/-- Settles O33: each command's checks hold alike on the device that the shared checks leave, and one table changes. -/
theorem rulesAndSchedulesAreHeldAndFreed : Obligations.RulesAndSchedulesAreHeldAndFreed := by
  intro p s d c jb w k r hjb
  refine ⟨fun hran hword hmine hform hstep hfits hroom => ?rule, fun hran hword hmine hform hunused hroom => ?sched,
    fun kind hkind hran hword hknown hmost hmap hholder hunused => ?free⟩
  case rule =>
    have hok : RuleOk s.dev c jb := ⟨hword, hmine, hform, hstep, hfits, hroom⟩
    have hcmd := ruleLoadCmd_of_ok ((hran.aside.getJob _).trans hjb) (hok.of_aside hran.aside)
    exact replies_of_done (g := (ruleHeld · c)) rfl hran hcmd ruleHeld_aside rfl
  case sched =>
    have hok : SchedOk s.dev c jb := ⟨hword, hmine, hform, hunused, hroom⟩
    have hcmd := schedLoadCmd_of_ok ((hran.aside.getJob _).trans hjb) (hok.of_aside hran.aside)
    exact replies_of_done (g := (schedHeld · c)) rfl hran hcmd schedHeld_aside rfl
  case free =>
    subst hkind
    have hok : FreeOk s.dev c := ⟨hword, hknown, hmost, hmap, hholder, hunused⟩
    rw [← freeObj_eq]
    exact replies_of_done (g := (freeObj · (freedKind c) (objectNo c))) rfl hran (objFreeCmd_of_ok (hok.of_aside hran.aside))
      (fun h => freeObj_aside h _ _) (congrArg (·.takeover) (freeObj_start _ _ _))

/-- Settles O37: the object is `newSync` at the lowest free number, and the checks read tables that the shared checks leave alone. -/
theorem syncObjectsAreMadeAndFreed : Obligations.SyncObjectsAreMadeAndFreed := by
  intro p s d c jb w x hjb
  refine ⟨fun n hran hword hinit hquota hlowest => ?alloc, fun o hran ho hword hjob hkind hunnamed => ?free⟩
  case alloc =>
    have hok : AllocOk d c jb n := ⟨hword, hinit, hran.aside.syncs ▸ hquota, hran.aside.syncs ▸ hlowest⟩
    have hcmd := syncAllocCmd_of_ok ((hran.aside.getJob _).trans hjb) hok
    exact replies_of rfl hran hcmd (Nat.succ_le_succ (Nat.zero_le 7)) syncMade_aside rfl
  case free =>
    have hcmd := syncFreeCmd_of_ok ((hran.aside.getJob _).trans hjb) (hran.aside.syncs ▸ ho) hword hjob hkind hunnamed
    exact replies_of_done (g := (syncGone · c)) rfl hran hcmd syncGone_aside rfl

end Sys2Proof.Machine
end

section
/-!
SUPPORT. Regions and loads (R445 to R451, R471): the checks of their commands, and what each begins.
-/
namespace Sys2Proof.Machine

variable {src : CmdSrc} {a d e : Dev} {p : CmdPkt} {s : State} {c : Cmd} {jb : Job} {r : Region} {rn : Nat} {i : Instr}

/-! ## A command on a region waits for its base deltas (R621) -/

theorem endRegionCmd_of_busy {jb' : Job} (hjb : getJob e c.job = some jb') (h : baseBusy jb' rn = true) :
    endRegionCmd e c rn = (waitOn e c rn, none) := by simp [endRegionCmd, hjb, h]

theorem endRegionCmd_of_settled {jb' : Job} (hjb : getJob e c.job = some jb') (h : baseBusy jb' rn = false) :
    endRegionCmd e c rn = done e := by simp [endRegionCmd, hjb, h]

theorem gives_of_endRegionCmd {op : Nat} {f : CmdFn} {jb' : Job} (hrow : exec i s = onCmd op p s f) (hran : Ran op p s d c)
    (hf : f d c = endRegionCmd e c rn) (hjb : getJob e c.job = some jb') :
    Gives i s (if baseBusy jb' rn then waitOn e c rn else finalReply e c.w (plainReply stOk 0)) := by
  by_cases hbusy : baseBusy jb' rn = true
  · rw [if_pos hbusy]
    exact gives_of_onCmd_waits hrow hran (hf.trans (endRegionCmd_of_busy hjb hbusy))
  · rw [if_neg hbusy]
    exact gives_of_onCmd hrow hran (hf.trans (endRegionCmd_of_settled hjb (Bool.eq_false_iff.mpr hbusy)))

/-! ## REGION_CREATE (R254 to R256, R445) -/

/-- The region number of a command on a region's data, in bits 61 to 48. -/
def regionNo (c : Cmd) : Nat := field (wordAt c.body 0) 61 48

/-- The region a REGION_CREATE describes, with the arrays of its rule slot. -/
def createdRegion (c : Cmd) (jb : Job) (slot : RuleSlot) : Region := bodyRegion jb (rsStateEn slot.words) c.body

/-- The format of array `i` of a region. -/
def arrayFmt (r : Region) (i : Nat) : Byte := r.fmts.getD i 0

/-- A REGION_CREATE passes its checks: its rule slot is the job's, each array has a format exactly where the rule has the array, and the
job and the store have room (R269, R445). -/
structure RegionOk (d : Dev) (c : Cmd) (jb : Job) (slot : RuleSlot) : Prop where
  word0   : rsvdSet (wordAt c.body 0) [(63, 62), (47, 43)] = false
  word1   : rsvdSet (wordAt c.body 1) [(63, 60), (47, 32)] = false
  word2   : rsvdSet (wordAt c.body 2) [(63, 9)] = false
  any     : 1 ≤ field (wordAt c.body 0) 42 0
  most    : field (wordAt c.body 0) 42 0 ≤ 2 ^ 42
  rule    : SMap.get? d.rules (field (wordAt c.body 1) 59 48) = some slot
  sameJob : slot.job = c.job
  params  : ofmtStoreOk (arrayFmt (createdRegion c jb slot) 0) = true
  states  : ∀ i, i < 3 → if rsStateEn slot.words / 2 ^ i % 2 = 1 then ofmtStoreOk (arrayFmt (createdRegion c jb slot) (i + 1)) = true
    else arrayFmt (createdRegion c jb slot) (i + 1) = 0
  deal    : (createdRegion c jb slot).deal < jb.q
  unused  : getRegion jb (regionNo c) = none
  quota   : jb.regions.length < jb.quotas.region
  count   : regionCount d < 65536
  room    : noMem d jb (regionNo c) (createdRegion c jb slot) = (false, false, false)

theorem regionCreateCmd_of_ok {slot : RuleSlot} (hjb : getJob d c.job = some jb) (h : RegionOk d c jb slot) :
    regionCreateCmd d c = endRegionCmd (createRegion d c.job (regionNo c) jb (createdRegion c jb slot)) c (regionNo c) := by
  have hslot : (Option.filter (fun s : RuleSlot => s.job == c.job) (some slot)) = some slot := by simp [h.sameJob]
  have hroom : noMem d jb (field (wordAt c.body 0) 61 48) (bodyRegion jb (rsStateEn slot.words) c.body) = (false, false, false) := h.room
  simp only [regionCreateCmd, hjb, h.rule, hslot]
  rw [checks_of_all_pass]
  · rw [if_neg (Nat.not_le.mpr h.quota), if_neg (Nat.not_le.mpr h.count), hroom]
    rfl
  · have hany : field (wordAt c.body 0) 42 0 ≠ 0 := Nat.one_le_iff_ne_zero.mp h.any
    simp only [List.forall_mem_cons]
    refine ⟨by simp [h.word0, h.word1, h.word2], by simpa [hany] using h.most, rfl, ?params, ?present, ?absent, ?deal, ?unused, nofun⟩
    case params => simpa [arrayFmt, createdRegion] using h.params
    case present =>
      refine List.any_eq_false.mpr fun i hi => ?_
      have hstate := h.states i (List.mem_range.mp hi)
      simp only [arrayFmt, createdRegion] at hstate
      split at hstate <;> simp_all
    case absent =>
      refine List.any_eq_false.mpr fun i hi => ?_
      have hstate := h.states i (List.mem_range.mp hi)
      simp only [arrayFmt, createdRegion] at hstate
      split at hstate <;> simp_all
    case deal => simpa [createdRegion] using h.deal
    case unused => exact Option.isSome_eq_false_iff.mpr (Option.isNone_iff_eq_none.mpr h.unused)

/-! ## REGION_DESTROY (R446, R621) -/

theorem regionDestroyCmd_of_ok (hjb : getJob d c.job = some jb) (hword : rsvdSet (wordAt c.body 0) [(63, 62), (47, 0)] = false)
    (hr : getRegion jb (regionNo c) = some r) (hidle : regionUsed d c.job jb (regionNo c) = false) :
    regionDestroyCmd d c = endRegionCmd (destroyRegion d c.job (regionNo c) jb r) c (regionNo c) := by
  have hr' : getRegion jb (field (wordAt c.body 0) 61 48) = some r := hr
  simp only [regionDestroyCmd, hjb, hr']
  refine checks_of_all_pass ?_
  simp only [List.forall_mem_cons]
  exact ⟨by simp [hword], hidle, nofun⟩

/-! ## HAUL_SET and HAUL_SUB (R290 to R292, R450, R451) -/

/-- The region number of a haul command, in bits 29 to 16. -/
def haulRegionNo (c : Cmd) : Nat := field (wordAt c.body 0) 29 16

/-- The number of formats of a HAUL_SET. -/
def haulCount (c : Cmd) : Nat := field (wordAt c.body 0) 1 0 + 1

/-- Format `i` of a HAUL_SET. -/
def haulFmtAt (c : Cmd) (i : Nat) : Byte := BitVec.ofNat 8 (field (wordAt c.body 0) (39 + 8 * i) (32 + 8 * i))

/-- A HAUL_SET passes its checks: as many formats as it counts, no step in flight, and no member subscribed beyond them. -/
structure HaulSetOk (c : Cmd) (jb : Job) (r : Region) : Prop where
  operand : rsvdSet (wordAt c.body 0) [(31, 30), (15, 2)] = false
  padding : ∀ i, i < 4 → haulCount c ≤ i → haulFmtAt c i = 0
  region  : getRegion jb (haulRegionNo c) = some r
  formats : ∀ i, i < haulCount c → ofmtHaulOk (haulFmtAt c i) = true
  idle    : regionInFlight jb (haulRegionNo c) = false
  within  : ∀ e ∈ jb.members, ∀ i, haulSub e.2 (haulRegionNo c) = some i → i < haulCount c

/-- The job with the haul formats of a HAUL_SET. -/
def haulSetJob (c : Cmd) (jb : Job) : Job :=
  { jb with regions := SMap.upd jb.regions (haulRegionNo c) fun r => keepHaul jb.stepCur r ((List.range (haulCount c)).map (haulFmtAt c)) }

theorem haulSetCmd_of_ok (hjb : getJob d c.job = some jb) (h : HaulSetOk c jb r) :
    haulSetCmd d c = done (setJob d c.job (haulSetJob c jb)) := by
  have hr : getRegion jb (field (wordAt c.body 0) 29 16) = some r := h.region
  simp only [haulSetCmd, hjb]
  rw [checks_of_all_pass]
  · exact congrArg done (updJob_of_getJob hjb _)
  · simp only [List.forall_mem_cons, hr]
    refine ⟨?padding, rfl, ?formats, ?within, nofun⟩
    case padding => simpa [h.operand, haulCount, haulFmtAt] using h.padding
    case formats => simpa [haulCount, haulFmtAt] using h.formats
    case within =>
      have hidle : regionInFlight jb (field (wordAt c.body 0) 29 16) = false := h.idle
      rw [hidle, Bool.false_or]
      refine List.any_eq_false.mpr fun e he => ?_
      split
      · simpa [haulCount] using h.within e he _ ‹_›
      · exact Bool.false_ne_true

/-- A HAUL_SUB passes its checks: a member sets its own subscription alone, to a format that the region has (R451). -/
structure HaulSubOk (c : Cmd) (jb : Job) (r : Region) : Prop where
  operand : rsvdSet (wordAt c.body 0) [(63, 44), (31, 30), (15, 3)] = false
  off     : flag (wordAt c.body 0) 2 = true → field (wordAt c.body 0) 1 0 = 0
  own     : c.sender.role = 4 → memberNo c = c.sender.who
  member  : SMap.has jb.members (memberNo c) = true
  region  : getRegion jb (haulRegionNo c) = some r
  within  : field (wordAt c.body 0) 1 0 < r.haul.length
  idle    : regionInFlight jb (haulRegionNo c) = false

/-- The job with the subscription of a HAUL_SUB. -/
def haulSubJob (c : Cmd) (jb : Job) : Job :=
  { jb with members := SMap.upd jb.members (memberNo c) fun mb =>
      keepSub jb.stepCur (haulRegionNo c) mb (flag (wordAt c.body 0) 2) (field (wordAt c.body 0) 1 0) }

theorem haulSubCmd_of_ok (hjb : getJob d c.job = some jb) (h : HaulSubOk c jb r) :
    haulSubCmd d c = done (setJob d c.job (haulSubJob c jb)) := by
  have hr : getRegion jb (field (wordAt c.body 0) 29 16) = some r := h.region
  simp only [haulSubCmd, hjb]
  rw [checks_of_all_pass]
  · exact congrArg done (updJob_of_getJob hjb _)
  · simp only [List.forall_mem_cons, hr]
    exact ⟨by simpa [h.operand] using h.off, by simpa [memberNo] using h.own, by simpa [memberNo] using h.member,
      by simpa using h.within, h.idle, nofun⟩

/-! ## PARAM_LOAD and SNAP_RESTORE (R447 to R449, R471) -/

/-- The first slab of a PARAM_LOAD. -/
def loadFirst (c : Cmd) : Nat := field (wordAt c.body 0) 31 0

/-- The number of slabs of a PARAM_LOAD. -/
def loadCount (c : Cmd) : Nat := field (wordAt c.body 1) 63 32

/-- A PARAM_LOAD passes its checks: its slabs are the region's, its member is attached, and a base write may begin. -/
structure ParamOk (d : Dev) (c : Cmd) (jb : Job) (r : Region) : Prop where
  word0   : rsvdSet (wordAt c.body 0) [(63, 62), (47, 44)] = false
  word1   : rsvdSet (wordAt c.body 1) [(31, 1)] = false
  word3   : wordAt c.body 3 = 0
  region  : getRegion jb (regionNo c) = some r
  any     : 1 ≤ loadCount c
  within  : loadFirst c + loadCount c ≤ nSlabs r
  member  : SMap.has jb.members (memberNo c) = true
  free    : loadBlocked d c.job jb (regionNo c) = false

/-- The load that a PARAM_LOAD begins. -/
def paramLoad (c : Cmd) : Load :=
  { kind := 2, member := memberNo c, region := regionNo c, object := wordAt c.body 2, states := flag (wordAt c.body 1) 0 }

/-- The slabs that a PARAM_LOAD asks for: those of its range that the module owns. -/
def paramSlabs (c : Cmd) (jb : Job) (r : Region) : List (Nat × List Nat) :=
  [(regionNo c, (rangeFrom (loadFirst c) (loadCount c)).filter (ownsSlab jb r))]

theorem paramLoadCmd_of_ok (hjb : getJob d c.job = some jb) (h : ParamOk d c jb r) :
    paramLoadCmd d c = (baseSettle (startLoad (waitOn d c (regionNo c)) c.job (paramLoad c) (paramSlabs c jb r)) c.job, none) := by
  have hr : getRegion jb (field (wordAt c.body 0) 61 48) = some r := h.region
  have hany : loadCount c ≠ 0 := Nat.one_le_iff_ne_zero.mp h.any
  simp only [paramLoadCmd, hjb, hr]
  refine checks_of_all_pass ?_
  simp only [List.forall_mem_cons]
  refine ⟨by simp [h.word0, h.word1, h.word3], ?slabs, by simpa [memberNo] using h.member, h.free, nofun⟩
  simpa [loadCount, loadFirst] using And.intro hany h.within

/-- The member of a SNAP_RESTORE. -/
def restoreMember (c : Cmd) : Nat := field (wordAt c.body 1) 11 0

/-- Nothing of the job is in progress that a restore would meet (R471). -/
structure RestoreOk (d : Dev) (c : Cmd) (jb : Job) : Prop where
  word0     : rsvdSet (wordAt c.body 0) [(63, 48)] = false
  word1     : rsvdSet (wordAt c.body 1) [(63, 12)] = false
  member    : SMap.has jb.members (restoreMember c) = true
  contexts  : ctxsActive d c.job = false
  opened    : jb.sealSt.state = .opened
  buckets   : jb.inFlight = true → jb.buckets = []
  loads     : jb.loads = []
  snapshot  : jb.snap.active = false
  rebuild   : rebuilding jb = false

/-- The load that a SNAP_RESTORE begins. -/
def restoreLoad (c : Cmd) (jb : Job) : Load :=
  { kind := 1, member := restoreMember c, object := jobKey jb, step := field (wordAt c.body 0) 47 0 }

/-- The device with a SNAP_RESTORE waiting: its contexts are clear where the restore re-admits the module to the job (log 90). -/
def restoreWaits (d : Dev) (c : Cmd) (jb : Job) : Dev := if readmits jb then clearCtxs (waitOn d c 0) else waitOn d c 0

theorem snapRestoreCmd_of_ok (hjb : getJob d c.job = some jb) (h : RestoreOk d c jb) :
    snapRestoreCmd d c = (baseSettle (startLoad (restoreWaits d c jb) c.job (restoreLoad c jb) (shardSlabs jb)) c.job, none) := by
  have hmember : SMap.has jb.members (field (wordAt c.body 1) 11 0) = true := h.member
  simp only [snapRestoreCmd, hjb]
  refine checks_of_all_pass ?_
  simp only [List.forall_mem_cons]
  refine ⟨by simp [h.word0, h.word1, hmember], ?idle, nofun⟩
  simpa [h.contexts, h.opened, h.loads, h.snapshot, h.rebuild] using h.buckets

/-! ## The statements -/

/-- Settles O35: a region command ends by `endRegionCmd`, waiting while a base delta of its region is outstanding; the haul commands write
their job. -/
theorem regionCommandsMakeEndAndSetRegions : Obligations.RegionCommandsMakeEndAndSetRegions := by
  intro p s d c jb w hjb
  refine ⟨fun slot hran => ?create, fun r hran hword hr hidle => ?destroy, fun r hran hr => ?haulSet, fun r hran hr => ?haulSub⟩
  case create =>
    intro b rn en r fmt h0 h1 h2 hany hmost hrule hjob hparams hstates hdeal hunused hquota hcount hroom e jb' hjb'
    have hok : RegionOk d c jb slot :=
      ⟨h0, h1, h2, hany, hmost, hrule, hjob, hparams, hstates, hdeal, hunused, hquota, hcount, hroom⟩
    exact gives_of_endRegionCmd rfl hran (regionCreateCmd_of_ok hjb hok) hjb'
  case destroy => exact fun jb' hjb' => gives_of_endRegionCmd rfl hran (regionDestroyCmd_of_ok hjb hword hr hidle) hjb'
  case haulSet =>
    intro n hf hword hpadding hformats hidle hwithin
    have hok : HaulSetOk c jb r := ⟨hword, hpadding, hr, hformats, hidle, hwithin⟩
    exact replies_of_done (g := (setJob · c.job (haulSetJob c jb))) rfl hran (haulSetCmd_of_ok hjb hok) (fun h => h.setJob _ _) rfl
  case haulSub =>
    intro m hword hoff hown hmember hwithin hidle
    have hok : HaulSubOk c jb r := ⟨hword, hoff, hown, hmember, hr, hwithin, hidle⟩
    exact replies_of_done (g := (setJob · c.job (haulSubJob c jb))) rfl hran (haulSubCmd_of_ok hjb hok) (fun h => h.setJob _ _) rfl

/-- Settles O36: the load is begun by `startLoad` on the device in which the command waits. -/
theorem loadsBeginAndWait : Obligations.LoadsBeginAndWait := by
  intro p s d c jb w x hjb
  refine ⟨fun r hran h0 h1 h3 hr hany hwithin hmember hfree => ?param,
    fun hran h0 h1 hmember hctxs hopened hbuckets hloads hsnap hrebuild => ?restore⟩
  case param => exact gives_of_onCmd_waits rfl hran (paramLoadCmd_of_ok hjb ⟨h0, h1, h3, hr, hany, hwithin, hmember, hfree⟩)
  case restore =>
    exact gives_of_onStepCmd_waits rfl hran
      (snapRestoreCmd_of_ok hjb ⟨h0, h1, hmember, hctxs, hopened, hbuckets, hloads, hsnap, hrebuild⟩)

end Sys2Proof.Machine
end

section
/-!
SUPPORT. The commands of contexts, graphs and steps (R457 to R463, R466 to R468): their checks, and what each begins.
-/
namespace Sys2Proof.Machine

variable {src : CmdSrc} {a d : Dev} {p : CmdPkt} {s : State} {c : Cmd} {jb : Job}

/-! ## CTX_OPEN and CTX_RELEASE (R387, R457 to R459) -/

/-- The context that an accepted CTX_OPEN drains, with the command waiting. -/
def openBegun (d : Dev) (c : Cmd) (jb : Job) : Dev :=
  acceptOpen (waitOn d c (openCtxNo c.body)) c.job (openCtxNo c.body) (openParams jb.hold c.body) c.body

/-- An open of a context that was DONE lets the entries of its use go, so blocked nodes are tested. -/
theorem ctxOpenCmd_of_ok (hjb : getJob d c.job = some jb)
    (hok : openCheck d c.job jb (openCtxNo c.body) (openParams jb.hold c.body) (openFieldsOk c.body) = none) :
    ctxOpenCmd d c =
      (if (getCtx d (openCtxNo c.body)).state = .done then admitAll (openBegun d c jb) else openBegun d c jb, none) := by
  simp only [ctxOpenCmd, hjb, hok, openBegun, beq_iff_eq]

/-- The context that a CTX_RELEASE names. -/
def releaseNo (c : Cmd) : Nat := field (wordAt c.body 0) 13 0

/-- A CTX_RELEASE passes its checks: its job holds the context or none does, and it is DONE, or IDLE and set FREE (R458). -/
structure ReleaseOk (d : Dev) (c : Cmd) : Prop where
  operand : rsvdSet (wordAt c.body 0) [(63, 17), (15, 14)] = false
  holder  : (getCtx d (releaseNo c)).holder = none ∨ (getCtx d (releaseNo c)).holder = some c.job
  ended   : (getCtx d (releaseNo c)).state = .done ∨ (getCtx d (releaseNo c)).state = .idle ∧ flag (wordAt c.body 0) 16 = true
  drained : (getCtx d (releaseNo c)).drain = .none

theorem releaseCheck_of_ok (h : ReleaseOk d c) : releaseCheck d c.job (releaseNo c) (flag (wordAt c.body 0) 16) = none := by
  have hauth : ((getCtx d (releaseNo c)).holder.isSome && (getCtx d (releaseNo c)).holder != some c.job) = false := by
    obtain hnone | hmine := h.holder
    · simp [hnone]
    · simp [hmine]
  simp only [releaseCheck, hauth, h.drained]
  obtain hdone | ⟨hidle, hfree⟩ := h.ended
  · simp [hdone]
  · simp [hidle, hfree]

theorem ctxReleaseCmd_of_ok (h : ReleaseOk d c) :
    ctxReleaseCmd d c = (acceptRelease (waitOn d c (releaseNo c)) (releaseNo c) (flag (wordAt c.body 0) 16), none) := by
  have hcheck : releaseCheck d c.job (field (wordAt c.body 0) 13 0) (flag (wordAt c.body 0) 16) = none := releaseCheck_of_ok h
  simp only [ctxReleaseCmd, h.operand, hcheck]
  rfl

/-! ## GRAPH_SUBMIT (R461) -/

/-- The graph that a graph command names. -/
def graphNo (c : Cmd) : Nat := field (wordAt c.body 0) 7 0

/-- The number of nodes of a GRAPH_SUBMIT. -/
def nodeCount (c : Cmd) : Nat := field (wordAt c.body 0) 47 32

/-- The nodes of a GRAPH_SUBMIT. -/
def submittedNodes (c : Cmd) : SMap Node := bodyNodes c.body (nodeCount c)

/-- Can an open never get the entries that its context asks for? -/
def neverOpens (d : Dev) (jb : Job) (n : Node) : Bool :=
  neverMet (lostPositions d) (getCtx d (nodeCtx n)).p.accumWin (getCtx d (nodeCtx n)).p.nslab jb.quotas.accum

theorem lostPositions_of_aside (h : Aside src a d) : lostPositions d = lostPositions a := by
  simp only [lostPositions, boundSeam, h.spare]

theorem nodeSyncBad_of_aside (h : Aside src a d) : nodeSyncBad d = nodeSyncBad a := funext fun n => by simp only [nodeSyncBad, h.syncs]

theorem nodeCheck_of_aside (h : Aside src a d) (j : Nat) (ns : SMap Node) (i : Nat) (n : Node) :
    nodeCheck d j ns i n = nodeCheck a j ns i n := by
  have hctx : getCtx d = getCtx a := funext h.getCtx
  unfold nodeCheck
  rw [hctx, h.syncs, nodeSyncBad_of_aside h]

theorem graphCheck_of_aside (h : Aside src a d) (j : Nat) (ns : SMap Node) : graphCheck d j ns = graphCheck a j ns := by
  simp only [graphCheck, nodeCheck_of_aside h]

theorem neverOpens_of_aside (h : Aside src a d) (n : Node) : neverOpens d jb n = neverOpens a jb n := by
  simp only [neverOpens, lostPositions_of_aside h, h.getCtx]

theorem allNodes_of_aside (h : Aside src a d) : allNodes d = allNodes a := by simp only [allNodes, h.jobs]

/-- A GRAPH_SUBMIT passes its checks: job and module have room for its nodes, each passes Table 14-3, and each open can be met. -/
structure SubmitOk (d : Dev) (c : Cmd) (jb : Job) : Prop where
  operand : rsvdSet (wordAt c.body 0) [(63, 48), (31, 8)] = false
  any     : 1 ≤ nodeCount c
  size    : c.body.length = 1 + 4 * nodeCount c
  unused  : SMap.has jb.graphs (graphNo c) = false
  quota   : nodeCount c + jobNodes jb ≤ jb.quotas.node
  most    : nodeCount c + allNodes d ≤ 32768
  nodes   : graphCheck d c.job (submittedNodes c) = none
  opens   : ∀ e ∈ submittedNodes c, nodeType e.2 = 1 → neverOpens d jb e.2 = false

theorem SubmitOk.of_aside (hside : Aside src a d) (h : SubmitOk a c jb) : SubmitOk d c jb :=
  { h with
    most := (allNodes_of_aside hside).symm ▸ h.most
    nodes := (graphCheck_of_aside hside _ _).trans h.nodes
    opens := fun e he htype => (neverOpens_of_aside hside _).trans (h.opens e he htype) }

/-- The job with the graph of a GRAPH_SUBMIT. -/
def submittedJob (c : Cmd) (jb : Job) : Job := { jb with graphs := SMap.set jb.graphs (graphNo c) { nodes := submittedNodes c } }

theorem graphSubmitCmd_of_ok (hjb : getJob d c.job = some jb) (h : SubmitOk d c jb) :
    graphSubmitCmd d c = done (setJob d c.job (submittedJob c jb)) := by
  have hnodes : graphCheck d c.job (bodyNodes c.body (field (wordAt c.body 0) 47 32)) = none := h.nodes
  simp only [graphSubmitCmd, hjb, hnodes]
  rw [checks_of_all_pass]
  · have hquota : ¬ jb.quotas.node < field (wordAt c.body 0) 47 32 + jobNodes jb := Nat.not_lt.mpr h.quota
    have hmost : ¬ 32768 < field (wordAt c.body 0) 47 32 + allNodes d := Nat.not_lt.mpr h.most
    rw [if_neg hquota, if_neg hmost, if_neg]
    · exact congrArg done (updJob_of_getJob hjb _)
    · refine Bool.eq_false_iff.mp (List.any_eq_false.mpr fun e he => ?_)
      simpa [neverOpens] using h.opens e he
  · have hany : field (wordAt c.body 0) 47 32 ≠ 0 := Nat.one_le_iff_ne_zero.mp h.any
    simp only [List.forall_mem_cons]
    exact ⟨by simpa [h.operand, hany, nodeCount] using h.size, h.unused, nofun⟩

/-! ## GRAPH_RELEASE and GRAPH_CANCEL (R462, R463, R487, R504) -/

section
variable {gr : Graph} (hjb : getJob d c.job = some jb) (hgr : SMap.get? jb.graphs (graphNo c) = some gr)
  (hword : rsvdSet (wordAt c.body 0) [(63, 8)] = false)
include hjb hgr hword

theorem graphReleaseCmd_of_held (hnew : gr.released = false) (hseal : releaseWaits jb = true) :
    graphReleaseCmd d c = (waitOn d c (graphNo c), none) := by
  have hgr' : SMap.get? jb.graphs (field (wordAt c.body 0) 7 0) = some gr := hgr
  simp [graphReleaseCmd, hjb, hgr', hword, hnew, hseal, graphNo]

theorem graphReleaseCmd_of_open (hseal : releaseWaits jb = false) :
    graphReleaseCmd d c = ((tryRelease d c.job (graphNo c)).1, some (tryRelease d c.job (graphNo c)).2) := by
  have hgr' : SMap.get? jb.graphs (field (wordAt c.body 0) 7 0) = some gr := hgr
  simp [graphReleaseCmd, hjb, hgr', hword, hseal, graphNo]

theorem graphCancelCmd_of_ok : graphCancelCmd d c = (cancelGraph (waitOn d c (graphNo c)) c.job (graphNo c), none) := by
  have hgr' : SMap.get? jb.graphs (field (wordAt c.body 0) 7 0) = some gr := hgr
  simp [graphCancelCmd, hjb, hgr', hword, graphNo]

end

/-! ## STEP_SEAL, STEP_ABORT and STEP_POISON (R466 to R468) -/

/-- The step that a step command names. -/
def namedStep (c : Cmd) : Nat := field (wordAt c.body 0) 47 0

theorem stepSealCmd_of_ok (hjb : getJob d c.job = some jb) (hword : rsvdSet (wordAt c.body 0) [(63, 48)] = false)
    (hstep : namedStep c = jb.stepCur) : stepSealCmd d c = (requestSeal (waitOn d c jb.stepCur) c.job false, none) := by
  have hstep' : field (wordAt c.body 0) 47 0 = jb.stepCur := hstep
  simp only [stepSealCmd, hjb, hstep']
  refine checks_of_all_pass ?_
  simp [hword]

theorem stepAbortCmd_of_ok (hjb : getJob d c.job = some jb) (hword : rsvdSet (wordAt c.body 0) [(63, 56)] = false)
    (hstep : namedStep c = jb.stepCur) (hattempt : field (wordAt c.body 0) 55 48 = jb.attempt) (hdecided : jb.sealSt.decision ≠ .seal) :
    stepAbortCmd d c = (requestAbort (waitOn d c (field (wordAt c.body 0) 55 0)) c.job 0x50, none) := by
  have hstep' : field (wordAt c.body 0) 47 0 = jb.stepCur := hstep
  simp only [stepAbortCmd, hjb]
  refine checks_of_all_pass ?_
  simp [hword, hstep', hattempt, hdecided]

/-- The rank that a STEP_POISON names. -/
def poisonRank (c : Cmd) : Nat := field (wordAt c.body 1) 43 32

/-- A STEP_POISON passes its checks: a member poisons a rank that it sources, of the current attempt before its decision. -/
structure PoisonOk (d : Dev) (c : Cmd) (jb : Job) : Prop where
  word0   : rsvdSet (wordAt c.body 0) [(63, 56)] = false
  word1   : rsvdSet (wordAt c.body 1) [(63, 44), (31, 16), (7, 2)] = false
  kind    : field (wordAt c.body 1) 1 0 ≠ 3
  sourced : c.sender.role = 4 → sourcesRank d c.job jb c.sender.who (poisonRank c) = true
  inTime  : poisonLate jb c.body = none

theorem stepPoisonCmd_of_ok (hjb : getJob d c.job = some jb) (h : PoisonOk d c jb) :
    stepPoisonCmd d c = done (poisonStep d c.job (poisonRank c) (field (wordAt c.body 1) 15 8) c.body) := by
  simp only [stepPoisonCmd, hjb, h.inTime]
  refine checks_of_all_pass ?_
  simp only [List.forall_mem_cons]
  exact ⟨by simpa [h.word0, h.word1] using h.kind, by simpa [poisonRank] using h.sourced, nofun⟩

/-! ## The statements -/

/-- Settles O39: an accepted open is `acceptOpen`, an accepted release `acceptRelease`, each on the device in which the command waits. -/
theorem contextCommandsDrainTheContext : Obligations.ContextCommandsDrainTheContext := by
  intro p s d c jb hjb
  refine ⟨fun hran hok => ?opened, fun hran hword hholder hended hdrained => ?release⟩
  case opened => exact gives_of_onStepCmd_waits rfl hran (ctxOpenCmd_of_ok hjb hok)
  case release => exact gives_of_onCmd_waits rfl hran (ctxReleaseCmd_of_ok ⟨hword, hholder, hended, hdrained⟩)

/-- Settles O41: a submitted graph is a new entry of its job, by checks that read nothing aside; the other commands act on the device in
which they wait, or before their reply. -/
theorem graphAndStepCommands : Obligations.GraphAndStepCommands := by
  refine ⟨fun p s d c jb => ?graphs, fun p s d c jb => ?steps⟩
  case graphs =>
    intro w g n ns hjb
    have hjob (h : Aside p.src s.dev d) : getJob d c.job = some jb := (h.getJob _).trans hjb
    refine ⟨?submit, fun gr hran hgr hword hnew => ⟨fun hseal => ?held, fun hseal => ?release⟩, fun gr hran hgr hword => ?cancel⟩
    case submit =>
      intro hran hword hany hsize hunused hquota hmost hnodes hopens
      have hok : SubmitOk s.dev c jb := ⟨hword, hany, hsize, hunused, hquota, hmost, hnodes, hopens⟩
      have hcmd := graphSubmitCmd_of_ok (hjob hran.aside) (hok.of_aside hran.aside)
      exact replies_of_done (g := (setJob · c.job (submittedJob c jb))) rfl hran hcmd (fun h => h.setJob _ _) rfl
    case held => exact gives_of_onStepCmd_waits rfl hran (graphReleaseCmd_of_held (hjob hran.aside) hgr hword hnew hseal)
    case release => exact gives_of_onStepCmd rfl hran (graphReleaseCmd_of_open (hjob hran.aside) hgr hword hseal)
    case cancel => exact gives_of_onStepCmd_waits rfl hran (graphCancelCmd_of_ok (hjob hran.aside) hgr hword)
  case steps =>
    intro w x hjb
    refine ⟨fun hran hword hstep => ?sealed, fun hran hword hstep hattempt hdecided => ?abort, fun hran h0 h1 hkind hsourced hlate => ?poison⟩
    case sealed => exact gives_of_onStepCmd_waits rfl hran (stepSealCmd_of_ok hjb hword hstep)
    case abort => exact gives_of_onStepCmd_waits rfl hran (stepAbortCmd_of_ok hjb hword hstep hattempt hdecided)
    case poison => exact gives_of_onStepCmd rfl hran (stepPoisonCmd_of_ok hjb ⟨h0, h1, hkind, hsourced, hlate⟩)

end Sys2Proof.Machine
end

section
/-!
SUPPORT. The commands of snapshots, parity groups, rebuilds, records, replay and reference mode (R469, R470, R473, R474, R476 to R479).
-/
namespace Sys2Proof.Machine

variable {d e : Dev} {p : CmdPkt} {s : State} {c : Cmd} {jb : Job}

/-! ## SNAP_CONFIG and SNAP_TAKE (R469, R470) -/

/-- The interval of a SNAP_CONFIG, in steps. -/
def snapEvery (c : Cmd) : Nat := field (wordAt c.body 0) 9 0

/-- The copies that a SNAP_CONFIG enables. -/
def snapEnabled (c : Cmd) : Nat := field (wordAt c.body 0) 19 16

/-- The members of a SNAP_CONFIG. -/
def snapMembers (c : Cmd) : List Nat := (List.range 4).map fun i => field (wordAt c.body 1) (16 * i + 11) (16 * i)

/-- A SNAP_CONFIG passes its checks: a copy is enabled, and each goes to a member that is attached. -/
structure SnapConfigOk (c : Cmd) (jb : Job) : Prop where
  word0   : rsvdSet (wordAt c.body 0) [(63, 20), (15, 10)] = false
  word1   : rsvdSet (wordAt c.body 1) [(63, 60), (47, 44), (31, 28), (15, 12)] = false
  any     : 1 ≤ snapEvery c
  most    : snapEvery c ≤ 1000
  enabled : snapEnabled c ≠ 0
  members : ∀ i, i < 4 → flag (wordAt c.body 0) (16 + i) = true → SMap.has jb.members ((snapMembers c).getD i 0) = true

/-- The job with the setting of a SNAP_CONFIG. -/
def snapConfigJob (c : Cmd) (jb : Job) : Job := { jb with snapNext := some (snapEvery c, snapEnabled c, snapMembers c) }

theorem snapConfigCmd_of_ok (hjb : getJob d c.job = some jb) (h : SnapConfigOk c jb) :
    snapConfigCmd d c = done (setJob d c.job (snapConfigJob c jb)) := by
  have hany : snapEvery c ≠ 0 := Nat.one_le_iff_ne_zero.mp h.any
  simp only [snapConfigCmd, hjb]
  rw [checks_of_all_pass]
  · exact congrArg done (updJob_of_getJob hjb _)
  · simp only [List.forall_mem_cons]
    refine ⟨by simp [h.word0, h.word1], ?range, by simpa [snapEnabled] using h.enabled, ?members, nofun⟩
    case range => simpa [snapEvery] using And.intro hany h.most
    case members =>
      refine List.any_eq_false.mpr fun i hi => ?_
      have hmember := h.members i (List.mem_range.mp hi)
      rw [snapMembers] at hmember
      simpa using hmember

theorem snapTakeCmd_of_ok (hjb : getJob d c.job = some jb) (hmembers : storeMembers jb ≠ []) (hidle : jb.snap.active = false)
    (hcommit : hasCommit jb.commit = true) :
    snapTakeCmd d c = (startRepair (startSnap (waitOn d c 0) c.job (commitStep jb.commit)) c.job, none) := by
  simp only [snapTakeCmd, hjb]
  refine checks_of_all_pass ?_
  simp [hmembers, hidle, hcommit]

/-! ## PARITY_GROUP_SET and REBUILD_START (R473, R474) -/

/-- The position that a PARITY_GROUP_SET gives the module. -/
def groupPos (c : Cmd) : Nat := field (wordAt c.body 0) 2 0

/-- The serials of a parity group. -/
def groupSerials (c : Cmd) : List W64 := (c.body.drop 1).take 8

/-- A PARITY_GROUP_SET passes its checks: eight serials that differ give the module its own position, and no job has a region. -/
structure GroupOk (d : Dev) (c : Cmd) : Prop where
  operand : rsvdSet (wordAt c.body 0) [(31, 3)] = false
  nonzero : (groupSerials c).contains 0 = false
  nodup   : (groupSerials c).Nodup
  own     : wordAt (groupSerials c) (groupPos c) = d.fac.serial
  empty   : ∀ e ∈ d.jobs, e.2.regions = []

/-- The device with the group set and its record stored, before its position is claimed. -/
def groupStored (d : Dev) (c : Cmd) : Dev :=
  let f := flashWrite d 0x17 72 (sparseWords 0 c.body)
  let g : ParGroup := { id := field (wordAt c.body 0) 63 32, pos := groupPos c, serials := groupSerials c }
  { f with start := { f.start with claimBad := false }, parity := { f.parity with group := some g, lost := [] } }

theorem parityGroupCmd_of_ok (h : GroupOk d c) : parityGroupCmd d c = done (claimGroup (groupStored d c) false) := by
  refine checks_of_all_pass ?_
  simp only [List.forall_mem_cons]
  refine ⟨?group, List.any_eq_false.mpr fun e he => by simp [h.empty e he], nofun⟩
  have hnonzero : ((c.body.drop 1).take 8).contains 0 = false := h.nonzero
  have hnodup : ((c.body.drop 1).take 8).Nodup := h.nodup
  have hown : wordAt ((c.body.drop 1).take 8) (field (wordAt c.body 0) 2 0) = d.fac.serial := h.own
  rw [h.operand, hnonzero, decide_eq_true hnodup, hown]
  simp

/-- A REBUILD_START passes its checks: the ordinal is the module's, and nothing serves, rebuilds or restores the shard already. -/
structure RebuildOk (c : Cmd) (jb : Job) : Prop where
  word0   : rsvdSet (wordAt c.body 0) [(63, 9)] = false
  word1   : rsvdSet (wordAt c.body 1) [(63, 48)] = false
  ordinal : field (wordAt c.body 0) 8 0 = jb.ordinal
  serves  : servesNow jb = false
  rebuild : rebuilding jb = false
  restore : ∀ l ∈ jb.loads, l.kind ≠ 1

theorem rebuildStartCmd_of_ok (hjb : getJob d c.job = some jb) (h : RebuildOk c jb) :
    rebuildStartCmd d c = (startRebuild (waitOn d c 0) c.job (field (wordAt c.body 1) 47 0), none) := by
  simp only [rebuildStartCmd, hjb]
  refine checks_of_all_pass ?_
  simp only [List.forall_mem_cons]
  exact ⟨by simp [h.word0, h.word1, h.ordinal], by simpa [h.serves, h.rebuild] using h.restore, nofun⟩

/-! ## REC_START and REC_STOP (R476, R477) -/

/-- Where a REC_START or REPLAY_START records or reads: 0 the store, 1 a port. -/
def recPlace (c : Cmd) : Nat := field (wordAt c.body 0) 1 0

/-- The port of a record, replay or reference command. -/
def recPort (c : Cmd) : Nat := field (wordAt c.body 0) 40 32

/-- The bytes of buffer that a REC_START asks for. -/
def recBytes (c : Cmd) : Nat := 2 ^ 20 * field (wordAt c.body 1) 31 0

/-- A REC_START passes its checks: the job does not record, and its quota and the store have room, or its port serves members. -/
structure RecordOk (d : Dev) (c : Cmd) (jb : Job) : Prop where
  word0  : rsvdSet (wordAt c.body 0) [(63, 41), (31, 2)] = false
  word1  : rsvdSet (wordAt c.body 1) [(63, 32)] = false
  idle   : recording jb = false
  target : recPlace c = 0 ∧ jb.charge + recBytes c ≤ jb.quotas.memMib * 2 ^ 20 ∧ recBytes c ≤ freeSpace d ∨
    recPlace c = 1 ∧ (getPort d (recPort c)).role = 1

/-- The bytes that a recording takes of the store: none when a port mirrors it. -/
def recSize (c : Cmd) : Nat := if recPlace c = 0 then recBytes c else 0

/-- The job with a recording begun. -/
def recordingJob (c : Cmd) (jb : Job) : Job :=
  { jb with recd := some { target := recPlace c, port := recPort c, size := recSize c }, charge := jb.charge + recSize c }

theorem recStartCmd_of_ok (hjb : getJob d c.job = some jb) (h : RecordOk d c jb) :
    recStartCmd d c = done (updJob d c.job (recordingJob c)) := by
  have htarget := h.target
  simp only [recPlace, recBytes, recPort] at htarget
  simp only [recStartCmd, hjb]
  rw [checks_of_all_pass]
  · rw [if_neg, if_neg]
    · rfl
    · obtain ⟨hstore, hquota, hspace⟩ | ⟨hmirror, hrole⟩ := htarget
      · simpa [hstore] using hspace
      · simp [hmirror]
    · obtain ⟨hstore, hquota, hspace⟩ | ⟨hmirror, hrole⟩ := htarget
      · simpa [hstore] using hquota
      · simp [hmirror]
  · simp only [List.forall_mem_cons]
    obtain ⟨hstore, -⟩ | ⟨hmirror, hrole⟩ := htarget
    · exact ⟨by simp [h.word0, h.word1, hstore], by simp [hstore], h.idle, nofun⟩
    · exact ⟨by simp [h.word0, h.word1, hmirror], by simp [hrole], h.idle, nofun⟩

/-- The device with a recording's last bytes written, before the record is let go. -/
def recFlushed (d : Dev) (j : Nat) : Dev := settleMem (countHold (recEnd d j) j)

theorem recStopCmd_of_ok {jb' : Job} {r : Rec} (hjb : getJob d c.job = some jb) (hrec : recording jb = true)
    (hjb' : getJob (recFlushed d c.job) c.job = some jb') (hr : jb'.recd = some r) :
    recStopCmd d c = doneWith (updJob (recFlushed d c.job) c.job fun jb => endRec jb r) [BitVec.ofNat 64 r.off, BitVec.ofNat 64 r.drops] := by
  have hheld : (getJob (settleMem (countHold (recEnd d c.job) c.job)) c.job).bind (·.recd) = some r := by
    rw [recFlushed] at hjb'
    simp [hjb', hr]
  simp [recStopCmd, hjb, hrec, hheld, recFlushed]

/-! ## REPLAY_START and REF_MODE (R478, R479) -/

/-- A REPLAY_START passes its checks: its source exists, the members are quiesced, and the job neither records nor replays. -/
structure ReplayOk (d : Dev) (c : Cmd) (jb : Job) : Prop where
  word0     : rsvdSet (wordAt c.body 0) [(63, 41), (31, 2)] = false
  word1     : rsvdSet (wordAt c.body 1) [(63, 48)] = false
  source    : recPlace c = 0 ∨ recPlace c = 1 ∧ recPort c ≤ 287
  quiesced  : quiesced d c.job jb = true
  recording : recording jb = false
  replaying : replaying jb = false

/-- The job with a replay begun. -/
def replayJob (d : Dev) (c : Cmd) (jb : Job) : Job :=
  { jb with replay := some (newReplay d jb (recPlace c) (recPort c) (field (wordAt c.body 1) 47 0)) }

theorem replayStartCmd_of_ok (hjb : getJob d c.job = some jb) (h : ReplayOk d c jb) :
    replayStartCmd d c = done (setJob d c.job (replayJob d c jb)) := by
  have hsource := h.source
  simp only [recPlace, recPort] at hsource
  simp only [replayStartCmd, hjb]
  rw [checks_of_all_pass]
  · exact congrArg done (updJob_of_getJob hjb _)
  · simp only [List.forall_mem_cons]
    refine ⟨?source, by simp [h.quiesced, h.recording, h.replaying], nofun⟩
    obtain hstore | ⟨hport, hlast⟩ := hsource
    · simp [h.word0, h.word1, hstore]
    · simpa [h.word0, h.word1, hport] using hlast

/-- The job with reference mode turned on or off. -/
def refModeJob (c : Cmd) (jb : Job) : Job := { jb with refMode := if flag (wordAt c.body 0) 0 then some (recPort c) else none }

theorem refModeCmd_of_ok (hjb : getJob d c.job = some jb) (hword : rsvdSet (wordAt c.body 0) [(63, 41), (31, 1)] = false)
    (hport : recPort c ≤ 287) (hidle : ctxsActive d c.job = false) : refModeCmd d c = done (setJob d c.job (refModeJob c jb)) := by
  have hport' : ¬ 287 < field (wordAt c.body 0) 40 32 := Nat.not_lt.mpr hport
  have hpassed : refModeCmd d c = done (updJob d c.job (refModeJob c)) := by
    simp only [refModeCmd, hword, hport', hidle]
    rfl
  rw [hpassed, updJob_of_getJob hjb]

/-! ## The statement -/

/-- Settles O42: each command's checks are its structure's fields, and what it gives is its lemma above. -/
theorem snapshotRecordAndReplayCommands : Obligations.SnapshotRecordAndReplayCommands := by
  refine ⟨fun p s d c jb => ?snapshots, fun p s d c jb => ?records⟩
  case snapshots =>
    intro w x hjb
    have hjob (h : Aside p.src s.dev d) : getJob d c.job = some jb := (h.getJob _).trans hjb
    refine ⟨?config, fun hran hmembers hidle hcommit => ?take, ?group, fun hran h0 h1 hord hserves hrebuild hrestore => ?rebuild⟩
    case config =>
      intro mems hran h0 h1 hany hmost henabled hmembers
      have hcmd := snapConfigCmd_of_ok (hjob hran.aside) ⟨h0, h1, hany, hmost, henabled, hmembers⟩
      exact replies_of_done (g := (setJob · c.job (snapConfigJob c jb))) rfl hran hcmd (fun h => h.setJob _ _) rfl
    case take => exact gives_of_onCmd_waits rfl hran (snapTakeCmd_of_ok (hjob hran.aside) hmembers hidle hcommit)
    case group =>
      intro serials hran hword hnonzero hnodup hown hempty
      exact gives_of_onCmd rfl hran (parityGroupCmd_of_ok ⟨hword, hnonzero, hnodup, hown, hempty⟩)
    case rebuild =>
      exact gives_of_onStepCmd_waits rfl hran (rebuildStartCmd_of_ok (hjob hran.aside) ⟨h0, h1, hord, hserves, hrebuild, hrestore⟩)
  case records =>
    intro w x hjb
    refine ⟨?start, ?stop, fun hran h0 h1 hsource hquiet hrec hrep => ?replay, fun hran hword hport hidle => ?ref⟩
    case start => exact fun hran h0 h1 hidle htarget => gives_of_onCmd rfl hran (recStartCmd_of_ok hjb ⟨h0, h1, hidle, htarget⟩)
    case stop =>
      intro jb' r hran hrec e hjb' hr
      exact gives_of_onCmd rfl hran (recStopCmd_of_ok hjb hrec hjb' hr)
    case replay => exact gives_of_onStepCmd rfl hran (replayStartCmd_of_ok hjb ⟨h0, h1, hsource, hquiet, hrec, hrep⟩)
    case ref => exact gives_of_onStepCmd rfl hran (refModeCmd_of_ok hjb hword hport hidle)

end Sys2Proof.Machine
end

section
/-!
SUPPORT. Cabling, spares and bypass, interim replies and stale staged loads (R404, R425, R481, R483, R484).
-/
namespace Sys2Proof.Machine

variable {d : Dev} {p : CmdPkt} {s : State} {c : Cmd} {k : SessKey} {w : Waiting}

/-! ## SPARE_RETIRE (R196, R483) -/

/-- The kind of unit that a SPARE_RETIRE names: port position, seam, channel or lane. -/
def retiredKind (c : Cmd) : Nat := field (wordAt c.body 0) 63 56

/-- The unit that a SPARE_RETIRE names. -/
def retiredUnit (c : Cmd) : Nat := field (wordAt c.body 0) 15 0

/-- A SPARE_RETIRE passes its checks: the unit exists and is in service, a spare can take its place, and no member uses its port. -/
structure RetireOk (d : Dev) (c : Cmd) : Prop where
  operand : rsvdSet (wordAt c.body 0) [(55, 16)] = false
  known   : 1 ≤ retiredKind c
  most    : retiredKind c ≤ 4
  within  : retiredUnit c < unitCount (retiredKind c)
  serving : unitGone d (retiredKind c) (retiredUnit c) = false
  spare   : noSpare d (retiredKind c) (retiredUnit c) = false
  unused  : retiredKind c = 1 → portUsed d (retiredUnit c) = false

/-- The command waits with the channel's rebuild for the spare that takes its place. -/
def channelRetires (d : Dev) (c : Cmd) (i : Nat) : Dev := retireChannel (waitOn d c (i / 64 * 64 + (chanRec d i).wnum.getD 63)) i

/-- The retirement of unit `i` of kind `u`: a seam's waits while its position takes no traffic, a channel's for its rebuild. -/
def retireUnit (d : Dev) (c : Cmd) (i : Nat) : Nat → Dev × Option Reply
  | 1 => done (failPosition d i)
  | 2 =>
    match (seamRec d i).pos with
    | some pos => if posRetiring (retireSeam d i) pos then (waitOn (retireSeam d i) c (256 + pos), none) else done (retireSeam d i)
    | none => done (retireSeam d i)
  | 3 => (channelRetires d c i, none)
  | _ => done (retireLane d i)

theorem spareRetireCmd_of_ok (h : RetireOk d c) : spareRetireCmd d c = retireUnit d c (retiredUnit c) (retiredKind c) := by
  have hknown : retiredKind c ≠ 0 := Nat.one_le_iff_ne_zero.mp h.known
  refine checks_of_all_pass ?_
  simp only [List.forall_mem_cons]
  refine ⟨?unit, h.serving, h.spare, by simpa [retiredKind, retiredUnit] using h.unused, nofun⟩
  simpa [h.operand, retiredKind, retiredUnit] using And.intro (And.intro hknown h.most) h.within

theorem retireUnit_seam_of_unbound {i : Nat} (h : (seamRec d i).pos = none) : retireUnit d c i 2 = done (retireSeam d i) := by
  simp only [retireUnit, h]

theorem retireUnit_seam_of_bound {i pos : Nat} (h : (seamRec d i).pos = some pos) : retireUnit d c i 2 =
    if posRetiring (retireSeam d i) pos = true then (waitOn (retireSeam d i) c (256 + pos), none) else done (retireSeam d i) := by
  simp only [retireUnit, h]

theorem gives_spareRetire_seam {i pos : Nat} (hran : Ran 0x0071 p s d c) (hcmd : spareRetireCmd d c = retireUnit d c i 2)
    (hpos : (seamRec d i).pos = some pos) : Gives (.spareRetire p) s (poolsSettle (flushAll (settleLinks s.dev
      (if posRetiring (retireSeam d i) pos = true then waitOn (retireSeam d i) c (256 + pos)
       else finalReply (retireSeam d i) c.w (plainReply stOk 0))))) := by
  rw [retireUnit_seam_of_bound hpos] at hcmd
  by_cases hretiring : posRetiring (retireSeam d i) pos = true
  · rw [if_pos hretiring] at hcmd ⊢
    exact gives_of_onLinkCmd_waits rfl hran hcmd
  · rw [if_neg hretiring] at hcmd ⊢
    exact gives_of_onLinkCmd rfl hran hcmd

/-! ## BYPASS_SET (R484) -/

/-- The pair that a BYPASS_SET names; 0x1F stands for all. -/
def bypassNo (c : Cmd) : Nat := field (wordAt c.body 0) 4 0

/-- The pairs of a BYPASS_SET. -/
def bypassPairs (c : Cmd) : List Nat := if bypassNo c = 0x1F then List.range 16 else [bypassNo c]

/-- A BYPASS_SET passes its checks: its pairs exist, and what it lets be released has a good cabling check. -/
structure BypassOk (d : Dev) (c : Cmd) : Prop where
  operand : rsvdSet (wordAt c.body 0) [(63, 9), (7, 5)] = false
  pair    : bypassNo c < 16 ∨ bypassNo c = 0x1F
  checked : flag (wordAt c.body 0) 8 = false → ∀ q ∈ bypassPairs c, pairChecked d q = true

theorem bypassSetCmd_of_ok (h : BypassOk d c) : bypassSetCmd d c =
    if flag (wordAt c.body 0) 8 = true then done (forEach (bypassPairs c) d fun d q => joinPair d q fun x => { x with held := true })
    else done (forEach (bypassPairs c) d fun d q => updPair d q fun x => { x with held := false, reverted := false }) := by
  refine checks_of_all_pass ?_
  simp only [List.forall_mem_cons]
  refine ⟨?pair, ?checked, nofun⟩
  case pair =>
    have hpair : 16 ≤ bypassNo c → bypassNo c = 0x1F := fun hge => h.pair.resolve_left (Nat.not_lt.mpr hge)
    simpa [h.operand, bypassNo] using hpair
  case checked =>
    cases hjoin : flag (wordAt c.body 0) 8 with
    | true => rfl
    | false => exact List.any_eq_false.mpr fun q hq => by simp [h.checked hjoin q hq]

/-! ## Interim replies (R404) -/

theorem exec_interimReply : exec .interimReply s =
    .next (s.withDev (if answersCmds s.dev = true then interimReplies s.dev else s.dev)) := rfl

theorem gives_interimReply_of_answers (h : answersCmds s.dev = true) : Gives .interimReply s (interimReplies s.dev) := by
  rw [Gives, exec_interimReply, if_pos h, State.withDev]

theorem gives_interimReply_of_silent (h : answersCmds s.dev = false) : Gives .interimReply s s.dev := by
  rw [Gives, exec_interimReply, if_neg (Bool.eq_false_iff.mp h), State.withDev]

theorem interimReply_of_muted (h : w.muted = true) : interimReply d w = d := if_pos h

theorem interimReply_of_heard (h : w.muted = false) : interimReply d w =
    sendOuvrov d w.src w.hjob (replyWords 3 w.opcode w.hjob w.session w.seq w.tag (plainReply stPending 0)) :=
  if_neg (Bool.eq_false_iff.mp h)

/-! ## Staged loads (R425) -/

/-- The device whose session of a key has no staged load. -/
def unstaged (d : Dev) (k : SessKey) : Dev := updSess d k fun x => { x with staged := none }

theorem dropStaged_of_none {x : Session} (hfind : d.mgmt.sessions.find? (keyOf k) = some x) (hnone : x.staged = none) :
    dropStaged d k = d := by simp only [dropStaged, hfind, hnone]

theorem dropStaged_of_some {x : Session} {g : Staged} (hfind : d.mgmt.sessions.find? (keyOf k) = some x) (hsome : x.staged = some g) :
    dropStaged d k = forEach g.buffers (unstaged d k) poolRelease := by simp only [dropStaged, hfind, hsome, unstaged]

/-! ## The statement -/

/-- Settles O43: a retired unit is `retireUnit`, by its kind; a bypass pair is joined or let be released by the flag; the timers are
`interimReplies` and `dropStaged`. -/
theorem cableSpareBypassAndTimers : Obligations.CableSpareBypassAndTimers := by
  refine ⟨fun p s d c => ?commands, fun s => ?timers⟩
  case commands =>
    intro w done_
    refine ⟨fun hran => gives_of_onLinkCmd rfl hran rfl, ?retire, ?bypass⟩
    case retire =>
      intro u i hran hword hknown hmost hwithin hserving hspare hunused
      have hcmd : spareRetireCmd d c = retireUnit d c i u :=
        spareRetireCmd_of_ok ⟨hword, hknown, hmost, hwithin, hserving, hspare, hunused⟩
      refine ⟨fun hu => ?position, fun hu hpos => ?unbound, fun pos hu hpos => ?bound, fun hu => ?channel, fun hu => ?lane⟩
      all_goals rw [hu] at hcmd
      case position => exact gives_of_onLinkCmd rfl hran hcmd
      case unbound => exact gives_of_onLinkCmd rfl hran (hcmd.trans (retireUnit_seam_of_unbound hpos))
      case bound => exact gives_spareRetire_seam hran hcmd hpos
      case channel => exact gives_of_onLinkCmd_waits rfl hran hcmd
      case lane => exact gives_of_onLinkCmd rfl hran hcmd
    case bypass =>
      intro qs hran hword hpair
      refine ⟨fun hjoin => ?join, fun hrelease hchecked => ?release⟩
      case join =>
        have hok : BypassOk d c := ⟨hword, hpair, fun hoff => absurd (hjoin.symm.trans hoff) (by decide)⟩
        exact gives_of_onLinkCmd rfl hran ((bypassSetCmd_of_ok hok).trans (if_pos hjoin))
      case release =>
        have hok : BypassOk d c := ⟨hword, hpair, fun _ => hchecked⟩
        exact gives_of_onLinkCmd rfl hran ((bypassSetCmd_of_ok hok).trans (if_neg (Bool.eq_false_iff.mp hrelease)))
  case timers =>
    intro due
    exact ⟨gives_interimReply_of_answers, gives_interimReply_of_silent,
      fun d w => ⟨interimReply_of_muted, interimReply_of_heard⟩, rfl,
      fun d k x hfind => ⟨dropStaged_of_none hfind, fun g => dropStaged_of_some hfind⟩⟩

end Sys2Proof.Machine
end

section
/-!
SUPPORT. Rows and slabs between modules and storage (R449, R629, R630, R633, R635, R637): what each packet does in each of its cases.
-/
namespace Sys2Proof.Machine

variable {s : State} {d : Dev} {k : PktRx} {jb : Job} {m : Nat} {l : Load} {r : Region} {f : Fetch}

/-! ## Rows (R629, R630) -/

theorem gives_rebuildReq (h : Arrives 0x43 (rebuildReqBad k) k s d) : Gives (.rebuildReq k) s (settleLost (rebuildReqIn d k)) :=
  onArrival_of_arrives h fun d => settleLost (rebuildReqIn d k)

theorem rebuildReqIn_of_no_group (h : d.parity.group = none) : rebuildReqIn d k = d := by simp [rebuildReqIn, h]

theorem rebuildReqIn_of_group (h : d.parity.group ≠ none) :
    rebuildReqIn d k = forEach (rangeFrom (field (wordAt k.words 2) 49 23) (field (wordAt k.words 2) 15 0 + 1)) d fun d row =>
      answerRow d k (field (wordAt k.words 2) 63 50) row (field (wordAt k.words 3) 47 0) := by
  simp [rebuildReqIn, h]

/-- The bytes of a REBUILD_DATA counted. -/
def rowBytesCounted (d : Dev) (k : PktRx) : Dev := bumpBy d ctrRebuildBytes 0 (field (wordAt k.words 4) 13 0)

theorem gives_rebuildData (h : Arrives 0x44 (rebuildDataBad k) k s d) :
    Gives (.rebuildData k) s (poolsSettle (settleLost
      (if flag (wordAt k.words 2) 3 = true then pushIn (rowBytesCounted d k) k else rowIn (rowBytesCounted d k) k))) :=
  onArrival_of_arrives h fun d => poolsSettle (settleLost
    (if flag (wordAt k.words 2) 3 = true then pushIn (rowBytesCounted d k) k else rowIn (rowBytesCounted d k) k))

/-! ## Slabs of a load (R449, R637) -/

/-- The kind of load that a packet of storage is for. -/
def xferKind (k : PktRx) : Nat := field (wordAt k.words 3) 31 30

/-- The region that a packet of storage names. -/
def xferRegion (k : PktRx) : Nat := field (wordAt k.words 2) 61 48

/-- The slab that a packet of storage names. -/
def xferSlab (k : PktRx) : Nat := field (wordAt k.words 3) 63 32

/-- The step that a packet of storage names. -/
def xferStep (k : PktRx) : Nat := field (wordAt k.words 2) 47 0

/-- The array that a SLAB_XFER carries. -/
def xferArray (k : PktRx) : Nat := field (wordAt k.words 2) 63 62

/-- The format that a SLAB_XFER carries. -/
def xferFmt (k : PktRx) : Nat := field (wordAt k.words 3) 28 21

/-- Is a request for the slab that a packet names? -/
def asksFor (k : PktRx) (f : Fetch) : Bool := f.region == xferRegion k && f.slab == xferSlab k

/-- The packet's request answered. -/
def slabAnswered (d : Dev) (k : PktRx) (jb : Job) : Dev := answered d (pktJob k.words) (xferKind k) (xferRegion k) (xferSlab k) jb.q

/-- The packet's slab answered, and missing. -/
def slabMissed (d : Dev) (k : PktRx) (jb : Job) : Dev :=
  missSlab (slabAnswered d k jb) (pktJob k.words) (xferKind k) (xferRegion k) (xferSlab k)

/-- The packet's slab answered, and its part taken. -/
def slabTaken (d : Dev) (k : PktRx) (jb : Job) (l : Load) (r : Region) (f : Fetch) : Dev :=
  takePart (slabAnswered d k jb) (pktJob k.words) l r f (2 * xferArray k + field (wordAt k.words 3) 29 29)
    (field (wordAt k.words 4) 48 48) (field (wordAt k.words 4) 47 0) (k.words.drop 5)

/-- What a packet does to the request it answers, if one waits: in an array and format that the load has, its part is taken; in another the
slab is missed. -/
def slabFound (d : Dev) (k : PktRx) (jb : Job) (l : Load) (r : Region) : Option Fetch → Dev
  | none => d
  | some f =>
    if !(loadArrays l r).contains (xferArray k) || xferFmt k != (r.fmts.getD (xferArray k) 0).toNat then slabMissed d k jb
    else slabTaken d k jb l r f

theorem slabFound_of_other_form (h : (loadArrays l r).contains (xferArray k) = false ∨ xferFmt k ≠ (r.fmts.getD (xferArray k) 0).toNat) :
    slabFound d k jb l r (some f) = slabMissed d k jb := by
  refine if_pos ?_
  obtain harray | hfmt := h
  · rw [harray]; rfl
  · rw [bne_iff_ne.mpr hfmt, Bool.or_true]

theorem slabFound_of_form (harray : (loadArrays l r).contains (xferArray k) = true)
    (hfmt : xferFmt k = (r.fmts.getD (xferArray k) 0).toNat) : slabFound d k jb l r (some f) = slabTaken d k jb l r f := by
  refine if_neg ?_
  rw [harray, hfmt]
  simp

theorem gives_slabXfer (h : Arrives 0x45 (slabXferBad k) k s d) : Gives (.slabXfer k) s (poolsSettle (settleLost (slabXferIn d k))) :=
  onArrival_of_arrives h fun d => poolsSettle (settleLost (slabXferIn d k))

theorem slabXferIn_of_load (hjb : getJob d (pktJob k.words) = some jb) (hm : memberOn jb k.port = some m)
    (hl : loadFor jb m (xferKind k) (xferRegion k) (wordAt k.words 1) (xferStep k) = some l)
    (hr : getRegion jb (xferRegion k) = some r) : slabXferIn d k = slabFound d k jb l r (l.pending.find? (asksFor k)) := by
  have hload : ((memberOn jb k.port).bind fun m => loadFor jb m (field (wordAt k.words 3) 31 30) (field (wordAt k.words 2) 61 48)
      (wordAt k.words 1) (field (wordAt k.words 2) 47 0)) = some l := by rw [hm]; exact hl
  have hregion : getRegion jb (field (wordAt k.words 2) 61 48) = some r := hr
  simp only [slabXferIn, hjb, hload, hregion]
  rfl

/-! ## Answers of storage (R449, R633, R635) -/

/-- Is a held message the snapshot packet to member `m` that an XFER_ACK names? -/
def isAckedXfer (k : PktRx) (m : Nat) (h : Held) : Bool :=
  h.ptype == 0x45 && h.dst == m &&
    h.key == [0, field (wordAt k.words 3) 29 28, field (wordAt k.words 3) 27 27, xferRegion k, xferSlab k, xferStep k]

/-- The status of an XFER_ACK. -/
def xferStatus (k : PktRx) : Nat := field (wordAt k.words 3) 15 0

theorem gives_xferAck (h : Arrives 0x47 (xferAckBad k) k s d) : Gives (.xferAck k) s (xferAckIn d k) :=
  onArrival_of_arrives h fun d => xferAckIn d k

section
variable (hjb : getJob d (pktJob k.words) = some jb) (hm : memberOn jb k.port = some m)
include hjb hm

theorem xferAckIn_of_snapshot (hkind : xferKind k = 0) : xferAckIn d k =
    if !(jb.held.any (isAckedXfer k m)) then d
    else if xferStatus k = stOk then snapSettle (dropHeld d (pktJob k.words) (isAckedXfer k m)) (pktJob k.words)
    else failSnap d (pktJob k.words) := by
  simp only [xferAckIn, hjb, hm]
  exact if_pos hkind

theorem xferAckIn_of_unheld (hkind : xferKind k = 0) (h : jb.held.any (isAckedXfer k m) = false) : xferAckIn d k = d := by
  rw [xferAckIn_of_snapshot hjb hm hkind, h]
  rfl

theorem xferAckIn_of_stored (hkind : xferKind k = 0) (h : jb.held.any (isAckedXfer k m) = true) (hst : xferStatus k = stOk) :
    xferAckIn d k = snapSettle (dropHeld d (pktJob k.words) (isAckedXfer k m)) (pktJob k.words) := by
  rw [xferAckIn_of_snapshot hjb hm hkind, h]
  exact if_pos hst

theorem xferAckIn_of_refused (hkind : xferKind k = 0) (h : jb.held.any (isAckedXfer k m) = true) (hst : xferStatus k ≠ stOk) :
    xferAckIn d k = failSnap d (pktJob k.words) := by
  rw [xferAckIn_of_snapshot hjb hm hkind, h]
  exact if_neg hst

/-- A slab of a load that the member does not hold is missing. -/
theorem xferAckIn_of_not_held (hkind : xferKind k ≠ 0)
    (hl : loadFor jb m (xferKind k) (xferRegion k) (wordAt k.words 1) (xferStep k) = some l) (hst : xferStatus k = stIllegal)
    (hasked : l.pending.any (asksFor k) = true) : xferAckIn d k = slabMissed d k jb := by
  have hl' : loadFor jb m (field (wordAt k.words 3) 31 30) (field (wordAt k.words 2) 61 48) (wordAt k.words 1)
      (field (wordAt k.words 2) 47 0) = some l := hl
  have hmissing : ¬ (xferStatus k != stIllegal || !l.pending.any (asksFor k)) = true := by rw [hst, hasked]; simp
  simp only [xferAckIn, hjb, hm, hl']
  exact (if_neg hkind).trans (if_neg hmissing)

end

/-! ## The statement -/

/-- Settles O55: each row acts on the device with its packet taken; what it does in each case is its lemma above, and a silent member's
transfers end by `xferLapse`. -/
theorem rowsAndSlabsAreTransferred : Obligations.RowsAndSlabsAreTransferred := by
  refine ⟨fun s k d harr => ⟨fun hnone => ?noGroup, fun hgroup => ?rows⟩, fun s k d harr => ?rowData, fun s k d harr => ?slab,
    fun s k d harr => ?ack, fun s => rfl⟩
  case noGroup =>
    have hgives := gives_rebuildReq harr
    rwa [rebuildReqIn_of_no_group hnone] at hgives
  case rows =>
    have hgives := gives_rebuildReq harr
    rwa [rebuildReqIn_of_group hgroup] at hgives
  case rowData =>
    have hgives := gives_rebuildData harr
    refine ⟨fun hpush => ?_, fun hback => ?_⟩
    · rwa [if_pos hpush] at hgives
    · rwa [if_neg (Bool.eq_false_iff.mp hback)] at hgives
  case slab =>
    intro w j kind rn sl a jb m l r hjb hm hl hr want
    have hgives : Gives (.slabXfer k) s (poolsSettle (settleLost (slabFound d k jb l r want))) := by
      have h := gives_slabXfer harr
      rwa [slabXferIn_of_load hjb hm hl hr] at h
    refine ⟨fun hnone => ?_, fun f hsome => ⟨fun hother => ?_, fun harray hfmt => ?_⟩⟩
    · rwa [hnone] at hgives
    · rwa [hsome, slabFound_of_other_form hother] at hgives
    · rwa [hsome, slabFound_of_form harray hfmt] at hgives
  case ack =>
    intro w3 rn j step jb m hjb hm mine
    have hgives := gives_xferAck harr
    refine ⟨fun hkind => ⟨fun hother => ?_, fun hheld hst => ?_, fun hheld hst => ?_⟩, fun l hkind hl hst hasked => ?_⟩
    · rwa [xferAckIn_of_unheld hjb hm hkind hother] at hgives
    · rwa [xferAckIn_of_stored hjb hm hkind hheld hst] at hgives
    · rwa [xferAckIn_of_refused hjb hm hkind hheld hst] at hgives
    · rwa [xferAckIn_of_not_held hjb hm hkind hl hst hasked] at hgives

end Sys2Proof.Machine
end

section
/-!
SUPPORT. The buses of the blade connector and the test access port (chapter 22, R742): what each command puts out while its device answers,
and while it does not.
-/
namespace Sys2Proof.Machine

variable {s : State} {d : Dev} {i : Instr} {code : Nat} {page0 : Bool}

/-! ## Whether the PMBus device answers (R722) -/

theorem pmbusOn_of_answering (hin : d.power.input = .ok ∨ d.power.input = .high) (hat : d.power.answerAt ≤ d.nowUs) :
    pmbusOn d = true := by
  rcases hin with h | h <;> simp [pmbusOn, h, hat]

theorem pmbusOn_of_silent (h : d.power.input = .low ∨ d.power.input = .below10 ∨ d.nowUs < d.power.answerAt) : pmbusOn d = false := by
  rcases h with h | h | h
  · simp [pmbusOn, h]
  · simp [pmbusOn, h]
  · simp [pmbusOn, Nat.not_le.mpr h]

/-- A command of the PMBus device that answers. -/
theorem gives_of_pmbus {f : Dev → Dev} (hrow : exec i s = pmbus s f) (hon : pmbusOn s.dev = true) : Gives i s (f s.dev) := by
  rw [Gives, hrow, pmbus, onDev_next, if_pos hon]

/-- A read of a register of the PMBus device that answers. -/
theorem gives_pmbusAnswer (bytes : Dev → List Byte) (hrow : exec i s = pmbus s fun d => pmbusAnswer d (bytes d))
    (hon : pmbusOn s.dev = true) : Gives i s (output s.dev (.pmbus (bytes s.dev))) := gives_of_pmbus hrow hon

/-- A command of the PMBus device that is silent. -/
theorem gives_of_pmbus_silent {f : Dev → Dev} (hrow : exec i s = pmbus s f) (hoff : pmbusOn s.dev = false) :
    Gives i s (output s.dev .pmbusNack) := by
  rw [Gives, hrow, pmbus, onDev_next, hoff]
  rfl

/-! ## Readings (R723) -/

/-- The rows that read a measurement: their command codes, and whether they read on page 0. -/
def readingRows : List (Instr × Nat × Bool) :=
  [(.readVin, 0x88, true), (.readIin, 0x89, true), (.readTemperature1, 0x8D, true), (.readTemperature2, 0x8E, true),
    (.readTemperature3, 0x8F, true), (.readPin, 0x97, true), (.readVout, 0x8B, false), (.readIout, 0x8C, false), (.readPout, 0x96, false)]

theorem exec_readingRow (s : State) : ∀ e ∈ readingRows, exec e.1 s = pmbus s fun d => pmbusReading d e.2.1 e.2.2 := by
  simp only [readingRows, List.forall_mem_cons]
  exact ⟨rfl, rfl, rfl, rfl, rfl, rfl, rfl, rfl, rfl, nofun⟩

theorem pmbusReading_of_other_page (h : d.power.page = 0 ↔ page0 = false) : pmbusReading d code page0 = pmbusRefuse d := by
  have hother : ((d.power.page == 0) != page0) = true := by cases page0 <;> simp_all
  simp only [pmbusReading, hother, if_true]

/-- The measurement of the current 10 ms is read as it was made. -/
theorem pmbusReading_of_kept (h : d.power.page = 0 ↔ page0 = true) {v : Nat}
    (hkept : SMap.get? d.power.readings (8 * code + d.power.page) = some (d.nowUs / 10000, v)) :
    pmbusReading d code page0 = pmbusAnswer d [BitVec.ofNat 8 v, BitVec.ofNat 8 (v / 256)] := by
  have hsame : ((d.power.page == 0) != page0) = false := by cases page0 <;> simp_all
  simp [pmbusReading, hsame, hkept]

/-- In another 10 ms it is made anew. -/
theorem pmbusReading_of_stale (h : d.power.page = 0 ↔ page0 = true)
    (hstale : ∀ v, SMap.get? d.power.readings (8 * code + d.power.page) ≠ some (d.nowUs / 10000, v)) :
    pmbusReading d code page0 =
      let x := freshReading d code (8 * code + d.power.page) (d.nowUs / 10000)
      pmbusAnswer x.2 [BitVec.ofNat 8 x.1, BitVec.ofNat 8 (x.1 / 256)] := by
  have hsame : ((d.power.page == 0) != page0) = false := by cases page0 <;> simp_all
  simp only [pmbusReading, hsame, Bool.false_eq_true, if_false]
  cases hr : SMap.get? d.power.readings (8 * code + d.power.page) with
  | none => rfl
  | some r =>
    have hold : r.1 ≠ d.nowUs / 10000 := fun heq => hstale r.2 (by rw [hr, ← heq])
    simp only [if_neg hold]

/-- In a shutdown a rail reads 0 from the next refresh on. -/
theorem measured_of_down (hpage : d.power.page ≠ 0) (hdown : d.power.down ≠ none) (hat : d.power.downAt / 10000 < d.nowUs / 10000)
    (code : Nat) (w : W64) : measured d code w = 0 := by
  obtain ⟨c, hc⟩ := Option.ne_none_iff_exists'.mp hdown
  simp [measured, hpage, hc, hat]

/-- A rail's voltage is read within 5.95 % of its setting (log 102). -/
theorem measured_rail_bounds (hpage : d.power.page ≠ 0) (hup : d.power.down = none) (w : W64) :
    railSet d.power.page - railSet d.power.page * 595 / 10000 ≤ measured d 0x8B w ∧
      measured d 0x8B w ≤ railSet d.power.page + railSet d.power.page * 595 / 10000 := by
  have hread : measured d 0x8B w = railSet d.power.page - railSet d.power.page * 595 / 10000 +
      w.toNat % (2 * (railSet d.power.page * 595 / 10000) + 1) := by simp [measured, hup, hpage]
  have hspread := Nat.mod_lt w.toNat (y := 2 * (railSet d.power.page * 595 / 10000) + 1) (Nat.succ_pos _)
  rw [hread]
  generalize railSet d.power.page = v at *
  omega

/-! ## Rows of the PMBus device -/

theorem exec_pmbusRow (s : State) : ∀ i ∈ [Instr.operationOff, .clearFaults, .voutMode, .statusWord, .statusVout, .statusIout, .statusInput,
    .statusTemperature, .statusCml, .readVin, .readIin, .readVout, .readIout, .readTemperature1, .readTemperature2, .readTemperature3,
    .readPout, .readPin, .pmbusRevision, .mfrId, .mfrModel, .mfrSerial, .mfrShutdownCause], ∃ f, exec i s = pmbus s f := by
  simp only [List.forall_mem_cons]
  exact ⟨⟨_, (rfl : execOperationOff s = _)⟩, ⟨_, (rfl : execClearFaults s = _)⟩, ⟨_, (rfl : execVoutMode s = _)⟩,
    ⟨_, (rfl : execStatusWord s = _)⟩, ⟨_, (rfl : execStatusVout s = _)⟩, ⟨_, (rfl : execStatusIout s = _)⟩,
    ⟨_, (rfl : execStatusInput s = _)⟩, ⟨_, (rfl : execStatusTemperature s = _)⟩, ⟨_, (rfl : execStatusCml s = _)⟩,
    ⟨_, (rfl : execReadVin s = _)⟩, ⟨_, (rfl : execReadIin s = _)⟩, ⟨_, (rfl : execReadVout s = _)⟩, ⟨_, (rfl : execReadIout s = _)⟩,
    ⟨_, (rfl : execReadTemperature1 s = _)⟩, ⟨_, (rfl : execReadTemperature2 s = _)⟩, ⟨_, (rfl : execReadTemperature3 s = _)⟩,
    ⟨_, (rfl : execReadPout s = _)⟩, ⟨_, (rfl : execReadPin s = _)⟩, ⟨_, (rfl : execPmbusRevision s = _)⟩, ⟨_, (rfl : execMfrId s = _)⟩,
    ⟨_, (rfl : execMfrModel s = _)⟩, ⟨_, (rfl : execMfrSerial s = _)⟩, ⟨_, (rfl : execMfrShutdownCause s = _)⟩, nofun⟩

theorem gives_page_write (hon : pmbusOn s.dev = true) (v : Nat) :
    Gives (.page (some v)) s (if v ≤ 5 then updPower s.dev fun p => { p with page := v } else setCml s.dev 0x40) :=
  gives_of_pmbus (f := fun d => if v ≤ 5 then updPower d fun p => { p with page := v } else setCml d 0x40) rfl hon

theorem gives_clearFaults (hon : pmbusOn s.dev = true) : Gives .clearFaults s (updPower s.dev fun p =>
    { p with stVout := 0, stIout := 0, stInput := 0, stTemp := 0, stCml := 0, latch := 0, mfrCause := 0 }) :=
  gives_of_pmbus (f := fun d => updPower d _) rfl hon

/-- A write of OPERATION that is neither 0x00 nor 0x80 (R724). -/
theorem gives_operation_write (hon : pmbusOn s.dev = true) (v : Byte) : Gives (.pmbusUnsupported 0x01 (some v)) s (setCml s.dev 0x40) :=
  gives_of_pmbus (f := fun d => setCml d 0x40) rfl hon

/-- A command of no row of Table 22-4 (R722). -/
theorem gives_pmbusUnsupported {c : Byte} (hon : pmbusOn s.dev = true) (hc : c ≠ 0x01) (v : Option Byte) :
    Gives (.pmbusUnsupported c v) s (pmbusRefuse s.dev) := by
  have hne : c.toNat ≠ 1 := fun h => hc (BitVec.eq_of_toNat_eq h)
  rw [Gives, exec, execPmbusUnsupported, pmbus, onDev_next, if_pos hon]
  split
  · contradiction
  · contradiction
  · rfl

/-- OPERATION on below 40 V (Table 22-14). -/
theorem gives_operationOn_low (h : s.dev.power.input = .low) : Gives .operationOn s (output (setCml s.dev 0x40) .pmbusNack) := by
  simp [Gives, exec, execOperationOn, h]

theorem gives_operationOn_silent (h : s.dev.power.input ≠ .low) (hoff : pmbusOn s.dev = false) :
    Gives .operationOn s (output s.dev .pmbusNack) := by
  simp [Gives, exec, execOperationOn, h, hoff]

/-- What OPERATION on does in a device that answers (R724). -/
theorem gives_operationOn (hon : pmbusOn s.dev = true) : Gives .operationOn s
    (if s.dev.power.input ≠ .ok then setCml s.dev 0x40
     else if s.dev.power.opOff = true then
      tryStart (updPower s.dev fun p => { p with opOff := false, locked := false, due := p.due || p.locked || p.down == some 6 })
     else s.dev) := by
  have hlow : s.dev.power.input ≠ .low := by
    intro h
    simp [pmbusOn_of_silent (.inl h)] at hon
  simp [Gives, exec, execOperationOn, hlow, hon]

/-! ## SMBus (R742) -/

theorem smbusOn_of_silent (h : d.clocks.lost.contains 39 = true ∨ d.power.input = .low ∨ d.power.input = .below10 ∨ d.nowUs < d.power.answerAt) :
    smbusOn d = false := by
  rcases h with hlost | hsilent
  · rw [smbusOn, hlost, Bool.not_true, Bool.and_false]
  · simp [smbusOn, pmbusOn_of_silent hsilent]

theorem rangeFrom_eq_map (o n : Nat) : rangeFrom o n = (List.range n).map (o + ·) := by
  induction n generalizing o with
  | zero => rfl
  | succ n ih =>
    rw [rangeFrom, ih, List.range_succ_eq_map]
    simp [Nat.add_right_comm, Nat.add_assoc]

/-- What an SMBus read of `n` bytes from offset `o` gives. -/
def smbusRead (d : Dev) (o n : Nat) : Dev := if smbusOn d then pmbusAnswer d (smbusBytes d o n) else output d .pmbusNack

theorem gives_smbusReadByte {o : Nat} (ho : o < 256) : Gives (.smbusReadByte o) s (smbusRead s.dev o 1) :=
  onUnit_of_ok (decide_eq_true ho) s _

theorem gives_smbusReadWord {o : Nat} (ho : o < 256) : Gives (.smbusReadWord o) s (smbusRead s.dev o 2) :=
  onUnit_of_ok (decide_eq_true ho) s _

theorem gives_smbusBlockRead {o n : Nat} (ho : o < 256) (hn : n ≤ 32) : Gives (.smbusBlockRead o n) s (smbusRead s.dev o n) :=
  onUnit_of_ok (by simp [ho, hn]) s _

theorem smbusRead_of_off {o n : Nat} (h : smbusOn d = false) : smbusRead d o n = output d .pmbusNack := by simp [smbusRead, h]

theorem smbusRead_of_on {o n : Nat} (h : smbusOn d = true) :
    smbusRead d o n = output d (.pmbus ((List.range n).map fun i => smbusByte d (o + i))) := by
  simp [smbusRead, h, pmbusAnswer, smbusBytes, rangeFrom_eq_map, Function.comp_def]

/-! ## The test access port (R735) -/

theorem gives_of_scan {f : Dev → Dev} (hrow : exec i s = scan s f) (hen : s.dev.power.scanEn = true) : Gives i s (f s.dev) := by
  rw [Gives, hrow, scan, onDev_next, if_pos hen]

theorem gives_of_scan_off {f : Dev → Dev} (hrow : exec i s = scan s f) (hen : s.dev.power.scanEn = false) : Gives i s s.dev := by
  rw [Gives, hrow, scan, onDev_next, hen]
  rfl

theorem exec_tapRow (s : State) : ∀ i ∈ [Instr.jtagBypass, .idcode, .extest, .highz], ∃ f, exec i s = scan s f := by
  simp only [List.forall_mem_cons]
  exact ⟨⟨_, (rfl : execJtagBypass s = _)⟩, ⟨_, (rfl : execIdcode s = _)⟩, ⟨_, (rfl : execExtest s = _)⟩, ⟨_, (rfl : execHighz s = _)⟩,
    nofun⟩

theorem gives_jtagBypass (hen : s.dev.power.scanEn = true) :
    Gives .jtagBypass s (output (updPower s.dev fun p => { p with tap := 0 }) (.tap 0 1)) :=
  gives_of_scan (f := fun d => output (updPower d _) _) rfl hen

theorem gives_idcode (hen : s.dev.power.scanEn = true) :
    Gives .idcode s (output (updPower s.dev fun p => { p with tap := 1 }) (.tap 0x1328855D 32)) :=
  gives_of_scan (f := fun d => output (updPower d _) _) rfl hen

theorem gives_samplePreload (bits : List Bool) (hen : s.dev.power.scanEn = true) :
    let line := (List.range 48).map (Config.freeWord s.dev.freeCtr).getLsbD ++ bits
    Gives (.samplePreload bits) s
      (output (updPower (drawFree s.dev).2 fun p => { p with tap := 2, bsr := line.drop bits.length })
        (.tap (bitsNat (line.take bits.length)) bits.length)) :=
  gives_of_scan (i := .samplePreload bits) (rfl : execSamplePreload bits s = _) hen

theorem gives_extest (hen : s.dev.power.scanEn = true) :
    Gives .extest s (output (updPower s.dev fun p => { p with tap := 3 }) (.pins (some s.dev.power.bsr))) :=
  gives_of_scan (f := fun d => output (updPower d _) (.pins (some d.power.bsr))) rfl hen

theorem gives_highz (hen : s.dev.power.scanEn = true) :
    Gives .highz s (output (updPower s.dev fun p => { p with tap := 4 }) (.pins none)) :=
  gives_of_scan (f := fun d => output (updPower d _) _) rfl hen

/-! ## The statements -/

/-- Settles O9: each read of a fixed register is `gives_of_pmbus` with its bytes; a reading is refused on the other page, kept within its
10 ms and made anew after them (`pmbusReading_of_other_page`, `pmbusReading_of_kept`, `pmbusReading_of_stale`). -/
theorem pmbusReadsPutOutTheirValues : Obligations.PmbusReadsPutOutTheirValues := by
  refine ⟨fun s hin hat => ?registers, fun s hin hat => ?readings, fun d w hpage => ?bounds⟩
  case registers =>
    have hon := pmbusOn_of_answering hin hat
    intro say p
    exact ⟨gives_pmbusAnswer (fun _ => [0x14]) rfl hon,
      gives_pmbusAnswer (fun d => [BitVec.ofNat 8 (statusWord d.power), BitVec.ofNat 8 (statusWord d.power / 256)]) rfl hon,
      gives_pmbusAnswer (fun d => [d.power.stVout]) rfl hon, gives_pmbusAnswer (fun d => [d.power.stIout]) rfl hon,
      gives_pmbusAnswer (fun d => [d.power.stInput]) rfl hon, gives_pmbusAnswer (fun d => [d.power.stTemp]) rfl hon,
      gives_pmbusAnswer (fun d => [d.power.stCml]) rfl hon, gives_pmbusAnswer (fun _ => [0x33]) rfl hon,
      gives_pmbusAnswer (fun _ => asciiBytes "WALUETRIC") rfl hon, gives_pmbusAnswer (fun _ => asciiBytes "LM-3288-A") rfl hon,
      gives_pmbusAnswer (fun d => hexBytes d.fac.serial) rfl hon, gives_pmbusAnswer (fun d => [BitVec.ofNat 8 d.power.mfrCause]) rfl hon,
      gives_pmbusAnswer (fun d => [BitVec.ofNat 8 d.power.page]) rfl hon,
      gives_pmbusAnswer (fun d => [if d.power.opOff then 0x00 else 0x80]) rfl hon⟩
  case readings =>
    have hon := pmbusOn_of_answering hin hat
    intro p now say refuse e he key w
    have hgives := gives_of_pmbus (exec_readingRow s e he) hon
    refine ⟨fun hother => ?_, fun hpage => ⟨fun v hkept => ?_, fun hstale => ?_⟩⟩
    · rwa [pmbusReading_of_other_page hother] at hgives
    · rwa [pmbusReading_of_kept hpage hkept] at hgives
    · rwa [pmbusReading_of_stale hpage hstale] at hgives
  case bounds => exact ⟨fun code hdown hat => measured_of_down hpage hdown hat code w, fun hup => measured_rail_bounds hpage hup w⟩

/-- Settles O10: writes act while the device answers, by the rows' own lemmas; a silent device acknowledges none of its rows. -/
theorem pmbusWritesAndSilence : Obligations.PmbusWritesAndSilence := by
  refine ⟨fun s hin hat => ?answering, fun s hsilent => ?silent⟩
  case answering =>
    have hon := pmbusOn_of_answering hin hat
    intro p
    refine ⟨fun v hv => ?_, fun v hv => ?_, gives_clearFaults hon, gives_operation_write hon, fun c v hc => gives_pmbusUnsupported hon hc v,
      fun hin => ?_, fun hin hop => ?_⟩
    · have hgives := gives_page_write hon v
      rwa [if_pos hv] at hgives
    · have hgives := gives_page_write hon v
      rwa [if_neg (Nat.not_le.mpr hv)] at hgives
    · have hgives := gives_operationOn hon
      rwa [if_pos hin] at hgives
    · have hgives := gives_operationOn hon
      rwa [if_neg (not_not_intro hin), if_neg (Bool.eq_false_iff.mp hop)] at hgives
  case silent =>
    have hoff := pmbusOn_of_silent hsilent
    refine ⟨gives_operationOn_low, fun hlow => gives_operationOn_silent hlow hoff, fun i hi => ?_⟩
    rcases hi with hi | ⟨v, rfl⟩ | ⟨c, v, rfl⟩
    · obtain ⟨f, hrow⟩ := exec_pmbusRow s i hi
      exact gives_of_pmbus_silent hrow hoff
    · exact gives_of_pmbus_silent (rfl : execPage v s = _) hoff
    · exact gives_of_pmbus_silent (rfl : execPmbusUnsupported c v s = _) hoff

/-- Settles O11: the three reads are `smbusRead`, silent or answering. -/
theorem smbusServesIdentityBytes : Obligations.SmbusServesIdentityBytes := by
  refine ⟨fun s hsilent o n ho hn => ?silent, fun s hin hat hclock => ?answering⟩
  case silent =>
    have hnack (n : Nat) : smbusRead s.dev o n = output s.dev .pmbusNack := smbusRead_of_off (smbusOn_of_silent hsilent)
    simp only [List.forall_mem_cons]
    exact ⟨hnack 1 ▸ gives_smbusReadByte ho, hnack 2 ▸ gives_smbusReadWord ho, hnack n ▸ gives_smbusBlockRead ho hn, nofun⟩
  case answering =>
    have hon : smbusOn s.dev = true := by rw [smbusOn, pmbusOn_of_answering hin hat, hclock]; rfl
    have hbytes (o n : Nat) := smbusRead_of_on (o := o) (n := n) hon
    intro byte
    refine ⟨fun o ho => ⟨?_, ?_⟩, fun o n ho hn => ?_, fun o n hbad => ?_⟩
    · exact hbytes o 1 ▸ gives_smbusReadByte ho
    · exact hbytes o 2 ▸ gives_smbusReadWord ho
    · exact hbytes o n ▸ gives_smbusBlockRead ho hn
    · have hok : (decide (o < 256) && decide (n ≤ 32)) = false := by
        rw [← Bool.decide_and]
        exact decide_eq_false (by omega)
      show execSmbusBlockRead o n s = _
      rw [execSmbusBlockRead, hok, onUnit_false]

/-- Settles O12: under SCAN_EN each instruction is taken, and 48 bits shifted in push the 48 captured ones out; else none is. -/
theorem testPortNeedsScanEn : Obligations.TestPortNeedsScanEn := by
  refine ⟨fun s hen => ?taken, fun s hoff i hi => ?ignored⟩
  case taken =>
    intro p w
    refine ⟨gives_jtagBypass hen, gives_idcode hen, ?_⟩
    intro pins
    refine ⟨fun bits => gives_samplePreload bits hen, fun bits hlen => ?_, gives_extest hen, gives_highz hen⟩
    have hpins : bits.length = pins.length := by simp [pins, hlen]
    exact ⟨List.drop_left' hpins.symm, List.take_left' hpins.symm⟩
  case ignored =>
    rcases hi with hi | ⟨bits, rfl⟩
    · obtain ⟨f, hrow⟩ := exec_tapRow s i hi
      exact gives_of_scan_off hrow hoff
    · exact gives_of_scan_off (i := .samplePreload bits) (rfl : execSamplePreload bits s = _) hoff

end Sys2Proof.Machine
end

section
/-!
SUPPORT. The power stage and the clock root (chapter 22): what a shutdown leaves, what a restart begins, and the rows of excursions and of
the clocks.
-/
namespace Sys2Proof.Machine

variable {s : State} {d : Dev}

/-! ## A shutdown (R715, R718, R691, R737) -/

/-- A change of the power stage that leaves the shutdown in force and its cause. -/
def KeepsCause (f : Power → Power) : Prop :=
  ∀ p, (f p).down = p.down ∧ (f p).downAt = p.downAt ∧ (f p).latch = p.latch ∧ (f p).mfrCause = p.mfrCause

/-- Device `t` is device `d` shut down by cause `c`. -/
def ShutDown (d : Dev) (c : Nat) (t : Dev) : Prop :=
  t.power.down = some c ∧ t.power.downAt = d.nowUs ∧ t.power.latch = c ∧ t.power.mfrCause = c ∧ t.start.phase = .power ∧
  t.jobs = [] ∧ t.ctxs = [] ∧ t.left = [] ∧ t.maps = [] ∧ t.rules = [] ∧ t.scheds = [] ∧ t.syncs = [] ∧ t.ports = [] ∧
  t.counters = [] ∧ t.arrived = [] ∧ t.pools.bufs = [] ∧ t.mgmt.sessions = [] ∧ t.mgmt.waiting = [] ∧ t.mgmt.traps = [] ∧
  t.mgmt.sinks = [] ∧ t.parity = {} ∧ t.mems = [] ∧
  (∀ q ∈ t.fabric.pairs, q.st = .joined) ∧ t.fabric.pairs.length = d.fabric.pairs.length ∧
  t.fac = d.fac ∧ t.nowUs = d.nowUs ∧ t.mgmt.out = d.mgmt.out

/-- The logs of retained flash stay. -/
def KeepsLogs (d t : Dev) : Prop := t.flash.a.copies = d.flash.a.copies ∧ t.flash.b.copies = d.flash.b.copies

theorem joinAll_joined (d : Dev) : ∀ q ∈ joinAll d, q.st = .joined := by
  intro q hq
  obtain ⟨r, -, rfl⟩ := List.mem_map.mp hq
  rfl

theorem length_joinAll (d : Dev) : (joinAll d).length = d.fabric.pairs.length := List.length_map _

theorem shutdown_of_running (h : d.power.down = none) (c : Nat) : shutdown d c =
    { wipeDev d with
      start := { phase := .power, restarts := if c = 1 && startingUp d then d.start.restarts + 1 else 0, origin := d.start.origin }
      power := { (wipeDev d).power with down := some c, downAt := d.nowUs, due := false, latch := c, mfrCause := c } } := by
  simp only [shutdown, h]

theorem shutdown_of_earlier {c n : Nat} (h : d.power.down = some c) (hlast : d.power.downAt ≠ d.nowUs ∨ c ≤ n) : shutdown d n = d := by
  have hlate : ¬ (d.power.downAt = d.nowUs ∧ n < c) := by omega
  simp [shutdown, h, hlate]

theorem shutdown_of_same_instant {c n : Nat} (h : d.power.down = some c) (hat : d.power.downAt = d.nowUs) (hlow : n < c) :
    shutdown d n = updPower d fun p => { p with down := some n, latch := n, mfrCause := n } := by
  simp [shutdown, h, hat, hlow, updPower]

/-- A running module that a condition shuts down. -/
theorem shutDown_of_running {f : Power → Power} (h : d.power.down = none) (hf : KeepsCause f) (c : Nat) :
    ShutDown d c (updPower (shutdown d c) f) ∧ KeepsLogs d (updPower (shutdown d c) f) := by
  rw [shutdown_of_running h]
  obtain ⟨hdown, hat, hlatch, hcause⟩ := hf { (wipeDev d).power with down := some c, downAt := d.nowUs, due := false, latch := c, mfrCause := c }
  exact ⟨⟨hdown, hat, hlatch, hcause, rfl, rfl, rfl, rfl, rfl, rfl, rfl, rfl, rfl, rfl, rfl, rfl, rfl, rfl, rfl, rfl, rfl, rfl,
    joinAll_joined d, length_joinAll d, rfl, rfl, rfl⟩, rfl, rfl⟩

/-- A second condition: the first cause stays in force, but for a lower one of the same instant (R737). -/
theorem second_condition {f : Power → Power} {c n : Nat} (h : d.power.down = some c) (hf : KeepsCause f) :
    let t := updPower (shutdown d n) f
    t.start = d.start ∧
    (d.power.downAt ≠ d.nowUs ∨ c ≤ n → t.power.down = some c ∧ t.power.latch = d.power.latch) ∧
    (d.power.downAt = d.nowUs → n < c → t.power.down = some n ∧ t.power.latch = n) := by
  intro t
  obtain ⟨hdown, -, hlatch, -⟩ := hf (shutdown d n).power
  have hd : t.power.down = (shutdown d n).power.down := hdown
  have hl : t.power.latch = (shutdown d n).power.latch := hlatch
  refine ⟨?_, fun hlast => ?_, fun hat hlow => ?_⟩
  · show (shutdown d n).start = d.start
    simp only [shutdown, h]
    split <;> rfl
  · rw [hd, hl, shutdown_of_earlier h hlast]
    exact ⟨h, rfl⟩
  · rw [hd, hl, shutdown_of_same_instant h hat hlow]
    exact ⟨rfl, rfl⟩

/-! ## The rows that shut down (Table 22-2) -/

/-- The device as the input falls: a record write that this interrupts is torn (R705, R711). -/
def fallen (d : Dev) (fall : InputFall) : Dev :=
  match fall.torn with
  | some t => if powered d then tearWrite d t else d
  | none => d

/-- What the power stage holds once the input has fallen. -/
def fallenPower (fall : InputFall) (now : Nat) (p : Power) : Power :=
  if fall.below10 then lostPower p now else { p with input := .low, stInput := p.stInput ||| 0x10 }

theorem gives_inputLow (fall : InputFall) :
    Gives (.inputLow fall) s (updPower (shutdown (fallen s.dev fall) 1) (fallenPower fall s.dev.nowUs)) := rfl

theorem gives_inputHigh :
    Gives .inputHigh s (updPower (shutdown s.dev 2) fun p => { p with input := .high, stInput := p.stInput ||| 0x80 }) := rfl

theorem gives_overcurrent : Gives .overcurrent s (updPower (shutdown s.dev 3) fun p => { p with stInput := p.stInput ||| 0x04 }) := rfl

theorem gives_overTemperature : Gives .overTemperature s
    (updPower (shutdown s.dev 4) fun p => { p with stTemp := p.stTemp ||| 0x80, due := p.due && p.down != some 4 }) := rfl

theorem gives_scanEnAssert :
    Gives .scanEnAssert s (updPower (shutdown s.dev 7) fun p => { p with scanEn := true, tap := 1 }) := rfl

theorem gives_railFault : Gives .railFault s (updPower (shutdown (drawFree s.dev).2 8)
    fun p => { p with stVout := p.stVout ||| (if (drawFree s.dev).1.getLsbD 0 then 0x80 else 0x10) }) := rfl

theorem gives_operationOff (hon : pmbusOn s.dev = true) :
    Gives .operationOff s (updPower (shutdown s.dev 6) fun p => { p with opOff := true }) :=
  gives_of_pmbus (f := fun d => updPower (shutdown d 6) _) rfl hon

theorem gives_heartbeatMissing_due (harmed : s.dev.power.hbArmed = true) (hmissing : s.dev.power.hbAt + 10000 ≤ s.dev.nowUs) :
    Gives .heartbeatMissing s (shutdown s.dev 5) := by
  simp [Gives, exec, execHeartbeatMissing, harmed, hmissing]

theorem gives_heartbeatMissing_unarmed (h : s.dev.power.hbArmed = false) : Gives .heartbeatMissing s s.dev := by
  simp [Gives, exec, execHeartbeatMissing, h]

/-- Each of the rows that act at any time is a shutdown of its cause, of a device that may have drawn a free value. -/
theorem gives_shutdownRow (s : State) : ∀ e ∈ [(Instr.inputLow { below10 := false, torn := none }, 1), (.inputHigh, 2), (.overcurrent, 3),
    (.overTemperature, 4), (.scanEnAssert, 7), (.railFault, 8)],
    ∃ f k, Gives e.1 s (updPower (shutdown { s.dev with freeCtr := k } e.2) f) ∧ KeepsCause f := by
  simp only [List.forall_mem_cons]
  exact ⟨⟨_, s.dev.freeCtr, gives_inputLow _, fun _ => ⟨rfl, rfl, rfl, rfl⟩⟩, ⟨_, s.dev.freeCtr, gives_inputHigh, fun _ => ⟨rfl, rfl, rfl, rfl⟩⟩,
    ⟨_, s.dev.freeCtr, gives_overcurrent, fun _ => ⟨rfl, rfl, rfl, rfl⟩⟩,
    ⟨_, s.dev.freeCtr, gives_overTemperature, fun _ => ⟨rfl, rfl, rfl, rfl⟩⟩,
    ⟨_, s.dev.freeCtr, gives_scanEnAssert, fun _ => ⟨rfl, rfl, rfl, rfl⟩⟩,
    ⟨_, s.dev.freeCtr + 1, gives_railFault, fun _ => ⟨rfl, rfl, rfl, rfl⟩⟩, nofun⟩

/-- A write that is torn changes the flash alone. -/
theorem tearWrite_eq (d : Dev) (w : TornWrite) : tearWrite d w = { d with flash := (tearWrite d w).flash } := by
  unfold tearWrite
  dsimp only
  repeat' split
  all_goals rfl

theorem powered_of_input (hdown : d.power.down = none) (hin : d.power.input = .ok ∨ d.power.input = .high) : powered d = true := by
  rcases hin with h | h <;> simp [powered, hdown, h]

theorem fallen_of_torn {b : Bool} (hdown : d.power.down = none) (hin : d.power.input = .ok ∨ d.power.input = .high) (w : TornWrite) :
    fallen d { below10 := b, torn := some w } = tearWrite d w := if_pos (powered_of_input hdown hin)

/-- Settles O13: a row of a running module is a shutdown (`shutDown_of_running`), one of a module shut down already a second condition
(`second_condition`); below 10 V the power stage is `lostPower`. -/
theorem shutdownLatchesTheFirstCause : Obligations.ShutdownLatchesTheFirstCause := by
  refine ⟨fun s hdown => ?running, fun s => ⟨fun w => ?below10, fun c hc => ⟨fun e he => ?second, gives_heartbeatMissing_unarmed⟩⟩⟩
  case running =>
    intro off kept
    have hoff {f : Power → Power} (hf : KeepsCause f) (c : Nat) := shutDown_of_running hdown hf c
    refine ⟨?low, fun w hin => ?torn, ?high, ?current, ?temperature, fun harmed hmissing => ?heartbeat, fun hin hat => ?operation, ?scan, ?rail⟩
    case low =>
      obtain ⟨h, hlogs⟩ := hoff (f := fallenPower { below10 := false, torn := none } s.dev.nowUs) (fun _ => ⟨rfl, rfl, rfl, rfl⟩) 1
      exact ⟨_, gives_inputLow _, h, hlogs, rfl⟩
    case torn =>
      have hgives := gives_inputLow (s := s) { below10 := false, torn := some w }
      rw [fallen_of_torn hdown hin] at hgives
      rw [tearWrite_eq] at hgives ⊢
      obtain ⟨h, hlogs⟩ := shutDown_of_running (d := { s.dev with flash := (tearWrite s.dev w).flash }) hdown
        (f := fallenPower { below10 := false, torn := some w } s.dev.nowUs) (fun _ => ⟨rfl, rfl, rfl, rfl⟩) 1
      exact ⟨_, hgives, h, hlogs, rfl⟩
    case high =>
      obtain ⟨h, hlogs⟩ := hoff (f := fun p => { p with input := .high, stInput := p.stInput ||| 0x80 }) (fun _ => ⟨rfl, rfl, rfl, rfl⟩) 2
      exact ⟨_, gives_inputHigh, h, hlogs, rfl⟩
    case current => exact ⟨_, gives_overcurrent, hoff (fun _ => ⟨rfl, rfl, rfl, rfl⟩) 3⟩
    case temperature => exact ⟨_, gives_overTemperature, hoff (fun _ => ⟨rfl, rfl, rfl, rfl⟩) 4⟩
    case heartbeat => exact ⟨_, gives_heartbeatMissing_due harmed hmissing, hoff (f := id) (fun _ => ⟨rfl, rfl, rfl, rfl⟩) 5⟩
    case operation =>
      obtain ⟨h, hlogs⟩ := hoff (f := fun p => { p with opOff := true }) (fun _ => ⟨rfl, rfl, rfl, rfl⟩) 6
      exact ⟨_, gives_operationOff (pmbusOn_of_answering hin hat), h, hlogs, rfl⟩
    case scan =>
      obtain ⟨h, hlogs⟩ := hoff (f := fun p => { p with scanEn := true, tap := 1 }) (fun _ => ⟨rfl, rfl, rfl, rfl⟩) 7
      exact ⟨_, gives_scanEnAssert, h, hlogs, rfl⟩
    case rail =>
      exact ⟨_, gives_railFault, shutDown_of_running (d := (drawFree s.dev).2) hdown (fun _ => ⟨rfl, rfl, rfl, rfl⟩) 8⟩
  case below10 => exact ⟨_, gives_inputLow _, rfl, rfl, rfl, rfl, rfl, rfl, rfl, rfl, rfl, rfl, rfl, rfl, rfl⟩
  case second =>
    obtain ⟨f, k, hgives, hf⟩ := gives_shutdownRow s e he
    exact ⟨_, hgives, second_condition (d := { s.dev with freeCtr := k }) hc hf⟩

end Sys2Proof.Machine
end

section
/-!
SUPPORT. Restarts, excursions and the clock root (chapter 22): when a restart condition begins a start-up, what a restart leaves, and what
excursions and losses of a clock do.
-/
namespace Sys2Proof.Machine

variable {s : State} {d : Dev}

/-! ## A start that begins (R705, R715) -/

/-- Device `t` is device `d` at the beginning of a start-up, its restart number `n`. -/
def Begun (d : Dev) (n : Nat) (t : Dev) : Prop :=
  t.start.phase = .power ∧ t.start.origin = d.nowUs ∧ t.start.restarts = n ∧ t.power.down = none ∧ t.power.locked = false ∧
  t.power.answerAt = d.nowUs + 5000 ∧ t.power.input = .ok ∧ t.flash.a.copies = d.flash.a.copies ∧
  t.flash.b.copies = d.flash.b.copies ∧ t.jobs = []

theorem begun_beginStart (h : d.power.input = .ok) (n : Nat) : Begun d n (beginStart d n) :=
  ⟨rfl, rfl, rfl, rfl, rfl, rfl, h, rfl, rfl, rfl⟩

theorem mayStart_iff :
    mayStart d = true ↔ d.power.input = .ok ∧ d.power.opOff = false ∧ d.power.scanEn = false ∧ d.power.locked = false := by
  simp [mayStart, and_assoc]

theorem mayStart_of_held (h : d.power.opOff = true ∨ d.power.scanEn = true) : mayStart d = false := by
  rcases h with h | h <;> simp [mayStart, h]

theorem tryStart_of_due (hdue : d.power.due = true) (hmay : mayStart d = true) :
    tryStart d = beginStart d (if d.power.down = some 1 then d.start.restarts else 0) := by
  simp [tryStart, hdue, hmay]

theorem tryStart_of_held (h : d.power.opOff = true ∨ d.power.scanEn = true) : tryStart d = d := by
  simp [tryStart, mayStart_of_held h]

/-- A row that tries a start, with the restart due and nothing in its way. -/
theorem gives_beginStart {i : Instr} (hgives : Gives i s (tryStart d)) (hdue : d.power.due = true) (hmay : mayStart d = true) :
    Gives i s (beginStart d (if d.power.down = some 1 then d.start.restarts else 0)) := by rwa [tryStart_of_due hdue hmay] at hgives

/-- A row that tries a start of a module that is held off. -/
theorem gives_of_held {i : Instr} (hgives : Gives i s (tryStart d)) (h : d.power.opOff = true ∨ d.power.scanEn = true) : Gives i s d := by
  rwa [tryStart_of_held h] at hgives

/-! ## The rows that restart (Table 22-2) -/

theorem gives_inputRise (h : s.dev.power.input = .low ∨ s.dev.power.input = .below10) :
    Gives .inputRise s (tryStart (updPower s.dev fun p => { p with input := .ok, locked := false, due := true })) := by
  rcases h with h | h <;> simp [Gives, exec, execInputRise, h]

theorem gives_inputHighClear (h : s.dev.power.input = .high) : Gives .inputHighClear s
    (tryStart (updPower s.dev fun p => { p with input := .ok, due := p.due || p.down == some 2 })) := by
  simp [Gives, exec, execInputHighClear, h]

theorem gives_tempRecovered (h : s.dev.power.down = some 4) :
    Gives .tempRecovered s (tryStart (updPower s.dev fun p => { p with due := true })) := by
  simp [Gives, exec, execTempRecovered, h]

theorem gives_scanEnRelease : Gives .scanEnRelease s
    (tryStart (updPower s.dev fun p => { p with scanEn := false, due := p.due || p.down == some 7 })) := rfl

/-- One second after a shutdown that restarts by itself: the fourth restart in ten minutes does not take place. -/
theorem gives_shutdownRestart {c : Nat} (hc : c ∈ [3, 5, 8]) (hdown : s.dev.power.down = some c)
    (hat : s.dev.power.downAt + 1000000 ≤ s.dev.nowUs) (hmay : mayStart s.dev = true) : Gives .shutdownRestart s
    (if 3 ≤ (recentRestarts s.dev).length then updPower s.dev fun p => { p with locked := true }
     else beginStart (updPower s.dev fun p => { p with restarts := recentRestarts s.dev ++ [s.dev.nowUs] }) 0) := by
  simp only [List.mem_cons, List.not_mem_nil, or_false] at hc
  rcases hc with rfl | rfl | rfl <;> simp [Gives, exec, execShutdownRestart, hdown, hat, hmay]

/-- Settles O14: a restart condition makes the restart due, and `tryStart` begins it where nothing holds the module off; after a shutdown
that restarts by itself `gives_shutdownRestart` tells the fourth from the first three. -/
theorem restartAndReleaseBeginStartUp : Obligations.RestartAndReleaseBeginStartUp := by
  refine ⟨fun s hop hscan => ⟨fun hin => ?rise, fun hlock => ⟨fun hin hdown => ?clear, fun hin hdown => ?recovered,
      fun c hc hin hdown hat hfew => ?again⟩⟩, fun s hheld => ⟨fun hdown => ?heldRecovered, fun hin hdown => ?heldClear⟩,
    fun s hin => ⟨fun hop hscan hdue hat => ?operation, fun hop hlock hdue => ?release, fun c hc hdown hop hscan hlock hat hmany => ?lockout⟩⟩
  case rise =>
    exact ⟨_, gives_beginStart (gives_inputRise hin) rfl (mayStart_iff.mpr ⟨rfl, hop, hscan, rfl⟩), begun_beginStart rfl _⟩
  case clear =>
    have hgives := gives_beginStart (gives_inputHighClear hin) (by simp [updPower, hdown]) (mayStart_iff.mpr ⟨rfl, hop, hscan, hlock⟩)
    rw [if_neg (by simp [updPower, hdown])] at hgives
    exact ⟨_, hgives, begun_beginStart rfl _⟩
  case recovered =>
    have hgives := gives_beginStart (gives_tempRecovered hdown) rfl (mayStart_iff.mpr ⟨hin, hop, hscan, hlock⟩)
    rw [if_neg (by simp [updPower, hdown])] at hgives
    exact ⟨_, hgives, begun_beginStart hin _⟩
  case again =>
    have hgives := gives_shutdownRestart hc hdown hat (mayStart_iff.mpr ⟨hin, hop, hscan, hlock⟩)
    rw [if_neg (Nat.not_le.mpr hfew)] at hgives
    exact ⟨_, hgives, begun_beginStart hin _, rfl⟩
  case heldRecovered => exact gives_of_held (gives_tempRecovered hdown) hheld
  case heldClear =>
    have hgives := gives_of_held (gives_inputHighClear hin) hheld
    have hdue : (s.dev.power.due || s.dev.power.down == some 2) = true := by simp [hdown]
    simpa only [updPower, hdue] using hgives
  case operation =>
    have hgives := gives_operationOn (pmbusOn_of_answering (.inl hin) hat)
    rw [if_neg (not_not_intro hin), if_pos hop] at hgives
    have hready : (s.dev.power.due || s.dev.power.locked || s.dev.power.down == some 6) = true := by
      rcases hdue with h | h | h <;> simp [h]
    exact ⟨_, gives_beginStart hgives hready (mayStart_iff.mpr ⟨hin, rfl, hscan, rfl⟩), rfl, rfl, rfl, rfl, rfl⟩
  case release =>
    have hready : (s.dev.power.due || s.dev.power.down == some 7) = true := by rcases hdue with h | h <;> simp [h]
    exact ⟨_, gives_beginStart gives_scanEnRelease hready (mayStart_iff.mpr ⟨hin, hop, rfl, hlock⟩), rfl, rfl, rfl, rfl⟩
  case lockout =>
    have hgives := gives_shutdownRestart hc hdown hat (mayStart_iff.mpr ⟨hin, hop, hscan, hlock⟩)
    rwa [if_pos hmany] at hgives

/-! ## Excursions (R731, R739) -/

/-- The trap of a sensor that crosses its warning level: it names a die and no other unit. -/
def thermalTrap (n : Nat) : TrapInfo := if n < 32 then { cause := 0xF2, kind := 5, unit := n } else { cause := 0xF2 }

theorem gives_thermalWarn {n : Nat} (hn : n < 32 ∨ 64 ≤ n ∧ n < 100 ∨ n = 200) (hon : powered s.dev = true) (above : Bool) :
    Gives (.thermalWarn n above) s
      (if above = false then updPower s.dev fun p => { p with hot := delNat n p.hot }
       else if s.dev.power.hot.contains n = true then s.dev
       else raiseTrap (bump (updPower s.dev fun p => { p with hot := insNat n p.hot, stTemp := p.stTemp ||| 0x40 }) ctrThermWarn 0)
        (thermalTrap n)) := by
  have hok : (decide (n < 32) || (decide (64 ≤ n) && decide (n < 100)) || n == 200) = true := by simpa [or_assoc] using hn
  have hgives := onUnit_of_ok hok s fun d =>
    if !powered d then d
    else if !above then updPower d fun p => { p with hot := delNat n p.hot }
    else if d.power.hot.contains n then d
    else raiseTrap (bump (updPower d fun p => { p with hot := insNat n p.hot, stTemp := p.stTemp ||| 0x40 }) ctrThermWarn 0) (thermalTrap n)
  rw [hon] at hgives
  cases above
  · exact hgives
  · exact hgives

theorem exec_thermalWarn_of_no_sensor {n : Nat} (hlow : 32 ≤ n) (hhigh : n < 64) (above : Bool) :
    exec (.thermalWarn n above) s = .fault .noSuchUnit := by
  have hno : (decide (n < 32) || (decide (64 ≤ n) && decide (n < 100)) || n == 200) = false := by
    simp
    omega
  show onUnit _ s _ = _
  rw [hno, onUnit_false]

theorem gives_inputWarn (hon : powered s.dev = true) (near : Bool) : Gives (.inputWarn near) s
    (if near = false then updPower s.dev fun p => { p with inputExc := false }
     else if s.dev.power.inputExc = true then s.dev
     else raiseTrap (bump (updPower s.dev fun p => { p with inputExc := true }) ctrInputWarn 0) { cause := 0xF3 }) := by
  cases near <;> simp [Gives, exec, execInputWarn, hon]

/-- Settles O17: the rows of a powered module are `gives_thermalWarn` and `gives_inputWarn`, in each of their cases. -/
theorem excursionsTrapOnceEach : Obligations.ExcursionsTrapOnceEach := by
  intro s hdown hin p
  have hon := powered_of_input hdown hin
  refine ⟨fun n hn => ⟨fun hnew => ?_, fun hold => ?_, gives_thermalWarn hn hon false⟩,
    fun n b hlow hhigh => exec_thermalWarn_of_no_sensor hlow hhigh b, fun hnew => ?_, fun hold => ?_, gives_inputWarn hon false⟩
  · have hgives := gives_thermalWarn hn hon true
    rwa [if_neg (by decide), if_neg (Bool.eq_false_iff.mp hnew)] at hgives
  · have hgives := gives_thermalWarn hn hon true
    rwa [if_neg (by decide), if_pos hold] at hgives
  · have hgives := gives_inputWarn hon true
    rwa [if_neg (by decide), if_neg (Bool.eq_false_iff.mp hnew)] at hgives
  · have hgives := gives_inputWarn hon true
    rwa [if_neg (by decide), if_pos hold] at hgives

/-! ## The reference and the clock domains (R727, R728, Table 22-8) -/

theorem gives_refClockLoss_again (h : s.dev.clocks.refOk = false) : Gives .refClockLoss s s.dev := by
  simp [Gives, exec, execRefClockLoss, h]

theorem gives_refClockLoss (hon : powered s.dev = true) (href : s.dev.clocks.refOk = true) (hphase : s.dev.start.phase ≠ .power) :
    Gives .refClockLoss s (raiseTrap (bump (updClocks s.dev fun c =>
      { c with refOk := false, holdover := true, slewing := false, holdAt := if c.holdover then c.holdAt else s.dev.nowUs }) ctrRefLoss 0)
      { cause := 0xF0 }) := by
  have hstarted : (s.dev.start.phase == .power) = false := by simpa using hphase
  rw [Gives, exec, execRefClockLoss, onDev_next, href, hon, hstarted]
  rfl

/-- A domain that leaves lock stops, and is counted and trapped. -/
def domainStopped (d : Dev) (n : Nat) : Dev :=
  raiseTrap (bump (updClocks d fun c => { c with lost := insNat n c.lost }) ctrLockLoss n) { cause := 0xF1, kind := 6, unit := n }

theorem gives_pllLockLoss {n : Nat} (hn : n < 40) (hon : powered s.dev = true) (hlocked : s.dev.clocks.locked = true)
    (hnew : s.dev.clocks.lost.contains n = false) :
    Gives (.pllLockLoss n) s (settleLinks s.dev (poolsSettle (flushAll (domainLost (domainStopped s.dev n) n)))) := by
  have hgoes : (!powered s.dev || !s.dev.clocks.locked || s.dev.clocks.lost.contains n) = false := by rw [hon, hlocked, hnew]; rfl
  have hgives := onLinks_of_ok (decide_eq_true hn) s fun d =>
    if !powered d || !d.clocks.locked || d.clocks.lost.contains n then d else poolsSettle (flushAll (domainLost (domainStopped d n) n))
  rwa [hgoes] at hgives

theorem domainLost_eq {n : Nat} (hn : n < 40) (e : Dev) : domainLost e n =
    if n < 18 then loseFace e n else if n < 27 then retireDie e (n - 18) else if n < 35 then withdrawSelf e
    else if n = 35 then resetModule e else if n < 38 then cpuFails e (n - 36)
    else if n = 38 then { e with mgmt := { e.mgmt with linkUp := [], inUse := [] } } else e := by
  by_cases hmgmt : n = 38
  · subst hmgmt
    rfl
  by_cases hflash : n = 39
  · subst hflash
    rfl
  have hcpu : n < 38 := by omega
  rw [domainLost, if_neg hmgmt, if_neg hflash, if_pos hcpu]

/-- Settles O18: a lost reference is `gives_refClockLoss`, a domain that leaves lock `gives_pllLockLoss` with its effect `domainLost`. -/
theorem clockLossesHaveTheirEffects : Obligations.ClockLossesHaveTheirEffects := by
  intro s hdown hin c
  have hon := powered_of_input hdown hin
  refine ⟨gives_refClockLoss hon, gives_refClockLoss_again, fun n hn hlocked hnew => ?stops, fun n hn => ?noDomain⟩
  case stops =>
    have hgives := gives_pllLockLoss hn hon hlocked hnew
    rwa [domainLost_eq hn] at hgives
  case noDomain =>
    show onUnit (decide (n < 40)) s _ = _
    rw [decide_eq_false (Nat.not_lt.mpr hn), onUnit_false]

end Sys2Proof.Machine
end

section
/-!
SUPPORT. Traps (R749, R601), the module right after reset (R692), and two counts of a table that is not canonical.
-/
namespace Sys2Proof.Machine

variable {d : Dev} {t : TrapInfo}

/-! ## A trap (R749, R601, Table 23-8) -/

/-- A telemetry datagram changes of the management side only what was put out. -/
theorem telemSend_mgmt (d : Dev) (n : Nat) (k : Sink) (ws : List W64) :
    (telemSend d n k ws).mgmt = { d.mgmt with out := (telemSend d n k ws).mgmt.out } := by
  have hkept := poolAlloc_mgmt d 5 (7 + k.mport) none
  unfold telemSend
  split
  · rfl
  · split
    · next d1 h hgot =>
      rw [hgot] at hkept
      rw [poolRelease_mgmt, output, hkept]
    · next d1 hgot =>
      rw [hgot] at hkept
      rw [bump_mgmt, hkept]

theorem telemTrap_traps (d : Dev) (q : Nat) (ws : List W64) : (telemTrap d q ws).mgmt.traps = d.mgmt.traps := by
  refine forEach_keeps (·.mgmt.traps) (fun d e => ?_) _ d
  split
  · rw [telemSend_mgmt]
  · rfl

theorem telemTrap_nextTseq (d : Dev) (q : Nat) (ws : List W64) : (telemTrap d q ws).mgmt.nextTseq = d.mgmt.nextTseq := by
  refine forEach_keeps (·.mgmt.nextTseq) (fun d e => ?_) _ d
  split
  · rw [telemSend_mgmt]
  · rfl

/-- A trap recorded by a device that has taken buffer `h` for it, and sent to the sinks that ask for it. -/
def trapRecorded (d : Dev) (t : TrapInfo) (h : Nat) : Dev :=
  telemTrap (recordTrap d t h) d.mgmt.nextTseq (trapWords t d.mgmt.nextTseq (timeUs d))

theorem trapRecorded_traps (d : Dev) (t : TrapInfo) (h : Nat) : SMap.get? (trapRecorded d t h).mgmt.traps (d.mgmt.nextTseq % 8192) =
    some { words := trapWords t d.mgmt.nextTseq (timeUs d), at_ := d.nowUs, handle := h } := by
  rw [trapRecorded, telemTrap_traps]
  exact SMap.get?_set_same _ _ _

theorem trapRecorded_nextTseq (d : Dev) (t : TrapInfo) (h : Nat) :
    (trapRecorded d t h).mgmt.nextTseq = (d.mgmt.nextTseq + 1) % 2 ^ 32 := telemTrap_nextTseq _ _ _

/-- What an allocation leaves alone. -/
theorem poolAlloc_keeps (d : Dev) (p r : Nat) (j : Option Nat) :
    (poolAlloc d p r j).1.mgmt = d.mgmt ∧ (poolAlloc d p r j).1.nowUs = d.nowUs ∧ (poolAlloc d p r j).1.start = d.start :=
  have h := poolAlloc_aside (src := .inband 0) (p := p) (req := r) (job := j) (Aside.refl d)
  ⟨poolAlloc_mgmt d p r j, h.nowUs, h.start⟩

/-- The words and the number of a trap do not depend on the buffer it takes. -/
theorem trapRecorded_of_kept {e : Dev} (h : e.mgmt = d.mgmt ∧ e.nowUs = d.nowUs ∧ e.start = d.start) (t : TrapInfo) (b : Nat) :
    trapRecorded e t b = telemTrap (recordTrap e t b) d.mgmt.nextTseq (trapWords t d.mgmt.nextTseq (timeUs d)) := by
  obtain ⟨hmgmt, htime, hstart⟩ := h
  simp only [trapRecorded, timeUs, hmgmt, htime, hstart]

/-- The first buffer is of pool 6, for the trap's job. -/
def trapBuffer (d : Dev) (t : TrapInfo) : Dev × Option Nat := poolAlloc d 6 6 (t.job.map (·.1))

/-- Without one it is of pool 63. -/
def spareTrapBuffer (d : Dev) (t : TrapInfo) : Dev × Option Nat := poolAlloc (trapBuffer d t).1 63 6 none

theorem trapBuffer_keeps (d : Dev) (t : TrapInfo) :
    (trapBuffer d t).1.mgmt = d.mgmt ∧ (trapBuffer d t).1.nowUs = d.nowUs ∧ (trapBuffer d t).1.start = d.start := poolAlloc_keeps d 6 6 _

theorem spareTrapBuffer_keeps (d : Dev) (t : TrapInfo) :
    (spareTrapBuffer d t).1.mgmt = d.mgmt ∧ (spareTrapBuffer d t).1.nowUs = d.nowUs ∧ (spareTrapBuffer d t).1.start = d.start := by
  obtain ⟨hm, hn, hs⟩ := trapBuffer_keeps d t
  obtain ⟨hm', hn', hs'⟩ := poolAlloc_keeps (trapBuffer d t).1 63 6 none
  exact ⟨hm'.trans hm, hn'.trans hn, hs'.trans hs⟩

theorem raiseTrap_of_buffer {h : Nat} (hgot : (trapBuffer d t).2 = some h) : raiseTrap d t = trapRecorded (trapBuffer d t).1 t h := by
  have hbuf : poolAlloc d 6 6 (t.job.map (·.1)) = ((trapBuffer d t).1, some h) := Prod.ext rfl hgot
  rw [trapRecorded_of_kept (trapBuffer_keeps d t), raiseTrap, hbuf]

theorem raiseTrap_of_spare_buffer {h : Nat} (hnone : (trapBuffer d t).2 = none) (hgot : (spareTrapBuffer d t).2 = some h) :
    raiseTrap d t = trapRecorded (spareTrapBuffer d t).1 t h := by
  have hbuf : poolAlloc d 6 6 (t.job.map (·.1)) = ((trapBuffer d t).1, none) := Prod.ext rfl hnone
  have hspare : poolAlloc (trapBuffer d t).1 63 6 none = ((spareTrapBuffer d t).1, some h) := Prod.ext rfl hgot
  rw [trapRecorded_of_kept (spareTrapBuffer_keeps d t), raiseTrap, hbuf]
  dsimp only
  rw [hspare]

theorem raiseTrap_of_no_buffer (hnone : (trapBuffer d t).2 = none) (hnone' : (spareTrapBuffer d t).2 = none) :
    raiseTrap d t = bump (spareTrapBuffer d t).1 ctrTrapLost 0 := by
  have hbuf : poolAlloc d 6 6 (t.job.map (·.1)) = ((trapBuffer d t).1, none) := Prod.ext rfl hnone
  have hspare : poolAlloc (trapBuffer d t).1 63 6 none = ((spareTrapBuffer d t).1, none) := Prod.ext rfl hnone'
  rw [raiseTrap, hbuf]
  dsimp only
  rw [hspare]

/-- Settles O16: a trap with a buffer of either pool is `trapRecorded`, which no allocation disturbs; without one it is counted. -/
theorem trapIsRecordedOrCountedLost : Obligations.TrapIsRecordedOrCountedLost := by
  intro d t q a b
  refine ⟨fun src => raiseTrap_aside (Aside.refl d), fun h hgot => ?recorded, raiseTrap_of_no_buffer⟩
  case recorded =>
    have hkept : ∃ e : Dev, (e.mgmt = d.mgmt ∧ e.nowUs = d.nowUs ∧ e.start = d.start) ∧ raiseTrap d t = trapRecorded e t h := by
      rcases hgot with hgot | ⟨hnone, hgot⟩
      · exact ⟨_, trapBuffer_keeps d t, raiseTrap_of_buffer hgot⟩
      · exact ⟨_, spareTrapBuffer_keeps d t, raiseTrap_of_spare_buffer hnone hgot⟩
    obtain ⟨e, ⟨hmgmt, htime, hstart⟩, htrap⟩ := hkept
    have htraps := trapRecorded_traps e t h
    have hnext := trapRecorded_nextTseq e t h
    simp only [timeUs, hmgmt, htime, hstart] at htraps hnext
    rw [htrap]
    exact ⟨htraps, hnext⟩

/-! ## The module right after reset (R570, R600, R691, R692) -/

theorem reset_pairs : ∀ p ∈ State.reset.dev.fabric.pairs, p.st = .joined ∧ p.held = false := by
  intro p hp
  rw [List.eq_of_mem_replicate hp]
  exact ⟨rfl, rfl⟩

theorem reset_poolOpen {p : Nat} (hlow : 60 ≤ p) (hhigh : p ≤ 63) : poolOpen State.reset.dev p = true ↔ p = 60 ∨ p = 63 := by
  obtain rfl | rfl | rfl | rfl : p = 60 ∨ p = 61 ∨ p = 62 ∨ p = 63 := by omega
  · decide
  · decide
  · decide
  · decide

theorem reset_wf : State.reset.dev.Wf where
  jobs := rfl
  ctxs := rfl
  left := rfl
  maps := rfl
  rules := rfl
  scheds := rfl
  syncs := rfl
  ports := rfl
  counters := rfl
  nonzero := rfl
  pairs := rfl
  mems := rfl

/-- A context of a device that lists none is FREE (R389). -/
theorem getCtx_of_none_listed (hctxs : d.ctxs = []) (hleft : d.left = []) (c : Nat) : getCtx d c = {} := by
  rw [getCtx, hctxs, hleft, ite_self]
  rfl

theorem reset_getCtx (c : Nat) : (getCtx State.reset.dev c).state = .free ∧ (getCtx State.reset.dev c).holder = none := by
  rw [getCtx_of_none_listed rfl rfl]
  exact ⟨rfl, rfl⟩

theorem reset_chanRec (n : Nat) : (chanRec State.reset.dev n).st = if n % 64 < 62 then 0 else 1 := by
  show (if n % 64 < 62 then ({ st := 0, wnum := some (n % 64) } : ChanRec) else { st := 1, wnum := none }).st = _
  split <;> rfl

/-- Settles O3: every table of the module right after reset is empty but the pairs and the open pools. -/
theorem resetStandsInRomWithNothingHeld : Obligations.ResetStandsInRomWithNothingHeld :=
  ⟨rfl, rfl, rfl, rfl, rfl, reset_pairs, fun _ => rfl, reset_getCtx, fun _ => rfl, fun _ => rfl, fun _ => rfl, fun _ => rfl,
    fun _ => ⟨rfl, rfl, rfl⟩, fun _ => reset_poolOpen, rfl, rfl, rfl, rfl, rfl, fun _ _ => rfl, rfl, rfl, rfl, rfl, fun _ => rfl,
    fun _ _ => rfl, fun n _ => reset_chanRec n, fun _ => rfl, rfl, rfl, rfl, reset_wf⟩

/-! ## Counts of a table that lists a counter twice -/

/-- A row answers one device. -/
theorem Gives.unique {i : Instr} {s : State} {a b : Dev} (ha : Gives i s a) (hb : Gives i s b) : a = b := by
  have hnext : State.mk a s.pending = State.mk b s.pending := Host.Outcome.next.inj (ha.symm.trans hb)
  exact congrArg State.dev hnext

/-- A table of counters that lists counter `c` twice, which no canonical table does: the first entry is `n` short of wrapping to 0, and
what is no longer listed at 0 is then read from the second. -/
def listedTwice (c : Ctr) (n : Nat) : SMap W64 := [(ctrKey c.1 0 c.2, BitVec.ofNat 64 (2 ^ 64 - n)), (ctrKey c.1 0 c.2, 5)]

/-- A module in holdover since 100 ms, with its reference back. -/
def heldOver : State := { dev := { nowUs := 100000, clocks := { holdover := true }, counters := listedTwice ctrHoldoverMs 100 }, pending := [] }

/-- The holdover ends, and its milliseconds are counted (R728). -/
theorem gives_refClockReturn_slew {s : State} (href : s.dev.clocks.refOk = true) (hhold : s.dev.clocks.holdover = true)
    (hat : s.dev.clocks.refAt + 100000 ≤ s.dev.nowUs) : Gives .refClockReturn s
      (updClocks (bumpBy s.dev ctrHoldoverMs 0 (holdoverMs s.dev)) fun c => { c with slewing := true, holdover := false }) := by
  simp [Gives, exec, execRefClockReturn, href, hhold, hat]

/-- Refutes O15: the statement is over every device, and on one whose table of counters is not canonical HOLDOVER_MS does not advance by
the milliseconds counted: it wraps to 0, which is not listed, and a second entry, listed behind it, is read instead of it. -/
theorem not_resetHeartbeatAndClockRows : ¬ Obligations.ResetHeartbeatAndClockRows := by
  unfold Obligations.ResetHeartbeatAndClockRows
  intro h
  obtain ⟨-, -, ⟨-, hreturn⟩, -⟩ := h heldOver
  obtain ⟨hslew, -⟩ := hreturn rfl
  obtain ⟨t, hgives, -, hcounted⟩ := hslew rfl (by decide)
  rw [hgives.unique (gives_refClockReturn_slew rfl rfl (by decide))] at hcounted
  exact absurd hcounted (by decide)

/-- A module whose log A alone has a copy of record 0x12. -/
def unmirrored : Dev := { flash := { a := { copies := [mkCopy 0x12 1 8 []] } }, counters := listedTwice ctrMirrorRepair 1 }

/-- Refutes O20: the statement is over every device, and on one whose table of counters is not canonical MIRROR_REPAIR does not advance
by one: it wraps to 0, which is not listed, and a second entry, listed behind it, is read instead of it. -/
theorem not_recordsResolveToTheNewerCopy : ¬ Obligations.RecordsResolveToTheNewerCopy := by
  unfold Obligations.RecordsResolveToTheNewerCopy
  intro h
  obtain ⟨-, honlyA, -⟩ := h unmirrored 0x12
  have hnewest : unmirrored.flash.a.newest 0x12 = some (mkCopy 0x12 1 8 []) := by decide +kernel
  have hnone : unmirrored.flash.b.newest 0x12 = none := rfl
  obtain ⟨-, ⟨-, hcounted, -⟩, -⟩ := honlyA _ hnewest fun y hy => absurd (hnone.symm.trans hy) nofun
  exact absurd hcounted (by decide +kernel)

end Sys2Proof.Machine
end

section
/-!
SUPPORT. Start-up (chapter 21): what the work of a phase changes beside the flash and what is aside, what a failed start-up leaves, and what
becomes of the processors.
-/
namespace Sys2Proof.Machine

variable {s : State} {d e f : Dev}

/-! ## Work that changes the flash alone, and what is aside -/

/-- Device `e` is device `d` but for its flash and for what is aside; its ports are the same. -/
def FlashOnly (d e : Dev) : Prop := Aside (.mgmt 0 0 0) { d with flash := e.flash } e

theorem FlashOnly.of_aside (h : Aside (.mgmt 0 0 0) d e) : FlashOnly d e := by
  unfold FlashOnly
  rw [h.flash]
  exact h

theorem FlashOnly.refl (d : Dev) : FlashOnly d d := .of_aside (.refl d)

theorem FlashOnly.of_flash (d : Dev) (g : Flash) : FlashOnly d { d with flash := g } := Aside.refl { d with flash := g }

theorem FlashOnly.trans (h : FlashOnly d e) (g : FlashOnly e f) : FlashOnly d f := Aside.trans (Aside.setFlash h f.flash) g

theorem FlashOnly.nowUs (h : FlashOnly d e) : e.nowUs = d.nowUs := Aside.nowUs (a := { d with flash := e.flash }) h
theorem FlashOnly.start (h : FlashOnly d e) : e.start = d.start := Aside.start (a := { d with flash := e.flash }) h
theorem FlashOnly.power (h : FlashOnly d e) : e.power = d.power := Aside.power (a := { d with flash := e.flash }) h
theorem FlashOnly.jobs (h : FlashOnly d e) : e.jobs = d.jobs := Aside.jobs (a := { d with flash := e.flash }) h
theorem FlashOnly.fabric (h : FlashOnly d e) : e.fabric = d.fabric := Aside.fabric (a := { d with flash := e.flash }) h
theorem FlashOnly.parity (h : FlashOnly d e) : e.parity = d.parity := Aside.parity (a := { d with flash := e.flash }) h
theorem FlashOnly.addr (h : FlashOnly d e) : e.mgmt.addr = d.mgmt.addr := Aside.addr (a := { d with flash := e.flash }) h
theorem FlashOnly.addrRun (h : FlashOnly d e) : e.mgmt.addrRun = d.mgmt.addrRun := Aside.addrRun (a := { d with flash := e.flash }) h

theorem FlashOnly.forEach {α : Type} {g : Dev → α → Dev} (h : ∀ d x, FlashOnly d (g d x)) (l : List α) (d : Dev) :
    FlashOnly d (forEach l d g) := by
  induction l generalizing d with
  | nil => exact .refl d
  | cons x l ih => exact (h d x).trans (ih (g d x))

theorem raiseTrap_flashOnly (d : Dev) (t : TrapInfo) : FlashOnly d (raiseTrap d t) := .of_aside (raiseTrap_aside (.refl d))

theorem writeLife_flashOnly (d : Dev) : FlashOnly d (writeLife d) := flashWrite_changes_flash _ _ _ d

theorem loadLife_aside {src : CmdSrc} (d : Dev) : Aside src d (loadLife d) := by
  unfold loadLife
  split
  · exact .refl d
  · exact forEach_aside (.refl d) fun _ _ => setCtr_aside

theorem loadLife_flashOnly (d : Dev) : FlashOnly d (loadLife d) := .of_aside (loadLife_aside d)

theorem closePool_flashOnly (d : Dev) (p : Nat) : FlashOnly d (closePool d p) := by
  have hfreed : ∀ hs : List Nat, Aside (.mgmt 0 0 0) d (forEach hs d poolFreeBuf) :=
    fun hs => forEach_aside (.refl d) fun _ _ => poolFreeBuf_aside
  unfold closePool
  dsimp only
  split
  · exact .of_aside (aside_mk (hfreed _))
  · exact .of_aside (raiseTrap_aside (aside_mk (hfreed _)))

/-! ## FAILED (R700) -/

/-- Start-up ends in FAILED, with the phase it came from and the cause. -/
theorem enterFailed_start (d : Dev) (c : Nat) : (enterFailed d c).start.phase = .failed ∧
    (enterFailed d c).start.failPhase = phaseCode d.start.phase ∧ (enterFailed d c).start.failCause = c := by
  unfold enterFailed
  dsimp only
  generalize (if phaseCode d.start.phase < 2 then bump (loadLife d) ctrStartCount 0 else d) = d0
  have htrap := raiseTrap_flashOnly (bump (updStart (enterPhase d0 .failed) fun s =>
    { s with failPhase := phaseCode d.start.phase, failCause := c }) ctrStartFails 0) { cause := 0xE2 }
  revert htrap
  generalize raiseTrap _ _ = d2
  intro htrap
  have hclosed : FlashOnly d2 (if poolOpen d2 60 then closePool d2 60 else d2) := by
    split
    · exact closePool_flashOnly d2 60
    · exact .refl d2
  revert hclosed
  generalize (if poolOpen d2 60 then closePool d2 60 else d2) = d3
  intro hclosed
  have hlogged : FlashOnly d3 (if d3.clocks.lost.contains 39 = true then d3 else writeLife d3) := by
    split
    · exact .refl d3
    · exact writeLife_flashOnly d3
  rw [((htrap.trans hclosed).trans hlogged).start]
  exact ⟨rfl, rfl, rfl⟩

/-! ## Phases -/

theorem fromPhase_of_in {p : Phase} (hon : powered d = true) (hin : d.start.phase = p) (g : Dev → Dev) : fromPhase d p g = g d := by
  simp [fromPhase, hon, hin]

/-! ## The first phases (R692 to R700) -/

theorem mapKRow_start (d : Dev) (bank : Nat) : (mapKRow d bank).start = d.start := rfl
theorem mapKRow_jobs (d : Dev) (bank : Nat) : (mapKRow d bank).jobs = d.jobs := rfl

/-- The checks of ROM: the processors', and the rows of K's SRAM that fail. -/
def romTest (passed : Bool × Bool) (rows : List (Nat × Nat)) (d : Dev) : Dev :=
  forEach rows.eraseDups (chooseCpu d passed.1 passed.2) fun d' r => mapKRow d' r.1

theorem romTest_start (passed : Bool × Bool) (rows : List (Nat × Nat)) (d : Dev) :
    (romTest passed rows d).start = (chooseCpu d passed.1 passed.2).start :=
  forEach_keeps (·.start) (fun d' (r : Nat × Nat) => mapKRow_start d' r.1) _ _

theorem romTest_jobs (passed : Bool × Bool) (rows : List (Nat × Nat)) (d : Dev) : (romTest passed rows d).jobs = d.jobs :=
  forEach_keeps (·.jobs) (fun d' (r : Nat × Nat) => mapKRow_jobs d' r.1) _ _

theorem gives_phaseRom {rows : List (Nat × Nat)} (hrows : ∀ r ∈ rows, r.1 < 2048 ∧ r.2 < 1024) (hon : powered s.dev = true)
    (passed : Bool × Bool) : Gives (.phaseRom passed rows) s
      (if (s.dev.start.phase == .power) = true then
        if s.dev.clocks.refOk = true then romTest passed rows (enterPhase s.dev .rom) else enterFailed s.dev 2
       else if (s.dev.start.phase == .rom && s.dev.start.cpu == 0xFF && s.dev.start.cpuLost.isEmpty) = true then romTest passed rows s.dev
       else s.dev) := by
  have hok : (rows.all fun r => decide (r.1 < sramBanks 31) && decide (r.2 < 1024)) = true := by
    simpa [List.all_eq_true, show sramBanks 31 = 2048 from rfl] using fun a b hr => hrows (a, b) hr
  have hgives : Gives (.phaseRom passed rows) s _ := onUnit_of_ok hok s _
  rw [hon] at hgives
  exact hgives

/-! ### RESTORE (R695) -/

theorem spoilNewest_flashOnly (m : Nat) (d : Dev) (rid : Nat) : FlashOnly d (spoilNewest m d rid) := by
  unfold spoilNewest
  dsimp only
  split
  · exact .refl d
  · exact .of_flash d _

theorem spoilFactory_flashOnly (d : Dev) (x : Nat × Nat) : FlashOnly d (spoilFactory d x) := .of_flash d _

theorem resolveFactory_flashOnly (d : Dev) (rid : Nat) : FlashOnly d (resolveFactory d rid) := by
  unfold resolveFactory
  dsimp only
  split
  · exact (FlashOnly.of_flash d _).trans (raiseTrap_flashOnly _ _)
  · exact .of_flash d _

theorem appendCopy_flashOnly (d : Dev) (m : Nat) (c : RecCopy) : FlashOnly d (appendCopy d m c) :=
  (FlashOnly.of_flash d _).trans (.of_aside (bumpBy_aside (.refl _)))

theorem resolve_flashOnly (d : Dev) (rid : Nat) : FlashOnly d (resolve d rid) := by
  have hcopied (n m : Nat) (c : RecCopy) : FlashOnly d
      (appendCopy (bump { d with flash := { d.flash with source := SMap.set d.flash.source rid n } } ctrMirrorRepair 0) m c) :=
    ((FlashOnly.of_flash d _).trans (.of_aside (bump_aside (.refl _)))).trans (appendCopy_flashOnly _ m c)
  unfold resolve
  dsimp only
  split
  · exact (FlashOnly.of_flash d _).trans (raiseTrap_flashOnly _ _)
  · split
    · exact .of_flash d _
    · split
      · exact hcopied _ _ _
      · exact hcopied _ _ _
  · exact hcopied _ _ _
  · exact hcopied _ _ _

/-- The factory records that fail their CRC, in the factory region of A and of B. -/
def facBads (d : Dev) : List Nat × List Nat := (d.flash.a.facBad, d.flash.b.facBad)

theorem facBads_setDev {g : Flash} {m : Nat} {v : FlashDev} (h : v.facBad = (g.dev m).facBad) :
    ((g.setDev m v).a.facBad, (g.setDev m v).b.facBad) = (g.a.facBad, g.b.facBad) := by
  unfold Flash.dev at h
  unfold Flash.setDev
  split <;> simp_all

theorem foldl_place_facBad (l : List RecCopy) (v : FlashDev) : (l.foldl FlashDev.place v).facBad = v.facBad := by
  induction l generalizing v with
  | nil => rfl
  | cons c l ih => exact ih (v.place c)

theorem eraseAhead_facBad (n : Nat) (v : FlashDev) : (v.eraseAhead n).1.facBad = v.facBad := by
  induction n generalizing v with
  | zero => rfl
  | succ n ih =>
    unfold FlashDev.eraseAhead
    split
    · exact (ih _).trans (foldl_place_facBad _ v)
    · rfl

theorem facBads_raiseTrap (d : Dev) (t : TrapInfo) : facBads (raiseTrap d t) = facBads d := by
  rw [facBads, raiseTrap_flash]
  rfl

theorem facBads_appendCopy (d : Dev) (m : Nat) (c : RecCopy) : facBads (appendCopy d m c) = facBads d := by
  rw [facBads, appendCopy_flash]
  exact facBads_setDev (eraseAhead_facBad 64 _)

theorem facBads_spoilNewest (m : Nat) (d : Dev) (rid : Nat) : facBads (spoilNewest m d rid) = facBads d := by
  unfold spoilNewest
  dsimp only
  split
  · rfl
  · exact facBads_setDev (g := d.flash) rfl

theorem facBads_resolveFactory (d : Dev) (rid : Nat) : facBads (resolveFactory d rid) = facBads d := by
  unfold resolveFactory
  dsimp only
  split
  · exact facBads_raiseTrap _ _
  · rfl

theorem facBads_resolve (d : Dev) (rid : Nat) : facBads (resolve d rid) = facBads d := by
  unfold resolve
  dsimp only
  split
  · exact facBads_raiseTrap _ _
  · split
    · rfl
    · split
      · exact facBads_appendCopy _ _ _
      · exact facBads_appendCopy _ _ _
  · exact facBads_appendCopy _ _ _
  · exact facBads_appendCopy _ _ _

theorem facBads_loadLife (d : Dev) : facBads (loadLife d) = facBads d := by
  simp only [facBads, (loadLife_aside (src := .mgmt 0 0 0) d).flash]

/-- The device as RESTORE reads it: the copies and factory records that no longer read as written are spoilt. -/
def spoilt (badA badB : List Nat) (badFactory : List (Nat × Nat)) (d : Dev) : Dev :=
  forEach badFactory (forEach badB (forEach badA d (spoilNewest 0)) (spoilNewest 1)) spoilFactory

/-- RESTORE entered, the watch of the heartbeat armed (R716). -/
def restoring (d : Dev) (now : Nat) : Dev := updPower (enterPhase d .restore) fun p => { p with hbArmed := true, hbAt := now }

/-- The records resolved, and the counters of LIFE loaded. -/
def resolved (d : Dev) : Dev := bump (loadLife (forEach (retainedRids.drop 3) (forEach [1, 2, 3] d resolveFactory) resolve)) ctrStartCount 0

/-- The stored settings in force. -/
def restored (d : Dev) : Dev := applyRecords { d with flash := { d.flash with lifeAt := d.nowUs } }

theorem gives_phaseRestore (badA badB : List Nat) (badFactory : List (Nat × Nat)) (hon : powered s.dev = true)
    (hphase : s.dev.start.phase = .rom) (hcpu : s.dev.start.cpu ≠ 0xFF) : Gives (.phaseRestore badA badB badFactory) s
      (let t := restored (resolved (restoring (spoilt badA badB badFactory s.dev) s.dev.nowUs))
       if factoryLost t 1 = true then enterFailed t 3
       else if (factoryLost t 2 && (flashRead t 0x10).isNone) = true then enterFailed t 4 else writeLife t) := by
  rw [Gives, exec, execPhaseRestore, onDev_next, fromPhase_of_in hon hphase, if_neg hcpu]
  dsimp only
  rw [restored, resolved, restoring, spoilt]

theorem restoring_sets (d : Dev) (now : Nat) : (restoring d now).start.phase = .restore ∧ (restoring d now).start.phaseAt = d.nowUs ∧
    (restoring d now).power.hbArmed = true ∧ (restoring d now).power.hbAt = now ∧ (restoring d now).jobs = d.jobs :=
  ⟨rfl, rfl, rfl, rfl, rfl⟩

/-- What is stored is in force, and the parity group stands out of itself until its claim. -/
theorem restored_sets (d : Dev) : (restored d).fabric.cfgRun = (restored d).fabric.cfg ∧
    (restored d).fabric.mapRun = (restored d).fabric.map ∧ (restored d).fabric.planRun = (restored d).fabric.plan ∧
    (restored d).mgmt.addrRun = (restored d).mgmt.addr ∧ (restored d).parity.out = true ∧
    (restored d).start = d.start ∧ (restored d).power = d.power ∧ (restored d).jobs = d.jobs :=
  ⟨rfl, rfl, rfl, rfl, rfl, rfl, rfl, rfl⟩

theorem spoilt_flashOnly (badA badB : List Nat) (badFactory : List (Nat × Nat)) (d : Dev) : FlashOnly d (spoilt badA badB badFactory d) :=
  ((FlashOnly.forEach (spoilNewest_flashOnly 0) badA d).trans (FlashOnly.forEach (spoilNewest_flashOnly 1) badB _)).trans
    (FlashOnly.forEach spoilFactory_flashOnly badFactory _)

theorem resolved_flashOnly (d : Dev) : FlashOnly d (resolved d) :=
  (((FlashOnly.forEach resolveFactory_flashOnly [1, 2, 3] d).trans (FlashOnly.forEach resolve_flashOnly _ _)).trans
    (loadLife_flashOnly _)).trans (.of_aside (bump_aside (.refl _)))

theorem facBads_bump (d : Dev) (c : Ctr) (i : Nat) : facBads (bump d c i) = facBads d := rfl

theorem facBads_resolved (d : Dev) : facBads (resolved d) = facBads d := by
  rw [resolved, facBads_bump, facBads_loadLife, forEach_keeps facBads facBads_resolve, forEach_keeps facBads facBads_resolveFactory]

theorem facBads_restoring (d : Dev) (now : Nat) : facBads (restoring d now) = facBads d := rfl

theorem facBads_restored (d : Dev) : facBads (restored d) = facBads d := rfl

theorem mem_insNat_self (x : Nat) (l : List Nat) : x ∈ insNat x l := by
  unfold insNat
  split
  · next h => simpa using h
  · simp

theorem factoryLost_iff {rid : Nat} : factoryLost d rid = true ↔ rid ∈ (facBads d).1 ∧ rid ∈ (facBads d).2 := by
  simp [factoryLost, facBads]

/-! ### PATCH (R698) -/

theorem gives_phasePatch_of_none (hon : powered s.dev = true) (hphase : s.dev.start.phase = .restore) (hnone : flashRead s.dev 0x18 = none) :
    Gives .phasePatch s (enterPhase s.dev .patch) := by
  have hread : flashRead (enterPhase s.dev .patch) 0x18 = none := hnone
  rw [Gives, exec, execPhasePatch, onDev_next, fromPhase_of_in hon hphase]
  simp only [hread]

theorem gives_phasePatch {r : RecCopy} (hon : powered s.dev = true) (hphase : s.dev.start.phase = .restore)
    (hr : flashRead s.dev 0x18 = some r) : Gives .phasePatch s
      (if (!patchBad s.dev (denseWords r.body (r.len / 8)) && Config.patchSigned (denseWords r.body (r.len / 8))) = true then
        updStart (enterPhase s.dev .patch) fun x => { x with patchVer := field (wordAt (denseWords r.body (r.len / 8)) 0) 31 0 }
       else raiseTrap (enterPhase s.dev .patch) { cause := 0xE1 }) := by
  have hread : flashRead (enterPhase s.dev .patch) 0x18 = some r := hr
  have hform : patchBad (enterPhase s.dev .patch) = patchBad s.dev := rfl
  rw [Gives, exec, execPhasePatch, onDev_next, fromPhase_of_in hon hphase]
  simp only [hread, hform]

/-! ## The statements of the first phases -/

/-- Settles O19: ROM is `romTest`; RESTORE resolves the records, which changes no factory region (`facBads_restored`), so that a module whose
region of A is whole is restored and one that has lost its identity on both fails; PATCH runs what passes. -/
theorem firstPhasesChooseAndRestore : Obligations.FirstPhasesChooseAndRestore := by
  refine ⟨fun s ok0 ok1 rows hrows hdown hin => ?rom, fun s hdown hin => ⟨fun badA badB hphase hcpu => ⟨fun hwhole => ?restored, ?lost⟩,
    fun hphase => ⟨fun hnone => ?noPatch, fun r hr => ?patch⟩⟩⟩
  case rom =>
    intro chosen
    have hgives := gives_phaseRom hrows (powered_of_input hdown hin) (ok0, ok1)
    refine ⟨fun hphase href => ?_, fun hphase href => ?_, fun hphase hcpu hlost => ?_⟩
    · rw [hphase, beq_self_eq_true, if_pos rfl, if_pos href] at hgives
      have hstart := romTest_start (ok0, ok1) rows (enterPhase s.dev .rom)
      exact ⟨_, hgives, by rw [hstart]; rfl, by rw [hstart]; rfl, by rw [hstart]; rfl, by rw [hstart]; rfl, romTest_jobs _ _ _⟩
    · rw [hphase, beq_self_eq_true, if_pos rfl, if_neg (Bool.eq_false_iff.mp href)] at hgives
      obtain ⟨hfailed, hfrom, hcause⟩ := enterFailed_start s.dev 2
      exact ⟨_, hgives, hfailed, by rw [hfrom, hphase]; rfl, hcause⟩
    · rw [hphase, hcpu, hlost, if_neg (by decide), if_pos (by decide)] at hgives
      have hstart := romTest_start (ok0, ok1) rows s.dev
      exact ⟨_, hgives, by rw [hstart]; exact hphase, by rw [hstart]; rfl⟩
  case restored =>
    have hgives := gives_phaseRestore badA badB [] (powered_of_input hdown hin) hphase hcpu
    have hkept : facBads (spoilt badA badB [] s.dev) = facBads s.dev :=
      (forEach_keeps facBads (facBads_spoilNewest 1) badB _).trans (forEach_keeps facBads (facBads_spoilNewest 0) badA s.dev)
    have hfound (rid : Nat) :
        factoryLost (restored (resolved (restoring (spoilt badA badB [] s.dev) s.dev.nowUs))) rid = false := by
      rw [Bool.eq_false_iff, ne_eq, factoryLost_iff, facBads_restored, facBads_resolved, facBads_restoring, hkept, facBads, hwhole]
      exact fun h => List.not_mem_nil h.1
    dsimp only at hgives
    rw [hfound, hfound] at hgives
    have hspoilt := spoilt_flashOnly badA badB [] s.dev
    obtain ⟨hphase', hat, harmed, hbeat, hjobs⟩ := restoring_sets (spoilt badA badB [] s.dev) s.dev.nowUs
    revert hgives hphase' hat harmed hbeat hjobs
    generalize restoring (spoilt badA badB [] s.dev) s.dev.nowUs = r
    intro hgives hphase' hat harmed hbeat hjobs
    have hresolved := resolved_flashOnly r
    obtain ⟨hcfg, hmap, hplan, haddr, hout, hstart, hpower, hjobs'⟩ := restored_sets (resolved r)
    have hlogged := writeLife_flashOnly (restored (resolved r))
    refine ⟨_, hgives, ?_⟩
    simp only [Bool.false_and, Bool.false_eq_true, if_false]
    rw [hlogged.start, hlogged.power, hlogged.fabric, hlogged.parity, hlogged.addr, hlogged.addrRun, hlogged.jobs, hstart, hpower, hjobs',
      hresolved.start, hresolved.power, hresolved.jobs, hjobs]
    exact ⟨hphase', hat.trans hspoilt.nowUs, harmed, hbeat, hcfg, hmap, hplan, haddr, hout,
      hspoilt.jobs⟩
  case lost =>
    have hgives := gives_phaseRestore badA badB [(0, 1), (1, 1)] (powered_of_input hdown hin) hphase hcpu
    have hlost : factoryLost (restored (resolved (restoring (spoilt badA badB [(0, 1), (1, 1)] s.dev) s.dev.nowUs))) 1 = true := by
      rw [factoryLost_iff, facBads_restored, facBads_resolved, facBads_restoring]
      exact ⟨mem_insNat_self _ _, mem_insNat_self _ _⟩
    dsimp only at hgives
    rw [hlost, if_pos rfl] at hgives
    obtain ⟨hfailed, -, hcause⟩ := enterFailed_start (restored (resolved (restoring (spoilt badA badB [(0, 1), (1, 1)] s.dev) s.dev.nowUs))) 3
    exact ⟨_, hgives, hfailed, hcause⟩
  case noPatch =>
    exact ⟨_, gives_phasePatch_of_none (powered_of_input hdown hin) hphase hnone, rfl, rfl⟩
  case patch =>
    intro img
    have hgives := gives_phasePatch (powered_of_input hdown hin) hphase hr
    refine ⟨fun hform hsigned => ?_, fun hbad => ⟨enterPhase s.dev .patch, rfl, rfl, ?_⟩⟩
    · rw [if_pos (by rw [hform, hsigned]; rfl)] at hgives
      exact ⟨_, hgives, rfl, rfl⟩
    · rwa [if_neg (by rcases hbad with h | h <;> simp [img, h])] at hgives

end Sys2Proof.Machine
end

section
/-!
SUPPORT. The later phases of start-up and the Ivpin processors (chapter 21, R58, R603).
-/
namespace Sys2Proof.Machine

variable {s : State} {d : Dev}

/-! ## The phases DIES to READY (R699 to R704) -/

/-- A phase whose work finds the module lost ends start-up. -/
def unlessLost (e : Dev) : Dev := if moduleLost e then enterFailed e 5 else e

theorem gives_phaseDies {fails : List Trigger} {links : List Nat} (hfails : fails.all triggerOk = true) (hlinks : ∀ l ∈ links, l < 301)
    (hon : powered s.dev = true) (hphase : s.dev.start.phase = .patch) : Gives (.phaseDies fails links) s
      (unlessLost (forEach fails (forEach links (updClocks (enterPhase s.dev .dies) fun c => { c with locked := true }) groupOut) repair)) := by
  have hok : (fails.all triggerOk && links.all fun l => decide (l < 301)) = true := by simpa [hfails] using hlinks
  rw [Gives, exec, execPhaseDies, onUnit_of_ok hok, fromPhase_of_in hon hphase]
  rfl

theorem gives_phaseMemory {fails : List Trigger} (hfails : fails.all triggerOk = true) (hon : powered s.dev = true)
    (hphase : s.dev.start.phase = .dies) : Gives (.phaseMemory fails) s
      (unlessLost (forEach fails (zeroFill (enterPhase s.dev .memory)) fun d t => zeroFill (repair d t))) := by
  rw [Gives, exec, execPhaseMemory, onUnit_of_ok hfails, fromPhase_of_in hon hphase]
  rfl

/-- The ports with a role of device `d`, as its record `roles` gives them, train. -/
def linksTrained (roles : SMap W64) (d : Dev) : Dev :=
  forEach ((List.range 288).filter fun p => roleIn roles p != 0) d fun d' p =>
    let x := updPort d' p fun x => { x with role := roleIn roles p }
    if portLost x p then x else enterTrain x p

/-- A module whose own serial does not stand at its ADDR says so (R566). -/
def cfgChecked (e : Dev) : Dev :=
  let f := { e with fabric := { e.fabric with cfgOk := ownCfgOk e } }
  if ownCfgOk e then f else raiseTrap f { cause := 0x92 }

theorem gives_phaseLinks (hon : powered s.dev = true) (hphase : s.dev.start.phase = .memory) :
    Gives .phaseLinks s (cfgChecked (linksTrained (recBody s.dev 0x12) (enterPhase s.dev .links))) := by
  rw [Gives, exec, execPhaseLinks, onDev_next, fromPhase_of_in hon hphase]
  rfl

/-- A latched shutdown is reported, and its latch cleared (R718). -/
def latchReported (e : Dev) : Dev :=
  if e.power.latch = 0 then e
  else updPower (raiseTrap e { cause := 0xF4, details := [BitVec.ofNat 64 e.power.latch] }) fun p => { p with latch := 0 }

theorem gives_phaseServe (hon : powered s.dev = true) (hphase : s.dev.start.phase = .links) (hdone : linksDone s.dev = true) :
    Gives .phaseServe s (settleLinks s.dev (cableCheck (latchReported (closePool (enterPhase s.dev .serve) 60)))) := by
  rw [Gives, exec, execPhaseServe, onLinks_of_ok rfl, fromPhase_of_in hon hphase, hdone]
  rfl

theorem gives_phaseBypass (hon : powered s.dev = true) (hphase : s.dev.start.phase = .serve)
    (hat : s.dev.start.phaseAt + 100000 ≤ s.dev.nowUs) : Gives .phaseBypass s (enterPhase s.dev .bypass) := by
  rw [Gives, exec, execPhaseBypass, onDev_next, fromPhase_of_in hon hphase, if_pos hat]

theorem gives_phaseReady (hon : powered s.dev = true) (hphase : s.dev.start.phase = .bypass)
    (hended : ∀ q, q < 16 → pairEnded s.dev q = true) : Gives .phaseReady s (claimGroup (enterPhase s.dev .ready) true) := by
  have hall : (List.range 16).all (pairEnded s.dev) = true := by simpa [List.all_eq_true] using hended
  rw [Gives, exec, execPhaseReady, onDev_next, fromPhase_of_in hon hphase, if_pos hall]

/-- Settles O21: each phase's row is its work, from the phase before it. -/
theorem laterPhasesDoTheirWork : Obligations.LaterPhasesDoTheirWork := by
  intro s hdown hin enter
  have hon := powered_of_input hdown hin
  exact ⟨fun fails links hfails hlinks => gives_phaseDies hfails hlinks hon, fun fails hfails => gives_phaseMemory hfails hon,
    gives_phaseLinks hon, gives_phaseServe hon, gives_phaseBypass hon, gives_phaseReady hon⟩

/-! ## Limits and the LIFE record (R700, R710, R726) -/

theorem gives_phaseLimit {ms : Nat} (hon : powered s.dev = true) (hms : phaseLimitMs s.dev.start.phase = some ms)
    (hhalt : haltedInRom s.dev = false) (hlate : s.dev.start.phaseAt + 1000 * ms < s.dev.nowUs) :
    Gives .phaseLimit s (enterFailed s.dev 1) := by
  simp [Gives, exec, execPhaseLimit, hms, hon, hhalt, hlate]

theorem gives_lifeWrite {fail : Nat × Nat} {later : List (Nat × Nat)} (hfits : ∀ e ∈ fail :: later, e.1 ≤ 3 ∧ e.2 ≤ 3)
    (hpast : pastRom s.dev = true) (hhour : s.dev.flash.lifeAt + 3600000000 ≤ s.dev.nowUs) : Gives (.lifeWrite fail later) s
      (writeLife (bump { s.dev with flash := { s.dev.flash with lifeAt := s.dev.flash.lifeAt + 3600000000, fails := fail :: later } }
        ctrPowerOnHours 0)) := by
  have hok : ((fail :: later).all fun e => decide (e.1 ≤ 3) && decide (e.2 ≤ 3)) = true := by
    rw [List.all_eq_true]
    exact fun e he => by simpa using hfits e he
  rw [Gives, exec, execLifeWrite, onUnit_of_ok hok, hpast, decide_eq_true hhour]
  rfl

theorem gives_flashWaitTimeout {at_ : Nat} (hat : s.dev.flash.waitAt = some at_) (htrap : s.dev.flash.waitTrap = false)
    (hwaits : s.dev.flash.waits ≠ []) (hlate : at_ + 1000000 ≤ s.dev.nowUs) : Gives .flashWaitTimeout s
      (raiseTrap { s.dev with flash := { s.dev.flash with waitTrap := true } } { cause := 0xE3 }) := by
  have hempty : s.dev.flash.waits.isEmpty = false := by simpa using hwaits
  have hgo : ¬ (s.dev.flash.waitTrap || s.dev.flash.waits.isEmpty || decide (s.dev.nowUs < at_ + 1000000)) = true := by
    rw [htrap, hempty, decide_eq_false (Nat.not_lt.mpr hlate)]
    decide
  rw [Gives, exec, execFlashWaitTimeout, onDev_next]
  simp only [hat, if_neg hgo]

/-! ## The processors (R58, R603) -/

/-- The two rows of a processor that fails are one event. -/
theorem gives_activeFails (s : State) : ∀ i ∈ [Instr.watchdogExpiry, .processorFault], Gives i s (activeFails s.dev) := by
  simp only [List.forall_mem_cons]
  exact ⟨rfl, rfl, nofun⟩

theorem contains_insNat {x y : Nat} {l : List Nat} (hne : y ≠ x) (h : l.contains y = false) : (insNat x l).contains y = false := by
  unfold insNat
  split
  · exact h
  · simp_all

theorem telemTrap_waiting (d : Dev) (q : Nat) (ws : List W64) : (telemTrap d q ws).mgmt.waiting = d.mgmt.waiting := by
  refine forEach_keeps (·.mgmt.waiting) (fun d e => ?_) _ d
  split
  · rw [telemSend_mgmt]
  · rfl

/-- No trap touches the waiting commands. -/
theorem raiseTrap_waiting (d : Dev) (t : TrapInfo) : (raiseTrap d t).mgmt.waiting = d.mgmt.waiting := by
  have hrecorded (e : Dev) (b : Nat) : (trapRecorded e t b).mgmt.waiting = e.mgmt.waiting := telemTrap_waiting _ _ _
  cases hgot : (trapBuffer d t).2 with
  | some b => rw [raiseTrap_of_buffer hgot, hrecorded, (trapBuffer_keeps d t).1]
  | none =>
    cases hspare : (spareTrapBuffer d t).2 with
    | some b => rw [raiseTrap_of_spare_buffer hgot hspare, hrecorded, (spareTrapBuffer_keeps d t).1]
    | none => rw [raiseTrap_of_no_buffer hgot hspare, bump_mgmt, (spareTrapBuffer_keeps d t).1]

/-- What every turn of a loop leaves true, the loop leaves true. -/
theorem forEach_invariant {α : Type} {P : Dev → Prop} {f : Dev → α → Dev} (h : ∀ d x, P d → P (f d x)) (l : List α) {d : Dev}
    (hd : P d) : P (forEach l d f) := by
  induction l generalizing d with
  | nil => exact hd
  | cons x l ih => exact ih (h d x hd)

/-- No waiting command is answered until it is sent again. -/
def AllMuted (d : Dev) : Prop := ∀ w ∈ d.mgmt.waiting, w.muted = true

theorem forgetCmd_aside {src : CmdSrc} (d : Dev) (w : Waiting) : Aside src d (forgetCmd d w) :=
  updSession_aside (poolReleaseOpt_aside (updMgmt_aside (.refl d) fun _ => rfl))

theorem forgetCmd_waiting (d : Dev) (w : Waiting) : (forgetCmd d w).mgmt.waiting = d.mgmt.waiting.filter (· != w) := by
  show (poolReleaseOpt _ w.buffer).mgmt.waiting = _
  rw [poolReleaseOpt_mgmt]
  rfl

theorem interruptCmds_allMuted (d : Dev) : AllMuted (interruptCmds d) := by
  refine forEach_invariant (P := AllMuted) (fun e w he => ?_) _ fun w hw => ?_
  · dsimp only
    split
    · intro v hv
      rw [forgetCmd_waiting] at hv
      exact he v ((List.mem_filter.mp hv).1)
    · exact he
  · obtain ⟨v, -, rfl⟩ := List.mem_map.mp hw
    rfl

/-- A takeover touches no start-up state, no job and no port. -/
theorem interruptCmds_keeps (d : Dev) :
    ((interruptCmds d).start, (interruptCmds d).jobs, (interruptCmds d).ports) = (d.start, d.jobs, d.ports) := by
  refine forEach_keeps (fun e => (e.start, e.jobs, e.ports)) (fun e w => ?_) _ _
  dsimp only
  split
  · have h := forgetCmd_aside (src := .mgmt 0 0 0) (drawFree e).2 w
    rw [h.start, h.jobs, h.ports]
    rfl
  · rfl

/-- The processor out, and its buffers returned (R603). -/
def cpuOut (d : Dev) (c : Nat) : Dev := dropCpuBufs (updStart d fun s => { s with cpuLost := insNat c s.cpuLost }) c

theorem cpuOut_aside {src : CmdSrc} (d : Dev) (c : Nat) :
    Aside src (updStart d fun s => { s with cpuLost := insNat c s.cpuLost }) (cpuOut d c) :=
  forEach_aside (.refl _) fun _ _ => poolFreeBuf_aside

/-- The standby active and the takeover in progress. -/
def takingOver (d : Dev) : Dev :=
  updStart (interruptCmds (cpuOut d d.start.cpu)) fun s => { s with cpu := 1 - d.start.cpu, takeover := some d.nowUs }

theorem interruptCmds_cpuOut (d : Dev) (c : Nat) :
    (interruptCmds (cpuOut d c)).start = { d.start with cpuLost := insNat c d.start.cpuLost } ∧
    (interruptCmds (cpuOut d c)).jobs = d.jobs ∧ (interruptCmds (cpuOut d c)).ports = d.ports := by
  have hkept := interruptCmds_keeps (cpuOut d c)
  have hout := cpuOut_aside (src := .mgmt 0 0 0) d c
  rw [hout.start, hout.jobs, hout.ports] at hkept
  exact ⟨congrArg Prod.fst hkept, congrArg (·.2.1) hkept, congrArg (·.2.2) hkept⟩

/-- The active processor fails and the standby works. -/
theorem cpuFails_of_standby (hcpu : d.start.cpu < 2) (hstandby : d.start.cpuLost.contains (1 - d.start.cpu) = false) :
    cpuFails d d.start.cpu = raiseTrap (bump (drawFree (takingOver d)).2 ctrTakeovers 0) { cause := (drawFree (takingOver d)).1.toNat % 256 } := by
  have hworks : (interruptCmds (cpuOut d d.start.cpu)).start.cpuLost.contains (1 - d.start.cpu) = false := by
    rw [(interruptCmds_cpuOut d d.start.cpu).1]
    exact contains_insNat (by omega) hstandby
  have hactive : (d.start.cpu != d.start.cpu) = false := bne_self_eq_false _
  unfold cpuFails
  rw [hactive]
  exact if_neg (Bool.eq_false_iff.mp hworks)

/-- Settles O22: a phase past its limit is `enterFailed`; the rows of flash and of processors are their lemmas; a takeover is
`cpuFails_of_standby`. -/
theorem processorsFailAndTakeOver : Obligations.ProcessorsFailAndTakeOver := by
  refine ⟨fun s => ⟨fun hdown hin => ?rows, fun at_ hat htrap hwaits hlate => gives_flashWaitTimeout hat htrap hwaits hlate, rfl⟩,
    fun d hcpu hstandby => ?takeover⟩
  case rows =>
    have hon := powered_of_input hdown hin
    refine ⟨fun ms hms hhalt hlate => ⟨_, gives_phaseLimit hon hms hhalt hlate, enterFailed_start s.dev 1⟩,
      fun fail later hfits hpast hhour => gives_lifeWrite hfits hpast hhour, fun i hi => ?_⟩
    have hgives := gives_activeFails s i hi
    refine ⟨fun hcpu => ?_, fun hcpu => ?_⟩
    · rwa [activeFails, hon, if_pos (by simpa using hcpu)] at hgives
    · rwa [activeFails, hon, if_neg (by simpa using hcpu)] at hgives
  case takeover =>
    intro t
    have ht : t = _ := cpuFails_of_standby hcpu hstandby
    have htrap := raiseTrap_aside (src := .mgmt 0 0 0) (t := { cause := (drawFree (takingOver d)).1.toNat % 256 })
      (Aside.refl (bump (drawFree (takingOver d)).2 ctrTakeovers 0))
    rw [← ht] at htrap
    obtain ⟨hstart, hjobs, hports⟩ := interruptCmds_cpuOut d d.start.cpu
    have hstart' : t.start = { d.start with cpu := 1 - d.start.cpu, takeover := some d.nowUs,
                                            cpuLost := insNat d.start.cpu d.start.cpuLost } := by
      rw [htrap.start, bump_start, drawFree_start, takingOver, updStart, hstart]
    refine ⟨by rw [hstart'], by rw [hstart'], by rw [hstart'], fun w hw => ?_, htrap.jobs.trans hjobs, htrap.ports.trans hports⟩
    rw [ht, raiseTrap_waiting] at hw
    exact interruptCmds_allMuted _ w hw

end Sys2Proof.Machine
end

section
/-!
SUPPORT. The operations of sync objects (R506, Table 14-8).
-/
namespace Sys2Proof.Machine

variable {d : Dev} {j n op : Nat} {x : W64} {o : SyncObj}

/-! ## The checks and the effect -/

theorem syncCheck_of_ok (hobj : SMap.get? d.syncs n = some o) (hjob : o.job = j) (hop : syncOpOk o.kind op = true)
    (hoperand : syncOperandOk op x = true) : syncCheck d j n op x = none := by
  simp [syncCheck, hobj, hjob, hop, hoperand]

theorem syncCheck_of_illegal (hobj : SMap.get? d.syncs n = some o) (hbad : syncOpOk o.kind op = false ∨ syncOperandOk op x = false) :
    syncCheck d j n op x = some (1, stIllegal) := by
  have hboth : (syncOpOk o.kind op && syncOperandOk op x) = false := by
    rcases hbad with h | h <;> simp [h]
  simp [syncCheck, hobj, hboth]

theorem applySync_of_get (hobj : SMap.get? d.syncs n = some o) : applySync d n op x =
    settle (bump { d with syncs := SMap.set d.syncs n { o with value := syncApply op o.value x } } ctrSyncOps o.job) := by
  simp only [applySync, hobj]

theorem syncOpCmd_of_ok {c : Cmd} (hobj : SMap.get? d.syncs (field (wordAt c.body 0) 12 0) = some o)
    (hrsvd : rsvdSet (wordAt c.body 0) [(55, 13)] = false) (hjob : o.job = c.job)
    (hop : syncOpOk o.kind (field (wordAt c.body 0) 63 56) = true)
    (hoperand : syncOperandOk (field (wordAt c.body 0) 63 56) (wordAt c.body 1) = true) :
    syncOpCmd d c =
      doneWith (applySync d (field (wordAt c.body 0) 12 0) (field (wordAt c.body 0) 63 56) (wordAt c.body 1)) [o.value] := by
  simp [syncOpCmd, hrsvd, syncCheck_of_ok hobj hjob hop hoperand, hobj]

theorem syncOpCmd_of_illegal {c : Cmd} (hobj : SMap.get? d.syncs (field (wordAt c.body 0) 12 0) = some o)
    (hrsvd : rsvdSet (wordAt c.body 0) [(55, 13)] = false)
    (hbad : syncOpOk o.kind (field (wordAt c.body 0) 63 56) = false ∨
      syncOperandOk (field (wordAt c.body 0) 63 56) (wordAt c.body 1) = false) : syncOpCmd d c = fail d stIllegal 1 := by
  simp [syncOpCmd, hrsvd, syncCheck_of_illegal hobj hbad, hobj]

theorem startSync_of_ok {g i : Nat} {m : Node} (hobj : SMap.get? d.syncs (nodeSync m) = some o) (hjob : o.job = j)
    (hop : syncOpOk o.kind (nodeOp m) = true) (hoperand : syncOperandOk (nodeOp m) (wordAt m.words 2) = true) :
    startSync d j g i m = nodeEnds (applySync d (nodeSync m) (nodeOp m) (wordAt m.words 2)) j g i .done 0 := by
  simp only [startSync, syncCheck_of_ok hobj hjob hop hoperand]

/-! ## The operations of each kind, and their operands -/

theorem syncOpOk_counter (op : Nat) : syncOpOk .counter op = true ↔ op ≤ 5 := by simp [syncOpOk]

theorem syncOpOk_barrier (op : Nat) : syncOpOk .barrier op = true ↔ op = 0 ∨ op = 0x10 ∨ op = 0x11 := by
  simp [syncOpOk, or_assoc]

theorem syncOperandOk_counter (hop : op ≤ 5) (x : W64) : syncOperandOk op x = true := by
  unfold syncOperandOk
  split
  · omega
  · omega
  · rfl

theorem toNat_syncApply_max (v x : W64) : (syncApply 3 v x).toNat = max v.toNat x.toNat := by
  simp only [syncApply]
  split <;> omega

/-! ## The word of a barrier: generation, target, arrivals -/

/-- The word of a barrier. -/
def barrierWord (generation target arrivals : Nat) : W64 := mkWord [(generation, 32), (target, 16), (arrivals, 0)]

theorem toNat_barrierWord {g t a : Nat} (hg : g < 2 ^ 32) (ht : t < 2 ^ 16) (ha : a < 2 ^ 16) :
    (barrierWord g t a).toNat = g * 2 ^ 32 + t * 2 ^ 16 + a := by
  simp only [barrierWord, mkWord, List.foldl, BitVec.toNat_ofNat]
  omega

theorem field_barrierWord {g t a : Nat} (hg : g < 2 ^ 32) (ht : t < 2 ^ 16) (ha : a < 2 ^ 16) :
    field (barrierWord g t a) 63 32 = g ∧ field (barrierWord g t a) 31 16 = t ∧ field (barrierWord g t a) 15 0 = a := by
  simp only [field, fieldN, toNat_barrierWord hg ht ha]
  omega

theorem syncApply_arrive (v x : W64) : syncApply 0x10 v x =
    barrierWord ((field v 63 32 + (field v 15 0 + field x 15 0) / field v 31 16) % 2 ^ 32) (field v 31 16)
      ((field v 15 0 + field x 15 0) % field v 31 16) := rfl

theorem syncApply_reset (v x : W64) : syncApply 0x11 v x =
    barrierWord (field v 63 32) (if field x 15 0 = 0 then field v 31 16 else field x 15 0) 0 := by
  simp [syncApply, barrierWord, barTarget, mkWord]

theorem field_lt (w : W64) (hi lo : Nat) : field w hi lo < 2 ^ (hi + 1 - lo) := Nat.mod_lt _ (Nat.two_pow_pos _)

theorem field_arrive (v x : W64) (htarget : 1 ≤ field v 31 16) :
    field (syncApply 0x10 v x) 63 32 = (field v 63 32 + (field v 15 0 + field x 15 0) / field v 31 16) % 2 ^ 32 ∧
    field (syncApply 0x10 v x) 31 16 = field v 31 16 ∧
    field (syncApply 0x10 v x) 15 0 = (field v 15 0 + field x 15 0) % field v 31 16 := by
  have ht := field_lt v 31 16
  rw [syncApply_arrive]
  exact field_barrierWord (Nat.mod_lt _ (by decide)) ht (Nat.lt_trans (Nat.mod_lt _ htarget) ht)

theorem field_reset (v x : W64) :
    field (syncApply 0x11 v x) 63 32 = field v 63 32 ∧
    field (syncApply 0x11 v x) 31 16 = (if field x 15 0 = 0 then field v 31 16 else field x 15 0) ∧
    field (syncApply 0x11 v x) 15 0 = 0 := by
  have ht : (if field x 15 0 = 0 then field v 31 16 else field x 15 0) < 2 ^ 16 := by
    split
    · exact field_lt v 31 16
    · exact field_lt x 15 0
  rw [syncApply_reset]
  exact field_barrierWord (field_lt v 63 32) ht (by decide)

/-- Settles O38: SYNC_OP and a SYNC node share the checks and the effect; each operation is read off its case, the two of a
barrier through the word's three fields. -/
theorem syncOperationsFollowTheTable : Obligations.SyncOperationsFollowTheTable := by
  unfold Obligations.SyncOperationsFollowTheTable
  refine ⟨fun p s d c o => ?_, fun d j g i n o hobj hjob hop hoperand => ?_, fun op => ⟨syncOpOk_counter op, syncOpOk_barrier op, rfl⟩,
    fun x => ⟨fun op hop => syncOperandOk_counter hop x, ?_, ?_⟩,
    fun v x => ⟨rfl, rfl, rfl, toNat_syncApply_max v x, rfl, rfl⟩,
    fun v x htarget => ?_⟩
  · intro w x hran hobj hrsvd
    refine ⟨fun hjob hop hoperand => ?_, fun hbad => gives_of_onStepCmd rfl hran (syncOpCmd_of_illegal hobj hrsvd hbad)⟩
    rw [← applySync_of_get hobj]
    exact gives_of_onStepCmd rfl hran (syncOpCmd_of_ok hobj hrsvd hjob hop hoperand)
  · rw [startSync_of_ok hobj hjob hop hoperand, applySync_of_get hobj]
  · simp [syncOperandOk]
  · simp [syncOperandOk]
  · obtain ⟨hgen, htgt, harr⟩ := field_arrive v x htarget
    obtain ⟨hgen', htgt', harr'⟩ := field_reset v x
    exact ⟨hgen, htgt, harr, hgen', htgt', harr'⟩

end Sys2Proof.Machine
end

section
/-!
SUPPORT. The buffer pool manager (R593 to R598, R601, R614).
-/
namespace Sys2Proof.Machine

variable {d : Dev} {s : State} {p r : Nat} {j : Option Nat}

/-! ## Tables: a removed entry, and the lowest free number -/

theorem SMap.get?_eq_none_of_lt {α : Type} {m : SMap α} {k : Nat} (h : ∀ e ∈ m, k < e.1) : SMap.get? m k = none := by
  induction m with
  | nil => rfl
  | cons e m ih =>
    obtain ⟨a, x⟩ := e
    have ha : a ≠ k := Nat.ne_of_gt (h (a, x) List.mem_cons_self)
    rw [SMap.get?, if_neg ha]
    exact ih fun e he => h e (List.mem_cons_of_mem _ he)

theorem SMap.get?_del_same {α : Type} {m : SMap α} (hwf : SMap.wf m = true) (k : Nat) : SMap.get? (SMap.del m k) k = none := by
  induction m with
  | nil => rfl
  | cons e m ih =>
    obtain ⟨a, x⟩ := e
    rw [SMap.del]
    split
    next hk =>
      subst hk
      exact SMap.get?_eq_none_of_lt (SMap.wf_lt hwf)
    next hk => simpa only [SMap.get?, if_neg hk] using ih (SMap.wf_tail hwf)

theorem SMap.firstFree_range {α : Type} {m : SMap α} {lo n h : Nat} (hfree : SMap.firstFree m lo n = some h) : lo ≤ h ∧ h < lo + n := by
  induction n generalizing lo with
  | zero => simp [SMap.firstFree] at hfree
  | succ n ih =>
    rw [SMap.firstFree] at hfree
    split at hfree
    · have := ih hfree
      omega
    · cases hfree
      omega

theorem poolCount_le (p : Nat) : poolCount p ≤ 2 ^ 17 := by
  unfold poolCount
  split <;> decide

/-- A free buffer of a pool is the one its number within the pool names. -/
theorem poolHandle_of_firstFree {m : SMap Buf} {h : Nat} (hfree : SMap.firstFree m (2 ^ 18 * p) (poolCount p) = some h) :
    poolHandle p (h % 2 ^ 18) = h := by
  have hrange := SMap.firstFree_range hfree
  have hcount := poolCount_le p
  unfold poolHandle
  omega

/-! ## What taking a buffer does -/

@[simp] theorem poolTake_bufs (d : Dev) (p i r : Nat) (j : Option Nat) :
    (poolTake d p i r j).pools.bufs = SMap.set d.pools.bufs (poolHandle p i) { refs := 1, req := r, job := j } := by
  unfold poolTake
  dsimp only
  split <;> rfl

@[simp] theorem poolTake_frees (d : Dev) (p i r : Nat) (j : Option Nat) : (poolTake d p i r j).pools.frees = d.pools.frees := by
  unfold poolTake
  dsimp only
  split <;> rfl

@[simp] theorem poolTake_jobs (d : Dev) (p i r : Nat) (j : Option Nat) : (poolTake d p i r j).jobs = d.jobs := by
  unfold poolTake
  dsimp only
  split <;> rfl

/-- The buffer taken of a pool's lowest free number is the one listed under that number. -/
theorem poolTake_free_bufs {h : Nat} (hfree : SMap.firstFree d.pools.bufs (2 ^ 18 * p) (poolCount p) = some h) :
    (poolTake d p (h % 2 ^ 18) r j).pools.bufs = SMap.set d.pools.bufs h { refs := 1, req := r, job := j } := by
  rw [poolTake_bufs, poolHandle_of_firstFree hfree]

@[simp] theorem poolAnswer_bufs (d : Dev) (h : Option Nat) : (poolAnswer d h).pools.bufs = d.pools.bufs := rfl

@[simp] theorem poolAnswer_frees (d : Dev) (h : Option Nat) : (poolAnswer d h).pools.frees = d.pools.frees := rfl

/-! ## A request, by its outcome -/

/-- A request that its job's cap does not refuse. -/
def BelowCap (d : Dev) (p : Nat) (j : Option Nat) : Prop :=
  ∀ n cap, j = some n → poolJobCap p = some cap → poolHeld d p (fun b => b.job == some n) < cap

theorem poolAlloc_of_below_cap (hpriv : poolPriv p = false) (hcap : BelowCap d p j) :
    poolAlloc d p r j =
      match SMap.firstFree d.pools.bufs (2 ^ 18 * p) (poolCount p) with
      | some h => (poolTake d p (h % 2 ^ 18) r j, some h)
      | none => (bump d ctrPoolEmpty p, none) := by
  unfold poolAlloc
  rw [if_neg (by simp [hpriv])]
  split
  next n cap hcapEq => rw [if_neg (Nat.not_le.mpr (hcap n cap rfl hcapEq))]; rfl
  next => rfl

theorem poolAlloc_of_free {h : Nat} (hpriv : poolPriv p = false) (hcap : BelowCap d p j)
    (hfree : SMap.firstFree d.pools.bufs (2 ^ 18 * p) (poolCount p) = some h) :
    poolAlloc d p r j = (poolTake d p (h % 2 ^ 18) r j, some h) := by
  simp only [poolAlloc_of_below_cap hpriv hcap, hfree]

theorem poolAlloc_of_empty (hpriv : poolPriv p = false) (hcap : BelowCap d p j)
    (hfree : SMap.firstFree d.pools.bufs (2 ^ 18 * p) (poolCount p) = none) :
    poolAlloc d p r j = (bump d ctrPoolEmpty p, none) := by
  simp only [poolAlloc_of_below_cap hpriv hcap, hfree]

theorem poolAlloc_of_at_cap {n cap : Nat} (hpriv : poolPriv p = false) (hcap : poolJobCap p = some cap)
    (hheld : cap ≤ poolHeld d p (fun b => b.job == some n)) :
    poolAlloc d p r (some n) = (quotaHit (bump (bump d ctrPoolEmpty p) ctrJobCapHit (64 * n + p)) n 11, none) := by
  unfold poolAlloc
  rw [if_neg (by simp [hpriv]), hcap]
  dsimp only
  rw [if_pos hheld]

theorem poolAlloc_priv_of_stack {i : Nat} {l : List Nat} (hpriv : poolPriv p = true) (hopen : poolOpen d p = true)
    (hquota : poolHeld d p (fun b => b.req == r) < poolQuota p r) (hstack : poolStack d p = i :: l) :
    poolAlloc d p r j =
      (poolTake { d with pools := { d.pools with frees := SMap.set d.pools.frees p l } } p i r none, some (poolHandle p i)) := by
  simp only [poolAlloc, hpriv, hopen, hquota, hstack, decide_true, Bool.and_true, if_true]

theorem poolAlloc_priv_of_empty (hpriv : poolPriv p = true) (hopen : poolOpen d p = true)
    (hquota : poolHeld d p (fun b => b.req == r) < poolQuota p r) (hstack : poolStack d p = []) :
    poolAlloc d p r j = (bump d ctrPoolEmpty p, none) := by
  simp only [poolAlloc, hpriv, hopen, hquota, hstack, decide_true, Bool.and_true, if_true]

theorem poolAlloc_priv_of_denied (hpriv : poolPriv p = true)
    (hdenied : poolOpen d p = false ∨ poolQuota p r ≤ poolHeld d p (fun b => b.req == r)) :
    poolAlloc d p r j = (bump (bump d ctrPoolEmpty p) ctrPrivDeny (64 * p + r), none) := by
  unfold poolAlloc
  rw [if_pos hpriv, if_neg]
  rcases hdenied with h | h <;> simp [h]

/-! ## ALLOC -/

/-- The requests that name a pool, a requester and a job, if any, which exist. -/
structure AllocFits (p r : Nat) (j : Option Nat) : Prop where
  pool : p < 64
  req  : isRequester r = true
  job  : ∀ n, j = some n → n < 64

/-- The operand check of ALLOC. -/
def allocOk (p r : Nat) (j : Option Nat) : Bool := p < 64 && isRequester r && j.elim true fun n => decide (n < 64)

theorem execAlloc_eq (p r : Nat) (j : Option Nat) (s : State) : execAlloc p r j s = onUnit (allocOk p r j) s fun d =>
    if p == 61 && (allocOp d p r j).2.isNone then poolsSettle (procFails (poolAnswer (allocOp d p r j).1 (allocOp d p r j).2) j)
    else poolAnswer (allocOp d p r j).1 (allocOp d p r j).2 := by
  cases j <;> rfl

theorem AllocFits.ok (h : AllocFits p r j) : allocOk p r j = true := by
  obtain ⟨hp, hr, hj⟩ := h
  cases j with
  | none => simp [allocOk, hp, hr]
  | some n => simp [allocOk, hp, hr, hj n rfl]

theorem allocOk_of_bad (h : 64 ≤ p ∨ isRequester r = false) : allocOk p r j = false := by
  rcases h with h | h
  · simp [allocOk, Nat.not_lt.mpr h]
  · simp [allocOk, h]

theorem gives_alloc (hfits : AllocFits p r j) : Gives (.alloc p r j) s
    (if p == 61 && (allocOp s.dev p r j).2.isNone then
      poolsSettle (procFails (poolAnswer (allocOp s.dev p r j).1 (allocOp s.dev p r j).2) j)
    else poolAnswer (allocOp s.dev p r j).1 (allocOp s.dev p r j).2) :=
  (execAlloc_eq p r j s).trans (onUnit_of_ok hfits.ok ..)

theorem gives_alloc_of_some {e : Dev} {h : Nat} (hfits : AllocFits p r j) (hgot : poolAlloc s.dev p r j = (e, some h)) :
    Gives (.alloc p r j) s (poolAnswer e (some h)) := by
  have hop : allocOp s.dev p r j = (e, some h) := by rw [allocOp, hgot]
  simpa [hop] using gives_alloc (s := s) hfits

theorem gives_alloc_of_none_unpriv {e : Dev} (hfits : AllocFits p r j) (hpriv : poolPriv p = false)
    (hgot : poolAlloc s.dev p r j = (e, none)) : Gives (.alloc p r j) s (poolAnswer e none) := by
  have hpool : p ≠ 63 ∧ p ≠ 61 := ⟨fun h => by simp [h, poolPriv] at hpriv, fun h => by simp [h, poolPriv] at hpriv⟩
  have hop : allocOp s.dev p r j = (e, none) := by simp [allocOp, hgot, hpriv, hpool]
  simpa [hop, hpool] using gives_alloc (s := s) hfits

/-- What a failure of a privileged pool does beside what it counts (R601, R614). -/
def privFails (p r : Nat) (j : Option Nat) (e : Dev) : Dev :=
  if p = 63 ∧ r = 6 then poolAnswer (bump e ctrTrapLost 0) none
  else if p = 61 then
    poolsSettle (procFails (poolAnswer (raiseTrap e { cause := 0xA1, kind := 9, unit := p, details := [BitVec.ofNat 64 r] }) none) j)
  else poolAnswer (raiseTrap e { cause := 0xA1, kind := 9, unit := p, details := [BitVec.ofNat 64 r] }) none

theorem gives_alloc_of_none_priv {e : Dev} (hfits : AllocFits p r j) (hpriv : poolPriv p = true)
    (hgot : poolAlloc s.dev p r j = (e, none)) : Gives (.alloc p r j) s (privFails p r j e) := by
  have hgives := gives_alloc (s := s) hfits
  rw [allocOp, hgot] at hgives
  rw [privFails]
  by_cases hlost : p = 63 ∧ r = 6
  · simpa [hlost] using hgives
  · have hlost' : (p == 63 && r == 6) = false := by simpa using hlost
    by_cases hproc : p = 61
    · subst hproc
      simpa [hpriv] using hgives
    · simpa [hlost, hlost', hpriv, hproc] using hgives

/-! ## ADDREF and RELEASE -/

variable {h : Nat} {b : Buf}

theorem bufOk (hh : h < 2 ^ 24) (hr : isRequester r = true) : (h < 2 ^ 24 && isRequester r) = true := by
  rw [hr, decide_eq_true hh]
  rfl

theorem poolFreeBuf_bufs (d : Dev) (h : Nat) : (poolFreeBuf d h).pools.bufs = SMap.del d.pools.bufs h := by
  unfold poolFreeBuf
  dsimp only
  split <;> rfl

theorem poolFreeBuf_rest (d : Dev) (h : Nat) :
    (poolFreeBuf d h).counters = d.counters ∧ (poolFreeBuf d h).jobs = d.jobs ∧ (poolFreeBuf d h).mgmt = d.mgmt := by
  unfold poolFreeBuf
  dsimp only
  split <;> exact ⟨rfl, rfl, rfl⟩

theorem poolStack_poolFreeBuf (d : Dev) (h q : Nat) : poolStack (poolFreeBuf d h) q =
    if q = h / 2 ^ 18 ∧ poolPriv q = true then h % 2 ^ 18 :: poolStack d q else poolStack d q := by
  unfold poolFreeBuf
  dsimp only
  by_cases hq : q = h / 2 ^ 18
  · subst hq
    by_cases hpriv : poolPriv (h / 2 ^ 18) = true
    · rw [if_pos hpriv, if_pos ⟨rfl, hpriv⟩, poolStack, SMap.getD_set_same]
    · rw [if_neg hpriv, if_neg (not_and_of_not_right _ hpriv)]
      rfl
  · rw [if_neg (not_and_of_not_left _ hq)]
    by_cases hpriv : poolPriv (h / 2 ^ 18) = true
    · rw [if_pos hpriv]
      simp only [poolStack, SMap.getD_set, if_neg (Ne.symm hq)]
    · rw [if_neg hpriv]
      rfl

theorem poolRelease_of_held (hbuf : SMap.get? d.pools.bufs h = some b) (hrefs : 1 < b.refs) :
    poolRelease d h = { d with pools := { d.pools with bufs := SMap.set d.pools.bufs h { b with refs := b.refs - 1 } } } := by
  simp only [poolRelease, hbuf, if_neg (Nat.not_le.mpr hrefs)]

theorem poolRelease_of_last (hbuf : SMap.get? d.pools.bufs h = some b) (hrefs : b.refs ≤ 1) : poolRelease d h = poolFreeBuf d h := by
  simp only [poolRelease, hbuf, if_pos hrefs]

theorem gives_addref (hh : h < 2 ^ 24) (hr : isRequester r = true) (hbuf : SMap.get? s.dev.pools.bufs h = some b)
    (hrefs : b.refs < 255) : Gives (.addref h r) s (poolAnswer { s.dev with pools :=
      { s.dev.pools with bufs := SMap.set s.dev.pools.bufs h { b with refs := b.refs + 1 } } } (some h)) := by
  rw [Gives, exec, execAddref, onUnit_of_ok (bufOk hh hr)]
  simp only [hbuf, if_neg (Nat.not_le.mpr hrefs)]

theorem gives_addref_of_saturated (hh : h < 2 ^ 24) (hr : isRequester r = true) (hbuf : SMap.get? s.dev.pools.bufs h = some b)
    (hrefs : 255 ≤ b.refs) : Gives (.addref h r) s (poolAnswer (bump s.dev ctrRefSat (h / 2 ^ 18)) none) := by
  rw [Gives, exec, execAddref, onUnit_of_ok (bufOk hh hr)]
  simp only [hbuf, if_pos hrefs]

theorem gives_addref_of_free (hh : h < 2 ^ 24) (hr : isRequester r = true) (hbuf : SMap.get? s.dev.pools.bufs h = none) :
    Gives (.addref h r) s (poolFault s.dev h r) := by
  rw [Gives, exec, execAddref, onUnit_of_ok (bufOk hh hr)]
  simp only [hbuf]

theorem gives_release (hh : h < 2 ^ 24) (hr : isRequester r = true) (hbuf : SMap.get? s.dev.pools.bufs h = some b) :
    Gives (.releaseBuf h r) s (poolAnswer (poolRelease s.dev h) (some h)) := by
  rw [Gives, exec, execReleaseBuf, onUnit_of_ok (bufOk hh hr)]
  simp only [hbuf]

theorem gives_release_of_free (hh : h < 2 ^ 24) (hr : isRequester r = true) (hbuf : SMap.get? s.dev.pools.bufs h = none) :
    Gives (.releaseBuf h r) s (poolFault s.dev h r) := by
  rw [Gives, exec, execReleaseBuf, onUnit_of_ok (bufOk hh hr)]
  simp only [hbuf]

end Sys2Proof.Machine

namespace Sys2Proof.Machine

/-- Settles O58: a request is taken by its outcome in the pool (`poolAlloc_of_…`), ADDREF and RELEASE by the buffer's count. -/
theorem poolsGiveCountAndFree : Obligations.PoolsGiveCountAndFree := by
  unfold Obligations.PoolsGiveCountAndFree
  intro s d ans failed
  refine ⟨fun p r j hp hr hj => ?_, fun h r hh hr => ?_, fun p r j hbad => ?_⟩
  · have hfits : AllocFits p r j := ⟨hp, hr, hj⟩
    refine ⟨fun hpriv hcap => ⟨fun h hfree => ?_, fun hfree => ?_⟩, fun n cap hjob hpriv hcap hheld => ?_,
      fun hpriv hopen hquota i l hstack => ?_, fun hpriv hopen hquota hstack => ?_, fun hpriv hdenied => ?_⟩
    · refine ⟨_, gives_alloc_of_some hfits (poolAlloc_of_free hpriv hcap hfree), rfl, ?_, fun g hg => ?_, poolTake_jobs .., poolTake_mgmt ..⟩
      · rw [poolAnswer_bufs, poolTake_free_bufs hfree, SMap.get?_set_same]
      · rw [poolAnswer_bufs, poolTake_free_bufs hfree, SMap.get?_set_other _ _ (Ne.symm hg)]
    · exact gives_alloc_of_none_unpriv hfits hpriv (poolAlloc_of_empty hpriv hcap hfree)
    · subst hjob
      exact gives_alloc_of_none_unpriv hfits hpriv (poolAlloc_of_at_cap hpriv hcap hheld)
    · refine ⟨_, gives_alloc_of_some hfits (poolAlloc_priv_of_stack hpriv hopen hquota hstack), rfl, ?_, ?_⟩
      · rw [poolAnswer_bufs, poolTake_bufs, poolHandle, SMap.get?_set_same]
      · rw [poolAnswer_frees, poolTake_frees, SMap.get?_set_same]
    · exact gives_alloc_of_none_priv hfits hpriv (poolAlloc_priv_of_empty hpriv hopen hquota hstack)
    · exact gives_alloc_of_none_priv hfits hpriv (poolAlloc_priv_of_denied hpriv hdenied)
  · refine ⟨fun b hbuf => ⟨gives_addref hh hr hbuf, gives_addref_of_saturated hh hr hbuf, fun hrefs => ?_, fun hrefs => ?_⟩,
      fun hbuf i hi => ?_⟩
    · have := gives_release hh hr hbuf
      rwa [poolRelease_of_held hbuf hrefs] at this
    · refine ⟨_, gives_release hh hr hbuf, rfl, ?_⟩
      rw [poolRelease_of_last hbuf hrefs]
      obtain ⟨hcounters, hjobs, hmgmt⟩ := poolFreeBuf_rest s.dev h
      refine ⟨fun hwf => ?_, fun g hg => ?_, poolStack_poolFreeBuf s.dev h, hcounters, hjobs, hmgmt⟩
      · simpa only [poolAnswer, poolFreeBuf_bufs] using SMap.get?_del_same hwf h
      · simpa only [poolAnswer, poolFreeBuf_bufs] using SMap.get?_del_other s.dev.pools.bufs (Ne.symm hg)
    · simp only [List.mem_cons, List.not_mem_nil, or_false] at hi
      rcases hi with rfl | rfl
      · exact gives_addref_of_free hh hr hbuf
      · exact gives_release_of_free hh hr hbuf
  · exact (execAlloc_eq p r j s).trans (by rw [allocOk_of_bad hbad]; rfl)

end Sys2Proof.Machine
end

section
/-!
SUPPORT. The block as a whole: every command runs on the units its operands name, where they exist, and faults where they do not (R15).
-/
namespace Sys2Proof.Machine

variable {s : State} {f g : Dev → Dev} {k : PktRx}

/-- An outcome that is a run of some effect where `ok` holds, and the fault of a unit that does not exist where it does not. -/
def RunsWhere (ok : Bool) (s : State) (o : Host.Outcome State Fault Refusal) : Prop := ∃ f, o = onUnit ok s f

/-! ## The shapes of the meanings -/

theorem onLinks_runsWhere (ok : Bool) : RunsWhere ok s (onLinks ok s f) := ⟨_, rfl⟩

/-- A packet of a row that shares its type with others is taken where its kind is the row's. -/
theorem onArrivalKind_runsWhere (t : Nat) (kindOk : Bool) (bad : Dev → Option Nat) :
    RunsWhere (arrivalOk k t && kindOk) s (onArrivalKind k t kindOk bad f s) := by
  cases kindOk with
  | true =>
    rw [Bool.and_true]
    exact ⟨_, rfl⟩
  | false =>
    rw [Bool.and_false]
    exact ⟨f, rfl⟩

theorem onFlit_runsWhere (port type kind : Nat) (x : FlitRx) : RunsWhere (flitTakes port type kind x) s (onFlit port type kind x s g) :=
  onLinks_runsWhere _

theorem flitTakes_data (port : Nat) (x : FlitRx) :
    flitTakes port 0 0 x = (portOk port && (!decide (flitCrc x.hdr x.payload = x.crc) || field x.hdr 63 62 == 0)) := by
  simp [flitTakes]

theorem execDataFlit_runsWhere (port : Nat) (x : FlitRx) : RunsWhere (flitTakes port 0 0 x) s (execDataFlit port x s) := by
  rw [flitTakes_data]
  exact onLinks_runsWhere _

theorem execDownNotice_runsWhere (port : Nat) (x : FlitRx) : RunsWhere (flitTakes port 1 5 x) s (execDownNotice port x s) :=
  onLinks_runsWhere _

theorem execBeacon_runsWhere (port : Nat) (x : FlitRx) (monitor : Bool) :
    RunsWhere (operandsFit (.beacon port x monitor)) s (execBeacon port x monitor s) := by
  cases monitor with
  | true => exact ⟨_, rfl⟩
  | false =>
    rw [execBeacon, if_neg Bool.false_ne_true, operandsFit, if_neg Bool.false_ne_true]
    exact onFlit_runsWhere port 1 4 x

theorem execIdleFlit_runsWhere (port : Nat) (x : FlitRx) : RunsWhere (flitTakes port 2 0 x) s (execIdleFlit port x s) := by
  rw [execIdleFlit]
  exact onFlit_runsWhere port 2 0 x

theorem execNak_runsWhere (port : Nat) (x : FlitRx) : RunsWhere (flitTakes port 1 1 x) s (execNak port x s) := by
  rw [execNak]
  exact onFlit_runsWhere port 1 1 x

theorem execCreditInit_runsWhere (port : Nat) (x : FlitRx) : RunsWhere (flitTakes port 1 2 x) s (execCreditInit port x s) := by
  rw [execCreditInit]
  exact onFlit_runsWhere port 1 2 x

theorem execCreditSnap_runsWhere (port : Nat) (x : FlitRx) : RunsWhere (flitTakes port 1 3 x) s (execCreditSnap port x s) := by
  rw [execCreditSnap]
  exact onFlit_runsWhere port 1 3 x

theorem execPhaseServe_runsWhere : RunsWhere true s (execPhaseServe s) := by
  rw [execPhaseServe]
  exact onLinks_runsWhere true

theorem execBypassReleaseTimeout_runsWhere : RunsWhere true s (execBypassReleaseTimeout s) := by
  rw [execBypassReleaseTimeout]
  exact onLinks_runsWhere true

/-! ## Every command -/

/-- Each of the 243 meanings runs where its operands fit. -/
theorem exec_runsWhere (c : Instr) (s : State) : RunsWhere (operandsFit c) s (exec c s) :=
  match c with
  | .dataFlit port x => execDataFlit_runsWhere port x
  | .beacon port x monitor => execBeacon_runsWhere port x monitor
  | .downNotice port x => execDownNotice_runsWhere port x
  | .idleFlit port x => execIdleFlit_runsWhere port x
  | .nak port x => execNak_runsWhere port x
  | .creditInit port x => execCreditInit_runsWhere port x
  | .creditSnap port x => execCreditSnap_runsWhere port x
  | .sealReq _ | .sealVote _ | .abortReq _ | .sealCommit _ | .sealAck _ | .sealDone _ | .sealAbort _ | .abortAck _ | .sealQuery _
  | .sealState _ | .parityApply _ | .parityDrop _ | .applyAck _ | .dropAck _ | .live _ | .withdrawn _ | .claim _ | .claimAnswer _
  | .ringState _ => onArrivalKind_runsWhere _ _ _
  | .phaseServe => execPhaseServe_runsWhere
  | .bypassReleaseTimeout => execBypassReleaseTimeout_runsWhere
  | .moduleInfo _ | .authSet _ | .patchLoad _ | .portConfig _ | .regRead _ | .regWrite _ | .trapCtl _ | .captureClear _
  | .jobRegRead _ | .telemSet _ | .jobCreate _ | .jobDestroy _ | .jobQuota _ | .jobConfig _ | .jobRead _ | .memberAttach _
  | .memberDetach _ | .regionCreate _ | .regionDestroy _ | .paramLoad _ | .haulSet _ | .haulSub _ | .rankmapLoad _
  | .ruleLoad _ | .schedLoad _ | .schedRead _ | .objFree _ | .ctxOpen _ | .ctxRelease _ | .ctxRead _ | .graphSubmit _
  | .graphRelease _ | .graphCancel _ | .graphRead _ | .syncAlloc _ | .syncFree _ | .syncOp _ | .stepSeal _ | .stepAbort _
  | .stepPoison _ | .snapConfig _ | .snapTake _ | .snapRestore _ | .snapRead _ | .parityGroupSet _ | .rebuildStart _
  | .parityRead _ | .recStart _ | .recStop _ | .replayStart _ | .refMode _ | .cablePlanLoad _ | .cableCheck _ | .cableReport _
  | .spareRead _ | .spareRetire _ | .bypassSet _ | .interimReply | .stagedLoadTimeout | .page _ | .operationOff | .operationOn
  | .clearFaults | .voutMode | .statusWord | .statusVout | .statusIout | .statusInput | .statusTemperature | .statusCml
  | .readVin | .readIin | .readVout | .readIout | .readTemperature1 | .readTemperature2 | .readTemperature3 | .readPout
  | .readPin | .pmbusRevision | .mfrId | .mfrModel | .mfrSerial | .mfrShutdownCause | .pmbusUnsupported _ _ | .smbusReadByte _
  | .smbusReadWord _ | .smbusBlockRead _ _ | .jtagBypass | .idcode | .samplePreload _ | .extest | .highz | .scanEnAssert
  | .scanEnRelease | .inputRise | .inputLow _ | .inputDip | .inputHigh | .inputHighClear | .overcurrent | .railFault
  | .shutdownRestart | .heartbeat | .heartbeatMissing | .overTemperature | .tempRecovered | .thermalWarn _ _ | .inputWarn _
  | .moduleReset | .refClockLoss | .refClockReturn | .pllLockLoss _ | .phaseRom _ _ | .phaseRestore _ _ _ | .phasePatch
  | .phaseDies _ _ | .phaseMemory _ | .phaseLinks | .phaseBypass | .phaseReady | .phaseLimit | .lifeWrite _ _ | .watchdogExpiry
  | .processorFault | .downRetry _ | .trainLock _ _ _ | .trainTimeout _ _ | .initComplete _ | .initTimeout _ | .lossOfLock _ _
  | .retrainLock _ | .retrainTimeout _ | .nakRepeat _ | .replayTimer _ | .creditSnapTimer _ | .beaconTimer _ | .beaconMissing _
  | .flitArbitration _ | .contrib _ _ | .partialRx _ _ | .partialAns _ | .partialRetry | .partialTimeout | .refill _ _
  | .slotClockExpiry _ _ _ | .partialClockExpiry _ _ _ | .keptCopyExpiry _ _ _ _ | .ctxFail _ | .poison _ | .msgAck _
  | .msgResend | .sampleComplete _ _ _ | .builtinTestDone _ _ _ _ | .drainComplete _ | .updateAccept _ _ _
  | .copyWriteComplete _ _ _ | .formNormPartial _ | .normPartial _ | .sealedUpdateBegin _ | .haulData _ | .haulAck _
  | .haulResend | .haulDrop _ | .haulEnd _ _ | .hoistReq _ | .hoistSlabRead _ _ _ | .hoistEnd _ _ _ | .remoteRead _
  | .remoteData _ | .remoteStatus _ | .remoteReadResend | .voteYes _ | .abortScanComplete _ | .parityDelta _ | .parityAck _
  | .vc4Resend | .rebuildReq _ | .rebuildData _ | .slabXfer _ | .xferAck _ | .xferTimeout | .liveTimer | .liveWatchTimeout _
  | .recRead _ | .replayData _ | .replayReqResend | .replayPortTimeout | .transitPacket _ | .routeHoldExpiry | .ringStateTimer
  | .ringMapLapse | .bypassRelease _ | .nodeStart | .alloc _ _ _ | .addref _ _ | .releaseBuf _ _ | .repairTrigger _ | .wear _ _
  | .laneGroupFail _ | .channelRebuildDone _ | .scrub _ | .trapAge | .telemetryPeriod _ | .arpRequest _ _ _ _ | .addrDup _ _ _
  | .neighborDiscovery _ _ _ | .echoRequest _ _ _ _ _ | .mgmtFrameDrop _ | .takeoverComplete | .slewComplete
  | .mgmtLinkChange _ _ | .addressProbeDone _ _ | .recMirrorTimeout _ | .flashWaitTimeout => ⟨_, rfl⟩

/-! ## What such an outcome is -/

variable {ok : Bool} {o : Host.Outcome State Fault Refusal}

theorem RunsWhere.next (h : RunsWhere ok s o) (hok : ok = true) : ∃ t, o = .next t := by
  obtain ⟨f, rfl⟩ := h
  exact ⟨_, onUnit_of_ok hok s f⟩

theorem RunsWhere.fault (h : RunsWhere ok s o) (hok : ok = false) : o = .fault .noSuchUnit := by
  obtain ⟨f, rfl⟩ := h
  rw [hok]
  rfl

theorem RunsWhere.next_or_fault (h : RunsWhere ok s o) : (∃ t, o = .next t) ∨ o = .fault .noSuchUnit := by
  cases hok : ok with
  | true => exact .inl (h.next hok)
  | false => exact .inr (h.fault hok)

theorem RunsWhere.ne_refused (h : RunsWhere ok s o) (r : Refusal) : o ≠ .refused r := by
  obtain ⟨t, rfl⟩ | rfl := h.next_or_fault <;> nofun

theorem RunsWhere.eq_of_fault (h : RunsWhere ok s o) {x : Fault} (hfault : o = .fault x) : x = .noSuchUnit := by
  obtain ⟨t, rfl⟩ | rfl := h.next_or_fault
  · cases hfault
  · cases hfault
    rfl

end Sys2Proof.Machine

namespace Sys2Proof.Machine

/-- Settles O4: every meaning is a run on units that exist (`exec_runsWhere`), and what it keeps is `exec_kin`. -/
theorem commandsKeepQueueTimeAndIdentity : Obligations.CommandsKeepQueueTimeAndIdentity := by
  unfold Obligations.CommandsKeepQueueTimeAndIdentity
  intro c s
  have hruns := exec_runsWhere c s
  refine ⟨fun t hnext => ?_, hruns.next, hruns.fault, hruns.ne_refused, fun x => hruns.eq_of_fault⟩
  obtain ⟨hkin, hqueue⟩ := exec_kin c s t hnext
  exact ⟨hqueue, hkin.time, hkin.fac⟩

end Sys2Proof.Machine
end

section
/-!
SUPPORT. Node starts, trap ageing, the periodic streams and the management ports (R497, R707, R734, R749 to R752).
-/
namespace Sys2Proof.Machine

variable {i : Instr} {s : State} {d : Dev} {p k : Nat} {f : Dev → Dev}

/-! ## The scheduler and the trap records -/

theorem gives_nodeStart_of_none (h : nextNode s.dev = none) : Gives .nodeStart s s.dev := by
  rw [Gives, exec, execNodeStart, onDev_next]
  simp only [h]

theorem gives_nodeStart_of_some {b : Nat × Nat × Nat × Nat} (h : nextNode s.dev = some b) :
    Gives .nodeStart s (poolsSettle (flushAll (settle (startNode s.dev b.2.1 b.2.2.1 b.2.2.2)))) := by
  rw [Gives, exec, execNodeStart, onDev_next]
  simp only [h]

theorem releaseTrap_of_get {r : TrapRec} (h : SMap.get? d.mgmt.traps (d.mgmt.readTseq % 8192) = some r) :
    releaseTrap d = updMgmt (poolRelease d r.handle) fun m =>
      { m with traps := SMap.del m.traps (d.mgmt.readTseq % 8192), readTseq := (d.mgmt.readTseq + 1) % 2 ^ 32 } := by
  simp only [releaseTrap, h]

theorem gives_trapAge {r : TrapRec} (hget : SMap.get? s.dev.mgmt.traps (s.dev.mgmt.readTseq % 8192) = some r)
    (hheld : s.dev.mgmt.readTseq ≠ s.dev.mgmt.nextTseq) (hold : r.at_ + 600000000 ≤ s.dev.nowUs) :
    Gives .trapAge s (bump (releaseTrap s.dev) ctrTrapAged 0) := by
  rw [Gives, exec, execTrapAge, onDev_next]
  simp only [hget, bne_iff_ne.mpr hheld, decide_eq_true hold, Bool.and_self, if_true]

/-! ## Snapshots of the periodic streams -/

theorem drawWords_rest (n : Nat) (d : Dev) : (drawWords n d).2.mgmt = d.mgmt ∧ (drawWords n d).2.jobs = d.jobs := by
  induction n generalizing d with
  | zero => exact ⟨rfl, rfl⟩
  | succ n ih => exact ih (drawFree d).2

theorem streamWords_rest (d : Dev) (b : Nat) : (streamWords d b).2.mgmt = d.mgmt ∧ (streamWords d b).2.jobs = d.jobs := by
  unfold streamWords
  split
  case h_3 => exact drawWords_rest 22 d
  all_goals exact ⟨rfl, rfl⟩

/-- Sink `n` is as it was but for snapshots that now wait, of streams that had none waiting; the jobs are as they were. -/
structure Sampled (n : Nat) (k : Sink) (a : Dev) (l : List (Nat × List W64)) (d : Dev) : Prop where
  sink  : SMap.get? d.mgmt.sinks n = some { k with unsent := k.unsent ++ l }
  fresh : ∀ b, (∃ w, (b, w) ∈ k.unsent) → ∀ w, (b, w) ∉ l
  jobs  : d.jobs = a.jobs

/-- The datagrams of a snapshot of stream `b` for a sink. -/
def snapshotOf (d : Dev) (n b : Nat) (k : Sink) : List (Nat × List W64) :=
  (snapDatagrams (fun off => telemHeader (streamWords d b).2.fac b n k.seq (timeUs (streamWords d b).2) off
    (8 * (streamWords d b).1.length)) 512 0 (streamWords d b).1).map fun g => (b, g)

theorem fst_of_mem_snapshotOf {n b : Nat} {k : Sink} {e : Nat × List W64} (h : e ∈ snapshotOf d n b k) : e.1 = b := by
  obtain ⟨g, -, rfl⟩ := List.mem_map.mp h
  rfl

theorem takeSnapshot_cases {n : Nat} {k : Sink} (hsink : SMap.get? d.mgmt.sinks n = some k) (b : Nat) :
    (takeSnapshot n b d = d ∨ takeSnapshot n b d = bump d ctrTelemSkip n) ∨
    (¬ (k.unsent.any fun e => e.1 == b) = true ∧ takeSnapshot n b d = updMgmt (streamWords d b).2 fun m =>
      { m with sinks := SMap.set m.sinks n { k with unsent := k.unsent ++ snapshotOf d n b k } }) := by
  unfold takeSnapshot
  simp only [hsink]
  split
  · exact .inl (.inl rfl)
  split
  · exact .inl (.inr rfl)
  next hnone => exact .inr ⟨hnone, rfl⟩

theorem takeSnapshot_sampled {n : Nat} {k : Sink} {a : Dev} {l : List (Nat × List W64)} (h : Sampled n k a l d) (b : Nat) :
    ∃ l', Sampled n k a l' (takeSnapshot n b d) := by
  obtain ⟨hsink, hfresh, hjobs⟩ := h
  rcases takeSnapshot_cases hsink b with (htake | htake) | ⟨hnone, htake⟩ <;> rw [htake]
  · exact ⟨l, hsink, hfresh, hjobs⟩
  · exact ⟨l, hsink, hfresh, hjobs⟩
  · refine ⟨l ++ snapshotOf d n b { k with unsent := k.unsent ++ l }, ?_, fun c hc w hw => ?_, (streamWords_rest d b).2.trans hjobs⟩
    · simp only [updMgmt, SMap.get?_set_same, List.append_assoc]
    · rcases List.mem_append.mp hw with hw | hw
      · exact hfresh c hc w hw
      · obtain ⟨v, hv⟩ := hc
        have hc : c = b := fst_of_mem_snapshotOf hw
        exact hnone (List.any_eq_true.mpr ⟨(c, v), List.mem_append_left _ hv, beq_iff_eq.mpr hc⟩)

/-- The snapshots of a sink's streams at the end of its period. -/
def takeSnapshots (n : Nat) (d : Dev) : Dev := forEach [1, 2, 3, 4, 5, 6, 7] d fun d' b => takeSnapshot n b d'

theorem takeSnapshots_sampled {n : Nat} {k : Sink} (hsink : SMap.get? d.mgmt.sinks n = some k) :
    ∃ l, Sampled n k d l (takeSnapshots n d) :=
  forEach_invariant (P := fun e => ∃ l, Sampled n k d l e) (fun _ b ⟨_, h⟩ => takeSnapshot_sampled h b) _
    ⟨[], by rw [hsink, List.append_nil], fun _ _ _ => List.not_mem_nil, rfl⟩

/-- The sink after its period: its SEQ and the time of its next period move on. -/
def sinkNext (k : Sink) : Sink := { k with seq := (k.seq + 1) % 2 ^ 32, lastAt := k.lastAt + k.period }

theorem gives_telemetryPeriod {n : Nat} {k : Sink} (hn : n < 4) (hsink : SMap.get? s.dev.mgmt.sinks n = some k) (hperiod : k.period ≠ 0)
    (hpassed : k.lastAt + k.period ≤ s.dev.nowUs) :
    Gives (.telemetryPeriod n) s (updMgmt (takeSnapshots n s.dev) fun m => { m with sinks := SMap.upd m.sinks n sinkNext }) := by
  have hdue : ¬ ((decide (k.period = 0) || decide (s.dev.nowUs < k.lastAt + k.period)) = true) := by
    simp only [Bool.or_eq_true, decide_eq_true_eq]
    omega
  rw [Gives, exec, execTelemetryPeriod, onUnit_of_ok (decide_eq_true hn)]
  simp only [hsink, if_neg hdue]
  rfl

theorem telemetryPeriod_samples {n : Nat} {k : Sink} (hn : n < 4) (hsink : SMap.get? s.dev.mgmt.sinks n = some k) (hperiod : k.period ≠ 0)
    (hpassed : k.lastAt + k.period ≤ s.dev.nowUs) :
    ∃ t l, Gives (.telemetryPeriod n) s t ∧ t.jobs = s.dev.jobs ∧
      SMap.get? t.mgmt.sinks n = some { k with seq := (k.seq + 1) % 2 ^ 32, lastAt := k.lastAt + k.period, unsent := k.unsent ++ l } ∧
      (∀ b, (∃ w, (b, w) ∈ k.unsent) → ∀ w, (b, w) ∉ l) := by
  have hgives := gives_telemetryPeriod hn hsink hperiod hpassed
  obtain ⟨l, hkept, hfresh, hjobs⟩ := takeSnapshots_sampled hsink
  refine ⟨_, l, hgives, Eq.trans (updMgmt_jobs ..) hjobs, ?_, hfresh⟩
  rw [updMgmt, SMap.get?_upd, if_pos rfl, hkept]
  rfl

/-! ## Requests on a management port -/

theorem gives_of_onMport (hrow : exec i s = onMport p s f) (hp : p < 2) (hup : p ∈ s.dev.mgmt.linkUp) : Gives i s (f s.dev) := by
  rw [Gives, hrow, onMport, onUnit_of_ok (decide_eq_true hp), if_pos (List.contains_iff_mem.mpr hup)]

theorem addrConflict_of_new (huse : k ∉ d.mgmt.inUse) (hdup : k ∉ d.mgmt.dup) :
    addrConflict d k = raiseTrap { d with mgmt := { d.mgmt with dup := insNat k d.mgmt.dup } } { cause := 0xE4 } := by
  simp [addrConflict, huse, hdup, updMgmt]

variable {sha : W64} {spa tpa : W32}

/-- Does an ARP packet's sender claim the port's address, which is not in conflict yet? -/
def Claims (d : Dev) (p : Nat) (sha : W64) (spa : W32) : Prop :=
  spa ≠ 0 ∧ spa = ipv4Of d p ∧ sha ≠ BitVec.setWidth 64 (macOf d p) ∧ 3 * p ∉ d.mgmt.dup

theorem not_claims_iff : (spa = 0 || spa != ipv4Of d p || sha == BitVec.setWidth 64 (macOf d p) || d.mgmt.dup.contains (3 * p)) = true ↔
    ¬ Claims d p sha spa := by
  simp only [Claims, Bool.or_eq_true, decide_eq_true_eq, bne_iff_ne, beq_iff_eq, List.contains_iff_mem, ne_eq,
    Classical.not_and_iff_not_or_not, Classical.not_not, or_assoc]

theorem arpClaim_of_not_claims (h : ¬ Claims d p sha spa) : arpClaim d p sha spa = d := by
  rw [arpClaim, if_pos (not_claims_iff.mpr h)]

theorem arpClaim_of_probing (h : Claims d p sha spa) (huse : 3 * p ∉ d.mgmt.inUse) : arpClaim d p sha spa = addrConflict d (3 * p) := by
  rw [arpClaim, if_neg fun hno => not_claims_iff.mp hno h, if_neg fun hin => huse (List.contains_iff_mem.mp hin)]

theorem arpClaim_of_in_use (h : Claims d p sha spa) (huse : 3 * p ∈ d.mgmt.inUse) : arpClaim d p sha spa =
      output (updMgmt (raiseTrap { d with mgmt := { d.mgmt with dup := insNat (3 * p) d.mgmt.dup } } { cause := 0xE4 })
        fun m => { m with defended := insNat (3 * p) m.defended }) (.arp p (BitVec.setWidth 64 (macOf d p)) spa 0 spa) := by
  rw [arpClaim, if_neg fun hno => not_claims_iff.mp hno h, if_pos (List.contains_iff_mem.mpr huse)]
  rfl

/-- What an ARP request does after its sender's claim. -/
def arpAnswer (d : Dev) (p : Nat) (sha : W64) (spa tpa : W32) : Dev :=
  if tpa = 0 || tpa != ipv4Of d p then d
  else if d.mgmt.inUse.contains (3 * p) then output d (.arp p (BitVec.setWidth 64 (macOf d p)) tpa sha spa)
  else if spa = 0 && sha != BitVec.setWidth 64 (macOf d p) then addrConflict d (3 * p)
  else d

theorem gives_arpRequest (hp : p < 2) (hup : p ∈ s.dev.mgmt.linkUp) (hclaim : ¬ Claims s.dev p sha spa) :
    Gives (.arpRequest p sha spa tpa) s (arpAnswer s.dev p sha spa tpa) := by
  have hgives : Gives (.arpRequest p sha spa tpa) s (arpAnswer (arpClaim s.dev p sha spa) p sha spa tpa) :=
    gives_of_onMport (f := fun d => arpAnswer (arpClaim d p sha spa) p sha spa tpa) rfl hp hup
  rwa [arpClaim_of_not_claims hclaim] at hgives

theorem arpAnswer_of_in_use (htpa : tpa ≠ 0) (hours : tpa = ipv4Of d p) (huse : 3 * p ∈ d.mgmt.inUse) :
    arpAnswer d p sha spa tpa = output d (.arp p (BitVec.setWidth 64 (macOf d p)) tpa sha spa) := by
  have hno : ¬ (decide (tpa = 0) || tpa != ipv4Of d p) = true := by
    rw [← hours, decide_eq_false htpa, bne_self_eq_false]
    exact Bool.false_ne_true
  rw [arpAnswer, if_neg hno, if_pos (List.contains_iff_mem.mpr huse)]

theorem arpAnswer_of_other (h : tpa = 0 ∨ tpa ≠ ipv4Of d p ∨ 3 * p ∉ d.mgmt.inUse ∧ spa ≠ 0) : arpAnswer d p sha spa tpa = d := by
  unfold arpAnswer
  rcases h with h | h | ⟨huse, hspa⟩
  · rw [decide_eq_true h, Bool.true_or, if_pos rfl]
  · rw [bne_iff_ne.mpr h, Bool.or_true, if_pos rfl]
  · rw [if_neg fun hin => huse (List.contains_iff_mem.mp hin), decide_eq_false hspa, Bool.false_and]
    exact ite_self d

theorem arpAnswer_of_probed (htpa : ipv4Of d p ≠ 0) (hmac : sha ≠ BitVec.setWidth 64 (macOf d p)) (huse : 3 * p ∉ d.mgmt.inUse) :
    arpAnswer d p sha 0 (ipv4Of d p) = addrConflict d (3 * p) := by
  rw [arpAnswer, bne_self_eq_false, Bool.or_false, if_neg fun h => htpa (decide_eq_true_eq.mp h),
    if_neg fun hin => huse (List.contains_iff_mem.mp hin), if_pos]
  rw [bne_iff_ne.mpr hmac]
  rfl

/-! ## Neighbour discovery and echo requests -/

variable {a src target : BitVec 128}

/-- What a neighbour discovery packet for an IPv6 address of the port does. -/
def neighborAnswer (d : Dev) (p k : Nat) (src : Option (BitVec 128)) (target : BitVec 128) : Dev :=
  if d.mgmt.inUse.contains k then
    match src with
    | some a => output d (.neighbor p target (macOf d p |>.setWidth 64) (if a = 0 then execNeighborDiscovery.allNodes else a))
    | none => d
  else if src.isNone || src == some 0 then addrConflict d k
  else d

theorem gives_neighborDiscovery {src : Option (BitVec 128)} (hp : p < 2) (hup : p ∈ s.dev.mgmt.linkUp)
    (hkey : addrKey s.dev p target = some k) (hv6 : k % 3 ≠ 0) :
    Gives (.neighborDiscovery p src target) s (neighborAnswer s.dev p k src target) := by
  rw [Gives, exec, execNeighborDiscovery, onMport, onUnit_of_ok (decide_eq_true hp), if_pos (List.contains_iff_mem.mpr hup)]
  simp only [hkey, if_neg hv6]
  rfl

theorem neighborAnswer_of_in_use (huse : k ∈ d.mgmt.inUse) : neighborAnswer d p k (some a) target =
    output d (.neighbor p target (BitVec.setWidth 64 (macOf d p)) (if a = 0 then execNeighborDiscovery.allNodes else a)) := by
  rw [neighborAnswer, if_pos (List.contains_iff_mem.mpr huse)]

theorem neighborAnswer_of_advertised (huse : k ∈ d.mgmt.inUse) : neighborAnswer d p k none target = d := by
  rw [neighborAnswer, if_pos (List.contains_iff_mem.mpr huse)]

theorem neighborAnswer_of_probed {src : Option (BitVec 128)} (huse : k ∉ d.mgmt.inUse) (hsrc : src ∈ [none, some (0 : BitVec 128)]) :
    neighborAnswer d p k src target = addrConflict d k := by
  have hfree : (src.isNone || src == some 0) = true := by
    simp only [List.mem_cons, List.not_mem_nil, or_false] at hsrc
    rcases hsrc with rfl | rfl <;> rfl
  rw [neighborAnswer.eq_def, if_neg fun hin => huse (List.contains_iff_mem.mp hin), if_pos hfree]

theorem neighborAnswer_of_not_in_use (huse : k ∉ d.mgmt.inUse) (ha : a ≠ 0) : neighborAnswer d p k (some a) target = d := by
  have hfree : ¬ ((some a).isNone || some a == some 0) = true := by
    simpa using ha
  rw [neighborAnswer, if_neg fun hin => huse (List.contains_iff_mem.mp hin), if_neg hfree]

theorem addrInUse_iff (hup : p ∈ d.mgmt.linkUp) (hkey : addrKey d p a = some k) : addrInUse d p a = true ↔ k ∈ d.mgmt.inUse := by
  simp [addrInUse, hup, hkey]

theorem gives_echoRequest {id : W32} {data : List Byte} (hp : p < 2) (hup : p ∈ s.dev.mgmt.linkUp) :
    Gives (.echoRequest p src a id data) s (if addrInUse s.dev p a then output s.dev (.echo p src id data) else s.dev) :=
  gives_of_onMport (f := fun d => if addrInUse d p a then output d (.echo p src id data) else d) rfl hp hup

/-! ## The check of addresses -/

/-- An address that is set and not in conflict comes into use. -/
def useAddr (d : Dev) (k : Nat) (set : Bool) : Dev :=
  if set && !d.mgmt.dup.contains k then updMgmt d fun m => { m with inUse := insNat k m.inUse } else d

theorem useAddr_of_set (hdup : k ∉ d.mgmt.dup) : useAddr d k true = updMgmt d fun m => { m with inUse := insNat k m.inUse } := by
  rw [useAddr, if_pos (by simpa using hdup)]

theorem useAddr_of_unset : useAddr d k false = d := by
  rw [useAddr, if_neg (by simp)]

theorem gives_addressProbeDone_v6 (hp : p < 2) (hup : p ∈ s.dev.mgmt.linkUp) : Gives (.addressProbeDone p true) s
    (useAddr (useAddr s.dev (3 * p + 1) true) (3 * p + 2) (ipv6Of s.dev p != 0)) :=
  gives_of_onMport (f := fun d => useAddr (useAddr d (3 * p + 1) true) (3 * p + 2) (ipv6Of d p != 0)) rfl hp hup

/-- The two announcements of an IPv4 address. -/
def announce (d : Dev) (p : Nat) (mac : W64) (x : W32) : Dev := forEach [0, 1] d fun e _ => output e (.arp p mac x 0 x)

theorem gives_addressProbeDone_v4 (hp : p < 2) (hup : p ∈ s.dev.mgmt.linkUp) (hset : ipv4Of s.dev p ≠ 0) (hdup : 3 * p ∉ s.dev.mgmt.dup) :
    Gives (.addressProbeDone p false) s
      (announce (updMgmt s.dev fun m => { m with inUse := insNat (3 * p) m.inUse }) p (BitVec.setWidth 64 (macOf s.dev p))
        (ipv4Of s.dev p)) := by
  have hcheck : (ipv4Of s.dev p != 0 && !s.dev.mgmt.dup.contains (3 * p)) = true := by
    rw [bne_iff_ne.mpr hset]
    simpa using hdup
  rw [← useAddr_of_set hdup]
  rw [Gives, exec, execAddressProbeDone, onMport, onUnit_of_ok (decide_eq_true hp), if_pos (List.contains_iff_mem.mpr hup)]
  simp only [if_pos hcheck, if_neg Bool.false_ne_true]
  rfl

/-! ## A management link comes up or goes down -/

/-- The addresses of the other port, which stay in use. -/
def usedElsewhere (d : Dev) (p : Nat) : List Nat := d.mgmt.inUse.filter fun k => k / 3 != p

theorem gives_mgmtLinkChange_up (hp : p < 2) (hmacs : macsUp s.dev = true) : Gives (.mgmtLinkChange p true) s
    (probeAddrs { s.dev with mgmt := { s.dev.mgmt with linkUp := insNat p s.dev.mgmt.linkUp, inUse := usedElsewhere s.dev p } } p) := by
  rw [Gives, exec, execMgmtLinkChange, onUnit_of_ok (decide_eq_true hp)]
  simp only [if_true, if_pos hmacs]
  rfl

theorem gives_mgmtLinkChange_unpowered (hp : p < 2) (hmacs : macsUp s.dev = false) : Gives (.mgmtLinkChange p true) s s.dev := by
  rw [Gives, exec, execMgmtLinkChange, onUnit_of_ok (decide_eq_true hp)]
  simp only [if_true, hmacs, if_neg Bool.false_ne_true]

theorem gives_mgmtLinkChange_down (hp : p < 2) : Gives (.mgmtLinkChange p false) s
    { s.dev with mgmt := { s.dev.mgmt with linkUp := delNat p s.dev.mgmt.linkUp, inUse := usedElsewhere s.dev p } } :=
  onUnit_of_ok (decide_eq_true hp) ..

/-- The probes for a static IPv4 address that is not in conflict. -/
def probeV4 (d : Dev) (p : Nat) : Dev :=
  if ipv4Of d p = 0 ∨ 3 * p ∈ d.mgmt.dup then d
  else forEach [0, 1, 2] d fun e _ => output e (.arp p (BitVec.setWidth 64 (macOf d p)) 0 0 (ipv4Of d p))

theorem probeAddrs_eq (d : Dev) (p : Nat) : probeAddrs d p =
    solicitAddr (solicitAddr (probeV4 d p) p (3 * p + 1) (linkLocalOf d p)) p (3 * p + 2) (ipv6Of d p) := by
  have hiff : (decide (ipv4Of d p = 0) || d.mgmt.dup.contains (3 * p)) = true ↔ ipv4Of d p = 0 ∨ 3 * p ∈ d.mgmt.dup := by
    simp only [Bool.or_eq_true, decide_eq_true_eq, List.contains_iff_mem]
  simp only [probeAddrs, probeV4, hiff]
  rfl

theorem solicitAddr_eq (d : Dev) (p k : Nat) (x : BitVec 128) :
    solicitAddr d p k x = if x = 0 ∨ k ∈ d.mgmt.dup then d else output d (.solicit p x) := by
  simp only [solicitAddr, Bool.or_eq_true, decide_eq_true_eq, List.contains_iff_mem]

end Sys2Proof.Machine

namespace Sys2Proof.Machine

/-- Settles O60: each row is the equation of its own case. -/
theorem nodesTrapsAndManagementPorts : Obligations.NodesTrapsAndManagementPorts := by
  unfold Obligations.NodesTrapsAndManagementPorts
  intro s d
  refine ⟨gives_nodeStart_of_none, fun b => gives_nodeStart_of_some, fun r hget hheld hold => ?_,
    fun n k => telemetryPeriod_samples, fun p hp hup => ?_, fun p hp => ?_, fun p hp => ?_⟩
  · have hgives := gives_trapAge hget hheld hold
    rwa [releaseTrap_of_get hget] at hgives
  · refine ⟨fun sha spa tpa hno => ?_, fun sha hset hmac huse hdup => ?_, fun sha spa hspa hours hmac hdup => ?_,
      fun src tgt k hkey hv6 => ?_, fun src dst id data k hkey => ?_, ?_, fun hset hdup => ?_, fun hdup hunset => ?_,
      fun hdup hdup' hset => ?_⟩
    · have hgives := gives_arpRequest (sha := sha) (spa := spa) (tpa := tpa) hp hup fun ⟨_, hours, hmac, _⟩ =>
        hno.elim (absurd hours) (absurd · hmac)
      refine ⟨fun htpa hours huse => ?_, fun hother => ?_⟩
      · rwa [arpAnswer_of_in_use htpa hours huse] at hgives
      · rwa [arpAnswer_of_other hother] at hgives
    · have hgives := gives_arpRequest (sha := sha) (spa := 0) (tpa := ipv4Of d p) hp hup fun ⟨hspa, _⟩ => hspa rfl
      rwa [arpAnswer_of_probed hset hmac huse, addrConflict_of_new huse hdup] at hgives
    · have hclaims : Claims d p sha spa := ⟨hspa, hours, hmac, hdup⟩
      have hgives : Gives (.addrDup p sha spa) s (arpClaim d p sha spa) :=
        gives_of_onMport (f := fun d => arpClaim d p sha spa) rfl hp hup
      refine ⟨fun huse => ?_, fun huse => ?_⟩
      · rwa [arpClaim_of_probing hclaims huse, addrConflict_of_new huse hdup] at hgives
      · rwa [arpClaim_of_in_use hclaims huse] at hgives
    · have hgives (src) : Gives (.neighborDiscovery p src tgt) s (neighborAnswer d p k src tgt) :=
        gives_neighborDiscovery hp hup hkey hv6
      refine ⟨fun huse hsrc => ?_, fun huse => ?_, fun huse => ?_, fun src hsrc huse hdup => ?_, fun huse hsrc => ?_⟩
      · simpa only [neighborAnswer_of_in_use huse, if_neg hsrc] using hgives (some src)
      · have hall := hgives (some 0)
        rwa [neighborAnswer_of_in_use huse, if_pos rfl] at hall
      · simpa only [neighborAnswer_of_advertised huse] using hgives none
      · simpa only [neighborAnswer_of_probed huse hsrc, addrConflict_of_new huse hdup] using hgives src
      · simpa only [neighborAnswer_of_not_in_use huse hsrc] using hgives (some src)
    · have hgives := gives_echoRequest (src := src) (a := dst) (id := id) (data := data) hp hup
      refine ⟨fun huse => ?_, fun huse => ?_⟩
      · rwa [if_pos ((addrInUse_iff hup hkey).mpr huse)] at hgives
      · rwa [if_neg (mt (addrInUse_iff hup hkey).mp huse)] at hgives
    · exact gives_of_onMport (f := fun d => bump d ctrMgmtFrameDrop p) rfl hp hup
    · exact gives_addressProbeDone_v4 hp hup hset hdup
    · have hgives := gives_addressProbeDone_v6 hp hup
      have hno : (ipv6Of s.dev p != 0) = false := by rw [hunset, bne_self_eq_false]
      rwa [hno, useAddr_of_unset, useAddr_of_set hdup] at hgives
    · have hgives := gives_addressProbeDone_v6 hp hup
      rwa [bne_iff_ne.mpr hset, useAddr_of_set hdup, useAddr_of_set (by exact hdup')] at hgives
  · intro used
    refine ⟨fun hmacs => ?_, gives_mgmtLinkChange_unpowered hp, fun e => solicitAddr_eq e p, gives_mgmtLinkChange_down hp⟩
    have hgives := gives_mgmtLinkChange_up hp hmacs
    rwa [probeAddrs_eq] at hgives
  · exact if_neg (by simp [Nat.not_lt.mpr hp])

end Sys2Proof.Machine
end

section
/-!
SUPPORT. The rows of Lomile Tensor Link (chapter 15): training, received flits, the timers of a link and its transmitter.
-/
namespace Sys2Proof.Machine

variable {s : State} {d : Dev} {p : Nat} {f : FlitRx}

theorem portOk_of_lt (hp : p < 288) : portOk p = true := decide_eq_true hp

theorem portOk_of_ge (hp : 288 ≤ p) : portOk p = false := decide_eq_false (Nat.not_lt.mpr hp)

/-! ## Rows that act where a condition holds -/

variable {i : Instr} {c : Dev → Bool} {g : Dev → Dev}

theorem gives_of_port (hp : p < 288) (hc : c s.dev = true) (hrow : exec i s = onUnit (portOk p) s fun d => if c d then g d else d) :
    Gives i s (g s.dev) := by
  rw [Gives, hrow, onUnit_of_ok (portOk_of_lt hp), if_pos hc]

theorem gives_of_link (hp : p < 288) (hc : c s.dev = true) (hrow : exec i s = onLinks (portOk p) s fun d => if c d then g d else d) :
    Gives i s (settleLinks s.dev (g s.dev)) := by
  rw [Gives, hrow, onLinks_of_ok (portOk_of_lt hp), if_pos hc]

/-! ## Training (R518 to R522) -/

/-- A port in DOWN that may train again. -/
def mayTrain (d : Dev) (p : Nat) : Bool :=
  (getPort d p).st == .down && (getPort d p).role != 0 && linksOn d && !portLost d p &&
    (!(getPort d p).failed || decide ((getPort d p).since + 1000000 ≤ d.nowUs))

theorem gives_downRetry (hp : p < 288) (hmay : mayTrain s.dev p = true) : Gives (.downRetry p) s (enterTrain s.dev p) :=
  gives_of_port (c := fun d => mayTrain d p) (g := fun d => enterTrain d p) hp hmay rfl

theorem gives_trainTimeout {lock : Bool} (hp : p < 288) (hst : (getPort s.dev p).st = .train)
    (hold : (getPort s.dev p).since + 200000 ≤ s.dev.nowUs) :
    Gives (.trainTimeout p lock) s (trainFail s.dev p (if lock then 1 else 3)) :=
  gives_of_port (c := fun d => (getPort d p).st == .train && decide ((getPort d p).since + 200000 ≤ d.nowUs))
    (g := fun d => trainFail d p (if lock then 1 else 3)) hp (by rw [hst, decide_eq_true hold]; rfl) rfl

/-- Does a port, as it leaves TRAIN, say first that its pair has been released (R581)? -/
def noticesRelease (d : Dev) (p : Nat) : Bool :=
  decide (256 ≤ p) && (d.fabric.pairs.getD ((p - 256) % 16) {}).st == .releasing &&
    decide (d.nowUs ≤ (d.fabric.pairs.getD ((p - 256) % 16) {}).startAt + 2000000)

theorem noticesRelease_iff : noticesRelease d p = true ↔
    256 ≤ p ∧ (d.fabric.pairs.getD ((p - 256) % 16) {}).st = .releasing ∧
      d.nowUs ≤ (d.fabric.pairs.getD ((p - 256) % 16) {}).startAt + 2000000 := by
  simp only [noticesRelease, Bool.and_eq_true, decide_eq_true_eq, beq_iff_eq, and_assoc]

/-- What TRAIN_LOCK leaves of a port. -/
def locked (x : Port) (now : Nat) (kept notice : Bool) : Port :=
  let y := { enterInit x now with eqStored := kept, eqFull := false }
  if notice then { y with ctl := .downNotice :: y.ctl } else y

theorem gives_trainLock {st : Bool} {ws : List W64} (hp : p < 288) (htrain : (getPort s.dev p).st = .train) :
    let kept := st && (flashRead s.dev 0x11).isSome && !(getPort s.dev p).eqFull
    Gives (.trainLock p st ws) s (updPort (if kept then s.dev else eqWriteBack s.dev p ws) p
      fun x => locked x s.dev.nowUs kept (noticesRelease s.dev p)) := by
  intro kept
  have hst : ¬ ((getPort s.dev p).st != .train) = true := by rw [htrain]; decide
  rw [Gives, exec, execTrainLock, onUnit_of_ok (portOk_of_lt hp)]
  dsimp only
  rw [if_neg hst]
  rfl

theorem gives_initComplete (hp : p < 288) (hinit : (getPort s.dev p).st = .init) (hcs : (getPort s.dev p).credSent = true)
    (hcr : (getPort s.dev p).credRcvd = true) (hbs : (getPort s.dev p).beacSent = true) (hbr : (getPort s.dev p).beacRcvd = true)
    (hlow : (getPort s.dev p).credLow = false) :
    Gives (.initComplete p) s (settleLinks s.dev
      (enterUp (updPort s.dev p fun x => { x with snapAt := s.dev.nowUs, beacAt := s.dev.nowUs }) p)) :=
  gives_of_link (c := fun d => (getPort d p).st == .init && (getPort d p).credSent && (getPort d p).credRcvd && (getPort d p).beacSent &&
      (getPort d p).beacRcvd && !(getPort d p).credLow)
    (g := fun d => enterUp (updPort d p fun x => { x with snapAt := d.nowUs, beacAt := d.nowUs }) p) hp
    (by simp [hinit, hcs, hcr, hbs, hbr, hlow]) rfl

theorem gives_initTimeout (hp : p < 288) (hinit : (getPort s.dev p).st = .init) (hold : (getPort s.dev p).since + 1000 ≤ s.dev.nowUs) :
    Gives (.initTimeout p) s (settleLinks s.dev (trainFail s.dev p (if (getPort s.dev p).credLow then 2 else 3))) :=
  gives_of_link (c := fun d => (getPort d p).st == .init && decide ((getPort d p).since + 1000 ≤ d.nowUs))
    (g := fun d => trainFail d p (if (getPort d p).credLow then 2 else 3)) hp (by rw [hinit, decide_eq_true hold]; rfl) rfl

theorem enterRetrain_of_up {lanes : Nat} (hup : (getPort d p).st = .up) : enterRetrain d p lanes =
    updPort (bump (leftUp (stallTick d p) p) ctrRetrains p) p fun x =>
      { x with st := .retrain, since := d.nowUs, resends := 0, laneLock := lanes % 256 } := by
  rw [enterRetrain, hup, if_pos (by decide)]

theorem gives_lossOfLock {lanes : Nat} (hp : p < 288) : Gives (.lossOfLock p lanes) s (settleLinks s.dev (enterRetrain s.dev p lanes)) :=
  onLinks_of_ok (portOk_of_lt hp) ..

theorem gives_retrainLock (hp : p < 288) (hst : (getPort s.dev p).st = .retrain) :
    Gives (.retrainLock p) s (settleLinks s.dev (enterUp s.dev p)) :=
  gives_of_link (c := fun d => (getPort d p).st == .retrain) (g := fun d => enterUp d p) hp (by rw [hst]; rfl) rfl

theorem gives_retrainTimeout (hp : p < 288) (hst : (getPort s.dev p).st = .retrain)
    (hold : (getPort s.dev p).since + 100000 ≤ s.dev.nowUs) :
    Gives (.retrainTimeout p) s (settleLinks s.dev (portDown s.dev p (some 5))) :=
  gives_of_link (c := fun d => (getPort d p).st == .retrain && decide ((getPort d p).since + 100000 ≤ d.nowUs))
    (g := fun d => portDown d p (some 5)) hp (by rw [hst, decide_eq_true hold]; rfl) rfl

/-! ## Received flits (R523 to R526) -/

/-- What the FEC of a received flit counts. -/
def fecCounted (d : Dev) (p : Nat) (f : FlitRx) : Dev :=
  let a := if f.fecCorr = 0 then d else bumpBy d ctrFecCorr p f.fecCorr
  if f.fecUnc = 0 then a else updPort (bumpBy a ctrFecUncorr p f.fecUnc) p fun x =>
    { x with fecLost := (d.nowUs, f.fecUnc) :: x.fecLost.filter fun e => decide (d.nowUs < e.1 + 3600000000) }

theorem flitArrives_of_pass (hcrc : flitCrc f.hdr f.payload = f.crc) : flitArrives d p f = (fecCounted d p f, true) := by
  rw [flitArrives, if_pos hcrc]
  rfl

theorem flitArrives_of_fail (hcrc : flitCrc f.hdr f.payload ≠ f.crc) : flitArrives d p f = (bump (fecCounted d p f) ctrCrcErr p, false) := by
  rw [flitArrives, if_neg hcrc]
  rfl

theorem flitArrives_nowUs (d : Dev) (p : Nat) (f : FlitRx) : (flitArrives d p f).1.nowUs = d.nowUs :=
  (flitArrives_kin (Kin.refl d)).time

variable {type kind : Nat}

/-- What an idle or control flit does to a port out of DOWN. -/
def flitTaken (d : Dev) (p : Nat) (f : FlitRx) (g : Dev → Dev) : Dev :=
  if (flitArrives d p f).2 && flitsOn d p then g (takeHeader (flitArrives d p f).1 p f.hdr) else (flitArrives d p f).1

theorem gives_of_onFlit (htakes : flitTakes p type kind f = true) (hst : (getPort s.dev p).st ≠ .down)
    (hrow : exec i s = onFlit p type kind f s g) : Gives i s (settleLinks s.dev (flitTaken s.dev p f g)) := by
  have hdown : ¬ ((getPort s.dev p).st == .down) = true := fun h => hst (beq_iff_eq.mp h)
  refine hrow.trans ((onLinks_of_ok htakes ..).trans ?_)
  dsimp only
  rw [if_neg hdown]
  rfl

theorem flitTakes_of_fail (hp : p < 288) (hcrc : flitCrc f.hdr f.payload ≠ f.crc) : flitTakes p type kind f = true := by
  simp [flitTakes, portOk_of_lt hp, hcrc]

theorem flitTakes_of_kind (hp : p < 288) (htype : field f.hdr 63 62 = type) (hkind : type ≠ 1 ∨ field (flitWord f 0) 63 56 = kind) :
    flitTakes p type kind f = true := by
  rcases hkind with h | h <;> simp [flitTakes, portOk_of_lt hp, htype, h]

/-- A flit whose CRC fails is counted, whatever it shows. -/
theorem gives_flit_of_fail (hp : p < 288) (hst : (getPort s.dev p).st ≠ .down) (hcrc : flitCrc f.hdr f.payload ≠ f.crc)
    (hrow : exec i s = onFlit p type kind f s g) : Gives i s (settleLinks s.dev (bump (fecCounted s.dev p f) ctrCrcErr p)) := by
  have hgives := gives_of_onFlit (flitTakes_of_fail hp hcrc) hst hrow
  rwa [flitTaken, flitArrives_of_fail hcrc, if_neg (by simp)] at hgives

/-- A flit whose CRC passes on a link that exchanges flits has its kind's effect after its header's. -/
theorem gives_flit_of_pass (htakes : flitTakes p type kind f = true) (hst : (getPort s.dev p).st ≠ .down)
    (hcrc : flitCrc f.hdr f.payload = f.crc) (hon : flitsOn s.dev p = true) (hrow : exec i s = onFlit p type kind f s g) :
    Gives i s (settleLinks s.dev (g (takeHeader (fecCounted s.dev p f) p f.hdr))) := by
  have hgives := gives_of_onFlit htakes hst hrow
  rwa [flitTaken, flitArrives_of_pass hcrc, hon, if_pos (by simp)] at hgives

/-- What a DOWN_NOTICE does to a port out of DOWN. -/
def noticeTaken (d : Dev) (p : Nat) (f : FlitRx) : Dev :=
  if (flitArrives d p f).2 then portDown (takeHeader (flitArrives d p f).1 p f.hdr) p (some 4) else (flitArrives d p f).1

theorem gives_downNotice (htakes : flitTakes p 1 5 f = true) (hst : (getPort s.dev p).st ≠ .down) :
    Gives (.downNotice p f) s (settleLinks s.dev (noticeTaken s.dev p f)) := by
  have hdown : ¬ ((getPort s.dev p).st == .down) = true := fun h => hst (beq_iff_eq.mp h)
  refine (onLinks_of_ok htakes ..).trans ?_
  dsimp only
  rw [if_neg hdown]
  rfl

theorem gives_downNotice_of_fail (hp : p < 288) (hst : (getPort s.dev p).st ≠ .down) (hcrc : flitCrc f.hdr f.payload ≠ f.crc) :
    Gives (.downNotice p f) s (settleLinks s.dev (bump (fecCounted s.dev p f) ctrCrcErr p)) := by
  have hgives := gives_downNotice (flitTakes_of_fail hp hcrc) hst
  rwa [noticeTaken, flitArrives_of_fail hcrc, if_neg Bool.false_ne_true] at hgives

theorem gives_downNotice_of_pass (htakes : flitTakes p 1 5 f = true) (hst : (getPort s.dev p).st ≠ .down)
    (hcrc : flitCrc f.hdr f.payload = f.crc) :
    Gives (.downNotice p f) s (settleLinks s.dev (portDown (takeHeader (fecCounted s.dev p f) p f.hdr) p (some 4))) := by
  have hgives := gives_downNotice htakes hst
  rwa [noticeTaken, flitArrives_of_pass hcrc, if_pos rfl] at hgives

/-! The rows of the flits that a port takes by their kind. -/

theorem exec_idleFlit : exec (.idleFlit p f) s = onFlit p 2 0 f s fun d => d := by rw [exec, execIdleFlit]

theorem exec_nak : exec (.nak p f) s = onFlit p 1 1 f s fun d => beginResend d p (field (flitWord f 0) 15 0) := by rw [exec, execNak]

/-- The partner's advertised credits are taken in INIT. -/
def creditInitTaken (d : Dev) (p : Nat) (f : FlitRx) : Dev :=
  if (getPort d p).st != .init then d
  else updPort d p fun x =>
    { (List.range 8).foldl (fun y v => setTxVc y v { txVc y v with adv := creditOf f v }) x with
      credRcvd := true, credLow := x.role == 1 && (List.range 8).any fun v => decide (creditOf f v < minCredits d p v) }

theorem exec_creditInit : exec (.creditInit p f) s = onFlit p 1 2 f s fun d => creditInitTaken d p f := by
  rw [exec, execCreditInit]
  rfl

theorem creditInitTaken_of_init (h : (getPort d p).st = .init) : creditInitTaken d p f = updPort d p fun x =>
    { (List.range 8).foldl (fun y v => setTxVc y v { txVc y v with adv := creditOf f v }) x with
      credRcvd := true, credLow := x.role == 1 && (List.range 8).any fun v => decide (creditOf f v < minCredits d p v) } := by
  rw [creditInitTaken, h, if_neg (by decide)]

/-- The partner's freed counts are taken. -/
def creditSnapTaken (d : Dev) (p : Nat) (f : FlitRx) : Dev :=
  stallTick (updPort d p fun x => (List.range 8).foldl (fun y v => setTxVc y v { txVc y v with freed := creditOf f v }) x) p

theorem exec_creditSnap : exec (.creditSnap p f) s = onFlit p 1 3 f s fun d => creditSnapTaken d p f := by
  rw [exec, execCreditSnap]
  rfl

theorem exec_beacon : exec (.beacon p f false) s = onFlit p 1 4 f s fun d => portSees d p (beaconOf f) := by
  rw [exec, execBeacon, if_neg Bool.false_ne_true]

theorem gives_beacon_of_monitor (hp : p < 288) (hside : 256 ≤ p) (htype : field f.hdr 63 62 = 1) (hkind : field (flitWord f 0) 63 56 = 4)
    (hon : linksOn s.dev = true) (hcrc : flitCrc f.hdr f.payload = f.crc) :
    Gives (.beacon p f true) s (settleLinks s.dev (monitorSees s.dev p (beaconOf f))) := by
  have hok : (portOk p && decide (256 ≤ p) && field f.hdr 63 62 == 1 && field (flitWord f 0) 63 56 == 4) = true := by
    simp [portOk_of_lt hp, hside, htype, hkind]
  have hgo : (linksOn s.dev && decide (flitCrc f.hdr f.payload = f.crc)) = true := by rw [hon, decide_eq_true hcrc]; rfl
  rw [Gives, exec, execBeacon, if_pos rfl, onLinks_of_ok hok, if_pos hgo]

/-! ## Data flits (R527, R528, R533, R542) -/

/-- What a data flit does to a port out of DOWN. -/
def dataTaken (d : Dev) (p : Nat) (f : FlitRx) : Dev :=
  if !flitsOn d p then (flitArrives d p f).1
  else if (flitArrives d p f).2 && field f.hdr 15 0 == (getPort d p).rxSeq then
    acceptFlit (takeHeader (flitArrives d p f).1 p f.hdr) p f
  else if (getPort d p).nakAt.isNone then sendNak (flitArrives d p f).1 p
  else (flitArrives d p f).1

theorem gives_dataFlit (hp : p < 288) (hst : (getPort s.dev p).st ≠ .down)
    (htype : flitCrc f.hdr f.payload = f.crc → field f.hdr 63 62 = 0) :
    Gives (.dataFlit p f) s (settleLinks s.dev (dataTaken s.dev p f)) := by
  have htakes : (portOk p && (!decide (flitCrc f.hdr f.payload = f.crc) || field f.hdr 63 62 == 0)) = true := by
    by_cases hcrc : flitCrc f.hdr f.payload = f.crc
    · simp [portOk_of_lt hp, hcrc, htype hcrc]
    · simp [portOk_of_lt hp, hcrc]
  have hdown : ¬ ((getPort s.dev p).st == .down) = true := fun h => hst (beq_iff_eq.mp h)
  refine (onLinks_of_ok htakes ..).trans ?_
  dsimp only
  rw [if_neg hdown]
  rfl

theorem dataTaken_of_off (hoff : flitsOn d p = false) : dataTaken d p f = (flitArrives d p f).1 := by
  rw [dataTaken, hoff, if_pos (by decide)]

theorem dataTaken_of_on (hon : flitsOn d p = true) : dataTaken d p f =
    if (flitArrives d p f).2 && field f.hdr 15 0 == (getPort d p).rxSeq then acceptFlit (takeHeader (flitArrives d p f).1 p f.hdr) p f
    else if (getPort d p).nakAt.isNone then sendNak (flitArrives d p f).1 p
    else (flitArrives d p f).1 := by
  rw [dataTaken, hon, if_neg (by decide)]

theorem dataTaken_of_expected (hon : flitsOn d p = true) (hcrc : flitCrc f.hdr f.payload = f.crc)
    (hseq : field f.hdr 15 0 = (getPort d p).rxSeq) :
    dataTaken d p f = acceptFlit (takeHeader (flitArrives d p f).1 p f.hdr) p f := by
  have hpass : (flitArrives d p f).2 = true := by rw [flitArrives_of_pass hcrc]
  rw [dataTaken_of_on hon, hpass, if_pos (by rw [beq_iff_eq.mpr hseq]; rfl)]

theorem dataTaken_of_unexpected (hon : flitsOn d p = true)
    (hbad : flitCrc f.hdr f.payload ≠ f.crc ∨ field f.hdr 15 0 ≠ (getPort d p).rxSeq) :
    dataTaken d p f = if (getPort d p).nakAt.isNone then sendNak (flitArrives d p f).1 p else (flitArrives d p f).1 := by
  have hno : ((flitArrives d p f).2 && field f.hdr 15 0 == (getPort d p).rxSeq) = false := by
    rcases hbad with hcrc | hseq
    · rw [flitArrives_of_fail hcrc]
      rfl
    · rw [beq_eq_false_iff_ne.mpr hseq, Bool.and_false]
  rw [dataTaken_of_on hon, hno, if_neg Bool.false_ne_true]

theorem dataTaken_of_first_gap (hon : flitsOn d p = true)
    (hbad : flitCrc f.hdr f.payload ≠ f.crc ∨ field f.hdr 15 0 ≠ (getPort d p).rxSeq) (hnak : (getPort d p).nakAt = none) :
    dataTaken d p f = sendNak (flitArrives d p f).1 p := by
  rw [dataTaken_of_unexpected hon hbad, hnak, if_pos (by simp)]

theorem dataTaken_of_asked {t : Nat} (hon : flitsOn d p = true)
    (hbad : flitCrc f.hdr f.payload ≠ f.crc ∨ field f.hdr 15 0 ≠ (getPort d p).rxSeq) (hnak : (getPort d p).nakAt = some t) :
    dataTaken d p f = (flitArrives d p f).1 := by
  rw [dataTaken_of_unexpected hon hbad, hnak, if_neg (by simp)]

/-- An accepted data flit, its stream's outcome read through its parts. -/
theorem acceptFlit_eq (d : Dev) (p : Nat) (f : FlitRx) : acceptFlit d p f =
    let x := getPort d p
    let v := field f.hdr 61 59
    let r := rxVc x v
    let ok := decide (0 < (r.adv + r.freed + (65536 - r.got % 65536)) % 65536)
    let env := if hasEnvelope x.role v then 2 else 0
    let t := takePayload env r ok (field f.hdr 58 53) f.payload
    let a := bump (setPort d p { setRxVc x v t.1 with rxSeq := (x.rxSeq + 1) % 65536, nakAt := none }) ctrFlitsRx p
    let b := updPort (packetsArrive p v r.got t.2.2 (if ok then a else protocolTrap (bump a ctrCreditViol p) p) t.2.1.packets) p settleFreed
    policeDie (if t.2.1.framing then malformed (bump b ctrFramingErr p) p v 6 (unitWords (t.2.1.rest.drop env)) else b) (p / 16) := by
  rw [acceptFlit]
  dsimp only
  generalize takePayload _ _ _ _ _ = t
  rfl

/-! ## Timers and transmission (R525, R526, R528, R529, R537, R575) -/

theorem gives_nakRepeat {t : Nat} (hp : p < 288) (hnak : (getPort s.dev p).nakAt = some t) (hon : flitsOn s.dev p = true)
    (hold : t + 1 ≤ s.dev.nowUs) : Gives (.nakRepeat p) s (sendNak s.dev p) := by
  have hgo : (flitsOn s.dev p && decide (t + 1 ≤ s.dev.nowUs)) = true := by rw [hon, decide_eq_true hold]; rfl
  rw [Gives, exec, execNakRepeat, onUnit_of_ok (portOk_of_lt hp)]
  simp only [hnak, if_pos hgo]

theorem gives_replayTimer {o : Flit} {r : List Flit} (hp : p < 288) (hreplay : (getPort s.dev p).replay = o :: r)
    (hup : (getPort s.dev p).st = .up) (hold : (getPort s.dev p).ackAt + 20 ≤ s.dev.nowUs) :
    Gives (.replayTimer p) s (settleLinks s.dev (beginResend s.dev p o.seq)) := by
  have hgo : ((getPort s.dev p).st == .up && decide ((getPort s.dev p).ackAt + 20 ≤ s.dev.nowUs)) = true := by
    rw [hup, decide_eq_true hold]
    rfl
  rw [Gives, exec, execReplayTimer, onLinks_of_ok (portOk_of_lt hp)]
  simp only [hreplay, if_pos hgo]

theorem gives_creditSnapTimer (hp : p < 288) (hup : (getPort s.dev p).st = .up) (hold : (getPort s.dev p).snapAt + 10 ≤ s.dev.nowUs) :
    Gives (.creditSnapTimer p) s (updPort s.dev p fun x => { x with ctl := x.ctl ++ [.creditSnap], snapAt := s.dev.nowUs }) :=
  gives_of_port (c := fun d => (getPort d p).st == .up && decide ((getPort d p).snapAt + 10 ≤ d.nowUs))
    (g := fun d => updPort d p fun x => { x with ctl := x.ctl ++ [.creditSnap], snapAt := d.nowUs }) hp
    (by rw [hup, decide_eq_true hold]; rfl) rfl

theorem gives_beaconTimer (hp : p < 288) (hup : (getPort s.dev p).st = .up) (hold : (getPort s.dev p).beacAt + 100000 ≤ s.dev.nowUs) :
    Gives (.beaconTimer p) s (updPort s.dev p fun x => { x with ctl := x.ctl ++ [.beacon], beacAt := s.dev.nowUs }) :=
  gives_of_port (c := fun d => (getPort d p).st == .up && decide ((getPort d p).beacAt + 100000 ≤ d.nowUs))
    (g := fun d => updPort d p fun x => { x with ctl := x.ctl ++ [.beacon], beacAt := d.nowUs }) hp
    (by rw [hup, decide_eq_true hold]; rfl) rfl

theorem gives_beaconMissing (hp : p < 288) (hface : p < 256) (hclass : classifying s.dev = true) (hplan : (planOf s.dev p).kind ≠ 0)
    (hgone : beaconGone s.dev p = true) : Gives (.beaconMissing p) s (settleLinks s.dev (checkPort s.dev p)) := by
  have hgo : ¬ (!classifying s.dev || decide ((planOf s.dev p).kind = 0)) = true := by
    rw [hclass, decide_eq_false hplan]
    decide
  rw [Gives, exec, execBeaconMissing, onLinks_of_ok (portOk_of_lt hp)]
  dsimp only
  rw [if_neg hgo, if_neg (Nat.not_le.mpr hface), if_pos hgone]

/-- The device as the transmitter of a port finds it: what waited for it has gone on. -/
def readied (d : Dev) (p : Nat) : Dev :=
  let x := getPort d p
  let d1 := if x.st == .up then wakeRecords d p else d
  policeDie (if x.st == .up || x.st == .retrain then stallTick d1 p else d1) (p / 16)

/-- What the transmitter sends. -/
def transmit (x : Port) (d : Dev) (p : Nat) : Dev :=
  match x.st, x.ctl with
  | .down, _ => d
  | .init, c :: _ => putCtl d p c
  | .up, c :: _ => putCtl d p c
  | .up, [] => (putData d p).getD (putIdle d p)
  | _, _ => putIdle d p

variable {x : Port} {e : CtlFlit} {r : List CtlFlit}

theorem transmit_of_control (hst : x.st = .up ∨ x.st = .init) (hctl : x.ctl = e :: r) : transmit x d p = putCtl d p e := by
  unfold transmit
  rcases hst with h | h <;> rw [h, hctl]

theorem transmit_of_up (hst : x.st = .up) (hctl : x.ctl = []) : transmit x d p = (putData d p).getD (putIdle d p) := by
  unfold transmit
  rw [hst, hctl]

theorem transmit_of_idle (hst : x.st = .init ∧ x.ctl = [] ∨ x.st = .train ∨ x.st = .retrain) : transmit x d p = putIdle d p := by
  unfold transmit
  rcases hst with ⟨h, hctl⟩ | h | h
  · rw [h, hctl]
  · rw [h]
  · rw [h]

theorem transmit_of_down (hst : x.st = .down) : transmit x d p = d := by
  unfold transmit
  rw [hst]

theorem gives_flitArbitration (hp : p < 288) : Gives (.flitArbitration p) s (transmit (getPort s.dev p) (readied s.dev p) p) := by
  rw [Gives, exec, execFlitArbitration, onUnit_of_ok (portOk_of_lt hp)]
  rfl

theorem readied_of_up (h : (getPort d p).st = .up) : readied d p = policeDie (stallTick (wakeRecords d p) p) (p / 16) := by
  simp [readied, h]

theorem readied_of_retrain (h : (getPort d p).st = .retrain) : readied d p = policeDie (stallTick d p) (p / 16) := by
  simp [readied, h]

/-- A port in DOWN, TRAIN or INIT, where nothing waits for it to send. -/
theorem readied_of_other (hst : (getPort d p).st ∈ [.down, .train, .init]) : readied d p = policeDie d (p / 16) := by
  unfold readied
  dsimp only
  generalize (getPort d p).st = st at hst
  simp only [List.mem_cons, List.not_mem_nil, or_false] at hst
  rcases hst with rfl | rfl | rfl <;> rfl

end Sys2Proof.Machine

namespace Sys2Proof.Machine

/-- Settles O23: each row is its own case; the outcomes are read off the link rules' functions. -/
theorem linkStatesFollowTraining : Obligations.LinkStatesFollowTraining := by
  unfold Obligations.LinkStatesFollowTraining
  intro s p hp d x
  refine ⟨fun hdown hrole hon hlost hwait => ?_, fun st ws htrain => ?_, fun lock => gives_trainTimeout hp,
    gives_initComplete hp, gives_initTimeout hp, fun lanes hup => ?_, gives_retrainLock hp, gives_retrainTimeout hp,
    fun q hq i hi => ?_⟩
  · refine gives_downRetry hp ?_
    rcases hwait with h | h <;> simp [mayTrain, hdown, hrole, hon, hlost, h, x, d]
  · intro kept q e y
    have hgives := gives_trainLock (st := st) (ws := ws) hp htrain
    dsimp only at hgives
    rw [updPort, locked] at hgives
    simp only [noticesRelease_iff] at hgives
    exact hgives
  · have hgives := gives_lossOfLock (lanes := lanes) (s := s) hp
    rwa [enterRetrain_of_up hup] at hgives
  · have hno : portOk q = false := portOk_of_ge hq
    simp only [List.mem_cons, List.not_mem_nil, or_false] at hi
    rcases hi with rfl | rfl | rfl | rfl | rfl <;> exact (exec_runsWhere _ s).fault hno

/-- Settles O24: a flit is taken by its CRC, then by its kind; a data flit by its CRC and SEQ. -/
theorem flitsAreReceived : Obligations.FlitsAreReceived := by
  unfold Obligations.FlitsAreReceived
  refine ⟨fun s p f hp hst => ?_, fun s p f hp hst htype => ?_⟩
  · intro d a e h
    have he : e = fecCounted s.dev p f := rfl
    have hh : h = takeHeader (fecCounted s.dev p f) p f.hdr := rfl
    clear_value h e
    subst hh he
    refine ⟨fun hcrc i hi => ?_, fun hcrc => ⟨fun hctl hkind => ?_, fun hon => ⟨fun hidle => ?_, fun hctl => ?_⟩⟩,
      gives_beacon_of_monitor hp⟩
    · simp only [List.mem_cons, List.not_mem_nil, or_false] at hi
      rcases hi with rfl | rfl | rfl | rfl | rfl | rfl
      · exact gives_flit_of_fail hp hst hcrc exec_idleFlit
      · exact gives_flit_of_fail hp hst hcrc exec_nak
      · exact gives_flit_of_fail hp hst hcrc exec_creditInit
      · exact gives_flit_of_fail hp hst hcrc exec_creditSnap
      · exact gives_flit_of_fail hp hst hcrc exec_beacon
      · exact gives_downNotice_of_fail hp hst hcrc
    · exact gives_downNotice_of_pass (flitTakes_of_kind hp hctl (.inr hkind)) hst hcrc
    · have htakes : flitTakes p 2 0 f = true := flitTakes_of_kind hp hidle (.inl (by decide))
      exact (gives_flit_of_pass htakes hst hcrc hon exec_idleFlit :)
    · have htakes (kind : Nat) (hkind : field (flitWord f 0) 63 56 = kind) : flitTakes p 1 kind f = true :=
        flitTakes_of_kind hp hctl (.inr hkind)
      refine ⟨fun hkind => ?_, fun hkind hinit => ?_, fun hkind => ?_, fun hkind => ?_⟩
      · exact (gives_flit_of_pass (htakes 1 hkind) hst hcrc hon exec_nak :)
      · have hgives := gives_flit_of_pass (htakes 2 hkind) hst hcrc hon exec_creditInit
        rwa [creditInitTaken_of_init hinit] at hgives
      · exact (gives_flit_of_pass (htakes 3 hkind) hst hcrc hon exec_creditSnap :)
      · exact (gives_flit_of_pass (htakes 4 hkind) hst hcrc hon exec_beacon :)
  · intro d e
    have he : e = (flitArrives s.dev p f).1 := rfl
    clear_value e
    have hgives := gives_dataFlit hp hst htype
    refine ⟨fun hoff => ?_, fun hon hcrc hseq => ?_, fun hon hbad => ⟨fun hnak => ?_, fun t hnak => ?_⟩⟩
    · rwa [dataTaken_of_off hoff, ← he] at hgives
    · intro h
      have hh : h = takeHeader e p f.hdr := rfl
      rw [dataTaken_of_expected hon hcrc hseq, ← he, ← hh] at hgives
      clear_value h
      rw [acceptFlit_eq] at hgives
      exact hgives
    · have htime : e.nowUs = s.dev.nowUs := he ▸ flitArrives_nowUs s.dev p f
      rwa [dataTaken_of_first_gap hon hbad hnak, ← he, sendNak, htime] at hgives
    · rwa [dataTaken_of_asked hon hbad hnak, ← he] at hgives

/-- Settles O25: the timers are their own cases; the transmitter sends by the port's state and its control flits, after what waited
for it has gone on. -/
theorem linkTimersAndTransmission : Obligations.LinkTimersAndTransmission := by
  unfold Obligations.LinkTimersAndTransmission
  intro s p hp d x
  have harb := gives_flitArbitration (s := s) hp
  refine ⟨fun t => gives_nakRepeat hp, fun o r => gives_replayTimer hp, fun hup => ⟨gives_creditSnapTimer hp hup, gives_beaconTimer hp hup, ?_⟩,
    fun c r hinit hctl => ?_, fun hinit hctl => ?_, fun htrain => ?_, fun hretrain => ?_, fun hdown => ?_, gives_beaconMissing hp⟩
  · intro a
    rw [readied_of_up hup] at harb
    refine ⟨fun c r hctl => ?_, fun hctl => ?_⟩
    · rwa [transmit_of_control (.inl hup) hctl] at harb
    · rwa [transmit_of_up hup hctl] at harb
  · rwa [transmit_of_control (.inr hinit) hctl, readied_of_other (by rw [hinit]; decide)] at harb
  · rwa [transmit_of_idle (.inl ⟨hinit, hctl⟩), readied_of_other (by rw [hinit]; decide)] at harb
  · rwa [transmit_of_idle (.inr (.inl htrain)), readied_of_other (by rw [htrain]; decide)] at harb
  · rwa [transmit_of_idle (.inr (.inr hretrain)), readied_of_retrain hretrain] at harb
  · rwa [transmit_of_down hdown, readied_of_other (by rw [hdown]; decide)] at harb

end Sys2Proof.Machine
end

section
/-!
SUPPORT. The torus fabric (chapter 16): transit packets, ring maps and the release of bypass pairs.
-/
namespace Sys2Proof.Machine

variable {s : State} {d : Dev} {k : PktRx}

/-! ## Transit packets (R540, R576, R587) -/

theorem passesOn_iff : passesOn d k = true ↔
    hasEnvelope (getPort d k.port).role (typeVc (pktType k.words)) = true ∧ k.dst ≠ ownAddr d := by
  simp [passesOn]

theorem gives_transitPacket (hport : k.port < 288) : Gives (.transitPacket k) s (transit s.dev k) := onUnit_of_ok (decide_eq_true hport) ..

theorem transit_of_ours (h : ¬ passesOn d k = true) : transit d k = d := by
  rw [transit, if_pos (by simpa using h)]

theorem transit_of_spoiled (h : passesOn d k = true) (hspoil : spoilsAt d k = true) :
    transit d k = bump (takeArrived d k) ctrCableSpoil k.port := by
  rw [transit, if_neg (by simp [h]), if_pos hspoil]

theorem transit_of_served (h : passesOn d k = true) (hserved : spoilsAt d k = false) : transit d k = passOn (takeArrived d k) k := by
  rw [transit, if_neg (by simp [h]), if_neg (by simp [hserved])]

theorem passOn_of_last (h : k.hops ≤ 1) : passOn d k = bump d ctrRouteDrop 0 := if_pos h

theorem passOn_of_hops (h : 1 < k.hops) : passOn d k =
    routeOrHold d (typeVc (pktType k.words)) (pktJob k.words) k.dst (mkWord [(k.dst, 48), (k.src, 32), (k.hops - 1, 24)] :: k.words) :=
  if_neg (Nat.not_le.mpr h)

theorem retryHold_eq (d : Dev) (h : RouteHold) : retryHold d h = (routeNow d h.vc h.job h.dst h.words).getD (bump d ctrRouteDrop 0) := by
  unfold retryHold
  cases routeNow d h.vc h.job h.dst h.words <;> rfl

/-! ## Ring maps (R586) -/

/-- Is the SEQ of a RING_STATE forward of the one its entry holds? -/
def ringForward (d : Dev) (key seq : Nat) : Bool :=
  match SMap.get? d.fabric.ring key with
  | some e => decide (1 ≤ (seq + 256 - e.seq) % 256) && decide ((seq + 256 - e.seq) % 256 ≤ 127)
  | none => true

theorem ringForward_iff {key seq : Nat} : ringForward d key seq = true ↔
    ∀ o, SMap.get? d.fabric.ring key = some o → 1 ≤ (seq + 256 - o.seq) % 256 ∧ (seq + 256 - o.seq) % 256 ≤ 127 := by
  unfold ringForward
  cases SMap.get? d.fabric.ring key with
  | none => simp
  | some e => simp

/-- The entry that a RING_STATE gives its map. -/
def ringEntryOf (d : Dev) (w : W64) : RingEntry :=
  { seq := field w 47 40, plusN := field w 28 24, minusN := field w 23 19, plusNext := field w 18 15, minusNext := field w 14 11
    at_ := d.nowUs }

/-- The key of the map entry that a RING_STATE replaces. -/
def ringKeyOf (w : W64) : Nat := 8 * field w 49 48 + coord (field w 8 0) (field w 49 48)

/-- The device with the entry replaced and counted. -/
def ringTaken (d : Dev) (w : W64) : Dev :=
  bump { d with fabric := { d.fabric with ring := SMap.set d.fabric.ring (ringKeyOf w) (ringEntryOf d w) } } ctrRingStateRx (field w 49 48)

/-- A RING_STATE goes on in its direction of travel, its TTL less one. -/
def ringOn (d : Dev) (k : PktRx) : Dev :=
  let w := wordAt k.words 1
  let e := ringEntryOf d w
  match (trunksOn (ringTaken d w) (field w 49 48) ((planOf d k.port).dir != 0)).head? with
  | some p => enqueue (ringTaken d w) p { queue := 64, vc := 7, words := [commonWord 0x70 0 16,
      ringWord (field w 49 48) e.seq (field w 39 36 - 1) e.plusN e.minusN e.plusNext e.minusNext (field w 8 0)] }
  | none => ringTaken d w

theorem ringOn_of_none (h : (trunksOn (ringTaken d (wordAt k.words 1)) (field (wordAt k.words 1) 49 48)
    ((planOf d k.port).dir != 0)).head? = none) : ringOn d k = ringTaken d (wordAt k.words 1) := by
  simp only [ringOn, h]

theorem ringOn_of_some {p : Nat} (h : (trunksOn (ringTaken d (wordAt k.words 1)) (field (wordAt k.words 1) 49 48)
    ((planOf d k.port).dir != 0)).head? = some p) :
    ringOn d k = enqueue (ringTaken d (wordAt k.words 1)) p { queue := 64, vc := 7, words := [commonWord 0x70 0 16,
      ringWord (field (wordAt k.words 1) 49 48) (field (wordAt k.words 1) 47 40) (field (wordAt k.words 1) 39 36 - 1)
        (field (wordAt k.words 1) 28 24) (field (wordAt k.words 1) 23 19) (field (wordAt k.words 1) 18 15)
        (field (wordAt k.words 1) 14 11) (field (wordAt k.words 1) 8 0)] } := by
  simp only [ringOn, h]
  rfl

theorem ringIn_eq (d : Dev) (k : PktRx) : ringIn d k =
    if !ringForward d (ringKeyOf (wordAt k.words 1)) (field (wordAt k.words 1) 47 40) ||
      !sameLine (field (wordAt k.words 1) 49 48) (field (wordAt k.words 1) 8 0) (ownAddr d) then d
    else if field (wordAt k.words 1) 39 36 = 0 || field (wordAt k.words 1) 8 0 = ownAddr d then ringTaken d (wordAt k.words 1)
    else ringOn d k := by
  rw [ringIn]
  rfl

theorem ringIn_of_stale (h : ¬ ringForward d (ringKeyOf (wordAt k.words 1)) (field (wordAt k.words 1) 47 40) = true ∨
    sameLine (field (wordAt k.words 1) 49 48) (field (wordAt k.words 1) 8 0) (ownAddr d) = false) : ringIn d k = d := by
  rw [ringIn_eq, if_pos]
  rcases h with h | h
  · rw [Bool.eq_false_iff.mpr h]
    rfl
  · rw [h]
    exact Bool.or_true _

section newer

variable (hnew : ringForward d (ringKeyOf (wordAt k.words 1)) (field (wordAt k.words 1) 47 40) = true)
  (hline : sameLine (field (wordAt k.words 1) 49 48) (field (wordAt k.words 1) 8 0) (ownAddr d) = true)
include hnew hline

theorem ringIn_of_newer : ringIn d k =
    if field (wordAt k.words 1) 39 36 = 0 || field (wordAt k.words 1) 8 0 = ownAddr d then ringTaken d (wordAt k.words 1)
    else ringOn d k := by
  rw [ringIn_eq, hnew, hline, if_neg (by decide)]

theorem ringIn_of_ended (hend : field (wordAt k.words 1) 39 36 = 0 ∨ field (wordAt k.words 1) 8 0 = ownAddr d) :
    ringIn d k = ringTaken d (wordAt k.words 1) := by
  rw [ringIn_of_newer hnew hline, if_pos (by simpa using hend)]

theorem ringIn_of_going (httl : field (wordAt k.words 1) 39 36 ≠ 0) (hsrc : field (wordAt k.words 1) 8 0 ≠ ownAddr d) :
    ringIn d k = ringOn d k := by
  rw [ringIn_of_newer hnew hline, if_neg (by simp [httl, hsrc])]

end newer

/-! ## Bypass pairs (R580, R581) -/

theorem revertPair_eq (d : Dev) (q : Nat) : revertPair d q =
    let a := pairDone d q
    let x := a.fabric.pairs.getD q {}
    if x.st = .releasing ∧ x.startAt + 2000000 ≤ a.nowUs then
      raiseTrap (bump (joinPair a q fun x => { x with reverted := true }) ctrBypassReverts q) { cause := 0x91, kind := 7, unit := q }
    else a := by
  simp only [revertPair, Bool.and_eq_true, beq_iff_eq, decide_eq_true_eq]

theorem gives_bypassRelease {q : Nat} (hq : q < 16) : Gives (.bypassRelease q) s
    (settleLinks s.dev (if mayRelease s.dev q then bump (unjoinPair s.dev q) ctrBypassReleases q else s.dev)) :=
  onLinks_of_ok (decide_eq_true hq) ..

theorem gives_ringStateTimer (hon : linksOn s.dev = true) (hold : s.dev.fabric.ringAt + 100000 ≤ s.dev.nowUs) : Gives .ringStateTimer s
    (forEach [0, 1, 2] { s.dev with fabric := { s.dev.fabric with ringAt := s.dev.nowUs } } sendRing) := by
  have hgo : (linksOn s.dev && decide (s.dev.fabric.ringAt + 100000 ≤ s.dev.nowUs)) = true := by rw [hon, decide_eq_true hold]; rfl
  rw [Gives, exec, execRingStateTimer, onDev_next, if_pos hgo]

end Sys2Proof.Machine

namespace Sys2Proof.Machine

/-- Settles O57: each row is the equation of its own case. -/
theorem fabricRowsRouteMapAndRelease : Obligations.FabricRowsRouteMapAndRelease := by
  unfold Obligations.FabricRowsRouteMapAndRelease
  refine ⟨fun s k hport => ?_, fun s k d harrives hkind => ?_, fun s => ?_⟩
  · intro d vc others
    have hgives := gives_transitPacket (s := s) hport
    refine ⟨fun hours => ?_, fun hothers hspoil => ?_, fun hothers hserved hlast => ?_, fun hothers hserved hhops => ?_⟩
    · rwa [transit_of_ours (mt passesOn_iff.mp hours)] at hgives
    · rwa [transit_of_spoiled (passesOn_iff.mpr hothers) hspoil] at hgives
    · rwa [transit_of_served (passesOn_iff.mpr hothers) hserved, passOn_of_last hlast] at hgives
    · rwa [transit_of_served (passesOn_iff.mpr hothers) hserved, passOn_of_hops hhops] at hgives
  · intro w1 axis src key e a newer
    have hgives : Gives (.ringState k) s (ringIn d k) := onArrivalKind_of_arrives (beq_iff_eq.mpr hkind) harrives _
    refine ⟨fun hstale => ?_, fun hnewer hline => ⟨fun hend => ?_, fun httl hsrc => ⟨fun hout => ?_, fun p hout => ?_⟩⟩⟩
    · rwa [ringIn_of_stale (hstale.imp (mt ringForward_iff.mp) id)] at hgives
    · rwa [ringIn_of_ended (ringForward_iff.mpr hnewer) hline hend] at hgives
    · rwa [ringIn_of_going (ringForward_iff.mpr hnewer) hline httl hsrc, ringOn_of_none hout] at hgives
    · rwa [ringIn_of_going (ringForward_iff.mpr hnewer) hline httl hsrc, ringOn_of_some hout] at hgives
  · intro d due
    refine ⟨?_, gives_ringStateTimer, rfl, fun q hq => ⟨fun hmay => ?_, fun hmay => ?_⟩, fun q hq => ?_, ?_⟩
    · simp only [← retryHold_eq]
      rfl
    · have hgives := gives_bypassRelease (s := s) hq
      rwa [if_pos hmay] at hgives
    · have hgives := gives_bypassRelease (s := s) hq
      rwa [if_neg (Bool.eq_false_iff.mp hmay)] at hgives
    · exact if_neg (by simpa using hq)
    · have hgives : Gives .bypassReleaseTimeout s (settleLinks d (forEach (List.range 16) d revertPair)) := by
        rw [Gives, exec, execBypassReleaseTimeout, onLinks_of_ok rfl]
      rwa [show revertPair = _ from funext fun e => funext (revertPair_eq e)] at hgives

end Sys2Proof.Machine
end

section
/-!
SUPPORT. Liveness and claims (R624 to R628, R704).
-/
namespace Sys2Proof.Machine

variable {s : State} {d : Dev} {k : PktRx} {jb : Job} {g : ParGroup}

/-! ## LIVE and WITHDRAWN arrive -/

section ofJob

variable (hscope : field (wordAt k.words 2) 63 62 = 1) (hjb : getJob d (pktJob k.words) = some jb)
include hscope hjb

theorem liveIn_of_job : liveIn d k =
    if jobKey jb == wordAt k.words 1 && nextUp jb.ordinal (liveOrds jb) == some (field (wordAt k.words 2) 8 0) then
      updJob d (pktJob k.words) fun jb => { jb with liveRx := d.nowUs }
    else d := by
  simp only [liveIn, if_pos hscope, hjb]

theorem liveIn_of_watched (hkey : jobKey jb = wordAt k.words 1)
    (hwatched : nextUp jb.ordinal (liveOrds jb) = some (field (wordAt k.words 2) 8 0)) :
    liveIn d k = setJob d (pktJob k.words) { jb with liveRx := d.nowUs } := by
  rw [liveIn_of_job hscope hjb, if_pos (by simp [hkey, hwatched]), updJob_of_getJob hjb]

theorem liveIn_of_unwatched (h : jobKey jb ≠ wordAt k.words 1 ∨
    nextUp jb.ordinal (liveOrds jb) ≠ some (field (wordAt k.words 2) 8 0)) : liveIn d k = d := by
  rw [liveIn_of_job hscope hjb, if_neg]
  rcases h with h | h <;> simp [h]

theorem withdrawnIn_of_job : withdrawnIn d k =
    if jobKey jb ≠ wordAt k.words 1 then d
    else if field (wordAt k.words 2) 24 16 ∈ jb.withdrawn then bump d ctrWithdrawnSpoil (pktJob k.words)
    else markWithdrawn d (pktJob k.words) (field (wordAt k.words 2) 24 16) := by
  simp only [withdrawnIn, if_pos hscope, hjb, bne_iff_ne, List.contains_iff_mem]

end ofJob

section ofGroup

variable (hscope : field (wordAt k.words 2) 63 62 = 2) (hg : d.parity.group = some g)
include hscope hg

theorem liveIn_of_group : liveIn d k =
    if groupId g == wordAt k.words 1 && nextUp g.pos (livePos d) == some (field (wordAt k.words 2) 8 0) then
      updPar d fun p => { p with liveRx := d.nowUs }
    else d := by
  simp only [liveIn, hscope, hg]
  rfl

theorem liveIn_of_watched_position (hid : groupId g = wordAt k.words 1)
    (hwatched : nextUp g.pos (livePos d) = some (field (wordAt k.words 2) 8 0)) :
    liveIn d k = { d with parity := { d.parity with liveRx := d.nowUs } } := by
  rw [liveIn_of_group hscope hg, if_pos (by simp [hid, hwatched])]
  rfl

theorem liveIn_of_unwatched_position (h : groupId g ≠ wordAt k.words 1 ∨
    nextUp g.pos (livePos d) ≠ some (field (wordAt k.words 2) 8 0)) : liveIn d k = d := by
  rw [liveIn_of_group hscope hg, if_neg]
  rcases h with h | h <;> simp [h]

theorem withdrawnIn_of_group : withdrawnIn d k =
    if groupId g = wordAt k.words 1 then markLost d (field (wordAt k.words 2) 24 16) else d := by
  simp only [withdrawnIn, hscope, hg, beq_iff_eq]
  rfl

end ofGroup

/-! ## The timers -/

/-- The device with the LIVE of its jobs sent where it is due. -/
def jobsLive (d : Dev) : Dev := forEach (SMap.keys d.jobs) d jobLive

theorem gives_liveTimer_of_idle (h : s.dev.parity.group = none ∨ s.dev.parity.out = true ∨ s.dev.nowUs < s.dev.parity.liveTx + 5000) :
    Gives .liveTimer s (jobsLive s.dev) := by
  rw [Gives, exec, execLiveTimer, onDev_next]
  cases hg : s.dev.parity.group with
  | none => simp only [jobsLive]
  | some g =>
    have hidle : (s.dev.parity.out || decide (s.dev.nowUs < s.dev.parity.liveTx + 5000)) = true := by
      simpa [hg] using h
    simp only [if_pos hidle, jobsLive]

theorem gives_liveTimer_of_due {p : Nat} (hg : s.dev.parity.group = some g) (hin : s.dev.parity.out = false)
    (hdue : s.dev.parity.liveTx + 5000 ≤ s.dev.nowUs) (hnext : nextDown g.pos (livePos s.dev) = some p) :
    Gives .liveTimer s (sendGroupLive
      { jobsLive s.dev with parity := { (jobsLive s.dev).parity with liveTx := s.dev.nowUs } } p 1 0) := by
  have hgo : ¬ (s.dev.parity.out || decide (s.dev.nowUs < s.dev.parity.liveTx + 5000)) = true := by
    simp only [hin, Bool.false_or, decide_eq_true_eq]
    omega
  rw [Gives, exec, execLiveTimer, onDev_next]
  simp only [hg, if_neg hgo, hnext]
  rfl

theorem gives_liveWatch_of_idle {j : Nat} (hj : j < 64) (hjb : getJob s.dev j = some jb)
    (h : jb.q < 2 ∨ jb.stopped = true ∨ s.dev.nowUs < jb.liveRx + 50000) : Gives (.liveWatchTimeout j) s s.dev := by
  have hidle : (decide (jb.q < 2) || jb.stopped || decide (s.dev.nowUs < jb.liveRx + 50000)) = true := by
    simpa [or_assoc] using h
  rw [Gives, exec, execLiveWatchTimeout, onUnit_of_ok (decide_eq_true (Nat.le_of_lt hj)), if_neg (Nat.ne_of_lt hj)]
  simp only [hjb, if_pos hidle]

theorem gives_liveWatch_of_silent {j q : Nat} (hj : j < 64) (hjb : getJob s.dev j = some jb) (hq : 2 ≤ jb.q) (hgoes : jb.stopped = false)
    (hold : jb.liveRx + 50000 ≤ s.dev.nowUs) (hnext : nextUp jb.ordinal (liveOrds jb) = some q) :
    Gives (.liveWatchTimeout j) s (poolsSettle (flushJob (declareWithdrawn s.dev j q) j)) := by
  have hgo : ¬ (decide (jb.q < 2) || jb.stopped || decide (s.dev.nowUs < jb.liveRx + 50000)) = true := by
    simp only [hgoes, Bool.or_false, Bool.or_eq_true, decide_eq_true_eq]
    omega
  rw [Gives, exec, execLiveWatchTimeout, onUnit_of_ok (decide_eq_true (Nat.le_of_lt hj)), if_neg (Nat.ne_of_lt hj)]
  simp only [hjb, if_neg hgo, hnext]

theorem gives_liveWatch_of_group {p : Nat} (hg : s.dev.parity.group = some g) (hin : s.dev.parity.out = false)
    (hold : s.dev.parity.liveRx + 50000 ≤ s.dev.nowUs) (hnext : nextUp g.pos (livePos s.dev) = some p) :
    Gives (.liveWatchTimeout 64) s (poolsSettle (flushAll (declareLost s.dev p))) := by
  have hgo : ¬ (s.dev.parity.out || decide (s.dev.nowUs < s.dev.parity.liveRx + 50000)) = true := by
    simp only [hin, Bool.false_or, decide_eq_true_eq]
    omega
  rw [Gives, exec, execLiveWatchTimeout, onUnit_of_ok (by decide), if_pos rfl]
  simp only [hg, if_neg hgo, hnext]

/-! ## Claims and their answers -/

/-- The claims that an answer is to. -/
def claimMine (k : PktRx) (c : ClaimOut) : Bool :=
  c.scope == field (wordAt k.words 2) 63 62 && (field (wordAt k.words 2) 63 62 == 2 || c.job == pktJob k.words) && c.addr == some k.src

/-- The device without the claims that are answered. -/
def claimsEnded (d : Dev) (k : PktRx) : Dev :=
  { d with parity := { d.parity with claims := d.parity.claims.filter fun x => !claimMine k x } }

theorem claimAnswerIn_of_none (h : d.parity.claims.find? (claimMine k) = none) : claimAnswerIn d k = d := by
  unfold claimMine at h
  simp only [claimAnswerIn, h]

section answered

variable {c : ClaimOut} (hc : d.parity.claims.find? (claimMine k) = some c)
include hc

theorem claimAnswerIn_of_some : claimAnswerIn d k =
    if field (wordAt k.words 2) 63 62 = 2 then
      if field (wordAt k.words 2) 47 32 != stOk && d.parity.ready then
        raiseTrap { claimsEnded d k with start := { d.start with claimBad := true } }
          { cause := 0xB4, kind := 8, unit := c.target, details := [wordAt k.words 3] }
      else claimsEnded d k
    else
      claimsSettle (updRebuild (claimsEnded d k) (pktJob k.words) fun b =>
        { b with waiting := delNat c.target b.waiting, refused := b.refused || field (wordAt k.words 2) 47 32 != stOk
                 answers := if field (wordAt k.words 2) 47 32 != stOk then b.answers
                   else b.answers ++ [(c.target, wordAt k.words 4, field (wordAt k.words 2) 55 48, field (wordAt k.words 2) 57 56)] })
        (pktJob k.words) := by
  unfold claimMine at hc
  simp only [claimAnswerIn, hc]
  rfl

theorem claimAnswerIn_of_group_quiet (hscope : field (wordAt k.words 2) 63 62 = 2)
    (hquiet : (field (wordAt k.words 2) 47 32 != stOk) = false ∨ d.parity.ready = false) : claimAnswerIn d k = claimsEnded d k := by
  rw [claimAnswerIn_of_some hc, if_pos hscope, if_neg]
  rcases hquiet with h | h <;> simp [h]

theorem claimAnswerIn_of_group_refused (hscope : field (wordAt k.words 2) 63 62 = 2)
    (huse : (field (wordAt k.words 2) 47 32 != stOk) = true) (hready : d.parity.ready = true) : claimAnswerIn d k =
      raiseTrap { claimsEnded d k with start := { d.start with claimBad := true } }
        { cause := 0xB4, kind := 8, unit := c.target, details := [wordAt k.words 3] } := by
  rw [claimAnswerIn_of_some hc, if_pos hscope, huse, hready, if_pos (by decide)]

theorem claimAnswerIn_of_job (hscope : field (wordAt k.words 2) 63 62 = 1) : claimAnswerIn d k =
    claimsSettle (updRebuild (claimsEnded d k) (pktJob k.words) fun b =>
      { b with waiting := delNat c.target b.waiting, refused := b.refused || field (wordAt k.words 2) 47 32 != stOk
               answers := if field (wordAt k.words 2) 47 32 != stOk then b.answers
                 else b.answers ++ [(c.target, wordAt k.words 4, field (wordAt k.words 2) 55 48, field (wordAt k.words 2) 57 56)] })
      (pktJob k.words) := by
  rw [claimAnswerIn_of_some hc, if_neg (by omega)]

end answered

end Sys2Proof.Machine

namespace Sys2Proof.Machine

/-- Settles O54: a LIVE, a declaration and a claim's answer by their scope; a watch by what keeps it from running out. -/
theorem livenessAndClaims : Obligations.LivenessAndClaims := by
  unfold Obligations.LivenessAndClaims
  refine ⟨fun s k d harrives => ?_, fun s => ⟨⟨gives_liveTimer_of_idle, fun g p => gives_liveTimer_of_due⟩,
    fun j jb hj hjb => ⟨gives_liveWatch_of_idle hj hjb, fun q => gives_liveWatch_of_silent hj hjb⟩,
    fun g p => gives_liveWatch_of_group, fun j hj => if_neg (by simpa using hj)⟩, fun s k d harrives => ?_⟩
  · intro w2 j
    refine ⟨fun hlive => ?_, fun hgone => ?_⟩
    · have hgives : Gives (.live k) s (liveIn d k) := onArrivalKind_of_arrives (beq_iff_eq.mpr hlive) harrives _
      refine ⟨fun jb hscope hjb => ⟨fun hkey hwatched => ?_, fun hother => ?_⟩, fun g hscope hg => ⟨fun hid hwatched => ?_, fun hother => ?_⟩⟩
      · rwa [liveIn_of_watched hscope hjb hkey hwatched] at hgives
      · rwa [liveIn_of_unwatched hscope hjb hother] at hgives
      · rwa [liveIn_of_watched_position hscope hg hid hwatched] at hgives
      · rwa [liveIn_of_unwatched_position hscope hg hother] at hgives
    · have hgives : Gives (.withdrawn k) s (poolsSettle (flushAll (withdrawnIn d k))) :=
        onArrivalKind_of_arrives (beq_iff_eq.mpr hgone) harrives _
      refine ⟨fun jb hscope hjb => ?_, fun g hscope hg => ?_⟩
      · rwa [withdrawnIn_of_job hscope hjb] at hgives
      · rwa [withdrawnIn_of_group hscope hg] at hgives
  · intro w2
    refine ⟨fun hask => onArrivalKind_of_arrives (by rw [hask]; rfl) harrives _, fun hanswer => ?_⟩
    have hgives : Gives (.claimAnswer k) s (poolsSettle (claimAnswerIn d k)) := onArrivalKind_of_arrives hanswer harrives _
    intro mine
    refine ⟨fun hnone => ?_, fun c hc => ?_⟩
    · rwa [claimAnswerIn_of_none hnone] at hgives
    · intro e inUse
      refine ⟨fun hscope hquiet => ?_, fun hscope huse hready => ?_, fun hscope => ?_⟩
      · rwa [claimAnswerIn_of_group_quiet hc hscope hquiet] at hgives
      · rwa [claimAnswerIn_of_group_refused hc hscope huse hready] at hgives
      · rwa [claimAnswerIn_of_job hc hscope] at hgives

end Sys2Proof.Machine
end

section
/-!
SUPPORT. Recording and replay over ports (R671, R675 to R680), and the memory that a record is read from.
-/
namespace Sys2Proof.Machine

variable {s : State} {d : Dev} {k : PktRx} {j : Nat} {jb : Job} {rp : Replay}

/-! ## Reading a memory without errors -/

/-- No block of the update dies is damaged, and no channel of theirs is out. -/
def MemSound (d : Dev) : Prop := ∀ u n, (getMem d u).errs = [] ∧ failedChans d u = [] ∧ erasures d u n = []

theorem countInner_of_no_errs (d : Dev) (u n : Nat) (l : List Nat) : countInner d u n l [] = d := rfl

theorem readBlocks_of_sound (h : MemSound d) (u n : Nat) (need : List Nat) : readBlocks d u n need = (d, some []) := by
  obtain ⟨herrs, hfailed, herased⟩ := h u n
  have hneed : (need.any fun c => ([] : List Nat).contains c) = false := by simp
  have hstripe : stripeErrs (getMem d u) n = [] := by rw [stripeErrs, herrs, List.filterMap_nil]
  simp only [readBlocks, hfailed, herased, hstripe, countInner_of_no_errs, hneed]
  rfl

theorem readPart_of_sound (h : MemSound d) (u : Nat) (x : Nat × Nat × Nat × Nat) : readPart u { dev := d } x = { dev := d } := by
  simp only [readPart, readStripe, readBlocks_of_sound h]
  rfl

theorem readSpan_of_sound (h : MemSound d) (x : Span) : readSpan d x = { dev := d } := by
  unfold readSpan
  induction spanStripes (getMem d x.die) x with
  | nil => rfl
  | cons y ys ih => rw [List.foldl_cons, readPart_of_sound h, ih]

theorem readRecPart_of_sound (h : MemSound d) (off : Nat) (ws : List W64) (x : Span) :
    readRecPart off { dev := d, ws := ws } x = { dev := d, ws := ws } := by
  simp only [readRecPart, readSpan_of_sound h]
  rfl

theorem readRec_of_sound (h : MemSound d) (j : Nat) (side : Bool) (off len : Nat) (ws : List W64) :
    readRec d j side off len ws = { dev := d, ws := ws } := by
  unfold readRec
  induction recSpans j side off len with
  | nil => rfl
  | cons y ys ih => rw [List.foldl_cons, readRecPart_of_sound h, ih]

/-! ## The answer to a read (R675) -/

/-- The bytes asked for lie in the words that are read: those of the window, from its first word on. -/
theorem recSlice_window (ws : List W64) (off n : Nat) :
    recSlice ((ws.drop (off / 8)).take (n / 8 + 1)) (off % 8) n = recSlice ws off n := by
  have hlow : off % 8 / 8 = 0 := Nat.div_eq_of_lt (Nat.mod_lt _ (by decide))
  have hcount : min ((8 * min (n / 8 + 1) (ws.length - off / 8) - off % 8) / 8) (n / 8) = min ((8 * ws.length - off) / 8) (n / 8) := by
    omega
  simp only [recSlice, hlow, Nat.mod_mod, List.drop_zero, List.take_take, Nat.min_self, List.length_take, List.length_drop, hcount]

theorem recFetch_of_sound (h : MemSound d) (j : Nat) (jb : Job) (off n : Nat) :
    recFetch d j jb off n = (recSlice (recBuffer jb) off n, d) := by
  simp only [recFetch, readRec_of_sound h, recSlice_window]

/-- The REC_DATA that answers a read with the words `ws`. -/
def recAnswer (k : PktRx) (ws : List W64) : TxPacket :=
  { queue := pktJob k.words, vc := 5
    words := mkPacket 0x50 (pktJob k.words) ([wordAt k.words 1, mkWord [(pktJob k.words, 32), (8 * ws.length, 0)]] ++ ws) }

theorem recReadIn_of_job (hjb : getJob d (pktJob k.words) = some jb) : recReadIn d k =
    let a := recFetch d (pktJob k.words) jb (wordAt k.words 1).toNat (field (wordAt k.words 2) 31 0)
    enqueue a.2 k.port (recAnswer k a.1) := by
  simp only [recReadIn, hjb, recAnswer]

/-! ## Bytes of a replayed stream (R677) -/

/-- The request that an answer is to. -/
def askedOf (rp : Replay) (k : PktRx) : Option (Nat × Nat × Nat) := rp.asked.find? fun a => a.1 == (wordAt k.words 1).toNat

section ofReplay

variable (hjb : getJob d (pktJob k.words) = some jb) (hrp : jb.replay = some rp)
include hjb hrp

theorem replayDataIn_of_unasked
    (h : rp.active = false ∨ rp.port ≠ k.port ∨ k.words.drop 3 = [] ∨ askedOf rp k = none) : replayDataIn d k = d := by
  unfold replayDataIn
  simp only [hjb, Option.bind_some, hrp]
  split
  · rfl
  next a ha =>
    rw [if_pos]
    rcases h with h | h | h | h
    · simp [h]
    · simp [h]
    · simp [h]
    · rw [askedOf, ha] at h
      cases h

theorem replayDataIn_of_asked {a : Nat × Nat × Nat} (hask : askedOf rp k = some a) (hactive : rp.active = true)
    (hport : rp.port = k.port) (hws : k.words.drop 3 ≠ []) (hfits : 8 * (k.words.drop 3).length ≤ a.2.1) :
    replayDataIn d k =
      let off := (wordAt k.words 1).toNat
      let n := a.2.1 - 8 * (k.words.drop 3).length
      let rp2 := joinAhead (rp.ahead.length + 1) { rp with asked := rp.asked.erase a, ahead := SMap.set rp.ahead off (k.words.drop 3) }
      let e := setJob d (pktJob k.words) { jb with replay := some rp2 }
      replayPump (if n = 0 then e else askReplay e (pktJob k.words) rp.port (off + 8 * (k.words.drop 3).length) n) (pktJob k.words) := by
  have hgo : ¬ (!rp.active || rp.port != k.port || (k.words.drop 3).isEmpty || decide (a.2.1 < 8 * (k.words.drop 3).length)) = true := by
    rw [decide_eq_false (Nat.not_lt.mpr hfits)]
    simp [hactive, hport, hws]
  rw [askedOf] at hask
  simp only [replayDataIn, hjb, Option.bind_some, hrp, hask, if_neg hgo, updReplay, updJob_of_getJob hjb, Option.map_some]

end ofReplay

/-! ## Residues found as an injected copy is taken (R190) -/

theorem gives_replayData (harrives : Arrives 0x53 (replayDataBad k) k s d) : Gives (.replayData ⟨k, none⟩) s (replayDataIn d k) :=
  onArrival_of_arrives harrives fun d => replayDataIn d k

theorem gives_replayData_of_residue (harrives : Arrives 0x53 (replayDataBad k) k s d) (r : SeamAt) : Gives (.replayData ⟨k, some r⟩) s
    (if residuesDiffer r.found then residueErr (replayDataIn d k) r.ctx r.slab r.pass r.found.lane (stageCode r.found.what)
      else replayDataIn d k) :=
  onArrival_of_arrives harrives fun d => seamFault (replayDataIn d k) (some r.found) r.ctx r.slab r.pass

/-! ## Records held for a mirror (R671) -/

/-- The device after the ended recordings of a job have let go what their mirrors cannot take. -/
def endedLapsed (d : Dev) (j : Nat) (jb : Job) : Dev := forEach jb.recEnded d fun d _ => onEnded d j recMirrorLapse

theorem gives_recMirrorTimeout (hj : j < 64) (hjb : getJob s.dev j = some jb) :
    Gives (.recMirrorTimeout j) s (recMirrorLapse (endedLapsed s.dev j jb) j) := by
  rw [Gives, exec, execRecMirrorTimeout, onUnit_of_ok (decide_eq_true hj)]
  simp only [hjb, endedLapsed]

theorem recMirrorLapse_of_down {r : Rec} (hr : (getJob d j).bind (·.recd) = some r) (hdown : recMirrorDown d r = true) (hheld : r.heldQ ≠ []) :
    recMirrorLapse d j = recUnhold (bumpBy d ctrRecDrop j r.heldQ.length) j
      { r with dropped := r.dropped + r.heldQ.length, drops := r.drops + r.heldQ.length } := by
  have hgo : (recMirrorDown d r && !r.heldQ.isEmpty) = true := by simp [hdown, hheld]
  simp only [recMirrorLapse, hr, if_pos hgo]

theorem recMirrorLapse_of_kept (h : ∀ r, (getJob d j).bind (·.recd) = some r → recMirrorDown d r = false ∨ r.heldQ = []) :
    recMirrorLapse d j = d := by
  unfold recMirrorLapse
  split
  · rfl
  next r hr =>
    rw [if_neg]
    rcases h r hr with hup | hnone
    · simp [hup]
    · simp [hnone]

theorem gives_recMirrorTimeout_of_none (hj : j < 64) (hjb : getJob s.dev j = none) : Gives (.recMirrorTimeout j) s s.dev := by
  rw [Gives, exec, execRecMirrorTimeout, onUnit_of_ok (decide_eq_true hj)]
  simp only [hjb, recMirrorLapse, Option.bind_none]

end Sys2Proof.Machine

namespace Sys2Proof.Machine

/-- Settles O56: a read by the memory it reads from, an answer of a replay by the request it is to, a lapse by what is held. -/
theorem recordsAreReadMirroredAndReplayed : Obligations.RecordsAreReadMirroredAndReplayed := by
  unfold Obligations.RecordsAreReadMirroredAndReplayed
  refine ⟨fun s k d harrives jb hjb => ?_, fun s k d harrives jb rp hjb hrp => ?_,
    fun s => ⟨rfl, rfl, fun j jb hj hjb => ?_, fun j => gives_recMirrorTimeout_of_none⟩⟩
  · have hgives : Gives (.recRead k) s (recReadIn d k) := onArrival_of_arrives harrives fun d => recReadIn d k
    rw [recReadIn_of_job hjb] at hgives
    refine ⟨hgives, fun hsound => ?_⟩
    rwa [recFetch_of_sound hsound] at hgives
  · have hgives := gives_replayData harrives
    refine ⟨fun hnone => ?_, fun a hask hactive hport hws hfits => ?_, fun t r ht => ?_⟩
    · rwa [replayDataIn_of_unasked hjb hrp hnone] at hgives
    · rwa [replayDataIn_of_asked hjb hrp hask hactive hport hws hfits] at hgives
    · obtain rfl : t = replayDataIn d k := Gives.unique ht hgives
      exact gives_replayData_of_residue harrives r
  · intro a
    have hgives : Gives (.recMirrorTimeout j) s (recMirrorLapse a j) := gives_recMirrorTimeout hj hjb
    refine ⟨fun r hr hdown hheld => ?_, fun hkept => ?_⟩
    · rwa [recMirrorLapse_of_down hr hdown hheld] at hgives
    · rwa [recMirrorLapse_of_kept hkept] at hgives

end Sys2Proof.Machine
end
